-- ==== Sys2Proof/Word.lean ====
section
/-!
DEFINITION. The plain types of the model: bytes, words, lane masks, and a list of key and value pairs.
-/
namespace Sys2Proof

/-- One byte (00_scope R5). -/
abbrev Byte := BitVec 8

/-- One word of 32 bits (R5), the size of a vector or scalar register (R13). -/
abbrev Word := BitVec 32

/-- A quad of 64 bits (R5). -/
abbrev Quad := BitVec 64

/-- A set of lanes: bit l is lane l (08 R179). -/
abbrev Mask := BitVec 64

/-- A sparse map: keys strictly rising. What an unlisted key means is said where the map is used. -/
abbrev SMap (α : Type) := List (Nat × α)

end Sys2Proof
end

