-- ==== Sys2Proof/Machine/Num.lean ====
section
/-!
DEFINITION. Exact values, the number formats and their rounding (07_number_formats R147 to R160, R173).

A value is an exact fraction, so every operation below is exact until `roundFmt` rounds it once.
-/
namespace Sys2Proof.Machine

/-- An extended real as the formats see it: NaN, an infinity, or the fraction num / den with a sign. A zero keeps its
sign (R148, R166). `den` is positive in every value built here. -/
inductive XReal where
  | nan
  | inf (neg : Bool)
  | fin (neg : Bool) (num den : Nat)
  deriving DecidableEq, Repr

/-- +0. -/
def XReal.zero : XReal := .fin false 0 1

/-- The natural number n. -/
def XReal.ofNat (n : Nat) : XReal := .fin false n 1

/-- The integer i. -/
def XReal.ofInt (i : Int) : XReal := .fin (decide (i < 0)) i.natAbs 1

/-- The dyadic number n times 2 to the power e. -/
def XReal.dyadic (neg : Bool) (n : Nat) (e : Int) : XReal :=
  if 0 ≤ e then .fin neg (n * 2 ^ e.toNat) 1 else .fin neg n (2 ^ (-e).toNat)

/-- Sign-bit negation, exact, also on NaN (13 R304). -/
def XReal.neg : XReal → XReal
  | .nan => .nan
  | .inf n => .inf (!n)
  | .fin n a b => .fin (!n) a b

def XReal.abs : XReal → XReal
  | .nan => .nan
  | .inf _ => .inf false
  | .fin _ a b => .fin false a b

def XReal.isNaN : XReal → Bool
  | .nan => true
  | _ => false

def XReal.isZero : XReal → Bool
  | .fin _ 0 _ => true
  | _ => false

def XReal.isFinite : XReal → Bool
  | .fin _ _ _ => true
  | _ => false

/-- The sign: true when the sign bit is set. NaN counts as positive. -/
def XReal.signBit : XReal → Bool
  | .nan => false
  | .inf n => n
  | .fin n _ _ => n

/-- Exact product; 0 times an infinity is NaN; a zero takes the IEEE sign (R166). -/
def XReal.mul : XReal → XReal → XReal
  | .nan, _ => .nan
  | _, .nan => .nan
  | .inf n, .inf m => .inf (n != m)
  | .inf n, .fin m a _ => if a = 0 then .nan else .inf (n != m)
  | .fin m a _, .inf n => if a = 0 then .nan else .inf (n != m)
  | .fin n a b, .fin m c d => .fin (n != m) (a * c) (b * d)

/-- The signed numerators of a finite sum over one denominator. -/
def addFin (n : Bool) (a b : Nat) (m : Bool) (c d : Nat) (rdn : Bool) : XReal :=
  let x : Int := (if n then -1 else 1) * ((a * d : Nat) : Int)
  let y : Int := (if m then -1 else 1) * ((c * b : Nat) : Int)
  if x + y = 0 then
    if a = 0 ∧ c = 0 ∧ n = m then .fin n 0 1 else .fin rdn 0 1
  else .fin (decide (x + y < 0)) (x + y).natAbs (b * d)

/-- Exact sum; `rdn` is the sign of an exact zero of addends that are not zeros of one sign (13 R305). -/
def XReal.add (x y : XReal) (rdn : Bool := false) : XReal :=
  match x, y with
  | .nan, _ => .nan
  | _, .nan => .nan
  | .inf n, .inf m => if n = m then .inf n else .nan
  | .inf n, .fin _ _ _ => .inf n
  | .fin _ _ _, .inf n => .inf n
  | .fin n a b, .fin m c d => addFin n a b m c d rdn

def XReal.sub (x y : XReal) (rdn : Bool := false) : XReal := x.add y.neg rdn

/-- Exact sum of a list in the extended reals (R166, R168): −0 when every addend is −0. -/
def sumX : List XReal → XReal
  | [] => .zero
  | [x] => x
  | x :: y :: r => x.add (sumX (y :: r))

/-- Exact quotient of finite values, for a divisor that is not zero; the special cases of R310 stand with FDIV. -/
def divFin (n : Bool) (a b : Nat) (m : Bool) (c d : Nat) : XReal := .fin (n != m) (a * d) (b * c)

/-- Order of two values that are not NaN: −1, 0 or 1. Zeros are equal. -/
def XReal.cmp : XReal → XReal → Int
  | .nan, _ => 0
  | _, .nan => 0
  | .inf n, .inf m => if n = m then 0 else if n then -1 else 1
  | .inf n, .fin _ _ _ => if n then -1 else 1
  | .fin _ _ _, .inf n => if n then 1 else -1
  | .fin n a b, .fin m c d =>
    let x : Int := (if n then -1 else 1) * ((a * d : Nat) : Int)
    let y : Int := (if m then -1 else 1) * ((c * b : Nat) : Int)
    if x < y then -1 else if x = y then 0 else 1

def XReal.lt (x y : XReal) : Bool := !x.isNaN && !y.isNaN && decide (x.cmp y < 0)
def XReal.le (x y : XReal) : Bool := !x.isNaN && !y.isNaN && decide (x.cmp y ≤ 0)

/-- floor of a finite value; 0 for the others. -/
def XReal.floor : XReal → Int
  | .fin n a b => if n then -(((a + b - 1) / b : Nat) : Int) else ((a / b : Nat) : Int)
  | _ => 0

/-! ## Formats -/

/-- How a format treats overflow, infinities and NaN (R156). -/
inductive FmtKind where
  | ieee      -- f64, f32, tf32, bf16, f16
  | e5m2
  | e4m3
  | noNaN     -- e3m2, e2m3, e2m1
  | b8ext
  | b8fin
  deriving DecidableEq, Repr

/-- A floating-point format: exponent width, trailing width, bias, and what R149 and R153 add. -/
structure FloatFmt where
  eb     : Nat
  t      : Nat
  bias   : Nat
  signed : Bool
  kind   : FmtKind
  deriving DecidableEq, Repr

/-- The binary8 member of a code 0x20 to 0x3E (R152, R153). -/
def b8Fmt (code : Nat) : Option FloatFmt :=
  let p := code % 8
  let signed := (code / 16) % 2 = 1
  let ext := (code / 8) % 2 = 1
  if p = 0 then none
  else some
    { eb := if signed then 8 - p else 9 - p
      t := p - 1
      bias := if signed then 2 ^ (7 - p) else 2 ^ (8 - p)
      signed := signed
      kind := if ext then .b8ext else .b8fin }

/-- The floating-point formats of R147 and R152; none for e8m0, integers, raw and reserved codes. -/
def floatFmt (code : Nat) : Option FloatFmt :=
  match code with
  | 0x00 => some ⟨11, 52, 1023, true, .ieee⟩
  | 0x01 => some ⟨8, 23, 127, true, .ieee⟩
  | 0x02 => some ⟨8, 10, 127, true, .ieee⟩
  | 0x03 => some ⟨8, 7, 127, true, .ieee⟩
  | 0x04 => some ⟨5, 10, 15, true, .ieee⟩
  | 0x05 => some ⟨5, 2, 15, true, .e5m2⟩
  | 0x06 => some ⟨4, 3, 7, true, .e4m3⟩
  | 0x07 => some ⟨3, 2, 3, true, .noNaN⟩
  | 0x08 => some ⟨2, 3, 1, true, .noNaN⟩
  | 0x09 => some ⟨2, 1, 1, true, .noNaN⟩
  | _ => if 0x20 ≤ code ∧ code ≤ 0x3E then b8Fmt code else none

/-- A reserved format code: 0x10 to 0x1F and the binary8 codes with P = 0 (R30, R147, R152). -/
def fmtReserved (code : Nat) : Bool :=
  (decide (0x10 ≤ code) && decide (code ≤ 0x1F)) || (decide (0x20 ≤ code) && decide (code ≤ 0x3F) && code % 8 == 0)

/-- e5m2, e4m3, e3m2, e2m3, e2m1 and binary8: the narrow floating-point formats. -/
def fmtNarrowFloat (code : Nat) : Bool :=
  (decide (5 ≤ code) && decide (code ≤ 9)) || (decide (0x20 ≤ code) && decide (code ≤ 0x3E) && code % 8 != 0)

def fmtIEEE (code : Nat) : Bool := decide (code ≤ 4)

/-- i8, n8, i4, n4. -/
def fmtNarrowInt (code : Nat) : Bool := decide (0x0B ≤ code) && decide (code ≤ 0x0E)

def fmtBinary8 (code : Nat) : Bool := decide (0x20 ≤ code) && decide (code ≤ 0x3E) && code % 8 != 0

def fmt4bit (code : Nat) : Bool := code == 9 || code == 0x0D || code == 0x0E

def fmt6bit (code : Nat) : Bool := code == 7 || code == 8

/-- Storage bits of an element: 6-bit elements are stored in 8 (R363). -/
def fmtBits (code : Nat) : Nat :=
  if code = 0 then 64
  else if code = 1 ∨ code = 2 ∨ code = 0x0F then 32
  else if code = 3 ∨ code = 4 then 16
  else if fmt4bit code then 4 else 8

/-- Magnitude bits of the largest finite encoding (R149, R153). -/
def FloatFmt.maxMag (f : FloatFmt) : Nat :=
  match f.kind with
  | .ieee => (2 ^ f.eb - 1) * 2 ^ f.t - 1
  | .e5m2 => 0x7B
  | .e4m3 => 0x7E
  | .noNaN => 2 ^ (f.eb + f.t) - 1
  | .b8ext => if f.signed then 0x7E else 0xFD
  | .b8fin => if f.signed then 0x7F else 0xFE

/-- Bits of a magnitude: exponent and trailing fields. -/
def FloatFmt.magBits (f : FloatFmt) : Nat := f.eb + f.t

/-- The value of a magnitude index of the grid (R148, R155), for any index: the grid goes on past the largest finite
value with an unbounded exponent. -/
def FloatFmt.gridVal (f : FloatFmt) (neg : Bool) (mag : Nat) : XReal :=
  let e := mag / 2 ^ f.t
  let m := mag % 2 ^ f.t
  if e = 0 then .dyadic neg m (1 - (f.bias : Int) - f.t)
  else .dyadic neg (2 ^ f.t + m) ((e : Int) - f.bias - f.t)

/-- Decode of the bits of a floating-point format (R148, R149, R153). tf32 passes its 19 bits. -/
def decodeFloat (f : FloatFmt) (bits : Nat) : XReal :=
  let mb := f.magBits
  let mag := bits % 2 ^ mb
  let neg := f.signed && (bits / 2 ^ mb) % 2 == 1
  match f.kind with
  | .ieee | .e5m2 =>
    if mag / 2 ^ f.t = 2 ^ f.eb - 1 then (if mag % 2 ^ f.t = 0 then .inf neg else .nan)
    else f.gridVal neg mag
  | .e4m3 => if mag = 0x7F then .nan else f.gridVal neg mag
  | .noNaN => f.gridVal neg mag
  | .b8ext =>
    if f.signed then
      if bits % 256 = 0x80 then .nan
      else if bits % 256 = 0x7F then .inf false
      else if bits % 256 = 0xFF then .inf true
      else f.gridVal neg mag
    else if bits % 256 = 0xFF then .nan
    else if bits % 256 = 0xFE then .inf false
    else f.gridVal neg mag
  | .b8fin =>
    if f.signed then (if bits % 256 = 0x80 then .nan else f.gridVal neg mag)
    else if bits % 256 = 0xFF then .nan else f.gridVal neg mag

/-- x read as a two's-complement number of w bits. -/
def sext (w x : Nat) : Int :=
  let y := x % 2 ^ w
  if w = 0 then 0 else if y < 2 ^ (w - 1) then (y : Int) else (y : Int) - (2 ^ w : Nat)

/-- The w low bits of an integer. -/
def wrapBits (w : Nat) (i : Int) : Nat := (i % ((2 ^ w : Nat) : Int)).toNat

/-- Decode of the element bits of any format code (R147 to R153, R312): tf32 reads bits [31:13]. Code 0x0F reads a
signed 32-bit integer; raw and reserved codes read NaN and are rejected before. -/
def decodeFmt (code bits : Nat) : XReal :=
  if code = 0x02 then (match floatFmt 2 with | some f => decodeFloat f (bits / 2 ^ 13 % 2 ^ 19) | none => .nan)
  else if code = 0x0A then (if bits % 256 = 255 then .nan else .dyadic false 1 ((bits % 256 : Nat) - 127))
  else if code = 0x0B then .ofInt (sext 8 bits)
  else if code = 0x0C then .ofNat (bits % 256)
  else if code = 0x0D then .ofInt (sext 4 bits)
  else if code = 0x0E then .ofNat (bits % 16)
  else if code = 0x0F then .ofInt (sext 32 bits)
  else match floatFmt code with
    | some f => decodeFloat f bits
    | none => .nan

/-! ## Rounding -/

/-- The rounding modes of R154; `sr r` is stochastic rounding with the 32 random bits r (R157). -/
inductive RMode where
  | rne | rtz | rup | rdn | rna
  | sr (r : Nat)
  deriving DecidableEq, Repr

/-- Whether the magnitude q + rem / den goes up to q + 1, for 0 ≤ rem < den (R154, R157). -/
def roundUp (mode : RMode) (neg : Bool) (q rem den : Nat) : Bool :=
  match mode with
  | .rne => decide (2 * rem > den) || (2 * rem == den && q % 2 == 1)
  | .rtz => false
  | .rup => !neg && rem != 0
  | .rdn => neg && rem != 0
  | .rna => decide (2 * rem ≥ den)
  | .sr r => rem != 0 && decide (rem * 2 ^ 32 + r * den ≥ den * 2 ^ 32)

/-- floor of the base-2 logarithm of num / den, both positive. -/
def log2Frac (num den : Nat) : Int :=
  let g : Int := (Nat.log2 num : Int) - (Nat.log2 den : Int)
  -- 2^g is within a factor of 2 of num / den
  let ge (k : Int) : Bool :=
    if 0 ≤ k then decide (den * 2 ^ k.toNat ≤ num) else decide (den ≤ num * 2 ^ (-k).toNat)
  if ge g then g else g - 1

/-- The magnitude index on the unbounded grid of f that the positive fraction num / den rounds to (R155). -/
def FloatFmt.roundMag (f : FloatFmt) (neg : Bool) (num den : Nat) (mode : RMode) : Nat :=
  if num = 0 then 0
  else
    let e := log2Frac num den
    let emin : Int := 1 - (f.bias : Int)
    let top := if e < emin then emin else e
    let s : Int := top - f.t
    let n := if 0 ≤ s then num else num * 2 ^ (-s).toNat
    let d := if 0 ≤ s then den * 2 ^ s.toNat else den
    let q := n / d
    let base := (top - emin).toNat * 2 ^ f.t + q
    if roundUp mode neg base (n % d) d then base + 1 else base

/-- The canonical NaN of a format that has one (R149, R153). -/
def FloatFmt.nanEnc (f : FloatFmt) : Nat :=
  match f.kind with
  | .ieee => (2 ^ f.eb - 1) * 2 ^ f.t + 2 ^ (f.t - 1)
  | .e5m2 => 0x7F
  | .e4m3 => 0x7F
  | .noNaN => 0
  | .b8ext | .b8fin => if f.signed then 0x80 else 0xFF

/-- A magnitude with a sign; the binary8 family has no −0 (R153). -/
def FloatFmt.withSign (f : FloatFmt) (neg : Bool) (mag : Nat) : Nat :=
  if neg && f.signed && !(mag == 0 && (f.kind == .b8ext || f.kind == .b8fin)) then mag + 2 ^ f.magBits else mag

def FloatFmt.largest (f : FloatFmt) (neg : Bool) : Nat := f.withSign neg f.maxMag

/-- nan_result of R156. -/
def FloatFmt.nanResult (f : FloatFmt) : Nat := f.nanEnc

/-- ±Inf encodings, for kinds that have them. -/
def FloatFmt.infEnc (f : FloatFmt) (neg : Bool) : Nat :=
  match f.kind with
  | .b8ext => if f.signed then (if neg then 0xFF else 0x7F) else 0xFE
  | _ => f.withSign neg ((2 ^ f.eb - 1) * 2 ^ f.t)

/-- inf_result of R156. -/
def FloatFmt.infResult (f : FloatFmt) (neg sat : Bool) : Nat :=
  match f.kind with
  | .ieee | .e5m2 | .b8ext => f.infEnc neg
  | .e4m3 | .b8fin => if sat then f.largest neg else f.nanEnc
  | .noNaN => f.largest neg

/-- Whether a mode rounds towards zero for a sign. -/
def RMode.towardsZero (mode : RMode) (neg : Bool) : Bool :=
  match mode with
  | .rtz => true
  | .rup => neg
  | .rdn => !neg
  | _ => false

/-- overflow_result of R156. -/
def FloatFmt.overflowResult (f : FloatFmt) (neg sat : Bool) (mode : RMode) : Nat :=
  match f.kind with
  | .ieee => if mode.towardsZero neg then f.largest neg else f.infEnc neg
  | .e5m2 | .b8ext => if sat || mode.towardsZero neg then f.largest neg else f.infEnc neg
  | .e4m3 | .b8fin => if sat then f.largest neg else f.nanEnc
  | .noNaN => f.largest neg

/-- e8m0_round of R158. -/
def e8m0Round (x : XReal) (mode : RMode) (sat : Bool) : Nat :=
  match x with
  | .nan => if sat then 0 else 0xFF
  | .inf false => 0xFE
  | .inf true => if sat then 0 else 0xFF
  | .fin neg num den =>
    if num = 0 ∨ neg then (if sat then 0 else 0xFF)
    else
      let e := log2Frac num den
      if e < -127 then 0
      else
        -- the fraction above 2^e: (num/den)/2^e - 1, in [0, 1)
        let n := if 0 ≤ e then num else num * 2 ^ (-e).toNat
        let d := if 0 ≤ e then den * 2 ^ e.toNat else den
        let v := (e + 127).toNat
        let r := if roundUp mode false v (n - d) d then v + 1 else v
        if 0xFE < r then 0xFE else r

/-- round_fmt of R155, for a floating-point format or e8m0. tf32 returns its 32-bit register form. -/
def roundFmt (code : Nat) (x : XReal) (mode : RMode) (sat : Bool := false) : Nat :=
  if code = 0x0A then e8m0Round x mode sat
  else match floatFmt code with
    | none => 0
    | some f =>
      let sh := if code = 0x02 then 2 ^ 13 else 1
      match x with
      | .nan => f.nanResult * sh
      | .inf neg =>
        if neg && !f.signed then (if sat then 0 else f.nanEnc) else f.infResult neg sat * sh
      | .fin neg num den =>
        let mag := f.roundMag neg num den mode
        if neg && !f.signed && mag != 0 then (if sat then 0 else f.nanEnc)
        else if mag ≤ f.maxMag then f.withSign neg mag * sh
        else f.overflowResult neg sat mode * sh

/-- Conversion to an integer range with saturation (R159): NaN gives 0. -/
def roundInt (x : XReal) (mode : RMode) (lo hi : Int) : Int :=
  match x with
  | .nan => 0
  | .inf neg => if neg then lo else hi
  | .fin neg num den =>
    let q := num / den
    let m := if roundUp mode neg q (num % den) den then q + 1 else q
    let v : Int := if neg then -(m : Int) else m
    if v < lo then lo else if hi < v then hi else v

/-- The range of a narrow integer format (R150). -/
def narrowIntRange (code : Nat) : Int × Int :=
  if code = 0x0B then (-128, 127) else if code = 0x0C then (0, 255)
  else if code = 0x0D then (-8, 7) else (0, 15)

/-- Element bits of x in a narrow format: round_fmt, or the saturating integer of R159. -/
def roundNarrow (code : Nat) (x : XReal) (mode : RMode) (sat : Bool) : Nat :=
  if fmtNarrowInt code then
    let r := narrowIntRange code
    wrapBits (fmtBits code) (roundInt x mode r.1 r.2)
  else roundFmt code x mode sat

/-- NRND of R161: 00 RNE, 01 RTZ, 10 stochastic, 11 RNA; r are the random bits of R157. -/
def nrndMode (nrnd r : Nat) : RMode :=
  match nrnd with
  | 0 => .rne
  | 1 => .rtz
  | 2 => .sr r
  | _ => .rna

/-- MOD[3:2] of R154. -/
def ieeeMode (rm : Nat) : RMode :=
  match rm with
  | 0 => .rne
  | 1 => .rtz
  | 2 => .rup
  | _ => .rdn

/-! ## The random source (R173) -/

def gammaConst : Nat := 0x9E3779B97F4A7C15

/-- The SplitMix64 finaliser. -/
def mix64 (x : Nat) : Nat :=
  let z := x % 2 ^ 64
  let z := ((Nat.xor z (z / 2 ^ 30)) * 0xBF58476D1CE4E5B9) % 2 ^ 64
  let z := ((Nat.xor z (z / 2 ^ 27)) * 0x94D049BB133111EB) % 2 ^ 64
  Nat.xor z (z / 2 ^ 31)

/-- rng(key, counter). -/
def rng64 (key counter : Nat) : Nat := mix64 ((key + (counter + 1) * gammaConst) % 2 ^ 64)

/-- srbits(v, j) of R157. -/
def srbits (srseed wid v j : Nat) : Nat :=
  mix64 ((srseed + wid * gammaConst + mix64 ((v + j) % 2 ^ 64)) % 2 ^ 64) % 2 ^ 32

/-! ## f32, f64 and the packed types -/

/-- FTZ32 on an f32 bit pattern (R160): a subnormal becomes the zero of its sign. -/
def ftz32 (on : Bool) (bits : Nat) : Nat :=
  if on && (bits / 2 ^ 23) % 256 == 0 then bits / 2 ^ 31 % 2 * 2 ^ 31 else bits

def f32NaN : Nat := 0x7FC00000
def f32One : Nat := 0x3F800000

/-- The fixed-point operand of ATOM.fxadd (R172). -/
def fxQuant (x : XReal) (e : Int) : Int :=
  let sc := if 0 ≤ e then XReal.fin false (2 ^ e.toNat) 1 else XReal.fin false 1 (2 ^ (-e).toNat)
  let lo : Int := -(2 ^ 63 : Nat)
  let hi : Int := (2 ^ 63 : Nat) - 1
  roundInt (x.mul sc) .rne lo hi

end Sys2Proof.Machine
end

