-- ==== Sys2Proof/Machine/Elem.lean ====
section
/-!
DEFINITION. Correctly rounded roots and transcendental functions (13 R309, R310; 15 R368; 17 R413).

A square root is bracketed exactly. A transcendental value is computed in fixed point with 768 fraction bits and an
error far below one part in 2 to the 400; the fraction returned lies in the open interval between two such numbers, so
that rounding it once to at most 53 bits gives the bits of the exact value (log entry 10).
-/
namespace Sys2Proof.Machine

/-- Fraction bits of the fixed-point computations. -/
def fxP : Nat := 768

/-- floor(π × 2^768). -/
def fxPi : Nat := 0x3243f6a8885a308d313198a2e03707344a4093822299f31d0082efa98ec4e6c89452821e638d01377be5466cf34e90c6cc0ac29b7c97c50dd3f84d5b5b54709179216d5d98979fb1bd1310ba698dfb5ac2ffd72dbd01adfb7b8e1afed6a267e96

/-- floor(ln 2 × 2^768). -/
def fxLn2 : Nat := 0xb17217f7d1cf79abc9e3b39803f2f6af40f343267298b62d8a0d175b8baafa2be7b876206debac98559552fb4afa1b10ed2eae35c138214427573b291169b8253e96ca16224ae8c51acbda11317c387eb9ea9bc3b136603b256fa0ec7657f74b

/-- A computed positive magnitude num / 2^768 that is known not to be exact. -/
def inexact (neg : Bool) (n : Nat) : XReal := .fin neg (2 * n + 1) (2 ^ (fxP + 1))

/-- Newton's iteration for the floor of a square root, on fuel. -/
def isqrtLoop : Nat → Nat → Nat → Nat
  | 0, _, x => x
  | k + 1, n, x =>
    let y := (x + n / x) / 2
    if x ≤ y then x else isqrtLoop k n y

/-- floor of the square root of n. -/
def isqrt (n : Nat) : Nat :=
  if n = 0 then 0 else isqrtLoop (Nat.log2 n + 8) n (2 ^ (Nat.log2 n / 2 + 1))

/-- √(num / den): exact when it is rational at this scale, else a fraction strictly between the neighbours. -/
def sqrtFrac (num den : Nat) : XReal :=
  -- scale num/den by 2^(2k) so that the root has at least 128 bits
  let k := 256 + Nat.log2 den
  let n := num * 2 ^ (2 * k)
  let q := n / den
  let r := isqrt q
  if r * r = q ∧ n % den = 0 then .fin false r (2 ^ k) else .fin false (2 * r + 1) (2 ^ (k + 1))

/-- Fixed-point product. -/
def fxMul (a b : Nat) : Nat := a * b / 2 ^ fxP

/-- Sum of x^k / k! from the term `t` on, on fuel (the exponential series). -/
def expSeries : Nat → Nat → Nat → Nat → Nat
  | 0, _, _, _ => 0
  | f + 1, x, k, t => if t = 0 then 0 else t + expSeries f x (k + 1) (fxMul t x / (k + 1))

/-- e^x for fixed-point 0 ≤ x < 1. -/
def fxExp (x : Nat) : Nat := expSeries 200 x 0 (2 ^ fxP)

/-- Alternating series of the sine from term t = x^k / k!, k odd, on fuel. -/
def sinSeries : Nat → Nat → Nat → Nat → Int
  | 0, _, _, _ => 0
  | f + 1, x2, k, t =>
    if t = 0 then 0 else (t : Int) - sinSeries f x2 (k + 2) (fxMul t x2 / ((k + 1) * (k + 2)))

/-- sin x for fixed-point 0 ≤ x ≤ π/2. -/
def fxSin (x : Nat) : Nat := (sinSeries 200 (fxMul x x) 1 x).toNat

/-- Sum of z^k / k over odd k, on fuel (the series of atanh). -/
def atanhSeries : Nat → Nat → Nat → Nat → Nat
  | 0, _, _, _ => 0
  | f + 1, z2, k, t => if t = 0 then 0 else t / k + atanhSeries f z2 (k + 2) (fxMul t z2)

/-- A fixed-point magnitude of the exact fraction num / den. -/
def toFx (num den : Nat) : Nat := num * 2 ^ fxP / den

/-- 2^k × n / 2^768 for an integer k, marked inexact. -/
def inexactScaled (n : Nat) (k : Int) : XReal :=
  if 0 ≤ k then .fin false ((2 * n + 1) * 2 ^ k.toNat) (2 ^ (fxP + 1))
  else .fin false (2 * n + 1) (2 ^ (fxP + 1) * 2 ^ (-k).toNat)

/-- e^x for an exact finite x. Beyond ±2,000 a huge or tiny stand-in lies past every format's range. -/
def expX (neg : Bool) (num den : Nat) : XReal :=
  if num = 0 then .ofNat 1
  else if 2000 * den < num then (if neg then .fin false 1 (2 ^ 2800) else .fin false (2 ^ 2800) 1)
  else
    let m : Int := (if neg then -1 else 1) * (toFx num den : Int)
    let k := m.fdiv fxLn2
    let r := (m - k * fxLn2).toNat
    inexactScaled (fxExp r) k

/-- 2^x for an exact finite x (FEXP2). -/
def exp2X (neg : Bool) (num den : Nat) : XReal :=
  if num % den = 0 then
    let n := num / den
    if 4000 < n then (if neg then .fin false 1 (2 ^ 4000) else .fin false (2 ^ 4000) 1)
    else .dyadic false 1 (if neg then -(n : Int) else n)
  else if 4000 * den < num then (if neg then .fin false 1 (2 ^ 4000) else .fin false (2 ^ 4000) 1)
  else
    let k := (XReal.fin neg num den).floor
    -- the fraction above k
    let fn := ((if neg then -1 else 1) * (num : Int) - k * den).toNat
    inexactScaled (fxExp (fxMul (toFx fn den) fxLn2)) k

/-- log2 of an exact positive fraction (FLOG2); an exact power of two gives its exponent. -/
def log2X (num den : Nat) : XReal :=
  let e := log2Frac num den
  let n := if 0 ≤ e then num else num * 2 ^ (-e).toNat
  let d := if 0 ≤ e then den * 2 ^ e.toNat else den
  if n = d then .ofInt e
  else
    -- n/d in (1, 2): ln = 2 atanh((n - d)/(n + d))
    let z := toFx (n - d) (n + d)
    let l := 2 * atanhSeries 400 (fxMul z z) 1 z
    let v := l * 2 ^ fxP / fxLn2
    let s : Int := e * (2 ^ fxP : Nat) + v
    if s < 0 then inexact true (s.natAbs - 1) else inexact false s.toNat

/-- sin(π x) for an exact finite x: x is reduced exactly. -/
def sinPiX (neg : Bool) (num den : Nat) : XReal :=
  let r := num % (2 * den)                       -- |x| mod 2, over den
  let neg2 := decide (den ≤ r)
  let r1 := if den ≤ r then r - den else r       -- in [0, 1)
  let r2 := if den < 2 * r1 then den - r1 else r1  -- in [0, 1/2]
  let sg := neg != neg2
  if r2 = 0 then .fin neg 0 1
  else if 2 * r2 = den then .fin sg 1 1
  else inexact sg (fxSin (fxPi * r2 / den))

/-- cos(π x): sin(π (|x| + 1/2)); +0 at the half-integers (R310). -/
def cosPiX (num den : Nat) : XReal :=
  match sinPiX false (2 * num + den) (2 * den) with
  | .fin _ 0 _ => .zero
  | v => v

/-- sin x, x in radians (15 R368). -/
def sinX (neg : Bool) (num den : Nat) : XReal :=
  if num = 0 then .fin neg 0 1
  else
    let x := toFx num den
    let r := x % (2 * fxPi)
    let neg2 := decide (fxPi ≤ r)
    let r1 := if fxPi ≤ r then r - fxPi else r
    let r2 := if fxPi < 2 * r1 then fxPi - r1 else r1
    inexact (neg != neg2) (fxSin r2)

/-- tanh x for an exact finite x. -/
def tanhX (neg : Bool) (num den : Nat) : XReal :=
  if num = 0 then .fin neg 0 1
  else if 100 * den < num then .fin neg (2 ^ 200 - 1) (2 ^ 200)
  else
    match expX false (2 * num) den with
    | .fin _ a b => .fin neg (a - b) (a + b)
    | v => v

/-- 1 / (1 + e^−x) for an exact finite x (15 R368). -/
def sigmoidX (neg : Bool) (num den : Nat) : XReal :=
  match expX (!neg) num den with
  | .fin _ a b => .fin false b (a + b)
  | v => v

end Sys2Proof.Machine
end

