-- ==== Sys2Proof/Syntax.lean ====
section
/-!
DEFINITION. The instructions and machine events of the Galvex: one constructor for each row of
spec/opcode_table.json. A program instruction holds the fields of its long form (11 R251, R252); a machine event
holds what it acts on.
-/
namespace Sys2Proof

/-- The fields of a long form beside its opcode (11 R251). The formats of R252 read the same bits in other ways;
`Fields.imm18` and the others below are those readings. -/
structure Fields where
  mod   : BitVec 6
  d     : BitVec 9
  a     : BitVec 9
  b     : BitVec 9
  c     : BitVec 9
  g     : BitVec 6
  gn    : BitVec 1
  reuse : BitVec 3
  x     : BitVec 4
  deriving DecidableEq, Repr

/-- A live path: the group that holds it (the key of State.groups) and its live slot, 0 or 1 (08 R179). -/
structure PathId where
  gid  : Nat
  live : Nat
  deriving DecidableEq, Repr

/-- Where a detected uncorrectable error lies (04 R96). `loc` is a location of memory, `word` a 64-bit word. -/
inductive EccPlace where
  | hbm (loc : Nat)
  | nibble (part word : Nat)
  /-- the in-band nibble of a block, in the side-band bits of its first sector (03 R60) -/
  | inband (loc : Nat)
  | l2 (part loc : Nat)
  | l1 (core loc : Nat)
  | scratch (team word : Nat)
  | canister (cluster loc : Nat)
  | queueBuf (cluster queue index word : Nat)
  | vreg (gid reg lane : Nat)
  | sreg (gid reg : Nat)
  /-- a result of the matrix array of a core, or of the array of a cluster's Barista: the instruction or tile is computed again -/
  | matrix (core : Nat)
  | barista (cluster : Nat)
  deriving DecidableEq, Repr

/-- A firmware image as the host supplies it (18 R429): the bytes, the signature, the public key, and whether the
transfer succeeded. -/
structure BootImage where
  bytes      : List Byte
  signature  : List Byte
  key        : List Byte
  transferred : Bool
  deriving DecidableEq, Repr

/-- The rows of spec/opcode_table.json, in its order. -/
inductive Instr where
  -- program instructions (opcode map, 11 R260)
  /-- NOP, opcode 0x00 (R270). -/
  | nop (f : Fields)
  /-- EXIT, opcode 0x01 (R271). -/
  | exit (f : Fields)
  /-- BRA, opcode 0x02 (R272). -/
  | bra (f : Fields)
  /-- BANY, opcode 0x03 (R272). -/
  | bany (f : Fields)
  /-- BALL, opcode 0x04 (R272). -/
  | ball (f : Fields)
  /-- BNONE, opcode 0x05 (R272). -/
  | bnone (f : Fields)
  /-- BDIV, opcode 0x06 (R181). -/
  | bdiv (f : Fields)
  /-- JOIN, opcode 0x07 (R182). -/
  | join (f : Fields)
  /-- JMPI, opcode 0x08 (R189). -/
  | jmpi (f : Fields)
  /-- CALL, opcode 0x09 (R187). -/
  | call (f : Fields)
  /-- CALLI, opcode 0x0A (R188). -/
  | calli (f : Fields)
  /-- CALLD, opcode 0x0B (R277). -/
  | calld (f : Fields)
  /-- RET, opcode 0x0C (R187). -/
  | ret (f : Fields)
  /-- YIELD, opcode 0x0D (R278). -/
  | yield (f : Fields)
  /-- REFILL, opcode 0x0E (R386). -/
  | refill (f : Fields)
  /-- PCOLL, opcode 0x0F (R279). -/
  | pcoll (f : Fields)
  /-- SETFMT, opcode 0x10 (R280). -/
  | setfmt (f : Fields)
  /-- GETFMT, opcode 0x11 (R281). -/
  | getfmt (f : Fields)
  /-- DICT, opcode 0x12 (R282). -/
  | dict (f : Fields)
  /-- FFENCE, opcode 0x13 (R283). -/
  | ffence (f : Fields)
  /-- ICINV, opcode 0x14 (R284). -/
  | icinv (f : Fields)
  /-- TRAP, opcode 0x15 (R285). -/
  | trap (f : Fields)
  /-- RTT, opcode 0x16 (R186). -/
  | rtt (f : Fields)
  /-- BKPT, opcode 0x17 (R285). -/
  | bkpt (f : Fields)
  /-- IADD, opcode 0x20 (R288). -/
  | iadd (f : Fields)
  /-- ISUB, opcode 0x21 (R288). -/
  | isub (f : Fields)
  /-- IMUL, opcode 0x22 (R288). -/
  | imul (f : Fields)
  /-- IMULH, opcode 0x23 (R288). -/
  | imulh (f : Fields)
  /-- IMAD, opcode 0x24 (R288). -/
  | imad (f : Fields)
  /-- IDIV, opcode 0x25 (R289). -/
  | idiv (f : Fields)
  /-- IMIN, opcode 0x26 (R288). -/
  | imin (f : Fields)
  /-- IMAX, opcode 0x27 (R288). -/
  | imax (f : Fields)
  /-- LOGT, opcode 0x28 (R290). -/
  | logt (f : Fields)
  /-- SHL, opcode 0x29 (R291). -/
  | shl (f : Fields)
  /-- SHR, opcode 0x2A (R291). -/
  | shr (f : Fields)
  /-- FSHF, opcode 0x2B (R292). -/
  | fshf (f : Fields)
  /-- BFX, opcode 0x2C (R293). -/
  | bfx (f : Fields)
  /-- BFI, opcode 0x2D (R293). -/
  | bfi (f : Fields)
  /-- POPC, opcode 0x2E (R293). -/
  | popc (f : Fields)
  /-- CLZ, opcode 0x2F (R293). -/
  | clz (f : Fields)
  /-- BREV, opcode 0x30 (R293). -/
  | brev (f : Fields)
  /-- PERMB, opcode 0x31 (R294). -/
  | permb (f : Fields)
  /-- ICMP, opcode 0x32 (R295). -/
  | icmp (f : Fields)
  /-- ISEL, opcode 0x33 (R296). -/
  | isel (f : Fields)
  /-- MOV, opcode 0x34 (R296). -/
  | mov (f : Fields)
  /-- MOVI, opcode 0x35 (R296). -/
  | movi (f : Fields)
  /-- MOVHI, opcode 0x36 (R297). -/
  | movhi (f : Fields)
  /-- PLOGT, opcode 0x37 (R290). -/
  | plogt (f : Fields)
  /-- PMOV, opcode 0x38 (R298). -/
  | pmov (f : Fields)
  /-- READLANE, opcode 0x39 (R299). -/
  | readlane (f : Fields)
  /-- WRITELANE, opcode 0x3A (R299). -/
  | writelane (f : Fields)
  /-- RNG, opcode 0x3B (R300). -/
  | rng (f : Fields)
  /-- FADD, opcode 0x40 (R305). -/
  | fadd (f : Fields)
  /-- FMUL, opcode 0x41 (R305). -/
  | fmul (f : Fields)
  /-- FFMA, opcode 0x42 (R305). -/
  | ffma (f : Fields)
  /-- FMIN, opcode 0x43 (R306). -/
  | fmin (f : Fields)
  /-- FMAX, opcode 0x44 (R306). -/
  | fmax (f : Fields)
  /-- FCMP, opcode 0x45 (R307). -/
  | fcmp (f : Fields)
  /-- FCLASS, opcode 0x46 (R308). -/
  | fclass (f : Fields)
  /-- FRCP, opcode 0x47 (R309). -/
  | frcp (f : Fields)
  /-- FRSQ, opcode 0x48 (R309). -/
  | frsq (f : Fields)
  /-- FSQRT, opcode 0x49 (R309). -/
  | fsqrt (f : Fields)
  /-- FDIV, opcode 0x4A (R309). -/
  | fdiv (f : Fields)
  /-- FEXP2, opcode 0x4B (R309). -/
  | fexp2 (f : Fields)
  /-- FLOG2, opcode 0x4C (R309). -/
  | flog2 (f : Fields)
  /-- FSIN, opcode 0x4D (R309). -/
  | fsin (f : Fields)
  /-- FTANH, opcode 0x4E (R309). -/
  | ftanh (f : Fields)
  /-- FRND, opcode 0x4F (R311). -/
  | frnd (f : Fields)
  /-- CVT, opcode 0x50 (R313). -/
  | cvt (f : Fields)
  /-- CVTSR, opcode 0x51 (R314). -/
  | cvtsr (f : Fields)
  /-- QNT, opcode 0x52 (R315). -/
  | qnt (f : Fields)
  /-- DQNT, opcode 0x53 (R315). -/
  | dqnt (f : Fields)
  /-- PACK, opcode 0x54 (R316). -/
  | pack (f : Fields)
  /-- UNPK, opcode 0x55 (R317). -/
  | unpk (f : Fields)
  /-- LXCH, opcode 0x56 (R319). -/
  | lxch (f : Fields)
  /-- SCAN, opcode 0x57 (R321). -/
  | scan (f : Fields)
  /-- REDUX, opcode 0x58 (R321). -/
  | redux (f : Fields)
  /-- EQLN, opcode 0x59 (R322). -/
  | eqln (f : Fields)
  /-- DERIV, opcode 0x5A (R323). -/
  | deriv (f : Fields)
  /-- IDP4, opcode 0x5B (R324). -/
  | idp4 (f : Fields)
  /-- FDP2, opcode 0x5C (R324). -/
  | fdp2 (f : Fields)
  /-- LD, opcode 0x60 (R329). -/
  | ld (f : Fields)
  /-- ST, opcode 0x61 (R329). -/
  | st (f : Fields)
  /-- LDS, opcode 0x62 (R333). -/
  | lds (f : Fields)
  /-- STS, opcode 0x63 (R333). -/
  | sts (f : Fields)
  /-- PFT, opcode 0x64 (R331). -/
  | pft (f : Fields)
  /-- ATOM, opcode 0x65 (R335). -/
  | atom (f : Fields)
  /-- ACAS, opcode 0x66 (R337). -/
  | acas (f : Fields)
  /-- ATOMS, opcode 0x67 (R335). -/
  | atoms (f : Fields)
  /-- FENCE, opcode 0x68 (R338). -/
  | fence (f : Fields)
  /-- LDA, opcode 0x69 (R330). -/
  | lda (f : Fields)
  /-- STL, opcode 0x6A (R330). -/
  | stl (f : Fields)
  /-- BARA, opcode 0x6B (R340). -/
  | bara (f : Fields)
  /-- BARW, opcode 0x6C (R340). -/
  | barw (f : Fields)
  /-- BAR, opcode 0x6D (R340). -/
  | bar (f : Fields)
  /-- BARX, opcode 0x6E (R340). -/
  | barx (f : Fields)
  /-- QMAP, opcode 0x6F (R342). -/
  | qmap (f : Fields)
  /-- FESET, opcode 0x70 (R343). -/
  | feset (f : Fields)
  /-- JOB, opcode 0x71 (R344). -/
  | job (f : Fields)
  /-- JSTAT, opcode 0x72 (R348). -/
  | jstat (f : Fields)
  /-- SPAWN, opcode 0x73 (R387). -/
  | spawn (f : Fields)
  /-- CINV, opcode 0x74 (R349). -/
  | cinv (f : Fields)
  /-- LAUNCH, opcode 0x75 (R387). -/
  | launch (f : Fields)
  /-- MMA, opcode 0x80 (R364). -/
  | mma (f : Fields)
  /-- MLDW, opcode 0x81 (R356). -/
  | mldw (f : Fields)
  /-- MLDS, opcode 0x82 (R357). -/
  | mlds (f : Fields)
  /-- GANG, opcode 0x83 (R359). -/
  | gang (f : Fields)
  /-- MTRN, opcode 0x84 (R365). -/
  | mtrn (f : Fields)
  /-- NCALL, opcode 0x88 (R367). -/
  | ncall (f : Fields)
  /-- TWAIT, opcode 0x89 (R353). -/
  | twait (f : Fields)
  /-- TTEST, opcode 0x8A (R353). -/
  | ttest (f : Fields)
  /-- NPIN, opcode 0x8B (R371). -/
  | npin (f : Fields)
  /-- NPREF, opcode 0x8C (R371). -/
  | npref (f : Fields)
  /-- NFLUSH, opcode 0x8D (R371). -/
  | nflush (f : Fields)
  /-- XF, opcode 0x90 (R372). -/
  | xf (f : Fields)
  /-- DEC, opcode 0x91 (R376). -/
  | dec (f : Fields)
  /-- ENC, opcode 0x92 (R377). -/
  | enc (f : Fields)
  /-- TOPK, opcode 0x93 (R379). -/
  | topk (f : Fields)
  /-- RESAMP, opcode 0x98 (R381). -/
  | resamp (f : Fields)
  /-- TRACE, opcode 0xA0 (R388). -/
  | trace (f : Fields)
  /-- TRGET, opcode 0xA1 (R391). -/
  | trget (f : Fields)
  /-- TRCONT, opcode 0xA2 (R390). -/
  | trcont (f : Fields)
  /-- TEX, opcode 0xA4 (R393). -/
  | tex (f : Fields)
  /-- TEXG, opcode 0xA5 (R393). -/
  | texg (f : Fields)
  /-- TEXQ, opcode 0xA6 (R393). -/
  | texq (f : Fields)
  /-- IMLD, opcode 0xA7 (R393). -/
  | imld (f : Fields)
  /-- IMST, opcode 0xA8 (R393). -/
  | imst (f : Fields)
  /-- VISR, opcode 0xAC (R394). -/
  | visr (f : Fields)
  /-- PRIMF, opcode 0xAD (R394). -/
  | primf (f : Fields)
  /-- EMIT, opcode 0xAE (R395). -/
  | emit (f : Fields)
  /-- ORDB, opcode 0xAF (R396). -/
  | ordb (f : Fields)
  /-- ORDE, opcode 0xB0 (R396). -/
  | orde (f : Fields)
  /-- SRD, opcode 0xC0 (R397). -/
  | srd (f : Fields)
  /-- SWR, opcode 0xC1 (R397). -/
  | swr (f : Fields)
  /-- PERF, opcode 0xC2 (R398). -/
  | perf (f : Fields)
  /-- SYSC, opcode 0xC3 (R399). -/
  | sysc (f : Fields)
  -- machine events
  /-- CLAUSE_FETCH (R233). -/
  | clauseFetch (p : PathId)
  /-- DICTIONARY_SLOT_LOAD (R246). -/
  | dictionarySlotLoad (core ctx handle : Nat)
  /-- PATH_ROTATION (R183). -/
  | pathRotation (p : PathId)
  /-- GROUP_BOOST (R213). -/
  | groupBoost (gid : Nat)
  /-- OPERATION_COMPLETE (R239). -/
  | operationComplete (op : Nat)
  /-- LDS_FE_WAKE (R81). -/
  | ldsFeWake (p : PathId)
  /-- CHANNEL_OPERAND_RETRY (R209). -/
  | channelOperandRetry (p : PathId)
  /-- BARRIER_PHASE_COMPLETE (R339). -/
  | barrierPhaseComplete (team slot : Nat)
  /-- GANG_JOINED_ISSUE (R360). -/
  | gangJoinedIssue (team latch : Nat)
  /-- RESAMP_COMPLETE (R382). -/
  | resampComplete (node : Nat)
  /-- SPAWN_RECORD_DISPATCH (R384). -/
  | spawnRecordDispatch (node : Nat)
  /-- ORDB_WAKE (R396). -/
  | ordbWake (p : PathId)
  /-- BINDING_RELEASE_WAKE (R354). -/
  | bindingReleaseWake (p : PathId)
  /-- GROUP_END (R271). -/
  | groupEnd (gid : Nat)
  /-- FAULT_BATCH_ENTER_RING (R70). -/
  | faultBatchEnterRing (part : Nat)
  /-- GROUP_FAULT_SAVE (R220). -/
  | groupFaultSave (gid : Nat)
  /-- GROUP_RESTORE (R221). -/
  | groupRestore (gid : Nat)
  /-- FAULT_RELEASE_REPLAY (R71). -/
  | faultReleaseReplay (part seq : Nat)
  /-- FAULT_RELEASE_FAIL (R71). -/
  | faultReleaseFail (part seq : Nat)
  /-- FAULTQ_CONFIG_WRITE (R69). -/
  | faultqConfigWrite (part : Nat) (size : Bool) (value : Quad)
  /-- INV_RANGE (R55). -/
  | invRange (part : Nat) (cmd : Quad)
  /-- INV_CONTEXT (R55). -/
  | invContext (part : Nat) (cmd : Quad)
  /-- INV_ALL (R55). -/
  | invAll (part : Nat) (cmd : Quad)
  /-- INV_RESERVED (R55). -/
  | invReserved (part : Nat) (cmd : Quad)
  /-- INV_FLUSH (R55). -/
  | invFlush (part : Nat)
  /-- INV_COMMAND_COMPLETE (R56). -/
  | invCommandComplete (part : Nat)
  /-- QP_LIMIT_WRITE (R92). -/
  | qpLimitWrite (cluster queue : Nat) (value : Word)
  /-- SQ_DOORBELL (R422). -/
  | sqDoorbell (part queue : Nat) (tail : Word)
  /-- SQ_CTL_WRITE (R422). -/
  | sqCtlWrite (part queue : Nat) (value : Word)
  /-- SQ_BASE_WRITE (R422). -/
  | sqBaseWrite (part queue : Nat) (value : Quad)
  /-- HOST_RECORD_FETCH (R423). -/
  | hostRecordFetch (part queue : Nat)
  /-- HOST_JOB_CARD_RECORD (R197). -/
  | hostJobCardRecord (part queue index : Nat)
  /-- WAIT_RECORD_COMPLETE (R197). -/
  | waitRecordComplete (part queue index : Nat)
  /-- NODE_ENTRY (R203). -/
  | nodeEntry (pend : Nat)
  /-- NODE_READY (R204). -/
  | nodeReady (node : Nat)
  /-- DISPATCH_AGE_EXPIRY (R204). -/
  | dispatchAgeExpiry (node : Nat)
  /-- TEAM_PLACEMENT (R205). -/
  | teamPlacement (node : Nat)
  /-- TEAM_START (R207). -/
  | teamStart (team : Nat)
  /-- NODE_COMPLETE (R131). -/
  | nodeComplete (node : Nat)
  /-- JOB_START (R133). -/
  | jobStart (job : Nat)
  /-- JOB_COMMIT_UNIT (R138). -/
  | jobCommitUnit (job : Nat)
  /-- JOB_FAULT_SUSPEND (R139). -/
  | jobFaultSuspend (job : Nat)
  /-- JOB_RESUME (R139). -/
  | jobResume (job : Nat)
  /-- JOB_COMPLETE (R135). -/
  | jobComplete (job : Nat)
  /-- CONTEXT_PREEMPT (R211). -/
  | contextPreempt (part ctx : Nat)
  /-- BUDGET_EXPIRY (R211). -/
  | budgetExpiry (core ctx : Nat)
  /-- DRAIN_WINDOW_EXPIRY (R223). -/
  | drainWindowExpiry (part ctx : Nat)
  /-- DEADLINE_EXPIRY (R223). -/
  | deadlineExpiry (part ctx : Nat)
  /-- TEAM_SAVE (R224). -/
  | teamSave (team : Nat)
  /-- CONTEXT_RESET (R225). -/
  | contextReset (part ctx reason rcause : Nat)
  /-- TEAM_RESTORE (R228). -/
  | teamRestore (team : Nat)
  /-- DBG_HALT (R231). -/
  | dbgHalt (part : Nat)
  /-- DBG_RESUME (R231). -/
  | dbgResume (part : Nat)
  /-- DBG_SINGLE_CLAUSE (R430). -/
  | dbgSingleClause (part : Nat)
  /-- NCALL_TILE_DISPATCH (R369). -/
  | ncallTileDispatch (cluster ctx handle : Nat)
  /-- FLUSH_WINDOW_EXPIRY (R369). -/
  | flushWindowExpiry (cluster ctx handle : Nat)
  /-- NCALL_TILE_COMPLETE (R368). -/
  | ncallTileComplete (tile : Nat)
  /-- CANISTER_FILL (R90). -/
  | canisterFill (cluster part ctx line : Nat)
  /-- TRAVERSAL_COMPLETE (R389). -/
  | traversalComplete (gid lane : Nat)
  /-- RASTER_TRIANGLE (R403). -/
  | rasterTriangle (part : Nat)
  /-- SAMPLE_WRITE (R405). -/
  | sampleWrite (part : Nat)
  /-- HOME_SLICE_ATOMIC (R86). -/
  | homeSliceAtomic (part : Nat)
  /-- L1_OVERFLOW_WRITEBACK (R117). -/
  | l1OverflowWriteback (core line : Nat)
  /-- FULL_BLOCK_WRITE (R64). -/
  | fullBlockWrite (part line : Nat)
  /-- PARTIAL_WRITE (R64). -/
  | partialWrite (part line : Nat)
  /-- ECC_RETRY (R96). -/
  | eccRetry (place : EccPlace) (ok : Bool)
  /-- ARRAY_FENCE (R99). -/
  | arrayFence (barista : Bool) (unit : Nat)
  /-- FLIT_RECEIVE (R418). -/
  | flitReceive (port seq : Nat) (flit : List Byte)
  /-- PORT_RETRAIN (R418). -/
  | portRetrain (port : Nat) (ok : Bool)
  /-- APERTURE_ACCESS (R425). -/
  | apertureAccess (adapter : Nat) (write : Bool) (off size data : Nat)
  /-- APERTURE_STRONG_ACCESS (R125). -/
  | apertureStrongAccess (adapter : Nat) (write : Bool) (off size data : Nat)
  /-- PART_CFG_WRITE (R426). -/
  | partCfgWrite (value : Word)
  /-- PORT_MAP_WRITE (R426). -/
  | portMapWrite (value : Quad)
  /-- FRAME_AREA_WRITE (R421). -/
  | frameAreaWrite (part : Nat) (size : Bool) (value : Quad)
  /-- PWR_LIMIT_WRITE (R424). -/
  | pwrLimitWrite (value : Word)
  /-- REGISTER_WRITE (R7). -/
  | registerWrite (adapter off : Nat) (value : Quad)
  /-- POWER_INTERVAL (R432). -/
  | powerInterval (clocks : List Nat) (watts : Nat)
  /-- CLOCK_DROOP (R19). -/
  | clockDroop (cluster : Nat)
  /-- DEVICE_RESET (R429). -/
  | deviceReset (image : BootImage)
  /-- ATTESTATION_REPORT (R429). -/
  | attestationReport (nonce : List Byte)
  /-- REPARTITION_COMPLETE (R424). -/
  | repartitionComplete
  /-- BOOT_NEW_IMAGE (R429). -/
  | bootNewImage (image : BootImage)
  deriving DecidableEq, Repr

/-- The fields of a program instruction; none for a machine event. -/
def Instr.fields : Instr → Option Fields
  | .nop f => some f
  | .exit f => some f
  | .bra f => some f
  | .bany f => some f
  | .ball f => some f
  | .bnone f => some f
  | .bdiv f => some f
  | .join f => some f
  | .jmpi f => some f
  | .call f => some f
  | .calli f => some f
  | .calld f => some f
  | .ret f => some f
  | .yield f => some f
  | .refill f => some f
  | .pcoll f => some f
  | .setfmt f => some f
  | .getfmt f => some f
  | .dict f => some f
  | .ffence f => some f
  | .icinv f => some f
  | .trap f => some f
  | .rtt f => some f
  | .bkpt f => some f
  | .iadd f => some f
  | .isub f => some f
  | .imul f => some f
  | .imulh f => some f
  | .imad f => some f
  | .idiv f => some f
  | .imin f => some f
  | .imax f => some f
  | .logt f => some f
  | .shl f => some f
  | .shr f => some f
  | .fshf f => some f
  | .bfx f => some f
  | .bfi f => some f
  | .popc f => some f
  | .clz f => some f
  | .brev f => some f
  | .permb f => some f
  | .icmp f => some f
  | .isel f => some f
  | .mov f => some f
  | .movi f => some f
  | .movhi f => some f
  | .plogt f => some f
  | .pmov f => some f
  | .readlane f => some f
  | .writelane f => some f
  | .rng f => some f
  | .fadd f => some f
  | .fmul f => some f
  | .ffma f => some f
  | .fmin f => some f
  | .fmax f => some f
  | .fcmp f => some f
  | .fclass f => some f
  | .frcp f => some f
  | .frsq f => some f
  | .fsqrt f => some f
  | .fdiv f => some f
  | .fexp2 f => some f
  | .flog2 f => some f
  | .fsin f => some f
  | .ftanh f => some f
  | .frnd f => some f
  | .cvt f => some f
  | .cvtsr f => some f
  | .qnt f => some f
  | .dqnt f => some f
  | .pack f => some f
  | .unpk f => some f
  | .lxch f => some f
  | .scan f => some f
  | .redux f => some f
  | .eqln f => some f
  | .deriv f => some f
  | .idp4 f => some f
  | .fdp2 f => some f
  | .ld f => some f
  | .st f => some f
  | .lds f => some f
  | .sts f => some f
  | .pft f => some f
  | .atom f => some f
  | .acas f => some f
  | .atoms f => some f
  | .fence f => some f
  | .lda f => some f
  | .stl f => some f
  | .bara f => some f
  | .barw f => some f
  | .bar f => some f
  | .barx f => some f
  | .qmap f => some f
  | .feset f => some f
  | .job f => some f
  | .jstat f => some f
  | .spawn f => some f
  | .cinv f => some f
  | .launch f => some f
  | .mma f => some f
  | .mldw f => some f
  | .mlds f => some f
  | .gang f => some f
  | .mtrn f => some f
  | .ncall f => some f
  | .twait f => some f
  | .ttest f => some f
  | .npin f => some f
  | .npref f => some f
  | .nflush f => some f
  | .xf f => some f
  | .dec f => some f
  | .enc f => some f
  | .topk f => some f
  | .resamp f => some f
  | .trace f => some f
  | .trget f => some f
  | .trcont f => some f
  | .tex f => some f
  | .texg f => some f
  | .texq f => some f
  | .imld f => some f
  | .imst f => some f
  | .visr f => some f
  | .primf f => some f
  | .emit f => some f
  | .ordb f => some f
  | .orde f => some f
  | .srd f => some f
  | .swr f => some f
  | .perf f => some f
  | .sysc f => some f
  | .clauseFetch _ => none
  | .dictionarySlotLoad _ _ _ => none
  | .pathRotation _ => none
  | .groupBoost _ => none
  | .operationComplete _ => none
  | .ldsFeWake _ => none
  | .channelOperandRetry _ => none
  | .barrierPhaseComplete _ _ => none
  | .gangJoinedIssue _ _ => none
  | .resampComplete _ => none
  | .spawnRecordDispatch _ => none
  | .ordbWake _ => none
  | .bindingReleaseWake _ => none
  | .groupEnd _ => none
  | .faultBatchEnterRing _ => none
  | .groupFaultSave _ => none
  | .groupRestore _ => none
  | .faultReleaseReplay _ _ => none
  | .faultReleaseFail _ _ => none
  | .faultqConfigWrite _ _ _ => none
  | .invRange _ _ => none
  | .invContext _ _ => none
  | .invAll _ _ => none
  | .invReserved _ _ => none
  | .invFlush _ => none
  | .invCommandComplete _ => none
  | .qpLimitWrite _ _ _ => none
  | .sqDoorbell _ _ _ => none
  | .sqCtlWrite _ _ _ => none
  | .sqBaseWrite _ _ _ => none
  | .hostRecordFetch _ _ => none
  | .hostJobCardRecord _ _ _ => none
  | .waitRecordComplete _ _ _ => none
  | .nodeEntry _ => none
  | .nodeReady _ => none
  | .dispatchAgeExpiry _ => none
  | .teamPlacement _ => none
  | .teamStart _ => none
  | .nodeComplete _ => none
  | .jobStart _ => none
  | .jobCommitUnit _ => none
  | .jobFaultSuspend _ => none
  | .jobResume _ => none
  | .jobComplete _ => none
  | .contextPreempt _ _ => none
  | .budgetExpiry _ _ => none
  | .drainWindowExpiry _ _ => none
  | .deadlineExpiry _ _ => none
  | .teamSave _ => none
  | .contextReset _ _ _ _ => none
  | .teamRestore _ => none
  | .dbgHalt _ => none
  | .dbgResume _ => none
  | .dbgSingleClause _ => none
  | .ncallTileDispatch _ _ _ => none
  | .flushWindowExpiry _ _ _ => none
  | .ncallTileComplete _ => none
  | .canisterFill _ _ _ _ => none
  | .traversalComplete _ _ => none
  | .rasterTriangle _ => none
  | .sampleWrite _ => none
  | .homeSliceAtomic _ => none
  | .l1OverflowWriteback _ _ => none
  | .fullBlockWrite _ _ => none
  | .partialWrite _ _ => none
  | .eccRetry _ _ => none
  | .arrayFence _ _ => none
  | .flitReceive _ _ _ => none
  | .portRetrain _ _ => none
  | .apertureAccess _ _ _ _ _ => none
  | .apertureStrongAccess _ _ _ _ _ => none
  | .partCfgWrite _ => none
  | .portMapWrite _ => none
  | .frameAreaWrite _ _ _ => none
  | .pwrLimitWrite _ => none
  | .registerWrite _ _ _ => none
  | .powerInterval _ _ => none
  | .clockDroop _ => none
  | .deviceReset _ => none
  | .attestationReport _ => none
  | .repartitionComplete => none
  | .bootNewImage _ => none

end Sys2Proof
end

