-- ==== Sys2Proof/Decode.lean ====
section
/-!
DEFINITION. Decoding and encoding: the opcode map (11 R260), the long form and the readings of its formats (R251, R252),
the escape (R241), templates and dictionary images (R241 to R245), clause headers (R234, R235).
-/
namespace Sys2Proof

/-! ## The opcode map (R260) -/

/-- The opcode of a program instruction; none for a machine event, which has no encoding. -/
def opcodeOf : Instr → Option Nat
  | .nop _ => some 0x00
  | .exit _ => some 0x01
  | .bra _ => some 0x02
  | .bany _ => some 0x03
  | .ball _ => some 0x04
  | .bnone _ => some 0x05
  | .bdiv _ => some 0x06
  | .join _ => some 0x07
  | .jmpi _ => some 0x08
  | .call _ => some 0x09
  | .calli _ => some 0x0A
  | .calld _ => some 0x0B
  | .ret _ => some 0x0C
  | .yield _ => some 0x0D
  | .refill _ => some 0x0E
  | .pcoll _ => some 0x0F
  | .setfmt _ => some 0x10
  | .getfmt _ => some 0x11
  | .dict _ => some 0x12
  | .ffence _ => some 0x13
  | .icinv _ => some 0x14
  | .trap _ => some 0x15
  | .rtt _ => some 0x16
  | .bkpt _ => some 0x17
  | .iadd _ => some 0x20
  | .isub _ => some 0x21
  | .imul _ => some 0x22
  | .imulh _ => some 0x23
  | .imad _ => some 0x24
  | .idiv _ => some 0x25
  | .imin _ => some 0x26
  | .imax _ => some 0x27
  | .logt _ => some 0x28
  | .shl _ => some 0x29
  | .shr _ => some 0x2A
  | .fshf _ => some 0x2B
  | .bfx _ => some 0x2C
  | .bfi _ => some 0x2D
  | .popc _ => some 0x2E
  | .clz _ => some 0x2F
  | .brev _ => some 0x30
  | .permb _ => some 0x31
  | .icmp _ => some 0x32
  | .isel _ => some 0x33
  | .mov _ => some 0x34
  | .movi _ => some 0x35
  | .movhi _ => some 0x36
  | .plogt _ => some 0x37
  | .pmov _ => some 0x38
  | .readlane _ => some 0x39
  | .writelane _ => some 0x3A
  | .rng _ => some 0x3B
  | .fadd _ => some 0x40
  | .fmul _ => some 0x41
  | .ffma _ => some 0x42
  | .fmin _ => some 0x43
  | .fmax _ => some 0x44
  | .fcmp _ => some 0x45
  | .fclass _ => some 0x46
  | .frcp _ => some 0x47
  | .frsq _ => some 0x48
  | .fsqrt _ => some 0x49
  | .fdiv _ => some 0x4A
  | .fexp2 _ => some 0x4B
  | .flog2 _ => some 0x4C
  | .fsin _ => some 0x4D
  | .ftanh _ => some 0x4E
  | .frnd _ => some 0x4F
  | .cvt _ => some 0x50
  | .cvtsr _ => some 0x51
  | .qnt _ => some 0x52
  | .dqnt _ => some 0x53
  | .pack _ => some 0x54
  | .unpk _ => some 0x55
  | .lxch _ => some 0x56
  | .scan _ => some 0x57
  | .redux _ => some 0x58
  | .eqln _ => some 0x59
  | .deriv _ => some 0x5A
  | .idp4 _ => some 0x5B
  | .fdp2 _ => some 0x5C
  | .ld _ => some 0x60
  | .st _ => some 0x61
  | .lds _ => some 0x62
  | .sts _ => some 0x63
  | .pft _ => some 0x64
  | .atom _ => some 0x65
  | .acas _ => some 0x66
  | .atoms _ => some 0x67
  | .fence _ => some 0x68
  | .lda _ => some 0x69
  | .stl _ => some 0x6A
  | .bara _ => some 0x6B
  | .barw _ => some 0x6C
  | .bar _ => some 0x6D
  | .barx _ => some 0x6E
  | .qmap _ => some 0x6F
  | .feset _ => some 0x70
  | .job _ => some 0x71
  | .jstat _ => some 0x72
  | .spawn _ => some 0x73
  | .cinv _ => some 0x74
  | .launch _ => some 0x75
  | .mma _ => some 0x80
  | .mldw _ => some 0x81
  | .mlds _ => some 0x82
  | .gang _ => some 0x83
  | .mtrn _ => some 0x84
  | .ncall _ => some 0x88
  | .twait _ => some 0x89
  | .ttest _ => some 0x8A
  | .npin _ => some 0x8B
  | .npref _ => some 0x8C
  | .nflush _ => some 0x8D
  | .xf _ => some 0x90
  | .dec _ => some 0x91
  | .enc _ => some 0x92
  | .topk _ => some 0x93
  | .resamp _ => some 0x98
  | .trace _ => some 0xA0
  | .trget _ => some 0xA1
  | .trcont _ => some 0xA2
  | .tex _ => some 0xA4
  | .texg _ => some 0xA5
  | .texq _ => some 0xA6
  | .imld _ => some 0xA7
  | .imst _ => some 0xA8
  | .visr _ => some 0xAC
  | .primf _ => some 0xAD
  | .emit _ => some 0xAE
  | .ordb _ => some 0xAF
  | .orde _ => some 0xB0
  | .srd _ => some 0xC0
  | .swr _ => some 0xC1
  | .perf _ => some 0xC2
  | .sysc _ => some 0xC3
  | .clauseFetch _ => none
  | .dictionarySlotLoad _ _ _ => none
  | .pathRotation _ => none
  | .groupBoost _ => none
  | .operationComplete _ => none
  | .ldsFeWake _ => none
  | .channelOperandRetry _ => none
  | .barrierPhaseComplete _ _ => none
  | .gangJoinedIssue _ _ => none
  | .resampComplete _ => none
  | .spawnRecordDispatch _ => none
  | .ordbWake _ => none
  | .bindingReleaseWake _ => none
  | .groupEnd _ => none
  | .faultBatchEnterRing _ => none
  | .groupFaultSave _ => none
  | .groupRestore _ => none
  | .faultReleaseReplay _ _ => none
  | .faultReleaseFail _ _ => none
  | .faultqConfigWrite _ _ _ => none
  | .invRange _ _ => none
  | .invContext _ _ => none
  | .invAll _ _ => none
  | .invReserved _ _ => none
  | .invFlush _ => none
  | .invCommandComplete _ => none
  | .qpLimitWrite _ _ _ => none
  | .sqDoorbell _ _ _ => none
  | .sqCtlWrite _ _ _ => none
  | .sqBaseWrite _ _ _ => none
  | .hostRecordFetch _ _ => none
  | .hostJobCardRecord _ _ _ => none
  | .waitRecordComplete _ _ _ => none
  | .nodeEntry _ => none
  | .nodeReady _ => none
  | .dispatchAgeExpiry _ => none
  | .teamPlacement _ => none
  | .teamStart _ => none
  | .nodeComplete _ => none
  | .jobStart _ => none
  | .jobCommitUnit _ => none
  | .jobFaultSuspend _ => none
  | .jobResume _ => none
  | .jobComplete _ => none
  | .contextPreempt _ _ => none
  | .budgetExpiry _ _ => none
  | .drainWindowExpiry _ _ => none
  | .deadlineExpiry _ _ => none
  | .teamSave _ => none
  | .contextReset _ _ _ _ => none
  | .teamRestore _ => none
  | .dbgHalt _ => none
  | .dbgResume _ => none
  | .dbgSingleClause _ => none
  | .ncallTileDispatch _ _ _ => none
  | .flushWindowExpiry _ _ _ => none
  | .ncallTileComplete _ => none
  | .canisterFill _ _ _ _ => none
  | .traversalComplete _ _ => none
  | .rasterTriangle _ => none
  | .sampleWrite _ => none
  | .homeSliceAtomic _ => none
  | .l1OverflowWriteback _ _ => none
  | .fullBlockWrite _ _ => none
  | .partialWrite _ _ => none
  | .eccRetry _ _ => none
  | .arrayFence _ _ => none
  | .flitReceive _ _ _ => none
  | .portRetrain _ _ => none
  | .apertureAccess _ _ _ _ _ => none
  | .apertureStrongAccess _ _ _ _ _ => none
  | .partCfgWrite _ => none
  | .portMapWrite _ => none
  | .frameAreaWrite _ _ _ => none
  | .pwrLimitWrite _ => none
  | .registerWrite _ _ _ => none
  | .powerInterval _ _ => none
  | .clockDroop _ => none
  | .deviceReset _ => none
  | .attestationReport _ => none
  | .repartitionComplete => none
  | .bootNewImage _ => none

/-- The instruction of an opcode; none for an opcode outside the map. -/
def instrOf (op : Nat) (f : Fields) : Option Instr :=
  match op with
  | 0x00 => some (.nop f)
  | 0x01 => some (.exit f)
  | 0x02 => some (.bra f)
  | 0x03 => some (.bany f)
  | 0x04 => some (.ball f)
  | 0x05 => some (.bnone f)
  | 0x06 => some (.bdiv f)
  | 0x07 => some (.join f)
  | 0x08 => some (.jmpi f)
  | 0x09 => some (.call f)
  | 0x0A => some (.calli f)
  | 0x0B => some (.calld f)
  | 0x0C => some (.ret f)
  | 0x0D => some (.yield f)
  | 0x0E => some (.refill f)
  | 0x0F => some (.pcoll f)
  | 0x10 => some (.setfmt f)
  | 0x11 => some (.getfmt f)
  | 0x12 => some (.dict f)
  | 0x13 => some (.ffence f)
  | 0x14 => some (.icinv f)
  | 0x15 => some (.trap f)
  | 0x16 => some (.rtt f)
  | 0x17 => some (.bkpt f)
  | 0x20 => some (.iadd f)
  | 0x21 => some (.isub f)
  | 0x22 => some (.imul f)
  | 0x23 => some (.imulh f)
  | 0x24 => some (.imad f)
  | 0x25 => some (.idiv f)
  | 0x26 => some (.imin f)
  | 0x27 => some (.imax f)
  | 0x28 => some (.logt f)
  | 0x29 => some (.shl f)
  | 0x2A => some (.shr f)
  | 0x2B => some (.fshf f)
  | 0x2C => some (.bfx f)
  | 0x2D => some (.bfi f)
  | 0x2E => some (.popc f)
  | 0x2F => some (.clz f)
  | 0x30 => some (.brev f)
  | 0x31 => some (.permb f)
  | 0x32 => some (.icmp f)
  | 0x33 => some (.isel f)
  | 0x34 => some (.mov f)
  | 0x35 => some (.movi f)
  | 0x36 => some (.movhi f)
  | 0x37 => some (.plogt f)
  | 0x38 => some (.pmov f)
  | 0x39 => some (.readlane f)
  | 0x3A => some (.writelane f)
  | 0x3B => some (.rng f)
  | 0x40 => some (.fadd f)
  | 0x41 => some (.fmul f)
  | 0x42 => some (.ffma f)
  | 0x43 => some (.fmin f)
  | 0x44 => some (.fmax f)
  | 0x45 => some (.fcmp f)
  | 0x46 => some (.fclass f)
  | 0x47 => some (.frcp f)
  | 0x48 => some (.frsq f)
  | 0x49 => some (.fsqrt f)
  | 0x4A => some (.fdiv f)
  | 0x4B => some (.fexp2 f)
  | 0x4C => some (.flog2 f)
  | 0x4D => some (.fsin f)
  | 0x4E => some (.ftanh f)
  | 0x4F => some (.frnd f)
  | 0x50 => some (.cvt f)
  | 0x51 => some (.cvtsr f)
  | 0x52 => some (.qnt f)
  | 0x53 => some (.dqnt f)
  | 0x54 => some (.pack f)
  | 0x55 => some (.unpk f)
  | 0x56 => some (.lxch f)
  | 0x57 => some (.scan f)
  | 0x58 => some (.redux f)
  | 0x59 => some (.eqln f)
  | 0x5A => some (.deriv f)
  | 0x5B => some (.idp4 f)
  | 0x5C => some (.fdp2 f)
  | 0x60 => some (.ld f)
  | 0x61 => some (.st f)
  | 0x62 => some (.lds f)
  | 0x63 => some (.sts f)
  | 0x64 => some (.pft f)
  | 0x65 => some (.atom f)
  | 0x66 => some (.acas f)
  | 0x67 => some (.atoms f)
  | 0x68 => some (.fence f)
  | 0x69 => some (.lda f)
  | 0x6A => some (.stl f)
  | 0x6B => some (.bara f)
  | 0x6C => some (.barw f)
  | 0x6D => some (.bar f)
  | 0x6E => some (.barx f)
  | 0x6F => some (.qmap f)
  | 0x70 => some (.feset f)
  | 0x71 => some (.job f)
  | 0x72 => some (.jstat f)
  | 0x73 => some (.spawn f)
  | 0x74 => some (.cinv f)
  | 0x75 => some (.launch f)
  | 0x80 => some (.mma f)
  | 0x81 => some (.mldw f)
  | 0x82 => some (.mlds f)
  | 0x83 => some (.gang f)
  | 0x84 => some (.mtrn f)
  | 0x88 => some (.ncall f)
  | 0x89 => some (.twait f)
  | 0x8A => some (.ttest f)
  | 0x8B => some (.npin f)
  | 0x8C => some (.npref f)
  | 0x8D => some (.nflush f)
  | 0x90 => some (.xf f)
  | 0x91 => some (.dec f)
  | 0x92 => some (.enc f)
  | 0x93 => some (.topk f)
  | 0x98 => some (.resamp f)
  | 0xA0 => some (.trace f)
  | 0xA1 => some (.trget f)
  | 0xA2 => some (.trcont f)
  | 0xA4 => some (.tex f)
  | 0xA5 => some (.texg f)
  | 0xA6 => some (.texq f)
  | 0xA7 => some (.imld f)
  | 0xA8 => some (.imst f)
  | 0xAC => some (.visr f)
  | 0xAD => some (.primf f)
  | 0xAE => some (.emit f)
  | 0xAF => some (.ordb f)
  | 0xB0 => some (.orde f)
  | 0xC0 => some (.srd f)
  | 0xC1 => some (.swr f)
  | 0xC2 => some (.perf f)
  | 0xC3 => some (.sysc f)
  | _ => none

/-- The opcodes of lifetime X, experimental, that only stepping B0 executes (R260, R261): TOPK, ORDB and ORDE. -/
def opExperimental (op : Nat) : Bool := op == 0x93 || op == 0xAF || op == 0xB0

/-- An assigned opcode. -/
def opAssigned (op : Nat) : Bool := (instrOf op ⟨0, 0, 0, 0, 0, 0, 0, 0, 0⟩).isSome

/-- Whether an opcode may execute on a stepping: 0 A0, 1 A1, 2 B0 (R261). -/
def opAllowed (stepping op : Nat) : Bool := opAssigned op && (!opExperimental op || stepping == 2)

/-- The opcodes of the MEM format (R260). -/
def opMem (op : Nat) : Bool :=
  op == 0x0B || op == 0x14 || (decide (0x60 ≤ op) && decide (op ≤ 0x67)) || op == 0x69 || op == 0x6A || op == 0x74

/-- The class of an opcode with one class in the map; none for "0 or 1" (R236, R260). -/
def opClass (op : Nat) : Option Nat :=
  if op ≤ 0x17 then some 0
  else if 0x37 ≤ op ∧ op ≤ 0x3A then some 1
  else if op ≤ 0x3B then none
  else if op ≤ 0x5C then some 1
  else if op ≤ 0x75 then some 2
  else if op ≤ 0x84 then some 3
  else if op ≤ 0x8D then some 5
  else if op ≤ 0x93 then some 4
  else if op = 0x98 then some 6
  else if op ≤ 0xB0 then some 5
  else some 6

/-- The opcodes that must end their clause (R237): BRA to BDIV, JMPI to RET, RTT, EXIT and DICT. -/
def opMustEnd (op : Nat) : Bool :=
  op == 0x01 || (decide (0x02 ≤ op) && decide (op ≤ 0x06)) || (decide (0x08 ≤ op) && decide (op ≤ 0x0C))
    || op == 0x12 || op == 0x16

/-! ## The long form (R251, R252) -/

/-- The bits of the fields below the opcode. -/
def Fields.bits (f : Fields) : BitVec 56 :=
  f.mod ++ f.d ++ f.a ++ f.b ++ f.c ++ f.g ++ f.gn ++ f.reuse ++ f.x

/-- The fields of a long form. -/
def fieldsOf (w : BitVec 64) : Fields where
  mod := w.extractLsb' 50 6
  d := w.extractLsb' 41 9
  a := w.extractLsb' 32 9
  b := w.extractLsb' 23 9
  c := w.extractLsb' 14 9
  g := w.extractLsb' 8 6
  gn := w.extractLsb' 7 1
  reuse := w.extractLsb' 4 3
  x := w.extractLsb' 0 4

/-- OP of a long form. -/
def opOf (w : BitVec 64) : Nat := (w.extractLsb' 56 8).toNat

/-- IMM18 of RI and SY, in [31:14]. -/
def Fields.imm18 (f : Fields) : BitVec 18 := f.b ++ f.c
/-- IMM27 of I27 and BR, in [40:14]. -/
def Fields.imm27 (f : Fields) : BitVec 27 := f.a ++ f.b ++ f.c
/-- TARGET13 of BD, in [40:28]. -/
def Fields.target13 (f : Fields) : BitVec 13 := f.a ++ f.b.extractLsb' 5 4
/-- JOIN14 of BD, in [27:14]. -/
def Fields.join14 (f : Fields) : BitVec 14 := f.b.extractLsb' 0 5 ++ f.c
/-- imm9 of MEM: the signed element offset in C. -/
def Fields.imm9 (f : Fields) : Int := f.c.toInt

/-- The instruction of a long form. -/
def decodeLong (w : BitVec 64) : Option Instr := instrOf (opOf w) (fieldsOf w)

/-- The long form of a program instruction. -/
def encodeLong (i : Instr) : Option (BitVec 64) :=
  match opcodeOf i, i.fields with
  | some op, some f => some (BitVec.ofNat 8 op ++ f.bits)
  | _, _ => none

/-! ## The escape (R241): three words, the long form's high word before its low word -/

def escapeWord : Word := 0xFF000000

/-- Why three words decode to no instruction. -/
inductive DecodeError where
  /-- the slot word is no escape: its meaning lies in a dictionary image -/
  | needsDictionary
  /-- an escape with a nonzero payload: ILLEGAL_CLAUSE -/
  | badEscape
  /-- fewer than two words follow the escape: ILLEGAL_CLAUSE -/
  | short
  /-- the opcode is not in the map: ILLEGAL_OPCODE -/
  | badOpcode
  deriving DecidableEq, Repr

/-- Decodes an instruction written as an escape, and what follows it. -/
def decode : List Word → Except DecodeError (Instr × List Word)
  | [] => .error .short
  | w :: r =>
    if w.extractLsb' 24 8 ≠ 0xFF#8 then .error .needsDictionary
    else if w ≠ escapeWord then .error .badEscape
    else match r with
      | hi :: lo :: rest =>
        match decodeLong (hi ++ lo) with
        | some i => .ok (i, rest)
        | none => .error .badOpcode
      | _ => .error .short

/-- The words of a program instruction: the escape and its long form. -/
def encode (i : Instr) : Option (List Word) :=
  (encodeLong i).map fun w => [escapeWord, w.extractLsb' 32 32, w.extractLsb' 0 32]

/-- Little-endian words of bytes (00 R5). -/
def wordAt : List Byte → Option (Word × List Byte)
  | a :: b :: c :: d :: r => some (d ++ c ++ b ++ a, r)
  | _ => none

/-- All the words of a list of bytes, on fuel; a rest of fewer than four bytes is dropped. -/
def wordsFrom : Nat → List Byte → List Word
  | 0, _ => []
  | k + 1, bs => match wordAt bs with
    | some (w, r) => w :: wordsFrom k r
    | none => []

/-- Decodes the first instruction of any bytes. -/
def decodeBytes (bs : List Byte) : Except DecodeError (Instr × List Word) := decode (wordsFrom (bs.length / 4) bs)

/-- The bytes of an instruction as memory holds them. -/
def wordBytes (w : Word) : List Byte :=
  [w.extractLsb' 0 8, w.extractLsb' 8 8, w.extractLsb' 16 8, w.extractLsb' 24 8]

/-- The instruction whose bits are w, bit 0 the least significant bit of the first word: three words of 32 bits, the
escape, the high word and the low word of the long form. A first word that is no escape takes its meaning from a
dictionary image, and so has none here. -/
def decodeTableWord (nbits w : Nat) : Option Instr :=
  let v : BitVec 96 := BitVec.ofNat 96 (w % 2 ^ (min nbits 96))
  let bytes := wordBytes (v.extractLsb' 0 32) ++ wordBytes (v.extractLsb' 32 32) ++ wordBytes (v.extractLsb' 64 32)
  match decodeBytes bytes with
  | .ok (i, _) => some i
  | .error _ => none

/-! ## Dictionary entries (R241, R242, R244) -/

/-- A number's bits [lo + w - 1 : lo]. -/
def natBits (x lo w : Nat) : Nat := x / 2 ^ lo % 2 ^ w

/-- Holes in use, hole 1 first: position and width. -/
def entryHoles (ent : Nat) : List (Nat × Nat) :=
  ((List.range 3).take (natBits ent 94 2)).map fun i =>
    (natBits ent (64 + 10 * i + 4) 6, natBits ent (64 + 10 * i) 4 + 1)

/-- Writes the payload into the holes, hole 1 first. -/
def fillHoles : Nat → Nat → List (Nat × Nat) → Nat → Nat
  | f, _, [], _ => f
  | f, pay, (pos, wd) :: r, used =>
    fillHoles (f - natBits f pos wd * 2 ^ pos + natBits pay used wd * 2 ^ pos) pay r (used + wd)

/-- expand of R241. -/
def expand (ent pay : Nat) : BitVec 64 := BitVec.ofNat 64 (fillHoles (natBits ent 0 64) pay (entryHoles ent) 0)

/-- VALID of an entry. -/
def entryValid (ent : Nat) : Bool := natBits ent 127 1 == 1

/-- Whether no two holes share a bit. -/
def holesApart : List (Nat × Nat) → Bool
  | [] => true
  | (p, w) :: r => r.all (fun h => decide (p + w ≤ h.1) || decide (h.1 + h.2 ≤ p)) && holesApart r

/-- The checks of a valid entry (R244). -/
def entryOk (stepping ent : Nat) : Bool :=
  let hs := entryHoles ent
  let n := natBits ent 94 2
  opAllowed stepping (natBits ent 56 8)
    && hs.all (fun h => decide (h.1 + h.2 ≤ 56))
    && holesApart hs
    && decide ((hs.map (·.2)).foldl (· + ·) 0 ≤ 24)
    && (List.range 3).all (fun i => decide (i < n) || natBits ent (64 + 10 * i) 10 == 0)
    && natBits ent 96 31 == 0

/-- The checks of an image, given its 256 entries of 16 bytes (R243, R244). -/
def imageOk (stepping : Nat) (ents : List Nat) : Bool :=
  let hdr := ents.getD 255 0
  let valid := (ents.take 255).filter entryValid
  natBits hdr 0 8 == 1
    && natBits hdr (8 + stepping) 1 == 1
    && natBits hdr 11 5 == 0
    && natBits hdr 16 8 == valid.length
    && (natBits hdr 24 1 == 1) == valid.any (fun e => opExperimental (natBits e 56 8))
    && natBits hdr 25 103 == 0
    && valid.all (entryOk stepping)

/-! ## Clause headers (R234, R235) -/

/-- Whether a header passes R235. -/
def headerOk (h : Word) : Bool :=
  let n := h.toNat
  let flagOk (v : Nat) : Bool := decide (v < 12) || v == 15
  natBits n 29 3 == 5 && natBits n 4 1 == 0 && natBits n 0 4 != 0 && flagOk (natBits n 20 4) && flagOk (natBits n 24 4)

end Sys2Proof
end

