-- ==== Sys2Proof/Config.lean ====
section
/-!
DEFINITION. What an implementation fixes and the free values: opaque constants, of which nothing can be proved. The
machine applies them to State.fresh, a plain counter that each use advances (log entry 3).
-/
namespace Sys2Proof

/-- Which of two permitted outcomes the machine takes (05 R121, 12 R299, 13 R318). -/
opaque Config.choice : Nat → Bool

/-- Which of several permitted outcomes the machine takes, modulo their number. -/
opaque Config.pick : Nat → Nat

/-- The number by which the routes of other devices, and of this one, name this device (18 R427). -/
opaque Config.deviceNumber : Nat

/-- The unit of core SRAM that an L1 line is given, modulo the units of the L1: by the core, the line and the clock (04
R78). -/
opaque Config.l1Unit : List Nat → Nat

/-- The stores that cores publish of themselves at a clock (05 R117): core, 64-bit word by its location div 8, and which of
the stores to it that the core holds dirty, counted from the oldest. -/
opaque Config.writeBacks : Nat → List (Nat × Nat × Nat)

/-- The clocks after which a store must be readable by acquiring agents, by its number (05 R122). -/
opaque Config.readableIn : Nat → Nat

/-- The CRC-64 of a flit's bytes 0 to 247 (18 R418); the manual gives no polynomial. -/
opaque Config.crc64 : List Byte → BitVec 64

/-- Whether a public key's hash equals the fused one (18 R429). -/
opaque Config.fusedKey : List Byte → Bool

/-- The 57 bytes that the device identity key is derived from (18 R429). -/
opaque Config.identitySeed : List Byte

/-- The flit from which a link-control flit's header asks for a replay, if it does: the manual gives no layout of headers (18
R418). -/
opaque Config.replayWanted : List Byte → Option Nat

/-- The peer rows of a collective reduce (06 R141, 18 R428): the element bits that a rank on another device contributes, by
the ring's lowest partition here, the ring, the job's number on it, the rank and the byte offset in the rows. -/
opaque Config.peerElement : List Nat → BitVec 64

/-- Whether the ranks on other devices issued jobs of equal shape (18 R428), by the ring's lowest partition here, the ring and
the job's number on it. -/
opaque Config.peersAgree : List Nat → Bool

/-- A byte of a part of a frame whose layout the manual does not give (10 R226: the headers, the latch entries): by the
use and the byte's offset. -/
opaque Config.frameByte : Nat → Nat → Byte

/-- Whether a hit outside a box on its path is reported (17 R415). -/
opaque Config.reportOutside : Nat → Bool

/-- Whether a traversal visits a box that its ray misses (17 R415). -/
opaque Config.visitMissed : Nat → Bool

/-- What the management controller adds to 20 in an adapter's HA_APER.LOG2SIZE, modulo 21 (18 R425). -/
opaque Config.aperLog2 : Nat → Nat

/-- Which HBM stacks are configured at boot for in-band metadata (03 R60). -/
opaque Config.inbandStack : Nat → Bool

/-- The clock up to which a client of translation goes by a cached entry that memory no longer has (03 R54): by the
client, the partition, the context, the level, the line and the clock at which the cache took the entry. -/
opaque Config.seenAt : List Nat → Nat

/-- The entry of a run by which a granule is translated where the entries of the run differ (03 R47). -/
opaque Config.runEntry : List Nat → Nat

/-- The addresses, as partition, context and virtual address, whose entries the translation caches take at a clock. -/
opaque Config.cacheFills : Nat → List (Nat × Nat × Nat)

/-- A value the manual does not state. -/
opaque Config.freeWord : Nat → BitVec 32

end Sys2Proof
end

