-- ==== Sys2Proof/Machine/Sparse.lean ====
section
/-!
DEFINITION. Sparse maps: lists of key and value pairs with strictly rising keys. `spGet` gives the value an unlisted
key has; `spSet` never lists that value, so equal maps are equal lists.
-/
namespace Sys2Proof.Machine

/-- The listed value of a key. -/
def spFind {α : Type} : SMap α → Nat → Option α
  | [], _ => none
  | (j, v) :: r, k => if j = k then some v else spFind r k

/-- The value of a key, `d` when it is not listed. -/
def spGet {α : Type} (d : α) (m : SMap α) (k : Nat) : α := (spFind m k).getD d

/-- Lists a value under a key, in its place. -/
def spPut {α : Type} : SMap α → Nat → α → SMap α
  | [], k, v => [(k, v)]
  | (j, w) :: r, k, v =>
    if k < j then (k, v) :: (j, w) :: r
    else if j = k then (k, v) :: r
    else (j, w) :: spPut r k v

/-- Removes a key. -/
def spDel {α : Type} : SMap α → Nat → SMap α
  | [], _ => []
  | (j, w) :: r, k => if j = k then spDel r k else (j, w) :: spDel r k

/-- Writes a value under the default `d`: writing `d` removes the entry. -/
def spSet {α : Type} [DecidableEq α] (d : α) (m : SMap α) (k : Nat) (v : α) : SMap α :=
  if v = d then spDel m k else spPut m k v

/-- The canonical form: keys strictly rising from `lo` on, and no entry holding the default. -/
def spWfFrom {α : Type} [DecidableEq α] (d : α) : Nat → SMap α → Bool
  | _, [] => true
  | lo, (k, v) :: r => decide (lo ≤ k) && decide (v ≠ d) && spWfFrom d (k + 1) r

def spWf {α : Type} [DecidableEq α] (d : α) (m : SMap α) : Bool := spWfFrom d 0 m

/-- The entries whose key lies in [lo, lo + n). -/
def spRange {α : Type} (m : SMap α) (lo n : Nat) : SMap α :=
  m.filter fun e => decide (lo ≤ e.1) && decide (e.1 < lo + n)

/-- Removes the entries whose key lies in [lo, lo + n). -/
def spClear {α : Type} (m : SMap α) (lo n : Nat) : SMap α :=
  m.filter fun e => !(decide (lo ≤ e.1) && decide (e.1 < lo + n))

/-- Writes entries one after another. -/
def spSetAll {α : Type} [DecidableEq α] (d : α) (m : SMap α) : List (Nat × α) → SMap α
  | [] => m
  | (k, v) :: r => spSetAll d (spSet d m k v) r

/-- Changes the listed value of a key; a key that is not listed stays so. -/
def spMod {α : Type} : SMap α → Nat → (α → α) → SMap α
  | [], _, _ => []
  | (j, v) :: r, k, f => if j = k then (j, f v) :: r else (j, v) :: spMod r k f

/-- The first key at or above 0 that is not listed. -/
def spFresh {α : Type} (m : SMap α) : Nat :=
  m.foldl (fun n e => if e.1 < n then n else e.1 + 1) 0

/-- Little-endian number of a list of bytes. -/
def leNat : List Byte → Nat
  | [] => 0
  | b :: r => b.toNat + 256 * leNat r

/-- The n low bytes of a number, little-endian. -/
def leBytes : Nat → Nat → List Byte
  | 0, _ => []
  | n + 1, x => BitVec.ofNat 8 x :: leBytes n (x / 256)

/-- Bits [hi:lo] of a number, by the low bit and the width. -/
def bitsOf (x lo w : Nat) : Nat := x / 2 ^ lo % 2 ^ w

/-- One bit of a number. -/
def bitOf (x n : Nat) : Bool := x / 2 ^ n % 2 == 1

/-- The lanes of a mask, ascending. -/
def lanesOf (m : Mask) : List Nat := (List.range 64).filter fun l => m.getLsbD l

/-- The mask of one lane. -/
def laneBit (l : Nat) : Mask := BitVec.ofNat 64 (2 ^ l)

/-- The mask of a list of lanes. -/
def maskOf (ls : List Nat) : Mask := ls.foldl (fun m l => m ||| laneBit l) 0

/-- Number of lanes of a mask. -/
def popMask (m : Mask) : Nat := (lanesOf m).length

end Sys2Proof.Machine
end

