-- ==== Sys2Proof/Machine/State.lean ====
section
/-!
DEFINITION. The state of the Galvex, as plain data: everything INVENTORY.md lists under State, its reset, and the reasons
a step can stop.
-/
namespace Sys2Proof.Machine

/-! ## Stores, edges and what agents know (05 R101 to R126) -/

/-- Where an agent stands in the scopes (05 R102, R103): the group, team, core, cluster and partition it belongs to, or
that it is the management controller, or a host link agent. -/
structure Place where
  gid     : Option Nat := none
  team    : Option Nat := none
  core    : Option Nat := none
  cluster : Option Nat := none
  part    : Option Nat := none
  mc      : Bool := false
  host    : Bool := false
  deriving DecidableEq, Repr

/-- A release edge (05 R114): where its agent stood, its scope, and the stores that happen before it, by their numbers. -/
structure RelInfo where
  place : Place
  scope : Nat
  ids   : List Nat
  deriving DecidableEq, Repr

/-- A store to bytes of one 64-bit word (05 R105, R120): its number and agent, its bytes by their place in the word,
whether it brings poison, whether it is the write of a read-modify-write, the virtual address of the word, the CMP field
of its leaf, the clock at which it was performed, the stores that happen before it, and the release edges that a read of
it observes (05 R118). -/
structure Msg where
  id    : Nat
  who   : Nat
  bytes : List (Nat × Byte)
  bad   : Bool := false
  rmw   : Bool := false
  va    : Nat := 0
  cmp   : Nat := 0
  clk   : Nat := 0
  view  : List Nat := []
  rels  : List RelInfo := []
  deriving DecidableEq, Repr

/-- The stores that have been made to one 64-bit word, in coherence order, and the word before them (05 R120): its bytes
and whether it is poisoned. -/
structure Hist where
  base : List Byte
  bad  : Bool
  msgs : List Msg
  deriving DecidableEq, Repr

/-- A store that an agent's accesses to the same bytes must not go behind: its number, the bytes of the word, and whether
the agent made it itself (05 R110, R111). -/
structure Floor where
  id   : Nat
  mask : Nat
  mine : Bool
  deriving DecidableEq, Repr

/-- What an agent knows of stores (05 R114, R115): those that happen before its next access; those it has made or read;
those that its next release edge orders beside these; the release edges that its later stores carry on (a FENCE.rel
before them); and those that its reads have met, for a later FENCE.acq. -/
structure Know where
  hb    : List Nat := []
  floor : List Floor := []
  seen  : List Nat := []
  rels  : List RelInfo := []
  met   : List RelInfo := []
  /-- the stores that its release edges so far have ordered before them -/
  out   : List Nat := []
  /-- what a thread knew as an access issued that is performed later (16 R389, R394): what its team has acquired since does
  not count, and the stores that it has made since to the same bytes come behind the access (05 R110) -/
  atIssue : Option Nat := none
  later   : List Nat := []
  deriving DecidableEq, Repr

/-- A line of an L1 (04 R83): the unit of 64 KiB of core SRAM that holds it, its valid 32-byte sectors, and the 64-bit words
of its copy that an error has poisoned (04 R96), by their place, each with the stores that the copy has. -/
structure L1Line where
  unit  : Nat
  valid : Nat
  bad   : SMap (List Nat) := []
  deriving DecidableEq, Repr

/-- An ICINV (06 R143, R144; 12 R284): its number among the stores, where it was issued and at what scope, the context whose
addresses its range names, the range, the places (location and length) that its translation then gave, for other contexts, and
the stores that happen before it. -/
structure CodeInv where
  id    : Nat
  place : Place
  scope : Nat
  part  : Nat
  ctx   : Nat
  base  : Nat
  bytes : Nat
  places : List (Nat × Nat)
  ids   : List Nat
  deriving DecidableEq, Repr

/-! ## Paths and groups -/

/-- What a slot of a fetched clause decodes to (11 R241, R247): a long form, the later words of an escape, or the trap
that acts when the slot is about to issue. -/
inductive SlotCode where
  | long (lf : Quad) (escape : Bool)
  | cont
  | trap (cause : Nat)
  deriving DecidableEq, Repr

/-- A fetched and decoded clause (11 R233, R234): its address, its header word and its slots. -/
structure Clause where
  addr   : Nat
  header : Word
  slots  : List SlotCode
  deriving DecidableEq, Repr

/-- Why a live path issues nothing (09 R212). -/
inductive Wait where
  | none
  /-- a barrier slot, until its phase count passes `phase` (14 R340) -/
  | barrier (slot phase : Nat)
  /-- full-empty bits (04 R81) -/
  | fullEmpty
  /-- a blocking channel operand (09 R209) -/
  | channel
  /-- a pending token (15 R353) -/
  | token (t : Nat)
  /-- ordering counters (16 R396) -/
  | ordering
  /-- a weight binding that another team holds (15 R354) -/
  | binding (r : Nat)
  /-- a rendezvous latch (15 R360) -/
  | latch (n : Nat)
  /-- a population resample (16 R382) -/
  | resamp
  /-- a full task graph unit (09 R201) -/
  | tguFull
  /-- a node that the task graph unit has yet to accept or refuse (16 R387) -/
  | verdict (pend : Nat)
  /-- the payload reads of REFILL (16 R386) -/
  | refill
  /-- the trap-table read of a trap being taken (10 R216) -/
  | trapRead (cause : Nat)
  /-- a page fault of the path's instruction or fetch, until its batch is released -/
  | faulted (seq : Nat)
  deriving DecidableEq, Repr

/-- A live path (08 R179): its program counter (clause and slot), lanes, FMT and dictionary handle, its issue count
(R183), and the clause it has fetched. `noWait` says that the header's WAIT is not tested again (08 R180, 10 R218);
`exempt` is the watchpoint exemption of R218. -/
structure Path where
  addr    : Nat
  slot    : Nat
  mask    : Mask
  fmt     : Word
  handle  : Nat
  count   : Nat := 0
  clause  : Option Clause := none
  yielded : Bool := false
  noWait  : Bool := false
  exempt  : Bool := false
  /-- the path resumes at a point a trap record gave, so its slot must be an instruction start (10 R218) -/
  resumed : Bool := false
  /-- the path has just ended a clause that rotates it (R183) -/
  rotate  : Bool := false
  /-- the path is in the first clause of the handler of this cause (11 R249) -/
  handler : Option Nat := none
  /-- the batch of the path's instruction was released with FAIL = 1: the replay traps FATAL_TRANSLATION (03 R71) -/
  failed  : Bool := false
  /-- a batch of the path's clause fetch was released with FAIL = 1 (03 R71) -/
  fetchFail : Bool := false
  wait    : Wait := .none
  /-- the wait that a page fault of the path's fetch has interrupted; it goes on once the batch is released -/
  under   : Wait := .none
  /-- ORDB: lanes whose counters have held their values (16 R396); ORDE: lanes of the outstanding batch -/
  found   : Mask := 0
  /-- the release edges that ORDB's reads have met (05 R118); the lanes whose store an ORDE drops (03 R71) -/
  saw     : List RelInfo := []
  dropped : Mask := 0
  /-- a batch of the path's own table reads is outstanding -/
  hold    : Option Nat := none
  /-- the clock of the path's last issue, and the clocks it has been ready since then (09 R212, R213) -/
  since   : Nat := 0
  readyFor : Nat := 0
  /-- the clock at which the path took its quarter's issue slot for the clause that it is in (09 R212) -/
  slotFrom : Option Nat := none
  /-- it has been ready for 1,024 clocks without an issue: its group goes first until it issues its next clause (09 R213) -/
  boosted : Bool := false
  deriving DecidableEq, Repr

/-- Kinds of a reconvergence record (08 R180). -/
inductive RecKind where
  | join | parked | trap | serial
  deriving DecidableEq, Repr

/-- A record of the reconvergence stack (08 R180). -/
structure Rec where
  kind   : RecKind
  addr   : Nat
  slot   : Nat := 0
  cause  : Nat := 0
  mask   : Mask
  aux    : Mask := 0
  fmt    : Word
  handle : Nat
  /-- TRAP: the resume point that a WATCHPOINT trap recorded, for the exemption of 10 R218 -/
  orig   : Option (Nat × Nat) := none
  /-- TRAP: the trapped clause is the first of the handler of this cause (11 R249) -/
  handler : Option Nat := none
  /-- SERIAL: the lanes of the running call that have yet to return or exit (R188) -/
  run    : Mask := 0
  /-- SERIAL: the clause after the CALLI -/
  next   : Nat := 0
  deriving DecidableEq, Repr

/-- An entry of the return-address stack (08 R187). -/
structure RetEntry where
  ser    : Bool
  addr   : Nat
  handle : Nat
  mask   : Mask
  deriving DecidableEq, Repr

/-- TRAPINFO (10 R217). -/
structure TrapInfo where
  cause : Nat := 0
  lane  : Nat := 0
  slot  : Nat := 0
  pslot : Nat := 0
  addr  : Quad := 0
  deriving DecidableEq, Repr

/-- The state of a token (15 R352). -/
inductive TokState where
  | idle
  | pending
  | done (err : Bool)
  deriving DecidableEq, Repr

/-- A token register (15 R352, 16 R391): `neural` says that NCALL made it pending last; the block of destination
registers it names; the lanes whose results have yet to be written, and whether one of them ended with ERR. -/
structure Token where
  st     : TokState := .idle
  neural : Bool := false
  first  : Nat := 0
  count  : Nat := 0
  left   : Mask := 0
  err    : Bool := false
  deriving DecidableEq, Repr

/-- A lane's identifiers where they are not those of an ordinary launch (08 R177, R194). -/
structure LaneIds where
  wid  : Nat
  pidx : Nat
  lin  : Nat
  deriving DecidableEq, Repr

/-- One candidate of a traversal: distance (f32 bits), primitive id, and the hit parameters. -/
structure RayHit where
  t    : Nat
  id   : Nat
  u    : Nat := 0
  v    : Nat := 0
  kind : Nat := 0
  deriving DecidableEq, Repr

/-- A lane's traversal state (16 R389, R390; 17 R417): the ray's eight words, the root, the mode, k − 1, the token that it is
attached to (16: none), the results written by the last round and the Gaussian bound. -/
structure RayState where
  ray    : List Word
  root   : Nat
  mode   : Nat
  coh    : Bool
  km1    : Nat
  first  : Nat
  tok    : Nat
  err    : Bool := false
  more   : Bool := false
  bound  : Option (Nat × Nat) := none
  hits   : List RayHit := []
  /-- a round that has begun: the entries of its traversal stack, the outermost first, each with the children still to visit
  and the node's address, and its candidates so far (17 R417) -/
  pend   : List (Nat × Nat) := []
  cand   : List RayHit := []
  active : Bool := true
  /-- what the thread knew of stores as the round was issued: the floor of its reads -/
  known  : Know := {}
  fault  : Option Nat := none
  failed : Bool := false
  deriving DecidableEq, Repr

/-- How the debugger holds a group (10 R231, 18 R430): halted, or running one clause before it halts again
(DBG_CMD 3). -/
inductive Halt where
  | halted
  | oneClause (live clauses : Nat)
  deriving DecidableEq, Repr

/-- Payload reads of newly filled lanes that are outstanding (16 R386): the item index of each lane; what a REFILL will
report (none at team start); the batch it waits for, and whether that failed. -/
structure Refill where
  lanes  : SMap Nat
  count  : Nat
  batch  : Option Nat := none
  failed : Bool := false
  deriving DecidableEq, Repr

/-- A group of 64 lanes (01 R13, 08 R174). `place` is 64 times its core plus its slot while it is resident. -/
structure Group where
  team    : Nat
  index   : Nat
  place   : Option Nat
  nregs   : Nat
  vregs   : SMap Word := []
  vpoison : SMap Bool := []
  sregs   : SMap Word := []
  spoison : SMap Bool := []
  preds   : SMap Mask := []
  flags   : SMap Nat := []
  /-- the release edges of the jobs that have completed on a flag (06 R135) -/
  jobEdge : SMap (List RelInfo) := []
  tokens  : SMap Token := []
  live0   : Option Path := none
  live1   : Option Path := none
  stack   : List Rec := []
  rets    : List RetEntry := []
  trapinfo : TrapInfo := {}
  ids     : SMap LaneIds := []
  arrived : SMap Nat := []
  rays    : SMap RayState := []
  /-- the payload reads of a live path's REFILL, by its slot; those of the team start stand under 2 -/
  refill  : SMap Refill := []
  /-- threads that REFILL or RESAMP have placed in a lane since the group was allocated -/
  births  : SMap Nat := []
  /-- the ICINVs before its FFENCEs: fetches of what they cover return the stores before them, or later ones (06 R144) -/
  code    : List CodeInv := []
  /-- stores made, read or acquired by threads whose lanes others have taken since: the team's end orders them too (05 R113) -/
  past    : List Nat := []
  retired : Nat := 0
  clauses : Nat := 0
  resident : Nat := 0
  faultSaves : Nat := 0
  age     : Nat := 0
  halt    : Option Halt := none
  ended   : Bool := false
  /-- outstanding fault batch of the group's instruction or fetch -/
  batch   : Option Nat := none
  /-- the batch has been released: false replay, true fail -/
  release : Option Bool := none
  saved   : Bool := false
  frame   : Option Nat := none
  deriving DecidableEq, Repr

/-! ## Operations in flight -/

/-- One register write of an operation. -/
inductive RegWrite where
  | vec (reg lane : Nat) (value : Word) (poison : Bool)
  /-- a write of all 64 lanes, vacant ones included (15 R364, R365, R376) -/
  | any (reg lane : Nat) (value : Word) (poison : Bool)
  | scal (reg : Nat) (value : Word) (poison : Bool)
  | pred (p lane : Nat) (value : Bool)
  deriving DecidableEq, Repr

/-- A read that VISR or PRIMF makes for a lane after its issue (16 R394): an entry of a target, or a primitive. -/
inductive LaneRead where
  | entry (lane va : Nat)
  | prim (lane id : Nat)
  deriving DecidableEq, Repr

/-- A lane's plain load in flight (14 R327): the threads whose it is, the location and size, the instruction's fields, the
record and FMT.FTZ32 by which its bytes become register bits, and the number of the next store as it issued. Until the load
completes it may read again: nothing orders it before its thread's later accesses to other locations (05 R112). -/
structure LateLoad where
  mask : Mask
  lane : Nat
  cmp  : Nat
  loc  : Nat
  size : Nat
  hi   : Bool
  ftz  : Bool
  f    : Fields
  recd : Nat
  next : Nat
  deriving DecidableEq, Repr

/-- A long-latency operation that has issued and not completed (11 R239): its group, the flag it counts on, the writes
it will make, and whether it may complete. `left` counts the parts still outstanding. -/
structure OpRec where
  gid    : Nat
  flag   : Option Nat
  writes : List RegWrite := []
  left   : Nat := 0
  /-- registers scoreboarded until completion: first vector register and count -/
  first  : Nat := 0
  count  : Nat := 0
  /-- lane reads that are outstanding, with what the lanes knew of stores at issue, the batch they wait for, and whether it
  failed -/
  reads  : List LaneRead := []
  known  : SMap Know := []
  batch  : Option Nat := none
  failed : Bool := false
  /-- clause and slot of the instruction, for fault records -/
  clause : Nat := 0
  slot   : Nat := 0
  /-- an MMA's live path as it issued: where a fence of its core makes it replay (04 R99) -/
  replay : Option (Nat × Path) := none
  /-- plain loads of the operation that may still read again -/
  loads  : List LateLoad := []
  deriving DecidableEq, Repr

/-- The read-modify-write of one lane on its way to its home slice (04 R84 to R86; 14 R335 to R337). -/
structure AtomReq where
  op     : Nat
  gid    : Nat
  core   : Nat
  loc    : Nat
  kind   : Nat
  cmp    : Nat
  size   : Nat
  code   : Nat
  scale  : Int
  operand : Nat
  compare : Nat
  cas    : Bool
  lane   : Nat
  dst    : Option Nat
  /-- scopes of its acquire and release edges -/
  acquire : Option Nat
  release : Option Nat
  /-- the home slice (04 R85) -/
  slice  : Nat
  va     : Nat
  /-- what its thread knew when it was issued: later accesses do not count for its edges (05 R114) -/
  know   : Know
  deriving DecidableEq, Repr

/-! ## Teams -/

/-- A barrier slot (14 R339): the groups counted in the current phase, the pending bytes, and the phases completed. -/
structure BarSlot where
  arrived : List Nat := []
  pending : Int := 0
  done    : Nat := 0
  /-- the release edges of the arrivals and job decrements counted in the current phase, and those of the latest completed
  phase and of earlier ones that a path still waits for, by phase (05 R118; 06 R135) -/
  rels    : List RelInfo := []
  passed  : SMap (List RelInfo) := []
  deriving DecidableEq, Repr

/-- A rendezvous latch (15 R359, R360): the member list as %group values, the groups that have arrived, and the broken
mark. -/
structure Latch where
  members : List Nat := []
  arrived : List PathId := []
  broken  : Bool := false
  deriving DecidableEq, Repr

/-- A binding record (15 R355). -/
structure Binding where
  wsrc  : Nat := 0
  wlen  : Nat := 0
  wzb   : Bool := false
  valid : Bool := false
  ssrc  : Nat := 0
  slen  : Nat := 0
  deriving DecidableEq, Repr

/-- A bound channel (09 R208): queue, push and pop stage masks. -/
structure Channel where
  queue : Nat
  push  : Nat
  pop   : Nat
  deriving DecidableEq, Repr

/-- A buffer of a queue: its 64 bytes, its poisoned words, one bit each (04 R91, R96), and the release edges of its push
(09 R210). -/
structure QBuf where
  bytes : List Byte
  bad   : Nat := 0
  rels  : List RelInfo := []
  deriving DecidableEq, Repr

/-- A clone that waits as a spawn record (16 R384): identifiers and the carried set. -/
structure SpawnRec where
  pidx  : Nat
  lin   : Nat
  vregs : List (Nat × Word × Bool)
  preds : List (Nat × Bool)
  addr  : Nat
  slot  : Nat
  deriving DecidableEq, Repr

/-- Where a team stands. -/
inductive TeamPhase where
  | placed      -- on a core, its argument block not yet read
  | running
  | saving      -- a team save waits to finish (10 R224)
  | saved
  | ended
  deriving DecidableEq, Repr

/-- A team (08 R174). `core` is its core while it is resident. -/
structure Team where
  node    : Nat
  part    : Nat
  ctx     : Nat
  index   : Nat
  stage   : Nat := 0
  set     : Nat := 0
  core    : Option Nat
  tsize   : Nat
  groups  : List Nat := []
  regs    : Nat
  size    : Nat
  bars    : Nat
  latchN  : Nat
  spad    : SMap Byte := []
  full    : SMap Bool := []
  spoison : SMap Bool := []
  /-- the stores made to words of the scratchpad, by offset div 8 (05 R104, R120) -/
  shist   : SMap Hist := []
  /-- granules that a store or a job has made full: the release edges that LDS.fe observes, and the stores it returns
  (06 R142) -/
  filled  : SMap (List RelInfo × List Nat) := []
  /-- stores that happen before every access of the team's threads: the team-start acquire (05 R113) -/
  known   : List Nat := []
  /-- stores that the ends of the team's groups have released (05 R113) -/
  left    : List Nat := []
  /-- units of core SRAM that hold the scratchpad (04 R77) -/
  units   : List Nat := []
  barrier : SMap BarSlot := []
  latch   : SMap Latch := []
  binding : SMap Binding := []
  channel : SMap Channel := []
  ticket  : Nat := 0
  tickets : SMap Nat := []
  jobsDone : Nat := 0
  phase   : TeamPhase := .placed
  batch   : Option Nat := none
  argFail : Bool := false
  frame   : Option Nat := none
  queueBufs : List (Nat × List QBuf) := []
  /-- spawn records the team was made from, in lane order (16 R384) -/
  spawned : List SpawnRec := []
  /-- the team's lanes have been given their threads, and its groups may issue (09 R207) -/
  laned   : Bool := false
  begun   : Bool := false
  /-- the clock of the team's save, and whether it was saved because it only waited (10 R222) -/
  savedAt : Nat := 0
  byWait  : Bool := false
  deriving DecidableEq, Repr

/-! ## Work: nodes, jobs, queues -/

/-- A footprint region (06 R127). -/
structure Region where
  base  : Nat
  pitch : Nat
  rowBytes : Nat
  rows  : Nat
  rd    : Bool
  wr    : Bool
  spad  : Bool
  deriving DecidableEq, Repr

/-- A stream of the task graph unit (06 R129, 09 R200). -/
inductive StreamId where
  | queue (part q : Nat)
  | team (t : Nat)
  | child (node : Nat)
  | own (n : Nat)
  deriving DecidableEq, Repr

/-- A member of a stream that has completed (06 R131): its place in the stream, its footprint, and the stores that its
completion orders. -/
structure MemberEnd where
  stream  : StreamId
  order   : Nat
  regions : List Region
  ids     : List Nat
  deriving DecidableEq, Repr

/-- What a job of a collective reduce has contributed (06 R141; 18 R428): its partition, ring and number on the ring, its
shape, its chunks with their poison as they were read, and whether it has ended without the rest of them. -/
structure Share where
  part     : Nat
  ring     : Nat
  seq      : Nat
  rows     : Nat
  rowBytes : Nat
  chunks   : SMap (List Byte × List Bool) := []
  dead     : Bool := false
  deriving DecidableEq, Repr

/-- A kernel descriptor (09 R202). -/
structure KDesc where
  entry   : Nat
  handle  : Nat
  scratch : Nat
  regs    : Nat
  tsize   : Nat
  bars    : Nat
  latches : Nat
  persistent : Bool
  population : Bool
  spread  : Bool
  stage   : Nat
  carryV  : Nat
  carryP  : Nat
  addr    : Nat := 0
  deriving DecidableEq, Repr

/-- Where a node or a job card record came from: a queue's record, LAUNCH or SPAWN by a path, or spawn. -/
inductive Source where
  | queue (part q index : Nat)
  | launch (p : PathId) (dst : Option Nat) (spawn : Bool) (node : Nat)
  deriving DecidableEq, Repr

/-- A node on its way into the task graph unit (09 R203): its 64-byte record, and a fault batch it waits for. -/
structure Entry where
  part : Nat
  ctx  : Nat
  record : Nat
  src  : Source
  batch : Option Nat := none
  failed : Bool := false
  /-- stores that happen before everything the node does -/
  known : List Nat := []
  deriving DecidableEq, Repr

/-- An arrival at RESAMP (16 R382): the f32 weights of the path's lanes, the operands, the scalar that takes the status,
and the clause that follows. -/
structure ResampArrival where
  path    : PathId
  weights : List (Nat × Nat)
  target  : Nat
  explicit : Bool
  seed    : Nat
  dst     : Option Nat
  next    : Nat
  /-- the path behind its RESAMP -/
  behind  : Path
  deriving DecidableEq, Repr

/-- Draw statistics held on chip until the node completes (17 R409). -/
structure DrawStat where
  primsIn  : Nat := 0
  culled   : Nat := 0
  /-- threads counted: group, lane and how many threads the lane had before it -/
  threads  : List (Nat × Nat × Nat) := []
  /-- samples counted: addresses of entries -/
  samples  : List Nat := []
  deriving DecidableEq, Repr

inductive NodePhase where
  | entered | ready | done
  deriving DecidableEq, Repr

/-- A launch node that has entered (09 R198 to R205). -/
structure Node where
  part    : Nat
  ctx     : Nat
  launch  : Nat
  teams   : Nat
  stages  : Nat
  qbind   : Nat
  args    : Nat
  workq   : Nat
  workn   : Nat
  descs   : List KDesc
  regions : List Region
  stream  : StreamId
  order   : Nat
  src     : Source
  phase   : NodePhase := .entered
  readyAt : Nat := 0
  nextTeam : Nat := 0
  /-- the clock since which its next team has found no room, and whether that has lasted 65,536 fabric clocks (09 R204) -/
  waitFrom : Option Nat := none
  aged    : Bool := false
  /-- the team that it placed last (09 R205) -/
  lastTeam : Option Nat := none
  dispensed : Nat := 0
  /-- stores that happen before everything the node does (05 R113, R126), and those that its completion orders (06 R131) -/
  known   : List Nat := []
  left    : List Nat := []
  gen     : Nat := 0
  popSize : Nat := 0
  popstat : Nat := 0
  arrivals : List ResampArrival := []
  spawns  : List SpawnRec := []
  /-- frame-area units that hold the spawn records: address and count -/
  spawnAt : Nat × Nat := (0, 0)
  extraTeams : Nat := 0
  /-- the cluster queues that the stage sets of the launch are bound to: set, cluster and queue (04 R95) -/
  queues  : List (Nat × Nat × Nat) := []
  /-- the number of the first store since the node started: the entries of its targets as it found them are those before
  it (17 R409) -/
  firstStore : Nat := 0
  stats   : SMap DrawStat := []
  batch   : Option Nat := none
  qobjFail : Bool := false
  /-- adds of the statistics that are left, by address, once the completion has begun -/
  owed    : Option (List (Nat × Nat)) := none
  deriving DecidableEq, Repr

/-- A job card (14 R345). -/
structure Card where
  kind   : Nat
  scope  : Nat
  fpcount : Nat
  bar    : Nat
  bvalid : Bool
  spsrc  : Bool
  spdst  : Bool
  jobid  : Nat
  src    : Nat
  dst    : Nat
  spitch : Nat
  dpitch : Nat
  rowBytes : Nat
  rows   : Nat
  p0     : Nat
  p1     : Nat
  cword  : Nat
  reserved : Nat := 0
  regions : List Region := []
  deriving DecidableEq, Repr

inductive JobPhase where
  | entered | running | suspended | finishing | done | stopped
  deriving DecidableEq, Repr

/-- A job (06 R132 to R140). `unit` is the next commit unit, `counted` the bytes subtracted from its barrier slot,
`offset` the source byte offset recorded at the start of the unit (R139), `index` the index list once read (R133). -/
structure Job where
  part    : Nat
  cluster : Nat
  ctx     : Nat
  card    : Card
  stream  : StreamId
  order   : Nat
  team    : Option Nat
  ticket  : Nat := 0
  /-- the job's number among those of its partition on its ring (18 R428) -/
  redSeq  : Nat := 0
  /-- the stores that its issue releases, of which those in its read footprint happen before its accesses (R134) -/
  issued  : List Nat := []
  op      : Option Nat := none
  src     : Option (Nat × Nat) := none
  phase   : JobPhase := .entered
  checked : Bool := false
  unit    : Nat := 0
  offset  : Nat := 0
  index   : Option (List Nat) := none
  bytes   : Nat := 0
  counted : Nat := 0
  poison  : Bool := false
  status  : Nat := 0
  batch   : Option Nat := none
  fault   : List (Nat × Nat × Nat × Nat) := []
  failed  : Bool := false
  wordFail : Bool := false
  /-- the suspended step is the completion word's write -/
  wordStep : Bool := false
  doneAt  : Nat := 0
  deriving DecidableEq, Repr

/-- How a fetched record of a submission queue stands (09 R197). -/
inductive RecPhase where
  | fetched          -- read, not yet acted on
  | wait (queue value : Nat)
  | card (addr : Nat) (batch : Option Nat) (failed : Bool)
  | entry (pend : Nat)
  | node (n : Nat)
  | job (j : Nat)
  | done
  deriving DecidableEq, Repr

/-- A submission queue (18 R422). `fetched` is the index of the next record to fetch; `stored` is a doorbell kept while
the context is switched (10 R232). -/
structure SubQueue where
  base    : Quad := 0
  log2n   : Nat := 4
  loc     : Bool := false
  enable  : Bool := false
  ctx     : Nat := 0
  tail    : Nat := 0
  progress : Nat := 0
  reason  : Nat := 0
  refused : Bool := false
  stopped : Bool := false
  fetched : Nat := 0
  recs    : SMap RecPhase := []
  stored  : Option Nat := none
  /-- stores of the host that precede its doorbell (05 R126); those that the completion of each record orders; and those
  that PROGRESS orders (09 R199) -/
  known   : List Nat := []
  ends    : SMap (List Nat) := []
  passed  : List Nat := []
  deriving DecidableEq, Repr

/-! ## Partitions -/

/-- Who waits for a fault batch (03 R71). -/
inductive Client where
  | group (gid live : Nat)
  | fetch (gid live : Nat) (dict : Bool)
  | trapRead (gid live : Nat)
  | job (j : Nat)
  | entry (pend : Nat)
  | card (part q index : Nat)
  | qobj (node : Nat)
  | args (team : Nat)
  | tile (t : Nat)
  | ray (gid lane : Nat)
  | sample (part : Nat)
  | stats (node : Nat)
  | aperture (adapter : Nat)
  | regRead (op lane : Nat)
  | ordering (gid live : Nat)
  | refill (gid key : Nat)
  deriving DecidableEq, Repr

/-- A fault batch (03 R67): sequence number, its 32-byte records, its client, and whether the ring holds it. -/
structure Batch where
  seq     : Nat
  records : List Nat
  client  : Client
  inRing  : Bool := false
  deriving DecidableEq, Repr

/-- A queued invalidation command with the range it captured (03 R55, R56). -/
structure InvCmd where
  op    : Nat
  flush : Bool
  ctx   : Nat
  addr  : Nat
  count : Nat
  deriving DecidableEq, Repr

/-- A triangle a rasteriser has been sent (16 R395): its target record, vertices and id, node and thread. -/
structure Tri where
  node  : Nat
  ctx   : Nat
  op    : Nat
  base  : Nat
  width : Nat
  height : Nat
  log2s : Nat
  verts : List Nat
  id    : Nat
  /-- stores that the release edge of EMIT orders before the triangle -/
  known : List Nat := []
  deriving DecidableEq, Repr

/-- A covered sample on its way to its entry (17 R405). -/
structure Sample where
  node : Nat
  ctx  : Nat
  va   : Nat
  z    : Nat
  id   : Nat
  /-- the rasteriser that owns the sample -/
  ras  : Nat
  known : List Nat := []
  batch : Option Nat := none
  failed : Bool := false
  deriving DecidableEq, Repr

/-- A pre-emption in progress: the context, when it began, and the step of 10 R223 it has reached. -/
structure Preempt where
  ctx   : Nat
  start : Nat
  saving : Bool := false
  deriving DecidableEq, Repr

/-- A line of the L2 (04 R86): the 32 expanded bytes of each valid sector by their offset, the sectors that are valid and
those that are dirty, the poisoned words, and the CMP field of the leaf under which it is held (03 R57). A line of the host or
of another device has no CMP: the field holds the partition whose L2 it stands in. -/
structure L2Line where
  bytes : SMap Byte := []
  valid : Nat := 0
  dirty : Nat := 0
  /-- poisoned words of the line, one bit each -/
  bad   : Nat := 0
  cmp   : Nat := 0
  deriving DecidableEq, Repr

/-- An entry in the translation caches of a partition (03 R53): its context, its level, a virtual address that it
translates, its 64 bits, and the clock at which it was taken. -/
structure CachedEntry where
  ctx   : Nat
  lvl   : Nat
  va    : Nat
  bits  : Nat
  taken : Nat
  deriving DecidableEq, Repr

/-- A partition (01 R21) with its register window (18 R420). -/
structure Partition where
  invAddr  : Quad := 0
  invCount : Word := 0
  invErr   : Bool := false
  invDone  : Nat := 0
  /-- stores that had been performed when the last command completed: a read of DONE is an acquire of them (03 R56) -/
  invEnds  : List Nat := []
  invQueue : List InvCmd := []
  faultBase : Quad := 0
  /-- the stores that have brought the records of the fault ring: a read of HEAD is an acquire of them (03 R70) -/
  faultEnds : List Nat := []
  faultK   : Nat := 7
  faultHead : Nat := 0
  faultTail : Nat := 0
  faultSvc : Bool := false
  badRelease : Bool := false
  phase    : Bool := true
  nextSeq  : Nat := 0
  batches  : List Batch := []
  metaBase : Quad := 0
  frameBase : Quad := 0
  frameSize : Word := 0
  rasTransient : Nat := 0
  rasLasting : Nat := 0
  route    : SMap Quad := []
  ring     : SMap Quad := []
  /-- jobs of collective reduces that have been issued on each ring (18 R428) -/
  reduces  : SMap Nat := []
  queues   : SMap SubQueue := []
  launches : Nat := 0
  pointer  : Option Nat := none
  redirect : List Nat := []
  units    : SMap Nat := []
  wpAddr   : SMap Quad := []
  wpCtl    : SMap Quad := []
  dbgCtx   : SMap Bool := []
  dbgSel   : Nat := 0
  dbgDict  : Nat := 0
  l2       : SMap L2Line := []
  /-- sectors that reads have asked for and the L2 has yet to take: line, sector and CMP (04 R86) -/
  fills    : List (Nat × Nat × Nat) := []
  preempt  : List Preempt := []
  /-- contexts whose time-slice count has reached their budget, in that order (09 R211) -/
  expired  : List Nat := []
  resets   : List Nat := []
  tris     : List Tri := []
  samples  : List Sample := []
  atoms    : List AtomReq := []
  /-- translation caches: entries that clients may still go by after memory has others (03 R53, R54) -/
  tlb      : List CachedEntry := []
  deriving DecidableEq, Repr

/-! ## Clusters and cores -/

/-- A queue of a cluster's pool (04 R91): its limits and its buffers, oldest first. -/
structure PoolQueue where
  min  : Nat := 0
  cap  : Nat := 0
  bufs : List QBuf := []
  deriving DecidableEq, Repr

/-- A freed buffer: the partition and context of the queue that freed it, and its bytes (04 R95). -/
structure FreeBuf where
  part  : Nat
  ctx   : Nat
  bytes : List Byte
  deriving DecidableEq, Repr

/-- A row of a bin (15 R369): its group, token, lane, result block and inputs, and the clock it entered. -/
structure NRow where
  gid   : Nat
  tok   : Nat
  lane  : Nat
  first : Nat
  input : List Word
  at_   : Nat
  deriving DecidableEq, Repr

/-- Rows gathered for one weight-set handle of a context. -/
structure Bin where
  ctx    : Nat
  part   : Nat
  handle : Nat
  rows   : List NRow
  flush  : Bool := false
  deriving DecidableEq, Repr

/-- A dispatched tile of at most 32 rows; or, without rows, the fetch of a set that NPIN (`hint` true) or NPREF asked
for (15 R371). -/
structure Tile where
  cluster : Nat
  part    : Nat
  ctx     : Nat
  handle  : Nat
  rows    : List NRow
  hint    : Option Bool := none
  batch   : Option Nat := none
  failed  : Bool := false
  deriving DecidableEq, Repr

/-- A Canister line: 128 bytes as filled, poison per word, use order, and the handles that pin it (04 R88). -/
structure CanLine where
  bytes  : List Byte
  poison : SMap Bool := []
  used   : Nat := 0
  pins   : List Nat := []
  deriving DecidableEq, Repr

/-- A cluster: queue pool, Canister, bins (01 R15). -/
structure Cluster where
  queues  : SMap PoolQueue := []
  reject  : Bool := false
  /-- freed buffers that have held data, oldest first (04 R95); the others are zero -/
  freed   : List FreeBuf := []
  owner   : Option (Nat × Nat) := none
  lines   : SMap CanLine := []
  bins    : List Bin := []
  fenced  : Bool := false
  /-- the arithmetic clock in MHz, and the 700ths of a clock by which the cluster's count lags State.clk (00 R8) -/
  clock   : Nat := 700
  lag     : Nat := 0
  deriving DecidableEq, Repr

/-- How a dictionary slot stands (11 R246, R250); one that is not listed is empty. -/
inductive DictState where
  | loading | loaded | rejected
  deriving DecidableEq, Repr

/-- A dictionary slot (11 R246): its context and handle, the address of the image, the entries as they were read, and when
it was used. A load waits for its batch, which may have been released with FAIL = 1. -/
structure DictSlot where
  part    : Nat
  ctx     : Nat
  handle  : Nat
  addr    : Nat
  state   : DictState
  entries : List (Nat × Nat)
  used    : Nat
  batch   : Option Nat := none
  failed  : Bool := false
  deriving DecidableEq, Repr

/-- A line of code that a core may hold: its context, its address div 128, and the number of the next store as it was read. -/
structure CodeLine where
  part  : Nat
  ctx   : Nat
  line  : Nat
  first : Nat
  deriving DecidableEq, Repr

/-- A weight-buffer slot with its scale region (15 R354). -/
structure Weight where
  holder : Option Nat := none
  bytes  : SMap Byte := []
  poison : SMap Bool := []
  scale  : SMap Byte := []
  /-- poisoned bytes of the scale region -/
  sbad   : SMap Bool := []
  deriving DecidableEq, Repr

/-- A core: its L1 (its lines, and the stores to each 64-bit word that it holds dirty, oldest first), dictionary slots,
weight buffer, fence bit, and the time-slice count of each context. Its instruction cache holds copies only: what it may
hold is the history of the words since the last pair of ICINV and FFENCE (06 R144). -/
structure Core where
  l1     : SMap L1Line := []
  pend   : SMap (List Msg) := []
  dicts  : List DictSlot := []
  /-- lines that its fetches have read as code, of a context's addresses: the number of the next store at the first since the
  line was invalidated (19 R438) -/
  fetched : List CodeLine := []
  weight : SMap Weight := []
  /-- clocks during which the core has held a team of each context, since the context was restored (09 R211) -/
  slice  : SMap Nat := []
  /-- the clock at which the count of each context reached its budget -/
  reached : SMap Nat := []
  fenced : Bool := false
  deriving DecidableEq, Repr

/-! ## Host side -/

/-- An aperture access waiting for its fault batch (18 R425). -/
structure ApWait where
  part  : Nat
  ctx   : Nat
  va    : Nat
  size  : Nat
  write : Bool
  data  : Nat
  strong : Bool
  seq   : Nat
  deriving DecidableEq, Repr

/-- A Fitex host adapter's registers (18 R425). -/
structure Adapter where
  ctx    : Quad := 0
  wbase  : Quad := 0
  err    : Bool := false
  waits  : List ApWait := []
  /-- accesses to the bytes of a waiting access, held behind it (05 R126) -/
  held   : List ApWait := []
  deriving DecidableEq, Repr

/-- A Fitex port (18 R418). -/
structure Port where
  up       : Bool := true
  nextSeq  : Nat := 0
  failures : Nat := 0
  retrain  : Bool := false
  replay   : Option Nat := none
  /-- payloads that wait to be sent, the number of the next flit, and the 64 flits sent last, oldest first -/
  out      : List (List Byte) := []
  sendSeq  : Nat := 0
  sent     : List (Nat × List Byte) := []
  /-- the number from which the far end has asked for a replay -/
  asked    : Option Nat := none
  deriving DecidableEq, Repr

/-- What the management controller does to memory (01 R20; 05 R125, R126). -/
inductive McKind where
  /-- a load, with the scope of its acquire edge -/
  | load (acq : Option Nat)
  /-- a store, with the scope of its release edge -/
  | store (bytes : List Byte) (rel : Option Nat)
  /-- a read-modify-write: operation code of R335, operand, the compared value of a compare-and-swap, and the scopes of its
  acquire and release edges -/
  | atomic (code operand : Nat) (compare acq rel : Option Nat)
  | fence (kind scope : Nat)
  /-- a write, or a read, at an offset of the partition windows -/
  | window (off value : Nat)
  | windowRead (off : Nat)
  deriving DecidableEq, Repr

/-- A memory operation of the management controller: device physical, or of a context of a partition (01 R20). -/
structure McOp where
  kind : McKind
  ctx  : Option (Nat × Nat) := none
  addr : Nat := 0
  size : Nat := 8
  deriving DecidableEq, Repr

/-- What the device tells the host. -/
inductive HostMsg where
  | msix (vector : Nat)
  | readData (adapter : Nat) (data : Nat) (poisoned : Bool)
  | report (bytes : List Byte) (signature : List Byte)
  | payload (port : Nat) (bytes : List Byte)
  | replayReq (port seq : Nat)
  | flit (port seq : Nat) (payload : List Byte)
  | mcSignal (part : Nat)
  /-- what an operation of the management controller returned to it; none when it could not be made -/
  | mcResult (bytes : Option (List Byte)) (poisoned : Bool)
  deriving DecidableEq, Repr

/-- The machine. -/
structure State where
  /-- bytes of memory: device HBM, host memory, peer memory (`locOf` in Machine/Mem gives the key); an unlisted byte
  reads 0 (log 1) -/
  mem      : List Host.Cell
  /-- poisoned 64-bit words, by location div 8 -/
  poison   : SMap Bool
  /-- in-band metadata nibbles, by block (03 R60) -/
  nibbles  : SMap Nat
  /-- stacks configured at boot for in-band metadata (03 R60) -/
  inband   : List Nat
  groups   : SMap Group
  teams    : SMap Team
  nodes    : SMap Node
  entries  : SMap Entry
  jobs     : SMap Job
  ops      : SMap OpRec
  tiles    : SMap Tile
  parts    : SMap Partition
  clusters : SMap Cluster
  cores    : SMap Core
  adapters : SMap Adapter
  ports    : SMap Port
  partCfg  : Word
  portMap  : Quad
  partErr  : Bool
  busy     : Bool
  /-- partition-window accesses that wait until PART_STATUS.BUSY is 0 (18 R424) -/
  heldWrites : List (Nat × Nat × Quad)
  boot     : Nat
  fwHash   : List Byte
  fwImage  : List Byte
  pwrLimit : Nat
  minClk   : Nat
  watts    : Nat
  stepping : Nat
  hostMsgs : List HostMsg
  /-- memory operations that the firmware of the management controller has asked for, oldest first (01 R20) -/
  mcOps    : List McOp
  /-- events waiting to happen, oldest first (log 2) -/
  agenda   : List Instr
  /-- the live path that issues (log 2) -/
  cur      : Option PathId
  /-- arithmetic clocks since reset (log 6) -/
  clk      : Nat
  /-- the stores made to each 64-bit word, by location div 8 (05 R120) -/
  hist     : SMap Hist
  /-- what agents know of stores, by agent (05 R114, R115) -/
  know     : SMap Know
  /-- the SC order of ordinary agents: the FENCE.sc operations so far, those of one place and scope together (05 R123) -/
  scOrder  : List RelInfo
  /-- the SC operations of privileged agents so far (05 R125) -/
  privOrder : List RelInfo
  /-- number of the next store -/
  stores   : Nat
  /-- the ICINVs so far (06 R144) -/
  icinvs   : List CodeInv
  /-- members of streams that have completed (06 R131) -/
  ends     : List MemberEnd
  /-- contributions to collective reduces (06 R141) -/
  shares   : List Share
  /-- counter of the free values (log 3) -/
  fresh    : Nat
  /-- next number of a node, job, group, team or operation -/
  order    : Nat
  deriving DecidableEq, Repr

/-- The machine after device reset: the Reset column of each register map; memory lists nothing; no team is resident
(INVENTORY.md, State; log 1, 2, 3, 6 and 8). -/
def State.reset : State where
  mem := []
  poison := []
  nibbles := []
  inband := []
  groups := []
  teams := []
  nodes := []
  entries := []
  jobs := []
  ops := []
  tiles := []
  parts := []
  clusters := []
  cores := []
  adapters := []
  ports := []
  partCfg := 0
  portMap := 0
  partErr := false
  busy := false
  heldWrites := []
  boot := 1
  fwHash := []
  fwImage := []
  pwrLimit := 2000
  minClk := 700
  watts := 0
  stepping := 2
  hostMsgs := []
  mcOps := []
  agenda := []
  cur := none
  clk := 0
  hist := []
  know := []
  scOrder := []
  privOrder := []
  stores := 0
  icinvs := []
  ends := []
  shares := []
  fresh := 0
  order := 0

/-- Why the machine stops with a fault: it never does. Where the spec names a trap, a context reset or a fault record, the step
takes it. -/
inductive Fault where
  deriving DecidableEq, Repr

/-- Why a step has no meaning. -/
inductive Refusal where
  /-- The instruction has no meaning yet; raised by the dispatch only; safe. -/
  | notModelled (mnemonic : String)
  /-- A program instruction is executed where no live path is issuing (State.cur names none); no hardware state is
  like this. Raised by every program instruction; safe. -/
  | noIssuer
  deriving DecidableEq, Repr

end Sys2Proof.Machine
end

