-- ==== Sys2Proof/Machine/Mem.lean ====
section
/-!
DEFINITION. Memory below translation: locations, compressed blocks, the L2, poison, and the context records that lie in
memory (03 R49, R58 to R66; 04 R85 to R87, R98; 10 R227).
-/
namespace Sys2Proof.Machine

/-! ## Structure of the device (01 R11, R12, R21) -/

def hbmSize : Nat := 2 ^ 39
def partCount (s : State) : Nat := 2 ^ (s.partCfg.toNat % 4)
def clustersPerPart (s : State) : Nat := 96 / partCount s
def clusterOf (core : Nat) : Nat := core / 4
def partOfCluster (s : State) (k : Nat) : Nat := k / clustersPerPart s
def partOfCore (s : State) (c : Nat) : Nat := partOfCluster s (clusterOf c)

def getPart (s : State) (p : Nat) : Partition := spGet {} s.parts p
def setPart (s : State) (p : Nat) (v : Partition) : State := { s with parts := spSet {} s.parts p v }
def modPart (s : State) (p : Nat) (f : Partition → Partition) : State := setPart s p (f (getPart s p))
def getCore (s : State) (c : Nat) : Core := spGet {} s.cores c
def setCore (s : State) (c : Nat) (v : Core) : State := { s with cores := spSet {} s.cores c v }
def modCore (s : State) (c : Nat) (f : Core → Core) : State := setCore s c (f (getCore s c))
def getCluster (s : State) (k : Nat) : Cluster := spGet {} s.clusters k
def setCluster (s : State) (k : Nat) (v : Cluster) : State := { s with clusters := spSet {} s.clusters k v }
def modCluster (s : State) (k : Nat) (f : Cluster → Cluster) : State := setCluster s k (f (getCluster s k))

/-- A free choice of the machine, and the state that has used it (log 3). -/
def choose (s : State) : Bool × State := (Config.choice s.fresh, { s with fresh := s.fresh + 1 })

/-- A free choice below n; with nothing to choose between it uses none. -/
def chooseBelow (s : State) (n : Nat) : Nat × State :=
  if n ≤ 1 then (0, s) else (Config.pick s.fresh % n, { s with fresh := s.fresh + 1 })

/-! ## Peer routes (18 R424, R427) -/

/-- The ports a partition owns (18 R424). -/
def ownsPort (s : State) (part p : Nat) : Bool := decide (p < 12) && bitsOf s.portMap.toNat (4 * p) 4 == part

def routeOf (s : State) (part r : Nat) : Nat := (spGet 0 (getPart s part).route r).toNat

/-- Whether a route is configured (R427). -/
def routeOk (s : State) (part r : Nat) : Bool :=
  bitOf (routeOf s part r) 31 && (List.range 12).any fun p => bitOf (routeOf s part r) p && ownsPort s part p

def routeDevice (s : State) (part r : Nat) : Nat := bitsOf (routeOf s part r) 16 12

/-- The partitions of this device that configured routes of a partition name. -/
def routeParts (s : State) (part : Nat) : List Nat :=
  ((List.range 16).filter fun r =>
    routeOk s part r && routeDevice s part r == Config.deviceNumber && decide (bitsOf (routeOf s part r) 28 3 < partCount s)).map
      fun r => bitsOf (routeOf s part r) 28 3

/-- A partition's fabric domain within the device (R427): what routes join, taken transitively. The routes of other devices
are not of this machine, so what only they join stays apart (log 11). -/
def fabricDomain (s : State) (part : Nat) : List Nat :=
  (List.range (partCount s)).foldl (fun d _ => (d ++ d.flatMap (routeParts s)).eraseDups) [part]

/-! ## Locations (03 R49, 05 R104) -/

/-- The partition whose stacks hold a location of HBM (01 R21). A table, frame area, fault ring or side table whose address
lies in another partition's stack is read and written there (log 20). -/
def ownerOf (s : State) (loc : Nat) : Nat := loc / (8 / partCount s * 2 ^ 36)

/-- The location of a byte: device HBM below 2^52, then host memory by its 64-bit bus address, then the memory of other devices
by device number and address. A route to this device names the HBM itself, in whichever stack the address lies (log 20). -/
def locOf (s : State) (part kind pa : Nat) : Nat :=
  if kind = 1 then 2 ^ 52 + pa
  else if kind = 2 then
    let dev := routeDevice s part (pa / 2 ^ 48)
    if dev = Config.deviceNumber then pa % 2 ^ 48 else 2 ^ 66 + dev * 2 ^ 48 + pa % 2 ^ 48
  else pa

/-- Whether a location has bytes behind it: device HBM ends at 512 GiB (01 R17). -/
def locExists (loc : Nat) : Bool := decide (loc < hbmSize) || decide (2 ^ 52 ≤ loc)

def memByte (m : List Host.Cell) (loc : Nat) : Byte := spGet 0 m loc
def memPut (m : List Host.Cell) (loc : Nat) (b : Byte) : List Host.Cell := spSet 0 m loc b
def memPutAll (m : List Host.Cell) : Nat → List Byte → List Host.Cell
  | _, [] => m
  | loc, b :: r => memPutAll (memPut m loc b) (loc + 1) r

/-- The canonical form of memory: addresses strictly rising, and no byte equal to 0, what an unlisted byte reads as. -/
abbrev Memory.wf (m : List Host.Cell) : Bool := spWf 0 m

def memBytes (m : List Host.Cell) (loc : Nat) : Nat → List Byte
  | 0 => []
  | n + 1 => memByte m loc :: memBytes m (loc + 1) n

def poisonedWord (s : State) (loc : Nat) : Bool := !locExists loc || spGet false s.poison (loc / 8)
def setPoison (s : State) (loc : Nat) (on : Bool) : State := { s with poison := spSet false s.poison (loc / 8) on }

/-! ## Compressed blocks (03 R58 to R66) -/

def metaBase (s : State) (p : Nat) : Nat := bitsOf (getPart s p).metaBase.toNat 12 40 * 2 ^ 12

/-- The partition's lowest HBM address (R60). -/
def partBase (s : State) (p : Nat) : Nat := p * (8 / partCount s) * 2 ^ 36

/-- The metadata nibble of the block at pa; none when its side-table word is poisoned, or its in-band bits hold an error that
persists (R59, R60): 16 and more stand for such bits, until a write of the block puts a nibble there (log 112). -/
def nibbleOf (s : State) (cmp pa : Nat) : Option Nat :=
  if cmp % 2 = 1 then (if spGet 0 s.nibbles (pa / 128) < 16 then some (spGet 0 s.nibbles (pa / 128)) else none)
  else
    let o := pa - partBase s (ownerOf s pa)
    let a := metaBase s (ownerOf s pa) + o / 256
    if poisonedWord s a then none
    else
      let b := (memByte s.mem a).toNat
      some (if (o / 128) % 2 = 0 then b % 16 else b / 16)

/-- Writes a nibble; the side table is written as one byte of memory. -/
def setNibble (s : State) (cmp pa n : Nat) : State :=
  if cmp % 2 = 1 then { s with nibbles := spSet 0 s.nibbles (pa / 128) n }
  else
    let o := pa - partBase s (ownerOf s pa)
    let a := metaBase s (ownerOf s pa) + o / 256
    let b := (memByte s.mem a).toNat
    let v := if (o / 128) % 2 = 0 then b / 16 * 16 + n else b % 16 + n * 16
    { s with mem := memPut s.mem a (BitVec.ofNat 8 v) }

/-- Little-endian words of a list of bytes. -/
def wordsOf : List Byte → List Nat
  | a :: b :: c :: d :: r => leNat [a, b, c, d] :: wordsOf r
  | _ => []

def bytesOfWords : List Nat → List Byte
  | [] => []
  | w :: r => leBytes 4 w ++ bytesOfWords r

/-- Number of one bits among the low n bits. -/
def popBits (n x : Nat) : Nat := ((List.range n).filter fun i => bitOf x i).length

/-- The packed form of a block under ZB (R62): the mask, then the nonzero words. -/
def zbPack (ws : List Nat) : List Byte :=
  let mask := (List.range 32).foldl (fun m i => if ws.getD i 0 = 0 then m else m + 2 ^ i) 0
  leBytes 4 mask ++ bytesOfWords (ws.filter (· ≠ 0))

/-- The words a ZB mask and packed words stand for, taking packed words in ascending i. -/
def zbWords (mask : Nat) : List Nat → Nat → List Nat → List Nat
  | _, _, [] => []
  | packed, i, _ :: r =>
    if bitOf mask i then packed.headD 0 :: zbWords mask packed.tail (i + 1) r
    else 0 :: zbWords mask packed (i + 1) r

def zbUnpack (bytes : List Byte) : List Nat :=
  zbWords (leNat (bytes.take 4)) (wordsOf (bytes.drop 4)) 0 (List.range 32)

/-- Delta words of R63. -/
def dpDeltas : Nat → List Nat → List Nat
  | _, [] => []
  | prev, w :: r => Nat.xor w prev :: dpDeltas w r

def dpUndo : Nat → List Nat → List Nat
  | _, [] => []
  | prev, d :: r => Nat.xor d prev :: dpUndo (Nat.xor d prev) r

def dpPlane (ds : List Nat) (j : Nat) : List Nat := ds.map fun d => d / 256 ^ j % 256

def dpPlaneMask (pl : List Nat) : Nat :=
  (List.range 32).foldl (fun m i => if pl.getD i 0 = 0 then m else m + 2 ^ i) 0

/-- The packed form of a block under DP (R63). -/
def dpPack (ws : List Nat) : List Byte :=
  let ds := dpDeltas 0 ws
  let planes := (List.range 4).map (dpPlane ds)
  (planes.flatMap fun pl => leBytes 4 (dpPlaneMask pl)) ++
    (planes.flatMap fun pl => (pl.filter (· ≠ 0)).map (BitVec.ofNat 8))

/-- One plane's bytes from its mask and the packed bytes left; returns the plane and what follows. -/
def dpTake (mask : Nat) : List Byte → List Nat → List Nat × List Byte
  | b, [] => ([], b)
  | b, i :: r =>
    if bitOf mask i then
      let q := dpTake mask b.tail r
      ((b.headD 0).toNat :: q.1, q.2)
    else
      let q := dpTake mask b r
      (0 :: q.1, q.2)

def dpUnpack (bytes : List Byte) : List Nat :=
  let m (j : Nat) := leNat ((bytes.drop (4 * j)).take 4)
  let p0 := dpTake (m 0) (bytes.drop 16) (List.range 32)
  let p1 := dpTake (m 1) p0.2 (List.range 32)
  let p2 := dpTake (m 2) p1.2 (List.range 32)
  let p3 := dpTake (m 3) p2.2 (List.range 32)
  let d (i : Nat) := p0.1.getD i 0 + 256 * p1.1.getD i 0 + 65536 * p2.1.getD i 0 + 16777216 * p3.1.getD i 0
  dpUndo 0 ((List.range 32).map d)

/-- The packed size that stored bytes announce. -/
def packedSize (method : Nat) (bytes : List Byte) : Nat :=
  if method = 1 then 4 + 4 * popBits 32 (leNat (bytes.take 4))
  else 16 + ((List.range 4).map fun j => popBits 32 (leNat ((bytes.drop (4 * j)).take 4))).foldl (· + ·) 0

/-- Counts RAS events, saturating (04 R100). -/
def rasTransient (s : State) (part : Nat) : State :=
  modPart s part fun p => { p with rasTransient := min (p.rasTransient + 1) (2 ^ 32 - 1) }
def rasLasting (s : State) (part : Nat) : State :=
  modPart s part fun p => { p with rasLasting := min (p.rasLasting + 1) (2 ^ 32 - 1) }

/-- Whether a block's nibble is corrupt, or is treated as corrupt (R59). -/
def blockCorrupt (s : State) (cmp line : Nat) : Bool :=
  cmp / 2 != 0 && decide (line * 128 < hbmSize) && match nibbleOf s cmp (line * 128) with
    | none => true
    | some n => decide (4 < n) || (decide (1 ≤ n) && decide (n ≤ 3)
        && decide (32 * n < packedSize (cmp / 2) (memBytes s.mem (line * 128) (32 * n))))

/-- Whether the read step of a partial write meets a poisoned word in the stored sectors of a compressed block (R66). A raw
block keeps the poison of its words one by one (R64). -/
def storedBad (s : State) (cmp line : Nat) : Bool :=
  match nibbleOf s cmp (line * 128) with
  | some n => decide (n ≤ 3) && (List.range (4 * n)).any fun i => poisonedWord s (line * 128 + 8 * i)
  | none => false

/-- The poison bits of the 16 words of a line of memory. -/
def rawBad (s : State) (line : Nat) : Nat :=
  (List.range 16).foldl (fun m i => if poisonedWord s (line * 128 + 8 * i) then m + 2 ^ i else m) 0

/-- The 128 expanded bytes of a block as its controller reads it, and the poison bit of each of its 16 words (R59). -/
def ctlBlock (s : State) (cmp line : Nat) : List Byte × Nat :=
  let base := line * 128
  let raw := memBytes s.mem base 128
  if cmp / 2 = 0 ∨ hbmSize ≤ base then (raw, rawBad s line)
  else match nibbleOf s cmp base with
    | none => (raw, 2 ^ 16 - 1)
    | some n =>
      if n = 0 then (List.replicate 128 0, 0)
      else if n = 4 then (raw, rawBad s line)
      else if 4 < n then (raw, 2 ^ 16 - 1)
      else
        let st := memBytes s.mem base (32 * n)
        if 32 * n < packedSize (cmp / 2) st ∨ rawBad s line % 2 ^ (4 * n) ≠ 0 then (raw, 2 ^ 16 - 1)
        else (bytesOfWords (if cmp / 2 = 1 then zbUnpack st else dpUnpack st), 0)

/-- A byte as the controller reads it, and whether its word is poisoned. -/
def ctlByte (s : State) (cmp loc : Nat) : Byte :=
  if cmp / 2 = 0 then memByte s.mem loc else (ctlBlock s cmp (loc / 128)).1.getD (loc % 128) 0
def ctlBad (s : State) (cmp loc : Nat) : Bool :=
  if cmp / 2 = 0 then poisonedWord s loc else bitOf (ctlBlock s cmp (loc / 128)).2 (loc % 128 / 8)

/-- Stores 128 expanded bytes of a block with its poison bits (R62 to R64, R66): compressed when it can be and no word is
poisoned, else raw; raw also while the block's nibble lies in a poisoned word (R59). -/
def ctlStore (s : State) (cmp line : Nat) (bytes : List Byte) (bad : Nat) : State :=
  let base := line * 128
  let mark (s : State) : State := (List.range 16).foldl (fun s i => setPoison s (base + 8 * i) (bitOf bad i)) s
  if cmp / 2 = 0 ∨ hbmSize ≤ base then mark { s with mem := memPutAll s.mem base bytes }
  else
    let ws := wordsOf bytes
    let pk := if cmp / 2 = 1 then zbPack ws else dpPack ws
    let n := (pk.length + 31) / 32
    let packs := bad = 0 ∧ (nibbleOf s cmp base).isSome
    if packs ∧ ws.all (· == 0) then setNibble s cmp base 0
    else if packs ∧ n ≤ 3 then
      let st := pk ++ List.replicate (32 * n - pk.length) 0
      setNibble (mark { s with mem := memPutAll s.mem base st }) cmp base n
    else setNibble (mark { s with mem := memPutAll s.mem base bytes }) cmp base 4

/-! ## The L2 and its home slices (04 R85, R86) -/

/-- The L2 slices of a partition (R85): two to a cluster. -/
def sliceCount (s : State) : Nat := 192 / partCount s

/-- The slice at which the atomics of a line of a partition execute: by device physical address, bus address, or route and
peer address. -/
def homeSlice (s : State) (part addr : Nat) : Nat :=
  let ln := addr / 128
  part * sliceCount s + Nat.xor (Nat.xor ln (ln / 2 ^ 13)) (ln / 2 ^ 26) % sliceCount s

/-- The route by which a partition names a device: its lowest (log 113). -/
def routeTo (s : State) (part dev : Nat) : Nat :=
  ((List.range 16).find? fun r => routeOk s part r && routeDevice s part r == dev).getD (dev % 16)

/-- The address that the home hash of a partition takes for a location (R85): device physical, bus, or PA[51:0] of a peer's
leaf. -/
def homeAddr (s : State) (part loc : Nat) : Nat :=
  if loc < 2 ^ 52 then loc
  else if loc < 2 ^ 66 then loc - 2 ^ 52
  else routeTo s part ((loc - 2 ^ 66) / 2 ^ 48) * 2 ^ 48 + loc % 2 ^ 48

/-- The lines that a slice of 1.5 MiB holds (R74). -/
def sliceLines : Nat := 12288

/-- Whether lines of a location stand in an L2 (03 R49): those of host memory and of peers, which no partition owns, in the L2
of the partition that took them first, until it writes them back (log 5). -/
def offHbm (loc : Nat) : Bool := decide (2 ^ 52 ≤ loc)

/-- A line in an L2: one of HBM in that of the partition that owns it, one of the host or of a peer in whichever holds it. -/
def l2Find (s : State) (line : Nat) : Option L2Line :=
  if line * 128 < hbmSize then spFind (getPart s (ownerOf s (line * 128))).l2 line
  else if offHbm (line * 128) then
    (List.range 8).findSome? fun p => (spFind (getPart s p).l2 line).map fun ln => { ln with cmp := p }
  else none

/-- The partition in whose L2 a line stands. -/
def lineHolder (s : State) (line : Nat) (ln : L2Line) : Nat :=
  if line * 128 < hbmSize then ownerOf s (line * 128) else ln.cmp

def l2Set (s : State) (line : Nat) (ln : L2Line) : State :=
  modPart s (lineHolder s line ln) fun p => { p with l2 := spPut p.l2 line ln }

/-- No L2 holds a line any longer. -/
def l2Drop (s : State) (line : Nat) : State :=
  if line * 128 < hbmSize then modPart s (ownerOf s (line * 128)) fun p => { p with l2 := spDel p.l2 line }
  else (List.range 8).foldl (fun s k => modPart s k fun p => { p with l2 := spDel p.l2 line }) s

/-- Whether the L2 holds the sector of a location. -/
def l2Has (s : State) (loc : Nat) : Bool :=
  match l2Find s (loc / 128) with
  | some ln => bitOf ln.valid (loc % 128 / 32)
  | none => false

/-- A byte at the L2: a valid sector's, else the controller's. -/
def l2Byte (s : State) (cmp loc : Nat) : Byte :=
  match l2Find s (loc / 128) with
  | some ln => if bitOf ln.valid (loc % 128 / 32) then (spFind ln.bytes (loc % 128)).getD 0 else ctlByte s cmp loc
  | none => ctlByte s cmp loc

/-- Whether the 64-bit word of a location reads as poisoned at the L2. -/
def l2Bad (s : State) (cmp loc : Nat) : Bool :=
  match l2Find s (loc / 128) with
  | some ln => if bitOf ln.valid (loc % 128 / 32) then bitOf ln.bad (loc % 128 / 8) else ctlBad s cmp loc
  | none => ctlBad s cmp loc

def l2Bytes (s : State) (cmp loc : Nat) : Nat → List Byte
  | 0 => []
  | n + 1 => l2Byte s cmp loc :: l2Bytes s cmp (loc + 1) n

def l2AnyBad (s : State) (cmp loc n : Nat) : Bool := (List.range n).any fun i => l2Bad s cmp (loc + i)

/-- The 64-bit word of a location div 8 at the L2: its bytes, and whether it is poisoned. -/
def l2Word (s : State) (cmp w : Nat) : List Byte × Bool := (l2Bytes s cmp (8 * w) 8, l2Bad s cmp (8 * w))

/-- One bit of a number, set or cleared. -/
def putBit (x n : Nat) (b : Bool) : Nat :=
  if b then (if bitOf x n then x else x + 2 ^ n) else (if bitOf x n then x - 2 ^ n else x)

/-- A line with a sector of it valid, as the controller holds it; a line keeps the CMP under which it was filled (R57). -/
def l2Filled (s : State) (line sec : Nat) (ln : L2Line) : L2Line :=
  if bitOf ln.valid sec then ln
  else
    { ln with
      bytes := (List.range 32).foldl (fun m i => spPut m (32 * sec + i) (ctlByte s ln.cmp (128 * line + 32 * sec + i))) ln.bytes
      valid := putBit ln.valid sec true
      bad := (List.range 4).foldl (fun b j => putBit b (4 * sec + j) (ctlBad s ln.cmp (128 * line + 32 * sec + 8 * j))) ln.bad }

/-- The line of a location with its sector valid, filled under `cmp` when no L2 holds any of it. For a line of the host or of
a peer `cmp` is the partition that accesses it. -/
def l2LineAt (s : State) (cmp loc : Nat) : L2Line :=
  l2Filled s (loc / 128) (loc % 128 / 32)
    ((l2Find s (loc / 128)).getD { cmp := if hbmSize ≤ loc / 128 * 128 then cmp % 8 else cmp })

/-- The L2 takes the sector of a location, clean, as a read allocates it. -/
def l2Fill (s : State) (cmp loc : Nat) : State :=
  if !locExists loc || l2Has s loc then s else l2Set s (loc / 128) (l2LineAt s cmp loc)

/-- A read of a block by its controller counts one lasting event when the block is corrupt (R59). -/
def countCorrupt (s : State) (cmp line : Nat) : State :=
  if blockCorrupt s cmp line then rasLasting s (ownerOf s (128 * line)) else s

/-- Writes a whole 64-bit word with its poison at the L2, allocating its sector. Where the device has no memory no line is
allocated, and the word stays poisoned whatever is written (log 20). -/
def l2SetWord (s : State) (cmp w : Nat) (v : List Byte × Bool) : State :=
  let loc := 8 * w
  if !locExists loc then { s with mem := memPutAll s.mem loc v.1 }
  else
    let ln := l2LineAt s cmp loc
    l2Set (if l2Has s loc then s else countCorrupt s cmp (loc / 128)) (loc / 128)
      { ln with
        bytes := v.1.zipIdx.foldl (fun m e => spPut m (loc % 128 + e.2) e.1) ln.bytes
        dirty := putBit ln.dirty (loc % 128 / 32) true
        bad := putBit ln.bad (loc % 128 / 8) v.2 }

/-- Marks a word as poisoned, or not, in the L2's copy or in memory; a clean sector stays clean. -/
def l2Mark (s : State) (w : Nat) (on : Bool) : State :=
  match l2Find s (w / 16) with
  | some ln =>
    if bitOf ln.valid (w % 16 / 4) then l2Set s (w / 16) { ln with bad := putBit ln.bad (w % 16) on }
    else setPoison s (8 * w) on
  | none => setPoison s (8 * w) on

/-- The bytes of a 64-bit word, by its location div 8. -/
def wordLocs (w : Nat) : List Nat := (List.range 8).map fun i => 8 * w + i

/-- The list of locations and bytes of n bytes from a location on. -/
def cellsAt (loc : Nat) : List Byte → List (Nat × Byte)
  | [] => []
  | b :: r => (loc, b) :: cellsAt (loc + 1) r

/-- A word with bytes written over it by their place; all eight clear its poison, fewer leave it (04 R98). -/
def patchWord (v : List Byte × Bool) (cells : List (Nat × Byte)) (bad : Bool) : List Byte × Bool :=
  (cells.foldl (fun l e => l.set e.1 e.2) v.1, bad || (v.2 && decide (cells.length < 8)))

/-- The words that written bytes touch, with their bytes by place. -/
def cellWords (bs : List (Nat × Byte)) : List (Nat × List (Nat × Byte)) :=
  ((bs.map fun e => e.1 / 8).eraseDups).map fun w => (w, (bs.filter fun e => e.1 / 8 == w).map fun e => (e.1 % 8, e.2))

/-- One write of bytes at the L2 (the machine's own tables); `bad` says that they are poisoned. -/
def l2Write (s : State) (cmp : Nat) (bs : List (Nat × Byte)) (bad : Bool := false) : State :=
  (cellWords bs).foldl (fun s e => l2SetWord s cmp e.1 (patchWord (l2Word s cmp e.1) e.2 bad)) s

/-- The bytes of a line with the sectors that it writes over what the controller reads, and their poison. -/
def l2Merged (s : State) (line : Nat) (ln : L2Line) : List Byte × Nat :=
  let blk := ctlBlock s ln.cmp line
  let own (i : Nat) : Bool := ln.valid == 15 || bitOf ln.dirty i
  ((List.range 128).map fun i => if own (i / 32) then (spFind ln.bytes i).getD 0 else blk.1.getD i 0,
   (List.range 16).foldl (fun m i => if bitOf (if own (i / 4) then ln.bad else blk.2) i then m + 2 ^ i else m) 0)

/-- Writes a line's dirty sectors to memory, or over the link (04 R74), and drops the line (R64, R86), under the interpretation
with which it was filled: R57 leaves open whether a stale line goes by that or by the current leaf's (log 5). A line whose four
sectors are valid is a full-block write; otherwise the controller reads, expands and merges (the tamp steps of R64), and a read error
poisons every word (R66). -/
def l2WriteBack (s : State) (line : Nat) : State :=
  match l2Find s line with
  | none => s
  | some ln =>
    let own := ownerOf s (line * 128)
    let s1 := l2Drop s line
    if ln.dirty = 0 then s1
    else if ln.cmp / 2 = 0 ∨ hbmSize ≤ line * 128 then
      (List.range 16).foldl (fun s k =>
        if bitOf ln.dirty (k / 4) then
          setPoison { s with mem := memPutAll s.mem (line * 128 + 8 * k)
                                ((List.range 8).map fun i => (spFind ln.bytes (8 * k + i)).getD 0) }
            (line * 128 + 8 * k) (bitOf ln.bad k)
        else s) s1
    else
      let v := l2Merged s1 line ln
      if ln.valid = 15 then ctlStore s1 ln.cmp line v.1 v.2
      else if blockCorrupt s1 ln.cmp line then ctlStore (rasLasting s1 own) ln.cmp line v.1 v.2
      else if storedBad s1 ln.cmp line then ctlStore (rasLasting s1 own) ln.cmp line v.1 (2 ^ 16 - 1)
      else ctlStore s1 ln.cmp line v.1 v.2

/-- Writes back and drops every line of a partition's L2 (R55 FLUSH, R87). -/
def l2Flush (s : State) (part : Nat) : State :=
  modPart (((getPart s part).l2.map (·.1)).foldl l2WriteBack s) part fun p => { p with l2 := [] }

/-- A write straight to the controller, for KIND 3 (03 R49): a partial write of the block. -/
def ctlWrite (s : State) (cmp : Nat) (bs : List (Nat × Byte)) (bad : Bool := false) : State :=
  (cellWords bs).foldl (fun s e =>
    let line := e.1 / 16
    let blk := ctlBlock s cmp line
    let v := patchWord ((List.range 8).map fun i => blk.1.getD (8 * (e.1 % 16) + i) 0, bitOf blk.2 (e.1 % 16)) e.2 bad
    if cmp / 2 = 0 then setPoison { s with mem := memPutAll s.mem (8 * e.1) v.1 } (8 * e.1) v.2
    else ctlStore s cmp line (v.1.zipIdx.foldl (fun l x => l.set (8 * (e.1 % 16) + x.2) x.1) blk.1)
      (putBit blk.2 (e.1 % 16) v.2)) s

/-- What a read of n bytes at the L2 leaves behind: the sectors it has asked for, and one lasting event for each corrupt
block that the controller reads for it (03 R59; 04 R86). -/
def l2Asked (s : State) (cmp loc n : Nat) : State :=
  let secs := (List.range ((loc % 32 + n + 31) / 32)).map fun i => loc / 32 + i
  let miss := if n = 0 || !locExists loc then [] else secs.filter fun k => !l2Has s (32 * k)
  let s1 := ((miss.map fun k => k / 4).eraseDups).foldl (fun s l => countCorrupt s cmp l) s
  if miss = [] then s1
  else modPart s1 (if loc < hbmSize then ownerOf s loc else cmp % 8) fun p =>
    { p with fills := p.fills ++ miss.map fun k => (k / 4, k % 4, cmp) }

/-- The L2 takes the sectors that reads have asked for. -/
def takeFills (s : State) (part : Nat) : State :=
  let s1 := modPart s part fun p => { p with fills := [] }
  (getPart s part).fills.foldl (fun s e => l2Fill s e.2.2 (128 * e.1 + 32 * e.2.1)) s1

/-! ## Device physical accesses of the machine itself -/

/-- Reads n bytes of device physical memory through the L2, little-endian. -/
def physRead (s : State) (pa n : Nat) : Nat := leNat (l2Bytes s 0 pa n)

def physBad (s : State) (pa n : Nat) : Bool := l2AnyBad s 0 pa n

def physWrite (s : State) (pa n v : Nat) : State := l2Write s 0 (cellsAt pa (leBytes n v))

/-! ## Context records (10 R226, R227) -/

def frameBase (s : State) (part : Nat) : Nat := bitsOf (getPart s part).frameBase.toNat 16 36 * 2 ^ 16
def frameSize (s : State) (part : Nat) : Nat := (getPart s part).frameSize.toNat % 2 ^ 24 * 2 ^ 16

/-- The device physical address of a context record. -/
def ctxAddr (s : State) (part ctx : Nat) : Nat := frameBase s part + 256 * ctx

/-- Bits [lo + w − 1 : lo] of a context record, within one 8-byte word. -/
def ctxBits (s : State) (part ctx lo w : Nat) : Nat :=
  bitsOf (physRead s (ctxAddr s part ctx + lo / 64 * 8) 8) (lo % 64) w

def setCtxBits (s : State) (part ctx lo w v : Nat) : State :=
  let a := ctxAddr s part ctx + lo / 64 * 8
  let old := physRead s a 8
  let cur := bitsOf old (lo % 64) w
  physWrite s a 8 (old - cur * 2 ^ (lo % 64) + v % 2 ^ w * 2 ^ (lo % 64))

def ctxRoot (s : State) (part ctx : Nat) : Nat := ctxBits s part ctx 0 64 / 1024 * 1024
def ctxPrio (s : State) (part ctx : Nat) : Nat := ctxBits s part ctx 64 3
def ctxSup (s : State) (part ctx : Nat) : Bool := ctxBits s part ctx 67 1 == 1
def ctxValid (s : State) (part ctx : Nat) : Bool := ctxBits s part ctx 68 1 == 1
def ctxState (s : State) (part ctx : Nat) : Nat := ctxBits s part ctx 69 3
def ctxSrseed (s : State) (part ctx : Nat) : Nat := ctxBits s part ctx 192 64
/-- A table base of a context record with its low 12 bits clear (02 R26). -/
def ctxBase (s : State) (part ctx lo : Nat) : Nat := ctxBits s part ctx lo 64 / 4096 * 4096

/-- The number of context records in the current frame area. -/
def ctxCount (s : State) (part : Nat) : Nat :=
  let n := frameSize s part / 256
  if 65536 < n then 65536 else n

/-- The context records whose bytes memory or an L2 lists (an unlisted record is all zero). The frame area may lie in stacks of
several partitions, each with its own L2. -/
def listedContexts (s : State) (part : Nat) : List Nat :=
  let fb := frameBase s part
  let top := fb + 256 * ctxCount s part
  let fromMem := ((s.mem.filter fun e => decide (fb ≤ e.1) && decide (e.1 < top)).map fun e => (e.1 - fb) / 256)
  let fromL2 := s.parts.flatMap fun p =>
    (p.2.l2.filter fun e => decide (fb / 128 ≤ e.1) && decide (e.1 * 128 < top)).map fun e => (e.1 * 128 - fb) / 256
  (fromMem ++ fromL2).eraseDups

/-- The records with VALID = 1. -/
def validContexts (s : State) (part : Nat) : List Nat := (listedContexts s part).filter fun c => ctxValid s part c

end Sys2Proof.Machine
end

