-- ==== Sys2Proof/Machine/Phase.lean ====
section
/-!
DEFINITION. Phase consistency: agents and scopes, the stores to a word in coherence order, what an agent's reads may
return, release and acquire edges, and the L1 of a core (04 R77, R78, R83, R84; 05 R101 to R126).

Every store is a message on its 64-bit word. The messages that have reached the L2 stand in State.hist in coherence
order; those that a core still holds dirty stand in its `pend` and come after them. A read sees the stores that it must
see (05 R121: those that happen before it, and those that its agent's earlier accesses to the bytes have set) and, of the
others, those that free choices name; each byte is that of the last store seen (log 4).
-/
namespace Sys2Proof.Machine

/-! ## Agents and scopes (R101 to R103) -/

/-- What performs memory accesses (R101). Accesses made on a thread's behalf are the thread's. -/
inductive Agent where
  | thread (gid lane : Nat)
  | job (j : Nat)
  | raster (n : Nat)
  | barista (cluster : Nat)
  | mc
  | link (adapter : Nat)
  deriving DecidableEq, Repr

def Agent.key : Agent → Nat
  | .thread gid lane => 8 * (64 * gid + lane)
  | .job j => 8 * j + 1
  | .raster n => 8 * n + 2
  | .barista k => 8 * k + 3
  | .mc => 4
  | .link a => 8 * a + 5

/-- The threads of some lanes of a group. -/
def threadsOf (gid : Nat) (m : Mask) : List Agent := (lanesOf m).map (Agent.thread gid)

/-- The team of a group. -/
def teamOfGroup (s : State) (gid : Nat) : Option Team := (spFind s.groups gid).bind fun g => spFind s.teams g.team

/-- The core whose L1 an agent's accesses go through: a thread's. -/
def Agent.core (s : State) : Agent → Option Nat
  | .thread gid _ => (teamOfGroup s gid).bind (·.core)
  | _ => none

/-- Where an agent stands (R102, R103). A rasteriser is one of an eighth of the device. -/
def Agent.place (s : State) : Agent → Place
  | .thread gid _ => match spFind s.groups gid with
    | none => {}
    | some g => match spFind s.teams g.team with
      | none => { gid := some gid, team := some g.team }
      | some t =>
        { gid := some gid, team := some g.team, core := t.core, cluster := t.core.map clusterOf, part := some t.part }
  | .job j => match spFind s.jobs j with
    | some x => { cluster := some x.cluster, part := some x.part }
    | none => {}
  | .raster n => { part := some (n / (8 / partCount s)) }
  | .barista k => { cluster := some k, part := some (partOfCluster s k) }
  | .mc => { mc := true }
  | .link _ => { host := true }

/-- Whether two instances are one. -/
def sameInst (a b : Option Nat) : Bool := a.isSome && a == b

/-- Whether the agent at `q` belongs to the instance of a scope that holds the agent at `p` (R102, R103; 18 R427): 0 .grp
to 6 .sys. The MC belongs to the device instance of every partition, and the host adapters to every system instance, since
each such instance holds this device. -/
def Place.holds (s : State) (p : Place) (scope : Nat) (q : Place) : Bool :=
  let dev := p.mc || q.mc || sameInst p.part q.part
  let fab := dev || match p.part, q.part with
    | some a, some b => (fabricDomain s a).contains b
    | _, _ => false
  match scope with
  | 0 => sameInst p.gid q.gid
  | 1 => sameInst p.team q.team
  | 2 => sameInst p.core q.core
  | 3 => sameInst p.cluster q.cluster
  | 4 => !p.host && !q.host && dev
  | 5 => !p.host && !q.host && fab
  | _ => p.host || q.host || fab

/-! ## What agents know (R114, R115, R118) -/

/-- Adds numbers to a list that keeps each once. -/
def addIds (a b : List Nat) : List Nat := a ++ (b.filter fun x => !a.contains x).eraseDups

/-- Adds a release edge to a list; those of one place and scope stand together. -/
def addRel (r : RelInfo) : List RelInfo → List RelInfo
  | [] => [r]
  | x :: q => if x.place = r.place ∧ x.scope = r.scope then { x with ids := addIds x.ids r.ids } :: q else x :: addRel r q

def addRels (a b : List RelInfo) : List RelInfo := b.foldl (fun l r => addRel r l) a

/-- What an agent knows; a thread knows what its team's start has acquired. What it knew at an earlier issue stands as it
was. -/
def getKnow (s : State) (ag : Agent) : Know :=
  let k := spGet {} s.know ag.key
  match ag with
  | .thread gid _ => match teamOfGroup s gid with
    | some t => if k.atIssue.isSome then k else { k with hb := addIds t.known k.hb }
    | none => k
  | _ => k

/-- What an agent knows as an access of it issues that is performed later: the floor of its reads (16 R389, R394). -/
def knowAtIssue (s : State) (ag : Agent) : Know := { getKnow s ag with atIssue := some s.stores }

def modKnow (s : State) (ag : Agent) (f : Know → Know) : State :=
  { s with know := spSet {} s.know ag.key (f (spGet {} s.know ag.key)) }

/-- The stores that a release edge of an agent orders before itself (R114). -/
def Know.released (k : Know) : List Nat := addIds k.hb k.seen

/-- The stores that the release edges of some agents order together. -/
def releasedBy (s : State) (ags : List Agent) : List Nat := ags.foldl (fun l a => addIds l (getKnow s a).released) []

def releaseOf (s : State) (ag : Agent) (scope : Nat) : RelInfo := ⟨ag.place s, scope, (getKnow s ag).released⟩

/-- The release edges of the threads of one path, which stand in one place. -/
def releaseOfAll (s : State) (ags : List Agent) (scope : Nat) : List RelInfo :=
  ags.foldl (fun l a => addRel (releaseOf s a scope) l) []

/-- Whether an acquire edge at a scope by the agent at `q` may observe a release edge (R118). -/
def RelInfo.observed (s : State) (r : RelInfo) (q : Place) (scope : Nat) : Bool :=
  r.place.holds s r.scope q && q.holds s scope r.place

/-- Published stores that have been there so long that acquiring agents must see them (R122). -/
def overdue (s : State) : List Nat :=
  s.hist.flatMap fun e => (e.2.msgs.filter fun m => decide (m.clk + Config.readableIn m.id ≤ s.clk)).map (·.id)

/-- Those of some stores that have been there so long. -/
def overdueOf (s : State) (ms : List Msg) : List Nat :=
  (ms.filter fun m => decide (m.clk + Config.readableIn m.id ≤ s.clk)).map (·.id)

/-- The stores of an agent's own core and team that no L2 has, and that it must see for as long (R122). -/
def overdueNear (s : State) (ag : Agent) : List Nat :=
  match ag with
  | .thread gid _ => match teamOfGroup s gid with
    | some t =>
      (match t.core with
        | some c => (getCore s c).pend.flatMap fun e => overdueOf s e.2
        | none => []) ++ t.shist.flatMap fun e => overdueOf s e.2.msgs
    | none => []
  | _ => []

/-- Stores come to happen before an agent's later accesses. -/
def learn (s : State) (ag : Agent) (ids : List Nat) : State :=
  if ids.all (getKnow s ag).hb.contains then s else modKnow s ag fun k => { k with hb := addIds k.hb ids }

/-- An acquire edge of an agent that meets some release edges (R115, R118). -/
def acquire (s : State) (ag : Agent) (scope : Nat) (rels : List RelInfo) : State :=
  let q := ag.place s
  learn s ag (((rels.filter fun r => r.observed s q scope).flatMap (·.ids)) ++ overdue s ++ overdueNear s ag)

def acquireAll (s : State) (ags : List Agent) (scope : Nat) (rels : List RelInfo) : State :=
  ags.foldl (fun s a => acquire s a scope rels) s

/-! ## Words and the stores to them (R105, R120) -/

/-- The bytes of the word that a store writes, as a mask. -/
def Msg.mask (m : Msg) : Nat := m.bytes.foldl (fun x e => putBit x e.1 true) 0

/-- A word after a store. -/
def Msg.onto (v : List Byte × Bool) (m : Msg) : List Byte × Bool := patchWord v m.bytes m.bad

def Hist.after (h : Hist) (ms : List Msg) : List Byte × Bool := ms.foldl Msg.onto (h.base, h.bad)

/-- The history of a word; one that no store has a place in yet starts from the L2's. -/
def histOf (s : State) (cmp w : Nat) : Hist :=
  (spFind s.hist w).getD { base := (l2Word s cmp w).1, bad := (l2Word s cmp w).2, msgs := [] }

/-- A change of a word by another way than a store of an agent (the controller, a frame, an error), as a store of none. -/
def foreignMsg (s : State) (v : List Byte × Bool) : Msg :=
  { id := s.stores, who := 7, bytes := v.1.zipIdx.map fun e => (e.2, e.1), bad := v.2, clk := s.clk }

/-- A store takes its place in coherence order at the L2, as the last. -/
def publish (s : State) (w : Nat) (m : Msg) : State :=
  let h := histOf s m.cmp w
  let v := l2Word s m.cmp w
  let told := decide (h.after h.msgs = v)
  let ms := if told then h.msgs else h.msgs ++ [foreignMsg s v]
  let s1 := l2SetWord s m.cmp w (m.onto v)
  { s1 with hist := spPut s1.hist w { h with msgs := ms ++ [m] }, stores := if told then s1.stores else s1.stores + 1 }

/-- The 64-bit word of a location div 8 at its controller. -/
def ctlWord (s : State) (cmp w : Nat) : List Byte × Bool := ((wordLocs w).map (ctlByte s cmp), ctlBad s cmp (8 * w))

/-- The history of a word that accesses of KIND 3 reach, when what it leaves is what the controller holds; else the word as the
controller holds it. -/
def ctlHist (s : State) (cmp w : Nat) : Hist :=
  let v := ctlWord s cmp w
  match spFind s.hist w with
  | some h => if h.after h.msgs = v then h else { h with msgs := h.msgs ++ [foreignMsg s v] }
  | none => { base := v.1, bad := v.2, msgs := [] }

/-- A store of KIND 3 takes its place in coherence order at the controller, as the last (03 R49). -/
def ctlPublish (s : State) (w : Nat) (m : Msg) : State :=
  let h := ctlHist s m.cmp w
  let s1 := ctlWrite s m.cmp (m.bytes.map fun e => (8 * w + e.1, e.2)) m.bad
  { s1 with hist := spPut s1.hist w { h with msgs := h.msgs ++ [m] }, stores := s1.stores + 1 }

/-- The stores to a word that an agent's core holds dirty. -/
def pendOf (s : State) (ag : Agent) (w : Nat) : List Msg :=
  match ag.core s with
  | some c => spGet [] (getCore s c).pend w
  | none => []

/-- The newest byte of a location that a core has: its own dirty one, else the L2's. -/
def coreByte (s : State) (core cmp loc : Nat) : Byte :=
  (((spGet [] (getCore s core).pend (loc / 8)).foldl Msg.onto (l2Word s cmp (loc / 8))).1).getD (loc % 8) 0

/-! ## The L1 (04 R77, R78, R83) -/

/-- Units of 64 KiB of core SRAM that are not scratchpad. -/
def l1Units (s : State) (core : Nat) : List Nat :=
  let taken := (s.teams.filter fun e => e.2.core == some core).flatMap fun e => e.2.units
  (List.range 16).filter fun u => !taken.contains u

def l1Has (c : Core) (sec : Nat) : Bool :=
  match spFind c.l1 (sec / 4) with
  | some l => bitOf l.valid (sec % 4)
  | none => false

/-- The line of an L1, or the new one that it allocates in some unit. -/
def l1LineAt (s : State) (core line : Nat) : L1Line :=
  let us := l1Units s core
  (spFind (getCore s core).l1 line).getD { unit := us.getD (Config.l1Unit [core, line, s.clk] % us.length) 0, valid := 0 }

/-- The L1 takes a sector, by location div 32; its line goes to some unit. -/
def l1Take (s : State) (core sec : Nat) : State :=
  let c := getCore s core
  if l1Has c sec then s
  else
    let l := l1LineAt s core (sec / 4)
    setCore s core { c with l1 := spPut c.l1 (sec / 4) { l with valid := putBit l.valid (sec % 4) true } }

/-- The sectors that n bytes from a location on touch, by location div 32. -/
def sectorsOf (loc n : Nat) : List Nat := if n = 0 then [] else (List.range ((loc % 32 + n + 31) / 32)).map (· + loc / 32)

/-- What a read leaves in the caches: an L1 takes the sectors that it lacks from the L2. -/
def askCaches (s : State) (ag : Agent) (cmp loc n : Nat) : State :=
  match ag.core s with
  | none => l2Asked s cmp loc n
  | some c => ((sectorsOf loc n).filter fun k => !l1Has (getCore s c) k).foldl
      (fun s k => l1Take (l2Asked s cmp (32 * k) 32) c k) s

/-- Writes the stores that a core holds dirty, in the lines that `sel` names, to the L2. -/
def coreWriteBack (s : State) (core : Nat) (sel : Nat → Bool) : State :=
  let c := getCore s core
  let mine := c.pend.filter fun e => sel (e.1 / 16)
  if mine = [] then s
  else mine.foldl (fun s e => e.2.foldl (fun s m => publish s e.1 m) s)
    (setCore s core { c with pend := c.pend.filter fun e => !sel (e.1 / 16) })

/-- Writes back and drops the lines of a core's L1 that `sel` names. -/
def coreDrop (s : State) (core : Nat) (sel : Nat → Bool) : State :=
  modCore (coreWriteBack s core sel) core fun c => { c with l1 := c.l1.filter fun e => !sel e.1 }

/-! ## Reads (R110, R111, R121) -/

/-- Whether an agent's read of some bytes of a word must see a store. -/
def Know.mustSee (k : Know) (mask : Nat) (m : Msg) : Bool :=
  k.hb.contains m.id || k.floor.any fun f => f.id == m.id && Nat.land f.mask mask != 0

/-- The stores that a read sees: those that it must, and of the others those that free choices name. -/
def pickSeen (must : Msg → Bool) : State → List Msg → List Msg × State
  | s, [] => ([], s)
  | s, m :: r =>
    if must m then
      let q := pickSeen must s r
      (m :: q.1, q.2)
    else
      let c := choose s
      let q := pickSeen must c.2 r
      (if c.1 then m :: q.1 else q.1, q.2)

/-- Of stores from the last to the first, those that give the bytes of a mask, with the bytes that each gives. -/
def returnedBy : List Msg → Nat → List (Msg × Nat)
  | [], _ => []
  | m :: r, left =>
    let k := Nat.land m.mask left
    if k = 0 then returnedBy r left else (m, k) :: returnedBy r (left - k)

/-- What an agent's reads have returned (R111, R114): its later accesses do not go behind it, its releases carry it, and
a later FENCE.acq observes its release edges. -/
def noteRead (s : State) (ag : Agent) (ms : List (Msg × Nat)) : State :=
  let k := getKnow s ag
  let new := ms.filter fun e => !(k.hb.contains e.1.id) && !(k.floor.any fun f => f.id == e.1.id && Nat.land f.mask e.2 == e.2)
  let rels := addRels k.met (ms.flatMap fun e => e.1.rels)
  if new = [] ∧ rels = k.met then s
  else modKnow s ag fun k =>
    { k with
      floor := k.floor ++ new.map fun e => ⟨e.1.id, e.2, false⟩
      seen := addIds k.seen (new.flatMap fun e => e.1.id :: e.1.view)
      met := rels }

/-- What a read gives: its bytes, whether a word of it is poisoned, and the release edges of the stores it returns. -/
structure Got where
  bytes : List Byte
  bad   : Bool
  rels  : List RelInfo := []
  deriving DecidableEq, Repr

/-- The stores to a word, of its history and of those that a core holds dirty, that a read may return: where it is performed
after later stores of its own agents to its bytes, those before them (R110), and what it must see. -/
def mayReturn (must own : Msg → Bool) (old pend : List Msg) : List Msg × List Msg :=
  let cut (ms : List Msg) : List Msg := (ms.takeWhile fun m => !own m) ++ (ms.dropWhile fun m => !own m).filter must
  (cut old, if old.any own then pend.filter must else cut pend)

/-- The stores that a read of bytes of a word sees, of those of its history and of those that a core holds dirty. -/
def seenBy (s : State) (ags : List Agent) (h : Option Hist) (pend : List Msg) (mask : Nat) : (List Msg × List Msg) × State :=
  let must (m : Msg) : Bool := ags.any fun a => (getKnow s a).mustSee mask m
  let own (m : Msg) : Bool := Nat.land m.mask mask != 0 && !must m && ags.any fun a => (getKnow s a).later.contains m.id
  let may := mayReturn must own ((h.map (·.msgs)).getD []) pend
  let a := pickSeen must s may.1
  let b := pickSeen must a.2 may.2
  ((a.1, b.1), b.2)

/-- One single-copy-atomic read of n bytes, from byte `at_` on, of a word with a history, stores that a core holds dirty and a
newest value (R105, R121). It is made for all of `ags` together. -/
def readWord (s : State) (ags : List Agent) (h : Option Hist) (pend : List Msg) (now : List Byte × Bool) (at_ n : Nat) :
    Got × State :=
  let mask := (2 ^ n - 1) * 2 ^ at_
  let q := seenBy s ags h pend mask
  let v := q.1.2.foldl Msg.onto (match h with
    | some x => if q.1.1.length = x.msgs.length then now else x.after q.1.1
    | none => now)
  let ret := returnedBy (q.1.2.reverse ++ q.1.1.reverse) mask
  (⟨(v.1.drop at_).take n, v.2, ret.flatMap fun e => e.1.rels⟩, ags.foldl (fun s a => noteRead s a ret) q.2)

/-- The stores that an agent has made since an earlier time. -/
def madeSince (now : Know) : Option Nat → List Nat
  | none => []
  | some n => (now.floor.filter fun f => f.mine && decide (n ≤ f.id)).map (·.id)

/-- Reads of an agent under the floor of an earlier time (16 R389): they are made with what it knew then, and it learns from
them. They return none of the stores that it has made to their bytes since, and none behind those (R110). -/
def readUnder {α : Type} (s : State) (ag : Agent) (k : Know) (f : State → α × State) : α × State :=
  let now := spGet {} s.know ag.key
  let q := f { s with know := spSet {} s.know ag.key { k with later := madeSince now k.atIssue } }
  let new := spGet {} q.2.know ag.key
  let all : Know :=
    { now with
      floor := now.floor ++ new.floor.drop k.floor.length, seen := addIds now.seen new.seen, met := addRels now.met new.met }
  (q.1, { q.2 with know := spSet {} q.2.know ag.key all })

/-- The stores to a word that the core of some threads holds dirty. -/
def pendOfAll (s : State) (ags : List Agent) (w : Nat) : List Msg :=
  match ags with
  | a :: _ => pendOf s a w
  | [] => []

/-- Whether a read that sees some published stores to a word takes it from a core's L1 copy, which an error has poisoned (04
R96): one that sees a store that the copy does not have comes from the L2. -/
def l1Bad (s : State) (core w : Nat) (seen : List Msg) : Bool :=
  match (spFind (getCore s core).l1 (w / 16)).bind fun l => spFind l.bad (w % 16) with
  | some ids => seen.all fun m => ids.contains m.id
  | none => false

/-- A single-copy-atomic read of bytes of one word of memory. -/
def readUnit (s : State) (ags : List Agent) (cmp loc n : Nat) : Got × State :=
  let h := spFind s.hist (loc / 8)
  let pend := pendOfAll s ags (loc / 8)
  let q := readWord s ags h pend (l2Word s cmp (loc / 8)) (loc % 8) n
  let err := match (ags.head?).bind (Agent.core s) with
    | some c => l1Bad s c (loc / 8) (seenBy s ags h pend ((2 ^ n - 1) * 2 ^ (loc % 8))).1.1
    | none => false
  ({ q.1 with bad := q.1.bad || err }, q.2)

/-- A read of KIND 3 of bytes of one word: the controller's, which the last stores to them have left (03 R49). -/
def ctlReadUnit (s : State) (ags : List Agent) (cmp loc n : Nat) : Got × State :=
  let v := ctlWord s cmp (loc / 8)
  let ret := (returnedBy (ctlHist s cmp (loc / 8)).msgs.reverse ((2 ^ n - 1) * 2 ^ (loc % 8))).filter fun e => e.1.who != 7
  (⟨(v.1.drop (loc % 8)).take n, v.2, ret.flatMap fun e => e.1.rels⟩, ags.foldl (fun s a => noteRead s a ret) s)

/-- Cuts n bytes from a location on at the 64-bit words. -/
def wordCuts : Nat → Nat → Nat → List (Nat × Nat)
  | 0, _, _ => []
  | k + 1, loc, n =>
    if n = 0 then []
    else
      let m := min n (8 - loc % 8)
      (loc, m) :: wordCuts k (loc + m) (n - m)

def unitsOf (loc n : Nat) : List (Nat × Nat) := wordCuts (n / 8 + 2) loc n

def Got.and (a b : Got) : Got := ⟨a.bytes ++ b.bytes, a.bad || b.bad, a.rels ++ b.rels⟩

/-- Reads units one after another. -/
def readUnits (one : State → Nat → Nat → Got × State) : State → List (Nat × Nat) → Got × State
  | s, [] => (⟨[], false, []⟩, s)
  | s, u :: r =>
    let a := one s u.1 u.2
    let b := readUnits one a.2 r
    (a.1.and b.1, b.2)

/-- n bytes as some agents read them together; a KIND 3 access goes to the controller (03 R49). -/
def readBytes (s : State) (ags : List Agent) (cmp kind loc n : Nat) : Got × State :=
  if kind = 3 then readUnits (fun s a k => ctlReadUnit s ags cmp a k) s (unitsOf loc n)
  else
    let r := readUnits (fun s a k => readUnit s ags cmp a k) s (unitsOf loc n)
    (r.1, ags.head?.elim r.2 fun a => askCaches r.2 a cmp loc n)

/-! ## Stores -/

/-- The stores to a word that an agent can have met, in coherence order. -/
def wordMsgs (s : State) (ag : Agent) (w : Nat) : List Msg := (((spFind s.hist w).map (·.msgs)).getD []) ++ pendOf s ag w

/-- The message of an agent's store to bytes of a word, behind the stores `prior` to it (R118, R119). -/
def newMsg (s : State) (ag : Agent) (prior : List Msg) (cmp va : Nat) (cells : List (Nat × Byte)) (bad : Bool)
    (rels : List RelInfo) : Msg :=
  let k := getKnow s ag
  let m : Msg := { id := s.stores, who := ag.key, bytes := cells, bad := bad, va := va, cmp := cmp, clk := s.clk }
  let mine := prior.filter fun x => k.floor.any fun f => f.id == x.id && f.mine && Nat.land f.mask m.mask != 0
  { m with view := mine.foldl (fun l x => addIds l (x.id :: x.view)) k.hb, rels := addRels k.rels rels }

/-- The agent's later accesses do not go behind its store, and its releases order it. -/
def noteStore (s : State) (ag : Agent) (m : Msg) : State :=
  { (modKnow s ag fun k => { k with floor := k.floor ++ [⟨m.id, m.mask, true⟩], seen := addIds k.seen [m.id] }) with
    stores := s.stores + 1 }

/-- The bytes of a unit by their place in its word. -/
def unitCells (at_ : Nat) (bs : List Byte) : List (Nat × Byte) := bs.zipIdx.map fun e => (at_ + e.2, e.1)

/-- What a store to a word does to the poison of an L1's copy of it (04 R98): all 8 bytes clear it, fewer leave it. -/
def L1Line.stored (l : L1Line) (place n id : Nat) : L1Line :=
  match spFind l.bad place with
  | some ids => { l with bad := if n = 8 then spDel l.bad place else spPut l.bad place (ids ++ [id]) }
  | none => l

/-- One single-copy-atomic store to bytes of a word: a thread's stays dirty in its core's L1, which allocates the line (04
R83), another agent's goes to the L2. -/
def storeUnit (s : State) (ag : Agent) (cmp va loc : Nat) (bs : List Byte) (bad : Bool) (rels : List RelInfo) : State :=
  let m := newMsg s ag (wordMsgs s ag (loc / 8)) cmp va (unitCells (loc % 8) bs) bad rels
  let s1 := noteStore s ag m
  match ag.core s with
  | some c =>
    modCore s1 c fun k =>
      { k with
        pend := spPut k.pend (loc / 8) (spGet [] k.pend (loc / 8) ++ [m])
        l1 := spPut k.l1 (loc / 128) ((l1LineAt s c (loc / 128)).stored (loc % 128 / 8) bs.length m.id) }
  | none => publish s1 (loc / 8) m

/-- One store of KIND 3 to bytes of a word (03 R49). -/
def ctlStoreUnit (s : State) (ag : Agent) (cmp va loc : Nat) (bs : List Byte) (bad : Bool) (rels : List RelInfo) : State :=
  let m := newMsg s ag (ctlHist s cmp (loc / 8)).msgs cmp va (unitCells (loc % 8) bs) bad rels
  ctlPublish (noteStore s ag m) (loc / 8) m

/-- The units of a store (R106): words, and the bytes of words that a job does not write whole. -/
def storeCuts (ag : Agent) (loc n : Nat) : List (Nat × Nat) :=
  match ag with
  | .job _ => (unitsOf loc n).flatMap fun u => if u.2 = 8 then [u] else (List.range u.2).map fun i => (u.1 + i, 1)
  | _ => unitsOf loc n

/-- One store of bytes by an agent; a KIND 3 access goes to the controller (03 R49). -/
def storeBytes (s : State) (ag : Agent) (cmp kind va loc : Nat) (bs : List Byte) (bad : Bool) (rels : List RelInfo) : State :=
  (storeCuts ag loc bs.length).foldl (fun s u =>
    (if kind = 3 then ctlStoreUnit else storeUnit) s ag cmp (va + (u.1 - loc)) u.1 ((bs.drop (u.1 - loc)).take u.2) bad rels) s

/-- Other threads whose stores one write has merged, or whose bytes a higher lane of the same instruction wrote, do not go
behind that write either (02 R37, R41): the stores from `id` on of the agent. -/
def shareStores (s : State) (ag : Agent) (id : Nat) (others : List Agent) : State :=
  let fs := (getKnow s ag).floor.filter fun f => decide (id ≤ f.id)
  others.foldl (fun s a => modKnow s a fun k => { k with floor := k.floor ++ fs, seen := addIds k.seen (fs.map (·.id)) }) s

/-- A read-modify-write of bytes of a word: it returns the value `v`, that of the stores `prior`, and its write heads the
release sequence of the store it returns on (R107, R118). A poisoned word stays poisoned (log 13). -/
def rmwMsg (s : State) (ag : Agent) (prior : List Msg) (cmp va : Nat) (v : List Byte × Bool) (at_ n : Nat)
    (f : List Byte → List Byte) (rels : List RelInfo) : Got × State × Msg :=
  let bytes := (v.1.drop at_).take n
  let ret := returnedBy prior.reverse ((2 ^ n - 1) * 2 ^ at_)
  let met := ret.flatMap fun e => e.1.rels
  let s1 := noteRead s ag ret
  let m := { newMsg s1 ag prior cmp va (unitCells at_ (f bytes)) v.2 (addRels met rels) with rmw := true }
  (⟨bytes, v.2, met⟩, noteStore s1 ag m, m)

/-- Stores without those of host link agents at the end: a read-modify-write of host memory is atomic only against agents
of the Galvex, and such a store may fall between its read and its write (R107). -/
def beforeLinks : List Msg → List Msg
  | [] => []
  | m :: r => match beforeLinks r with
    | [] => if m.who % 8 = 5 then [] else [m]
    | q => m :: q

/-- A read-modify-write of n bytes at their home slice (R107): it reads the last store and writes directly after it. One of a
peer's memory is executed there, and no line of it stays here (03 R49). -/
def rmwUnit (s : State) (ag : Agent) (cmp kind va loc n : Nat) (f : List Byte → List Byte) (rels : List RelInfo) :
    Got × State :=
  let w := loc / 8
  if kind = 3 then
    let q := rmwMsg s ag (ctlHist s cmp w).msgs cmp va (ctlWord s cmp w) (loc % 8) n f rels
    (q.1, ctlPublish q.2.1 w q.2.2)
  else
    let h := histOf s cmp w
    let old := if kind = 1 then beforeLinks h.msgs else h.msgs
    let c := if old.length = h.msgs.length then (true, s) else choose s
    let q := rmwMsg c.2 ag (if c.1 then h.msgs else old) cmp va (if c.1 then l2Word s cmp w else h.after old) (loc % 8) n f rels
    let t := publish q.2.1 w q.2.2
    (q.1, if loc < 2 ^ 66 then t else l2WriteBack t (loc / 128))

/-! ## Edges (R113 to R119, R123 to R125) -/

/-- At .clus and wider a release edge of a thread writes its core's dirty bytes to the L2; at the narrower scopes it only
orders (R114; 04 R83). -/
def publishAt (s : State) (core scope : Nat) : State := if scope < 3 then s else coreWriteBack s core fun _ => true

/-- A FENCE.rel of an agent: the stores after it carry the edge. -/
def fenceRelease (s : State) (ag : Agent) (scope : Nat) : State :=
  let r := releaseOf s ag scope
  modKnow s ag fun k => { k with rels := addRel r k.rels }

/-- A FENCE.acq of an agent: it observes what the agent's earlier reads have met. -/
def fenceAcquire (s : State) (ag : Agent) (scope : Nat) : State := acquire s ag scope (getKnow s ag).met

/-- The place of an ordinary FENCE.sc in the SC order: it comes after all before it, and happens after those whose agents
share its instance and it theirs (R123). -/
def scStep (s : State) (ag : Agent) (scope : Nat) : State :=
  let s1 := acquire s ag scope s.scOrder
  { s1 with scOrder := addRel (releaseOf s1 ag scope) s1.scOrder }

/-- The place of a privileged agent's SC operation in the order of its scope instance (R125): the operations at the same
scope before it happen before it. -/
def privStep (s : State) (ag : Agent) (scope : Nat) : State :=
  let s1 := acquire s ag scope (s.privOrder.filter fun r => r.scope == scope)
  { s1 with privOrder := addRel (releaseOf s1 ag scope) s1.privOrder }

/-- The edges of a fence of an agent: 0 .rel, 1 .acq, 2 .ar, 3 .sc. -/
def fenceOf (s : State) (ag : Agent) (kind scope : Nat) : State :=
  let s1 := if kind = 1 then s else fenceRelease s ag scope
  let s2 := if kind = 0 then s1 else fenceAcquire s1 ag scope
  if kind = 3 then (match ag with
    | .mc => privStep s2 ag scope
    | _ => scStep s2 ag scope) else s2

/-- What the threads of a group that has gone knew goes with them. -/
def forgetGroup (s : State) (gid : Nat) : State :=
  { s with know := s.know.filter fun e => !(e.1 % 8 == 0 && e.1 / 512 == gid) }

/-- The stores that the threads of a group have made, read or acquired: what a release by all of them orders. -/
def groupReleased (s : State) (gid : Nat) : List Nat :=
  (s.know.filter fun e => e.1 % 8 == 0 && e.1 / 512 == gid).foldl (fun l e => addIds l e.2.released)
    (addIds (((teamOfGroup s gid).map (·.known)).getD []) (((spFind s.groups gid).map (·.past)).getD []))

end Sys2Proof.Machine
end

