-- ==== Sys2Proof/Machine/Xlate.lean ====
section
/-!
DEFINITION. Translation and page faults: the walk, the translation caches, the checks of a leaf, routes, the outcome of a set
of accesses, and fault batches (03 R43 to R52, R67, R68; 18 R427).
-/
namespace Sys2Proof.Machine

/-! ## The walk -/

/-- The outcome of a table walk (R45). -/
inductive WalkOut where
  | leaf (e lvl : Nat)
  | notPresent (lvl : Nat)
  | fatal
  deriving DecidableEq, Repr

/-- The index of a level (R43). -/
def walkIndex (lvl va : Nat) : Nat := if lvl = 5 then bitsOf va 57 7 else bitsOf va (12 + 9 * lvl) 9

/-- page_bits of R45. -/
def pageBits (e lvl : Nat) : Nat := if 0 < lvl then 12 + 9 * lvl else 12 + 2 * bitsOf e 10 2

/-! ### Translation caches (R53, R54) and runs (R47) -/

/-- The clients of translation (R54, R56). -/
inductive Walker where
  | core (k : Nat)
  | job (cluster : Nat)
  | ray (core : Nat)
  | raster (n : Nat)
  | barista (cluster : Nat)
  | link (adapter : Nat)
  | tgu (part : Nat)
  | mc
  deriving DecidableEq, Repr

def Walker.key : Walker → List Nat
  | .core k => [0, k]
  | .job k => [1, k]
  | .ray k => [2, k]
  | .raster k => [3, k]
  | .barista k => [4, k]
  | .link k => [5, k]
  | .tgu k => [6, k]
  | .mc => [7]

/-- Address bits that an entry does not tell apart: those of its page for a leaf of a run, else those below its index. -/
def entryBits (e lvl : Nat) : Nat := if lvl = 0 ∧ bitOf e 1 then pageBits e 0 else 12 + 9 * lvl

/-- Whether a cached entry stands for a context's address at a level. -/
def CachedEntry.standsFor (x : CachedEntry) (ctx lvl va : Nat) : Bool :=
  x.ctx == ctx && x.lvl == lvl && x.va / 2 ^ entryBits x.bits lvl == va / 2 ^ entryBits x.bits lvl

/-- The cached entry that a client goes by: it may use the old entry until it has seen the new one for the line (R54). -/
def cachedEntry (s : State) (who : Walker) (part ctx lvl va : Nat) : Option Nat :=
  ((getPart s part).tlb.find? fun x =>
    x.standsFor ctx lvl va && decide (s.clk < Config.seenAt (who.key ++ [part, ctx, lvl, va / 128, x.taken]))).map (·.bits)

/-- The entry in memory at the index of an address in the table t; none when its word is poisoned. -/
def storedEntry (s : State) (t lvl va : Nat) : Option Nat :=
  let a := t + walkIndex lvl va * 8
  if physBad s a 8 then none else some (physRead s a 8)

/-- The entry that a walk reads from memory: of a run whose entries differ, any of them (R47). -/
def readEntry (s : State) (part ctx t lvl va : Nat) : Option Nat :=
  match storedEntry s t lvl va with
  | none => none
  | some e =>
    let n := 4 ^ bitsOf e 10 2
    if lvl ≠ 0 ∨ !bitOf e 0 ∨ !bitOf e 1 ∨ n = 1 then some e
    else
      let run := (List.range n).filterMap fun i => storedEntry s t 0 (va / 4096 / n * n * 4096 + 4096 * i)
      if run.all (fun x => x == e) then some e
      else some (run.getD (Config.runEntry [part, ctx, va / 4096, s.fresh, s.clk] % n) e)

/-- The walk from the table t at level `lvl` down (R45); a poisoned table read is FATAL_TRANSLATION. -/
def walkFrom (s : State) (who : Walker) (part ctx va : Nat) : Nat → Nat → WalkOut
  | lvl, t =>
    match (cachedEntry s who part ctx lvl va).or (readEntry s part ctx t lvl va) with
    | none => .fatal
    | some e =>
      if !bitOf e 0 then .notPresent lvl
      else match lvl with
        | 0 => if bitOf e 1 then .leaf e 0 else .fatal
        | n + 1 =>
          if bitOf e 1 then (if 3 < n + 1 then .fatal else .leaf e (n + 1))
          else walkFrom s who part ctx va n (bitsOf e 12 40 * 4096)

def walk (s : State) (who : Walker) (part ctx va : Nat) : WalkOut := walkFrom s who part ctx va 5 (ctxRoot s part ctx)

/-- What a walk of memory from the table t at a level down leaves in the caches: valid table entries, and a valid leaf
that is not migrating (R53). -/
def walkEntries (s : State) (part ctx va : Nat) : Nat → Nat → List CachedEntry
  | lvl, t =>
    match readEntry s part ctx t lvl va with
    | none => []
    | some e =>
      let x : CachedEntry := { ctx := ctx, lvl := lvl, va := va, bits := e, taken := s.clk }
      if !bitOf e 0 then []
      else if bitOf e 1 then (if bitOf e 63 then [] else [x])
      else match lvl with
        | 0 => []
        | n + 1 => x :: walkEntries s part ctx va n (bitsOf e 12 40 * 4096)

/-- The caches take the entries of an address. -/
def cacheWalk (s : State) (part ctx va : Nat) : State :=
  (walkEntries s part ctx va 5 (ctxRoot s part ctx)).foldl (fun s x => modPart s part fun p =>
    { p with tlb := x :: p.tlb.filter fun y => !y.standsFor x.ctx x.lvl x.va }) s

/-- Whether an entry translates an address of [lo, lo + n) granules of 4 KiB. -/
def CachedEntry.inRange (x : CachedEntry) (lo n : Nat) : Bool :=
  let b := entryBits x.bits x.lvl
  decide (0 < n) && decide (x.va / 2 ^ b * 2 ^ b < (lo + n) * 4096) && decide (lo * 4096 < (x.va / 2 ^ b + 1) * 2 ^ b)

/-- leaf_pa of R45. -/
def leafPa (e lvl va : Nat) : Nat :=
  let b := pageBits e lvl
  bitsOf e 12 40 * 4096 / 2 ^ b * 2 ^ b + va % 2 ^ b

/-! ## Leaf checks -/

/-- What an access is, as fault records number it (R68). -/
inductive Acc where
  | read | write | atomic | fetch | table
  deriving DecidableEq, Repr

def Acc.code : Acc → Nat
  | .read => 0
  | .write => 1
  | .atomic => 2
  | .fetch => 3
  | .table => 4

def Acc.isWrite : Acc → Bool
  | .write => true
  | .atomic => true
  | _ => false

/-- The outcome of translating one access. For a location beyond HBM, which has no CMP, `cmp` is the partition whose L2 takes
the line (R49). -/
inductive XlOut where
  | ok (loc kind cmp : Nat)
  | fault (lvl : Nat) (mig : Bool)
  | prot
  | fatal
  deriving DecidableEq, Repr

/-- Whether a device physical address lies in the partition's stacks (01 R21, R50). -/
def inStacks (s : State) (part pa : Nat) : Bool :=
  decide (partBase s part ≤ pa) && decide (pa < partBase s part + 8 / partCount s * 2 ^ 36)

/-- The checks of R50 on a leaf, in their order. -/
def leafCheck (s : State) (part : Nat) (acc : Acc) (sup : Bool) (e lvl va : Nat) : XlOut :=
  let cmp := bitsOf e 5 3
  let kind := bitsOf e 8 2
  let pa := leafPa e lvl va
  let hbm := kind == 0 || kind == 3
  if bitOf e 63 then .fault lvl true
  else if cmp = 1 ∨ (cmp / 2 ≠ 0 ∧ kind ≠ 0) ∨ (cmp / 2 ≠ 0 ∧ cmp % 2 = 1 ∧ !s.inband.contains (pa / 2 ^ 36))
      ∨ (hbm ∧ !inStacks s part pa) ∨ (kind = 2 ∧ !routeOk s part (pa / 2 ^ 48)) then .fatal
  else if cmp / 2 = 3 ∨ (acc = .fetch ∧ !bitOf e 3) ∨ (acc.isWrite ∧ !bitOf e 2) ∨ (bitOf e 4 ∧ !sup) then .prot
  else .ok (locOf s part kind pa) kind (if offHbm (locOf s part kind pa) then part else cmp)

/-- Translation of one access of a context. `sup` says that it is a supervisor access. -/
def translate (s : State) (who : Walker) (part ctx : Nat) (acc : Acc) (sup : Bool) (va : Nat) : XlOut :=
  match walk s who part ctx va with
  | .notPresent lvl => .fault lvl false
  | .fatal => .fatal
  | .leaf e lvl => leafCheck s part acc sup e lvl va

/-! ## Sets of accesses (R39, R51, R67) -/

/-- One access of an instruction or step: the lane (0 for other clients), its address and its bytes. -/
structure LaneAcc where
  lane : Nat
  va   : Nat
  size : Nat
  /-- a 4-bit element in the upper half of its byte (02 R37) -/
  hi   : Bool := false
  deriving DecidableEq, Repr

/-- A granule that faulted (R67). -/
structure Granule where
  va   : Nat
  lane : Nat
  lvl  : Nat
  mig  : Bool
  deriving DecidableEq, Repr

/-- A translated access. -/
structure LaneLoc where
  lane : Nat
  va   : Nat
  size : Nat
  loc  : Nat
  kind : Nat
  cmp  : Nat
  hi   : Bool := false
  deriving DecidableEq, Repr

inductive XlSet where
  | ok (ls : List LaneLoc)
  | trap (cause lane va : Nat)
  | fault (gs : List Granule)
  deriving DecidableEq, Repr

def xlOks (s : State) (who : Walker) (part ctx : Nat) (acc : Acc) (sup : Bool) : List LaneAcc → List LaneLoc
  | [] => []
  | a :: r => match translate s who part ctx acc sup a.va with
    | .ok loc kind cmp => ⟨a.lane, a.va, a.size, loc, kind, cmp, a.hi⟩ :: xlOks s who part ctx acc sup r
    | _ => xlOks s who part ctx acc sup r

def xlFaults (s : State) (who : Walker) (part ctx : Nat) (acc : Acc) (sup : Bool) : List LaneAcc → List Granule → List Granule
  | [], gs => gs
  | a :: r, gs => match translate s who part ctx acc sup a.va with
    | .fault lvl mig =>
      if gs.any (fun g => g.va == a.va / 4096) then xlFaults s who part ctx acc sup r gs
      else xlFaults s who part ctx acc sup r (gs ++ [⟨a.va / 4096, a.lane, lvl, mig⟩])
    | _ => xlFaults s who part ctx acc sup r gs

/-- The outcome of all accesses of an instruction: FATAL_TRANSLATION, then PROTECTION, then page faults (R51). The
accesses come in the order that batches list (R67). -/
def xlateSet (s : State) (who : Walker) (part ctx : Nat) (acc : Acc) (sup : Bool) (as : List LaneAcc) : XlSet :=
  match as.find? (fun a => translate s who part ctx acc sup a.va == .fatal) with
  | some a => .trap 0x0A a.lane a.va
  | none => match as.find? (fun a => translate s who part ctx acc sup a.va == .prot) with
    | some a => .trap 0x09 a.lane a.va
    | none => match xlFaults s who part ctx acc sup as [] with
      | [] => .ok (xlOks s who part ctx acc sup as)
      | gs => .fault gs

/-! ## Ranges of bytes, for the clients that read whole objects -/

/-- Cuts [va, va + n) at the lines of 128 bytes, on fuel; addresses wrap (R31). -/
def lineCuts : Nat → Nat → Nat → List LaneAcc
  | 0, _, _ => []
  | k + 1, va, n =>
    if n = 0 then []
    else
      let m := min n (128 - va % 128)
      ⟨0, va % 2 ^ 64, m, false⟩ :: lineCuts k (va + m) (n - m)

def rangeAccs (va n : Nat) : List LaneAcc := lineCuts (n / 128 + 2) va n

/-- The bytes of translated accesses as a unit of the machine itself reads them: at the L2, or at the controller for
KIND 3. -/
def l2ReadSet (s : State) : List LaneLoc → List Byte
  | [] => []
  | l :: r =>
    (if l.kind = 3 then (List.range l.size).map fun i => ctlByte s l.cmp (l.loc + i) else l2Bytes s l.cmp l.loc l.size)
      ++ l2ReadSet s r

def l2BadSet (s : State) (ls : List LaneLoc) : Bool :=
  ls.any fun l =>
    if l.kind = 3 then (List.range l.size).any fun i => ctlBad s l.cmp (l.loc + i) else l2AnyBad s l.cmp l.loc l.size

/-- What such reads leave behind (R59; 04 R86). -/
def askSet (s : State) (ls : List LaneLoc) : State :=
  ls.foldl (fun s l => if l.kind = 3 then s else l2Asked s l.cmp l.loc l.size) s

/-- Writes bytes over translated accesses at the L2, or at the controller for KIND 3, for a unit of the machine itself. -/
def l2WriteSet (s : State) : List LaneLoc → List Byte → State
  | [], _ => s
  | l :: r, bs =>
    let cells := cellsAt l.loc (bs.take l.size)
    l2WriteSet (if l.kind = 3 then ctlWrite s l.cmp cells else l2Write s l.cmp cells) r (bs.drop l.size)

/-- The bytes of translated accesses as some agents read them together (05 R121). -/
def readSet (s : State) (ags : List Agent) : List LaneLoc → Got × State
  | [] => (⟨[], false, []⟩, s)
  | l :: r =>
    let a := readBytes s ags l.cmp l.kind l.loc l.size
    let b := readSet a.2 ags r
    (a.1.and b.1, b.2)

/-- An agent's stores over translated accesses. -/
def storeSet (s : State) (ag : Agent) (bad : Bool) (rels : List RelInfo) : List LaneLoc → List Byte → State
  | [], _ => s
  | l :: r, bs =>
    storeSet (storeBytes s ag l.cmp l.kind l.va l.loc (bs.take l.size) bad rels) ag bad rels r (bs.drop l.size)

/-- The outcome of reading an object of the context: its bytes and whether a word of it is poisoned, a trap cause, or
faulting granules. -/
inductive ReadOut where
  | ok (bytes : List Byte) (bad : Bool)
  | trap (cause va : Nat)
  | fault (gs : List Granule)
  deriving DecidableEq, Repr

def readRange (s : State) (who : Walker) (part ctx : Nat) (acc : Acc) (sup : Bool) (va n : Nat) : ReadOut :=
  match xlateSet s who part ctx acc sup (rangeAccs va n) with
  | .trap cause _ a => .trap cause a
  | .fault gs => .fault gs
  | .ok ls => .ok (l2ReadSet s ls) (l2BadSet s ls)

/-- What that read leaves behind. -/
def rangeAsked (s : State) (who : Walker) (part ctx : Nat) (acc : Acc) (sup : Bool) (va n : Nat) : State :=
  match xlateSet s who part ctx acc sup (rangeAccs va n) with
  | .ok ls => askSet s ls
  | _ => s

/-! ## Fault batches -/

/-- What the records of a batch say beside their granules (R68). -/
structure Faulter where
  acc    : Acc
  ctx    : Nat
  core   : Nat := 511
  group  : Nat := 0
  client : Nat
  unit   : Nat := 0
  job    : Nat := 0
  clause : Nat := 0
  slot   : Nat := 0
  deriving DecidableEq, Repr

/-- One fault record as a number of 256 bits; PHASE is added when the ring takes it (R68). LANE is 0 for clients other than
cores. -/
def faultRecord (seq count index : Nat) (w : Faulter) (g : Granule) : Nat :=
  seq % 2 ^ 32 + count * 2 ^ 32 + index * 2 ^ 40 + (if index + 1 = count then 2 ^ 48 else 0)
    + w.acc.code * 2 ^ 49 + (if g.mig then 2 ^ 52 else 0) + g.lvl * 2 ^ 53 + (if w.client = 0 then g.lane else 0) * 2 ^ 70 + g.va * 2 ^ 76
    + w.ctx * 2 ^ 128 + w.core * 2 ^ 144 + w.group * 2 ^ 153 + w.client * 2 ^ 160 + (w.unit % 256) * 2 ^ 168
    + w.job * 2 ^ 176 + (w.clause % 2 ^ 48) * 2 ^ 192 + w.slot * 2 ^ 240

def faultRecords (seq count : Nat) (w : Faulter) : Nat → List Granule → List Nat
  | _, [] => []
  | i, g :: r => faultRecord seq count i w g :: faultRecords seq count w (i + 1) r

/-- Batches that wait on chip for room in the ring (R70). -/
def waitingBatches (s : State) (part : Nat) : Nat := ((getPart s part).batches.filter fun b => !b.inRing).length

/-- Whether a client may record a batch now (R70: 256 wait at most). -/
def canReport (s : State) (part : Nat) : Bool := decide (waitingBatches s part < 256)

/-- Ascending virtual address, for clients other than cores (R67). -/
def insGranule (g : Granule) : List Granule → List Granule
  | [] => [g]
  | h :: r => if g.va < h.va then g :: h :: r else h :: insGranule g r

def sortGranules (gs : List Granule) : List Granule := gs.foldl (fun l g => insGranule g l) []

/-- Records one batch: it takes the next SEQ and waits for the ring (R67, R70). At most 64 records. -/
def reportBatch (s : State) (part : Nat) (w : Faulter) (gs : List Granule) (c : Client) : Nat × State :=
  let p := getPart s part
  let order := (if w.client = 0 then gs else sortGranules gs).take 64
  let seq := p.nextSeq
  let b : Batch := { seq := seq, records := faultRecords seq order.length w 0 order, client := c }
  (seq, setPart s part { p with nextSeq := (seq + 1) % 2 ^ 32, batches := p.batches ++ [b] })

/-! ## Watchpoints (18 R431) -/

/-- The kinds of access a watchpoint tells apart. -/
inductive WpKind where
  | rd | wr | at
  deriving DecidableEq, Repr

def WpKind.bit : WpKind → Nat
  | .rd => 32
  | .wr => 33
  | .at => 34

/-- Whether an access of n bytes at a matches watchpoint k. -/
def wpHit (s : State) (part ctx : Nat) (spad : Bool) (kind : WpKind) (a n k : Nat) : Bool :=
  let p := getPart s part
  let base := (spGet 0 p.wpAddr k).toNat
  let ctl := (spGet 0 p.wpCtl k).toNat
  let len := ctl % 2 ^ 32
  decide (bitsOf ctl 48 16 = ctx) && bitOf ctl 35 == spad && bitOf ctl kind.bit && decide (0 < n)
    && decide (0 < len) && decide (a < base + len) && decide (base < a + n)

def wpMatch (s : State) (part ctx : Nat) (spad : Bool) (kind : WpKind) (a n : Nat) : Bool :=
  (List.range 4).any fun k => wpHit s part ctx spad kind a n k

end Sys2Proof.Machine
end

