-- ==== Sys2Proof/Machine/Ops.lean ====
section
/-!
DEFINITION. Named operations on groups and paths: the issuing path, retiring, records of the two stacks, removing lanes,
taking a trap and returning from it, page faults of core instructions, waiting, and the context reset
(08 R179 to R192; 10 R216 to R220, R225).
-/
namespace Sys2Proof.Machine

/-- The outcome of an instruction or event of this machine. -/
abbrev Out := Host.Outcome State Fault Refusal

/-- An event of the machine that cannot happen in the state as it is. -/
inductive Idle where
  | idle
  deriving DecidableEq, Repr

/-- What an event of the machine comes to: a state, a fault, or that it cannot happen now. -/
abbrev Event := Host.Outcome State Fault Idle

/-- An event that cannot happen leaves the machine as it is. -/
def settle (s : State) : Event → Out
  | .next t => .next t
  | .fault r => .fault r
  | .refused _ => .next s

/-- The outcome of an instruction, as an event that happens with it. -/
def eventOf : Out → Event
  | .next t => .next t
  | .fault r => .fault r
  | .refused _ => .refused .idle

/-! ## Trap causes (10 R216) -/

def causeSyscall : Nat := 0x00
def causeOpcode : Nat := 0x01
def causeOperand : Nat := 0x02
def causeClause : Nat := 0x03
def causeDictUndefined : Nat := 0x04
def causeDictHandle : Nat := 0x05
def causeMisaligned : Nat := 0x06
def causeBounds : Nat := 0x07
def causeRecord : Nat := 0x08
def causeProtection : Nat := 0x09
def causeFatal : Nat := 0x0A
def causePoison : Nat := 0x0B
def causeStack : Nat := 0x0C
def causeBarrier : Nat := 0x0D
def causeGang : Nat := 0x0E
def causeToken : Nat := 0x0F
def causeChannel : Nat := 0x10
def causePrivilege : Nat := 0x11
def causeBreakpoint : Nat := 0x12
def causeSoftware : Nat := 0x13
def causeWatchpoint : Nat := 0x14
def causePopulation : Nat := 0x15

/-! ## Groups, paths, teams -/

def getGroup (s : State) (gid : Nat) : Option Group := spFind s.groups gid
def setGroup (s : State) (gid : Nat) (g : Group) : State := { s with groups := spPut s.groups gid g }
def modGroup (s : State) (gid : Nat) (f : Group → Group) : State := { s with groups := spMod s.groups gid f }
def getTeam (s : State) (t : Nat) : Option Team := spFind s.teams t
def modTeam (s : State) (t : Nat) (f : Team → Team) : State := { s with teams := spMod s.teams t f }
def getNode (s : State) (n : Nat) : Option Node := spFind s.nodes n
def modNode (s : State) (n : Nat) (f : Node → Node) : State := { s with nodes := spMod s.nodes n f }
def modJob (s : State) (j : Nat) (f : Job → Job) : State := { s with jobs := spMod s.jobs j f }

def Group.live (g : Group) (n : Nat) : Option Path := if n = 0 then g.live0 else g.live1
def Group.setLive (g : Group) (n : Nat) (p : Option Path) : Group :=
  if n = 0 then { g with live0 := p } else { g with live1 := p }

/-- Lanes held by some path or record of the group; the others are vacant (R179). -/
def Group.held (g : Group) : Mask :=
  let m (p : Option Path) : Mask := match p with
    | some q => q.mask
    | none => 0
  g.stack.foldl (fun a r => a ||| r.mask) (m g.live0 ||| m g.live1)

/-- Whether a group has been saved for its fault batch, and not by a team save alone (10 R220, R221). -/
def Group.faultSaved (g : Group) : Bool := g.saved && !g.ended && (g.batch.isSome || g.release.isSome)

def setPath (s : State) (gid live : Nat) (p : Option Path) : State := modGroup s gid fun g => g.setLive live p
def modPath (s : State) (gid live : Nat) (f : Path → Path) : State :=
  modGroup s gid fun g => g.setLive live ((g.live live).map f)

/-- The path that issues, with what surrounds it. -/
structure Iss where
  gid  : Nat
  live : Nat
  g    : Group
  p    : Path
  t    : Team
  core : Nat
  part : Nat
  ctx  : Nat
  deriving DecidableEq, Repr

def issOf (s : State) (q : PathId) : Option Iss :=
  match getGroup s q.gid with
  | none => none
  | some g => match g.live q.live, getTeam s g.team with
    | some p, some t =>
      let core := t.core.getD 0
      some { gid := q.gid, live := q.live, g := g, p := p, t := t, core := core, part := t.part, ctx := t.ctx }
    | _, _ => none

/-- The path that State.cur names, when it lives. -/
def issuer (s : State) : Option Iss :=
  match s.cur with
  | none => none
  | some q => issOf s q

/-- A program instruction acts on the issuing path; without one it has no meaning. -/
def onPath (s : State) (f : Iss → State) : Out :=
  match issuer s with
  | none => .refused .noIssuer
  | some c => .next (f c)

/-- The group slot that fault records and frames name. -/
def Iss.groupSlot (c : Iss) : Nat := (c.g.place.getD 0) % 64

/-- Whether accesses of the issuing program are supervisor accesses (03 R50). -/
def Iss.sup (c : Iss) (s : State) : Bool := ctxSup s c.part c.ctx

/-! ## Clauses and retiring -/

/-- Slots an instruction at the path's slot takes: three for an escape (11 R241). -/
def slotWidth (p : Path) : Nat :=
  match p.clause with
  | none => 1
  | some cl => match cl.slots.drop p.slot with
    | .long _ true :: _ => 3
    | _ => 1

/-- N of the path's clause. -/
def clauseN (p : Path) : Nat :=
  match p.clause with
  | none => 1
  | some cl => cl.header.toNat % 16

/-- Whether the instruction at the path's slot ends its clause. -/
def atClauseEnd (p : Path) : Bool := decide (clauseN p ≤ p.slot + slotWidth p)

/-- The next clause in memory (11 R233). -/
def nextClause (p : Path) : Nat := (p.addr + 4 * (clauseN p + 1)) % 2 ^ 64

def headerYield (p : Path) : Bool :=
  match p.clause with
  | none => false
  | some cl => bitOf cl.header.toNat 28

/-- Whether the path's clause contains a YIELD, at the slot that ends it or before (R183). -/
def clauseYields (p : Path) : Bool :=
  match p.clause with
  | none => false
  | some cl => (cl.slots.take (p.slot + 1)).any fun x => match x with
    | .long lf _ => opOf lf == 0x0D
    | _ => false

/-- The path at the end of a clause, continuing at a clause address (R183: whether it rotates). -/
def endClause (p : Path) (target : Nat) : Path :=
  { p with
    addr := target % 2 ^ 64, slot := 0, clause := none, count := p.count + 1
    rotate := p.yielded || clauseYields p || headerYield p || decide (512 ≤ p.count + 1)
    slotFrom := none, yielded := false, noWait := false, exempt := false, resumed := false, handler := none, failed := false
    wait := .none, found := 0, saw := [], dropped := 0 }

/-- The path behind its instruction, in program order. -/
def advance (p : Path) : Path :=
  if atClauseEnd p then endClause p (nextClause p)
  else { p with slot := p.slot + slotWidth p, count := p.count + 1, exempt := false, failed := false, wait := .none,
                found := 0, saw := [], dropped := 0 }

/-- Counts an instruction of the group as retired (16 R398). -/
def countRetired (g : Group) (ended : Bool) : Group :=
  { g with retired := g.retired + 1, clauses := if ended then g.clauses + 1 else g.clauses }

/-- The issued instruction retires and its path goes on. -/
def retire (s : State) (c : Iss) : State :=
  modGroup s c.gid fun g =>
    countRetired (g.setLive c.live ((g.live c.live).map advance)) (atClauseEnd c.p)

/-- The issued instruction retires and its whole path continues at a clause (12 R272). -/
def branchTo (s : State) (c : Iss) (target : Nat) : State :=
  modGroup s c.gid fun g =>
    countRetired (g.setLive c.live ((g.live c.live).map fun p => endClause p target)) true

/-- The issued instruction stays unissued and its path waits. -/
def waitOn (s : State) (c : Iss) (w : Wait) : State :=
  modPath s c.gid c.live fun p => { p with wait := w, since := s.clk }

/-! ## The two stacks (R180, R181, R187) -/

/-- A path as it becomes live or is resumed at a slot (R180). -/
def freshPath (addr slot : Nat) (mask : Mask) (fmt : Word) (handle : Nat) : Path :=
  { addr := addr, slot := slot, mask := mask, fmt := fmt, handle := handle, noWait := decide (0 < slot) }

/-- Records run from the newest to the oldest; a new one goes in front. All of them stand with the group as long as it is
resident (log 124). -/
def pushRec (g : Group) (r : Rec) : Group := { g with stack := r :: g.stack }

/-- Whether k more ordinary records fit (R180: 504 places). -/
def ordinaryRoom (g : Group) (k : Nat) : Bool := decide (g.stack.length + k ≤ 504)

def parkedRec (p : Path) : Rec :=
  { kind := .parked, addr := p.addr, slot := p.slot, mask := p.mask, fmt := p.fmt, handle := p.handle }

def recPath (r : Rec) : Path := freshPath r.addr r.slot r.mask r.fmt r.handle

def hasParked (g : Group) : Bool := g.stack.any fun r => r.kind == .parked

/-- Removes the oldest PARKED record: the last of the list. -/
def takeOldestParked : List Rec → Option (Rec × List Rec)
  | [] => none
  | r :: rest => match takeOldestParked rest with
    | some (q, rest') => some (q, r :: rest')
    | none => if r.kind = .parked then some (r, rest) else none

/-- Moves the oldest PARKED record into the empty slot n, when there is one. -/
def fillSlot (g : Group) (n : Nat) : Group :=
  match g.live n with
  | some _ => g
  | none => match takeOldestParked g.stack with
    | none => g
    | some (r, rest) => { (g.setLive n (some (recPath r))) with stack := rest }

/-- fill_slots of R181. -/
def fillSlots (g : Group) : Group := fillSlot (fillSlot g 0) 1

/-- Whether a record's MASK holds every lane of m (R180). -/
def Rec.contains (r : Rec) (m : Mask) : Bool := r.mask &&& m == m

/-- The topmost record of a kind that contains m. -/
def topRec (g : Group) (k : RecKind) (m : Mask) : Option Rec :=
  g.stack.find? fun r => r.kind == k && r.contains m

/-- Replaces the topmost record of a kind that contains m; none removes it. -/
def replaceTop (k : RecKind) (m : Mask) (new : Option Rec) : List Rec → List Rec
  | [] => []
  | r :: rest =>
    if r.kind == k && r.contains m then
      match new with
      | some q => q :: rest
      | none => rest
    else r :: replaceTop k m new rest

/-- Places a new path in a free slot, slot `pref` first, or pushes it as PARKED (R184). -/
def placePath (g : Group) (pref : Nat) (p : Path) : Group :=
  if (g.live pref).isNone then g.setLive pref (some p)
  else if (g.live (1 - pref)).isNone then g.setLive (1 - pref) (some p)
  else pushRec g (parkedRec p)

/-- divide of R181 and R273, by the path in slot n, whose next clause is `next`. The issue count of the path that stays in the
slot goes on (log 22). -/
def divide (g : Group) (n : Nat) (p : Path) (t : Mask) (target join next : Nat) : Group :=
  let g1 := pushRec g { kind := .join, addr := join, mask := p.mask, fmt := p.fmt, handle := p.handle }
  let f := p.mask &&& ~~~t
  let stay := endClause { p with mask := f } next
  let g2 := g1.setLive n (if f = 0 then none else some stay)
  let q := endClause { p with mask := t } target
  let g3 :=
    if t = 0 then g2
    else if (g2.live n).isNone then g2.setLive n (some q)
    else if (g2.live (1 - n)).isNone then g2.setLive (1 - n) (some { q with count := 0, rotate := false })
    else pushRec g2 (parkedRec q)
  fillSlots g3

/-! ### SERIAL steps (R188) -/

/-- The end of a SERIAL record's running step: the remaining lanes issue the CALLI again, or the record is removed and
its lanes go on after the CALLI. -/
def serialNext (r : Rec) : Option Rec × Option Path :=
  let rest := r.mask &&& ~~~r.aux
  if rest = 0 then
    (none, if r.mask = 0 then none else some (freshPath r.next 0 r.mask r.fmt r.handle))
  else (some r, some (freshPath r.addr r.slot rest r.fmt r.handle))

/-- Removes lanes from a record. -/
def Rec.without (l : Mask) (r : Rec) : Rec :=
  { r with mask := r.mask &&& ~~~l, aux := r.aux &&& ~~~l, run := r.run &&& ~~~l }

/-- The SERIAL records after the lanes l have left: a record whose running call has lost its last lane ends its step, and
so does one with nothing left to call. Returns the records and the new paths. -/
def serialSweep (l : Mask) : List Rec → List Rec × List Path
  | [] => ([], [])
  | r :: rest =>
    let q := serialSweep l rest
    let r' := r.without l
    if r.kind = .serial ∧ r'.run = 0 ∧ (r.run ≠ 0 ∨ r'.mask &&& ~~~r'.aux = 0) then
      let e := serialNext r'
      (e.1.toList ++ q.1, e.2.toList ++ q.2)
    else (r' :: q.1, q.2)

/-! ### Lanes that leave (R184) -/

/-- The JOIN records from the top down: those without lanes go, those whose bound lanes have all arrived release a path. -/
def joinSweep : List Rec → List Rec × List Path
  | [] => ([], [])
  | r :: rest =>
    if r.kind = .join ∧ r.mask = 0 then joinSweep rest
    else if r.kind = .join ∧ r.aux = r.mask then
      let q := joinSweep rest
      (q.1, { freshPath r.addr 1 r.mask r.fmt r.handle with noWait := true } :: q.2)
    else
      let q := joinSweep rest
      (r :: q.1, q.2)

/-- A live path without the lanes l; none when none are left. -/
def Path.without (l : Mask) (p : Path) : Option Path :=
  if p.mask &&& ~~~l = 0 then none else some { p with mask := p.mask &&& ~~~l }

/-- remove_lanes of R184. -/
def removeLanes (g : Group) (l : Mask) : Group :=
  let sr := serialSweep l g.stack
  let recs := sr.1.filter fun r => !((r.kind == .parked || r.kind == .trap) && r.mask == 0)
  let rets := (g.rets.map fun e => { e with mask := e.mask &&& ~~~l }).filter fun e => e.mask != 0
  let j := joinSweep recs
  let g1 := { g with
    live0 := g.live0.bind (Path.without l), live1 := g.live1.bind (Path.without l)
    stack := j.1, rets := rets }
  fillSlots ((j.2 ++ sr.2).foldl (fun g p => placePath g 0 p) g1)

/-- New lanes join a path: they enter its mask, and the MASK of every JOIN and SERIAL record and return entry that
contains the path's mask (R192). -/
def joinLanes (g : Group) (live : Nat) (m new : Mask) : Group :=
  let g1 := g.setLive live ((g.live live).map fun p => { p with mask := p.mask ||| new })
  { g1 with
    stack := g1.stack.map fun r =>
      if (r.kind == .join || r.kind == .serial) && r.contains m then
        { r with mask := r.mask ||| new, run := if r.run &&& m == m then r.run ||| new else r.run }
      else r
    rets := g1.rets.map fun e => if e.mask &&& m == m then { e with mask := e.mask ||| new } else e }

/-! ## Messages to the host -/

def tellHost (s : State) (m : HostMsg) : State := { s with hostMsgs := s.hostMsgs ++ [m] }

/-- An MSI-X vector of a partition (18 R419): 0 fault queue, 1 context reset, 2 fence and RAS, 3 debugger halt. -/
def msix (s : State) (part i : Nat) : State := tellHost s (.msix (4 * part + i))

/-! ## Context reset (10 R225) -/

def teamsOf (s : State) (part ctx : Nat) : List Nat :=
  (s.teams.filter fun e => e.2.part == part && e.2.ctx == ctx).map (·.1)

def groupsOf (s : State) (teams : List Nat) : List Nat :=
  (s.groups.filter fun e => teams.contains e.2.team).map (·.1)

/-- The queues of the cluster pool that a team's channels name (09 R208). -/
def teamQueues (t : Team) : List Nat := (t.channel.map fun e => e.2.queue).eraseDups

/-- Buffers that a context's queue has freed keep its tag (04 R95). -/
def freedBufs (part ctx : Nat) (bufs : List QBuf) : List FreeBuf := bufs.map fun b => ⟨part, ctx, b.bytes⟩

/-- Empties the pool queues that teams of a context are bound to (04 R95). -/
def emptyQueues (s : State) (part ctx cluster : Nat) (qs : List Nat) : State :=
  if qs.isEmpty then s
  else modCluster s cluster fun k =>
    { k with
      queues := qs.foldl (fun m q => spMod m q fun v => { v with bufs := [] }) k.queues
      freed := k.freed ++ qs.flatMap fun q => freedBufs part ctx (((spFind k.queues q).map (·.bufs)).getD []) }

/-- Frees the weight-buffer slots that a team holds (15 R354). -/
def freeWeights (s : State) (core team : Nat) : State :=
  modCore s core fun c =>
    { c with weight := c.weight.map fun e => if e.2.holder == some team then (e.1, { e.2 with holder := none }) else e }

/-- What a discarded team held outside its record. -/
def dropTeam (s : State) (tid : Nat) : State :=
  match getTeam s tid with
  | none => s
  | some t =>
    let s1 := match t.core with
      | some k => freeWeights (emptyQueues s t.part t.ctx (clusterOf k) (teamQueues t)) k tid
      | none => s
    { s1 with teams := spDel s1.teams tid }

/-- Stops every submission queue that owns a context at its current record: records that have not completed are left to
be fetched again once system software has rewritten the context record (R225, R232). -/
def stopQueues (s : State) (part ctx : Nat) : State :=
  modPart s part fun p =>
    { p with queues := p.queues.map fun e =>
        if e.2.ctx = ctx then
          (e.1, { e.2 with
            stopped := true, fetched := e.2.progress
            recs := e.2.recs.filter fun r => match r.2 with
              | .done => true
              | _ => false })
        else e }

/-- The context reset: teams, jobs and nodes go, queues stop, the record takes STATE 5 and the reason, the host is
signalled. Frames in memory stay. -/
def contextReset (s : State) (part ctx reason rcause : Nat) : State :=
  let ts := teamsOf s part ctx
  let gs := groupsOf s ts
  let s1 := ts.foldl dropTeam s
  let mine (p c : Nat) : Bool := p == part && c == ctx
  let s2 := { s1 with
    groups := s1.groups.filter fun e => !gs.contains e.1
    ops := s1.ops.filter fun e => !gs.contains e.2.gid
    nodes := s1.nodes.filter fun e => !mine e.2.part e.2.ctx
    entries := s1.entries.filter fun e => !mine e.2.part e.2.ctx
    jobs := s1.jobs.filter fun e => !mine e.2.part e.2.ctx
    tiles := s1.tiles.filter fun e => !mine e.2.part e.2.ctx
    know := s1.know.filter fun e =>
      !(e.1 % 8 == 0 && gs.contains (e.1 / 512)) && !(e.1 % 8 == 1 && match spFind s1.jobs (e.1 / 8) with
        | some j => mine j.part j.ctx
        | none => false)
    clusters := s1.clusters.map fun e => (e.1, { e.2 with bins := e.2.bins.filter fun b => !mine b.part b.ctx })
    cores := s1.cores.map fun e =>
      if partOfCore s e.1 = part then (e.1, { e.2 with slice := spDel e.2.slice ctx, reached := spDel e.2.reached ctx }) else e }
  let s3 := stopQueues s2 part ctx
  let s4 := modPart s3 part fun p => { p with
    tris := p.tris.filter fun t => t.ctx != ctx
    samples := p.samples.filter fun t => t.ctx != ctx
    atoms := p.atoms.filter fun a => !gs.contains a.gid
    preempt := p.preempt.filter fun x => x.ctx != ctx
    expired := p.expired.filter fun x => x != ctx
    redirect := p.redirect.filter fun t => !ts.contains t
    units := p.units.map fun e => if e.2 = 2 * ctx then (e.1, 2 * ctx + 1) else e }
  let s5 := setCtxBits (setCtxBits (setCtxBits s4 part ctx 69 3 5) part ctx 544 8 reason) part ctx 552 8
    (if reason = 2 ∨ reason = 4 then rcause else 0)
  msix s5 part 1

/-! ## Page faults of core instructions (03 R67; 10 R220) -/

/-- Reports a batch of a path's instruction or fetch; the path and its group stop until it is released, and a path whose fetch
faulted then goes on waiting as it did (R221). When 256 batches wait already, the client waits before it records (R70). -/
def coreFaultBy (s : State) (c : Iss) (w : Faulter) (gs : List Granule) (k : Client) : State :=
  if !canReport s c.part then s
  else
    let r := reportBatch s c.part w gs k
    modGroup (modPath r.2 c.gid c.live fun p => { p with wait := .faulted r.1, under := match k with
        | .fetch _ _ _ => p.wait
        | _ => .none }) c.gid fun g =>
      { g with batch := some r.1, release := none }

/-- The batch of the issuing instruction. -/
def coreFault (s : State) (c : Iss) (w : Faulter) (gs : List Granule) : State :=
  coreFaultBy s c w gs (.group c.gid c.live)

/-- What the records of the issuing instruction say (R68). -/
def Iss.faulter (c : Iss) (acc : Acc) : Faulter :=
  { acc := acc, ctx := c.ctx, core := c.core, group := c.groupSlot, client := 0, clause := c.p.addr, slot := c.p.slot }

/-! ## Traps (R186; 10 R216 to R219) -/

/-- Reads the trap-table entry of a cause and continues the path there; unhandled traps reset the context. -/
def trapEntry (s : State) (gid live cause : Nat) : State :=
  match issOf s ⟨gid, live⟩ with
  | none => s
  | some c =>
    let at_ := (ctxBase s c.part c.ctx 384 + 8 * cause) % 2 ^ 64
    let asked := rangeAsked s (.core c.core) c.part c.ctx .table true at_ 8
    match readRange s (.core c.core) c.part c.ctx .table true at_ 8 with
    | .trap _ _ => contextReset s c.part c.ctx 4 cause
    | .fault gs =>
      let w := waitOn s c (.trapRead cause)
      if canReport s c.part then
        let r := reportBatch w c.part (c.faulter .table) gs (.trapRead gid live)
        modPath r.2 gid live fun p => { p with hold := some r.1 }
      else w
    | .ok bytes bad =>
      let e := leNat bytes
      if bad ∨ bitsOf e 48 16 = 0 ∨ e % 4 ≠ 0 then contextReset asked c.part c.ctx 4 cause
      else setPath asked gid live
        (some { freshPath (bitsOf e 0 48) 0 c.p.mask c.p.fmt (bitsOf e 48 16) with handler := some cause })

/-- Takes a trap with its resume point: pushes the TRAP record, writes TRAPINFO and enters the handler. With 512 places
in use the context is reset with reason 2; a dictionary trap of the first clause of its own handler is unhandled. -/
def takeTrapAt (s : State) (c : Iss) (cause lane addr rAddr rSlot : Nat) : State :=
  if (cause = causeDictUndefined ∨ cause = causeDictHandle) ∧ c.p.handler = some cause then
    contextReset s c.part c.ctx 4 cause
  else if 512 ≤ c.g.stack.length then contextReset s c.part c.ctx 2 causeStack
  else
    let info : TrapInfo :=
      { cause := cause, lane := lane, slot := c.p.slot, pslot := c.live, addr := BitVec.ofNat 64 addr }
    let r : Rec :=
      { kind := .trap, addr := rAddr, slot := rSlot, cause := cause, mask := c.p.mask, fmt := c.p.fmt
        handle := c.p.handle, handler := if rAddr = c.p.addr then c.p.handler else none
        orig := if cause = causeWatchpoint then some (rAddr, rSlot) else none }
    trapEntry (modGroup s c.gid fun g => { pushRec g r with trapinfo := info }) c.gid c.live cause

/-- A trap that resumes at the trapped instruction. -/
def takeTrap (s : State) (c : Iss) (cause lane addr : Nat) : State :=
  takeTrapAt s c cause lane addr c.p.addr c.p.slot

/-- The slot that follows the issued instruction: slot 0 of the next clause behind the last (R218). -/
def following (p : Path) : Nat × Nat :=
  if atClauseEnd p then (nextClause p, 0) else (p.addr, p.slot + slotWidth p)

/-- A trap of an instruction that has retired: SOFTWARE and BREAKPOINT. -/
def takeTrapAfter (s : State) (c : Iss) (cause addr : Nat) : State :=
  let f := following c.p
  takeTrapAt (modGroup s c.gid fun g => countRetired g (atClauseEnd c.p)) c cause 0 addr f.1 f.2

/-- ILLEGAL_OPERAND and the other causes whose ADDR is the clause address (R217). -/
def trapClauseAddr (s : State) (c : Iss) (cause : Nat) : State := takeTrap s c cause 0 c.p.addr

def illegalOperand (s : State) (c : Iss) : State := trapClauseAddr s c causeOperand

/-- DATA_POISON of the lowest lane that reads a poisoned element (04 R98). -/
def trapPoison (s : State) (c : Iss) (lane : Nat) : State := takeTrap s c causePoison lane 0

/-- RTT (R186, R218): the returning lanes leave the topmost TRAP record that holds them and resume at its point, with an issue
count of 0 (log 22). None when no record contains them. -/
def returnFromTrap (g : Group) (live : Nat) (p : Path) : Option Group :=
  match topRec g .trap p.mask with
  | none => none
  | some r =>
    let left := r.mask &&& ~~~p.mask
    let g1 := { g with stack := replaceTop .trap p.mask (if left = 0 then none else some { r with mask := left }) g.stack }
    some (g1.setLive live (some
      { freshPath r.addr r.slot p.mask r.fmt r.handle with
        noWait := true, resumed := true, handler := r.handler
        exempt := decide (r.orig = some (r.addr, r.slot)) }))

/-! ## Completion flags and operations in flight (11 R239) -/

/-- The flag a clause counts on: SETA of data-returning operations, SETB of sending ones. -/
def setFlag (p : Path) (b : Bool) : Option Nat :=
  match p.clause with
  | none => none
  | some cl =>
    let f := bitsOf cl.header.toNat (if b then 24 else 20) 4
    if f < 12 then some f else none

def flagCount (g : Group) (f : Option Nat) : Nat :=
  match f with
  | none => 0
  | some k => spGet 0 g.flags k

/-- Whether an operation of the flag must stall at issue (R239: the counter would reach 64). -/
def flagFull (g : Group) (f : Option Nat) : Bool := decide (63 ≤ flagCount g f)

def addFlag (g : Group) (f : Option Nat) : Group :=
  match f with
  | none => g
  | some k => { g with flags := spSet 0 g.flags k (spGet 0 g.flags k + 1) }

def subFlag (g : Group) (f : Option Nat) : Group :=
  match f with
  | none => g
  | some k => { g with flags := spSet 0 g.flags k (spGet 0 g.flags k - 1) }

/-- Starts an operation: it counts on its flag and is in flight under a number of its own. -/
def startOp (s : State) (o : OpRec) : State :=
  let s1 := modGroup s o.gid fun g => addFlag g o.flag
  { s1 with ops := spPut s1.ops s.order o, order := s.order + 1 }

end Sys2Proof.Machine
end

