-- ==== Sys2Proof/WellFormed.lean ====
section
/-!
DEFINITION. Well-formed instructions: the checks of a long form that read its fields alone (11 R251 to R254; 12 R267).
A long form that breaks one still decodes; its meaning traps ILLEGAL_OPERAND.
-/
namespace Sys2Proof

/-- A program instruction, which has an encoding; the other rows of the opcode table are machine events. -/
def Instr.isProgram (i : Instr) : Bool := i.fields.isSome

/-- G is 0 to 47 or 63 (R254). -/
def Fields.guardLegal (f : Fields) : Bool := decide (f.g.toNat < 48) || f.g == 63

/-- G = 63 and GN = 0: the guard of the path-wide role (12 R267). -/
def Fields.guardPathWide (f : Fields) : Bool := f.g == 63 && f.gn == 0

/-- The instructions whose guard is path-wide (12 R267). -/
def Instr.pathWide : Instr → Bool
  | .bra _ | .join _ | .jmpi _ | .call _ | .calli _ | .calld _ | .ret _ | .yield _ | .setfmt _ | .dict _ | .ffence _
  | .rtt _ => true
  | _ => false

/-- The instructions of the MEM format, whose X names a size from 0 to 4 (R252, R253). -/
def Instr.memFormat : Instr → Bool
  | .calld _ | .icinv _ | .ld _ | .st _ | .lds _ | .sts _ | .pft _ | .atom _ | .acas _ | .atoms _ | .lda _ | .stl _
  | .cinv _ => true
  | _ => false

/-- The branch formats BR and BD, in which D and X are unused and must be zero (R252, R253). -/
def Instr.branchFormat : Instr → Bool
  | .bra _ | .bany _ | .ball _ | .bnone _ | .bdiv _ | .call _ => true
  | _ => false

/-- Why an instruction is ill-formed. -/
inductive IllFormed where
  | notProgram
  | badGuard
  | guardNotPathWide
  | badMemSize
  | unusedBranchField
  deriving DecidableEq, Repr

/-- The first check that an instruction breaks; none when it is well-formed. -/
def Instr.illFormed (i : Instr) : Option IllFormed :=
  match i.fields with
  | none => some .notProgram
  | some f =>
    if !f.guardLegal then some .badGuard
    else if i.pathWide && !f.guardPathWide then some .guardNotPathWide
    else if i.memFormat && decide (4 < f.x.toNat) then some .badMemSize
    else if i.branchFormat && (f.d != 0 || f.x != 0 || f.mod != 0) then some .unusedBranchField
    else none

def Instr.WellFormed (i : Instr) : Prop := i.illFormed = none

end Sys2Proof
end

