-- ==== Sys2Proof/Machine/Flags.lean ====
section
/-!
DEFINITION. Predicates, guards, compare conditions, and the completion of operations with their flags
(11 R239, R254; 12 R267, R268, R295).
-/
namespace Sys2Proof.Machine

/-! ## Guards -/

/-- The lanes in which a predicate is 1; pt, code 63, is 1 in every lane. -/
def Group.predMask (g : Group) (p : Nat) : Mask := if p = 63 then BitVec.allOnes 64 else spGet 0 g.preds p

/-- The lanes of the group in which the guard holds (R254). -/
def guardMask (g : Group) (f : Fields) : Mask :=
  if f.gn = 1 then ~~~(g.predMask f.g.toNat) else g.predMask f.g.toNat

/-- The active lanes: the path's lanes in which the guard holds. -/
def active (c : Iss) (f : Fields) : Mask := c.p.mask &&& guardMask c.g f

/-- The lowest-numbered lane of a mask; 0 for none. -/
def lowLane (m : Mask) : Nat := (lanesOf m).headD 0

/-! ## Predicate positions (R268) -/

def predLegal (code : BitVec 9) : Bool := decide (code.toNat < 48) || code == 63

/-- A predicate source in a lane. -/
def predSrc (g : Group) (code : BitVec 9) (lane : Nat) : Bool := (g.predMask code.toNat).getLsbD lane

/-- Writes a predicate in some lanes; pt discards the result. -/
def Group.setPred (g : Group) (p : Nat) (lanes ones : Mask) : Group :=
  if p = 63 then g else { g with preds := spSet 0 g.preds p ((g.predMask p &&& ~~~lanes) ||| (ones &&& lanes)) }

/-- pq is p47. -/
def pq : Nat := 47

/-! ## Conditions (R295) -/

/-- cond of ICMP on two integers: 0 .eq, 1 .ne, 2 .lt, 3 .le, 4 .gt, 5 .ge. -/
def intCond (cc : Nat) (a b : Int) : Bool :=
  match cc with
  | 0 => decide (a = b)
  | 1 => decide (a ≠ b)
  | 2 => decide (a < b)
  | 3 => decide (a ≤ b)
  | 4 => decide (b < a)
  | _ => decide (b ≤ a)

/-! ## Register writes and completion -/

def Group.setV (g : Group) (reg lane : Nat) (x : Nat) (bad : Bool := false) : Group :=
  { g with
    vregs := spSet 0 g.vregs (reg * 64 + lane) (BitVec.ofNat 32 x)
    vpoison := spSet false g.vpoison (reg * 64 + lane) bad }

def Group.setS (g : Group) (reg : Nat) (x : Nat) (bad : Bool := false) : Group :=
  { g with sregs := spSet 0 g.sregs reg (BitVec.ofNat 32 x), spoison := spSet false g.spoison reg bad }

/-- One register write of an operation; a lane that has left every path discards its write (R271). -/
def applyWrite (g : Group) : RegWrite → Group
  | .vec reg lane value bad => if g.held.getLsbD lane then g.setV reg lane value.toNat bad else g
  | .any reg lane value bad => g.setV reg lane value.toNat bad
  | .scal reg value bad => g.setS reg value.toNat bad
  | .pred p lane value =>
    if g.held.getLsbD lane then g.setPred p (laneBit lane) (if value then laneBit lane else 0) else g

/-- Completes an operation in flight: its registers are written and its flag counts down (R239). -/
def completeOp (s : State) (id : Nat) : State :=
  match spFind s.ops id with
  | none => s
  | some o =>
    let s1 := modGroup s o.gid fun g => subFlag (o.writes.foldl applyWrite g) o.flag
    { s1 with ops := spDel s1.ops id }

/-- Adds register writes to an operation in flight, and takes one of its outstanding parts away. -/
def feedOp (s : State) (id : Nat) (ws : List RegWrite) : State :=
  { s with ops := spMod s.ops id fun o => { o with writes := o.writes ++ ws, left := o.left - 1 } }

end Sys2Proof.Machine
end

