-- ==== Sys2Proof/Machine/Operands.lean ====
section
/-!
DEFINITION. Operand codes, their legality, how they are read and written, and the shared shape of the instructions that
compute a value per lane or once on the scalar unit (08 R175 to R177; 11 R253 to R259; 04 R98).
-/
namespace Sys2Proof.Machine

/-! ## Codes (11 R256) -/

inductive Opnd where
  | v (n : Nat)
  | s (n : Nat)
  | ch (n : Nat) (nb : Bool)
  | zero
  | spec (code : Nat)
  | int (n : Nat)
  | flt (n : Nat)
  | tok (n : Nat)
  | bad
  deriving DecidableEq, Repr

def opnd (code : BitVec 9) : Opnd :=
  let n := code.toNat
  if n < 0x100 then .v n
  else if n < 0x140 then .s (n - 0x100)
  else if n < 0x150 then .ch (n - 0x140) false
  else if n < 0x160 then .ch (n - 0x150) true
  else if n = 0x160 then .zero
  else if n < 0x173 then .spec n
  else if n < 0x180 then .bad
  else if n < 0x1C0 then .int (n - 0x180)
  else if n < 0x1D0 then .flt (n - 0x1C0)
  else if n < 0x1E0 then .bad
  else if n < 0x1F0 then .tok (n - 0x1E0)
  else .bad

/-- The code that an unused operand field of some instructions holds. -/
def zeroCode : BitVec 9 := 0x160

/-- The per-lane special values: %lane, %wid, %widh, %pidx, %lin (08 R175). -/
def specPerLane (code : Nat) : Bool :=
  code == 0x161 || code == 0x162 || code == 0x163 || code == 0x16D || code == 0x16E

/-- A vector or per-lane operand. -/
def Opnd.isVec : Opnd → Bool
  | .v _ => true
  | .spec n => specPerLane n
  | _ => false

def Opnd.isScalarReg : Opnd → Bool
  | .s _ => true
  | _ => false

/-- A scalar, a constant, zero or a uniform special value. -/
def Opnd.isUniform : Opnd → Bool
  | .s _ => true
  | .zero => true
  | .int _ => true
  | .flt _ => true
  | .spec n => !specPerLane n
  | _ => false

/-! ## Types (11 R258) -/

/-- What an operand is read as. -/
inductive Ty where
  | w32      -- a 32-bit integer or raw word
  | q64      -- a 64-bit integer
  | f32
  | f64
  | f16x2
  | bf16x2
  deriving DecidableEq, Repr

def Ty.wide : Ty → Bool
  | .q64 => true
  | .f64 => true
  | _ => false

/-- The constants 0x1C0 to 0x1CF as exact values (11 R256). -/
def fltConst (n : Nat) : XReal :=
  match n with
  | 0 => .fin false 1 2
  | 1 => .fin false 1 1
  | 2 => .fin false 2 1
  | 3 => .fin false 4 1
  | 4 => .fin true 1 2
  | 5 => .fin true 1 1
  | 6 => .fin true 2 1
  | 7 => .fin true 4 1
  | 8 => .fin false 1 4
  | 9 => .fin false 8 1
  | 10 => inexact false fxLn2
  | 11 => inexact false (2 ^ (2 * fxP) / fxLn2)
  | 12 => inexact false (2 ^ (2 * fxP) / fxPi)
  | 13 => .inf false
  | 14 => .inf true
  | _ => .nan

/-- The bits of an exact value in an operand type (R258). -/
def tyConst (ty : Ty) (x : XReal) : Nat :=
  match ty with
  | .w32 => roundFmt 1 x .rne
  | .q64 => roundFmt 0 x .rne
  | .f32 => roundFmt 1 x .rne
  | .f64 => roundFmt 0 x .rne
  | .f16x2 => roundFmt 4 x .rne * (2 ^ 16 + 1)
  | .bf16x2 => roundFmt 3 x .rne * (2 ^ 16 + 1)

/-- The bits of an integer constant in an operand type. -/
def tyInt (ty : Ty) (n : Nat) : Nat :=
  match ty with
  | .w32 => n
  | .q64 => n
  | _ => tyConst ty (XReal.ofNat n)

/-! ## Legality (11 R257; 08 R176; 04 R76) -/

/-- A source of 32 or 64 bits that is no channel and no token. -/
def srcLegal (c : Iss) (wide : Bool) (o : Opnd) : Bool :=
  match o with
  | .v n => if wide then n % 2 == 0 && decide (n + 1 < c.g.nregs) else decide (n < c.g.nregs)
  | .s n => !wide || n % 2 == 0
  | .zero => true
  | .spec n => !wide || n == 0x162 || n == 0x16A
  | .int _ => true
  | .flt _ => true
  | _ => false

/-- A vector, scalar or zero destination. -/
def dstLegal (c : Iss) (wide : Bool) (o : Opnd) : Bool :=
  match o with
  | .v n => if wide then n % 2 == 0 && decide (n + 1 < c.g.nregs) else decide (n < c.g.nregs)
  | .s n => !wide || n % 2 == 0
  | .zero => true
  | _ => false

/-- A vector register, or zero, as destination. -/
def vdstLegal (c : Iss) (wide : Bool) (o : Opnd) : Bool := dstLegal c wide o && !o.isScalarReg

/-- A block of n vector registers from v_k on, inside the allocation. -/
def blockLegal (c : Iss) (k n : Nat) : Bool := decide (k + n ≤ c.g.nregs)

/-! ## Reading -/

def Group.getV (g : Group) (reg lane : Nat) : Nat := (spGet 0 g.vregs (reg * 64 + lane)).toNat
def Group.getS (g : Group) (reg : Nat) : Nat := (spGet 0 g.sregs reg).toNat
def Group.badV (g : Group) (reg lane : Nat) : Bool := spGet false g.vpoison (reg * 64 + lane)
def Group.badS (g : Group) (reg : Nat) : Bool := spGet false g.spoison reg

/-- Whether the team's launch is a population (08 R193). -/
def isPopulation (s : State) (t : Team) : Bool :=
  match getNode s t.node with
  | some n => (n.descs.headD ⟨0, 0, 0, 0, 0, 0, 0, false, false, false, 0, 0, 0, 0⟩).population
  | none => false

/-- A lane's identifiers: work id, %pidx and %lin (08 R175, R177, R194). -/
def laneIds (s : State) (t : Team) (g : Group) (lane : Nat) : LaneIds :=
  match spFind g.ids lane with
  | some i => i
  | none =>
    let w := 64 * (t.index * t.tsize + g.index) + lane
    if isPopulation s t then ⟨w, w, w⟩ else ⟨w, 0, 0⟩

/-- The arithmetic clocks that a cluster has counted since reset (00 R8). -/
def clkOf (s : State) (cluster : Nat) : Nat := (700 * s.clk - (getCluster s cluster).lag) / 700

/-- A special value in a lane, as 64 bits where R176 gives it two words. -/
def specVal (s : State) (c : Iss) (wide : Bool) (code lane : Nat) : Nat :=
  let lo (x : Nat) : Nat := if wide then x % 2 ^ 64 else x % 2 ^ 32
  let node := getNode s c.t.node
  match code with
  | 0x161 => lane % 2 ^ 32
  | 0x162 => lo (laneIds s c.t c.g lane).wid
  | 0x163 => (laneIds s c.t c.g lane).wid / 2 ^ 32 % 2 ^ 32
  | 0x164 => c.g.index % 2 ^ 32
  | 0x165 => c.t.index % 2 ^ 32
  | 0x166 => c.t.stage % 2 ^ 32
  | 0x167 => c.t.tsize % 2 ^ 32
  | 0x168 => c.core % 2 ^ 32
  | 0x169 => clusterOf c.core % 2 ^ 32
  | 0x16A => lo (clkOf s (clusterOf c.core))
  | 0x16B => clkOf s (clusterOf c.core) / 2 ^ 32 % 2 ^ 32
  | 0x16C => (node.map (·.gen)).getD 0 % 2 ^ 32
  | 0x16D => (laneIds s c.t c.g lane).pidx % 2 ^ 32
  | 0x16E => (laneIds s c.t c.g lane).lin % 2 ^ 32
  | 0x16F => c.p.mask.toNat % 2 ^ 32
  | 0x170 => c.p.mask.toNat / 2 ^ 32
  | 0x171 => c.part % 2 ^ 32
  | _ => (node.map (·.launch)).getD 0 % 2 ^ 32

/-- The bits of a source in a lane. -/
def srcVal (s : State) (c : Iss) (ty : Ty) (o : Opnd) (lane : Nat) : Nat :=
  match o with
  | .v n => if ty.wide then c.g.getV n lane + 2 ^ 32 * c.g.getV (n + 1) lane else c.g.getV n lane
  | .s n => if ty.wide then c.g.getS n + 2 ^ 32 * c.g.getS (n + 1) else c.g.getS n
  | .spec n =>
    match ty with
    | .f64 => specVal s c true n lane
    | .q64 => specVal s c true n lane
    | _ => specVal s c false n lane
  | .int n => tyInt ty n
  | .flt n => tyConst ty (fltConst n)
  | _ => 0

/-- Whether a source reads a poisoned element in a lane. -/
def srcBad (c : Iss) (wide : Bool) (o : Opnd) (lane : Nat) : Bool :=
  match o with
  | .v n => c.g.badV n lane || (wide && c.g.badV (n + 1) lane)
  | .s n => c.g.badS n || (wide && c.g.badS (n + 1))
  | _ => false

/-! ## Writing -/

/-- Writes a vector destination, or discards the result, in one lane. -/
def writeLane (g : Group) (wide : Bool) (o : Opnd) (lane x : Nat) : Group :=
  match o with
  | .v n => if wide then (g.setV n lane (x % 2 ^ 32)).setV (n + 1) lane (x / 2 ^ 32) else g.setV n lane x
  | _ => g

/-- Writes a scalar destination once, or discards the result. -/
def writeScal (g : Group) (wide : Bool) (o : Opnd) (x : Nat) : Group :=
  match o with
  | .s n => if wide then (g.setS n (x % 2 ^ 32)).setS (n + 1) (x / 2 ^ 32) else g.setS n x
  | _ => g

/-! ## The shared shape of value instructions -/

/-- Where the result of a value instruction goes. -/
inductive Dst where
  | reg (code : BitVec 9) (wide : Bool)
  | pred (code : BitVec 9)
  deriving DecidableEq, Repr

/-- A value instruction: its result, its sources with their types, its predicate sources, whether its other fields are
legal, and what it computes from the source bits. A predicate result is 0 or 1. -/
structure ValueOp where
  dst   : Dst
  srcs  : List (BitVec 9 × Ty)
  preds : List (BitVec 9) := []
  legal : Bool
  fn    : List Nat → List Bool → Nat

def Dst.isScalar : Dst → Bool
  | .reg code _ => (opnd code).isScalarReg
  | .pred _ => false

def Dst.isVecReg : Dst → Bool
  | .reg code _ => (opnd code).isVec
  | .pred _ => false

def Dst.legal (c : Iss) : Dst → Bool
  | .reg code wide => dstLegal c wide (opnd code)
  | .pred code => predLegal code

def ValueOp.anyVec (v : ValueOp) : Bool := v.srcs.any fun e => (opnd e.1).isVec

/-- Whether the instruction executes on the scalar unit (11 R259). -/
def ValueOp.onScalar (v : ValueOp) : Bool := !v.anyVec && !v.dst.isVecReg

/-- The checks of decode: guard, operand codes, fields, and no scalar destination with a per-lane source (R253, R257,
R259). -/
def ValueOp.ok (v : ValueOp) (c : Iss) (f : Fields) : Bool :=
  f.guardLegal && v.legal && v.dst.legal c && v.srcs.all (fun e => srcLegal c e.2.wide (opnd e.1))
    && v.preds.all predLegal && !(v.dst.isScalar && v.anyVec)

def ValueOp.badIn (v : ValueOp) (c : Iss) (lane : Nat) : Bool :=
  v.srcs.any fun e => srcBad c e.2.wide (opnd e.1) lane

/-- The result in a lane. -/
def ValueOp.value (v : ValueOp) (s : State) (c : Iss) (lane : Nat) : Nat :=
  v.fn (v.srcs.map fun e => srcVal s c e.2 (opnd e.1) lane) (v.preds.map fun p => predSrc c.g p lane)

/-- The mask of the lanes in which a test holds. -/
def maskWhere (ls : List Nat) (t : Nat → Bool) : Mask := maskOf (ls.filter t)

/-- Writes the results of the vector lanes. -/
def ValueOp.writeVec (v : ValueOp) (s : State) (c : Iss) (act : Mask) (g : Group) : Group :=
  match v.dst with
  | .reg code wide => (lanesOf act).foldl (fun g l => writeLane g wide (opnd code) l (v.value s c l)) g
  | .pred code => g.setPred code.toNat act (maskWhere (lanesOf act) fun l => v.value s c l != 0)

/-- Writes the one result of the scalar unit; a predicate takes it in every active lane (R268). -/
def ValueOp.writeOnce (v : ValueOp) (s : State) (c : Iss) (act : Mask) (g : Group) : Group :=
  let x := v.value s c (lowLane act)
  match v.dst with
  | .reg code wide => writeScal g wide (opnd code) x
  | .pred code => g.setPred code.toNat act (if x != 0 then act else 0)

/-- What the group is after the instruction has computed, before it retires. -/
def ValueOp.result (v : ValueOp) (scalarUnit : Bool) (s : State) (c : Iss) (act : Mask) (g : Group) : Group :=
  if scalarUnit then v.writeOnce s c act g else v.writeVec s c act g

/-- Runs a value instruction of an opcode marked "0 or 1" (`vectorOnly` false) or of class 1. -/
def runValue (s : State) (c : Iss) (f : Fields) (vectorOnly : Bool) (v : ValueOp) : State :=
  let act := active c f
  let scalarUnit := !vectorOnly && v.onScalar
  if !v.ok c f then illegalOperand s c
  else if act = 0 then retire s c
  else match (lanesOf act).find? (v.badIn c) with
    | some l => trapPoison s c (if scalarUnit then 0 else l)
    | none => retire (modGroup s c.gid (v.result scalarUnit s c act)) c

/-- The shape of the other instructions with a mask guard: decode checks, no effect without active lanes, then the body. -/
def runMasked (s : State) (c : Iss) (f : Fields) (legal : Bool) (body : Mask → State) : State :=
  if !(f.guardLegal && legal) then illegalOperand s c
  else if active c f = 0 then retire s c
  else body (active c f)

/-- The shape of the instructions with a path-wide guard (12 R267). -/
def runPathWide (s : State) (c : Iss) (f : Fields) (legal : Bool) (body : State) : State :=
  if !(f.guardPathWide && legal) then illegalOperand s c else body

/-- All operand fields named are zero. -/
def allZero (l : List (BitVec 9)) : Bool := l.all fun x => x == 0

end Sys2Proof.Machine
end

