-- ==== Sys2Proof/Machine/Integer.lean ====
section
/-!
DEFINITION. Integer, logic, compare, select, move, predicate and lane-transfer instructions but for MOV, whose channel
operands stand in Machine/Channel.lean (12 R287 to R300).
-/
namespace Sys2Proof.Machine

/-! ## Types (R255, R287) -/

/-- The integer type of MOD[2:0]: 0 .i32, 1 .n32, 2 .i64, 3 .n64, 4 .b32, 5 .b64. -/
def ityp (f : Fields) : Nat := f.mod.toNat % 8
def itypOk (f : Fields) : Bool := decide (ityp f < 6)
def iwid (t : Nat) : Nat := if t = 2 ∨ t = 3 ∨ t = 5 then 64 else 32
def iwide (t : Nat) : Bool := t == 2 || t == 3 || t == 5
def isigned (t : Nat) : Bool := t == 0 || t == 2
/-- The operand type of a width. -/
def ity (t : Nat) : Ty := if iwide t then .q64 else .w32

def inum (t x : Nat) : Int := if isigned t then sext (iwid t) x else ((x % 2 ^ iwid t : Nat) : Int)
def iwrap (t : Nat) (v : Int) : Nat := wrapBits (iwid t) v
def ilo (t : Nat) : Int := if isigned t then -(2 ^ (iwid t - 1) : Nat) else 0
def ihi (t : Nat) : Int := if isigned t then (2 ^ (iwid t - 1) : Nat) - 1 else (2 ^ iwid t : Nat) - 1
def clampInt (v lo hi : Int) : Int := if v < lo then lo else if hi < v then hi else v
def isatr (t : Nat) (v : Int) : Nat := iwrap t (clampInt v (ilo t) (ihi t))

/-- MOD[5]: the RI form of an opcode marked "RR or RI" (R255). -/
def riForm (f : Fields) : Bool := bitOf f.mod.toNat 5
/-- MOD[4:3]. -/
def mod43 (f : Fields) : Nat := bitsOf f.mod.toNat 3 2

/-- IMM18 in a type: sign-extended for .i and .b, zero-extended for .n and for amounts (R287). -/
def imm18Val (t : Nat) (amount : Bool) (f : Fields) : Nat :=
  if amount ∨ t = 1 ∨ t = 3 then f.imm18.toNat else wrapBits (iwid t) f.imm18.toInt

/-- The second operand of an opcode that is RR or RI: its source list entry, if any, and how to find its bits. -/
def secondSrc (f : Fields) (ty : Ty) : List (BitVec 9 × Ty) := if riForm f then [] else [(f.b, ty)]
def secondVal (f : Fields) (t : Nat) (amount : Bool) (xs : List Nat) : Nat :=
  if riForm f then imm18Val t amount f else xs.getD 1 0
/-- C is unused in the RR form and part of IMM18 in the RI form. -/
def cUnused (f : Fields) : Bool := riForm f || f.c == 0

/-- A two-operand opcode that is RR or RI. -/
def binOp (f : Fields) (amount : Bool) (legal : Bool) (fn : Nat → Nat → Nat) : ValueOp :=
  let t := ityp f
  { dst := .reg f.d (iwide t)
    srcs := (f.a, ity t) :: secondSrc f (if amount then .w32 else ity t)
    legal := itypOk f && f.x == 0 && cUnused f && legal
    fn := fun xs _ => fn (xs.getD 0 0) (secondVal f t amount xs) }

/-! ## Arithmetic (R288, R289) -/

/-- IADD and ISUB: MOD[3] saturates, not for .b types; MOD[4] is zero. -/
def addOp (f : Fields) (op : Int → Int → Int) : ValueOp :=
  let t := ityp f
  let sat := mod43 f == 1
  binOp f false (decide (mod43 f ≤ 1) && !(sat && decide (4 ≤ t))) fun a b =>
    if sat then isatr t (op (inum t a) (inum t b)) else iwrap t (op (inum t a) (inum t b))

def execIadd (f : Fields) (s : State) : Out := onPath s fun c => runValue s c f false (addOp f (· + ·))
def execIsub (f : Fields) (s : State) : Out := onPath s fun c => runValue s c f false (addOp f (· - ·))

/-- IMUL. -/
def execImul (f : Fields) (s : State) : Out :=
  onPath s fun c => runValue s c f false
    (binOp f false (mod43 f == 0) fun a b => iwrap (ityp f) (inum (ityp f) a * inum (ityp f) b))

/-- A three-source or two-source opcode that is RR only: MOD[5:3] as given. -/
def rrOp (f : Fields) (srcs : List (BitVec 9 × Ty)) (legal : Bool) (wide : Bool) (fn : List Nat → Nat) : ValueOp :=
  { dst := .reg f.d wide, srcs := srcs, legal := itypOk f && f.x == 0 && legal, fn := fun xs _ => fn xs }

/-- MOD[5:3] is zero. -/
def mod53zero (f : Fields) : Bool := decide (f.mod.toNat < 8)

/-- IMULH: the high half, exact product divided by 2^w. -/
def execImulh (f : Fields) (s : State) : Out :=
  let t := ityp f
  onPath s fun c => runValue s c f false
    (rrOp f [(f.a, ity t), (f.b, ity t)] (mod53zero f && f.c == 0) (iwide t) fun xs =>
      iwrap t (Int.fdiv (inum t (xs.getD 0 0) * inum t (xs.getD 1 0)) ((2 ^ iwid t : Nat) : Int)))

/-- IMAD. -/
def execImad (f : Fields) (s : State) : Out :=
  let t := ityp f
  onPath s fun c => runValue s c f false
    (rrOp f [(f.a, ity t), (f.b, ity t), (f.c, ity t)] (mod53zero f) (iwide t) fun xs =>
      iwrap t (inum t (xs.getD 0 0) * inum t (xs.getD 1 0) + inum t (xs.getD 2 0)))

/-- Quotient and remainder of R289. -/
def idivVal (t : Nat) (rem : Bool) (a b : Int) : Nat :=
  if b = 0 then (if rem then iwrap t a else 2 ^ iwid t - 1)
  else if rem then iwrap t (Int.tmod a b) else iwrap t (Int.tdiv a b)

/-- IDIV: MOD[3] selects the remainder. -/
def execIdiv (f : Fields) (s : State) : Out :=
  let t := ityp f
  onPath s fun c => runValue s c f false
    (rrOp f [(f.a, ity t), (f.b, ity t)] (decide (f.mod.toNat < 16) && f.c == 0) (iwide t) fun xs =>
      idivVal t (mod43 f == 1) (inum t (xs.getD 0 0)) (inum t (xs.getD 1 0)))

def execImin (f : Fields) (s : State) : Out :=
  onPath s fun c => runValue s c f false
    (binOp f false (mod43 f == 0) fun a b => iwrap (ityp f) (min (inum (ityp f) a) (inum (ityp f) b)))

def execImax (f : Fields) (s : State) : Out :=
  onPath s fun c => runValue s c f false
    (binOp f false (mod43 f == 0) fun a b => iwrap (ityp f) (max (inum (ityp f) a) (inum (ityp f) b)))

/-! ## Logic tables (R290) -/

/-- TT: TT[7:5] = MOD[5:3], TT[4:1] = X, TT[0] = MOD[0]. -/
def logicTable (f : Fields) : Nat := bitsOf f.mod.toNat 3 3 * 32 + f.x.toNat * 2 + f.mod.toNat % 2

/-- Result bits of a logic table over w bits. -/
def logicBits (tt : Nat) : Nat → Nat → Nat → Nat → Nat
  | 0, _, _, _ => 0
  | w + 1, a, b, c =>
    (if bitOf tt (a % 2 + 2 * (b % 2) + 4 * (c % 2)) then 1 else 0) + 2 * logicBits tt w (a / 2) (b / 2) (c / 2)

/-- LOGT: MOD[2:1] is the width, 00 for 32 bits and 01 for 64. -/
def execLogt (f : Fields) (s : State) : Out :=
  let w := bitsOf f.mod.toNat 1 2
  let ty : Ty := if w = 1 then .q64 else .w32
  onPath s fun c => runValue s c f false
    { dst := .reg f.d (w == 1), srcs := [(f.a, ty), (f.b, ty), (f.c, ty)], legal := decide (w ≤ 1)
      fn := fun xs _ => logicBits (logicTable f) (if w = 1 then 64 else 32) (xs.getD 0 0) (xs.getD 1 0) (xs.getD 2 0) }

def bitNat (b : Bool) : Nat := if b then 1 else 0

/-- PLOGT: predicate positions, per lane. -/
def execPlogt (f : Fields) (s : State) : Out :=
  onPath s fun c => runValue s c f true
    { dst := .pred f.d, srcs := [], preds := [f.a, f.b, f.c], legal := bitsOf f.mod.toNat 1 2 == 0
      fn := fun _ ps => bitNat (bitOf (logicTable f)
        (bitNat (ps.getD 0 false) + 2 * bitNat (ps.getD 1 false) + 4 * bitNat (ps.getD 2 false))) }

/-! ## Shifts and bit fields (R291 to R294) -/

def shlVal (t a n : Nat) : Nat := if iwid t ≤ n then 0 else a * 2 ^ n % 2 ^ iwid t
def shrVal (t a n : Nat) : Nat :=
  if isigned t then iwrap t (Int.fdiv (inum t a) ((2 ^ min n (iwid t - 1) : Nat) : Int))
  else if iwid t ≤ n then 0 else a / 2 ^ n

def execShl (f : Fields) (s : State) : Out :=
  onPath s fun c => runValue s c f false (binOp f true (mod43 f == 0) (shlVal (ityp f)))
def execShr (f : Fields) (s : State) : Out :=
  onPath s fun c => runValue s c f false (binOp f true (mod43 f == 0) (shrVal (ityp f)))

/-- FSHF of R292: a is the high half. -/
def fshfVal (w : Nat) (right : Bool) (a b n : Nat) : Nat :=
  let u := a * 2 ^ w + b
  let k := n % w
  if right then u / 2 ^ k % 2 ^ w else u * 2 ^ k / 2 ^ w % 2 ^ w

def execFshf (f : Fields) (s : State) : Out :=
  let t := ityp f
  onPath s fun c => runValue s c f false
    (rrOp f [(f.a, ity t), (f.b, ity t), (f.c, .w32)] (decide (f.mod.toNat < 16)) (iwide t) fun xs =>
      fshfVal (iwid t) (mod43 f == 1) (xs.getD 0 0) (xs.getD 1 0) (xs.getD 2 0))

/-- BFX of R293: pos = c[7:0], len = c[15:8]. -/
def bfxVal (t a ctl : Nat) : Nat :=
  let w := iwid t
  let pos := ctl % 256
  let n := min (ctl / 256 % 256) w
  if n = 0 then 0
  else
    let x := (Int.fdiv (inum t a) ((2 ^ pos : Nat) : Int))
    let field := wrapBits n x
    if isigned t then wrapBits w (sext n field) else field

def execBfx (f : Fields) (s : State) : Out :=
  let t := ityp f
  onPath s fun c => runValue s c f false
    (rrOp f [(f.a, ity t), (f.c, .w32)] (mod53zero f && f.b == 0) (iwide t) fun xs =>
      bfxVal t (xs.getD 0 0) (xs.getD 1 0))

/-- BFI of R293. -/
def bfiVal (w a b ctl : Nat) : Nat :=
  let pos := ctl % 256
  let len := ctl / 256 % 256
  if w ≤ pos ∨ len = 0 then b
  else
    let n := min len (w - pos)
    b - bitsOf b pos n * 2 ^ pos + a % 2 ^ n * 2 ^ pos

def execBfi (f : Fields) (s : State) : Out :=
  let t := ityp f
  onPath s fun c => runValue s c f false
    (rrOp f [(f.a, ity t), (f.b, ity t), (f.c, .w32)] (mod53zero f) (iwide t) fun xs =>
      bfiVal (iwid t) (xs.getD 0 0) (xs.getD 1 0) (xs.getD 2 0))

def clzVal (w a : Nat) : Nat := if a = 0 then w else w - 1 - Nat.log2 a
def brevVal : Nat → Nat → Nat
  | 0, _ => 0
  | w + 1, a => a % 2 * 2 ^ w + brevVal w (a / 2)

/-- POPC: the destination is one 32-bit register. -/
def execPopc (f : Fields) (s : State) : Out :=
  let t := ityp f
  onPath s fun c => runValue s c f false
    (rrOp f [(f.a, ity t)] (mod53zero f && allZero [f.b, f.c]) false fun xs => popBits (iwid t) (xs.getD 0 0))
/-- CLZ: the destination is one 32-bit register. -/
def execClz (f : Fields) (s : State) : Out :=
  let t := ityp f
  onPath s fun c => runValue s c f false
    (rrOp f [(f.a, ity t)] (mod53zero f && allZero [f.b, f.c]) false fun xs => clzVal (iwid t) (xs.getD 0 0))
def execBrev (f : Fields) (s : State) : Out :=
  let t := ityp f
  onPath s fun c => runValue s c f false
    (rrOp f [(f.a, ity t)] (mod53zero f && allZero [f.b, f.c]) (iwide t) fun xs => brevVal (iwid t) (xs.getD 0 0))

/-- Byte j of PERMB's result (R294). -/
def permByte (wide : Bool) (a b ctl j : Nat) : Nat :=
  let nib := ctl / 16 ^ j % 16
  let y (i : Nat) : Nat :=
    if wide then (if i < 8 then a / 256 ^ i % 256 else b / 256 ^ (i - 8) % 256)
    else if i < 4 then a / 256 ^ i % 256 else b / 256 ^ (i - 4) % 256
  if wide then y nib
  else if 8 ≤ nib then (if 128 ≤ y (nib % 8) then 255 else 0) else y nib

def permbVal (wide : Bool) (a b ctl : Nat) : Nat :=
  (List.range (if wide then 8 else 4)).foldl (fun r j => r + permByte wide a b ctl j * 256 ^ j) 0

def execPermb (f : Fields) (s : State) : Out :=
  let t := ityp f
  onPath s fun c => runValue s c f false
    (rrOp f [(f.a, ity t), (f.b, ity t), (f.c, .w32)] (mod53zero f) (iwide t) fun xs =>
      permbVal (iwide t) (xs.getD 0 0) (xs.getD 1 0) (xs.getD 2 0))

/-! ## Compare, select, constants (R295 to R297) -/

/-- ICMP. -/
def execIcmp (f : Fields) (s : State) : Out :=
  let t := ityp f
  onPath s fun c => runValue s c f false
    { dst := .pred f.d, srcs := (f.a, ity t) :: secondSrc f (ity t)
      legal := itypOk f && mod43 f == 0 && decide (f.x.toNat ≤ 5) && cUnused f
      fn := fun xs _ => bitNat (intCond f.x.toNat (inum t (xs.getD 0 0)) (inum t (secondVal f t false xs))) }

/-- ISEL: MOD[3] inverts the predicate. -/
def execIsel (f : Fields) (s : State) : Out :=
  let t := ityp f
  onPath s fun c => runValue s c f false
    { dst := .reg f.d (iwide t), srcs := [(f.a, ity t), (f.b, ity t)], preds := [f.c]
      legal := itypOk f && decide (f.mod.toNat < 16) && f.x == 0
      fn := fun xs ps => if ps.getD 0 false != (mod43 f == 1) then xs.getD 0 0 else xs.getD 1 0 }

/-- MOVI: IMM27, zero-extended for .n types, sign-extended otherwise. -/
def moviVal (t : Nat) (f : Fields) : Nat :=
  if t = 1 ∨ t = 3 then f.imm27.toNat else wrapBits (iwid t) f.imm27.toInt

def execMovi (f : Fields) (s : State) : Out :=
  let t := ityp f
  onPath s fun c => runValue s c f false
    { dst := .reg f.d (iwide t), srcs := [], legal := itypOk f && mod53zero f && f.x == 0
      fn := fun _ _ => moviVal t f }

/-- movhi of R297. -/
def movhiVal (w a imm q : Nat) : Nat :=
  let pos := 14 + 18 * q
  a % 2 ^ pos + imm * 2 ^ pos % 2 ^ w

def movhiLegal (f : Fields) : Bool :=
  let t := ityp f
  let q := f.x.toNat
  itypOk f && mod53zero f && decide (q ≤ 2) && (q == 0 || iwide t)
    && !(q == 2 && f.imm18.toNat / 2 ^ 14 != 0)

def execMovhi (f : Fields) (s : State) : Out :=
  let t := ityp f
  onPath s fun c => runValue s c f false
    { dst := .reg f.d (iwide t), srcs := [(f.a, ity t)], legal := movhiLegal f
      fn := fun xs _ => movhiVal (iwid t) (xs.getD 0 0) f.imm18.toNat f.x.toNat }

/-! ## Predicates and lanes (R298, R299) -/

/-- PMOV: X[1:0] selects the form; the type is .b32 for a vector and .b64 for a scalar pair. -/
def pmovLegal (c : Iss) (f : Fields) : Bool :=
  mod53zero f && decide (f.x.toNat < 4) && allZero [f.b, f.c] &&
    match f.x.toNat with
    | 0 => ityp f == 4 && (opnd f.d).isVec && dstLegal c false (opnd f.d) && predLegal f.a
    | 1 => ityp f == 4 && predLegal f.d && srcLegal c false (opnd f.a)
    | 2 => ityp f == 5 && predLegal f.a && (match opnd f.d with
      | .s n => n % 2 == 0
      | _ => false)
    | _ => ityp f == 5 && predLegal f.d && (match opnd f.a with
      | .s n => n % 2 == 0
      | _ => false)

/-- What PMOV does to the group in the active lanes. -/
def pmovGroup (s : State) (c : Iss) (f : Fields) (act : Mask) (g : Group) : Group :=
  match f.x.toNat with
  | 0 => (lanesOf act).foldl (fun g l => writeLane g false (opnd f.d) l (bitNat (predSrc c.g f.a l))) g
  | 1 => g.setPred f.d.toNat act (maskWhere (lanesOf act) fun l => srcVal s c .w32 (opnd f.a) l != 0)
  | 2 => writeScal g true (opnd f.d) (act &&& c.g.predMask f.a.toNat).toNat
  | _ => g.setPred f.d.toNat act (BitVec.ofNat 64 (srcVal s c .q64 (opnd f.a) 0))

def pmovBad (c : Iss) (f : Fields) (l : Nat) : Bool :=
  match f.x.toNat with
  | 1 => srcBad c false (opnd f.a) l
  | 3 => srcBad c true (opnd f.a) l
  | _ => false

/-- PMOV (R298). -/
def execPmov (f : Fields) (s : State) : Out :=
  onPath s fun c => runMasked s c f (pmovLegal c f) fun act =>
    match (lanesOf act).find? (pmovBad c f) with
    | some l => trapPoison s c l
    | none => retire (modGroup s c.gid (pmovGroup s c f act)) c

/-- READLANE and WRITELANE have type .b32 or .b64, and B is uniform and of that type (R287, R299). -/
def lanePick (c : Iss) (f : Fields) : Bool :=
  (ityp f == 4 || ityp f == 5) && mod53zero f && f.x == 0 && f.c == 0
    && (opnd f.b).isUniform && srcLegal c (iwide (ityp f)) (opnd f.b)

/-- READLANE: a scalar destination and a vector source, read at issue whatever the lane's state. -/
def execReadlane (f : Fields) (s : State) : Out :=
  onPath s fun c =>
    let wide := iwide (ityp f)
    runMasked s c f (lanePick c f && (opnd f.d).isScalarReg && dstLegal c wide (opnd f.d)
        && (match opnd f.a with
          | .v _ => true
          | _ => false) && srcLegal c wide (opnd f.a)) fun _ =>
      let n := srcVal s c (ity (ityp f)) (opnd f.b) 0 % 64
      if srcBad c wide (opnd f.b) 0 then trapPoison s c 0
      else if srcBad c wide (opnd f.a) n then trapPoison s c n
      else retire (modGroup s c.gid fun g =>
        writeScal g wide (opnd f.d) (srcVal s c (ity (ityp f)) (opnd f.a) n)) c

/-- WRITELANE: a vector destination and a uniform source; no effect when the lane is not active. -/
def execWritelane (f : Fields) (s : State) : Out :=
  onPath s fun c =>
    let wide := iwide (ityp f)
    runMasked s c f (lanePick c f && (match opnd f.d with
          | .v _ => true
          | _ => false) && dstLegal c wide (opnd f.d)
        && (opnd f.a).isUniform && srcLegal c wide (opnd f.a)) fun act =>
      let n := srcVal s c (ity (ityp f)) (opnd f.b) 0 % 64
      if srcBad c wide (opnd f.b) 0 || srcBad c wide (opnd f.a) 0 then trapPoison s c (lowLane act)
      else if act.getLsbD n then
        retire (modGroup s c.gid fun g =>
          writeLane g wide (opnd f.d) n (srcVal s c (ity (ityp f)) (opnd f.a) n)) c
      else retire s c

/-! ## Random numbers (R300) -/

def execRng (f : Fields) (s : State) : Out :=
  let t := ityp f
  onPath s fun c => runValue s c f false
    (rrOp f [(f.a, ity t), (f.b, ity t)] (mod53zero f && f.c == 0) (iwide t) fun xs =>
      rng64 (xs.getD 0 0) (xs.getD 1 0) % 2 ^ iwid t)

end Sys2Proof.Machine
end

