-- ==== Sys2Proof/Machine/Float.lean ====
section
/-!
DEFINITION. Floating-point instructions: arithmetic, minimum and maximum, compare, classify, division, roots,
transcendentals, rounding to integral values, and the dot products (13 R302 to R311, R324).
-/
namespace Sys2Proof.Machine

/-! ## Fields (R303) -/

/-- TYPE: 0 f32, 1 f64, 2 f16x2, 3 bf16x2. -/
def ftyp (f : Fields) : Nat := bitsOf f.mod.toNat 4 2
def frm (f : Fields) : Nat := bitsOf f.mod.toNat 2 2
def fneg (f : Fields) (k : Nat) : Bool := bitOf f.mod.toNat (1 - k)
def fabs (f : Fields) (k : Nat) : Bool := bitOf f.x.toNat (3 - k)
def fnegC (f : Fields) : Bool := bitOf f.x.toNat 1
def fsat (f : Fields) : Bool := bitOf f.x.toNat 0

/-- The format code of a TYPE. -/
def fcode (t : Nat) : Nat :=
  match t with
  | 0 => 1
  | 1 => 0
  | 2 => 4
  | _ => 3

/-- The operand type of a TYPE. -/
def fty (t : Nat) : Ty :=
  match t with
  | 0 => .f32
  | 1 => .f64
  | 2 => .f16x2
  | _ => .bf16x2

/-- Width in bits of an element of a format. -/
def fbits (code : Nat) : Nat := fmtBits code

/-- FMT.FTZ32 of the issuing path. -/
def ftzOn (c : Iss) : Bool := bitOf c.p.fmt.toNat 21
def satOn (c : Iss) : Bool := bitOf c.p.fmt.toNat 20
def nrnd (c : Iss) : Nat := bitsOf c.p.fmt.toNat 18 2
def afmt (c : Iss) : Nat := bitsOf c.p.fmt.toNat 0 6
def bfmt (c : Iss) : Nat := bitsOf c.p.fmt.toNat 6 6

/-- operand of R304: sign-bit operations on an element of w bits. -/
def signOps (w : Nat) (ab ng : Bool) (x : Nat) : Nat :=
  let m := x % 2 ^ (w - 1)
  let sg := !ab && bitOf x (w - 1)
  m + (if sg != ng then 2 ^ (w - 1) else 0)

/-- Flushes an f32 element when FTZ32 is set (R160). -/
def flushIf (on : Bool) (code x : Nat) : Nat := if code = 1 then ftz32 on x else x

/-- SAT of R304 on the bits of a result. -/
def satBits (code : Nat) (sat : Bool) (r : Nat) : Nat :=
  if !sat then r
  else
    let v := decodeFmt code r
    if v.isNaN || v.signBit then 0
    else if XReal.lt (.ofNat 1) v then roundFmt code (.ofNat 1) .rne
    else r

/-- flt_result of R304 with the flush of R160. -/
def fltResult (code : Nat) (x : XReal) (rm : Nat) (ftz sat : Bool) : Nat :=
  satBits code sat (flushIf ftz code (roundFmt code x (ieeeMode rm)))

/-- One element of each source: flags applied, then flushed. -/
def fltIn (f : Fields) (code : Nat) (ftz : Bool) (k : Nat) (x : Nat) : Nat :=
  let w := fbits code
  flushIf ftz code
    (match k with
      | 0 => signOps w (fabs f 0) (fneg f 0) (x % 2 ^ w)
      | 1 => signOps w (fabs f 1) (fneg f 1) (x % 2 ^ w)
      | _ => signOps w false (fnegC f) (x % 2 ^ w))

/-- Applies an element function over the one or two elements of each source (R304). -/
def perElem (t : Nat) (xs : List Nat) (el : List Nat → Nat) : Nat :=
  if t < 2 then el xs else el (xs.map (· % 2 ^ 16)) + 2 ^ 16 * el (xs.map (· / 2 ^ 16))

/-- The source list of an arithmetic opcode that uses the first n of A, B, C. -/
def fltSrcs (f : Fields) (n : Nat) : List (BitVec 9 × Ty) :=
  ([f.a, f.b, f.c].take n).map fun x => (x, fty (ftyp f))

/-- The operand fields behind the first n hold code 0x160. -/
def unusedZero (f : Fields) (n : Nat) : Bool := ([f.a, f.b, f.c].drop n).all fun x => x == zeroCode

/-- A floating-point opcode on n sources; `el` gives the result bits of one element from its prepared sources. -/
def fltOp (c : Iss) (f : Fields) (n : Nat) (legal : Bool) (el : Nat → Bool → List Nat → Nat) : ValueOp :=
  let t := ftyp f
  let code := fcode t
  let ftz := ftzOn c
  { dst := .reg f.d (t == 1)
    srcs := fltSrcs f n
    legal := unusedZero f n && legal && vdstLegal c (t == 1) (opnd f.d)
    fn := fun xs _ => perElem t xs fun es =>
      el code ftz (es.zipIdx.map fun e => fltIn f code ftz e.2 e.1) }

/-- An opcode whose result is an exact value rounded once. -/
def exactOp (c : Iss) (f : Fields) (n : Nat) (legal : Bool) (ev : List XReal → XReal) : ValueOp :=
  fltOp c f n legal fun code ftz es => fltResult code (ev (es.map (decodeFmt code))) (frm f) ftz (fsat f)

def xAt (xs : List XReal) (k : Nat) : XReal := xs.getD k .zero

/-! ## Arithmetic (R305, R306) -/

def execFadd (f : Fields) (s : State) : Out :=
  onPath s fun c => runValue s c f true
    (exactOp c f 2 (!fnegC f) fun xs => (xAt xs 0).add (xAt xs 1) (frm f == 3))
def execFmul (f : Fields) (s : State) : Out :=
  onPath s fun c => runValue s c f true (exactOp c f 2 (!fnegC f) fun xs => (xAt xs 0).mul (xAt xs 1))
def execFfma (f : Fields) (s : State) : Out :=
  onPath s fun c => runValue s c f true
    (exactOp c f 3 true fun xs => ((xAt xs 0).mul (xAt xs 1)).add (xAt xs 2) (frm f == 3))

/-- Order of two values with −0 below +0. -/
def signedLess (x y : XReal) : Bool :=
  if x.isZero && y.isZero then x.signBit && !y.signBit else x.lt y

/-- FMIN and FMAX on element bits (R306). -/
def minMaxBits (code : Nat) (isMax : Bool) (a b : Nat) : Nat :=
  let x := decodeFmt code a
  let y := decodeFmt code b
  if x.isNaN && y.isNaN then roundFmt code .nan .rne
  else if x.isNaN then b
  else if y.isNaN then a
  else if isMax then (if signedLess x y then b else a)
  else if signedLess y x then b else a

def minMaxOp (c : Iss) (f : Fields) (isMax : Bool) : ValueOp :=
  fltOp c f 2 (!fnegC f && frm f == 0) fun code _ es =>
    satBits code (fsat f) (minMaxBits code isMax (es.getD 0 0) (es.getD 1 0))

def execFmin (f : Fields) (s : State) : Out := onPath s fun c => runValue s c f true (minMaxOp c f false)
def execFmax (f : Fields) (s : State) : Out := onPath s fun c => runValue s c f true (minMaxOp c f true)

/-! ## Compare and classify (R307, R308) -/

/-- The conditions of FCMP. -/
def fltCond (cc : Nat) (x y : XReal) : Bool :=
  let un := x.isNaN || y.isNaN
  let r := x.cmp y
  match cc with
  | 0 => !un && decide (r = 0)
  | 1 => !un && decide (r ≠ 0)
  | 2 => !un && decide (r < 0)
  | 3 => !un && decide (r ≤ 0)
  | 4 => !un && decide (0 < r)
  | 5 => !un && decide (0 ≤ r)
  | 6 => !un
  | 8 => un || decide (r = 0)
  | 9 => un || decide (r ≠ 0)
  | 10 => un || decide (r < 0)
  | 11 => un || decide (r ≤ 0)
  | 12 => un || decide (0 < r)
  | 13 => un || decide (0 ≤ r)
  | _ => un

def execFcmp (f : Fields) (s : State) : Out :=
  let t := ftyp f
  let cc := f.c.toNat
  onPath s fun c => runValue s c f true
    { dst := .pred f.d, srcs := [(f.a, fty t), (f.b, fty t)]
      legal := decide (t < 2) && frm f == 0 && bitsOf f.x.toNat 0 2 == 0 && decide (cc < 15) && cc != 7
      fn := fun xs _ =>
        let v (k : Nat) : XReal := decodeFmt (fcode t) (fltIn f (fcode t) (ftzOn c) k (xs.getD k 0))
        bitNat (fltCond cc (v 0) (v 1)) }

/-- The class of f32 or f64 bits, numbered as FCLASS's mask (R308). -/
def fltClass (code x : Nat) : Nat :=
  let v := decodeFmt code x
  let sub := match floatFmt code with
    | some ff => decide (x % 2 ^ ff.magBits < 2 ^ ff.t)
    | none => false
  match v with
  | .nan => 8
  | .inf n => if n then 0 else 7
  | .fin n m _ => if m = 0 then (if n then 3 else 4) else if sub then (if n then 2 else 5) else if n then 1 else 6

def execFclass (f : Fields) (s : State) : Out :=
  let t := ftyp f
  onPath s fun c => runValue s c f true
    { dst := .pred f.d, srcs := [(f.a, fty t)]
      legal := decide (t < 2) && f.mod.toNat % 16 == 0 && f.x == 0 && f.b == zeroCode
      fn := fun xs _ => bitNat (bitOf f.c.toNat (fltClass (fcode t) (xs.getD 0 0))) }

/-! ## Division, roots, transcendentals (R309, R310) -/

def divX (x y : XReal) : XReal :=
  match x, y with
  | .nan, _ => .nan
  | _, .nan => .nan
  | .inf _, .inf _ => .nan
  | .inf n, .fin m _ _ => .inf (n != m)
  | .fin n _ _, .inf m => .fin (n != m) 0 1
  | .fin n a b, .fin m c d =>
    if c = 0 then (if a = 0 then .nan else .inf (n != m)) else divFin n a b m c d

def sqrtX (x : XReal) : XReal :=
  match x with
  | .nan => .nan
  | .inf n => if n then .nan else .inf false
  | .fin n a b => if a = 0 then .fin n 0 1 else if n then .nan else sqrtFrac a b

def rsqX (x : XReal) : XReal :=
  match x with
  | .nan => .nan
  | .inf n => if n then .nan else .zero
  | .fin n a b => if a = 0 then .inf n else if n then .nan else sqrtFrac b a

def exp2Of (x : XReal) : XReal :=
  match x with
  | .nan => .nan
  | .inf n => if n then .zero else .inf false
  | .fin n a b => exp2X n a b

def log2Of (x : XReal) : XReal :=
  match x with
  | .nan => .nan
  | .inf n => if n then .nan else .inf false
  | .fin n a b => if a = 0 then .inf true else if n then .nan else log2X a b

def sinOf (cos : Bool) (x : XReal) : XReal :=
  match x with
  | .fin n a b => if cos then cosPiX a b else sinPiX n a b
  | _ => .nan

def tanhOf (x : XReal) : XReal :=
  match x with
  | .nan => .nan
  | .inf n => .fin n 1 1
  | .fin n a b => tanhX n a b

/-- NEGB, ABSB and NEGC of an opcode that has one operand are unused. -/
def oneOperand (f : Fields) : Bool := !fneg f 1 && !fabs f 1 && !fnegC f
/-- f32, f64 and f16x2. -/
def typ3 (f : Fields) : Bool := decide (ftyp f < 3)
/-- f32 and f16x2. -/
def typ2 (f : Fields) : Bool := ftyp f == 0 || ftyp f == 2

def execFrcp (f : Fields) (s : State) : Out :=
  onPath s fun c => runValue s c f true
    (exactOp c f 1 (typ3 f && oneOperand f) fun xs => divX (.ofNat 1) (xAt xs 0))
def execFrsq (f : Fields) (s : State) : Out :=
  onPath s fun c => runValue s c f true (exactOp c f 1 (typ3 f && oneOperand f) fun xs => rsqX (xAt xs 0))
def execFsqrt (f : Fields) (s : State) : Out :=
  onPath s fun c => runValue s c f true (exactOp c f 1 (typ3 f && oneOperand f) fun xs => sqrtX (xAt xs 0))
def execFdiv (f : Fields) (s : State) : Out :=
  onPath s fun c => runValue s c f true
    (exactOp c f 2 (typ3 f && !fnegC f) fun xs => divX (xAt xs 0) (xAt xs 1))
def execFexp2 (f : Fields) (s : State) : Out :=
  onPath s fun c => runValue s c f true (exactOp c f 1 (typ2 f && oneOperand f) fun xs => exp2Of (xAt xs 0))
def execFlog2 (f : Fields) (s : State) : Out :=
  onPath s fun c => runValue s c f true (exactOp c f 1 (typ2 f && oneOperand f) fun xs => log2Of (xAt xs 0))
/-- FSIN: MOD[0] selects the cosine. -/
def execFsin (f : Fields) (s : State) : Out :=
  onPath s fun c => runValue s c f true
    (exactOp c f 1 (typ2 f && !fabs f 1 && !fnegC f) fun xs => sinOf (bitOf f.mod.toNat 0) (xAt xs 0))
def execFtanh (f : Fields) (s : State) : Out :=
  onPath s fun c => runValue s c f true (exactOp c f 1 (typ2 f && oneOperand f) fun xs => tanhOf (xAt xs 0))

/-- The integral value of R311, with the sign of its input. -/
def integralX (rm : Nat) (x : XReal) : XReal :=
  match x with
  | .fin n a b =>
    let q := a / b
    .fin n (if roundUp (ieeeMode rm) n q (a % b) b then q + 1 else q) 1
  | v => v

def execFrnd (f : Fields) (s : State) : Out :=
  onPath s fun c => runValue s c f true
    (exactOp c f 1 (oneOperand f) fun xs => integralX (frm f) (xAt xs 0))

/-! ## Dot products (R324) -/

/-- Byte j of x, signed or not. -/
def byteVal (signed : Bool) (x j : Nat) : Int :=
  let b := x / 256 ^ j % 256
  if signed then sext 8 b else (b : Int)

def idp4Val (sa sb : Bool) (a b c : Nat) : Nat :=
  wrapBits 32 ((List.range 4).foldl (fun r j => r + byteVal sa a j * byteVal sb b j) (c : Int))

def execIdp4 (f : Fields) (s : State) : Out :=
  onPath s fun c => runValue s c f true
    { dst := .reg f.d false, srcs := [(f.a, .w32), (f.b, .w32), (f.c, .w32)]
      legal := decide (f.mod.toNat < 4) && f.x == 0 && vdstLegal c false (opnd f.d)
      fn := fun xs _ => idp4Val (bitOf f.mod.toNat 1) (bitOf f.mod.toNat 0) (xs.getD 0 0) (xs.getD 1 0) (xs.getD 2 0) }

/-- FDP2: packed sources, an f32 addend and result. -/
def fdp2Val (f : Fields) (ftz : Bool) (a b c : Nat) : Nat :=
  let code := fcode (ftyp f)
  let el (k h x : Nat) : XReal := decodeFmt code (fltIn f code ftz k (x / 2 ^ (16 * h) % 2 ^ 16))
  let cx := decodeFmt 1 (flushIf ftz 1 (signOps 32 false (fnegC f) c))
  let p0 := (el 0 0 a).mul (el 1 0 b)
  let p1 := (el 0 1 a).mul (el 1 1 b)
  fltResult 1 ((cx.add p0 (frm f == 3)).add p1 (frm f == 3)) (frm f) ftz (fsat f)

def execFdp2 (f : Fields) (s : State) : Out :=
  onPath s fun c => runValue s c f true
    { dst := .reg f.d false, srcs := [(f.a, fty (ftyp f)), (f.b, fty (ftyp f)), (f.c, .f32)]
      legal := decide (2 ≤ ftyp f) && vdstLegal c false (opnd f.d)
      fn := fun xs _ => fdp2Val f (ftzOn c) (xs.getD 0 0) (xs.getD 1 0) (xs.getD 2 0) }

end Sys2Proof.Machine
end

