-- ==== Sys2Proof/Machine/Convert.lean ====
section
/-!
DEFINITION. Conversion instructions, and the conversions of typed memory access (13 R312 to R317; 02 R36).
-/
namespace Sys2Proof.Machine

/-- SRSEED of the issuing context. -/
def srseedOf (s : State) (c : Iss) : Nat := ctxSrseed s c.part c.ctx
/-- The random bits of R157 for a lane's element. -/
def laneSr (s : State) (c : Iss) (lane v j : Nat) : Nat := srbits (srseedOf s c) (laneIds s c.t c.g lane).wid v j

/-- A narrow result under FMT.NRND and FMT.SAT, with the random bits of its source value and position. -/
def narrowFmt (s : State) (c : Iss) (code : Nat) (x : XReal) (lane v j : Nat) : Nat :=
  roundNarrow code x (nrndMode (nrnd c) (if nrnd c = 2 then laneSr s c lane v j else 0)) (satOn c)

/-! ## CVT (R312, R313) -/

/-- Codes CVT accepts: assigned formats, with 0x0F a register integer. -/
def cvtCode (code : Nat) : Bool := !fmtReserved code && code != 0x3F

/-- The bits of a register integer of X[1:0]: 64-bit and unsigned. -/
def regInt (x64 uns : Bool) (v : Nat) : XReal :=
  let w := if x64 then 64 else 32
  if uns then .ofNat (v % 2 ^ w) else .ofInt (sext w v)

def cvtWide (code : Nat) (x64 : Bool) : Bool := code == 0 || (code == 0x0F && x64)

/-- cvt of R313, of one element. -/
def cvtVal (s : State) (c : Iss) (dst src rm : Nat) (x64 uns : Bool) (lane a : Nat) : Nat :=
  let ftz := ftzOn c
  let v := if src = 0x0F then regInt x64 uns a else decodeFmt src (flushIf ftz src a)
  if dst = 0x0F then
    let w := if x64 then 64 else 32
    let lo : Int := if uns then 0 else -(2 ^ (w - 1) : Nat)
    let hi : Int := if uns then (2 ^ w : Nat) - 1 else (2 ^ (w - 1) : Nat) - 1
    wrapBits w (roundInt v (ieeeMode rm) lo hi)
  else if dst ≤ 4 then flushIf ftz dst (roundFmt dst v (ieeeMode rm))
  else if dst = 0x0A then e8m0Round v (nrndMode (nrnd c) (if nrnd c = 2 then laneSr s c lane a 0 else 0)) false
  else narrowFmt s c dst v lane a 0

def cvtLegal (c : Iss) (f : Fields) : Bool :=
  let dst := f.mod.toNat
  let src := f.c.toNat
  let x := f.x.toNat
  let reg := dst == 0x0F || src == 0x0F
  decide (src < 64) && f.b == zeroCode && cvtCode dst && cvtCode src
    && (dst != 0x0A || src == 1)
    && (x % 4 == 0 || reg)
    && (x / 4 == 0 || decide (dst ≤ 4) || dst == 0x0F)
    && vdstLegal c (cvtWide dst (bitOf x 1)) (opnd f.d)

/-- The type a constant source of CVT is read as. -/
def cvtTy (src : Nat) (x64 : Bool) : Ty :=
  if src = 0 then .f64
  else if src = 0x0F ∧ x64 then .q64
  else if src = 1 ∨ src = 2 then .f32
  else if src = 3 then .bf16x2
  else if src = 4 then .f16x2
  else .w32

/-- CVT. The random bits take the source register's value (R157), so the lane is needed beside the operands. -/
def execCvt (f : Fields) (s : State) : Out :=
  onPath s fun c =>
    let x64 := bitOf f.x.toNat 1
    let src := f.c.toNat
    let ty := cvtTy src x64
    let wideD := cvtWide f.mod.toNat x64
    runMasked s c f (cvtLegal c f && srcLegal c ty.wide (opnd f.a)) fun act =>
      match (lanesOf act).find? (srcBad c ty.wide (opnd f.a)) with
      | some l => trapPoison s c l
      | none => retire (modGroup s c.gid fun g => (lanesOf act).foldl (fun g l =>
          writeLane g wideD (opnd f.d) l
            (cvtVal s c f.mod.toNat src (f.x.toNat / 4) x64 (bitOf f.x.toNat 0) l (srcVal s c ty (opnd f.a) l))) g) c

/-- CVTSR (R314). -/
def cvtsrLegal (c : Iss) (f : Fields) : Bool :=
  let dst := f.mod.toNat
  (dst == 3 || dst == 4 || fmtNarrowFloat dst) && f.c == zeroCode && f.x == 0 && vdstLegal c false (opnd f.d)

def execCvtsr (f : Fields) (s : State) : Out :=
  onPath s fun c => runValue s c f true
    { dst := .reg f.d false, srcs := [(f.a, .f32), (f.b, .w32)], legal := cvtsrLegal c f
      fn := fun xs _ =>
        let dst := f.mod.toNat
        roundFmt dst (decodeFmt 1 (flushIf (ftzOn c) 1 (xs.getD 0 0))) (.sr (xs.getD 1 0))
          (decide (4 < dst) && satOn c) }

/-! ## QNT and DQNT (R315) -/

/-- AFMT of QNT and DQNT. -/
def quantFmt (code : Nat) : Bool := fmtNarrowFloat code || fmtNarrowInt code
/-- Elements of a packed register, and the step between them. -/
def quantCount (code : Nat) : Nat := if fmt4bit code then 8 else 4
def quantStep (code : Nat) : Nat := if fmt4bit code then 4 else 8
/-- Width of an element's bits. -/
def elemWidth (code : Nat) : Nat := if fmt4bit code then 4 else if fmt6bit code then 6 else 8

/-- The first of k vector registers, all inside the allocation. -/
def vecBlock (c : Iss) (code : BitVec 9) (k : Nat) : Option Nat :=
  match opnd code with
  | .v n => if blockLegal c n k then some n else none
  | _ => none

/-- One packed register of QNT. -/
def qntVal (s : State) (c : Iss) (sr : Bool) (lane : Nat) (as : List Nat) (b r : Nat) : Nat :=
  let code := afmt c
  let ftz := ftzOn c
  let bx := decodeFmt 1 (flushIf ftz 1 b)
  as.zipIdx.foldl (fun acc e =>
    let x := (decodeFmt 1 (flushIf ftz 1 e.1)).mul bx
    let el := if sr then roundNarrow code x (.sr (rng64 r e.2 % 2 ^ 32)) (satOn c) else narrowFmt s c code x lane e.1 e.2
    acc + el * 2 ^ (quantStep code * e.2)) 0

/-- QNT (R302, R314). FMT.AFMT is checked with no active lane as well (log 126). -/
def execQnt (f : Fields) (s : State) : Out :=
  onPath s fun c =>
    let sr := f.mod == 1
    let code := afmt c
    let k := quantCount code
    runMasked s c f (decide (f.mod.toNat ≤ 1) && f.x == 0 && quantFmt code && (vecBlock c f.a k).isSome
        && srcLegal c false (opnd f.b) && (if sr then srcLegal c false (opnd f.c) else f.c == 0)
        && vdstLegal c false (opnd f.d)) fun act =>
      let n := (vecBlock c f.a k).getD 0
      let bad (l : Nat) : Bool :=
        (List.range k).any (fun j => c.g.badV (n + j) l) || srcBad c false (opnd f.b) l
          || (sr && srcBad c false (opnd f.c) l)
      match (lanesOf act).find? bad with
      | some l => trapPoison s c l
      | none => retire (modGroup s c.gid fun g => (lanesOf act).foldl (fun g l =>
          writeLane g false (opnd f.d) l
            (qntVal s c sr l ((List.range k).map fun j => c.g.getV (n + j) l) (srcVal s c .f32 (opnd f.b) l)
              (srcVal s c .w32 (opnd f.c) l))) g) c

/-- Element j of a packed register as an exact value. -/
def packedElem (code x j : Nat) : XReal := decodeFmt code (x / 2 ^ (quantStep code * j) % 2 ^ elemWidth code)

def dqntVal (ftz : Bool) (code x b j : Nat) : Nat :=
  flushIf ftz 1 (roundFmt 1 ((packedElem code x j).mul (decodeFmt 1 (flushIf ftz 1 b))) .rne)

/-- DQNT (R302, R314). FMT.AFMT is checked with no active lane as well (log 126). -/
def execDqnt (f : Fields) (s : State) : Out :=
  onPath s fun c =>
    let code := afmt c
    let k := quantCount code
    runMasked s c f (f.mod == 0 && f.x == 0 && f.c == 0 && quantFmt code && (vecBlock c f.d k).isSome
        && srcLegal c false (opnd f.a) && srcLegal c false (opnd f.b)) fun act =>
      let n := (vecBlock c f.d k).getD 0
      match (lanesOf act).find? (fun l => srcBad c false (opnd f.a) l || srcBad c false (opnd f.b) l) with
      | some l => trapPoison s c l
      | none => retire (modGroup s c.gid fun g => (lanesOf act).foldl (fun g l =>
          (List.range k).foldl (fun g j =>
            g.setV (n + j) l (dqntVal (ftzOn c) code (srcVal s c .w32 (opnd f.a) l) (srcVal s c .f32 (opnd f.b) l) j)) g) g) c

/-! ## PACK and UNPK (R316, R317) -/

/-- Width of an element's place in a register: 16, 8 or 4 bits; 0 for formats PACK does not place. -/
def packWidth (code : Nat) : Nat :=
  if code = 3 ∨ code = 4 then 16
  else if fmt4bit code then 4
  else if fmtNarrowFloat code ∨ fmtNarrowInt code ∨ code = 0x0A then 8
  else 0

/-- Element position of a (b goes one above). -/
def packPos (f : Fields) : Nat := if packWidth f.mod.toNat = 16 then 0 else 2 * (f.x.toNat % 4)

def packLegal (f : Fields) : Bool :=
  let h := f.x.toNat % 4
  f.c == zeroCode &&
    match packWidth f.mod.toNat with
    | 16 => h == 0
    | 8 => decide (h ≤ 1) && f.x.toNat / 4 == 0
    | 4 => f.x.toNat / 4 == 0
    | _ => false

/-- The element that PACK inserts at position j. -/
def packElem (s : State) (c : Iss) (f : Fields) (lane v j : Nat) : Nat :=
  let x := decodeFmt 1 (flushIf (ftzOn c) 1 v)
  if packWidth f.mod.toNat = 16 then roundFmt f.mod.toNat x (ieeeMode (f.x.toNat / 4))
  else narrowFmt s c f.mod.toNat x lane v j

def packVal (s : State) (c : Iss) (f : Fields) (lane d a b : Nat) : Nat :=
  let w := packWidth f.mod.toNat
  let j := packPos f
  let ins (r j e : Nat) : Nat := r - bitsOf r (w * j) w * 2 ^ (w * j) + e * 2 ^ (w * j)
  ins (ins d j (packElem s c f lane a j)) (j + 1) (packElem s c f lane b (j + 1))

def execPack (f : Fields) (s : State) : Out :=
  onPath s fun c => runMasked s c f (packLegal f && srcLegal c false (opnd f.a) && srcLegal c false (opnd f.b)
      && vdstLegal c false (opnd f.d)) fun act =>
    let bad (l : Nat) : Bool := [f.a, f.b, f.d].any fun x => srcBad c false (opnd x) l
    match (lanesOf act).find? bad with
    | some l => trapPoison s c l
    | none => retire (modGroup s c.gid fun g => (lanesOf act).foldl (fun g l =>
        writeLane g false (opnd f.d) l
          (packVal s c f l (srcVal s c .w32 (opnd f.d) l) (srcVal s c .f32 (opnd f.a) l) (srcVal s c .f32 (opnd f.b) l))) g) c

/-- Element k of a packed register, as exact f32 or as i32. -/
def unpkVal (ftz : Bool) (code a k : Nat) : Nat :=
  let w := packWidth code
  let e := a / 2 ^ (w * k) % 2 ^ w
  if fmtNarrowInt code then
    wrapBits 32 (if code = 0x0B then sext 8 e else if code = 0x0D then sext 4 e else (e : Int))
  else flushIf ftz 1 (roundFmt 1 (decodeFmt code (if fmt6bit code then e % 64 else e)) .rne)

def execUnpk (f : Fields) (s : State) : Out :=
  onPath s fun c => runValue s c f true
    { dst := .reg f.d false, srcs := [(f.a, .w32)]
      legal := packWidth f.mod.toNat != 0 && decide (f.x.toNat < 8) && decide (f.x.toNat * packWidth f.mod.toNat < 32)
        && f.b == zeroCode && f.c == zeroCode && vdstLegal c false (opnd f.d)
      fn := fun xs _ => unpkVal (ftzOn c) f.mod.toNat (xs.getD 0 0) f.x.toNat }

/-! ## Typed memory access (02 R36, R37) -/

/-- Storage bytes of an element; a nibble counts as its byte. -/
def typedSize (code : Nat) : Nat :=
  if code = 0 then 8 else if code = 1 ∨ code = 2 ∨ code = 0x0F then 4 else if code = 3 ∨ code = 4 then 2 else 1
/-- ELEM that a format requires. -/
def typedElem (code : Nat) : Nat :=
  if code = 0 then 3 else if code = 1 ∨ code = 2 ∨ code = 0x0F then 2 else if code = 3 ∨ code = 4 then 1 else 0
/-- The X values a typed record permits. -/
def typedX (code x : Nat) : Bool := x == 2 || (x == 3 && (code == 0 || code == 0x0F))

/-- The register bits of a typed load; under FMT.FTZ32 a conversion to f32 flushes its result (07 R160; log 24). -/
def typedLoad (ftz : Bool) (code x e : Nat) : Nat :=
  if code = 0 then (if x = 3 then e else flushIf ftz 1 (roundFmt 1 (decodeFmt 0 e) .rne))
  else if code = 1 then e
  else if code = 2 then flushIf ftz 1 (e / 2 ^ 13 * 2 ^ 13)
  else if code = 0x0F then (if x = 3 then wrapBits 64 (sext 32 e) else e)
  else if code = 0x0B then wrapBits 32 (sext 8 e)
  else if code = 0x0D then wrapBits 32 (sext 4 e)
  else if code = 0x0C ∨ code = 0x0E then e
  else flushIf ftz 1 (roundFmt 1 (decodeFmt code (if fmt6bit code then e % 64 else e)) .rne)

/-- The storage bits of a typed store of register bits v; under FMT.FTZ32 a conversion from f32 flushes its source. -/
def typedStore (s : State) (c : Iss) (code x lane v : Nat) : Nat :=
  let f32 := decodeFmt 1 (flushIf (ftzOn c) 1 v)
  if code = 0 then (if x = 3 then v else roundFmt 0 f32 .rne)
  else if code = 1 then v
  else if code = 2 then roundFmt 2 f32 .rne
  else if code = 3 ∨ code = 4 then roundFmt code f32 .rne
  else if code = 0x0F then
    (if x = 3 then wrapBits 32 (clampInt (sext 64 v) (-(2 ^ 31 : Nat)) ((2 ^ 31 : Nat) - 1)) else v)
  else if fmtNarrowInt code then
    let r := narrowIntRange code
    wrapBits (fmtBits code) (clampInt (sext 32 v) r.1 r.2)
  else if code = 0x0A then
    e8m0Round f32 (nrndMode (nrnd c) (if nrnd c = 2 then laneSr s c lane v 0 else 0)) (satOn c)
  else narrowFmt s c code f32 lane v 0

end Sys2Proof.Machine
end

