-- ==== Sys2Proof/Machine/Access.lean ====
section
/-!
DEFINITION. Access through buffer records and to scratchpad: records, lane addresses, bounds, the checks in their order,
register blocks, and the bytes of a team's scratchpad (02 R25, R28 to R41; 04 R80, R98; 14 R328, R329, R332).
-/
namespace Sys2Proof.Machine

/-! ## Buffer records (R28, R30) -/

structure BufRec where
  base    : Nat
  extent  : Nat
  stride  : Nat
  swizzle : Nat
  elem    : Nat
  format  : Nat
  oob     : Nat
  valid   : Bool
  deriving DecidableEq, Repr

/-- The fields of the 128 bits of a record. -/
def bufRec (x : Nat) : BufRec where
  base := bitsOf x 0 64
  extent := bitsOf x 64 32
  stride := bitsOf x 96 16
  swizzle := bitsOf x 112 4
  elem := bitsOf x 116 3
  format := bitsOf x 119 6
  oob := bitsOf x 125 2
  valid := bitOf x 127

/-- The scalar of an operand code that names a record. -/
def recScalar (code : BitVec 9) : Option Nat :=
  match opnd code with
  | .s n => if n % 4 = 0 then some n else none
  | _ => none

/-- The record in sN to sN+3. -/
def recAt (g : Group) (n : Nat) : BufRec :=
  bufRec (g.getS n + 2 ^ 32 * g.getS (n + 1) + 2 ^ 64 * g.getS (n + 2) + 2 ^ 96 * g.getS (n + 3))

/-- Whether a word of the record is poisoned. -/
def recPoisoned (g : Group) (n : Nat) : Bool := (List.range 4).any fun i => g.badS (n + i)

def BufRec.typed (r : BufRec) : Bool := r.format != 0x3F
def BufRec.tiled (r : BufRec) : Bool := r.swizzle == 2 || r.swizzle == 3
/-- A record of 4-bit elements. -/
def BufRec.nibble (r : BufRec) : Bool := r.typed && fmt4bit r.format

/-- The checks of R30. -/
def recInvalid (r : BufRec) (atomic : Bool) : Bool :=
  !r.valid || decide (4 ≤ r.swizzle) || decide (5 ≤ r.elem) || r.oob == 3 || fmtReserved r.format
    || (r.swizzle != 0 && r.base % 128 != 0)
    || (r.swizzle == 2 && (r.stride == 0 || r.stride % (32 * 2 ^ r.elem) != 0))
    || (r.swizzle == 3 && r.stride != 0)
    || (r.typed && r.elem != typedElem r.format)
    || (r.nibble && (r.tiled || r.stride != 0))
    || (atomic && r.typed)

/-- The access size of a record under X. -/
def BufRec.size (r : BufRec) (x : Nat) : Nat := if r.typed then typedSize r.format else 2 ^ x

/-- What a record that has passed R30 does not permit: an X of R36, or an access beyond the element (R33). -/
def recForbids (r : BufRec) (x : Nat) : Bool :=
  (r.typed && !typedX r.format x) || (r.tiled && decide (2 ^ r.elem < r.size x))

/-! ## Lane addresses (R31 to R35, R37) -/

def BufRec.stride' (r : BufRec) : Nat := if r.stride = 0 then 2 ^ r.elem else r.stride
def BufRec.lim (r : BufRec) : Nat := if r.extent = 0 then 0 else (r.extent - 1) * r.stride' + 2 ^ r.elem
def BufRec.width (r : BufRec) : Nat := r.extent % 2 ^ 16
def BufRec.height (r : BufRec) : Nat := r.extent / 2 ^ 16

/-- Interleaves the bits of 16-bit x and y. -/
def morton (x y : Nat) : Nat :=
  (List.range 16).foldl (fun m i => m + bitsOf x i 1 * 2 ^ (2 * i) + bitsOf y i 1 * 2 ^ (2 * i + 1)) 0

/-- SWIZZLE 1 on a byte offset. -/
def BufRec.chunk (r : BufRec) (o : Nat) : Nat := if r.swizzle = 1 then Nat.xor o (bitsOf o 7 3 * 16) else o

/-- The byte offset of element (x, y) of a tiled record. -/
def BufRec.tileOff (r : BufRec) (x y : Nat) : Nat :=
  let es := 2 ^ r.elem
  if r.swizzle = 2 then
    ((y / 32 * (r.stride / (32 * es)) + x / 32) * 1024 + y % 32 * 32 + x % 32) * es
  else morton x y * es

def BufRec.laneAddr (r : BufRec) (o : Nat) : Nat := (r.base + o) % 2 ^ 64

/-- What becomes of one lane: no access, an access, or a BOUNDS trap with its ADDR (10 R217). -/
inductive Placed where
  | drop
  | at (va : Nat) (hi : Bool)
  | bounds (addr : Nat)
  deriving DecidableEq, Repr

/-- A 64-bit two's-complement number. -/
def wrap64 (x : Int) : Nat := (x % ((2 ^ 64 : Nat) : Int)).toNat

/-- An element of a linear record that the bounds check has passed or clamping has chosen. -/
def BufRec.linearAt (r : BufRec) (e : Nat) : Placed :=
  if r.nibble then .at (r.laneAddr (r.chunk (e / 2))) (e % 2 == 1)
  else .at (r.laneAddr (r.chunk (e * r.stride'))) false

/-- The clamped element of R35; none when there is none. -/
def BufRec.clampElem (r : BufRec) (sz : Nat) : Option Nat :=
  if r.extent = 0 then none
  else if r.nibble then some (r.extent - 1)
  else if r.lim < sz then none
  else some (min (r.extent - 1) ((r.lim - sz) / r.stride'))

def BufRec.placeLinear (r : BufRec) (sz : Nat) (e : Int) : Placed :=
  let inb := decide (0 ≤ e) && decide (e < r.extent) && (r.nibble || decide (e.toNat * r.stride' + sz ≤ r.lim))
  if inb then r.linearAt e.toNat
  else if r.oob = 1 then
    .bounds (wrap64 (r.base + if r.nibble then e.fdiv 2 else e * r.stride'))
  else if r.oob = 2 then
    match r.clampElem sz with
    | some k => r.linearAt k
    | none => .drop
  else .drop

/-- Clamps a coordinate to [0, n − 1]. -/
def clampCoord (x : Int) (n : Nat) : Nat := min x.toNat (n - 1)

def BufRec.placeTiled (r : BufRec) (x y : Int) : Placed :=
  let inb := decide (0 ≤ x) && decide (x < r.width) && decide (0 ≤ y) && decide (y < r.height)
  if inb then .at (r.laneAddr (r.tileOff x.toNat y.toNat)) false
  else if r.oob = 1 then .bounds ((x % 2 ^ 32).toNat + (y % 2 ^ 32).toNat * 2 ^ 32)
  else if r.oob = 2 ∧ r.width ≠ 0 ∧ r.height ≠ 0 then
    .at (r.laneAddr (r.tileOff (clampCoord x r.width) (clampCoord y r.height))) false
  else .drop

/-- Where the access of a lane with index `idx` and element offset `off` goes. -/
def BufRec.place (r : BufRec) (sz idx : Nat) (off : Int) : Placed :=
  if r.tiled then r.placeTiled ((idx % 2 ^ 16 : Nat) + off) (idx / 2 ^ 16 : Nat)
  else r.placeLinear sz ((idx : Int) + off)

/-! ## The checks behind the record (R39 steps 4 to 7) -/

/-- Accesses of the lanes that make one. -/
def placedAccs (sz : Nat) : List (Nat × Placed) → List LaneAcc
  | [] => []
  | (l, .at va hi) :: r => ⟨l, va, sz, hi⟩ :: placedAccs sz r
  | _ :: r => placedAccs sz r

/-- The first lane that raises BOUNDS. -/
def firstBounds : List (Nat × Placed) → Option (Nat × Nat)
  | [] => none
  | (l, .bounds a) :: _ => some (l, a)
  | _ :: r => firstBounds r

/-- The translation of a core instruction's accesses: one whose batch was released with FAIL = 1 traps
FATAL_TRANSLATION on replay (03 R71). -/
def xlCore (s : State) (c : Iss) (acc : Acc) (as : List LaneAcc) : XlSet :=
  let r := xlateSet s (.core c.core) c.part c.ctx acc (c.sup s) as
  match as with
  | [] => .ok []
  | a :: _ =>
    if !c.p.failed then r
    else match r with
      | .fault (g :: _) => .trap causeFatal g.lane ((as.find? fun x => x.lane == g.lane && x.va / 4096 == g.va).getD a).va
      | _ => .trap causeFatal a.lane a.va

/-- The outcome of an instruction's checks: the state of its trap or fault, or its translated accesses. -/
inductive Prep where
  | stop (s : State)
  | go (ls : List LaneLoc)

/-- Translation, then watchpoints. -/
def prepXlate (s : State) (c : Iss) (acc : Acc) (wp : Option WpKind) (as : List LaneAcc) : Prep :=
  match xlCore s c acc as with
  | .trap cause lane va => .stop (takeTrap s c cause lane va)
  | .fault gs => .stop (coreFault s c (c.faulter acc) gs)
  | .ok ls =>
    match wp with
    | none => .go ls
    | some k =>
      match ls.find? (fun l => !c.p.exempt && wpMatch s c.part c.ctx false k l.va l.size) with
      | some l => .stop (takeTrap s c causeWatchpoint l.lane l.va)
      | none => .go ls

/-- BOUNDS, MISALIGNED, translation, watchpoints. -/
def prepAccess (s : State) (c : Iss) (acc : Acc) (wp : Option WpKind) (sz : Nat) (ps : List (Nat × Placed)) : Prep :=
  match firstBounds ps with
  | some (l, a) => .stop (takeTrap s c causeBounds l a)
  | none =>
    let as := placedAccs sz ps
    match as.find? (fun a => a.va % sz != 0) with
    | some a => .stop (takeTrap s c causeMisaligned a.lane a.va)
    | none => prepXlate s c acc wp as

/-- The record's own checks (R39 steps 2 and 3), then the body; `more` is what else the record must not be. -/
def withRecord (s : State) (c : Iss) (f : Fields) (atomic : Bool) (forbidden : BufRec → Bool) (body : BufRec → State) : State :=
  match recScalar f.b with
  | none => illegalOperand s c
  | some n =>
    let r := recAt c.g n
    if recInvalid r atomic then trapClauseZero s c
    else if forbidden r then illegalOperand s c
    else body r
where
  /-- RECORD_INVALID: no lane, ADDR 0 (10 R217). -/
  trapClauseZero (s : State) (c : Iss) : State := takeTrap s c causeRecord 0 0

/-- The places of the active lanes of a record instruction. -/
def lanePlaces (s : State) (c : Iss) (r : BufRec) (sz : Nat) (idx : Opnd) (off : Int) (lanes : List Nat) :
    List (Nat × Placed) :=
  lanes.map fun l => (l, r.place sz (srcVal s c .w32 idx l) off)

/-- Whether an atomic of one of some threads, still on its way to its home slice, stands before an access of the same bytes:
these take effect in program order (05 R110). -/
def atomAhead (s : State) (ags : List Agent) (l : LaneLoc) : Bool :=
  s.parts.any fun e => e.2.atoms.any fun a =>
    ags.contains (.thread a.gid a.lane) && decide (a.loc < l.loc + l.size) && decide (l.loc < a.loc + a.size)

/-- Whether an atomic of a group is on its way: reads that its threads make later than they issue wait for it. -/
def groupAtoms (s : State) (gid : Nat) : Bool := s.parts.any fun e => e.2.atoms.any fun a => a.gid == gid

/-! ## Register blocks (14 R328, R329) -/

/-- Registers of an access of size X. -/
def blockRegs (x : Nat) : Nat := if x = 4 then 4 else if x = 3 then 2 else 1

/-- A register block of n registers, its first a multiple of n. -/
def blockCode (c : Iss) (n : Nat) (o : Opnd) : Bool :=
  match o with
  | .v k => k % n == 0 && decide (k + n ≤ c.g.nregs)
  | .s k => k % n == 0
  | .zero => true
  | _ => false

/-- D of a load: a block, or zero; a scalar block only with a uniform A. -/
def loadDst (c : Iss) (x : Nat) (d a : Opnd) : Bool := blockCode c (blockRegs x) d && !(d.isScalarReg && a.isVec)

/-- D of a store: a block, a constant or zero. -/
def storeSrc (c : Iss) (x : Nat) (d : Opnd) : Bool :=
  blockCode c (blockRegs x) d ||
    match d with
    | .int _ => true
    | .flt _ => true
    | _ => false

/-- A block of n registers in a lane, as one number. -/
def blockVal (g : Group) (o : Opnd) (n lane : Nat) : Nat :=
  (List.range n).foldl (fun a i => a + 2 ^ (32 * i) * (match o with
    | .v k => g.getV (k + i) lane
    | .s k => g.getS (k + i)
    | _ => 0)) 0

def blockBad (g : Group) (o : Opnd) (n lane : Nat) : Bool :=
  (List.range n).any fun i => match o with
    | .v k => g.badV (k + i) lane
    | .s k => g.badS (k + i)
    | _ => false

/-- The data that D of a store gives a lane; `ty` is what a constant is read as. -/
def storeVal (s : State) (c : Iss) (ty : Ty) (o : Opnd) (n lane : Nat) : Nat :=
  match o with
  | .v _ => blockVal c.g o n lane
  | .s _ => blockVal c.g o n lane
  | _ => if n = 4 then srcVal s c .w32 o lane * (1 + 2 ^ 32 + 2 ^ 64 + 2 ^ 96) else srcVal s c ty o lane

/-- The type of a constant of a store: raw by size, typed by the record's register type (R329, R36). -/
def storeTy (r : BufRec) (x : Nat) : Ty :=
  let flt := r.typed && !(fmtNarrowInt r.format || r.format == 0x0F)
  if x = 3 then (if flt then .f64 else .q64) else if flt then .f32 else .w32

/-- The register writes of a loaded value: n words, low word first. -/
def blockWrites (o : Opnd) (n lane v : Nat) (bad : Bool) : List RegWrite :=
  (List.range n).flatMap fun i =>
    let w := BitVec.ofNat 32 (v / 2 ^ (32 * i))
    match o with
    | .v k => [.vec (k + i) lane w bad]
    | .s k => [.scal (k + i) w bad]
    | _ => []

/-- A raw load of e8 or e16 under S. -/
def signLoad (sx : Bool) (x v : Nat) : Nat :=
  if sx && decide (x ≤ 1) then wrapBits 32 (sext (8 * 2 ^ x) v) else v

/-! ## Counted operations -/

/-- The shape of an operation that counts on a flag: decode checks, the stall of a full counter, no effect without
active lanes, then the body. -/
def runCounted (s : State) (c : Iss) (f : Fields) (setB legal : Bool) (body : Mask → State) : State :=
  if !(f.guardLegal && legal) then illegalOperand s c
  else if flagFull c.g (setFlag c.p setB) then s
  else if active c f = 0 then retire s c
  else body (active c f)

/-- Retires an operation that completes later, with its register writes. -/
def retireOp (s : State) (c : Iss) (setB : Bool) (ws : List RegWrite) : State :=
  startOp (retire s c) { gid := c.gid, flag := setFlag c.p setB, writes := ws }

/-! ## Scratchpad (R25, R80, R98) -/

/-- One lane's access of scratchpad. -/
structure SpadAcc where
  lane : Nat
  off  : Int
  deriving DecidableEq, Repr

def spadByte (t : Team) (o : Nat) : Byte := spGet 0 t.spad o
def spadBytes (t : Team) (o n : Nat) : List Byte := (List.range n).map fun i => spadByte t (o + i)
def spadBad (t : Team) (o n : Nat) : Bool := (List.range n).any fun i => spGet false t.spoison ((o + i) / 8)

/-- A word of scratchpad as it stands: its bytes, and whether it is poisoned. -/
def spadWord (t : Team) (w : Nat) : List Byte × Bool := (spadBytes t (8 * w) 8, spGet false t.spoison w)

/-- A single-copy-atomic read of bytes of one word of scratchpad, made for some agents together (05 R104, R105, R121). -/
def spadUnit (s : State) (ags : List Agent) (tid o n : Nat) : Got × State :=
  match getTeam s tid with
  | none => (⟨[], false, []⟩, s)
  | some t => readWord s ags (spFind t.shist (o / 8)) [] (spadWord t (o / 8)) (o % 8) n

/-- n bytes of a team's scratchpad as some agents read them. -/
def spadGet (s : State) (ags : List Agent) (tid o n : Nat) : Got × State :=
  readUnits (fun s a k => spadUnit s ags tid a k) s (unitsOf o n)

/-- The place of a store in the order of its word of scratchpad: the last. -/
def spadAppend (t : Team) (w : Nat) (m : Msg) : Team :=
  let v := m.onto (spadWord t w)
  let h := (spFind t.shist w).getD ⟨(spadWord t w).1, (spadWord t w).2, []⟩
  { t with
    spad := (cellsAt (8 * w) v.1).foldl (fun x e => spSet 0 x e.1 e.2) t.spad
    spoison := spSet false t.spoison w v.2
    shist := spPut t.shist w { h with msgs := h.msgs ++ [m] } }

/-- A single-copy-atomic store to bytes of one word of scratchpad. -/
def spadPutUnit (s : State) (ag : Agent) (tid o : Nat) (bs : List Byte) (bad : Bool) : State :=
  match getTeam s tid with
  | none => s
  | some t =>
    let prior := ((spFind t.shist (o / 8)).map (·.msgs)).getD []
    let m := newMsg s ag prior 0 o (unitCells (o % 8) bs) bad []
    modTeam (noteStore s ag m) tid fun t => spadAppend t (o / 8) m

/-- A read-modify-write of n bytes of one word of scratchpad (05 R107). -/
def spadRmw (s : State) (ag : Agent) (tid o n : Nat) (f : List Byte → List Byte) : Got × State :=
  match getTeam s tid with
  | none => (⟨[], false, []⟩, s)
  | some t =>
    let q := rmwMsg s ag (((spFind t.shist (o / 8)).map (·.msgs)).getD []) 0 o (spadWord t (o / 8)) (o % 8) n f []
    (q.1, modTeam q.2.1 tid fun t => spadAppend t (o / 8) q.2.2)

/-- An agent's store to scratchpad. -/
def spadPut (s : State) (ag : Agent) (tid o : Nat) (bs : List Byte) (bad : Bool) : State :=
  (storeCuts ag o bs.length).foldl (fun s u =>
    spadPutUnit s ag tid u.1 ((bs.drop (u.1 - o)).take u.2) bad) s

/-- A team with the n bytes from an offset on as some agents read them. -/
def spadSeen (s : State) (ags : List Agent) (tid o n : Nat) (t : Team) : Team × State :=
  (unitsOf o n).foldl (fun a u =>
    let q := spadUnit a.2 ags tid u.1 u.2
    ({ a.1 with
       spad := (cellsAt u.1 q.1.bytes).foldl (fun x e => spSet 0 x e.1 e.2) a.1.spad
       spoison := spSet false a.1.spoison (u.1 / 8) q.1.bad }, q.2)) (t, s)

/-- Granules that [o, o + n) touches. -/
def granules (o n : Nat) : List Nat := if n = 0 then [] else (List.range ((o + n - 1) / 16 - o / 16 + 1)).map (· + o / 16)

def spadFull (t : Team) (gr : Nat) : Bool := spGet false t.full gr
def setFull (t : Team) (on : Bool) (grs : List Nat) : Team :=
  { t with
    full := grs.foldl (fun m k => spSet false m k on) t.full
    filled := if on then t.filled else grs.foldl spDel t.filled }

/-- A store or a job makes granules full: an LDS.fe of them observes its release edges and returns its stores (06 R142). -/
def fillGranules (t : Team) (rels : List RelInfo) (ids grs : List Nat) : Team :=
  let put (m : SMap (List RelInfo × List Nat)) (k : Nat) : SMap (List RelInfo × List Nat) :=
    let old := (spFind m k).getD ([], [])
    spPut m k (addRels old.1 rels, addIds old.2 ids)
  { setFull t true grs with filled := grs.foldl put t.filled }

/-- The scratchpad accesses of the active lanes (14 R332). -/
def spadAccs (s : State) (c : Iss) (f : Fields) (off : Int) (sz : Nat) (lanes : List Nat) : List SpadAcc :=
  lanes.map fun l =>
    ⟨l, (srcVal s c .w32 (opnd f.b) l : Nat) + ((srcVal s c .w32 (opnd f.a) l : Nat) + off) * sz⟩

/-- B of a scratchpad access: a scalar, a constant or zero. -/
def spadBase : Opnd → Bool
  | .s _ => true
  | .zero => true
  | .int _ => true
  | .flt _ => true
  | _ => false

/-- BOUNDS, MISALIGNED, WATCHPOINT of a whole instruction. -/
def prepSpad (s : State) (c : Iss) (k : WpKind) (sz : Nat) (as : List SpadAcc) (body : State) : State :=
  match as.find? (fun a => decide (a.off < 0) || decide ((c.t.size : Int) < a.off + sz)) with
  | some a => takeTrap s c causeBounds a.lane (wrap64 a.off)
  | none => match as.find? (fun a => a.off.toNat % sz != 0) with
    | some a => takeTrap s c causeMisaligned a.lane a.off.toNat
    | none =>
      match as.find? (fun a => !c.p.exempt && wpMatch s c.part c.ctx true k a.off.toNat sz) with
      | some a => takeTrap s c causeWatchpoint a.lane a.off.toNat
      | none => body

end Sys2Proof.Machine
end

