-- ==== Sys2Proof/Machine/Channel.lean ====
section
/-!
DEFINITION. Channels: MOV with its channel operands, the queue pool, QMAP, and the retry of a stalled operand
(04 R91 to R95; 09 R208 to R210; 12 R296; 14 R342).
-/
namespace Sys2Proof.Machine

/-! ## The instruction at a path's slot -/

/-- The instruction that the path's slot decodes to. -/
def slotInstr (p : Path) : Option Instr :=
  match p.clause with
  | none => none
  | some cl => match cl.slots.drop p.slot with
    | .long lf _ :: _ => decodeLong lf
    | _ => none

/-- Whether the group of a path may run: it is resident, its team runs, no batch or debugger holds it, and no other live
path of it waits at full-empty bits (04 R81). -/
def canRun (c : Iss) : Bool :=
  let feWaits (n : Nat) : Bool := n != c.live && match c.g.live n with
    | some p => p.wait == .fullEmpty
    | none => false
  c.t.phase == .running && !c.g.saved && c.g.batch.isNone && c.g.release.isNone && !c.g.ended && !feWaits 0 && !feWaits 1
    && (match c.g.halt with
      | some .halted => false
      | some (.oneClause l n) => c.live == l && (c.g.clauses == n)
      | none => true)

/-- Makes a path the issuing one, with its wait ended. -/
def wakeAs (s : State) (q : PathId) : State :=
  { modPath s q.gid q.live (fun p => { p with wait := .none }) with cur := some q }

/-! ## The pool (R91 to R94) -/

def poolQueue (s : State) (k q : Nat) : PoolQueue := spGet {} (getCluster s k).queues q
def queueCount (v : PoolQueue) : Nat := v.bufs.length
/-- FREE: the buffers that no queue of the cluster holds. -/
def poolFree (s : State) (k : Nat) : Nat :=
  8192 - ((getCluster s k).queues.map fun e => queueCount e.2).foldl (· + ·) 0
/-- The unfilled MINs of every queue but one; 64 names none. -/
def poolReserve (s : State) (k except : Nat) : Nat :=
  ((getCluster s k).queues.map fun e => if e.1 = except then 0 else e.2.min - queueCount e.2).foldl (· + ·) 0

/-- Whether a push of n buffers succeeds (R93 with n in place of 1). -/
def pushFits (s : State) (k q n : Nat) : Bool :=
  let v := poolQueue s k q
  decide (queueCount v + n ≤ v.cap) && decide (n + poolReserve s k q ≤ poolFree s k)

def modQueue (s : State) (k q : Nat) (f : PoolQueue → PoolQueue) : State :=
  modCluster s k fun c => { c with queues := spSet {} c.queues q (f (spGet {} c.queues q)) }

/-- Whether a QP_LIMIT write is refused (R92). -/
def limitRefused (s : State) (k q mn cap : Nat) : Bool :=
  let others := ((getCluster s k).queues.map fun e => if e.1 = q then 0 else e.2.min).foldl (· + ·) 0
  decide (cap < mn) || decide (8192 < mn) || decide (8192 < cap) || decide (8192 < others + mn)
    || decide (poolFree s k < poolReserve s k q + (mn - queueCount (poolQueue s k q)))

/-- A write to QP_LIMIT_q: accepted, or refused with REJECT set (R91, R92). -/
def writeLimit (s : State) (k q v : Nat) : State :=
  let mn := bitsOf v 0 14
  let cap := bitsOf v 16 14
  if limitRefused s k q mn cap then modCluster s k fun c => { c with reject := true }
  else modQueue s k q fun x => { x with min := mn, cap := cap }

/-- QP_LIMIT_q as it reads; its reserved bits are zero (00 R2). -/
def limitWord (s : State) (k q : Nat) : Nat :=
  let x := poolQueue s k q
  x.min + x.cap * 2 ^ 16

/-! ## Buffers of an operand (R209) -/

/-- Buffers that a number of bytes fill. -/
def bufCount (n : Nat) : Nat := (n + 63) / 64

/-- Cuts bytes into whole buffers; bytes that are not supplied are zero. -/
def cutBufs : Nat → List Byte → List QBuf
  | 0, _ => []
  | k + 1, bs =>
    { bytes := bs.take 64 ++ List.replicate (64 - (bs.take 64).length) 0 } :: cutBufs k (bs.drop 64)

/-- A free buffer as a context's queue takes it: one that another context freed is written zero (R95). -/
def FreeBuf.clean (part ctx : Nat) (b : FreeBuf) : List Byte :=
  if b.part = part ∧ b.ctx = ctx then b.bytes else List.replicate 64 0

/-- Writes a pushed buffer over a free one: all 64 bytes (R91). -/
def QBuf.over (old : List Byte) (b : QBuf) : QBuf := { b with bytes := b.bytes ++ old.drop b.bytes.length }

/-- Takes free buffers for those that a context's queue pushes, freed ones first, and writes these over them. -/
def takeFree (s : State) (k part ctx : Nat) (bufs : List QBuf) : List QBuf × State :=
  let old := ((getCluster s k).freed.map (FreeBuf.clean part ctx)).take bufs.length
  ((bufs.zipIdx.map fun e => e.1.over (old.getD e.2 (List.replicate 64 0))),
    modCluster s k fun c => { c with freed := c.freed.drop bufs.length })

/-- Pushes buffers as one step, behind a release edge at .clus (R210), which they carry. -/
def pushBufs (s : State) (c : Iss) (act : Mask) (q : Nat) (bufs : List QBuf) : State :=
  let rels := releaseOfAll s (threadsOf c.gid act) 3
  let r := takeFree (publishAt s c.core 3) (clusterOf c.core) c.part c.ctx bufs
  modQueue r.2 (clusterOf c.core) q fun v => { v with bufs := v.bufs ++ r.1.map fun b => { b with rels := rels } }

/-- Pops the n oldest buffers, before an acquire edge at .clus that observes their pushes; they are freed under the
context's tag (R95). -/
def popBufs (s : State) (c : Iss) (act : Mask) (q n : Nat) : List QBuf × State :=
  let k := clusterOf c.core
  let bufs := (poolQueue s k q).bufs.take n
  let s1 := modCluster (modQueue s k q fun v => { v with bufs := v.bufs.drop n }) k fun v =>
    { v with freed := v.freed ++ freedBufs c.part c.ctx bufs }
  (bufs, acquireAll s1 (threadsOf c.gid act) 3 (bufs.flatMap (·.rels)))

/-- What is unpacked at byte i: a value of E bytes and whether it was poisoned. -/
def unpackAt (bufs : List QBuf) (i e : Nat) : Nat × Bool :=
  let b := bufs.getD (i / 64) { bytes := [] }
  (leNat ((b.bytes.drop (i % 64)).take e), bitOf b.bad (i % 64 / 8))

/-! ## MOV -/

/-- The bound channel of the team and the stage's right to it; none traps CHANNEL_UNBOUND. -/
def boundQueue (t : Team) (n : Nat) (push : Bool) : Option Nat :=
  match spFind t.channel n with
  | some ch => if bitOf (if push then ch.push else ch.pop) t.stage then some ch.queue else none
  | none => none

/-- pq of the active lanes. -/
def setPq (s : State) (c : Iss) (act : Mask) (on : Bool) : State :=
  modGroup s c.gid fun g => g.setPred pq act (if on then act else 0)

/-- A channel operand that cannot move now: a blocking one stalls, a .nb one sets pq. -/
def channelBlocked (s : State) (c : Iss) (act : Mask) (nb : Bool) : State :=
  if nb then retire (setPq s c act true) c else waitOn s c .channel

def channelDone (s : State) (c : Iss) (act : Mask) (nb : Bool) : State :=
  retire (if nb then setPq s c act false else s) c

/-- MOV into a channel: the source's elements are pushed. -/
def movPush (s : State) (c : Iss) (f : Fields) (n : Nat) (nb : Bool) (act : Mask) : State :=
  let wide := iwide (ityp f)
  let e := if wide then 8 else 4
  let src := opnd f.a
  let lanes := if src.isVec then lanesOf act else [lowLane act]
  match boundQueue c.t n true with
  | none => takeTrap s c causeChannel 0 0
  | some q =>
    match lanes.find? (srcBad c wide src) with
    | some l => trapPoison s c l
    | none =>
      let bytes := lanes.flatMap fun l => leBytes e (srcVal s c (ity (ityp f)) src l)
      let k := bufCount bytes.length
      if pushFits s (clusterOf c.core) q k then
        channelDone (pushBufs s c act q (cutBufs k bytes)) c act nb
      else channelBlocked s c act nb

/-- Writes popped elements to a vector, or one to a scalar. -/
def movPopWrite (wide vec : Bool) (d : Opnd) (bufs : List QBuf) (lanes : List Nat) (g : Group) : Group :=
  let e := if wide then 8 else 4
  let put (g : Group) (i l : Nat) : Group :=
    let x := unpackAt bufs (i * e) e
    match d with
    | .v r =>
      let g1 := g.setV r l (x.1 % 2 ^ 32) x.2
      if wide then g1.setV (r + 1) l (x.1 / 2 ^ 32) x.2 else g1
    | .s r =>
      let g1 := g.setS r (x.1 % 2 ^ 32) x.2
      if wide then g1.setS (r + 1) (x.1 / 2 ^ 32) x.2 else g1
    | _ => g
  if vec then (lanes.zipIdx).foldl (fun g e => put g e.2 e.1) g else put g 0 0

/-- MOV from a channel: the oldest buffers are popped. -/
def movPop (s : State) (c : Iss) (f : Fields) (n : Nat) (nb : Bool) (act : Mask) : State :=
  let wide := iwide (ityp f)
  let e := if wide then 8 else 4
  let d := opnd f.d
  let lanes := if d.isVec then lanesOf act else [lowLane act]
  match boundQueue c.t n false with
  | none => takeTrap s c causeChannel 0 0
  | some q =>
    let k := bufCount (lanes.length * e)
    if k ≤ queueCount (poolQueue s (clusterOf c.core) q) then
      let r := popBufs s c act q k
      channelDone (modGroup r.2 c.gid (movPopWrite wide d.isVec d r.1 lanes)) c act nb
    else channelBlocked s c act nb

/-- The fields of MOV beside its operands. -/
def movLegal (f : Fields) : Bool := itypOk f && mod53zero f && f.x == 0 && allZero [f.b, f.c]

/-- MOV (R296), with one channel operand at most (R257). -/
def execMov (f : Fields) (s : State) : Out :=
  let t := ityp f
  onPath s fun c =>
    match opnd f.d, opnd f.a with
    | .ch _ _, .ch _ _ => illegalOperand s c
    | .ch n nb, a => runMasked s c f (movLegal f && srcLegal c (iwide t) a) (movPush s c f n nb)
    | d, .ch n nb => runMasked s c f (movLegal f && dstLegal c (iwide t) d) (movPop s c f n nb)
    | _, _ => runValue s c f false
      { dst := .reg f.d (iwide t), srcs := [(f.a, ity t)], legal := movLegal f, fn := fun xs _ => xs.getD 0 0 }

/-- QMAP (R342). -/
def qmapValue (s : State) (c : Iss) (q : Nat) (ch : Channel) : Nat :=
  let k := clusterOf c.core
  let v := poolQueue s k ch.queue
  match q with
  | 0 => queueCount v
  | 1 => v.cap
  | 2 => min (v.cap - queueCount v) (poolFree s k - poolReserve s k ch.queue)
  | _ => ch.queue + ch.push * 2 ^ 8 + ch.pop * 2 ^ 16 + 2 ^ 31

/-- A is a constant 0 to 15 or a scalar; D is a scalar. -/
def qmapLegal (c : Iss) (f : Fields) : Bool :=
  f.mod == 0 && decide (f.x.toNat < 4) && allZero [f.b, f.c] && (opnd f.d).isScalarReg
    && (match opnd f.a with
      | .int n => decide (n < 16)
      | .zero => true
      | .s n => srcLegal c false (.s n)
      | _ => false)

def execQmap (f : Fields) (s : State) : Out :=
  onPath s fun c => runMasked s c f (qmapLegal c f) fun _ =>
    let n := srcVal s c .w32 (opnd f.a) 0
    let done (v : Nat) : State := retire (modGroup s c.gid fun g => writeScal g false (opnd f.d) v) c
    if srcBad c false (opnd f.a) 0 then trapPoison s c 0
    else if 15 < n then illegalOperand s c
    else match spFind c.t.channel n with
      | none => if f.x = 3 then done 0 else takeTrap s c causeChannel 0 0
      | some ch => done (qmapValue s c f.x.toNat ch)

/-- Whether a live path waits at a channel. -/
def stillBlocked (s : State) (q : PathId) : Bool :=
  match issOf s q with
  | some c => c.p.wait == .channel
  | none => false

end Sys2Proof.Machine
end

