-- ==== Sys2Proof/Machine/Control.lean ====
section
/-!
DEFINITION. Control instructions: branches, divergence, calls, votes, FMT and HANDLE, FFENCE, traps and breakpoints
(12 R270 to R283, R285, R286; 08 R181 to R189).
-/
namespace Sys2Proof.Machine

/-- A branch target: the clause header address and a signed word offset, modulo 2^64 (11 R253). -/
def relTarget (p : Path) (off : Int) : Nat := (((p.addr : Int) + 4 * off) % ((2 ^ 64 : Nat) : Int)).toNat

/-- The operand fields, MOD and X are all zero. -/
def noFields (f : Fields) : Bool := f.mod == 0 && f.x == 0 && allZero [f.d, f.a, f.b, f.c]

/-- D, MOD and X of the branch formats are zero. -/
def branchFields (f : Fields) : Bool := f.mod == 0 && f.x == 0 && f.d == 0

/-- NOP (R270). -/
def execNop (f : Fields) (s : State) : Out := onPath s fun c => runMasked s c f (noFields f) fun _ => retire s c

/-- EXIT (R271): the active lanes leave; the rest of the path goes on at the next clause. -/
def execExit (f : Fields) (s : State) : Out :=
  onPath s fun c => runMasked s c f (noFields f) fun act =>
    modGroup (retire s c) c.gid fun g => removeLanes g act

/-! ## Branches (R272) -/

/-- Continues the whole path at the target when the branch is taken, else at the next clause. -/
def branchIf (s : State) (c : Iss) (f : Fields) (taken : Bool) : State :=
  branchTo s c (if taken then relTarget c.p f.imm27.toInt else nextClause c.p)

def execBra (f : Fields) (s : State) : Out :=
  onPath s fun c => runPathWide s c f (branchFields f) (branchIf s c f true)

/-- The shape of the conditional branches: the guard is the condition. -/
def condBranch (f : Fields) (s : State) (taken : Mask → Mask → Bool) : Out :=
  onPath s fun c =>
    if !(f.guardLegal && branchFields f) then illegalOperand s c
    else branchIf s c f (taken (active c f) c.p.mask)

def execBany (f : Fields) (s : State) : Out := condBranch f s fun t _ => t != 0
def execBall (f : Fields) (s : State) : Out := condBranch f s fun t l => t == l
def execBnone (f : Fields) (s : State) : Out := condBranch f s fun t _ => t == 0

/-- Counts the issued instruction on the group, as the last of its clause. -/
def countEnd (s : State) (c : Iss) : State := modGroup s c.gid fun g => countRetired g true

/-- BDIV (R181, R273). -/
def execBdiv (f : Fields) (s : State) : Out :=
  onPath s fun c =>
    if !(f.guardLegal && branchFields f) then illegalOperand s c
    else if !ordinaryRoom c.g 2 then takeTrap s c causeStack 0 0
    else modGroup (countEnd s c) c.gid fun g =>
      divide g c.live c.p (active c f) (relTarget c.p f.target13.toInt) (relTarget c.p f.join14.toInt) (nextClause c.p)

/-- join_arrive of R182, by the path in slot n, of a group whose topmost JOIN record that contains it is r. -/
def joinArrive (g : Group) (n : Nat) (p : Path) (r : Rec) : Group :=
  let aux := r.aux ||| p.mask
  let g1 := g.setLive n none
  let g2 :=
    if aux = r.mask then
      let q : Path :=
        if atClauseEnd p then freshPath (nextClause p) 0 r.mask r.fmt r.handle
        else freshPath p.addr (p.slot + slotWidth p) r.mask r.fmt r.handle
      { (g1.setLive n (some q)) with stack := replaceTop .join p.mask none g1.stack }
    else { g1 with stack := replaceTop .join p.mask (some { r with aux := aux }) g1.stack }
  fillSlots g2

/-- JOIN (R182). -/
def execJoin (f : Fields) (s : State) : Out :=
  onPath s fun c => runPathWide s c f (noFields f)
    (match topRec c.g .join c.p.mask with
      | none => trapClauseAddr s c causeClause
      | some r =>
        if c.p.slot ≠ 0 ∨ r.addr ≠ c.p.addr then trapClauseAddr s c causeClause
        else modGroup s c.gid fun g => joinArrive (countRetired g (atClauseEnd c.p)) c.live c.p r)

/-! ## Indirect targets (R274, R188, R189) -/

/-- A is a vector pair, a scalar pair or code 0x160, and the other fields are zero. -/
def indirectLegal (c : Iss) (f : Fields) : Bool :=
  f.mod == 0 && f.x == 0 && allZero [f.d, f.b, f.c] &&
    match opnd f.a with
    | .v n => srcLegal c true (.v n)
    | .s n => srcLegal c true (.s n)
    | .zero => true
    | _ => false

/-- Inserts a number into an ascending list without repeats. -/
def insertNat (x : Nat) : List Nat → List Nat
  | [] => [x]
  | y :: r => if x < y then x :: y :: r else if x = y then y :: r else y :: insertNat x r

/-- The distinct targets of some lanes, ascending. -/
def targets (ls : List Nat) (t : Nat → Nat) : List Nat := ls.foldl (fun a l => insertNat (t l) a) []

/-- The checks of JMPI and CALLI, and then their effect on the lanes' targets. -/
def indirect (s : State) (c : Iss) (f : Fields) (body : (Nat → Nat) → List Nat → State) : State :=
  runPathWide s c f (indirectLegal c f)
    (let t (l : Nat) : Nat := srcVal s c .q64 (opnd f.a) l
     match (lanesOf c.p.mask).find? (fun l => srcBad c true (opnd f.a) l) with
     | some l => trapPoison s c l
     | none => match (lanesOf c.p.mask).find? (fun l => t l % 4 != 0) with
       | some l => takeTrap s c causeMisaligned l (t l)
       | none => body t (targets (lanesOf c.p.mask) t))

/-- JMPI to several targets: the lowest stays in the slot, the others are parked in ascending order (R189). Its issue count
goes on (log 22). -/
def splitJump (g : Group) (n : Nat) (p : Path) (t : Nat → Nat) : List Nat → Group
  | [] => g
  | lo :: more =>
    let lanes (x : Nat) : Mask := p.mask &&& maskWhere (lanesOf p.mask) fun l => t l == x
    let g1 := g.setLive n (some (endClause { p with mask := lanes lo } lo))
    fillSlots (more.foldl (fun g x => pushRec g (parkedRec (freshPath x 0 (lanes x) p.fmt p.handle))) g1)

/-- JMPI (R274, R189). -/
def execJmpi (f : Fields) (s : State) : Out :=
  onPath s fun c => indirect s c f fun t ts =>
    if ts.length ≤ 1 then branchTo s c (ts.headD 0)
    else if !ordinaryRoom c.g (ts.length - 1) then takeTrap s c causeStack 0 0
    else modGroup (countEnd s c) c.gid fun g => splitJump g c.live c.p t ts

/-! ## Calls (R187, R188, R275) -/

/-- Whether the return-address stack has a free entry. -/
def retRoom (g : Group) : Bool := decide (g.rets.length < 256)

/-- The return entry of a call by lanes of a path. -/
def retEntry (p : Path) (ser : Bool) (mask : Mask) : RetEntry :=
  { ser := ser, addr := nextClause p, handle := p.handle, mask := mask }

/-- A group's return entries stand with it as long as it is resident, and in its frame only when it is saved (log 124). -/
def pushRet (g : Group) (e : RetEntry) : Group := { g with rets := e :: g.rets }

/-- A call of the whole path: the return entry, then the branch. -/
def callTo (s : State) (c : Iss) (target : Nat) : State :=
  branchTo (modGroup s c.gid fun g => pushRet g (retEntry c.p false c.p.mask)) c target

/-- CALL (R275). -/
def execCall (f : Fields) (s : State) : Out :=
  onPath s fun c => runPathWide s c f (branchFields f)
    (if !retRoom c.g then takeTrap s c causeStack 0 0 else callTo s c (relTarget c.p f.imm27.toInt))

/-- The SERIAL record that a re-issued CALLI continues (R188 step 3). -/
def serialOf (c : Iss) : Option Rec :=
  match topRec c.g .serial c.p.mask with
  | some r =>
    if r.addr = c.p.addr ∧ r.slot = c.p.slot ∧ r.run = 0 ∧ r.mask &&& ~~~r.aux = c.p.mask then some r else none
  | none => none

/-- One serialised step: the lanes S of the lowest target call it, in the path's slot, whose issue count goes on (log 22). -/
def serialCall (g : Group) (n : Nat) (p : Path) (sub : Mask) (target : Nat) (cont : Option Rec) : Group :=
  let g1 := match cont with
    | some r => { g with stack := replaceTop .serial p.mask (some { r with aux := r.aux ||| sub, run := sub }) g.stack }
    | none => pushRec g
        { kind := .serial, addr := p.addr, slot := p.slot, mask := p.mask, aux := sub, fmt := p.fmt, handle := p.handle
          run := sub, next := nextClause p }
  (pushRet g1 (retEntry p true sub)).setLive n (some (endClause { p with mask := sub } target))

/-- CALLI (R188, R274). -/
def execCalli (f : Fields) (s : State) : Out :=
  onPath s fun c => indirect s c f fun t ts =>
    let cont := serialOf c
    if !retRoom c.g then takeTrap s c causeStack 0 0
    else if ts.length ≤ 1 ∧ cont.isNone then callTo s c (ts.headD 0)
    else if cont.isNone && !ordinaryRoom c.g 1 then takeTrap s c causeStack 0 0
    else
      let lo := ts.headD 0
      let sub := c.p.mask &&& maskWhere (lanesOf c.p.mask) fun l => t l == lo
      modGroup (countEnd s c) c.gid fun g => serialCall g c.live c.p sub lo cont

/-- Replaces or removes the topmost return entry that contains m. -/
def replaceRet (m : Mask) (new : Option RetEntry) : List RetEntry → List RetEntry
  | [] => []
  | e :: rest => if e.mask &&& m = m then new.toList ++ rest else e :: replaceRet m new rest

/-- A return through an entry of a serialised CALLI: the lanes wait in the SERIAL record, whose step may end. -/
def serialReturn (g : Group) (n : Nat) (p : Path) : Group :=
  let g1 := g.setLive n none
  match topRec g1 .serial p.mask with
  | none => fillSlots g1
  | some r =>
    let r1 := { r with run := r.run &&& ~~~p.mask }
    if r1.run = 0 then
      let e := serialNext r1
      let g2 := { g1 with stack := replaceTop .serial p.mask e.1 g1.stack }
      fillSlots (match e.2 with
        | some q => placePath g2 n q
        | none => g2)
    else fillSlots { g1 with stack := replaceTop .serial p.mask (some r1) g1.stack }

/-- The effect of RET through its entry. -/
def returnVia (g : Group) (n : Nat) (p : Path) (e : RetEntry) : Group :=
  let left := e.mask &&& ~~~p.mask
  let g1 := { g with rets := replaceRet p.mask (if left = 0 then none else some { e with mask := left }) g.rets }
  if e.ser then serialReturn g1 n p
  else g1.setLive n (some (endClause { p with handle := e.handle } e.addr))

/-- RET (R187, R275). -/
def execRet (f : Fields) (s : State) : Out :=
  onPath s fun c => runPathWide s c f (noFields f)
    (match c.g.rets.find? fun e => e.mask &&& c.p.mask == c.p.mask with
      | none => takeTrap s c causeStack 0 0
      | some e => modGroup (countEnd s c) c.gid fun g => returnVia g c.live c.p e)

/-- YIELD (R278): marks its clause for rotation. -/
def execYield (f : Fields) (s : State) : Out :=
  onPath s fun c => runPathWide s c f (noFields f)
    (let s1 := modPath s c.gid c.live fun p => { p with yielded := true }
     retire s1 c)

/-! ## Votes (R279) -/

/-- What PCOLL collects of the active lanes m and the predicate's lanes among them. -/
def collect (x : Nat) (m ones : Mask) : Nat :=
  match x with
  | 0 => ones.toNat
  | 1 => if ones = 0 then 0 else 1
  | 2 => if ones = m then 1 else 0
  | 3 => if ones = 0 ∨ ones = m then 1 else 0
  | _ => popMask ones

def pcollLegal (f : Fields) : Bool :=
  f.mod == 0 && allZero [f.b, f.c] && predLegal f.a &&
    match f.x.toNat with
    | 0 => (match opnd f.d with
      | .s n => n % 2 == 0
      | _ => false)
    | 4 => (opnd f.d).isScalarReg
    | 1 => predLegal f.d
    | 2 => predLegal f.d
    | 3 => predLegal f.d
    | _ => false

/-- PCOLL. -/
def execPcoll (f : Fields) (s : State) : Out :=
  onPath s fun c => runMasked s c f (pcollLegal f) fun act =>
    let ones := act &&& c.g.predMask f.a.toNat
    let r := collect f.x.toNat act ones
    retire (modGroup s c.gid fun g =>
      if f.x = 0 then writeScal g true (opnd f.d) r
      else if f.x = 4 then writeScal g false (opnd f.d) r
      else g.setPred f.d.toNat act (if r = 0 then 0 else act)) c

/-! ## FMT and HANDLE (R280 to R283) -/

/-- The values R162 rejects. -/
def fmtRejected (v : Nat) : Bool :=
  let scale := bitsOf v 14 3
  decide (2 ^ 22 ≤ v) || decide (4 ≤ scale) || (scale == 3 && !bitOf v 17)
    || fmtReserved (bitsOf v 0 6) || fmtReserved (bitsOf v 6 6) || bitsOf v 0 6 == 0x3F || bitsOf v 6 6 == 0x3F

/-- A of SETFMT is a scalar, zero or a constant; D, MOD and X[3:1] are zero. -/
def setfmtLegal (f : Fields) : Bool :=
  f.mod == 0 && f.d == 0 && decide (f.x.toNat ≤ 1) &&
    match opnd f.a with
    | .s _ => true
    | .zero => true
    | .int _ => true
    | .flt _ => true
    | _ => false

/-- The value SETFMT writes. -/
def setfmtValue (s : State) (c : Iss) (f : Fields) : Nat :=
  Nat.lor (srcVal s c .w32 (opnd f.a) 0) (f.imm18.toNat * (if f.x = 0 then 1 else 2 ^ 14))

/-- SETFMT (R280). -/
def execSetfmt (f : Fields) (s : State) : Out :=
  onPath s fun c => runPathWide s c f (setfmtLegal f)
    (if srcBad c false (opnd f.a) 0 then trapPoison s c 0
     else if fmtRejected (setfmtValue s c f) then illegalOperand s c
     else
      let s1 := modPath s c.gid c.live fun p => { p with fmt := BitVec.ofNat 32 (setfmtValue s c f) }
      retire s1 c)

/-- GETFMT (R281): D is a scalar, written once, or a vector register, written in active lanes. -/
def execGetfmt (f : Fields) (s : State) : Out :=
  onPath s fun c => runMasked s c f
    (f.mod == 0 && f.x == 0 && allZero [f.a, f.b, f.c] && dstLegal c false (opnd f.d)) fun act =>
      retire (modGroup s c.gid fun g =>
        (lanesOf act).foldl (fun g l => writeLane g false (opnd f.d) l c.p.fmt.toNat)
          (writeScal g false (opnd f.d) c.p.fmt.toNat)) c

/-- DICT (R282): the handle takes effect from the next clause. -/
def execDict (f : Fields) (s : State) : Out :=
  onPath s fun c => runPathWide s c f
    (f.mod == 0 && f.x == 0 && allZero [f.d, f.b, f.c] && (opnd f.a).isUniform && srcLegal c false (opnd f.a))
    (let v := srcVal s c .w32 (opnd f.a) 0
     if srcBad c false (opnd f.a) 0 then trapPoison s c 0
     else if 2 ^ 16 ≤ v then illegalOperand s c
     else
      let s1 := retire s c
      modPath s1 c.gid c.live fun p => { p with handle := v })

/-- The ICINVs whose scope instance holds a core (06 R144; 05 R102). -/
def icinvsAt (s : State) (core : Nat) : List CodeInv :=
  let at_ : Place := { core := some core, cluster := some (clusterOf core), part := some (partOfCore s core) }
  s.icinvs.filter fun v => v.place.holds s v.scope at_

/-- A fence of a group's instruction fetch (06 R144): its later fetches return the stores that happen before the ICINVs of
its core that happen before the fence. -/
def fenceCode (s : State) (core gid : Nat) (ags : List Agent) : State :=
  let known := releasedBy s ags
  let new := (icinvsAt s core).filter fun v => known.contains v.id
  modGroup s gid fun g => { g with code := g.code ++ new.filter fun v => !g.code.contains v }

/-- FFENCE (R283, 06 R144). A clause is fetched when its path comes to it, and a dictionary slot that ICINV has emptied is
loaded after it, so the fence has nothing to wait for; one of decode alone leaves instruction fetch as it is. -/
def execFfence (f : Fields) (s : State) : Out :=
  onPath s fun c => runPathWide s c f
    (f.mod == 0 && decide (f.x.toNat ≤ 2) && allZero [f.d, f.a, f.b, f.c])
    (retire (if f.x = 2 then s else fenceCode s c.core c.gid (threadsOf c.gid c.p.mask)) c)

/-! ## Traps and breakpoints (R285, R286) -/

/-- D of TRAP and BKPT is a scalar register or zero. -/
def trapLegal (f : Fields) : Bool :=
  f.mod == 0 && f.x == 0 &&
    match opnd f.d with
    | .s _ => true
    | .zero => true
    | _ => false

/-- Writes IMM27 into D and raises a cause that resumes behind the instruction. -/
def softTrap (s : State) (c : Iss) (f : Fields) (cause : Nat) : State :=
  takeTrapAfter (modGroup s c.gid fun g => writeScal g false (opnd f.d) f.imm27.toNat) c cause f.imm27.toNat

/-- TRAP. -/
def execTrap (f : Fields) (s : State) : Out :=
  onPath s fun c => runMasked s c f (trapLegal f) fun _ => softTrap s c f causeSoftware

/-- BKPT: in a context whose DBG_CTX enables it, the group halts at the following slot instead (18 R430). -/
def execBkpt (f : Fields) (s : State) : Out :=
  onPath s fun c => runMasked s c f (trapLegal f) fun _ =>
    if spGet false (getPart s c.part).dbgCtx c.ctx then
      let s1 := modGroup s c.gid fun g => writeScal g false (opnd f.d) f.imm27.toNat
      let s2 := retire s1 c
      msix (modGroup s2 c.gid fun g => { g with halt := some .halted }) c.part 3
    else softTrap s c f causeBreakpoint

/-- RTT (R286, R186). -/
def execRtt (f : Fields) (s : State) : Out :=
  onPath s fun c => runPathWide s c f (noFields f)
    (match returnFromTrap (countRetired c.g true) c.live c.p with
      | none => takeTrap s c causeStack 0 0
      | some g => modGroup s c.gid fun _ => g)

end Sys2Proof.Machine
end

