-- ==== Sys2Proof/Machine/Memory.lean ====
section
/-!
DEFINITION. Loads and stores of global memory and scratchpad, FENCE, CALLD, and the cache invalidations
(12 R277, R284; 14 R327 to R333, R338, R349; 04 R80, R81).
-/
namespace Sys2Proof.Machine

/-! ## LD, LDA, ST, STL, PFT (R327 to R331) -/

/-- The operands every MEM instruction with a record has: X 0 to 4, a 32-bit index, a record's scalar. -/
def memLegal (c : Iss) (f : Fields) : Bool :=
  decide (f.x.toNat ≤ 4) && srcLegal c false (opnd f.a) && (recScalar f.b).isSome

/-- Whether a lane reads a poisoned index or record word. -/
def memBad (c : Iss) (f : Fields) (lane : Nat) : Bool :=
  srcBad c false (opnd f.a) lane ||
    match recScalar f.b with
    | some n => recPoisoned c.g n
    | none => false

/-- The register bits of one loaded element. -/
def loadValue (ftz sx : Bool) (r : BufRec) (x : Nat) (hi : Bool) (raw : Nat) : Nat :=
  if r.typed then
    typedLoad ftz r.format x (if r.nibble then (if hi then raw / 16 else raw % 16) else raw)
  else signLoad sx x raw

/-- The threads that a lane's access belongs to: the lane's, or with a scalar destination those of all active lanes. -/
def loaders (c : Iss) (d : Opnd) (act : Mask) (lane : Nat) : List Agent :=
  if d.isScalarReg then threadsOf c.gid act else [.thread c.gid lane]

/-- Reads the lanes' elements in ascending lane order: lane, register bits, poison. `acq` is the scope of the acquire edge
behind each lane's read. -/
def loadLanes (one : LaneLoc → Nat → Nat) (who : Nat → List Agent) (acq : Option Nat) :
    State → List LaneLoc → List (Nat × Nat × Bool) × State
  | s, [] => ([], s)
  | s, l :: rest =>
    let b := readBytes s (who l.lane) l.cmp l.kind l.loc l.size
    let t := match acq with
      | some k => acquireAll b.2 (who l.lane) k b.1.rels
      | none => b.2
    let q := loadLanes one who acq t rest
    ((l.lane, one l (leNat b.1.bytes), b.1.bad) :: q.1, q.2)

/-- What a lane's destination receives: zero for a lane without an access (R34). -/
def loadedOf (vs : List (Nat × Nat × Bool)) (lane : Nat) : Nat × Bool :=
  match vs.find? fun v => v.1 == lane with
  | some v => v.2
  | none => (0, false)

/-- LD and LDA: `acq` is the scope of LDA's acquire edge. One behind an atomic of its thread on the same bytes waits. -/
def globalLoad (s : State) (c : Iss) (f : Fields) (sx : Bool) (acq : Option Nat) (act : Mask) : State :=
  let x := f.x.toNat
  let d := opnd f.d
  let lanes := if d.isScalarReg then [lowLane act] else lanesOf act
  match lanes.find? (memBad c f) with
  | some l => trapPoison s c l
  | none => withRecord s c f false (recForbids · x) fun r =>
    match prepAccess s c .read (some .rd) (r.size x) (lanePlaces s c r (r.size x) (opnd f.a) f.imm9 lanes) with
    | .stop t => t
    | .go ls =>
      if ls.any fun l => atomAhead s (loaders c d act l.lane) l then s
      else
      let q := loadLanes (fun l raw => loadValue (ftzOn c) sx r x l.hi raw) (loaders c d act) acq s ls
      retireOp q.2 c false (lanes.flatMap fun l => blockWrites d (blockRegs x) l (loadedOf q.1 l).1 (loadedOf q.1 l).2)

def execLd (f : Fields) (s : State) : Out :=
  onPath s fun c =>
    let m := f.mod.toNat
    runCounted s c f false (memLegal c f && decide (m < 8) && m % 4 != 3 && (!bitOf m 2 || decide (f.x.toNat ≤ 1))
      && loadDst c f.x.toNat (opnd f.d) (opnd f.a)) (globalLoad s c f (bitOf m 2) none)

def execLda (f : Fields) (s : State) : Out :=
  onPath s fun c =>
    runCounted s c f false (memLegal c f && decide (f.mod.toNat < 7) && loadDst c f.x.toNat (opnd f.d) (opnd f.a))
      (globalLoad s c f false (some f.mod.toNat))

/-- The storage bits that D gives a lane. -/
def storedBits (s : State) (c : Iss) (f : Fields) (r : BufRec) (lane : Nat) : Nat :=
  let x := f.x.toNat
  let v := storeVal s c (storeTy r x) (opnd f.d) (blockRegs x) lane
  if r.typed then typedStore s c r.format x lane v else v

/-- The lanes whose values one location takes: the last, or of 4-bit elements the last for each half of the byte. -/
def topLanes (nibble : Bool) (here : List LaneLoc) : List LaneLoc :=
  if nibble then ((here.filter fun l => !l.hi).getLast?.toList ++ (here.filter fun l => l.hi).getLast?.toList)
  else here.getLast?.toList

/-- A byte with the lanes' 4-bit elements merged into it (02 R37). -/
def mergeNibbles (val : Nat → Nat) (o : Nat) (tops : List LaneLoc) : Nat :=
  tops.foldl (fun o l => if l.hi then o % 16 + val l.lane % 16 * 16 else o / 16 * 16 + val l.lane % 16) o

/-- What the lanes of one store write at one location (02 R37, R41): the highest lane's element, or one byte of merged
4-bit elements, with the release edges of the lanes whose values it takes. -/
def storeHere (gid : Nat) (nibble : Bool) (val : Nat → Nat) (rel : Option Nat) (s : State) (here : List LaneLoc) : State :=
  match here.getLast? with
  | none => s
  | some l =>
    let ag := Agent.thread gid l.lane
    let tops := topLanes nibble here
    let rels := match rel with
      | some k => releaseOfAll s (tops.map fun t => .thread gid t.lane) k
      | none => []
    let old := if nibble then readBytes s [ag] l.cmp l.kind l.loc 1 else (⟨[], false, []⟩, s)
    let bs := if nibble then leBytes 1 (mergeNibbles val (leNat old.1.bytes) tops) else leBytes l.size (val l.lane)
    let t := storeBytes old.2 ag l.cmp l.kind l.va l.loc bs false rels
    shareStores t ag old.2.stores ((here.filter fun x => x.lane != l.lane).map fun x => .thread gid x.lane)

/-- The stores of the lanes of one instruction, location by location. -/
def storeLanes (gid : Nat) (nibble : Bool) (val : Nat → Nat) (rel : Option Nat) (s : State) (ls : List LaneLoc) : State :=
  ((ls.map (·.loc)).eraseDups).foldl (fun s a => storeHere gid nibble val rel s (ls.filter fun l => l.loc == a)) s

/-- ST and STL: `rel` is the scope of STL's release edge; a lane that makes no access passes none (02 R34). One behind an
atomic of its thread on the same bytes waits. -/
def globalStore (s : State) (c : Iss) (f : Fields) (rel : Option Nat) (act : Mask) : State :=
  let x := f.x.toNat
  let lanes := lanesOf act
  match lanes.find? (fun l => memBad c f l || blockBad c.g (opnd f.d) (blockRegs x) l) with
  | some l => trapPoison s c l
  | none => withRecord s c f false (recForbids · x) fun r =>
    match prepAccess s c .write (some .wr) (r.size x) (lanePlaces s c r (r.size x) (opnd f.a) f.imm9 lanes) with
    | .stop t => t
    | .go ls =>
      if ls.any fun l => atomAhead s [.thread c.gid l.lane] l then s
      else
      let s1 := match rel with
        | some k => if ls.isEmpty then s else publishAt s c.core k
        | none => s
      retireOp (storeLanes c.gid r.nibble (storedBits s c f r) rel s1 ls) c true []

def execSt (f : Fields) (s : State) : Out :=
  onPath s fun c =>
    runCounted s c f true (memLegal c f && decide (f.mod.toNat < 3) && storeSrc c f.x.toNat (opnd f.d))
      (globalStore s c f none)

def execStl (f : Fields) (s : State) : Out :=
  onPath s fun c =>
    runCounted s c f true (memLegal c f && decide (f.mod.toNat < 7) && storeSrc c f.x.toNat (opnd f.d))
      (globalStore s c f (some f.mod.toNat))

/-- The lanes of a prefetch that translate; the others are dropped (R331). -/
def prefetchLocs (s : State) (c : Iss) (sz : Nat) (ps : List (Nat × Placed)) : List LaneLoc :=
  ((placedAccs sz ps).filter fun a => a.va % sz == 0).flatMap fun a =>
    match xlateSet s (.core c.core) c.part c.ctx .read (c.sup s) [a] with
    | .ok ls => ls
    | _ => []

/-- PFT (R331): it changes no value; the L1 and the L2, or the L2 alone, take the sectors. -/
def execPft (f : Fields) (s : State) : Out :=
  onPath s fun c =>
    let x := f.x.toNat
    runMasked s c f (memLegal c f && decide (f.mod.toNat < 2) && f.d == zeroCode) fun act =>
      withRecord s c f false (recForbids · x) fun r =>
        let ls := prefetchLocs s c (r.size x) (lanePlaces s c r (r.size x) (opnd f.a) f.imm9 (lanesOf act))
        retire (ls.foldl (fun t l =>
          if l.kind = 3 then t
          else if f.mod = 0 then askCaches t (.thread c.gid l.lane) l.cmp l.loc l.size
          else l2Asked t l.cmp l.loc l.size) s) c

/-! ## LDS and STS (R332, R333; 04 R81) -/

def spadLegal (c : Iss) (f : Fields) : Bool :=
  decide (f.x.toNat ≤ 4) && srcLegal c false (opnd f.a) && spadBase (opnd f.b) && srcLegal c false (opnd f.b)

def spadSrcBad (c : Iss) (f : Fields) (lane : Nat) : Bool :=
  srcBad c false (opnd f.a) lane || srcBad c false (opnd f.b) lane

/-- The granules of some accesses. -/
def accGranules (sz : Nat) (as : List SpadAcc) : List Nat := (as.flatMap fun a => granules a.off.toNat sz).eraseDups

/-- One lane's read of scratchpad. An LDS.fe returns the stores that made its granules full, and is an acquire edge at .team
that observes their release edges (06 R142). -/
def spadLane (s : State) (ags : List Agent) (tid : Nat) (fe : Bool) (o n : Nat) : Got × State :=
  let fills := if fe then (granules o n).filterMap fun k => (getTeam s tid).bind fun t => spFind t.filled k else []
  let s1 := ags.foldl (fun s a => learn s a (fills.flatMap (·.2))) s
  let q := spadGet s1 ags tid o n
  (q.1, if fe then acquireAll q.2 ags 1 (fills.flatMap (·.1)) else q.2)

/-- The lanes' reads in ascending order: lane, bytes as a number, poison. -/
def spadLanes (tid : Nat) (who : Nat → List Agent) (fe : Bool) (n : Nat) : State → List SpadAcc → List (Nat × Nat × Bool) × State
  | s, [] => ([], s)
  | s, a :: r =>
    let b := spadLane s (who a.lane) tid fe a.off.toNat n
    let q := spadLanes tid who fe n b.2 r
    ((a.lane, leNat b.1.bytes, b.1.bad) :: q.1, q.2)

/-- LDS after its checks: FE forms wait until every granule is full. -/
def spadLoad (s : State) (c : Iss) (f : Fields) (act : Mask) (as : List SpadAcc) : State :=
  let x := f.x.toNat
  let fe := f.mod.toNat % 4
  let grs := accGranules (2 ^ x) as
  if fe ≠ 0 ∧ !grs.all (spadFull c.t) then waitOn s c .fullEmpty
  else
    let q := spadLanes c.g.team (loaders c (opnd f.d) act) (fe != 0) (2 ^ x) s as
    let s1 := if fe = 2 then modTeam q.2 c.g.team fun t => setFull t false grs else q.2
    retireOp s1 c false (q.1.flatMap fun e =>
      blockWrites (opnd f.d) (blockRegs x) e.1 (signLoad (bitOf f.mod.toNat 2) x e.2.1) e.2.2)

def execLds (f : Fields) (s : State) : Out :=
  onPath s fun c =>
    let m := f.mod.toNat
    let x := f.x.toNat
    runCounted s c f false (spadLegal c f && decide (m < 8) && m % 4 != 3 && (!bitOf m 2 || decide (x ≤ 1))
        && loadDst c x (opnd f.d) (opnd f.a)) fun act =>
      let lanes := if (opnd f.d).isScalarReg then [lowLane act] else lanesOf act
      match lanes.find? (spadSrcBad c f) with
      | some l => trapPoison s c l
      | none =>
        let as := spadAccs s c f f.imm9 (2 ^ x) lanes
        prepSpad s c .rd (2 ^ x) as (spadLoad s c f act as)

/-- The stores of the lanes at one place of scratchpad: the highest lane's (02 R41). -/
def spadHere (gid tid n : Nat) (val : Nat → Nat) (s : State) (here : List Nat) (o : Nat) : State :=
  match here.getLast? with
  | none => s
  | some l =>
    let ag := Agent.thread gid l
    shareStores (spadPut s ag tid o (leBytes n (val l)) false) ag s.stores
      ((here.filter fun x => x != l).map fun x => .thread gid x)

/-- STS after its checks; STS.full is a release edge at .team before its store, which the granules keep (06 R142). -/
def spadStore (s : State) (c : Iss) (f : Fields) (as : List SpadAcc) : State :=
  let x := f.x.toNat
  let ty : Ty := if x = 3 then .q64 else .w32
  let put (s : State) (o : Int) : State :=
    let here := (as.filter fun a => a.off == o).map (·.lane)
    let rels := releaseOfAll s (here.map (Agent.thread c.gid)) 1
    let t := spadHere c.gid c.g.team (2 ^ x) (storeVal s c ty (opnd f.d) (blockRegs x)) s here o.toNat
    if f.mod = 1 then modTeam t c.g.team fun k =>
      fillGranules k rels ((List.range (t.stores - s.stores)).map (· + s.stores)) (granules o.toNat (2 ^ x))
    else t
  retireOp (((as.map (·.off)).eraseDups).foldl put s) c true []

def execSts (f : Fields) (s : State) : Out :=
  onPath s fun c =>
    let x := f.x.toNat
    runCounted s c f true (spadLegal c f && decide (f.mod.toNat < 2) && storeSrc c x (opnd f.d)) fun act =>
      match (lanesOf act).find? (fun l => spadSrcBad c f l || blockBad c.g (opnd f.d) (blockRegs x) l) with
      | some l => trapPoison s c l
      | none =>
        let as := spadAccs s c f f.imm9 (2 ^ x) (lanesOf act)
        prepSpad s c .wr (2 ^ x) as (spadStore s c f as)

/-! ## FENCE (R338) -/

/-- A fence of threads, each with its own edges; its release writes the core's dirty bytes to the L2 (R114). -/
def fenceThreads (s : State) (core : Nat) (ags : List Agent) (kind scope : Nat) : State :=
  ags.foldl (fun s a => fenceOf s a kind scope) (if kind = 1 then s else publishAt s core scope)

def execFence (f : Fields) (s : State) : Out :=
  onPath s fun c =>
    runMasked s c f (decide (f.x.toNat < 4) && decide (f.mod.toNat < 7)
        && [f.d, f.a, f.b, f.c].all (· == zeroCode)) fun act =>
      retire (fenceThreads s c.core (threadsOf c.gid act) f.x.toNat f.mod.toNat) c

/-! ## CALLD (12 R277) -/

def calldLegal (c : Iss) (f : Fields) : Bool :=
  f.x == 3 && decide (f.mod.toNat < 7) && f.d == 0 && (opnd f.a).isUniform && srcLegal c false (opnd f.a)
    && (recScalar f.b).isSome

/-- The call through an entry that has been read; `rels` are the release edges that its acquire edge may observe.
ADDR of a clause address that is not aligned is that address, e[47:0] (log 125). -/
def calldThrough (s : State) (c : Iss) (scope lane e : Nat) (rels : List RelInfo) : State :=
  if bitsOf e 48 16 = 0 then trapClauseAddr s c causeDictHandle
  else if e % 4 ≠ 0 then takeTrap s c causeMisaligned lane (bitsOf e 0 48)
  else if !retRoom c.g then takeTrap s c causeStack 0 0
  else
    let s1 := callTo (acquireAll s (threadsOf c.gid c.p.mask) scope rels) c (bitsOf e 0 48)
    modPath s1 c.gid c.live fun p => { p with handle := bitsOf e 48 16 }

def execCalld (f : Fields) (s : State) : Out :=
  onPath s fun c => runPathWide s c f (calldLegal c f)
    (let lane := lowLane c.p.mask
     if memBad c f lane then trapPoison s c lane
     else withRecord s c f false (fun r => r.typed || recForbids r 3) fun r =>
       match prepAccess s c .read (some .rd) 8 (lanePlaces s c r 8 (opnd f.a) f.imm9 [lane]) with
       | .stop t => t
       | .go [] => calldThrough s c f.mod.toNat lane 0 []
       | .go (l :: _) =>
         if atomAhead s (threadsOf c.gid c.p.mask) l then s
         else
         let b := readBytes s (threadsOf c.gid c.p.mask) l.cmp l.kind l.loc 8
         if b.1.bad then trapPoison b.2 c lane
         else calldThrough b.2 c f.mod.toNat lane (leNat b.1.bytes) b.1.rels)

/-! ## ICINV and CINV (12 R284, R349) -/

/-- The cores of an issuing core's instance of a scope, .core or wider, among those that hold anything (05 R102). -/
def scopeCores (s : State) (core scope : Nat) : List Nat :=
  let place (k : Nat) : Place := { core := some k, cluster := some (clusterOf k), part := some (partOfCore s k) }
  if scope = 2 then [core] else (s.cores.map (·.1)).filter fun k => (place core).holds s scope (place k)

/-- The partitions of an issuer's instance of a scope, .dev or wider. -/
def scopeParts (s : State) (part scope : Nat) : List Nat := if scope = 4 then [part] else fabricDomain s part

/-- The operands of R284: A 0x160; C, D and X zero; MOD holds a scope from .core on. -/
def rangeLegal (f : Fields) : Bool :=
  decide (2 ≤ f.mod.toNat % 8) && decide (f.mod.toNat % 8 < 7) && f.a == zeroCode && f.c == 0 && f.d == 0 && f.x == 0
    && (recScalar f.b).isSome

/-- The record of R284, which SWIZZLE must leave linear. -/
def rangeRecord (s : State) (c : Iss) (f : Fields) (body : BufRec → State) : State :=
  if memBad c f (lowLane (active c f)) then trapPoison s c (lowLane (active c f))
  else withRecord s c f false (fun _ => false) fun r =>
    if r.swizzle ≠ 0 then takeTrap s c causeRecord 0 0 else body r

def BufRec.bytes (r : BufRec) : Nat := r.extent * r.stride'

/-- Whether [a, a + n) and [b, b + m) share a byte. -/
def overlap (a n b m : Nat) : Bool := decide (0 < n) && decide (0 < m) && decide (a < b + m) && decide (b < a + n)

/-- The place, as location and length, of the bytes of [base, base + n) in the 4 KiB granule at va; none without a valid,
non-migrating leaf, and none at or beyond 2^64, where the range does not wrap (R284). -/
def granulePlace (s : State) (core part ctx base n va : Nat) : List (Nat × Nat) :=
  if 2 ^ 64 ≤ va then []
  else match walk s (.core core) part ctx va with
  | .leaf e lvl =>
    if bitOf e 63 then []
    else
      let lo := max base va
      let hi := min (base + n) (va + 4096)
      [(locOf s part (bitsOf e 8 2) (leafPa e lvl va) + (lo - va), hi - lo)]
  | _ => []

/-- The places of the bytes of a range that translate. -/
def rangePlaces (s : State) (core part ctx base n : Nat) : List (Nat × Nat) :=
  (List.range ((base + n + 4095) / 4096 - base / 4096)).flatMap fun i =>
    granulePlace s core part ctx base n ((base / 4096 + i) * 4096)

/-- The lines, by location div 128, of the translated range. -/
def rangeLines (s : State) (core part ctx base n : Nat) : List Nat :=
  (rangePlaces s core part ctx base n).flatMap fun p =>
    (List.range ((p.1 + p.2 + 127) / 128 - p.1 / 128)).map (· + p.1 / 128)

/-- Whether an ICINV covers a byte of [va, va + n) of a context: by the addresses of its own context, whatever they translate to
(R284), or by place (log 12). -/
def CodeInv.covers (s : State) (core : Nat) (v : CodeInv) (part ctx va n : Nat) : Bool :=
  (v.part == part && v.ctx == ctx && overlap v.base v.bytes va n)
    || (rangePlaces s core part ctx va n).any fun p => v.places.any fun q => overlap p.1 p.2 q.1 q.2

/-- Whether an ICINV takes a dictionary slot of a core (R143, 11 R248): one with a byte of its image or directory entry in the
range. -/
def dictCovered (s : State) (core : Nat) (v : CodeInv) (d : DictSlot) : Bool :=
  v.covers s core d.part d.ctx d.addr 4096 || v.covers s core d.part d.ctx (ctxBase s d.part d.ctx 256 + 16 * d.handle) 16

/-- The stores that happen before what some threads do next: what they have acquired, and what their release edges so far have
ordered (05 R119). -/
def orderedFor (s : State) (ags : List Agent) : List Nat :=
  ags.foldl (fun l a => addIds (addIds l (getKnow s a).hb) (getKnow s a).out) []

/-- ICINV of a range by some threads (R143): the dictionary slots of the instance's cores that it covers go, and the lines of
their instruction caches; a store that happens before it is what fetches return behind an FFENCE that it happens before
(R144). -/
def icinvRange (s : State) (c : Iss) (ags : List Agent) (scope base n : Nat) : State :=
  if n = 0 then s
  else
    let v : CodeInv :=
      { id := s.stores, place := (Agent.thread c.gid 0).place s, scope := scope, part := c.part, ctx := c.ctx, base := base
        bytes := n, places := rangePlaces s c.core c.part c.ctx base n, ids := orderedFor s ags }
    let s1 := ags.foldl (fun s a => modKnow s a fun k => { k with seen := addIds k.seen [v.id] })
      { s with icinvs := s.icinvs ++ [v], stores := s.stores + 1 }
    (scopeCores s c.core scope).foldl (fun t k => modCore t k fun q =>
      { q with
        dicts := q.dicts.filter fun d => !dictCovered s k v d
        fetched := q.fetched.filter fun l => !v.covers s k l.part l.ctx (128 * l.line) 128 }) s1

def execIcinv (f : Fields) (s : State) : Out :=
  onPath s fun c =>
    runCounted s c f true (rangeLegal f && decide (f.mod.toNat < 8)) fun act =>
      rangeRecord s c f fun r => retireOp (icinvRange s c (threadsOf c.gid act) f.mod.toNat r.base r.bytes) c true []

/-- Writes back and drops lines in the data caches of an instance. -/
def cinvData (s : State) (c : Iss) (scope : Nat) (lines : List Nat) : State :=
  let s1 := (scopeCores s c.core scope).foldl (fun t k => coreDrop t k lines.contains) s
  if scope < 4 then s1
  else (lines.filter fun l => match l2Find s1 l with
    | some ln => (scopeParts s c.part scope).contains (lineHolder s l ln)
    | none => false).foldl l2WriteBack s1

/-- Drops lines in the Canisters of an instance. -/
def cinvCanister (s : State) (c : Iss) (scope : Nat) (lines : List Nat) : State :=
  let mine (k : Nat) : Bool :=
    if scope < 4 then k == clusterOf c.core
    else (scopeParts s c.part scope).contains (partOfCluster s k)
  { s with clusters := s.clusters.map fun e =>
      if mine e.1 then (e.1, { e.2 with lines := e.2.lines.filter fun l => !lines.contains l.1 }) else e }

def execCinv (f : Fields) (s : State) : Out :=
  onPath s fun c =>
    let what := f.mod.toNat / 8
    let scope := f.mod.toNat % 8
    runCounted s c f true (rangeLegal f && decide (what < 3)) fun _ =>
      rangeRecord s c f fun r =>
        let lines := if r.bytes = 0 then [] else rangeLines s c.core c.part c.ctx r.base r.bytes
        let s1 := if what = 1 then s else cinvData s c scope lines
        retireOp (if what = 0 then s1 else cinvCanister s1 c scope lines) c true []

end Sys2Proof.Machine
end

