-- ==== Sys2Proof/Machine/Atomics.lean ====
section
/-!
DEFINITION. Atomics: ATOM and ACAS with their read-modify-writes at the home slice, and ATOMS on scratchpad
(14 R334 to R337; 07 R172; 04 R84, R86; 05 R107).
-/
namespace Sys2Proof.Machine

/-- OP, ORDER and SCOPE, held in C (R334). -/
def atomOp (f : Fields) : Nat := f.c.toNat / 32
def atomOrder (f : Fields) : Nat := f.c.toNat / 8 % 4
def atomScope (f : Fields) : Nat := f.c.toNat % 8

/-- New value of R335 and R336 on w bits. -/
def atomNew (op w : Nat) (e : Int) (old x : Nat) : Nat :=
  match op with
  | 0 => (old + x) % 2 ^ w
  | 1 => if sext w x < sext w old then x else old
  | 2 => min old x
  | 3 => if sext w old < sext w x then x else old
  | 4 => max old x
  | 5 => Nat.land old x
  | 6 => Nat.lor old x
  | 7 => Nat.xor old x
  | 8 => x
  | _ => wrapBits w ((old : Int) + fxQuant (decodeFmt 1 x) e)

/-- The fields of ATOM and ATOMS: X is 2 or 3; a relaxed one has no scope; MOD is E for fxadd and else zero. -/
def atomFields (f : Fields) : Bool :=
  let op := atomOp f
  (f.x == 2 || f.x == 3) && decide (op ≤ 9) && atomScope f != 7 && (atomOrder f != 0 || atomScope f == 0)
    && (op == 9 || f.mod == 0) && (op != 9 || f.x == 3)

/-- D of ATOM and ATOMS: a vector block of the access size, or zero. -/
def atomDst (c : Iss) (f : Fields) : Bool := blockCode c (blockRegs f.x.toNat) (opnd f.d) && !(opnd f.d).isScalarReg

/-- Registers of D that ATOM reads: the first alone for fxadd. -/
def atomRead (f : Fields) : Nat := if atomOp f = 9 then 1 else blockRegs f.x.toNat

def atomE (f : Fields) : Int := f.mod.toInt

/-- The vector register an operation writes. -/
def vecReg (o : Opnd) : Option Nat :=
  match o with
  | .v n => some n
  | _ => none

/-! ## ATOM and ACAS -/

/-- The partition at whose home slice a lane's request arrives: the owner of device memory; lines of the host and of other
devices hash over the issuer's slices (04 R85). -/
def atomPart (s : State) (c : Iss) (l : LaneLoc) : Nat := if l.loc < hbmSize then ownerOf s l.loc else c.part

/-- The request of one lane. -/
def atomReq (s : State) (c : Iss) (f : Fields) (cas : Bool) (l : LaneLoc) : AtomReq :=
  let n := blockRegs f.x.toNat
  let d := opnd f.d
  { op := s.order, gid := c.gid, core := c.core, loc := l.loc, kind := l.kind, cmp := l.cmp, size := l.size
    code := atomOp f, scale := atomE f
    operand := if cas then blockVal c.g (match d with
        | .v k => .v (k + n)
        | o => o) n l.lane
      else blockVal c.g d (atomRead f) l.lane
    compare := if cas then blockVal c.g d n l.lane else 0
    cas := cas, lane := l.lane, dst := vecReg d
    acquire := if atomOrder f % 2 = 1 then some (atomScope f) else none
    release := if 2 ≤ atomOrder f then some (atomScope f) else none
    slice := homeSlice s (atomPart s c l) (homeAddr s (atomPart s c l) l.loc), va := l.va
    know := knowAtIssue s (.thread c.gid l.lane) }

/-- The zero results of lanes that make no access (R34, R337). -/
def atomDropped (f : Fields) (cas : Bool) (act : Mask) (ls : List LaneLoc) : List RegWrite :=
  ((lanesOf act).filter fun l => !ls.any fun x => x.lane == l).flatMap fun l =>
    blockWrites (opnd f.d) (blockRegs f.x.toNat) l 0 false ++ (if cas then [.pred pq l false] else [])

/-- Sends the lanes to the home slices: the release edge writes the core's dirty bytes to the L2, the core's own bytes of
each line follow and its copy goes (04 R84), the requests arrive in ascending lane order, and the operation collects
their results. -/
def sendAtoms (s : State) (c : Iss) (f : Fields) (cas : Bool) (act : Mask) (ls : List LaneLoc) : State :=
  let s1 := if 2 ≤ atomOrder f ∧ !ls.isEmpty then publishAt s c.core (atomScope f) else s
  let s2 := ls.foldl (fun t l => if l.kind = 3 then t else coreDrop t c.core fun k => k == l.loc / 128) s1
  let s3 := ls.foldl (fun t l => modPart t (atomPart s c l) fun p => { p with atoms := p.atoms ++ [atomReq s2 c f cas l] }) s2
  startOp (retire s3 c)
    { gid := c.gid, flag := setFlag c.p false, writes := atomDropped f cas act ls, left := ls.length }

/-- ATOM and ACAS behind their decode checks; `n` registers of D are sources. -/
def globalAtom (s : State) (c : Iss) (f : Fields) (cas : Bool) (n : Nat) (act : Mask) : State :=
  let x := f.x.toNat
  match (lanesOf act).find? (fun l => memBad c f l || blockBad c.g (opnd f.d) n l) with
  | some l => trapPoison s c l
  | none => withRecord s c f true (recForbids · x) fun r =>
    match prepAccess s c .atomic (some .at) (2 ^ x) (lanePlaces s c r (2 ^ x) (opnd f.a) 0 (lanesOf act)) with
    | .stop t => t
    | .go ls => sendAtoms s c f cas act ls

def execAtom (f : Fields) (s : State) : Out :=
  onPath s fun c => runCounted s c f false (memLegal c f && atomFields f && atomDst c f)
    (globalAtom s c f false (atomRead f))

/-- D of ACAS: an even pair for X = 2, four registers from a multiple of 4 for X = 3 (R337). -/
def acasDst (c : Iss) (f : Fields) : Bool :=
  match opnd f.d with
  | .v k => blockCode c (2 * blockRegs f.x.toNat) (.v k)
  | _ => false

def execAcas (f : Fields) (s : State) : Out :=
  onPath s fun c =>
    runCounted s c f false (memLegal c f && atomFields f && atomOp f == 0 && acasDst c f)
      (globalAtom s c f true (2 * blockRegs f.x.toNat))

/-- What a request writes over the old bytes. A compare that fails writes them again (R337). -/
def AtomReq.over (a : AtomReq) (bytes : List Byte) : List Byte :=
  let old := leNat bytes
  leBytes a.size (if a.cas then (if old == a.compare then a.operand else old)
    else atomNew a.code (8 * a.size) a.scale old a.operand)

/-- One read-modify-write at the home slice, with its edges (05 R113): what it returns, and the state after it. -/
def homeAtomic (s : State) (a : AtomReq) : Got × State :=
  let ag := Agent.thread a.gid a.lane
  let q := readUnder s ag a.know fun t =>
    rmwUnit t ag a.cmp a.kind a.va a.loc a.size a.over (match a.release with
      | some k => [releaseOf t ag k]
      | none => [])
  (q.1, match a.acquire with
    | some k => acquire q.2 ag k q.1.rels
    | none => q.2)

/-- The oldest request at each of a partition's slices (R86). -/
def sliceHeads : List Nat → List AtomReq → List AtomReq
  | _, [] => []
  | seen, a :: r => if seen.contains a.slice then sliceHeads seen r else a :: sliceHeads (a.slice :: seen) r

/-- HOME_SLICE_ATOMIC (04 R86): the oldest request of some slice of a partition is performed. -/
def tryHomeSliceAtomic (part : Nat) (s : State) : Event :=
  let hs := sliceHeads [] (getPart s part).atoms
  let k := chooseBelow s hs.length
  match hs.drop k.1 with
  | [] => .refused .idle
  | a :: _ =>
    let q := homeAtomic (modPart k.2 part fun p => { p with atoms := p.atoms.erase a }) a
    let ws := (match a.dst with
      | some r => blockWrites (.v r) (blockRegs (if a.size = 8 then 3 else 2)) a.lane (leNat q.1.bytes) q.1.bad
      | none => []) ++ (if a.cas && a.dst.isSome then [.pred pq a.lane (leNat q.1.bytes == a.compare)] else [])
    .next (feedOp q.2 a.op ws)

def execHomeSliceAtomic (part : Nat) (s : State) : Out := settle s (tryHomeSliceAtomic part s)

/-! ## ATOMS -/

/-- The lanes' read-modify-writes on scratchpad in ascending order: their register writes and the state after them. -/
def spadAtomics (c : Iss) (f : Fields) : State → List SpadAcc → List RegWrite × State
  | s, [] => ([], s)
  | s, a :: r =>
    let sz := 2 ^ f.x.toNat
    let x := blockVal c.g (opnd f.d) (atomRead f) a.lane
    let q := spadRmw s (.thread c.gid a.lane) c.g.team a.off.toNat sz fun old =>
      leBytes sz (atomNew (atomOp f) (8 * sz) (atomE f) (leNat old) x)
    let rest := spadAtomics c f q.2 r
    (blockWrites (opnd f.d) (blockRegs f.x.toNat) a.lane (leNat q.1.bytes) q.1.bad ++ rest.1, rest.2)

def execAtoms (f : Fields) (s : State) : Out :=
  onPath s fun c =>
    runCounted s c f false (spadLegal c f && atomFields f && atomOrder f == 0 && atomDst c f) fun act =>
      match (lanesOf act).find? (fun l => spadSrcBad c f l || blockBad c.g (opnd f.d) (atomRead f) l) with
      | some l => trapPoison s c l
      | none =>
        let sz := 2 ^ f.x.toNat
        let as := spadAccs s c f 0 sz (lanesOf act)
        prepSpad s c .at sz as
          (let q := spadAtomics c f s as
           retireOp q.2 c false q.1)

end Sys2Proof.Machine
end

