-- ==== Sys2Proof/Machine/Crypto.lean ====
section
/-!
DEFINITION. SHAKE256 and Ed448, which 18 R429 names: as FIPS 202 and RFC 8032 publish them (log 14).
-/
namespace Sys2Proof.Machine

/-! ## SHAKE256 -/

/-- A number of 64 bits turned left by n places. -/
def turnLeft (x n : Nat) : Nat := x * 2 ^ n % 2 ^ 64 + x * 2 ^ n / 2 ^ 64

/-- The round constants of Keccak-f[1600]. -/
def keccakRounds : List Nat :=
  [0x0000000000000001, 0x0000000000008082, 0x800000000000808A, 0x8000000080008000, 0x000000000000808B, 0x0000000080000001]
    ++ [0x8000000080008081, 0x8000000000008009, 0x000000000000008A, 0x0000000000000088, 0x0000000080008009, 0x000000008000000A]
    ++ [0x000000008000808B, 0x800000000000008B, 0x8000000000008089, 0x8000000000008003, 0x8000000000008002, 0x8000000000000080]
    ++ [0x000000000000800A, 0x800000008000000A, 0x8000000080008081, 0x8000000000008080, 0x0000000080000001, 0x8000000080008008]

/-- By how much ρ turns the lane at x + 5 y. -/
def keccakTurns : List Nat :=
  [0, 1, 62, 28, 27, 36, 44, 6, 55, 20] ++ [3, 10, 43, 25, 39, 41, 45, 15, 21, 8] ++ [18, 2, 61, 56, 14]

/-- One round on 25 lanes, lane x + 5 y at that place: θ, ρ and π, χ, ι. -/
def keccakRound (a : List Nat) (rc : Nat) : List Nat :=
  let at_ (l : List Nat) (x y : Nat) : Nat := l.getD (x % 5 + 5 * (y % 5)) 0
  let c := (List.range 5).map fun x => (List.range 5).foldl (fun v y => Nat.xor v (at_ a x y)) 0
  let d := (List.range 5).map fun x => Nat.xor (c.getD ((x + 4) % 5) 0) (turnLeft (c.getD ((x + 1) % 5) 0) 1)
  let t := a.zipIdx.map fun e => turnLeft (Nat.xor e.1 (d.getD (e.2 % 5) 0)) (keccakTurns.getD e.2 0)
  -- the lane at (x, y) comes from (x + 3 y, x)
  let b := (List.range 25).map fun i => at_ t (i % 5 + 3 * (i / 5)) (i % 5)
  (List.range 25).map fun i =>
    let v := Nat.xor (b.getD i 0) (Nat.land (2 ^ 64 - 1 - at_ b (i % 5 + 1) (i / 5)) (at_ b (i % 5 + 2) (i / 5)))
    if i = 0 then Nat.xor v rc else v

def keccakF (a : List Nat) : List Nat := keccakRounds.foldl keccakRound a

/-- The 64-bit words of bytes, little-endian. -/
def lanesOfBytes (n : Nat) (bs : List Byte) : List Nat := (List.range n).map fun i => leNat ((bs.drop (8 * i)).take 8)

/-- Blocks of 136 bytes are absorbed in turn. -/
def shakeAbsorb : Nat → List Byte → List Nat → List Nat
  | 0, _, a => a
  | k + 1, bs, a =>
    shakeAbsorb k (bs.drop 136) (keccakF (a.zipIdx.map fun e => Nat.xor e.1 ((lanesOfBytes 17 (bs.take 136)).getD e.2 0)))

/-- Output blocks, 136 bytes each. -/
def shakeSqueeze : Nat → List Nat → List Byte
  | 0, _ => []
  | k + 1, a => (a.take 17).flatMap (leBytes 8) ++ shakeSqueeze k (keccakF a)

/-- n bytes of SHAKE256 of a message. -/
def shake256 (m : List Byte) (n : Nat) : List Byte :=
  let k := m.length / 136 + 1
  let padded := m ++ [0x1F] ++ List.replicate (136 * k - m.length - 1) 0
  let last := (padded.getD (136 * k - 1) 0) ^^^ 0x80
  (shakeSqueeze (n / 136 + 1) (shakeAbsorb k (padded.take (136 * k - 1) ++ [last]) (List.replicate 25 0))).take n

/-! ## Ed448 -/

def ed448P : Nat := 2 ^ 448 - 2 ^ 224 - 1
def ed448L : Nat := 2 ^ 446 - 13818066809895115352007386748515426880336692474882178609894547503885

/-- The field: sums, differences and products modulo p. -/
def edMul (a b : Nat) : Nat := a * b % ed448P
def edAdd (a b : Nat) : Nat := (a + b) % ed448P
def edSub (a b : Nat) : Nat := (a + (ed448P - b % ed448P)) % ed448P
/-- The curve's d, −39081. -/
def edD : Nat := ed448P - 39081

/-- A power, over the low n bits of the exponent. -/
def edPow (a e n : Nat) : Nat :=
  (List.range n).foldr (fun i r => let q := edMul r r; if bitOf e i then edMul q a else q) 1

/-- A point in projective coordinates. -/
structure EdPoint where
  x : Nat
  y : Nat
  z : Nat
  deriving DecidableEq, Repr

def EdPoint.zero : EdPoint := ⟨0, 1, 1⟩

def EdPoint.add (p q : EdPoint) : EdPoint :=
  let a := edMul p.z q.z
  let b := edMul a a
  let c := edMul p.x q.x
  let d := edMul p.y q.y
  let e := edMul edD (edMul c d)
  let f := edSub b e
  let g := edAdd b e
  let h := edMul (edAdd p.x p.y) (edAdd q.x q.y)
  ⟨edMul (edMul a f) (edSub (edSub h c) d), edMul (edMul a g) (edSub d c), edMul f g⟩

/-- [k] p, over the low n bits of k. -/
def EdPoint.mul (p : EdPoint) (k n : Nat) : EdPoint :=
  (List.range n).foldr (fun i r => let q := r.add r; if bitOf k i then q.add p else q) EdPoint.zero

/-- Whether two points are one. -/
def EdPoint.same (p q : EdPoint) : Bool := edMul p.x q.z == edMul q.x p.z && edMul p.y q.z == edMul q.y p.z

def edBase : EdPoint :=
  { x := 224580040295924300187604334099896036246789641632564134246125461686950415467406032909029192869357953282578032075146446173674602635247710
    y := 298819210078481492676017930443930673437544040154080242095928241372331506189835876003536878655418784733982303233503462500531545062832660
    z := 1 }

/-- A point from its 57 bytes; none when they stand for none. -/
def edDecode (bs : List Byte) : Option EdPoint :=
  let n := leNat bs
  let y := bitsOf n 0 455
  let odd := bitOf n 455
  if bs.length ≠ 57 ∨ ed448P ≤ y then none
  else
    let u := edSub (edMul y y) 1
    let v := edSub (edMul edD (edMul y y)) 1
    let u3 := edMul u (edMul u u)
    let v3 := edMul v (edMul v v)
    let x := edMul (edMul u3 v) (edPow (edMul (edMul u3 (edMul u u)) v3) ((ed448P - 3) / 4) 448)
    if edMul v (edMul x x) ≠ u ∨ (x = 0 ∧ odd = true) then none
    else some ⟨if bitOf x 0 = odd then x else ed448P - x, y, 1⟩

/-- The 57 bytes of a point. -/
def edEncode (p : EdPoint) : List Byte :=
  let i := edPow p.z (ed448P - 2) 448
  let x := edMul p.x i
  leBytes 57 (edMul p.y i + (if bitOf x 0 then 2 ^ 455 else 0))

/-- "SigEd448" and an empty context. -/
def edDom : List Byte := [0x53, 0x69, 0x67, 0x45, 0x64, 0x34, 0x34, 0x38, 0, 0]

def edHash (bs : List Byte) : Nat := leNat (shake256 (edDom ++ bs) 114) % ed448L

/-- Verification of a signature over a message with a public key, by the group equation with the cofactor. -/
def ed448Verify (sig msg key : List Byte) : Bool :=
  match edDecode (sig.take 57), edDecode key with
  | some r, some a =>
    let s := leNat (sig.drop 57)
    sig.length == 114 && decide (s < ed448L)
      && ((edBase.mul s 446).mul 4 3).same ((r.add (a.mul (edHash (sig.take 57 ++ key ++ msg)) 446)).mul 4 3)
  | _, _ => false

/-- The signature of a message with the key of a seed. -/
def ed448Sign (seed msg : List Byte) : List Byte :=
  let h := shake256 seed 114
  let s := leNat (h.take 56) / 4 * 4 % 2 ^ 447 + 2 ^ 447
  let key := edEncode (edBase.mul s 448)
  let r := edHash (h.drop 57 ++ msg)
  let rp := edEncode (edBase.mul r 446)
  rp ++ leBytes 57 ((r + edHash (rp ++ key ++ msg) * s) % ed448L)

end Sys2Proof.Machine
end

