-- ==== Sys2Proof/Machine/Lanes.lean ====
section
/-!
DEFINITION. Cross-lane instructions: LXCH, SCAN, REDUX, EQLN and DERIV (13 R318 to R323; 07 R171).
-/
namespace Sys2Proof.Machine

/-! ## LXCH (R319) -/

/-- The source lane of an active lane; none out of range. -/
def lxchLane (mode w l b : Nat) : Option Nat :=
  let base := l - l % w
  let r := l - base
  match mode with
  | 0 => some (base + b % w)
  | 1 => if b ≤ r then some (l - b) else none
  | 2 => if r + b < w then some (l + b) else none
  | 3 => some (base + Nat.xor r (b % w))
  | _ => some (base + (r + b) % w)

def lxchLegal (c : Iss) (f : Fields) : Bool :=
  let wide := bitOf f.mod.toNat 2
  decide (f.x.toNat ≤ 4) && decide (f.mod.toNat < 56) && f.mod.toNat % 4 == 0 && f.c == zeroCode
    && srcLegal c wide (opnd f.a) && srcLegal c false (opnd f.b) && vdstLegal c wide (opnd f.d)

def execLxch (f : Fields) (s : State) : Out :=
  onPath s fun c => runMasked s c f (lxchLegal c f) fun act =>
    let wide := bitOf f.mod.toNat 2
    let w := 2 ^ bitsOf f.mod.toNat 3 3
    let from_ (l : Nat) : Nat := (lxchLane f.x.toNat w l (srcVal s c .w32 (opnd f.b) l)).getD l
    match (lanesOf act).find? (fun l =>
        srcBad c false (opnd f.b) l || srcBad c wide (opnd f.a) (from_ l)) with
    | some l => trapPoison s c l
    | none => retire (modGroup s c.gid fun g => (lanesOf act).foldl (fun g l =>
        writeLane g wide (opnd f.d) l (srcVal s c (if wide then .q64 else .w32) (opnd f.a) (from_ l))) g) c

/-! ## SCAN and REDUX (R320, R321) -/

/-- The element type of MOD[5:3]: 0 f32, 1 f64, 2 i32, 3 n32, 4 i64, 5 n64, 6 b32, 7 b64. -/
def redTy (f : Fields) : Nat := bitsOf f.mod.toNat 3 3
def redFloat (f : Fields) : Bool := decide (redTy f < 2)
/-- The format code of a floating type. -/
def redCode (f : Fields) : Nat := if redTy f = 0 then 1 else 0
/-- The integer type of R287 for an integer element type. -/
def redIty (f : Fields) : Nat :=
  match redTy f with
  | 2 => 0
  | 3 => 1
  | 4 => 2
  | 5 => 3
  | 6 => 4
  | _ => 5
def redOperand (f : Fields) : Ty :=
  match redTy f with
  | 0 => .f32
  | 1 => .f64
  | _ => ity (redIty f)
def redOpc (f : Fields) : Nat := f.x.toNat % 8
def redRm (f : Fields) : Nat := bitsOf f.mod.toNat 1 2

/-- One step of the operation, on element bits. -/
def redStep (f : Fields) (a b : Nat) : Nat :=
  if redFloat f then
    let code := redCode f
    match redOpc f with
    | 0 => roundFmt code ((decodeFmt code a).add (decodeFmt code b) (redRm f == 3)) (ieeeMode (redRm f))
    | 1 => minMaxBits code false a b
    | _ => minMaxBits code true a b
  else
    let t := redIty f
    match redOpc f with
    | 0 => (a + b) % 2 ^ iwid t
    | 1 => iwrap t (min (inum t a) (inum t b))
    | 2 => iwrap t (max (inum t a) (inum t b))
    | 3 => Nat.land a b
    | 4 => Nat.lor a b
    | _ => Nat.xor a b

/-- The identity of the operation. -/
def redIdentity (f : Fields) : Nat :=
  if redFloat f then
    match redOpc f with
    | 0 => roundFmt (redCode f) (.fin true 0 1) .rne
    | 1 => roundFmt (redCode f) (.inf false) .rne
    | _ => roundFmt (redCode f) (.inf true) .rne
  else
    let t := redIty f
    match redOpc f with
    | 1 => iwrap t (ihi t)
    | 2 => iwrap t (ilo t)
    | 3 => 2 ^ iwid t - 1
    | _ => 0

def redLegal (c : Iss) (f : Fields) : Bool :=
  let ty := redTy f
  let op := redOpc f
  f.mod.toNat % 2 == 0 && decide (op ≤ 5) && (decide (op ≤ 2) || decide (6 ≤ ty))
    && (redRm f == 0 || (redFloat f && op == 0)) && f.b == zeroCode && f.c == zeroCode
    && srcLegal c (redOperand f).wide (opnd f.a)

/-- The results of SCAN over lanes in ascending order. -/
def scanLanes (f : Fields) (excl : Bool) (v : Nat → Nat) : List Nat → Nat → List (Nat × Nat)
  | [], _ => []
  | l :: r, acc =>
    let nxt := redStep f acc (v l)
    (l, if excl then acc else nxt) :: scanLanes f excl v r nxt

/-- One level of tree64: neighbours combine. -/
def treeLevel (op : Nat → Nat → Nat) : List Nat → List Nat
  | a :: b :: r => op a b :: treeLevel op r
  | l => l

/-- tree64 of R171: six levels over 64 values. -/
def tree64 (op : Nat → Nat → Nat) (v : List Nat) : Nat :=
  (treeLevel op (treeLevel op (treeLevel op (treeLevel op (treeLevel op (treeLevel op v)))))).headD 0

def execScan (f : Fields) (s : State) : Out :=
  onPath s fun c =>
    let wide := (redOperand f).wide
    runMasked s c f (redLegal c f && vdstLegal c wide (opnd f.d)) fun act =>
      match (lanesOf act).find? (srcBad c wide (opnd f.a)) with
      | some l => trapPoison s c l
      | none =>
        let rs := scanLanes f (decide (8 ≤ f.x.toNat)) (srcVal s c (redOperand f) (opnd f.a)) (lanesOf act) (redIdentity f)
        retire (modGroup s c.gid fun g => rs.foldl (fun g e => writeLane g wide (opnd f.d) e.1 e.2) g) c

def execRedux (f : Fields) (s : State) : Out :=
  onPath s fun c =>
    let wide := (redOperand f).wide
    runMasked s c f (redLegal c f && decide (f.x.toNat < 8) && dstLegal c wide (opnd f.d)) fun act =>
      match (lanesOf act).find? (srcBad c wide (opnd f.a)) with
      | some l => trapPoison s c l
      | none =>
        let v (l : Nat) : Nat :=
          if act.getLsbD l then srcVal s c (redOperand f) (opnd f.a) l else redIdentity f
        let r := tree64 (redStep f) ((List.range 64).map v)
        retire (modGroup s c.gid fun g =>
          (lanesOf act).foldl (fun g l => writeLane g wide (opnd f.d) l r) (writeScal g wide (opnd f.d) r)) c

/-! ## EQLN (R322) -/

def eqlnLegal (c : Iss) (f : Fields) : Bool :=
  let wide := bitOf f.mod.toNat 2
  (f.mod == 0 || f.mod == 4) && f.b == zeroCode && f.c == zeroCode && srcLegal c wide (opnd f.a)
    && (match f.x.toNat with
      | 0 => vdstLegal c true (opnd f.d)
      | 1 => vdstLegal c false (opnd f.d)
      | 2 => predLegal f.d
      | _ => false)

def execEqln (f : Fields) (s : State) : Out :=
  onPath s fun c => runMasked s c f (eqlnLegal c f) fun act =>
    let wide := bitOf f.mod.toNat 2
    let v (l : Nat) : Nat := srcVal s c (if wide then .q64 else .w32) (opnd f.a) l
    let peers (l : Nat) : Mask := maskWhere (lanesOf act) fun k => v k == v l
    match (lanesOf act).find? (srcBad c wide (opnd f.a)) with
    | some l => trapPoison s c l
    | none => retire (modGroup s c.gid fun g =>
        match f.x.toNat with
        | 0 => (lanesOf act).foldl (fun g l => writeLane g true (opnd f.d) l (peers l).toNat) g
        | 1 => (lanesOf act).foldl (fun g l => writeLane g false (opnd f.d) l (lowLane (peers l))) g
        | _ => g.setPred f.d.toNat act (if peers (lowLane act) = act then act else 0)) c

/-! ## DERIV (R323) -/

/-- The two lanes whose difference a lane takes: minuend, subtrahend. -/
def derivLanes (y coarse : Bool) (l : Nat) : Nat × Nat :=
  let q := l - l % 4
  if coarse then (if y then (q + 2, q) else (q + 1, q))
  else if y then (q + l % 2 + 2, q + l % 2)
  else (q + l % 4 / 2 * 2 + 1, q + l % 4 / 2 * 2)

def derivLegal (c : Iss) (f : Fields) : Bool :=
  (ftyp f == 0 || ftyp f == 2) && f.mod.toNat % 4 == 0 && decide (f.x.toNat < 4) && allZero [f.b, f.c]
    && srcLegal c false (opnd f.a) && vdstLegal c false (opnd f.d)

def execDeriv (f : Fields) (s : State) : Out :=
  onPath s fun c => runMasked s c f (derivLegal c f) fun act =>
    let code := fcode (ftyp f)
    let ls (l : Nat) : Nat × Nat := derivLanes (bitOf f.x.toNat 0) (bitOf f.x.toNat 1) l
    let v (l : Nat) : Nat := srcVal s c (fty (ftyp f)) (opnd f.a) l
    let el (es : List Nat) : Nat :=
      let x (k : Nat) : XReal := decodeFmt code (flushIf (ftzOn c) code (es.getD k 0))
      fltResult code ((x 0).sub (x 1) (frm f == 3)) (frm f) (ftzOn c) false
    match (lanesOf act).find? (fun l =>
        srcBad c false (opnd f.a) (ls l).1 || srcBad c false (opnd f.a) (ls l).2) with
    | some l => trapPoison s c l
    | none => retire (modGroup s c.gid fun g => (lanesOf act).foldl (fun g l =>
        writeLane g false (opnd f.d) l (perElem (ftyp f) [v (ls l).1, v (ls l).2] el)) g) c

end Sys2Proof.Machine
end

