-- ==== Sys2Proof/Machine/Codec.lean ====
section
/-!
DEFINITION. The stream formats ZB, DP, FOR and RAW: decoding frames and encoding them (15 R375 to R378; 03 R62, R63).
-/
namespace Sys2Proof.Machine

/-- What the next frame of a stream is. -/
inductive Frame where
  /-- the expanded bytes, and the stream bytes the frame takes -/
  | ok (bytes : List Byte) (used : Nat)
  | malformed
  | truncated
  deriving DecidableEq, Repr

/-- The fields of a FOR frame: 64 fields of w bits from a base. -/
def forWords (w base bits : Nat) : List Nat := (List.range 64).map fun i => (base + bitsOf bits (w * i) w) % 2 ^ 32

/-- Bytes that a frame takes, once its leading bytes are there; none when even these are cut off. -/
def streamFrame (fmt : Nat) (bs : List Byte) : Option Nat :=
  match fmt with
  | 0 => if bs.length < 4 then none else some (packedSize 1 bs)
  | 1 => if bs.length < 16 then none else some (packedSize 2 bs)
  | 2 => match bs with
    | h :: _ => some (5 + 8 * (h.toNat % 32 + 1))
    | [] => none
  | _ => some 256

/-- A FOR header with [7:5] set (R375). -/
def badHeader (fmt : Nat) (bs : List Byte) : Bool :=
  fmt == 2 && (match bs with
    | h :: _ => decide (32 ≤ h.toNat)
    | [] => false)

def expandFrame (fmt : Nat) (bs : List Byte) : List Byte :=
  match fmt with
  | 0 => bytesOfWords (zbUnpack bs)
  | 1 => bytesOfWords (dpUnpack bs)
  | 2 =>
    let w := (bs.headD 0).toNat % 32 + 1
    bytesOfWords (forWords w (leNat ((bs.drop 1).take 4)) (leNat (bs.drop 5)))
  | _ => bs

/-- The next frame of a nonempty rest of a stream. -/
def nextFrame (fmt : Nat) (bs : List Byte) : Frame :=
  if badHeader fmt bs then .malformed
  else match streamFrame fmt bs with
    | none => .truncated
    | some n => if bs.length < n then .truncated else .ok (expandFrame fmt (bs.take n)) n

/-- How decoding up to a length ended: the stream was used up, bytes or a part of a frame were left over at the length,
or a frame was bad. -/
inductive StreamEnd where
  | exact
  | more
  | bad
  deriving DecidableEq, Repr

/-- Decodes frames until `want` bytes are there, on fuel; the bytes produced, and how it ended. -/
def decodeFrames (fmt : Nat) : Nat → Nat → List Byte → List Byte × StreamEnd
  | 0, _, _ => ([], .bad)
  | k + 1, want, bs =>
    if want = 0 then ([], if bs.isEmpty then .exact else .more)
    else if bs.isEmpty then ([], .exact)
    else match nextFrame fmt bs with
      | .ok out n =>
        if want < out.length then (out.take want, .more)
        else
          let r := decodeFrames fmt k (want - out.length) (bs.drop n)
          (out ++ r.1, r.2)
      | _ => ([], .bad)

/-- Decodes a stream up to `want` bytes; every frame expands to at least 128. -/
def decodeStream (fmt want : Nat) (bs : List Byte) : List Byte × StreamEnd :=
  if 4 ≤ fmt then ([], .bad) else decodeFrames fmt (want / 128 + 2) want bs

/-- Stream bytes that decoding the first `want` bytes takes (R378: the offset of a chunk). -/
def streamUsed (fmt : Nat) : Nat → Nat → List Byte → Nat
  | 0, _, _ => 0
  | k + 1, want, bs =>
    if want = 0 then 0
    else match nextFrame fmt bs with
      | .ok out n => if want < out.length then 0 else n + streamUsed fmt k (want - out.length) (bs.drop n)
      | _ => 0

/-! ## Encoding (R377) -/

/-- Cuts a list into pieces of n, on fuel. -/
def piecesOf (n : Nat) : Nat → List Byte → List (List Byte)
  | 0, _ => []
  | k + 1, bs => if bs.isEmpty then [] else bs.take n :: piecesOf n k (bs.drop n)

/-- The fewest bits, at least 1, that hold a value. -/
def bitsFor (v : Nat) : Nat := if v = 0 then 1 else Nat.log2 v + 1

/-- Concatenates fields of w bits, the first lowest. -/
def packFields (w : Nat) : List Nat → Nat
  | [] => 0
  | x :: r => x % 2 ^ w + 2 ^ w * packFields w r

def encodeFor (ws : List Nat) : List Byte :=
  let base := ws.foldl min (2 ^ 32 - 1)
  let ds := ws.map fun x => x - base
  let w := bitsFor (ds.foldl max 0)
  leBytes 1 (w - 1) ++ leBytes 4 base ++ leBytes (8 * w) (packFields w ds)

/-- The stream of whole frames that holds some bytes. -/
def encodeStream (fmt : Nat) (bs : List Byte) : List Byte :=
  match fmt with
  | 0 => (piecesOf 128 (bs.length / 128) bs).flatMap fun p => zbPack (wordsOf p)
  | 1 => (piecesOf 128 (bs.length / 128) bs).flatMap fun p => dpPack (wordsOf p)
  | 2 => (piecesOf 256 (bs.length / 256) bs).flatMap fun p => encodeFor (wordsOf p)
  | _ => bs

end Sys2Proof.Machine
end

