-- ==== Sys2Proof/Machine/Sync.lean ====
section
/-!
DEFINITION. Barriers and full-empty ranges (14 R339 to R341, R343).
-/
namespace Sys2Proof.Machine

/-! ## Barriers -/

def getBar (t : Team) (n : Nat) : BarSlot := spGet {} t.barrier n
def modBar (s : State) (tid n : Nat) (f : BarSlot → BarSlot) : State :=
  modTeam s tid fun t => { t with barrier := spSet {} t.barrier n (f (spGet {} t.barrier n)) }

/-- A names the slot: an integer constant 0 to 15 or a scalar (R340). -/
def barSlotLegal : Opnd → Bool
  | .int n => decide (n < 16)
  | .s _ => true
  | _ => false

/-- A scalar, a constant or zero. -/
def uniformData : Opnd → Bool
  | .s _ => true
  | .zero => true
  | .int _ => true
  | .flt _ => true
  | _ => false

/-- The fields of BARA, BARW and BAR. -/
def barLegal (f : Fields) : Bool :=
  decide (1 ≤ f.mod.toNat) && decide (f.mod.toNat < 7) && f.x == 0 && f.d == 0 && f.c == 0 && f.b == zeroCode
    && barSlotLegal (opnd f.a)

/-- The slot's number, checked against BARS. -/
def withSlot (s : State) (c : Iss) (f : Fields) (body : Nat → State) : State :=
  let n := srcVal s c .w32 (opnd f.a) 0
  if srcBad c false (opnd f.a) 0 then trapPoison s c 0
  else if c.t.bars ≤ n then takeTrap s c causeBarrier 0 0
  else body n

/-- Whether the group has arrived in the slot's current phase: Group.arrived holds one more than the phase. -/
def arrivedNow (c : Iss) (n : Nat) : Bool := spGet 0 c.g.arrived n == (getBar c.t n).done + 1

/-- The acquire of a completed phase for some lanes: it observes the arrivals and decrements that the phase counted, each
job's at its engine scope, which reaches as far as the job and the waiter share an instance (06 R135). -/
def phaseAcquire (s : State) (c : Iss) (act : Mask) (n phase scope : Nat) : State :=
  let rels := (spFind (getBar c.t n).passed phase).getD []
  let ags := threadsOf c.gid act
  let s1 := acquireAll s ags scope rels
  (rels.filter fun r => r.place.gid.isNone).foldl (fun s r => acquireAll s ags r.scope [r]) s1

/-- The latest completed phase of a slot. -/
def lastPhase (b : BarSlot) : Nat := (b.done + (2 ^ 32 - 1)) % 2 ^ 32

/-- Counts the group's arrival, with the release edges of the active lanes. -/
def arrive (s : State) (c : Iss) (act : Mask) (n scope : Nat) : State :=
  let b := getBar c.t n
  let rels := releaseOfAll s (threadsOf c.gid act) scope
  let s1 := modBar (publishAt s c.core scope) c.g.team n fun b =>
    { b with arrived := b.arrived ++ [c.gid], rels := addRels b.rels rels }
  modGroup s1 c.gid fun g => { g with arrived := spSet 0 g.arrived n (b.done + 1) }

/-- BARA (R340). -/
def execBara (f : Fields) (s : State) : Out :=
  onPath s fun c => runMasked s c f (barLegal f) fun act => withSlot s c f fun n =>
    if arrivedNow c n then takeTrap s c causeBarrier 0 0
    else retire (arrive s c act n f.mod.toNat) c

/-- A path that waits for a phase: it goes on, with its acquire edge, once the phase has completed. -/
def awaitPhase (s : State) (c : Iss) (act : Mask) (n phase scope : Nat) : State :=
  if (getBar c.t n).done = phase then waitOn s c (.barrier n phase)
  else retire (phaseAcquire s c act n phase scope) c

/-- BARW (R340). -/
def execBarw (f : Fields) (s : State) : Out :=
  onPath s fun c => runMasked s c f (barLegal f) fun act => withSlot s c f fun n =>
    match c.p.wait with
    | .barrier _ k => awaitPhase s c act n k f.mod.toNat
    | _ =>
      if arrivedNow c n then awaitPhase s c act n (getBar c.t n).done f.mod.toNat
      else retire (phaseAcquire s c act n (lastPhase (getBar c.t n)) f.mod.toNat) c

/-- BAR (R340): the arrival, then the wait; a path that waits already has arrived. -/
def execBar (f : Fields) (s : State) : Out :=
  onPath s fun c => runMasked s c f (barLegal f) fun act => withSlot s c f fun n =>
    match c.p.wait with
    | .barrier _ k => awaitPhase s c act n k f.mod.toNat
    | _ =>
      if arrivedNow c n then takeTrap s c causeBarrier 0 0
      else waitOn (arrive s c act n f.mod.toNat) c (.barrier n (getBar c.t n).done)

/-- BARX (R340, R341). -/
def execBarx (f : Fields) (s : State) : Out :=
  onPath s fun c => runMasked s c f
      (f.mod == 0 && f.x == 0 && f.d == 0 && f.c == 0 && barSlotLegal (opnd f.a) && uniformData (opnd f.b)) fun _ =>
    if srcBad c false (opnd f.b) 0 then trapPoison s c 0
    else withSlot s c f fun n =>
      let v := (getBar c.t n).pending + (srcVal s c .w32 (opnd f.b) 0 : Nat)
      if (2 ^ 31 : Nat) ≤ v ∨ v < -(2 ^ 31 : Nat) then takeTrap s c causeBarrier 0 0
      else retire (modBar s c.g.team n fun b => { b with pending := v }) c

/-- The target of a slot (R339): groups that have not ended, and ended ones counted in the current phase. -/
def barTarget (s : State) (t : Team) (b : BarSlot) : Nat :=
  (t.groups.filter fun g => match getGroup s g with
    | some x => !x.ended || b.arrived.contains g
    | none => false).length

/-- ARRIVED: a fault-saved group counts as not arrived (10 R221); a team save alone changes nothing. -/
def barArrived (s : State) (b : BarSlot) : Nat :=
  (b.arrived.filter fun g => match getGroup s g with
    | some x => !x.faultSaved
    | none => true).length

/-- Whether the slot's phase completes now. -/
def phaseDone (s : State) (t : Team) (n : Nat) : Bool :=
  let b := getBar t n
  barTarget s t b != 0 && barArrived s b == barTarget s t b && b.pending == 0

/-- Whether a live path of a team waits for a phase of a slot. -/
def phaseAwaited (s : State) (t : Team) (n phase : Nat) : Bool :=
  t.groups.any fun g => match getGroup s g with
    | some x => [x.live0, x.live1].any fun p => match p with
      | some q => q.wait == .barrier n phase
      | none => false
    | none => false

/-- BARRIER_PHASE_COMPLETE (R339): ARRIVED becomes 0 and DONE counts on; the waiting paths may issue again. -/
def tryBarrierPhaseComplete (team slot : Nat) (s : State) : Event :=
  match getTeam s team with
  | none => .refused .idle
  | some t =>
    if phaseDone s t slot then
      .next (modBar s team slot fun b =>
        { b with
          arrived := [], done := (b.done + 1) % 2 ^ 32, rels := []
          passed := spPut (b.passed.filter fun e => phaseAwaited s t slot e.1) b.done b.rels })
    else .refused .idle

def execBarrierPhaseComplete (team slot : Nat) (s : State) : Out := settle s (tryBarrierPhaseComplete team slot s)

/-! ## FESET (R343) -/

def execFeset (f : Fields) (s : State) : Out :=
  onPath s fun c => runMasked s c f
      (f.mod == 0 && decide (f.x.toNat ≤ 1) && f.d == 0 && f.c == 0 && uniformData (opnd f.a) && uniformData (opnd f.b))
      fun _ =>
    let a := srcVal s c .w32 (opnd f.a) 0
    let b := srcVal s c .w32 (opnd f.b) 0
    if srcBad c false (opnd f.a) 0 || srcBad c false (opnd f.b) 0 then trapPoison s c 0
    else if c.t.size < a + b then takeTrap s c causeBounds 0 a
    else if a % 16 ≠ 0 ∨ b % 16 ≠ 0 then takeTrap s c causeMisaligned 0 a
    else retire (modTeam s c.g.team fun t => setFull t (f.x == 1) (granules a b)) c

end Sys2Proof.Machine
end

