-- ==== Sys2Proof/Machine/Percolator.lean ====
section
/-!
DEFINITION. The Percolator: XF, DEC, ENC and TOPK (15 R372 to R377, R379).
-/
namespace Sys2Proof.Machine

/-! ## XF (R372) -/

/-- The 64 words of a vector register. -/
def laneWords (g : Group) (r : Nat) : List Nat := (List.range 64).map fun l => g.getV r l

/-- Whether an element of k registers from r on is poisoned in some of the 64 lanes; the lowest such lane. -/
def poisonedLane (g : Group) (r k : Nat) : Option Nat :=
  (List.range 64).find? fun l => (List.range k).any fun i => g.badV (r + i) l

def xfForUnpack (w b : Nat) (a : List Nat) : List Nat := forWords w b (packFields 32 (a.take (2 * w)))

/-- The differences of forpk, before they are cut to w bits. -/
def xfDiffs (b : Nat) (a : List Nat) : List Nat := a.map fun x => (x + (2 ^ 32 - b)) % 2 ^ 32

def xfForPack (w b : Nat) (a : List Nat) : List Nat :=
  let st := packFields w (xfDiffs b a)
  (List.range 64).map fun i => if i < 2 * w then bitsOf st (32 * i) 32 else 0

/-- Pads words with zero to 64 lanes. -/
def padLanes (ws : List Nat) : List Nat := ws ++ List.replicate (64 - ws.length) 0

def xfShuffle (a : List Nat) : List Nat :=
  (List.range 64).map fun w =>
    leNat ((List.range 4).map fun i => BitVec.ofNat 8 (a.getD (4 * (w % 16) + i) 0 / 256 ^ (w / 16)))

def xfTranspose (a : List Nat) : List Nat :=
  (List.range 64).map fun l => (List.range 64).foldl (fun v i => v + bitsOf (a.getD i 0) l 1 * 2 ^ i) 0

/-- One bit step of the reflected CRC-32C. -/
def crcBit (c : Nat) : Nat := if c % 2 = 1 then Nat.xor (c / 2) 0x82F63B78 else c / 2

def crcByte (c b : Nat) : Nat := (List.range 8).foldl (fun x _ => crcBit x) (Nat.xor c b)

def xfCrc (start : Nat) (ws : List Nat) : Nat :=
  ws.foldl (fun c w => (List.range 4).foldl (fun c j => crcByte c (w / 256 ^ j % 256)) c) start

/-- The order of keys: 0 f32 with −0 below +0 and NaN above +Inf, 1 i32, 2 n32 (R374, R379). -/
def sortKey (ty x : Nat) : Int :=
  if ty = 1 then sext 32 x
  else if ty = 2 then x
  else if (decodeFmt 1 x).isNaN then (2 ^ 33 : Nat)
  else if 2 ^ 31 ≤ x then -((x - 2 ^ 31 : Nat) : Int) - 1
  else x

/-- Inserts a lane behind every lane whose key is not greater. -/
def insertKey (le : Nat → Nat → Bool) (l : Nat) : List Nat → List Nat
  | [] => [l]
  | m :: r => if le m l then m :: insertKey le l r else l :: m :: r

def sortLanes (le : Nat → Nat → Bool) (ls : List Nat) : List Nat := ls.foldl (fun acc l => insertKey le l acc) []

/-- The keys of SORT and TOPK as FMT.FTZ32 lets them be read (07 R160). -/
def sortKeys (c : Iss) (ty : Nat) (a : List Nat) : List Nat := if ty = 0 then a.map (ftz32 (ftzOn c)) else a

/-- The lanes of some words in ascending key order, ties in lane order. -/
def sortedLanes (ty : Nat) (a : List Nat) : List Nat :=
  sortLanes (fun m l => decide (sortKey ty (a.getD m 0) ≤ sortKey ty (a.getD l 0))) (List.range 64)

/-- Register writes of one vector of words in some lanes. -/
def laneWrites (o : Opnd) (off : Nat) (lanes : List Nat) (ws : List Nat) : List RegWrite :=
  match o with
  | .v k => lanes.map fun l => .vec (k + off) l (BitVec.ofNat 32 (ws.getD l 0)) false
  | _ => []

/-- pq writes in some lanes. -/
def pqWrites (lanes : List Nat) (t : Nat → Bool) : List RegWrite := lanes.map fun l => .pred pq l (t l)

/-- The writes of the forms 0 to 7 and 10. -/
def xfWrites (c : Iss) (f : Fields) (k b : Nat) (lanes : List Nat) : List RegWrite :=
  let a := laneWords c.g k
  let d := opnd f.d
  let w := f.mod.toNat % 32 + 1
  match f.x.toNat with
  | 0 => laneWrites d 0 lanes (xfForUnpack w b a)
  | 1 => laneWrites d 0 lanes (xfForPack w b a) ++ pqWrites lanes fun l => decide (2 ^ w ≤ (xfDiffs b a).getD l 0)
  | 2 => laneWrites d 0 lanes (padLanes (zbUnpack (bytesOfWords a)))
  | 3 => laneWrites d 0 lanes (padLanes (wordsOf (zbPack (a.take 32))))
  | 4 => laneWrites d 0 lanes (padLanes (dpUnpack (bytesOfWords a)))
  | 5 => laneWrites d 0 lanes (xfShuffle a)
  | 6 =>
    let a2 := (a.zip (laneWords c.g (k + 1))).map fun e => e.1 + 2 ^ 32 * e.2
    let r := xfTranspose a2
    laneWrites d 0 lanes (r.map (· % 2 ^ 32)) ++ laneWrites d 1 lanes (r.map (· / 2 ^ 32))
  | 7 => match d with
    | .s n => [.scal n (BitVec.ofNat 32 (xfCrc b (lanes.map fun l => a.getD l 0))) false]
    | _ => []
  | _ =>
    let keys := sortKeys c (f.mod.toNat % 4) a
    let order := sortedLanes (f.mod.toNat % 4) keys
    laneWrites d 0 lanes (order.map fun l => keys.getD l 0) ++ laneWrites d 1 lanes order

/-! ### QBLK and DQBLK (R373) -/

/-- β of FMT.SCALE 001 or 010; 0 for the others. -/
def blockSide (c : Iss) : Nat :=
  let sc := bitsOf c.p.fmt.toNat 14 3
  if sc = 1 then 16 else if sc = 2 then 32 else 0

/-- The block of A(m, k), K = 64 (R363). -/
def qblkIndex (beta m k : Nat) : Nat := m / beta * (64 / beta) + k / beta

/-- Tile element (m, n): lane m + 32 (n div 32) of register n mod 32. -/
def tileLane (m n : Nat) : Nat := m + 32 * (n / 32)

/-- The smallest e4m3 code whose value is at least num / den, or 448. -/
def scaleCode (num den : Nat) : Nat :=
  ((List.range 0x7F).find? fun k => !((decodeFmt 6 k).lt (.fin false num den))).getD 0x7E

/-- The scale byte of a block of f32 values for the largest finite value of a format. -/
def qblkScale (code : Nat) (xs : List XReal) : Nat :=
  if xs.any (·.isNaN) then 0x7F
  else if xs.any (fun x => !x.isFinite) then 0x7E
  else
    let amax := xs.foldl (fun (m : XReal) x => if m.lt x.abs then x.abs else m) XReal.zero
    let top : XReal := match floatFmt code with
      | some f => f.gridVal false f.maxMag
      | none => .nan
    match amax, top with
    | .fin _ a b, .fin _ p q => scaleCode (a * q) (b * p)
    | _, _ => 0x7E

/-- x ÷ s exact, for a positive finite s. -/
def overScale (x s : XReal) : XReal :=
  match x, s with
  | .fin n a b, .fin _ p q => .fin n (a * q) (b * p)
  | v, _ => v

/-- The members of a block, as (m, k). -/
def blockCells (beta i : Nat) : List (Nat × Nat) :=
  ((List.range 32).flatMap fun m => (List.range 64).map fun k => (m, k)).filter fun e => qblkIndex beta e.1 e.2 == i

/-- The tile's value at (m, k), under FTZ32. -/
def tileX (c : Iss) (k0 m k : Nat) : XReal :=
  decodeFmt 1 (flushIf (ftzOn c) 1 (c.g.getV (k0 + k % 32) (tileLane m k)))

/-- The scale bytes of the tile from register k0 on. -/
def qblkScales (c : Iss) (k0 : Nat) : List Nat :=
  let beta := blockSide c
  (List.range (if beta = 16 then 8 else 2)).map fun i =>
    qblkScale (afmt c) ((blockCells beta i).map fun e => tileX c k0 e.1 e.2)

/-- Element bits of (m, k) of the fragment. -/
def qblkElem (s : State) (c : Iss) (k0 : Nat) (scales : List Nat) (m k : Nat) : Nat :=
  let code := afmt c
  let sc := decodeFmt 6 (scales.getD (qblkIndex (blockSide c) m k) 0)
  let lane := tileLane m k
  let v := c.g.getV (k0 + k % 32) lane
  if sc.isNaN then roundNarrow code .nan .rne false
  else if sc.isZero then 0
  else roundNarrow code (overScale (tileX c k0 m k) sc)
    (nrndMode (nrnd c) (if nrnd c = 2 then laneSr s c lane v (k % 32) else 0)) true

def qblkWrites (s : State) (c : Iss) (f : Fields) (k0 : Nat) (lanes : List Nat) : List RegWrite :=
  let scales := qblkScales c k0
  let word (i l : Nat) : Nat :=
    (List.range 4).foldl (fun a j => a + 256 ^ j * qblkElem s c k0 scales (l % 32) (l / 32 * 32 + 4 * i + j)) 0
  let sv := leNat (scales.map (BitVec.ofNat 8))
  (List.range 8).flatMap (fun i => laneWrites (opnd f.d) i lanes ((List.range 64).map (word i)))
    ++ blockWrites (opnd f.b) 2 0 sv false

/-- DQBLK: element × scale in f32. -/
def dqblkVal (c : Iss) (k0 : Nat) (sv : Nat) (m k : Nat) : Nat :=
  let code := afmt c
  let e := c.g.getV (k0 + k % 32 / 4) (tileLane m k) / 256 ^ (k % 4) % 256
  let x := decodeFmt code (if fmt6bit code then e % 64 else e)
  flushIf (ftzOn c) 1 (roundFmt 1 (x.mul (decodeFmt 6 (sv / 256 ^ qblkIndex (blockSide c) m k % 256))) .rne)

def dqblkWrites (c : Iss) (f : Fields) (k0 : Nat) (lanes : List Nat) : List RegWrite :=
  let sv := blockVal c.g (opnd f.b) 2 0
  (List.range 32).flatMap fun i =>
    laneWrites (opnd f.d) i lanes ((List.range 64).map fun l => dqblkVal c k0 sv (l % 32) (l / 32 * 32 + i))

/-- FMT.SCALE square and a 6- or 8-bit float AFMT. -/
def qblkFmt (c : Iss) : Bool := blockSide c != 0 && fmtNarrowFloat (afmt c) && !fmt4bit (afmt c)

/-! ### The instruction -/

/-- Registers of A that a form reads. -/
def xfRegs (x : Nat) : Nat := if x = 6 then 2 else if x = 8 then 32 else if x = 9 then 8 else 1

def xfMod (f : Fields) : Bool :=
  match f.x.toNat with
  | 0 => decide (f.mod.toNat < 32)
  | 1 => decide (f.mod.toNat < 32)
  | 10 => decide (f.mod.toNat < 3)
  | _ => f.mod == 0

def xfBase (c : Iss) (f : Fields) : Bool :=
  match f.x.toNat with
  | 0 => (opnd f.b).isUniform && srcLegal c false (opnd f.b)
  | 1 => (opnd f.b).isUniform && srcLegal c false (opnd f.b)
  | 7 => (opnd f.b).isUniform && srcLegal c false (opnd f.b)
  | 8 => (opnd f.b).isScalarReg && dstLegal c true (opnd f.b)
  | 9 => (opnd f.b).isScalarReg && srcLegal c true (opnd f.b)
  | _ => f.b == 0

def xfDst (c : Iss) (f : Fields) : Bool :=
  match f.x.toNat with
  | 6 => vdstLegal c true (opnd f.d)
  | 7 => (opnd f.d).isScalarReg || opnd f.d == .zero
  | 8 => (vecBlock c f.d 8).isSome
  | 9 => (vecBlock c f.d 32).isSome
  | 10 => vdstLegal c true (opnd f.d)
  | _ => vdstLegal c false (opnd f.d)

def xfLegal (c : Iss) (f : Fields) : Bool :=
  decide (f.x.toNat ≤ 10) && f.c == 0 && xfMod f && xfBase c f && xfDst c f && (vecBlock c f.a (xfRegs f.x.toNat)).isSome
    && (f.x != 6 || f.a.toNat % 2 == 0) && ((f.x != 8 && f.x != 9) || qblkFmt c)

def execXf (f : Fields) (s : State) : Out :=
  onPath s fun c => runCounted s c f false (xfLegal c f) fun act =>
    let x := f.x.toNat
    let k := (vecBlock c f.a (xfRegs x)).getD 0
    let lanes := lanesOf act
    match poisonedLane c.g k (xfRegs x) with
    | some l => trapPoison s c l
    | none =>
      if x ≠ 8 ∧ srcBad c (x == 9) (opnd f.b) 0 then trapPoison s c (lowLane act)
      else retireOp s c false
        (if x = 8 then qblkWrites s c f k lanes
         else if x = 9 then dqblkWrites c f k lanes
         else xfWrites c f k (srcVal s c .w32 (opnd f.b) 0) lanes)

/-! ## DEC and ENC (R376, R377) -/

/-- Which produced bytes are poisoned: RAW frames carry a word's mark to its own bytes; a marked word of another frame
may be its length, and so marks everything from that frame on; a rest too short for a RAW frame gives no bytes, whatever it
holds. A frame that passes the declared length contributes only its bytes up to it (R376). -/
def decodeBad (fmt : Nat) : Nat → Nat → List Byte → List Bool → List Bool
  | 0, _, _, _ => []
  | k + 1, want, bs, bad =>
    if want = 0 ∨ bs.isEmpty then []
    else match nextFrame fmt bs with
      | .ok out n =>
        if fmt ≠ 3 ∧ (bad.take n).any id then List.replicate want true
        else (if fmt = 3 then bad.take n else List.replicate out.length false).take want
          ++ decodeBad fmt k (want - out.length) (bs.drop n) (bad.drop n)
      | _ => if fmt ≠ 3 ∧ bad.any id then List.replicate want true else []

/-- The poison marks of n bytes of scratchpad. -/
def spadBads (t : Team) (o n : Nat) : List Bool := (List.range n).map fun i => spGet false t.spoison ((o + i) / 8)

def decLegal (c : Iss) (f : Fields) : Bool :=
  decide (f.x.toNat < 4) && decide (f.mod.toNat < 8) && (vecBlock c f.d (f.mod.toNat + 1)).isSome
    && uniformData (opnd f.a) && uniformData (opnd f.b) && uniformData (opnd f.c)

/-- The writes of a decode: n registers of 64 words, zero from the produced length on. -/
def decWrites (k n : Nat) (bytes : List Byte) (bad : List Bool) : List RegWrite :=
  (List.range (64 * n)).map fun w =>
    .any (k + w / 64) (w % 64) (BitVec.ofNat 32 (leNat ((bytes.drop (4 * w)).take 4))) (((bad.drop (4 * w)).take 4).any id)

def execDec (f : Fields) (s : State) : Out :=
  onPath s fun c => runCounted s c f false (decLegal c f) fun act =>
    let n := f.mod.toNat + 1
    let a := srcVal s c .w32 (opnd f.a) 0
    let len := srcVal s c .w32 (opnd f.b) 0
    let cnt := srcVal s c .w32 (opnd f.c) 0
    if [f.a, f.b, f.c].any fun x => srcBad c false (opnd x) 0 then trapPoison s c (lowLane act)
    else if 256 * n < len then illegalOperand s c
    else if cnt ≠ 0 ∧ c.t.size < a + cnt then takeTrap s c causeBounds 0 a
    else
      let q := spadSeen s (threadsOf c.gid act) c.g.team a cnt c.t
      let bs := spadBytes q.1 a cnt
      let out := (decodeStream f.x.toNat len bs).1
      let bad := decodeBad f.x.toNat (len / 128 + 2) len bs (spadBads q.1 a cnt)
      retireOp q.2 c false (decWrites ((vecBlock c f.d n).getD 0) n out bad
        ++ pqWrites (lanesOf act) fun _ => decide (out.length < len))

def encLegal (c : Iss) (f : Fields) : Bool :=
  decide (f.x.toNat < 4) && decide (f.mod.toNat < 8) && (vecBlock c f.a (f.mod.toNat + 1)).isSome
    && (opnd f.d).isScalarReg && uniformData (opnd f.b) && uniformData (opnd f.c)

def execEnc (f : Fields) (s : State) : Out :=
  onPath s fun c => runCounted s c f true (encLegal c f) fun act =>
    let n := f.mod.toNat + 1
    let k := (vecBlock c f.a n).getD 0
    let b := srcVal s c .w32 (opnd f.b) 0
    let cap := srcVal s c .w32 (opnd f.c) 0
    match poisonedLane c.g k n with
    | some l => trapPoison s c l
    | none =>
      if srcBad c false (opnd f.b) 0 || srcBad c false (opnd f.c) 0 then trapPoison s c (lowLane act)
      else if cap ≠ 0 ∧ c.t.size < b + cap then takeTrap s c causeBounds 0 b
      else
        let bytes := encodeStream f.x.toNat (bytesOfWords ((List.range n).flatMap fun i => laneWords c.g (k + i)))
        let fits := decide (bytes.length ≤ cap)
        let ag := Agent.thread c.gid (lowLane act)
        let s1 := if fits then shareStores (spadPut s ag c.g.team b bytes false) ag s.stores (threadsOf c.gid act) else s
        retireOp s1 c true (blockWrites (opnd f.d) 1 0 bytes.length false ++ pqWrites (lanesOf act) fun _ => !fits)

/-! ## TOPK (R379) -/

/-- The candidates in descending order, ties to the lower lane. -/
def topOrder (ty : Nat) (a : List Nat) (lanes : List Nat) : List Nat :=
  let cand := lanes.filter fun l => !(ty == 0 && (decodeFmt 1 (a.getD l 0)).isNaN)
  sortLanes (fun m l => decide (sortKey ty (a.getD l 0) ≤ sortKey ty (a.getD m 0))) cand

def execTopk (f : Fields) (s : State) : Out :=
  onPath s fun c => runCounted s c f false (decide (f.x.toNat < 3) && f.b == 0 && f.c == 0 && vdstLegal c true (opnd f.d)
      && (vecBlock c f.a 1).isSome) fun act =>
    let k := (vecBlock c f.a 1).getD 0
    match (lanesOf act).find? (fun l => c.g.badV k l) with
    | some l => trapPoison s c l
    | none =>
      let a := sortKeys c f.x.toNat (laneWords c.g k)
      let top := (topOrder f.x.toNat a (lanesOf act)).take (f.mod.toNat + 1)
      retireOp s c false
        (laneWrites (opnd f.d) 0 (lanesOf act) (padLanes (top.map fun l => a.getD l 0))
          ++ laneWrites (opnd f.d) 1 (lanesOf act) (top ++ List.replicate (64 - top.length) (2 ^ 32 - 1)))

end Sys2Proof.Machine
end

