-- ==== Sys2Proof/Machine/Matrix.lean ====
section
/-!
DEFINITION. The matrix array: the weight buffer, gangs, MMA and MTRN (15 R354 to R365; 07 R163 to R170).
-/
namespace Sys2Proof.Machine

/-! ## Bindings (R354 to R358) -/

def getWeight (s : State) (core r : Nat) : Weight := spGet {} (getCore s core).weight r
def setWeight (s : State) (core r : Nat) (w : Weight) : State :=
  modCore s core fun c => { c with weight := spSet {} c.weight r w }

/-- Whether the issuing team may use binding r: nobody holds it, or the team does. -/
def bindingFree (s : State) (core team r : Nat) : Bool :=
  match (getWeight s core r).holder with
  | none => true
  | some t => t == team

def bindingHeld (s : State) (core team r : Nat) : Bool := (getWeight s core r).holder == some team

/-- Sparse bytes from offset 0. -/
def sparseBytes (bs : List Byte) : SMap Byte := (cellsAt 0 bs).filter fun e => e.2 != 0
def sparseBits (bs : List Bool) : SMap Bool := ((bs.zipIdx).filter (·.1)).map fun e => (e.2, true)

/-- The scratchpad bytes that n ZB blocks from offset a on take, by a pass over their masks; none when a byte lies at or
beyond the size (R356). -/
def zbSpan (t : Team) : Nat → Nat → Option Nat
  | 0, a => some a
  | k + 1, a =>
    if t.size < a + 4 then none
    else
      let m := a + 4 + 4 * popBits 32 (leNat (spadBytes t a 4))
      if t.size < m then none else zbSpan t k m

/-- The poison of the 128 bytes a ZB block supplies, word by word from the block's marks. -/
def zbBadWords (mask : Nat) : List Bool → List Nat → List Bool
  | _, [] => []
  | bad, i :: r =>
    if bitOf mask i then List.replicate 4 ((bad.take 4).any id) ++ zbBadWords mask (bad.drop 4) r
    else List.replicate 4 false ++ zbBadWords mask bad r

/-- The poison of n ZB blocks; a marked mask word supplies its block and places the later ones. -/
def zbBad (t : Team) : Nat → Nat → List Bool
  | 0, _ => []
  | k + 1, a =>
    if spadBad t a 4 then List.replicate (128 * (k + 1)) true
    else
      let mask := leNat (spadBytes t a 4)
      let n := popBits 32 mask
      zbBadWords mask (spadBads t (a + 4) (4 * n)) (List.range 32) ++ zbBad t k (a + 4 + 4 * n)

/-- The binding record of a team. -/
def getBinding (t : Team) (r : Nat) : Binding := spGet {} t.binding r

/-- The bytes of scratchpad that an MLDW reads: of ZB blocks as far as their masks say. -/
def weightSpan (t : Team) (zb : Bool) (a len : Nat) : Nat := if zb then (zbSpan t (len / 128) a).getD a - a else len

/-- A team's scratchpad as the active lanes' threads read it for an MLDW (R358). The masks are read on the way, so the same
choices give the same prefix when the span is known. -/
def weightSeen (s : State) (c : Iss) (act : Mask) (zb : Bool) (a len : Nat) : Team × State :=
  let look (n : Nat) : Team × State := spadSeen s (threadsOf c.gid act) c.g.team a n c.t
  let most := if zb then min (len / 128 * 132) (c.t.size - a) else len
  look (weightSpan (look most).1 zb a len)

/-- The slot's contents that an MLDW of a record brings: bytes and poison marks. Of a stream whose masks have been changed so
that it runs past the scratchpad (R355), the bytes there read as zero. -/
def weightSource (t : Team) (zb : Bool) (a len : Nat) : List Byte × List Bool :=
  if zb then
    let stop := (zbSpan t (len / 128) a).getD (a + len / 128 * 132)
    ((decodeStream 0 len (spadBytes t a (stop - a))).1, zbBad t (len / 128) a)
  else (spadBytes t a len, spadBads t a len)

/-- Fills slot r of a core (R356). -/
def fillSlot4 (s : State) (core team r : Nat) (src : List Byte × List Bool) : State :=
  let w := getWeight s core r
  setWeight s core r { w with holder := some team, bytes := sparseBytes src.1, poison := sparseBits src.2 }

/-- Fills scale region r of a core (R357). -/
def fillScale (s : State) (core team r : Nat) (src : List Byte × List Bool) : State :=
  let w := getWeight s core r
  setWeight s core r { w with holder := some team, scale := sparseBytes src.1, sbad := sparseBits src.2 }

def modBinding (s : State) (team r : Nat) (f : Binding → Binding) : State :=
  modTeam s team fun t => { t with binding := spSet {} t.binding r (f (spGet {} t.binding r)) }

/-- Releases binding r of the team. -/
def releaseBinding (s : State) (core team r : Nat) : State :=
  if bindingHeld s core team r then
    modBinding (setWeight s core r { getWeight s core r with holder := none }) team r fun _ => {}
  else s

/-- MLDW (R356). -/
def mldwLegal (f : Fields) : Bool :=
  decide (f.mod.toNat < 4) && f.c == 0 && f.d == 0 && decide (f.x.toNat < 4) &&
    (if bitOf f.x.toNat 1 then f.a == 0 && f.b == 0 && f.x == 2 else uniformData (opnd f.a) && uniformData (opnd f.b))

/-- The load form. A poisoned scalar source traps with the lowest active lane in TRAPINFO (log 123). -/
def mldwLoad (s : State) (c : Iss) (f : Fields) (act : Mask) : State :=
  let r := f.mod.toNat
  let zb := bitOf f.x.toNat 0
  let a := srcVal s c .w32 (opnd f.a) 0
  let len := srcVal s c .w32 (opnd f.b) 0
  let q := weightSeen s c act zb a len
  let inside := if zb then (zbSpan q.1 (len / 128) a).isSome else decide (len = 0) || decide (a + len ≤ c.t.size)
  if srcBad c false (opnd f.a) 0 || srcBad c false (opnd f.b) 0 then trapPoison s c (lowLane act)
  else if 65536 < len ∨ len % 128 ≠ 0 then illegalOperand s c
  else if !inside then takeTrap s c causeBounds 0 a
  else if a % 4 ≠ 0 then takeTrap s c causeMisaligned 0 a
  else if !bindingFree s c.core c.g.team r then waitOn s c (.binding r)
  else
    let s1 := fillSlot4 q.2 c.core c.g.team r (weightSource q.1 zb a len)
    retireOp (modBinding s1 c.g.team r fun b => { b with wsrc := a, wlen := len, wzb := zb, valid := true }) c true []

def execMldw (f : Fields) (s : State) : Out :=
  onPath s fun c => runCounted s c f true (mldwLegal f) fun act =>
    if !bitOf f.x.toNat 1 then mldwLoad s c f act
    else if !bindingFree s c.core c.g.team f.mod.toNat then waitOn s c (.binding f.mod.toNat)
    else retireOp (releaseBinding s c.core c.g.team f.mod.toNat) c true []

/-- MLDS (R357). -/
def mldsLoad (s : State) (c : Iss) (f : Fields) (act : Mask) : State :=
  let r := f.mod.toNat
  let a := srcVal s c .w32 (opnd f.a) 0
  let len := srcVal s c .w32 (opnd f.b) 0
  if srcBad c false (opnd f.a) 0 || srcBad c false (opnd f.b) 0 then trapPoison s c (lowLane act)
  else if 4096 < len ∨ len % 128 ≠ 0 then illegalOperand s c
  else if len ≠ 0 ∧ c.t.size < a + len then takeTrap s c causeBounds 0 a
  else if !bindingFree s c.core c.g.team r then waitOn s c (.binding r)
  else
    let q := spadSeen s (threadsOf c.gid act) c.g.team a len c.t
    let s1 := fillScale q.2 c.core c.g.team r (spadBytes q.1 a len, spadBads q.1 a len)
    retireOp (modBinding s1 c.g.team r fun b => { b with ssrc := a, slen := len, valid := true }) c true []

def execMlds (f : Fields) (s : State) : Out :=
  onPath s fun c => runCounted s c f true (decide (f.mod.toNat < 4) && f.c == 0 && f.d == 0 && f.x == 0
    && uniformData (opnd f.a) && uniformData (opnd f.b)) (mldsLoad s c f)

/-! ## Gangs (R359, R360) -/

def getLatch (t : Team) (n : Nat) : Latch := spGet {} t.latch n
def modLatch (s : State) (team n : Nat) (f : Latch → Latch) : State :=
  modTeam s team fun t => { t with latch := spSet {} t.latch n (f (spGet {} t.latch n)) }

/-- A latch list without a group; an empty one is free and no longer broken. -/
def Latch.without (l : Latch) (index gid : Nat) (broken : Bool) : Latch :=
  let m := l.members.filter (· != index)
  { members := m, arrived := l.arrived.filter fun q => q.gid != gid, broken := (l.broken || broken) && !m.isEmpty }

/-- The %group values of a mask. -/
def maskMembers (m : Nat) : List Nat := (List.range 32).filter fun i => bitOf m i

def gangMaskOk (c : Iss) (m : Nat) : Bool :=
  let ms := maskMembers m
  decide (2 ≤ ms.length) && decide (ms.length ≤ 6) && ms.all (fun i => decide (i < c.t.tsize)) && ms.contains c.g.index

def gangLegal (f : Fields) : Bool :=
  f.mod == 0 && f.c == 0 && f.d == 0 && f.x == 0 && barSlotLegal (opnd f.a) &&
    match opnd f.b with
    | .s _ => true
    | .zero => true
    | _ => false

def execGang (f : Fields) (s : State) : Out :=
  onPath s fun c => runMasked s c f (gangLegal f) fun act =>
    let n := srcVal s c .w32 (opnd f.a) 0
    let m := srcVal s c .w32 (opnd f.b) 0
    if srcBad c false (opnd f.a) 0 || srcBad c false (opnd f.b) 0 then trapPoison s c (lowLane act)
    else if c.t.latchN ≤ n then illegalOperand s c
    else if f.b = zeroCode then retire (modLatch s c.g.team n fun l => l.without c.g.index c.gid false) c
    else if !gangMaskOk c m then illegalOperand s c
    else
      let l := getLatch c.t n
      if l.broken || (!l.members.isEmpty && l.members != maskMembers m) then takeTrap s c causeGang 0 0
      else retire (modLatch s c.g.team n fun l => { l with members := maskMembers m }) c

/-! ## MMA: class, operands, checks (R361 to R363; 07 R167) -/

inductive MmaClass where
  | f64 | tf32 | half | narrow | int
  deriving DecidableEq, Repr

def fmtAcc (fmt : Nat) : Nat := bitsOf fmt 12 2
def fmtScale (fmt : Nat) : Nat := bitsOf fmt 14 3

/-- The class of FMT. -/
def mmaClass (fmt : Nat) : Option MmaClass :=
  let a := bitsOf fmt 0 6
  let b := bitsOf fmt 6 6
  let acc := fmtAcc fmt
  let both (t : Nat → Bool) : Bool := t a && t b
  if both (· == 0) ∧ acc = 3 ∧ fmtScale fmt = 0 then some .f64
  else if both (· == 2) ∧ acc = 0 ∧ fmtScale fmt = 0 then some .tf32
  else if both (fun x => x == 3 || x == 4) ∧ acc ≠ 3 ∧ fmtScale fmt = 0 then some .half
  else if both fmtNarrowFloat ∧ acc ≠ 3 then some .narrow
  else if both fmtNarrowInt ∧ acc = 0 ∧ fmtScale fmt = 0 then some .int
  else none

/-- SHAPE that a class and its formats need. -/
def mmaShape (fmt : Nat) : MmaClass → Nat
  | .f64 => 0
  | .tf32 => 1
  | .half => 2
  | _ => if fmt4bit (bitsOf fmt 0 6) && fmt4bit (bitsOf fmt 6 6) then 4 else 3

def shapeN (x : Nat) : Nat := if x = 0 then 32 else 64
def shapeK (x : Nat) : Nat := if x = 0 then 8 else if x = 1 then 16 else if x = 2 then 32 else if x = 3 then 64 else 128

/-- Storage bits of an element (R362). -/
def storeBits (code : Nat) : Nat := if fmt6bit code then 8 else fmtBits code

def mmaGanged (f : Fields) : Bool := bitOf f.mod.toNat 4
def mmaZ (f : Fields) : Bool := bitOf f.mod.toNat 5
def mmaGid (f : Fields) : Nat := f.mod.toNat % 16
def mmaRec (f : Fields) : Bool := bitOf f.b.toNat 8
def mmaSlot (f : Fields) : Nat := bitsOf f.b.toNat 6 2
def mmaKoff (f : Fields) : Nat := bitsOf f.b.toNat 0 6
def mmaBytes (c : Iss) (f : Fields) : Nat :=
  shapeN f.x.toNat * shapeK f.x.toNat * storeBits (bitsOf c.p.fmt.toNat 6 6) / 8

/-- The scalar block of scales, when C names one. -/
def mmaScalars (f : Fields) : Option Nat :=
  match opnd f.c with
  | .s n => if n % 4 = 0 then some n else none
  | _ => none

/-- ta, tb, ASOFF and BSOFF. -/
def mmaScl (c : Iss) (f : Fields) : Nat × Nat × Nat × Nat :=
  match mmaScalars f with
  | some n => (c.g.getS n, c.g.getS (n + 1), c.g.getS (n + 2) % 2 ^ 14, c.g.getS (n + 3) % 2 ^ 14)
  | none => (f32One, f32One, 0, 0)

/-- The scale index of A(m, k) (R363). -/
def scaleA (fmt aso kk m k : Nat) : Nat :=
  match fmtScale fmt with
  | 1 => aso + m / 16 * (kk / 16) + k / 16
  | 2 => aso + m / 32 * (kk / 32) + k / 32
  | _ => aso + m * (kk / 32) + k / 32

/-- The scale index of B(k, n). -/
def scaleB (fmt bso nn k n : Nat) : Nat :=
  match fmtScale fmt with
  | 1 => bso + k / 16 * (nn / 16) + n / 16
  | 2 => bso + k / 32 * (nn / 32) + n / 32
  | _ => bso + k / 32 * nn + n

/-- The scale indices that the slab uses: they run without gaps from each offset to its last. -/
def scaleUsed (c : Iss) (f : Fields) : List Nat :=
  let fmt := c.p.fmt.toNat
  if fmtScale fmt = 0 then []
  else
    let q := mmaScl c f
    let lastA := scaleA fmt q.2.2.1 (shapeK f.x.toNat) 31 (shapeK f.x.toNat - 1)
    let lastB := scaleB fmt q.2.2.2 (shapeN f.x.toNat) (shapeK f.x.toNat - 1) (shapeN f.x.toNat - 1)
    (List.range (lastA + 1 - q.2.2.1)).map (· + q.2.2.1) ++ (List.range (lastB + 1 - q.2.2.2)).map (· + q.2.2.2)

/-- The checks of MMA that read its codes and FMT. -/
def mmaLegal (c : Iss) (f : Fields) : Bool :=
  match mmaClass c.p.fmt.toNat, vecBlock c f.d 32, vecBlock c f.a 8 with
  | some k, some d, some a =>
    f.guardPathWide && decide (f.x.toNat = mmaShape c.p.fmt.toNat k) && (mmaGanged f || mmaGid f == 0)
      && (!mmaGanged f || decide (mmaGid f < c.t.latchN))
      && c.g.held &&& ~~~c.p.mask == 0
      && d % 8 == 0 && a % 8 == 0 && (decide (d + 32 ≤ a) || decide (a + 8 ≤ d))
      && (f.c == zeroCode || ((mmaScalars f).isSome && k != .f64 && k != .int))
      && (if mmaRec f then (recScalar f.b).isSome else decide (1024 * mmaKoff f + mmaBytes c f ≤ 65536))
  | _, _, _ => false

/-- The checks of MMA that read the team's bindings and scalar values. -/
def mmaBound (s : State) (c : Iss) (f : Fields) : Bool :=
  (mmaRec f || bindingHeld s c.core c.g.team (mmaSlot f))
    && (scaleUsed c f).all fun i => decide (i < 16384) && bindingHeld s c.core c.g.team (i / 4096)

/-- The lowest lane that reads a poisoned register element; the scalars count in lane 0. -/
def mmaPoison (c : Iss) (f : Fields) : Option Nat :=
  let scal := (match mmaScalars f with
    | some n => recPoisoned c.g n
    | none => false) || (mmaRec f && (match recScalar f.b with
    | some n => recPoisoned c.g n
    | none => false))
  if scal then some 0
  else match poisonedLane c.g ((vecBlock c f.a 8).getD 0) 8 with
    | some l => some l
    | none => if mmaZ f then none else poisonedLane c.g ((vecBlock c f.d 32).getD 0) 32

/-- The checks before the slab is read: the state of a trap, or none. -/
def mmaCheck (s : State) (c : Iss) (f : Fields) : Option State :=
  if !mmaLegal c f then some (illegalOperand s c)
  else match mmaPoison c f with
    | some l => some (trapPoison s c l)
    | none =>
      if !mmaBound s c f then some (illegalOperand s c)
      else if mmaRec f then
        let r := recAt c.g ((recScalar f.b).getD 0)
        if recInvalid r false || r.typed || r.swizzle != 0 || r.elem != 0 || r.stride != 0 then
          some (takeTrap s c causeRecord 0 0)
        else if r.extent < mmaBytes c f then some (takeTrap s c causeBounds 0 r.base)
        else if r.base % 128 ≠ 0 then some (takeTrap s c causeMisaligned 0 r.base)
        else none
      else none

/-- The slab: its bytes with a poison mark and the state after the reads, or translation's outcome. -/
inductive Slab where
  | ok (bytes : List Byte) (bad : Bool) (s : State)
  | trap (cause va : Nat)
  | fault (gs : List Granule)

/-- The slab as the threads of the MMA's members read it together. -/
def mmaSlab (s : State) (c : Iss) (f : Fields) (ags : List Agent) : Slab :=
  let n := mmaBytes c f
  if mmaRec f then
    match xlCore s c .read (rangeAccs (recAt c.g ((recScalar f.b).getD 0)).base n) with
    | .trap cause _ va => .trap cause va
    | .fault gs => .fault gs
    | .ok ls =>
      let q := readSet s ags ls
      .ok q.1.bytes q.1.bad q.2
  else
    let w := getWeight s c.core (mmaSlot f)
    let o := 1024 * mmaKoff f
    .ok ((List.range n).map fun i => spGet 0 w.bytes (o + i)) ((List.range n).any fun i => spGet false w.poison (o + i)) s

/-- A scale byte of scale memory, and whether it is poisoned. -/
def scaleByte (s : State) (core i : Nat) : Nat := (spGet 0 (getWeight s core (i / 4096)).scale (i % 4096)).toNat
def scaleBad (s : State) (core i : Nat) : Bool := spGet false (getWeight s core (i / 4096)).sbad (i % 4096)

/-! ## MMA: the sums (R364; 07 R166, R168 to R170) -/

/-- An element with its block scale, as R166 sees it. -/
inductive Scaled where
  | nan
  | zero
  | val (x : XReal)
  deriving DecidableEq, Repr

def scaleElem (x : XReal) (sc : Option XReal) : Scaled :=
  match sc with
  | none => .val x
  | some q => if q.isNaN then .nan else if q.isZero then .zero else .val (x.mul q)

def termOf : Scaled → Scaled → XReal
  | .nan, _ => .nan
  | _, .nan => .nan
  | .zero, _ => .zero
  | _, .zero => .zero
  | .val x, .val y => x.mul y

/-- ta × tb × t. -/
def scaleSum (ta tb t : XReal) : XReal :=
  if ta.isNaN || tb.isNaN then .nan
  else if ta.isZero || tb.isZero then .zero
  else (ta.mul tb).mul t

/-- One chunk after another, each of ch products (R168). -/
def mmaChunks (acode : Nat) (ta tb : XReal) (ch : Nat) : Nat → Nat → List XReal → Nat
  | 0, acc, _ => acc
  | k + 1, acc, ts =>
    mmaChunks acode ta tb ch k
      (roundFmt acode ((decodeFmt acode acc).add (scaleSum ta tb (sumX (ts.take ch)))) .rne) (ts.drop ch)

/-- The integer class: exact chunk sums, saturating (R170). -/
def mmaIntChunks (ch : Nat) : Nat → Int → List Int → Int
  | 0, acc, _ => acc
  | k + 1, acc, ts =>
    mmaIntChunks ch k (clampInt (acc + (ts.take ch).foldl (· + ·) 0) (-(2 ^ 31 : Nat)) ((2 ^ 31 : Nat) - 1)) (ts.drop ch)

/-- The f64 class: one fused step per k (R169). -/
def mmaFused : Nat → List (XReal × XReal) → Nat
  | acc, [] => acc
  | acc, (a, b) :: r => mmaFused (roundFmt 0 ((decodeFmt 0 acc).add (a.mul b)) .rne) r

/-- Format code of ACC. -/
def accCode (fmt : Nat) : Nat :=
  match fmtAcc fmt with
  | 0 => 1
  | 1 => 4
  | 2 => 3
  | _ => 0

def mmaChunk : MmaClass → Nat
  | .tf32 => 8
  | .half => 16
  | _ => 32

/-- Element bits i of width e of a packed number. -/
def packedBits (code x e i : Nat) : Nat :=
  let v := bitsOf x (e * i) e
  if fmt6bit code then v % 64 else v

/-- The signed value of an integer element. -/
def intElem (code v : Nat) : Int :=
  if code = 0x0B then sext 8 v else if code = 0x0D then sext 4 v else (v : Int)

/-- Everything an MMA's sums read. -/
structure MmaData where
  cls  : MmaClass
  fmt  : Nat
  nn   : Nat
  kk   : Nat
  ta   : XReal
  tb   : XReal
  /-- rows of A, as element bits with scale -/
  rows : List (List (Nat × Option XReal))
  /-- columns of B -/
  cols : List (List (Nat × Option XReal))

/-- The block scale at an index, when FMT has block scales. -/
def mmaScale (s : State) (core fmt i : Nat) : Option XReal :=
  if fmtScale fmt = 0 then none
  else some (decodeFmt (if bitOf fmt 17 then 0x0A else 6) (scaleByte s core i))

def mmaData (s : State) (c : Iss) (f : Fields) (slab : List Byte) : MmaData :=
  let fmt := c.p.fmt.toNat
  let nn := shapeN f.x.toNat
  let kk := shapeK f.x.toNat
  let ca := bitsOf fmt 0 6
  let cb := bitsOf fmt 6 6
  let q := mmaScl c f
  let a0 := (vecBlock c f.a 8).getD 0
  let frag := (List.range 64).map fun l => blockVal c.g (.v a0) 8 l
  let bits := leNat slab
  { cls := (mmaClass fmt).getD .int
    fmt := fmt
    nn := nn
    kk := kk
    ta := decodeFmt 1 q.1
    tb := decodeFmt 1 q.2.1
    rows := (List.range 32).map fun m => (List.range kk).map fun k =>
      (packedBits ca (frag.getD (m + 32 * (k / (kk / 2))) 0) (storeBits ca) (k % (kk / 2)),
        mmaScale s c.core fmt (scaleA fmt q.2.2.1 kk m k))
    cols := (List.range nn).map fun n => (List.range kk).map fun k =>
      (packedBits cb bits (storeBits cb) (k * nn + n), mmaScale s c.core fmt (scaleB fmt q.2.2.2 nn k n)) }

/-- The new accumulator element (m, n). -/
def mmaElement (d : MmaData) (acc m n : Nat) : Nat :=
  let ca := bitsOf d.fmt 0 6
  let cb := bitsOf d.fmt 6 6
  let ps := (d.rows.getD m []).zip (d.cols.getD n [])
  match d.cls with
  | .f64 => mmaFused acc (ps.map fun e => (decodeFmt 0 e.1.1, decodeFmt 0 e.2.1))
  | .int => wrapBits 32 (mmaIntChunks 32 (d.kk / 32) (sext 32 acc) (ps.map fun e => intElem ca e.1.1 * intElem cb e.2.1))
  | k => mmaChunks (accCode d.fmt) d.ta d.tb (mmaChunk k) (d.kk / mmaChunk k) acc
      (ps.map fun e => termOf (scaleElem (decodeFmt ca e.1.1) e.1.2) (scaleElem (decodeFmt cb e.2.1) e.2.2))

/-- The accumulator of element (m, n) before the instruction (R363). -/
def readAcc (c : Iss) (f : Fields) (d : MmaData) (lane i : Nat) : Nat :=
  let r := (vecBlock c f.d 32).getD 0
  if mmaZ f then 0
  else match d.cls with
    | .f64 => blockVal c.g (.v (r + 2 * i)) 2 lane
    | .int => c.g.getV (r + i) lane
    | _ => if accCode d.fmt = 1 then c.g.getV (r + i) lane else c.g.getV (r + i) lane % 2 ^ 16

/-- The register writes of an MMA: lane m + 32h holds columns h N/2 to h N/2 + N/2 − 1 of row m. -/
def mmaWrites (c : Iss) (f : Fields) (d : MmaData) : List RegWrite :=
  let r := (vecBlock c f.d 32).getD 0
  (List.range 64).flatMap fun l => (List.range (d.nn / 2)).flatMap fun i =>
    let v := mmaElement d (readAcc c f d l i) (l % 32) (l / 32 * (d.nn / 2) + i)
    match d.cls with
    | .f64 => [.any (r + 2 * i) l (BitVec.ofNat 32 v) false, .any (r + 2 * i + 1) l (BitVec.ofNat 32 (v / 2 ^ 32)) false]
    | _ => [.any (r + i) l (BitVec.ofNat 32 v) false]

/-- A poisoned scale byte that a term reads. -/
def mmaScaleBad (s : State) (c : Iss) (f : Fields) : Bool := (scaleUsed c f).any (scaleBad s c.core)

/-! ## MMA: issue (R360, R361, R364) -/

/-- An MMA retires; until its results are written, a fence of its core makes it replay (04 R99). -/
def retireMma (s : State) (c : Iss) (ws : List RegWrite) : State :=
  startOp (retire s c) { gid := c.gid, flag := setFlag c.p false, writes := ws, replay := some (c.live, c.p) }

/-- An MMA of the group alone, behind its checks; one that reads memory waits for the group's atomics (05 R110). -/
def mmaAlone (s : State) (c : Iss) (f : Fields) : State :=
  if mmaRec f && groupAtoms s c.gid then s
  else match mmaSlab s c f (threadsOf c.gid c.p.mask) with
  | .trap cause va => takeTrap s c cause 0 va
  | .fault gs => coreFault s c (c.faulter .read) gs
  | .ok bytes bad s1 =>
    if bad || mmaScaleBad s c f then trapPoison s1 c 0
    else retireMma s1 c (mmaWrites c f (mmaData s c f bytes))

/-- What a ganged MMA must have before it can arrive at its latch: a guard, and a latch of the team. A latch number of LATCHES
or more traps as GANG's does; R359 states that for GANG alone (log 32). -/
def gangArrives (c : Iss) (f : Fields) : Bool := f.guardPathWide && decide (mmaGid f < c.t.latchN)

/-- Arrival at a latch: the path waits there for the joined issue, where the members' checks are made (10 R215). The replay
of one whose batch was released with FAIL = 1 traps. -/
def mmaArrive (s : State) (c : Iss) (f : Fields) : State :=
  let n := mmaGid f
  let l := getLatch c.t n
  if l.broken || !l.members.contains c.g.index then takeTrap s c causeGang 0 0
  else if c.p.failed then
    match mmaCheck s c f with
    | some t => t
    | none => match mmaSlab s c f (threadsOf c.gid c.p.mask) with
      | .trap cause va => takeTrap s c cause 0 va
      | _ => takeTrap s c causeFatal 0 0
  else
    waitOn (modLatch s c.g.team n fun l =>
      { l with arrived := l.arrived.filter (· != ⟨c.gid, c.live⟩) ++ [⟨c.gid, c.live⟩] }) c (.latch n)

def execMma (f : Fields) (s : State) : Out :=
  onPath s fun c =>
    if mmaGanged f then
      if !gangArrives c f then illegalOperand s c
      else if flagFull c.g (setFlag c.p false) then s
      else mmaArrive s c f
    else match mmaCheck s c f with
      | some t => t
      | none => if flagFull c.g (setFlag c.p false) then s else mmaAlone s c f

/-- The MMA at which a path waits. -/
def waitingMma (s : State) (n : Nat) (q : PathId) : Option (Iss × Fields) :=
  match issOf s q with
  | none => none
  | some c => match c.p.wait, slotInstr c.p with
    | .latch m, some (.mma f) => if m = n ∧ !c.g.saved then some (c, f) else none
    | _, _ => none

/-- Of the arrivals of each group the first, its next MMA in order; a later one, of its other live path, waits for the join after
it (R360). -/
def firstArrivals : List (Iss × Fields) → List (Iss × Fields)
  | [] => []
  | e :: r => e :: (firstArrivals r).filter fun x => x.1.gid != e.1.gid

/-- The members that have arrived, when all have. -/
def joinedMembers (s : State) (t : Team) (n : Nat) : Option (List (Iss × Fields)) :=
  let l := getLatch t n
  let ms := firstArrivals (l.arrived.filterMap (waitingMma s n))
  if !l.members.isEmpty && !l.broken && l.members.all (fun i => ms.any fun e => e.1.g.index == i)
    && ms.all (fun e => l.members.contains e.1.g.index && !flagFull e.1.g (setFlag e.1.p false)) then some ms
  else none

/-- What must be equal across members: FMT [17:0], X, B, tb, BSOFF and the record (R360). -/
def gangKey (c : Iss) (f : Fields) : List Nat :=
  let q := mmaScl c f
  [c.p.fmt.toNat % 2 ^ 18, f.x.toNat, f.b.toNat, q.2.1, q.2.2.2] ++
    (if mmaRec f then match recScalar f.b with
      | some n => (List.range 4).map fun i => c.g.getS (n + i)
      | none => []
    else [])

/-- Takes a trap in every member. -/
def trapMembers (s : State) (ms : List (Iss × Fields)) (cause va : Nat) : State :=
  ms.foldl (fun t e => takeTrap t e.1 cause 0 va) s

/-- Members go from the latch and issue their MMAs again. -/
def leaveLatch (s : State) (ms : List (Iss × Fields)) : State :=
  ms.foldl (fun t e => modPath t e.1.gid e.1.live fun p => { p with wait := .none }) s

/-- A check of one member fails: that member traps, and the others arrive again (10 R215; log 32). -/
def failMembers (s : State) (ms : List (Iss × Fields)) : State :=
  (ms.filter fun e => (mmaCheck s e.1 e.2).isSome).foldl (fun t e => (mmaCheck t e.1 e.2).getD t)
    (leaveLatch s (ms.filter fun e => (mmaCheck s e.1 e.2).isNone))

/-- A latch behind a join of some members. -/
def Latch.joined (l : Latch) (ms : List (Iss × Fields)) : Latch :=
  { l with arrived := l.arrived.filter fun q => !ms.any fun e => q == ⟨e.1.gid, e.1.live⟩ }

/-- A page fault of the joined MMA: every member faults, and what its other live path has waiting at the latch arrives again with
it (10 R215). -/
def faultMembers (s : State) (team n : Nat) (ms : List (Iss × Fields)) (gs : List Granule) : State :=
  let also := ((getTeam s team).map fun t => (getLatch t n).arrived.filterMap (waitingMma s n)).getD []
  let mine := also.filter fun x => ms.any fun e => e.1.gid == x.1.gid
  ms.foldl (fun t e => coreFault t e.1 (e.1.faulter .read) gs) (leaveLatch (modLatch s team n fun l => l.joined mine) mine)

/-- GANG_JOINED_ISSUE (R360): the kth MMAs of all members issue as one. A page fault needs room for a batch of each member
(03 R70): without it the members wait at the latch. -/
def joinedIssue (s : State) (team n : Nat) (ms : List (Iss × Fields)) : Event :=
  let s0 := modLatch s team n fun l => l.joined ms
  match ms with
  | [] => .refused .idle
  | (c0, f0) :: _ =>
    if ms.any fun e => gangKey e.1 e.2 != gangKey c0 f0 then .next (trapMembers s0 ms causeGang 0)
    else if ms.any fun e => (mmaCheck s e.1 e.2).isSome then .next (failMembers s0 ms)
    else if mmaRec f0 && ms.any fun e => groupAtoms s e.1.gid then .refused .idle
    else match mmaSlab s0 c0 f0 (ms.flatMap fun e => threadsOf e.1.gid e.1.p.mask) with
      | .trap cause va => .next (trapMembers s0 ms cause va)
      | .fault gs =>
        if 256 < waitingBatches s c0.part + ms.length then .refused .idle
        else .next (faultMembers s0 team n ms gs)
      | .ok bytes bad s1 =>
        if bad || ms.any (fun e => mmaScaleBad s e.1 e.2) then .next (trapMembers s1 ms causePoison 0)
        else .next (ms.foldl (fun t e => retireMma t e.1 (mmaWrites e.1 e.2 (mmaData s e.1 e.2 bytes))) s1)

def tryGangJoinedIssue (team latch : Nat) (s : State) : Event :=
  match getTeam s team with
  | none => .refused .idle
  | some t => match joinedMembers s t latch with
    | none => .refused .idle
    | some ms => joinedIssue s team latch ms

def execGangJoinedIssue (team latch : Nat) (s : State) : Out := settle s (tryGangJoinedIssue team latch s)

/-! ## MTRN (R365) -/

/-- Registers of the destination block. -/
def mtrnDst (f : Fields) : Nat := if f.x = 0 then 8 else 32

def mtrnLegal (c : Iss) (f : Fields) : Bool :=
  match vecBlock c f.d (mtrnDst f), vecBlock c f.a 32 with
  | some d, some a =>
    f.guardPathWide && decide (f.x.toNat ≤ 1) && f.mod == 0 && f.b == 0 && f.c == 0 && d % 8 == 0 && a % 8 == 0
      && (decide (d + mtrnDst f ≤ a) || decide (a + 32 ≤ d))
      && (f.x == 1 || ((fmtNarrowFloat (afmt c) || fmtNarrowInt (afmt c)) && !fmt4bit (afmt c)))
  | _, _ => false

/-- One element of the A fragment. -/
def mtrnElem (s : State) (c : Iss) (a lane j : Nat) : Nat :=
  let v := c.g.getV (a + j) lane
  narrowFmt s c (afmt c) (decodeFmt 1 (flushIf (ftzOn c) 1 v)) lane v j

def mtrnWord (s : State) (c : Iss) (f : Fields) (a lane i : Nat) : Nat :=
  if f.x = 0 then (List.range 4).foldl (fun w j => w + 256 ^ j * mtrnElem s c a lane (4 * i + j)) 0
  else c.g.getV (a + lane % 32) (lane / 32 * 32 + i)

def execMtrn (f : Fields) (s : State) : Out :=
  onPath s fun c =>
    let d := (vecBlock c f.d (mtrnDst f)).getD 0
    let a := (vecBlock c f.a 32).getD 0
    if !mtrnLegal c f then illegalOperand s c
    else if flagFull c.g (setFlag c.p false) then s
    else match poisonedLane c.g a 32 with
      | some l => trapPoison s c l
      | none => retireOp s c false ((List.range 64).flatMap fun l => (List.range (mtrnDst f)).map fun i =>
          .any (d + i) l (BitVec.ofNat 32 (mtrnWord s c f a l i)) false)

end Sys2Proof.Machine
end

