-- ==== Sys2Proof/Machine/Frames.lean ====
section
/-!
DEFINITION. Frames in the frame area: units, the bytes of group and team frames, and register writes that reach a group
wherever it is (10 R224, R226; 08 R180, R187; 15 R355; 17 R417).
-/
namespace Sys2Proof.Machine

/-! ## Bulk access of device physical memory -/

/-- Writes whole blocks of memory from a multiple of 128 on, in one pass; the L2 keeps none of their lines. `bad` marks
poisoned bytes. -/
def bulkWrite (s : State) (pa : Nat) (bytes : List Byte) (bad : Nat → Bool) : State :=
  let n := bytes.length
  let cells := (cellsAt pa bytes).filter fun e => e.2 != 0
  let marks := ((List.range (n / 8)).filter fun i => (List.range 8).any fun j => bad (8 * i + j)).map fun i => (pa / 8 + i, true)
  let s1 := { s with
    mem := s.mem.filter (fun e => decide (e.1 < pa)) ++ cells ++ s.mem.filter (fun e => decide (pa + n ≤ e.1))
    poison := s.poison.filter (fun e => decide (e.1 < pa / 8)) ++ marks
      ++ s.poison.filter (fun e => decide (pa / 8 + n / 8 ≤ e.1)) }
  modPart s1 (ownerOf s pa) fun p => { p with l2 := p.l2.filter fun e => decide (e.1 < pa / 128) || decide (pa / 128 + n / 128 ≤ e.1) }

/-- Bytes of device physical memory as the L2 has them. -/
def bulkRead (s : State) (pa n : Nat) : List Byte := l2Bytes s 0 pa n
def bulkBad (s : State) (pa : Nat) : Bool := l2Bad s 0 pa

/-! ## Units (R226) -/

def poolBase (s : State) (part : Nat) : Nat := frameBase s part + 2 ^ 24
def unitCount (s : State) (part : Nat) : Nat := (frameSize s part - 2 ^ 24) / 2 ^ 17
def unitAddr (s : State) (part u : Nat) : Nat := poolBase s part + 2 ^ 17 * u

/-- Whether unit u is free: never taken, or of a context whose reset the host has since cleared by rewriting the record
(R225). Partition.units holds 2 × context, plus 1 once that context was reset. -/
def unitFree (s : State) (part u : Nat) : Bool :=
  match spFind (getPart s part).units u with
  | none => true
  | some v => v % 2 == 1 && ctxState s part (v / 2) != 5

/-- The lowest run of n free units. R226 counts the units that a save takes and does not say which they are: the model takes the
lowest run, one for a team frame with the queue buffers behind it (log 115). -/
def findUnits (s : State) (part n : Nat) : Option Nat :=
  (List.range (unitCount s part + 1 - n)).find? fun u => (List.range n).all fun i => unitFree s part (u + i)

def takeUnits (s : State) (part ctx u n : Nat) : State :=
  modPart s part fun p => { p with units := (List.range n).foldl (fun m i => spPut m (u + i) (2 * ctx)) p.units }

/-- Frees the units of n × 128 KiB at an address. -/
def freeUnits (s : State) (part addr n : Nat) : State :=
  let u := (addr - poolBase s part) / 2 ^ 17
  modPart s part fun p => { p with units := (List.range n).foldl (fun m i => spDel m (u + i)) p.units }

def teamUnits (t : Team) : Nat := (2 ^ 14 + (t.size + 65535) / 65536 * 65536 + 2 ^ 17 - 1) / 2 ^ 17

/-! ## Records as bits -/

def RecKind.code : RecKind → Nat
  | .join => 0
  | .parked => 1
  | .trap => 2
  | .serial => 3

/-- A record of the reconvergence stack (08 R180). -/
def recBits (r : Rec) : Nat :=
  r.addr % 2 ^ 48 + r.kind.code * 2 ^ 48 + r.slot % 16 * 2 ^ 52 + r.cause * 2 ^ 56 + r.mask.toNat * 2 ^ 64
    + r.aux.toNat * 2 ^ 128 + r.fmt.toNat * 2 ^ 192 + r.handle * 2 ^ 224

/-- A record as restore fills it from the spill area: none for a reserved kind, which is discarded (08 R180). What the map
does not hold of a record stays as the group had it. -/
def Rec.refilled (r : Rec) (x : Nat) : Option Rec :=
  let kind : Option RecKind := match bitsOf x 48 3 with
    | 0 => some .join
    | 1 => some .parked
    | 2 => some .trap
    | 3 => some .serial
    | _ => none
  if x = recBits r then some r
  else kind.map fun k =>
    { r with
      kind := k, addr := bitsOf x 0 48, slot := bitsOf x 52 4, cause := bitsOf x 56 8, mask := BitVec.ofNat 64 (bitsOf x 64 64)
      aux := BitVec.ofNat 64 (bitsOf x 128 64), fmt := BitVec.ofNat 32 (bitsOf x 192 32), handle := bitsOf x 224 16 }

/-- An entry of the return-address stack (08 R187). -/
def retBits (e : RetEntry) : Nat :=
  (if e.ser then 1 else 0) + e.addr / 4 % 2 ^ 46 * 4 + e.handle * 2 ^ 48 + e.mask.toNat * 2 ^ 64

def retOfBits (x : Nat) : RetEntry :=
  { ser := bitOf x 0, addr := bitsOf x 2 46 * 4, handle := bitsOf x 48 16, mask := BitVec.ofNat 64 (bitsOf x 64 64) }

/-- The candidates that a ray-state record holds: those of a round that has begun, else the results of the last. -/
def RayState.cands (r : RayState) : List RayHit := if r.active then r.cand else r.hits

/-- A ray-state record (17 R417). -/
def rayBits (r : RayState) : Nat :=
  let w (i : Nat) : Nat := (r.ray.getD i 0).toNat
  let best := r.cands.head?
  let b (x : Bool) : Nat := if x then 1 else 0
  (List.range 8).foldl (fun a i => a + w i * 2 ^ (32 * i)) 0
    + r.root * 2 ^ 256 + r.mode * 2 ^ 320 + b r.coh * 2 ^ 322 + r.km1 * 2 ^ 323 + 2 ^ 327 + b r.err * 2 ^ 328
    + b r.more * 2 ^ 329 + r.pend.length % 64 * 2 ^ 330
    + (match best with
      | some h => h.kind * 2 ^ 336 + h.u * 2 ^ 448 + h.v * 2 ^ 480
      | none => 0)
    + (match r.bound with
      | some (t, i) => t * 2 ^ 352 + i * 2 ^ 384
      | none => 0)
    + (r.cands.take 16).zipIdx.foldl (fun a e => a + (e.1.t + e.1.id * 2 ^ 32) * 2 ^ (512 + 96 * e.2)) 0
    + (r.pend.take 32).zipIdx.foldl (fun a e => a + (e.1.1 % 256 + e.1.2 / 128 % 2 ^ 41 * 256) * 2 ^ (2048 + 64 * e.2)) 0

/-- Whether 4,096 bits keep the map of a ray-state record (R417). -/
def rayMapOk (x : Nat) : Bool :=
  decide (bitsOf x 320 2 < 3) && decide (bitsOf x 330 6 ≤ 32) && bitsOf x 340 12 == 0
    && (List.range 32).all fun i => bitsOf x (2048 + 64 * i + 49) 15 == 0

/-- A traversal state as restore reads it from its record: none with VALID = 0; miss values with ERR = 1 where the fields
break the map; else the record's fields, and a round that has begun goes on from its stack (R417). What the map does not hold
stays as the lane had it. -/
def RayState.refilled (r : RayState) (x : Nat) : Option RayState :=
  if x = rayBits r then some r
  else if !bitOf x 327 then none
  else if !rayMapOk x then some { r with err := true, hits := [] }
  else
    let cand (j : Nat) (h : RayHit) : RayHit :=
      let y := { h with t := bitsOf x (512 + 96 * j) 32, id := bitsOf x (544 + 96 * j) 64 }
      if j = 0 then { y with u := bitsOf x 448 32, v := bitsOf x 480 32, kind := bitsOf x 336 4 } else y
    some
      { r with
        ray := (List.range 8).map fun i => BitVec.ofNat 32 (bitsOf x (32 * i) 32)
        root := bitsOf x 256 64, mode := bitsOf x 320 2, coh := bitOf x 322, km1 := bitsOf x 323 4, err := bitOf x 328
        more := bitOf x 329
        bound := if bitsOf x 320 2 = 2 ∧ (r.bound.isSome ∨ bitsOf x 352 96 ≠ 0) then some (bitsOf x 352 32, bitsOf x 384 64) else none
        pend := (List.range (bitsOf x 330 6)).map fun i =>
          (bitsOf x (2048 + 64 * i) 8, bitsOf x (2048 + 64 * i + 8) 41 * 128)
        cand := if r.active then r.cand.zipIdx.map fun e => cand e.2 e.1 else r.cand
        hits := if r.active then r.hits else r.hits.zipIdx.map fun e => cand e.2 e.1 }

/-- The state of a lane that had none, until its record says otherwise. -/
def emptyRay : RayState :=
  { ray := [], root := 0, mode := 0, coh := false, km1 := 0, first := 0, tok := 0, active := false }

/-! ## Group frames -/

/-- Pads bytes with zero to a length. -/
def padTo (n : Nat) (bs : List Byte) : List Byte := bs ++ List.replicate (n - bs.length) 0

def headerBytes (key n : Nat) : List Byte := (List.range n).map fun i => Config.frameByte key i

/-- One bit per element of the vector registers: register k, lane l at bit 64 k + l. -/
def poisonBytes (g : Group) : List Byte :=
  (List.range 2048).map fun i =>
    BitVec.ofNat 8 ((List.range 8).foldl (fun a j => if spGet false g.vpoison (8 * i + j) then a + 2 ^ j else a) 0)

/-- The bytes of a group frame from its start up to its vector registers. -/
def frameHead (g : Group) (key : Nat) : List Byte :=
  headerBytes key 256
    ++ ((List.range 64).flatMap fun i => leBytes 4 (g.getS i))
    ++ padTo 512 ((List.range 48).flatMap fun p => leBytes 8 (g.predMask p).toNat)
    ++ padTo 3072 (poisonBytes g)
    ++ padTo 4096 (g.rets.reverse.flatMap fun e => leBytes 16 (retBits e))
    ++ padTo 16384 (g.stack.reverse.flatMap fun r => leBytes 32 (recBits r))
    ++ List.replicate 8192 0

def vregBytes (g : Group) : List Byte :=
  (List.range g.nregs).flatMap fun k => (List.range 64).flatMap fun l => leBytes 4 (g.getV k l)

def rayBytes (g : Group) : List Byte :=
  (List.range 64).flatMap fun l => match spFind g.rays l with
    | some r => leBytes 512 (rayBits r)
    | none => List.replicate 512 0

/-- Writes a group frame; the group keeps what the frame's header holds. -/
def writeGroupFrame (s : State) (addr : Nat) (g : Group) : State :=
  let s1 := bulkWrite s addr (frameHead g s.fresh) fun _ => false
  let s2 := bulkWrite s1 (addr + 0x8000) (vregBytes g) fun _ => false
  let s3 := bulkWrite s2 (addr + 0x18000) (rayBytes g) fun _ => false
  { s3 with fresh := s3.fresh + 1 }

/-- A group whose registers have gone to its frame. -/
def Group.emptied (g : Group) (addr : Nat) : Group :=
  { g with vregs := [], vpoison := [], sregs := [], preds := [], saved := true, frame := some addr, place := none }

/-- The sparse words of n little-endian words of bytes. -/
def wordMap (bs : List Byte) : SMap Word :=
  ((wordsOf bs).zipIdx.filter (fun e => e.1 != 0)).map fun e => (e.2, BitVec.ofNat 32 e.1)

/-- Words of a frame that memory has poisoned read as poisoned elements. -/
def wordMarks (s : State) (pa n : Nat) : SMap Bool :=
  ((List.range n).filter fun i => bulkBad s (pa + 4 * i)).map fun i => (i, true)

/-- The traversal states of a group from the records of its frame (17 R417). -/
def readRays (s : State) (g : Group) (addr : Nat) : SMap RayState :=
  (List.range 64).filterMap fun l =>
    let x := physRead s (addr + 0x18000 + 512 * l) 512
    match spFind g.rays l with
    | some r => (r.refilled x).map fun y => (l, y)
    | none => if bitOf x 327 then (emptyRay.refilled x).map fun y => (l, y) else none

/-- A group with what its frame holds: registers, poison marks, both stacks and the traversal states (10 R228). -/
def readGroupFrame (s : State) (g : Group) (addr : Nat) : Group :=
  let marks := bulkRead s (addr + 0x400) 2048
  let saved : SMap Bool :=
    ((List.range (64 * g.nregs)).filter fun i => bitOf (marks.getD (i / 8) 0).toNat (i % 8)).map fun i => (i, true)
  let regs := bulkRead s (addr + 0x8000) (256 * g.nregs)
  { g with
    sregs := wordMap (bulkRead s (addr + 0x100) 256)
    spoison := (wordMarks s (addr + 0x100) 64).foldl (fun m e => spPut m e.1 true) g.spoison
    preds := ((List.range 48).map fun p => (p, BitVec.ofNat 64 (physRead s (addr + 0x200 + 8 * p) 8))).filter
      fun e => e.2 != 0
    vregs := wordMap regs
    vpoison := (wordMarks s (addr + 0x8000) (64 * g.nregs)).foldl (fun m e => spPut m e.1 true) saved
    rets := (g.rets.reverse.zipIdx.map fun e => retOfBits (physRead s (addr + 0x1000 + 16 * e.2) 16)).reverse
    stack := (g.stack.reverse.zipIdx.filterMap fun e => e.1.refilled (physRead s (addr + 0x2000 + 32 * e.2) 32)).reverse
    rays := readRays s g addr
    saved := false
    frame := none }

/-! ## Register writes to a group wherever it is -/

/-- One register write into a group frame (R220: results that arrive after the save). -/
def frameWrite (s : State) (addr : Nat) (held : Mask) : RegWrite → State
  | .vec reg lane value bad =>
    if held.getLsbD lane then elem s reg lane value bad else s
  | .any reg lane value bad => elem s reg lane value bad
  | .scal reg value _ => physWrite s (addr + 0x100 + 4 * reg) 4 value.toNat
  | .pred p lane value =>
    if held.getLsbD lane then
      let a := addr + 0x200 + 8 * p
      let m := physRead s a 8
      physWrite s a 8 (if value then Nat.lor m (2 ^ lane) else m - bitsOf m lane 1 * 2 ^ lane)
    else s
where
  /-- One element with its poison mark. -/
  elem (s : State) (reg lane : Nat) (value : Word) (bad : Bool) : State :=
    let s1 := physWrite s (addr + 0x8000 + 256 * reg + 4 * lane) 4 value.toNat
    let a := addr + 0x400 + (64 * reg + lane) / 8
    let m := physRead s1 a 1
    let k := lane % 8
    physWrite s1 a 1 (if bad then Nat.lor m (2 ^ k) else m - bitsOf m k 1 * 2 ^ k)

/-- Register writes of an operation, to a resident group or to its frame; the scalars' poison marks are of the frame's header,
which the group keeps. -/
def writeRegs (s : State) (gid : Nat) (ws : List RegWrite) : State :=
  match getGroup s gid with
  | none => s
  | some g => match g.frame, getTeam s g.team with
    | some a, some _ =>
      modGroup (ws.foldl (fun s w => frameWrite s a g.held w) s) gid fun g =>
        { g with spoison := ws.foldl (fun m w => match w with
            | .scal reg _ bad => spSet false m reg bad
            | _ => m) g.spoison }
    | _, _ => modGroup s gid fun g => ws.foldl applyWrite g

/-! ## Team frames -/

/-- A barrier slot's 16 bytes: arrival count, target and pending bytes. -/
def barBytes (s : State) (t : Team) (n : Nat) : List Byte :=
  let b := getBar t n
  leBytes 4 b.arrived.length ++ leBytes 4 (barTarget s t b) ++ leBytes 4 (wrapBits 32 b.pending) ++ leBytes 4 b.done

def bindingBits (b : Binding) : Nat :=
  b.wsrc + b.wlen * 2 ^ 32 + (if b.wzb then 2 ^ 49 else 0) + (if b.valid then 2 ^ 50 else 0) + b.ssrc * 2 ^ 64
    + b.slen * 2 ^ 96

def bindingOf (x : Nat) : Binding :=
  { wsrc := bitsOf x 0 32, wlen := bitsOf x 32 17, wzb := bitOf x 49, valid := bitOf x 50, ssrc := bitsOf x 64 32
    slen := bitsOf x 96 13 }

def fullBytes (t : Team) : List Byte :=
  (List.range 8192).map fun i =>
    BitVec.ofNat 8 ((List.range 8).foldl (fun a j => if spadFull t (8 * i + j) then a + 2 ^ j else a) 0)

def teamHead (s : State) (t : Team) (frames : List Nat) : List Byte :=
  headerBytes s.fresh 256
    ++ ((List.range 16).flatMap fun n => barBytes s t n)
    ++ headerBytes (s.fresh + 1) 256
    ++ padTo 256 (frames.flatMap fun a => leBytes 8 a)
    ++ padTo 3072 ((List.range 4).flatMap fun r => leBytes 16 (bindingBits (getBinding t r)))
    ++ padTo 12288 (fullBytes t)

/-- Bytes of scratchpad allocated to a team (04 R77). -/
def spadAlloc (t : Team) : Nat := (t.size + 65535) / 65536 * 65536

/-- Writes a team frame with the addresses of its groups' frames. -/
def writeTeamFrame (s : State) (t : Team) (addr : Nat) (frames : List Nat) : State :=
  let s1 := bulkWrite s addr (teamHead s t frames) fun _ => false
  let s2 := bulkWrite s1 (addr + 0x4000) (spadBytes t 0 (spadAlloc t)) fun i => spGet false t.spoison (i / 8)
  { s2 with fresh := s2.fresh + 2 }

/-- A barrier slot with the arrival count and the pending bytes of its frame. The groups that have arrived are those that had at
the save, as far as the count goes; numbers of no group stand for more. The target is not read back: it follows from the team's
groups (14 R339; log 116). -/
def BarSlot.refilled (b : BarSlot) (count : Nat) (pending : Int) : BarSlot :=
  { b with
    arrived := if count = b.arrived.length then b.arrived
      else (b.arrived ++ (List.range (min count 64)).map (· + 2 ^ 64)).take (min count 64)
    pending := pending }

/-- A team with what its frame holds: scratchpad with its poison, full-empty bits, barrier slots and binding records. The
stores that brought the scratchpad bytes happen before everything after the restore. -/
def readTeamFrame (s : State) (t : Team) (addr : Nat) : Team :=
  let n := spadAlloc t
  let full := bulkRead s (addr + 0x1000) 8192
  { t with
    spad := (cellsAt 0 (bulkRead s (addr + 0x4000) n)).filter fun e => e.2 != 0
    spoison := ((List.range (n / 8)).filter fun i => bulkBad s (addr + 0x4000 + 8 * i)).map fun i => (i, true)
    full := ((List.range (n / 16)).filter fun i => bitOf (full.getD (i / 8) 0).toNat (i % 8)).map fun i => (i, true)
    shist := [], filled := []
    barrier := (List.range 16).foldl (fun m k =>
      spSet {} m k ((spGet {} m k).refilled (physRead s (addr + 0x100 + 16 * k) 4)
        (sext 32 (physRead s (addr + 0x100 + 16 * k + 8) 4)))) t.barrier
    binding := (List.range 4).foldl (fun m r => spSet {} m r (bindingOf (physRead s (addr + 0x400 + 16 * r) 16))) [] }

end Sys2Proof.Machine
end

