-- ==== Sys2Proof/Machine/Neural.lean ====
section
/-!
DEFINITION. Tokens, neural calls and the Canister (15 R352, R353, R366 to R371; 04 R88 to R90, R98).
-/
namespace Sys2Proof.Machine

/-! ## Tokens (R352) -/

def Group.tok (g : Group) (n : Nat) : Token := spGet {} g.tokens n
def Group.setTok (g : Group) (n : Nat) (t : Token) : Group := { g with tokens := spSet {} g.tokens n t }

/-- The token an operand names. -/
def tokenOf (code : BitVec 9) : Option Nat :=
  match opnd code with
  | .tok n => some n
  | _ => none

def Group.tokPending (g : Group) (n : Nat) : Bool := (g.tok n).st == .pending

/-- One lane's results are written: the token is done when the last lane's are. -/
def Group.tokenLane (g : Group) (n lane : Nat) (err : Bool) : Group :=
  let t := g.tok n
  let left := t.left &&& ~~~laneBit lane
  let e := t.err || err
  g.setTok n (if left = 0 then { t with st := .done e, left := 0, err := false } else { t with left := left, err := e })

/-- The issuing path waits for a pending token that its instruction names as destination. -/
def whenTokenFree (s : State) (c : Iss) (n : Nat) (body : State) : State :=
  if c.g.tokPending n then waitOn s c (.token n) else body

/-- TWAIT (R353). -/
def execTwait (f : Fields) (s : State) : Out :=
  onPath s fun c => runMasked s c f
      (f.mod == 0 && f.x == 0 && allZero [f.d, f.b, f.c] && (tokenOf f.a).isSome) fun _ =>
    whenTokenFree s c ((tokenOf f.a).getD 0) (retire s c)

/-- The result of TTEST: not pending, or done with ERR. -/
def tokenTest (t : Token) (err : Bool) : Bool := if err then t.st == .done true else t.st != .pending

/-- TTEST (R353). -/
def execTtest (f : Fields) (s : State) : Out :=
  onPath s fun c => runMasked s c f
      (f.mod == 0 && decide (f.x.toNat ≤ 1) && allZero [f.b, f.c] && (tokenOf f.a).isSome && predLegal f.d) fun act =>
    let v := tokenTest (c.g.tok ((tokenOf f.a).getD 0)) (f.x == 1)
    retire (modGroup s c.gid fun g => g.setPred f.d.toNat act (if v then act else 0)) c

/-! ## Weight sets (R366) -/

/-- A layer of a set. -/
structure Layer where
  inn  : Nat
  out  : Nat
  act  : Nat
  wadr : Nat
  badr : Nat
  sadr : Nat
  tscale : Nat
  deriving DecidableEq, Repr

structure WeightSet where
  wfmt   : Nat
  smode  : Nat
  inw    : Nat
  outw   : Nat
  layers : List Layer
  deriving DecidableEq, Repr

def layerOf (d n inw hid outw j : Nat) : Layer where
  inn := if j = 0 then inw else hid
  out := if j + 1 = n then outw else hid
  act := bitsOf d (32 + 3 * j) 3
  wadr := bitsOf d (128 + 192 * j) 64
  badr := bitsOf d (192 + 192 * j) 64
  sadr := bitsOf d (256 + 192 * j) 64
  tscale := bitsOf d (896 + 32 * j) 32

/-- The set that the 1,024 bits of a descriptor give; none when a field of its header is out of range, reserved or
invalid, or an address is misaligned (R370). -/
def weightSet (d : Nat) : Option WeightSet :=
  let n := bitsOf d 0 3
  let inw := bitsOf d 8 8
  let hid := bitsOf d 16 8
  let outw := bitsOf d 24 8
  let wf := bitsOf d 48 6
  let sm := bitsOf d 56 2
  let ls := (List.range n).map fun j => layerOf d n inw hid outw j
  let ok := decide (1 ≤ n) && decide (n ≤ 4) && bitsOf d 3 5 == 0 && decide (1 ≤ inw) && decide (inw ≤ 64)
    && (n == 1 || (decide (1 ≤ hid) && decide (hid ≤ 128))) && decide (1 ≤ outw) && decide (outw ≤ 32)
    && bitsOf d 44 4 == 0 && (wf == 0x06 || wf == 0x09 || fmtBinary8 wf) && bitsOf d 54 2 == 0 && bitsOf d 58 70 == 0
    && (sm != 3 || wf == 0x09)
    && ls.all fun l => decide (l.act ≤ 4) && l.wadr % 128 == 0 && l.badr % 4 == 0
  if ok then some { wfmt := wf, smode := sm, inw := inw, outw := outw, layers := ls } else none

def WeightSet.elemBits (w : WeightSet) : Nat := if w.wfmt = 0x09 then 4 else 8
def WeightSet.inFmt (w : WeightSet) : Nat := if fmtBinary8 w.wfmt then w.wfmt else 0x06
/-- The edge of a scale block. -/
def WeightSet.edge (w : WeightSet) : Nat := if w.smode = 1 then 16 else 32
/-- Scale blocks across the columns. -/
def WeightSet.cols (w : WeightSet) (l : Layer) : Nat := if w.smode = 3 then l.out else (l.out + w.edge - 1) / w.edge

def WeightSet.weightLen (w : WeightSet) (l : Layer) : Nat := (l.inn * l.out * w.elemBits + 7) / 8
def WeightSet.biasLen (_ : WeightSet) (l : Layer) : Nat := if l.badr = 0 then 0 else 4 * l.out
def WeightSet.scaleLen (w : WeightSet) (l : Layer) : Nat :=
  if w.smode = 0 then 0 else (l.inn + w.edge - 1) / w.edge * w.cols l

/-- The accesses of a layer: weights, biases, scales. -/
def WeightSet.layerAccs (w : WeightSet) (l : Layer) : List LaneAcc :=
  rangeAccs l.wadr (w.weightLen l) ++ rangeAccs l.badr (w.biasLen l) ++ rangeAccs l.sadr (w.scaleLen l)

def WeightSet.accs (w : WeightSet) : List LaneAcc := w.layers.flatMap w.layerAccs

/-! ## The Canister (04 R88 to R90) -/

def canisterLines : Nat := 16384
def canisterPins : Nat := 12288

/-- The 64-bit words that n bytes from an offset on touch. -/
def wordSpan (o n : Nat) : List Nat := if n = 0 then [] else (List.range ((o % 8 + n + 7) / 8)).map (· + o / 8)

/-- Whether a store that the L2 has must be in what a fill reads: one that a release edge of its thread, or of a thread behind it,
has ordered, one of a job that is over, and one of any other agent. Another still races with the fill (05 R109; log 38). -/
def settledStore (s : State) (m : Msg) : Bool :=
  match m.who % 8 with
  | 0 => (match getGroup s (m.who / 512) with
      | some g => g.ended
      | none => true) || s.know.any fun e => e.2.out.contains m.id
  | 1 => (match spFind s.jobs (m.who / 8) with
      | some j => j.phase == .done
      | none => true)
  | _ => true

/-- A 64-bit word as a fill of the Canister reads it from the L2, and whether it is poisoned (R89). -/
def fillWord (s : State) (kind cmp w : Nat) : (List Byte × Bool) × State :=
  if kind = 3 then (ctlWord s cmp w, s)
  else match spFind s.hist w with
    | none => (l2Word s cmp w, s)
    | some h =>
      let q := pickSeen (settledStore s) s h.msgs
      (if q.1.length = h.msgs.length then l2Word s cmp w else h.after q.1, q.2)

/-- The line of an access as a fill reads it. -/
def lineNow (s : State) (l : LaneLoc) : CanLine × State :=
  (List.range 16).foldl (fun a i =>
    let q := fillWord a.2 l.kind l.cmp (l.loc / 128 * 16 + i)
    ({ a.1 with bytes := a.1.bytes ++ q.1.1, poison := spSet false a.1.poison i q.1.2 }, q.2))
    ({ bytes := [], used := s.clk }, s)

/-- A line with the n bytes from an offset on, word by word, as one of two lines has them, by free choice (R89). Elements and the
scales for them are different accesses, so either may be old where the other is new (05 R109). -/
def mixLine (s : State) (old now : CanLine) (o n : Nat) : CanLine × State :=
  (wordSpan o n).foldl (fun a i =>
    let lo := max o (8 * i)
    let k := min (o + n) (8 * i + 8) - lo
    let cut (x : CanLine) : List Byte := (x.bytes.drop lo).take k
    let same := cut a.1 = cut now ∧ spGet false a.1.poison i = spGet false now.poison i
    let c := if same then (false, a.2) else choose a.2
    if c.1 then
      ({ a.1 with
          bytes := a.1.bytes.take lo ++ cut now ++ a.1.bytes.drop (lo + k)
          poison := spSet false a.1.poison i (spGet false now.poison i || (decide (k < 8) && spGet false a.1.poison i)) }, c.2)
    else (a.1, c.2))
    ({ old with used := s.clk }, s)

/-- The least recently used unpinned line. -/
def oldestLine (m : SMap CanLine) : Option (Nat × CanLine) :=
  m.foldl (fun a e =>
    if !e.2.pins.isEmpty then a
    else match a with
      | some b => if e.2.used < b.2.used then some e else a
      | none => some e) none

/-- Room for one more line. -/
def evictLine (m : SMap CanLine) : SMap CanLine :=
  if m.length < canisterLines then m
  else match oldestLine m with
    | some e => spDel m e.1
    | none => m

/-- A line enters the Canister for a context; the lines of another context go first (R90). -/
def canisterFill (s : State) (cluster part ctx : Nat) (l : LaneLoc) : State :=
  let q := lineNow s l
  let now := q.1
  modCluster (askSet q.2 [l]) cluster fun k =>
    let old : SMap CanLine := if k.owner = some (part, ctx) then k.lines else []
    let key := l.loc / 128
    let pins := match spFind old key with
      | some x => x.pins
      | none => []
    { k with owner := some (part, ctx), lines := spPut (evictLine (spDel old key)) key { now with pins := pins } }

/-- A read of a part of a line by the Barista: each word of a resident line may be its old one or the present one (R89). -/
def canisterTouch (s : State) (cluster part ctx : Nat) (l : LaneLoc) : State :=
  let k := getCluster s cluster
  if k.owner ≠ some (part, ctx) then canisterFill s cluster part ctx l
  else match spFind k.lines (l.loc / 128) with
    | none => canisterFill s cluster part ctx l
    | some x =>
      let now := lineNow s l
      let r := mixLine now.2 x now.1 (l.loc % 128) l.size
      modCluster r.2 cluster fun k => { k with lines := spPut k.lines (l.loc / 128) r.1 }

/-- The bytes of accesses as the Canister's lines hold them. -/
def canisterBytes (s : State) (cluster : Nat) (ls : List LaneLoc) : List Byte :=
  ls.flatMap fun l => (((spGet { bytes := [] } (getCluster s cluster).lines (l.loc / 128)).bytes).drop (l.loc % 128)).take l.size

def canisterBad (s : State) (cluster : Nat) (ls : List LaneLoc) : Bool :=
  ls.any fun l =>
    let x := spGet { bytes := [] } (getCluster s cluster).lines (l.loc / 128)
    (wordSpan (l.loc % 128) l.size).any fun i => spGet false x.poison i

/-- Pins the lines of a set for a handle, up to 1.5 MiB. -/
def pinLines (k : Cluster) (handle : Nat) (ls : List LaneLoc) : Cluster :=
  ls.foldl (fun k l =>
    let key := l.loc / 128
    match spFind k.lines key with
    | none => k
    | some x =>
      if x.pins.contains handle then k
      else if x.pins.isEmpty && decide (canisterPins ≤ (k.lines.filter fun e => !e.2.pins.isEmpty).length) then k
      else { k with lines := spPut k.lines key { x with pins := handle :: x.pins } }) k

/-! ## Fetching a set -/

/-- The outcome of fetching a set into the Canister: a call that cannot be computed, page faults, a poisoned
descriptor, or the set with its accesses. A page fault of the layers' reads comes with the set. -/
inductive SetOut where
  | err
  | fault (acc : Acc) (gs : List Granule) (w : Option WeightSet)
  | badDesc (s : State)
  | ok (w : WeightSet) (desc data : List LaneLoc) (s : State)

def wsetAddr (s : State) (part ctx handle : Nat) : Nat := (ctxBase s part ctx 320 + 128 * handle) % 2 ^ 64

/-- The layers' reads, once the descriptor is known. -/
def fetchLayers (s : State) (cluster part ctx : Nat) (desc : List LaneLoc) (w : WeightSet) : SetOut :=
  match xlateSet s (.barista cluster) part ctx .read (ctxSup s part ctx) w.accs with
  | .trap _ _ _ => .err
  | .fault gs => .fault .read gs (some w)
  | .ok ls => .ok w desc ls (ls.foldl (fun s l => canisterTouch s cluster part ctx l) s)

/-- The descriptor, a table read with supervisor rights (02 R27), then the layers. -/
def fetchSet (s : State) (cluster part ctx handle : Nat) : SetOut :=
  if handle = 0 ∨ 2 ^ 16 ≤ handle then .err
  else match xlateSet s (.barista cluster) part ctx .table true (rangeAccs (wsetAddr s part ctx handle) 128) with
    | .trap _ _ _ => .err
    | .fault gs => .fault .table gs none
    | .ok ls =>
      let s1 := ls.foldl (fun s l => canisterTouch s cluster part ctx l) s
      if canisterBad s1 cluster ls then .badDesc s1
      else match weightSet (leNat (canisterBytes s1 cluster ls)) with
        | none => .err
        | some w => fetchLayers s1 cluster part ctx ls w

/-! ## Rows (R368) -/

/-- The activation of a layer on an f32 (R366). -/
def actOf (a : Nat) (x : XReal) : XReal :=
  match a, x with
  | 0, x => x
  | _, .nan => .nan
  | 1, .inf n => if n then XReal.zero else .inf false
  | 1, .fin n p q => if n then XReal.zero else .fin false p q
  | 2, .inf n => if n then XReal.zero else .fin false 1 1
  | 2, .fin n p q => sigmoidX n p q
  | 3, x => tanhOf x
  | _, .inf _ => .nan
  | _, .fin n p q => sinX n p q

/-- A layer's operands as exact values. -/
structure LayerData where
  lay    : Layer
  weight : List Byte
  bias   : List Byte
  scale  : List Byte

/-- The element at index i of packed elements of b bits, 4 or 8. -/
def setElem (bs : List Byte) (b i : Nat) : Nat :=
  if b = 4 then (bs.getD (i / 2) 0).toNat / 16 ^ (i % 2) % 16 else (bs.getD i 0).toNat

def WeightSet.weightAt (w : WeightSet) (d : LayerData) (k n : Nat) : XReal :=
  decodeFmt w.wfmt (setElem d.weight w.elemBits (k * d.lay.out + n))

def WeightSet.scaleAt (w : WeightSet) (d : LayerData) (k n : Nat) : Option XReal :=
  if w.smode = 0 then none
  else
    let col := if w.smode = 3 then n else n / w.edge
    some (decodeFmt (if w.smode = 3 then 0x0A else 0x06) (setElem d.scale 8 (k / w.edge * w.cols d.lay + col)))

/-- The terms of chunk c for column n; inputs beyond the width count as zero. -/
def WeightSet.chunkSum (w : WeightSet) (d : LayerData) (q : List XReal) (n c : Nat) : XReal :=
  sumX ((List.range 32).map fun i =>
    let k := 32 * c + i
    if k < d.lay.inn then
      termOf (scaleElem (q.getD k .zero) none) (scaleElem (w.weightAt d k n) (w.scaleAt d k n))
    else XReal.zero)

/-- One output of a layer before its activation, as f32 bits. R368 writes TSCALE_j * t and does not say that R166's ordered lines
for ta and tb cover it: the model takes the plain product, so a zero TSCALE times an infinite t is NaN (log 96). -/
def WeightSet.accOf (w : WeightSet) (d : LayerData) (q : List XReal) (n : Nat) : Nat :=
  let ts := decodeFmt 1 d.lay.tscale
  (List.range ((d.lay.inn + 31) / 32)).foldl
    (fun acc c => roundFmt 1 ((decodeFmt 1 acc).add (ts.mul (w.chunkSum d q n c))) .rne)
    (if d.lay.badr = 0 then 0 else leNat ((d.bias.drop (4 * n)).take 4))

/-- One layer: f32 inputs to f32 outputs. -/
def WeightSet.layerOut (w : WeightSet) (d : LayerData) (x : List Nat) : List Nat :=
  let q := x.map fun v => decodeFmt w.inFmt (roundFmt w.inFmt (decodeFmt 1 v) .rne true)
  (List.range d.lay.out).map fun n =>
    let a := w.accOf d q n
    if d.lay.act = 0 then a else roundFmt 1 (actOf d.lay.act (decodeFmt 1 a)) .rne

/-- Cuts the bytes of all layers into their parts. -/
def WeightSet.split (w : WeightSet) : List Layer → List Byte → List LayerData
  | [], _ => []
  | l :: r, bs =>
    let a := w.weightLen l
    let b := w.biasLen l
    let c := w.scaleLen l
    { lay := l, weight := bs.take a, bias := (bs.drop a).take b, scale := (bs.drop (a + b)).take c }
      :: w.split r (bs.drop (a + b + c))

/-- ncall_row of R368. -/
def WeightSet.row (w : WeightSet) (ds : List LayerData) (x : List Nat) : List Nat :=
  ds.foldl (fun x d => w.layerOut d x) x

/-! ## Bins and tiles (R369, R370) -/

def findBin (s : State) (cluster ctx handle : Nat) : Option Bin :=
  (getCluster s cluster).bins.find? fun b => b.ctx == ctx && b.handle == handle

/-- Rows enter the bin of a context and handle. -/
def addRows (s : State) (cluster part ctx handle : Nat) (rows : List NRow) : State :=
  modCluster s cluster fun k =>
    if k.bins.any fun b => b.ctx == ctx && b.handle == handle then
      { k with bins := k.bins.map fun b =>
          if b.ctx == ctx && b.handle == handle then { b with rows := b.rows ++ rows } else b }
    else { k with bins := k.bins ++ [{ ctx := ctx, part := part, handle := handle, rows := rows }] }

def newTile (s : State) (t : Tile) : State := { s with tiles := spPut s.tiles s.order t, order := s.order + 1 }

/-- A uniform handle (R367, R371): a scalar, constant, zero or uniform special value. -/
def handleLegal (c : Iss) (code : BitVec 9) : Bool := srcLegal c false (opnd code) && (opnd code).isUniform

/-- NCALL (R367). -/
def execNcall (f : Fields) (s : State) : Out :=
  onPath s fun c =>
    let n := f.mod.toNat + 1
    let blk (code : BitVec 9) (k : Nat) : Bool := match opnd code with
      | .v i => blockLegal c i k
      | _ => false
    runMasked s c f (f.x == 0 && (tokenOf f.d).isSome && handleLegal c f.a && blk f.b n && blk f.c 32) fun act =>
      let t := (tokenOf f.d).getD 0
      let lanes := lanesOf act
      let h := srcVal s c .w32 (opnd f.a) (lowLane act)
      whenTokenFree s c t <|
        if srcBad c false (opnd f.a) 0 then trapPoison s c 0
        else match lanes.find? fun l => (List.range n).any fun i => c.g.badV (f.b.toNat + i) l with
          | some l => trapPoison s c l
          | none =>
            if 2 ^ 16 ≤ h then illegalOperand s c
            else
              let rows := lanes.map fun l =>
                { gid := c.gid, tok := t, lane := l, first := f.c.toNat, at_ := clkOf s (clusterOf c.core)
                  input := (List.range n).map fun i => BitVec.ofNat 32 (c.g.getV (f.b.toNat + i) l) : NRow }
              let s1 := modGroup s c.gid fun g => g.setTok t
                { st := .pending, neural := true, first := f.c.toNat, count := 32, left := act }
              retire (addRows s1 (clusterOf c.core) c.part c.ctx h rows) c

/-- Whether a live path of the group waits for a pending NCALL token. -/
def waitsNeural (g : Group) : Bool :=
  let w (p : Option Path) : Bool := match p with
    | some q => match q.wait with
      | .token t => g.tokPending t && (g.tok t).neural
      | _ => false
    | none => false
  w g.live0 || w g.live1

def hasNeural (g : Group) : Bool := g.tokens.any fun e => e.2.st == .pending && e.2.neural

/-- Whether every group of the context in the cluster that has a pending NCALL token waits on one (R369). -/
def allCallersWait (s : State) (cluster ctx : Nat) : Bool :=
  s.groups.all fun e =>
    match getTeam s e.2.team with
    | some t =>
      !(t.ctx == ctx && t.part == partOfCluster s cluster && hasNeural e.2
        && (match t.core with
          | some k => clusterOf k == cluster
          | none => false)) || waitsNeural e.2
    | none => true

/-- NCALL_TILE_DISPATCH (R369): the first min(32, rows) rows of a bin become a tile. -/
def tryNcallTileDispatch (cluster ctx handle : Nat) (s : State) : Event :=
  match findBin s cluster ctx handle with
  | none => .refused .idle
  | some b =>
    if (getCluster s cluster).fenced then .refused .idle
    else if 32 ≤ b.rows.length ∨ b.flush ∨ allCallersWait s cluster ctx then
      let s1 := newTile s
        { cluster := cluster, part := b.part, ctx := ctx, handle := handle, rows := b.rows.take 32 }
      let rest := b.rows.drop 32
      .next (modCluster s1 cluster fun k =>
        { k with bins := if rest.isEmpty then k.bins.filter (fun x => !(x.ctx == ctx && x.handle == handle))
            else k.bins.map fun x => if x.ctx == ctx && x.handle == handle then { x with rows := rest } else x })
    else .refused .idle

def execNcallTileDispatch (cluster ctx handle : Nat) (s : State) : Out := settle s (tryNcallTileDispatch cluster ctx handle s)

/-- FLUSH_WINDOW_EXPIRY (R369): the oldest row has waited for the window, which is at least 64 clocks. -/
def tryFlushWindowExpiry (cluster ctx handle : Nat) (s : State) : Event :=
  match findBin s cluster ctx handle with
  | none => .refused .idle
  | some b =>
    match b.rows with
    | [] => .refused .idle
    | r :: _ =>
      if clkOf s cluster < r.at_ + 64 ∨ b.flush then .refused .idle
      else .next (modCluster s cluster fun k =>
        { k with bins := k.bins.map fun x => if x.ctx == ctx && x.handle == handle then { x with flush := true } else x })

def execFlushWindowExpiry (cluster ctx handle : Nat) (s : State) : Out := settle s (tryFlushWindowExpiry cluster ctx handle s)

/-- A row's results, and its lane of the token. -/
def rowDone (s : State) (r : NRow) (vals : List Nat) (bad err : Bool) : State :=
  let ws := vals.zipIdx.map fun e => RegWrite.vec (r.first + e.2) r.lane (BitVec.ofNat 32 e.1) bad
  modGroup (writeRegs s r.gid ws) r.gid fun g => g.tokenLane r.tok r.lane err

/-- All 32 registers of every row take the canonical NaN. -/
def tileNaN (s : State) (rows : List NRow) (bad err : Bool) : State :=
  rows.foldl (fun s r => rowDone s r (List.replicate 32 f32NaN) bad err) s

/-- One row of a tile whose set has been fetched. -/
def tileRow (w : WeightSet) (ds : List LayerData) (bad : Bool) (s : State) (r : NRow) : State :=
  if r.input.length ≠ w.inw then rowDone s r (List.replicate 32 f32NaN) false true
  else if bad then rowDone s r (List.replicate w.outw f32NaN) true false
  else rowDone s r (w.row ds (r.input.map (·.toNat))) false false

/-- The end of a tile that has been fetched. -/
def finishTile (s : State) (id : Nat) (t : Tile) (w : WeightSet) (desc data : List LaneLoc) : State :=
  let s1 := { s with tiles := spDel s.tiles id }
  match t.hint with
  | some true => modCluster s1 t.cluster fun k => pinLines k t.handle (desc ++ data)
  | some false => s1
  | none =>
    t.rows.foldl (tileRow w (w.split w.layers (canisterBytes s t.cluster data)) (canisterBad s t.cluster data)) s1

/-- Whether a row of a tile whose batch was released with FAIL = 1 ends with ERR all the same (R370): an error that its
readable descriptor shows. -/
def rowErr (o : SetOut) (r : NRow) : Bool :=
  match o with
  | .err => true
  | .fault _ _ (some w) => r.input.length != w.inw
  | .ok w _ _ _ => r.input.length != w.inw
  | _ => false

/-- The rows of a failed tile: every register poisoned. -/
def tileFailed (s : State) (o : SetOut) (rows : List NRow) : State :=
  rows.foldl (fun s r => rowDone s r (List.replicate 32 f32NaN) true (rowErr o r)) s

/-- NCALL_TILE_COMPLETE (R368, R370). -/
def tryNcallTileComplete (tile : Nat) (s : State) : Event :=
  match spFind s.tiles tile with
  | none => .refused .idle
  | some t =>
    let gone (s : State) : State := { s with tiles := spDel s.tiles tile }
    if t.batch.isSome || (getCluster s t.cluster).fenced then .refused .idle
    else if t.failed then .next (tileFailed (gone s) (fetchSet s t.cluster t.part t.ctx t.handle) t.rows)
    else match fetchSet s t.cluster t.part t.ctx t.handle with
      | .err => .next (tileNaN (gone s) t.rows false true)
      | .badDesc s1 => .next (tileNaN (gone s1) t.rows true false)
      | .ok w desc data s1 => .next (finishTile s1 tile t w desc data)
      | .fault acc gs _ =>
        if !canReport s t.part then .refused .idle
        else
          let r := reportBatch s t.part { acc := acc, ctx := t.ctx, client := 4, unit := t.cluster } gs (.tile tile)
          .next { r.2 with tiles := spPut r.2.tiles tile { t with batch := some r.1 } }

def execNcallTileComplete (tile : Nat) (s : State) : Out := settle s (tryNcallTileComplete tile s)

/-! ## Hints (R371) -/

def hintLegal (c : Iss) (f : Fields) (rel : Bool) : Bool :=
  f.mod == 0 && allZero [f.d, f.b, f.c] && (f.x == 0 || (rel && f.x == 1)) && handleLegal c f.a

def hintHandle (s : State) (c : Iss) (f : Fields) : Nat := srcVal s c .w32 (opnd f.a) 0

/-- The shape of the three hints: a poisoned handle traps. -/
def runHint (s : State) (c : Iss) (f : Fields) (rel : Bool) (body : Nat → State) : State :=
  runMasked s c f (hintLegal c f rel) fun _ =>
    if srcBad c false (opnd f.a) 0 then trapPoison s c 0 else retire (body (hintHandle s c f)) c

/-- A fetch of a set that nobody waits for; an invalid handle is ignored. -/
def hintTile (s : State) (c : Iss) (pin : Bool) (h : Nat) : State :=
  if h = 0 ∨ 2 ^ 16 ≤ h then s
  else newTile s { cluster := clusterOf c.core, part := c.part, ctx := c.ctx, handle := h, rows := [], hint := some pin }

/-- Releases a pin of the context. -/
def unpin (s : State) (c : Iss) (h : Nat) : State :=
  modCluster s (clusterOf c.core) fun k =>
    if k.owner = some (c.part, c.ctx) then
      { k with lines := k.lines.map fun e => (e.1, { e.2 with pins := e.2.pins.filter fun x => x != h }) }
    else k

/-- NPIN. -/
def execNpin (f : Fields) (s : State) : Out :=
  onPath s fun c => runHint s c f true fun h => if f.x = 1 then unpin s c h else hintTile s c true h

/-- NPREF. -/
def execNpref (f : Fields) (s : State) : Out :=
  onPath s fun c => runHint s c f false fun h => hintTile s c false h

/-- NFLUSH: the bin of the handle, or with 0x160 every bin of the context in the cluster. -/
def execNflush (f : Fields) (s : State) : Out :=
  onPath s fun c => runHint s c f false fun h =>
    modCluster s (clusterOf c.core) fun k =>
      { k with bins := k.bins.map fun b =>
          if b.ctx == c.ctx && (f.a == zeroCode || b.handle == h) then { b with flush := true } else b }

/-- CANISTER_FILL (04 R90): the Canister fills one line, by its address over 128, that a tile or hint of the context in
the cluster is to read. -/
def tryCanisterFill (cluster part ctx line : Nat) (s : State) : Event :=
  let wants := s.tiles.any fun e => e.2.cluster == cluster && e.2.part == part && e.2.ctx == ctx && e.2.batch.isNone
  match xlateSet s (.barista cluster) part ctx .read (ctxSup s part ctx) [⟨0, line * 128, 128, false⟩] with
  | .ok [l] => if wants then .next (canisterFill s cluster part ctx l) else .refused .idle
  | _ => .refused .idle

def execCanisterFill (cluster part ctx line : Nat) (s : State) : Out := settle s (tryCanisterFill cluster part ctx line s)

end Sys2Proof.Machine
end

