-- ==== Sys2Proof/Machine/Streams.lean ====
section
/-!
DEFINITION. Streams and their edges, the progress of a submission queue, and accesses of the engines
(06 R127 to R131; 09 R197, R199; 04 R98).
-/
namespace Sys2Proof.Machine

/-! ## Footprint regions (R127, R128) -/

/-- The fields of a region's 256 bits; a host card's or a node's region is never in scratchpad. -/
def regionOf (spad : Bool) (x : Nat) : Region where
  base := bitsOf x 0 64
  pitch := bitsOf x 64 32
  rowBytes := bitsOf x 96 32
  rows := bitsOf x 128 32
  rd := bitOf x 160
  wr := bitOf x 161
  spad := spad && bitOf x 162

/-- The regions in a list of bytes. -/
def regionsOf (spad : Bool) (n : Nat) (bs : List Byte) : List Region :=
  (List.range n).map fun i => regionOf spad (leNat ((bs.drop (32 * i)).take 32))

def Region.isEmpty (r : Region) : Bool := r.rowBytes == 0 || r.rows == 0 || !(r.rd || r.wr)

/-- Whether the offset o from BASE, not wrapped, is in a row: the last row that starts at or below it decides. -/
def Region.atOffset (r : Region) (o : Nat) : Bool :=
  let i := if r.pitch = 0 then 0 else min (r.rows - 1) (o / r.pitch)
  decide (o - i * r.pitch < r.rowBytes)

/-- Whether a region covers a byte (R128); rows may run past the end of virtual space once. -/
def Region.covers (r : Region) (a : Nat) : Bool :=
  let o := (a + 2 ^ 64 - r.base % 2 ^ 64) % 2 ^ 64
  !r.isEmpty && (r.atOffset o || r.atOffset (o + 2 ^ 64))

/-- The span of a region in lines (R128). -/
def Region.span (r : Region) : Nat × Nat :=
  let last := (r.base + (r.rows - 1) * r.pitch + r.rowBytes - 1) / 128
  if 2 ^ 57 - 1 < last then (0, 2 ^ 57 - 1) else (r.base / 128, last)

def spansMeet (a b : Region) : Bool := decide (a.span.1 ≤ b.span.2) && decide (b.span.1 ≤ a.span.2)

/-- Whether an earlier region and a later one give an edge (R130). The model derives it from the spans, which R130
permits. -/
def regionsMeet (a b : Region) : Bool :=
  !a.isEmpty && !b.isEmpty && a.spad == b.spad && ((a.wr && b.rd) || (a.rd && b.wr) || (a.wr && b.wr)) && spansMeet a b

def footprintsMeet (xs ys : List Region) : Bool := xs.any fun a => ys.any fun b => regionsMeet a b

/-! ## Streams (R129 to R131) -/

def Job.finished (j : Job) : Bool := j.phase == .done || j.phase == .stopped

/-- Whether every edge into a member with an order number is satisfied. -/
def edgesClear (s : State) (st : StreamId) (order : Nat) (rs : List Region) : Bool :=
  (s.nodes.all fun e =>
      !(e.2.stream == st && decide (e.2.order < order) && e.2.phase != .done && footprintsMeet e.2.regions rs))
    && s.jobs.all fun e =>
      !(e.2.stream == st && decide (e.2.order < order) && !e.2.finished && footprintsMeet e.2.card.regions rs)

/-- The stores that the completed members before one of its stream, joined to it by an edge, order before its accesses
(R131). -/
def streamIds (s : State) (st : StreamId) (order : Nat) (rs : List Region) : List Nat :=
  (s.ends.filter fun e => e.stream == st && decide (e.order < order) && footprintsMeet e.regions rs).foldl
    (fun l e => addIds l e.ids) []

/-- A member of a stream completes. -/
def endMember (s : State) (st : StreamId) (order : Nat) (rs : List Region) (ids : List Nat) : State :=
  { s with ends := s.ends ++ [⟨st, order, rs, ids⟩] }

/-! ## Progress of a queue (R199) -/

def getSq (s : State) (part q : Nat) : SubQueue := spGet {} (getPart s part).queues q
def modSq (s : State) (part q : Nat) (f : SubQueue → SubQueue) : State :=
  modPart s part fun p => { p with queues := spSet {} p.queues q (f (spGet {} p.queues q)) }

/-- PROGRESS passes the leading records that have completed, on fuel. -/
def passRecords : Nat → SubQueue → SubQueue
  | 0, q => q
  | k + 1, q =>
    match spFind q.recs q.progress with
    | some .done => passRecords k
      { q with
        recs := spDel q.recs q.progress, progress := (q.progress + 1) % 2 ^ 32, ends := spDel q.ends q.progress
        passed := addIds q.passed ((spFind q.ends q.progress).getD []) }
    | _ => q

/-- A record of a queue completes; `ids` are the stores that its completion orders. -/
def recordDone (s : State) (part q index : Nat) (ids : List Nat := []) : State :=
  modSq s part q fun k => passRecords (k.recs.length + 1)
    { k with recs := spPut k.recs index .done, ends := if ids = [] then k.ends else spPut k.ends index ids }

/-- Records a refusal in the queue's status, and completes the record (R203). -/
def recordRefused (s : State) (part q index reason : Nat) : State :=
  recordDone (modSq s part q fun k => { k with refused := true, reason := reason }) part q index

def setRecord (s : State) (part q index : Nat) (r : RecPhase) : State :=
  modSq s part q fun k => { k with recs := spPut k.recs index r }

/-! ## Reads and writes of the engines -/

/-- The bytes of a translated access as an agent reads them, each with the poison of its word. -/
def readMarks (s : State) (ag : Agent) (l : LaneLoc) : (List Byte × List Bool) × State :=
  let q := (unitsOf l.loc l.size).foldl (fun a u =>
    let r := (if l.kind = 3 then ctlReadUnit else readUnit) a.2 [ag] l.cmp u.1 u.2
    ((a.1.1 ++ r.1.bytes, a.1.2 ++ List.replicate u.2 r.1.bad), r.2)) (([], []), s)
  (q.1, if l.kind = 3 then q.2 else askCaches q.2 ag l.cmp l.loc l.size)

def readAllMarks (s : State) (ag : Agent) : List LaneLoc → (List Byte × List Bool) × State
  | [] => (([], []), s)
  | l :: r =>
    let a := readMarks s ag l
    let b := readAllMarks a.2 ag r
    ((a.1.1 ++ b.1.1, a.1.2 ++ b.1.2), b.2)

/-- Writes bytes with their poison for an engine. -/
def engineWrite (s : State) (ag : Agent) (rels : List RelInfo) : List LaneLoc → List Byte → List Bool → State
  | [], _, _ => s
  | l :: r, bs, bad =>
    let s1 := (storeCuts ag l.loc l.size).foldl (fun s u =>
      let o := u.1 - l.loc
      storeBytes s ag l.cmp l.kind (l.va + o) u.1 ((bs.drop o).take u.2) (((bad.drop o).take u.2).any fun b => b) rels) s
    engineWrite s1 ag rels r (bs.drop l.size) (bad.drop l.size)

/-- What an agent that is gone knew goes with it. -/
def forget (s : State) (ag : Agent) : State := { s with know := spDel s.know ag.key }

end Sys2Proof.Machine
end

