-- ==== Sys2Proof/Machine/Jobs.lean ====
section
/-!
DEFINITION. Job cards, JOB and JSTAT, and the events of a job's life (06 R132 to R141; 14 R344 to R348; 15 R378;
18 R428).
-/
namespace Sys2Proof.Machine

/-! ## Cards (R345 to R347) -/

/-- The 512 bits of a card's header. -/
def cardOf (x : Nat) : Card where
  kind := bitsOf x 0 8
  scope := bitsOf x 8 3
  fpcount := bitsOf x 11 4
  bar := bitsOf x 16 4
  bvalid := bitOf x 20
  spsrc := bitOf x 21
  spdst := bitOf x 22
  jobid := bitsOf x 32 16
  src := bitsOf x 64 64
  dst := bitsOf x 128 64
  spitch := bitsOf x 192 32
  dpitch := bitsOf x 224 32
  rowBytes := bitsOf x 256 32
  rows := bitsOf x 288 32
  p0 := bitsOf x 320 64
  p1 := bitsOf x 384 64
  cword := bitsOf x 448 64
  reserved := bitsOf x 15 1 + bitsOf x 23 9 + bitsOf x 48 16

/-- Declared output bytes (R346). -/
def Card.declared (c : Card) : Nat := if c.kind = 4 then c.p1 % 2 ^ 32 else c.rows * c.rowBytes

def Card.redFmt (c : Card) : Nat := bitsOf c.p0 16 6
def Card.redOp (c : Card) : Nat := bitsOf c.p0 24 2

/-- The checks of R347; `bars` is BARS of the issuing team, none for a host card. -/
def Card.ok (c : Card) (bars : Option Nat) : Bool :=
  decide (1 ≤ c.kind) && decide (c.kind ≤ 6) && decide (3 ≤ c.scope) && decide (c.scope ≤ 6)
    && (c.kind != 6 || decide (5 ≤ c.scope)) && decide (c.fpcount ≤ 8) && c.reserved == 0 && c.cword % 8 == 0
    && (!c.bvalid || (match bars with
        | some n => decide (c.bar < n) && decide (c.declared < 2 ^ 31)
        | none => false))
    && (!(c.spsrc || c.spdst) || (bars.isSome && c.kind != 4 && c.kind != 6))
    && (c.kind != 6 || ([1, 3, 4, 15].contains c.redFmt && c.redOp != 3))

/-! ## JOB (R344) -/

/-- Reads a record of n bytes as accesses of the issuing thread: translation, poison (04 R98); watchpoints never match
them (18 R431). Behind an atomic of the thread on the same bytes the instruction waits (05 R110). -/
def withObject (s : State) (c : Iss) (lane va n : Nat) (body : List Byte → State → State) : State :=
  match prepXlate s c .read none ((rangeAccs va n).map fun a => { a with lane := lane }) with
  | .stop t => t
  | .go ls =>
    let b := readSet s [.thread c.gid lane] ls
    if ls.any (atomAhead s [.thread c.gid lane]) then s
    else if b.1.bad then trapPoison b.2 c lane else body b.1.bytes b.2

/-- Job cards of a partition that have entered and not completed (09 R201). -/
def cardCount (s : State) (part : Nat) : Nat := (s.jobs.filter fun e => e.2.part == part && !e.2.finished).length

/-- The number of a collective reduce on its ring, and the ring's next one (18 R428). -/
def reduceSeq (s : State) (part : Nat) (card : Card) : Nat × State :=
  let n := card.p0 % 2 ^ 16
  if card.kind = 6 then
    let k := spGet 0 (getPart s part).reduces n
    (k, { modPart s part fun p => { p with reduces := spSet 0 p.reduces n (k + 1) } with
      shares := s.shares ++ [{ part := part, ring := n, seq := k, rows := card.rows, rowBytes := card.rowBytes }] })
  else (0, s)

/-- The virtual addresses of a store's bytes, by their place in its word. -/
def Msg.addrs (m : Msg) : List (Nat × Nat) :=
  let p0 := (m.bytes.head?.map (·.1)).getD 0
  m.bytes.map fun e => (e.1, m.va + e.1 - p0)

/-- Whether a store to the word w of memory writes a byte that the addresses of a region that the job reads name. -/
def Msg.inRegion (s : State) (c : Iss) (w : Nat) (m : Msg) (r : Region) : Bool :=
  r.rd && !r.spad && m.addrs.any fun e => r.covers e.2 &&
    match translate s (.job (clusterOf c.core)) c.part c.ctx .read (ctxSup s c.part c.ctx) e.2 with
    | .ok loc _ _ => loc == 8 * w + e.1
    | _ => false

/-- Those of some stores that fall within a job's read footprint by the addresses that they were made at (R134), in memory and
in the team's scratchpad. -/
def footprintMsgs (s : State) (c : Iss) (rs : List Region) (ids : List Nat) : List Msg :=
  let mem := s.hist.flatMap (fun e => e.2.msgs.map fun m => (e.1, m)) ++
    (getCore s c.core).pend.flatMap fun e => e.2.map fun m => (e.1, m)
  ((mem.filter fun e => ids.contains e.2.id && rs.any (Msg.inRegion s c e.1 e.2)).map (·.2)) ++
    (c.t.shist.flatMap fun e => e.2.msgs).filter fun m =>
      ids.contains m.id && rs.any fun r => r.rd && r.spad && m.addrs.any fun e => r.covers e.2

/-- A core writes its dirty lines that hold some of its stores to the L2. -/
def writeBackStores (s : State) (core : Nat) (ids : List Nat) : State :=
  let lines := ((getCore s core).pend.filter fun e => e.2.any fun m => ids.contains m.id).map fun e => e.1 / 16
  coreWriteBack s core lines.contains

/-- JOB issue is a release edge at the engine scope of those of the issuing threads' stores that the job reads: the core
writes their dirty bytes to the L2, and the job comes after them (R134). -/
def releaseToJob (s : State) (c : Iss) (id : Nat) (ms : List Nat) : State :=
  learn (writeBackStores s c.core ms) (.job id) ms

/-- Before accesses of a job to bytes that its read footprint names: of the stores that its issue releases, those to these bytes
happen before them, by whatever address they were made (R134; 05 R104). -/
def jobSees (s : State) (id : Nat) (ls : List LaneLoc) : State :=
  match spFind s.jobs id with
  | none => s
  | some j =>
    let core := (j.team.bind fun t => spFind s.teams t).bind (·.core)
    let units := ls.flatMap fun l => unitsOf l.loc l.size
    let at_ (u : Nat × Nat) : List Msg :=
      ((((spFind s.hist (u.1 / 8)).map (·.msgs)).getD []) ++ (match core with
          | some c => spGet [] (getCore s c).pend (u.1 / 8)
          | none => [])).filter fun m => Nat.land m.mask ((2 ^ u.2 - 1) * 2 ^ (u.1 % 8)) != 0
    let ms := ((units.flatMap at_).map (·.id)).filter j.issued.contains
    if ms = [] then s
    else learn (match core with
      | some c => writeBackStores s c ms
      | none => s) (.job id) ms

/-- The accesses whose bytes the read footprint of a job names. -/
def Card.readBytes (c : Card) (ls : List LaneLoc) : List LaneLoc :=
  ls.filter fun l => c.regions.any fun r => r.rd && !r.spad && (List.range l.size).any fun i => r.covers (l.va + i)

/-- The job enters the team stream and counts on its flag (R129, R134, R135). -/
def enterJob (s : State) (c : Iss) (act : Mask) (card : Card) : State :=
  let ids := releasedBy s (threadsOf c.gid act)
  let ms := (footprintMsgs s c card.regions ids).map (·.id)
  let op := s.order
  let s1 := startOp s { gid := c.gid, flag := setFlag c.p true, left := 1 }
  let id := s1.order
  let q := reduceSeq s1 c.part card
  let j : Job :=
    { part := c.part, cluster := clusterOf c.core, ctx := c.ctx, card := card, stream := .team c.g.team, order := id
      team := some c.g.team, ticket := c.t.ticket, op := some op, redSeq := q.1
      issued := ids }
  let s2 := { q.2 with jobs := spPut q.2.jobs id j, order := id + 1 }
  modTeam (releaseToJob s2 c id ms) c.g.team fun t =>
    { t with ticket := (t.ticket + 1) % 2 ^ 32, tickets := spPut t.tickets t.ticket id }

def jobLegal (c : Iss) (f : Fields) : Bool :=
  f.mod == 0 && f.x == 0 && allZero [f.b, f.c] && srcLegal c true (opnd f.a) && (opnd f.a).isScalarReg
    && dstLegal c false (opnd f.d) && !(opnd f.d).isVec

/-- JOB once its card has been read. -/
def issueJob (s : State) (c : Iss) (act : Mask) (f : Fields) (bs : List Byte) : State :=
  let card := cardOf (leNat (bs.take 64))
  if !card.ok (some c.t.bars) then illegalOperand s c
  else if 16384 ≤ cardCount s c.part then waitOn s c .tguFull
  else
    let rs := regionsOf true card.fpcount (bs.drop 64)
    let s1 := enterJob s c act { card with regions := rs }
    retire (modGroup s1 c.gid fun g => writeScal g false (opnd f.d) c.t.ticket) c

/-- JOB (R344): the header, then the regions it counts. -/
def execJob (f : Fields) (s : State) : Out :=
  onPath s fun c => runCounted s c f true (jobLegal c f) fun act =>
    let lane := lowLane act
    let va := srcVal s c .q64 (opnd f.a) lane
    if srcBad c true (opnd f.a) lane then trapPoison s c lane
    else if va % 64 ≠ 0 then takeTrap s c causeMisaligned lane va
    else withObject s c lane va 64 fun hd s1 =>
      let n := (cardOf (leNat hd)).fpcount
      if 8 < n then illegalOperand s1 c
      else if n = 0 then issueJob s1 c act f hd
      else withObject s c lane va (64 + 32 * n) fun bs s2 => issueJob s2 c act f bs

/-! ## JSTAT (R348) -/

/-- The status word and the bytes of a ticket; jobs that completed before 256 later ones are unknown. -/
def jobStatus (s : State) (t : Team) (ticket : Nat) : Nat × Nat :=
  match (spFind t.tickets ticket).bind (spFind s.jobs) with
  | none => (2 ^ 9, 0)
  | some j =>
    if j.finished && decide (256 ≤ t.jobsDone - j.doneAt) then (2 ^ 9, 0)
    else
      ((if j.finished then j.status else 0) + (if j.poison then 2 ^ 7 else 0) + (if j.batch.isSome then 2 ^ 8 else 0),
        min j.bytes (2 ^ 32 - 1))

def execJstat (f : Fields) (s : State) : Out :=
  onPath s fun c => runMasked s c f
      (f.mod == 0 && f.x == 0 && allZero [f.b, f.c] && (opnd f.a).isScalarReg && (opnd f.d).isScalarReg
        && dstLegal c true (opnd f.d)) fun _ =>
    if srcBad c false (opnd f.a) 0 then trapPoison s c 0
    else
      let r := jobStatus s c.t (srcVal s c .w32 (opnd f.a) 0)
      retire (modGroup s c.gid fun g => writeScal g true (opnd f.d) (r.1 + 2 ^ 32 * r.2)) c

/-! ## Extents and the footprint check (R133) -/

def rowSrc (c : Card) (idx : List Nat) (i : Nat) : Nat :=
  (c.src + (if c.kind = 2 then idx.getD i 0 else i) * c.spitch) % 2 ^ 64
def rowDst (c : Card) (idx : List Nat) (i : Nat) : Nat :=
  (c.dst + (if c.kind = 3 then idx.getD i 0 else i) * c.dpitch) % 2 ^ 64

/-- Whether every byte of [a, a + n) lies in a region with RD or WR; a scratchpad byte must lie below SIZE as well. -/
def extentOk (c : Card) (size : Nat) (wr spad : Bool) (a n : Nat) : Bool :=
  (List.range n).all fun k =>
    let b := (a + k) % 2 ^ 64
    (!spad || decide (b < size)) && c.regions.any fun r => (if wr then r.wr else r.rd) && r.spad == spad && r.covers b

/-- Whether the job's rows, stream and completion word lie in its footprint. -/
def footprintOk (c : Card) (size : Nat) (idx : List Nat) : Bool :=
  (c.cword == 0 || extentOk c size true false c.cword 8)
    && if c.kind = 4 then
      extentOk c size false false c.src (c.p0 % 2 ^ 32) && extentOk c size true false c.dst (c.p1 % 2 ^ 32)
    else (List.range c.rows).all fun i =>
      (c.kind == 5 || extentOk c size false c.spsrc (rowSrc c idx i) c.rowBytes)
        && extentOk c size true c.spdst (rowDst c idx i) c.rowBytes

/-! ## Steps of a job -/

/-- What a step of a job comes to: a batch to report, nothing until its peers have come as far, or the state and the job
after it. -/
inductive JobStep where
  | fault (acc : Acc) (gs : List Granule)
  | wait
  | go (s : State) (j : Job)

/-- The job stops with a terminal status (R137). -/
def Job.stop (j : Job) (status : Nat) : Job := { j with phase := .finishing, status := status }

/-- The status of an access that traps. -/
def trapStatus (cause : Nat) : Nat := if cause = causeProtection then 6 else 7

def jobXlate (s : State) (j : Job) (acc : Acc) (va n : Nat) : XlSet :=
  xlateSet s (.job j.cluster) j.part j.ctx acc (ctxSup s j.part j.ctx) (rangeAccs va n)

def Job.spadSize (s : State) (j : Job) : Nat := ((j.team.bind (getTeam s)).map (·.size)).getD 0

/-- Whether the ring of a collective reduce can be used (R428). -/
def ringOk (s : State) (j : Job) : Bool :=
  let n := j.card.p0 % 2 ^ 16
  let v := (spGet 0 (getPart s j.part).ring n).toNat
  decide (n < 16) && bitOf v 63 && decide (bitsOf v 0 16 < bitsOf v 16 16)
    && routeOk s j.part (bitsOf v 32 4) && routeOk s j.part (bitsOf v 36 4)

/-- The ring entry of a partition. -/
def ringWord (s : State) (part n : Nat) : Nat := (spGet 0 (getPart s part).ring n).toNat

def ringRank (s : State) (part n : Nat) : Nat := bitsOf (ringWord s part n) 0 16
def collectiveSize (s : State) (part n : Nat) : Nat := bitsOf (ringWord s part n) 16 16

/-- The partition of this device that NEXT (`lo` 32) or PREV (36) of a ring entry names. -/
def ringHop (s : State) (part n lo : Nat) : Option Nat :=
  let r := bitsOf (ringWord s part n) lo 4
  let q := bitsOf (routeOf s part r) 28 3
  if routeOk s part r ∧ routeDevice s part r = Config.deviceNumber ∧ q < partCount s then some q else none

/-- The ranks that NEXT or PREV give from a partition on, each with its partition of this device, as far as the routes stay on
it; the rank at which they leave it stands with none. On fuel. -/
def ringWalk (s : State) (n lo step size : Nat) : Nat → Nat → Nat → List (Nat × Option Nat)
  | 0, _, _ => []
  | k + 1, part, rank =>
    let r := (rank + step) % size
    match ringHop s part n lo with
    | none => [(r, none)]
    | some q =>
      if bitOf (ringWord s q n) 63 && collectiveSize s q n == size && ringRank s q n == r then
        (r, some q) :: ringWalk s n lo step size k q r
      else [(r, none)]

/-- The partitions of this device in the ring of a partition, with their ranks (R428): itself and those that NEXT and PREV
reach; and for ranks that lie behind another device, those of its fabric domain whose entry of the same number is valid, of the
same size, and gives them such a rank (log 117). -/
def ringHere (s : State) (part n : Nat) : List (Nat × Nat) :=
  let size := collectiveSize s part n
  let known := (ringRank s part n, some part) :: ringWalk s n 32 1 size 8 part (ringRank s part n) ++
    ringWalk s n 36 (size - 1) size 8 part (ringRank s part n)
  let far := ((fabricDomain s part).filter fun p =>
    bitOf (ringWord s p n) 63 && collectiveSize s p n == size && known.all fun e => e.1 != ringRank s p n).map
      fun p => (ringRank s p n, p)
  (known.filterMap fun e => e.2.map fun p => (e.1, p)).eraseDups ++ far

/-- What names a collective across its partitions here. -/
def ringKey (s : State) (part n seq : Nat) : List Nat :=
  [((ringHere s part n).map (·.2)).foldl min part, n, seq]

def findShare (s : State) (part n seq : Nat) : Option Share :=
  s.shares.find? fun x => x.part == part && x.ring == n && x.seq == seq

def modShare (s : State) (part n seq : Nat) (f : Share → Share) : State :=
  { s with shares := s.shares.map fun x => if x.part == part && x.ring == n && x.seq == seq then f x else x }

/-- Whether a job on a ring, or one before it, was not matched in shape by every rank that has issued it, or had a rank end
without its rows (R428). -/
def ringBroken (s : State) (j : Job) : Bool :=
  let n := j.card.p0 % 2 ^ 16
  let here := (ringHere s j.part n).map (·.2)
  (List.range (j.redSeq + 1)).any fun k =>
    let xs := here.filterMap fun p => findShare s p n k
    xs.any (fun x => x.dead) || xs.any fun x => xs.any fun y => x.rows != y.rows || x.rowBytes != y.rowBytes

/-- Whether every rank here has issued its job of a collective reduce. -/
def ringIssued (s : State) (j : Job) : Bool :=
  let n := j.card.p0 % 2 ^ 16
  (ringHere s j.part n).all fun e => (findShare s e.2 n j.redSeq).isSome

/-- The end of the checks of a collective reduce: its ring, and whether the ranks on other devices issued jobs of equal
shape, which only they know (R428). -/
def startReduce (s : State) (j : Job) : Job :=
  let n := j.card.p0 % 2 ^ 16
  let size := collectiveSize s j.part n
  if !ringOk s j then j.stop 7
  else if (ringHere s j.part n).length < size ∧ !Config.peersAgree (ringKey s j.part n j.redSeq) then j.stop 8
  else { j with phase := .running }

/-- The check of the extents once the index list is known (R133). -/
def checkExtents (s : State) (j : Job) : JobStep :=
  let j1 := { j with checked := true }
  if !footprintOk j.card (j.spadSize s) (j.index.getD []) then .go s (j1.stop 4)
  else if j.card.kind = 6 then .go s (startReduce s j1)
  else .go s { j1 with phase := .running }

/-- The start of a job: for gather and scatter the index list is checked and read, then the extents are checked. R98 and R136
speak of the data that a job writes; of a poisoned word of the index list they do not say whether it poisons the rows: the
model sets POISON in the status and writes the rows unpoisoned (log 97). -/
def jobStart (s : State) (id : Nat) (j : Job) : JobStep :=
  let n := 4 * j.card.rows
  if (j.card.kind = 2 ∨ j.card.kind = 3) ∧ j.index.isNone then
    if !extentOk j.card 0 false false j.card.p0 n then .go s ({ j with checked := true }.stop 4)
    else match jobXlate s j .read j.card.p0 n with
      | .trap cause _ _ => .go s ({ j with checked := true }.stop (trapStatus cause))
      | .fault gs => .fault .read gs
      | .ok ls =>
        let q := readSet (jobSees s id ls) [.job id] ls
        checkExtents q.2 { j with index := some (wordsOf q.1.bytes), poison := j.poison || q.1.bad }
  else checkExtents s j

/-! ### Commit units (R132) -/

def Job.unitCount (j : Job) : Nat :=
  if j.card.kind = 4 ∨ j.card.kind = 6 then (j.card.declared + 4095) / 4096
  else if j.card.rowBytes = 0 then 0 else j.card.rows

/-- Output bytes of a unit. -/
def Job.unitBytes (j : Job) (u : Nat) : Nat :=
  if j.card.kind = 4 ∨ j.card.kind = 6 then min 4096 (j.card.declared - 4096 * u) else j.card.rowBytes

/-- Pieces of the rows that hold [o, o + n) of the rows' concatenation, on fuel. -/
def rowPieces (base pitch rowBytes : Nat) : Nat → Nat → Nat → List (Nat × Nat)
  | 0, _, _ => []
  | k + 1, o, n =>
    if n = 0 ∨ rowBytes = 0 then []
    else
      let m := min n (rowBytes - o % rowBytes)
      ((base + o / rowBytes * pitch + o % rowBytes) % 2 ^ 64, m) :: rowPieces base pitch rowBytes k (o + m) (n - m)

/-- Where a unit's bytes go. -/
def Job.unitDst (j : Job) (u : Nat) : List (Nat × Nat) :=
  let c := j.card
  if c.kind = 4 then [((c.dst + 4096 * u) % 2 ^ 64, j.unitBytes u)]
  else if c.kind = 6 then rowPieces c.dst c.dpitch c.rowBytes 4097 (4096 * u) (j.unitBytes u)
  else [(rowDst c (j.index.getD []) u, c.rowBytes)]

/-- The data of a unit: its bytes with their poison, the job's new offset, the bytes that count as produced, the status a
stream that ends here gives, and the state after the reads. -/
inductive UnitData where
  | fault (gs : List Granule)
  | stop (status : Nat)
  | data (bytes : List Byte) (bad : List Bool) (offset produced : Nat) (status : Nat) (s : State)

/-- Reads pieces of memory in order. -/
def readPieces (s : State) (id : Nat) (j : Job) (ps : List (Nat × Nat)) : UnitData :=
  match xlateSet s (.job j.cluster) j.part j.ctx .read (ctxSup s j.part j.ctx) (ps.flatMap fun p => rangeAccs p.1 p.2) with
  | .trap cause _ _ => .stop (trapStatus cause)
  | .fault gs => .fault gs
  | .ok ls =>
    let q := readAllMarks (jobSees s id ls) (.job id) ls
    .data q.1.1 q.1.2 0 q.1.1.length 0 q.2

/-- Reads scratchpad of the job's team. -/
def readSpad (s : State) (id : Nat) (j : Job) (a n : Nat) : UnitData :=
  match j.team with
  | some tid => match getTeam s tid with
    | some t =>
      let q := spadSeen s [.job id] tid a n t
      .data (spadBytes q.1 a n) (spadBads q.1 a n) 0 n 0 q.2
    | none => .stop 4
  | none => .stop 4

def fillBytes (c : Card) : List Byte :=
  let p := leBytes 8 c.p0 ++ leBytes 8 c.p1
  (List.range c.rowBytes).map fun i => p.getD (i % 16) 0

/-! ### Decompression (15 R378) -/

/-- Leading bytes that tell a frame's length. -/
def frameHeadLen (fmt : Nat) : Nat :=
  match fmt with
  | 0 => 4
  | 1 => 16
  | 2 => 1
  | _ => 256

/-- What decoding one chunk comes to. -/
structure Chunk where
  bytes : List Byte
  bad   : List Bool
  off   : Nat
  /-- 0 the chunk is full, 1 the stream has ended, 2 a frame went past the declared length, 3 a bad frame -/
  stop  : Nat

/-- Decodes frames from the stream offset `off` until `want` bytes are there, on fuel; `lost` says that an earlier
poisoned word has made the frames' places unknown. Reads take only the bytes of the frames: the head of a frame is read on
the way to the whole of it, by the same choices. -/
def chunkFrames (id : Nat) (j : Job) (fmt total : Nat) : State → Nat → Nat → Nat → Bool → XlSet ⊕ (Chunk × State)
  | s, 0, off, _, _ => .inr (⟨[], [], off, 0⟩, s)
  | s, k + 1, off, want, lost =>
    if want = 0 then .inr (⟨[], [], off, 0⟩, s)
    else if total ≤ off then .inr (⟨[], [], off, 1⟩, s)
    else
      let h := min (frameHeadLen fmt) (total - off)
      match jobXlate s j .read (j.card.src + off) h with
      | .ok ls =>
        let hd := readAllMarks (jobSees s id ls) (.job id) ls
        match (if badHeader fmt hd.1.1 then none else streamFrame fmt hd.1.1) with
        | none => .inr (⟨[], [], off, 3⟩, hd.2)
        | some n =>
          if total < off + n then .inr (⟨[], [], off, 3⟩, hd.2)
          else match jobXlate s j .read (j.card.src + off) n with
            | .ok fs =>
              let q := readAllMarks (jobSees s id fs) (.job id) fs
              let out := expandFrame fmt q.1.1
              let hit := lost || (fmt != 3 && q.1.2.any fun b => b)
              let bad := if fmt = 3 then q.1.2 else out.map fun _ => hit
              if want < out.length then .inr (⟨out.take want, bad.take want, off + n, 2⟩, q.2)
              else match chunkFrames id j fmt total q.2 k (off + n) (want - out.length) hit with
                | .inl x => .inl x
                | .inr c => .inr (⟨out ++ c.1.bytes, bad ++ c.1.bad, c.1.off, c.1.stop⟩, c.2)
            | x => .inl x
      | x => .inl x

/-- The data of a chunk of a decompress job. -/
def decompressUnit (s : State) (id : Nat) (j : Job) : UnitData :=
  let fmt := bitsOf j.card.p0 32 8
  let total := j.card.p0 % 2 ^ 32
  let want := j.unitBytes j.unit
  let lost := j.poison && fmt != 3
  if 4 ≤ fmt then .stop 8
  else match chunkFrames id j fmt total s 64 j.offset want lost with
    | .inl (.trap cause _ _) => .stop (trapStatus cause)
    | .inl (.fault gs) => .fault gs
    | .inl (.ok _) => .stop 8
    | .inr (c, t) =>
      if c.stop = 3 then .stop 8
      else
        let n := c.bytes.length
        let last := j.unit + 1 == j.unitCount
        let status := if c.stop = 1 then 2 else if last && (c.stop == 2 || decide (c.off < total)) then 3 else 0
        .data (c.bytes ++ List.replicate (want - n) 0) (c.bad ++ List.replicate (want - n) lost) c.off n status t

/-! ### Collective reduce (06 R141) -/

/-- One step of the combination: exact, then rounded RNE to the element format; MIN and MAX select. -/
def reduceStep (fmt op a b : Nat) : Nat :=
  if fmt = 15 then
    let x := sext 32 a
    let y := sext 32 b
    match op with
    | 0 => wrapBits 32 (max (-(2 ^ 31 : Int)) (min (2 ^ 31 - 1) (x + y)))
    | 1 => if y < x then b else a
    | _ => if x < y then b else a
  else
    match op with
    | 0 => roundFmt fmt ((decodeFmt fmt a).add (decodeFmt fmt b)) .rne
    | 1 => minMaxBits fmt false a b
    | _ => minMaxBits fmt true a b

def redSize (fmt : Nat) : Nat := if fmt = 3 ∨ fmt = 4 then 2 else 4

/-- Combines the elements of the ranks in ascending order (R141). -/
def reduceElems (fmt op : Nat) : List Nat → Nat
  | [] => 0
  | x :: r => r.foldl (reduceStep fmt op) x

/-- One rank's bytes of a chunk, with their poison: what a partition of this device has contributed, or what a rank on another
device does; none while a partition here has yet to. -/
def rankChunk (s : State) (j : Job) (u rank : Nat) : Option (List Byte × List Bool) :=
  let n := j.card.p0 % 2 ^ 16
  match (ringHere s j.part n).find? fun e => e.1 == rank with
  | some e => (findShare s e.2 n j.redSeq).bind fun x => spFind x.chunks u
  | none =>
    let es := redSize j.card.redFmt
    let len := j.unitBytes u
    let elem (i : Nat) : List Byte := leBytes es (Config.peerElement (ringKey s j.part n j.redSeq ++ [rank, 4096 * u + es * i])).toNat
    some (((List.range ((len + es - 1) / es)).flatMap elem).take len, List.replicate len false)

/-- A chunk over all ranks: element by element, and poisoned where any rank's is. -/
def reduceChunk (fmt op : Nat) (cs : List (List Byte × List Bool)) : List Byte × List Bool :=
  let es := redSize fmt
  let len := ((cs.head?).map fun c => c.1.length).getD 0
  (((List.range ((len + es - 1) / es)).flatMap fun i =>
      leBytes es (reduceElems fmt op (cs.map fun c => leNat ((c.1.drop (es * i)).take es)))).take len,
   (List.range len).map fun i => cs.any fun c => c.2.getD i false)

def unitData (s : State) (id : Nat) (j : Job) : UnitData :=
  let c := j.card
  if c.kind = 4 then decompressUnit s id j
  else if c.kind = 5 then .data (fillBytes c) (List.replicate c.rowBytes false) 0 c.rowBytes 0 s
  else if c.kind = 6 then readPieces s id j (rowPieces c.src c.spitch c.rowBytes 4097 (4096 * j.unit) (j.unitBytes j.unit))
  else
    let a := rowSrc c (j.index.getD []) j.unit
    if c.spsrc then readSpad s id j a c.rowBytes else readPieces s id j [(a, c.rowBytes)]

/-! ### Writing a unit -/

/-- Whether a granule of scratchpad has all the bytes that the job writes in it, once unit u is written (04 R80). -/
def granuleDone (j : Job) (u gr : Nat) : Bool :=
  (List.range (j.unitCount - (u + 1))).all fun k =>
    let a := rowDst j.card (j.index.getD []) (u + 1 + k)
    !(decide (a < 16 * gr + 16) && decide (16 * gr < a + j.card.rowBytes))

/-- The stores of an agent to a granule of scratchpad. -/
def granuleIds (t : Team) (ag : Agent) (gr : Nat) : List Nat :=
  [2 * gr, 2 * gr + 1].flatMap fun w =>
    ((((spFind t.shist w).map (·.msgs)).getD []).filter fun m => m.who == ag.key).map (·.id)

/-- A row written to scratchpad: bytes with their poison, then the granules that are complete become full, and an LDS.fe of
one returns the job's bytes of it (R142; 04 R80). -/
def spadRow (s : State) (tid id : Nat) (j : Job) (a : Nat) (bs : List Byte) (bad : List Bool) : State :=
  let s1 := (storeCuts (.job id) a bs.length).foldl (fun s u =>
    spadPut s (.job id) tid u.1 ((bs.drop (u.1 - a)).take u.2) (((bad.drop (u.1 - a)).take u.2).any fun b => b)) s
  modTeam s1 tid fun t => ((granules a bs.length).filter (granuleDone j j.unit)).foldl
    (fun t gr => fillGranules t [] (granuleIds t (.job id) gr) [gr]) t

/-- A signed 32-bit counter. R138 gives it no other bound, and a trap to BARX only: a decrement below −2^31 wraps (log 118). -/
def signed32 (x : Int) : Int := sext 32 (wrapBits 32 x)

/-- Subtracts bytes from the job's barrier slot (R138), with the job's release edge (R135); a saved team's frame takes the new
count too (10 R224). -/
def subPending (s : State) (id : Nat) (j : Job) (n : Nat) : State :=
  match j.team, j.card.bvalid with
  | some tid, true =>
    let s1 := modBar s tid j.card.bar fun b =>
      { b with pending := signed32 (b.pending - n), rels := addRel (releaseOf s (.job id) j.card.scope) b.rels }
    match getTeam s1 tid with
    | none => s1
    | some t => match t.frame with
      | some a => physWrite s1 (a + 0x100 + 16 * j.card.bar + 8) 4 (wrapBits 32 (getBar t j.card.bar).pending)
      | none => s1
  | _, _ => s

/-- The job after a unit. -/
def Job.afterUnit (j : Job) (offset produced status : Nat) (bad : Bool) : Job :=
  let n := j.unitBytes j.unit
  let last := decide (j.unitCount ≤ j.unit + 1)
  { j with
    unit := j.unit + 1, offset := offset, bytes := j.bytes + produced, counted := j.counted + n
    poison := j.poison || bad, status := if status = 0 then j.status else status
    phase := if last then .finishing else .running }

/-- Writes a unit's data and counts it. R139 lets bytes of a unit be written before the job suspends, and again after it: the model
writes none of a unit until all of it translates (log 119). -/
def writeUnit (s t : State) (id : Nat) (j : Job) (bs : List Byte) (bad : List Bool) (off n st : Nat) : JobStep :=
  let j1 := j.afterUnit off n st (bad.any fun b => b)
  match j.card.spdst, j.team with
  | true, some tid =>
    .go (subPending (spadRow t tid id j (rowDst j.card (j.index.getD []) j.unit) bs bad) id j (j.unitBytes j.unit)) j1
  | _, _ =>
    match xlateSet s (.job j.cluster) j.part j.ctx .write (ctxSup s j.part j.ctx)
        ((j.unitDst j.unit).flatMap fun p => rangeAccs p.1 p.2) with
    | .trap cause _ _ => .go t (j.stop (trapStatus cause))
    | .fault gs => .fault .write gs
    | .ok ls =>
      .go (subPending (engineWrite (jobSees t id (j.card.readBytes ls)) (.job id) [] ls bs bad) id j (j.unitBytes j.unit)) j1

/-- A unit of a collective reduce: the job's own chunk is read first; once every rank here has read its own, the combined
chunk is written. -/
def reduceUnit (s : State) (id : Nat) (j : Job) : JobStep :=
  let n := j.card.p0 % 2 ^ 16
  if (((findShare s j.part n j.redSeq).map (·.chunks)).bind (spFind · j.unit)).isNone then
    match unitData s id j with
    | .fault gs => .fault .read gs
    | .stop st => .go s (j.stop st)
    | .data bs bad _ _ _ t => .go (modShare t j.part n j.redSeq fun x => { x with chunks := spPut x.chunks j.unit (bs, bad) }) j
  else
    match (List.range (collectiveSize s j.part n)).mapM (rankChunk s j j.unit) with
    | none => .wait
    | some cs =>
      let v := reduceChunk j.card.redFmt j.card.redOp cs
      writeUnit s s id j v.1 v.2 0 v.1.length 0

/-- One commit unit (R138), or the end when none is left. R67 speaks of one step of a job and does not say what one step is:
in the model the reads of a unit are one step and its writes another, each with a batch of its own, the reads' first
(log 98). -/
def jobUnit (s : State) (id : Nat) (j : Job) : JobStep :=
  if j.card.kind = 6 ∧ ringBroken s j then .go s (j.stop 8)
  else if j.card.kind = 6 ∧ j.unitCount ≤ j.unit ∧ !ringIssued s j then .wait
  else if j.unitCount ≤ j.unit then
    .go s (j.stop (if j.card.kind ≠ 4 ∨ j.status ≠ 0 then j.status
      else if 4 ≤ bitsOf j.card.p0 32 8 then 8 else if j.offset < j.card.p0 % 2 ^ 32 then 3 else 0))
  else if j.card.kind = 6 then reduceUnit s id j
  else match unitData s id j with
    | .fault gs => .fault .read gs
    | .stop st => .go s (j.stop st)
    | .data bs bad off n st t => writeUnit s t id j bs bad off n st

/-! ### Completion (R135, R136) -/

def cardWord (j : Job) (status : Nat) : Nat :=
  status + (if j.poison then 2 ^ 7 else 0) + j.card.jobid * 2 ^ 16 + min j.bytes (2 ^ 32 - 1) * 2 ^ 32

/-- Whether the job writes its completion word. -/
def wordWanted (j : Job) (status : Nat) : Bool :=
  j.card.cword != 0 && !j.wordFail && (status != 4 || extentOk j.card 0 true false j.card.cword 8)

/-- Outstanding jobs of a team. -/
def teamJobs (s : State) (tid : Nat) : List Job :=
  (s.jobs.filter fun e => e.2.team == some tid && !e.2.finished).map (·.2)

/-- Whether a team's scratchpad is still in use: it runs, or a job of it names it (14 R346). -/
def holdsSpad (s : State) (tid : Nat) (t : Team) : Bool :=
  t.phase != .ended || (teamJobs s tid).any fun j => j.card.spsrc || j.card.spdst

/-- The units of a team that no longer uses its scratchpad return to the L1 (04 R78). -/
def returnUnits (s : State) (tid : Nat) : State :=
  match getTeam s tid with
  | some t => if holdsSpad s tid t then s else modTeam s tid fun t => { t with units := [] }
  | none => s

/-- A team that has ended goes once its last job has (R346); what they have released its node's completion orders (R131). -/
def reapTeam (s : State) (tid : Nat) : State :=
  match getTeam s tid with
  | some t =>
    if t.phase = .ended ∧ (teamJobs s tid).isEmpty then
      { modNode s t.node (fun n => { n with left := addIds n.left t.left }) with
        teams := spDel s.teams tid
        groups := s.groups.filter fun e => e.2.team != tid
        jobs := s.jobs.filter fun e => e.2.team != some tid
        ends := s.ends.filter fun e => e.stream != .team tid }
    else s
  | none => s

/-- The completion flag of the JOB counts down; a later WAIT on it takes the job's acquire (R135). -/
def jobFlag (s : State) (id : Nat) (j : Job) : State :=
  match j.op with
  | none => s
  | some op => match spFind s.ops op with
    | none => s
    | some o =>
      let s1 := completeOp s op
      let rel := releaseOf s (.job id) j.card.scope
      match o.flag with
      | some k => modGroup s1 o.gid fun g => { g with jobEdge := spPut g.jobEdge k (addRel rel ((spFind g.jobEdge k).getD [])) }
      | none => s1

/-- The end of a team's job: its node's completion orders its writes (R131), and 256 later ones make its ticket unknown. -/
def endTeamJob (s : State) (tid id : Nat) (j : Job) (status : Nat) (ids : List Nat) : State :=
  let n := ((getTeam s tid).map (·.jobsDone)).getD 0 + 1
  let s2 := modTeam { s with jobs := spPut s.jobs id { j with phase := .done, status := status, doneAt := n } } tid
    fun t => { t with jobsDone := n, left := addIds t.left ids }
  let s3 := { s2 with jobs := s2.jobs.filter fun e =>
    !(e.2.team == some tid && e.2.finished && decide (256 ≤ n - e.2.doneAt)) }
  let s4 := if (teamJobs s3 tid).isEmpty then
      modPart s3 j.part fun p => { p with redirect := p.redirect.filter fun t => t != tid }
    else s3
  reapTeam (returnUnits s4 tid) tid

/-- The job is done: what is left of its declared bytes is subtracted, its flag counts down, its stream goes on, and its
record of the queue completes. A rank that ends a collective before its last chunk leaves its peers without it. -/
def completeJob (s : State) (id : Nat) (j : Job) (status : Nat) : State :=
  let ids := (getKnow s (.job id)).released
  let s1 := jobFlag (subPending s id j (j.card.declared - j.counted)) id j
  let s2 := endMember s1 j.stream j.order j.card.regions ids
  let s3 := if j.card.kind = 6 ∧ status ≠ 1 then
      modShare s2 j.part (j.card.p0 % 2 ^ 16) j.redSeq fun x => { x with dead := decide (x.chunks.length < j.unitCount) }
    else s2
  let s4 := forget s3 (.job id)
  match j.team with
  | some tid => endTeamJob s4 tid id j status ids
  | none =>
    let s5 := { s4 with jobs := spDel s4.jobs id }
    match j.src with
    | some (q, i) => recordDone s5 j.part q i ids
    | none => s5

/-- The end of a job: its completion word, whose store carries the completion's release edge, then its completion. -/
def jobFinish (s : State) (id : Nat) (j : Job) : JobStep ⊕ State :=
  let status := if j.status = 0 then 1 else j.status
  if !wordWanted j status then .inr (completeJob s id j status)
  else match jobXlate s j .write j.card.cword 8 with
    | .trap _ _ _ => .inr (completeJob s id j status)
    | .fault gs => .inl (.fault .write gs)
    | .ok ls =>
      .inr (completeJob (engineWrite s (.job id) [releaseOf s (.job id) j.card.scope] ls (leBytes 8 (cardWord j status)) [])
        id j status)

/-! ## The events -/

def putJob (s : State) (id : Nat) (j : Job) : State := { s with jobs := spPut s.jobs id j }

/-- Whether a context is being switched: it drains, is being saved, or has saved teams that are to be restored (10 R223). -/
def ctxAway (s : State) (part ctx : Nat) : Bool :=
  let st := ctxState s part ctx
  st == 2 || st == 3 || (st == 4 && s.teams.any fun e => e.2.part == part && e.2.ctx == ctx && e.2.phase == .saved)

/-- A context that was switched away runs again, without a team yet: its time slices start anew (09 R211; 10 R232). -/
def ctxWakes (s : State) (part ctx : Nat) : State :=
  if ctxState s part ctx = 4 then
    let cs := s.cores.map fun e =>
      if partOfCore s e.1 = part then (e.1, { e.2 with slice := spDel e.2.slice ctx, reached := spDel e.2.reached ctx }) else e
    setCtxBits (modPart { s with cores := cs } part fun p => { p with expired := p.expired.filter fun x => x != ctx }) part ctx 69 3 0
  else s

/-- Whether a job may start: its edges, and for a host job its context is not being switched (10 R223). -/
def jobMayStart (s : State) (j : Job) : Bool :=
  edgesClear s j.stream j.order j.card.regions && (j.team.isSome || !ctxAway s j.part j.ctx)

/-- JOB_START. -/
def tryJobStart (job : Nat) (s : State) : Event :=
  match spFind s.jobs job with
  | none => .refused .idle
  | some j =>
    if j.phase = .entered ∧ jobMayStart s j then
      let awake := if j.team.isSome then s else ctxWakes s j.part j.ctx
      match jobStart (learn awake (.job job) (streamIds s j.stream j.order j.card.regions)) job j with
      | .go s1 j1 => .next (putJob s1 job j1)
      | _ => .refused .idle
    else .refused .idle

def execJobStart (job : Nat) (s : State) : Out := settle s (tryJobStart job s)

/-- JOB_COMMIT_UNIT. -/
def tryJobCommitUnit (job : Nat) (s : State) : Event :=
  match spFind s.jobs job with
  | none => .refused .idle
  | some j =>
    if j.phase = .running then
      match jobUnit s job j with
      | .go s1 j1 => .next (putJob s1 job j1)
      | _ => .refused .idle
    else .refused .idle

def execJobCommitUnit (job : Nat) (s : State) : Out := settle s (tryJobCommitUnit job s)

/-- The batch that the job's next step would report. -/
def jobFault (s : State) (id : Nat) (j : Job) : Option (Acc × List Granule) :=
  let of (x : JobStep) : Option (Acc × List Granule) := match x with
    | .fault a gs => some (a, gs)
    | _ => none
  match j.phase with
  | .entered => if jobMayStart s j then of (jobStart s id j) else none
  | .running => of (jobUnit s id j)
  | .finishing => match jobFinish s id j with
    | .inl x => of x
    | .inr _ => none
  | _ => none

/-- JOB_FAULT_SUSPEND (R139). -/
def tryJobFaultSuspend (job : Nat) (s : State) : Event :=
  match spFind s.jobs job with
  | none => .refused .idle
  | some j => match jobFault s job j with
    | none => .refused .idle
    | some (acc, gs) =>
      if !canReport s j.part then .refused .idle
      else
        let r := reportBatch s j.part
          { acc := acc, ctx := j.ctx, client := 1, unit := j.cluster, job := j.card.jobid } gs (.job job)
        .next (putJob r.2 job { j with batch := some r.1, phase := .suspended, wordStep := j.phase == .finishing })

def execJobFaultSuspend (job : Nat) (s : State) : Out := settle s (tryJobFaultSuspend job s)

/-- JOB_RESUME (R139): the step that faulted is made again from its start; a batch that failed ends the job, or leaves
out its completion word (R136, R137). -/
def tryJobResume (job : Nat) (s : State) : Event :=
  match spFind s.jobs job with
  | none => .refused .idle
  | some j =>
    if j.phase = .suspended ∧ j.batch = none then
      let j1 := { j with failed := false, wordStep := false }
      if j.wordStep then .next (putJob s job { j1 with phase := .finishing, wordFail := j.failed })
      else if j.failed then .next (putJob s job (j1.stop 5))
      else .next (putJob s job { j1 with phase := if j.checked then .running else .entered })
    else .refused .idle

def execJobResume (job : Nat) (s : State) : Out := settle s (tryJobResume job s)

/-- JOB_COMPLETE. -/
def tryJobComplete (job : Nat) (s : State) : Event :=
  match spFind s.jobs job with
  | none => .refused .idle
  | some j =>
    if j.phase = .finishing then
      match jobFinish s job j with
      | .inr s1 => .next s1
      | .inl _ => .refused .idle
    else .refused .idle

def execJobComplete (job : Nat) (s : State) : Out := settle s (tryJobComplete job s)

end Sys2Proof.Machine
end

