-- ==== Sys2Proof/Machine/Place.lean ====
section
/-!
DEFINITION. Placement of teams on cores, and the allocation of their groups (04 R75 to R79; 09 R202, R205, R206; 01 R12,
R13).
-/
namespace Sys2Proof.Machine

/-! ## What a core has (R206) -/

/-- Vector registers per thread that a group takes (04 R76). -/
def roundRegs (n : Nat) : Nat := (n + 7) / 8 * 8

def coreTeams (s : State) (core : Nat) : List (Nat × Team) := s.teams.filter fun e => e.2.core == some core

def usedBars (s : State) (core : Nat) : Nat :=
  ((coreTeams s core).filter fun e => e.2.phase != .ended).foldl (fun a e => a + e.2.bars) 0
def usedLatches (s : State) (core : Nat) : Nat :=
  ((coreTeams s core).filter fun e => e.2.phase != .ended).foldl (fun a e => a + e.2.latchN) 0
def usedSpad (s : State) (core : Nat) : Nat :=
  ((coreTeams s core).filter fun e => holdsSpad s e.1 e.2).foldl (fun a e => a + spadAlloc e.2) 0

/-- The places taken on a core, with the registers per thread of the group there: (slot, registers). -/
def coreSlots (s : State) (core : Nat) : List (Nat × Nat) :=
  s.groups.filterMap fun e => match e.2.place with
    | some p => if p / 64 = core then some (p % 64, e.2.nregs) else none
    | none => none

def slotsInQuarter (u : List (Nat × Nat)) (q : Nat) : Nat := (u.filter fun e => e.1 / 16 == q).length
def bytesInQuarter (u : List (Nat × Nat)) (q : Nat) : Nat :=
  (u.filter fun e => e.1 / 16 == q).foldl (fun a e => a + 256 * e.2) 0

/-- The quarter for one more group of n registers: the most free slots among those with room, the lowest on ties. -/
def pickQuarter (u : List (Nat × Nat)) (n : Nat) : Option Nat :=
  (List.range 4).foldl (fun b q =>
    if slotsInQuarter u q < 16 ∧ bytesInQuarter u q + 256 * n ≤ 262144 then
      match b with
      | some p => if slotsInQuarter u q < slotsInQuarter u p then some q else b
      | none => some q
    else b) none

/-- The lowest free slot of a quarter. -/
def freeSlotIn (u : List (Nat × Nat)) (q : Nat) : Nat :=
  ((List.range 16).find? fun i => !u.any fun e => e.1 == 16 * q + i).getD 0 + 16 * q

/-- Slots for k groups of n registers, in ascending %group; none when one does not fit. -/
def assignSlots (u : List (Nat × Nat)) (n : Nat) : Nat → Option (List Nat)
  | 0 => some []
  | k + 1 => match pickQuarter u n with
    | none => none
    | some q =>
      let sl := freeSlotIn u q
      (assignSlots ((sl, n) :: u) n k).map (sl :: ·)

/-- What a team needs of a core. -/
structure Need where
  tsize : Nat
  regs  : Nat
  size  : Nat
  bars  : Nat
  latches : Nat
  deriving DecidableEq, Repr

def KDesc.need (d : KDesc) : Need := ⟨d.tsize, roundRegs d.regs, d.scratch, d.bars, d.latches⟩
def Team.need (t : Team) : Need := ⟨t.tsize, t.regs, t.size, t.bars, t.latchN⟩

def spadUnits (size : Nat) : Nat := (size + 65535) / 65536 * 65536

def coreFenced (s : State) (core : Nat) : Bool := (getCore s core).fenced || (getCluster s (clusterOf core)).fenced

/-- Whether an MMA's results wait for its group to stand on a core whose matrix array works: a fence of its core lets none be
written (04 R99). -/
def OpRec.heldByFence (o : OpRec) (s : State) : Bool :=
  o.replay.isSome && match getGroup s o.gid with
    | some g => !g.ended && (g.place.isNone || (getCore s (g.place.getD 0 / 64)).fenced)
    | none => false

/-- What the teams of a core use. -/
structure CoreUse where
  slots : List (Nat × Nat) := []
  bars  : Nat := 0
  latches : Nat := 0
  spad  : Nat := 0
  deriving DecidableEq, Repr

def useOf (s : State) (core : Nat) : CoreUse := ⟨coreSlots s core, usedBars s core, usedLatches s core, usedSpad s core⟩

/-- The slots a team would take beside what is used, and what is used then (R206). -/
def fitUse (u : CoreUse) (n : Need) : Option (List Nat × CoreUse) :=
  if 64 < u.bars + n.bars ∨ 16 < u.latches + n.latches ∨ 983040 < u.spad + spadUnits n.size then none
  else (assignSlots u.slots n.regs n.tsize).map fun sl =>
    (sl, { slots := sl.map (fun k => (k, n.regs)) ++ u.slots, bars := u.bars + n.bars, latches := u.latches + n.latches
           spad := u.spad + spadUnits n.size })

/-- The slots a team would take on a core, when it fits (R206). -/
def fitsOn (s : State) (core : Nat) (n : Need) : Option (List Nat) :=
  if coreFenced s core then none else (fitUse (useOf s core) n).map (·.1)

/-- Whether a team fits on an empty core. -/
def fitsEmpty (n : Need) : Bool := (fitUse {} n).isSome

def partClusters (s : State) (part : Nat) : List Nat :=
  (List.range (clustersPerPart s)).map (· + part * clustersPerPart s)

/-- The clusters of a partition in the order of the search: from the one after the placement pointer on (R205). -/
def searchOrder (s : State) (part : Nat) : List Nat :=
  let n := clustersPerPart s
  let base := part * n
  let ptr := (getPart s part).pointer.getD (base + n - 1)
  (List.range n).map fun i => base + (ptr - base + 1 + i) % n

def coresOf (cluster : Nat) : List Nat := (List.range 4).map (· + 4 * cluster)

/-- The first core of a list on which a team fits, with its slots. -/
def firstFit (s : State) (n : Need) (cores : List Nat) : Option (Nat × List Nat) :=
  cores.findSome? fun k => (fitsOn s k n).map fun sl => (k, sl)

/-- The search for one team; `avoid` is the core that SPREAD skips unless no other fits. -/
def findCore (s : State) (part : Nat) (n : Need) (avoid : Option Nat) : Option (Nat × List Nat) :=
  let cores := (searchOrder s part).flatMap coresOf
  match firstFit s n (cores.filter fun k => some k != avoid) with
  | some r => some r
  | none => firstFit s n cores

/-- The core that SPREAD avoids: one that holds the node's previously placed team. -/
def Node.avoid (s : State) (n : Node) : Option Nat :=
  match n.lastTeam.bind (getTeam s) with
  | some t => if t.phase == .ended then none else t.core
  | none => none

/-! ### Stage sets (R205) -/

/-- What the cores of a cluster use with a team added to one of them. -/
def putUse (us : List (Nat × CoreUse)) (k : Nat) (u : CoreUse) : List (Nat × CoreUse) :=
  us.map fun e => if e.1 = k then (k, u) else e

/-- A team of a stage set: its need, and whether SPREAD keeps it off the core of the team before it. -/
structure SetNeed where
  need   : Need
  spread : Bool
  deriving DecidableEq, Repr

/-- Places for the teams of a set, in ascending stage: each takes the first core, the one to avoid last, on which it fits and
leaves room for the teams after it; none when the set does not fit at once. -/
def placeSet : List SetNeed → Option Nat → List (Nat × CoreUse) → Option (List (Nat × List Nat))
  | [], _, _ => some []
  | n :: r, avoid, us =>
    let skip (e : Nat × CoreUse) : Bool := n.spread && some e.1 == avoid
    (us.filter (fun e => !skip e) ++ us.filter skip).findSome? fun e =>
      match fitUse e.2 n.need with
      | none => none
      | some (sl, u) => (placeSet r (some e.1) (putUse us e.1 u)).map ((e.1, sl) :: ·)

def unfencedCores (s : State) (cluster : Nat) : List Nat := (coresOf cluster).filter fun k => !coreFenced s k

/-- Places for a set in a cluster as it stands. -/
def setInCluster (s : State) (ns : List SetNeed) (avoid : Option Nat) (cluster : Nat) : Option (List (Nat × List Nat)) :=
  placeSet ns avoid ((unfencedCores s cluster).map fun k => (k, useOf s k))

/-- Places for a set in the first cluster of the search that holds it; `may` is what else the cluster must allow. -/
def findSet (s : State) (part : Nat) (ns : List SetNeed) (avoid : Option Nat) (may : Nat → Bool := fun _ => true) :
    Option (List (Nat × List Nat)) :=
  ((searchOrder s part).filter may).findSome? (setInCluster s ns avoid)

/-- Whether a set fits in an empty unfenced cluster of the partition. -/
def setFitsEmpty (s : State) (part : Nat) (ns : List Need) : Bool :=
  (partClusters s part).any fun k =>
    (placeSet (ns.map fun n => ⟨n, false⟩) none ((unfencedCores s k).map fun c => (c, {}))).isSome

/-- Whether a team fits on an empty unfenced core of the partition. -/
def teamFitsEmpty (s : State) (part : Nat) (n : Need) : Bool :=
  fitsEmpty n && (partClusters s part).any fun k => !(unfencedCores s k).isEmpty

/-! ## Contexts at work (10 R223, R227, R228) -/

def ctxTeams (s : State) (part ctx : Nat) (f : Team → Bool) : List (Nat × Team) :=
  s.teams.filter fun e => e.2.part == part && e.2.ctx == ctx && f e.2

/-- Whether a context has a resident team. -/
def ctxResident (s : State) (part ctx : Nat) : Bool :=
  !(ctxTeams s part ctx fun t => t.core.isSome && t.phase != .saved && t.phase != .ended).isEmpty

/-- Whether every batch of a team's fault-saved groups has been released (10 R222). -/
def batchesOver (s : State) (t : Team) : Bool :=
  t.groups.all fun g => match getGroup s g with
    | some x => !x.saved || x.batch.isNone
    | none => true

/-- Saved teams that are restored before a new team of the context is placed: not those that wait for a batch (10 R222,
R228). -/
def ctxOwed (s : State) (part ctx : Nat) : Bool :=
  !(ctxTeams s part ctx fun t => t.phase == .saved && (!t.byWait || batchesOver s t)).isEmpty

/-- Whether new teams of a context may be placed: it is not being switched or reset, and none of its saved teams comes
first. -/
def ctxPlaces (s : State) (part ctx : Nat) : Bool :=
  let st := ctxState s part ctx
  (decide (st ≤ 1) || st == 4) && !ctxOwed s part ctx

/-- A context that gets a team runs; one that was saved starts its time slice again. -/
def ctxRuns (s : State) (part ctx : Nat) : State :=
  let s1 := ctxWakes s part ctx
  if ctxState s1 part ctx = 0 then setCtxBits s1 part ctx 69 3 1 else s1

/-- A context that has lost its last resident team: a running one without saved teams is idle, one being pre-empted is
saved (R223). -/
def settleContext (s : State) (part ctx : Nat) : State :=
  if ctxResident s part ctx then s
  else match ctxState s part ctx with
    | 1 => if (ctxTeams s part ctx fun t => t.phase == .saved).isEmpty then setCtxBits s part ctx 69 3 0 else s
    | 2 => saved
    | 3 => saved
    | _ => s
where
  /-- The pre-emption has ended. -/
  saved : State :=
    setCtxBits (modPart s part fun p => { p with preempt := p.preempt.filter fun x => x.ctx != ctx }) part ctx 69 3 4

/-! ## Allocation (04 R75) -/

/-- A newly allocated group. -/
def newGroup (s : State) (team index place nregs : Nat) : Group :=
  { team := team, index := index, place := some place, nregs := nregs, age := clkOf s (place / 256) }

/-- Allocates the groups of a team at slots of a core. -/
def allocGroups (team core nregs : Nat) : Nat → List Nat → State → State
  | _, [], s => s
  | i, sl :: r, s =>
    let id := s.order
    let s1 := { s with groups := spPut s.groups id (newGroup s team i (64 * core + sl) nregs), order := id + 1 }
    allocGroups team core nregs (i + 1) r (modTeam s1 team fun t => { t with groups := t.groups ++ [id] })

def emptyDesc : KDesc := ⟨0, 0, 0, 0, 0, 0, 0, false, false, false, 0, 0, 0, 0⟩

/-- The descriptor of a stage of a node. -/
def Node.desc (n : Node) (k : Nat) : KDesc := n.descs.getD k emptyDesc

/-- The team with a number of a node. -/
def teamOfNode (nid : Nat) (n : Node) (index core : Nat) : Team :=
  let k := index % max n.stages 1
  let d := n.desc k
  { node := nid, part := n.part, ctx := n.ctx, index := index, stage := k, set := index / max n.stages 1
    core := some core, tsize := d.tsize, regs := roundRegs d.regs, size := d.scratch, bars := d.bars, latchN := d.latches }

/-- A team takes units of core SRAM for its scratchpad, the lowest that are free: the lines there leave the L1, their dirty
bytes first written to the L2 (04 R77, R78). -/
def takeSram (s : State) (tid core size : Nat) : State :=
  let us := (l1Units s core).take (spadUnits size / 65536)
  let gone := ((getCore s core).l1.filter fun e => us.contains e.2.unit).map (·.1)
  modTeam (coreDrop s core gone.contains) tid fun t => { t with core := some core, units := us }

/-- What a placement changes beside the team: its context runs, the placement pointer moves to its cluster, and its node
notes it for SPREAD. -/
def notePlaced (s : State) (tid : Nat) (t : Team) (core : Nat) : State :=
  let s1 := modPart (ctxRuns s t.part t.ctx) t.part fun p => { p with pointer := some (clusterOf core) }
  modNode s1 t.node fun n => { n with lastTeam := some tid }

/-- Places a team that has a number on a core. -/
def settleTeam (s : State) (tid : Nat) (t : Team) (core : Nat) (slots : List Nat) : State :=
  notePlaced (allocGroups tid core t.regs 0 slots (takeSram s tid core t.size)) tid t core

/-- What a core holds of a context's images and code goes. -/
def Core.withoutCode (k : Core) (part ctx : Nat) : Core :=
  { k with
    dicts := k.dicts.filter fun d => !(d.part == part && d.ctx == ctx)
    fetched := k.fetched.filter fun l => !(l.part == part && l.ctx == ctx) }

/-- Before a context gets its first team, no dictionary slot and no instruction cache of its partition holds anything of it:
handles and pages that were freed while no team ran may stand for others (19 R438). -/
def freshDicts (s : State) (part ctx : Nat) : State :=
  if ctxResident s part ctx then s
  else { s with cores := s.cores.map fun e => (e.1, e.2.withoutCode part ctx) }

/-- Places a new team on a core. -/
def placeTeam (s0 : State) (t : Team) (core : Nat) (slots : List Nat) : State :=
  let s := freshDicts s0 t.part t.ctx
  let tid := s.order
  settleTeam { s with teams := spPut s.teams tid { t with core := none }, order := tid + 1 } tid t core slots

/-! ## Lanes that take a new thread (08 R191, R194) -/

/-- Zeroes the vector registers and predicates of lanes, and drops what a former thread left there; the lanes hold threads
of a new number. -/
def Group.clearLanes (g : Group) (m : Mask) : Group :=
  { g with
    vregs := g.vregs.filter fun e => !m.getLsbD (e.1 % 64)
    vpoison := g.vpoison.filter fun e => !m.getLsbD (e.1 % 64)
    preds := (g.preds.map fun e => (e.1, e.2 &&& ~~~m)).filter fun e => e.2 != 0
    rays := g.rays.filter fun e => !m.getLsbD e.1
    births := (lanesOf m).foldl (fun b l => spSet 0 b l (spGet 0 b l + 1)) g.births }

/-- An operation without what it has still to do for lanes. -/
def OpRec.without (o : OpRec) (m : Mask) : OpRec :=
  { o with
    writes := o.writes.filter fun w => match w with
      | .vec _ l _ _ => !m.getLsbD l
      | .any _ l _ _ => !m.getLsbD l
      | .pred _ l _ => !m.getLsbD l
      | .scal _ _ _ => true
    reads := o.reads.filter fun r => match r with
      | .entry l _ => !m.getLsbD l
      | .prim l _ => !m.getLsbD l
    loads := o.loads.filter fun l => !m.getLsbD l.lane }

/-- The results of former threads no longer reach the lanes: writes and reads of operations, what an atomic returns, rows of
a Barista, and traversals, whose tokens go on without the lanes. -/
def dropLaneWrites (s : State) (gid : Nat) (m : Mask) : State :=
  let keep (rs : List NRow) : List NRow := rs.filter fun r => !(r.gid == gid && m.getLsbD r.lane)
  let rowToks := (s.clusters.flatMap fun e => e.2.bins.flatMap (·.rows)) ++ s.tiles.flatMap fun e => e.2.rows
  let gone := (rowToks.filter fun r => r.gid == gid && m.getLsbD r.lane).map fun r => (r.tok, r.lane)
  let mute (a : AtomReq) : AtomReq := if a.gid == gid && m.getLsbD a.lane then { a with dst := none } else a
  let s1 := { s with
    ops := s.ops.map fun e => if e.2.gid == gid then (e.1, e.2.without m) else e
    clusters := s.clusters.map fun e => (e.1, { e.2 with bins := e.2.bins.map fun b => { b with rows := keep b.rows } })
    tiles := s.tiles.map fun e => (e.1, { e.2 with rows := keep e.2.rows })
    parts := s.parts.map fun e => (e.1, { e.2 with atoms := e.2.atoms.map mute }) }
  modGroup s1 gid fun g =>
    let rays := (g.rays.filter fun e => m.getLsbD e.1 && e.2.active).map fun e => (e.2.tok, e.1)
    (gone ++ rays).foldl (fun g e => g.tokenLane e.1 e.2 false) g

end Sys2Proof.Machine
end

