-- ==== Sys2Proof/Machine/Population.lean ====
section
/-!
DEFINITION. Populations and persistent launches: RESAMP and its completion, spawn records, and REFILL
(16 R381 to R386; 08 R191 to R194).
-/
namespace Sys2Proof.Machine

def Node.k0 (n : Node) : KDesc := n.desc 0

/-! ## RESAMP (R381) -/

/-- The operands of RESAMP: A vector, scalar or constant; B scalar, constant or uniform special value; C an even pair or
0x160, which .u excludes. -/
def resampFields (c : Iss) (f : Fields) : Bool :=
  let a := match opnd f.a with
    | .v _ => true
    | .s _ => true
    | .int _ => true
    | .flt _ => true
    | _ => false
  let b := (opnd f.b).isUniform && opnd f.b != .zero
  let cc := if f.c = zeroCode then f.mod == 0 else (opnd f.c).isScalarReg && srcLegal c true (opnd f.c)
  f.guardPathWide && decide (f.mod.toNat ≤ 1) && f.x == 0 && dstLegal c false (opnd f.d) && !(opnd f.d).isVec
    && a && srcLegal c false (opnd f.a) && b && srcLegal c false (opnd f.b) && cc

/-- Whether f64 bits are a number in [0, 1). -/
def unitOffset (bits : Nat) : Bool :=
  match decodeFmt 0 bits with
  | .fin n a b => decide (a < b) && (!n || a == 0)
  | _ => false

/-- R193: all live lanes in the executing path, and no PARKED, SERIAL or TRAP record. -/
def resampAlone (g : Group) (p : Path) : Bool := g.held == p.mask && g.stack.all fun r => r.kind == .join

def popKey (a : ResampArrival) : Nat × Bool × Nat := (a.target, a.explicit, a.seed)

def execResamp (f : Fields) (s : State) : Out :=
  onPath s fun c =>
    let lanes := lanesOf c.p.mask
    let bad := lanes.find? fun l => srcBad c false (opnd f.a) l
    let nt := srcVal s c .w32 (opnd f.b) 0
    let cv := if f.c = zeroCode then 0 else srcVal s c .q64 (opnd f.c) 0
    if !resampFields c f then illegalOperand s c
    else if bad.isSome || srcBad c false (opnd f.b) 0 || srcBad c true (opnd f.c) 0 then trapPoison s c (bad.getD 0)
    else if nt = 0 ∨ 2 ^ 26 < nt ∨ (f.mod = 1 ∧ !unitOffset cv) then illegalOperand s c
    else if !isPopulation s c.t || !resampAlone c.g c.p then takeTrap s c causePopulation 0 0
    else
      let a : ResampArrival :=
        { path := ⟨c.gid, c.live⟩, weights := lanes.map fun l => (l, srcVal s c .f32 (opnd f.a) l)
          target := nt, explicit := f.mod == 1, seed := cv
          dst := match opnd f.d with
            | .s n => some n
            | _ => none
          next := nextClause c.p, behind := advance c.p }
      waitOn (modNode s c.t.node fun n => { n with arrivals := n.arrivals ++ [a] }) c .resamp

/-! ## Copy counts (R382) -/

def rnd64 (x : XReal) : XReal := decodeFmt 0 (roundFmt 0 x .rne)

def piecesOf64 {α : Type} : Nat → List α → List (List α)
  | 0, _ => []
  | k + 1, l => if l.isEmpty then [] else l.take 64 :: piecesOf64 k (l.drop 64)

/-- Running sums, each rounded. -/
def runSums : XReal → List XReal → List XReal
  | _, [] => []
  | p, w :: r =>
    let q := rnd64 (p.add w)
    q :: runSums q r

def pairSums : List XReal → List XReal
  | a :: b :: r => rnd64 (a.add b) :: pairSums r
  | l => l

def pairTree : Nat → List XReal → XReal
  | 0, l => l.headD .zero
  | k + 1, l => match l with
    | [] => .zero
    | [x] => x
    | l => pairTree k (pairSums l)

/-- c[i]: the prefix sums of the blocks carried on by the block sums. -/
def cumSums : XReal → List (List XReal) → List XReal
  | _, [] => []
  | q, pre :: r => (pre.map fun p => rnd64 (q.add p)) ++ cumSums (rnd64 (q.add (pre.getLastD .zero))) r

/-- A weight as R382 counts it. -/
def countedWeight (x : XReal) : XReal :=
  match x with
  | .fin false a b => .fin false a b
  | _ => .zero

/-- floor(nt × c / W + u) for exact numbers; an infinite sum lies past every bound. -/
def copyIndex (nt : Nat) (c w u : XReal) : Nat :=
  match c, w, u with
  | .fin _ a b, .fin _ e d, .fin _ p q => (nt * a * d * q + p * b * e) / (b * e * q)
  | _, _, _ => nt

/-- n and start of each index, in order. -/
def copyCounts (nt : Nat) (w u : XReal) (lp : Nat) : Nat → Nat → List XReal → List (Nat × Nat)
  | _, _, [] => []
  | i, prev, c :: r =>
    let x := if lp ≤ i then nt else min (max (copyIndex nt c w u) prev) nt
    (x - prev, prev) :: copyCounts nt w u lp (i + 1) x r

/-- The highest index with a positive weight. -/
def lastPositive (wc : List XReal) : Nat :=
  wc.zipIdx.foldl (fun a e => if e.1.isZero then a else e.2) 0

/-- resamp_counts of R382; none when degenerate. -/
def resampCounts (ws : List XReal) (nt : Nat) (u : XReal) : Option (List (Nat × Nat)) :=
  let wc := ws.map countedWeight
  let pre := (piecesOf64 (wc.length / 64 + 1) wc).map (runSums .zero)
  let w := pairTree 64 (pre.map fun l => l.getLastD .zero)
  if w.isZero || !w.isFinite then none
  else some (copyCounts nt w u (lastPositive wc) 0 0 (cumSums .zero pre))

/-- u of a RESAMP. -/
def resampU (a : ResampArrival) (gen : Nat) : XReal :=
  if a.explicit then decodeFmt 0 a.seed
  else .fin false (mix64 ((a.seed + gen * gammaConst) % 2 ^ 64) / 2 ^ 11) (2 ^ 53)

/-- A thread at a RESAMP: its index, group, live slot, lane and weight. -/
structure PopThread where
  idx  : Nat
  path : PathId
  lane : Nat
  wt   : Nat
  deriving DecidableEq, Repr

def popThreads (s : State) (as : List ResampArrival) : List PopThread :=
  as.flatMap fun a => match getGroup s a.path.gid with
    | none => []
    | some g => match getTeam s g.team with
      | none => []
      | some t => a.weights.map fun e => ⟨(laneIds s t g e.1).pidx, a.path, e.1, e.2⟩

/-- The weight of every index of the population: +0 where the thread has exited. -/
def popWeights (n : Nat) (ts : List PopThread) : List XReal :=
  let m : SMap Nat := ts.foldl (fun m t => spPut m t.idx t.wt) []
  (List.range n).map fun i => match spFind m i with
    | some w => decodeFmt 1 w
    | none => .zero

/-- A weight that sets CLAMPED. -/
def clampsWeight (bits : Nat) : Bool :=
  match decodeFmt 1 bits with
  | .fin n a _ => n && a != 0
  | _ => true

/-- How many live threads have a lower index. -/
def popRank (ts : List PopThread) (i : Nat) : Nat := (ts.filter fun t => decide (t.idx < i)).length

/-! ## Clones (R383, R384) -/

/-- A clone: its record, the group of its parent, and its lineage inside the record. -/
structure Clone where
  parent : Nat
  recd   : SpawnRec
  deriving DecidableEq, Repr

/-- The group with its registers, wherever they are. -/
def loadedGroup (s : State) (g : Group) : Group :=
  match g.frame, getTeam s g.team with
  | some a, some _ => readGroupFrame s g a
  | _, _ => g

/-- The carried set of a lane (R194). -/
def carriedOf (d : KDesc) (g : Group) (lane : Nat) : List (Nat × Word × Bool) × List (Nat × Bool) :=
  (((List.range 64).filter fun k => bitOf d.carryV k && decide (k < g.nregs)).map fun k =>
      (k, BitVec.ofNat 32 (g.getV k lane), g.badV k lane),
   ((List.range 48).filter fun k => bitOf d.carryP k).map fun k => (k, (g.predMask k).getLsbD lane))

/-- The clones of one thread: copies 1 to n − 1. -/
def clonesOf (d : KDesc) (g : Group) (t : PopThread) (n start next : Nat) : List Clone :=
  let c := carriedOf d g t.lane
  (List.range (n - 1)).map fun j =>
    { parent := t.path.gid
      recd := { pidx := start + j + 1, lin := t.idx, vregs := c.1, preds := c.2, addr := next, slot := 0 } }

def insClone (c : Clone) : List Clone → List Clone
  | [] => [c]
  | d :: r => if c.recd.pidx < d.recd.pidx then c :: d :: r else d :: insClone c r

def sortClones (l : List Clone) : List Clone := l.foldl (fun a c => insClone c a) []

/-- A clone placed in a lane. -/
structure PlacedClone where
  gid  : Nat
  lane : Nat
  cl   : Clone
  deriving DecidableEq, Repr

/-- What placement works on: free lanes by group, the clones placed, those left, and the state with its free choices. -/
structure Placing where
  free   : SMap (List Nat)
  placed : List PlacedClone
  left   : List Clone
  s      : State

/-- Places a clone in the lowest free lane of a group. -/
def Placing.put (p : Placing) (gid : Nat) (c : Clone) : Placing :=
  match spGet [] p.free gid with
  | [] => { p with left := p.left ++ [c] }
  | l :: r => { p with free := spPut p.free gid r, placed := p.placed ++ [⟨gid, l, c⟩] }

/-- How far a group is from the parent's: same team, core, cluster, partition (R383); none for a group off the cores. -/
def hostRank (s : State) (parent host : Nat) : Option Nat :=
  match getGroup s parent, getGroup s host with
  | some g, some h =>
    if h.ended then none
    else if g.team = h.team then some 0
    else match h.place with
      | none => none
      | some q => match g.place with
        | none => some 3
        | some p => if p / 64 = q / 64 then some 1 else if p / 256 = q / 256 then some 2 else some 3
  | _, _ => none

/-- Places a clone elsewhere: any group of the best class, by a free choice. -/
def Placing.elsewhere (p : Placing) (c : Clone) : Placing :=
  let hosts := p.free.filterMap fun e => if e.2.isEmpty then none else (hostRank p.s c.parent e.1).map fun r => (r, e.1)
  match (List.range 4).find? fun r => hosts.any fun h => h.1 == r with
  | none => { p with left := p.left ++ [c] }
  | some r =>
    let best := (hosts.filter fun h => h.1 == r).map (·.2)
    let k := chooseBelow p.s best.length
    { p with s := k.2 }.put (best.getD k.1 (best.headD 0)) c

/-! ## Completion -/

/-- Whether every group that holds a live thread of the population has arrived (R382). -/
def popArrived (s : State) (nid : Nat) (n : Node) : Bool :=
  !n.arrivals.isEmpty && n.nextTeam == n.teams && n.spawns.isEmpty
    && (s.teams.all fun e => e.2.node != nid || e.2.begun)
    && s.groups.all fun e =>
      match getTeam s e.2.team with
      | some t => t.node != nid || e.2.ended || e.2.held == 0 || n.arrivals.any fun a => a.path.gid == e.1
      | none => true

/-- What a completion gives each index: copies and first new index. -/
structure PopResult where
  counts : SMap (Nat × Nat)
  size   : Nat
  degen  : Bool

def popResult (n : Node) (ts : List PopThread) (a : ResampArrival) : PopResult :=
  match resampCounts (popWeights n.popSize ts) a.target (resampU a n.gen) with
  | some l => { counts := l.zipIdx.map fun e => (e.2, e.1), size := a.target, degen := false }
  | none => { counts := ts.foldl (fun m t => spPut m t.idx (1, popRank ts t.idx)) [], size := ts.length, degen := true }

/-- The change of one group at a completion: identifiers, clones, lanes that leave, the status in D, and its path behind
RESAMP; one that was restored, or is saved, holds no clause. -/
def resampGroup (r : PopResult) (gen stat : Nat) (a : ResampArrival) (ts : List PopThread) (cls : List PlacedClone)
    (g : Group) : Group :=
  let wid (i : Nat) : Nat := gen * 2 ^ 26 + i
  let new := maskOf (cls.map (·.lane))
  let dead := maskOf ((ts.filter fun t => (spGet (0, 0) r.counts t.idx).1 == 0).map (·.lane))
  let m := match g.live a.path.live with
    | some p => p.mask
    | none => 0
  let g1 := ts.foldl (fun g t =>
    let i := (spGet (0, 0) r.counts t.idx).2
    { g with ids := spPut g.ids t.lane ⟨wid i, i, t.idx⟩ }) g
  let g2 := cls.foldl (fun g c =>
    let x := c.cl.recd
    let h := x.vregs.foldl (fun g v => g.setV v.1 c.lane v.2.1.toNat v.2.2) g
    let k := x.preds.foldl (fun g p => g.setPred p.1 (laneBit c.lane) (if p.2 then laneBit c.lane else 0)) h
    { k with ids := spPut k.ids c.lane ⟨wid x.pidx, x.pidx, x.lin⟩ }) (g1.clearLanes new)
  let g3 := match a.dst with
    | some k => g2.setS k stat
    | none => g2
  let on (p : Path) : Path :=
    if p.clause.isSome then advance p
    else { freshPath a.behind.addr a.behind.slot p.mask p.fmt p.handle with rotate := a.behind.rotate }
  let g4 := countRetired (g3.setLive a.path.live ((g3.live a.path.live).map on)) (a.behind.slot == 0)
  removeLanes (joinLanes g4 a.path.live m (new &&& ~~~g.held)) (dead &&& ~~~new)

/-- Changes a group's registers wherever they are. -/
def withRegisters (s : State) (gid : Nat) (f : Group → Group) : State :=
  match getGroup s gid with
  | none => s
  | some g => match g.frame, getTeam s g.team with
    | some a, some _ =>
      let g1 := f (readGroupFrame s g a)
      setGroup (writeGroupFrame s a g1) gid (g1.emptied a)
    | _, _ => setGroup s gid (f g)

/-- A path of a group traps wherever the group is: the record of a saved one goes to its frame. -/
def trapAnywhere (s : State) (q : PathId) (cause : Nat) : State :=
  let go (s : State) : State := match issOf s q with
    | some c => takeTrap s c cause 0 0
    | none => s
  match getGroup s q.gid with
  | none => s
  | some g => match g.frame with
    | none => go s
    | some a =>
      let s1 := go (setGroup s q.gid (readGroupFrame s g a))
      match getGroup s1 q.gid with
      | some g1 => setGroup (writeGroupFrame s1 a g1) q.gid (g1.emptied a)
      | none => s1

/-- Every group traps POPULATION (R382). -/
def resampMismatch (s : State) (nid : Nat) (as : List ResampArrival) : State :=
  let s1 := modNode s nid fun n => { n with arrivals := [], popstat := Nat.lor n.popstat 8 }
  as.foldl (fun s a => trapAnywhere s a.path causePopulation) s1

/-- The threads of a population that have arrived at a RESAMP. -/
def resampThreads (as : List ResampArrival) : List Agent :=
  as.flatMap fun a => a.weights.map fun e => .thread a.path.gid e.1

/-- The release edge of a RESAMP by every thread of the population (05 R113): the cores write their dirty bytes to the L2. -/
def resampRelease (s : State) (as : List ResampArrival) : List RelInfo × State :=
  let cores := (as.filterMap fun a => ((getGroup s a.path.gid).bind (·.place)).map (· / 64)).eraseDups
  (releaseOfAll s (resampThreads as) 4, cores.foldl (fun s k => publishAt s k 4) s)

/-- Threads that enter lanes know what their team does; what those before them have made or read the team's end still orders
(05 R113). -/
def newThreads (s : State) (gid : Nat) (lanes : List Nat) : State :=
  let ids := releasedBy s (lanes.map (Agent.thread gid))
  lanes.foldl (fun s l => forget s (.thread gid l)) (modGroup s gid fun g => { g with past := addIds g.past ids })

/-- The acquire edge of a RESAMP by every thread of the population, the clones included, and by the teams that its spawn
records will make. -/
def resampAcquire (s : State) (nid : Nat) (as : List ResampArrival) (rels : List RelInfo) : State :=
  let all := as.flatMap fun a => match getGroup s a.path.gid with
    | some g => threadsOf a.path.gid g.held
    | none => []
  modNode (acquireAll s all 4 rels) nid fun n => { n with known := addIds n.known (rels.flatMap (·.ids)) }

/-- Writes spawn records to units of the frame area; none when there are too few. -/
def storeSpawns (s : State) (nid : Nat) (n : Node) (left : List Clone) : Option State :=
  if left.isEmpty then some s
  else
    let bytes := 512 * left.length
    let k := (bytes + 2 ^ 17 - 1) / 2 ^ 17
    match findUnits s n.part k with
    | none => none
    | some u =>
      let a := unitAddr s n.part u
      let s1 := bulkWrite (takeUnits s n.part n.ctx u k) a (headerBytes s.fresh bytes) fun _ => false
      some (modNode { s1 with fresh := s1.fresh + 1 } nid fun n =>
        { n with spawns := left.map (·.recd), spawnAt := (a, k) })

/-- The completion with equal operands. -/
def resampFinish (s : State) (nid : Nat) (n : Node) (a0 : ResampArrival) : Option State :=
  let ts := popThreads s n.arrivals
  let r := popResult n ts a0
  let cnt (t : PopThread) : Nat × Nat := spGet (0, 0) r.counts t.idx
  let clones := sortClones (n.arrivals.flatMap fun a => match getGroup s a.path.gid with
    | none => []
    | some g =>
      let h := loadedGroup s g
      (ts.filter fun t => t.path == a.path).flatMap fun t => clonesOf n.k0 h t (cnt t).1 (cnt t).2 a.next)
  let free : SMap (List Nat) := n.arrivals.foldl (fun m a => match getGroup s a.path.gid with
    | none => m
    | some g =>
      let dead := maskOf ((ts.filter fun t => t.path == a.path && (cnt t).1 == 0).map (·.lane))
      spPut m a.path.gid (lanesOf (~~~g.held ||| dead))) []
  let p1 : Placing := clones.foldl (fun (p : Placing) c => p.put c.parent c) { free := free, placed := [], left := [], s := s }
  let p2 : Placing := p1.left.foldl (fun (p : Placing) c => p.elsewhere c) { p1 with left := [] }
  match storeSpawns p2.s nid n p2.left with
  | none => none
  | some s1 =>
    let stat := Nat.lor n.popstat ((if ts.any fun t => clampsWeight t.wt then 1 else 0) + (if r.degen then 2 else 0)
      + (if p2.left.isEmpty then 0 else 4))
    let rel := resampRelease s1 n.arrivals
    let s2 := n.arrivals.foldl (fun s a =>
      let cls := p2.placed.filter fun c => c.gid == a.path.gid
      let lanes := cls.map (·.lane)
      withRegisters (newThreads (dropLaneWrites s a.path.gid (maskOf lanes)) a.path.gid lanes) a.path.gid
        (resampGroup r (n.gen + 1) stat a (ts.filter fun t => t.path == a.path) cls)) rel.2
    some (modNode (resampAcquire s2 nid n.arrivals rel.1) nid fun n =>
      { n with arrivals := [], gen := n.gen + 1, popSize := r.size, popstat := stat })

/-- RESAMP_COMPLETE (R382). -/
def tryResampComplete (node : Nat) (s : State) : Event :=
  match getNode s node with
  | none => .refused .idle
  | some n =>
    if !popArrived s node n then .refused .idle
    else match n.arrivals with
      | [] => .refused .idle
      | a :: r =>
        if r.any fun b => popKey b != popKey a then .next (resampMismatch s node n.arrivals)
        else match resampFinish s node n a with
          | some s1 => .next s1
          | none => .refused .idle

def execResampComplete (node : Nat) (s : State) : Out := settle s (tryResampComplete node s)

/-- SPAWN_RECORD_DISPATCH (R384): a new team of the launch takes the first 64 × %tsize records. -/
def trySpawnRecordDispatch (node : Nat) (s : State) : Event :=
  match getNode s node with
  | none => .refused .idle
  | some n =>
    if n.spawns.isEmpty || !ctxPlaces s n.part n.ctx then .refused .idle
    else match findCore s n.part n.k0.need (if n.k0.spread then n.avoid s else none) with
      | none => .refused .idle
      | some (core, slots) =>
        let k := 64 * n.k0.tsize
        let rest := n.spawns.drop k
        let t := { teamOfNode node n (n.teams + n.extraTeams) core with spawned := n.spawns.take k }
        let s1 := modNode (placeTeam s t core slots) node fun n =>
          { n with spawns := rest, extraTeams := n.extraTeams + 1 }
        .next (if rest.isEmpty then freeUnits s1 n.part n.spawnAt.1 n.spawnAt.2 else s1)

def execSpawnRecordDispatch (node : Nat) (s : State) : Out := settle s (trySpawnRecordDispatch node s)

/-! ## REFILL (R386) -/

/-- Takes item indices for lanes from the launch's dispenser; the lanes that got one, with their indices. -/
def dispense (n : Node) (lanes : List Nat) : List (Nat × Nat) :=
  (lanes.take (n.workn - n.dispensed)).zipIdx.map fun e => (e.1, n.dispensed + e.2)

/-- New threads enter lanes beside a path of mask m (08 R191, R192). -/
def fillLanes (g : Group) (live : Nat) (m : Mask) (items : List (Nat × Nat)) : Group :=
  let new := maskOf (items.map (·.1))
  let g1 := joinLanes (g.clearLanes new) live m new
  items.foldl (fun g e => { g with ids := spPut g.ids e.1 ⟨e.2, 0, 0⟩ }) g1

/-- The four words of an item with their poison, for a lane. -/
def payloadWrites (lane v : Nat) (bad : Nat → Bool) : List RegWrite :=
  (List.range 4).map fun i => .vec i lane (BitVec.ofNat 32 (v / 2 ^ (32 * i))) (bad i)

/-- What the payload read of one lane comes to: register writes, or a fault. -/
inductive PayRead where
  | done (ws : List RegWrite) (s : State)
  | fault (gs : List Granule)

def payloadRead (s : State) (gid core part ctx workq lane idx : Nat) (failed : Bool) : PayRead :=
  let va := (workq + 16 * idx) % 2 ^ 64
  let poison := PayRead.done (payloadWrites lane 0 fun _ => true) s
  match xlateSet s (.core core) part ctx .read (ctxSup s part ctx) [⟨lane, va, 16, false⟩] with
  | .trap _ _ _ => poison
  | .fault gs => if failed then poison else .fault gs
  | .ok ls => match ls with
    | l :: _ =>
      if failed then poison
      else
        let lo := readBytes s [.thread gid lane] l.cmp l.kind l.loc 8
        let hi := readBytes lo.2 [.thread gid lane] l.cmp l.kind (l.loc + 8) 8
        .done (payloadWrites lane (leNat (lo.1.bytes ++ hi.1.bytes)) fun i => if i < 2 then lo.1.bad else hi.1.bad) hi.2
    | [] => poison

/-- Makes the outstanding payload reads that a group holds under a key, for a path: those that fault report one batch. -/
def payloadStep (s : State) (gid live key : Nat) : State :=
  match issOf s ⟨gid, live⟩ with
  | none => s
  | some c => match spFind c.g.refill key with
    | none => s
    | some rf =>
      let workq := ((getNode s c.t.node).map (·.workq)).getD 0
      let r := rf.lanes.foldl (fun (a : State × SMap Nat × List Granule) e =>
        match payloadRead a.1 gid c.core c.part c.ctx workq e.1 e.2 rf.failed with
        | .done ws s1 => (writeRegs s1 gid ws, a.2.1, a.2.2)
        | .fault gs => (a.1, spPut a.2.1 e.1 e.2, a.2.2 ++ gs.filter fun x => !a.2.2.any fun y => y.va == x.va))
        (s, [], [])
      let keep (s : State) (b : Option Nat) : State :=
        modGroup s gid fun g => { g with refill := spPut g.refill key { rf with lanes := r.2.1, batch := b, failed := false } }
      if r.2.1.isEmpty || !canReport r.1 c.part then keep r.1 none
      else
        let b := reportBatch r.1 c.part (c.faulter .read) r.2.2 (.refill gid key)
        keep b.2 (some b.1)

def refillDone (g : Group) (key : Nat) : Bool :=
  match spFind g.refill key with
  | some r => r.lanes.isEmpty
  | none => true

/-- The end of REFILL: D takes the number of lanes filled, pq says whether the dispenser is exhausted. -/
def finishRefill (s : State) (c : Iss) (f : Fields) (count : Nat) : State :=
  let out := match getNode s c.t.node with
    | some n => decide (n.workn ≤ n.dispensed)
    | none => true
  retire (modGroup s c.gid fun g =>
    let m := match g.live c.live with
      | some p => p.mask
      | none => 0
    (writeScal { g with refill := spDel g.refill c.live } false (opnd f.d) count).setPred pq m (if out then m else 0)) c

/-- Makes the reads, then ends or waits. -/
def continueRefill (s : State) (c : Iss) (f : Fields) (count : Nat) : State :=
  let s1 := payloadStep s c.gid c.live c.live
  match getGroup s1 c.gid with
  | some g => if refillDone g c.live then finishRefill s1 c f count else waitOn s1 c .refill
  | none => s1

def refillLegal (c : Iss) (f : Fields) : Bool :=
  f.mod == 0 && f.x == 0 && allZero [f.a, f.b, f.c] && dstLegal c false (opnd f.d) && !(opnd f.d).isVec

def execRefill (f : Fields) (s : State) : Out :=
  onPath s fun c => runPathWide s c f (refillLegal c f)
    (match getNode s c.t.node with
    | none => illegalOperand s c
    | some n =>
      if !n.k0.persistent then illegalOperand s c
      else match spFind c.g.refill c.live with
        | some rf => if rf.batch.isSome then s else continueRefill s c f rf.count
        | none =>
          let items := dispense n (lanesOf (~~~c.g.held))
          if items.isEmpty then finishRefill s c f 0
          else
            let s1 := modNode s c.t.node fun n => { n with dispensed := n.dispensed + items.length }
            let lanes := items.map (·.1)
            let s2 := modGroup (newThreads (dropLaneWrites s1 c.gid (maskOf lanes)) c.gid lanes) c.gid fun g =>
              let g1 := fillLanes g c.live c.p.mask items
              { g1 with refill := spPut g1.refill c.live { lanes := items, count := items.length } }
            continueRefill s2 c f items.length)

end Sys2Proof.Machine
end

