-- ==== Sys2Proof/Machine/Work.lean ====
section
/-!
DEFINITION. Work creation and system state: LAUNCH, SPAWN, SRD, SWR, PERF and SYSC (16 R387, R397 to R399; 09 R201).
-/
namespace Sys2Proof.Machine

/-! ## LAUNCH and SPAWN (R387) -/

/-- Nodes of a partition that have entered and not completed, with those on their way in (R201). -/
def nodeCount (s : State) (part : Nat) : Nat :=
  (s.nodes.filter fun e => e.2.part == part && e.2.phase != .done).length
    + (s.entries.filter fun e => e.2.part == part).length

def launchLegal (c : Iss) (f : Fields) : Bool :=
  f.mod == 0 && f.x == 0 && allZero [f.b, f.c] && (opnd f.a).isScalarReg && srcLegal c true (opnd f.a)
    && dstLegal c false (opnd f.d) && !(opnd f.d).isVec

/-- The scalar register that an operand names as destination. -/
def scalReg (o : Opnd) : Option Nat :=
  match o with
  | .s n => some n
  | _ => none

/-- The node is on its way in, behind the stores that the release edge of the active lanes at .dev orders, and the path waits
for the verdict. -/
def enterNode (s : State) (c : Iss) (ids : List Nat) (f : Fields) (spawn : Bool) (record : Nat) : State :=
  if 4096 ≤ nodeCount s c.part then waitOn s c .tguFull
  else
    let id := s.order
    let e : Entry :=
      { part := c.part, ctx := c.ctx, record := record, known := ids
        src := .launch ⟨c.gid, c.live⟩ (scalReg (opnd f.d)) spawn c.t.node }
    waitOn { s with entries := spPut s.entries id e, order := id + 1 } c (.verdict id)

/-- The shared shape of LAUNCH and SPAWN: the release edge comes before the record is read. -/
def runLaunch (s : State) (c : Iss) (f : Fields) (spawn : Bool) : State :=
  runMasked s c f (launchLegal c f) fun act =>
    let lane := lowLane act
    let va := srcVal s c .q64 (opnd f.a) lane
    if srcBad c true (opnd f.a) lane then trapPoison s c lane
    else if va % 64 ≠ 0 then takeTrap s c causeMisaligned lane va
    else
      let ids := releasedBy s (threadsOf c.gid act)
      withObject (publishAt s c.core 4) c lane va 64 fun bs s1 => enterNode s1 c ids f spawn (leNat bs)

def execLaunch (f : Fields) (s : State) : Out := onPath s fun c => runLaunch s c f false
def execSpawn (f : Fields) (s : State) : Out := onPath s fun c => runLaunch s c f true

/-! ## System registers (R397) -/

/-- A system register. -/
inductive SysReg where
  | trapLo
  | trapHi
  | trapPc
  | popstat
  /-- a 64-bit field of the context record, by its lowest bit -/
  | ctxField (lo : Nat)
  | ctx
  | stepping
  | qpLimit (q : Nat)
  deriving DecidableEq, Repr

def sysReg (n : Nat) : Option SysReg :=
  match n with
  | 0x000 => some .trapLo
  | 0x001 => some .trapHi
  | 0x002 => some .trapPc
  | 0x003 => some .popstat
  | 0x004 => some (.ctxField 192)
  | 0x010 => some (.ctxField 256)
  | 0x011 => some (.ctxField 320)
  | 0x012 => some (.ctxField 384)
  | 0x013 => some (.ctxField 448)
  | 0x014 => some (.ctxField 640)
  | 0x015 => some (.ctxField 704)
  | 0x020 => some .ctx
  | 0x021 => some .stepping
  | k => if 0x100 ≤ k ∧ k < 0x140 then some (.qpLimit (k - 0x100)) else none

def SysReg.wide : SysReg → Bool
  | .trapLo => true
  | .trapHi => true
  | .trapPc => true
  | .ctxField _ => true
  | _ => false

def SysReg.readOnly : SysReg → Bool
  | .trapLo => true
  | .trapHi => true
  | .ctx => true
  | .stepping => true
  | _ => false

def SysReg.supervisor : SysReg → Bool
  | .ctxField _ => true
  | .qpLimit _ => true
  | _ => false

/-- TRAPINFO [63:0] (10 R217). -/
def TrapInfo.low (t : TrapInfo) : Nat := t.cause + t.lane * 2 ^ 8 + t.slot * 2 ^ 16 + t.pslot * 2 ^ 20

/-- The topmost TRAP record of the group. -/
def topTrap (g : Group) : Option Rec := g.stack.find? fun r => r.kind == .trap

/-- What a read of a system register gives. -/
def sysRead (s : State) (c : Iss) (r : SysReg) : Nat :=
  match r with
  | .trapLo => c.g.trapinfo.low
  | .trapHi => c.g.trapinfo.addr.toNat
  | .trapPc => match topTrap c.g with
    | some t => t.addr % 2 ^ 48 + t.slot % 16 * 2 ^ 48
    | none => 0
  | .popstat => ((getNode s c.t.node).map (·.popstat)).getD 0
  | .ctxField lo => ctxBits s c.part c.ctx lo 64
  | .ctx => c.ctx
  | .stepping => s.stepping
  | .qpLimit q => limitWord s (clusterOf c.core) q

/-- SRD. -/
def execSrd (f : Fields) (s : State) : Out :=
  onPath s fun c =>
    let r := sysReg f.imm18.toNat
    let wide := (r.map (·.wide)).getD false
    runMasked s c f (f.mod == 0 && f.x == 0 && f.a == zeroCode && r.isSome && (opnd f.d).isScalarReg
        && dstLegal c wide (opnd f.d)) fun _ =>
      match r with
      | none => illegalOperand s c
      | some k => retire (modGroup s c.gid fun g => writeScal g wide (opnd f.d) (sysRead s c k)) c

/-- Sets the resume point of the topmost TRAP record; another clause than the trapped one is not the handler's first (11 R249).
The spec does not say what becomes of an address that is no multiple of 4: the model fetches the clause there (log 99). -/
def setTrapPc (v : Nat) : List Rec → List Rec
  | [] => []
  | r :: rest =>
    if r.kind = .trap then
      { r with
        addr := v % 2 ^ 48, slot := v / 2 ^ 48 % 16, handler := if v % 2 ^ 48 = r.addr then r.handler else none } :: rest
    else r :: setTrapPc v rest

/-- What a permitted write of a system register does; none when it traps STACK_LIMIT. -/
def sysWrite (s : State) (c : Iss) (r : SysReg) (v : Nat) : Option State :=
  match r with
  | .trapPc =>
    if (topTrap c.g).isNone then none else some (modGroup s c.gid fun g => { g with stack := setTrapPc v g.stack })
  | .popstat => some (modNode s c.t.node fun n => { n with popstat := n.popstat - Nat.land n.popstat (v % 16) })
  | .ctxField lo => some (setCtxBits s c.part c.ctx lo 64 v)
  | .qpLimit q => some (writeLimit s (clusterOf c.core) q v)
  | _ => some s

/-- A of SWR: a scalar, a pair or a constant. -/
def swrSource (c : Iss) (wide : Bool) (o : Opnd) : Bool :=
  srcLegal c wide o && match o with
    | .s _ => true
    | .int _ => true
    | .flt _ => true
    | _ => false

/-- SWR. -/
def execSwr (f : Fields) (s : State) : Out :=
  onPath s fun c =>
    let r := sysReg f.imm18.toNat
    let wide := (r.map (·.wide)).getD false
    let ro := (r.map (·.readOnly)).getD true
    runMasked s c f (f.mod == 0 && f.x == 0 && f.d == zeroCode && r.isSome && !ro && swrSource c wide (opnd f.a)) fun _ =>
      match r with
      | none => illegalOperand s c
      | some k =>
        if srcBad c wide (opnd f.a) 0 then trapPoison s c 0
        else if k.supervisor && !c.sup s then takeTrap s c causePrivilege 0 0
        else match sysWrite s c k (srcVal s c (if wide then .q64 else .w32) (opnd f.a) 0) with
          | some s1 => retire s1 c
          | none => takeTrap s c causeStack 0 0

/-! ## PERF and SYSC (R398, R399) -/

/-- The counters of PERF. -/
def perfCount (s : State) (g : Group) (n : Nat) : Nat :=
  match n with
  | 0 => g.retired
  | 1 => g.clauses
  | 2 => g.resident + (clkOf s (g.place.getD 0 / 256) - g.age)
  | _ => g.faultSaves

def execPerf (f : Fields) (s : State) : Out :=
  onPath s fun c => runMasked s c f
      (f.mod == 0 && f.x == 0 && f.a == 0 && decide (f.imm18.toNat ≤ 3) && (opnd f.d).isScalarReg
        && dstLegal c true (opnd f.d)) fun _ =>
    retire (modGroup s c.gid fun g => writeScal g true (opnd f.d) (perfCount s c.g f.imm18.toNat)) c

/-- SYSC: retires, then raises SYSCALL, resuming behind it. -/
def execSysc (f : Fields) (s : State) : Out :=
  onPath s fun c => runMasked s c f (f.mod == 0 && f.x == 0 && f.d == 0) fun _ =>
    takeTrapAfter s c causeSyscall f.imm27.toNat

end Sys2Proof.Machine
end

