-- ==== Sys2Proof/Machine/Rays.lean ====
section
/-!
DEFINITION. Exact intersection arithmetic of the ray units: boxes, triangles, Gaussians and curves (17 R410 to R415).
-/
namespace Sys2Proof.Machine

/-! ## Exact coordinates -/

/-- A finite f32 as a multiple of 2^−149; none for NaN and the infinities. -/
def f32Int (bits : Nat) : Option Int :=
  let e := bits / 2 ^ 23 % 256
  let m := bits % 2 ^ 23
  if e = 255 then none
  else
    let mag : Nat := if e = 0 then m else (m + 2 ^ 23) * 2 ^ (e - 1)
    some (if bitOf bits 31 then -(mag : Int) else (mag : Int))

structure V3 where
  x : Int
  y : Int
  z : Int
  deriving DecidableEq, Repr

def V3.sub (a b : V3) : V3 := ⟨a.x - b.x, a.y - b.y, a.z - b.z⟩
def V3.dot (a b : V3) : Int := a.x * b.x + a.y * b.y + a.z * b.z
def V3.cross (a b : V3) : V3 := ⟨a.y * b.z - a.z * b.y, a.z * b.x - a.x * b.z, a.x * b.y - a.y * b.x⟩
def V3.scale (k : Int) (a : V3) : V3 := ⟨k * a.x, k * a.y, k * a.z⟩
def V3.add (a b : V3) : V3 := ⟨a.x + b.x, a.y + b.y, a.z + b.z⟩

def v3Of (a b c : Nat) : Option V3 :=
  match f32Int a, f32Int b, f32Int c with
  | some x, some y, some z => some ⟨x, y, z⟩
  | _, _, _ => none

/-- The exact quotient of two integers, the divisor not zero. -/
def ratX (n d : Int) : XReal := .fin (n != 0 && (decide (n < 0) != decide (d < 0))) n.natAbs d.natAbs

/-- A ray: its origin and direction, exact, and the ends of its range. -/
structure Ray where
  o    : V3
  d    : V3
  tmin : XReal
  tmax : XReal

def Ray.has (r : Ray) (t : XReal) : Bool := r.tmin.le t && t.le r.tmax

/-! ## Boxes (R410, R415) -/

structure Box where
  lo : V3
  hi : V3
  deriving DecidableEq, Repr

/-- The part of a range of t in which one coordinate lies in [lo, hi]; none when there is none. -/
def slab (o d lo hi : Int) (t : XReal × XReal) : Option (XReal × XReal) :=
  if d = 0 then (if lo ≤ o ∧ o ≤ hi then some t else none)
  else
    let a := ratX (lo - o) d
    let b := ratX (hi - o) d
    let n := if d < 0 then b else a
    let f := if d < 0 then a else b
    let lo' := if t.1.lt n then n else t.1
    let hi' := if f.lt t.2 then f else t.2
    if hi'.lt lo' then none else some (lo', hi')

/-- Whether a point of the ray in its range lies in the box. -/
def Ray.touches (r : Ray) (b : Box) : Bool :=
  (((slab r.o.x r.d.x b.lo.x b.hi.x (r.tmin, r.tmax)).bind (slab r.o.y r.d.y b.lo.y b.hi.y)).bind
    (slab r.o.z r.d.z b.lo.z b.hi.z)).isSome

/-- Whether the point at t lies in the box. -/
def Ray.pointIn (r : Ray) (t : XReal) (b : Box) : Bool :=
  match t with
  | .fin n p q =>
    let s : Int := if n then -(p : Int) else p
    let at_ (o d lo hi : Int) : Bool := decide (lo * q ≤ o * q + s * d) && decide (o * q + s * d ≤ hi * q)
    at_ r.o.x r.d.x b.lo.x b.hi.x && at_ r.o.y r.d.y b.lo.y b.hi.y && at_ r.o.z r.d.z b.lo.z b.hi.z
  | _ => false

/-! ## Primitives (R411, R413) -/

/-- A hit: whether its exact point lies in a box, and what the result block takes. -/
structure PrimHit where
  inside : Box → Bool
  hit    : RayHit

def f32Of (x : XReal) : Nat := roundFmt 1 x .rne

/-- Word i of a leaf block. -/
def blockWord (b : Nat) (i : Nat) : Nat := bitsOf b (32 * i) 32

/-- The triangle test: Cramer's rule in integers. -/
def hitTriangle (r : Ray) (b : Nat) : Option PrimHit :=
  let w := blockWord b
  match v3Of (w 0) (w 1) (w 2), v3Of (w 3) (w 4) (w 5), v3Of (w 6) (w 7) (w 8) with
  | some p0, some p1, some p2 =>
    let e1 := p1.sub p0
    let e2 := p2.sub p0
    let s := r.o.sub p0
    let h := r.d.cross e2
    let q := s.cross e1
    let a := e1.dot h
    if a = 0 then none
    else
      let sg : Int := if a < 0 then -1 else 1
      let un := sg * s.dot h
      let vn := sg * r.d.dot q
      let t := ratX (e2.dot q) a
      if un < 0 ∨ vn < 0 ∨ sg * a < un + vn ∨ !r.has t then none
      else some ⟨r.pointIn t, { t := f32Of t, id := bitsOf b 288 64, u := f32Of (ratX un (sg * a))
                                v := f32Of (ratX vn (sg * a)), kind := 1 }⟩
  | _, _, _ => none

/-- The rows of the rotation of an unnormalised quaternion, times its squared length. -/
def quatRows (w x y z : Int) : V3 × V3 × V3 :=
  (⟨w * w + x * x - y * y - z * z, 2 * (x * y - w * z), 2 * (x * z + w * y)⟩,
   ⟨2 * (x * y + w * z), w * w - x * x + y * y - z * z, 2 * (y * z - w * x)⟩,
   ⟨2 * (x * z - w * y), 2 * (y * z + w * x), w * w - x * x - y * y + z * z⟩)

/-- M^T v for the rows of M. -/
def mulT (m : V3 × V3 × V3) (v : V3) : V3 := (V3.scale v.x m.1).add ((V3.scale v.y m.2.1).add (V3.scale v.z m.2.2))

/-- The Gaussian test: m(t) is the squared length of (A + t B) / (n P), all exact. -/
def hitGaussian (r : Ray) (b : Nat) : Option PrimHit :=
  let w := blockWord b
  match v3Of (w 0) (w 1) (w 2), v3Of (w 3) (w 4) (w 5), f32Int (w 6), v3Of (w 7) (w 8) (w 9), f32Int (w 10) with
  | some mu, some q, some qz, some sg, some op =>
    let n := q.dot q + qz * qz
    if n = 0 ∨ sg.x ≤ 0 ∨ sg.y ≤ 0 ∨ sg.z ≤ 0 ∨ op ≤ 0 then none
    else
      let m := quatRows q.x q.y q.z qz
      let k (v : V3) : V3 := ⟨v.x * (sg.y * sg.z), v.y * (sg.x * sg.z), v.z * (sg.x * sg.y)⟩
      let va := k (mulT m (r.o.sub mu))
      let vb := k (mulT m r.d)
      let ab := va.dot vb
      let bb := vb.dot vb
      if bb = 0 then none
      else
        let t := ratX (-ab) bb
        let p := n * (sg.x * (sg.y * sg.z))
        let num := va.dot va * bb - ab * ab
        let den := bb * (p * p)
        if !r.has t || decide (9 * den < num) then none
        else
          let resp := (decodeFmt 1 (w 10)).mul (if num = 0 then .fin false 1 1 else expX true num.natAbs (2 * den).natAbs)
          some ⟨r.pointIn t, { t := f32Of t, id := bitsOf b 352 64, u := f32Of resp, kind := 3 }⟩
  | _, _, _, _, _ => none

/-! ### Round curves: exact questions about polynomials (log 15) -/

/-- A rational number; the divisor is not zero. -/
structure Rat2 where
  n : Int
  d : Nat
  deriving DecidableEq, Repr

def Rat2.le (a b : Rat2) : Bool := decide (a.n * b.d ≤ b.n * a.d)
def Rat2.mid (a b : Rat2) : Rat2 :=
  let n := a.n * b.d + b.n * a.d
  let d := 2 * a.d * b.d
  let g := max 1 (Nat.gcd n.natAbs d)
  ⟨n / g, d / g⟩

/-- Polynomials with integer coefficients, the lowest first. -/
abbrev Poly := List Int

def pTrim (p : Poly) : Poly := (p.reverse.dropWhile (· == 0)).reverse
def pAdd : Poly → Poly → Poly
  | [], q => q
  | p, [] => p
  | a :: p, b :: q => (a + b) :: pAdd p q
def pScale (k : Int) (p : Poly) : Poly := p.map (k * ·)
def pMul : Poly → Poly → Poly
  | [], _ => []
  | a :: p, q => pAdd (pScale a q) (0 :: pMul p q)
def pDeriv (p : Poly) : Poly := (p.zipIdx.map fun e => (e.2 : Int) * e.1).drop 1

/-- The sign of a polynomial at a rational number. -/
def pSign (p : Poly) (x : Rat2) : Int := ((p.foldr (fun c a => (a.1 * x.n + c * a.2, a.2 * x.d)) (0, 1)).1).sign

/-- A polynomial by the greatest common divisor of its coefficients. -/
def pPrim (p : Poly) : Poly :=
  let g := p.foldl (fun a c => Nat.gcd a c.natAbs) 0
  if g ≤ 1 then p else p.map (· / (g : Int))

/-- The remainder of a division, times a positive number, on fuel. -/
def pRem (q : Poly) : Nat → Poly → Poly
  | 0, p => p
  | k + 1, p =>
    if p.length < q.length then p
    else
      let lq := q.getLastD 1
      let shift := List.replicate (p.length - q.length) 0 ++ q
      pRem q k (pPrim (pTrim (pAdd (pScale lq.natAbs p) (pScale (-(lq.sign * p.getLastD 0)) shift))))

/-- The signed remainder sequence of two polynomials, on fuel. -/
def remSeq : Nat → Poly → Poly → List Poly
  | 0, p, _ => [p]
  | k + 1, p, q => if q = [] then [p] else p :: remSeq k q (pScale (-1) (pRem q (p.length + 1) p))

/-- Changes of sign along a sequence. -/
def signChanges : List Int → Nat
  | a :: b :: r => (if a * b < 0 then 1 else 0) + signChanges (b :: r)
  | _ => 0

def variations (ps : List Poly) (x : Rat2) : Nat := signChanges ((ps.map (pSign · x)).filter (· != 0))

/-- The roots of p between two numbers that are no roots of it, each counted with the sign of q there: Sturm's theorem as Tarski
has it. -/
def signedRoots (p q : Poly) (a b : Rat2) : Int :=
  let ps := remSeq (2 * p.length + 4) p (pTrim (pRem p (p.length + q.length + 2) (pTrim (pMul (pDeriv p) q))))
  (variations ps a : Int) - variations ps b

/-- A polynomial without its roots at a number, on fuel. -/
def pStrip (x : Rat2) : Nat → Poly → Poly
  | 0, p => p
  | k + 1, p =>
    if p.length ≤ 1 ∨ pSign p x ≠ 0 then p
    else
      let n := p.length - 1
      let q := (p.drop 1).foldr (fun c l => match l with
        | [] => [c * (x.d : Int) ^ n]
        | b :: _ => (c * (x.d : Int) ^ n + b * x.n / x.d) :: l) []
      pStrip x k (pPrim q)

/-- A condition on the sign of a polynomial: at most 0, or below 0. -/
structure Cond where
  p      : Poly
  strict : Bool

def Cond.holds (c : Cond) (x : Rat2) : Bool := if c.strict then decide (pSign c.p x < 0) else decide (pSign c.p x ≤ 0)

/-- The roots of p between two numbers at which some conditions hold, each with the sign of m. -/
def rootsWhere (p : Poly) (a b : Rat2) : List Cond → Poly → Int
  | [], m => signedRoots p m a b
  | c :: r, m =>
    let by_ (q : Poly) : Poly := pTrim (pRem p (q.length + p.length) (pTrim q))
    let one := rootsWhere p a b r (by_ (pMul m c.p))
    let two := rootsWhere p a b r (by_ (pMul (by_ (pMul m c.p)) c.p))
    if c.strict then (two - one) / 2 else rootsWhere p a b r m - (two + one) / 2

/-- Whether all conditions hold together at some number of [a, b]. The numbers at which they begin to hold are a, b or roots of
their polynomials; between these, the derivative of the product has a root. -/
def holdsIn (a b : Rat2) (cs : List Cond) : Bool :=
  let ps := (cs.map fun c => pTrim c.p).filter (· != [])
  let ends : Poly := pMul [-a.n, a.d] [b.n, -(b.d : Int)]
  let between := if cs.any (·.strict) then [pTrim (pDeriv (ps.foldl pMul ends))] else []
  let at_ (p : Poly) : Bool :=
    let q := pStrip b p.length (pStrip a p.length p)
    decide (2 ≤ q.length) && decide (0 < rootsWhere q a b cs [1])
  (cs.all (·.holds a)) || (cs.all (·.holds b)) || (a != b && (ps ++ between).any at_)

/-- A curve: the coefficients of its centre C(s) in each coordinate, and the ends of its radius. -/
structure Curve where
  x  : Poly
  y  : Poly
  z  : Poly
  r0 : Int
  r1 : Int

/-- A cubic Bézier polynomial in powers of s. -/
def bezier (a b c d : Int) : Poly := [a, 3 * (b - a), 3 * (a - 2 * b + c), d - 3 * c + 3 * b - a]

def curveOf (b : Nat) : Option Curve :=
  let w := blockWord b
  match v3Of (w 0) (w 1) (w 2), v3Of (w 3) (w 4) (w 5), v3Of (w 6) (w 7) (w 8), v3Of (w 9) (w 10) (w 11),
    f32Int (w 12), f32Int (w 13) with
  | some a, some b, some c, some d, some r0, some r1 =>
    if r0 < 0 ∨ r1 < 0 then none
    else some ⟨bezier a.x b.x c.x d.x, bezier a.y b.y c.y d.y, bezier a.z b.z c.z d.z, r0, r1⟩
  | _, _, _, _, _, _ => none

/-- F(t, s) = |o + t d − C(s)|² − r(s)² in s, scaled. -/
def Curve.atT (c : Curve) (r : Ray) (t : Rat2) : Poly :=
  let sq (o d : Int) (p : Poly) : Poly :=
    let v := pAdd [t.d * o + t.n * d] (pScale (-(t.d : Int)) p)
    pMul v v
  let rad := pScale t.d [c.r0, c.r1 - c.r0]
  pAdd (pAdd (sq r.o.x r.d.x c.x) (pAdd (sq r.o.y r.d.y c.y) (sq r.o.z r.d.z c.z))) (pScale (-1) (pMul rad rad))

/-- b(s), half the coefficient of t in F. -/
def Curve.lin (c : Curve) (r : Ray) : Poly :=
  let part (o d : Int) (p : Poly) : Poly := pScale d (pAdd [o] (pScale (-1) p))
  pAdd (part r.o.x r.d.x c.x) (pAdd (part r.o.y r.d.y c.y) (part r.o.z r.d.z c.z))

/-- a c(s) − b(s)²: at most 0 where the line meets the sphere of s. -/
def Curve.disc (c : Curve) (r : Ray) : Poly :=
  pAdd (pScale (r.d.dot r.d) (c.atT r ⟨0, 1⟩)) (pScale (-1) (pMul (c.lin r) (c.lin r)))

/-- b(s) + a t, scaled: at most 0 where the nearest point of the line to the sphere's centre is at t or beyond. -/
def Curve.past (c : Curve) (r : Ray) (t : Rat2) : Poly := pAdd (pScale t.d (c.lin r)) [t.n * r.d.dot r.d]

/-- The conditions that the line meets the sphere of s, its nearest point to the centre at `lo` or beyond. -/
def Curve.beyond (c : Curve) (r : Ray) (lo : Option Rat2) : List Cond :=
  ⟨c.disc r, false⟩ :: (match lo with
    | some t => [⟨c.past r t, false⟩]
    | none => [])

/-- Whether some t in [lo, hi] is inside the sphere of some s in [a, b]; none stands for an infinite end. -/
def Curve.hitBy (c : Curve) (r : Ray) (a b : Rat2) (lo hi : Option Rat2) : Bool :=
  let at_ (e : Option Rat2) : Bool := match e with
    | some t => holdsIn a b [⟨c.atT r t, false⟩]
    | none => false
  let top : List Cond := match hi with
    | some t => [⟨pScale (-1) (c.past r t), false⟩]
    | none => []
  at_ lo || at_ hi || holdsIn a b (c.beyond r lo ++ top)

/-- Whether some t in [lo, m), lo below m, is inside the sphere of some s in [0, 1]. -/
def Curve.hitBelow (c : Curve) (r : Ray) (lo : Option Rat2) (m : Rat2) : Bool :=
  let with_ (k : Cond) : Bool := holdsIn ⟨0, 1⟩ ⟨1, 1⟩ (c.beyond r lo ++ [k])
  (match lo with
    | some t => holdsIn ⟨0, 1⟩ ⟨1, 1⟩ [⟨c.atT r t, false⟩]
    | none => false) || with_ ⟨c.atT r m, true⟩ || with_ ⟨pScale (-1) (c.past r m), true⟩

/-- The order index of f32 bits, the infinities included. -/
def f32Index (bits : Nat) : Int := if bitOf bits 31 then -((bits % 2 ^ 31 : Nat) : Int) else ((bits % 2 ^ 31 : Nat) : Int)
def f32Bits (k : Int) : Nat := if k < 0 then 2 ^ 31 + k.natAbs else k.natAbs
/-- The f32 with an order index, as a multiple of 2^−149; the index of an infinity stands for 2^128. -/
def f32At (k : Int) : Int :=
  let m := k.natAbs
  let v : Nat := if m < 2 ^ 23 then m else (m % 2 ^ 23 + 2 ^ 23) * 2 ^ (m / 2 ^ 23 - 1)
  if k < 0 then -(v : Int) else v

/-- The point halfway between the f32 of index k and the next. -/
def f32Mid (k : Int) : Rat2 := ⟨f32At k + f32At (k + 1), 2 ^ 150⟩

/-- The least index in (lo, hi] at whose midpoint a monotone test holds, on fuel; it holds at hi. -/
def searchIndex (g : Int → Bool) : Nat → Int → Int → Int
  | 0, _, hi => hi
  | k + 1, lo, hi =>
    if hi ≤ lo + 1 then hi
    else
      let m := (lo + hi) / 2
      if g m then searchIndex g k lo m else searchIndex g k m hi

/-- Halvings after which two distances that have not come apart are equal: each is a root of an integer polynomial of degree 28
at most whose coefficients have fewer than 2^17 bits, so that different ones differ by more than 2^−4194304 (Mahler's
bound). -/
def sepBits : Nat := 4194304

/-- Whether the first of two least distances in (l, h] is at most the second, each given by the test of distances that are
not less. -/
def minLe (f g : Rat2 → Bool) : Nat → Rat2 → Rat2 → Bool
  | 0, _, _ => true
  | k + 1, l, h =>
    let m := l.mid h
    let x := f m
    if x != g m then x else if x then minLe f g k l m else minLe f g k m h

/-- Whether the sphere of some s in [0, e] contains the point of the hit, which lies at a distance in (l, h]: the distance of the
hits of [0, e] is then no greater than that of [e, 1]. -/
def Curve.sUpTo (c : Curve) (r : Ray) (lo : Option Rat2) (l h e : Rat2) : Bool :=
  let f (t : Rat2) : Bool := c.hitBy r ⟨0, 1⟩ e lo (some t)
  let g (t : Rat2) : Bool := c.hitBy r e ⟨1, 1⟩ lo (some t)
  if f h != g h then f h else minLe f g (sepBits + 1024) l h

/-- x − 2^−n. -/
def Rat2.less (x : Rat2) (n : Nat) : Rat2 := ⟨x.n * 2 ^ n - x.d, x.d * 2 ^ n⟩

/-- The least s in [0, 1], of which `g` tells whether it is at most a number, rounded to f32. A tie goes to the even one:
when s is not the midpoint it differs from it by more than 2^−16384. -/
def roundS (g : Rat2 → Bool) : Nat :=
  let top : Int := 0x3F800000
  let k := searchIndex (fun k => if top ≤ k then true else g (f32Mid k)) 40 (-1) top
  let m := f32Mid k
  let under (n : Nat) : Bool := decide (0 ≤ (m.less n).n) && g (m.less n)
  f32Bits (if k < top ∧ k % 2 ≠ 0 ∧ !(under 64 || under 16384) then k + 1 else k)

def ratOf (bits : Nat) : Option Rat2 := (f32Int bits).map fun n => ⟨n, 2 ^ 149⟩

/-- The curve test: the least t of the range, and the least s there. -/
def hitCurve (r : Ray) (lo hi : Nat) (b : Nat) : Option PrimHit :=
  match curveOf b with
  | none => none
  | some c =>
    let l := ratOf lo
    let id := bitsOf b 448 64
    if lo = 0x7F800000 ∨ hi = 0xFF800000 ∨ !c.hitBy r ⟨0, 1⟩ ⟨1, 1⟩ l (ratOf hi) then none
    else match l.filter fun t => holdsIn ⟨0, 1⟩ ⟨1, 1⟩ [⟨c.atT r t, false⟩] with
      | some t =>
        let u := roundS fun e => holdsIn ⟨0, 1⟩ e [⟨c.atT r t, false⟩]
        some ⟨r.pointIn (ratX t.n t.d), { t := lo, id := id, u := u, kind := 2 }⟩
      | none =>
        let upTo (t : Rat2) : Bool := (match l with
          | some a => a.le t
          | none => true) && c.hitBy r ⟨0, 1⟩ ⟨1, 1⟩ l (some t)
        let below (t : Rat2) : Bool := (match l with
          | some a => !t.le a
          | none => true) && c.hitBelow r l t
        let top : Int := min (f32Index hi) 0x7F800000
        let k := searchIndex (fun k => if top ≤ k then true else upTo (f32Mid k)) 40 (max (f32Index lo) (-0x7F800000) - 1) top
        let m := f32Mid k
        let near := if k < top ∧ k % 2 ≠ 0 ∧ !below m then k + 1 else k
        let bits := if near = 0 ∧ below ⟨0, 1⟩ then 2 ^ 31 else f32Bits near
        let axis (o d lo hi : Int) : Bool :=
          let q (x : Int) : Rat2 := if d < 0 then ⟨o - x, d.natAbs⟩ else ⟨x - o, d.natAbs⟩
          if d = 0 then decide (lo ≤ o) && decide (o ≤ hi)
          else if d < 0 then upTo (q lo) && !below (q hi) else upTo (q hi) && !below (q lo)
        let inside (x : Box) : Bool :=
          axis r.o.x r.d.x x.lo.x x.hi.x && axis r.o.y r.d.y x.lo.y x.hi.y && axis r.o.z r.d.z x.lo.z x.hi.z
        let u := roundS fun e => c.sUpTo r l (f32Mid (k - 1)) (if k < top then m else (ratOf hi).getD ⟨2 ^ 600, 1⟩) e
        some ⟨inside, { t := bits, id := id, u := u, kind := 2 }⟩

end Sys2Proof.Machine
end

