-- ==== Sys2Proof/Machine/Traverse.lean ====
section
/-!
DEFINITION. Traversal: TRACE, TRCONT, TRGET, and a ray's walk through an acceleration structure
(16 R388 to R391; 17 R410, R412, R414, R415).
-/
namespace Sys2Proof.Machine

/-! ## Result blocks (R388) -/

def f32Inf : Nat := 0x7F800000

/-- Registers of a result block. -/
def traceCount (mode km1 : Nat) : Nat := if mode = 0 then 6 else if mode = 1 then 1 else 4 * (km1 + 1)

/-- The miss values. -/
def missWords (mode km1 : Nat) : List Nat :=
  if mode = 0 then [f32Inf, 2 ^ 32 - 1, 2 ^ 32 - 1, 0, 0, 0]
  else if mode = 1 then [0]
  else (List.range (km1 + 1)).flatMap fun _ => [f32Inf, 2 ^ 32 - 1, 2 ^ 32 - 1, 0]

/-- The words of a round's hits: missing ones take the miss values. -/
def hitWords (mode km1 : Nat) (hits : List RayHit) : List Nat :=
  match mode, hits with
  | 0, h :: _ => [h.t, h.id % 2 ^ 32, h.id / 2 ^ 32, h.u, h.v, h.kind]
  | 1, _ :: _ => [1]
  | 2, hs =>
    let ws := (hs.take (km1 + 1)).flatMap fun h => [h.t, h.id % 2 ^ 32, h.id / 2 ^ 32, h.u]
    ws ++ (missWords 2 km1).drop ws.length
  | m, _ => missWords m km1

def laneBlock (first lane : Nat) (ws : List Nat) (bad : Bool) : List RegWrite :=
  ws.zipIdx.map fun e => .vec (first + e.2) lane (BitVec.ofNat 32 e.1) bad

/-! ## TRACE, TRCONT and TRGET -/

def traceLegal (c : Iss) (f : Fields) : Bool :=
  let m := f.mod.toNat
  let blk (code : BitVec 9) (k : Nat) : Bool := match opnd code with
    | .v i => blockLegal c i k
    | _ => false
  (tokenOf f.d).isSome && (opnd f.a).isScalarReg && srcLegal c true (opnd f.a) && blk f.b 8
    && decide (m < 8) && m % 4 != 3 && (m % 4 == 2 || f.x == 0) && blk f.c (traceCount (m % 4) f.x.toNat)

/-- The pending token that the state of one of some lanes is attached to (R389). -/
def busyToken (g : Group) (lanes : List Nat) : Option Nat :=
  lanes.findSome? fun l => match spFind g.rays l with
    | some r => if r.active || g.tokPending r.tok then some r.tok else none
    | none => none

/-- A token that begins anew leaves the states that it was done with. -/
def detach (rays : SMap RayState) (n : Nat) : SMap RayState :=
  rays.map fun e => if e.2.tok = n then (e.1, { e.2 with tok := 16 }) else e

/-- What a thread knows as an instruction issues whose reads come later. -/
def floorOf (s : State) (gid lane : Nat) : Know := knowAtIssue s (.thread gid lane)

/-- The new traversal states of the active lanes, and the pending token. -/
def startTrace (s : State) (c : Iss) (f : Fields) (n : Nat) (act : Mask) : State :=
  let m := f.mod.toNat
  modGroup s c.gid fun g =>
    let st (l : Nat) : RayState :=
      { ray := (List.range 8).map fun i => BitVec.ofNat 32 (c.g.getV (f.b.toNat + i) l)
        root := srcVal s c .q64 (opnd f.a) 0, mode := m % 4, coh := bitOf m 2, km1 := f.x.toNat
        first := f.c.toNat, tok := n, known := floorOf s c.gid l
        pend := [(255, (srcVal s c .q64 (opnd f.a) 0))] }
    { g.setTok n { st := .pending, first := f.c.toNat, count := traceCount (m % 4) f.x.toNat, left := act } with
      rays := (lanesOf act).foldl (fun t l => spPut t l (st l)) (detach g.rays n) }

def execTrace (f : Fields) (s : State) : Out :=
  onPath s fun c => runMasked s c f (traceLegal c f) fun act =>
    let n := (tokenOf f.d).getD 0
    whenTokenFree s c n <|
      match busyToken c.g (lanesOf act) with
      | some t => waitOn s c (.token t)
      | none =>
        if srcBad c true (opnd f.a) 0 then trapPoison s c 0
        else match (lanesOf act).find? fun l => (List.range 8).any fun i => c.g.badV (f.b.toNat + i) l with
          | some l => trapPoison s c l
          | none => retire (startTrace s c f n act) c

/-- The form and first register of the miss block of a lane without a state: those of the lowest lane that goes on, else
those of the token's last block. -/
def strayBlock (g : Group) (n : Nat) (lanes : List Nat) : Nat × List Nat :=
  match lanes.findSome? fun l => (spFind g.rays l).bind fun r => if r.mode = 2 then some r else none with
  | some r => (r.first, missWords 2 r.km1)
  | none =>
    let t := g.tok n
    (t.first, if t.count % 4 = 0 then (missWords 2 (t.count / 4 - 1)).take t.count
      else if t.count = 1 then missWords 1 0 else missWords 0 0)

/-- A lane that TRCONT gives miss values at once. -/
def contMiss (n : Nat) (lanes : List Nat) (g : Group) (l : Nat) : Group :=
  let b := match spFind g.rays l with
    | some r => (r.first, missWords r.mode r.km1)
    | none => strayBlock g n lanes
  { (laneBlock b.1 l b.2 false).foldl applyWrite g with
    rays := spMod g.rays l fun r => { r with hits := [] } }

/-- Whether a lane's state has a further round. -/
def goesOn (g : Group) (l : Nat) : Bool :=
  match spFind g.rays l with
  | some r => r.mode == 2 && r.more
  | none => false

/-- The next round of the active lanes. -/
def nextRound (s : State) (c : Iss) (n : Nat) (act : Mask) : State :=
  modGroup s c.gid fun g =>
    let lanes := lanesOf act
    let on := lanes.filter (goesOn g)
    let g1 := (lanes.filter fun l => !goesOn g l).foldl (contMiss n lanes) g
    let g2 := { g1 with rays := on.foldl (fun t l => spMod t l fun r =>
      { r with active := true, tok := n, known := floorOf s c.gid l, pend := [(255, r.root)], cand := [] }) (detach g1.rays n) }
    let rs := on.filterMap (spFind g.rays)
    let lo := rs.foldl (fun a r => min a r.first) 256
    let hi := rs.foldl (fun a r => max a (r.first + traceCount 2 r.km1)) 0
    g2.setTok n (if on = [] then { g.tok n with st := .done false, neural := false, left := 0, err := false }
      else { st := .pending, first := lo, count := hi - lo, left := maskOf on })

def execTrcont (f : Fields) (s : State) : Out :=
  onPath s fun c => runMasked s c f
      (f.mod == 0 && f.x == 0 && allZero [f.a, f.b, f.c] && (tokenOf f.d).isSome) fun act =>
    let n := (tokenOf f.d).getD 0
    if (c.g.tok n).neural then takeTrap s c causeToken 0 0
    else whenTokenFree s c n <|
      match busyToken c.g (lanesOf act) with
      | some t => waitOn s c (.token t)
      | none => retire (nextRound s c n act) c

/-- What TRGET writes to a lane; the bound of a state that has none is a value the manual does not state. -/
def trgetVal (s : State) (g : Group) (q l : Nat) : Nat :=
  match spFind g.rays l with
  | none => if q = 2 then f32Inf else 0
  | some r =>
    match q with
    | 0 => r.hits.length
    | 1 => if r.mode = 2 ∧ r.more then 1 else 0
    | _ => match r.bound with
      | some b => b.1
      | none => (Config.freeWord s.fresh).toNat

def execTrget (f : Fields) (s : State) : Out :=
  onPath s fun c => runMasked s c f
      (f.mod == 0 && decide (f.x.toNat < 3) && allZero [f.b, f.c] && (tokenOf f.a).isSome
        && vdstLegal c false (opnd f.d)) fun act =>
    let n := (tokenOf f.a).getD 0
    if (c.g.tok n).neural then takeTrap s c causeToken 0 0
    else whenTokenFree s c n <|
      let s1 := modGroup s c.gid fun g =>
        (lanesOf act).foldl (fun t l => writeLane t false (opnd f.d) l (trgetVal s g f.x.toNat l)) g
      retire { s1 with fresh := s1.fresh + 1 } c

/-! ## Reads of a traversal (R389) -/

/-- What a traversal meets, with the state that its reads have left. -/
inductive TravErr where
  | err (s : State)
  | poisoned (s : State)
  | fault (gs : List Granule)

/-- The thread that a traversal reads for. -/
structure RayThread where
  gid  : Nat
  lane : Nat
  core : Nat
  part : Nat
  ctx  : Nat
  known : Know

/-- n bytes as the thread reads them, under its floor at issue. -/
def rayRead (s : State) (h : RayThread) (va n : Nat) : Except TravErr (List Byte × State) :=
  match xlateSet s (.ray h.core) h.part h.ctx .read (ctxSup s h.part h.ctx) ((rangeAccs va n).map fun a => { a with lane := h.lane }) with
  | .trap _ _ _ => .error (.err s)
  | .fault gs => .error (.fault gs)
  | .ok ls =>
    let q := readUnder s (.thread h.gid h.lane) h.known fun t => readSet t [.thread h.gid h.lane] ls
    if q.1.bad then .error (.poisoned q.2) else .ok (q.1.bytes, q.2)

/-! ## Box nodes (R410, R412) -/

/-- A child of a box node: its kind, its address, its blocks and its box; none for a box whose corner is not finite. -/
structure BoxChild where
  kind   : Nat
  addr   : Nat
  blocks : Nat
  box    : Option Box
  deriving DecidableEq, Repr

def qByte (d i : Nat) : Nat := bitsOf d (8 * i) 8

/-- A corner of a child's box. -/
def corner (d : Nat) (o : V3) (at_ : Nat) : V3 :=
  let e (i : Nat) : Int := 2 ^ (sext 8 (qByte d (12 + i)) + 149).toNat
  ⟨o.x + qByte d at_ * e 0, o.y + qByte d (at_ + 1) * e 1, o.z + qByte d (at_ + 2) * e 2⟩

/-- Child c of the node whose 128 bytes are d; none when it is empty. -/
def boxChild (d c : Nat) : Option BoxChild :=
  let m := qByte d (24 + c)
  let q := 32 + 6 * c
  if m % 8 = 0 ∨ (List.range 3).any (fun i => decide (qByte d (q + 3 + i) < qByte d (q + i))) then none
  else some
    { kind := m % 8, addr := (bitsOf d 128 64 + 64 * bitsOf d (8 * (80 + 2 * c)) 16) % 2 ^ 64, blocks := m / 8 + 1
      box := (v3Of (bitsOf d 0 32) (bitsOf d 32 32) (bitsOf d 64 32)).map fun o => ⟨corner d o q, corner d o (q + 3)⟩ }

/-- Whether the node breaks R412. -/
def nodeBroken (d : Nat) : Bool :=
  qByte d 15 != 0 || bitsOf d 768 256 != 0
    || (List.range 8).any fun c => decide (5 ≤ qByte d (24 + c) % 8) ||
      match boxChild d c with
      | some k => k.kind == 1 && (k.addr % 128 != 0 || k.blocks != 1)
      | none => false

/-! ## The walk -/

/-- Whether a traversal enters a child: always when its box holds a point of the ray in its range (R415). -/
def enters (s : State) (r : Ray) (k : BoxChild) : Bool × State :=
  match k.box with
  | some b => if r.touches b then (true, s) else (Config.visitMissed s.fresh, { s with fresh := s.fresh + 1 })
  | none => (Config.visitMissed s.fresh, { s with fresh := s.fresh + 1 })

/-- The primitive test of a kind. -/
def hitPrim (r : Ray) (lo hi kind b : Nat) : Option PrimHit :=
  if kind = 2 then hitTriangle r b else if kind = 3 then hitGaussian r b else hitCurve r lo hi b

/-- Whether a hit is reported: always when its point lies in every box of its path (R415). -/
def reported (s : State) (boxes : List (Option Box)) (h : PrimHit) : Bool × State :=
  if boxes.all (fun b => match b with
      | some b => h.inside b
      | none => false) then (true, s)
  else (Config.reportOutside s.fresh, { s with fresh := s.fresh + 1 })

/-- The blocks of a leaf. -/
def walkLeaf (h : RayThread) (r : Ray) (lo hi kind : Nat) (boxes : List (Option Box)) :
    Nat → Nat → State → List RayHit → Except TravErr (List RayHit × State)
  | 0, _, s, acc => .ok (acc, s)
  | k + 1, va, s, acc =>
    match rayRead s h va 64 with
    | .error e => .error e
    | .ok (bs, s1) =>
      let q := match hitPrim r lo hi kind (leNat bs) with
        | none => (acc, s1)
        | some p =>
          let w := reported s1 boxes p
          (if w.1 then p.hit :: acc else acc, w.2)
      walkLeaf h r lo hi kind boxes k ((va + 64) % 2 ^ 64) q.2 q.1

/-- Visits a node's children in turn. -/
def walkChildren (visit : Nat → List (Option Box) → State → List RayHit → Except TravErr (List RayHit × State))
    (h : RayThread) (r : Ray) (lo hi : Nat) (want : Nat → Bool) (boxes : List (Option Box)) :
    List BoxChild → State → List RayHit → Except TravErr (List RayHit × State)
  | [], s, acc => .ok (acc, s)
  | k :: rest, s, acc =>
    let e := enters s r k
    let res :=
      if !e.1 then .ok (acc, e.2)
      else if k.kind = 1 then visit k.addr (k.box :: boxes) e.2 acc
      else if want k.kind then walkLeaf h r lo hi k.kind (k.box :: boxes) k.blocks k.addr e.2 acc
      else .ok (acc, e.2)
    match res with
    | .error x => .error x
    | .ok (acc1, s1) => walkChildren visit h r lo hi want boxes rest s1 acc1

/-- The subtrees of some children of a box node; the first argument counts the box levels that may still be pending. -/
def walkNode (h : RayThread) (r : Ray) (lo hi : Nat) (want : Nat → Bool) :
    Nat → Nat → Nat → List (Option Box) → State → List RayHit → Except TravErr (List RayHit × State)
  | 0, _, _, _, s, _ => .error (.err s)
  | n + 1, mask, va, boxes, s, acc =>
    match rayRead s h va 128 with
    | .error e => .error e
    | .ok (bs, s1) =>
      let d := leNat bs
      if nodeBroken d then .error (.err s1)
      else
        walkChildren (walkNode h r lo hi want n 255) h r lo hi want boxes (((List.range 8).filter (bitOf mask)).filterMap (boxChild d))
          s1 acc

/-- What is left of a round: the entries of its traversal stack, each with its place from the outermost on, from the innermost
out (17 R417). -/
def walkPending (h : RayThread) (r : Ray) (lo hi : Nat) (want : Nat → Bool) :
    List ((Nat × Nat) × Nat) → State → List RayHit → Except TravErr (List RayHit × State)
  | [], s, acc => .ok (acc, s)
  | e :: rest, s, acc =>
    match walkNode h r lo hi want (32 - e.2) e.1.1 e.1.2 [] s acc with
    | .error x => .error x
    | .ok (acc1, s1) => walkPending h r lo hi want rest s1 acc1

/-! ## Rounds (R388, R390, R414) -/

/-- The lexicographic order of keys. -/
def keyLt (a b : Nat × Nat) : Bool :=
  decide (f32Index a.1 < f32Index b.1) || (decide (f32Index a.1 = f32Index b.1) && decide (a.2 < b.2))

def RayHit.key (h : RayHit) : Nat × Nat := (h.t, h.id)

def insertHit (h : RayHit) : List RayHit → List RayHit
  | [] => [h]
  | k :: r => if keyLt h.key k.key then h :: k :: r else k :: insertHit h r

def sortHits (hs : List RayHit) : List RayHit := hs.foldl (fun l h => insertHit h l) []

/-- What a lane's ray is: empty, with an infinite origin or direction (of which the manual states no result), or walked. -/
inductive RayForm where
  | empty
  | open_
  | walk (r : Ray)

def rayForm (ws : List Nat) : RayForm :=
  let w (i : Nat) : Nat := ws.getD i 0
  let x (i : Nat) : XReal := decodeFmt 1 (w i)
  let t0 := x 3
  let t1 := x 7
  if (List.range 8).any (fun i => (x i).isNaN) || [4, 5, 6].all (fun i => (x i).isZero) || t1.lt t0 then .empty
  else match v3Of (w 0) (w 1) (w 2), v3Of (w 4) (w 5) (w 6) with
    | some o, some d => .walk ⟨o, d, t0, t1⟩
    | _, _ => .open_

/-- The hits of a mode among those found, past the bound, in ascending key order. -/
def roundHits (r : RayState) (hs : List RayHit) : List RayHit :=
  (sortHits hs).filter fun h => match r.mode, r.bound with
    | 2, some b => keyLt b h.key
    | _, _ => true

/-- The state after a round that found hits. -/
def afterRound (r : RayState) (hs : List RayHit) : RayState :=
  let all := roundHits r hs
  let got := if r.mode = 2 then all.take (r.km1 + 1) else all.take 1
  { r with
    hits := got, active := false, more := decide (r.mode = 2) && decide (got.length < all.length)
    bound := if r.mode = 2 then (match got.getLast? with
      | some h => some h.key
      | none => r.bound) else r.bound }

/-- Ends a lane's round: its block, its state, its token. -/
def endRay (s : State) (gid lane : Nat) (r : RayState) (words : List Nat) (bad err : Bool) : State :=
  let s1 := writeRegs s gid (laneBlock r.first lane words bad)
  modGroup s1 gid fun g =>
    { g.tokenLane r.tok lane err with
      rays := spPut g.rays lane { r with active := false, fault := none, failed := false, pend := [], cand := [] } }

/-- A round that gives the miss values. -/
def missRay (s : State) (gid lane : Nat) (r : RayState) (bad err : Bool) : State :=
  endRay s gid lane { r with hits := [], more := false, err := r.err || err } (missWords r.mode r.km1) bad err

/-- Free words for a block. -/
def freeWords (s : State) (n : Nat) : List Nat × State :=
  ((List.range n).map fun i => (Config.freeWord (s.fresh + i)).toNat, { s with fresh := s.fresh + n })

/-- The walk of a ray, from its root or from where a restored record has it. -/
def traceRay (s : State) (h : RayThread) (r : RayState) (ray : Ray) : Event :=
  let want (k : Nat) : Bool := if r.mode = 2 then k == 3 else k != 3
  if r.root % 128 ≠ 0 then .next (missRay s h.gid h.lane r false true)
  else match walkPending h ray (r.ray.getD 3 0).toNat (r.ray.getD 7 0).toNat want r.pend.zipIdx.reverse s r.cand with
    | .ok (hs, s1) =>
      let r1 := afterRound r hs
      .next (endRay s1 h.gid h.lane r1 (hitWords r.mode r.km1 r1.hits) false false)
    | .error (.err s1) => .next (missRay s1 h.gid h.lane r false true)
    | .error (.poisoned s1) => .next (missRay s1 h.gid h.lane r true false)
    | .error (.fault gs) =>
      if !canReport s h.part then .refused .idle
      else
        let b := reportBatch s h.part { acc := .read, ctx := h.ctx, client := 2, unit := h.core } gs (.ray h.gid h.lane)
        .next (modGroup b.2 h.gid fun g => { g with rays := spPut g.rays h.lane { r with fault := some b.1 } })

/-- TRAVERSAL_COMPLETE (R389): the round of one lane of a resident group. -/
def tryTraversalComplete (gid lane : Nat) (s : State) : Event :=
  match getGroup s gid with
  | none => .refused .idle
  | some g => match spFind g.rays lane, getTeam s g.team with
    | some r, some t =>
      if !r.active || r.fault.isSome || g.saved || groupAtoms s gid then .refused .idle
      else if r.failed || r.err then .next (missRay s gid lane r false true)
      else match rayForm (r.ray.map (·.toNat)) with
        | .empty => .next (missRay s gid lane r false false)
        | .open_ =>
          let w := freeWords s (traceCount r.mode r.km1)
          .next (endRay w.2 gid lane { r with hits := [], more := false } w.1 false false)
        | .walk ray => traceRay s ⟨gid, lane, t.core.getD 0, t.part, t.ctx, r.known⟩ r ray
    | _, _ => .refused .idle

def execTraversalComplete (gid lane : Nat) (s : State) : Out := settle s (tryTraversalComplete gid lane s)

end Sys2Proof.Machine
end

