-- ==== Sys2Proof/Machine/Textures.lean ====
section
/-!
DEFINITION. Texture and image access: TEX, TEXG, TEXQ, IMLD and IMST (16 R392, R393).
-/
namespace Sys2Proof.Machine

/-! ## The image record -/

/-- A block of n vector registers inside the allocation, from any register on. -/
def vecRange (c : Iss) (n : Nat) (code : BitVec 9) : Bool :=
  match opnd code with
  | .v k => blockLegal c k n
  | _ => false

/-- A destination of n vector registers, or zero. -/
def vecDst (c : Iss) (n : Nat) (code : BitVec 9) : Bool := vecRange c n code || opnd code == .zero

/-- The checks of an image record before an X it does not permit: R30, SWIZZLE 2 or 3, and what TEX and TEXG ask of
its format. -/
def withImage (s : State) (c : Iss) (f : Fields) (sampled : Bool) (forbidden : BufRec → Bool) (body : BufRec → State) :
    State :=
  match recScalar f.b with
  | none => illegalOperand s c
  | some n =>
    let r := recAt c.g n
    if recInvalid r false || !r.tiled || (sampled && (!r.typed || decide (4 < typedSize r.format)))
    then takeTrap s c causeRecord 0 0
    else if forbidden r then illegalOperand s c
    else body r

/-- Whether a lane reads a poisoned coordinate or record word. -/
def imageBad (c : Iss) (f : Fields) (n lane : Nat) : Bool :=
  (match recScalar f.b with
    | some k => recPoisoned c.g k
    | none => false)
  || (match opnd f.a with
    | .v k => (List.range n).any fun i => c.g.badV (k + i) lane
    | _ => false)

/-! ## Coordinates and texels (R393) -/

/-- addr of R393: 0 clamp, 1 wrap, 2 mirror. -/
def texAddr (mode : Nat) (i : Int) (n : Nat) : Nat :=
  if mode = 0 then clampCoord i n
  else if mode = 1 then (i % (n : Int)).toNat
  else
    let m := (i % (2 * n : Int)).toNat
    if m < n then m else 2 * n - 1 - m

/-- One coordinate of a lane: the integer part and the fraction, or a NaN result. `half` is 1/2 under linear. -/
inductive TexCoord where
  | nan
  | at (i : Int) (frac : XReal)

/-- The coordinate of f32 bits that the instruction has flushed under FTZ32 (log 67). -/
def texCoord (mode bits n : Nat) (linear : Bool) : TexCoord :=
  match decodeFmt 1 bits with
  | .nan => .nan
  | .inf neg => if mode = 0 then .at (if neg then -1 else n) .zero else .nan
  | x =>
    let y := x.mul (XReal.ofNat n)
    let z := if linear then y.sub (.fin false 1 2) else y
    .at z.floor (z.sub (XReal.ofInt z.floor))

/-- The texels a lane reads, in order. -/
def footprint (linear : Bool) (i j : Int) : List (Int × Int) :=
  if linear then [(i, j), (i + 1, j), (i, j + 1), (i + 1, j + 1)] else [(i, j)]

/-- The exact value of the register bits of a typed load: integers count as themselves, an i32 after rounding. -/
def texelVal (code bits : Nat) : XReal :=
  if fmtNarrowInt code || code == 0x0F then decodeFmt 1 (roundFmt 1 (XReal.ofInt (sext 32 bits)) .rne) else decodeFmt 1 bits

/-- What a lane of TEX or TEXG does without memory, or its texels and fractions. -/
inductive TexLane where
  | const (bits : Nat)
  | read (texels : List (Int × Int)) (fx fy : XReal)

def texLane (r : BufRec) (mode : Nat) (linear : Bool) (u v : Nat) : TexLane :=
  if r.width = 0 ∨ r.height = 0 then .const 0
  else match texCoord mode u r.width linear, texCoord mode v r.height linear with
    | .at i fx, .at j fy => .read (footprint linear i j) fx fy
    | _, _ => .const f32NaN

def texAccs (r : BufRec) (mode : Nat) (lane : Nat) : TexLane → List LaneAcc
  | .const _ => []
  | .read ts _ _ =>
    ts.map fun t => ⟨lane, r.laneAddr (r.tileOff (texAddr mode t.1 r.width) (texAddr mode t.2 r.height)), r.size 2, false⟩

/-- The bilinear sum. -/
def bilinear (fx fy : XReal) (t : List XReal) : XReal :=
  let one := XReal.ofNat 1
  let w := [(one.sub fx).mul (one.sub fy), fx.mul (one.sub fy), (one.sub fx).mul fy, fx.mul fy]
  sumX (w.zipWith XReal.mul t)

/-- The result registers of a lane. -/
def texResult (ftz gather : Bool) (t : TexLane) (vals : List XReal) : List Nat :=
  let out (x : XReal) : Nat := ftz32 ftz (roundFmt 1 x .rne)
  match t with
  | .const b => if gather then [b, b, b, b] else [b]
  | .read ts fx fy =>
    if gather then vals.map out
    else if ts.length = 1 then [out (vals.headD .zero)]
    else [out (bilinear fx fy vals)]

/-- TEX and TEXG after their decode checks. FMT.FTZ32 flushes coordinates, texels and results (07 R160; log 67). -/
def sampleImage (s : State) (c : Iss) (f : Fields) (mode : Nat) (linear gather : Bool) (act : Mask) : State :=
  let lanes := lanesOf act
  match lanes.find? (imageBad c f 2) with
  | some l => trapPoison s c l
  | none => withImage s c f true (fun _ => false) fun r =>
    let uv (k l : Nat) : Nat := ftz32 (ftzOn c) (c.g.getV (f.a.toNat + k) l)
    let ts := lanes.map fun l => (l, texLane r mode linear (uv 0 l) (uv 1 l))
    match prepXlate s c .read (some .rd) (ts.flatMap fun t => texAccs r mode t.1 t.2) with
    | .stop t => t
    | .go ls =>
      if ls.any fun l => atomAhead s [.thread c.gid l.lane] l then s
      else
      let q := loadLanes (fun l raw => loadValue (ftzOn c) false r 2 l.hi raw) (fun l => [.thread c.gid l]) none s ls
      retireOp q.2 c false (ts.flatMap fun t =>
        let mine := q.1.filter fun e => e.1 == t.1
        let res := texResult (ftzOn c) gather t.2 (mine.map fun e => texelVal r.format e.2.1)
        match opnd f.d with
        | .v k => laneBlock k t.1 res (mine.any fun e => e.2.2)
        | _ => [])

def execTex (f : Fields) (s : State) : Out :=
  onPath s fun c =>
    let m := f.mod.toNat
    runCounted s c f false (decide (m < 8) && m % 4 != 3 && f.x == 0 && f.c == zeroCode && (recScalar f.b).isSome
      && vecRange c 2 f.a && vecDst c 1 f.d) (sampleImage s c f (m % 4) (bitOf m 2) false)

def execTexg (f : Fields) (s : State) : Out :=
  onPath s fun c =>
    runCounted s c f false (decide (f.mod.toNat < 3) && f.x == 0 && f.c == zeroCode && (recScalar f.b).isSome
      && vecRange c 2 f.a && vecDst c 4 f.d) (sampleImage s c f f.mod.toNat true true)

def execTexq (f : Fields) (s : State) : Out :=
  onPath s fun c =>
    runCounted s c f false (f.mod == 0 && f.x == 0 && f.c == zeroCode && f.a == zeroCode && (recScalar f.b).isSome
      && dstLegal c true (opnd f.d)) fun act =>
      let lanes := if (opnd f.d).isScalarReg then [lowLane act] else lanesOf act
      if imageBad c f 0 (lowLane act) then trapPoison s c (lowLane act)
      else withImage s c f false (fun _ => false) fun r =>
        retireOp s c false (lanes.flatMap fun l => blockWrites (opnd f.d) 2 l (r.width + 2 ^ 32 * r.height) false)

/-! ## IMLD and IMST -/

def imageLegal (c : Iss) (f : Fields) : Bool :=
  f.mod == 0 && decide (f.x.toNat ≤ 4) && f.c == zeroCode && (recScalar f.b).isSome && vecRange c 2 f.a

/-- The elements (x, y) of some lanes. -/
def imagePlaces (c : Iss) (f : Fields) (r : BufRec) (lanes : List Nat) : List (Nat × Placed) :=
  lanes.map fun l => (l, r.placeTiled (c.g.getV f.a.toNat l : Nat) (c.g.getV (f.a.toNat + 1) l : Nat))

def execImld (f : Fields) (s : State) : Out :=
  onPath s fun c =>
    let x := f.x.toNat
    runCounted s c f false (imageLegal c f && loadDst c x (opnd f.d) (opnd f.a)) fun act =>
      match (lanesOf act).find? (imageBad c f 2) with
      | some l => trapPoison s c l
      | none => withImage s c f false (recForbids · x) fun r =>
        match prepAccess s c .read (some .rd) (r.size x) (imagePlaces c f r (lanesOf act)) with
        | .stop t => t
        | .go ls =>
          if ls.any fun l => atomAhead s (loaders c (opnd f.d) act l.lane) l then s
          else
          let q := loadLanes (fun l raw => loadValue (ftzOn c) false r x l.hi raw) (loaders c (opnd f.d) act) none s ls
          retireOp q.2 c false ((lanesOf act).flatMap fun l =>
            blockWrites (opnd f.d) (blockRegs x) l (loadedOf q.1 l).1 (loadedOf q.1 l).2)

def execImst (f : Fields) (s : State) : Out :=
  onPath s fun c =>
    let x := f.x.toNat
    runCounted s c f true (imageLegal c f && storeSrc c x (opnd f.d)) fun act =>
      match (lanesOf act).find? (fun l => imageBad c f 2 l || blockBad c.g (opnd f.d) (blockRegs x) l) with
      | some l => trapPoison s c l
      | none => withImage s c f false (recForbids · x) fun r =>
        match prepAccess s c .write (some .wr) (r.size x) (imagePlaces c f r (lanesOf act)) with
        | .stop t => t
        | .go ls =>
          if ls.any fun l => atomAhead s [.thread c.gid l.lane] l then s
          else retireOp (storeLanes c.gid r.nibble (storedBits s c f r) none s ls) c true []

end Sys2Proof.Machine
end

