-- ==== Sys2Proof/Machine/Visible.lean ====
section
/-!
DEFINITION. The visibility target, primitives and emission: VISR, PRIMF, EMIT, and the completion of operations in
flight (16 R394, R395; 17 R400 to R402, R408; 11 R239).
-/
namespace Sys2Proof.Machine

/-! ## The visibility-target record (R400, R401) -/

structure Target where
  base   : Nat
  width  : Nat
  height : Nat
  log2s  : Nat
  deriving DecidableEq, Repr

/-- The 128 bits of the record at scalar n. -/
def recWord (g : Group) (n : Nat) : Nat :=
  g.getS n + 2 ^ 32 * g.getS (n + 1) + 2 ^ 64 * g.getS (n + 2) + 2 ^ 96 * g.getS (n + 3)

/-- The record, when it may be used. -/
def targetOf (x : Nat) : Option Target :=
  let t : Target := ⟨bitsOf x 0 64, bitsOf x 64 16, bitsOf x 80 16, bitsOf x 96 2⟩
  if !bitOf x 127 || bitsOf x 98 29 != 0 || t.width == 0 || t.height == 0 || t.base % 128 != 0 then none else some t

/-- The address of a sample's entry. -/
def sampleAddr (base width log2s x y k : Nat) : Nat :=
  let tile := y / 64 * ((width + 63) / 64) + x / 64
  (base + 16 * ((tile * 4096 + (y % 64 * 64 + x % 64)) * 2 ^ log2s + k)) % 2 ^ 64

def withTarget (s : State) (c : Iss) (f : Fields) (body : Target → State) : State :=
  match recScalar f.b with
  | none => illegalOperand s c
  | some n => match targetOf (recWord c.g n) with
    | none => takeTrap s c causeRecord 0 0
    | some t => body t

/-! ## VISR and PRIMF (R394) -/

def allOnes64 : Nat := 2 ^ 64 - 1

/-- Three words of a lane's destination; `k` is none where D is zero. -/
def laneThree (k : Option Nat) (lane : Nat) (ws : List (Nat × Bool)) : List RegWrite :=
  match k with
  | none => []
  | some r => ws.zipIdx.map fun e => .vec (r + e.2) lane (BitVec.ofNat 32 e.1.1) e.1.2

def visibleNone (id depth : Nat) : List (Nat × Bool) := [(id, false), (id, false), (depth, false)]

def LaneRead.lane : LaneRead → Nat
  | .entry l _ => l
  | .prim l _ => l

/-- The operation of VISR or PRIMF: the writes that need no access, and the reads that follow the issue. -/
def readLater (s : State) (c : Iss) (f : Fields) (ws : List RegWrite) (rs : List LaneRead) : State :=
  let k := vecReg (opnd f.d)
  startOp (retire s c)
    { gid := c.gid, flag := setFlag c.p false, writes := ws, reads := rs, known := rs.map fun r => (r.lane, floorOf s c.gid r.lane)
      first := k.getD 256
      count := if k.isSome then 3 else 0, clause := c.p.addr, slot := c.p.slot }

/-- A lane of VISR: the address of its entry, or none for a coordinate or sample outside the target. -/
def visEntry (c : Iss) (f : Fields) (t : Target) (l : Nat) : Option Nat :=
  let x := c.g.getV f.a.toNat l
  let y := c.g.getV (f.a.toNat + 1) l
  let k := c.g.getV (f.a.toNat + 2) l
  if x < t.width ∧ y < t.height ∧ k < 2 ^ t.log2s then some (sampleAddr t.base t.width t.log2s x y k) else none

def execVisr (f : Fields) (s : State) : Out :=
  onPath s fun c =>
    runCounted s c f false (f.mod == 0 && f.x == 0 && f.c == 0 && (recScalar f.b).isSome && vecRange c 3 f.a
      && vecDst c 3 f.d) fun act =>
      let lanes := lanesOf act
      match lanes.find? (imageBad c f 3) with
      | some l => trapPoison s c l
      | none => withTarget s c f fun t =>
        readLater s c f
          ((lanes.filter fun l => (visEntry c f t l).isNone).flatMap fun l =>
            laneThree (vecReg (opnd f.d)) l (visibleNone (2 ^ 32 - 1) f32Inf))
          (lanes.filterMap fun l => (visEntry c f t l).map fun a => .entry l a)

/-- The id that a lane of PRIMF names. -/
def primId (c : Iss) (f : Fields) (l : Nat) : Nat := c.g.getV f.a.toNat l + 2 ^ 32 * c.g.getV (f.a.toNat + 1) l

def execPrimf (f : Fields) (s : State) : Out :=
  onPath s fun c =>
    runCounted s c f false (f.mod == 0 && f.x == 0 && f.c == 0 && f.b == 0 && vecRange c 2 f.a && f.a.toNat % 2 == 0
      && vecDst c 3 f.d) fun act =>
      let lanes := lanesOf act
      match lanes.find? (fun l => srcBad c true (opnd f.a) l) with
      | some l => trapPoison s c l
      | none =>
        readLater s c f
          ((lanes.filter fun l => primId c f l == allOnes64).flatMap fun l =>
            laneThree (vecReg (opnd f.d)) l (visibleNone (2 ^ 32 - 1) (2 ^ 32 - 1)))
          ((lanes.filter fun l => primId c f l != allOnes64).map fun l => .prim l (primId c f l))

/-! ## Reads behind an issue -/

/-- The thread an operation reads for. -/
structure OpThread where
  gid  : Nat
  core : Nat
  part : Nat
  ctx  : Nat
  known : SMap Know

/-- What a read of an operation gives: its bytes and which of them are poisoned; a failure that poisons; or faults. -/
inductive LateRead where
  | ok (bytes : List Byte) (bad : List Bool) (s : State)
  | fail
  | fault (gs : List Granule)

/-- The bytes of a read, under what its thread knew at issue, with the poison of each. -/
def lateRead (s : State) (h : OpThread) (lane va n : Nat) : LateRead :=
  match xlateSet s (.core h.core) h.part h.ctx .read (ctxSup s h.part h.ctx) ((rangeAccs va n).map fun a => { a with lane := lane }) with
  | .trap _ _ _ => .fail
  | .fault gs => .fault gs
  | .ok ls =>
    let q := readUnder s (.thread h.gid lane) (spGet {} h.known lane) fun t => readAllMarks t (.thread h.gid lane) ls
    .ok q.1.1 q.1.2 q.2

/-- What a lane's reads come to: its three words, or its faults. -/
inductive LateWords where
  | words (ws : List (Nat × Bool)) (s : State)
  | fault (gs : List Granule)

def poisonedWords : List (Nat × Bool) := [(0, true), (0, true), (0, true)]

def fieldOf (bs : List Byte) (at_ n : Nat) : Nat := leNat ((bs.drop at_).take n)
def fieldBad (bad : List Bool) (at_ n : Nat) : Bool := ((bad.drop at_).take n).any id

/-- The three vertex indices of a primitive (R408). -/
def indexReads (s : State) (h : OpThread) (lane ibase vbase size p : Nat) : List Nat → List (Nat × Bool) → LateWords
  | [], ws => .words ws s
  | j :: r, ws =>
    match lateRead s h lane ((ibase + (3 * p + j) * size) % 2 ^ 64) size with
    | .fail => .words poisonedWords s
    | .fault gs => .fault gs
    | .ok bs bad s1 => indexReads s1 h lane ibase vbase size p r (ws ++ [((vbase + leNat bs) % 2 ^ 32, bad.any id)])

/-- One lane of VISR or PRIMF. Of the draw record the first 24 bytes are read, up to VALID. -/
def laneRead (s : State) (h : OpThread) : LaneRead → LateWords
  | .entry lane va =>
    match lateRead s h lane va 12 with
    | .fail => .words poisonedWords s
    | .fault gs => .fault gs
    | .ok bs bad s1 =>
      .words [(fieldOf bs 0 4, fieldBad bad 0 8), (fieldOf bs 4 4, fieldBad bad 0 8), (fieldOf bs 8 4, fieldBad bad 8 4)] s1
  | .prim lane id =>
    match lateRead s h lane ((ctxBase s h.part h.ctx 704 + 64 * (id / 2 ^ 44)) % 2 ^ 64) 24 with
    | .fail => .words poisonedWords s
    | .fault gs => .fault gs
    | .ok bs bad s1 =>
      let d := leNat bs
      let p := id % 2 ^ 44
      if bad.any fun b => b then .words poisonedWords s1
      else if !bitOf d 129 || decide (bitsOf d 64 32 ≤ p) then .words (visibleNone (2 ^ 32 - 1) (2 ^ 32 - 1)) s1
      else indexReads s1 h lane (bitsOf d 0 64) (bitsOf d 96 32) (if bitOf d 128 then 4 else 2) p [0, 1, 2] []

/-- Reads the lanes in turn: the writes of those that complete, and those that fault with their granules. -/
def laneReads (h : OpThread) (k : Option Nat) : State → List LaneRead → List RegWrite × List LaneRead × List Granule × State
  | s, [] => ([], [], [], s)
  | s, r :: rest =>
    match laneRead s h r with
    | .words ws s1 =>
      let q := laneReads h k s1 rest
      (laneThree k r.lane ws ++ q.1, q.2.1, q.2.2.1, q.2.2.2)
    | .fault gs =>
      let q := laneReads h k s rest
      (q.1, r :: q.2.1, gs ++ q.2.2.1.filter (fun g => !gs.any fun e => e.va == g.va), q.2.2.2)

/-- The outstanding reads of an operation of a group. -/
def performReads (s : State) (id : Nat) (o : OpRec) (g : Group) (t : Team) : Event :=
  let core := t.core.getD 0
  let k := if o.count = 0 then none else some o.first
  if o.failed then
    let ws := o.reads.flatMap fun r => laneThree k r.lane poisonedWords
    .next (completeOp { s with ops := spPut s.ops id { o with reads := [], failed := false, writes := o.writes ++ ws } } id)
  else
    let q := laneReads ⟨o.gid, core, t.part, t.ctx, o.known⟩ k s o.reads
    let s1 := q.2.2.2
    let put (s : State) (b : Option Nat) : State :=
      { s with ops := spPut s.ops id { o with reads := q.2.1, batch := b, writes := o.writes ++ q.1 } }
    if q.2.1 = [] then .next (completeOp (put s1 none) id)
    else if !canReport s t.part then .refused .idle
    else
      let w : Faulter := { acc := .read, ctx := t.ctx, core := core, group := (g.place.getD 0) % 64, client := 0
                           clause := o.clause, slot := o.slot }
      let r := reportBatch s1 t.part w q.2.2.1 (.regRead id 0)
      .next (put r.2 (some r.1))

/-- OPERATION_COMPLETE (R239). -/
def tryOperationComplete (op : Nat) (s : State) : Event :=
  match spFind s.ops op with
  | none => .refused .idle
  | some o =>
    if o.left ≠ 0 ∨ o.batch.isSome ∨ o.heldByFence s = true ∨ o.reads ≠ [] ∧ groupAtoms s o.gid = true then .refused .idle
    else if o.reads = [] then .next (completeOp s op)
    else match getGroup s o.gid with
      | none => .refused .idle
      | some g => match getTeam s g.team with
        | some t => performReads s op o g t
        | none => .refused .idle

def execOperationComplete (op : Nat) (s : State) : Out := settle s (tryOperationComplete op s)

/-! ## EMIT (R395) -/

/-- Counts a thread for a draw once (17 R409): the thread that the lane has had since its latest birth. -/
def DrawStat.thread (d : DrawStat) (w : Nat × Nat × Nat) : DrawStat :=
  if d.threads.contains w then d else { d with threads := d.threads ++ [w] }

def modStat (n : Node) (draw : Nat) (f : DrawStat → DrawStat) : Node :=
  { n with stats := spPut n.stats draw (f (spGet {} n.stats draw)) }

/-- The triangle of a lane. -/
def laneTri (s : State) (c : Iss) (f : Fields) (t : Target) (op l : Nat) : Tri :=
  { known := (getKnow s (.thread c.gid l)).released, node := c.t.node, ctx := c.ctx, op := op
    base := t.base, width := t.width, height := t.height, log2s := t.log2s
    verts := (List.range 9).map fun i => c.g.getV (f.a.toNat + i) l
    id := srcVal s c .q64 (opnd f.c) l }

def execEmit (f : Fields) (s : State) : Out :=
  onPath s fun c =>
    runCounted s c f true (f.mod == 0 && f.x == 0 && f.d == 0 && (recScalar f.b).isSome && vecRange c 9 f.a
      && vecRange c 2 f.c && f.c.toNat % 2 == 0) fun act =>
      let lanes := lanesOf act
      match lanes.find? (fun l => imageBad c f 9 l || srcBad c true (opnd f.c) l) with
      | some l => trapPoison s c l
      | none => withTarget s c f fun t =>
        let s1 := publishAt s c.core 4
        let tris := lanes.map (laneTri s c f t s1.order)
        let s2 := startOp (retire s1 c) { gid := c.gid, flag := setFlag c.p true, left := lanes.length }
        let s3 := modPart s2 c.part fun p => { p with tris := p.tris ++ tris }
        modNode s3 c.t.node fun n => lanes.foldl (fun n l =>
          modStat n (srcVal s c .q64 (opnd f.c) l / 2 ^ 44) fun d => d.thread (c.gid, l, spGet 0 c.g.births l)) n

end Sys2Proof.Machine
end

