-- ==== Sys2Proof/Machine/Order.lean ====
section
/-!
DEFINITION. Ordered sections: ORDB and ORDE and their counter words (16 R396; 02 R27; 03 R71).
-/
namespace Sys2Proof.Machine

def orderLegal (c : Iss) (f : Fields) : Bool :=
  f.mod == 0 && f.x == 0 && f.c == 0 && f.d == 0 && srcLegal c false (opnd f.a) && srcLegal c false (opnd f.b)

def orderKey (s : State) (c : Iss) (f : Fields) (l : Nat) : Nat := srcVal s c .w32 (opnd f.a) l
def orderVal (s : State) (c : Iss) (f : Fields) (l : Nat) : Nat := srcVal s c .w32 (opnd f.b) l
def counterAddr (s : State) (c : Iss) (k : Nat) : Nat := (ctxBase s c.part c.ctx 640 + 4 * k) % 2 ^ 64

/-- The checks at issue; `unique` is ORDB's. -/
def withKeys (s : State) (c : Iss) (f : Fields) (unique : Bool) (act : Mask) (body : List Nat → State) : State :=
  let lanes := lanesOf act
  match lanes.find? fun l => srcBad c false (opnd f.a) l || srcBad c false (opnd f.b) l with
  | some l => trapPoison s c l
  | none =>
    let ks := lanes.map (orderKey s c f)
    if ks.any (fun k => decide (2 ^ 16 ≤ k)) || (unique && ks.eraseDups.length != ks.length) then illegalOperand s c
    else body lanes

/-- The path waits for a batch of its counter accesses. -/
def holdFor (s : State) (c : Iss) (gs : List Granule) : State :=
  if !canReport s c.part then s
  else
    let r := reportBatch s c.part (c.faulter .table) gs (.ordering c.gid c.live)
    modPath (waitOn r.2 c .ordering) c.gid c.live fun p => { p with hold := some r.1, failed := false }

/-- A counter word as its table holds it at the L2 (02 R27), read for a thread. -/
def counterRead (s : State) (ag : Agent) (e : LaneLoc) : Got × State :=
  if e.kind = 3 then ctlReadUnit s [ag] e.cmp e.loc 4
  else
    let ret := returnedBy (histOf s e.cmp (e.loc / 8)).msgs.reverse ((2 ^ 4 - 1) * 2 ^ (e.loc % 8))
    (⟨l2ReadSet s [e], l2BadSet s [e], ret.flatMap fun m => m.1.rels⟩, noteRead (l2Asked s e.cmp e.loc 4) ag ret)

/-- The lanes of a poll in ascending order: what each reads. -/
def counterReads (gid : Nat) : State → List LaneLoc → List (Nat × Got) × State
  | s, [] => ([], s)
  | s, e :: r =>
    let a := counterRead s (.thread gid e.lane) e
    let b := counterReads gid a.2 r
    ((e.lane, a.1) :: b.1, b.2)

/-- ORDB's poll of the lanes that have not found their values. -/
def pollOrder (s : State) (c : Iss) (f : Fields) (lanes : List Nat) : State :=
  let rest := lanes.filter fun l => !c.p.found.getLsbD l
  let as := rest.map fun l => (⟨l, counterAddr s c (orderKey s c f l), 4, false⟩ : LaneAcc)
  let set := xlateSet s (.core c.core) c.part c.ctx .table true as
  match as, c.p.failed, set with
  | a :: _, true, _ => takeTrap s c causeFatal a.lane a.va
  | _, _, .trap cause lane va => takeTrap s c cause lane va
  | _, _, .fault gs => holdFor s c gs
  | _, _, .ok ls =>
    let q := counterReads c.gid s ls
    match q.1.find? fun e => e.2.bad with
    | some e => trapPoison q.2 c e.1
    | none =>
      let hit := q.1.filter fun e => leNat e.2.bytes == orderVal s c f e.1
      let saw := addRels c.p.saw (hit.flatMap fun e => e.2.rels)
      if hit.length = rest.length then retire (acquireAll q.2 (threadsOf c.gid (maskOf lanes)) 4 saw) c
      else modPath (waitOn (if hit = [] then s else q.2) c .ordering) c.gid c.live fun p =>
        { p with found := p.found ||| maskOf (hit.map (·.1)), saw := saw }

def execOrdb (f : Fields) (s : State) : Out :=
  onPath s fun c => runMasked s c f (orderLegal c f) fun act => withKeys s c f true act (pollOrder s c f)

/-- A store to a counter word, made at the L2 (02 R27), with the release edges of its path. -/
def counterStore (s : State) (ag : Agent) (rels : List RelInfo) (e : LaneLoc) (v : Nat) : State :=
  if e.kind = 3 then ctlStoreUnit s ag e.cmp e.va e.loc (leBytes 4 v) false rels
  else
    let m := newMsg s ag (wordMsgs s ag (e.loc / 8)) e.cmp e.va (unitCells (e.loc % 8) (leBytes 4 v)) false rels
    publish (noteStore s ag m) (e.loc / 8) m

/-- The release edge of ORDE at .dev, then b + 1 into each lane's counter, lanes ascending. -/
def storeOrder (s : State) (c : Iss) (f : Fields) (act : Mask) (ls : List LaneLoc) : State :=
  let rels := releaseOfAll s (threadsOf c.gid act) 4
  ls.foldl (fun t e => counterStore t (.thread c.gid e.lane) rels e (orderVal s c f e.lane + 1)) (publishAt s c.core 4)

/-- ORDE. The stores of the lanes of a batch released with FAIL = 1 are dropped, and the others are made (03 R71). -/
def execOrde (f : Fields) (s : State) : Out :=
  onPath s fun c => runMasked s c f (orderLegal c f) fun act => withKeys s c f false act fun lanes =>
    let gone := if c.p.failed then c.p.dropped ||| c.p.found else c.p.dropped
    let as := (lanes.filter fun l => !gone.getLsbD l).map fun l =>
      (⟨l, counterAddr s c (orderKey s c f l), 4, false⟩ : LaneAcc)
    match xlateSet s (.core c.core) c.part c.ctx .write true as with
    | .trap cause lane va => takeTrap s c cause lane va
    | .fault gs =>
      let late := as.filter fun a => gs.any fun g => g.va == a.va / 4096
      if !canReport s c.part then s
      else modPath (holdFor s c gs) c.gid c.live fun p =>
        { p with found := maskOf (late.map (·.lane)), dropped := gone }
    | .ok ls => retire (storeOrder s c f act ls) c

end Sys2Proof.Machine
end

