-- ==== Sys2Proof/Machine/Raster.lean ====
section
/-!
DEFINITION. The rasterisers: setup, coverage, depth, and the write of a sample to its entry (17 R402 to R407, R409).
-/
namespace Sys2Proof.Machine

/-! ## Setup (R403) -/

/-- A rounded vertex: x and y in units of 1/256 pixel, and the exact depth in units of 2^−149. -/
structure Vertex where
  x : Int
  y : Int
  z : Int
  deriving DecidableEq, Repr

/-- A coordinate rounded RNE to 1/256; none when it is not finite or lies outside [−2^16, 2^16). -/
def snap (bits : Nat) : Option Int :=
  match decodeFmt 1 bits with
  | .fin n p q =>
    let k := roundInt ((XReal.fin n p q).mul (XReal.ofNat 256)) .rne (-(2 ^ 40 : Nat)) ((2 ^ 40 : Nat) : Int)
    if k < -(2 ^ 24 : Nat) ∨ ((2 ^ 24 : Nat) : Int) ≤ k then none else some k
  | _ => none

def vertexOf (t : Tri) (i : Nat) : Option Vertex :=
  match snap (t.verts.getD (3 * i) 0), snap (t.verts.getD (3 * i + 1) 0), f32Int (t.verts.getD (3 * i + 2) 0) with
  | some x, some y, some z => some ⟨x, y, z⟩
  | _, _, _ => none

/-- E(q) of the edge from a to b (R404). -/
def edgeAt (a b : Vertex) (x y : Int) : Int := (b.x - a.x) * (y - a.y) - (b.y - a.y) * (x - a.x)

/-- Whether a triangle owns the edge from a to b. -/
def ownsEdge (a b : Vertex) : Bool := decide (0 < b.y - a.y) || (decide (b.y = a.y) && decide (b.x - a.x < 0))

/-- The vertices in the order that makes every edge positive inside; none when setup culls the triangle. -/
def setupTri (t : Tri) : Option (Vertex × Vertex × Vertex) :=
  match vertexOf t 0, vertexOf t 1, vertexOf t 2 with
  | some a, some b, some c =>
    let e := edgeAt a b c.x c.y
    if e = 0 ∨ t.id / 2 ^ 44 = 0xFFFFF then none
    else if e < 0 then some (a, c, b) else some (a, b, c)
  | _, _, _ => none

/-! ## Coverage and depth (R402, R404, R405) -/

/-- Sample positions in 1/16 pixel. -/
def samplePos (log2s : Nat) : List (Int × Int) :=
  match log2s with
  | 0 => [(8, 8)]
  | 1 => [(4, 4), (12, 12)]
  | 2 => [(6, 2), (14, 6), (2, 10), (10, 14)]
  | _ => [(9, 5), (7, 11), (13, 9), (5, 3), (3, 13), (1, 7), (11, 15), (15, 1)]

def insideEdge (a b : Vertex) (x y : Int) : Bool :=
  let e := edgeAt a b x y
  decide (0 < e) || (decide (e = 0) && ownsEdge a b)

def covered (v : Vertex × Vertex × Vertex) (x y : Int) : Bool :=
  insideEdge v.1 v.2.1 x y && insideEdge v.2.1 v.2.2 x y && insideEdge v.2.2 v.1 x y

/-- The depth at a point, rounded once. -/
def depthAt (v : Vertex × Vertex × Vertex) (x y : Int) : Nat :=
  let n := edgeAt v.2.1 v.2.2 x y * v.1.z + edgeAt v.2.2 v.1 x y * v.2.1.z + edgeAt v.1 v.2.1 x y * v.2.2.z
  let d := edgeAt v.1 v.2.1 v.2.2.x v.2.2.y
  roundFmt 1 (ratX n (d * 2 ^ 149)) .rne

/-- The pixels of [0, n) between two coordinates in 1/256. -/
def pixelsOf (a b c : Int) (n : Nat) : List Nat :=
  let lo := (min a (min b c)) / 256
  let hi := (max a (max b c)) / 256
  let first := lo.toNat
  if hi < 0 ∨ (n : Int) ≤ lo then []
  else (List.range (min (hi.toNat + 1) n - first)).map (· + first)

/-- The rasteriser of the partition that owns a tile, by its number on the device. -/
def rasteriserOf (s : State) (part x y : Nat) : Nat :=
  let r := 8 / partCount s
  part * r + (x / 64 + y / 64) % r

/-- Whether a depth is clipped. -/
def clipped (z : Nat) : Bool :=
  let x := decodeFmt 1 z
  x.lt .zero || (XReal.ofNat 1).lt x

/-- The covered samples of one pixel, with their depths, unclipped. -/
def pixelSamples (s : State) (part : Nat) (t : Tri) (v : Vertex × Vertex × Vertex) (x y : Nat) : List Sample :=
  (samplePos t.log2s).zipIdx.filterMap fun e =>
    let qx := ((256 * x : Nat) : Int) + 16 * e.1.1
    let qy := ((256 * y : Nat) : Int) + 16 * e.1.2
    let z := depthAt v qx qy
    if covered v qx qy && !clipped z then
      some { node := t.node, ctx := t.ctx, va := sampleAddr t.base t.width t.log2s x y e.2, z := z, id := t.id
             ras := rasteriserOf s part x y, known := t.known }
    else none

/-- The samples a triangle writes; none when it is culled. -/
def triSamples (s : State) (part : Nat) (t : Tri) : List Sample :=
  match setupTri t with
  | none => []
  | some v =>
    (pixelsOf v.1.y v.2.1.y v.2.2.y t.height).flatMap fun y =>
      (pixelsOf v.1.x v.2.1.x v.2.2.x t.width).flatMap fun x => pixelSamples s part t v x y

/-- RASTER_TRIANGLE (R403): the oldest triangle of a partition is accepted and reaches its samples. -/
def tryRasterTriangle (part : Nat) (s : State) : Event :=
  match (getPart s part).tris with
  | [] => .refused .idle
  | t :: rest =>
    let ss := triSamples s part t
    let s1 := feedOp (modPart s part fun p => { p with tris := rest, samples := p.samples ++ ss }) t.op []
    .next (modNode s1 t.node fun n => modStat n (t.id / 2 ^ 44) fun d =>
      { d with primsIn := d.primsIn + 1, culled := if ss = [] then d.culled + 1 else d.culled })

def execRasterTriangle (part : Nat) (s : State) : Out := settle s (tryRasterTriangle part s)

/-! ## Samples (R405 to R407, R409) -/

/-- Whether (z, id) replaces the stored pair. -/
def replaces (z id depth sid : Nat) : Bool :=
  let a := decodeFmt 1 z
  let b := decodeFmt 1 depth
  b.isNaN || a.lt b || (decide (a.cmp b = 0) && decide (id < sid))

/-- The first sample whose rasteriser waits for no earlier one, with those before and after it. -/
def nextSample : List Sample → List Nat → Option (List Sample × Sample × List Sample)
  | [], _ => none
  | x :: r, blocked =>
    if x.batch.isNone && !blocked.contains x.ras then some ([], x, r)
    else match nextSample r (x.ras :: blocked) with
      | some (a, y, b) => some (x :: a, y, b)
      | none => none

/-- The bytes of a location's word behind the stores numbered below `first`. -/
def wordBefore (s : State) (cmp first loc n : Nat) : List Byte :=
  let v := match spFind s.hist (loc / 8) with
    | some h => (h.after (h.msgs.filter fun m => decide (m.id < first))).1
    | none => (l2Word s cmp (loc / 8)).1
  (v.drop (loc % 8)).take n

/-- The depth and id of an entry as a node found it when it started: behind the stores before the node's first (R409;
log 72). -/
def entryBefore (s : State) (n : Node) (l : LaneLoc) : Nat × Nat :=
  (leNat (wordBefore s l.cmp n.firstStore (l.loc + 8) 4), leNat (wordBefore s l.cmp n.firstStore l.loc 8))

/-- Counts a sample for its draw when it would replace what the node found (R409). -/
def countSample (s : State) (x : Sample) (ls : List LaneLoc) : State :=
  match getNode s x.node, ls with
  | some n, l :: _ =>
    let f := entryBefore s n l
    if replaces x.z x.id f.1 f.2 then
      modNode s x.node fun n => modStat n (x.id / 2 ^ 44) fun d =>
        if d.samples.contains x.va then d else { d with samples := d.samples ++ [x.va] }
    else s
  | _, _ => s

/-- SAMPLE_WRITE (R405): the rasteriser reads an entry and, when the sample is the nearer, stores its id and its depth, each as
a unit of its own (05 R106). A write that cannot be made is dropped. -/
def trySampleWrite (part : Nat) (s : State) : Event :=
  match nextSample (getPart s part).samples [] with
  | none => .refused .idle
  | some (a, x, b) =>
    let done (s : State) : State := modPart s part fun p => { p with samples := a ++ b }
    if x.failed then .next (done s)
    else match xlateSet s (.raster x.ras) part x.ctx .write (ctxSup s part x.ctx) (rangeAccs x.va 12) with
    | .trap _ _ _ => .next (done s)
    | .fault gs =>
      if !canReport s part then .refused .idle
      else
        let r := reportBatch s part { acc := .write, ctx := x.ctx, client := 3, unit := x.ras } gs (.sample part)
        .next (modPart r.2 part fun p => { p with samples := a ++ { x with batch := some r.1 } :: b })
    | .ok ls =>
      let ag := Agent.raster x.ras
      let q := readSet (learn (countSample (done s) x ls) ag x.known) [ag] ls
      let d := leNat q.1.bytes
      .next (if replaces x.z x.id (bitsOf d 64 32) (bitsOf d 0 64)
        then storeSet q.2 ag false [] ls (leBytes 8 x.id ++ leBytes 4 x.z) else q.2)

def execSampleWrite (part : Nat) (s : State) : Out := settle s (trySampleWrite part s)

end Sys2Proof.Machine
end

