-- ==== Sys2Proof/Machine/Scoreboard.lean ====
section
/-!
DEFINITION. The registers that an instruction reads and writes, as the scoreboard knows them, and the operations and tokens
in flight that hold it (09 R212; 11 R240; 12 R301; 13 R304; 15 R352; 16 R394).
-/
namespace Sys2Proof.Machine

/-! ## Registers of an instruction -/

/-- Consecutive registers that an instruction names: vector registers count from 0, scalars from 256, predicates from 320;
`out` says that it only writes them. -/
structure RegUse where
  first : Nat
  count : Nat
  out   : Bool := false
  deriving DecidableEq, Repr

/-- n registers from an operand code on that an instruction reads; a code of no register names none. -/
def reads (n : Nat) (o : BitVec 9) : List RegUse := if o.toNat < 0x140 then [⟨o.toNat, n, false⟩] else []
/-- n registers that it only writes. -/
def writes (n : Nat) (o : BitVec 9) : List RegUse := if o.toNat < 0x140 then [⟨o.toNat, n, true⟩] else []
/-- A predicate that it reads; pt is none. -/
def readsPred (p : Nat) : List RegUse := if p = 63 then [] else [⟨0x140 + p, 1, false⟩]
def writesPred (p : Nat) : List RegUse := if p = 63 then [] else [⟨0x140 + p, 1, true⟩]
def readsAll (n : Nat) (os : List (BitVec 9)) : List RegUse := os.flatMap (reads n)

def widthOf (wide : Bool) : Nat := if wide then 2 else 1

/-- Opcodes 0x20 to 0x3B (12 R288 to R300). -/
def intUses (op : Nat) (f : Fields) : List RegUse :=
  let n := widthOf (iwide (ityp f))
  let second (k : Nat) : List RegUse := if riForm f then [] else reads k f.b
  match op with
  | 0x24 => writes n f.d ++ readsAll n [f.a, f.b, f.c]
  | 0x28 =>
    let k := widthOf (bitsOf f.mod.toNat 1 2 == 1)
    writes k f.d ++ readsAll k [f.a, f.b, f.c]
  | 0x29 => writes n f.d ++ reads n f.a ++ second 1
  | 0x2A => writes n f.d ++ reads n f.a ++ second 1
  | 0x2B => writes n f.d ++ readsAll n [f.a, f.b] ++ reads 1 f.c
  | 0x2C => writes n f.d ++ reads n f.a ++ reads 1 f.c
  | 0x2D => writes n f.d ++ readsAll n [f.a, f.b] ++ reads 1 f.c
  | 0x2E => writes 1 f.d ++ reads n f.a
  | 0x2F => writes 1 f.d ++ reads n f.a
  | 0x30 => writes n f.d ++ reads n f.a
  | 0x31 => writes n f.d ++ readsAll n [f.a, f.b] ++ reads 1 f.c
  | 0x32 => writesPred f.d.toNat ++ reads n f.a ++ second n
  | 0x33 => writes n f.d ++ readsAll n [f.a, f.b] ++ readsPred f.c.toNat
  | 0x34 => writes n f.d ++ reads n f.a
  | 0x35 => writes n f.d
  | 0x36 => writes n f.d ++ reads n f.a
  | 0x37 => writesPred f.d.toNat ++ [f.a, f.b, f.c].flatMap fun p => readsPred p.toNat
  | 0x38 => match f.x.toNat with
    | 0 => writes 1 f.d ++ readsPred f.a.toNat
    | 1 => writesPred f.d.toNat ++ reads 1 f.a
    | 2 => writes 2 f.d ++ readsPred f.a.toNat
    | _ => writesPred f.d.toNat ++ reads 2 f.a
  | 0x39 => writes n f.d ++ readsAll n [f.a, f.b]
  | 0x3A => writes n f.d ++ readsAll n [f.a, f.b]
  | 0x3B => writes n f.d ++ readsAll n [f.a, f.b]
  | 0x23 => writes n f.d ++ readsAll n [f.a, f.b]
  | 0x25 => writes n f.d ++ readsAll n [f.a, f.b]
  | _ => writes n f.d ++ reads n f.a ++ second n

/-- Opcodes 0x40 to 0x5C (13 R305 to R324). -/
def floatUses (c : Iss) (op : Nat) (f : Fields) : List RegUse :=
  let n := widthOf (ftyp f == 1)
  let lanesWide := widthOf (bitOf f.mod.toNat 2)
  match op with
  | 0x42 => writes n f.d ++ readsAll n [f.a, f.b, f.c]
  | 0x45 => writesPred f.d.toNat ++ readsAll n [f.a, f.b]
  | 0x46 => writesPred f.d.toNat ++ reads n f.a
  | 0x50 => writes (widthOf (cvtWide f.mod.toNat (bitOf f.x.toNat 1))) f.d
      ++ reads (widthOf (cvtTy f.c.toNat (bitOf f.x.toNat 1)).wide) f.a
  | 0x51 => writes 1 f.d ++ readsAll 1 [f.a, f.b]
  | 0x52 => writes 1 f.d ++ reads (quantCount (afmt c)) f.a ++ reads 1 f.b ++ (if f.mod = 1 then reads 1 f.c else [])
  | 0x53 => writes (quantCount (afmt c)) f.d ++ readsAll 1 [f.a, f.b]
  | 0x54 => readsAll 1 [f.d, f.a, f.b]
  | 0x55 => writes 1 f.d ++ reads 1 f.a
  | 0x56 => writes lanesWide f.d ++ reads lanesWide f.a ++ reads 1 f.b
  | 0x57 => writes (widthOf (redOperand f).wide) f.d ++ reads (widthOf (redOperand f).wide) f.a
  | 0x58 => writes (widthOf (redOperand f).wide) f.d ++ reads (widthOf (redOperand f).wide) f.a
  | 0x59 => reads lanesWide f.a ++ (match f.x.toNat with
      | 0 => writes 2 f.d
      | 1 => writes 1 f.d
      | _ => writesPred f.d.toNat)
  | 0x5A => writes 1 f.d ++ reads 1 f.a
  | 0x5B => writes 1 f.d ++ readsAll 1 [f.a, f.b, f.c]
  | 0x5C => writes 1 f.d ++ readsAll 1 [f.a, f.b, f.c]
  | _ => writes n f.d ++ reads n f.a
      ++ (if op = 0x40 ∨ op = 0x41 ∨ op = 0x43 ∨ op = 0x44 ∨ op = 0x4A then reads n f.b else [])

/-- Every vector register, scalar and predicate, written. -/
def allRegs : List RegUse := [⟨0, 0x140 + 48, true⟩]

/-- Opcodes 0x00 to 0x17 (12 R270 to R286; 16 R386). REFILL writes every register of the lanes that it fills. -/
def controlUses (op : Nat) (f : Fields) : List RegUse :=
  match op with
  | 0x08 => reads 2 f.a
  | 0x0A => reads 2 f.a
  | 0x0B => reads 1 f.a ++ reads 4 f.b
  | 0x0E => allRegs
  | 0x0F => readsPred f.a.toNat ++ (match f.x.toNat with
      | 0 => writes 2 f.d
      | 4 => writes 1 f.d
      | _ => writesPred f.d.toNat)
  | 0x10 => reads 1 f.a
  | 0x11 => writes 1 f.d
  | 0x12 => reads 1 f.a
  | 0x14 => reads 4 f.b
  | 0x15 => writes 1 f.d
  | 0x17 => writes 1 f.d
  | _ => []

/-- Opcodes 0x60 to 0x75 (14 R327 to R349; 16 R387). -/
def memUses (op : Nat) (f : Fields) : List RegUse :=
  let n := blockRegs f.x.toNat
  match op with
  | 0x60 => writes n f.d ++ reads 1 f.a ++ reads 4 f.b
  | 0x69 => writes n f.d ++ reads 1 f.a ++ reads 4 f.b
  | 0x61 => reads n f.d ++ reads 1 f.a ++ reads 4 f.b
  | 0x6A => reads n f.d ++ reads 1 f.a ++ reads 4 f.b
  | 0x62 => writes n f.d ++ readsAll 1 [f.a, f.b]
  | 0x63 => reads n f.d ++ readsAll 1 [f.a, f.b]
  | 0x64 => reads 1 f.a ++ reads 4 f.b
  | 0x65 => reads n f.d ++ reads 1 f.a ++ reads 4 f.b
  | 0x66 => reads (2 * n) f.d ++ reads 1 f.a ++ reads 4 f.b ++ writesPred pq
  | 0x67 => reads n f.d ++ readsAll 1 [f.a, f.b]
  | 0x6B => reads 1 f.a
  | 0x6C => reads 1 f.a
  | 0x6D => reads 1 f.a
  | 0x6E => readsAll 1 [f.a, f.b]
  | 0x6F => writes 1 f.d ++ reads 1 f.a
  | 0x70 => readsAll 1 [f.a, f.b]
  | 0x71 => writes 1 f.d ++ reads 2 f.a
  | 0x72 => writes 2 f.d ++ reads 1 f.a
  | 0x73 => writes 1 f.d ++ reads 2 f.a
  | 0x74 => reads 4 f.b
  | 0x75 => writes 1 f.d ++ reads 2 f.a
  | _ => []

/-- The result blocks that TRCONT may write: those of its lanes' states, and of the token. -/
def contUses (c : Iss) (f : Fields) : List RegUse :=
  let t := c.g.tok ((tokenOf f.d).getD 0)
  ⟨t.first, t.count, true⟩ :: (c.g.rays.filter fun e => (active c f).getLsbD e.1).map fun e =>
    ⟨e.2.first, traceCount e.2.mode e.2.km1, true⟩

/-- Registers that a system register takes (16 R397). -/
def sysWidth (f : Fields) : Nat := widthOf (((sysReg f.imm18.toNat).map (·.wide)).getD false)

/-- Opcodes from 0x80 on (15 R356 to R379; 16 R382 to R399). RESAMP writes every register of the lanes that take clones.
-/
def unitUses (c : Iss) (op : Nat) (f : Fields) : List RegUse :=
  let x := f.x.toNat
  match op with
  | 0x80 => reads 32 f.d ++ reads 8 f.a ++ reads 4 f.c ++ (if mmaRec f then reads 4 f.b else [])
  | 0x81 => if bitOf x 1 then [] else readsAll 1 [f.a, f.b]
  | 0x82 => readsAll 1 [f.a, f.b]
  | 0x83 => readsAll 1 [f.a, f.b]
  | 0x84 => writes (mtrnDst f) f.d ++ reads 32 f.a
  | 0x88 => reads 1 f.a ++ reads (f.mod.toNat + 1) f.b ++ writes 32 f.c
  | 0x8A => writesPred f.d.toNat
  | 0x8B => reads 1 f.a
  | 0x8C => reads 1 f.a
  | 0x8D => reads 1 f.a
  | 0x90 => reads (xfRegs x) f.a
      ++ (if x = 8 then writes 2 f.b else if x = 9 then reads 2 f.b else if x = 0 ∨ x = 1 ∨ x = 7 then reads 1 f.b else [])
      ++ writes (if x = 6 ∨ x = 10 then 2 else if x = 8 then 8 else if x = 9 then 32 else 1) f.d
      ++ (if x = 1 then writesPred pq else [])
  | 0x91 => writes (f.mod.toNat + 1) f.d ++ readsAll 1 [f.a, f.b, f.c] ++ writesPred pq
  | 0x92 => writes 1 f.d ++ reads (f.mod.toNat + 1) f.a ++ readsAll 1 [f.b, f.c] ++ writesPred pq
  | 0x93 => writes 2 f.d ++ reads 1 f.a
  | 0x98 => readsAll 1 [f.a, f.b] ++ reads 2 f.c ++ allRegs
  | 0xA0 => reads 2 f.a ++ reads 8 f.b ++ writes (traceCount (f.mod.toNat % 4) x) f.c
  | 0xA1 => writes 1 f.d
  | 0xA2 => contUses c f
  | 0xA4 => writes 1 f.d ++ reads 2 f.a ++ reads 4 f.b
  | 0xA5 => writes 4 f.d ++ reads 2 f.a ++ reads 4 f.b
  | 0xA6 => writes 2 f.d ++ reads 4 f.b
  | 0xA7 => writes (blockRegs x) f.d ++ reads 2 f.a ++ reads 4 f.b
  | 0xA8 => reads (blockRegs x) f.d ++ reads 2 f.a ++ reads 4 f.b
  | 0xAC => writes 3 f.d ++ reads 3 f.a ++ reads 4 f.b
  | 0xAD => writes 3 f.d ++ reads 2 f.a
  | 0xAE => reads 9 f.a ++ reads 4 f.b ++ reads 2 f.c
  | 0xAF => readsAll 1 [f.a, f.b]
  | 0xB0 => readsAll 1 [f.a, f.b]
  | 0xC0 => writes (sysWidth f) f.d
  | 0xC1 => reads (sysWidth f) f.a
  | 0xC2 => writes 2 f.d
  | _ => []

/-- The registers of an instruction, its guard among them. -/
def regUses (c : Iss) (op : Nat) (f : Fields) : List RegUse :=
  readsPred f.g.toNat ++
    (if op < 0x20 then controlUses op f
    else if op < 0x40 then intUses op f
    else if op < 0x60 then floatUses c op f
    else if op < 0x80 then memUses op f
    else unitUses c op f)

/-! ## What holds an instruction -/

def usesMeet (l : List RegUse) (first count : Nat) : Bool :=
  l.any fun e => decide (0 < count) && decide (e.first < first + count) && decide (first < e.first + e.count)

/-- A pending token whose block an instruction reads or writes (15 R352). -/
def blockedBy (g : Group) (l : List RegUse) : Option Nat :=
  (List.range 16).find? fun t => g.tokPending t && usesMeet l (g.tok t).first (g.tok t).count

/-- Whether a register write is to one of these. -/
def RegWrite.meets (l : List RegUse) : RegWrite → Bool
  | .vec r _ _ _ => usesMeet l r 1
  | .any r _ _ _ => usesMeet l r 1
  | .scal r _ _ => usesMeet l (0x100 + r) 1
  | .pred p _ _ => usesMeet l (0x140 + p) 1

/-- Whether an atomic operation in flight is yet to write one of these. -/
def atomsMeet (s : State) (op : Nat) (l : List RegUse) : Bool :=
  s.parts.any fun e => e.2.atoms.any fun a => a.op == op && match a.dst with
    | some r => usesMeet l r (blockRegs (if a.size = 8 then 3 else 2)) || (a.cas && usesMeet l (0x140 + pq) 1)
    | none => false

/-- Whether an operation in flight of the group is yet to write one of these registers. -/
def opBlocks (s : State) (gid : Nat) (l : List RegUse) : Bool :=
  s.ops.any fun e => e.2.gid == gid
    && (usesMeet l e.2.first e.2.count || e.2.writes.any (RegWrite.meets l) || atomsMeet s e.1 l)

/-- Whether an instruction passes a release edge (05 R113; 06 R142, R143; 09 R210). -/
def releases : Instr → Bool
  | .atom f => decide (2 ≤ atomOrder f)
  | .acas f => decide (2 ≤ atomOrder f)
  | .sts f => f.mod == 1
  | .mov f => (match opnd f.d with
    | .ch _ _ => true
    | _ => false)
  | .fence _ => true
  | .stl _ => true
  | .bara _ => true
  | .bar _ => true
  | .job _ => true
  | .spawn _ => true
  | .launch _ => true
  | .icinv _ => true
  | .ffence _ => true
  | .resamp _ => true
  | .emit _ => true
  | .orde _ => true
  | _ => false

/-- Whether atomics on their way to their home slices hold an instruction of their threads: a release edge orders them before
itself, and their own acquire edges come before later accesses (05 R114, R115). -/
def atomsHold (s : State) (c : Iss) (op : Nat) (i : Instr) : Bool :=
  s.parts.any fun e => e.2.atoms.any fun a =>
    a.gid == c.gid && c.p.mask.getLsbD a.lane
      && (releases i || (a.acquire.isSome && (decide (0x60 ≤ op) || op == 0x0B)))

/-- Whether a release edge must wait for reads that its threads have issued and that are not yet made: VISR, PRIMF and the rounds
of a traversal (05 R114; 16 R389, R394). -/
def readsHold (s : State) (c : Iss) : Bool :=
  let mine (l : Nat) : Bool := c.p.mask.getLsbD l
  (s.ops.any fun e => e.2.gid == c.gid && e.2.reads.any fun r => match r with
      | .entry l _ => mine l
      | .prim l _ => mine l)
    || c.g.rays.any fun e => mine e.1 && e.2.active

/-- READLANE, LXCH and DERIV read lanes that their path does not carry (12 R299; 13 R318). -/
def readsOthers (op : Nat) : Bool := op == 0x39 || op == 0x56 || op == 0x5A

/-- Whether all that an operation has still to write lies in lanes outside a path's mask. -/
def ofOthers (mask : Mask) (o : OpRec) : Bool :=
  let out (l : Nat) : Bool := !mask.getLsbD l
  !(o.writes.isEmpty && o.reads.isEmpty)
    && (o.writes.all fun w => match w with
      | .vec _ l _ _ => out l
      | .any _ l _ _ => out l
      | _ => false)
    && o.reads.all fun r => match r with
      | .entry l _ => out l
      | .prim l _ => out l

/-- Whether an instruction goes ahead of the outstanding writes of another path and reads the values before them, which
the rules permit beside the values after them: a free choice (12 R299; 13 R318). -/
def readsBefore (s : State) (c : Iss) (op : Nat) (l : List RegUse) : Bool :=
  readsOthers op && Config.choice s.fresh
    && !opBlocks { s with ops := s.ops.filter fun e => !ofOthers c.p.mask e.2 } c.gid l

end Sys2Proof.Machine
end

