-- ==== Sys2Proof/Machine/Fetch.lean ====
section
/-!
DEFINITION. Instruction fetch, decode dictionaries, what stands before an issue, rotation, boosting and the end of a group
(11 R233 to R238, R241 to R249; 08 R180, R183, R184; 09 R212, R213; 12 R271).
-/
namespace Sys2Proof.Machine

/-! ## Reading code (06 R144; 11 R233) -/

/-- The number of the next store as a core read a line of a context's addresses as code, when it may still hold what it read. -/
def fetchedAt (s : State) (c : Iss) (va : Nat) : Option Nat :=
  ((getCore s c.core).fetched.find? fun l => l.part == c.part && l.ctx == c.ctx && l.line == va / 128).map (·.first)

/-- Whether the host or the management controller made a store: so code objects are loaded (19 R438). -/
def Msg.loads (m : Msg) : Bool := m.who % 8 == 5 || m.who % 8 == 4

/-- The stores to the bytes at an address that a group's fetch returns, or later ones (R144): those before the ICINVs of its
FFENCEs that cover the bytes, and those by which code was loaded: before the team started, or before the core first read the
line, since no cache then holds what was there before (19 R438; log 114). -/
def codeMust (s : State) (c : Iss) (va n : Nat) (m : Msg) : Bool :=
  (c.g.code.any fun v => v.ids.contains m.id && v.covers s c.core c.part c.ctx va n)
    || (m.loads && (c.t.known.contains m.id || match fetchedAt s c va with
      | some k => decide (m.id < k)
      | none => true))

/-- The core may hold the lines of some accesses from now on. -/
def noteFetched (s : State) (c : Iss) (ls : List LaneLoc) : State :=
  let new := ((ls.map fun l => l.va / 128).eraseDups).filter fun k => (fetchedAt s c (128 * k)).isNone
  if new = [] then s
  else modCore s c.core fun k =>
    { k with fetched := k.fetched ++ new.map fun l => { part := c.part, ctx := c.ctx, line := l, first := s.stores } }

/-- A word behind the first j of the stores to it: those at the L2, then those that the core holds dirty. -/
def wordBehind (s : State) (cmp w : Nat) (old pend : List Msg) (j : Nat) : List Byte × Bool :=
  if old.length ≤ j then (pend.take (j - old.length)).foldl Msg.onto (l2Word s cmp w)
  else (histOf s cmp w).after (old.take j)

/-- n bytes of one 64-bit word as a core reads them as code: behind the last store that it must return, or any later one, a
free choice. -/
def codeUnit (s : State) (core : Nat) (must : Msg → Bool) (cmp loc n : Nat) : Got × State :=
  let w := loc / 8
  let old := ((spFind s.hist w).map (·.msgs)).getD []
  let pend := spGet [] (getCore s core).pend w
  let all := old ++ pend
  let free := (all.reverse.takeWhile fun m => !(must m && Nat.land m.mask ((2 ^ n - 1) * 2 ^ (loc % 8)) != 0)).length
  let r := chooseBelow s (free + 1)
  let v := wordBehind s cmp w old pend (all.length - free + r.1)
  (⟨(v.1.drop (loc % 8)).take n, v.2, []⟩, r.2)

/-- The bytes of translated accesses as code; `must` says which stores to the bytes at an address they return, or later
ones. -/
def codeSet (core : Nat) (must : Nat → Nat → Msg → Bool) : State → List LaneLoc → Got × State
  | s, [] => (⟨[], false, []⟩, s)
  | s, l :: r =>
    let a : Got × State :=
      if l.kind = 3 then (⟨l2ReadSet s [l], l2BadSet s [l], []⟩, s)
      else
        let q := readUnits (fun s a k => codeUnit s core (must (l.va + (a - l.loc)) k) l.cmp a k) s (unitsOf l.loc l.size)
        (q.1, l2Asked q.2 l.cmp l.loc l.size)
    let b := codeSet core must a.2 r
    (a.1.and b.1, b.2)

/-- The n words from a clause address on, as accesses. -/
def wordAccs (va n : Nat) : List LaneAcc := (List.range n).map fun i => ⟨0, va + 4 * i, 4, false⟩

/-- The issuing path with slot 0 in TRAPINFO and fault records. -/
def Iss.atSlot (c : Iss) (k : Nat) : Iss := { c with p := { c.p with slot := k } }

/-- A trap of the whole clause: SLOT 0, no slot issued; the path resumes where it stood. -/
def clauseTrap (s : State) (c : Iss) (cause addr : Nat) : State :=
  takeTrapAt s (c.atSlot 0) cause 0 addr c.p.addr c.p.slot

/-- What a fetch of words comes to. -/
inductive FetchOut where
  | words (ws : List Nat) (s : State)
  | stop (s : State)

def fetchWords (s : State) (c : Iss) (va n : Nat) : FetchOut :=
  if 2 ^ 48 < va + 4 * n then .stop (clauseTrap s c causeFatal c.p.addr)
  else match xlateSet s (.core c.core) c.part c.ctx .fetch (c.sup s) (wordAccs va n) with
    | .trap cause _ a => .stop (clauseTrap s c cause a)
    | .fault gs => .stop (coreFaultBy s c ((c.atSlot 0).faulter .fetch) gs (.fetch c.gid c.live false))
    | .ok ls =>
      let r := codeSet c.core (codeMust s c) s ls
      let t := noteFetched r.2 c ls
      if r.1.bad then .stop (clauseTrap t c causePoison 0) else .words (wordsOf r.1.bytes) t

/-! ## Dictionaries (R241 to R248) -/

/-- What a path's handle decodes with: a rejected image, a loaded one, or nothing yet. -/
inductive DictView where
  | rejected
  | missing
  | image (es : List (Nat × Nat))

def dictSlot (s : State) (c : Iss) : Option DictSlot :=
  (getCore s c.core).dicts.find? fun d => d.part == c.part && d.ctx == c.ctx && d.handle == c.p.handle

def dictView (s : State) (c : Iss) : DictView :=
  if c.p.handle = 0 then .rejected
  else match dictSlot s c with
    | none => .missing
    | some d => match d.state with
      | .loading => .missing
      | .loaded => .image d.entries
      | .rejected => .rejected

/-- One dictionary slot word. -/
def slotOfImage (v : DictView) (w : Nat) : SlotCode :=
  match v with
  | .image es =>
    let e := es.getD (w / 2 ^ 24) (0, 0)
    let ent := e.1 + 2 ^ 64 * e.2
    if entryValid ent then .long (expand ent (w % 2 ^ 24)) false else .trap causeDictUndefined
  | _ => .trap causeDictHandle

/-- Decodes the slots of a clause in order, on fuel; the second and third words of an escape are its continuation. -/
def decodeSlots (v : DictView) : Nat → List Nat → List SlotCode
  | 0, _ => []
  | _, [] => []
  | k + 1, w :: r =>
    if w / 2 ^ 24 ≠ 255 then slotOfImage v w :: decodeSlots v k r
    else if w % 2 ^ 24 ≠ 0 then .trap causeClause :: decodeSlots v k r
    else match r with
      | hi :: lo :: r' => .long (BitVec.ofNat 64 (hi * 2 ^ 32 + lo)) true :: .cont :: .cont :: decodeSlots v k r'
      | _ => .trap causeClause :: decodeSlots v k r

/-- Whether some slot needs the dictionary. -/
def needsDict : Nat → List Nat → Bool
  | 0, _ => false
  | _, [] => false
  | k + 1, w :: r =>
    if w / 2 ^ 24 ≠ 255 then true
    else if w % 2 ^ 24 ≠ 0 then needsDict k r
    else match r with
      | _ :: _ :: r' => needsDict k r'
      | _ => needsDict k r

/-- A dictionary slot that a decode has used is the most recently used one. -/
def useDict (s : State) (c : Iss) : State :=
  modCore s c.core fun k => { k with dicts := k.dicts.map fun d =>
    if d.part == c.part && d.ctx == c.ctx && d.handle == c.p.handle then { d with used := s.clk } else d }

/-! ## Clause fetch -/

/-- The path with its fetched clause. A path placed at slot 1 behind an escaped JOIN begins at slot 3, and behind a JOIN
that is its clause's only slot at the next clause (08 R182, R184). -/
def withClause (p : Path) (cl : Clause) : Path :=
  let n := cl.header.toNat % 16
  let q := { p with clause := some cl, fetchFail := false, rotate := false }
  let k := if p.slot = 1 ∧ cl.slots.drop 1 = .cont :: cl.slots.drop 2 then 3 else p.slot
  if p.resumed then q
  else if n ≤ k then { q with addr := nextClause q, slot := 0, clause := none, noWait := false }
  else { q with slot := k }

/-- Whether the slot of a resumed path is the first of an instruction. -/
def resumeOk (p : Path) (cl : Clause) : Bool :=
  match cl.slots.drop p.slot with
  | [] => false
  | .cont :: _ => false
  | _ => true

/-- The clause with its decoded slots enters the path's buffer. -/
def fetchedClause (s : State) (c : Iss) (h : Nat) (ws : List Nat) : Event :=
  let v := dictView s c
  let need := needsDict 15 ws
  match v, need with
  | .missing, true => .refused .idle
  | _, _ =>
    let cl : Clause := { addr := c.p.addr, header := BitVec.ofNat 32 h, slots := decodeSlots v 15 ws }
    let s1 := if need then useDict s c else s
    if c.p.resumed && !resumeOk c.p cl then .next (takeTrap s1 c causeClause 0 c.p.addr)
    else .next (modPath s1 c.gid c.live fun p => withClause p cl)

/-- Whether a path waits for its clause: one that goes on, or one that was restored in a wait (10 R221, R228), whose
instruction issues again out of the clause. -/
def fetchable (c : Iss) : Bool :=
  canRun c && c.p.clause.isNone && !(c.p.rotate && hasParked c.g) && match c.p.wait with
    | .latch _ => false
    | .resamp => false
    | .trapRead _ => false
    | .faulted _ => false
    | _ => true

/-- CLAUSE_FETCH (R233, R235). -/
def tryClauseFetch (q : PathId) (s : State) : Event :=
  match issOf s q with
  | none => .refused .idle
  | some c =>
    if !fetchable c then .refused .idle
    else if c.p.fetchFail ∨ 2 ^ 48 ≤ c.p.addr then .next (clauseTrap s c causeFatal c.p.addr)
    else match fetchWords s c c.p.addr 1 with
      | .stop s1 => .next s1
      | .words hw s1 =>
        let h := hw.headD 0
        if !headerOk (BitVec.ofNat 32 h) then .next (clauseTrap s1 c causeClause c.p.addr)
        else match fetchWords s1 c (c.p.addr + 4) (h % 16) with
          | .stop s2 => .next s2
          | .words ws s2 => fetchedClause s2 c h ws

def execClauseFetch (q : PathId) (s : State) : Out := settle s (tryClauseFetch q s)

/-! ### Loads of a dictionary slot (R145, R246) -/

def DictSlot.isOf (d : DictSlot) (c : Iss) : Bool := d.part == c.part && d.ctx == c.ctx && d.handle == c.p.handle

def modDict (s : State) (c : Iss) (f : DictSlot → DictSlot) : State :=
  modCore s c.core fun k => { k with dicts := k.dicts.map fun d => if d.isOf c then f d else d }

/-- A load begins in the least recently used of the core's 8 slots, when none holds the handle. -/
def openDict (s : State) (c : Iss) : State :=
  if (dictSlot s c).isSome then s
  else modCore s c.core fun k =>
    let d : DictSlot :=
      { part := c.part, ctx := c.ctx, handle := c.p.handle, addr := 0, state := .loading, entries := [], used := s.clk }
    let old := k.dicts.foldl (fun m x => min m x.used) s.clk
    let keep := if k.dicts.length < 8 then k.dicts
      else match k.dicts.findIdx? fun x => x.used == old with
        | some i => k.dicts.eraseIdx i
        | none => k.dicts
    { k with dicts := keep ++ [d] }

/-- The load ends with an image or the rejected mark. -/
def closeDict (s : State) (c : Iss) (st : DictState) (es : List (Nat × Nat)) : State :=
  modDict s c fun d => { d with state := st, entries := es, used := s.clk, failed := false }

/-- A read of the load that faults: the path that leads it stops, and every path that needs the slot waits. -/
def dictFault (s : State) (c : Iss) (acc : Acc) (gs : List Granule) : Event :=
  if !canReport s c.part then .refused .idle
  else
    let s1 := coreFaultBy s c ((c.atSlot 0).faulter acc) gs (.fetch c.gid c.live true)
    .next (modDict s1 c fun d => { d with batch := some (getPart s c.part).nextSeq })

/-- Splits 4 KiB into 256 entries of two 64-bit halves. -/
def imageEntries (bs : List Byte) : List (Nat × Nat) :=
  (List.range 256).map fun i => (fieldOf bs (16 * i) 8, fieldOf bs (16 * i + 8) 8)

/-- The stores that the image of a slot returns, or later ones: those of the core's ICINVs, since no slot holds what they
cover (06 R143, R144), beside what the path's own fetches return. -/
def imageMust (s : State) (c : Iss) (va n : Nat) (m : Msg) : Bool :=
  codeMust s c va n m
    || (icinvsAt s c.core).any fun v => v.ids.contains m.id && v.covers s c.core c.part c.ctx va n

/-- The image read behind a directory entry; the slot keeps the image's address whatever comes of it (11 R248). -/
def loadImage (s : State) (c : Iss) (e : Nat) : Event :=
  let addr := bitsOf e 12 36 * 4096
  if !bitOf e 0 || bitsOf e 1 11 != 0 || bitsOf e 48 16 != 0 || bitsOf e 96 32 != 0 then .next (closeDict s c .rejected [])
  else
    let s1 := modDict s c fun d => { d with addr := addr }
    match xlateSet s1 (.core c.core) c.part c.ctx .fetch (c.sup s1) (rangeAccs addr 4096) with
    | .trap _ _ _ => .next (closeDict s1 c .rejected [])
    | .fault gs => dictFault s1 c .fetch gs
    | .ok ls =>
      let q := codeSet c.core (imageMust s1 c) s1 ls
      let es := imageEntries q.1.bytes
      .next (closeDict (noteFetched q.2 c ls) c (if q.1.bad || !imageOk s.stepping (es.map fun e => e.1 + 2 ^ 64 * e.2) then .rejected else .loaded) es)

/-- Whether the clause that a path fetches needs its dictionary. -/
def clauseNeedsDict (s : State) (c : Iss) : Bool :=
  !c.p.fetchFail && decide (c.p.addr < 2 ^ 48) && match fetchWords s c c.p.addr 1 with
    | .stop _ => false
    | .words hw s1 =>
      let h := hw.headD 0
      headerOk (BitVec.ofNat 32 h) && match fetchWords s1 c (c.p.addr + 4) (h % 16) with
        | .stop _ => false
        | .words ws _ => needsDict 15 ws

/-- The lowest path of a core whose clause needs a handle of a context whose slot is empty, or loading without an outstanding
batch. -/
def wantsDict (s : State) (core ctx handle : Nat) : Option Iss :=
  s.groups.findSome? fun e => [0, 1].findSome? fun n => match issOf s ⟨e.1, n⟩ with
    | some c =>
      let free := match dictSlot s c with
        | none => true
        | some d => d.state == .loading && d.batch.isNone
      if c.core == core && c.ctx == ctx && c.p.handle == handle && c.g.place.isSome && fetchable c && handle != 0 && free
          && clauseNeedsDict s c
      then some c else none
    | none => none

/-- DICTIONARY_SLOT_LOAD (R246): the paths of the core that need the handle share the load. -/
def tryDictionarySlotLoad (core ctx handle : Nat) (s : State) : Event :=
  match wantsDict s core ctx handle with
  | none => .refused .idle
  | some c =>
    let s1 := openDict s c
    if ((dictSlot s1 c).map (·.failed)).getD false then .next (closeDict s1 c .rejected [])
    else
      let va := (ctxBase s c.part c.ctx 256 + 16 * handle) % 2 ^ 64
      match readRange s1 (.core c.core) c.part c.ctx .table true va 16 with
      | .trap _ _ => .next (closeDict s1 c .rejected [])
      | .fault gs => dictFault s1 c .table gs
      | .ok bs bad =>
        let s2 := rangeAsked s1 (.core c.core) c.part c.ctx .table true va 16
        if bad then .next (closeDict s2 c .rejected []) else loadImage s2 c (leNat bs)

def execDictionarySlotLoad (core ctx handle : Nat) (s : State) : Out := settle s (tryDictionarySlotLoad core ctx handle s)

/-! ## What stands before an issue (R236 to R240; 09 R212) -/

/-- The register codes of the opcodes marked "0 or 1", predicate positions left out (R259). -/
def valueCodes (op : Nat) (f : Fields) : List (BitVec 9) :=
  let ri := bitOf f.mod.toNat 5
  match op with
  | 0x23 => [f.d, f.a, f.b]
  | 0x24 => [f.d, f.a, f.b, f.c]
  | 0x25 => [f.d, f.a, f.b]
  | 0x28 => [f.d, f.a, f.b, f.c]
  | 0x2B => [f.d, f.a, f.b, f.c]
  | 0x2C => [f.d, f.a, f.c]
  | 0x2D => [f.d, f.a, f.b, f.c]
  | 0x2E => [f.d, f.a]
  | 0x2F => [f.d, f.a]
  | 0x30 => [f.d, f.a]
  | 0x31 => [f.d, f.a, f.b, f.c]
  | 0x32 => if ri then [f.a] else [f.a, f.b]
  | 0x33 => [f.d, f.a, f.b]
  | 0x34 => [f.d, f.a]
  | 0x35 => [f.d]
  | 0x36 => [f.d, f.a]
  | 0x3B => [f.d, f.a, f.b]
  | _ => if ri then [f.d, f.a] else [f.d, f.a, f.b]

/-- The class in which an instruction executes. -/
def execClass (op : Nat) (f : Fields) : Nat :=
  match opClass op with
  | some k => k
  | none => if (valueCodes op f).all fun o => (opnd o).isUniform then 0 else 1

/-- The class and position rules for the instruction at a path's slot. -/
def slotPlaced (p : Path) (cl : Clause) (op : Nat) (f : Fields) : Bool :=
  let k := bitsOf cl.header.toNat 5 3
  let e := execClass op f
  (k == 7 || e == 0 || e == k) && (!opMustEnd op || atClauseEnd p) && (op != 0x07 || p.slot == 0)

/-- The flags that the header's WAIT names. -/
def waitFlags (cl : Clause) : List Nat := (List.range 12).filter fun k => bitOf cl.header.toNat (8 + k)

/-- The acquire edges of a path's threads behind a WAIT: they observe the jobs that completed on its flags, each at its engine
scope (06 R135). -/
def waitEdges (s : State) (c : Iss) (fl : List Nat) : State :=
  (fl.flatMap fun k => spGet [] c.g.jobEdge k).foldl (fun s r => acquireAll s (threadsOf c.gid c.p.mask) r.scope [r]) s

/-- What a live path does next. -/
inductive Ready where
  | blocked
  /-- its slot reads nothing that is pending, but writes a register that an operation in flight has yet to write, or stands
  behind an atomic in flight -/
  | held
  /-- the path traps, begins to wait or has retired without issuing -/
  | become (next : State)
  /-- the instruction issues from this state -/
  | issue (i : Instr) (from_ : State)

/-- The decode traps of a slot, in the order of R238. -/
def slotReady (s : State) (c : Iss) (cl : Clause) : Ready :=
  match cl.slots.drop c.p.slot with
  | [] => .become (takeTrap s c causeClause 0 c.p.addr)
  | .cont :: _ => .become (takeTrap s c causeClause 0 c.p.addr)
  | .trap cause :: _ => .become (takeTrap s c cause 0 c.p.addr)
  | .long lf _ :: _ =>
    match decodeLong lf with
    | none => .become (takeTrap s c causeOpcode 0 c.p.addr)
    | some i =>
      let f := fieldsOf lf
      let uses := regUses c (opOf lf) f
      if !opAllowed s.stepping (opOf lf) then .become (takeTrap s c causeOpcode 0 c.p.addr)
      else if !slotPlaced c.p cl (opOf lf) f then .become (takeTrap s c causeClause 0 c.p.addr)
      else match blockedBy c.g uses with
        | some t => .become (waitOn s c (.token t))
        | none =>
          if opBlocks s c.gid uses then
            if readsBefore s c (opOf lf) uses then .issue i { s with cur := some ⟨c.gid, c.live⟩, fresh := s.fresh + 1 }
            else if opBlocks s c.gid (uses.filter fun u => !u.out) then .blocked else .held
          else if atomsHold s c (opOf lf) i || (releases i && readsHold s c) then .held
          else .issue i { s with cur := some ⟨c.gid, c.live⟩ }

/-- Whether a waiting path may try its instruction again without an event of its own. -/
def waitOver (s : State) (c : Iss) : Bool :=
  match c.p.wait with
  | .none => true
  | .barrier n k => (getBar c.t n).done != k
  | .token t => !c.g.tokPending t
  | .latch n => !(getLatch c.t n).members.contains c.g.index
  | .tguFull => match slotInstr c.p with
    | some (.job _) => decide (cardCount s c.part < 16384)
    | _ => decide (nodeCount s c.part < 4096)
  | .refill => match spFind c.g.refill c.live with
    | some r => r.batch.isNone
    | none => true
  | _ => false

/-- What the path in a live slot does next (R212). -/
def pathReady (s : State) (q : PathId) : Ready :=
  match issOf s q with
  | none => .blocked
  | some c =>
    if !canRun c then .blocked
    else match c.p.wait, c.p.clause with
      | .trapRead cause, _ => if c.p.hold.isSome then .blocked else .become (trapEntry s q.gid q.live cause)
      | _, none => .blocked
      | .verdict e, some _ => if (spFind s.entries e).isNone then .become (retire s c) else .blocked
      | _, some cl =>
        if !waitOver s c then .blocked
        else if c.p.slot ≠ 0 ∨ c.p.noWait then slotReady s c cl
        else if (waitFlags cl).any fun k => flagCount c.g (some k) != 0 then .blocked
        else slotReady (waitEdges s c (waitFlags cl)) c cl

/-! ## Rotation, boosting, the end of a group -/

/-- PATH_ROTATION (08 R183): the oldest PARKED record takes the path's slot, and the path its place as a new record. -/
def tryPathRotation (q : PathId) (s : State) : Event :=
  match issOf s q with
  | none => .refused .idle
  | some c =>
    if !c.p.rotate || c.p.clause.isSome then .refused .idle
    else match takeOldestParked c.g.stack with
      | none => .refused .idle
      | some (r, rest) =>
        .next (modGroup s c.gid fun g =>
          { g.setLive c.live (some (recPath r)) with stack := parkedRec c.p :: rest })

def execPathRotation (q : PathId) (s : State) : Out := settle s (tryPathRotation q s)

/-- Whether a path is ready (R212). -/
def readyNow (s : State) (q : PathId) : Bool :=
  match pathReady s q with
  | .blocked => false
  | _ => true

/-- GROUP_BOOST (09 R213): a path has been ready for 1,024 clocks without an issue; its group goes first until the path issues
its next clause. -/
def tryGroupBoost (gid : Nat) (s : State) : Event :=
  match getGroup s gid with
  | none => .refused .idle
  | some g =>
    let late (n : Nat) : Bool := match g.live n with
      | some p => !p.boosted && decide (1024 ≤ p.readyFor) && readyNow s ⟨gid, n⟩
      | none => false
    let boost (s : State) (n : Nat) : State := if late n then modPath s gid n fun p => { p with boosted := true } else s
    if late 0 || late 1 then .next (boost (boost s 0) 1) else .refused .idle

def execGroupBoost (gid : Nat) (s : State) : Out := settle s (tryGroupBoost gid s)

/-- Whether a group has a spawn duty: it has arrived at a RESAMP that is not yet complete (08 R193). -/
def spawnDuty (s : State) (gid : Nat) (t : Team) : Bool :=
  match getNode s t.node with
  | some n => n.arrivals.any fun a => a.path.gid == gid
  | none => false

/-- Whether every operation that a group issued has completed (12 R271). -/
def groupQuiet (s : State) (gid : Nat) (g : Group) : Bool :=
  !(s.ops.any fun e => e.2.gid == gid) && !(g.tokens.any fun e => e.2.st == .pending)

/-- The team end: a release edge at .sys by its threads; its weight-buffer slots are free (05 R113; 15 R354), and its context
may have no team left. -/
def endTeam (s : State) (tid : Nat) (t : Team) : State :=
  let core := t.core.getD 0
  let s1 := modTeam (freeWeights (publishAt s core 6) core tid) tid fun t => { t with phase := .ended }
  settleContext (reapTeam (returnUnits s1 tid) tid) t.part t.ctx

/-- A quiet ended group frees its place, and the last one ends its team. -/
def freeGroup (s : State) (gid : Nat) (g : Group) : State :=
  if !groupQuiet s gid g then s
  else
    let left := groupReleased s gid
    let s1 := modTeam (forgetGroup (modGroup s gid fun g => { g with place := none }) gid) g.team fun t =>
      { t with left := addIds t.left left }
    match getTeam s1 g.team with
    | none => s1
    | some t =>
      if t.groups.all fun k => match getGroup s1 k with
          | some x => x.ended && x.place.isNone
          | none => true
      then endTeam s1 g.team t else s1

/-- A group that ends leaves its latch lists, which break, and the members waiting there trap (15 R360). -/
def breakLatches (s : State) (gid : Nat) (g : Group) : State :=
  let broken (n : Nat) (s : State) (q : PathId) : State :=
    match issOf s q with
    | some c => if q.gid ≠ gid ∧ c.p.wait = .latch n then takeTrap s c causeGang 0 0 else s
    | none => s
  let one (s : State) (e : Nat × Latch) : State :=
    e.2.arrived.foldl (broken e.1) (modLatch s g.team e.1 fun l => { l.without g.index gid true with arrived := [] })
  match getTeam s g.team with
  | none => s
  | some t => (t.latch.filter fun e => e.2.members.contains g.index).foldl one s

/-- GROUP_END (08 R184; 12 R271): a group without lanes and records ends, and frees its place once its operations have
completed. -/
def tryGroupEnd (gid : Nat) (s : State) : Event :=
  match getGroup s gid with
  | none => .refused .idle
  | some g => match getTeam s g.team with
    | none => .refused .idle
    | some t =>
      if g.ended then
        if g.place.isNone ∨ !groupQuiet s gid g then .refused .idle else .next (freeGroup s gid g)
      else if t.phase ≠ .running ∨ g.saved ∨ g.live0.isSome ∨ g.live1.isSome ∨ g.stack ≠ [] ∨ spawnDuty s gid t
      then .refused .idle
      else
        let g1 := { g with ended := true, rets := [], halt := none }
        .next (freeGroup (breakLatches (setGroup s gid g1) gid g1) gid g1)

def execGroupEnd (gid : Nat) (s : State) : Out := settle s (tryGroupEnd gid s)

end Sys2Proof.Machine
end

