-- ==== Sys2Proof/Machine/Late.lean ====
section
/-!
DEFINITION. Accesses that are performed after they issue: plain loads that may still read again (05 R112, R121), the release
edges that threads have passed (05 R113, R114), the stores that cores publish of themselves (05 R117), and the phases of
barriers (14 R339).
-/
namespace Sys2Proof.Machine

/-! ## Plain loads in flight (R112; log 122) -/

/-- The accesses of an LD or LDA that completes its checks. -/
def loadLocs (s : State) (c : Iss) (f : Fields) : List LaneLoc :=
  match recScalar f.b with
  | none => []
  | some n =>
    let r := recAt c.g n
    let lanes := if (opnd f.d).isScalarReg then [lowLane (active c f)] else lanesOf (active c f)
    match prepAccess s c .read none (r.size f.x.toNat)
        (lanePlaces s c r (r.size f.x.toNat) (opnd f.a) f.imm9 lanes) with
    | .stop _ => []
    | .go ls => ls

/-- The plain loads that an LD begins; `next` is the number of the next store. One of KIND 3 reads at once. -/
def newLoads (s : State) (c : Iss) (f : Fields) (next : Nat) : List LateLoad :=
  ((loadLocs s c f).filter fun l => l.kind != 3).map fun l =>
    { mask := if (opnd f.d).isScalarReg then active c f else BitVec.ofNat 64 (2 ^ l.lane)
      lane := l.lane, cmp := l.cmp, loc := l.loc, size := l.size, hi := l.hi, ftz := ftzOn c, f := f
      recd := match recScalar f.b with
        | some n => c.g.getS n + 2 ^ 32 * c.g.getS (n + 1) + 2 ^ 64 * c.g.getS (n + 2) + 2 ^ 96 * c.g.getS (n + 3)
        | none => 0
      next := next }

/-- Whether two ranges of bytes touch one 64-bit word. -/
def sameWord (a n b m : Nat) : Bool := overlap (a / 8) ((a + n + 7) / 8 - a / 8) (b / 8) ((b + m + 7) / 8 - b / 8)

/-- The loads of a group that `sel` names have their values for good. -/
def endLoads (s : State) (gid : Nat) (sel : LateLoad → Bool) : State :=
  if s.ops.all fun e => e.2.gid != gid || e.2.loads.all fun l => !sel l then s
  else
    { s with ops := s.ops.map fun e =>
        (e.1, if e.2.gid == gid then { e.2 with loads := e.2.loads.filter fun l => !sel l } else e.2) }

/-- Whether an instruction makes no read of memory before which a load of its threads must have been performed: one that only
computes, stores or touches scratchpad. -/
def readsNothing (i : Instr) : Bool :=
  match i with
  | .st _ => true
  | .lds _ => true
  | .sts _ => true
  | .pft _ => true
  | .cinv _ => true
  | .atom _ => true
  | .acas _ => true
  | i => match opcodeOf i with
    | some op => decide (op < 0x60) && op != 0x0B
    | none => true

/-- The loads in flight behind an instruction of a path, which issued at `s` and has left `t`: its threads' are over at a
release edge (R114), and at a later read of memory those that it may overtake no longer (R110); a later load or atomic holds
only those of its words. -/
def passLoads (s t : State) (c : Iss) (i : Instr) : State :=
  let m := match i.fields with
    | some f => active c f
    | none => c.p.mask
  let mine (l : LateLoad) : Bool := decide (l.mask &&& m ≠ 0)
  let atoms := t.parts.flatMap fun e => e.2.atoms.filter fun a => a.gid == c.gid
  let t1 := endLoads t c.gid fun l => atoms.any fun a => l.mask.getLsbD a.lane && sameWord l.loc l.size a.loc a.size
  let meets (f : Fields) : List LaneLoc := if t1.ops.all fun e => e.2.loads.isEmpty then [] else loadLocs s c f
  if releases i then endLoads t1 c.gid mine
  else match i with
    | .ld f => let ls := meets f; endLoads t1 c.gid fun l => mine l && ls.any fun x => sameWord l.loc l.size x.loc x.size
    | .lda f => let ls := meets f; endLoads t1 c.gid fun l => mine l && ls.any fun x => sameWord l.loc l.size x.loc x.size
    | i => if readsNothing i then t1 else endLoads t1 c.gid mine

/-- An LD that has issued at `s` and left `t` may read again until it completes, under what its threads knew as it issued. -/
def beginLoads (s t : State) (c : Iss) (i : Instr) : State :=
  match i with
  | .ld f =>
    if t.order ≠ s.order + 1 then t
    else
      let ls := newLoads s c f t.stores
      match spFind t.ops s.order with
      | some o =>
        if ls = [] then t
        else
          let known := (lanesOf (active c f)).map fun l => (l, knowAtIssue t (.thread c.gid l))
          { t with ops := spPut t.ops s.order { o with loads := ls, known := known } }
      | none => t
  | _ => t

/-- Whether two writes name one register of one lane. -/
def RegWrite.sameReg : RegWrite → RegWrite → Bool
  | .vec r l _ _, .vec q k _ _ => r == q && l == k
  | .scal r _ _, .scal q _ _ => r == q
  | _, _ => false

/-- Reads made under what several agents knew at an earlier issue. -/
def readUnderAll {α : Type} (ks : List (Agent × Know)) (f : State → α × State) (s : State) : α × State :=
  match ks with
  | [] => f s
  | e :: r => readUnder s e.1 e.2 (readUnderAll r f)

/-- A load reads again: its operation writes what it has read last. -/
def loadAgain (s : State) (id : Nat) (l : LateLoad) : State :=
  match spFind s.ops id with
  | none => s
  | some o =>
    let ags := threadsOf o.gid l.mask
    let ks := (lanesOf l.mask).map fun k => (Agent.thread o.gid k, (spFind o.known k).getD {})
    let b := readUnderAll ks (fun s => readBytes s ags l.cmp 0 l.loc l.size) s
    let x := l.f.x.toNat
    let v := loadValue l.ftz (bitOf l.f.mod.toNat 2) (bufRec l.recd) x l.hi (leNat b.1.bytes)
    let ws := blockWrites (opnd l.f.d) (blockRegs x) l.lane v b.1.bad
    { b.2 with ops := spPut b.2.ops id { o with writes := o.writes.map fun w => (ws.find? w.sameReg).getD w } }

/-- Loads in flight read again: which, is a free choice. -/
def lateLoads (s : State) : State :=
  s.ops.foldl (fun s e => e.2.loads.foldl (fun s l =>
    let k := choose s
    if k.1 then loadAgain k.2 e.1 l else k.2) s) s

/-! ## Release edges that threads have passed (05 R113; 06 R143) -/

/-- Whether an instruction that issued with a path has passed its edges: it has retired, or waits at a barrier at which it has
arrived; it has neither trapped nor come to wait before its effect. -/
def passed (s t : State) (q : PathId) : Bool :=
  let traps (x : State) : Nat := match getGroup x q.gid with
    | some g => (g.stack.filter fun r => r.kind == .trap).length
    | none => 0
  decide (traps t ≤ traps s) && match (getGroup t q.gid).bind (·.live q.live) with
    | some p => (match p.wait with
      | .none => p.hold.isNone
      | .barrier _ _ => true
      | _ => false)
    | none => true

/-- A release edge that threads have passed orders what they knew before it (an ICINV counts those stores). -/
def noteReleased (s t : State) (c : Iss) (i : Instr) : State :=
  match i with
  | .icinv _ => t
  | .ffence _ => t
  | i =>
    if !releases i || !passed s t ⟨c.gid, c.live⟩ then t
    else
      let m := match i.fields with
        | some f => active c f
        | none => c.p.mask
      (threadsOf c.gid m).foldl (fun t a =>
        let ids := (getKnow s a).released
        if ids.all (spGet {} t.know a.key).out.contains then t
        else modKnow t a fun k => { k with out := addIds k.out ids }) t

/-- What follows an instruction that issued with a path: its release edges, and the loads before it. -/
def edgesBehind (s t : State) (c : Iss) (i : Instr) : State := passLoads s (noteReleased s t c i) c i

/-! ## Stores that become visible of themselves (R117) -/

/-- Whether no agent has met a store: none that must see it, and no read has returned it. -/
def unmet (s : State) (m : Msg) : Bool :=
  s.know.all fun e => !e.2.hb.contains m.id && e.2.floor.all fun f => f.id != m.id || f.mine

/-- Whether a store that a core publishes takes an earlier dirty one to the same word with it: both write a byte, and one
agent made them or somebody may have met one. -/
def publishesWith (s : State) (m x : Msg) : Bool :=
  Nat.land m.mask x.mask != 0 && (m.who == x.who || !unmet s m || !unmet s x)

/-- Of stores from the last to the first, those that a later one takes with it. -/
def takenWith (s : State) : List Msg → List Msg → List Msg
  | [], taken => taken
  | x :: r, taken => takenWith s r (if taken.any fun m => publishesWith s m x then x :: taken else taken)

/-- Publishes one of the stores to a word that a core holds dirty, behind the earlier ones that it takes with it. -/
def publishSome (s : State) (e : Nat × Nat × Nat) : State :=
  let ms := spGet [] (getCore s e.1).pend e.2.1
  match ms.drop e.2.2 with
  | [] => s
  | m :: _ =>
    let out := takenWith s (ms.take e.2.2).reverse [m]
    let s1 := modCore s e.1 fun c => { c with pend := spSet [] c.pend e.2.1 (ms.filter fun x => !out.any fun y => y.id == x.id) }
    out.foldl (fun s x => publish s e.2.1 x) s1

/-- Stores become visible of themselves: which, and when, is free. -/
def spillStores (s : State) : State :=
  if s.cores.all fun e => e.2.pend.isEmpty then s else (Config.writeBacks s.clk).foldl publishSome s

/-! ## Barrier phases (R339) -/

/-- Every phase that is done completes, at the first moment (06 R138). -/
def settlePhases (s : State) : State :=
  s.teams.foldl (fun s e => (e.2.barrier.map (·.1)).foldl (fun s n => match tryBarrierPhaseComplete e.1 n s with
    | .next t => t
    | _ => s) s) s

end Sys2Proof.Machine
end

