-- ==== Sys2Proof/Machine/Wakes.lean ====
section
/-!
DEFINITION. Paths that wait for something and try their instruction again when it has come (04 R81; 09 R209; 15 R352, R354;
16 R396).
-/
namespace Sys2Proof.Machine

/-- Whether a path that waits may try its instruction again: its group may run, and no pending token, operation or atomic in
flight holds the instruction back (15 R352; 09 R212). -/
def mayRetry (s : State) (c : Iss) : Bool :=
  canRun c && match c.p.clause with
    | none => false
    | some cl => match slotReady s c cl with
      | .issue _ _ => true
      | _ => false

/-- An instruction tried again, with what follows it (05 R113, R114). -/
def triedAgain (s : State) (c : Iss) (i : Instr) : Event → Event
  | .next t => .next (edgesBehind s t c i)
  | o => o

/-- CHANNEL_OPERAND_RETRY (R209): a stalled MOV of a group that may run issues again when its step can succeed. -/
def tryChannelOperandRetry (q : PathId) (s : State) : Event :=
  match issOf s q with
  | none => .refused .idle
  | some c => match c.p.wait, slotInstr c.p with
    | .channel, some (.mov f) =>
      if !mayRetry s c then .refused .idle
      else match execMov f (wakeAs s q) with
        | .next t => if stillBlocked t q then .refused .idle else .next (edgesBehind s t c (.mov f))
        | o => eventOf o
    | _, _ => .refused .idle

def execChannelOperandRetry (q : PathId) (s : State) : Out := settle s (tryChannelOperandRetry q s)

/-- LDS_FE_WAKE (R81): a waiting LDS.fe whose granules are full issues again. -/
def tryLdsFeWake (q : PathId) (s : State) : Event :=
  match issOf s q with
  | none => .refused .idle
  | some c => if !mayRetry s c then .refused .idle else match c.p.wait, slotInstr c.p with
    | .fullEmpty, some (.lds f) =>
      let lanes := if (opnd f.d).isScalarReg then [lowLane (active c f)] else lanesOf (active c f)
      if (accGranules (2 ^ f.x.toNat) (spadAccs s c f f.imm9 (2 ^ f.x.toNat) lanes)).all (spadFull c.t)
      then eventOf (execLds f (wakeAs s q)) else .refused .idle
    | _, _ => .refused .idle

def execLdsFeWake (q : PathId) (s : State) : Out := settle s (tryLdsFeWake q s)

/-- BINDING_RELEASE_WAKE (R354): an MLDW or MLDS whose binding has become free issues again. -/
def tryBindingReleaseWake (q : PathId) (s : State) : Event :=
  match issOf s q with
  | none => .refused .idle
  | some c => match c.p.wait, slotInstr c.p with
    | .binding r, some i =>
      if !mayRetry s c || !bindingFree s c.core c.g.team r then .refused .idle
      else match i with
        | .mldw f => triedAgain s c i (eventOf (execMldw f (wakeAs s q)))
        | .mlds f => triedAgain s c i (eventOf (execMlds f (wakeAs s q)))
        | _ => .refused .idle
    | _, _ => .refused .idle

def execBindingReleaseWake (q : PathId) (s : State) : Out := settle s (tryBindingReleaseWake q s)

/-- ORDB_WAKE (R396): a path that waits for its counters polls again; a poll that changes nothing is no event. -/
def tryOrdbWake (q : PathId) (s : State) : Event :=
  match issOf s q with
  | none => .refused .idle
  | some c =>
    if c.p.wait ≠ .ordering ∨ c.p.hold.isSome ∨ !mayRetry s c then .refused .idle
    else
      let same (t : State) : Bool := match issOf t q with
        | some d => decide (d.p.wait = .ordering) && d.p.hold.isNone && d.p.found == c.p.found
        | none => false
      let try_ (o : Out) : Event := match eventOf o with
        | .next t => if same t then .refused .idle else .next t
        | o => o
      match slotInstr c.p with
      | some (.ordb f) => triedAgain s c (.ordb f) (try_ (execOrdb f { s with cur := some q }))
      | some (.orde f) => triedAgain s c (.orde f) (try_ (execOrde f { s with cur := some q }))
      | _ => .refused .idle

def execOrdbWake (q : PathId) (s : State) : Out := settle s (tryOrdbWake q s)

end Sys2Proof.Machine
end

