-- ==== Sys2Proof/Machine/Faults.lean ====
section
/-!
DEFINITION. The fault queue, releases, fault saves and restores of groups, and invalidation commands
(03 R54 to R57, R67 to R72; 10 R220, R221, R231).
-/
namespace Sys2Proof.Machine

/-! ## Writes through a partition window -/

/-- A write to a partition window by its offset: it waits while PART_STATUS.BUSY is 1 (18 R424), and the window of a
partition that does not exist holds no register. -/
def windowOr (s : State) (part off value : Nat) (body : State) (adapter : Nat := 0) : State :=
  if s.busy then { s with heldWrites := s.heldWrites ++ [(adapter, part * 2 ^ 24 + off, BitVec.ofNat 64 value)] }
  else if partCount s ≤ part then s
  else body

/-! ## The fault queue (R69, R70) -/

def ringSize (p : Partition) : Nat := 2 ^ p.faultK
def faultRing (p : Partition) : Nat := bitsOf p.faultBase.toNat 12 40 * 2 ^ 12
/-- Free places of the ring; one is kept as the full mark. -/
def ringRoom (p : Partition) : Nat :=
  ringSize p - 1 - (p.faultHead + ringSize p - p.faultTail % ringSize p) % ringSize p

/-- A write of the machine's own that is published: each of its words is a store, and their numbers are given. -/
def physPublish (s : State) (pa n v : Nat) : List Nat × State :=
  (cellWords (cellsAt pa (leBytes n v))).foldl (fun a e =>
    let m : Msg := { id := a.2.stores, who := 7, bytes := e.2, clk := a.2.clk }
    (a.1 ++ [m.id], publish { a.2 with stores := a.2.stores + 1 } e.1 m)) ([], s)

/-- Writes records from HEAD on; PHASE turns at each wrap. A record is published before HEAD goes past it (R70). -/
def ringWrite (s : State) (part : Nat) : List Nat → State
  | [] => s
  | r :: rest =>
    let p := getPart s part
    let q := physPublish s (faultRing p + 32 * p.faultHead) 32 (r + if p.phase then 2 ^ 63 else 0)
    let h := (p.faultHead + 1) % ringSize p
    ringWrite (modPart q.2 part fun p =>
      { p with
        faultHead := h, phase := if h = 0 then !p.phase else p.phase, faultEnds := addIds p.faultEnds q.1 }) part rest

/-- Signals the servicer (FAULTQ_STATUS.SVC). -/
def signalServicer (s : State) (part : Nat) : State :=
  if (getPart s part).faultSvc then tellHost s (.mcSignal part) else msix s part 0

/-- FAULT_BATCH_ENTER_RING (R70): the waiting batch with the lowest SEQ enters when the ring has room for all of it. -/
def tryFaultBatchEnterRing (part : Nat) (s : State) : Event :=
  let p := getPart s part
  match p.batches.find? fun b => !b.inRing with
  | none => .refused .idle
  | some b =>
    if ringRoom p < b.records.length then .refused .idle
    else
      let s1 := ringWrite s part b.records
      let s2 := modPart s1 part fun p =>
        { p with batches := p.batches.map fun x => if x.seq = b.seq then { x with inRing := true } else x }
      .next (signalServicer s2 part)

def execFaultBatchEnterRing (part : Nat) (s : State) : Out := settle s (tryFaultBatchEnterRing part s)

/-- A write to FAULTQ_BASE or FAULTQ_SIZE (R69), accepted only while the queue is idle. -/
def faultqConfig (s : State) (part : Nat) (size : Bool) (value : Quad) : State :=
  let p := getPart s part
  if p.faultHead ≠ p.faultTail % ringSize p ∨ p.batches ≠ [] then s
  else
    let q := { p with faultHead := 0, faultTail := 0, phase := true }
    setPart s part
      (if size then { q with faultK := max 7 (min 20 (value.toNat % 32)) }
       else { q with faultBase := BitVec.ofNat 64 (bitsOf value.toNat 12 40 * 2 ^ 12) })

/-- FAULTQ_CONFIG_WRITE (R69). -/
def execFaultqConfigWrite (part : Nat) (size : Bool) (value : Quad) (s : State) : Out :=
  .next (windowOr s part (if size then 0x011008 else 0x011000) value.toNat (faultqConfig s part size value))

/-! ## Releases (R71) -/

/-- A path's batch is over: its instruction, fetch or dictionary load is made again; `mark` notes a failure. -/
def releasePath (s : State) (gid live : Nat) (fail : Bool) (mark : Path → Path) : State :=
  modGroup (modPath s gid live fun p => { (if fail then mark p else p) with wait := p.under, under := .none }) gid fun g =>
    { g with batch := none, release := if g.saved then some fail else none }

/-- The batch of a dictionary load is over (11 R246): whichever path comes next makes the load again, or ends it. -/
def releaseDict (s : State) (part seq : Nat) (fail : Bool) : State :=
  let f (d : DictSlot) : DictSlot :=
    if d.part == part && d.batch == some seq then { d with batch := none, failed := fail } else d
  { s with cores := s.cores.map fun e => (e.1, { e.2 with dicts := e.2.dicts.map f }) }

/-- An aperture access whose batch failed: a read completes as poisoned data, a write is dropped (18 R425). -/
def apFailed (s : State) (adapter : Nat) (w : ApWait) : State :=
  if w.write then s else tellHost s (.readData adapter 0 true)

def modAdapter (s : State) (a : Nat) (f : Adapter → Adapter) : State :=
  { s with adapters := spSet {} s.adapters a (f (spGet {} s.adapters a)) }

/-- Ends the wait of an aperture access; with FAIL = 0 it is made again behind no other access to its bytes. -/
def releaseAperture (s : State) (adapter seq : Nat) (fail : Bool) : State :=
  let d := spGet ({} : Adapter) s.adapters adapter
  match d.waits.find? fun w => w.seq == seq with
  | none => s
  | some w =>
    let s1 := modAdapter s adapter fun d => { d with waits := d.waits.filter fun x => x.seq != seq }
    if fail then apFailed s1 adapter w
    else modAdapter s1 adapter fun d => { d with held := { w with seq := 0 } :: d.held }

/-- Whether a batch lists the granule of an address; it lists 64 at most (R67). -/
def Batch.names (b : Batch) (va : Nat) : Bool := b.records.any fun r => bitsOf r 76 52 == va / 4096

/-- What the end of a batch does to its client. Of a node's statistics, the adds on the granules that it lists are dropped. -/
def releaseClient (s : State) (part : Nat) (b : Batch) (fail : Bool) : State :=
  match b.client with
  | .group gid live => releasePath s gid live fail fun p => { p with failed := true }
  | .fetch gid live false => releasePath s gid live fail fun p => { p with fetchFail := true }
  | .fetch gid live true => releasePath (releaseDict s part b.seq fail) gid live fail id
  | .trapRead gid live =>
    match issOf s ⟨gid, live⟩ with
    | some c => match c.p.wait, fail with
      | .trapRead cause, true => contextReset s c.part c.ctx 4 cause
      | _, _ => modPath s gid live fun p => { p with hold := none }
    | none => s
  | .job j => modJob s j fun x => { x with batch := none, failed := fail }
  | .entry e => { s with entries := spMod s.entries e fun x => { x with batch := none, failed := fail } }
  | .card p q i =>
    let f (r : RecPhase) : RecPhase := match r with
      | .card a _ _ => .card a none fail
      | r => r
    modPart s p fun v => { v with queues := spMod v.queues q fun k => { k with recs := spMod k.recs i f } }
  | .qobj n => modNode s n fun x => { x with batch := none, qobjFail := fail }
  | .args t => modTeam s t fun x => { x with batch := none, argFail := fail }
  | .tile t => { s with tiles := spMod s.tiles t fun x => { x with batch := none, failed := fail } }
  | .ray gid lane => modGroup s gid fun g =>
      { g with rays := spMod g.rays lane fun r => { r with fault := none, failed := fail } }
  | .sample p =>
    let f (x : Sample) : Sample := if x.batch == some b.seq then { x with batch := none, failed := fail } else x
    modPart s p fun v => { v with samples := v.samples.map f }
  | .stats n => modNode s n fun x =>
      { x with batch := none, owed := if fail then x.owed.map fun l => l.filter fun e => !b.names e.1 else x.owed }
  | .aperture a => releaseAperture s a b.seq fail
  | .regRead op _ => { s with ops := spMod s.ops op fun x => { x with batch := none, failed := fail } }
  | .ordering gid live => modPath s gid live fun p => { p with hold := none, failed := p.failed || fail }
  | .refill gid key => modGroup s gid fun g =>
      { g with refill := spMod g.refill key fun r => { r with batch := none, failed := fail } }

/-- A write to FAULTQ_RELEASE: a batch that is not outstanding sets BAD_RELEASE. -/
def releaseBatch (s : State) (part seq : Nat) (fail : Bool) : State :=
  match (getPart s part).batches.find? fun b => b.seq == seq with
  | none => modPart s part fun p => { p with badRelease := true }
  | some b =>
    releaseClient (modPart s part fun p => { p with batches := p.batches.filter fun x => x.seq != seq }) part b fail

/-- FAULT_RELEASE_REPLAY: FAULTQ_RELEASE with FAIL = 0. -/
def execFaultReleaseReplay (part seq : Nat) (s : State) : Out :=
  .next (windowOr s part 0x011020 (seq % 2 ^ 32) (releaseBatch s part seq false))

/-- FAULT_RELEASE_FAIL: FAULTQ_RELEASE with FAIL = 1. -/
def execFaultReleaseFail (part seq : Nat) (s : State) : Out :=
  .next (windowOr s part 0x011020 (seq % 2 ^ 32 + 2 ^ 32) (releaseBatch s part seq true))

/-! ## Fault save and restore of a group (10 R220, R221) -/

/-- Whether the group's operations other than jobs have completed; those that a fence holds do so where it returns (04 R99). -/
def opsSettled (s : State) (gid : Nat) : Bool :=
  s.ops.all fun e => e.2.gid != gid || e.2.heldByFence s || s.jobs.any fun j => j.2.op == some e.1

/-- Removes a group's arrivals from its team's latches (R215, R221). -/
def leaveLatches (s : State) (tid gid : Nat) : State :=
  modTeam s tid fun t =>
    { t with latch := t.latch.map fun e => (e.1, { e.2 with arrived := e.2.arrived.filter fun q => q.gid != gid }) }

/-- Writes a group to a unit of the frame area, its records and return entries too, which a resident group holds itself
(log 124). -/
def saveGroup (s : State) (part ctx gid u : Nat) (g : Group) : State :=
  let addr := unitAddr s part u
  let s1 := writeGroupFrame (takeUnits s part ctx u 1) addr g
  let lived := clkOf s ((g.place.getD 0) / 256) - g.age
  leaveLatches (setGroup s1 gid { g.emptied addr with resident := g.resident + lived }) g.team gid

/-- GROUP_FAULT_SAVE (R220): not while the debugger holds the group (R231), and only with a free unit (R226). -/
def tryGroupFaultSave (gid : Nat) (s : State) : Event :=
  match getGroup s gid with
  | none => .refused .idle
  | some g => match getTeam s g.team with
    | none => .refused .idle
    | some t =>
      if g.batch.isNone || g.saved || t.phase != .running || g.halt == some .halted || !opsSettled s gid
      then .refused .idle
      else match findUnits s t.part 1 with
        | none => .refused .idle
        | some u => .next (saveGroup s t.part t.ctx gid u { g with faultSaves := g.faultSaves + 1 })

def execGroupFaultSave (gid : Nat) (s : State) : Out := settle s (tryGroupFaultSave gid s)

/-- A path as a restore puts it back: its clause is fetched again and its waiting instruction comes to issue again, its count
starts at 0, and a wait at a latch ends. -/
def restoredPath (p : Path) : Path :=
  { p with
    clause := none, count := 0, boosted := false, noWait := p.noWait || decide (0 < p.slot)
    wait := match p.wait with
      | .latch _ => .none
      | w => w }

/-- Reloads a group from its frame into a slot of a core. -/
def loadGroup (s : State) (part gid place : Nat) (g : Group) : State :=
  match g.frame with
  | none => s
  | some addr =>
    let g1 := readGroupFrame s g addr
    freeUnits (setGroup s gid { g1 with
      place := some place, age := clkOf s (place / 256), release := none
      live0 := g1.live0.map restoredPath, live1 := g1.live1.map restoredPath }) part addr 1

/-- GROUP_RESTORE (R221): a fault-saved group whose batch has been released returns to its team's core. -/
def tryGroupRestore (gid : Nat) (s : State) : Event :=
  match getGroup s gid with
  | none => .refused .idle
  | some g => match getTeam s g.team with
    | none => .refused .idle
    | some t => match t.core, t.phase with
      | some core, .running =>
        if !g.saved || g.batch.isSome then .refused .idle
        else match assignSlots (coreSlots s core) g.nregs 1 with
          | some (sl :: _) => .next (loadGroup s t.part gid (64 * core + sl) g)
          | _ => .refused .idle
      | _, _ => .refused .idle

def execGroupRestore (gid : Nat) (s : State) : Out := settle s (tryGroupRestore gid s)

/-! ## Invalidation commands (R54 to R56) -/

def invCmdOf (p : Partition) (cmd : Quad) (op : Nat) : InvCmd where
  op := op
  flush := bitOf cmd.toNat 2
  ctx := bitsOf cmd.toNat 16 16
  addr := p.invAddr.toNat / 4096
  count := p.invCount.toNat

/-- Writes back and drops every L1 and L2 line of a partition. -/
def flushCaches (s : State) (part : Nat) : State :=
  let mine := (s.cores.map (·.1)).filter fun k => partOfCore s k == part
  l2Flush (mine.foldl (fun s k => coreDrop s k fun _ => true) s) part

/-- The oldest command has done what it does, but for its completion. -/
def invFlushHead (s : State) (part : Nat) : State :=
  match (getPart s part).invQueue with
  | [] => s
  | q :: r =>
    if q.flush then modPart (flushCaches s part) part fun p => { p with invQueue := { q with flush := false } :: r } else s

/-- Whether a command covers an entry that a translation cache holds. -/
def InvCmd.takes (q : InvCmd) (x : CachedEntry) : Bool :=
  q.op == 2 || (x.ctx == q.ctx && (q.op == 1 || x.inRange q.addr q.count))

/-- The stores that have reached their destinations. -/
def performed (s : State) : List Nat := s.hist.flatMap fun e => e.2.msgs.map (·.id)

/-- The oldest command completes: no cache of the partition holds an entry that it covers. -/
def invPopHead (s : State) (part : Nat) : State :=
  modPart s part fun p =>
    { p with invQueue := p.invQueue.drop 1, invDone := (p.invDone + 1) % 2 ^ 32, invEnds := performed s
             tlb := p.tlb.filter fun x => (p.invQueue.head?.all fun q => !q.takes x) }

/-- A written command enters the queue, with the range as INV_ADDR and INV_COUNT have it. The queue has 16 places; commands
behind those are writes that the link holds until a place frees (log 100). -/
def invIssue (s : State) (part : Nat) (cmd : Quad) (op : Nat) : State :=
  modPart s part fun p => { p with invQueue := p.invQueue ++ [invCmdOf p cmd op] }

/-- A dropped command (OP 3). -/
def invDrop (s : State) (part : Nat) : State := modPart s part fun p => { p with invErr := true }

/-- A write to INV_CMD with an OP. -/
def invWrite (s : State) (part : Nat) (cmd : Quad) (op : Nat) (body : State) : State :=
  windowOr s part 0x010010 (cmd.toNat / 4 * 4 + op) body

def execInvRange (part : Nat) (cmd : Quad) (s : State) : Out := .next (invWrite s part cmd 0 (invIssue s part cmd 0))
def execInvContext (part : Nat) (cmd : Quad) (s : State) : Out := .next (invWrite s part cmd 1 (invIssue s part cmd 1))
def execInvAll (part : Nat) (cmd : Quad) (s : State) : Out := .next (invWrite s part cmd 2 (invIssue s part cmd 2))

/-- OP 3: the command is dropped and ERR is set. -/
def execInvReserved (part : Nat) (cmd : Quad) (s : State) : Out := .next (invWrite s part cmd 3 (invDrop s part))

/-- INV_FLUSH: the oldest command's write-back and invalidation. -/
def tryInvFlush (part : Nat) (s : State) : Event :=
  match (getPart s part).invQueue with
  | q :: _ => if q.flush then .next (invFlushHead s part) else .refused .idle
  | [] => .refused .idle

def execInvFlush (part : Nat) (s : State) : Out := settle s (tryInvFlush part s)

/-- Whether every access that a client of a partition has translated has been performed (R56): its atomics, at whichever home
slice they wait, and the loads that may still read again. -/
def accessesOver (s : State) (part : Nat) : Bool :=
  !(s.parts.any fun e => e.2.atoms.any fun a => partOfCore s a.core == part)
    && !(s.ops.any fun e => !e.2.loads.isEmpty && ((teamOfGroup s e.2.gid).map (·.part)) == some part)

/-- INV_COMMAND_COMPLETE: the accesses in flight have been performed, and DONE counts on. -/
def tryInvCommandComplete (part : Nat) (s : State) : Event :=
  match (getPart s part).invQueue with
  | q :: _ =>
    if q.flush ∨ !accessesOver s part then .refused .idle else .next (invPopHead s part)
  | [] => .refused .idle

def execInvCommandComplete (part : Nat) (s : State) : Out := settle s (tryInvCommandComplete part s)

end Sys2Proof.Machine
end

