-- ==== Sys2Proof/Machine/Debug.lean ====
section
/-!
DEFINITION. The debugger: halting, resuming, running one clause, and what the debug registers show
(18 R430; 10 R231; 11 R250).
-/
namespace Sys2Proof.Machine

/-- The resident group that DBG_SEL names, when its core belongs to the partition. -/
def selectedGroup (s : State) (part : Nat) : Option Nat :=
  let sel := (getPart s part).dbgSel
  let core := bitsOf sel 0 9
  if partOfCore s core ≠ part then none
  else (s.groups.find? fun e => e.2.place == some (64 * core + bitsOf sel 9 6)).map (·.1)

/-- A halt takes the group at an instruction boundary, and the host is signalled (R419). -/
def haltGroup (s : State) (part gid : Nat) : State :=
  msix (modGroup s gid fun g => { g with halt := some .halted }) part 3

/-- Whether the debugger holds a group: halted, or past its single clause. -/
def Group.isHalted (g : Group) : Bool :=
  match g.halt with
  | some .halted => true
  | some (.oneClause _ n) => g.clauses != n
  | none => false

/-- Whether any group of a context is held by the debugger: a time-slice expiry or a pre-emption is deferred meanwhile
(R231). -/
def ctxHalted (s : State) (part ctx : Nat) : Bool :=
  s.groups.any fun e => e.2.halt.isSome && match getTeam s e.2.team with
    | some t => t.part == part && t.ctx == ctx
    | none => false

/-- The live path that issues next: the one that issued less recently (09 R212). -/
def nextLive (g : Group) : Nat :=
  match g.live0, g.live1 with
  | some a, some b => if b.since < a.since then 1 else 0
  | none, some _ => 1
  | _, _ => 0

/-- DBG_HALT (R231): the selected group stops; a command that selects no resident group does nothing. -/
def dbgHalt (s : State) (part : Nat) : State :=
  match selectedGroup s part with
  | some gid => match getGroup s gid with
    | some g => if g.ended || g.isHalted then s else haltGroup s part gid
    | none => s
  | none => s

/-- DBG_RESUME (R231): the group goes on; a released fault replays, an outstanding one is then fault-saved. -/
def dbgResume (s : State) (part : Nat) : State :=
  match selectedGroup s part with
  | some gid => modGroup s gid fun g => { g with halt := none }
  | none => s

/-- DBG_SINGLE_CLAUSE (R430): a halted group runs one clause of one path, then halts again. -/
def dbgSingle (s : State) (part : Nat) : State :=
  match selectedGroup s part with
  | some gid => modGroup s gid fun g => if g.isHalted then { g with halt := some (.oneClause (nextLive g) g.clauses) } else g
  | none => s

/-- The group of a single-clause run halts again once its clause has ended. -/
def rehalt (s : State) (gid : Nat) : State :=
  match getGroup s gid with
  | some g => match g.halt, getTeam s g.team with
    | some (.oneClause _ n), some t => if g.clauses = n then s else haltGroup s t.part gid
    | _, _ => s
  | none => s

/-- A write to DBG_CMD. -/
def dbgCommand (s : State) (part v : Nat) : State :=
  match v % 4 with
  | 1 => dbgHalt s part
  | 2 => dbgResume s part
  | 3 => dbgSingle s part
  | _ => s

def execDbgHalt (part : Nat) (s : State) : Out := .next (windowOr s part 0x0A0008 1 (dbgHalt s part))
def execDbgResume (part : Nat) (s : State) : Out := .next (windowOr s part 0x0A0008 2 (dbgResume s part))
def execDbgSingleClause (part : Nat) (s : State) : Out := .next (windowOr s part 0x0A0008 3 (dbgSingle s part))

/-! ## What is shown -/

/-- A path as DBG_STATE shows it. -/
structure DbgPath where
  addr   : Nat
  slot   : Nat
  mask   : Mask
  handle : Nat
  deriving DecidableEq, Repr

/-- DBG_STATE (R430): the halted bit, the pending fault's batch, the cause of the trap whose handler has not run, and
both paths. -/
structure DbgView where
  halted : Bool
  fault  : Option Nat
  trap   : Option Nat
  path0  : Option DbgPath
  path1  : Option DbgPath
  deriving DecidableEq, Repr

def dbgPath (p : Path) : DbgPath := ⟨p.addr, p.slot, p.mask, p.handle⟩

/-- The trap a path is about to be handled for. -/
def pendingTrap (p : Path) : Option Nat :=
  match p.wait with
  | .trapRead c => some c
  | _ => if p.clause.isNone then p.handler else none

def dbgView (s : State) (part : Nat) : Option DbgView :=
  ((selectedGroup s part).bind (getGroup s)).map fun g =>
    { halted := g.isHalted, fault := g.batch
      trap := match g.live0.bind pendingTrap with
        | some c => some c
        | none => g.live1.bind pendingTrap
      path0 := g.live0.map dbgPath, path1 := g.live1.map dbgPath }

/-- The 64-bit words of DBG_STATE in the model's own layout (log 39): a word of the group, with the halted bit, whether a fault
batch is outstanding and whether a trap is pending at bits 0 to 2, the trap cause at 8 and the batch's SEQ at 32; then for
each path its PC, its MASK, and a word with its HANDLE, its slot at 16 and bit 63 when the path lives. -/
def dbgStateWord (s : State) (part k : Nat) : Nat :=
  match dbgView s part with
  | none => 0
  | some v =>
    let path (p : Option DbgPath) (j : Nat) : Nat := match p, j with
      | none, _ => 0
      | some x, 0 => x.addr
      | some x, 1 => x.mask.toNat
      | some x, _ => x.handle + x.slot * 2 ^ 16 + 2 ^ 63
    match k with
    | 0 => (if v.halted then 1 else 0) + (if v.fault.isSome then 2 else 0) + (if v.trap.isSome then 4 else 0)
        + v.trap.getD 0 * 2 ^ 8 + v.fault.getD 0 % 2 ^ 32 * 2 ^ 32
    | 1 => path v.path0 0
    | 2 => path v.path0 1
    | 3 => path v.path0 2
    | 4 => path v.path1 0
    | 5 => path v.path1 1
    | 6 => path v.path1 2
    | _ => 0

def DictState.code : DictState → Nat
  | .loading => 1
  | .loaded => 2
  | .rejected => 3

/-- The dictionary slot that the debugger looks at (R250): one of the core of the selected group, while that is halted. -/
def dbgSlot (s : State) (part : Nat) : Option DictSlot :=
  match (selectedGroup s part).bind (getGroup s) with
  | some g =>
    if g.isHalted then ((getCore s ((g.place.getD 0) / 64)).dicts.filter fun d => d.part == part)[(getPart s part).dbgDict]?
    else none
  | none => none

/-- The context, handle and state of that slot, 0 for an empty one. -/
def dbgSlotWord (s : State) (part : Nat) : Nat :=
  match dbgSlot s part with
  | some d => d.state.code + d.handle * 2 ^ 16 + d.ctx * 2 ^ 32
  | none => 0

/-- DBG_DICT (R250, R430): word k of the 4 KiB view of that slot, two for each of its 256 entries. -/
def dbgDictWord (s : State) (part k : Nat) : Nat :=
  match dbgSlot s part with
  | some d =>
    let e := d.entries.getD (k / 2) (0, 0)
    if k % 2 = 0 then e.1 else e.2
  | none => 0

end Sys2Proof.Machine
end

