-- ==== Sys2Proof/Machine/HostRegs.lean ====
section
/-!
DEFINITION. The register windows: writes and reads of every register, submission-queue registers, the frame area,
partitioning (18 R419 to R427, R430 to R432; 03 R55, R69; 04 R91, R92, R100; 10 R232; 00 R7). Where the manual gives no
offset for a debug register the model fixes one (log 39).
-/
namespace Sys2Proof.Machine

/-! ## Submission queues (R421, R422; 10 R232) -/

/-- Whether a context record lies in the frame area (R421). -/
def ctxInArea (s : State) (part ctx : Nat) : Bool := decide (256 * (ctx + 1) ≤ frameSize s part)

/-- Whether a context is being switched or has been reset, so that its queues hold still (R232). One whose switch has ended and
that has no saved team runs again at once. -/
def ctxSwitched (s : State) (part ctx : Nat) : Bool := ctxAway s part ctx || decide (5 ≤ ctxState s part ctx)

/-- TAIL as the register reads: a doorbell kept through a switch is part of it. -/
def SubQueue.tailReg (q : SubQueue) : Nat := q.stored.getD q.tail

/-- Whether SQ_BASE and the ring fields of SQ_CTL may change. -/
def SubQueue.idle (q : SubQueue) : Bool := !q.enable && q.progress == q.tailReg

/-- STOPPED: at a wait record, by a context reset that stands, or for want of a context record. -/
def sqStopped (s : State) (part : Nat) (q : SubQueue) : Bool :=
  (q.stopped && ctxState s part q.ctx == 5) || !ctxInArea s part q.ctx
    || q.recs.any fun r => match r.2 with
      | .wait _ _ => true
      | _ => false

/-- SQ_TAIL, written by some agents: a doorbell of a switched context is stored. It comes behind the writers' earlier stores, so
the records are there and what they start happens after those stores (05 R126). -/
def doorbell (s : State) (part q tail : Nat) (who : List Agent) : State :=
  let ids := releasedBy s who
  modSq s part q fun k =>
    let k1 := { k with known := addIds k.known ids }
    if ctxInArea s part k.ctx && ctxSwitched s part k.ctx then { k1 with stored := some tail }
    else { k1 with tail := tail, stored := none }

/-- LOG2N as it is stored. -/
def ringLog (v : Nat) : Nat := if 4 ≤ v ∧ v ≤ 20 then v else 20

/-- SQ_CTL: ENABLE takes every written value, the ring fields change only while the queue is idle. -/
def sqCtl (s : State) (part q v : Nat) : State :=
  modSq s part q fun k =>
    let k1 := if k.idle then { k with log2n := ringLog (bitsOf v 0 5), loc := bitOf v 5, ctx := bitsOf v 16 16 } else k
    { k1 with enable := bitOf v 8 }

def sqBase (s : State) (part q v : Nat) : State :=
  modSq s part q fun k => if k.idle then { k with base := BitVec.ofNat 64 v } else k

/-- W1C of REFUSED. -/
def sqStatus (s : State) (part q v : Nat) : State :=
  modSq s part q fun k => if bitOf v 3 then { k with refused := false } else k

/-! ## Other registers of a partition -/

/-- Whether FRAME_BASE and FRAME_SIZE may change (R421). -/
def frameFree (s : State) (part : Nat) : Bool :=
  (validContexts s part).all fun c => ctxState s part c == 0 || ctxState s part c == 5

def frameArea (s : State) (part : Nat) (size : Bool) (v : Nat) : State :=
  if !frameFree s part then s
  else modPart s part fun p =>
    if size then { p with frameSize := BitVec.ofNat 32 (v % 2 ^ 24) }
    else { p with frameBase := BitVec.ofNat 64 (bitsOf v 16 36 * 2 ^ 16) }

/-- TAIL of the fault queue uses bits [k − 1:0]. -/
def faultTail (s : State) (part v : Nat) : State :=
  modPart s part fun p => { p with faultTail := bitsOf v 0 20 % ringSize p }

/-- INV_CMD by its OP. -/
def invCommand (s : State) (part v : Nat) : State :=
  let cmd := BitVec.ofNat 64 v
  if v % 4 = 3 then invDrop s part else invIssue s part cmd (v % 4)

/-- The cluster registers of the window: QP_LIMIT_q, QP_STATUS. -/
def poolRegister (s : State) (part o v : Nat) : State :=
  let k := o / 4096
  let r := o % 4096
  if clustersPerPart s ≤ k then s
  else if r < 0x100 ∧ r % 4 = 0 then writeLimit s (part * clustersPerPart s + k) (r / 4) (v % 2 ^ 32)
  else if r = 0x200 ∧ bitOf v 14 then modCluster s (part * clustersPerPart s + k) fun c => { c with reject := false }
  else s

/-- The registers of a submission queue's block. -/
def queueRegister (s : State) (who : List Agent) (part q r v : Nat) : State :=
  match r with
  | 0x00 => sqBase s part q v
  | 0x08 => sqCtl s part q v
  | 0x0C => doorbell s part q (v % 2 ^ 32) who
  | 0x14 => sqStatus s part q v
  | _ => s

/-- The invalidation, fault-queue, placement and debug registers. -/
def blockRegister (s : State) (part o v : Nat) : State :=
  match o with
  | 0x010000 => modPart s part fun p => { p with invAddr := BitVec.ofNat 64 (bitsOf v 12 52 * 2 ^ 12) }
  | 0x010008 => modPart s part fun p => { p with invCount := BitVec.ofNat 32 v }
  | 0x010010 => invCommand s part v
  | 0x010018 => modPart s part fun p => if bitOf v 1 then { p with invErr := false } else p
  | 0x011000 => faultqConfig s part false (BitVec.ofNat 64 v)
  | 0x011008 => faultqConfig s part true (BitVec.ofNat 64 v)
  | 0x011018 => faultTail s part v
  | 0x011020 => releaseBatch s part (v % 2 ^ 32) (bitOf v 32)
  | 0x011028 => modPart s part fun p =>
      { p with faultSvc := bitOf v 0, badRelease := p.badRelease && !bitOf v 1 }
  | 0x080000 => modPart s part fun p => { p with metaBase := BitVec.ofNat 64 (bitsOf v 12 40 * 2 ^ 12) }
  | 0x080008 => frameArea s part false v
  | 0x080010 => frameArea s part true v
  | 0x080018 => modPart s part fun p => { p with rasTransient := v % 2 ^ 32, rasLasting := bitsOf v 32 32 }
  | 0x0A0000 => modPart s part fun p => { p with dbgSel := v % 2 ^ 15 }
  | 0x0A0008 => dbgCommand s part v
  | 0x0A0048 => modPart s part fun p => { p with dbgDict := v % 8 }
  | _ => s

/-- ROUTE_r without its reserved bits (R427; 00 R2). -/
def routeBits (v : Nat) : Quad := BitVec.ofNat 64 (bitsOf v 0 12 + bitsOf v 16 16 * 2 ^ 16)
/-- RING_n without its reserved bits (R428). -/
def ringBits (v : Nat) : Quad := BitVec.ofNat 64 (bitsOf v 0 40 + bitsOf v 63 1 * 2 ^ 63)
/-- WP_CTL_n without its reserved bits (R431). -/
def wpBits (v : Nat) : Quad := BitVec.ofNat 64 (bitsOf v 0 36 + bitsOf v 48 16 * 2 ^ 48)
/-- HA_CTX without its reserved bits (R425). -/
def haBits (v : Nat) : Quad := BitVec.ofNat 64 (bitsOf v 0 3 + bitsOf v 16 16 * 2 ^ 16 + bitsOf v 63 1 * 2 ^ 63)

/-- A write, by some agents, of the register at an offset of a partition window (R420); unlisted offsets write nothing, and
reserved bits stay zero (00 R2). -/
def windowWrite (s : State) (who : List Agent) (part o v : Nat) : State :=
  if o < 0x1000 then queueRegister s who part (o / 64) (o % 64) v
  else if 0x020000 ≤ o ∧ o < 0x080000 then poolRegister s part (o - 0x020000) v
  else if 0x090000 ≤ o ∧ o < 0x090080 ∧ o % 8 = 0 then
    modPart s part fun p => { p with route := spSet 0 p.route ((o - 0x090000) / 8) (routeBits v) }
  else if 0x090100 ≤ o ∧ o < 0x090180 ∧ o % 8 = 0 then
    modPart s part fun p => { p with ring := spSet 0 p.ring ((o - 0x090100) / 8) (ringBits v) }
  else if 0x0A0100 ≤ o ∧ o < 0x0A0140 ∧ o % 16 = 0 then
    modPart s part fun p => { p with wpAddr := spSet 0 p.wpAddr ((o - 0x0A0100) / 16) (BitVec.ofNat 64 v) }
  else if 0x0A0100 ≤ o ∧ o < 0x0A0140 ∧ o % 16 = 8 then
    modPart s part fun p => { p with wpCtl := spSet 0 p.wpCtl ((o - 0x0A0100) / 16) (wpBits v) }
  else if 0x100000 ≤ o ∧ o < 0x180000 ∧ o % 8 = 0 then
    modPart s part fun p => { p with dbgCtx := spSet false p.dbgCtx ((o - 0x100000) / 8) (bitOf v 0) }
  else blockRegister s part o v

/-! ## Partitioning (R424, R426; 04 R87; 09 R205) -/

/-- Whether a write to PART_CFG or PORT_MAP is accepted: every context record is in STATE 0, 4 or 5. -/
def mayRepartition (s : State) : Bool :=
  (List.range (partCount s)).all fun p => (listedContexts s p).all fun c =>
    let st := ctxState s p c
    st == 0 || st == 4 || st == 5

/-- What an accepted write does first: every cache is written back and emptied, every submission queue stops, and BUSY
reads 1. -/
def repartition (s : State) : State :=
  let ps := List.range (partCount s)
  let s1 := ps.foldl flushCaches s
  let s2 := ps.foldl (fun s p => modPart s p fun v =>
    { v with queues := v.queues.map (fun e => (e.1, { e.2 with enable := false })), tlb := [] }) s1
  { s2 with busy := true }

def partCfgSet (s : State) (v : Nat) : State :=
  if !mayRepartition s then { s with partErr := true }
  else
    let s1 := { repartition s with partCfg := BitVec.ofNat 32 (v % 4) }
    (List.range 8).foldl (fun s p => modPart s p fun x => { x with pointer := none, nextSeq := 0, launches := 0 }) s1

def portMapSet (s : State) (v : Nat) : State :=
  if !mayRepartition s then { s with partErr := true }
  else { repartition s with portMap := BitVec.ofNat 64 (v % 2 ^ 48) }

/-- WATTS of a PWR_LIMIT write (R424). -/
def clampWatts (v : Nat) : Nat := max 900 (min 2000 (v % 2 ^ 12))

def pwrLimitSet (s : State) (v : Nat) : State := { s with pwrLimit := clampWatts v }

/-! ## The windows of an adapter (R419, R424, R425) -/

/-- The host adapters. An adapter joins two ports (R419); how many there are and which ports each joins, the spec leaves open:
the model has six, adapter a on ports 2a and 2a + 1 (log 86). -/
def adapterCount : Nat := 6
def getAdapter (s : State) (a : Nat) : Adapter := spGet {} s.adapters a

/-- LOG2SIZE, which the MC sets (log 40). -/
def aperLog (a : Nat) : Nat := 20 + Config.aperLog2 a % 21

/-- The device-wide registers. -/
def deviceWrite (s : State) (a o v : Nat) : State :=
  match o with
  | 0x00 => partCfgSet s v
  | 0x08 => portMapSet s v
  | 0x10 => if bitOf v 0 then { s with partErr := false } else s
  | 0x20 => pwrLimitSet s v
  | 0x30 => modAdapter s a fun d => { d with ctx := haBits v }
  | 0x38 => modAdapter s a fun d => { d with wbase := BitVec.ofNat 64 v }
  | 0x48 => if bitOf v 0 then modAdapter s a fun d => { d with err := false } else s
  | _ => s

/-- A write at an offset of BAR 0. -/
def bar0Write (s : State) (a off v : Nat) : State :=
  if 2 ^ 27 ≤ off then deviceWrite s a (off - 2 ^ 27) v
  else windowOr s (off / 2 ^ 24) (off % 2 ^ 24) v (windowWrite s [.link a] (off / 2 ^ 24) (off % 2 ^ 24) v) a

/-! ## What registers read -/

/-- Fault-queue registers as they read. -/
def faultqStatus (s : State) (part : Nat) : Nat :=
  let p := getPart s part
  (if p.faultSvc then 1 else 0) + (if p.badRelease then 2 else 0) + (if waitingBatches s part = 0 then 0 else 4)

/-- The fence word n: bit i says that core 32 n + i is fenced (04 R100). There is one set of words per partition, and whether it
shows fenced cores of others the spec leaves open: the model shows the partition's own (log 102). -/
def fenceWord (s : State) (part n : Nat) : Nat :=
  (List.range 32).foldl (fun a i =>
    if partOfCore s (32 * n + i) = part ∧ coreFenced s (32 * n + i) then a + 2 ^ i else a) 0

def queueRead (s : State) (part q r : Nat) : Nat :=
  let k := getSq s part q
  match r with
  | 0x00 => k.base.toNat
  | 0x08 => k.log2n + (if k.loc then 2 ^ 5 else 0) + (if k.enable then 2 ^ 8 else 0) + k.ctx * 2 ^ 16
  | 0x0C => k.tailReg
  | 0x10 => k.progress
  | 0x14 => k.reason + (if k.refused then 8 else 0) + (if sqStopped s part k then 16 else 0)
  | _ => 0

def poolRead (s : State) (part o : Nat) : Nat :=
  let k := part * clustersPerPart s + o / 4096
  let r := o % 4096
  if clustersPerPart s ≤ o / 4096 then 0
  else if r < 0x100 ∧ r % 4 = 0 then limitWord s k (r / 4)
  else if 0x100 ≤ r ∧ r < 0x200 ∧ r % 4 = 0 then queueCount (poolQueue s k ((r - 0x100) / 4))
  else if r = 0x200 then poolFree s k + (if (getCluster s k).reject then 2 ^ 14 else 0)
  else 0

def blockRead (s : State) (part o : Nat) : Nat :=
  let p := getPart s part
  match o with
  | 0x010000 => p.invAddr.toNat
  | 0x010008 => p.invCount.toNat
  | 0x010018 => (if p.invQueue.isEmpty then 0 else 1) + (if p.invErr then 2 else 0)
  | 0x010020 => p.invDone
  | 0x011000 => p.faultBase.toNat
  | 0x011008 => p.faultK
  | 0x011010 => p.faultHead
  | 0x011018 => p.faultTail
  | 0x011028 => faultqStatus s part
  | 0x080000 => p.metaBase.toNat
  | 0x080008 => p.frameBase.toNat
  | 0x080010 => p.frameSize.toNat
  | 0x080018 => p.rasTransient + p.rasLasting * 2 ^ 32
  | 0x0A0000 => p.dbgSel
  | 0x0A0048 => p.dbgDict
  | 0x0A0050 => dbgSlotWord s part
  | _ => 0

/-- A read of a partition window (R420); unlisted offsets and WO registers read zero. -/
def windowRead (s : State) (part o : Nat) : Nat :=
  let p := getPart s part
  if o < 0x1000 then queueRead s part (o / 64) (o % 64)
  else if 0x020000 ≤ o ∧ o < 0x080000 then poolRead s part (o - 0x020000)
  else if 0x080020 ≤ o ∧ o < 0x080080 ∧ o % 8 = 0 then fenceWord s part ((o - 0x080020) / 8)
  else if 0x090000 ≤ o ∧ o < 0x090080 ∧ o % 8 = 0 then (spGet 0 p.route ((o - 0x090000) / 8)).toNat
  else if 0x090100 ≤ o ∧ o < 0x090180 ∧ o % 8 = 0 then (spGet 0 p.ring ((o - 0x090100) / 8)).toNat
  else if 0x0A0010 ≤ o ∧ o < 0x0A0048 ∧ o % 8 = 0 then dbgStateWord s part ((o - 0x0A0010) / 8)
  else if 0x0B0000 ≤ o ∧ o < 0x0B1000 ∧ o % 8 = 0 then dbgDictWord s part ((o - 0x0B0000) / 8)
  else if 0x0A0100 ≤ o ∧ o < 0x0A0140 ∧ o % 16 = 0 then (spGet 0 p.wpAddr ((o - 0x0A0100) / 16)).toNat
  else if 0x0A0100 ≤ o ∧ o < 0x0A0140 ∧ o % 16 = 8 then (spGet 0 p.wpCtl ((o - 0x0A0100) / 16)).toNat
  else if 0x100000 ≤ o ∧ o < 0x180000 ∧ o % 8 = 0 then
    if spGet false p.dbgCtx ((o - 0x100000) / 8) then 1 else 0
  else blockRead s part o

def deviceRead (s : State) (a o : Nat) : Nat :=
  let d := getAdapter s a
  match o with
  | 0x00 => s.partCfg.toNat
  | 0x08 => s.portMap.toNat
  | 0x10 => (if s.partErr then 1 else 0) + (if s.busy then 2 else 0)
  | 0x18 => s.boot
  | 0x20 => s.pwrLimit
  | 0x28 => s.minClk + s.watts * 2 ^ 10
  | 0x30 => d.ctx.toNat
  | 0x38 => d.wbase.toNat
  | 0x40 => aperLog a
  | 0x48 => (if d.err then 1 else 0) + (if d.waits.isEmpty then 0 else 2)
  | _ => 0

/-- A read at an offset of BAR 0 of an adapter; none while BUSY makes a partition window wait (R424). -/
def bar0Read (s : State) (a off : Nat) : Option Nat :=
  if 2 ^ 27 ≤ off then some (deviceRead s a (off - 2 ^ 27))
  else if s.busy then none
  else some (if partCount s ≤ off / 2 ^ 24 then 0 else windowRead s (off / 2 ^ 24) (off % 2 ^ 24))

/-- What a host's read at an offset of a partition window is an acquire of (05 R126): PROGRESS orders the members that it has
passed (09 R199), DONE what the completed commands waited for (03 R56), FAULTQ_HEAD the records behind it (03 R70). -/
def windowReadEnds (s : State) (part o : Nat) : List Nat :=
  if o < 0x1000 ∧ o % 64 = 0x10 then (getSq s part (o / 64)).passed
  else if o = 0x010020 then (getPart s part).invEnds
  else if o = 0x011010 then (getPart s part).faultEnds
  else []

/-- A host's read of BAR 0 through an adapter: its value, and the machine behind its acquire at .sys; none while it waits.
Reads of registers are no rows of the opcode table: the host makes them between steps (log 104). -/
def hostRead (s : State) (a off : Nat) : Option (Nat × State) :=
  (bar0Read s a off).map fun v =>
    (v, learn s (.link a) (overdue s ++ if off < 2 ^ 27 then windowReadEnds s (off / 2 ^ 24) (off % 2 ^ 24) else []))

/-! ## The events -/

/-- Every host link agent: an event of the host that names no adapter comes behind what all of them have stored (log 104). -/
def allLinks : List Agent := (List.range adapterCount).map .link

/-- QP_LIMIT_WRITE (R92), through the register window. -/
def tryQpLimitWrite (cluster queue : Nat) (value : Word) (s : State) : Event :=
  let part := partOfCluster s cluster
  if 96 ≤ cluster ∨ 64 ≤ queue then .refused .idle
  else .next (windowOr s part (0x020000 + 4096 * (cluster % clustersPerPart s) + 4 * queue) value.toNat
    (writeLimit s cluster queue value.toNat))

def execQpLimitWrite (cluster queue : Nat) (value : Word) (s : State) : Out := settle s (tryQpLimitWrite cluster queue value s)

/-- SQ_DOORBELL (R422, R232). -/
def trySqDoorbell (part queue : Nat) (tail : Word) (s : State) : Event :=
  if 64 ≤ queue then .refused .idle
  else .next (windowOr s part (64 * queue + 0x0C) tail.toNat (doorbell s part queue tail.toNat allLinks))

def execSqDoorbell (part queue : Nat) (tail : Word) (s : State) : Out := settle s (trySqDoorbell part queue tail s)

/-- SQ_CTL_WRITE (R422). -/
def trySqCtlWrite (part queue : Nat) (value : Word) (s : State) : Event :=
  if 64 ≤ queue then .refused .idle
  else .next (windowOr s part (64 * queue + 0x08) value.toNat (sqCtl s part queue value.toNat))

def execSqCtlWrite (part queue : Nat) (value : Word) (s : State) : Out := settle s (trySqCtlWrite part queue value s)

/-- SQ_BASE_WRITE (R422). -/
def trySqBaseWrite (part queue : Nat) (value : Quad) (s : State) : Event :=
  if 64 ≤ queue then .refused .idle
  else .next (windowOr s part (64 * queue) value.toNat (sqBase s part queue value.toNat))

def execSqBaseWrite (part queue : Nat) (value : Quad) (s : State) : Out := settle s (trySqBaseWrite part queue value s)

/-- FRAME_AREA_WRITE (R421). -/
def execFrameAreaWrite (part : Nat) (size : Bool) (value : Quad) (s : State) : Out :=
  .next (windowOr s part (if size then 0x080010 else 0x080008) value.toNat (frameArea s part size value.toNat))

/-- PWR_LIMIT_WRITE (R424). -/
def execPwrLimitWrite (value : Word) (s : State) : Out := .next (pwrLimitSet s value.toNat)

/-- PART_CFG_WRITE (R426). -/
def execPartCfgWrite (value : Word) (s : State) : Out := .next (partCfgSet s value.toNat)

/-- PORT_MAP_WRITE (R426). -/
def execPortMapWrite (value : Quad) (s : State) : Out := .next (portMapSet s value.toNat)

/-- REGISTER_WRITE (R7): a write at an offset of BAR 0 of one of the six adapters. -/
def tryRegisterWrite (adapter off : Nat) (value : Quad) (s : State) : Event :=
  if adapterCount ≤ adapter then .refused .idle else .next (bar0Write s adapter off value.toNat)

def execRegisterWrite (adapter off : Nat) (value : Quad) (s : State) : Out := settle s (tryRegisterWrite adapter off value s)

/-- REPARTITION_COMPLETE (R424): BUSY reads 0 and the waiting window accesses proceed, oldest first. -/
def tryRepartitionComplete (s : State) : Event :=
  if !s.busy then .refused .idle
  else .next (s.heldWrites.foldl (fun s w => bar0Write s w.1 w.2.1 w.2.2.toNat) { s with busy := false, heldWrites := [] })

def execRepartitionComplete (s : State) : Out := settle s (tryRepartitionComplete s)

end Sys2Proof.Machine
end

