-- ==== Sys2Proof/Machine/Tgu.lean ====
section
/-!
DEFINITION. The task graph unit: submission records, node entry and refusal, the ready pool, placement of teams, team start
and the completion of nodes (09 R197 to R208; 06 R131; 18 R422, R423; 17 R407, R409).
-/
namespace Sys2Proof.Machine

/-! ## Submission records (R197, R423) -/

/-- The doorbell that fetches act on: a stored one acts once the context is no longer switched. -/
def actedTail (s : State) (part : Nat) (q : SubQueue) : Nat := if ctxSwitched s part q.ctx then q.tail else q.tailReg

/-- Whether a record has left the path by which members enter: the next may then be fetched. -/
def RecPhase.entered : RecPhase → Bool
  | .node _ => true
  | .job _ => true
  | .done => true
  | _ => false

/-- Whether the queue's next record may be fetched (R201, R421 to R423; 10 R225, R232). -/
def mayFetch (s : State) (part : Nat) (q : SubQueue) : Bool :=
  let i := q.fetched
  let ahead := (actedTail s part q + 2 ^ 32 - i % 2 ^ 32) % 2 ^ 32
  q.enable && ctxInArea s part q.ctx && !ctxSwitched s part q.ctx
    && decide (1 ≤ ahead) && decide (ahead ≤ 2 ^ 31)
    && decide ((i + 2 ^ 32 - q.progress) % 2 ^ 32 < 2 ^ q.log2n)
    && decide (nodeCount s part < 4096) && decide (cardCount s part < 16384)
    && q.recs.all fun r => r.2.entered

/-- The location of record i of a queue, at a 64-bit address of its host's bus or of the device (R422, R423); none where the
device has no such byte, which reads as poisoned (log 20). -/
def recordLoc (s : State) (part : Nat) (q : SubQueue) (i : Nat) : Option Nat :=
  let a := (q.base.toNat + 64 * (i % 2 ^ q.log2n)) % 2 ^ 64
  if q.loc then (if a + 63 < hbmSize then some (locOf s part 0 a) else none) else some (locOf s part 1 a)

/-- A fetched record by its TYPE. One of a reserved TYPE is refused as it is fetched and takes no launch number (log 103). -/
def takeRecord (s : State) (part q i ctx rec : Nat) : State :=
  match rec % 256 with
  | 0x01 =>
    let id := s.order
    let e : Entry := { part := part, ctx := ctx, record := rec, src := .queue part q i, known := (getSq s part q).known }
    setRecord { s with entries := spPut s.entries id e, order := id + 1 } part q i (.entry id)
  | 0x02 => setRecord s part q i (.card (bitsOf rec 64 64) none false)
  | 0x03 => setRecord s part q i (.wait (bitsOf rec 8 6) (bitsOf rec 32 32))
  | _ => recordRefused s part q i 1

/-- HOST_RECORD_FETCH (R423). A record that completed before its queue was stopped is passed over; a poisoned one cannot
be read (log 42). -/
def tryHostRecordFetch (part queue : Nat) (s : State) : Event :=
  let q := getSq s part queue
  if !mayFetch s part q then .refused .idle
  else
    let i := q.fetched
    let s1 := modSq (ctxWakes s part q.ctx) part queue fun k =>
      { k with tail := k.tailReg, stored := none, stopped := false, fetched := (i + 1) % 2 ^ 32 }
    if (spFind q.recs i).isSome then .next s1
    else match recordLoc s part q i with
      | none => .next (recordRefused s1 part queue i 2)
      | some loc =>
        let cmp := if q.loc then 0 else part
        let s2 := l2Asked s1 cmp loc 64
        if l2AnyBad s cmp loc 64 then .next (recordRefused s2 part queue i 2)
        else .next (takeRecord s2 part queue i q.ctx (leNat (l2Bytes s cmp loc 64)))

def execHostRecordFetch (part queue : Nat) (s : State) : Out := settle s (tryHostRecordFetch part queue s)

/-! ## Host job cards (R197, R347) -/

/-- A cluster of the partition for a host job: any (06 R135). -/
def pickCluster (s : State) (part : Nat) : Nat × State :=
  let r := chooseBelow s (clustersPerPart s)
  (part * clustersPerPart s + r.1, r.2)

/-- The card of a host record enters its queue's stream, or the record is refused. -/
def enterCard (s : State) (part q i ctx : Nat) (bs : List Byte) : State :=
  let card := cardOf (leNat (bs.take 64))
  if !card.ok none then recordRefused s part q i 3
  else
    let r := pickCluster s part
    let id := r.2.order
    let j : Job :=
      { part := part, cluster := r.1, ctx := ctx, card := { card with regions := regionsOf false card.fpcount (bs.drop 64) }
        stream := .queue part q, order := id, team := none, src := some (q, i) }
    let s1 := learn { r.2 with jobs := spPut r.2.jobs id j, order := id + 1 } (.job id) (getSq s part q).known
    setRecord s1 part q i (.job id)

/-- Reads of the task graph unit for a node or a card (R68): CLIENT 6, ACCESS 0. -/
def tguFaulter (ctx : Nat) : Faulter := { acc := .read, ctx := ctx, client := 6 }

/-- A batch for the card read of a record. -/
def cardFault (s : State) (part q i ctx addr : Nat) (gs : List Granule) : Event :=
  if !canReport s part then .refused .idle
  else
    let r := reportBatch s part (tguFaulter ctx) gs (.card part q i)
    .next (setRecord r.2 part q i (.card addr (some r.1) false))

/-- HOST_JOB_CARD_RECORD (R197). -/
def tryHostJobCardRecord (part queue index : Nat) (s : State) : Event :=
  let ctx := (getSq s part queue).ctx
  let refuse (k : Nat) : Event := .next (recordRefused s part queue index k)
  match spFind (getSq s part queue).recs index with
  | some (.card addr none failed) =>
    if failed ∨ addr % 64 ≠ 0 then refuse 2
    else if 16384 ≤ cardCount s part then .refused .idle
    else match readRange s (.tgu part) part ctx .read (ctxSup s part ctx) addr 64 with
      | .trap _ _ => refuse 2
      | .fault gs => cardFault s part queue index ctx addr gs
      | .ok hd bad =>
        let n := bitsOf (leNat hd) 11 4
        if bad then refuse 2
        else if 8 < n then refuse 3
        else match readRange s (.tgu part) part ctx .read (ctxSup s part ctx) addr (64 + 32 * n) with
          | .trap _ _ => refuse 2
          | .fault gs => cardFault s part queue index ctx addr gs
          | .ok bs bad =>
            let s1 := rangeAsked s (.tgu part) part ctx .read (ctxSup s part ctx) addr (64 + 32 * n)
            if bad then .next (recordRefused s1 part queue index 2) else .next (enterCard s1 part queue index ctx bs)
  | _ => .refused .idle

def execHostJobCardRecord (part queue index : Nat) (s : State) : Out := settle s (tryHostJobCardRecord part queue index s)

/-- WAIT_RECORD_COMPLETE (R197): it comes after the members that the named queue's PROGRESS has passed, and the later members of
its queue come after it. -/
def tryWaitRecordComplete (part queue index : Nat) (s : State) : Event :=
  match spFind (getSq s part queue).recs index with
  | some (.wait q v) =>
    if ((getSq s part q).progress + 2 ^ 32 - v) % 2 ^ 32 < 2 ^ 31 then
      let ids := (getSq s part q).passed
      .next (recordDone (modSq s part queue fun k => { k with known := addIds k.known ids }) part queue index ids)
    else .refused .idle
  | _ => .refused .idle

def execWaitRecordComplete (part queue index : Nat) (s : State) : Out := settle s (tryWaitRecordComplete part queue index s)

/-! ## Node entry (R198, R202, R203) -/

/-- A kernel descriptor from its 512 bits. -/
def kdescOf (x addr : Nat) : KDesc where
  entry := bitsOf x 0 48
  handle := bitsOf x 48 16
  scratch := bitsOf x 64 20
  regs := bitsOf x 96 9
  tsize := bitsOf x 105 6
  bars := bitsOf x 112 5
  latches := bitsOf x 117 5
  persistent := bitOf x 128
  population := bitOf x 129
  spread := bitOf x 130
  stage := bitsOf x 136 3
  carryV := bitsOf x 192 64
  carryP := bitsOf x 256 48
  addr := addr

/-- Reason 3: every field in its range; a clause address is a multiple of 4 (02 R24). -/
def KDesc.inRange (d : KDesc) (k : Nat) : Bool :=
  d.entry % 4 == 0 && d.handle != 0 && decide (d.scratch ≤ 983040) && decide (1 ≤ d.regs) && decide (d.regs ≤ 256)
    && decide (1 ≤ d.tsize) && decide (d.tsize ≤ 32) && decide (d.bars ≤ 16) && decide (d.latches ≤ 16) && d.stage == k

/-- The fields of a launch-node record. -/
structure NodeRec where
  type   : Nat
  fp     : Nat
  stages : Nat
  qbind  : Nat
  teams  : Nat
  kdesc  : Nat
  fpaddr : Nat
  args   : Nat
  workq  : Nat
  workn  : Nat
  deriving DecidableEq, Repr

def nodeRec (x : Nat) : NodeRec where
  type := bitsOf x 0 8
  fp := bitsOf x 8 4
  stages := bitsOf x 12 3 + 1
  qbind := bitsOf x 16 16
  teams := bitsOf x 32 32
  kdesc := bitsOf x 64 64
  fpaddr := bitsOf x 128 64
  args := bitsOf x 192 64
  workq := bitsOf x 256 64
  workn := bitsOf x 320 32

/-- The refusal of a node whose descriptors have been read: reasons 2 (WORKQ) to 7, in order; 0 accepts. -/
def refusal (s : State) (part : Nat) (r : NodeRec) (ds : List KDesc) : Nat :=
  if (ds.any fun d => d.persistent) && r.workq % 16 != 0 then 2
  else if !(ds.zipIdx.all fun e => e.1.inRange e.2) then 3
  else if ds.any fun d => (d.persistent && d.population) || (d.population && decide (1 < r.stages))
      || (d.population && decide (2 ^ 26 < r.teams * d.tsize * 64)) then 4
  else if 1 < r.stages ∧ r.teams % r.stages ≠ 0 then 5
  else if !(ds.all fun d => teamFitsEmpty s part d.need) then 6
  else if 1 < r.stages ∧ !setFitsEmpty s part (ds.map KDesc.need) then 7
  else 0

/-- The reads of a node's descriptors and footprint: the bytes of both, or what stopped them. -/
def nodeReads (s : State) (e : Entry) (r : NodeRec) : ReadOut × State :=
  let as := rangeAccs r.kdesc (64 * r.stages) ++ (if r.fp = 0 then [] else rangeAccs r.fpaddr (32 * r.fp))
  match xlateSet s (.tgu e.part) e.part e.ctx .read (ctxSup s e.part e.ctx) as with
  | .trap cause _ va => (.trap cause va, s)
  | .fault gs => (.fault gs, s)
  | .ok ls => (.ok (l2ReadSet s ls) (l2BadSet s ls), askSet s ls)

/-- The outcome of an entry: a refusal reason with the descriptors read, or the batch to report. -/
inductive Verdict where
  | refuse (reason : Nat)
  | accept (ds : List KDesc) (rs : List Region)
  | fault (gs : List Granule)

def verdictOf (s : State) (e : Entry) : Verdict × State :=
  let r := nodeRec e.record
  if r.type ≠ 1 ∨ r.teams = 0 ∨ 8 < r.fp then (.refuse 1, s)
  else if r.kdesc % 64 ≠ 0 ∨ (r.fp ≠ 0 ∧ r.fpaddr % 32 ≠ 0) ∨ r.args % 64 ≠ 0 ∨ e.failed then (.refuse 2, s)
  else match nodeReads s e r with
    | (.trap _ _, s1) => (.refuse 2, s1)
    | (.fault gs, s1) => (.fault gs, s1)
    | (.ok bs bad, s1) =>
      let ds := (List.range r.stages).map fun k =>
        kdescOf (leNat ((bs.drop (64 * k)).take 64)) ((r.kdesc + 64 * k) % 2 ^ 64)
      if bad then (.refuse 2, s1)
      else match refusal s e.part r ds with
        | 0 => (.accept ds (regionsOf false r.fp (bs.drop (64 * r.stages))), s1)
        | k => (.refuse k, s1)

/-- The path that entered a node takes its verdict in D and retires, wherever its group is (16 R387); one that was restored
meanwhile retires once it has its clause again. -/
def deliverVerdict (s : State) (pend : Nat) (q : PathId) (dst : Option Nat) (reason : Nat) : State :=
  match issOf s q with
  | none => s
  | some c =>
    if c.p.wait ≠ .verdict pend then s
    else
      let s1 := match dst with
        | some k => writeRegs s q.gid [.scal k (BitVec.ofNat 32 reason) false]
        | none => s
      if c.p.clause.isSome then retire s1 c else s1

/-- What becomes of the entry's source. -/
def tellSource (s : State) (pend : Nat) (src : Source) (reason : Nat) (node : Nat) : State :=
  match src with
  | .queue p q i => if reason = 0 then setRecord s p q i (.node node) else recordRefused s p q i reason
  | .launch path dst _ _ => deliverVerdict s pend path dst reason

/-- The stream a node enters (R200). -/
def sourceStream (src : Source) (id : Nat) : StreamId :=
  match src with
  | .queue p q _ => .queue p q
  | .launch _ _ spawn parent => if spawn then .own id else .child parent

/-- An accepted node. -/
def nodeOf (e : Entry) (launch id : Nat) (ds : List KDesc) (rs : List Region) : Node :=
  let r := nodeRec e.record
  { part := e.part, ctx := e.ctx, launch := launch, teams := r.teams, stages := r.stages, qbind := r.qbind, args := r.args
    workq := r.workq, workn := r.workn, descs := ds, regions := rs, stream := sourceStream e.src id, order := id
    src := e.src, known := e.known, popSize := r.teams * ((ds.headD emptyDesc).tsize * 64) }

/-- NODE_ENTRY (R203): the node is accepted or refused, and its source is told; a page fault waits for its release. -/
def tryNodeEntry (pend : Nat) (s : State) : Event :=
  match spFind s.entries pend with
  | none => .refused .idle
  | some e =>
    if e.batch.isSome then .refused .idle
    else
      let v := verdictOf s e
      let gone : State := { v.2 with entries := spDel s.entries pend }
      let counted : State := modPart gone e.part fun p => { p with launches := (p.launches + 1) % 2 ^ 32 }
      match v.1 with
      | .fault gs =>
        if !canReport s e.part then .refused .idle
        else
          let r := reportBatch s e.part (tguFaulter e.ctx) gs (.entry pend)
          .next { r.2 with entries := spPut r.2.entries pend { e with batch := some r.1 } }
      | .refuse k => .next (tellSource counted pend e.src k 0)
      | .accept ds rs =>
        let id := s.order
        let n := nodeOf e (getPart s e.part).launches id ds rs
        .next (tellSource { counted with nodes := spPut counted.nodes id n, order := id + 1 } pend e.src 0 id)

def execNodeEntry (pend : Nat) (s : State) : Out := settle s (tryNodeEntry pend s)

/-! ## The ready pool (R204) -/

/-- NODE_READY: every edge into the node is satisfied; what the members before it have released happens before all that the node
does (06 R131). -/
def tryNodeReady (node : Nat) (s : State) : Event :=
  match getNode s node with
  | none => .refused .idle
  | some n =>
    if n.phase = .entered ∧ edgesClear s n.stream n.order n.regions then
      .next (modNode s node fun n =>
        { n with
          phase := .ready, readyAt := s.clk, known := addIds n.known (streamIds s n.stream n.order n.regions)
          firstStore := s.stores })
    else .refused .idle

def execNodeReady (node : Nat) (s : State) : Out := settle s (tryNodeReady node s)

/-- Whether a node of the pool has teams to place for the first time and its context may get them. -/
def Node.wants (s : State) (n : Node) : Bool :=
  n.phase == .ready && decide (n.nextTeam < n.teams) && ctxPlaces s n.part n.ctx

/-- The needs of the node's next team or stage set. -/
def Node.nextNeeds (n : Node) : List SetNeed := (List.range (max n.stages 1)).map fun k => ⟨(n.desc k).need, (n.desc k).spread⟩

/-- Where the node's next team or stage set would go: cores with slots, in ascending stage order. -/
def Node.place (s : State) (n : Node) : Option (List (Nat × List Nat)) :=
  if n.stages ≤ 1 then
    let d := n.desc 0
    (findCore s n.part d.need (if d.spread then n.avoid s else none)).map fun r => [r]
  else findSet s n.part n.nextNeeds (n.avoid s)

/-- Where a team that has given up its core goes (R207), with the slots: to the cluster of its stage set, when that stands
somewhere; else the set goes as one once none of it waits for a batch (R205). -/
def returnPlaces (s : State) (tid : Nat) (t : Team) (n : Node) : Option (List (Nat × Nat × List Nat)) :=
  let set := if n.stages ≤ 1 then [(tid, t)]
    else (List.range n.stages).flatMap fun k =>
      s.teams.filter fun e => e.2.node == t.node && e.2.set == t.set && e.2.stage == k && e.2.phase != .ended
  let avoid := if (n.desc t.stage).spread then n.avoid s else none
  let one (r : Option (Nat × List Nat)) : Option (List (Nat × Nat × List Nat)) := r.map fun x => [(tid, x)]
  if set.any fun e => e.2.phase == .saved then none
  else match set.findSome? fun e => e.2.core with
    | some k =>
      let cores := coresOf (clusterOf k)
      one ((firstFit s t.need (cores.filter fun k => some k != avoid)).or (firstFit s t.need cores))
    | none =>
      if n.stages ≤ 1 then one (findCore s t.part t.need avoid)
      else if set.any fun e => e.2.batch.isSome then none
      else (findSet s t.part (set.map fun e => ⟨e.2.need, (n.desc e.2.stage).spread⟩) (n.avoid s)).map ((set.map (·.1)).zip ·)

/-- What a node has to place, and whether there is room for it: its next team or set, and teams that have given up their
cores. -/
def Node.rooms (s : State) (nid : Nat) (n : Node) : List Bool :=
  if n.phase != .ready || !ctxPlaces s n.part n.ctx then []
  else (if n.nextTeam < n.teams then [(n.place s).isSome] else []) ++
    (s.teams.filter fun e => e.2.node == nid && e.2.phase == .placed && e.2.core.isNone && e.2.batch.isNone).map
      fun e => (returnPlaces s e.1 e.2 n).isSome

def Node.waitsRoom (s : State) (nid : Nat) (n : Node) : Bool := (n.rooms s nid).any (!·)

/-- Whether a node has waited 65,536 fabric clocks, which are 32,768 arithmetic clocks. -/
def Node.late (s : State) (n : Node) : Bool :=
  match n.waitFrom with
  | some w => decide (w + 32768 ≤ s.clk)
  | none => false

/-- Whether node a was in the pool before node b. -/
def poolBefore (a : Nat × Node) (b : Nat × Node) : Bool :=
  decide (a.2.readyAt < b.2.readyAt) || (a.2.readyAt == b.2.readyAt && decide (a.1 < b.1))

/-! ### Saved teams as waiting work (10 R222, R228) -/

/-- The groups of a saved team that a restore places: those that have not ended and whose batch has been released. -/
def restoreGroups (s : State) (t : Team) : List Nat :=
  t.groups.filter fun g => match getGroup s g with
    | some x => !x.ended && x.batch.isNone
    | none => false

/-- What a saved team needs of a core. -/
def restoreNeed (s : State) (t : Team) : Need := { t.need with tsize := (restoreGroups s t).length }

/-- The teams that are restored with a saved team: its stage set, in ascending stage order (09 R210). -/
def restoreSet (s : State) (tid : Nat) (t : Team) : List (Nat × Team) :=
  match getNode s t.node with
  | some n =>
    if n.stages ≤ 1 then [(tid, t)]
    else (List.range n.stages).flatMap fun k =>
      s.teams.filter fun e => e.2.node == t.node && e.2.set == t.set && e.2.stage == k && e.2.phase == .saved
  | none => [(tid, t)]

/-- Whether a cluster's pool has room for saved buffers, so that what R94 says of it stays so (R93). -/
def poolTakes (s : State) (cluster : Nat) (bufs : List (Nat × List QBuf)) : Bool :=
  let after := bufs.foldl (fun s e => modQueue s cluster e.1 fun v => { v with bufs := v.bufs ++ e.2 }) s
  let n := (bufs.map fun e => e.2.length).foldl (· + ·) 0
  decide (n ≤ poolFree s cluster) && decide (poolReserve after cluster 64 ≤ poolFree after cluster)
    && bufs.all fun e => e.2.isEmpty || decide (queueCount (poolQueue after cluster e.1) ≤ (poolQueue after cluster e.1).cap)

/-- Whether the SPREAD of a team's launch is set. -/
def teamSpread (s : State) (t : Team) : Bool := ((getNode s t.node).map fun n => (n.desc t.stage).spread).getD false

/-- Places for a saved team, or for its stage set in one cluster whose pool takes the set's buffers. -/
def restorePlaces (s : State) (tid : Nat) (t : Team) : Option (List (Nat × List Nat)) :=
  let avoid := (getNode s t.node).bind (Node.avoid s)
  match restoreSet s tid t with
  | [(_, { queueBufs := [], part, .. })] =>
    (findCore s part (restoreNeed s t) (if teamSpread s t then avoid else none)).map fun r => [r]
  | us => findSet s t.part (us.map fun e => ⟨restoreNeed s e.2, teamSpread s e.2⟩) avoid fun k =>
      poolTakes s k (us.flatMap fun e => e.2.queueBufs)

/-- Whether a saved team may return to a core: its context is not being switched, its set waits for no batch that R222
names, and no other such team of its context was saved earlier. -/
def mayRestore (s : State) (tid : Nat) (t : Team) : Bool :=
  let st := ctxState s t.part t.ctx
  let open_ (e : Nat × Team) : Bool := e.2.phase == .saved && (!e.2.byWait || batchesOver s e.2)
  (decide (st ≤ 1) || st == 4) && (restoreSet s tid t).all open_
    && !(s.teams.any fun e => e.2.part == t.part && e.2.ctx == t.ctx && open_ e
      && (decide (e.2.savedAt < t.savedAt) || (e.2.savedAt == t.savedAt && decide (e.1 < tid))))

/-- Whether the work of a priority that began to wait at a clock stands behind a saved team of another context. -/
def behindSaved (s : State) (part ctx pr since : Nat) : Bool :=
  s.teams.any fun e => e.2.part == part && e.2.ctx != ctx && e.2.phase == .saved && mayRestore s e.1 e.2 &&
    (let q := ctxPrio s part e.2.ctx
     decide (pr < q) || (q == pr && decide (e.2.savedAt < since) && (restorePlaces s e.1 e.2).isSome))

/-- Whether other work keeps a node from being placed: a higher priority that waits; older work of its priority that has room;
or work of its priority that has waited 65,536 fabric clocks and still finds none. Of several such, the oldest goes first
(log 105). -/
def heldBack (s : State) (nid : Nat) (n : Node) : Bool :=
  let pr := ctxPrio s n.part n.ctx
  behindSaved s n.part n.ctx pr n.readyAt || s.nodes.any fun e =>
    e.1 != nid && e.2.part == n.part &&
      (let rooms := e.2.rooms s e.1
       let q := ctxPrio s e.2.part e.2.ctx
       let before := poolBefore e (nid, n)
       let old (x : Node) : Bool := x.aged || x.late s
       !rooms.isEmpty && (decide (pr < q) || (q == pr &&
         ((before && rooms.any id) || (old e.2 && rooms.any (!·) && (before || !old n))))))

/-- The nodes note since when a team of theirs has found no room. -/
def noteWaits (s : State) : State :=
  { s with nodes := s.nodes.map fun e =>
      (e.1, if e.2.waitsRoom s e.1 then { e.2 with waitFrom := some (e.2.waitFrom.getD s.clk) }
            else if e.2.waitFrom = none then e.2 else { e.2 with waitFrom := none }) }

/-- DISPATCH_AGE_EXPIRY (R204): the node keeps that it has waited so long. -/
def tryDispatchAgeExpiry (node : Nat) (s : State) : Event :=
  match getNode s node with
  | none => .refused .idle
  | some n =>
    if !n.aged && n.late s && n.waitsRoom s node then .next (modNode s node fun n => { n with aged := true }) else .refused .idle

def execDispatchAgeExpiry (node : Nat) (s : State) : Out := settle s (tryDispatchAgeExpiry node s)

/-! ## Placement (R205, R208) -/

/-- The channels that the 16 queue objects bind. -/
def boundChannels (bs : List Byte) : SMap Channel :=
  (List.range 16).filterMap fun k =>
    let x := leNat ((bs.drop (64 * k)).take 64)
    if bitOf x 31 then some (k, { queue := bitsOf x 0 6, push := bitsOf x 8 8, pop := bitsOf x 16 8 }) else none

/-- What the queue objects of a set's node come to: its channels, or granules that fault. Objects that cannot be read
bind nothing: R208 does not say what a read does that PROTECTION, FATAL_TRANSLATION or a poisoned word stops, and the model treats
it as 03 R71 does one whose batch failed (log 120). -/
def queueObjects (s : State) (n : Node) : (SMap Channel ⊕ List Granule) × State :=
  let at_ := (ctxBase s n.part n.ctx 448 + 1024 * n.qbind) % 2 ^ 64
  if n.stages ≤ 1 ∨ n.qobjFail then (.inl [], s)
  else match readRange s (.tgu n.part) n.part n.ctx .table true at_ 1024 with
    | .fault gs => (.inr gs, s)
    | .trap _ _ => (.inl [], s)
    | .ok bs bad => (.inl (if bad then [] else boundChannels bs), rangeAsked s (.tgu n.part) n.part n.ctx .table true at_ 1024)

/-- Places the teams of a node from %team `index` on, at the cores chosen. -/
def placeTeams (nid : Nat) (n : Node) (ch : SMap Channel) : Nat → List (Nat × List Nat) → State → State
  | _, [], s => s
  | index, (core, slots) :: r, s =>
    placeTeams nid n ch (index + 1) r
      (placeTeam s { teamOfNode nid n index core with channel := ch, known := n.known } core slots)

/-- The node after a placement. -/
def Node.placed (n : Node) (ch : SMap Channel) (at_ : List (Nat × List Nat)) : Node :=
  let core := (at_.getLast?.map (·.1)).getD 0
  { n with
    nextTeam := n.nextTeam + at_.length, waitFrom := none, aged := false, qobjFail := false
    queues := n.queues ++ (((ch.map fun e => e.2.queue).eraseDups).map fun q =>
      (n.nextTeam / max n.stages 1, clusterOf core, q)) }

/-- TEAM_PLACEMENT (R205): the next team, or the next stage set whole. -/
def tryTeamPlacement (node : Nat) (s : State) : Event :=
  match getNode s node with
  | none => .refused .idle
  | some n =>
    if !n.wants s || n.batch.isSome || heldBack s node n then .refused .idle
    else match n.place s with
      | none => .refused .idle
      | some at_ => match queueObjects s n with
        | (.inr gs, _) =>
          if !canReport s n.part then .refused .idle
          else
            let r := reportBatch s n.part { acc := .table, ctx := n.ctx, client := 6 } gs (.qobj node)
            .next (modNode r.2 node fun n => { n with batch := some r.1 })
        | (.inl ch, s1) => .next (modNode (placeTeams node n ch n.nextTeam at_ s1) node fun n => n.placed ch at_)

def execTeamPlacement (node : Nat) (s : State) : Out := settle s (tryTeamPlacement node s)

/-! ## Team start (R207) -/

/-- Writes words to s0 and up of a group; `bad` marks them. -/
def setArgs (ws : List Nat) (bad : Bool) (g : Group) : Group :=
  ws.zipIdx.foldl (fun g e => g.setS e.2 e.1 bad) g

/-- The first path of a group with lanes at a slot (08 R179). -/
def startPath (d : KDesc) (addr slot : Nat) (m : Mask) : Path := freshPath addr slot m 0xC3 d.handle

/-- The paths of a group of a spawned team: one for each place its threads start at (16 R384). -/
def spawnPaths (d : KDesc) (rs : List (SpawnRec × Nat)) (g : Group) : Group :=
  let places := (rs.map fun e => (e.1.addr, e.1.slot)).eraseDups
  places.foldl (fun g a =>
    placePath g 0 (startPath d a.1 a.2 (maskOf ((rs.filter fun e => (e.1.addr, e.1.slot) == a).map (·.2))))) g

/-- A clone enters a lane of a spawned team. -/
def spawnLane (gen : Nat) (g : Group) (e : SpawnRec × Nat) : Group :=
  let x := e.1
  let h := x.vregs.foldl (fun g v => g.setV v.1 e.2 v.2.1.toNat v.2.2) g
  let k := x.preds.foldl (fun g p => g.setPred p.1 (laneBit e.2) (if p.2 then laneBit e.2 else 0)) h
  { k with ids := spPut k.ids e.2 ⟨gen * 2 ^ 26 + x.pidx, x.pidx, x.lin⟩ }

/-- The lanes of a persistent launch's group, filled from the dispenser (08 R191). -/
def startFilled (s : State) (n : Node) (nid gid : Nat) (d : KDesc) : State :=
  let items := dispense n (List.range 64)
  let s1 := modNode s nid fun n => { n with dispensed := n.dispensed + items.length }
  if items.isEmpty then s1
  else modGroup s1 gid fun g =>
    let g1 := fillLanes { g with live0 := some (startPath d d.entry 0 0) } 0 0 items
    { g1 with refill := spPut g1.refill 2 { lanes := items, count := items.length } }

/-- Gives a group of a starting team its threads. -/
def startGroup (tid : Nat) (s : State) (gid : Nat) : State :=
  match getTeam s tid, getGroup s gid with
  | some t, some g => match getNode s t.node with
    | none => s
    | some n =>
      let d := n.desc t.stage
      let rs := ((t.spawned.drop (64 * g.index)).take 64).zipIdx
      let clocked : State := modGroup s gid fun g => { g with age := clkOf s ((g.place.getD 0) / 256) }
      if !t.spawned.isEmpty then
        modGroup clocked gid fun g => spawnPaths d rs (rs.foldl (spawnLane n.gen) g)
      else if d.persistent then startFilled clocked n t.node gid d
      else modGroup clocked gid fun g => { g with live0 := some (startPath d d.entry 0 (BitVec.allOnes 64)) }
  | _, _ => s

/-- Whether the payload reads of a starting group wait for a batch. -/
def refillWaits (g : Group) : Bool := ((spFind g.refill 2).bind (·.batch)).isSome

/-- Makes the payload reads of the groups of a starting team, and lets the team run once they are all there. -/
def startReads (s : State) (tid : Nat) (t : Team) : State :=
  let s1 := t.groups.foldl (fun s g => match getGroup s g with
    | some x => if refillDone x 2 || refillWaits x then s else payloadStep s g 0 2
    | none => s) s
  let ready (g : Nat) : Bool := match getGroup s1 g with
    | some x => refillDone x 2
    | none => true
  if t.groups.all ready then
    t.groups.foldl (fun s g => modGroup s g fun x => { x with refill := spDel x.refill 2 })
      (modTeam s1 tid fun t => { t with phase := .running, begun := true })
  else s1

/-- The team's lanes, once its argument block is there. -/
def startLanes (s : State) (tid : Nat) (t : Team) (ws : List Nat) (bad : Bool) : State :=
  let s1 := t.groups.foldl (fun s g => modGroup s g (setArgs ws bad)) s
  let s2 := t.groups.foldl (startGroup tid) s1
  startReads (modTeam s2 tid fun t => { t with laned := true, argFail := false }) tid t

/-- The argument read of a team has faulted: it holds nothing on its core until the release (03 R72). -/
def unplaceTeam (s : State) (tid : Nat) (t : Team) (batch : Nat) : State :=
  let s1 := modTeam s tid fun t => { t with core := none, units := [], groups := [], batch := some batch }
  settleContext { s1 with groups := s1.groups.filter fun e => e.2.team != tid } t.part t.ctx

/-- The team whose argument read had faulted is placed again, in its node's turn; the queues of its set are those of its
cluster. -/
def returnTeam (s : State) (tid : Nat) (t : Team) (n : Node) : Event :=
  if !ctxPlaces s t.part t.ctx || heldBack s t.node n then .refused .idle
  else match returnPlaces s tid t n with
    | none => .refused .idle
    | some ps =>
      let s1 := ps.foldl (fun s p => match getTeam s p.1 with
        | some u => settleTeam s p.1 u p.2.1 p.2.2
        | none => s) s
      let cluster := clusterOf ((ps.head?.map (·.2.1)).getD 0)
      .next (modNode s1 t.node fun n =>
        { n with
          waitFrom := none, aged := false
          queues := n.queues.map fun e => if e.1 = t.set ∧ 1 < n.stages then (e.1, cluster, e.2.2) else e })

/-! ### Bindings of a restored team (15 R354, R355) -/

/-- Whether the bindings that a team records are free on a core. -/
def bindingsFree (s : State) (core tid : Nat) (t : Team) : Bool :=
  (List.range 4).all fun r => !(getBinding t r).valid || bindingFree s core tid r

/-- Reloads the recorded bindings from the restored scratchpad. Where a program has stored to the source bytes of a held binding,
all 128-byte blocks take the new bytes: R355 lets each take the old or the new (log 127). -/
def reloadBindings (s : State) (core tid : Nat) (t : Team) : State :=
  (List.range 4).foldl (fun s r =>
    let b := getBinding t r
    if b.valid then
      fillScale (fillSlot4 s core tid r (weightSource t b.wzb b.wsrc b.wlen)) core tid r
        (spadBytes t b.ssrc b.slen, spadBads t b.ssrc b.slen)
    else s) s

/-- A restored team runs once every binding that it records is its own again. -/
def takeBindings (s : State) (tid : Nat) (t : Team) (core : Nat) : Event :=
  if bindingsFree s core tid t then .next (modTeam (reloadBindings s core tid t) tid fun t => { t with phase := .running })
  else .refused .idle

/-- TEAM_START (R207): the team-start acquire, the argument block, the threads, and the payloads of a persistent launch; for a
team that was restored, what its bindings wait for (15 R355). -/
def tryTeamStart (team : Nat) (s : State) : Event :=
  match getTeam s team with
  | none => .refused .idle
  | some t => match t.core, getNode s t.node with
    | some core, some n =>
      if t.phase ≠ .placed ∨ t.batch.isSome then .refused .idle
      else if t.begun then takeBindings s team t core
      else if t.laned then
        if !canReport s t.part || t.groups.any fun g => match getGroup s g with
            | some x => refillWaits x
            | none => false
        then .refused .idle
        else .next (startReads s team t)
      else
        let s1 := modTeam s team fun t => { t with known := addIds t.known (addIds n.known (overdue s)) }
        let poison : Event := .next (startLanes s1 team t (List.replicate 16 0) true)
        if n.args = 0 then .next (startLanes s1 team t [] false)
        else if t.argFail then poison
        else match readRange s1 (.tgu n.part) n.part n.ctx .table true n.args 64 with
          | .trap _ _ => poison
          | .fault gs =>
            if !canReport s n.part then .refused .idle
            else
              let r := reportBatch s n.part { acc := .table, ctx := n.ctx, core := core, client := 6 } gs (.args team)
              .next (unplaceTeam r.2 team t r.1)
          | .ok bs bad =>
            .next (startLanes (rangeAsked s1 (.tgu n.part) n.part n.ctx .table true n.args 64) team t (wordsOf bs) bad)
    | none, some n => if t.phase ≠ .placed ∨ t.batch.isSome then .refused .idle else returnTeam s team t n
    | _, none => .refused .idle

def execTeamStart (team : Nat) (s : State) : Out := settle s (tryTeamStart team s)

/-! ## Completion (06 R131; 17 R407, R409; 09 R199, R200) -/

/-- Whether everything a node waits for is over. -/
def nodeDrained (s : State) (nid : Nat) (n : Node) : Bool :=
  n.phase == .ready && n.nextTeam == n.teams && n.spawns.isEmpty && n.batch.isNone
    && !(s.teams.any fun e => e.2.node == nid)
    && !(s.nodes.any fun e => e.2.stream == .child nid)
    && !(s.entries.any fun e => sourceStream e.2.src e.1 == .child nid)
    && !((getPart s n.part).tris.any fun t => t.node == nid)
    && !((getPart s n.part).samples.any fun x => x.node == nid)

/-- The adds of a node's statistics to the draw records: address and amount. -/
def statAdds (s : State) (n : Node) : List (Nat × Nat) :=
  let base := ctxBase s n.part n.ctx 704
  (n.stats.flatMap fun e =>
    let a := base + 64 * e.1
    [(a + 32, e.2.primsIn), (a + 40, e.2.culled), (a + 48, e.2.threads.length), (a + 56, e.2.samples.length)]).filterMap
    fun x => if x.2 = 0 then none else some (x.1 % 2 ^ 64, x.2)

/-- The rasterisers of a partition. -/
def rasterisers (s : State) (part : Nat) : List Agent :=
  (List.range (8 / partCount s)).map fun k => .raster (8 / partCount s * part + k)

/-- The unit that makes a node's adds: the partition's first rasteriser. -/
def statRaster (s : State) (n : Node) : Nat := 8 / partCount s * n.part

def statXlate (s : State) (n : Node) (x : Nat × Nat) : XlOut :=
  translate s (.raster (statRaster s n)) n.part n.ctx .atomic (ctxSup s n.part n.ctx) x.1

/-- Whether an add page-faults. -/
def statLate (s : State) (n : Node) (x : Nat × Nat) : Bool :=
  match statXlate s n x with
  | .fault _ _ => true
  | _ => false

/-- One add (R409), a read-modify-write of a rasteriser; dropped when its translation does not succeed. -/
def statAdd (n : Node) (s : State) (x : Nat × Nat) : State :=
  match statXlate s n x with
  | .ok loc kind cmp =>
    (rmwUnit s (.raster (statRaster s n)) cmp kind x.1 loc 8 (fun bs => leBytes 8 (leNat bs + x.2)) []).2
  | _ => s

/-- Empties the queues that the launch's stage sets were bound to (04 R95). -/
def emptyBound (s : State) (n : Node) : State :=
  n.queues.foldl (fun s e => emptyQueues s n.part n.ctx e.2.1 [e.2.2]) s

/-- What the completion of a node orders: the writes of its teams and jobs, those of the rasterisers for it, and those of its
child stream. -/
def nodeIds (s : State) (n : Node) : List Nat := addIds n.left (releasedBy s (rasterisers s n.part))

/-- The node is complete: its stream goes on, and its record of a queue completes. -/
def finishNode (s : State) (nid : Nat) (n : Node) : State :=
  let s1 := emptyBound s n
  let ids := nodeIds s1 n
  let s2 := { s1 with nodes := spDel s1.nodes nid, ends := s1.ends.filter fun e => e.stream != .child nid }
  match n.src with
  | .queue p q i => recordDone (endMember s2 n.stream n.order n.regions ids) p q i ids
  | .launch _ _ true _ => s2
  | .launch _ _ false up =>
    modNode (endMember s2 n.stream n.order n.regions ids) up fun m => { m with left := addIds m.left ids }

/-- NODE_COMPLETE (R131, R407, R409): the adds that translate are made, and a page fault on others delays the completion until
they are made or dropped. -/
def tryNodeComplete (node : Nat) (s : State) : Event :=
  match getNode s node with
  | none => .refused .idle
  | some n =>
    if !nodeDrained s node n then .refused .idle
    else
      let adds := n.owed.getD (statAdds s n)
      let late := adds.filter (statLate s n)
      if late ≠ [] ∧ !canReport s n.part then .refused .idle
      else
        let s1 := (adds.filter fun x => !statLate s n x).foldl (statAdd n) s
        if late = [] then .next (finishNode s1 node n)
        else
          let gs := xlFaults s (.raster (statRaster s n)) n.part n.ctx .atomic (ctxSup s n.part n.ctx)
            (late.map fun x => ⟨0, x.1, 8, false⟩) []
          let r := reportBatch s1 n.part { acc := .atomic, ctx := n.ctx, client := 3, unit := statRaster s n } gs (.stats node)
          .next (modNode r.2 node fun n => { n with batch := some r.1, owed := some late })

def execNodeComplete (node : Nat) (s : State) : Out := settle s (tryNodeComplete node s)

end Sys2Proof.Machine
end

