-- ==== Sys2Proof/Machine/Preempt.lean ====
section
/-!
DEFINITION. Time slices, pre-emption, team saves and restores, and the context reset as an event
(09 R211; 10 R222 to R229, R231; 15 R354, R355; 04 R82, R99).
-/
namespace Sys2Proof.Machine

/-! ## Time slices and pre-emption (09 R211; 10 R223) -/

def ctxBudget (s : State) (part ctx : Nat) : Nat := ctxBits s part ctx 96 32
def ctxDrainWin (s : State) (part ctx : Nat) : Nat := ctxBits s part ctx 128 32
/-- A DEADLINE below DRAIN_WIN is treated as DRAIN_WIN (R227). -/
def ctxDeadline (s : State) (part ctx : Nat) : Nat := max (ctxBits s part ctx 160 32) (ctxDrainWin s part ctx)

/-- Whether a core holds a team of a context. -/
def coreHolds (s : State) (core part ctx : Nat) : Bool :=
  (coreTeams s core).any fun e => e.2.part == part && e.2.ctx == ctx && e.2.phase != .ended

/-- BUDGET_EXPIRY (R211): the count of a context on a core has reached its budget; not while the debugger holds a group
of the context (R231). -/
def tryBudgetExpiry (core ctx : Nat) (s : State) : Event :=
  let part := partOfCore s core
  let b := ctxBudget s part ctx
  if !coreHolds s core part ctx || b == 0 || decide (spGet 0 (getCore s core).slice ctx < b)
      || (getPart s part).expired.contains ctx || ctxState s part ctx != 1 || ctxHalted s part ctx
  then .refused .idle
  else .next (modPart s part fun p => { p with expired := p.expired ++ [ctx] })

def execBudgetExpiry (core ctx : Nat) (s : State) : Out := settle s (tryBudgetExpiry core ctx s)

/-- Whether work of another context, of a priority that `f` picks, waits for room: a node of the pool, or a saved team. -/
def workWaits (s : State) (part ctx : Nat) (f : Nat → Bool) : Bool :=
  (s.nodes.any fun e => e.2.part == part && e.2.ctx != ctx && f (ctxPrio s part e.2.ctx) && e.2.waitsRoom s e.1)
    || s.teams.any fun e => e.2.part == part && e.2.ctx != ctx && f (ctxPrio s part e.2.ctx)
      && e.2.phase == .saved && mayRestore s e.1 e.2 && (restorePlaces s e.1 e.2).isNone

/-- Contexts of a partition with a resident team. -/
def residentCtxs (s : State) (part : Nat) : List Nat :=
  ((s.teams.filter fun e => e.2.part == part && e.2.core.isSome && e.2.phase != .saved && e.2.phase != .ended).map
    fun e => e.2.ctx).eraseDups

/-- Whether a context's count is at its budget on some core now. -/
def overBudget (s : State) (part ctx : Nat) : Bool :=
  let b := ctxBudget s part ctx
  b != 0 && s.cores.any fun e => partOfCore s e.1 == part && decide (b ≤ spGet 0 e.2.slice ctx)

/-- The clock at which the first of a context's counts reached its budget; one whose budget is not spent comes behind every
clock. -/
def reachedAt (s : State) (part ctx : Nat) : Nat :=
  let cs := s.cores.filterMap fun e => if partOfCore s e.1 = part then spFind e.2.reached ctx else none
  if overBudget s part ctx then cs.foldl min (s.clk + 1) else s.clk + 1

/-- Whether a context's budget is spent while work of equal or higher priority waits (R211). -/
def sliceSpent (s : State) (part ctx : Nat) : Bool :=
  overBudget s part ctx && workWaits s part ctx (fun q => decide (ctxPrio s part ctx ≤ q))

/-- The first case of R211, and no context of the same priority in that case whose count reached its budget earlier. -/
def sliceOver (s : State) (part ctx : Nat) : Bool :=
  (getPart s part).expired.contains ctx && sliceSpent s part ctx
    && !((residentCtxs s part).any fun x => x != ctx && ctxPrio s part x == ctxPrio s part ctx && ctxState s part x == 1
      && !ctxHalted s part x && decide (reachedAt s part x < reachedAt s part ctx) && sliceSpent s part x)

/-- The second case of R211: work of a higher priority waits, and this context is the lowest-priority resident one; of
several, the one that reached its budget first, then the lowest-numbered. -/
def lowestWanted (s : State) (part ctx : Nat) : Bool :=
  let pr := ctxPrio s part ctx
  let turn (x : Nat) : Nat := reachedAt s part x
  workWaits s part ctx (fun q => decide (pr < q))
    && (residentCtxs s part).all fun x =>
      let q := ctxPrio s part x
      decide (pr < q) || (q == pr && (decide (turn ctx < turn x) || (turn ctx == turn x && decide (ctx ≤ x)))
        && (getPart s part).preempt.all fun y => y.ctx != x)

/-- CONTEXT_PREEMPT (R211, R223 step 1): the drain begins; not while the debugger holds a group of the context. -/
def tryContextPreempt (part ctx : Nat) (s : State) : Event :=
  if ctxState s part ctx != 1 || !ctxResident s part ctx || ctxHalted s part ctx
      || !(sliceOver s part ctx || lowestWanted s part ctx)
  then .refused .idle
  else
    let s1 := modPart s part fun p =>
      { p with preempt := p.preempt ++ [{ ctx := ctx, start := s.clk }], expired := p.expired.filter fun x => x != ctx }
    .next (setCtxBits s1 part ctx 69 3 2)

def execContextPreempt (part ctx : Nat) (s : State) : Out := settle s (tryContextPreempt part ctx s)

def findPreempt (s : State) (part ctx : Nat) : Option Preempt := (getPart s part).preempt.find? fun x => x.ctx == ctx

/-- Fabric clocks since a pre-emption began. -/
def preemptAge (s : State) (p : Preempt) : Nat := 2 * (s.clk - p.start)

/-- DRAIN_WINDOW_EXPIRY (R223 step 2): the remaining teams are to be saved. -/
def tryDrainWindowExpiry (part ctx : Nat) (s : State) : Event :=
  match findPreempt s part ctx with
  | none => .refused .idle
  | some p =>
    if p.saving || decide (preemptAge s p < ctxDrainWin s part ctx) || ctxHalted s part ctx then .refused .idle
    else
      let s1 := modPart s part fun v =>
        { v with preempt := v.preempt.map fun x => if x.ctx = ctx then { x with saving := true } else x }
      .next (setCtxBits s1 part ctx 69 3 3)

def execDrainWindowExpiry (part ctx : Nat) (s : State) : Out := settle s (tryDrainWindowExpiry part ctx s)

/-- DEADLINE_EXPIRY (R223 step 3): the context is reset with reason 1. -/
def tryDeadlineExpiry (part ctx : Nat) (s : State) : Event :=
  match findPreempt s part ctx with
  | none => .refused .idle
  | some p =>
    if decide (preemptAge s p < ctxDeadline s part ctx) || ctxHalted s part ctx then .refused .idle
    else .next (contextReset s part ctx 1 0)

def execDeadlineExpiry (part ctx : Nat) (s : State) : Out := settle s (tryDeadlineExpiry part ctx s)

/-- CONTEXT_RESET (R225): for one of the four reasons. -/
def tryContextReset (part ctx reason rcause : Nat) (s : State) : Event :=
  if partCount s ≤ part ∨ !ctxInArea s part ctx ∨ reason = 0 ∨ 4 < reason then .refused .idle
  else .next (contextReset s part ctx reason rcause)

def execContextReset (part ctx reason rcause : Nat) (s : State) : Out := settle s (tryContextReset part ctx reason rcause s)

/-! ## Who is saved (R222, R224; 04 R99) -/

/-- The groups of a team that are on its core. -/
def residentGroups (s : State) (t : Team) : List (Nat × Group) :=
  t.groups.filterMap fun g => match getGroup s g with
    | some x => if x.ended || x.saved then none else some (g, x)
    | none => none

/-- The fault-saved groups of a team, those that a release lets back and that have yet to find a quarter too. -/
def faultSaved (s : State) (t : Team) : List Group :=
  t.groups.filterMap fun g => match getGroup s g with
    | some x => if x.faultSaved then some x else none
    | none => none

/-- Whether a live path waits at a barrier, latch, full-empty bit, channel or TWAIT. -/
def pathWaits (s : State) (gid live : Nat) : Bool :=
  match issOf s ⟨gid, live⟩ with
  | none => true
  | some c => match c.p.wait with
    | .barrier _ _ => !waitOver s c
    | .latch _ => true
    | .fullEmpty => true
    | .channel => true
    | .token _ => !waitOver s c
    | _ => false

/-- Whether a live path's wait needs a fault-saved group of its team. -/
def waitNeeds (t : Team) (fs : List Group) (p : Option Path) : Bool :=
  match p with
  | none => false
  | some q => match q.wait with
    | .barrier _ _ => !fs.isEmpty
    | .fullEmpty => !fs.isEmpty
    | .channel => !fs.isEmpty
    | .latch n => fs.any fun g => (getLatch t n).members.contains g.index
    | _ => false

/-- The conditions of R222. -/
def onlyWaits (s : State) (t : Team) : Bool :=
  let gs := residentGroups s t
  let fs := faultSaved s t
  t.phase == .running && (gs.all fun e => (e.2.live0.isSome || e.2.live1.isSome) && pathWaits s e.1 0 && pathWaits s e.1 1)
    && gs.any fun e => waitNeeds t fs e.2.live0 || waitNeeds t fs e.2.live1

/-- Whether a resident team must be saved: its context is being saved, or its core is fenced. -/
def mustSave (s : State) (t : Team) : Bool :=
  match t.core with
  | some k => ctxState s t.part t.ctx == 3 || coreFenced s k
  | none => false

/-- The teams that are saved together: a stage set whole (R224). -/
def saveSet (s : State) (tid : Nat) (t : Team) : List (Nat × Team) :=
  match getNode s t.node with
  | some n =>
    if n.stages ≤ 1 then [(tid, t)]
    else (List.range n.stages).flatMap fun k =>
      s.teams.filter fun e => e.2.node == t.node && e.2.set == t.set && e.2.stage == k && e.2.core.isSome
        && e.2.phase != .saved && e.2.phase != .ended
  | none => [(tid, t)]

/-! ## The save (R224, R226) -/

/-- Whether the instructions that a team has issued are complete, and no job still uses its scratchpad. -/
def saveReady (s : State) (e : Nat × Team) : Bool :=
  (residentGroups s e.2).all (fun g => opsSettled s g.1)
    && !((teamJobs s e.1).any fun j => j.card.spsrc || j.card.spdst)

/-- Saves the resident groups of a team, each to a unit. -/
def saveGroups (part ctx : Nat) : List (Nat × Group) → State → Option State
  | [], s => some s
  | (gid, g) :: r, s => match findUnits s part 1 with
    | none => none
    | some u => saveGroups part ctx r (saveGroup s part ctx gid u g)

/-- Frame addresses of a team's groups, in ascending %group; 0 for one that has ended. -/
def groupFrames (s : State) (t : Team) : List Nat :=
  t.groups.map fun g => ((getGroup s g).bind (·.frame)).getD 0

/-- The buffers of the queues that a set is bound to. -/
def setBuffers (s : State) (t : Team) : List (Nat × List QBuf) :=
  match t.core with
  | some k => (teamQueues t).map fun q => (q, (poolQueue s (clusterOf k) q).bufs)
  | none => []

def bufferBytes (bs : List (Nat × List QBuf)) : List Byte := bs.flatMap fun e => e.2.flatMap fun b => b.bytes

/-- Units that queue buffers take. -/
def bufferUnits (bs : List (Nat × List QBuf)) : Nat := ((bufferBytes bs).length + 2 ^ 17 - 1) / 2 ^ 17

/-- The poison of the byte i of queue buffers. -/
def bufferBad (bs : List (Nat × List QBuf)) (i : Nat) : Bool :=
  match (bs.flatMap (·.2))[i / 64]? with
  | some b => bitOf b.bad (i % 64 / 8)
  | none => false

/-- The saved team's record, and its context's count and list head (R227). -/
def noteSaved (s : State) (tid : Nat) (t : Team) (addr : Nat) (bufs : List (Nat × List QBuf)) : State :=
  let n := ctxBits s t.part t.ctx 512 32
  let s1 := setCtxBits s t.part t.ctx 512 32 (n + 1)
  let s2 := if n = 0 then setCtxBits s1 t.part t.ctx 576 64 addr else s1
  modTeam s2 tid fun t =>
    { t with core := none, units := [], phase := .saved, frame := some addr, queueBufs := bufs, savedAt := s.clk
             spad := [], full := [], spoison := [] }

/-- A team with outstanding jobs has an entry in the redirection table of 1,024; none when it is full. -/
def addRedirect (s : State) (tid : Nat) (t : Team) : Option State :=
  let tab := (getPart s t.part).redirect
  if (teamJobs s tid).isEmpty || tab.contains tid then some s
  else if 1024 ≤ tab.length then none
  else some (modPart s t.part fun p => { p with redirect := p.redirect ++ [tid] })

/-- Saves one team; none when a unit or an entry is wanting. `bufs` are the queue buffers appended to its frame. -/
def saveTeam (s : State) (tid : Nat) (t : Team) (bufs : List (Nat × List QBuf)) : Option State :=
  let core := t.core.getD 0
  match addRedirect (publishAt s core 6) tid t with
  | none => none
  | some s1 => match saveGroups t.part t.ctx (residentGroups s1 t) s1 with
    | none => none
    | some s2 =>
      let n := teamUnits t + bufferUnits bufs
      match findUnits s2 t.part n, getTeam s2 tid with
      | some u, some t2 =>
        let a := unitAddr s2 t.part u
        let s3 := writeTeamFrame (takeUnits s2 t.part t.ctx u n) t2 a (groupFrames s2 t2)
        let s4 := if bufs = [] then s3
          else bulkWrite s3 (a + 2 ^ 17 * teamUnits t) (padTo (2 ^ 17 * bufferUnits bufs) (bufferBytes bufs)) (bufferBad bufs)
        some (noteSaved (freeWeights s4 core tid) tid t a bufs)
      | _, _ => none

/-- Saves the teams of a set in ascending number, the buffers with the first. -/
def saveTeams : List (Nat × Team) → List (Nat × List QBuf) → State → Option State
  | [], _, s => some s
  | (tid, t) :: r, bufs, s => match saveTeam s tid t bufs with
    | none => none
    | some s1 => saveTeams r [] s1

/-- The whole save of a set: its queues are left empty, and the context may have no resident team left. -/
def saveWhole (s : State) (set : List (Nat × Team)) (byWait : Bool) : Option State :=
  match set with
  | [] => none
  | (tid, t) :: r =>
    let bufs := if t.channel.isEmpty then [] else setBuffers s t
    match saveTeams ((tid, t) :: r) bufs s with
    | none => none
    | some s1 =>
      let s2 := match t.core with
        | some k => emptyQueues s1 t.part t.ctx (clusterOf k) (teamQueues t)
        | none => s1
      let s3 := set.foldl (fun s e => modTeam s e.1 fun t => { t with byWait := byWait }) s2
      some (settleContext s3 t.part t.ctx)

/-- TEAM_SAVE (R224): a team that must be saved stops issuing at once and is saved when its issued instructions are
complete and there is room; a team that only waits (R222) is saved when that can be done whole. -/
def tryTeamSave (team : Nat) (s : State) : Event :=
  match getTeam s team with
  | none => .refused .idle
  | some t =>
    let live (p : TeamPhase) : Bool := p == .placed || p == .running || p == .saving
    let must := t.phase == .saving || mustSave s t
    if !live t.phase || t.core.isNone || (must && ctxHalted s t.part t.ctx) || !(must || onlyWaits s t) then .refused .idle
    else
      let set := saveSet s team t
      match (if set.all (saveReady s) then saveWhole s set (!must) else none) with
        | some s1 => .next s1
        | none =>
          if !must || set.all (fun e => e.2.phase == .saving) then .refused .idle
          else .next (set.foldl (fun s e => modTeam s e.1 fun t => { t with phase := .saving }) s)

def execTeamSave (team : Nat) (s : State) : Out := settle s (tryTeamSave team s)

/-! ## The restore (R228, R229; 15 R355) -/

/-- The dictionary slots and the instruction cache of a restore's destination hold nothing of its context (R228). -/
def dropDicts (s : State) (core part ctx : Nat) : State := modCore s core fun k => k.withoutCode part ctx

/-- The stores that the threads of a team have released with its save. -/
def teamReleased (s : State) (t : Team) : List Nat := t.groups.foldl (fun l g => addIds l (groupReleased s g)) t.known

/-- The destination's instruction cache holds nothing for the context, and the restore acts as an FFENCE of both kinds (R228; 06
R146): the groups' fetches return what the team's save has released, or later stores. -/
def freshCode (s : State) (part ctx : Nat) (gids ids : List Nat) : State :=
  let v : CodeInv :=
    { id := s.stores, place := {}, scope := 6, part := part, ctx := ctx, base := 0, bytes := 2 ^ 64, places := [], ids := ids }
  gids.foldl (fun s g => modGroup s g fun x => { x with code := x.code ++ [v] }) { s with stores := s.stores + 1 }

/-- Rows of a team's groups that a fenced Barista has not computed, bins and tiles alike (04 R99). -/
def fencedRows (s : State) (gids : List Nat) : List (Nat × List NRow) :=
  let mine (rs : List NRow) : List NRow := rs.filter fun r => gids.contains r.gid
  ((s.clusters.filter fun e => e.2.fenced).flatMap fun e => e.2.bins.map fun b => (b.handle, mine b.rows))
    ++ ((s.tiles.filter fun e => (getCluster s e.2.cluster).fenced).map fun e => (e.2.handle, mine e.2.rows))

/-- The rows a fenced Barista holds for a team's groups go to the cluster it returns to. -/
def moveRows (s : State) (gids : List Nat) (cluster part ctx : Nat) : State :=
  let keep (rs : List NRow) : List NRow := rs.filter fun r => !gids.contains r.gid
  let rows := (fencedRows s gids).filter fun e => !e.2.isEmpty
  let bins (k : Cluster) : List Bin :=
    (k.bins.map fun b => { b with rows := keep b.rows }).filter (fun b => !b.rows.isEmpty)
  let ks := s.clusters.map fun e => if e.2.fenced then (e.1, { e.2 with bins := bins e.2 }) else e
  let ts := s.tiles.map fun e =>
    if (getCluster s e.2.cluster).fenced then (e.1, { e.2 with rows := keep e.2.rows }) else e
  let s1 := { s with clusters := ks, tiles := ts }
  rows.foldl (fun s e => addRows s cluster part ctx e.1 e.2) s1

/-- Loads the groups that return to slots of a core. -/
def loadGroups (part core : Nat) : List Nat → List Nat → State → State
  | g :: gs, sl :: sls, s =>
    loadGroups part core gs sls (match getGroup s g with
      | some x => loadGroup s part g (64 * core + sl) x
      | none => s)
  | _, _, s => s

/-- SAVED and SAVED_HEAD after one team has left the list: the head is the oldest team still saved, 0 for none. -/
def unlistSaved (s : State) (part ctx : Nat) : State :=
  let left := (ctxTeams s part ctx fun t => t.phase == .saved)
  let oldest := left.foldl (fun (b : Option Team) e => match b with
    | some t => if e.2.savedAt < t.savedAt then some e.2 else b
    | none => some e.2) none
  setCtxBits (setCtxBits s part ctx 512 32 left.length) part ctx 576 64 ((oldest.bind (·.frame)).getD 0)

/-- Saved queue buffers as the frame holds them, 64 bytes each with the poison of their words, behind a number of others. -/
def readBufs (s : State) (base : Nat) : Nat → List (Nat × List QBuf) → List (Nat × List QBuf)
  | _, [] => []
  | k, (q, bs) :: r =>
    let at_ (i : Nat) : Nat := base + 64 * (k + i)
    (q, bs.zipIdx.map fun e =>
      { e.1 with
        bytes := bulkRead s (at_ e.2) 64
        bad := (List.range 8).foldl (fun m i => if bulkBad s (at_ e.2 + 8 * i) then m + 2 ^ i else m) 0 })
      :: readBufs s base (k + bs.length) r

/-- Pushes saved queue buffers back, in order. -/
def pushBack (s : State) (cluster : Nat) (bufs : List (Nat × List QBuf)) : State :=
  bufs.foldl (fun s e => modQueue s cluster e.1 fun v => { v with bufs := v.bufs ++ e.2 }) s

/-- Restores one team to a core. The team-start acquire at .sys observes the release of the save. Its groups issue nothing until
every binding that it records is its own again (15 R355). -/
def restoreTeam (s : State) (tid : Nat) (t : Team) (core : Nat) (slots : List Nat) : State :=
  let addr := t.frame.getD 0
  let gs := restoreGroups s t
  let back := readTeamFrame s t addr
  let s1 := freeUnits s t.part addr (teamUnits t + bufferUnits t.queueBufs)
  let ids := addIds (teamReleased s t) (overdue s)
  let placed : Team := { back with
    known := ids, frame := none, queueBufs := [], savedAt := 0, byWait := false
    phase := .placed }
  let s2 := loadGroups t.part core gs slots (takeSram (modTeam s1 tid fun _ => placed) tid core t.size)
  let s3 := if t.begun then (match takeBindings s2 tid back core with
    | .next u => u
    | _ => s2) else s2
  let s4 := pushBack s3 (clusterOf core) (readBufs s (addr + 2 ^ 17 * teamUnits t) 0 t.queueBufs)
  let s5 := moveRows (freshCode (dropDicts s4 core t.part t.ctx) t.part t.ctx gs ids) t.groups (clusterOf core) t.part t.ctx
  let s6 := modNode s5 t.node fun n =>
    { n with queues := n.queues.map fun q => if q.1 = t.set then (q.1, clusterOf core, q.2.2) else q }
  modPart (ctxRuns (unlistSaved s6 t.part t.ctx) t.part t.ctx) t.part fun p =>
    { p with redirect := p.redirect.filter fun x => x != tid, pointer := some (clusterOf core) }

/-- Restores the teams of a set one after another. -/
def restoreTeams : List (Nat × Team) → List (Nat × List Nat) → State → State
  | (tid, t) :: r, (core, slots) :: q, s => restoreTeams r q (restoreTeam s tid t core slots)
  | _, _, s => s

/-- Whether a saved team or set fits on an empty unfenced core or cluster (R229). -/
def restoreFits (s : State) (part : Nat) (set : List (Nat × Team)) : Bool :=
  match set with
  | [(_, t)] => teamFitsEmpty s part (restoreNeed s t)
  | ts => setFitsEmpty s part (ts.map fun e => restoreNeed s e.2)

/-- Whether a saved context's turn has come (09 R204): no waiting node of a higher priority, nor an older one of its
priority that has room or has waited 65,536 fabric clocks. -/
def restoreTurn (s : State) (t : Team) : Bool :=
  let pr := ctxPrio s t.part t.ctx
  ctxState s t.part t.ctx != 4 || !(s.nodes.any fun e =>
    e.2.part == t.part && e.2.ctx != t.ctx &&
      (let rooms := e.2.rooms s e.1
       let q := ctxPrio s t.part e.2.ctx
       !rooms.isEmpty && (decide (pr < q) ||
        (q == pr && decide (e.2.readyAt < t.savedAt) && (e.2.aged || e.2.late s || rooms.any id)))))

/-- TEAM_RESTORE (R228, R229). -/
def tryTeamRestore (team : Nat) (s : State) : Event :=
  match getTeam s team with
  | none => .refused .idle
  | some t =>
    let set := restoreSet s team t
    if t.phase ≠ .saved ∨ !mayRestore s team t ∨ !restoreTurn s t then .refused .idle
    else if !restoreFits s t.part set then .next (contextReset s t.part t.ctx 3 0)
    else match restorePlaces s team t with
      | none => .refused .idle
      | some at_ => .next (restoreTeams set at_ s)

def execTeamRestore (team : Nat) (s : State) : Out := settle s (tryTeamRestore team s)

end Sys2Proof.Machine
end

