-- ==== Sys2Proof/Machine/MemCtl.lean ====
section
/-!
DEFINITION. Write-backs that no program orders, the writes of the memory controllers, error retries and fences
(04 R83, R86, R96 to R100; 05 R117; 03 R64 to R66).
-/
namespace Sys2Proof.Machine

/-- L1_OVERFLOW_WRITEBACK (05 R117): the dirty bytes of one line of a core reach the L2. -/
def tryL1OverflowWriteback (core line : Nat) (s : State) : Event :=
  if (getCore s core).pend.any fun e => e.1 / 16 == line then .next (coreWriteBack s core fun l => l == line)
  else .refused .idle

def execL1OverflowWriteback (core line : Nat) (s : State) : Out := settle s (tryL1OverflowWriteback core line s)

/-- A line that a partition's L2 holds, when it is dirty. -/
def dirtyLine (s : State) (part line : Nat) : Option L2Line :=
  (l2Find s line).filter fun ln => ln.dirty != 0 && lineHolder s line ln == part

/-- FULL_BLOCK_WRITE (03 R64): the L2 writes back a dirty line whose four sectors are valid. -/
def tryFullBlockWrite (part line : Nat) (s : State) : Event :=
  match dirtyLine s part line with
  | some ln => if ln.valid = 15 then .next (l2WriteBack s line) else .refused .idle
  | none => .refused .idle

def execFullBlockWrite (part line : Nat) (s : State) : Out := settle s (tryFullBlockWrite part line s)

/-- PARTIAL_WRITE (03 R64): the L2 writes back a dirty line that it holds in part. -/
def tryPartialWrite (part line : Nat) (s : State) : Event :=
  match dirtyLine s part line with
  | some ln => if ln.valid = 15 then .refused .idle else .next (l2WriteBack s line)
  | none => .refused .idle

def execPartialWrite (part line : Nat) (s : State) : Out := settle s (tryPartialWrite part line s)

/-! ## Fences (04 R99) -/

/-- Whether a path stands directly behind an instruction that issued at another. -/
def standsBehind (p q : Path) : Bool :=
  let n := advance q
  p.addr == n.addr && p.slot == n.slot && p.count == n.count && p.mask == n.mask && p.wait == .none

/-- An MMA in flight on a failing array. One whose path stands directly behind it has not retired: the path stands at it again
and replays it. The results of another come where its group is placed next (log 106). -/
def replayOp (s : State) (id : Nat) (o : OpRec) : State :=
  match o.replay, getGroup s o.gid with
  | some (live, q), some g =>
    match g.live live with
    | some p =>
      if standsBehind p q then
        let s1 := modGroup s o.gid fun g =>
          let h := subFlag (g.setLive live (some q)) o.flag
          { h with retired := h.retired - 1, clauses := if atClauseEnd q then h.clauses - 1 else h.clauses }
        { s1 with ops := spDel s1.ops id }
      else s
    | none => s
  | _, _ => s

/-- The matrix instructions in flight on a core are discarded, the newest first. -/
def discardMatrix (s : State) (core : Nat) : State :=
  let on (o : OpRec) : Bool := o.replay.isSome && match (getGroup s o.gid).bind (·.place) with
    | some p => p / 64 == core
    | none => false
  ((s.ops.filter fun e => on e.2).reverse).foldl (fun s e => replayOp s e.1 e.2) s

/-- A core is fenced until device reset, counted and signalled. -/
def fenceCore (s : State) (core : Nat) : State :=
  let s1 := modCore (discardMatrix s core) core fun k => { k with fenced := true }
  msix (rasLasting s1 (partOfCore s core)) (partOfCore s core) 2

/-- A cluster is fenced, with its Barista. -/
def fenceCluster (s : State) (k : Nat) : State :=
  let s1 := modCluster s k fun x => { x with fenced := true }
  msix (rasLasting s1 (partOfCluster s k)) (partOfCluster s k) 2

/-- ARRAY_FENCE (R99): a core, or a cluster with its Barista, is fenced; its teams are then saved and placed elsewhere. -/
def tryArrayFence (barista : Bool) (unit : Nat) (s : State) : Event :=
  if barista then (if 96 ≤ unit ∨ (getCluster s unit).fenced then .refused .idle else .next (fenceCluster s unit))
  else if 384 ≤ unit ∨ (getCore s unit).fenced then .refused .idle
  else .next (fenceCore s unit)

def execArrayFence (barista : Bool) (unit : Nat) (s : State) : Out := settle s (tryArrayFence barista unit s)

/-! ## Retries (04 R96, R98, R100) -/

/-- The partition that owns a place. -/
def eccPart (s : State) (p : EccPlace) : Nat :=
  let ofTeam (t : Nat) : Nat := ((getTeam s t).map (·.part)).getD 0
  match p with
  | .hbm loc => ownerOf s loc
  | .nibble part _ => part
  | .inband loc => ownerOf s loc
  | .l2 part _ => part
  | .l1 core _ => partOfCore s core
  | .scratch team _ => ofTeam team
  | .canister k _ => partOfCluster s k
  | .queueBuf k _ _ _ => partOfCluster s k
  | .vreg gid _ _ => ofTeam (((getGroup s gid).map (·.team)).getD 0)
  | .sreg gid _ => ofTeam (((getGroup s gid).map (·.team)).getD 0)
  | .matrix core => partOfCore s core
  | .barista k => partOfCluster s k

/-- Marks word w of buffer i of a queue. -/
def poisonBuf (w : Nat) : Nat → List QBuf → List QBuf
  | _, [] => []
  | 0, b :: r => { b with bad := putBit b.bad w true } :: r
  | i + 1, b :: r => b :: poisonBuf w i r

/-- The last of a core's stores to a word brings poison. -/
def poisonLast : List Msg → List Msg
  | [] => []
  | [m] => [{ m with bad := true }]
  | m :: r => m :: poisonLast r

/-- Poisons a word of a core's L1: a dirty one takes its poison to the L2, a clean copy keeps it to itself, and to the stores that
it has. -/
def poisonL1 (s : State) (core loc : Nat) : State :=
  modCore s core fun c =>
    match spFind c.pend (loc / 8) with
    | some ms => { c with pend := spPut c.pend (loc / 8) (poisonLast ms) }
    | none => { c with l1 := spMod c.l1 (loc / 128) fun l => { l with
        bad := spPut l.bad (loc % 128 / 8) (((spFind s.hist (loc / 8)).map fun h => h.msgs.map (·.id)).getD []) } }

/-- An error of HBM that persists: its word is poisoned; or it is the read step of a partial write that meets it, and the block is
written back raw with every word poisoned (03 R66). -/
def hbmError (s : State) (loc : Nat) : State :=
  let line := loc / 128
  match l2Find s line with
  | none => setPoison s loc true
  | some ln =>
    let read : Bool := match nibbleOf s ln.cmp (line * 128) with
      | some n => decide (loc % 128 < 32 * n)
      | none => true
    let c : Bool × State := choose s
    if (ln.dirty != 0 && ln.valid != 15 && ln.cmp / 2 != 0 && read && c.1) = true then
      let s1 := l2Drop c.2 line
      ctlStore s1 ln.cmp line (l2Merged s1 line ln).1 (2 ^ 16 - 1)
    else setPoison s loc true

/-- Poisons the word or element of a place, or fences the unit of a failing array. -/
def poisonPlace (s : State) (p : EccPlace) : State :=
  match p with
  | .hbm loc => hbmError s loc
  | .nibble _ word => setPoison s (8 * word) true
  | .inband loc => { s with nibbles := spSet 0 s.nibbles (loc / 128) (spGet 0 s.nibbles (loc / 128) % 16 + 16) }
  | .l2 _ loc => l2Mark s (loc / 8) true
  | .l1 core loc => poisonL1 s core loc
  | .scratch team word => modTeam s team fun t => { t with spoison := spSet false t.spoison word true }
  | .canister k loc => modCluster s k fun c =>
      { c with lines := spMod c.lines (loc / 128) fun x => { x with poison := spSet false x.poison (loc % 128 / 8) true } }
  | .queueBuf k q i w => modQueue s k q fun v => { v with bufs := poisonBuf (w % 8) i v.bufs }
  | .vreg gid reg lane => modGroup s gid fun g => { g with vpoison := spSet false g.vpoison (64 * reg + lane) true }
  | .sreg gid reg => modGroup s gid fun g => { g with spoison := spSet false g.spoison reg true }
  | .matrix _ => s
  | .barista _ => s

/-- Whether a place exists now. -/
def eccExists (s : State) (p : EccPlace) : Bool :=
  match p with
  | .hbm loc => decide (loc < hbmSize)
  | .nibble part word => decide (part < partCount s) && decide (8 * word < hbmSize)
  | .inband loc => decide (loc < hbmSize) && s.inband.contains (loc / 2 ^ 36)
  | .l2 part loc => decide (part < partCount s) && l2Has s loc && match l2Find s (loc / 128) with
    | some ln => lineHolder s (loc / 128) ln == part
    | none => false
  | .l1 core loc => decide (core < 384) && (l1Has (getCore s core) (loc / 32) || (spFind (getCore s core).pend (loc / 8)).isSome)
  | .scratch team word => match getTeam s team with
    | some t => decide (8 * word < spadAlloc t) && t.core.isSome
    | none => false
  | .canister k loc => (spFind (getCluster s k).lines (loc / 128)).isSome
  | .queueBuf k q i _ => decide (i < queueCount (poolQueue s k q))
  | .vreg gid reg lane => match getGroup s gid with
    | some g => decide (reg < g.nregs) && decide (lane < 64) && g.place.isSome
    | none => false
  | .sreg gid reg => match getGroup s gid with
    | some g => decide (reg < 64) && g.place.isSome
    | none => false
  | .matrix core => decide (core < 384) && !(getCore s core).fenced
  | .barista k => decide (k < 96) && !(getCluster s k).fenced

/-- What a failed retry does: the word or element is poisoned and a lasting event counted, or the array's unit is fenced. -/
def retryFailed (s : State) (p : EccPlace) : State :=
  match p with
  | .matrix core => fenceCore s core
  | .barista k => fenceCluster s k
  | p => msix (rasLasting (poisonPlace s p) (eccPart s p)) (eccPart s p) 2

/-- ECC_RETRY (R96): a retry, or the recomputation of an array's result, that succeeds counts a transient event and changes no
data. -/
def tryEccRetry (place : EccPlace) (ok : Bool) (s : State) : Event :=
  if !eccExists s place then .refused .idle
  else .next (if ok then rasTransient s (eccPart s place) else retryFailed s place)

def execEccRetry (place : EccPlace) (ok : Bool) (s : State) : Out := settle s (tryEccRetry place ok s)

end Sys2Proof.Machine
end

