-- ==== Sys2Proof/Machine/Link.lean ====
section
/-!
DEFINITION. The Fitex ports and the memory apertures of the host adapters (18 R418, R419, R425; 05 R125, R126; 04 R98).
-/
namespace Sys2Proof.Machine

/-! ## The apertures (R425; 05 R126) -/

def apMeets (a b : ApWait) : Bool :=
  a.part == b.part && a.ctx == b.ctx && decide (a.va < b.va + b.size) && decide (b.va < a.va + a.size)

/-- An access that cannot be made: a read completes as poisoned data, a write is dropped, and ERR is set. -/
def apError (s : State) (a : Nat) (w : ApWait) : State :=
  modAdapter (apFailed s a w) a fun d => { d with err := true }

/-- A translated access of a host link agent (05 R125, R126): a store is a release edge at .sys, a read an acquire edge. One
with the strong-order attribute is both, and takes its place in the order of the privileged agents' SC operations. -/
def apPerform (s : State) (a : Nat) (w : ApWait) (ls : List LaneLoc) : State :=
  let ag := Agent.link a
  let s1 := if w.strong then acquire s ag 6 (s.privOrder.filter fun r => r.scope == 6) else s
  let s2 :=
    if w.write then storeSet s1 ag false [releaseOf s1 ag 6] ls (leBytes w.size w.data)
    else
      let q := readSet s1 [ag] ls
      tellHost (acquire q.2 ag 6 q.1.rels) (.readData a (leNat q.1.bytes) q.1.bad)
  if w.strong then { s2 with privOrder := addRel (releaseOf s2 ag 6) s2.privOrder } else s2

/-- Makes an access: none when it is to wait before it records its batch (03 R70). Its records have UNIT 0: R68 gives the agents
of the host no number (log 107). -/
def apMake (s : State) (a : Nat) (w : ApWait) : Option State :=
  if partCount s ≤ w.part ∨ !ctxInArea s w.part w.ctx ∨ !ctxValid s w.part w.ctx then some (apError s a w)
  else match xlateSet s (.link a) w.part w.ctx (if w.write then .write else .read) (ctxSup s w.part w.ctx) (rangeAccs w.va w.size) with
    | .trap _ _ _ => some (apError s a w)
    | .fault gs =>
      if !canReport s w.part then none
      else
        let r := reportBatch s w.part { acc := if w.write then .write else .read, ctx := w.ctx, client := 5 } gs (.aperture a)
        some (modAdapter r.2 a fun d => { d with waits := d.waits ++ [{ w with seq := r.1 }] })
    | .ok ls => some (apPerform s a w ls)

/-- An arriving access: behind a waiting access to its bytes it is held. -/
def apArrive (s : State) (a : Nat) (w : ApWait) : State :=
  let d := getAdapter s a
  let hold (s : State) : State := modAdapter s a fun d => { d with held := d.held ++ [w] }
  if (d.waits ++ d.held).any (apMeets w) then hold s
  else match apMake s a w with
    | some s1 => s1
    | none => hold s

/-- Makes the held accesses of an adapter that may go on, in order. -/
def apPumpList (a : Nat) : List ApWait → State → State
  | [], s => s
  | w :: r, s => apPumpList a r (apArrive s a w)

def apPump (s : State) : State :=
  s.adapters.foldl (fun s e =>
    if e.2.held.isEmpty then s
    else apPumpList e.1 e.2.held (modAdapter s e.1 fun d => { d with held := [] })) s

/-- The access at an offset of an aperture; a closed aperture fails it. -/
def aperture (s : State) (a : Nat) (strong write : Bool) (off size data : Nat) : State :=
  let d := getAdapter s a
  let va := (d.wbase.toNat / 2 ^ aperLog a * 2 ^ aperLog a + off) % 2 ^ 64
  let w : ApWait :=
    { part := bitsOf d.ctx.toNat 0 3, ctx := bitsOf d.ctx.toNat 16 16, va := va, size := size, write := write, data := data
      strong := strong, seq := 0 }
  if bitOf d.ctx.toNat 63 then apArrive s a w else apError s a w

/-- Whether an access lies in the aperture. -/
def apLegal (a off size : Nat) : Bool :=
  decide (a < adapterCount) && decide (0 < size) && decide (off + size ≤ 2 ^ aperLog a)

/-- APERTURE_ACCESS (R425): BAR 1. -/
def tryApertureAccess (adapter : Nat) (write : Bool) (off size data : Nat) (s : State) : Event :=
  if apLegal adapter off size then .next (aperture s adapter false write off size data) else .refused .idle

def execApertureAccess (adapter : Nat) (write : Bool) (off size data : Nat) (s : State) : Out :=
  settle s (tryApertureAccess adapter write off size data s)

/-- APERTURE_STRONG_ACCESS (05 R125): BAR 2, the same memory with the strong-order attribute. -/
def tryApertureStrongAccess (adapter : Nat) (write : Bool) (off size data : Nat) (s : State) : Event :=
  if apLegal adapter off size then .next (aperture s adapter true write off size data) else .refused .idle

def execApertureStrongAccess (adapter : Nat) (write : Bool) (off size data : Nat) (s : State) : Out :=
  settle s (tryApertureStrongAccess adapter write off size data s)

/-! ## Ports (R418) -/

def getPort (s : State) (p : Nat) : Port := spGet {} s.ports p
def modPort (s : State) (p : Nat) (f : Port → Port) : State := { s with ports := spSet {} s.ports p (f (spGet {} s.ports p)) }

/-- The partition that owns a port, and counts its events. -/
def portPart (s : State) (p : Nat) : Nat := bitsOf s.portMap.toNat (4 * p) 4

/-- Whether a port is at work: an unowned one is idle (R424), and one that has gone down carries nothing. -/
def portWorks (s : State) (p : Nat) : Bool := decide (p < 12) && decide (portPart s p < partCount s) && (getPort s p).up

def flitOk (flit : List Byte) : Bool := Config.crc64 (flit.take 248) == BitVec.ofNat 64 (leNat (flit.drop 248))

/-- A good flit in its turn: its payload is passed on, or it asks this end for a replay. -/
def flitGood (s : State) (p seq : Nat) (flit : List Byte) : State :=
  let s1 := modPort s p fun v => { v with nextSeq := seq + 1, failures := 0, replay := none }
  match Config.replayWanted (flit.take 8) with
  | some k => modPort s1 p fun v => { v with asked := some k }
  | none => tellHost s1 (.payload p ((flit.drop 8).take 240))

/-- A flit that fails its check: it is dropped and its replay requested; the eighth failed replay retrains the port. -/
def flitBad (s : State) (p seq : Nat) : State :=
  let v := getPort s p
  let n := if v.replay = some seq then v.failures + 1 else 0
  let s1 := rasTransient (modPort s p fun v => { v with replay := some seq, failures := n, retrain := decide (8 ≤ n) }) (portPart s p)
  if 8 ≤ n then s1 else tellHost s1 (.replayReq p seq)

/-- FLIT_RECEIVE (R418): flits behind a failed one are dropped until its replay arrives. -/
def tryFlitReceive (port seq : Nat) (flit : List Byte) (s : State) : Event :=
  let v := getPort s port
  if !portWorks s port ∨ v.retrain ∨ flit.length ≠ 256 then .refused .idle
  else if seq ≠ v.nextSeq then .next s
  else if flitOk flit then .next (flitGood s port seq flit)
  else .next (flitBad s port seq)

def execFlitReceive (port seq : Nat) (flit : List Byte) (s : State) : Out := settle s (tryFlitReceive port seq flit s)

/-- What a port sends (R418): the flits from the one on that the far end asks for, out of the 64 that it keeps; else the next
payload, which it then keeps. -/
def portSend (s : State) (p : Nat) : State :=
  let v := getPort s p
  if !portWorks s p || v.retrain then s
  else match v.asked, v.out with
    | some k, _ =>
      (v.sent.filter fun e => decide (k ≤ e.1)).foldl (fun s e => tellHost s (.flit p e.1 e.2))
        (modPort s p fun v => { v with asked := none })
    | none, x :: r =>
      tellHost (modPort s p fun v =>
        { v with out := r, sendSeq := v.sendSeq + 1, sent := (v.sent ++ [(v.sendSeq, x)]).drop (v.sent.length - 63) })
        (.flit p v.sendSeq x)
    | none, [] => s

/-- The accesses of an adapter travel on its lowest port that works (log 86). -/
def carries (s : State) (p : Nat) : Bool := p % 2 == 0 || !portWorks s (p - 1)

/-- The accesses still outstanding on an adapter complete as poisoned data. -/
def dropAccesses (s : State) (a : Nat) : State :=
  let d := getAdapter s a
  (d.waits ++ d.held).foldl (fun s w => apFailed s a w) (modAdapter s a fun d => { d with waits := [], held := [] })

/-- The port that carries a partition's accesses of a device: the lowest of its route that works (log 86). -/
def peerPort (s : State) (part dev : Nat) : Option Nat :=
  (List.range 12).find? fun p => bitOf (routeOf s part (routeTo s part dev)) p && ownsPort s part p && portWorks s p

/-- The device whose memory an atomic of KIND 2 is on its way to. -/
def AtomReq.device (a : AtomReq) : Nat := if a.loc < 2 ^ 66 then Config.deviceNumber else (a.loc - 2 ^ 66) / 2 ^ 48

/-- An atomic that is outstanding on a port that goes down completes as poisoned data; it is not performed, and the outcome of a
compare is any (log 121). -/
def dropAtom (s : State) (a : AtomReq) : State :=
  let s1 := match a.acquire with
    | some k => acquire s (.thread a.gid a.lane) k []
    | none => s
  let ws := (match a.dst with
    | some r => blockWrites (.v r) (blockRegs (if a.size = 8 then 3 else 2)) a.lane 0 true
    | none => []) ++ (if a.cas && a.dst.isSome then [.pred pq a.lane (Config.choice s.fresh)] else [])
  feedOp { s1 with fresh := s1.fresh + 1 } a.op ws

/-- The atomics that are outstanding on a port. -/
def dropAtoms (s : State) (port : Nat) : State :=
  let mine (a : AtomReq) : Bool := a.kind == 2 && peerPort s (partOfCore s a.core) a.device == some port
  (s.parts.flatMap fun e => (e.2.atoms.filter mine).map fun a => (e.1, a)).foldl
    (fun s e => dropAtom (modPart s e.1 fun p => { p with atoms := p.atoms.erase e.2 }) e.2) s

/-- PORT_RETRAIN (R418): a port that cannot be retrained goes down. -/
def tryPortRetrain (port : Nat) (ok : Bool) (s : State) : Event :=
  if !portWorks s port ∨ !(getPort s port).retrain then .refused .idle
  else if ok then
    let seq := (getPort s port).nextSeq
    .next (tellHost (modPort s port fun v => { v with retrain := false, failures := 0, replay := some seq }) (.replayReq port seq))
  else
    let s1 := modPort (dropAtoms s port) port fun v => { v with up := false, retrain := false }
    .next (rasLasting (if carries s port then dropAccesses s1 (port / 2) else s1) (portPart s port))

def execPortRetrain (port : Nat) (ok : Bool) (s : State) : Out := settle s (tryPortRetrain port ok s)

/-! ## The management controller (01 R20; 05 R113, R125, R126) -/

/-- How an operation of the MC is an access. -/
def McKind.acc : McKind → Acc
  | .store _ _ => .write
  | .atomic _ _ _ _ _ => .atomic
  | _ => .read

/-- The places of an MC operation: device physical, or of a context, with supervisor rights; none when it cannot be made (log
101). -/
def mcPlaces (s : State) (o : McOp) : Option (List LaneLoc) :=
  match o.ctx with
  | none => if hbmSize < o.addr + o.size then none
    else some ((rangeAccs o.addr o.size).map fun a => ⟨0, a.va, a.size, a.va, 0, 0, false⟩)
  | some (p, c) =>
    if partCount s ≤ p ∨ !ctxInArea s p c ∨ !ctxValid s p c then none
    else match xlateSet s .mc p c o.kind.acc true (rangeAccs o.addr o.size) with
      | .ok ls => some ls
      | _ => none

/-- The release edge of an operation of the MC at a scope, and its acquire edge: those of a thread's (05 R113, R126). -/
def mcRelease (s : State) (scope : Option Nat) : List RelInfo := (scope.map fun k => releaseOf s .mc k).toList
def mcAcquire (s : State) (scope : Option Nat) (rels : List RelInfo) : State :=
  match scope with
  | some k => acquire s .mc k rels
  | none => s

/-- What an atomic of the MC writes over the old bytes. -/
def mcOver (size code x : Nat) (compare : Option Nat) (bs : List Byte) : List Byte :=
  let old := leNat bs
  leBytes size (match compare with
    | some c => if old = c then x else old
    | none => atomNew code (8 * size) 0 old x)

/-- An access of the MC to its places. -/
def mcAccess (s : State) (o : McOp) (ls : List LaneLoc) : State :=
  match o.kind, ls with
  | .store bs rel, _ => tellHost (storeSet s .mc false (mcRelease s rel) ls bs) (.mcResult (some []) false)
  | .atomic code x cmp acq rel, l :: _ =>
    let q := rmwUnit s .mc l.cmp l.kind l.va l.loc o.size (mcOver o.size code x cmp) (mcRelease s rel)
    tellHost (mcAcquire q.2 acq q.1.rels) (.mcResult (some q.1.bytes) q.1.bad)
  | .load acq, _ =>
    let q := readSet s [.mc] ls
    tellHost (mcAcquire q.2 acq q.1.rels) (.mcResult (some q.1.bytes) q.1.bad)
  | _, _ => tellHost s (.mcResult none false)

/-- An operation that the firmware of the MC asks for; its reads of registers are acquire edges as the host's are (03 R56, R70). -/
def mcPerform (s : State) (o : McOp) : State :=
  match o.kind with
  | .fence kind scope => tellHost (fenceOf s .mc kind scope) (.mcResult (some []) false)
  | .window off v =>
    let part := off / 2 ^ 24
    let s1 := if partCount s ≤ part then s else windowWrite s [.mc] part (off % 2 ^ 24) v
    tellHost s1 (.mcResult (some []) false)
  | .windowRead off =>
    let part := off / 2 ^ 24
    let v := if partCount s ≤ part then 0 else windowRead s part (off % 2 ^ 24)
    tellHost (learn s .mc (overdue s ++ windowReadEnds s part (off % 2 ^ 24))) (.mcResult (some (leBytes 8 v)) false)
  | _ => match mcPlaces s o with
    | some ls => mcAccess s o ls
    | none => tellHost s (.mcResult none false)

/-- The MC makes its next operation, when it does: its pace beside that of the cores is free. It runs only the image that the boot
ROM has started (18 R429). While PART_STATUS.BUSY is 1, its
register accesses wait (18 R424). -/
def mcStep (s : State) : State :=
  match s.mcOps with
  | [] => s
  | o :: r =>
    let waits := match o.kind with
      | .window _ _ => s.busy
      | .windowRead _ => s.busy
      | _ => false
    let c := choose s
    if waits || s.boot != 2 then s else if c.1 then mcPerform { c.2 with mcOps := r } o else c.2

end Sys2Proof.Machine
end

