-- ==== Sys2Proof/Machine/Boot.lean ====
section
/-!
DEFINITION. Reset, boot, attestation and power (18 R429, R432; 01 R19).
-/
namespace Sys2Proof.Machine

/-! ## Boot (R429) -/

/-- The boot ROM on one image: BOOT_STATUS 4 on a transfer error, 3 on a bad signature or key, else 2 with the image
running; the firmware configures the stacks that hold metadata in band (03 R60). -/
def bootImage (s : State) (image : BootImage) : State :=
  let hash := shake256 image.bytes 64
  if !image.transferred then { s with boot := 4 }
  else if Config.fusedKey image.key && ed448Verify image.signature hash image.key then
    { s with boot := 2, fwHash := hash, fwImage := image.bytes, inband := (List.range 8).filter Config.inbandStack }
  else { s with boot := 3 }

/-- The device after reset: every register at its reset value. What lies in memory stays (log 43), and so do the messages
the host has, the events to come, what the firmware will ask for once it runs, and the counter of free values. -/
def resetDevice (s : State) : State :=
  { State.reset with
    mem := s.mem, poison := s.poison, nibbles := s.nibbles, hostMsgs := s.hostMsgs, agenda := s.agenda, mcOps := s.mcOps
    fresh := s.fresh }

/-- DEVICE_RESET: reset, then the boot ROM. -/
def execDeviceReset (image : BootImage) (s : State) : Out := .next (bootImage (resetDevice s) image)

/-- BOOT_NEW_IMAGE: in BOOT_STATUS 3 or 4 the host supplies a new image. -/
def tryBootNewImage (image : BootImage) (s : State) : Event :=
  if s.boot = 3 ∨ s.boot = 4 then .next (bootImage { s with boot := 1 } image) else .refused .idle

def execBootNewImage (image : BootImage) (s : State) : Out := settle s (tryBootNewImage image s)

/-- The contents of an attestation report, in the order in which R429 lists them. -/
def reportBytes (s : State) (nonce : List Byte) : List Byte :=
  s.fwHash ++ leBytes 4 s.stepping ++ leBytes 4 s.partCfg.toNat ++ leBytes 8 s.portMap.toNat
    ++ ((List.range (partCount s)).flatMap fun p => (List.range 12).flatMap fun n => leBytes 4 (fenceWord s p n)) ++ nonce

/-- ATTESTATION_REPORT: signed with the device identity key. -/
def tryAttestationReport (nonce : List Byte) (s : State) : Event :=
  if s.boot ≠ 2 ∨ nonce.length ≠ 32 then .refused .idle
  else
    let r := reportBytes s nonce
    .next (tellHost s (.report r (ed448Sign Config.identitySeed r)))

def execAttestationReport (nonce : List Byte) (s : State) : Out := settle s (tryAttestationReport nonce s)

/-! ## Power (R432; 01 R19) -/

def setClocks : Nat → List Nat → State → State
  | _, [], s => s
  | k, c :: r, s => setClocks (k + 1) r (modCluster s k fun v => { v with clock := c })

/-- POWER_INTERVAL: the controller keeps the module within PWR_LIMIT by the clusters' clocks, at most 700 MHz. -/
def tryPowerInterval (clocks : List Nat) (watts : Nat) (s : State) : Event :=
  if clocks.length ≠ 96 ∨ (clocks.any fun c => decide (700 < c)) ∨ s.pwrLimit < watts then .refused .idle
  else .next { setClocks 0 clocks s with minClk := clocks.foldl min 700, watts := watts }

def execPowerInterval (clocks : List Nat) (watts : Nat) (s : State) : Out := settle s (tryPowerInterval clocks watts s)

/-- CLOCK_DROOP: one stretched cycle; it changes timing only. -/
def tryClockDroop (cluster : Nat) (s : State) : Event := if 96 ≤ cluster then .refused .idle else .next s

def execClockDroop (cluster : Nat) (s : State) : Out := settle s (tryClockDroop cluster s)

end Sys2Proof.Machine
end

