-- ==== Sys2Proof/Machine/Dispatch.lean ====
section
/-!
DEFINITION. The dispatch: one arm for each constructor of Instr, each a direct call of its meaning.
-/
namespace Sys2Proof.Machine

def exec (i : Instr) (s : State) : Host.Outcome State Fault Refusal :=
  match i with
  | .nop f => Sys2Proof.Machine.execNop f s
  | .exit f => Sys2Proof.Machine.execExit f s
  | .bra f => Sys2Proof.Machine.execBra f s
  | .bany f => Sys2Proof.Machine.execBany f s
  | .ball f => Sys2Proof.Machine.execBall f s
  | .bnone f => Sys2Proof.Machine.execBnone f s
  | .bdiv f => Sys2Proof.Machine.execBdiv f s
  | .join f => Sys2Proof.Machine.execJoin f s
  | .jmpi f => Sys2Proof.Machine.execJmpi f s
  | .call f => Sys2Proof.Machine.execCall f s
  | .calli f => Sys2Proof.Machine.execCalli f s
  | .calld f => Sys2Proof.Machine.execCalld f s
  | .ret f => Sys2Proof.Machine.execRet f s
  | .yield f => Sys2Proof.Machine.execYield f s
  | .refill f => Sys2Proof.Machine.execRefill f s
  | .pcoll f => Sys2Proof.Machine.execPcoll f s
  | .setfmt f => Sys2Proof.Machine.execSetfmt f s
  | .getfmt f => Sys2Proof.Machine.execGetfmt f s
  | .dict f => Sys2Proof.Machine.execDict f s
  | .ffence f => Sys2Proof.Machine.execFfence f s
  | .icinv f => Sys2Proof.Machine.execIcinv f s
  | .trap f => Sys2Proof.Machine.execTrap f s
  | .rtt f => Sys2Proof.Machine.execRtt f s
  | .bkpt f => Sys2Proof.Machine.execBkpt f s
  | .iadd f => Sys2Proof.Machine.execIadd f s
  | .isub f => Sys2Proof.Machine.execIsub f s
  | .imul f => Sys2Proof.Machine.execImul f s
  | .imulh f => Sys2Proof.Machine.execImulh f s
  | .imad f => Sys2Proof.Machine.execImad f s
  | .idiv f => Sys2Proof.Machine.execIdiv f s
  | .imin f => Sys2Proof.Machine.execImin f s
  | .imax f => Sys2Proof.Machine.execImax f s
  | .logt f => Sys2Proof.Machine.execLogt f s
  | .shl f => Sys2Proof.Machine.execShl f s
  | .shr f => Sys2Proof.Machine.execShr f s
  | .fshf f => Sys2Proof.Machine.execFshf f s
  | .bfx f => Sys2Proof.Machine.execBfx f s
  | .bfi f => Sys2Proof.Machine.execBfi f s
  | .popc f => Sys2Proof.Machine.execPopc f s
  | .clz f => Sys2Proof.Machine.execClz f s
  | .brev f => Sys2Proof.Machine.execBrev f s
  | .permb f => Sys2Proof.Machine.execPermb f s
  | .icmp f => Sys2Proof.Machine.execIcmp f s
  | .isel f => Sys2Proof.Machine.execIsel f s
  | .mov f => Sys2Proof.Machine.execMov f s
  | .movi f => Sys2Proof.Machine.execMovi f s
  | .movhi f => Sys2Proof.Machine.execMovhi f s
  | .plogt f => Sys2Proof.Machine.execPlogt f s
  | .pmov f => Sys2Proof.Machine.execPmov f s
  | .readlane f => Sys2Proof.Machine.execReadlane f s
  | .writelane f => Sys2Proof.Machine.execWritelane f s
  | .rng f => Sys2Proof.Machine.execRng f s
  | .fadd f => Sys2Proof.Machine.execFadd f s
  | .fmul f => Sys2Proof.Machine.execFmul f s
  | .ffma f => Sys2Proof.Machine.execFfma f s
  | .fmin f => Sys2Proof.Machine.execFmin f s
  | .fmax f => Sys2Proof.Machine.execFmax f s
  | .fcmp f => Sys2Proof.Machine.execFcmp f s
  | .fclass f => Sys2Proof.Machine.execFclass f s
  | .frcp f => Sys2Proof.Machine.execFrcp f s
  | .frsq f => Sys2Proof.Machine.execFrsq f s
  | .fsqrt f => Sys2Proof.Machine.execFsqrt f s
  | .fdiv f => Sys2Proof.Machine.execFdiv f s
  | .fexp2 f => Sys2Proof.Machine.execFexp2 f s
  | .flog2 f => Sys2Proof.Machine.execFlog2 f s
  | .fsin f => Sys2Proof.Machine.execFsin f s
  | .ftanh f => Sys2Proof.Machine.execFtanh f s
  | .frnd f => Sys2Proof.Machine.execFrnd f s
  | .cvt f => Sys2Proof.Machine.execCvt f s
  | .cvtsr f => Sys2Proof.Machine.execCvtsr f s
  | .qnt f => Sys2Proof.Machine.execQnt f s
  | .dqnt f => Sys2Proof.Machine.execDqnt f s
  | .pack f => Sys2Proof.Machine.execPack f s
  | .unpk f => Sys2Proof.Machine.execUnpk f s
  | .lxch f => Sys2Proof.Machine.execLxch f s
  | .scan f => Sys2Proof.Machine.execScan f s
  | .redux f => Sys2Proof.Machine.execRedux f s
  | .eqln f => Sys2Proof.Machine.execEqln f s
  | .deriv f => Sys2Proof.Machine.execDeriv f s
  | .idp4 f => Sys2Proof.Machine.execIdp4 f s
  | .fdp2 f => Sys2Proof.Machine.execFdp2 f s
  | .ld f => Sys2Proof.Machine.execLd f s
  | .st f => Sys2Proof.Machine.execSt f s
  | .lds f => Sys2Proof.Machine.execLds f s
  | .sts f => Sys2Proof.Machine.execSts f s
  | .pft f => Sys2Proof.Machine.execPft f s
  | .atom f => Sys2Proof.Machine.execAtom f s
  | .acas f => Sys2Proof.Machine.execAcas f s
  | .atoms f => Sys2Proof.Machine.execAtoms f s
  | .fence f => Sys2Proof.Machine.execFence f s
  | .lda f => Sys2Proof.Machine.execLda f s
  | .stl f => Sys2Proof.Machine.execStl f s
  | .bara f => Sys2Proof.Machine.execBara f s
  | .barw f => Sys2Proof.Machine.execBarw f s
  | .bar f => Sys2Proof.Machine.execBar f s
  | .barx f => Sys2Proof.Machine.execBarx f s
  | .qmap f => Sys2Proof.Machine.execQmap f s
  | .feset f => Sys2Proof.Machine.execFeset f s
  | .job f => Sys2Proof.Machine.execJob f s
  | .jstat f => Sys2Proof.Machine.execJstat f s
  | .spawn f => Sys2Proof.Machine.execSpawn f s
  | .cinv f => Sys2Proof.Machine.execCinv f s
  | .launch f => Sys2Proof.Machine.execLaunch f s
  | .mma f => Sys2Proof.Machine.execMma f s
  | .mldw f => Sys2Proof.Machine.execMldw f s
  | .mlds f => Sys2Proof.Machine.execMlds f s
  | .gang f => Sys2Proof.Machine.execGang f s
  | .mtrn f => Sys2Proof.Machine.execMtrn f s
  | .ncall f => Sys2Proof.Machine.execNcall f s
  | .twait f => Sys2Proof.Machine.execTwait f s
  | .ttest f => Sys2Proof.Machine.execTtest f s
  | .npin f => Sys2Proof.Machine.execNpin f s
  | .npref f => Sys2Proof.Machine.execNpref f s
  | .nflush f => Sys2Proof.Machine.execNflush f s
  | .xf f => Sys2Proof.Machine.execXf f s
  | .dec f => Sys2Proof.Machine.execDec f s
  | .enc f => Sys2Proof.Machine.execEnc f s
  | .topk f => Sys2Proof.Machine.execTopk f s
  | .resamp f => Sys2Proof.Machine.execResamp f s
  | .trace f => Sys2Proof.Machine.execTrace f s
  | .trget f => Sys2Proof.Machine.execTrget f s
  | .trcont f => Sys2Proof.Machine.execTrcont f s
  | .tex f => Sys2Proof.Machine.execTex f s
  | .texg f => Sys2Proof.Machine.execTexg f s
  | .texq f => Sys2Proof.Machine.execTexq f s
  | .imld f => Sys2Proof.Machine.execImld f s
  | .imst f => Sys2Proof.Machine.execImst f s
  | .visr f => Sys2Proof.Machine.execVisr f s
  | .primf f => Sys2Proof.Machine.execPrimf f s
  | .emit f => Sys2Proof.Machine.execEmit f s
  | .ordb f => Sys2Proof.Machine.execOrdb f s
  | .orde f => Sys2Proof.Machine.execOrde f s
  | .srd f => Sys2Proof.Machine.execSrd f s
  | .swr f => Sys2Proof.Machine.execSwr f s
  | .perf f => Sys2Proof.Machine.execPerf f s
  | .sysc f => Sys2Proof.Machine.execSysc f s
  | .clauseFetch p => Sys2Proof.Machine.execClauseFetch p s
  | .dictionarySlotLoad core ctx handle => Sys2Proof.Machine.execDictionarySlotLoad core ctx handle s
  | .pathRotation p => Sys2Proof.Machine.execPathRotation p s
  | .groupBoost gid => Sys2Proof.Machine.execGroupBoost gid s
  | .operationComplete op => Sys2Proof.Machine.execOperationComplete op s
  | .ldsFeWake p => Sys2Proof.Machine.execLdsFeWake p s
  | .channelOperandRetry p => Sys2Proof.Machine.execChannelOperandRetry p s
  | .barrierPhaseComplete team slot => Sys2Proof.Machine.execBarrierPhaseComplete team slot s
  | .gangJoinedIssue team latch => Sys2Proof.Machine.execGangJoinedIssue team latch s
  | .resampComplete node => Sys2Proof.Machine.execResampComplete node s
  | .spawnRecordDispatch node => Sys2Proof.Machine.execSpawnRecordDispatch node s
  | .ordbWake p => Sys2Proof.Machine.execOrdbWake p s
  | .bindingReleaseWake p => Sys2Proof.Machine.execBindingReleaseWake p s
  | .groupEnd gid => Sys2Proof.Machine.execGroupEnd gid s
  | .faultBatchEnterRing part => Sys2Proof.Machine.execFaultBatchEnterRing part s
  | .groupFaultSave gid => Sys2Proof.Machine.execGroupFaultSave gid s
  | .groupRestore gid => Sys2Proof.Machine.execGroupRestore gid s
  | .faultReleaseReplay part seq => Sys2Proof.Machine.execFaultReleaseReplay part seq s
  | .faultReleaseFail part seq => Sys2Proof.Machine.execFaultReleaseFail part seq s
  | .faultqConfigWrite part size value => Sys2Proof.Machine.execFaultqConfigWrite part size value s
  | .invRange part cmd => Sys2Proof.Machine.execInvRange part cmd s
  | .invContext part cmd => Sys2Proof.Machine.execInvContext part cmd s
  | .invAll part cmd => Sys2Proof.Machine.execInvAll part cmd s
  | .invReserved part cmd => Sys2Proof.Machine.execInvReserved part cmd s
  | .invFlush part => Sys2Proof.Machine.execInvFlush part s
  | .invCommandComplete part => Sys2Proof.Machine.execInvCommandComplete part s
  | .qpLimitWrite cluster queue value => Sys2Proof.Machine.execQpLimitWrite cluster queue value s
  | .sqDoorbell part queue tail => Sys2Proof.Machine.execSqDoorbell part queue tail s
  | .sqCtlWrite part queue value => Sys2Proof.Machine.execSqCtlWrite part queue value s
  | .sqBaseWrite part queue value => Sys2Proof.Machine.execSqBaseWrite part queue value s
  | .hostRecordFetch part queue => Sys2Proof.Machine.execHostRecordFetch part queue s
  | .hostJobCardRecord part queue index => Sys2Proof.Machine.execHostJobCardRecord part queue index s
  | .waitRecordComplete part queue index => Sys2Proof.Machine.execWaitRecordComplete part queue index s
  | .nodeEntry pend => Sys2Proof.Machine.execNodeEntry pend s
  | .nodeReady node => Sys2Proof.Machine.execNodeReady node s
  | .dispatchAgeExpiry node => Sys2Proof.Machine.execDispatchAgeExpiry node s
  | .teamPlacement node => Sys2Proof.Machine.execTeamPlacement node s
  | .teamStart team => Sys2Proof.Machine.execTeamStart team s
  | .nodeComplete node => Sys2Proof.Machine.execNodeComplete node s
  | .jobStart job => Sys2Proof.Machine.execJobStart job s
  | .jobCommitUnit job => Sys2Proof.Machine.execJobCommitUnit job s
  | .jobFaultSuspend job => Sys2Proof.Machine.execJobFaultSuspend job s
  | .jobResume job => Sys2Proof.Machine.execJobResume job s
  | .jobComplete job => Sys2Proof.Machine.execJobComplete job s
  | .contextPreempt part ctx => Sys2Proof.Machine.execContextPreempt part ctx s
  | .budgetExpiry core ctx => Sys2Proof.Machine.execBudgetExpiry core ctx s
  | .drainWindowExpiry part ctx => Sys2Proof.Machine.execDrainWindowExpiry part ctx s
  | .deadlineExpiry part ctx => Sys2Proof.Machine.execDeadlineExpiry part ctx s
  | .teamSave team => Sys2Proof.Machine.execTeamSave team s
  | .contextReset part ctx reason rcause => Sys2Proof.Machine.execContextReset part ctx reason rcause s
  | .teamRestore team => Sys2Proof.Machine.execTeamRestore team s
  | .dbgHalt part => Sys2Proof.Machine.execDbgHalt part s
  | .dbgResume part => Sys2Proof.Machine.execDbgResume part s
  | .dbgSingleClause part => Sys2Proof.Machine.execDbgSingleClause part s
  | .ncallTileDispatch cluster ctx handle => Sys2Proof.Machine.execNcallTileDispatch cluster ctx handle s
  | .flushWindowExpiry cluster ctx handle => Sys2Proof.Machine.execFlushWindowExpiry cluster ctx handle s
  | .ncallTileComplete tile => Sys2Proof.Machine.execNcallTileComplete tile s
  | .canisterFill cluster part ctx line => Sys2Proof.Machine.execCanisterFill cluster part ctx line s
  | .traversalComplete gid lane => Sys2Proof.Machine.execTraversalComplete gid lane s
  | .rasterTriangle part => Sys2Proof.Machine.execRasterTriangle part s
  | .sampleWrite part => Sys2Proof.Machine.execSampleWrite part s
  | .homeSliceAtomic part => Sys2Proof.Machine.execHomeSliceAtomic part s
  | .l1OverflowWriteback core line => Sys2Proof.Machine.execL1OverflowWriteback core line s
  | .fullBlockWrite part line => Sys2Proof.Machine.execFullBlockWrite part line s
  | .partialWrite part line => Sys2Proof.Machine.execPartialWrite part line s
  | .eccRetry place ok => Sys2Proof.Machine.execEccRetry place ok s
  | .arrayFence barista unit => Sys2Proof.Machine.execArrayFence barista unit s
  | .flitReceive port seq flit => Sys2Proof.Machine.execFlitReceive port seq flit s
  | .portRetrain port ok => Sys2Proof.Machine.execPortRetrain port ok s
  | .apertureAccess adapter write off size data => Sys2Proof.Machine.execApertureAccess adapter write off size data s
  | .apertureStrongAccess adapter write off size data => Sys2Proof.Machine.execApertureStrongAccess adapter write off size data s
  | .partCfgWrite value => Sys2Proof.Machine.execPartCfgWrite value s
  | .portMapWrite value => Sys2Proof.Machine.execPortMapWrite value s
  | .frameAreaWrite part size value => Sys2Proof.Machine.execFrameAreaWrite part size value s
  | .pwrLimitWrite value => Sys2Proof.Machine.execPwrLimitWrite value s
  | .registerWrite adapter off value => Sys2Proof.Machine.execRegisterWrite adapter off value s
  | .powerInterval clocks watts => Sys2Proof.Machine.execPowerInterval clocks watts s
  | .clockDroop cluster => Sys2Proof.Machine.execClockDroop cluster s
  | .deviceReset image => Sys2Proof.Machine.execDeviceReset image s
  | .attestationReport nonce => Sys2Proof.Machine.execAttestationReport nonce s
  | .repartitionComplete => Sys2Proof.Machine.execRepartitionComplete s
  | .bootNewImage image => Sys2Proof.Machine.execBootNewImage image s

end Sys2Proof.Machine
end

