-- ==== Sys2Proof/Machine/Sched.lean ====
section
/-!
DEFINITION. What happens next: the events that the machine makes of itself, the quarters' issue choice (09 R212, R213),
which of all that may happen comes next, and the clock (log 2, 6).
-/
namespace Sys2Proof.Machine

def spKeys {α : Type} (m : SMap α) : List Nat := m.map (·.1)

/-! ## Events of the machine itself -/

def partEvents (e : Nat × Partition) : List Instr :=
  [.homeSliceAtomic e.1, .faultBatchEnterRing e.1, .invFlush e.1, .invCommandComplete e.1, .sampleWrite e.1, .rasterTriangle e.1]

/-- The live paths of the groups on cores. -/
def livePaths (s : State) : List PathId :=
  s.groups.flatMap fun e =>
    if e.2.place.isSome then ([0, 1].filter fun n => (e.2.live n).isSome).map fun n => ⟨e.1, n⟩ else []

/-- The load of the dictionary slot of a path's handle. -/
def pathDict (s : State) (q : PathId) : List Instr :=
  match issOf s q with
  | some c => [.dictionarySlotLoad c.core c.ctx c.p.handle]
  | none => []

def pathEvents (s : State) (q : PathId) : List Instr :=
  [.pathRotation q, .clauseFetch q] ++ pathDict s q
    ++ [.ldsFeWake q, .channelOperandRetry q, .bindingReleaseWake q, .ordbWake q]

def groupEvents (e : Nat × Group) : List Instr :=
  [.groupEnd e.1, .groupFaultSave e.1, .groupRestore e.1] ++ (spKeys e.2.rays).map fun l => .traversalComplete e.1 l

def teamEvents (e : Nat × Team) : List Instr :=
  (spKeys e.2.barrier).map (fun n => .barrierPhaseComplete e.1 n) ++ (spKeys e.2.latch).map (fun n => .gangJoinedIssue e.1 n)
    ++ [.teamSave e.1, .teamStart e.1]

def nodeEvents (n : Nat) : List Instr :=
  [.nodeReady n, .resampComplete n, .spawnRecordDispatch n, .nodeComplete n]

def jobEvents (j : Nat) : List Instr := [.jobStart j, .jobCommitUnit j, .jobComplete j, .jobFaultSuspend j, .jobResume j]

def recordEvents (part queue : Nat) (e : Nat × RecPhase) : List Instr :=
  match e.2 with
  | .card _ _ _ => [.hostJobCardRecord part queue e.1]
  | .wait _ _ => [.waitRecordComplete part queue e.1]
  | _ => []

def queueEvents (part : Nat) (e : Nat × SubQueue) : List Instr :=
  .hostRecordFetch part e.1 :: e.2.recs.flatMap (recordEvents part e.1)

def clusterEvents (e : Nat × Cluster) : List Instr :=
  e.2.bins.flatMap fun b => [.ncallTileDispatch e.1 b.ctx b.handle, .flushWindowExpiry e.1 b.ctx b.handle]

/-- The events of time slices and pre-emption. -/
def sliceEvents (s : State) : List Instr :=
  (s.cores.flatMap fun e => (spKeys e.2.slice).map fun c => .budgetExpiry e.1 c)
    ++ (((s.teams.map fun e => (e.2.part, e.2.ctx)).eraseDups).map fun e => .contextPreempt e.1 e.2)
    ++ s.parts.flatMap fun e => e.2.preempt.flatMap fun p => [.deadlineExpiry e.1 p.ctx, .drainWindowExpiry e.1 p.ctx]

/-- Everything that may happen of itself (log 2). -/
def ownEvents (s : State) : List Instr :=
  (spKeys s.ops).map .operationComplete
    ++ s.parts.flatMap partEvents
    ++ s.teams.flatMap teamEvents
    ++ s.groups.flatMap groupEvents
    ++ (livePaths s).flatMap (pathEvents s)
    ++ (spKeys s.jobs).flatMap jobEvents
    ++ (spKeys s.tiles).map .ncallTileComplete
    ++ s.clusters.flatMap clusterEvents
    ++ (spKeys s.entries).map .nodeEntry
    ++ (spKeys s.nodes).flatMap nodeEvents
    ++ s.parts.flatMap (fun e => e.2.queues.flatMap (queueEvents e.1))
    ++ sliceEvents s
    ++ (spKeys s.teams).map .teamRestore
    ++ (spKeys s.nodes).flatMap (fun n => [.dispatchAgeExpiry n, .teamPlacement n])
    ++ (spKeys s.groups).map .groupBoost
    ++ (if s.busy then [.repartitionComplete] else [])

/-- What an event of the machine itself comes to. -/
def tryOf (i : Instr) (s : State) : Event :=
  match i with
  | .clauseFetch q => tryClauseFetch q s
  | .dictionarySlotLoad core ctx handle => tryDictionarySlotLoad core ctx handle s
  | .pathRotation q => tryPathRotation q s
  | .groupBoost g => tryGroupBoost g s
  | .operationComplete op => tryOperationComplete op s
  | .ldsFeWake q => tryLdsFeWake q s
  | .channelOperandRetry q => tryChannelOperandRetry q s
  | .barrierPhaseComplete t n => tryBarrierPhaseComplete t n s
  | .gangJoinedIssue t n => tryGangJoinedIssue t n s
  | .resampComplete n => tryResampComplete n s
  | .spawnRecordDispatch n => trySpawnRecordDispatch n s
  | .ordbWake q => tryOrdbWake q s
  | .bindingReleaseWake q => tryBindingReleaseWake q s
  | .groupEnd g => tryGroupEnd g s
  | .faultBatchEnterRing p => tryFaultBatchEnterRing p s
  | .groupFaultSave g => tryGroupFaultSave g s
  | .groupRestore g => tryGroupRestore g s
  | .invFlush p => tryInvFlush p s
  | .invCommandComplete p => tryInvCommandComplete p s
  | .hostRecordFetch p q => tryHostRecordFetch p q s
  | .hostJobCardRecord p q k => tryHostJobCardRecord p q k s
  | .waitRecordComplete p q k => tryWaitRecordComplete p q k s
  | .nodeEntry e => tryNodeEntry e s
  | .nodeReady n => tryNodeReady n s
  | .dispatchAgeExpiry n => tryDispatchAgeExpiry n s
  | .teamPlacement n => tryTeamPlacement n s
  | .teamStart t => tryTeamStart t s
  | .nodeComplete n => tryNodeComplete n s
  | .jobStart j => tryJobStart j s
  | .jobCommitUnit j => tryJobCommitUnit j s
  | .jobFaultSuspend j => tryJobFaultSuspend j s
  | .jobResume j => tryJobResume j s
  | .jobComplete j => tryJobComplete j s
  | .contextPreempt p c => tryContextPreempt p c s
  | .budgetExpiry core ctx => tryBudgetExpiry core ctx s
  | .drainWindowExpiry p c => tryDrainWindowExpiry p c s
  | .deadlineExpiry p c => tryDeadlineExpiry p c s
  | .teamSave t => tryTeamSave t s
  | .teamRestore t => tryTeamRestore t s
  | .ncallTileDispatch k c h => tryNcallTileDispatch k c h s
  | .flushWindowExpiry k c h => tryFlushWindowExpiry k c h s
  | .ncallTileComplete t => tryNcallTileComplete t s
  | .traversalComplete g l => tryTraversalComplete g l s
  | .rasterTriangle p => tryRasterTriangle p s
  | .sampleWrite p => trySampleWrite p s
  | .homeSliceAtomic p => tryHomeSliceAtomic p s
  | .repartitionComplete => tryRepartitionComplete s
  | .l1OverflowWriteback core line => tryL1OverflowWriteback core line s
  | .fullBlockWrite p line => tryFullBlockWrite p line s
  | .partialWrite p line => tryPartialWrite p line s
  | i => eventOf (exec i s)

/-- What an event comes to; none when it cannot happen, or changes nothing. -/
def attempt (i : Instr) (s : State) : Option Out :=
  match tryOf i s with
  | .next t => if t = s then none else some (.next t)
  | .fault r => some (.fault r)
  | .refused _ => none

/-! ## The issue choice (R212, R213) -/

/-- The quarter of a group on a core: four to a core. -/
def groupQuarter (s : State) (gid : Nat) : Nat := (((getGroup s gid).bind (·.place)).getD 0) / 16

/-- A path keeps its quarter's issue slot from its clause's first issue to its last; one that waits on the scoreboard lets
others issue and comes first again behind the wait. Of several inside their clauses, the one that took the slot first. -/
def keeps (p : Path) : List Nat :=
  match p.slotFrom with
  | some k => if p.clause.isSome ∧ p.slot ≠ 0 then [0, k] else [1, 0]
  | none => [1, 0]

/-- The place of a path in the order of issue: its quarter counted from the one after that which issued last, whether it
is inside its clause, boosted groups, the context's priority, the group's age, and the path that issued less recently. -/
def issueKey (s : State) (q : PathId) : List Nat :=
  match issOf s q with
  | none => []
  | some c =>
    let last := match s.cur with
      | some r => groupQuarter s r.gid
      | none => 1535
    let turn := (groupQuarter s q.gid + 1536 - (last + 1) % 1536) % 1536
    let boosted (p : Option Path) : Bool := match p with
      | some x => x.boosted
      | none => false
    let prio := if boosted c.g.live0 || boosted c.g.live1 then 0 else 8 - ctxPrio s c.part c.ctx
    turn :: keeps c.p ++ [prio, c.g.age, q.gid, c.p.since]

/-- Whether one list of numbers stands before another. -/
def lexBefore : List Nat → List Nat → Bool
  | [], [] => false
  | [], _ => true
  | _, [] => false
  | a :: r, b :: q => decide (a < b) || (a == b && lexBefore r q)

/-- Inserts a path behind those that do not stand after it. -/
def insertPath (e : List Nat × PathId) : List (List Nat × PathId) → List (List Nat × PathId)
  | [] => [e]
  | x :: r => if lexBefore e.1 x.1 then e :: x :: r else x :: insertPath e r

/-- The live paths in the order in which they are asked. -/
def issueOrder (s : State) : List PathId :=
  (((livePaths s).map fun q => (issueKey s q, q)).foldl (fun l e => insertPath e l) []).map (·.2)

/-- A group apart from the clocks that the scheduler notes. -/
def unclocked (g : Option Group) : Option Group :=
  let f (p : Path) : Path := { p with since := 0, readyFor := 0, slotFrom := none }
  g.map fun x => { x with live0 := x.live0.map f, live1 := x.live1.map f }

/-- Whether a path's turn has changed its group: a stalled path stays as it was. -/
def stalled (s t : State) (gid : Nat) : Bool := decide (unclocked (getGroup t gid) = unclocked (getGroup s gid))

/-- What the scheduler notes of a path that has issued: its clock, the issue slot that it keeps inside its clause, and the end
of a boost with its next clause. -/
def Path.noted (p : Path) (clk : Nat) (first : Bool) : Path :=
  { p with
    since := clk, readyFor := 0, boosted := p.boosted && !first
    slotFrom := if p.clause.isSome ∧ p.slot ≠ 0 then some (p.slotFrom.getD clk) else none }

/-- What follows an issue: its release edges and loads, the scheduler's notes, and the halt after a single clause. -/
def issued (s : State) (q : PathId) (i : Instr) (t : State) : State :=
  match issOf s q with
  | none => t
  | some c =>
    let t1 := beginLoads s (edgesBehind s t c i) c i
    rehalt (modPath t1 q.gid q.live fun p => p.noted s.clk (c.p.slot == 0)) q.gid

/-- What a path does when its turn comes; none when it is not ready or stalls. -/
def issueOf (s : State) (q : PathId) : Option Out :=
  match pathReady s q with
  | .blocked => none
  | .held => none
  | .become t => if stalled s t q.gid then none else some (.next { t with cur := some q })
  | .issue i t => match exec i t with
    | .next u => if stalled t u q.gid then none else some (.next (issued t q i u))
    | .fault r => some (.fault r)
    | .refused r => some (.refused r)

/-- The paths that issue next: of each quarter, the first in its order that does anything. -/
def issueFronts (s : State) : List PathId → List Nat → List PathId
  | [], _ => []
  | q :: r, taken =>
    let k := groupQuarter s q.gid
    if taken.contains k then issueFronts s r taken
    else if (issueOf s q).isSome then q :: issueFronts s r (k :: taken)
    else issueFronts s r taken

/-! ## What comes next (log 2) -/

/-- Write-backs that may come at any time (05 R117; 04 R86): an idle machine makes them. -/
def idleEvents (s : State) : List Instr :=
  (s.cores.filterMap fun e => e.2.pend.head?.map fun d => .l1OverflowWriteback e.1 (d.1 / 16))
    ++ s.parts.flatMap fun e => (spKeys e.2.l2).flatMap fun l => [.fullBlockWrite e.1 l, .partialWrite e.1 l]

/-- One thing that may happen next: an event of the machine itself, or a turn of a path. -/
inductive Turn where
  | event (i : Instr)
  | path (q : PathId)

def Turn.run (s : State) : Turn → Option Out
  | .event i => attempt i s
  | .path q => issueOf s q

/-- Everything that may happen next. -/
def turns (s : State) : List Turn :=
  ((ownEvents s).filter fun i => (attempt i s).isSome).map .event ++ (issueFronts s (issueOrder s) []).map .path

/-- Which of n things comes next: any, by a free choice; at every 1,024th clock each in its turn, so that none is put off for
ever. With nothing to choose between, no choice is used. -/
def nextTurn (s : State) (n : Nat) : Nat × State :=
  if s.clk % 1024 = 0 then (s.clk / 1024 % n, s) else chooseBelow s n

/-- What the machine does of itself: something that may happen next, else a write-back. -/
def runSelf (s : State) : Out :=
  if s.boot = 3 ∨ s.boot = 4 then .next s
  else match turns s with
    | [] => ((idleEvents s).findSome? fun i => attempt i s).getD (.next s)
    | t :: r =>
      let k := nextTurn s (r.length + 1)
      ((((t :: r).drop k.1).head?).bind (Turn.run k.2)).getD (.next k.2)

/-! ## The clock -/

/-- The clusters' arithmetic clocks at the next clock: one that runs slower than 700 MHz falls behind (00 R8; 01 R19). -/
def runClocks (s : State) : State :=
  { s with
    clk := s.clk + 1
    clusters := s.clusters.map fun e => (e.1, if e.2.clock < 700 then { e.2 with lag := e.2.lag + (700 - e.2.clock) } else e.2) }

/-- Whether the arithmetic clock of a cluster advances at the next clock. -/
def clusterTicks (s : State) (cluster : Nat) : Bool := clkOf (runClocks s) cluster != clkOf s cluster

/-- One clock of a context on a core, with the clock at which its count reached its budget. -/
def countSlice (s : State) (e : Nat × Nat) : State :=
  let b := ctxBudget s (partOfCore s e.1) e.2
  modCore s e.1 fun k =>
    let n := spGet 0 k.slice e.2 + 1
    { k with
      slice := spSet 0 k.slice e.2 n
      reached := if b = 0 ∨ n < b then spDel k.reached e.2 else spPut k.reached e.2 ((spFind k.reached e.2).getD s.clk) }

/-- The time-slice counts of a core: one clock for each context with a team there (R211). -/
def countSlices (s : State) : State :=
  let at_ : List (Nat × Nat) := ((s.teams.filterMap fun e => match e.2.core with
    | some k => if e.2.phase == .ended || !clusterTicks s (clusterOf k) then none else some (k, e.2.ctx)
    | none => none)).eraseDups
  at_.foldl countSlice s

/-- A pre-emption is put off while the debugger holds a group of its context (10 R231). -/
def deferPreempts (s : State) : State :=
  let later (part : Nat) (p : Preempt) : Preempt := if ctxHalted s part p.ctx then { p with start := p.start + 1 } else p
  { s with parts := s.parts.map fun e => (e.1, { e.2 with preempt := e.2.preempt.map (later e.1) }) }

/-- Counts the clocks that paths have been ready (R213). -/
def countReady (s : State) : State :=
  { s with groups := s.groups.map fun e =>
      let ticks := match e.2.place with
        | some p => clusterTicks s (p / 256)
        | none => false
      let f (n : Nat) (p : Path) : Path :=
        { p with readyFor := if !readyNow s ⟨e.1, n⟩ then 0 else if ticks then p.readyFor + 1 else p.readyFor }
      (e.1, { e.2 with live0 := e.2.live0.map (f 0), live1 := e.2.live1.map (f 1) }) }

/-! ### Caches -/

/-- One line of a unit of an L1, a free choice, leaves it. -/
def evictL1 (core u : Nat) (s : State) : State :=
  let mine := (getCore s core).l1.filter fun e => e.2.unit == u
  let k := chooseBelow s mine.length
  match mine.drop k.1 with
  | e :: _ => coreDrop k.2 core fun l => l == e.1
  | [] => s

/-- An L1 unit of 64 KiB holds 512 lines: those beyond these leave the L1 (04 R83). -/
def trimL1 (s : State) (core : Nat) : State :=
  (List.range 16).foldl (fun s u =>
    Nat.repeat (evictL1 core u) (((getCore s core).l1.filter fun e => e.2.unit == u).length - 512) s) s

/-- The lines of a slice of a partition's L2. -/
def sliceHas (s : State) (part k : Nat) : List (Nat × L2Line) :=
  (getPart s part).l2.filter fun e => homeSlice s part (homeAddr s part (128 * e.1)) == part * sliceCount s + k

/-- One line of a slice, a free choice, is written back and leaves it. -/
def evictL2 (part k : Nat) (s : State) : State :=
  let mine := sliceHas s part k
  let c := chooseBelow s mine.length
  match mine.drop c.1 with
  | e :: _ => l2WriteBack c.2 e.1
  | [] => s

/-- A slice of the L2 holds 12,288 lines: those beyond these are written back and leave it (04 R74, R86). -/
def trimL2 (s : State) (part : Nat) : State :=
  (List.range (sliceCount s)).foldl (fun s k =>
    Nat.repeat (evictL2 part k) ((sliceHas s part k).length - sliceLines) s) s

/-- The L2s take the sectors that reads have asked for, and no cache holds more than its size. -/
def settleCaches (s : State) : State :=
  let s1 := s.parts.foldl (fun s e => if e.2.fills = [] then s else takeFills s e.1) s
  let s2 := s1.parts.foldl (fun s e => if e.2.l2.length ≤ sliceLines then s else trimL2 s e.1) s1
  s2.cores.foldl (fun s e => if e.2.l1.length ≤ 512 then s else trimL1 s e.1) s2

/-- The translation caches take the entries of some addresses: which, is a free choice (03 R53; log 9). Where no partition
has a frame area there is no context to translate for. -/
def fillCaches (s : State) : State :=
  if s.parts.all fun e => e.2.frameSize == 0 then s
  else
    let take (s : State) (e : Nat × Nat × Nat) : State :=
      if partCount s ≤ e.1 ∨ !ctxInArea s e.1 e.2.1 ∨ !ctxValid s e.1 e.2.1 then s else cacheWalk s e.1 e.2.1 (e.2.2 % 2 ^ 64)
    (Config.cacheFills s.fresh).foldl take { s with fresh := s.fresh + 1 }

/-- What the ports send. -/
def sendFlits (s : State) : State :=
  s.ports.foldl (fun s e => if e.2.out = [] ∧ e.2.asked = none then s else portSend s e.1) s

/-- One arithmetic clock passes. -/
def tick (s : State) : State :=
  let s1 := noteWaits (countReady (deferPreempts (countSlices (lateLoads (settlePhases s)))))
  runClocks (fillCaches (settleCaches (spillStores (mcStep (sendFlits (apPump s1))))))

def ticked : Out → Out
  | .next s => .next (tick s)
  | o => o

/-! ## One step -/

/-- Whether an event from outside may act: in BOOT_STATUS 3 or 4 the device runs nothing but its boot (18 R429), and a
program instruction is no event. -/
def admits (s : State) (i : Instr) : Bool :=
  !i.fields.isSome && (decide (s.boot ≠ 3 ∧ s.boot ≠ 4) || match i with
    | .deviceReset _ => true
    | .bootNewImage _ => true
    | _ => false)

/-- The oldest event of the agenda; one that cannot happen is dropped. -/
def takeEvent (s : State) (i : Instr) : Out :=
  if admits s i then
    match exec i s with
    | .refused _ => .next s
    | o => o
  else .next s

/-- The outcome of a step before the clock passes. -/
def stepOnce (s : State) : Out :=
  match s.agenda with
  | i :: r => takeEvent { s with agenda := r } i
  | [] => runSelf s

/-! ## A program at reset (log 7) -/

/-- The clause of one instruction, as a fetch of three words decodes it without a dictionary. -/
def lonelyClause (w0 w1 w2 : Nat) : Clause :=
  { addr := 0, header := 0xAFF000E3, slots := decodeSlots .rejected 15 [w0, w1, w2] }

/-- A launch of one team of one group, entered and placed on core 0. -/
def lonelyNode : Node :=
  { part := 0, ctx := 0, launch := 0, teams := 1, stages := 1, qbind := 0, args := 0, workq := 0, workn := 0
    descs := [{ emptyDesc with handle := 1, regs := 256, tsize := 1, bars := 16, latches := 16, scratch := 65536 }]
    regions := [], stream := .queue 0 0, order := 0, src := .launch ⟨0, 0⟩ none true 0, phase := .ready, nextTeam := 1 }

def lonelyTeam : Team :=
  { teamOfNode 0 lonelyNode 0 0 with groups := [0], units := [0], phase := .running, laned := true, begun := true }

/-- Its group, with one live path of all lanes that holds a clause. -/
def lonelyGroup (s : State) (cl : Clause) : Group :=
  { newGroup s 0 0 0 256 with live0 := some { freshPath 0 0 (BitVec.allOnes 64) 0xC3 1 with clause := some cl } }

end Sys2Proof.Machine
end

