-- ==== Sys2Proof/Machine/Step.lean ====
section
/-!
DEFINITION. One step of the machine, and where it fetches its next instruction.
-/
namespace Sys2Proof.Machine

/-- One step: the oldest event from outside, or what the machine does of itself; then one clock passes (log 2, 6). -/
def step (s : State) : Host.Outcome State Fault Refusal := ticked (stepOnce s)

/-- The state with an instruction in the clause buffer from which step takes its next instruction: a launch of one group
stands on core 0, as a boot and the host's submission would have left it (log 7). -/
def State.withFetchWord (s : State) (nbits w : Nat) : State :=
  let v := w % 2 ^ min nbits 96
  let cl := lonelyClause (v % 2 ^ 32) (v / 2 ^ 32 % 2 ^ 32) (v / 2 ^ 64)
  { s with
    agenda := [], boot := 2, cur := none, order := max s.order 1
    nodes := spPut s.nodes 0 lonelyNode
    teams := spPut s.teams 0 lonelyTeam
    groups := spPut s.groups 0 (lonelyGroup s cl) }

end Sys2Proof.Machine
end

