-- ==== Sys2Proof/Safety.lean ====
section
/-!
DEFINITION. What counts as a safe run, and the terms the claims use: what an instruction leaves in the registers of its
group, and that it leaves everything else alone.
-/
namespace Sys2Proof

/-- k steps all answer a next state. -/
def SafeFor : Nat → Machine.State → Prop
  | 0, _ => True
  | k + 1, s => ∃ t, Machine.step s = .next t ∧ SafeFor k t

namespace Claims
open Sys2Proof.Machine

/-! ## The issuing path -/

/-- The issuing group with its path behind the instruction, in program order, and the instruction counted. -/
def behind (c : Iss) : Group := countRetired (c.g.setLive c.live (some (advance c.p))) (atClauseEnd c.p)

/-- The issuing group with its path at the start of a clause, and the instruction counted as the last of its clause. -/
def atClause (c : Iss) (target : Nat) : Group := countRetired (c.g.setLive c.live (some (endClause c.p target))) true

/-- Vector writes: by register and lane, what is written there, if anything. -/
abbrev VecWrites := Nat → Nat → Option Nat
/-- Scalar writes. -/
abbrev ScaWrites := Nat → Option Nat
/-- Predicate writes, by predicate and lane. -/
abbrev PredWrites := Nat → Nat → Option Bool

def noVec : VecWrites := fun _ _ => none
def noSca : ScaWrites := fun _ => none
def noPred : PredWrites := fun _ _ => none

/-- `g'` is `g` but for registers and predicates, and in these it is `g` but for the writes, which leave no poison. Vector
registers and predicates have 64 lanes. -/
structure Wrote (g g' : Group) (V : VecWrites) (S : ScaWrites) (P : PredWrites) : Prop where
  rest : { g' with vregs := g.vregs, vpoison := g.vpoison, sregs := g.sregs, spoison := g.spoison, preds := g.preds } = g
  vec : ∀ r l, l < 64 → g'.getV r l = (V r l).getD (g.getV r l)
  vbad : ∀ r l, l < 64 → g'.badV r l = if (V r l).isSome then false else g.badV r l
  sca : ∀ r, g'.getS r = (S r).getD (g.getS r)
  sbad : ∀ r, g'.badS r = if (S r).isSome then false else g.badS r
  pre : ∀ p l, p < 48 → l < 64 → (g'.predMask p).getLsbD l = (P p l).getD ((g.predMask p).getLsbD l)

/-- The instruction completes: its group takes the writes, its path stands behind it, and every other part of the state,
all of memory with it, is as before. -/
def Done (i : Instr) (s : State) (c : Iss) (V : VecWrites) (S : ScaWrites) (P : PredWrites) : Prop :=
  ∃ g', exec i s = .next (modGroup s c.gid fun _ => g') ∧ Wrote (behind c) g' V S P

/-! ## Destinations -/

/-- What a value of one or two words puts into a vector register, for the register or pair that a code names; any other
code writes no vector register. -/
def regWrite (code : BitVec 9) (wide : Bool) (x r : Nat) : Option Nat :=
  if code.toNat < 0x100 then
    if r = code.toNat then some (x % 2 ^ 32)
    else if wide = true ∧ r = code.toNat + 1 then some (x / 2 ^ 32 % 2 ^ 32) else none
  else none

/-- A value in the vector register or pair that a code names, in the lanes of a mask. -/
def toVec (code : BitVec 9) (wide : Bool) (act : Mask) (val : Nat → Nat) : VecWrites := fun r l =>
  if act.getLsbD l = true then regWrite code wide (val l) r else none

/-- A value of one or two words in the scalar register or pair that a code names; any other code writes no scalar. -/
def toSca (code : BitVec 9) (wide : Bool) (val : Nat) : ScaWrites := fun r =>
  if 0x100 ≤ code.toNat ∧ code.toNat < 0x140 then
    if r = code.toNat - 0x100 then some (val % 2 ^ 32)
    else if wide = true ∧ r = code.toNat - 0x100 + 1 then some (val / 2 ^ 32 % 2 ^ 32) else none
  else none

/-- A truth value in a predicate, in the lanes of a mask; pt discards it. -/
def toPred (code : BitVec 9) (act : Mask) (val : Nat → Bool) : PredWrites := fun p l =>
  if code.toNat ≠ 63 ∧ p = code.toNat ∧ act.getLsbD l = true then some (val l) else none

/-- The vector writes of a value instruction. -/
def vecOf (v : ValueOp) (s : State) (c : Iss) (act : Mask) : VecWrites :=
  match v.dst with
  | .reg code wide => toVec code wide act (v.value s c)
  | .pred _ => noVec

/-- The scalar writes: the value in the lowest active lane, which every lane shares. -/
def scaOf (v : ValueOp) (s : State) (c : Iss) (act : Mask) : ScaWrites :=
  match v.dst with
  | .reg code wide => toSca code wide (v.value s c (lowLane act))
  | .pred _ => noSca

/-- The predicate writes; on the scalar unit every active lane takes the value of the lowest. -/
def predOf (v : ValueOp) (scalarUnit : Bool) (s : State) (c : Iss) (act : Mask) : PredWrites :=
  match v.dst with
  | .reg _ _ => noPred
  | .pred code => toPred code act fun l => v.value s c (if scalarUnit then lowLane act else l) != 0

/-- No source of a value instruction is poisoned in an active lane. -/
def clean (v : ValueOp) (c : Iss) (act : Mask) : Prop := ∀ l ∈ lanesOf act, v.badIn c l = false

/-- The instruction i, a value instruction v of fields f: when its checks pass and some lane is active, it writes the
results of v into its destination and completes. An opcode of class 1 (`vectorOnly`) never runs on the scalar unit. -/
def Runs (i : Instr) (f : Fields) (vectorOnly : Bool) (v : Iss → ValueOp) : Prop :=
  ∀ s c, issuer s = some c → (v c).ok c f = true → active c f ≠ 0 → clean (v c) c (active c f) →
    Done i s c (vecOf (v c) s c (active c f)) (scaOf (v c) s c (active c f))
      (predOf (v c) (!vectorOnly && (v c).onScalar) s c (active c f))

/-- The instruction completes, and the issuing group becomes g'; nothing else changes. -/
def Goes (i : Instr) (s : State) (c : Iss) (g' : Group) : Prop := exec i s = .next (modGroup s c.gid fun _ => g')

/-- The other forms of a value instruction: one that a check refuses traps ILLEGAL_OPERAND, whatever its lanes; without
active lanes it only moves on; a poisoned source traps DATA_POISON at the lowest lane that reads one, lane 0 on the scalar
unit (04 R98; 08 R174; 11 R257). -/
def Refuses (i : Instr) (f : Fields) (vectorOnly : Bool) (v : Iss → ValueOp) : Prop :=
  ∀ s c, issuer s = some c →
    ((v c).ok c f = false → exec i s = .next (illegalOperand s c)) ∧
    ((v c).ok c f = true → active c f = 0 → Goes i s c (behind c)) ∧
    ((v c).ok c f = true → ∀ l ∈ lanesOf (active c f), (v c).badIn c l = true →
      (∀ k ∈ lanesOf (active c f), k < l → (v c).badIn c k = false) →
      exec i s = .next (trapPoison s c (if !vectorOnly && (v c).onScalar then 0 else l)))

/-- The instruction i is the value instruction v of fields f, in every form. -/
def Computes (i : Instr) (f : Fields) (vectorOnly : Bool) (v : Iss → ValueOp) : Prop :=
  Runs i f vectorOnly v ∧ Refuses i f vectorOnly v

/-- The instruction i of fields f: when its guard and fields are legal, some lane is active and nothing it reads is
poisoned, it makes these register writes and completes. -/
def Writes (i : Instr) (f : Fields) (legal : Iss → Bool) (bad : State → Iss → Nat → Bool) (V : State → Iss → VecWrites)
    (S : State → Iss → ScaWrites) (P : State → Iss → PredWrites) : Prop :=
  ∀ s c, issuer s = some c → f.guardLegal = true → legal c = true → active c f ≠ 0 →
    (∀ l ∈ lanesOf (active c f), bad s c l = false) → Done i s c (V s c) (S s c) (P s c)

/-- No vector writes, in the form of `Writes`. -/
def noV : State → Iss → VecWrites := fun _ _ => noVec
/-- No scalar writes. -/
def noS : State → Iss → ScaWrites := fun _ _ => noSca
/-- No predicate writes. -/
def noP : State → Iss → PredWrites := fun _ _ => noPred

/-- A signed word offset from the clause header (11 R253). -/
def wordTarget {w : Nat} (p : Path) (off : BitVec w) : Nat := (BitVec.ofNat 64 p.addr + 4 * off.signExtend 64).toNat

/-- The return entry of a call: the clause behind the call, the handle and the lanes (08 R187). -/
def callEntry (p : Path) (ser : Bool) (m : Mask) : RetEntry := { ser := ser, addr := nextClause p, handle := p.handle, mask := m }

/-- A path with its lanes restricted, at the start of a clause behind an instruction. -/
def splitPath (p : Path) (m : Mask) (target : Nat) : Path := endClause { p with mask := m } target

/-- The issuing group with other registers, and its path behind the instruction. -/
def past (c : Iss) (g : Group) : Group := countRetired (g.setLive c.live (some (advance c.p))) (atClauseEnd c.p)

/-! ## Memory instructions -/

/-- A counted operation runs: its guard and fields are legal, its flag has room (11 R239), some lane is active. -/
structure Counts (c : Iss) (f : Fields) (setB legal : Bool) : Prop where
  guard : f.guardLegal = true
  fields : legal = true
  room : flagFull c.g (setFlag c.p setB) = false
  lanes : active c f ≠ 0

/-- The instruction's record is r, and r may be used by it (02 R30, R36). -/
structure Names (c : Iss) (f : Fields) (atomic forbidden : Bool) (r : BufRec) : Prop where
  scalar : ∃ n, recScalar f.b = some n ∧ r = recAt c.g n
  valid : recInvalid r atomic = false
  permitted : forbidden = false

/-- The lanes' places lie inside the record, are aligned, translate to `ls`, and no watchpoint matches them
(02 R39). -/
structure Reaches (s : State) (c : Iss) (acc : Acc) (wp : Option WpKind) (sz : Nat) (places : List (Nat × Placed))
    (ls : List LaneLoc) : Prop where
  inside : ∀ p ∈ places, ∀ a, p.2 ≠ .bounds a
  aligned : ∀ a ∈ placedAccs sz places, a.va % sz = 0
  translated : xlCore s c acc (placedAccs sz places) = .ok ls
  unwatched : ∀ k, wp = some k → c.p.exempt = true ∨ ∀ l ∈ ls, wpMatch s c.part c.ctx false k l.va l.size = false

/-- The scratchpad accesses lie inside the team's scratchpad, are aligned, and no watchpoint matches them (14 R332). -/
structure InScratch (s : State) (c : Iss) (k : WpKind) (sz : Nat) (as : List SpadAcc) : Prop where
  inside : ∀ a ∈ as, 0 ≤ a.off ∧ a.off + sz ≤ c.t.size
  aligned : ∀ a ∈ as, a.off.toNat % sz = 0
  unwatched : c.p.exempt = true ∨ ∀ a ∈ as, wpMatch s c.part c.ctx true k a.off.toNat sz = false

/-- The state in which the path is behind the instruction and an operation of it is in flight: it counts on its flag and
brings these register writes when it completes. -/
def inFlight (s : State) (c : Iss) (setB : Bool) (ws : List RegWrite) : State :=
  startOp (modGroup s c.gid fun _ => behind c) { gid := c.gid, flag := setFlag c.p setB, writes := ws }

/-- The lanes that make an access: the lowest active lane alone when the destination is a scalar. -/
def accessLanes (c : Iss) (f : Fields) : List Nat :=
  if (opnd f.d).isScalarReg then [lowLane (active c f)] else lanesOf (active c f)

/-- A record of n bytes that the issuing thread reads at va: its accesses translate, no atomic of the thread on them is on its
way, no word of it is poisoned, and it gives `bytes` and leaves `after` (05 R110; 06 R131; 14 R344). -/
def ReadsObject (s : State) (c : Iss) (lane va n : Nat) (bytes : List Byte) (after : State) : Prop :=
  ∃ ls, xlCore s c .read ((rangeAccs va n).map fun a => { a with lane := lane }) = .ok ls ∧
    (∀ l ∈ ls, atomAhead s [.thread c.gid lane] l = false) ∧
    let q := readSet s [.thread c.gid lane] ls
    q.1.bad = false ∧ q.1.bytes = bytes ∧ q.2 = after

/-- The issuing group with its path waiting at its instruction. -/
def waitsFor (s : State) (c : Iss) (g : Group) (w : Wait) : Group :=
  g.setLive c.live (some { c.p with wait := w, since := s.clk })

/-- A partition window that takes writes now: the partition exists and no repartition is under way (18 R424). -/
def windowOpen (s : State) (part : Nat) : Prop := s.busy = false ∧ part < partCount s

/-- A batch of the client k is recorded for a partition, under the sequence number b (03 R67, R70). -/
def batched (t : State) (part b : Nat) (k : Client) : Prop :=
  ∃ x ∈ (getPart t part).batches, x.seq = b ∧ x.client = k ∧ x.inRing = false

/-! ## What every step keeps -/

/-- The canonical form of memory, of its poison marks and of its metadata nibbles: keys strictly rising and no entry equal
to what an unlisted key reads as, so that equal memories are equal data. -/
def Canonical (s : State) : Prop :=
  Memory.wf s.mem = true ∧ spWf false s.poison = true ∧ spWf 0 s.nibbles = true

/-! ## Arithmetic on operands, in plain words -/

/-- An operand of an integer type as a number: .i types in two's complement, the others as they stand (R287). -/
def asInt (t x : Nat) : Int :=
  if t = 0 ∨ t = 2 then (BitVec.ofNat (iwid t) x).toInt else ((BitVec.ofNat (iwid t) x).toNat : Int)

/-- The low bits of a number, in the width of a type. -/
def asBits (t : Nat) (v : Int) : Nat := (BitVec.ofInt (iwid t) v).toNat

/-- The smallest number of a type. -/
def least (t : Nat) : Int := if t = 0 ∨ t = 2 then -(2 : Int) ^ (iwid t - 1) else 0

/-- The largest number of a type. -/
def most (t : Nat) : Int := if t = 0 ∨ t = 2 then (2 : Int) ^ (iwid t - 1) - 1 else (2 : Int) ^ iwid t - 1

/-- The number whose bit k, below w, is p k. -/
def ofBits : Nat → (Nat → Bool) → Nat
  | 0, _ => 0
  | w + 1, p => ofBits w p + if p w then 2 ^ w else 0

/-- The number whose byte k, below n, is b k. -/
def ofBytes : Nat → (Nat → Nat) → Nat
  | 0, _ => 0
  | n + 1, b => ofBytes n b + b n * 256 ^ n

/-- Byte k of a number. -/
def byteAt (x k : Nat) : Nat := x / 256 ^ k % 256

/-- Source k of a value instruction. -/
def src (xs : List Nat) (k : Nat) : Nat := xs.getD k 0

end Claims

end Sys2Proof
end

