-- ==== Sys2Proof/Certificates/Slice0/Obligations.lean ====
section
/-!
DEFINITION. The statements of this model: what the program instructions and the machine events do, what the machine keeps,
and that decoding and encoding agree. A value instruction is stated with `Claims.Computes`: its registers take the results
given here, and every other part of the state is as before.
-/
open Sys2Proof Sys2Proof.Machine Sys2Proof.Claims

/-! ## Integer instructions -/

/-- IADD, ISUB, IMUL, IMULH, IMAD, IDIV, IMIN and IMAX (12 R288, R289): the exact number, wrapped to the width of the type,
or clamped to its range with .sat; a division by zero gives all ones or the dividend. -/
def Obligations.IntegerArithmetic : Prop :=
  let sat (t : Nat) (v : Int) : Nat := asBits t (max (least t) (min (most t) v))
  let sum (f : Fields) (op : Int → Int → Int) : ValueOp :=
    binOp f false (decide (mod43 f ≤ 1) && !(mod43 f == 1 && decide (4 ≤ ityp f))) fun a b =>
      let v := op (asInt (ityp f) a) (asInt (ityp f) b)
      if mod43 f = 1 then sat (ityp f) v else asBits (ityp f) v
  let two (f : Fields) (op : Int → Int → Int) : ValueOp :=
    binOp f false (mod43 f == 0) fun a b => asBits (ityp f) (op (asInt (ityp f) a) (asInt (ityp f) b))
  (∀ f, Computes (.iadd f) f false fun _ => sum f (· + ·)) ∧
  (∀ f, Computes (.isub f) f false fun _ => sum f (· - ·)) ∧
  (∀ f, Computes (.imul f) f false fun _ => two f (· * ·)) ∧
  (∀ f, Computes (.imin f) f false fun _ => two f min) ∧
  (∀ f, Computes (.imax f) f false fun _ => two f max) ∧
  (∀ f, Computes (.imulh f) f false fun _ =>
    rrOp f [(f.a, ity (ityp f)), (f.b, ity (ityp f))] (mod53zero f && f.c == 0) (iwide (ityp f)) fun xs =>
      asBits (ityp f) (asInt (ityp f) (src xs 0) * asInt (ityp f) (src xs 1) / 2 ^ iwid (ityp f))) ∧
  (∀ f, Computes (.imad f) f false fun _ =>
    rrOp f [(f.a, ity (ityp f)), (f.b, ity (ityp f)), (f.c, ity (ityp f))] (mod53zero f) (iwide (ityp f)) fun xs =>
      asBits (ityp f) (asInt (ityp f) (src xs 0) * asInt (ityp f) (src xs 1) + asInt (ityp f) (src xs 2))) ∧
  (∀ f, Computes (.idiv f) f false fun _ =>
    rrOp f [(f.a, ity (ityp f)), (f.b, ity (ityp f))] (decide (f.mod.toNat < 16) && f.c == 0) (iwide (ityp f)) fun xs =>
      let a := asInt (ityp f) (src xs 0)
      let b := asInt (ityp f) (src xs 1)
      let q := a.tdiv b
      if b = 0 then (if mod43 f = 1 then asBits (ityp f) a else asBits (ityp f) (-1))
      else if mod43 f = 1 then asBits (ityp f) (a - q * b) else asBits (ityp f) q)

/-- LOGT, SHL, SHR, FSHF, BFX, BFI, POPC, CLZ, BREV and PERMB (12 R290 to R294): the result bit by bit or byte by byte. -/
def Obligations.BitOperations : Prop :=
  (∀ f : Fields, Computes (.logt f) f false fun _ =>
    let wide := bitsOf f.mod.toNat 1 2 == 1
    let ty : Ty := if wide then .q64 else .w32
    { dst := .reg f.d wide, srcs := [(f.a, ty), (f.b, ty), (f.c, ty)], legal := !f.mod.getLsbD 2
      fn := fun xs _ => ofBits (if wide then 64 else 32) fun k =>
        let table := (f.mod.extractLsb' 3 3 ++ f.x ++ f.mod.extractLsb' 0 1 : BitVec 8)
        table.getLsbD (((src xs 0).testBit k).toNat + 2 * ((src xs 1).testBit k).toNat + 4 * ((src xs 2).testBit k).toNat) }) ∧
  (∀ f, Computes (.shl f) f false fun _ =>
    binOp f true (mod43 f == 0) fun a n =>
      if iwid (ityp f) ≤ n then 0 else (BitVec.ofNat (iwid (ityp f)) a <<< n).toNat) ∧
  (∀ f, Computes (.shr f) f false fun _ =>
    binOp f true (mod43 f == 0) fun a n =>
      let x := BitVec.ofNat (iwid (ityp f)) a
      if ityp f = 0 ∨ ityp f = 2 then (x.sshiftRight n).toNat else (x >>> n).toNat) ∧
  (∀ f, Computes (.fshf f) f false fun _ =>
    rrOp f [(f.a, ity (ityp f)), (f.b, ity (ityp f)), (f.c, .w32)] (decide (f.mod.toNat < 16)) (iwide (ityp f)) fun xs =>
      let w := iwid (ityp f)
      let u := BitVec.ofNat w (src xs 0) ++ BitVec.ofNat w (src xs 1)
      let k := src xs 2 % w
      if mod43 f = 1 then ((u >>> k).extractLsb' 0 w).toNat else ((u <<< k).extractLsb' w w).toNat) ∧
  (∀ f, Computes (.bfx f) f false fun _ =>
    rrOp f [(f.a, ity (ityp f)), (f.c, .w32)] (mod53zero f && f.b == 0) (iwide (ityp f)) fun xs =>
      let w := iwid (ityp f)
      let a := BitVec.ofNat w (src xs 0)
      let n := min (byteAt (src xs 1) 1) w
      if ityp f = 0 ∨ ityp f = 2 then
        (((a.sshiftRight (byteAt (src xs 1) 0)).extractLsb' 0 n).signExtend w).toNat
      else ((a >>> byteAt (src xs 1) 0).extractLsb' 0 n).toNat) ∧
  (∀ f, Computes (.bfi f) f false fun _ =>
    rrOp f [(f.a, ity (ityp f)), (f.b, ity (ityp f)), (f.c, .w32)] (mod53zero f) (iwide (ityp f)) fun xs =>
      let pos := byteAt (src xs 2) 0
      let len := byteAt (src xs 2) 1
      ofBits (iwid (ityp f)) fun k =>
        if pos ≤ k ∧ k < pos + len then (src xs 0).testBit (k - pos) else (src xs 1).testBit k) ∧
  (∀ f, Computes (.popc f) f false fun _ =>
    rrOp f [(f.a, ity (ityp f))] (mod53zero f && allZero [f.b, f.c]) false fun xs =>
      ((List.range (iwid (ityp f))).filter (src xs 0).testBit).length) ∧
  (∀ f, Computes (.clz f) f false fun _ =>
    rrOp f [(f.a, ity (ityp f))] (mod53zero f && allZero [f.b, f.c]) false fun xs =>
      ((List.range (iwid (ityp f))).reverse.takeWhile fun k => !(src xs 0).testBit k).length) ∧
  (∀ f, Computes (.brev f) f false fun _ =>
    rrOp f [(f.a, ity (ityp f))] (mod53zero f && allZero [f.b, f.c]) (iwide (ityp f)) fun xs =>
      ofBits (iwid (ityp f)) fun k => (src xs 0).testBit (iwid (ityp f) - 1 - k)) ∧
  (∀ f, Computes (.permb f) f false fun _ =>
    rrOp f [(f.a, ity (ityp f)), (f.b, ity (ityp f)), (f.c, .w32)] (mod53zero f) (iwide (ityp f)) fun xs =>
      let half := if iwide (ityp f) then 8 else 4
      let y (k : Nat) : Nat := if k < half then byteAt (src xs 0) k else byteAt (src xs 1) (k - half)
      let nib (j : Nat) : Nat := src xs 2 / 2 ^ (4 * j) % 16
      ofBytes half fun j =>
        if iwide (ityp f) then y (nib j)
        else if nib j < 8 then y (nib j)
        else if (y (nib j - 8)).testBit 7 then 0xFF else 0)

/-- ICMP, ISEL, MOVI, MOVHI, PLOGT and RNG (12 R290, R295 to R297, R300; 07 R173). -/
def Obligations.CompareSelectConstants : Prop :=
  (∀ f : Fields, Computes (.icmp f) f false fun _ =>
    { dst := .pred f.d, srcs := (f.a, ity (ityp f)) :: secondSrc f (ity (ityp f))
      legal := itypOk f && mod43 f == 0 && decide (f.x.toNat ≤ 5) && cUnused f
      fn := fun xs _ =>
        let a := asInt (ityp f) (src xs 0)
        let b := asInt (ityp f) (secondVal f (ityp f) false xs)
        (match f.x.toNat with
          | 0 => decide (a = b)
          | 1 => decide (a ≠ b)
          | 2 => decide (a < b)
          | 3 => decide (a ≤ b)
          | 4 => decide (a > b)
          | _ => decide (a ≥ b)).toNat }) ∧
  (∀ f : Fields, Computes (.isel f) f false fun _ =>
    { dst := .reg f.d (iwide (ityp f)), srcs := [(f.a, ity (ityp f)), (f.b, ity (ityp f))], preds := [f.c]
      legal := itypOk f && decide (f.mod.toNat < 16) && f.x == 0
      fn := fun xs ps => if Bool.xor (ps.getD 0 false) (mod43 f == 1) then src xs 0 else src xs 1 }) ∧
  (∀ f : Fields, Computes (.movi f) f false fun _ =>
    { dst := .reg f.d (iwide (ityp f)), srcs := [], legal := itypOk f && mod53zero f && f.x == 0
      fn := fun _ _ =>
        if ityp f = 1 ∨ ityp f = 3 then (f.imm27.setWidth (iwid (ityp f))).toNat
        else (f.imm27.signExtend (iwid (ityp f))).toNat }) ∧
  (∀ f : Fields, Computes (.movhi f) f false fun _ =>
    { dst := .reg f.d (iwide (ityp f)), srcs := [(f.a, ity (ityp f))]
      legal := itypOk f && mod53zero f && decide (f.x.toNat < 3) && (decide (f.x.toNat = 0) || iwide (ityp f))
        && !(decide (f.x.toNat = 2) && decide (2 ^ 14 ≤ f.imm18.toNat))
      fn := fun xs _ => ofBits (iwid (ityp f)) fun k =>
        if k < 14 + 18 * f.x.toNat then (src xs 0).testBit k else f.imm18.getLsbD (k - (14 + 18 * f.x.toNat)) }) ∧
  (∀ f : Fields, Computes (.plogt f) f true fun _ =>
    { dst := .pred f.d, srcs := [], preds := [f.a, f.b, f.c], legal := !f.mod.getLsbD 1 && !f.mod.getLsbD 2
      fn := fun _ ps =>
        let table := (f.mod.extractLsb' 3 3 ++ f.x ++ f.mod.extractLsb' 0 1 : BitVec 8)
        (table.getLsbD ((ps.getD 0 false).toNat + 2 * (ps.getD 1 false).toNat + 4 * (ps.getD 2 false).toNat)).toNat }) ∧
  (∀ f, Computes (.rng f) f false fun _ =>
    rrOp f [(f.a, ity (ityp f)), (f.b, ity (ityp f))] (mod53zero f && f.c == 0) (iwide (ityp f)) fun xs =>
      let gamma : BitVec 64 := 0x9E3779B97F4A7C15
      let z0 := BitVec.ofNat 64 (src xs 0) + (BitVec.ofNat 64 (src xs 1) + 1) * gamma
      let z1 := (z0 ^^^ (z0 >>> 30)) * 0xBF58476D1CE4E5B9
      let z2 := (z1 ^^^ (z1 >>> 27)) * 0x94D049BB133111EB
      (z2 ^^^ (z2 >>> 31)).toNat % 2 ^ iwid (ityp f))

/-! ## Predicates and lanes -/

/-- PMOV, READLANE, WRITELANE and PCOLL (12 R279, R298, R299): predicates to and from registers, one lane to and from the
scalar registers, and the votes of the active lanes. -/
def Obligations.PredicatesAndLanes : Prop :=
  let bit (b : Bool) : Nat := b.toNat
  let votes (f : Fields) (c : Iss) : Mask := active c f &&& c.g.predMask f.a.toNat
  (∀ f : Fields, Writes (.pmov f) f (fun c => pmovLegal c f && decide (f.x = 0)) (fun _ _ _ => false)
    (fun _ c => toVec f.d false (active c f) fun l => bit ((c.g.predMask f.a.toNat).getLsbD l)) noS noP) ∧
  (∀ f : Fields, Writes (.pmov f) f (fun c => pmovLegal c f && decide (f.x = 1)) (fun _ c l => srcBad c false (opnd f.a) l)
    noV noS fun s c => toPred f.d (active c f) fun l => srcVal s c .w32 (opnd f.a) l != 0) ∧
  (∀ f : Fields, Writes (.pmov f) f (fun c => pmovLegal c f && decide (f.x = 2)) (fun _ _ _ => false)
    noV (fun _ c => toSca f.d true (votes f c).toNat) noP) ∧
  (∀ f : Fields, Writes (.pmov f) f (fun c => pmovLegal c f && decide (f.x = 3)) (fun _ c l => srcBad c true (opnd f.a) l)
    noV noS fun s c => toPred f.d (active c f) fun l => (srcVal s c .q64 (opnd f.a) 0).testBit l) ∧
  (∀ f : Fields, Writes (.readlane f) f
    (fun c => lanePick c f && (opnd f.d).isScalarReg && dstLegal c (iwide (ityp f)) (opnd f.d)
      && decide (f.a.toNat < 0x100) && srcLegal c (iwide (ityp f)) (opnd f.a))
    (fun s c _ => srcBad c (iwide (ityp f)) (opnd f.b) 0
      || srcBad c (iwide (ityp f)) (opnd f.a) (srcVal s c (ity (ityp f)) (opnd f.b) 0 % 64))
    noV (fun s c => toSca f.d (iwide (ityp f))
      (srcVal s c (ity (ityp f)) (opnd f.a) (srcVal s c (ity (ityp f)) (opnd f.b) 0 % 64))) noP) ∧
  (∀ f : Fields, Writes (.writelane f) f
    (fun c => lanePick c f && decide (f.d.toNat < 0x100) && dstLegal c (iwide (ityp f)) (opnd f.d)
      && (opnd f.a).isUniform && srcLegal c (iwide (ityp f)) (opnd f.a))
    (fun _ c _ => srcBad c (iwide (ityp f)) (opnd f.b) 0 || srcBad c (iwide (ityp f)) (opnd f.a) 0)
    (fun s c => toVec f.d (iwide (ityp f)) (active c f &&& laneBit (srcVal s c (ity (ityp f)) (opnd f.b) 0 % 64)) fun l =>
      srcVal s c (ity (ityp f)) (opnd f.a) l) noS noP) ∧
  (∀ f : Fields, Writes (.pcoll f) f (fun _ => pcollLegal f && decide (f.x = 0)) (fun _ _ _ => false)
    noV (fun _ c => toSca f.d true (votes f c).toNat) noP) ∧
  (∀ f : Fields, Writes (.pcoll f) f (fun _ => pcollLegal f && decide (f.x = 4)) (fun _ _ _ => false)
    noV (fun _ c => toSca f.d false ((lanesOf (active c f)).filter (c.g.predMask f.a.toNat).getLsbD).length) noP) ∧
  (∀ f : Fields, Writes (.pcoll f) f (fun _ => pcollLegal f && decide (f.x ≠ 0) && decide (f.x ≠ 4)) (fun _ _ _ => false)
    noV noS fun _ c => toPred f.d (active c f) fun _ =>
      let ones := (lanesOf (active c f)).map (c.g.predMask f.a.toNat).getLsbD
      if f.x = 1 then ones.any id else if f.x = 2 then ones.all id else ones.all id || ones.all not)

/-- LXCH, SCAN, REDUX, EQLN and DERIV (13 R318 to R323; 07 R171). -/
def Obligations.CrossLane : Prop :=
  (∀ f : Fields,
    let wide := f.mod.getLsbD 2
    let ty : Ty := if wide then .q64 else .w32
    let from_ (s : State) (c : Iss) (l : Nat) : Nat :=
      let w := 2 ^ (f.mod.toNat / 8)
      let b := srcVal s c .w32 (opnd f.b) l
      let base := l - l % w
      let r := l - base
      match f.x.toNat with
      | 0 => base + b % w
      | 1 => if b ≤ r then l - b else l
      | 2 => if r + b < w then l + b else l
      | 3 => base + (r ^^^ (b % w))
      | _ => base + (r + b) % w
    Writes (.lxch f) f (fun c => lxchLegal c f)
      (fun s c l => srcBad c false (opnd f.b) l || srcBad c wide (opnd f.a) (from_ s c l))
      (fun s c => toVec f.d wide (active c f) fun l => srcVal s c ty (opnd f.a) (from_ s c l)) noS noP) ∧
  (∀ f : Fields, Writes (.scan f) f (fun c => redLegal c f && vdstLegal c (redOperand f).wide (opnd f.d))
    (fun _ c l => srcBad c (redOperand f).wide (opnd f.a) l)
    (fun s c => toVec f.d (redOperand f).wide (active c f) fun l =>
      let upTo := (lanesOf (active c f)).filter fun k => if f.x.getLsbD 3 then k < l else k ≤ l
      upTo.foldl (fun acc k => redStep f acc (srcVal s c (redOperand f) (opnd f.a) k)) (redIdentity f)) noS noP) ∧
  (∀ f : Fields,
    let total (s : State) (c : Iss) : Nat :=
      let v (l : Nat) : Nat :=
        if (active c f).getLsbD l then srcVal s c (redOperand f) (opnd f.a) l else redIdentity f
      let level (u : Nat → Nat) (k : Nat) : Nat := redStep f (u (2 * k)) (u (2 * k + 1))
      level (level (level (level (level (level v))))) 0
    Writes (.redux f) f
      (fun c => redLegal c f && decide (f.x.toNat < 8) && dstLegal c (redOperand f).wide (opnd f.d))
      (fun _ c l => srcBad c (redOperand f).wide (opnd f.a) l)
      (fun s c => toVec f.d (redOperand f).wide (active c f) fun _ => total s c)
      (fun s c => toSca f.d (redOperand f).wide (total s c)) noP) ∧
  (∀ f : Fields,
    let wide := f.mod.getLsbD 2
    let v (s : State) (c : Iss) (l : Nat) : Nat := srcVal s c (if wide then .q64 else .w32) (opnd f.a) l
    Writes (.eqln f) f (fun c => eqlnLegal c f) (fun _ c l => srcBad c wide (opnd f.a) l)
      (fun s c => match f.x.toNat with
        | 0 => toVec f.d true (active c f) fun l =>
          ofBits 64 fun k => (active c f).getLsbD k && v s c k == v s c l
        | 1 => toVec f.d false (active c f) fun l =>
          ((List.range 64).find? fun k => (active c f).getLsbD k && v s c k == v s c l).getD 0
        | _ => noVec) noS
      (fun s c => if f.x.toNat = 2 then toPred f.d (active c f) fun _ =>
          (lanesOf (active c f)).all fun k => (lanesOf (active c f)).all fun l => v s c k == v s c l
        else noPred)) ∧
  (∀ f : Fields,
    let pair (l : Nat) : Nat × Nat :=
      match f.x.toNat with
      | 0 => (l ||| 1, l - l % 2)
      | 1 => (l ||| 2, (l ||| 2) - 2)
      | 2 => (l - l % 4 + 1, l - l % 4)
      | _ => (l - l % 4 + 2, l - l % 4)
    Writes (.deriv f) f (fun c => derivLegal c f)
      (fun _ c l => srcBad c false (opnd f.a) (pair l).1 || srcBad c false (opnd f.a) (pair l).2)
      (fun s c => toVec f.d false (active c f) fun l =>
        let v (k : Nat) : Nat := srcVal s c (fty (ftyp f)) (opnd f.a) k
        perElem (ftyp f) [v (pair l).1, v (pair l).2] fun es =>
          let x (k : Nat) : XReal := decodeFmt (fcode (ftyp f)) (flushIf (ftzOn c) (fcode (ftyp f)) (src es k))
          fltResult (fcode (ftyp f)) ((x 0).sub (x 1) (frm f == 3)) (frm f) (ftzOn c) false) noS noP)

/-! ## Floating point -/

/-- FADD, FMUL, FFMA, FMIN, FMAX, FRND and the opcodes of R309 (13 R304 to R311): each element of the prepared sources is
read as an exact value, and the exact result is rounded once under the instruction's mode, with SAT and FTZ32. -/
def Obligations.FloatArithmetic : Prop :=
  let one (f : Fields) : Bool := oneOperand f
  (∀ f, Computes (.fadd f) f true fun c => exactOp c f 2 (!fnegC f) fun xs => (xAt xs 0).add (xAt xs 1) (frm f == 3)) ∧
  (∀ f, Computes (.fmul f) f true fun c => exactOp c f 2 (!fnegC f) fun xs => (xAt xs 0).mul (xAt xs 1)) ∧
  (∀ f, Computes (.ffma f) f true fun c =>
    exactOp c f 3 true fun xs => ((xAt xs 0).mul (xAt xs 1)).add (xAt xs 2) (frm f == 3)) ∧
  (∀ f, Computes (.fmin f) f true fun c => fltOp c f 2 (!fnegC f && frm f == 0) fun code _ es =>
    satBits code (fsat f) (minMaxBits code false (src es 0) (src es 1))) ∧
  (∀ f, Computes (.fmax f) f true fun c => fltOp c f 2 (!fnegC f && frm f == 0) fun code _ es =>
    satBits code (fsat f) (minMaxBits code true (src es 0) (src es 1))) ∧
  (∀ f, Computes (.frcp f) f true fun c => exactOp c f 1 (typ3 f && one f) fun xs => divX (.ofNat 1) (xAt xs 0)) ∧
  (∀ f, Computes (.frsq f) f true fun c => exactOp c f 1 (typ3 f && one f) fun xs => rsqX (xAt xs 0)) ∧
  (∀ f, Computes (.fsqrt f) f true fun c => exactOp c f 1 (typ3 f && one f) fun xs => sqrtX (xAt xs 0)) ∧
  (∀ f, Computes (.fdiv f) f true fun c => exactOp c f 2 (typ3 f && !fnegC f) fun xs => divX (xAt xs 0) (xAt xs 1)) ∧
  (∀ f, Computes (.fexp2 f) f true fun c => exactOp c f 1 (typ2 f && one f) fun xs => exp2Of (xAt xs 0)) ∧
  (∀ f, Computes (.flog2 f) f true fun c => exactOp c f 1 (typ2 f && one f) fun xs => log2Of (xAt xs 0)) ∧
  (∀ f, Computes (.fsin f) f true fun c => exactOp c f 1 (typ2 f && !fabs f 1 && !fnegC f) fun xs =>
    sinOf (f.mod.getLsbD 0) (xAt xs 0)) ∧
  (∀ f, Computes (.ftanh f) f true fun c => exactOp c f 1 (typ2 f && one f) fun xs => tanhOf (xAt xs 0)) ∧
  (∀ f, Computes (.frnd f) f true fun c => exactOp c f 1 (one f) fun xs => integralX (frm f) (xAt xs 0))

/-- FCMP and FCLASS (13 R307, R308): the relation of two prepared values, and the class of the raw bits. -/
def Obligations.FloatCompareClassify : Prop :=
  (∀ f : Fields, Computes (.fcmp f) f true fun c =>
    { dst := .pred f.d, srcs := [(f.a, fty (ftyp f)), (f.b, fty (ftyp f))]
      legal := decide (ftyp f < 2) && frm f == 0 && decide (f.x.toNat % 4 = 0) && decide (f.c.toNat < 15) && f.c != 7
      fn := fun xs _ =>
        let v (k : Nat) : XReal := decodeFmt (fcode (ftyp f)) (fltIn f (fcode (ftyp f)) (ftzOn c) k (src xs k))
        let r := (v 0).cmp (v 1)
        let unordered := (v 0).isNaN || (v 1).isNaN
        let ordered := match f.c.toNat % 8 with
          | 0 => r == 0
          | 1 => r != 0
          | 2 => decide (r < 0)
          | 3 => decide (r ≤ 0)
          | 4 => decide (r > 0)
          | 5 => decide (r ≥ 0)
          | _ => f.c.toNat < 8
        (if f.c.toNat < 8 then !unordered && ordered else unordered || ordered).toNat }) ∧
  (∀ f : Fields, Computes (.fclass f) f true fun _ =>
    { dst := .pred f.d, srcs := [(f.a, fty (ftyp f))]
      legal := decide (ftyp f < 2) && decide (f.mod.toNat % 16 = 0) && f.x == 0 && f.b == zeroCode
      fn := fun xs _ =>
        let e := if ftyp f = 0 then 8 else 11
        let t := if ftyp f = 0 then 23 else 52
        let x := src xs 0
        let neg := x.testBit (e + t)
        let ex := x / 2 ^ t % 2 ^ e
        let cls : Nat :=
          if ex = 2 ^ e - 1 then (if x % 2 ^ t ≠ 0 then 8 else if neg then 0 else 7)
          else if ex ≠ 0 then (if neg then 1 else 6)
          else if x % 2 ^ t ≠ 0 then (if neg then 2 else 5)
          else if neg then 3 else 4
        (f.c.getLsbD cls).toNat })

/-- IDP4, FDP2, CVTSR and UNPK (13 R314, R317, R324). -/
def Obligations.DotProductsAndUnpacking : Prop :=
  let signedByte (sg : Bool) (x j : Nat) : Int :=
    if sg then (BitVec.ofNat 8 (byteAt x j)).toInt else (byteAt x j : Int)
  (∀ f : Fields, Computes (.idp4 f) f true fun c =>
    { dst := .reg f.d false, srcs := [(f.a, .w32), (f.b, .w32), (f.c, .w32)]
      legal := decide (f.mod.toNat < 4) && f.x == 0 && vdstLegal c false (opnd f.d)
      fn := fun xs _ =>
        let p (j : Nat) : Int :=
          signedByte (f.mod.getLsbD 1) (src xs 0) j * signedByte (f.mod.getLsbD 0) (src xs 1) j
        (BitVec.ofInt 32 (src xs 2 + p 0 + p 1 + p 2 + p 3)).toNat }) ∧
  (∀ f : Fields, Computes (.fdp2 f) f true fun c =>
    { dst := .reg f.d false, srcs := [(f.a, fty (ftyp f)), (f.b, fty (ftyp f)), (f.c, .f32)]
      legal := decide (2 ≤ ftyp f) && vdstLegal c false (opnd f.d)
      fn := fun xs _ =>
        let x (k h : Nat) : XReal :=
          decodeFmt (fcode (ftyp f)) (fltIn f (fcode (ftyp f)) false k (src xs k / 2 ^ (16 * h) % 2 ^ 16))
        let z := decodeFmt 1 (flushIf (ftzOn c) 1 (signOps 32 false (fnegC f) (src xs 2)))
        let lo := (x 0 0).mul (x 1 0)
        let hi := (x 0 1).mul (x 1 1)
        fltResult 1 ((z.add lo (frm f == 3)).add hi (frm f == 3)) (frm f) (ftzOn c) (fsat f) }) ∧
  (∀ f : Fields, Computes (.cvtsr f) f true fun c =>
    { dst := .reg f.d false, srcs := [(f.a, .f32), (f.b, .w32)]
      legal := (f.mod == 3 || f.mod == 4 || fmtNarrowFloat f.mod.toNat) && f.c == zeroCode && f.x == 0
        && vdstLegal c false (opnd f.d)
      fn := fun xs _ =>
        roundFmt f.mod.toNat (decodeFmt 1 (flushIf (ftzOn c) 1 (src xs 0))) (.sr (src xs 1))
          (decide (4 < f.mod.toNat) && satOn c) }) ∧
  (∀ f : Fields, Computes (.unpk f) f true fun c =>
    { dst := .reg f.d false, srcs := [(f.a, .w32)]
      legal := packWidth f.mod.toNat != 0 && decide (f.x.toNat < 8) && decide (f.x.toNat * packWidth f.mod.toNat < 32)
        && f.b == zeroCode && f.c == zeroCode && vdstLegal c false (opnd f.d)
      fn := fun xs _ =>
        let e := src xs 0 / 2 ^ (packWidth f.mod.toNat * f.x.toNat) % 2 ^ packWidth f.mod.toNat
        if f.mod = 0x0B then ((BitVec.ofNat 8 e).signExtend 32).toNat
        else if f.mod = 0x0D then ((BitVec.ofNat 4 e).signExtend 32).toNat
        else if f.mod = 0x0C ∨ f.mod = 0x0E then e
        else flushIf (ftzOn c) 1 (roundFmt 1 (decodeFmt f.mod.toNat (if fmt6bit f.mod.toNat then e % 64 else e)) .rne) })

/-- CVT, QNT, DQNT and PACK (13 R313, R315, R316): every converted element is the value rounded once into its format, the
random bits of stochastic rounding being those of its lane, source value and position. -/
def Obligations.Conversions : Prop :=
  (∀ f : Fields,
    let ty := cvtTy f.c.toNat (f.x.getLsbD 1)
    Writes (.cvt f) f (fun c => cvtLegal c f && srcLegal c ty.wide (opnd f.a)) (fun _ c l => srcBad c ty.wide (opnd f.a) l)
      (fun s c => toVec f.d (cvtWide f.mod.toNat (f.x.getLsbD 1)) (active c f) fun l =>
        let a := srcVal s c ty (opnd f.a) l
        let v := if f.c = 0x0F then regInt (f.x.getLsbD 1) (f.x.getLsbD 0) a
          else decodeFmt f.c.toNat (flushIf (ftzOn c) f.c.toNat a)
        let w := if f.x.getLsbD 1 then 64 else 32
        let rm := ieeeMode (f.x.toNat / 4)
        if f.mod = 0x0F then
          (BitVec.ofInt w (if f.x.getLsbD 0 then roundInt v rm 0 (2 ^ w - 1)
            else roundInt v rm (-2 ^ (w - 1)) (2 ^ (w - 1) - 1))).toNat
        else if f.mod.toNat ≤ 4 then flushIf (ftzOn c) f.mod.toNat (roundFmt f.mod.toNat v rm)
        else narrowFmt s c f.mod.toNat v l a 0) noS noP) ∧
  (∀ f : Fields,
    let k (c : Iss) : Nat := quantCount (afmt c)
    let n : Nat := f.a.toNat
    Writes (.qnt f) f
      (fun c => decide (f.mod.toNat ≤ 1) && f.x == 0 && quantFmt (afmt c) && decide (n < 0x100) && blockLegal c n (k c)
        && srcLegal c false (opnd f.b) && (if f.mod = 1 then srcLegal c false (opnd f.c) else f.c == 0)
        && vdstLegal c false (opnd f.d))
      (fun _ c l => (List.range (k c)).any (fun j => c.g.badV (n + j) l) || srcBad c false (opnd f.b) l
        || (f.mod == 1 && srcBad c false (opnd f.c) l))
      (fun s c => toVec f.d false (active c f) fun l =>
        let scale := decodeFmt 1 (flushIf (ftzOn c) 1 (srcVal s c .f32 (opnd f.b) l))
        let el (j : Nat) : Nat :=
          let a := c.g.getV (n + j) l
          let x := (decodeFmt 1 (flushIf (ftzOn c) 1 a)).mul scale
          if f.mod = 1 then
            roundNarrow (afmt c) x (.sr (rng64 (srcVal s c .w32 (opnd f.c) l) j % 2 ^ 32)) (satOn c)
          else narrowFmt s c (afmt c) x l a j
        ((List.range (k c)).map fun j => el j * 2 ^ (quantStep (afmt c) * j)).foldl (· + ·) 0) noS noP) ∧
  (∀ f : Fields,
    let k (c : Iss) : Nat := quantCount (afmt c)
    let n : Nat := f.d.toNat
    Writes (.dqnt f) f
      (fun c => f.mod == 0 && f.x == 0 && f.c == 0 && quantFmt (afmt c) && decide (n < 0x100) && blockLegal c n (k c)
        && srcLegal c false (opnd f.a) && srcLegal c false (opnd f.b))
      (fun _ c l => srcBad c false (opnd f.a) l || srcBad c false (opnd f.b) l)
      (fun s c r l =>
        if n ≤ r ∧ r < n + k c ∧ (active c f).getLsbD l = true then
          let e := packedElem (afmt c) (srcVal s c .w32 (opnd f.a) l) (r - n)
          let scale := decodeFmt 1 (flushIf (ftzOn c) 1 (srcVal s c .f32 (opnd f.b) l))
          some (flushIf (ftzOn c) 1 (roundFmt 1 (e.mul scale) .rne))
        else none) noS noP) ∧
  (∀ f : Fields, Writes (.pack f) f
    (fun c => packLegal f && srcLegal c false (opnd f.a) && srcLegal c false (opnd f.b) && vdstLegal c false (opnd f.d))
    (fun _ c l => srcBad c false (opnd f.a) l || srcBad c false (opnd f.b) l || srcBad c false (opnd f.d) l)
    (fun s c => toVec f.d false (active c f) fun l =>
      let w := packWidth f.mod.toNat
      let j := packPos f
      let el (code : BitVec 9) (j : Nat) : Nat := packElem s c f l (srcVal s c .f32 (opnd code) l) j
      ofBits 32 fun k =>
        if k / w = j then (el f.a j).testBit (k % w)
        else if k / w = j + 1 then (el f.b (j + 1)).testBit (k % w)
        else (srcVal s c .w32 (opnd f.d) l).testBit k) noS noP)

/-! ## Control -/

/-- BRA, BANY, BALL and BNONE (12 R272): the whole path continues at the target when the condition on the guard's lanes
holds, and else at the next clause; BRA without its path-wide guard is illegal. -/
def Obligations.Branches : Prop :=
  let go (taken : Fields → Iss → Bool) (i : Fields → Instr) : Prop :=
    ∀ f s c, issuer s = some c → f.guardLegal = true → branchFields f = true →
      Goes (i f) s c (atClause c (if taken f c then wordTarget c.p f.imm27 else nextClause c.p))
  (∀ f s c, issuer s = some c → branchFields f = true →
    (f.guardPathWide = true → Goes (.bra f) s c (atClause c (wordTarget c.p f.imm27))) ∧
    (f.guardPathWide = false → exec (.bra f) s = .next (illegalOperand s c))) ∧
  go (fun f c => active c f != 0) .bany ∧
  go (fun f c => active c f == c.p.mask) .ball ∧
  go (fun f c => active c f == 0) .bnone

/-- BDIV and JOIN (08 R181, R182; 12 R273): a JOIN record is pushed, the lanes that do not take the branch stay, and those
that do take a free slot or are parked; a path that joins waits in the record until all its lanes have come. Which slot the
joined path continues at, behind a JOIN of an escaped slot, is the model's choice (log 26). -/
def Obligations.DivergeAndJoin : Prop :=
  (∀ f s c, issuer s = some c → f.guardLegal = true → branchFields f = true → c.g.stack.length + 2 ≤ 504 →
    let taken := active c f
    let rest := c.p.mask &&& ~~~taken
    let g := countRetired (pushRec c.g
      { kind := .join, addr := wordTarget c.p f.join14, mask := c.p.mask, aux := 0, fmt := c.p.fmt, handle := c.p.handle }) true
    let stay := splitPath c.p rest (nextClause c.p)
    let go := splitPath c.p taken (wordTarget c.p f.target13)
    Goes (.bdiv f) s c (fillSlots
      (if taken = 0 then g.setLive c.live (if rest = 0 then none else some stay)
        else if rest = 0 then g.setLive c.live (some go)
        else if (c.g.live (1 - c.live)).isNone then
          (g.setLive c.live (some stay)).setLive (1 - c.live) (some { go with count := 0, rotate := false })
        else pushRec (g.setLive c.live (some stay)) (parkedRec go)))) ∧
  (∀ f s c r, issuer s = some c → f.guardPathWide = true → noFields f = true → topRec c.g .join c.p.mask = some r →
    c.p.slot = 0 → r.addr = c.p.addr →
    let g := (countRetired c.g (atClauseEnd c.p)).setLive c.live none
    let come := r.aux ||| c.p.mask
    let merged := if atClauseEnd c.p then freshPath (nextClause c.p) 0 r.mask r.fmt r.handle
      else freshPath c.p.addr (slotWidth c.p) r.mask r.fmt r.handle
    Goes (.join f) s c (fillSlots
      (if come = r.mask then
        { g.setLive c.live (some merged) with stack := replaceTop .join c.p.mask none c.g.stack }
        else { g with stack := replaceTop .join c.p.mask (some { r with aux := come }) c.g.stack })))

/-- JMPI (08 R189; 12 R274): with one target a branch of the whole path; with several, the lanes of the lowest stay and the
others are parked, the lower targets first; the order in which parked records then fill free slots is the model's choice
(log 27). -/
def Obligations.IndirectJump : Prop :=
  ∀ f s c ts, issuer s = some c → f.guardPathWide = true → indirectLegal c f = true →
    (∀ l ∈ lanesOf c.p.mask, srcBad c true (opnd f.a) l = false) →
    let t (l : Nat) : Nat := srcVal s c .q64 (opnd f.a) l
    let lanes (x : Nat) : Mask := c.p.mask &&& maskOf ((lanesOf c.p.mask).filter fun l => t l == x)
    (∀ l ∈ lanesOf c.p.mask, t l % 4 = 0 ∧ t l ∈ ts) → (∀ x ∈ ts, ∃ l ∈ lanesOf c.p.mask, t l = x) →
    ts.Pairwise (· < ·) →
    (∀ x, ts = [x] → Goes (.jmpi f) s c (atClause c x)) ∧
    (∀ lo y more, ts = lo :: y :: more → c.g.stack.length + (more.length + 1) ≤ 504 →
      let g := (countRetired c.g true).setLive c.live (some (splitPath c.p (lanes lo) lo))
      Goes (.jmpi f) s c (fillSlots
        { g with stack := ((y :: more).map fun x =>
            parkedRec (freshPath x 0 (lanes x) c.p.fmt c.p.handle)).reverse ++ c.g.stack }))

/-- CALL, CALLI, RET and CALLD (08 R187, R188; 12 R275, R277): the return entry and the branch; with several targets the SERIAL record
and the call of the lowest; and the return of a path through the topmost entry that holds its lanes; and
the call through a linkage entry in memory, which names the clause and the handle. -/
def Obligations.CallsAndReturns : Prop :=
  (∀ f s c, issuer s = some c → f.guardPathWide = true → branchFields f = true → c.g.rets.length < 256 →
    Goes (.call f) s c { atClause c (wordTarget c.p f.imm27) with rets := callEntry c.p false c.p.mask :: c.g.rets }) ∧
  (∀ f s c ts, issuer s = some c → f.guardPathWide = true → indirectLegal c f = true →
    (∀ l ∈ lanesOf c.p.mask, srcBad c true (opnd f.a) l = false) → c.g.rets.length < 256 →
    let t (l : Nat) : Nat := srcVal s c .q64 (opnd f.a) l
    let lanes (x : Nat) : Mask := c.p.mask &&& maskOf ((lanesOf c.p.mask).filter fun l => t l == x)
    (∀ l ∈ lanesOf c.p.mask, t l % 4 = 0 ∧ t l ∈ ts) → (∀ x ∈ ts, ∃ l ∈ lanesOf c.p.mask, t l = x) →
    ts.Pairwise (· < ·) →
    (∀ x, ts = [x] → serialOf c = none →
      Goes (.calli f) s c { atClause c x with rets := callEntry c.p false c.p.mask :: c.g.rets }) ∧
    (∀ lo y more, ts = lo :: y :: more → serialOf c = none → c.g.stack.length + 1 ≤ 504 →
      let r : Rec := { kind := .serial, addr := c.p.addr, slot := c.p.slot, mask := c.p.mask, aux := lanes lo
                       fmt := c.p.fmt, handle := c.p.handle, run := lanes lo, next := nextClause c.p }
      Goes (.calli f) s c
        { (countRetired c.g true).setLive c.live (some (splitPath c.p (lanes lo) lo)) with
          stack := r :: c.g.stack, rets := callEntry c.p true (lanes lo) :: c.g.rets }) ∧
    (∀ lo more r, ts = lo :: more → serialOf c = some r →
      Goes (.calli f) s c
        { (countRetired c.g true).setLive c.live (some (splitPath c.p (lanes lo) lo)) with
          stack := replaceTop .serial c.p.mask (some { r with aux := r.aux ||| lanes lo, run := lanes lo }) c.g.stack
          rets := callEntry c.p true (lanes lo) :: c.g.rets })) ∧
  (∀ f s c e, issuer s = some c → f.guardPathWide = true → noFields f = true →
    c.g.rets.find? (fun e => e.mask &&& c.p.mask == c.p.mask) = some e →
    let left := e.mask &&& ~~~c.p.mask
    let rets := replaceRet c.p.mask (if left = 0 then none else some { e with mask := left }) c.g.rets
    (e.ser = false → Goes (.ret f) s c
      { (countRetired c.g true).setLive c.live (some { endClause c.p e.addr with handle := e.handle }) with rets := rets }) ∧
    (e.ser = true → Goes (.ret f) s c (serialReturn { countRetired c.g true with rets := rets } c.live c.p))) ∧
  (∀ f s c r l, issuer s = some c → f.guardPathWide = true → calldLegal c f = true →
    memBad c f (lowLane c.p.mask) = false → Names c f false (r.typed || recForbids r 3) r →
    Reaches s c .read (some .rd) 8 (lanePlaces s c r 8 (opnd f.a) f.imm9 [lowLane c.p.mask]) [l] →
    let ags := threadsOf c.gid c.p.mask
    atomAhead s ags l = false → c.g.rets.length < 256 →
    let b := readBytes s ags l.cmp l.kind l.loc 8
    let e := leNat b.1.bytes
    b.1.bad = false → e / 2 ^ 48 % 2 ^ 16 ≠ 0 → e % 4 = 0 →
    exec (.calld f) s = .next (modGroup (acquireAll b.2 ags f.mod.toNat b.1.rels) c.gid fun _ =>
      { (countRetired c.g true).setLive c.live
          (some { endClause c.p (e % 2 ^ 48) with handle := e / 2 ^ 48 % 2 ^ 16 }) with
        rets := callEntry c.p false c.p.mask :: c.g.rets }))

/-- NOP, FFENCE, YIELD, SETFMT, GETFMT, DICT and EXIT (08 R184; 06 R144; 12 R270, R271, R278, R280 to R283): no effect;
the group's later fetches return the stores that the ICINVs before the fence name, or later ones; the mark for rotation; FMT
from its operand and immediate; FMT into a register; the handle; the active lanes leave the group, the path's other lanes are
behind the instruction. -/
def Obligations.PathSettingsAndExit : Prop :=
  let set (c : Iss) (p : Path) : Group := countRetired (c.g.setLive c.live (some (advance p))) (atClauseEnd c.p)
  (∀ f s c, issuer s = some c → f.guardLegal = true → noFields f = true → Goes (.nop f) s c (behind c)) ∧
  (∀ f s c, issuer s = some c → f.guardPathWide = true → f.mod = 0 → f.x.toNat ≤ 2 → allZero [f.d, f.a, f.b, f.c] = true →
    let named := (icinvsAt s c.core).filter fun v => (releasedBy s (threadsOf c.gid c.p.mask)).contains v.id
    Goes (.ffence f) s c (past c (if f.x = 2 then c.g
      else { c.g with code := c.g.code ++ named.filter fun v => !c.g.code.contains v }))) ∧
  (∀ f s c, issuer s = some c → f.guardPathWide = true → noFields f = true →
    Goes (.yield f) s c (set c { c.p with yielded := true })) ∧
  (∀ f s c, issuer s = some c → f.guardPathWide = true → setfmtLegal f = true → srcBad c false (opnd f.a) 0 = false →
    let v := srcVal s c .w32 (opnd f.a) 0 ||| (f.imm18.toNat <<< if f.x = 0 then 0 else 14)
    fmtRejected v = false → Goes (.setfmt f) s c (set c { c.p with fmt := BitVec.ofNat 32 v })) ∧
  (∀ f : Fields, Writes (.getfmt f) f
    (fun c => f.mod == 0 && f.x == 0 && allZero [f.a, f.b, f.c] && dstLegal c false (opnd f.d)) (fun _ _ _ => false)
    (fun _ c => toVec f.d false (active c f) fun _ => c.p.fmt.toNat) (fun _ c => toSca f.d false c.p.fmt.toNat) noP) ∧
  (∀ f s c, issuer s = some c → f.guardPathWide = true → f.mod = 0 → f.x = 0 → allZero [f.d, f.b, f.c] = true →
    (opnd f.a).isUniform = true → srcLegal c false (opnd f.a) = true → srcBad c false (opnd f.a) 0 = false →
    srcVal s c .w32 (opnd f.a) 0 < 2 ^ 16 →
    Goes (.dict f) s c (set c { c.p with handle := srcVal s c .w32 (opnd f.a) 0 })) ∧
  (∀ f s c, issuer s = some c → f.guardLegal = true → noFields f = true →
    (active c f = 0 → Goes (.exit f) s c (behind c)) ∧
    (active c f ≠ 0 → ∃ g', Goes (.exit f) s c g' ∧ g' = removeLanes (behind c) (active c f) ∧
      g'.vregs = c.g.vregs ∧ g'.sregs = c.g.sregs ∧ g'.preds = c.g.preds ∧ g'.flags = c.g.flags))

/-! ## Channels -/

/-- MOV without a channel, MOV into and from a channel, and QMAP (04 R91 to R94; 09 R208 to R210; 12 R296; 14 R342): the
elements of the active lanes go to the back of the queue as whole buffers of 64 bytes, the rest of each zero, or come from its
front; an operand that cannot move waits, or with .nb sets pq. No buffer's bytes depend on which freed buffer the push takes,
the model's choice (log 108). -/
def Obligations.MoveAndChannels : Prop :=
  let bytesOf (f : Fields) : Nat := if iwide (ityp f) then 8 else 4
  (∀ f : Fields, Runs (.mov f) f false fun _ =>
    { dst := .reg f.d (iwide (ityp f)), srcs := [(f.a, ity (ityp f))], legal := movLegal f, fn := fun xs _ => src xs 0 }) ∧
  (∀ f s c n nb q, issuer s = some c → opnd f.d = .ch n nb → f.guardLegal = true → movLegal f = true →
    srcLegal c (iwide (ityp f)) (opnd f.a) = true → active c f ≠ 0 → boundQueue c.t n true = some q →
    let lanes := if (opnd f.a).isVec then lanesOf (active c f) else [lowLane (active c f)]
    (∀ l ∈ lanes, srcBad c (iwide (ityp f)) (opnd f.a) l = false) →
    let bytes := lanes.flatMap fun l => leBytes (bytesOf f) (srcVal s c (ity (ityp f)) (opnd f.a) l)
    let bufs := cutBufs ((bytes.length + 63) / 64) bytes
    (pushFits s (clusterOf c.core) q bufs.length = true → exec (.mov f) s = .next
      (modGroup (pushBufs s c (active c f) q bufs) c.gid fun _ => past c (if nb then c.g.setPred pq (active c f) 0 else c.g))) ∧
    (pushFits s (clusterOf c.core) q bufs.length = false →
      (nb = true → Goes (.mov f) s c (past c (c.g.setPred pq (active c f) (active c f)))) ∧
      (nb = false → Goes (.mov f) s c
        (c.g.setLive c.live (some { c.p with wait := .channel, since := s.clk }))))) ∧
  (∀ f s c n nb q, issuer s = some c → opnd f.a = .ch n nb → f.guardLegal = true → movLegal f = true →
    dstLegal c (iwide (ityp f)) (opnd f.d) = true → active c f ≠ 0 → boundQueue c.t n false = some q →
    let lanes := if (opnd f.d).isVec then lanesOf (active c f) else [lowLane (active c f)]
    let k := (lanes.length * bytesOf f + 63) / 64
    let bufs := (poolQueue s (clusterOf c.core) q).bufs
    (k ≤ bufs.length → exec (.mov f) s = .next
      (modGroup (popBufs s c (active c f) q k).2 c.gid fun _ =>
        past c (let g := movPopWrite (iwide (ityp f)) (opnd f.d).isVec (opnd f.d) (bufs.take k) lanes c.g
          if nb then g.setPred pq (active c f) 0 else g))) ∧
    (bufs.length < k →
      (nb = true → Goes (.mov f) s c (past c (c.g.setPred pq (active c f) (active c f)))) ∧
      (nb = false → Goes (.mov f) s c
        (c.g.setLive c.live (some { c.p with wait := .channel, since := s.clk }))))) ∧
  (∀ (s : State) (c : Iss) (act : Mask) (q n : Nat) (bufs : List QBuf),
    let k := clusterOf c.core
    (∀ b ∈ bufs, b.bytes.length = 64) → (∀ b ∈ (getCluster s k).freed, b.bytes.length = 64) →
    (poolQueue (pushBufs s c act q bufs) k q).bufs = (poolQueue s k q).bufs ++ bufs.map (fun b =>
      { b with rels := releaseOfAll s (threadsOf c.gid act) 3 }) ∧
    (poolQueue (popBufs s c act q n).2 k q).bufs = (poolQueue s k q).bufs.drop n) ∧
  (∀ k bs, ∀ b ∈ cutBufs k bs, b.bytes.length = 64) ∧
  (∀ f : Fields, Writes (.qmap f) f
    (fun c => qmapLegal c f) (fun s c _ => srcBad c false (opnd f.a) 0
        || decide (15 < srcVal s c .w32 (opnd f.a) 0)
        || (decide (f.x ≠ 3) && (spFind c.t.channel (srcVal s c .w32 (opnd f.a) 0)).isNone)) noV
    (fun s c => toSca f.d false (match spFind c.t.channel (srcVal s c .w32 (opnd f.a) 0) with
      | none => 0
      | some ch => qmapValue s c f.x.toNat ch)) noP)

/-! ## Memory -/

/-- LD, LDA, ST and STL (14 R327 to R330; 05 R110, R113): each lane's element is read from where its place translates,
converted to register bits, and brought by an operation in flight; a lane without an access brings zero; the lanes' elements
are stored with the release edges of STL, which writes its core's dirty bytes to the L2; an instruction behind an atomic of its
thread on the same bytes waits, by the model's choice (log 13). -/
def Obligations.LoadsAndStores : Prop :=
  let loads (i : Fields → Instr) (legal : Iss → Fields → Bool) (signed : Fields → Bool) (acq : Fields → Option Nat) : Prop :=
    ∀ f s c r ls, issuer s = some c →
      Counts c f false (memLegal c f && legal c f && loadDst c f.x.toNat (opnd f.d) (opnd f.a)) →
      (∀ l ∈ accessLanes c f, memBad c f l = false) → Names c f false (recForbids r f.x.toNat) r →
      Reaches s c .read (some .rd) (r.size f.x.toNat)
        (lanePlaces s c r (r.size f.x.toNat) (opnd f.a) f.imm9 (accessLanes c f)) ls →
      let who := loaders c (opnd f.d) (active c f)
      let q := loadLanes (fun l raw => loadValue (ftzOn c) (signed f) r f.x.toNat l.hi raw) who (acq f) s ls
      ((∀ l ∈ ls, atomAhead s (who l.lane) l = false) → exec (i f) s = .next (inFlight q.2 c false
        ((accessLanes c f).flatMap fun l =>
          blockWrites (opnd f.d) (blockRegs f.x.toNat) l (loadedOf q.1 l).1 (loadedOf q.1 l).2))) ∧
      ((∃ l ∈ ls, atomAhead s (who l.lane) l = true) → exec (i f) s = .next s)
  let stores (i : Fields → Instr) (most : Nat) (rel : Fields → Option Nat) : Prop :=
    ∀ f s c r ls, issuer s = some c →
      Counts c f true (memLegal c f && decide (f.mod.toNat < most) && storeSrc c f.x.toNat (opnd f.d)) →
      (∀ l ∈ lanesOf (active c f), memBad c f l = false ∧ blockBad c.g (opnd f.d) (blockRegs f.x.toNat) l = false) →
      Names c f false (recForbids r f.x.toNat) r →
      Reaches s c .write (some .wr) (r.size f.x.toNat)
        (lanePlaces s c r (r.size f.x.toNat) (opnd f.a) f.imm9 (lanesOf (active c f))) ls →
      let s1 := match rel f with
        | some k => if ls = [] then s else publishAt s c.core k
        | none => s
      ((∀ l ∈ ls, atomAhead s [.thread c.gid l.lane] l = false) → exec (i f) s = .next
        (inFlight (storeLanes c.gid r.nibble (storedBits s c f r) (rel f) s1 ls) c true [])) ∧
      ((∃ l ∈ ls, atomAhead s [.thread c.gid l.lane] l = true) → exec (i f) s = .next s)
  loads .ld (fun _ f => decide (f.mod.toNat < 8) && decide (f.mod.toNat % 4 ≠ 3) && (!f.mod.getLsbD 2 || decide (f.x.toNat ≤ 1)))
    (fun f => f.mod.getLsbD 2) (fun _ => none) ∧
  loads .lda (fun _ f => decide (f.mod.toNat < 7)) (fun _ => false) (fun f => some f.mod.toNat) ∧
  stores .st 3 (fun _ => none) ∧ stores .stl 7 (fun f => some f.mod.toNat)

/-- Stores, reads and edges (04 R83; 05 R105, R110, R111, R114, R115, R118, R121, R123): an agent's read returns its own latest
store; a thread's store changes no byte but its own, and only in its core's L1; a KIND 3 store goes to memory; an acquire edge
brings what the release edges it observes have ordered; a read returns the last store to its bytes when that happens before it,
and no later read of the agent goes behind what a read has returned; of two ordinary FENCE.sc operations that share an instance
the second comes after all that the first has ordered. -/
def Obligations.StoresReadsAndEdges : Prop :=
  (∀ s ag cmp kind va loc bs rels, kind ≠ 3 →
    (readBytes (storeBytes s ag cmp kind va loc bs false rels) [ag] cmp kind loc bs.length).1.bytes = bs) ∧
  (∀ s ag core cmp kind va loc bs rels, kind ≠ 3 → ag.core s = some core →
    let t := storeBytes s ag cmp kind va loc bs false rels
    t.mem = s.mem ∧ t.poison = s.poison ∧ t.nibbles = s.nibbles ∧ t.parts = s.parts ∧ t.hist = s.hist ∧
    (∀ k, k ≠ core → getCore t k = getCore s k) ∧
    (∀ i < bs.length, coreByte t core cmp (loc + i) = bs.getD i 0) ∧
    (∀ a, ¬(loc ≤ a ∧ a < loc + bs.length) → coreByte t core cmp a = coreByte s core cmp a)) ∧
  (∀ s ag cmp va loc bs rels, cmp / 2 = 0 →
    let t := storeBytes s ag cmp 3 va loc bs false rels
    (readBytes t [ag] cmp 3 loc bs.length).1.bytes = bs ∧ t.cores = s.cores ∧ t.parts = s.parts ∧
    ∀ a, ¬(loc ≤ a ∧ a < loc + bs.length) → memByte t.mem a = memByte s.mem a) ∧
  (∀ s ag scope rels r, r ∈ rels → r.observed s (ag.place s) scope = true →
    ∀ id ∈ r.ids, id ∈ (getKnow (acquire s ag scope rels) ag).hb) ∧
  (∀ s ag cmp w h pre m at_ bs, spFind s.hist w = some h → h.base.length = 8 → h.msgs = pre ++ [m] →
    m.bytes = unitCells at_ bs → 0 < bs.length → at_ + bs.length ≤ 8 → m.id ∈ (getKnow s ag).hb → pendOf s ag w = [] →
    h.after h.msgs = l2Word s cmp w → (readUnit s [ag] cmp (8 * w + at_) bs.length).1.bytes = bs) ∧
  (∀ s ag ms e, e ∈ ms → e.2 ≠ 0 → (getKnow (noteRead s ag ms) ag).mustSee e.2 e.1 = true) ∧
  (∀ s a b j k, let t := scStep s a j
    (⟨a.place s, j, []⟩ : RelInfo).observed t (b.place t) k = true →
    ∀ id ∈ (getKnow s a).released, id ∈ (getKnow (scStep t b k) b).hb)

/-- LDS, STS and ATOMS (14 R332, R333, R335; 04 R80, R81; 05 R107): scratchpad bytes of the issuing team, and the full-empty
granules: an .fe load waits until all its granules are full; a store writes the bytes of the highest lane at each offset and no
others; a read-modify-write returns the bytes before it. -/
def Obligations.Scratchpad : Prop :=
  (∀ f s c, issuer s = some c →
    Counts c f false (spadLegal c f && decide (f.mod.toNat < 8) && decide (f.mod.toNat % 4 ≠ 3)
      && (!f.mod.getLsbD 2 || decide (f.x.toNat ≤ 1)) && loadDst c f.x.toNat (opnd f.d) (opnd f.a)) →
    (∀ l ∈ accessLanes c f, spadSrcBad c f l = false) →
    let sz := 2 ^ f.x.toNat
    let as := spadAccs s c f f.imm9 sz (accessLanes c f)
    InScratch s c .rd sz as →
    let full := (accGranules sz as).all (spadFull c.t)
    let q := spadLanes c.g.team (loaders c (opnd f.d) (active c f)) (decide (f.mod.toNat % 4 ≠ 0)) sz s as
    (f.mod.toNat % 4 ≠ 0 → full = false →
      Goes (.lds f) s c (c.g.setLive c.live (some { c.p with wait := .fullEmpty, since := s.clk }))) ∧
    (f.mod.toNat % 4 = 0 ∨ full = true → exec (.lds f) s = .next (inFlight
      (if f.mod.toNat % 4 = 2 then modTeam q.2 c.g.team fun t => setFull t false (accGranules sz as) else q.2) c false
      (q.1.flatMap fun e => blockWrites (opnd f.d) (blockRegs f.x.toNat) e.1
        (signLoad (f.mod.getLsbD 2) f.x.toNat e.2.1) e.2.2)))) ∧
  (∀ f s c, issuer s = some c →
    Counts c f true (spadLegal c f && decide (f.mod.toNat < 2) && storeSrc c f.x.toNat (opnd f.d)) →
    (∀ l ∈ lanesOf (active c f), spadSrcBad c f l = false ∧ blockBad c.g (opnd f.d) (blockRegs f.x.toNat) l = false) →
    let sz := 2 ^ f.x.toNat
    let as := spadAccs s c f f.imm9 sz (lanesOf (active c f))
    InScratch s c .wr sz as →
    let val (l : Nat) : Nat := storeVal s c (if f.x = 3 then .q64 else .w32) (opnd f.d) (blockRegs f.x.toNat) l
    ∃ t u, exec (.sts f) s = .next t ∧ getTeam t c.g.team = some u ∧
      (∀ a ∈ as, (∀ b ∈ as, b.off = a.off → b.lane ≤ a.lane) → spadBytes u a.off.toNat sz = leBytes sz (val a.lane)) ∧
      (∀ k, (∀ a ∈ as, ¬(a.off.toNat ≤ k ∧ k < a.off.toNat + sz)) → spadByte u k = spadByte c.t k) ∧
      (∀ k, spadFull u k = ((decide (f.mod = 1) && (accGranules sz as).contains k) || spadFull c.t k)) ∧
      { u with spad := c.t.spad, spoison := c.t.spoison, shist := c.t.shist, full := c.t.full, filled := c.t.filled } = c.t ∧
      getGroup t c.gid = some (addFlag (behind c) (setFlag c.p true)) ∧
      spFind t.ops s.order = some { gid := c.gid, flag := setFlag c.p true } ∧ t.order = s.order + 1 ∧
      t.mem = s.mem ∧ t.cores = s.cores ∧ t.parts = s.parts ∧ t.hist = s.hist ∧
      (∀ k, k ≠ c.g.team → getTeam t k = getTeam s k) ∧ ∀ k, k ≠ c.gid → getGroup t k = getGroup s k) ∧
  (∀ f s c, issuer s = some c →
    Counts c f false (spadLegal c f && atomFields f && decide (atomOrder f = 0) && atomDst c f) →
    (∀ l ∈ lanesOf (active c f), spadSrcBad c f l = false ∧ blockBad c.g (opnd f.d) (atomRead f) l = false) →
    let sz := 2 ^ f.x.toNat
    let as := spadAccs s c f 0 sz (lanesOf (active c f))
    InScratch s c .at sz as →
    exec (.atoms f) s = .next (inFlight (spadAtomics c f s as).2 c false (spadAtomics c f s as).1)) ∧
  (∀ s ag tid t o bs bad, getTeam s tid = some t →
    (spadGet (spadPut s ag tid o bs bad) [ag] tid o bs.length).1.bytes = bs ∧
    ∃ u, getTeam (spadPut s ag tid o bs bad) tid = some u ∧ spadBytes u o bs.length = bs ∧
      ∀ a, ¬(o ≤ a ∧ a < o + bs.length) → spadByte u a = spadByte t a) ∧
  (∀ s ag tid t o n (g : List Byte → List Byte), getTeam s tid = some t → o % 8 + n ≤ 8 →
    (g (spadBytes t o n)).length = n →
    (spadRmw s ag tid o n g).1.bytes = spadBytes t o n ∧ (spadRmw s ag tid o n g).1.bad = spGet false t.spoison (o / 8) ∧
    ∃ u, getTeam (spadRmw s ag tid o n g).2 tid = some u ∧ spadBytes u o n = g (spadBytes t o n) ∧
      ∀ a, ¬(o ≤ a ∧ a < o + n) → spadByte u a = spadByte t a)

/-- ATOM and ACAS (14 R334 to R337; 04 R84, R86; 05 R113): the lanes' requests are queued for their home slices in ascending
lane order, behind the write-back of a release edge and of their own lines, and the operation waits for all of them. -/
def Obligations.Atomics : Prop :=
  let atomics (i : Fields → Instr) (cas : Bool) (legal : Iss → Fields → Bool) (reads : Fields → Nat) : Prop :=
    ∀ f s c r ls, issuer s = some c → Counts c f false (memLegal c f && atomFields f && legal c f) →
      (∀ l ∈ lanesOf (active c f), memBad c f l = false ∧ blockBad c.g (opnd f.d) (reads f) l = false) →
      Names c f true (recForbids r f.x.toNat) r →
      Reaches s c .atomic (some .at) (2 ^ f.x.toNat)
        (lanePlaces s c r (2 ^ f.x.toNat) (opnd f.a) 0 (lanesOf (active c f))) ls →
      let s1 := if 2 ≤ atomOrder f ∧ ls ≠ [] then publishAt s c.core (atomScope f) else s
      let s2 := ls.foldl (fun t l => if l.kind = 3 then t else coreDrop t c.core fun k => k == l.loc / 128) s1
      let home (l : LaneLoc) : Nat := if l.loc < 2 ^ 39 then ownerOf s l.loc else c.part
      let s3 := ls.foldl (fun t l => modPart t (home l) fun p => { p with atoms := p.atoms ++ [atomReq s2 c f cas l] }) s2
      exec (i f) s = .next (startOp (modGroup s3 c.gid fun _ => behind c)
        { gid := c.gid, flag := setFlag c.p false, writes := atomDropped f cas (active c f) ls, left := ls.length })
  atomics .atom false atomDst atomRead ∧
  atomics .acas true (fun c f => decide (atomOp f = 0) && acasDst c f) (fun f => 2 * blockRegs f.x.toNat)

/-- The new value of an atomic (14 R335, R336; 07 R172), for each operation code. -/
def Obligations.AtomicValues : Prop :=
  ∀ (w : Nat) (e : Int) (old x : Nat), (w = 32 ∨ w = 64) → old < 2 ^ w → x < 2 ^ w →
    let a := BitVec.ofNat w old
    let b := BitVec.ofNat w x
    atomNew 0 w e old x = (a + b).toNat ∧
    atomNew 1 w e old x = (if b.slt a then b else a).toNat ∧
    atomNew 2 w e old x = (if b.ult a then b else a).toNat ∧
    atomNew 3 w e old x = (if a.slt b then b else a).toNat ∧
    atomNew 4 w e old x = (if a.ult b then b else a).toNat ∧
    atomNew 5 w e old x = (a &&& b).toNat ∧
    atomNew 6 w e old x = (a ||| b).toNat ∧
    atomNew 7 w e old x = (a ^^^ b).toNat ∧
    atomNew 8 w e old x = x ∧
    atomNew 9 w e old x = (a + BitVec.ofInt w (fxQuant (decodeFmt 1 x) e)).toNat

/-- FENCE, PFT, CINV and ICINV (12 R284; 14 R331, R338, R349): the edges of a fence, whose release the agent's later stores
carry and whose acquire observes what its earlier reads have met; a prefetch that changes no register; the lines of a range
written back and dropped; the code that ICINV drops. -/
def Obligations.FencesAndCaches : Prop :=
  (∀ f s c, issuer s = some c → f.guardLegal = true → f.x.toNat < 4 → f.mod.toNat < 7 →
    [f.d, f.a, f.b, f.c].all (· == zeroCode) = true → active c f ≠ 0 →
    let published := if f.x = 1 ∨ f.mod.toNat < 3 then s else coreWriteBack s c.core fun _ => true
    exec (.fence f) s = .next (modGroup ((lanesOf (active c f)).foldl (fun t l =>
      fenceOf t (.thread c.gid l) f.x.toNat f.mod.toNat) published) c.gid fun _ => behind c)) ∧
  (∀ f s c r, issuer s = some c → f.guardLegal = true →
    memLegal c f = true → f.mod.toNat < 2 → f.d = zeroCode → active c f ≠ 0 → Names c f false (recForbids r f.x.toNat) r →
    let ls := prefetchLocs s c (r.size f.x.toNat)
      (lanePlaces s c r (r.size f.x.toNat) (opnd f.a) f.imm9 (lanesOf (active c f)))
    exec (.pft f) s = .next (modGroup (ls.foldl (fun t l =>
      if l.kind = 3 then t
      else if f.mod = 0 then askCaches t (.thread c.gid l.lane) l.cmp l.loc l.size
      else l2Asked t l.cmp l.loc l.size) s) c.gid fun _ => behind c)) ∧
  (∀ f s c r, issuer s = some c → Counts c f true (rangeLegal f && decide (f.mod.toNat / 8 < 3)) →
    memBad c f (lowLane (active c f)) = false → Names c f false false r → r.swizzle = 0 →
    let lines := if r.bytes = 0 then [] else rangeLines s c.core c.part c.ctx r.base r.bytes
    let data (t : State) : State := if f.mod.toNat / 8 = 1 then t else cinvData t c (f.mod.toNat % 8) lines
    let cans (t : State) : State := if f.mod.toNat / 8 = 0 then t else cinvCanister t c (f.mod.toNat % 8) lines
    exec (.cinv f) s = .next (inFlight (cans (data s)) c true [])) ∧
  (∀ f s c r, issuer s = some c → Counts c f true (rangeLegal f && decide (f.mod.toNat < 8)) →
    memBad c f (lowLane (active c f)) = false → Names c f false false r → r.swizzle = 0 →
    exec (.icinv f) s = .next (inFlight (icinvRange s c (threadsOf c.gid (active c f)) f.mod.toNat r.base r.bytes) c true [])) ∧
  (∀ s ag kind scope, (kind = 0 ∨ kind = 2 ∨ kind = 3) →
    ∀ id ∈ (getKnow s ag).released, ∃ r ∈ (getKnow (fenceOf s ag kind scope) ag).rels, r.scope = scope ∧ id ∈ r.ids) ∧
  (∀ s ag kind scope r, (kind = 1 ∨ kind = 2 ∨ kind = 3) → r ∈ (getKnow s ag).met → r.observed s (ag.place s) scope = true →
    ∀ id ∈ r.ids, id ∈ (getKnow (fenceOf s ag kind scope) ag).hb)

/-! ## Synchronisation -/

/-- BARA, BARW, BAR, BARX and FESET (14 R339 to R341, R343): the group's arrival behind its release edge, the wait for the
phase, the pending count, the trap of a slot that the team lacks, of a second arrival in a phase and of a sum out of range, and
the full-empty state of a range. -/
def Obligations.Barriers : Prop :=
  let slot (s : State) (c : Iss) (f : Fields) : Nat := srcVal s c .w32 (opnd f.a) 0
  let arrived (s : State) (c : Iss) (f : Fields) (n : Nat) : State :=
    let rels := releaseOfAll s (threadsOf c.gid (active c f)) f.mod.toNat
    let next (b : BarSlot) : BarSlot := { b with arrived := b.arrived ++ [c.gid], rels := addRels b.rels rels }
    modTeam (publishAt s c.core f.mod.toNat) c.g.team fun t => { t with barrier := spSet {} t.barrier n (next (getBar t n)) }
  let waits (s : State) (c : Iss) (g : Group) (n phase : Nat) : Group :=
    g.setLive c.live (some { c.p with wait := .barrier n phase, since := s.clk })
  let mark (c : Iss) (n : Nat) (g : Group) : Group := { g with arrived := spSet 0 g.arrived n ((getBar c.t n).done + 1) }
  let ready (f : Fields) (s : State) (c : Iss) : Prop :=
    issuer s = some c ∧ f.guardLegal = true ∧ active c f ≠ 0 ∧ srcBad c false (opnd f.a) 0 = false ∧ slot s c f < c.t.bars
  (∀ f s c, ready f s c → barLegal f = true → arrivedNow c (slot s c f) = false →
    exec (.bara f) s = .next (modGroup (arrived s c f (slot s c f)) c.gid fun _ =>
      past c (mark c (slot s c f) c.g))) ∧
  (∀ f s c, ready f s c → barLegal f = true → (∀ n d, c.p.wait ≠ .barrier n d) →
    let b := getBar c.t (slot s c f)
    (arrivedNow c (slot s c f) = true → Goes (.barw f) s c (waits s c c.g (slot s c f) b.done)) ∧
    (arrivedNow c (slot s c f) = false → exec (.barw f) s = .next
      (modGroup (phaseAcquire s c (active c f) (slot s c f) ((b.done + (2 ^ 32 - 1)) % 2 ^ 32) f.mod.toNat) c.gid
        fun _ => behind c))) ∧
  (∀ f s c, ready f s c → barLegal f = true → (∀ n d, c.p.wait ≠ .barrier n d) → arrivedNow c (slot s c f) = false →
    exec (.bar f) s = .next (modGroup (arrived s c f (slot s c f)) c.gid fun _ =>
      waits s c (mark c (slot s c f) c.g) (slot s c f) (getBar c.t (slot s c f)).done)) ∧
  (∀ f s c n phase, ready f s c → barLegal f = true → c.p.wait = .barrier n phase →
    ((getBar c.t (slot s c f)).done = phase → Goes (.barw f) s c (waits s c c.g (slot s c f) phase) ∧
      Goes (.bar f) s c (waits s c c.g (slot s c f) phase)) ∧
    ((getBar c.t (slot s c f)).done ≠ phase →
      let t := modGroup (phaseAcquire s c (active c f) (slot s c f) phase f.mod.toNat) c.gid fun _ => behind c
      exec (.barw f) s = .next t ∧ exec (.bar f) s = .next t)) ∧
  (∀ f s c, issuer s = some c → f.guardLegal = true → active c f ≠ 0 → srcBad c false (opnd f.a) 0 = false →
    let misuse : Host.Outcome State Fault Refusal := .next (takeTrap s c causeBarrier 0 0)
    (c.t.bars ≤ slot s c f → barLegal f = true →
      exec (.bara f) s = misuse ∧ exec (.barw f) s = misuse ∧ exec (.bar f) s = misuse) ∧
    (slot s c f < c.t.bars → barLegal f = true → arrivedNow c (slot s c f) = true →
      exec (.bara f) s = misuse ∧ ((∀ n d, c.p.wait ≠ .barrier n d) → exec (.bar f) s = misuse)) ∧
    (f.mod = 0 → f.x = 0 → f.d = 0 → f.c = 0 → barSlotLegal (opnd f.a) = true → uniformData (opnd f.b) = true →
      srcBad c false (opnd f.b) 0 = false →
      let v := (getBar c.t (slot s c f)).pending + (srcVal s c .w32 (opnd f.b) 0 : Int)
      (c.t.bars ≤ slot s c f ∨ 2 ^ 31 ≤ v ∨ v < -(2 ^ 31)) → exec (.barx f) s = misuse)) ∧
  (∀ s c act n phase scope r, r ∈ (spFind (getBar c.t n).passed phase).getD [] → ∀ l ∈ lanesOf act,
    r.observed s ((Agent.thread c.gid l).place s) scope = true →
    ∀ id ∈ r.ids, id ∈ (getKnow (phaseAcquire s c act n phase scope) (.thread c.gid l)).hb) ∧
  (∀ f s c, ready f s c → f.mod = 0 → f.x = 0 → f.d = 0 → f.c = 0 → barSlotLegal (opnd f.a) = true →
    uniformData (opnd f.b) = true → srcBad c false (opnd f.b) 0 = false →
    let v := (getBar c.t (slot s c f)).pending + (srcVal s c .w32 (opnd f.b) 0 : Int)
    v < 2 ^ 31 → -(2 ^ 31) ≤ v → exec (.barx f) s = .next (modGroup (modTeam s c.g.team fun t =>
      { t with barrier := spSet {} t.barrier (slot s c f) { getBar t (slot s c f) with pending := v } }) c.gid
        fun _ => behind c)) ∧
  (∀ f s c, issuer s = some c → f.guardLegal = true → active c f ≠ 0 → f.mod = 0 → f.x.toNat ≤ 1 → f.d = 0 → f.c = 0 →
    uniformData (opnd f.a) = true → uniformData (opnd f.b) = true → srcBad c false (opnd f.a) 0 = false →
    srcBad c false (opnd f.b) 0 = false →
    let a := srcVal s c .w32 (opnd f.a) 0
    let n := srcVal s c .w32 (opnd f.b) 0
    a + n ≤ c.t.size → a % 16 = 0 → n % 16 = 0 →
    exec (.feset f) s = .next (modGroup (modTeam s c.g.team fun t =>
      { t with
        full := (List.range (n / 16)).foldl (fun m k => spSet false m (a / 16 + k) (f.x == 1)) t.full
        filled := if f.x = 1 then t.filled else (List.range (n / 16)).foldl (fun m k => spDel m (a / 16 + k)) t.filled }) c.gid
        fun _ => behind c))

/-! ## The Percolator -/

/-- XF, TOPK, DEC and ENC (15 R372 to R379): the transformed words of the named registers, the k largest lanes in order,
and the bytes of a stream from and to scratchpad, as an operation in flight. -/
def Obligations.PercolatorForms : Prop :=
  (∀ f s c k, issuer s = some c → Counts c f false (xfLegal c f) → vecBlock c f.a (xfRegs f.x.toNat) = some k →
    poisonedLane c.g k (xfRegs f.x.toNat) = none → (f.x = 8 ∨ srcBad c (f.x == 9) (opnd f.b) 0 = false) →
    exec (.xf f) s = .next (inFlight s c false
      (match f.x.toNat with
        | 8 => qblkWrites s c f k (lanesOf (active c f))
        | 9 => dqblkWrites c f k (lanesOf (active c f))
        | _ => xfWrites c f k (srcVal s c .w32 (opnd f.b) 0) (lanesOf (active c f))))) ∧
  (∀ f s c, issuer s = some c → f.a.toNat < 0x100 →
    Counts c f false (decide (f.x.toNat < 3) && f.b == 0 && f.c == 0 && vdstLegal c true (opnd f.d)
      && blockLegal c f.a.toNat 1) →
    (∀ l ∈ lanesOf (active c f), c.g.badV f.a.toNat l = false) →
    let key (l : Nat) : Nat := if f.x = 0 then ftz32 (ftzOn c) (c.g.getV f.a.toNat l) else c.g.getV f.a.toNat l
    let ranked := (lanesOf (active c f)).filter fun l => !(f.x == 0 && (decodeFmt 1 (key l)).isNaN)
    ∃ top : List Nat,
      exec (.topk f) s = .next (inFlight s c false
        (laneWrites (opnd f.d) 0 (lanesOf (active c f)) (padLanes (top.map key))
          ++ laneWrites (opnd f.d) 1 (lanesOf (active c f)) (top ++ List.replicate (64 - top.length) (2 ^ 32 - 1)))) ∧
      top.length = min (f.mod.toNat + 1) ranked.length ∧ top.Nodup ∧ (∀ l ∈ top, l ∈ ranked) ∧
      top.Pairwise (fun l m => sortKey f.x.toNat (key m) < sortKey f.x.toNat (key l)
        ∨ (sortKey f.x.toNat (key l) = sortKey f.x.toNat (key m) ∧ l < m)) ∧
      (∀ l ∈ ranked, l ∉ top → ∀ m ∈ top, sortKey f.x.toNat (key l) ≤ sortKey f.x.toNat (key m))) ∧
  (∀ f s c k, issuer s = some c → Counts c f false (decLegal c f) → vecBlock c f.d (f.mod.toNat + 1) = some k →
    [f.a, f.b, f.c].any (fun x => srcBad c false (opnd x) 0) = false →
    let a := srcVal s c .w32 (opnd f.a) 0
    let len := srcVal s c .w32 (opnd f.b) 0
    let cnt := srcVal s c .w32 (opnd f.c) 0
    len ≤ 256 * (f.mod.toNat + 1) → (cnt = 0 ∨ a + cnt ≤ c.t.size) →
    let q := spadSeen s (threadsOf c.gid (active c f)) c.g.team a cnt c.t
    let out := (decodeStream f.x.toNat len (spadBytes q.1 a cnt)).1
    exec (.dec f) s = .next (inFlight q.2 c false
      (decWrites k (f.mod.toNat + 1) out
          (decodeBad f.x.toNat (len / 128 + 2) len (spadBytes q.1 a cnt) (spadBads q.1 a cnt))
        ++ pqWrites (lanesOf (active c f)) fun _ => decide (out.length < len)))) ∧
  (∀ f s c k, issuer s = some c → Counts c f true (encLegal c f) → vecBlock c f.a (f.mod.toNat + 1) = some k →
    poisonedLane c.g k (f.mod.toNat + 1) = none → srcBad c false (opnd f.b) 0 = false →
    srcBad c false (opnd f.c) 0 = false →
    let b := srcVal s c .w32 (opnd f.b) 0
    let cap := srcVal s c .w32 (opnd f.c) 0
    (cap = 0 ∨ b + cap ≤ c.t.size) →
    let bytes := encodeStream f.x.toNat
      (bytesOfWords ((List.range (f.mod.toNat + 1)).flatMap fun i => laneWords c.g (k + i)))
    let who := Agent.thread c.gid (lowLane (active c f))
    exec (.enc f) s = .next (inFlight
      (if bytes.length ≤ cap then shareStores (spadPut s who c.g.team b bytes false) who s.stores (threadsOf c.gid (active c f))
        else s) c true
      (blockWrites (opnd f.d) 1 0 bytes.length false
        ++ pqWrites (lanesOf (active c f)) fun _ => decide (cap < bytes.length))))

/-- Packing loses nothing (03 R62, R63; 15 R374): the packed form of a block expands to its words, under both methods, and
takes no more bytes than its masks announce. -/
def Obligations.PackedBlocksExpand : Prop :=
  ∀ ws : List Nat, ws.length = 32 → (∀ w ∈ ws, w < 2 ^ 32) → ∀ more : List Byte,
    zbUnpack (zbPack ws ++ more) = ws ∧ dpUnpack (dpPack ws ++ more) = ws ∧
    packedSize 1 (zbPack ws ++ more) = (zbPack ws).length ∧ packedSize 2 (dpPack ws ++ more) = (dpPack ws).length

/-! ## The matrix array -/

/-- MLDW, MLDS and MTRN (15 R354 to R358, R365): scratchpad bytes enter a weight slot or scale region that the team then
holds; the release form frees it; a form whose slot another team holds waits, the release form too, which is the model's
choice (log 31); and the fragment that MTRN makes. -/
def Obligations.WeightBuffer : Prop :=
  (∀ f s c, issuer s = some c → Counts c f true (mldwLegal f) → f.x.getLsbD 1 = true →
    (bindingFree s c.core c.g.team f.mod.toNat = true →
      exec (.mldw f) s = .next (inFlight (releaseBinding s c.core c.g.team f.mod.toNat) c true [])) ∧
    (bindingFree s c.core c.g.team f.mod.toNat = false → Goes (.mldw f) s c
      (c.g.setLive c.live (some { c.p with wait := .binding f.mod.toNat, since := s.clk })))) ∧
  (∀ f s c, issuer s = some c → Counts c f true (mldwLegal f) → f.x.getLsbD 1 = false →
    srcBad c false (opnd f.a) 0 = false → srcBad c false (opnd f.b) 0 = false →
    let a := srcVal s c .w32 (opnd f.a) 0
    let len := srcVal s c .w32 (opnd f.b) 0
    let zb := f.x.getLsbD 0
    let q := weightSeen s c (active c f) zb a len
    len ≤ 65536 → len % 128 = 0 → a % 4 = 0 →
    (if zb then (zbSpan q.1 (len / 128) a).isSome = true else len = 0 ∨ a + len ≤ c.t.size) →
    (bindingFree s c.core c.g.team f.mod.toNat = true → exec (.mldw f) s = .next (inFlight
      (modBinding (fillSlot4 q.2 c.core c.g.team f.mod.toNat (weightSource q.1 zb a len)) c.g.team f.mod.toNat fun b =>
        { b with wsrc := a, wlen := len, wzb := zb, valid := true }) c true [])) ∧
    (bindingFree s c.core c.g.team f.mod.toNat = false → Goes (.mldw f) s c
      (c.g.setLive c.live (some { c.p with wait := .binding f.mod.toNat, since := s.clk })))) ∧
  (∀ f s c, issuer s = some c → Counts c f true (decide (f.mod.toNat < 4) && f.c == 0 && f.d == 0 && f.x == 0
      && uniformData (opnd f.a) && uniformData (opnd f.b)) →
    srcBad c false (opnd f.a) 0 = false → srcBad c false (opnd f.b) 0 = false →
    let a := srcVal s c .w32 (opnd f.a) 0
    let len := srcVal s c .w32 (opnd f.b) 0
    let q := spadSeen s (threadsOf c.gid (active c f)) c.g.team a len c.t
    len ≤ 4096 → len % 128 = 0 → (len = 0 ∨ a + len ≤ c.t.size) →
    (bindingFree s c.core c.g.team f.mod.toNat = true → exec (.mlds f) s = .next (inFlight
      (modBinding (fillScale q.2 c.core c.g.team f.mod.toNat (spadBytes q.1 a len, spadBads q.1 a len)) c.g.team f.mod.toNat
        fun b => { b with ssrc := a, slen := len, valid := true }) c true [])) ∧
    (bindingFree s c.core c.g.team f.mod.toNat = false → Goes (.mlds f) s c
      (c.g.setLive c.live (some { c.p with wait := .binding f.mod.toNat, since := s.clk })))) ∧
  (∀ s core team r src, getWeight (fillSlot4 s core team r src) core r =
      ({ getWeight s core r with holder := some team, bytes := sparseBytes src.1, poison := sparseBits src.2 } : Weight) ∧
    bindingHeld (fillSlot4 s core team r src) core team r = true ∧ (fillSlot4 s core team r src).mem = s.mem) ∧
  (∀ f s c d a, issuer s = some c → mtrnLegal c f = true → vecBlock c f.d (mtrnDst f) = some d → vecBlock c f.a 32 = some a →
    flagFull c.g (setFlag c.p false) = false → poisonedLane c.g a 32 = none →
    exec (.mtrn f) s = .next (inFlight s c false
      ((List.range 64).flatMap fun l => (List.range (if f.x = 0 then 8 else 32)).map fun i =>
        .any (d + i) l (BitVec.ofNat 32
          (if f.x = 0 then ofBytes 4 fun j => mtrnElem s c a l (4 * i + j)
            else c.g.getV (a + l % 32) (l / 32 * 32 + i))) false)))

/-- MMA of a group alone, MMA of a gang, GANG, and the joined issue (15 R359 to R364; 07 R167 to R170): the new accumulators
from the fragment of A and the slab of B; a gang's member waits at its latch until all have arrived, and the checks are made
then. -/
def Obligations.MatrixMultiply : Prop :=
  let issued (s : State) (c : Iss) (ws : List RegWrite) : State :=
    startOp (modGroup s c.gid fun _ => behind c)
      { gid := c.gid, flag := setFlag c.p false, writes := ws, replay := some (c.live, c.p) }
  (∀ f s c bytes s1, issuer s = some c → mmaCheck s c f = none → flagFull c.g (setFlag c.p false) = false →
    mmaGanged f = false → (mmaRec f = true → groupAtoms s c.gid = false) →
    mmaSlab s c f (threadsOf c.gid c.p.mask) = .ok bytes false s1 → mmaScaleBad s c f = false →
    exec (.mma f) s = .next (issued s1 c (mmaWrites c f (mmaData s c f bytes)))) ∧
  (∀ f s c, issuer s = some c → f.guardPathWide = true → mmaGid f < c.t.latchN → flagFull c.g (setFlag c.p false) = false →
    mmaGanged f = true → (getLatch c.t (mmaGid f)).broken = false →
    (getLatch c.t (mmaGid f)).members.contains c.g.index = true → c.p.failed = false →
    exec (.mma f) s = .next (modGroup (modTeam s c.g.team fun t =>
        let l := getLatch t (mmaGid f)
        let now : Latch := { l with arrived := l.arrived.filter (· != ⟨c.gid, c.live⟩) ++ [⟨c.gid, c.live⟩] }
        { t with latch := spSet {} t.latch (mmaGid f) now }) c.gid fun _ =>
      c.g.setLive c.live (some { c.p with wait := .latch (mmaGid f), since := s.clk }))) ∧
  (∀ f s c, issuer s = some c → f.guardLegal = true → gangLegal f = true → active c f ≠ 0 →
    srcBad c false (opnd f.a) 0 = false → srcBad c false (opnd f.b) 0 = false →
    let n := srcVal s c .w32 (opnd f.a) 0
    let m := srcVal s c .w32 (opnd f.b) 0
    let l := getLatch c.t n
    n < c.t.latchN →
    (f.b = zeroCode → exec (.gang f) s = .next (modGroup (modLatch s c.g.team n fun l =>
      l.without c.g.index c.gid false) c.gid fun _ => behind c)) ∧
    (f.b ≠ zeroCode → gangMaskOk c m = true → l.broken = false → (l.members = [] ∨ l.members = maskMembers m) →
      exec (.gang f) s = .next (modGroup (modLatch s c.g.team n fun l =>
        { l with members := maskMembers m }) c.gid fun _ => behind c))) ∧
  (∀ s team latch t ms c0 f0 bytes s1, getTeam s team = some t → joinedMembers s t latch = some ms →
    ms.head? = some (c0, f0) → (∀ e ∈ ms, gangKey e.1 e.2 = gangKey c0 f0) → (∀ e ∈ ms, mmaCheck s e.1 e.2 = none) →
    mmaSlab (modLatch s team latch fun l => l.joined ms) c0 f0
      (ms.flatMap fun e => threadsOf e.1.gid e.1.p.mask) = .ok bytes false s1 →
    (∀ e ∈ ms, mmaScaleBad s e.1 e.2 = false) → (mmaRec f0 = true → ∀ e ∈ ms, groupAtoms s e.1.gid = false) →
    exec (.gangJoinedIssue team latch) s = .next (ms.foldl (fun t e =>
      startOp (retire t e.1)
        { gid := e.1.gid, flag := setFlag e.1.p false, writes := mmaWrites e.1 e.2 (mmaData s e.1 e.2 bytes)
          replay := some (e.1.live, e.1.p) }) s1)) ∧
  (∀ s team latch t ms c0 f0, getTeam s team = some t → joinedMembers s t latch = some ms → ms.head? = some (c0, f0) →
    (∃ e ∈ ms, gangKey e.1 e.2 ≠ gangKey c0 f0) → exec (.gangJoinedIssue team latch) s =
      .next (trapMembers (modLatch s team latch fun l => l.joined ms) ms 0x0E 0)) ∧
  (∀ (l : Latch) ms q, q ∈ (l.joined ms).arrived ↔ q ∈ l.arrived ∧ ∀ e ∈ ms, q ≠ ⟨e.1.gid, e.1.live⟩) ∧
  (∀ d acc m n, d.cls = .int → d.kk = 32 →
    let ps := (d.rows.getD m []).zip (d.cols.getD n [])
    ps.length = 32 →
    let total : Int := (BitVec.ofNat 32 acc).toInt + (ps.map fun e =>
      intElem (d.fmt % 64) e.1.1 * intElem (d.fmt / 64 % 64) e.2.1).sum
    mmaElement d acc m n = (BitVec.ofInt 32 (max (-2 ^ 31) (min (2 ^ 31 - 1) total))).toNat)

/-! ## Neural calls -/

/-- TWAIT, TTEST, NCALL, NPIN, NPREF and NFLUSH (15 R352, R353, R367, R371): a wait for a pending token, its test, the rows
that enter a bin under a pending token, the hints, and the flush of bins. -/
def Obligations.NeuralCalls : Prop :=
  let waits (c : Iss) (s : State) (n : Nat) : Group :=
    c.g.setLive c.live (some { c.p with wait := .token n, since := s.clk })
  (∀ f s c n, issuer s = some c → f.guardLegal = true → f.mod = 0 → f.x = 0 → allZero [f.d, f.b, f.c] = true →
    tokenOf f.a = some n → active c f ≠ 0 →
    (c.g.tokPending n = true → Goes (.twait f) s c (waits c s n)) ∧
    (c.g.tokPending n = false → Goes (.twait f) s c (behind c))) ∧
  (∀ f n, Writes (.ttest f) f (fun _ => decide (f.mod = 0) && decide (f.x.toNat ≤ 1) && allZero [f.b, f.c]
      && decide (tokenOf f.a = some n) && predLegal f.d) (fun _ _ _ => false) noV noS
    (fun _ c => toPred f.d (active c f) fun _ =>
      if f.x = 1 then (c.g.tok n).st == .done true else (c.g.tok n).st != .pending)) ∧
  (∀ f s c t, issuer s = some c → f.guardLegal = true → f.x = 0 → tokenOf f.d = some t → handleLegal c f.a = true →
    f.b.toNat < 0x100 → f.c.toNat < 0x100 → blockLegal c f.b.toNat (f.mod.toNat + 1) = true →
    blockLegal c f.c.toNat 32 = true → active c f ≠ 0 →
    (c.g.tokPending t = true → Goes (.ncall f) s c (waits c s t)) ∧
    (c.g.tokPending t = false → srcBad c false (opnd f.a) 0 = false →
      (∀ l ∈ lanesOf (active c f), ∀ i < f.mod.toNat + 1, c.g.badV (f.b.toNat + i) l = false) →
      let h := srcVal s c .w32 (opnd f.a) (lowLane (active c f))
      h < 2 ^ 16 →
      let row (l : Nat) : NRow :=
        { gid := c.gid, tok := t, lane := l, first := f.c.toNat, at_ := clkOf s (clusterOf c.core)
          input := (List.range (f.mod.toNat + 1)).map fun i => BitVec.ofNat 32 (c.g.getV (f.b.toNat + i) l) }
      let g := c.g.setTok t { st := .pending, neural := true, first := f.c.toNat, count := 32, left := active c f }
      exec (.ncall f) s = .next (addRows (modGroup s c.gid fun _ => past c g) (clusterOf c.core) c.part c.ctx h
        ((lanesOf (active c f)).map row)))) ∧
  (∀ f s c, issuer s = some c → f.guardLegal = true → hintLegal c f true = true → active c f ≠ 0 →
    srcBad c false (opnd f.a) 0 = false →
    let h := srcVal s c .w32 (opnd f.a) 0
    exec (.npin f) s = .next (modGroup (if f.x = 1 then unpin s c h else hintTile s c true h) c.gid fun _ => behind c)) ∧
  (∀ f s c, issuer s = some c → f.guardLegal = true → hintLegal c f false = true → active c f ≠ 0 →
    srcBad c false (opnd f.a) 0 = false →
    let h := srcVal s c .w32 (opnd f.a) 0
    exec (.npref f) s = .next (modGroup (hintTile s c false h) c.gid fun _ => behind c) ∧
    exec (.nflush f) s = .next (modGroup (modCluster s (clusterOf c.core) fun k =>
      { k with bins := k.bins.map fun b =>
        if b.ctx = c.ctx ∧ (f.a = zeroCode ∨ b.handle = h) then { b with flush := true } else b }) c.gid fun _ => behind c))

/-- NCALL_TILE_DISPATCH, FLUSH_WINDOW_EXPIRY, NCALL_TILE_COMPLETE and CANISTER_FILL (15 R368 to R370; 04 R88 to R90): the
first 32 rows of a bin become a tile; a row that has waited for the window marks its bin; a tile writes the outputs of its
rows, or NaN with ERR when its set cannot be used. That a poisoned descriptor gives 32 poisoned registers, and what poisoned set
data give, are the model's choices (logs 45, 46). -/
def Obligations.NeuralTiles : Prop :=
  (∀ s cluster ctx handle b, findBin s cluster ctx handle = some b → (getCluster s cluster).fenced = false →
    (32 ≤ b.rows.length ∨ b.flush = true ∨ allCallersWait s cluster ctx = true) →
    ∃ t, exec (.ncallTileDispatch cluster ctx handle) s = .next t ∧
      spFind t.tiles s.order = some
        { cluster := cluster, part := b.part, ctx := ctx, handle := handle, rows := b.rows.take 32 } ∧
      t.order = s.order + 1 ∧ t.groups = s.groups ∧ t.mem = s.mem ∧
      (∀ x, x ∈ (getCluster t cluster).bins → x.ctx = ctx → x.handle = handle →
        x.rows = b.rows.drop 32 ∧ b.rows.drop 32 ≠ [])) ∧
  (∀ s cluster ctx handle b r rest, findBin s cluster ctx handle = some b → b.rows = r :: rest → b.flush = false →
    r.at_ + 64 ≤ clkOf s cluster →
    exec (.flushWindowExpiry cluster ctx handle) s = .next (modCluster s cluster fun k =>
      { k with bins := k.bins.map fun x =>
        if x.ctx = ctx ∧ x.handle = handle then { x with flush := true } else x })) ∧
  (∀ s tile t, spFind s.tiles tile = some t → t.batch = none → (getCluster s t.cluster).fenced = false → t.failed = false →
    let gone (u : State) : State := { u with tiles := spDel u.tiles tile }
    let nan (u : State) (bad err : Bool) : State :=
      t.rows.foldl (fun u r => rowDone u r (List.replicate 32 0x7FC00000) bad err) (gone u)
    match fetchSet s t.cluster t.part t.ctx t.handle with
    | .err => exec (.ncallTileComplete tile) s = .next (nan s false true)
    | .badDesc u => exec (.ncallTileComplete tile) s = .next (nan u true false)
    | .ok w desc data u => exec (.ncallTileComplete tile) s = .next (match t.hint with
      | some true => modCluster (gone u) t.cluster fun k => pinLines k t.handle (desc ++ data)
      | some false => gone u
      | none => t.rows.foldl (fun v r =>
        if r.input.length ≠ w.inw then rowDone v r (List.replicate 32 0x7FC00000) false true
        else if canisterBad u t.cluster data then rowDone v r (List.replicate w.outw 0x7FC00000) true false
        else rowDone v r (w.row (w.split w.layers (canisterBytes u t.cluster data)) (r.input.map (·.toNat))) false false)
          (gone u))
    | .fault _ _ _ => canReport s t.part = true → ∃ u b,
      exec (.ncallTileComplete tile) s = .next u ∧ spFind u.tiles tile = some { t with batch := some b } ∧
        u.groups = s.groups) ∧
  (∀ s tile t, spFind s.tiles tile = some t → t.batch = none → (getCluster s t.cluster).fenced = false → t.failed = true →
    exec (.ncallTileComplete tile) s = .next (t.rows.foldl (fun u r => rowDone u r (List.replicate 32 0x7FC00000) true
      (match fetchSet s t.cluster t.part t.ctx t.handle with
        | .err => true
        | .fault _ _ w => w.any fun w => r.input.length != w.inw
        | .ok w _ _ _ => r.input.length != w.inw
        | _ => false)) { s with tiles := spDel s.tiles tile })) ∧
  (∀ s cluster part ctx line l,
    xlateSet s (.barista cluster) part ctx .read (ctxSup s part ctx) [⟨0, line * 128, 128, false⟩] = .ok [l] →
    (s.tiles.any fun e => e.2.cluster == cluster && e.2.part == part && e.2.ctx == ctx && e.2.batch.isNone) = true →
    exec (.canisterFill cluster part ctx line) s = .next (canisterFill s cluster part ctx l) ∧
    ∃ x, spFind (getCluster (canisterFill s cluster part ctx l) cluster).lines (l.loc / 128) = some x ∧
      x.bytes = (lineNow s l).1.bytes ∧ (getCluster (canisterFill s cluster part ctx l) cluster).owner = some (part, ctx))

/-! ## Traps -/

/-- TRAP, BKPT, SYSC, RTT and the taking of any trap (08 R186; 10 R216 to R218; 12 R285, R286; 16 R399): the TRAP record
with the resume point, TRAPINFO, and the path at the handler's clause; the return to the topmost record that holds it. -/
def Obligations.TrapsAndHandlers : Prop :=
  let handler (s : State) (c : Iss) (cause e : Nat) : Prop :=
    (∃ bytes,
      readRange s (.core c.core) c.part c.ctx .table true ((ctxBase s c.part c.ctx 384 + 8 * cause) % 2 ^ 64) 8 = .ok bytes false ∧
      leNat bytes = e) ∧ e / 2 ^ 48 % 2 ^ 16 ≠ 0 ∧ e % 4 = 0
  let trapped (c : Iss) (g : Group) (cause lane addr : Nat) (at_ : Nat × Nat) : Group :=
    { g with
      stack := { kind := .trap, addr := at_.1, slot := at_.2, cause := cause, mask := c.p.mask, aux := 0, fmt := c.p.fmt
                 handle := c.p.handle, handler := if at_.1 = c.p.addr then c.p.handler else none
                 orig := if cause = 0x14 then some at_ else none } :: g.stack
      trapinfo := { cause := cause, lane := lane, slot := c.p.slot, pslot := c.live, addr := BitVec.ofNat 64 addr } }
  let asked (s : State) (c : Iss) (g : Group) (cause : Nat) : State :=
    rangeAsked (modGroup s c.gid fun _ => g) (.core c.core) c.part c.ctx .table true ((ctxBase s c.part c.ctx 384 + 8 * cause) % 2 ^ 64) 8
  let entered (s : State) (c : Iss) (g : Group) (cause lane addr e : Nat) (at_ : Nat × Nat) : State :=
    modGroup (asked s c (trapped c g cause lane addr at_) cause) c.gid fun _ => (trapped c g cause lane addr at_).setLive
      c.live (some { freshPath (e % 2 ^ 48) 0 c.p.mask c.p.fmt (e / 2 ^ 48 % 2 ^ 16) with handler := some cause })
  let behindIt (c : Iss) : Nat × Nat :=
    if atClauseEnd c.p then (nextClause c.p, 0) else (c.p.addr, c.p.slot + slotWidth c.p)
  let soft (i : Fields → Instr) (legal : Fields → Bool) (cause : Nat) (dst : Group → Fields → Group)
      (when_ : State → Iss → Prop) : Prop :=
    ∀ f s c e, issuer s = some c → f.guardLegal = true → legal f = true → active c f ≠ 0 → when_ s c →
      c.g.stack.length < 512 → handler s c cause e →
      exec (i f) s = .next (entered s c (countRetired (dst c.g f) (atClauseEnd c.p)) cause 0 f.imm27.toNat e (behindIt c))
  let toD (g : Group) (f : Fields) : Group := writeScal g false (opnd f.d) f.imm27.toNat
  soft .trap trapLegal 0x13 toD (fun _ _ => True) ∧
  soft .bkpt trapLegal 0x12 toD (fun s c => spGet false (getPart s c.part).dbgCtx c.ctx = false) ∧
  soft .sysc (fun f => f.mod == 0 && f.x == 0 && f.d == 0) 0x00 (fun g _ => g) (fun _ _ => True) ∧
  (∀ f s c, issuer s = some c → f.guardLegal = true → trapLegal f = true → active c f ≠ 0 →
    spGet false (getPart s c.part).dbgCtx c.ctx = true →
    exec (.bkpt f) s = .next (msix (modGroup s c.gid fun _ =>
      { past c (toD c.g f) with halt := some .halted }) c.part 3)) ∧
  (∀ f s c r, issuer s = some c → f.guardPathWide = true → noFields f = true → topRec c.g .trap c.p.mask = some r →
    let left := r.mask &&& ~~~c.p.mask
    Goes (.rtt f) s c
      ({ countRetired c.g true with
          stack := replaceTop .trap c.p.mask (if left = 0 then none else some { r with mask := left }) c.g.stack }.setLive
        c.live (some { freshPath r.addr r.slot c.p.mask r.fmt r.handle with
          noWait := true, resumed := true, handler := r.handler, exempt := decide (r.orig = some (r.addr, r.slot)) }))) ∧
  (∀ s c cause lane addr e, issuer s = some c → c.g.stack.length < 512 → handler s c cause e →
    ¬((cause = 0x04 ∨ cause = 0x05) ∧ c.p.handler = some cause) →
    takeTrap s c cause lane addr = entered s c c.g cause lane addr e (c.p.addr, c.p.slot)) ∧
  (∀ s c cause lane addr bytes bad, issuer s = some c → c.g.stack.length < 512 →
    ¬((cause = 0x04 ∨ cause = 0x05) ∧ c.p.handler = some cause) →
    readRange s (.core c.core) c.part c.ctx .table true ((ctxBase s c.part c.ctx 384 + 8 * cause) % 2 ^ 64) 8 = .ok bytes bad →
    (bad = true ∨ leNat bytes / 2 ^ 48 % 2 ^ 16 = 0 ∨ leNat bytes % 4 ≠ 0) →
    takeTrap s c cause lane addr =
      contextReset (asked s c (trapped c c.g cause lane addr (c.p.addr, c.p.slot)) cause) c.part c.ctx 4 cause) ∧
  (∀ s c cause lane addr, c.g.stack.length = 512 → ¬((cause = 0x04 ∨ cause = 0x05) ∧ c.p.handler = some cause) →
    takeTrap s c cause lane addr = contextReset s c.part c.ctx 2 0x0C)

/-- A program instruction that breaks a check of its fields alone, the guard's, the size's or the branch formats', traps
ILLEGAL_OPERAND whatever the state and its lanes (11 R251 to R254; 12 R267). -/
def Obligations.IllFormedTraps : Prop :=
  ∀ i s c, i.isProgram = true → ¬i.WellFormed → issuer s = some c → exec i s = .next (illegalOperand s c)

/-! ## Waiting and completion -/

/-- CHANNEL_OPERAND_RETRY, LDS_FE_WAKE, BINDING_RELEASE_WAKE, OPERATION_COMPLETE and BARRIER_PHASE_COMPLETE (04 R81, R94;
15 R354; 11 R239; 12 R271; 14 R339; 10 R221): a path that waits for a queue,
full-empty bits or a binding issues its instruction again; the two that are told when they may, only then;
the registers of the lanes that still live are written and the flag counts down; a phase ends when every group that counts
has arrived and nothing is pending. Which completions a fence of the array holds back is the model's choice (log 106). -/
def Obligations.WakesAndCompletions : Prop :=
  let woken (q : PathId) (s : State) : State :=
    { modPath s q.gid q.live (fun p => { p with wait := .none }) with cur := some q }
  (∀ s q c f, issOf s q = some c → c.p.wait = .channel → slotInstr c.p = some (.mov f) → mayRetry s c = true →
    ∃ t, exec (.mov f) (woken q s) = .next t ∧
      exec (.channelOperandRetry q) s = .next (if stillBlocked t q then s else edgesBehind s t c (.mov f))) ∧
  (∀ s q c f, issOf s q = some c → c.p.wait = .fullEmpty → slotInstr c.p = some (.lds f) → mayRetry s c = true →
    let full := (accGranules (2 ^ f.x.toNat)
      (spadAccs s c f f.imm9 (2 ^ f.x.toNat) (accessLanes c f))).all (spadFull c.t)
    (full = true → ∃ t, exec (.lds f) (woken q s) = .next t ∧ exec (.ldsFeWake q) s = .next t) ∧
    (full = false → exec (.ldsFeWake q) s = .next s)) ∧
  (∀ s q c f r i, issOf s q = some c → c.p.wait = .binding r → slotInstr c.p = some i → (i = .mldw f ∨ i = .mlds f) →
    (mayRetry s c = true → bindingFree s c.core c.g.team r = true → ∃ t, exec i (woken q s) = .next t ∧
      exec (.bindingReleaseWake q) s = .next (edgesBehind s t c i)) ∧
    (bindingFree s c.core c.g.team r = false → exec (.bindingReleaseWake q) s = .next s)) ∧
  (∀ s q c, issOf s q = some c → mayRetry s c = false → exec (.channelOperandRetry q) s = .next s ∧
    exec (.ldsFeWake q) s = .next s ∧ exec (.bindingReleaseWake q) s = .next s) ∧
  (∀ s op o, spFind s.ops op = some o → o.left ≠ 0 ∨ o.batch.isSome = true ∨ o.heldByFence s = true →
    exec (.operationComplete op) s = .next s) ∧
  (∀ s op o, spFind s.ops op = some o → o.left = 0 → o.batch = none → o.heldByFence s = false → o.reads = [] →
    exec (.operationComplete op) s = .next
      { modGroup s o.gid (fun g => subFlag (o.writes.foldl applyWrite g) o.flag) with ops := spDel s.ops op }) ∧
  (∀ g r l x b, applyWrite g (.vec r l x b) = if g.held.getLsbD l then g.setV r l x.toNat b else g) ∧
  (∀ g r x b, applyWrite g (.scal r x b) = g.setS r x.toNat b) ∧
  (∀ g, subFlag g none = g) ∧
  (∀ g k, flagCount (subFlag g (some k)) (some k) = flagCount g (some k) - 1 ∧
    ∀ j, j ≠ k → flagCount (subFlag g (some k)) (some j) = flagCount g (some j)) ∧
  (∀ s team slot t, getTeam s team = some t →
    let b : BarSlot := spGet {} t.barrier slot
    let counts := t.groups.filter fun k => match getGroup s k with
      | some g => !g.ended || b.arrived.contains k
      | none => false
    let here := b.arrived.filter fun k => match getGroup s k with
      | some g => !g.faultSaved
      | none => true
    let next : BarSlot :=
      { b with
        arrived := [], done := (b.done + 1) % 2 ^ 32, rels := []
        passed := spPut (b.passed.filter fun e => phaseAwaited s t slot e.1) b.done b.rels }
    (counts ≠ [] → here.length = counts.length → b.pending = 0 →
      exec (.barrierPhaseComplete team slot) s = .next (modTeam s team fun t =>
        { t with barrier := spSet {} t.barrier slot next })) ∧
    (counts = [] ∨ here.length ≠ counts.length ∨ b.pending ≠ 0 →
      exec (.barrierPhaseComplete team slot) s = .next s))

/-- HOME_SLICE_ATOMIC (04 R84 to R86, R98; 05 R107, R113; 14 R334 to R337): the oldest request at a home slice is performed in
one event and hands the bytes before it to its operation; it changes its own bytes and no others; and a write of a word at the L2
changes no other byte. -/
def Obligations.HomeSliceAtomics : Prop :=
  (∀ s part a rest, (getPart s part).atoms = a :: rest → (∀ b ∈ rest, b.slice = a.slice) →
    let q := homeAtomic (modPart s part fun p => { p with atoms := rest }) a
    let old := leNat q.1.bytes
    let ws := (match a.dst with
        | some k => blockWrites (.v k) (if a.size = 8 then 2 else 1) a.lane old q.1.bad
        | none => []) ++ (if a.cas && a.dst.isSome then [.pred 47 a.lane (decide (old = a.compare))] else [])
    exec (.homeSliceAtomic part) s = .next (feedOp q.2 a.op ws)) ∧
  (∀ s part, (getPart s part).atoms = [] → exec (.homeSliceAtomic part) s = .next s) ∧
  (∀ s a, a.kind ≠ 1 → a.kind ≠ 3 → a.size = 4 ∨ a.size = 8 → a.loc % a.size = 0 → a.loc < 2 ^ 39 →
    (∀ ln, l2Find s (a.loc / 128) = some ln → ln.cmp = a.cmp) →
    let t := (homeAtomic s a).2
    let old := leNat (l2Bytes s a.cmp a.loc a.size)
    let new := if a.cas then (if old = a.compare then a.operand else old)
      else atomNew a.code (8 * a.size) a.scale old a.operand
    (homeAtomic s a).1.bytes = l2Bytes s a.cmp a.loc a.size ∧
    (homeAtomic s a).1.bad = l2Bad s a.cmp (a.loc / 8 * 8) ∧
    l2Bytes t a.cmp a.loc a.size = leBytes a.size new ∧ t.mem = s.mem ∧ t.cores = s.cores ∧ t.groups = s.groups ∧
    ∀ k, ¬(a.loc ≤ k ∧ k < a.loc + a.size) → l2Byte t a.cmp k = l2Byte s a.cmp k) ∧
  (∀ s a k r, a.acquire = some k → a.release = none → a.kind ≠ 3 →
    r ∈ (rmwUnit { s with know := spSet {} s.know (Agent.thread a.gid a.lane).key a.know } (.thread a.gid a.lane) a.cmp a.kind
      a.va a.loc a.size a.over []).1.rels →
    r.observed s ((Agent.thread a.gid a.lane).place s) k = true →
    ∀ id ∈ r.ids, id ∈ (getKnow (homeAtomic s a).2 (.thread a.gid a.lane)).hb) ∧
  (∀ s cmp w (v : List Byte × Bool), v.1.length = 8 → 8 * w + 8 ≤ 2 ^ 39 →
    (∀ ln, l2Find s (w / 16) = some ln → ln.cmp = cmp) →
    let t := l2SetWord s cmp w v
    l2Word t cmp w = v ∧ t.mem = s.mem ∧ t.cores = s.cores ∧
    ∀ a, a / 8 ≠ w → l2Byte t cmp a = l2Byte s cmp a)

/-! ## Jobs and work creation -/

/-- JOB and JSTAT (14 R344 to R348; 06 R129, R134): the card is read, its release edge made, the job entered in the team's
stream with its ticket in D, and an operation of the SETB flag opened for it; and the status of a ticket. -/
def Obligations.JobInstructions : Prop :=
  (∀ f s c hd s1 bs s2, issuer s = some c → Counts c f true (jobLegal c f) →
    let lane := lowLane (active c f)
    let va := srcVal s c .q64 (opnd f.a) lane
    srcBad c true (opnd f.a) lane = false → va % 64 = 0 → ReadsObject s c lane va 64 hd s1 →
    let n := (cardOf (leNat hd)).fpcount
    n ≤ 8 → (if n = 0 then bs = hd ∧ s2 = s1 else ReadsObject s c lane va (64 + 32 * n) bs s2) →
    let card := cardOf (leNat (bs.take 64))
    card.ok (some c.t.bars) = true → cardCount s2 c.part < 16384 →
    let rs := regionsOf true card.fpcount (bs.drop 64)
    let ids := releasedBy s2 (threadsOf c.gid (active c f))
    let read (w : Nat) (m : Msg) : Prop := m.id ∈ ids ∧ ∃ r ∈ rs, Msg.inRegion s2 c w m r = true
    ∃ t, exec (.job f) s = .next t ∧
      (∀ w h m, (spFind s2.hist w = some h ∧ m ∈ h.msgs ∨ m ∈ spGet [] (getCore s2 c.core).pend w) → read w m →
        m.id ∈ (getKnow t (.job (s.order + 1))).hb ∧ ∀ v, ∀ k ∈ spGet [] (getCore t c.core).pend v, k.id ≠ m.id) ∧
      spFind t.ops s.order = some { gid := c.gid, flag := setFlag c.p true, left := 1 } ∧
      spFind t.jobs (s.order + 1) = some
        { part := c.part, cluster := clusterOf c.core, ctx := c.ctx
          card := { card with regions := rs }
          redSeq := if card.kind = 6 then spGet 0 (getPart s2 c.part).reduces (card.p0 % 2 ^ 16) else 0
          stream := .team c.g.team, order := s.order + 1, team := some c.g.team, ticket := c.t.ticket, op := some s.order
          issued := ids } ∧
      t.order = s.order + 2 ∧
      getTeam t c.g.team = some { c.t with
        ticket := (c.t.ticket + 1) % 2 ^ 32, tickets := spPut c.t.tickets c.t.ticket (s.order + 1) } ∧
      getGroup t c.gid =
        some (past c (writeScal (addFlag c.g (setFlag c.p true)) false (opnd f.d) c.t.ticket))) ∧
  (∀ f : Fields, Writes (.jstat f) f
    (fun c => f.mod == 0 && f.x == 0 && allZero [f.b, f.c] && (opnd f.a).isScalarReg && (opnd f.d).isScalarReg
      && dstLegal c true (opnd f.d)) (fun _ c _ => srcBad c false (opnd f.a) 0) noV
    (fun s c => toSca f.d true (
      let r := jobStatus s c.t (srcVal s c .w32 (opnd f.a) 0)
      r.1 + 2 ^ 32 * r.2)) noP) ∧
  (∀ s t k, spFind t.tickets k = none → jobStatus s t k = (2 ^ 9, 0))

/-- JOB_START, JOB_COMMIT_UNIT, JOB_FAULT_SUSPEND, JOB_RESUME and JOB_COMPLETE (06 R132 to R139): the footprint check, one
unit written with its barrier bytes, the batch that suspends a job and its replay, and the completion word and flag. That a unit
is written as a whole, that its reads and its writes report batches of their own, and that a count wraps below −2^31 are the
model's choices (logs 119, 98, 118). -/
def Obligations.JobEvents : Prop :=
  let awake (s : State) (j : Job) : State := if j.team.isSome then s else ctxWakes s j.part j.ctx
  (∀ s id j, spFind s.jobs id = some j → j.phase = .entered → jobMayStart s j = true → j.card.kind ≠ 6 →
    (j.card.kind ≠ 2 ∧ j.card.kind ≠ 3 ∨ j.index.isSome = true) →
    let s1 := learn (awake s j) (.job id) (streamIds s j.stream j.order j.card.regions)
    exec (.jobStart id) s = .next (putJob s1 id
      (if footprintOk j.card (j.spadSize s) (j.index.getD []) then { j with checked := true, phase := .running }
        else { j with checked := true, phase := .finishing, status := 4 }))) ∧
  (∀ s id j ls, spFind s.jobs id = some j → j.phase = .entered → jobMayStart s j = true →
    (j.card.kind = 2 ∨ j.card.kind = 3) → j.index = none →
    extentOk j.card 0 false false j.card.p0 (4 * j.card.rows) = true →
    let s1 := learn (awake s j) (.job id) (streamIds s j.stream j.order j.card.regions)
    jobXlate s1 j .read j.card.p0 (4 * j.card.rows) = .ok ls →
    let q := readSet (jobSees s1 id ls) [.job id] ls
    let k := { j with index := some (wordsOf q.1.bytes), poison := j.poison || q.1.bad, checked := true }
    exec (.jobStart id) s = .next (putJob q.2 id
      (if footprintOk j.card (j.spadSize s) (wordsOf q.1.bytes) then { k with phase := .running }
        else { k with phase := .finishing, status := 4 }))) ∧
  (∀ s id j bs bad off n st ls t, spFind s.jobs id = some j → j.phase = .running → j.unit < j.unitCount → j.card.kind ≠ 6 →
    unitData s id j = .data bs bad off n st t → j.card.spdst = false →
    xlateSet s (.job j.cluster) j.part j.ctx .write (ctxSup s j.part j.ctx)
      ((j.unitDst j.unit).flatMap fun p => rangeAccs p.1 p.2) = .ok ls →
    exec (.jobCommitUnit id) s = .next (putJob
      (subPending (engineWrite (jobSees t id (j.card.readBytes ls)) (.job id) [] ls bs bad) id j (j.unitBytes j.unit)) id
      { j with
        unit := j.unit + 1, offset := off, bytes := j.bytes + n, counted := j.counted + j.unitBytes j.unit
        poison := j.poison || bad.any (fun b => b), status := if st = 0 then j.status else st
        phase := if j.unitCount ≤ j.unit + 1 then .finishing else .running })) ∧
  (∀ s id j, j.card.kind = 5 → unitData s id j = .data
    ((List.range j.card.rowBytes).map fun i => (leBytes 8 j.card.p0 ++ leBytes 8 j.card.p1).getD (i % 16) 0)
    (List.replicate j.card.rowBytes false) 0 j.card.rowBytes 0 s) ∧
  (∀ s id j ls, j.card.kind = 1 → j.card.spsrc = false →
    xlateSet s (.job j.cluster) j.part j.ctx .read (ctxSup s j.part j.ctx)
      (rangeAccs ((j.card.src + j.unit * j.card.spitch) % 2 ^ 64) j.card.rowBytes) = .ok ls →
    let q := readAllMarks (jobSees s id ls) (.job id) ls
    unitData s id j = .data q.1.1 q.1.2 0 q.1.1.length 0 q.2) ∧
  (∀ s id j acc gs, spFind s.jobs id = some j → jobFault s id j = some (acc, gs) → canReport s j.part = true →
    ∃ t b, exec (.jobFaultSuspend id) s = .next t ∧ batched t j.part b (.job id) ∧ t.mem = s.mem ∧
      spFind t.jobs id = some { j with batch := some b, phase := .suspended, wordStep := j.phase == .finishing }) ∧
  (∀ s id j, spFind s.jobs id = some j → j.phase = .suspended → j.batch = none →
    exec (.jobResume id) s = .next (putJob s id
      (if j.wordStep then { j with failed := false, wordStep := false, phase := .finishing, wordFail := j.failed }
        else if j.failed then { j with failed := false, phase := .finishing, status := 5 }
        else { j with phase := if j.checked then .running else .entered }))) ∧
  (∀ s id j, spFind s.jobs id = some j → j.phase = .finishing →
    let st := if j.status = 0 then 1 else j.status
    (wordWanted j st = false → exec (.jobComplete id) s = .next (completeJob s id j st)) ∧
    (∀ ls, wordWanted j st = true → jobXlate s j .write j.card.cword 8 = .ok ls →
      exec (.jobComplete id) s = .next (completeJob (engineWrite s (.job id) [releaseOf s (.job id) j.card.scope] ls (leBytes 8
        (st + (if j.poison then 2 ^ 7 else 0) + j.card.jobid * 2 ^ 16 + min j.bytes (2 ^ 32 - 1) * 2 ^ 32)) []) id j st))) ∧
  (∀ s id j q i st, j.team = none → j.op = none → j.src = some (q, i) → j.card.kind ≠ 6 →
    let ids := (getKnow s (.job id)).released
    completeJob s id j st =
      recordDone { forget (endMember s j.stream j.order j.card.regions ids) (.job id) with jobs := spDel s.jobs id } j.part q i ids) ∧
  (∀ s id j st tid op o t, j.team = some tid → j.op = some op → spFind s.ops op = some o → getTeam s tid = some t →
    t.phase ≠ .ended → j.card.bvalid = true → t.frame = none →
    ∃ u, getTeam (completeJob s id j st) tid = some u ∧ u.jobsDone = t.jobsDone + 1 ∧
      (getBar u j.card.bar).pending =
        (BitVec.ofInt 32 ((getBar t j.card.bar).pending - ((j.card.declared - j.counted : Nat) : Int))).toInt ∧
      spFind (completeJob s id j st).ops op = none ∧ (completeJob s id j st).mem = s.mem)

/-- LAUNCH and SPAWN (16 R387; 09 R201): behind a release edge at .dev the 64-byte record goes to the task graph unit, and
the path waits for the verdict; a full unit makes it wait; NODE_ENTRY then gives D the reason and retires it. -/
def Obligations.LaunchAndSpawn : Prop :=
  let launches (i : Fields → Instr) (spawn : Bool) : Prop :=
    ∀ f s c bs s1, issuer s = some c → f.guardLegal = true → launchLegal c f = true → active c f ≠ 0 →
      let lane := lowLane (active c f)
      let va := srcVal s c .q64 (opnd f.a) lane
      srcBad c true (opnd f.a) lane = false → va % 64 = 0 → ReadsObject (publishAt s c.core 4) c lane va 64 bs s1 →
      (nodeCount s1 c.part < 4096 → ∃ t, exec (i f) s = .next t ∧
        spFind t.entries s.order = some
          { part := c.part, ctx := c.ctx, record := leNat bs
            src := .launch ⟨c.gid, c.live⟩ (match opnd f.d with
              | .s n => some n
              | _ => none) spawn c.t.node
            known := releasedBy s (threadsOf c.gid (active c f)) } ∧
        t.order = s.order + 1 ∧ t.cores = s1.cores ∧
        getGroup t c.gid = some (waitsFor s c c.g (.verdict s.order))) ∧
      (4096 ≤ nodeCount s1 c.part → exec (i f) s = .next (modGroup s1 c.gid fun _ => waitsFor s c c.g .tguFull))
  launches .launch false ∧ launches .spawn true ∧
  (∀ s pend q c dst reason, issOf s q = some c → c.p.wait = .verdict pend → c.p.clause.isSome = true →
    c.g.frame = none →
    deliverVerdict s pend q dst reason = modGroup s c.gid fun _ => past c (match dst with
      | some k => c.g.setS k (reason % 2 ^ 32)
      | none => c.g))

/-- SRD, SWR and PERF (16 R397, R398): every system register reads as the state has it; the writable ones take the value;
the context's fields and the queue limits only for a supervisor; the counters. -/
def Obligations.SystemRegisters : Prop :=
  let known (n : Nat) : Bool :=
    decide (n < 5) || (decide (0x10 ≤ n) && decide (n < 0x16)) || n == 0x20 || n == 0x21
      || (decide (0x100 ≤ n) && decide (n < 0x140))
  let wide (n : Nat) : Bool := decide (n < 3) || n == 4 || (decide (0x10 ≤ n) && decide (n < 0x16))
  let field (n : Nat) : Nat := if n = 4 then 192 else if n < 0x14 then 256 + 64 * (n - 0x10) else 640 + 64 * (n - 0x14)
  (∀ f : Fields,
    let n := f.imm18.toNat
    Writes (.srd f) f
      (fun c => f.mod == 0 && f.x == 0 && f.a == zeroCode && known n && (opnd f.d).isScalarReg && dstLegal c (wide n) (opnd f.d))
      (fun _ _ _ => false) noV (fun s c => toSca f.d (wide n)
        (if n = 0 then c.g.trapinfo.cause + c.g.trapinfo.lane * 2 ^ 8 + c.g.trapinfo.slot * 2 ^ 16 + c.g.trapinfo.pslot * 2 ^ 20
          else if n = 1 then c.g.trapinfo.addr.toNat
          else if n = 2 then (match c.g.stack.find? fun r => r.kind == .trap with
            | some r => r.addr % 2 ^ 48 + r.slot % 16 * 2 ^ 48
            | none => 0)
          else if n = 3 then (match getNode s c.t.node with
            | some k => k.popstat
            | none => 0)
          else if n = 0x20 then c.ctx
          else if n = 0x21 then s.stepping
          else if n < 0x20 then ctxBits s c.part c.ctx (field n) 64
          else limitWord s (clusterOf c.core) (n - 0x100))) noP) ∧
  (∀ f s c, issuer s = some c → f.guardLegal = true → f.mod = 0 → f.x = 0 → f.d = zeroCode → active c f ≠ 0 →
    let n := f.imm18.toNat
    swrSource c (wide n) (opnd f.a) = true → srcBad c (wide n) (opnd f.a) 0 = false →
    let v := srcVal s c (if wide n then .q64 else .w32) (opnd f.a) 0
    (∀ pre r post, n = 2 → c.g.stack = pre ++ r :: post → (∀ x ∈ pre, x.kind ≠ .trap) → r.kind = .trap →
      Goes (.swr f) s c (past c { c.g with
        stack := pre ++ { r with
          addr := v % 2 ^ 48, slot := v / 2 ^ 48 % 16, handler := if v % 2 ^ 48 = r.addr then r.handler else none } :: post })) ∧
    (n = 2 → (∀ x ∈ c.g.stack, x.kind ≠ .trap) → exec (.swr f) s = .next (takeTrap s c 0x0C 0 0)) ∧
    (n = 3 → exec (.swr f) s = .next (modGroup (modNode s c.t.node fun k =>
      { k with popstat := k.popstat - (k.popstat &&& (v % 16)) }) c.gid fun _ => behind c)) ∧
    ((n = 4 ∨ 0x10 ≤ n ∧ n < 0x16) →
      (c.sup s = true → exec (.swr f) s = .next
        (modGroup (setCtxBits s c.part c.ctx (field n) 64 v) c.gid fun _ => behind c)) ∧
      (c.sup s = false → exec (.swr f) s = .next (takeTrap s c 0x11 0 0))) ∧
    (0x100 ≤ n ∧ n < 0x140 →
      (c.sup s = true → exec (.swr f) s = .next
        (modGroup (writeLimit s (clusterOf c.core) (n - 0x100) v) c.gid fun _ => behind c)) ∧
      (c.sup s = false → exec (.swr f) s = .next (takeTrap s c 0x11 0 0))) ∧
    ((n < 2 ∨ n = 0x20 ∨ n = 0x21 ∨ known n = false) → exec (.swr f) s = .next (illegalOperand s c))) ∧
  (∀ f : Fields, Writes (.perf f) f
    (fun c => f.mod == 0 && f.x == 0 && f.a == 0 && decide (f.imm18.toNat ≤ 3) && (opnd f.d).isScalarReg
      && dstLegal c true (opnd f.d)) (fun _ _ _ => false) noV
    (fun s c => toSca f.d true (match f.imm18.toNat with
      | 0 => c.g.retired
      | 1 => c.g.clauses
      | 2 => c.g.resident + (match c.g.place with
          | some p => clkOf s (p / 256) - c.g.age
          | none => 0)
      | _ => c.g.faultSaves)) noP)

/-! ## Populations -/

/-- RESAMP, RESAMP_COMPLETE, SPAWN_RECORD_DISPATCH and REFILL (16 R381 to R386; 08 R191 to R193): the arrival, the copies
of every index, which sum to the target and start one behind another, the new generation, a team for waiting clones, and
lanes filled from the dispenser. -/
def Obligations.Populations : Prop :=
  (∀ f s c, issuer s = some c → resampFields c f = true →
    (∀ l ∈ lanesOf c.p.mask, srcBad c false (opnd f.a) l = false) → srcBad c false (opnd f.b) 0 = false →
    srcBad c true (opnd f.c) 0 = false →
    let nt := srcVal s c .w32 (opnd f.b) 0
    let seed := if f.c = zeroCode then 0 else srcVal s c .q64 (opnd f.c) 0
    1 ≤ nt → nt ≤ 2 ^ 26 → (f.mod = 1 → unitOffset seed = true) →
    (isPopulation s c.t = true → resampAlone c.g c.p = true → exec (.resamp f) s = .next
      (modGroup (modNode s c.t.node fun n => { n with arrivals := n.arrivals ++ [
          { path := ⟨c.gid, c.live⟩, weights := (lanesOf c.p.mask).map fun l => (l, srcVal s c .f32 (opnd f.a) l)
            target := nt, explicit := f.mod == 1, seed := seed
            dst := match opnd f.d with
              | .s n => some n
              | _ => none
            next := nextClause c.p, behind := advance c.p }] }) c.gid fun _ => waitsFor s c c.g .resamp)) ∧
    (isPopulation s c.t = false ∨ resampAlone c.g c.p = false → exec (.resamp f) s = .next (takeTrap s c 0x15 0 0))) ∧
  (∀ ws nt u l, resampCounts ws nt u = some l →
    l.length = ws.length ∧ (l.map (·.1)).sum = nt ∧
    ∀ i < l.length, (l.getD i (0, 0)).2 = ((l.take i).map (·.1)).sum) ∧
  (∀ s node n a r t, getNode s node = some n → popArrived s node n = true → n.arrivals = a :: r →
    (∀ b ∈ r, (b.target, b.explicit, b.seed) = (a.target, a.explicit, a.seed)) → resampFinish s node n a = some t →
    exec (.resampComplete node) s = .next t ∧
    ∃ m, getNode t node = some m ∧ m.arrivals = [] ∧ m.gen = n.gen + 1 ∧
      (resampCounts (popWeights n.popSize (popThreads s n.arrivals)) a.target (resampU a n.gen) ≠ none →
        m.popSize = a.target)) ∧
  (∀ s node n a r b, getNode s node = some n → popArrived s node n = true → n.arrivals = a :: r → b ∈ r →
    (b.target, b.explicit, b.seed) ≠ (a.target, a.explicit, a.seed) →
    exec (.resampComplete node) s = .next (resampMismatch s node n.arrivals)) ∧
  (∀ s node n core slots, getNode s node = some n → n.spawns ≠ [] → ctxPlaces s n.part n.ctx = true →
    findCore s n.part n.k0.need (if n.k0.spread then n.avoid s else none) = some (core, slots) →
    let k := 64 * n.k0.tsize
    let t := { teamOfNode node n (n.teams + n.extraTeams) core with spawned := n.spawns.take k }
    let s1 := modNode (placeTeam s t core slots) node fun n =>
      { n with spawns := n.spawns.drop k, extraTeams := n.extraTeams + 1 }
    exec (.spawnRecordDispatch node) s = .next
      (if n.spawns.length ≤ k then freeUnits s1 n.part n.spawnAt.1 n.spawnAt.2 else s1)) ∧
  (∀ f s c n, issuer s = some c → f.guardPathWide = true → refillLegal c f = true → getNode s c.t.node = some n →
    (n.k0.persistent = false → exec (.refill f) s = .next (illegalOperand s c)) ∧
    (n.k0.persistent = true → spFind c.g.refill c.live = none → n.workn ≤ n.dispensed ∨ c.g.held = BitVec.allOnes 64 →
      Goes (.refill f) s c (past c ((writeScal c.g false (opnd f.d) 0).setPred 47 c.p.mask
        (if n.workn ≤ n.dispensed then c.p.mask else 0)))) ∧
    (n.k0.persistent = true → spFind c.g.refill c.live = none → n.dispensed < n.workn → c.g.held ≠ BitVec.allOnes 64 →
      let free := lanesOf (~~~c.g.held)
      let k := min free.length (n.workn - n.dispensed)
      ∃ t m g', exec (.refill f) s = .next t ∧ getNode t c.t.node = some m ∧ m.dispensed = n.dispensed + k ∧
        getGroup t c.gid = some g' ∧ t.mem = s.mem ∧
        ∀ i < k, spFind g'.ids (free.getD i 0) = some ⟨n.dispensed + i, 0, 0⟩))

/-! ## Rays -/

/-- TRACE, TRCONT, TRGET and TRAVERSAL_COMPLETE (16 R388 to R391; 17 R414): the traversal states and the pending token; the
next round; what TRGET reads; and a round's end, with the nearest of the hits found, or the miss values. The token in D of
TRCONT, the outcome of a root that is not aligned, the free bound of TRGET and what counts as a further hit are the model's
choices (logs 54, 55, 57, 58). -/
def Obligations.Rays : Prop :=
  let count (mode km1 : Nat) : Nat := if mode = 0 then 6 else if mode = 1 then 1 else 4 * (km1 + 1)
  (∀ f s c n, issuer s = some c → f.guardLegal = true → traceLegal c f = true → active c f ≠ 0 → tokenOf f.d = some n →
    let m := f.mod.toNat
    (c.g.tokPending n = true → Goes (.trace f) s c (waitsFor s c c.g (.token n))) ∧
    (c.g.tokPending n = false → busyToken c.g (lanesOf (active c f)) = none → srcBad c true (opnd f.a) 0 = false →
      (∀ l ∈ lanesOf (active c f), ∀ i < 8, c.g.badV (f.b.toNat + i) l = false) →
      let state (l : Nat) : RayState :=
        { ray := (List.range 8).map fun i => BitVec.ofNat 32 (c.g.getV (f.b.toNat + i) l)
          root := srcVal s c .q64 (opnd f.a) 0, mode := m % 4, coh := f.mod.getLsbD 2, km1 := f.x.toNat, first := f.c.toNat
          tok := n, known := knowAtIssue s (.thread c.gid l), pend := [(255, srcVal s c .q64 (opnd f.a) 0)] }
      Goes (.trace f) s c (past c
        { c.g.setTok n { st := .pending, first := f.c.toNat, count := count (m % 4) f.x.toNat, left := active c f } with
          rays := (lanesOf (active c f)).foldl (fun t l => spPut t l (state l)) (detach c.g.rays n) }))) ∧
  (∀ f s c n, issuer s = some c → f.guardLegal = true → f.mod = 0 → f.x = 0 → allZero [f.a, f.b, f.c] = true →
    tokenOf f.d = some n → active c f ≠ 0 → (c.g.tok n).neural = false → c.g.tokPending n = false →
    busyToken c.g (lanesOf (active c f)) = none →
    let on := (lanesOf (active c f)).filter fun l => match spFind c.g.rays l with
      | some r => r.mode == 2 && r.more
      | none => false
    ∃ g', Goes (.trcont f) s c (past c g') ∧
      (on = [] → (g'.tok n).st = .done false) ∧ (on ≠ [] → (g'.tok n).st = .pending ∧ (g'.tok n).left = maskOf on) ∧
      (∀ l ∈ on, ∀ r, spFind c.g.rays l = some r → spFind g'.rays l = some
        { r with
          active := true, tok := n, known := knowAtIssue s (.thread c.gid l), pend := [(255, r.root)], cand := [] }) ∧
      (∀ l ∈ lanesOf (active c f), l ∉ on → ∀ r, spFind c.g.rays l = some r →
        spFind g'.rays l = some { r with hits := [], tok := if r.tok = n then 16 else r.tok })) ∧
  (∀ f s c n, issuer s = some c → f.guardLegal = true → f.mod = 0 → f.x.toNat < 3 → allZero [f.b, f.c] = true →
    tokenOf f.a = some n → vdstLegal c false (opnd f.d) = true → active c f ≠ 0 → (c.g.tok n).neural = false →
    c.g.tokPending n = false →
    ∃ g', exec (.trget f) s = .next { modGroup s c.gid (fun _ => g') with fresh := s.fresh + 1 } ∧
      Wrote (behind c) g' (toVec f.d false (active c f) fun l => match spFind c.g.rays l with
        | none => if f.x = 2 then 0x7F800000 else 0
        | some r =>
          if f.x = 0 then r.hits.length
          else if f.x = 1 then (r.mode == 2 && r.more).toNat
          else match r.bound with
            | some b => b.1
            | none => (Config.freeWord s.fresh).toNat) noSca noPred) ∧
  (∀ s gid lane g r t, getGroup s gid = some g → spFind g.rays lane = some r → getTeam s g.team = some t →
    r.active = true → r.fault = none → g.saved = false → groupAtoms s gid = false →
    (r.failed = true ∨ r.err = true → exec (.traversalComplete gid lane) s = .next (missRay s gid lane r false true)) ∧
    (r.failed = false → r.err = false →
      (rayForm (r.ray.map (·.toNat)) = .empty →
        exec (.traversalComplete gid lane) s = .next (missRay s gid lane r false false)) ∧
      (∀ ray, rayForm (r.ray.map (·.toNat)) = .walk ray → r.root % 128 ≠ 0 →
        exec (.traversalComplete gid lane) s = .next (missRay s gid lane r false true)) ∧
      (∀ ray hs s1, rayForm (r.ray.map (·.toNat)) = .walk ray → r.root % 128 = 0 →
        walkPending ⟨gid, lane, t.core.getD 0, t.part, t.ctx, r.known⟩ ray (r.ray.getD 3 0).toNat (r.ray.getD 7 0).toNat
          (fun k => if r.mode = 2 then k == 3 else k != 3) r.pend.zipIdx.reverse s r.cand = .ok (hs, s1) →
        exec (.traversalComplete gid lane) s = .next (endRay s1 gid lane (afterRound r hs)
          (hitWords r.mode r.km1 (afterRound r hs).hits) false false)))) ∧
  (∀ r hs, r.mode ≠ 2 →
    (hs = [] → (afterRound r hs).hits = []) ∧
    (hs ≠ [] → ∃ h ∈ hs, (afterRound r hs).hits = [h] ∧ ∀ k ∈ hs, keyLt k.key h.key = false)) ∧
  (∀ r hs, r.mode = 2 →
    let past (h : RayHit) : Bool := match r.bound with
      | some b => keyLt b h.key
      | none => true
    let got := (afterRound r hs).hits
    got.length = min (r.km1 + 1) (hs.filter past).length ∧ (∀ h ∈ got, h ∈ hs ∧ past h = true) ∧
    (got.Pairwise fun a b => keyLt b.key a.key = false) ∧
    ((afterRound r hs).more = true ↔ r.km1 + 1 < (hs.filter past).length))

/-! ## Textures and images -/

/-- TEX, TEXG, TEXQ, IMLD and IMST (16 R392, R393): the texels of each lane's footprint, weighed and rounded once; the
image's size; elements at integer coordinates; and the three address modes. -/
def Obligations.TexturesAndImages : Prop :=
  let image (c : Iss) (f : Fields) (r : BufRec) : Prop :=
    (∃ k, recScalar f.b = some k ∧ r = recAt c.g k) ∧ recInvalid r false = false ∧ r.tiled = true
  let samples (i : Fields → Instr) (legal : Iss → Fields → Bool) (mode : Fields → Nat) (linear : Fields → Bool)
      (gather : Bool) : Prop :=
    ∀ f s c r ls, issuer s = some c → Counts c f false (legal c f) → (∀ l ∈ lanesOf (active c f), imageBad c f 2 l = false) →
      image c f r → r.typed = true → typedSize r.format ≤ 4 →
      let uv (k l : Nat) : Nat := ftz32 (ftzOn c) (c.g.getV (f.a.toNat + k) l)
      let lane (l : Nat) : TexLane := texLane r (mode f) (linear f) (uv 0 l) (uv 1 l)
      xlCore s c .read ((lanesOf (active c f)).flatMap fun l => texAccs r (mode f) l (lane l)) = .ok ls →
      (c.p.exempt = true ∨ ∀ l ∈ ls, wpMatch s c.part c.ctx false .rd l.va l.size = false) →
      (∀ l ∈ ls, atomAhead s [.thread c.gid l.lane] l = false) →
      let q := loadLanes (fun l raw => loadValue (ftzOn c) false r 2 l.hi raw) (fun l => [.thread c.gid l]) none s ls
      exec (i f) s = .next (inFlight q.2 c false ((lanesOf (active c f)).flatMap fun l =>
        let mine := q.1.filter fun e => e.1 == l
        match opnd f.d with
        | .v k => laneBlock k l (texResult (ftzOn c) gather (lane l) (mine.map fun e => texelVal r.format e.2.1))
            (mine.any fun e => e.2.2)
        | _ => []))
  samples .tex (fun c f => decide (f.mod.toNat < 8) && f.mod.toNat % 4 != 3 && f.x == 0 && f.c == zeroCode
    && (recScalar f.b).isSome && vecRange c 2 f.a && vecDst c 1 f.d) (fun f => f.mod.toNat % 4) (fun f => f.mod.getLsbD 2)
    false ∧
  samples .texg (fun c f => decide (f.mod.toNat < 3) && f.x == 0 && f.c == zeroCode && (recScalar f.b).isSome
    && vecRange c 2 f.a && vecDst c 4 f.d) (fun f => f.mod.toNat) (fun _ => true) true ∧
  (∀ f s c r, issuer s = some c → Counts c f false (f.mod == 0 && f.x == 0 && f.c == zeroCode && f.a == zeroCode
      && (recScalar f.b).isSome && dstLegal c true (opnd f.d)) → imageBad c f 0 (lowLane (active c f)) = false →
    image c f r → exec (.texq f) s = .next (inFlight s c false
      ((accessLanes c f).flatMap fun l => blockWrites (opnd f.d) 2 l (r.width + 2 ^ 32 * r.height) false))) ∧
  (∀ f s c r ls, issuer s = some c → Counts c f false (imageLegal c f && loadDst c f.x.toNat (opnd f.d) (opnd f.a)) →
    (∀ l ∈ lanesOf (active c f), imageBad c f 2 l = false) → image c f r → recForbids r f.x.toNat = false →
    Reaches s c .read (some .rd) (r.size f.x.toNat) (imagePlaces c f r (lanesOf (active c f))) ls →
    let who := loaders c (opnd f.d) (active c f)
    let q := loadLanes (fun l raw => loadValue (ftzOn c) false r f.x.toNat l.hi raw) who none s ls
    (∀ l ∈ ls, atomAhead s (who l.lane) l = false) →
    exec (.imld f) s = .next (inFlight q.2 c false ((lanesOf (active c f)).flatMap fun l =>
      blockWrites (opnd f.d) (blockRegs f.x.toNat) l (loadedOf q.1 l).1 (loadedOf q.1 l).2))) ∧
  (∀ f s c r ls, issuer s = some c → Counts c f true (imageLegal c f && storeSrc c f.x.toNat (opnd f.d)) →
    (∀ l ∈ lanesOf (active c f), imageBad c f 2 l = false ∧ blockBad c.g (opnd f.d) (blockRegs f.x.toNat) l = false) →
    image c f r → recForbids r f.x.toNat = false →
    Reaches s c .write (some .wr) (r.size f.x.toNat) (imagePlaces c f r (lanesOf (active c f))) ls →
    (∀ l ∈ ls, atomAhead s [.thread c.gid l.lane] l = false) →
    exec (.imst f) s = .next (inFlight (storeLanes c.gid r.nibble (storedBits s c f r) none s ls) c true [])) ∧
  (∀ (i : Int) (n : Nat), 0 < n →
    (∀ m, texAddr m i n < n) ∧ (0 ≤ i → i < n → ∀ m, texAddr m i n = i.toNat) ∧
    texAddr 1 (i + n) n = texAddr 1 i n ∧ texAddr 2 (i + 2 * n) n = texAddr 2 i n ∧ texAddr 2 (-1 - i) n = texAddr 2 i n)

/-! ## Visibility -/

/-- VISR, PRIMF and EMIT (16 R394, R395; 17 R400 to R402, R408): the reads of the lanes that name an entry or primitive,
and the values of the others; what an entry gives; the triangles sent to the rasterisers behind a release edge. -/
def Obligations.VisibleSurface : Prop :=
  let none_ (k : Option Nat) (l id depth : Nat) : List RegWrite :=
    match k with
    | none => []
    | some r => [.vec r l (BitVec.ofNat 32 id) false, .vec (r + 1) l (BitVec.ofNat 32 id) false,
        .vec (r + 2) l (BitVec.ofNat 32 depth) false]
  let reads (s : State) (c : Iss) (f : Fields) (ws : List RegWrite) (rs : List LaneRead) : State :=
    startOp (modGroup s c.gid fun _ => behind c)
      { gid := c.gid, flag := setFlag c.p false, writes := ws, reads := rs
        known := rs.map fun r => (r.lane, knowAtIssue s (.thread c.gid r.lane)), first := (vecReg (opnd f.d)).getD 256
        count := if (vecReg (opnd f.d)).isSome then 3 else 0, clause := c.p.addr, slot := c.p.slot }
  (∀ f s c k t, issuer s = some c → Counts c f false (f.mod == 0 && f.x == 0 && f.c == 0 && (recScalar f.b).isSome
      && vecRange c 3 f.a && vecDst c 3 f.d) → (∀ l ∈ lanesOf (active c f), imageBad c f 3 l = false) →
    recScalar f.b = some k → targetOf (recWord c.g k) = some t →
    exec (.visr f) s = .next (reads s c f
      (((lanesOf (active c f)).filter fun l => (visEntry c f t l).isNone).flatMap fun l =>
        none_ (vecReg (opnd f.d)) l (2 ^ 32 - 1) 0x7F800000)
      ((lanesOf (active c f)).filterMap fun l => (visEntry c f t l).map fun a => .entry l a))) ∧
  (∀ f s c, issuer s = some c → Counts c f false (f.mod == 0 && f.x == 0 && f.c == 0 && f.b == 0 && vecRange c 2 f.a
      && f.a.toNat % 2 == 0 && vecDst c 3 f.d) → (∀ l ∈ lanesOf (active c f), srcBad c true (opnd f.a) l = false) →
    exec (.primf f) s = .next (reads s c f
      (((lanesOf (active c f)).filter fun l => primId c f l == 2 ^ 64 - 1).flatMap fun l =>
        none_ (vecReg (opnd f.d)) l (2 ^ 32 - 1) (2 ^ 32 - 1))
      (((lanesOf (active c f)).filter fun l => primId c f l != 2 ^ 64 - 1).map fun l => .prim l (primId c f l)))) ∧
  (∀ s op o g t, spFind s.ops op = some o → o.left = 0 → o.batch = none → o.failed = false → o.reads ≠ [] →
    o.heldByFence s = false → groupAtoms s o.gid = false → getGroup s o.gid = some g → getTeam s g.team = some t →
    ∀ ws gs u, laneReads ⟨o.gid, t.core.getD 0, t.part, t.ctx, o.known⟩ (if o.count = 0 then none else some o.first) s
      o.reads = (ws, [], gs, u) →
    exec (.operationComplete op) s = .next (completeOp { u with
      ops := spPut u.ops op { o with reads := [], batch := none, writes := o.writes ++ ws } } op)) ∧
  (∀ s h l va bs bad u, lateRead s h l va 12 = .ok bs bad u → laneRead s h (.entry l va) = .words
    [(leNat (bs.take 4), (bad.take 8).any id), (leNat ((bs.drop 4).take 4), (bad.take 8).any id),
     (leNat ((bs.drop 8).take 4), ((bad.drop 8).take 4).any id)] u) ∧
  (∀ f s c k t, issuer s = some c → Counts c f true (f.mod == 0 && f.x == 0 && f.d == 0 && (recScalar f.b).isSome
      && vecRange c 9 f.a && vecRange c 2 f.c && f.c.toNat % 2 == 0) →
    (∀ l ∈ lanesOf (active c f), imageBad c f 9 l = false ∧ srcBad c true (opnd f.c) l = false) →
    recScalar f.b = some k → targetOf (recWord c.g k) = some t →
    let s1 := publishAt s c.core 4
    let tri (l : Nat) : Tri :=
      { known := (getKnow s (.thread c.gid l)).released, node := c.t.node, ctx := c.ctx, op := s.order
        base := t.base, width := t.width, height := t.height, log2s := t.log2s
        verts := (List.range 9).map fun i => c.g.getV (f.a.toNat + i) l, id := srcVal s c .q64 (opnd f.c) l }
    ∃ u, exec (.emit f) s = .next u ∧ u.mem = s1.mem ∧ u.cores = s1.cores ∧
      (getPart u c.part).tris = (getPart s1 c.part).tris ++ (lanesOf (active c f)).map tri ∧
      spFind u.ops s.order = some { gid := c.gid, flag := setFlag c.p true, left := (lanesOf (active c f)).length } ∧
      getGroup u c.gid = some (addFlag (behind c) (setFlag c.p true))) ∧
  (∀ (base width log2s x y k x' y' k' : Nat), x < width → x' < width → width < 2 ^ 16 → y < 2 ^ 16 → y' < 2 ^ 16 →
    log2s < 4 → k < 2 ^ log2s → k' < 2 ^ log2s →
    sampleAddr base width log2s x y k = sampleAddr base width log2s x' y' k' → x = x' ∧ y = y' ∧ k = k')

/-- ORDB, ORDE and ORDB_WAKE (16 R396; 02 R27): ORDB goes on behind an acquire edge at .dev once every lane's counter has
held its value, and waits until then; ORDE stores the next value of each lane's counter behind a release edge. -/
def Obligations.OrderedSections : Prop :=
  let key (s : State) (c : Iss) (f : Fields) (l : Nat) : Nat := srcVal s c .w32 (opnd f.a) l
  let val (s : State) (c : Iss) (f : Fields) (l : Nat) : Nat := srcVal s c .w32 (opnd f.b) l
  let counters (s : State) (c : Iss) (f : Fields) (lanes : List Nat) : List LaneAcc :=
    lanes.map fun l => ⟨l, (ctxBase s c.part c.ctx 640 + 4 * key s c f l) % 2 ^ 64, 4, false⟩
  let ready (s : State) (c : Iss) (f : Fields) : Prop :=
    f.guardLegal = true ∧ orderLegal c f = true ∧ active c f ≠ 0 ∧
      ∀ l ∈ lanesOf (active c f), srcBad c false (opnd f.a) l = false ∧ srcBad c false (opnd f.b) l = false ∧
        key s c f l < 2 ^ 16
  let rest (c : Iss) (f : Fields) : List Nat := (lanesOf (active c f)).filter fun l => !c.p.found.getLsbD l
  let polls (s : State) (c : Iss) (f : Fields) (reads : List (Nat × Got) × State) : Prop :=
    ready s c f ∧ ((lanesOf (active c f)).map (key s c f)).Nodup ∧ c.p.failed = false ∧
      (∃ ls, xlateSet s (.core c.core) c.part c.ctx .table true (counters s c f (rest c f)) = .ok ls ∧
        reads = counterReads c.gid s ls) ∧
      ∀ e ∈ reads.1, e.2.bad = false
  let hits (s : State) (c : Iss) (f : Fields) (reads : List (Nat × Got) × State) : List (Nat × Got) :=
    reads.1.filter fun e => leNat e.2.bytes == val s c f e.1
  let goesOn (s : State) (c : Iss) (f : Fields) (reads : List (Nat × Got) × State) : State :=
    modGroup (acquireAll reads.2 (threadsOf c.gid (active c f)) 4 (addRels c.p.saw ((hits s c f reads).flatMap fun e => e.2.rels))) c.gid
      fun _ => behind c
  (∀ f s c reads, issuer s = some c → polls s c f reads →
    ((hits s c f reads).length = (rest c f).length → exec (.ordb f) s = .next (goesOn s c f reads)) ∧
    ((hits s c f reads).length ≠ (rest c f).length → exec (.ordb f) s = .next
      (modGroup (if hits s c f reads = [] then s else reads.2) c.gid fun _ => c.g.setLive c.live (some { c.p with
        wait := .ordering, since := s.clk, found := c.p.found ||| maskOf ((hits s c f reads).map (·.1))
        saw := addRels c.p.saw ((hits s c f reads).flatMap fun e => e.2.rels) })))) ∧
  (∀ f s q c reads, issOf s q = some c → c.p.wait = .ordering → c.p.hold = none → slotInstr c.p = some (.ordb f) →
    mayRetry s c = true → polls { s with cur := some q } c f reads → (hits s c f reads).length = (rest c f).length →
    exec (.ordbWake q) s = .next (edgesBehind s (goesOn s c f reads) c (.ordb f))) ∧
  (∀ f s c ls, issuer s = some c → ready s c f → c.p.failed = false → c.p.dropped = 0 →
    xlateSet s (.core c.core) c.part c.ctx .write true (counters s c f (lanesOf (active c f))) = .ok ls →
    let rels := releaseOfAll s (threadsOf c.gid (active c f)) 4
    exec (.orde f) s = .next (modGroup (ls.foldl (fun t e =>
      counterStore t (.thread c.gid e.lane) rels e (val s c f e.lane + 1)) (publishAt s c.core 4)) c.gid fun _ => behind c)) ∧
  (∀ s ag rels e v, e.kind ≠ 3 → e.loc % 8 + 4 ≤ 8 →
    l2ReadSet (counterStore s ag rels e v) [{ e with size := 4 }] = leBytes 4 v) ∧
  (∀ f s c, issuer s = some c → f.guardLegal = true → orderLegal c f = true → active c f ≠ 0 →
    (∀ l ∈ lanesOf (active c f), srcBad c false (opnd f.a) l = false ∧ srcBad c false (opnd f.b) l = false) →
    (∃ l ∈ lanesOf (active c f), 2 ^ 16 ≤ key s c f l) →
    exec (.ordb f) s = .next (illegalOperand s c) ∧ exec (.orde f) s = .next (illegalOperand s c))

/-- RASTER_TRIANGLE and SAMPLE_WRITE (17 R402 to R407, R409): the oldest triangle reaches the samples it covers; a sample
replaces its entry when it is nearer, or as near with a lower id; and a shared edge belongs to one side. What counts as the
entry that the node found is the model's choice (log 72). -/
def Obligations.Rasterisation : Prop :=
  (∀ s part t rest, (getPart s part).tris = t :: rest →
    ∃ u, exec (.rasterTriangle part) s = .next u ∧ u.mem = s.mem ∧ u.groups = s.groups ∧
      (getPart u part).tris = rest ∧
      (getPart u part).samples = (getPart s part).samples ++ triSamples s part t ∧
      (∀ o, spFind s.ops t.op = some o → spFind u.ops t.op = some { o with left := o.left - 1 }) ∧
      (∀ n, getNode s t.node = some n → ∃ m, getNode u t.node = some m ∧
        (spGet {} m.stats (t.id / 2 ^ 44)).primsIn = (spGet {} n.stats (t.id / 2 ^ 44)).primsIn + 1)) ∧
  (∀ s part x rest ls, (getPart s part).samples = x :: rest → x.batch = none →
    let gone := modPart s part fun p => { p with samples := rest }
    (x.failed = true → exec (.sampleWrite part) s = .next gone) ∧
    (x.failed = false →
      xlateSet s (.raster x.ras) part x.ctx .write (ctxSup s part x.ctx) (rangeAccs x.va 12) = .ok ls →
      let q := readSet (learn (countSample gone x ls) (.raster x.ras) x.known) [.raster x.ras] ls
      let d := leNat q.1.bytes
      exec (.sampleWrite part) s = .next (if replaces x.z x.id (d / 2 ^ 64 % 2 ^ 32) (d % 2 ^ 64) then
        storeSet q.2 (.raster x.ras) false [] ls (leBytes 8 x.id ++ leBytes 4 x.z) else q.2))) ∧
  (∀ s x n l r, getNode s x.node = some n → replaces x.z x.id (entryBefore s n l).1 (entryBefore s n l).2 = true →
    ∃ m, getNode (countSample s x (l :: r)) x.node = some m ∧ x.va ∈ (spGet {} m.stats (x.id / 2 ^ 44)).samples) ∧
  (∀ z id depth sid, replaces z id depth sid = true ↔
    ((decodeFmt 1 depth).isNaN = true ∨ (decodeFmt 1 z).lt (decodeFmt 1 depth) = true ∨
      ((decodeFmt 1 z).cmp (decodeFmt 1 depth) = 0 ∧ id < sid))) ∧
  (∀ (a b : Vertex) (x y : Int), (a.x, a.y) ≠ (b.x, b.y) → insideEdge a b x y = !insideEdge b a x y) ∧
  (∀ (a b c : Vertex) (x y : Int), edgeAt a b x y + edgeAt b c x y + edgeAt c a x y = edgeAt a b c.x c.y)

/-! ## Clauses and groups -/

/-- CLAUSE_FETCH, DICTIONARY_SLOT_LOAD, PATH_ROTATION, GROUP_BOOST and GROUP_END (08 R183, R184; 09 R213; 11 R233 to R235,
R241, R246; 12 R271): the words of a clause decode to its slots; a loaded or rejected image; rotation with the oldest
parked record; the boost after 1,024 ready clocks; and the end of a group. -/
def Obligations.ClausesAndGroups : Prop :=
  let freed (s : State) (gid team : Nat) : State :=
    modTeam (forgetGroup (modGroup s gid fun g => { g with place := none }) gid) team fun t =>
      { t with left := addIds t.left (groupReleased s gid) }
  (∀ s q c h s1 ws s2, issOf s q = some c → canRun c = true → c.p.clause = none → c.p.wait = .none →
    (c.p.rotate = false ∨ hasParked c.g = false) → c.p.fetchFail = false → c.p.addr < 2 ^ 48 → c.p.resumed = false →
    fetchWords s c c.p.addr 1 = .words [h] s1 → headerOk (BitVec.ofNat 32 h) = true →
    fetchWords s1 c (c.p.addr + 4) (h % 16) = .words ws s2 → needsDict 15 ws = false →
    exec (.clauseFetch q) s = .next (modPath s2 c.gid c.live fun p => withClause p
      { addr := c.p.addr, header := BitVec.ofNat 32 h, slots := decodeSlots .rejected 15 ws })) ∧
  (∀ v k hi lo r, decodeSlots v (k + 1) (0xFF000000 :: hi :: lo :: r) =
    .long (BitVec.ofNat 64 (hi * 2 ^ 32 + lo)) true :: .cont :: .cont :: decodeSlots v k r) ∧
  (∀ es k w r, w < 2 ^ 32 → w / 2 ^ 24 ≠ 0xFF →
    let e := es.getD (w / 2 ^ 24) (0, 0)
    let ent := e.1 + 2 ^ 64 * e.2
    decodeSlots (.image es) (k + 1) (w :: r) =
      (if entryValid ent then .long (expand ent (w % 2 ^ 24)) false else .trap 0x04) :: decodeSlots (.image es) k r) ∧
  (∀ s core ctx handle c bs bad, wantsDict s core ctx handle = some c → (∀ d, dictSlot s c = some d → d.failed = false) →
    let s1 := openDict s c
    let at_ := (ctxBase s c.part c.ctx 256 + 16 * handle) % 2 ^ 64
    readRange s1 (.core c.core) c.part c.ctx .table true at_ 16 = .ok bs bad →
    let s2 := rangeAsked s1 (.core c.core) c.part c.ctx .table true at_ 16
    let e := leNat bs
    let addr := e / 2 ^ 12 % 2 ^ 36 * 4096
    (bad = true → exec (.dictionarySlotLoad core ctx handle) s = .next (closeDict s2 c .rejected [])) ∧
    (bad = false → e % 2 ^ 12 = 1 → e / 2 ^ 48 % 2 ^ 16 = 0 → e / 2 ^ 96 % 2 ^ 32 = 0 →
      let s3 := modDict s2 c fun d => { d with addr := addr }
      ∀ ls, xlateSet s3 (.core c.core) c.part c.ctx .fetch (c.sup s3) (rangeAccs addr 4096) = .ok ls →
      let q := codeSet c.core (imageMust s3 c) s3 ls
      let es := imageEntries q.1.bytes
      exec (.dictionarySlotLoad core ctx handle) s = .next (closeDict (noteFetched q.2 c ls) c
        (if q.1.bad = false ∧ imageOk s.stepping (es.map fun e => e.1 + 2 ^ 64 * e.2) = true then .loaded else .rejected) es))) ∧
  (∀ s c st es, (∃ d, dictSlot (openDict s c) c = some d) ∧ ∀ d, dictSlot s c = some d →
    openDict s c = s ∧ dictSlot (closeDict s c st es) c = some { d with state := st, entries := es, used := s.clk, failed := false }) ∧
  (∀ s q c pre r post, issOf s q = some c → c.p.rotate = true → c.p.clause = none → c.g.stack = pre ++ r :: post →
    r.kind = .parked → (∀ x ∈ post, x.kind ≠ .parked) →
    let mine : Rec :=
      { kind := .parked, addr := c.p.addr, slot := c.p.slot, mask := c.p.mask, fmt := c.p.fmt, handle := c.p.handle }
    exec (.pathRotation q) s = .next (modGroup s c.gid fun g =>
      { g.setLive c.live (some (freshPath r.addr r.slot r.mask r.fmt r.handle)) with stack := mine :: pre ++ post })) ∧
  (∀ s gid g n p, getGroup s gid = some g → p.boosted = false → (n = 0 ∨ n = 1) → g.live n = some p → 1024 ≤ p.readyFor →
    readyNow s ⟨gid, n⟩ = true → ∃ t k, exec (.groupBoost gid) s = .next t ∧ getGroup t gid = some k ∧
      k.live n = some { p with boosted := true } ∧ { t with groups := s.groups } = s) ∧
  (∀ s gid g t, getGroup s gid = some g → getTeam s g.team = some t → g.ended = false → t.phase = .running →
    g.saved = false → g.live0 = none → g.live1 = none → g.stack = [] → spawnDuty s gid t = false →
    (∀ e ∈ t.latch, e.2.members.contains g.index = false) →
    let s1 := setGroup s gid { g with ended := true, rets := [], halt := none }
    (groupQuiet s gid g = false → exec (.groupEnd gid) s = .next s1) ∧
    (groupQuiet s gid g = true → (∃ k ∈ t.groups, k ≠ gid ∧ ∃ x, getGroup s k = some x ∧ x.ended = false) →
      exec (.groupEnd gid) s = .next (freed s1 gid g.team))) ∧
  (∀ s gid g t, getGroup s gid = some g → getTeam s g.team = some t → g.ended = true → g.place ≠ none →
    groupQuiet s gid g = true → (∃ k ∈ t.groups, k ≠ gid ∧ ∃ x, getGroup s k = some x ∧ x.ended = false) →
    exec (.groupEnd gid) s = .next (freed s gid g.team))

/-! ## Faults and invalidation -/

/-- FAULT_BATCH_ENTER_RING, FAULTQ_CONFIG_WRITE, FAULT_RELEASE_REPLAY and FAULT_RELEASE_FAIL, GROUP_FAULT_SAVE and
GROUP_RESTORE (03 R67 to R72; 10 R220, R221): records enter the ring in order of SEQ, the host is signalled, a release lets
the client go on, and a group leaves its core for a unit of the frame area and comes back. -/
def Obligations.FaultQueue : Prop :=
  (∀ s part pre b post, (getPart s part).batches = pre ++ b :: post → (∀ x ∈ pre, x.inRing = true) → b.inRing = false →
    b.records.length ≤ ringRoom (getPart s part) →
    let s1 := ringWrite s part b.records
    let s2 := modPart s1 part fun p =>
      { p with batches := p.batches.map fun x => if x.seq = b.seq then { x with inRing := true } else x }
    exec (.faultBatchEnterRing part) s = .next
      (if (getPart s2 part).faultSvc then { s2 with hostMsgs := s2.hostMsgs ++ [.mcSignal part] }
        else { s2 with hostMsgs := s2.hostMsgs ++ [.msix (4 * part)] })) ∧
  (∀ s part rs, (getPart s part).faultHead < ringSize (getPart s part) →
    faultRing (getPart s part) + 32 * ringSize (getPart s part) ≤ hbmSize →
    let p := getPart s part
    let q := getPart (ringWrite s part rs) part
    q.faultHead = (p.faultHead + rs.length) % ringSize p ∧ q.faultTail = p.faultTail ∧ q.batches = p.batches ∧
      (ringWrite s part rs).mem = s.mem ∧ (ringWrite s part rs).groups = s.groups) ∧
  (∀ s part size value, windowOpen s part →
    let p := getPart s part
    (p.faultHead = p.faultTail % ringSize p ∧ p.batches = [] →
      exec (.faultqConfigWrite part size value) s = .next (setPart s part
        { p with
          faultHead := 0, faultTail := 0, phase := true
          faultK := if size then max 7 (min 20 (value.toNat % 32)) else p.faultK
          faultBase := if size then p.faultBase else BitVec.ofNat 64 (value.toNat / 2 ^ 12 % 2 ^ 40 * 2 ^ 12) })) ∧
    (p.faultHead ≠ p.faultTail % ringSize p ∨ p.batches ≠ [] → exec (.faultqConfigWrite part size value) s = .next s)) ∧
  (∀ s part seq, windowOpen s part → (∀ b ∈ (getPart s part).batches, b.seq ≠ seq) →
    let bad := modPart s part fun p => { p with badRelease := true }
    exec (.faultReleaseReplay part seq) s = .next bad ∧ exec (.faultReleaseFail part seq) s = .next bad) ∧
  (∀ s part seq b gid live g p, windowOpen s part → (getPart s part).batches.find? (fun b => b.seq == seq) = some b →
    b.client = .group gid live → getGroup s gid = some g → g.live live = some p → live ≤ 1 →
    let gone := modPart s part fun p => { p with batches := p.batches.filter fun x => x.seq != seq }
    let free (fail : Bool) : Group :=
      { g.setLive live (some { p with wait := p.under, under := .none, failed := p.failed || fail }) with
        batch := none, release := if g.saved then some fail else none }
    exec (.faultReleaseReplay part seq) s = .next (modGroup gone gid fun _ => free false) ∧
    exec (.faultReleaseFail part seq) s = .next (modGroup gone gid fun _ => free true)) ∧
  (∀ s part seq b j, windowOpen s part → (getPart s part).batches.find? (fun b => b.seq == seq) = some b →
    b.client = .job j →
    let gone := modPart s part fun p => { p with batches := p.batches.filter fun x => x.seq != seq }
    exec (.faultReleaseReplay part seq) s = .next (modJob gone j fun x => { x with batch := none, failed := false }) ∧
    exec (.faultReleaseFail part seq) s = .next (modJob gone j fun x => { x with batch := none, failed := true })) ∧
  (∀ s gid g t u, getGroup s gid = some g → getTeam s g.team = some t → g.batch ≠ none → g.saved = false →
    t.phase = .running → g.halt ≠ some .halted → opsSettled s gid = true → findUnits s t.part 1 = some u →
    ∃ v k, exec (.groupFaultSave gid) s = .next v ∧ getGroup v gid = some k ∧ k.saved = true ∧ k.place = none ∧
      k.frame = some (unitAddr s t.part u) ∧ k.batch = g.batch ∧ k.faultSaves = g.faultSaves + 1) ∧
  (∀ s gid g t core a sl more, getGroup s gid = some g → getTeam s g.team = some t → t.core = some core →
    t.phase = .running → g.saved = true → g.batch = none → g.frame = some a →
    assignSlots (coreSlots s core) g.nregs 1 = some (sl :: more) →
    ∃ v k, exec (.groupRestore gid) s = .next v ∧ getGroup v gid = some k ∧ k.place = some (64 * core + sl) ∧
      k.release = none ∧ k.age = clkOf s ((64 * core + sl) / 256) ∧ v.mem = s.mem)

/-- INV_RANGE, INV_CONTEXT, INV_ALL, INV_RESERVED, INV_FLUSH and INV_COMMAND_COMPLETE (03 R54 to R57): a command enters the
queue of its partition, when it holds fewer than 16; OP 3 is dropped with ERR; FLUSH writes every cache back; once what the
partition's clients have translated is performed, the translation caches drop what the command covers and DONE counts on. -/
def Obligations.Invalidation : Prop :=
  let cmd (s : State) (part : Nat) (v : Quad) (op : Nat) : InvCmd :=
    { op := op, flush := v.getLsbD 2, ctx := v.toNat / 2 ^ 16 % 2 ^ 16, addr := (getPart s part).invAddr.toNat / 4096
      count := (getPart s part).invCount.toNat }
  -- an entry stands for the addresses of its page, or of all entries of the table it names
  let covers (q : InvCmd) (x : CachedEntry) : Bool :=
    let b := if x.lvl = 0 ∧ x.bits.testBit 1 then 12 + 2 * (x.bits / 2 ^ 10 % 4) else 12 + 9 * x.lvl
    q.op == 2 || (x.ctx == q.ctx && (q.op == 1 || (decide (0 < q.count) && decide (x.va / 2 ^ b * 2 ^ b < (q.addr + q.count) * 4096) &&
      decide (q.addr * 4096 < (x.va / 2 ^ b + 1) * 2 ^ b))))
  let enters (i : Nat → Quad → Instr) (op : Nat) : Prop :=
    ∀ s part v, windowOpen s part → (getPart s part).invQueue.length < 16 →
      exec (i part v) s = .next (modPart s part fun p => { p with invQueue := p.invQueue ++ [cmd s part v op] })
  enters .invRange 0 ∧ enters .invContext 1 ∧ enters .invAll 2 ∧
  (∀ s part v, windowOpen s part → exec (.invReserved part v) s = .next (modPart s part fun p => { p with invErr := true })) ∧
  (∀ s part q r, (getPart s part).invQueue = q :: r →
    (q.flush = true → exec (.invFlush part) s = .next (modPart (flushCaches s part) part fun p =>
      { p with invQueue := { q with flush := false } :: r })) ∧
    (q.flush = false → accessesOver s part = true →
      exec (.invCommandComplete part) s = .next (modPart s part fun p =>
        { p with
          invQueue := r, invDone := (p.invDone + 1) % 2 ^ 32, tlb := p.tlb.filter fun x => !covers q x
          invEnds := s.hist.flatMap fun e => e.2.msgs.map (·.id) })) ∧
    (q.flush = true ∨ accessesOver s part = false → exec (.invCommandComplete part) s = .next s)) ∧
  (∀ s part, (getPart (flushCaches s part) part).l2 = [] ∧
    ∀ core, partOfCore s core = part → (getCore (flushCaches s part) core).pend = [] ∧
      (getCore (flushCaches s part) core).l1 = [])

/-! ## The host's registers -/

/-- REGISTER_WRITE and the named register writes (18 R419 to R426; 04 R92; 10 R232; 03 R69): doorbells, queue control and
base, frame area, queue limits, partitioning, power, and the completion of a repartition. That a doorbell which names no adapter
comes behind the stores of all of them is the model's choice (log 104). -/
def Obligations.HostRegisters : Prop :=
  (∀ s part q v, windowOpen s part → q < 64 →
    let k : SubQueue := getSq s part q
    let put (k : SubQueue) : State := modPart s part fun p => { p with queues := spSet {} p.queues q k }
    let idle : Bool := !k.enable && k.progress == k.stored.getD k.tail
    let k1 := { k with known := addIds k.known (releasedBy s allLinks) }
    exec (.sqDoorbell part q v) s = .next (put
      (if decide (256 * (k.ctx + 1) ≤ frameSize s part) && decide (2 ≤ ctxState s part k.ctx)
        then { k1 with stored := some v.toNat } else { k1 with tail := v.toNat, stored := none })) ∧
    exec (.sqCtlWrite part q v) s = .next (put
      { k with
        log2n := if idle then (if 4 ≤ v.toNat % 32 ∧ v.toNat % 32 ≤ 20 then v.toNat % 32 else 20) else k.log2n
        loc := if idle then v.getLsbD 5 else k.loc, ctx := if idle then v.toNat / 2 ^ 16 else k.ctx
        enable := v.getLsbD 8 }) ∧
    ∀ w : Quad, exec (.sqBaseWrite part q w) s = .next (put (if idle then { k with base := w } else k))) ∧
  (∀ s part size v, windowOpen s part →
    exec (.frameAreaWrite part size v) s = .next
      (if (validContexts s part).all fun c => ctxState s part c == 0 || ctxState s part c == 5 then
        modPart s part fun p =>
          if size then { p with frameSize := BitVec.ofNat 32 (v.toNat % 2 ^ 24) }
          else { p with frameBase := BitVec.ofNat 64 (v.toNat / 2 ^ 16 % 2 ^ 36 * 2 ^ 16) }
      else s)) ∧
  (∀ s cluster q v, cluster < 96 → q < 64 → windowOpen s (partOfCluster s cluster) →
    exec (.qpLimitWrite cluster q v) s = .next (writeLimit s cluster q v.toNat)) ∧
  (∀ s (v : Word), exec (.pwrLimitWrite v) s = .next { s with pwrLimit := max 900 (min 2000 (v.toNat % 2 ^ 12)) }) ∧
  (∀ s v, mayRepartition s = false →
    exec (.partCfgWrite v) s = .next { s with partErr := true } ∧
    ∀ w, exec (.portMapWrite w) s = .next { s with partErr := true }) ∧
  (∀ s v, mayRepartition s = true → ∃ t, exec (.partCfgWrite v) s = .next t ∧
    t.partCfg = BitVec.ofNat 32 (v.toNat % 4) ∧ t.busy = true ∧
    t.portMap = s.portMap ∧ t.groups = s.groups ∧ ∀ p < 8, (getPart t p).nextSeq = 0 ∧ (getPart t p).pointer = none) ∧
  (∀ s w, mayRepartition s = true → ∃ t, exec (.portMapWrite w) s = .next t ∧
    t.portMap = BitVec.ofNat 64 (w.toNat % 2 ^ 48) ∧ t.busy = true ∧
    t.partCfg = s.partCfg ∧ t.groups = s.groups) ∧
  (∀ s part off v, s.busy = true → part < 8 → off < 2 ^ 24 →
    exec (.registerWrite 0 (part * 2 ^ 24 + off) v) s = .next { s with
      heldWrites := s.heldWrites ++ [(0, part * 2 ^ 24 + off, v)] }) ∧
  (∀ s part v, part < 8 → windowOpen s part →
    exec (.registerWrite 0 (part * 2 ^ 24 + 0x010000) v) s = .next (modPart s part fun p =>
      { p with invAddr := BitVec.ofNat 64 (v.toNat / 2 ^ 12 * 2 ^ 12) }) ∧
    exec (.registerWrite 0 (part * 2 ^ 24 + 0x080000) v) s = .next (modPart s part fun p =>
      { p with metaBase := BitVec.ofNat 64 (v.toNat / 2 ^ 12 % 2 ^ 40 * 2 ^ 12) }) ∧
    exec (.registerWrite 0 (part * 2 ^ 24 + 0x090008) v) s = .next (modPart s part fun p =>
      { p with route := spSet 0 p.route 1 (BitVec.ofNat 64 (v.toNat % 2 ^ 12 + v.toNat / 2 ^ 16 % 2 ^ 16 * 2 ^ 16)) })) ∧
  (∀ s a v, a < 6 → exec (.registerWrite a (2 ^ 27 + 0x38) v) s = .next (modAdapter s a fun d => { d with wbase := v })) ∧
  (∀ s, s.busy = true → s.heldWrites = [] → exec .repartitionComplete s = .next { s with busy := false }) ∧
  (∀ s, s.busy = false → exec .repartitionComplete s = .next s)

/-! ## The task graph unit -/

/-- HOST_RECORD_FETCH, HOST_JOB_CARD_RECORD, WAIT_RECORD_COMPLETE, NODE_ENTRY, NODE_READY and DISPATCH_AGE_EXPIRY (09 R197
to R204; 18 R422, R423): a record by its type, the card that enters its queue's stream, the progress another queue has
reached, the node accepted or refused with its reason, its edges, and its age. That a node takes its %launch as it is accepted
or refused, that a record of a reserved type is refused as it is fetched, and that one of which the device has no byte reads as
poisoned, are the model's choices (logs 89, 103, 20). -/
def Obligations.SubmissionAndEntry : Prop :=
  (∀ s part q, let k := getSq s part q
    let taken := modSq (ctxWakes s part k.ctx) part q fun k =>
      { k with tail := k.stored.getD k.tail, stored := none, stopped := false, fetched := (k.fetched + 1) % 2 ^ 32 }
    let cmp := if k.loc then 0 else part
    mayFetch s part k = true → spFind k.recs k.fetched = none →
    (recordLoc s part k k.fetched = none → exec (.hostRecordFetch part q) s = .next (recordRefused taken part q k.fetched 2)) ∧
    ∀ loc, recordLoc s part k k.fetched = some loc → l2AnyBad s cmp loc 64 = false →
    let rec_ := leNat (l2Bytes s cmp loc 64)
    let s1 := l2Asked taken cmp loc 64
    (rec_ % 256 = 1 → exec (.hostRecordFetch part q) s = .next (setRecord { s1 with
      entries := spPut s.entries s.order
        { part := part, ctx := k.ctx, record := rec_, src := .queue part q k.fetched, known := k.known }
      order := s.order + 1 } part q k.fetched (.entry s.order))) ∧
    (rec_ % 256 = 2 → exec (.hostRecordFetch part q) s = .next
      (setRecord s1 part q k.fetched (.card (rec_ / 2 ^ 64 % 2 ^ 64) none false))) ∧
    (rec_ % 256 = 3 → exec (.hostRecordFetch part q) s = .next
      (setRecord s1 part q k.fetched (.wait (rec_ / 2 ^ 8 % 2 ^ 6) (rec_ / 2 ^ 32 % 2 ^ 32)))) ∧
    (rec_ % 256 = 0 ∨ 3 < rec_ % 256 → exec (.hostRecordFetch part q) s = .next (recordRefused s1 part q k.fetched 1))) ∧
  (∀ s part q i addr hd bs, let k := getSq s part q
    spFind k.recs i = some (.card addr none false) → addr % 64 = 0 → cardCount s part < 16384 →
    readRange s (.tgu part) part k.ctx .read (ctxSup s part k.ctx) addr 64 = .ok hd false →
    let n := leNat hd / 2 ^ 11 % 2 ^ 4
    n ≤ 8 → readRange s (.tgu part) part k.ctx .read (ctxSup s part k.ctx) addr (64 + 32 * n) = .ok bs false →
    let card := cardOf (leNat (bs.take 64))
    (card.ok none = true → ∃ t j, exec (.hostJobCardRecord part q i) s = .next t ∧
      spFind t.jobs s.order = some j ∧ j.stream = .queue part q ∧ j.team = none ∧ j.src = some (q, i) ∧ j.phase = .entered ∧
      j.card = { card with regions := regionsOf false card.fpcount (bs.drop 64) } ∧ partOfCluster s j.cluster = part ∧
      (∀ id ∈ k.known, id ∈ (getKnow t (.job s.order)).hb) ∧ t.mem = s.mem) ∧
    (card.ok none = false → exec (.hostJobCardRecord part q i) s = .next (recordRefused
      (rangeAsked s (.tgu part) part k.ctx .read (ctxSup s part k.ctx) addr (64 + 32 * n)) part q i 3))) ∧
  (∀ s part q i other v, spFind (getSq s part q).recs i = some (.wait other v) →
    let ahead := ((getSq s part other).progress + 2 ^ 32 - v) % 2 ^ 32
    let ids := (getSq s part other).passed
    (ahead < 2 ^ 31 → exec (.waitRecordComplete part q i) s = .next
      (recordDone (modSq s part q fun k => { k with known := addIds k.known ids }) part q i ids)) ∧
    (2 ^ 31 ≤ ahead → exec (.waitRecordComplete part q i) s = .next s)) ∧
  (∀ s pend e k, spFind s.entries pend = some e → e.batch = none → (verdictOf s e).1 = .refuse k →
    exec (.nodeEntry pend) s = .next (tellSource
      (modPart { (verdictOf s e).2 with entries := spDel s.entries pend } e.part fun p => { p with launches := (p.launches + 1) % 2 ^ 32 })
      pend e.src k 0)) ∧
  (∀ s pend e ds rs, spFind s.entries pend = some e → e.batch = none → (verdictOf s e).1 = .accept ds rs →
    ∃ t n, exec (.nodeEntry pend) s = .next t ∧ getNode t s.order = some n ∧ spFind t.entries pend = none ∧
      n.phase = .entered ∧ n.known = e.known ∧ n.descs = ds ∧ n.regions = rs ∧ n.ctx = e.ctx ∧
      n.launch = (getPart s e.part).launches ∧
      n.teams = e.record / 2 ^ 32 % 2 ^ 32 ∧ n.args = e.record / 2 ^ 192 % 2 ^ 64 ∧ n.nextTeam = 0 ∧ t.mem = s.mem) ∧
  (∀ s e, let r := nodeRec e.record
    (r.type ≠ 1 ∨ r.teams = 0 ∨ 8 < r.fp → verdictOf s e = (.refuse 1, s)) ∧
    (r.type = 1 → r.teams ≠ 0 → r.fp ≤ 8 → (r.kdesc % 64 ≠ 0 ∨ r.args % 64 ≠ 0) → verdictOf s e = (.refuse 2, s))) ∧
  (∀ s node n, getNode s node = some n → n.phase = .entered →
    (edgesClear s n.stream n.order n.regions = true → exec (.nodeReady node) s = .next
      (modNode s node fun n => { n with
        phase := .ready, readyAt := s.clk, known := addIds n.known (streamIds s n.stream n.order n.regions)
        firstStore := s.stores })) ∧
    (edgesClear s n.stream n.order n.regions = false → exec (.nodeReady node) s = .next s)) ∧
  (∀ s node n w, getNode s node = some n → n.aged = false → n.waitsRoom s node = true → n.waitFrom = some w →
    w + 32768 ≤ s.clk →
    exec (.dispatchAgeExpiry node) s = .next (modNode s node fun n => { n with aged := true })) ∧
  (∀ s st order rs, edgesClear s st order rs = true ↔
    (∀ e ∈ s.nodes, e.2.stream = st → e.2.order < order → e.2.phase ≠ .done →
      ∀ a ∈ e.2.regions, ∀ b ∈ rs, regionsMeet a b = false) ∧
    (∀ e ∈ s.jobs, e.2.stream = st → e.2.order < order → e.2.phase ≠ .done → e.2.phase ≠ .stopped →
      ∀ a ∈ e.2.card.regions, ∀ b ∈ rs, regionsMeet a b = false))

/-- TEAM_PLACEMENT, TEAM_START and NODE_COMPLETE (09 R205 to R208; 06 R131; 04 R75 to R79): a team goes where the search
finds room for it and nothing on that core is taken twice; its argument block and threads; the node's end. -/
def Obligations.TeamsAndNodes : Prop :=
  (∀ s node n core slots, getNode s node = some n → n.wants s = true → n.batch = none → heldBack s node n = false →
    n.stages ≤ 1 → findCore s n.part (n.desc 0).need (if (n.desc 0).spread then n.avoid s else none) = some (core, slots) →
    ∃ t m u, exec (.teamPlacement node) s = .next t ∧ getNode t node = some m ∧ m.nextTeam = n.nextTeam + 1 ∧
      m.lastTeam = some s.order ∧ getTeam t s.order = some u ∧ u.core = some core ∧ u.index = n.nextTeam ∧ u.node = node ∧
      u.phase = .placed ∧ u.known = n.known ∧ u.groups.length = slots.length ∧ u.units.length ≤ spadUnits u.size / 65536 ∧
      ∀ k ∈ u.units, k ∉ (s.teams.filter fun e => e.2.core == some core && e.1 != s.order).flatMap fun e => e.2.units) ∧
  (∀ s core n slots, fitsOn s core n = some slots →
    slots.length = n.tsize ∧ slots.Nodup ∧ (∀ k ∈ slots, k < 64 ∧ ∀ r, (k, r) ∉ coreSlots s core) ∧
    usedBars s core + n.bars ≤ 64 ∧ usedLatches s core + n.latches ≤ 16 ∧
    usedSpad s core + spadUnits n.size ≤ 983040 ∧ coreFenced s core = false) ∧
  (∀ u n k sl, assignSlots u n k = some sl → ∀ q < 4,
    bytesInQuarter u q ≤ 262144 → bytesInQuarter (sl.map (fun i => (i, n)) ++ u) q ≤ 262144) ∧
  (∀ s team t core n, getTeam s team = some t → t.core = some core → getNode s t.node = some n → t.phase = .placed →
    t.batch = none → t.begun = false → t.laned = false → t.argFail = false →
    let s1 := modTeam s team fun t => { t with known := addIds t.known (addIds n.known (overdue s)) }
    (n.args = 0 → exec (.teamStart team) s = .next (startLanes s1 team t [] false)) ∧
    (∀ bs bad, n.args ≠ 0 → readRange s1 (.tgu n.part) n.part n.ctx .table true n.args 64 = .ok bs bad →
      exec (.teamStart team) s = .next
        (startLanes (rangeAsked s1 (.tgu n.part) n.part n.ctx .table true n.args 64) team t (wordsOf bs) bad)) ∧
    (∀ gs, n.args ≠ 0 → readRange s1 (.tgu n.part) n.part n.ctx .table true n.args 64 = .fault gs → canReport s n.part = true →
      ∃ u v, exec (.teamStart team) s = .next u ∧ getTeam u team = some v ∧ v.core = none ∧ v.units = [] ∧ v.groups = [] ∧
        v.batch = some (getPart s n.part).nextSeq ∧ ∀ e ∈ u.groups, e.2.team ≠ team)) ∧
  (∀ s team t n ws bad, getTeam s team = some t → getNode s t.node = some n → (n.desc t.stage).persistent = false →
    t.spawned = [] → (∀ k ∈ t.groups, ∃ g, getGroup s k = some g ∧ g.team = team ∧ g.refill = [] ∧ g.live1 = none) →
    t.groups.Nodup → ws.length ≤ 64 → (∀ w ∈ ws, w < 2 ^ 32) →
    let u := startLanes s team t ws bad
    (∃ v, getTeam u team = some v ∧ v.phase = .running ∧ v.begun = true) ∧
    ∀ k ∈ t.groups, ∃ g, getGroup u k = some g ∧ g.live1 = none ∧
      g.live0 = some (freshPath (n.desc t.stage).entry 0 (BitVec.allOnes 64) 0xC3 (n.desc t.stage).handle) ∧
      ∀ i < ws.length, g.getS i = ws.getD i 0 ∧ g.badS i = bad) ∧
  (∀ s node n, getNode s node = some n → nodeDrained s node n = true →
    let adds := n.owed.getD (statAdds s n)
    (∀ x ∈ adds, statLate s n x = false) →
    exec (.nodeComplete node) s = .next (finishNode (adds.foldl (statAdd n) s) node n)) ∧
  (∀ s node n, getNode (finishNode s node n) node = none ∧ (finishNode s node n).groups = s.groups ∧
    (n.queues = [] →
      let s1 : State := { s with nodes := spDel s.nodes node, ends := s.ends.filter fun e => e.stream != .child node }
      (∀ a b d, n.src = .launch a b true d → finishNode s node n = s1) ∧
      (∀ p q i, n.src = .queue p q i → finishNode s node n =
        recordDone (endMember s1 n.stream n.order n.regions (nodeIds s n)) p q i (nodeIds s n))))

/-! ## Pre-emption -/

/-- BUDGET_EXPIRY, CONTEXT_PREEMPT, DRAIN_WINDOW_EXPIRY, DEADLINE_EXPIRY and CONTEXT_RESET (09 R211; 10 R223, R225, R227,
R231): the budget is noted, the drain begins, after its window the teams are to be saved, and at the deadline the context
is reset; a context of which the debugger holds a group is left alone. -/
def Obligations.Preemption : Prop :=
  let note (s : State) (part ctx st : Nat) (f : Partition → Partition) : State :=
    setCtxBits (modPart s part f) part ctx 69 3 st
  (∀ s core ctx, let part := partOfCore s core
    coreHolds s core part ctx = true → ctxBits s part ctx 96 32 ≠ 0 → (getPart s part).expired.contains ctx = false →
    ctxState s part ctx = 1 → ctxHalted s part ctx = false →
    (ctxBits s part ctx 96 32 ≤ spGet 0 (getCore s core).slice ctx → exec (.budgetExpiry core ctx) s = .next
      (modPart s part fun p => { p with expired := p.expired ++ [ctx] })) ∧
    (spGet 0 (getCore s core).slice ctx < ctxBits s part ctx 96 32 →
      exec (.budgetExpiry core ctx) s = .next s)) ∧
  (∀ s part ctx, ctxState s part ctx = 1 → ctxResident s part ctx = true → ctxHalted s part ctx = false →
    (sliceOver s part ctx = true ∨ lowestWanted s part ctx = true) →
    exec (.contextPreempt part ctx) s = .next (note s part ctx 2 fun p =>
      { p with preempt := p.preempt ++ [{ ctx := ctx, start := s.clk }], expired := p.expired.filter fun x => x != ctx })) ∧
  (∀ s part ctx p, (getPart s part).preempt.find? (fun x => x.ctx == ctx) = some p → ctxHalted s part ctx = false →
    let age := 2 * (s.clk - p.start)
    (p.saving = false → ctxBits s part ctx 128 32 ≤ age → exec (.drainWindowExpiry part ctx) s = .next
      (note s part ctx 3 fun v =>
        { v with preempt := v.preempt.map fun x => if x.ctx = ctx then { x with saving := true } else x })) ∧
    (max (ctxBits s part ctx 160 32) (ctxBits s part ctx 128 32) ≤ age →
      exec (.deadlineExpiry part ctx) s = .next (contextReset s part ctx 1 0)) ∧
    (age < max (ctxBits s part ctx 160 32) (ctxBits s part ctx 128 32) →
      exec (.deadlineExpiry part ctx) s = .next s)) ∧
  (∀ s part ctx, ctxHalted s part ctx = true → exec (.contextPreempt part ctx) s = .next s ∧
    exec (.drainWindowExpiry part ctx) s = .next s ∧ exec (.deadlineExpiry part ctx) s = .next s) ∧
  (∀ s part ctx reason rcause, part < partCount s → ctxInArea s part ctx = true → 1 ≤ reason → reason ≤ 4 →
    exec (.contextReset part ctx reason rcause) s = .next (contextReset s part ctx reason rcause)) ∧
  (∀ s part ctx reason rcause,
    let t := contextReset s part ctx reason rcause
    let mine (p c : Nat) : Prop := p = part ∧ c = ctx
    ctxState t part ctx = 5 ∧ ctxBits t part ctx 544 8 = reason % 256 ∧
    ctxBits t part ctx 552 8 = (if reason = 2 ∨ reason = 4 then rcause % 256 else 0) ∧
    t.hostMsgs = s.hostMsgs ++ [.msix (4 * part + 1)] ∧ (ctxAddr s part ctx + 256 ≤ hbmSize → t.mem = s.mem) ∧
    (∀ e ∈ t.teams, ¬mine e.2.part e.2.ctx) ∧ (∀ e ∈ s.teams, e.1 ∉ teamsOf s part ctx → e ∈ t.teams) ∧
    (∀ e ∈ t.groups, e ∈ s.groups ∧ e.2.team ∉ teamsOf s part ctx) ∧
    (∀ e, e ∈ t.nodes ↔ e ∈ s.nodes ∧ ¬mine e.2.part e.2.ctx) ∧
    (∀ e, e ∈ t.jobs ↔ e ∈ s.jobs ∧ ¬mine e.2.part e.2.ctx) ∧
    (∀ e, e ∈ t.entries ↔ e ∈ s.entries ∧ ¬mine e.2.part e.2.ctx) ∧
    (∀ e ∈ (getPart t part).queues, e.2.ctx = ctx → e.2.stopped = true ∧ e.2.fetched = e.2.progress))

/-- TEAM_SAVE and TEAM_RESTORE (10 R222, R224, R226, R228, R229): a team that must be saved stops issuing until what it has
issued is complete; then its groups in their order and itself behind them go to the lowest free units of the frame area, and
none of them is on a core; a saved team whose turn has come returns to the slots of a core that has room; one that would not fit
on an empty core has its context reset with reason 3. That the lowest free units are taken, the team's in one run, is the model's
choice (log 115), as is what a unit beyond the device's memory holds (log 20). -/
def Obligations.TeamSaveAndRestore : Prop :=
  (∀ s team t core, getTeam s team = some t → t.core = some core → (t.phase = .placed ∨ t.phase = .running) →
    ctxHalted s t.part t.ctx = false → (ctxState s t.part t.ctx = 3 ∨ coreFenced s core = true) →
    (∀ n, getNode s t.node = some n → n.stages ≤ 1) → t.channel = [] →
    (saveReady s (team, t) = false → exec (.teamSave team) s = .next
      (modTeam s team fun t => { t with phase := .saving })) ∧
    (saveReady s (team, t) = true → (getPart s t.part).units = [] → t.groups.Nodup →
      (residentGroups s t).length + teamUnits t ≤ unitCount s t.part → (getPart s t.part).redirect.length < 1024 →
      ∃ u v, exec (.teamSave team) s = .next u ∧ getTeam u team = some v ∧ v.phase = .saved ∧ v.core = none ∧
        v.units = [] ∧ v.frame = some (unitAddr s t.part (residentGroups s t).length) ∧ v.groups = t.groups ∧ v.spad = [] ∧
        (∀ k ∈ t.groups, ∀ g, getGroup s k = some g → g.ended = false → g.saved = false → (k, g) ∈ residentGroups s t) ∧
        ∀ i k g, (residentGroups s t)[i]? = some (k, g) → ∃ h, getGroup u k = some h ∧ h.saved = true ∧ h.place = none ∧
          h.frame = some (unitAddr s t.part i) ∧ h.live0 = g.live0 ∧ h.live1 = g.live1 ∧ h.stack = g.stack ∧
          h.rets = g.rets)) ∧
  (∀ s part n u, findUnits s part n = some u → u + n ≤ unitCount s part ∧ (∀ i < n, unitFree s part (u + i) = true) ∧
    ∀ v < u, ∃ i < n, unitFree s part (v + i) = false) ∧
  (∀ s part ctx gid g r t u, findUnits s part 1 = some u →
    saveGroups part ctx ((gid, g) :: r) s = some t → saveGroups part ctx r (saveGroup s part ctx gid u g) = some t) ∧
  (∀ s team t core slots, getTeam s team = some t → t.phase = .saved → mayRestore s team t = true →
    restoreTurn s t = true → restoreSet s team t = [(team, t)] → restoreFits s t.part [(team, t)] = true →
    restorePlaces s team t = some [(core, slots)] →
    (∀ r < 4, (getBinding (readTeamFrame s t (t.frame.getD 0)) r).valid = false) →
    t.groups.Nodup → (∀ k ∈ restoreGroups s t, ∃ g, getGroup s k = some g ∧ g.frame.isSome = true) →
    ∃ u v, exec (.teamRestore team) s = .next u ∧ getTeam u team = some v ∧ v.core = some core ∧ v.frame = none ∧
      v.phase = (if t.begun then .running else .placed) ∧ v.groups = t.groups ∧
      ∀ e ∈ (restoreGroups s t).zip slots, ∃ g, getGroup u e.1 = some g ∧ g.place = some (64 * core + e.2) ∧
        g.saved = false ∧ g.frame = none ∧ g.age = clkOf s ((64 * core + e.2) / 256)) ∧
  (∀ s team t, getTeam s team = some t → t.phase = .saved → mayRestore s team t = true → restoreTurn s t = true →
    restoreFits s t.part (restoreSet s team t) = false →
    exec (.teamRestore team) s = .next (contextReset s t.part t.ctx 3 0))

/-! ## The debugger, reset and power -/

/-- DBG_HALT, DBG_RESUME and DBG_SINGLE_CLAUSE (10 R231; 18 R430): the selected group stops at an instruction boundary and
none of its paths runs, it goes on, or runs one clause of one path. Which path that is, is the model's choice (log 71). -/
def Obligations.Debugger : Prop :=
  (∀ s part gid g, windowOpen s part → selectedGroup s part = some gid → getGroup s gid = some g →
    (g.ended = false → g.isHalted = false → exec (.dbgHalt part) s = .next
      (msix (modGroup s gid fun g => { g with halt := some .halted }) part 3)) ∧
    (g.isHalted = true → exec (.dbgHalt part) s = .next s) ∧
    exec (.dbgResume part) s = .next (modGroup s gid fun g => { g with halt := none }) ∧
    (g.isHalted = true → exec (.dbgSingleClause part) s = .next
      (modGroup s gid fun g => { g with halt := some (.oneClause (nextLive g) g.clauses) })) ∧
    (g.isHalted = false → exec (.dbgSingleClause part) s = .next (modGroup s gid fun g => g))) ∧
  (∀ s part, windowOpen s part → selectedGroup s part = none → exec (.dbgHalt part) s = .next s ∧
    exec (.dbgResume part) s = .next s ∧ exec (.dbgSingleClause part) s = .next s) ∧
  (∀ s q c, issOf s q = some c → c.g.isHalted = true → readyNow s q = false ∧ issueOf s q = none) ∧
  (∀ s q c n, issOf s q = some c → c.g.halt = some (.oneClause (1 - c.live) n) → c.live ≤ 1 → readyNow s q = false)

/-- DEVICE_RESET, BOOT_NEW_IMAGE, ATTESTATION_REPORT, POWER_INTERVAL and CLOCK_DROOP (18 R429, R432; 01 R19). That the
memory, the host's messages and the agenda outlive a reset is the model's choice (log 43), as are the functions that hash and
sign (log 14) and the order of a report's fields (log 87). -/
def Obligations.ResetBootPower : Prop :=
  let boots (s : State) (image : BootImage) (t : State) : Prop :=
    let hash := shake256 image.bytes 64
    (image.transferred = false → t = { s with boot := 4 }) ∧
    (image.transferred = true → (Config.fusedKey image.key && ed448Verify image.signature hash image.key) = false →
      t = { s with boot := 3 }) ∧
    (image.transferred = true → (Config.fusedKey image.key && ed448Verify image.signature hash image.key) = true →
      t.boot = 2 ∧ t.fwHash = hash ∧ t.fwImage = image.bytes ∧ t.groups = s.groups ∧ t.mem = s.mem ∧ t.parts = s.parts)
  (∀ s image, ∃ t, exec (.deviceReset image) s = .next t ∧ boots { State.reset with
    mem := s.mem, poison := s.poison, nibbles := s.nibbles, hostMsgs := s.hostMsgs, agenda := s.agenda, mcOps := s.mcOps
    fresh := s.fresh } image t) ∧
  (∀ s image, (s.boot = 3 ∨ s.boot = 4 → ∃ t, exec (.bootNewImage image) s = .next t ∧ boots { s with boot := 1 } image t) ∧
    (s.boot ≠ 3 → s.boot ≠ 4 → exec (.bootNewImage image) s = .next s)) ∧
  (∀ s, s.agenda = [] → s.boot = 3 ∨ s.boot = 4 → step s = .next (tick s)) ∧
  (∀ s nonce, s.boot = 2 → nonce.length = 32 →
    let r := reportBytes s nonce
    exec (.attestationReport nonce) s = .next { s with hostMsgs := s.hostMsgs ++ [.report r (ed448Sign Config.identitySeed r)] } ∧
    (s.fwHash <+: r) ∧ (nonce <:+ r)) ∧
  (∀ s clocks watts, clocks.length = 96 → (∀ c ∈ clocks, c ≤ 700) → watts ≤ s.pwrLimit →
    ∃ t, exec (.powerInterval clocks watts) s = .next t ∧ t.watts = watts ∧ (∀ c ∈ clocks, t.minClk ≤ c) ∧
      t.minClk ≤ 700 ∧ (∀ k < 96, (getCluster t k).clock = clocks.getD k 0) ∧ t.groups = s.groups ∧ t.mem = s.mem ∧
      t.parts = s.parts ∧ t.cores = s.cores) ∧
  (∀ s cluster, cluster < 96 → exec (.clockDroop cluster) s = .next s)

/-! ## The memory controllers and the links -/

/-- L1_OVERFLOW_WRITEBACK, FULL_BLOCK_WRITE, PARTIAL_WRITE, ECC_RETRY and ARRAY_FENCE (05 R117; 03 R64; 04 R83, R86, R96 to
R100): a line's stores go one level down and no other byte of memory changes; retries count and poison; fences. -/
def Obligations.MemoryControllers : Prop :=
  (∀ s core line, let pend := (getCore s core).pend
    (∃ e ∈ pend, e.1 / 16 = line) → ∃ t, exec (.l1OverflowWriteback core line) s = .next t ∧
      (128 * line < hbmSize → t.mem = s.mem) ∧
      (getCore t core).pend = pend.filter (fun e => decide (e.1 / 16 ≠ line)) ∧
      ((pend.map (·.1)).Nodup → ∀ e ∈ pend, e.1 / 16 = line → ∀ m, e.2.getLast? = some m → (m.bytes.map (·.1)).Nodup →
        ∀ b ∈ m.bytes, b.1 < 8 → ∀ cmp, l2Byte t cmp (8 * e.1 + b.1) = b.2)) ∧
  (∀ s part line ln, l2Find s line = some ln → lineHolder s line ln = part → (ln.cmp / 2 = 0 ∨ hbmSize ≤ line * 128) →
    let written (t : State) : Prop := l2Find t line = none ∧ (∀ a, a / 128 ≠ line → memByte t.mem a = memByte s.mem a) ∧
      ∀ k < 128, memByte t.mem (128 * line + k) =
        if ln.dirty.testBit (k / 32) then (spFind ln.bytes k).getD 0 else memByte s.mem (128 * line + k)
    (ln.valid = 15 → ln.dirty ≠ 0 → ∃ t, exec (.fullBlockWrite part line) s = .next t ∧ written t) ∧
    (ln.valid ≠ 15 → ln.dirty ≠ 0 → ∃ t, exec (.partialWrite part line) s = .next t ∧ written t)) ∧
  (∀ s p, eccExists s p = true →
    exec (.eccRetry p true) s = .next (rasTransient s (eccPart s p)) ∧
    ∃ t, exec (.eccRetry p false) s = .next t ∧ t.hostMsgs = s.hostMsgs ++ [.msix (4 * eccPart s p + 2)] ∧
      (getPart t (eccPart s p)).rasLasting = min ((getPart s (eccPart s p)).rasLasting + 1) (2 ^ 32 - 1) ∧
      (∀ gid reg lane, p = .vreg gid reg lane → ∃ g, getGroup t gid = some g ∧ g.badV reg lane = true) ∧
      (∀ gid reg, p = .sreg gid reg → ∃ g, getGroup t gid = some g ∧ g.badS reg = true) ∧
      (∀ loc, p = .hbm loc → (∀ ln, l2Find s (loc / 128) = some ln → ln.dirty = 0 ∨ ln.valid = 15 ∨ ln.cmp / 2 = 0) →
        poisonedWord t loc = true) ∧
      (∀ loc, p = .inband loc → nibbleOf t 1 loc = none) ∧
      (∀ part loc, p = .l2 part loc → ∀ cmp, l2Bad t cmp loc = true) ∧
      (∀ core, p = .matrix core → coreFenced t core = true) ∧ (∀ k, p = .barista k → (getCluster t k).fenced = true)) ∧
  (∀ s core, core < 384 → (getCore s core).fenced = false → ∃ t, exec (.arrayFence false core) s = .next t ∧
    coreFenced t core = true ∧ ((∀ e ∈ s.ops, e.2.replay = none) → t.groups = s.groups) ∧ t.mem = s.mem ∧
    t.hostMsgs = s.hostMsgs ++ [.msix (4 * partOfCore s core + 2)]) ∧
  (∀ s k, k < 96 → (getCluster s k).fenced = false → ∃ t, exec (.arrayFence true k) s = .next t ∧
    (∀ core < 384, clusterOf core = k → coreFenced t core = true) ∧ t.groups = s.groups ∧ t.mem = s.mem)

/-- FLIT_RECEIVE, PORT_RETRAIN, APERTURE_ACCESS and APERTURE_STRONG_ACCESS (18 R418, R424, R425; 05 R125, R126): sequence and
check of a flit, the replay and the retraining of a port, what a port sends, and an access through an aperture. Which
flits ask for a replay is free (log 86). -/
def Obligations.LinksAndApertures : Prop :=
  (∀ s p seq (flit : List Byte), portWorks s p = true → (getPort s p).retrain = false → flit.length = 256 →
    let good : Bool := Config.crc64 (flit.take 248) == BitVec.ofNat 64 (leNat (flit.drop 248))
    let s1 := modPort s p fun v => { v with nextSeq := seq + 1, failures := 0, replay := none }
    (seq ≠ (getPort s p).nextSeq → exec (.flitReceive p seq flit) s = .next s) ∧
    (seq = (getPort s p).nextSeq → good = true → exec (.flitReceive p seq flit) s = .next
      (match Config.replayWanted (flit.take 8) with
      | some k => modPort s1 p fun v => { v with asked := some k }
      | none => tellHost s1 (.payload p ((flit.drop 8).take 240)))) ∧
    (seq = (getPort s p).nextSeq → good = false →
      let n := if (getPort s p).replay = some seq then (getPort s p).failures + 1 else 0
      ∃ t, exec (.flitReceive p seq flit) s = .next t ∧ (getPort t p).nextSeq = seq ∧
        ((getPort t p).retrain = true ↔ 8 ≤ n) ∧
        t.hostMsgs = s.hostMsgs ++ (if 8 ≤ n then [] else [.replayReq p seq]))) ∧
  (∀ s p seq flit ok, portWorks s p = false → exec (.flitReceive p seq flit) s = .next s ∧
    exec (.portRetrain p ok) s = .next s ∧ portSend s p = s) ∧
  (∀ s p, portWorks s p = true → (getPort s p).retrain = true →
    exec (.portRetrain p true) s = .next (tellHost (modPort s p fun v =>
      { v with retrain := false, failures := 0, replay := some v.nextSeq }) (.replayReq p (getPort s p).nextSeq)) ∧
    ∃ t, exec (.portRetrain p false) s = .next t ∧ (getPort t p).up = false ∧ t.mem = s.mem) ∧
  (∀ s p, portWorks s p = true → (getPort s p).retrain = false →
    (∀ x r, (getPort s p).asked = none → (getPort s p).out = x :: r → (getPort s p).sent.length ≤ 64 →
      (portSend s p).hostMsgs = s.hostMsgs ++ [.flit p (getPort s p).sendSeq x] ∧
      (getPort (portSend s p) p).out = r ∧ (getPort (portSend s p) p).sendSeq = (getPort s p).sendSeq + 1 ∧
      ((getPort s p).sendSeq, x) ∈ (getPort (portSend s p) p).sent ∧ (getPort (portSend s p) p).sent.length ≤ 64) ∧
    (∀ k, (getPort s p).asked = some k → (portSend s p).hostMsgs = s.hostMsgs ++
      ((getPort s p).sent.filter fun e => decide (k ≤ e.1)).map fun e => .flit p e.1 e.2)) ∧
  (∀ s a write off size data, let d := getAdapter s a
    a < 6 → 0 < size → off + size ≤ 2 ^ aperLog a →
    let part := d.ctx.toNat % 8
    let ctx := d.ctx.toNat / 2 ^ 16 % 2 ^ 16
    let va := (d.wbase.toNat / 2 ^ aperLog a * 2 ^ aperLog a + off) % 2 ^ 64
    let plain (o : Host.Outcome State Fault Refusal) : Prop := exec (.apertureAccess a write off size data) s = o
    let strong (o : Host.Outcome State Fault Refusal) : Prop := exec (.apertureStrongAccess a write off size data) s = o
    let err (s : State) : State := modAdapter s a fun d => { d with err := true }
    let ag := Agent.link a
    (d.ctx.getLsbD 63 = false →
      plain (.next (err (if write then s else tellHost s (.readData a 0 true)))) ∧
      strong (.next (err (if write then s else tellHost s (.readData a 0 true))))) ∧
    (∀ ls, d.ctx.getLsbD 63 = true → d.waits = [] → d.held = [] → part < partCount s → ctxInArea s part ctx = true →
      ctxValid s part ctx = true →
      xlateSet s (.link a) part ctx (if write then .write else .read) (ctxSup s part ctx) (rangeAccs va size) = .ok ls →
      let made (s : State) : State :=
        if write then storeSet s ag false [releaseOf s ag 6] ls (leBytes size data)
        else
          let q := readSet s [ag] ls
          tellHost (acquire q.2 ag 6 q.1.rels) (.readData a (leNat q.1.bytes) q.1.bad)
      plain (.next (made s)) ∧
      let t := made (acquire s ag 6 (s.privOrder.filter fun r => r.scope == 6))
      strong (.next { t with privOrder := addRel (releaseOf t ag 6) t.privOrder })))

/-! ## Encoding -/

/-- Decoding the words that encode a well-formed instruction gives it back and leaves what follows; and a long form that
decodes is the encoding of what it decodes to, so that every bit of it is kept (11 R241, R251, R252, R260). -/
def Obligations.DecodeEncode : Prop :=
  (∀ i : Instr, i.WellFormed → ∃ ws, encode i = some ws ∧ ws.length = 3 ∧ ∀ rest, decode (ws ++ rest) = .ok (i, rest)) ∧
  (∀ (lf : BitVec 64) i, decodeLong lf = some i → encodeLong i = some lf) ∧
  (∀ i : Instr, i.isProgram = false → encode i = none)

/-- Words of the spec's worked examples (11 R241, R251, R260, R261; 12 R290; 14 R334; 15 R359) decode to what they stand
for, and the dictionary entry of FFMA expands to its long form; an unassigned opcode and an escape with a payload decode to nothing. -/
def Obligations.DecodeSamples : Prop :=
  let fields (mod : BitVec 6) (d a b c : BitVec 9) (x : BitVec 4) : Fields :=
    { mod := mod, d := d, a := a, b := b, c := c, g := 63, gn := 0, reuse := 0, x := x }
  let words (hi lo : Word) (i : Option Instr) : Prop :=
    decode [0xFF000000, hi, lo] = match i with
      | some i => .ok (i, [])
      | none => .error .badOpcode
  words 0x28C00A01 0x0100FF0C (some (.logt (fields 0x30 5 1 2 3 12))) ∧
  words 0x65000802 0x84103F03 (some (.atom (fields 0x00 4 2 0x108 64 3))) ∧
  words 0x80484000 0x24443F03 (some (.mma (fields 0x12 0x20 0 0x48 0x110 3))) ∧
  words 0x42000E01 0x0100FF00 (some (.ffma (fields 0 7 1 2 3 0))) ∧
  words 0x41000401 0xE1583F00 (some (.fmul (fields 0 2 1 0x1C2 0x160 0))) ∧
  expand (0x420000000000FF00 + 0x80000000D7781E97 * 2 ^ 64) 0x020107 = 0x42000E010100FF00 ∧
  words 0x18000000 0x00003F00 none ∧
  decode [0xFF000001, 0, 0] = .error .badEscape ∧
  decode [0xFF000000, 0] = .error .short ∧
  decode [0x01000000, 0, 0] = .error .needsDictionary

/-! ## The step -/

/-- A step takes the oldest event of the agenda; with none, one of the things that may happen next: an event of the machine
itself, or the instruction that a ready path decodes from its slot; then the scheduler notes the issue and a clock passes (09
R212, R213; 11 R233 to R238). Which of several comes next, and the clock, are the model's choice (log 2, 6). -/
def Obligations.StepRunsDecoded : Prop :=
  let runs (s : State) : Prop := s.boot ≠ 3 ∧ s.boot ≠ 4
  (∀ s q c cl lf e rest i, s.agenda = [] → runs s → turns s = [.path q] → issOf s q = some c → canRun c = true →
    c.p.wait = .none → c.p.clause = some cl →
    let first := c.p.slot = 0 ∧ c.p.noWait = false
    (first → ∀ k ∈ waitFlags cl, flagCount c.g (some k) = 0) → cl.slots.drop c.p.slot = .long lf e :: rest →
    decodeLong lf = some i → opAllowed s.stepping (opOf lf) = true → slotPlaced c.p cl (opOf lf) (fieldsOf lf) = true →
    let uses := regUses c (opOf lf) (fieldsOf lf)
    blockedBy c.g uses = none → opBlocks s c.gid uses = false → atomsHold s c (opOf lf) i = false →
    (releases i = true → readsHold s c = false) →
    let t : State := { (if c.p.slot ≠ 0 ∨ c.p.noWait = true then s else waitEdges s c (waitFlags cl)) with cur := some q }
    (∀ u, exec i t = .next u → step s = .next (tick (issued t q i u))) ∧ (∀ k, exec i t = .fault k → step s = .fault k)) ∧
  (∀ s i r, s.agenda = i :: r → i.isProgram = false → runs s →
    (∀ u, exec i { s with agenda := r } = .next u → step s = .next (tick u)) ∧
    (∀ k, exec i { s with agenda := r } = .refused k → step s = .next (tick { s with agenda := r }))) ∧
  (∀ s x o, s.agenda = [] → runs s → turns s = [x] → x.run s = some o → step s = ticked o) ∧
  (∀ s, s.agenda = [] → runs s → turns s ≠ [] → ∃ x ∈ turns s, ∃ s1, (s1 = s ∨ s1 = { s with fresh := s.fresh + 1 }) ∧
    step s = ticked ((x.run s1).getD (.next s1)))

/-! ## Reset and what every step keeps -/

/-- The registers after reset as the host reads them (03 R54, R69; 04 R91; 18 R421, R422, R424, R425), with nothing
resident; a queue reads as stopped, since the record of its context lies beyond a frame area of no bytes (R421). -/
def Obligations.ResetValues : Prop :=
  let w := windowRead State.reset
  let d := deviceRead State.reset
  (∀ q < 64, w 0 (64 * q) = 0 ∧ w 0 (64 * q + 0x08) = 4 ∧ w 0 (64 * q + 0x0C) = 0 ∧ w 0 (64 * q + 0x10) = 0 ∧
    w 0 (64 * q + 0x14) = 16) ∧
  w 0 0x010000 = 0 ∧ w 0 0x010008 = 0 ∧ w 0 0x010018 = 0 ∧ w 0 0x010020 = 0 ∧
  w 0 0x011000 = 0 ∧ w 0 0x011008 = 7 ∧ w 0 0x011010 = 0 ∧ w 0 0x011018 = 0 ∧
  w 0 0x080000 = 0 ∧ w 0 0x080008 = 0 ∧ w 0 0x080010 = 0 ∧ w 0 0x080018 = 0 ∧
  (∀ n < 16, w 0 (0x090000 + 8 * n) = 0 ∧ w 0 (0x090100 + 8 * n) = 0) ∧
  (∀ n < 8, w 0 (0x0A0100 + 8 * n) = 0) ∧ (∀ n < 12, w 0 (0x080020 + 8 * n) = 0) ∧
  (∀ a < 6, d a 0x00 = 0 ∧ d a 0x08 = 0 ∧ d a 0x10 = 0 ∧ d a 0x18 = 1 ∧ d a 0x20 = 2000 ∧ d a 0x28 = 700 ∧
    d a 0x30 = 0 ∧ d a 0x38 = 0 ∧ 20 ≤ d a 0x40 ∧ d a 0x40 ≤ 40 ∧ d a 0x48 = 0) ∧
  State.reset.groups = [] ∧ State.reset.teams = [] ∧ State.reset.nodes = [] ∧ State.reset.jobs = [] ∧
  partCount State.reset = 1

/-- Every step keeps the canonical form of memory (that a byte nobody has written reads as 0 is the model's choice,
log 1). -/
def Obligations.StepKeepsMemory : Prop := ∀ s t, Canonical s → step s = .next t → Canonical t

/-- Memory has its canonical form at reset, and after an instruction has been placed there. -/
def Obligations.ResetMemory : Prop :=
  Canonical State.reset ∧ ∀ n w, Canonical (State.reset.withFetchWord n w)
end

