-- ==== Sys2Proof/Laws/Sparse.lean ====
section
/-!
SUPPORT. Laws of the sparse maps: a read after a write, other keys, and the canonical form. The laws of reading hold of any
list; the canonical form says that the list is the one that stands for the map.
-/
namespace Sys2Proof.Machine

variable {α : Type}

@[simp] theorem spFind_nil (k : Nat) : spFind ([] : SMap α) k = none := rfl

theorem spFind_cons (i : Nat) (w : α) (r : SMap α) (k : Nat) :
    spFind ((i, w) :: r) k = if k = i then some w else spFind r k := by
  simp only [spFind, eq_comm]

theorem spFind_spPut (m : SMap α) (k j : Nat) (v : α) :
    spFind (spPut m k v) j = if j = k then some v else spFind m j := by
  induction m with
  | nil => simp [spPut, spFind_cons]
  | cons e r ih =>
    obtain ⟨i, w⟩ := e
    simp only [spPut]
    split
    · rw [spFind_cons]
    · split
      · subst i; simp only [spFind_cons]; by_cases h : j = k <;> simp [h]
      · rename_i hi
        simp only [spFind_cons, ih]
        by_cases h : j = i
        · subst h; simp [hi]
        · simp [h]

@[simp] theorem spFind_spPut_self (m : SMap α) (k : Nat) (v : α) : spFind (spPut m k v) k = some v := by
  simp [spFind_spPut]

theorem spFind_spPut_ne (m : SMap α) {k j : Nat} (v : α) (h : j ≠ k) : spFind (spPut m k v) j = spFind m j := by
  simp [spFind_spPut, h]

theorem spFind_spDel (m : SMap α) (k j : Nat) : spFind (spDel m k) j = if j = k then none else spFind m j := by
  induction m with
  | nil => simp [spDel]
  | cons e r ih =>
    obtain ⟨i, w⟩ := e
    simp only [spDel]
    by_cases hi : i = k
    · subst hi; simp only [if_true, ih, spFind_cons]; by_cases h : j = i <;> simp [h]
    · simp only [hi, if_false, spFind_cons, ih]
      by_cases h : j = i
      · subst h; simp [hi]
      · simp [h]

theorem spFind_spMod (m : SMap α) (k j : Nat) (f : α → α) :
    spFind (spMod m k f) j = if j = k then (spFind m k).map f else spFind m j := by
  induction m with
  | nil => simp [spMod]
  | cons e r ih =>
    obtain ⟨i, w⟩ := e
    simp only [spMod]
    by_cases hi : i = k
    · subst hi; simp only [if_true, spFind_cons]; by_cases h : j = i <;> simp [h]
    · simp only [hi, if_false, spFind_cons, ih]
      by_cases h : j = k
      · subst h; simp [Ne.symm hi]
      · simp [h]

@[simp] theorem spFind_spMod_self (m : SMap α) (k : Nat) (f : α → α) : spFind (spMod m k f) k = (spFind m k).map f := by
  simp [spFind_spMod]

/-- Two changes of one key are one change. -/
theorem spMod_spMod (m : SMap α) (k : Nat) (f g : α → α) : spMod (spMod m k f) k g = spMod m k fun x => g (f x) := by
  induction m with
  | nil => rfl
  | cons e r ih =>
    obtain ⟨i, w⟩ := e
    simp only [spMod]
    by_cases h : i = k <;> simp [h, spMod, ih]

/-- A change is what it does to the value the key has. -/
theorem spMod_const (m : SMap α) (k : Nat) (f : α → α) {v : α} (h : spFind m k = some v) :
    spMod m k f = spMod m k fun _ => f v := by
  induction m with
  | nil => rfl
  | cons e r ih =>
    obtain ⟨i, w⟩ := e
    simp only [spMod]
    simp only [spFind] at h
    by_cases hi : i = k
    · simp only [hi, if_true] at h; injection h with h; simp [hi, h]
    · simp only [hi, if_false] at h; simp [hi, ih h]

theorem spMod_keys (m : SMap α) (k : Nat) (f : α → α) : (spMod m k f).map (·.1) = m.map (·.1) := by
  induction m with
  | nil => rfl
  | cons e r ih =>
    obtain ⟨i, w⟩ := e
    simp only [spMod]
    by_cases h : i = k <;> simp [h, ih]

/-! ## Values under a default -/

theorem spGet_spPut (d : α) (m : SMap α) (k j : Nat) (v : α) :
    spGet d (spPut m k v) j = if j = k then v else spGet d m j := by
  simp only [spGet, spFind_spPut]; split <;> simp

theorem spGet_spSet [DecidableEq α] (d : α) (m : SMap α) (k j : Nat) (v : α) :
    spGet d (spSet d m k v) j = if j = k then v else spGet d m j := by
  simp only [spSet, spGet]
  by_cases hv : v = d
  · simp only [hv, if_true, spFind_spDel]; split <;> simp
  · simp only [hv, if_false, spFind_spPut]; split <;> simp

@[simp] theorem spGet_spSet_self [DecidableEq α] (d : α) (m : SMap α) (k : Nat) (v : α) :
    spGet d (spSet d m k v) k = v := by simp [spGet_spSet]

theorem spGet_spSet_ne [DecidableEq α] (d : α) (m : SMap α) {k j : Nat} (v : α) (h : j ≠ k) :
    spGet d (spSet d m k v) j = spGet d m j := by simp [spGet_spSet, h]

@[simp] theorem spGet_nil (d : α) (k : Nat) : spGet d [] k = d := rfl

/-! ## The canonical form -/

variable [DecidableEq α] {d : α}

theorem spWfFrom_cons {lo k : Nat} {v : α} {r : SMap α} :
    spWfFrom d lo ((k, v) :: r) = true ↔ lo ≤ k ∧ v ≠ d ∧ spWfFrom d (k + 1) r = true := by
  simp [spWfFrom, and_assoc]

theorem spWfFrom_mono {lo lo' : Nat} {m : SMap α} (h : spWfFrom d lo m = true) (hl : lo' ≤ lo) :
    spWfFrom d lo' m = true := by
  cases m with
  | nil => rfl
  | cons e r => obtain ⟨k, v⟩ := e; rw [spWfFrom_cons] at *; exact ⟨by omega, h.2.1, h.2.2⟩

theorem spWfFrom_spPut {lo : Nat} {m : SMap α} {k : Nat} {v : α} (h : spWfFrom d lo m = true) (hk : lo ≤ k) (hv : v ≠ d) :
    spWfFrom d lo (spPut m k v) = true := by
  induction m generalizing lo with
  | nil => simp [spPut, spWfFrom, hk, hv]
  | cons e r ih =>
    obtain ⟨i, w⟩ := e
    rw [spWfFrom_cons] at h
    simp only [spPut]
    split
    · rw [spWfFrom_cons, spWfFrom_cons]; exact ⟨hk, hv, by omega, h.2.1, h.2.2⟩
    · split
      · rw [spWfFrom_cons]; subst i; exact ⟨hk, hv, h.2.2⟩
      · rw [spWfFrom_cons]; exact ⟨h.1, h.2.1, ih h.2.2 (by omega)⟩

theorem spWfFrom_spDel {lo : Nat} {m : SMap α} (k : Nat) (h : spWfFrom d lo m = true) :
    spWfFrom d lo (spDel m k) = true := by
  induction m generalizing lo with
  | nil => rfl
  | cons e r ih =>
    obtain ⟨i, w⟩ := e
    rw [spWfFrom_cons] at h
    simp only [spDel]
    split
    · exact spWfFrom_mono (ih h.2.2) (by omega)
    · rw [spWfFrom_cons]; exact ⟨h.1, h.2.1, ih h.2.2⟩

/-- A write keeps the canonical form. -/
theorem spWf_spSet {m : SMap α} (k : Nat) (v : α) (h : spWf d m = true) : spWf d (spSet d m k v) = true := by
  simp only [spWf, spSet] at *
  split
  · exact spWfFrom_spDel k h
  · exact spWfFrom_spPut h (by omega) (by assumption)

theorem spWfFrom_filter {lo : Nat} {m : SMap α} (p : Nat × α → Bool) (h : spWfFrom d lo m = true) :
    spWfFrom d lo (m.filter p) = true := by
  induction m generalizing lo with
  | nil => rfl
  | cons e r ih =>
    obtain ⟨i, w⟩ := e
    rw [spWfFrom_cons] at h
    simp only [List.filter_cons]
    split
    · rw [spWfFrom_cons]; exact ⟨h.1, h.2.1, ih h.2.2⟩
    · exact spWfFrom_mono (ih h.2.2) (by omega)

theorem spWfFrom_append {lo mid : Nat} {m n : SMap α} (h : spWfFrom d lo m = true) (hm : ∀ e ∈ m, e.1 < mid)
    (hl : lo ≤ mid) (hn : spWfFrom d mid n = true) : spWfFrom d lo (m ++ n) = true := by
  induction m generalizing lo with
  | nil => exact spWfFrom_mono hn hl
  | cons e r ih =>
    obtain ⟨i, w⟩ := e
    rw [spWfFrom_cons] at h
    rw [List.cons_append, spWfFrom_cons]
    have := hm (i, w) (by simp)
    exact ⟨h.1, h.2.1, ih h.2.2 (fun e he => hm e (by simp [he])) (by simp at this; omega)⟩

/-- In a canonical map the first entries of the filter below a key are below it, and what is kept above is above. -/
theorem spWfFrom_filter_ge {lo b : Nat} {m : SMap α} (h : spWfFrom d lo m = true) :
    spWfFrom d b (m.filter fun e => decide (b ≤ e.1)) = true := by
  induction m generalizing lo with
  | nil => rfl
  | cons e r ih =>
    obtain ⟨i, w⟩ := e
    rw [spWfFrom_cons] at h
    simp only [List.filter_cons]
    split
    · rw [spWfFrom_cons]; rename_i hb; exact ⟨by simpa using hb, h.2.1, spWfFrom_filter _ h.2.2⟩
    · exact ih h.2.2

end Sys2Proof.Machine
end

