-- ==== Sys2Proof/Laws/State.lean ====
section
/-!
SUPPORT. One lemma per field per named update: what an update of the state leaves alone, so that no later proof unfolds a
record update.
-/
namespace Sys2Proof.Machine

variable (s : State)

/-! ## setGroup -/

@[simp] theorem setGroup_mem (gid : Nat) (g : Group) : (setGroup s gid g).mem = s.mem := rfl
@[simp] theorem setGroup_poison (gid : Nat) (g : Group) : (setGroup s gid g).poison = s.poison := rfl
@[simp] theorem setGroup_nibbles (gid : Nat) (g : Group) : (setGroup s gid g).nibbles = s.nibbles := rfl
@[simp] theorem setGroup_inband (gid : Nat) (g : Group) : (setGroup s gid g).inband = s.inband := rfl
@[simp] theorem setGroup_teams (gid : Nat) (g : Group) : (setGroup s gid g).teams = s.teams := rfl
@[simp] theorem setGroup_nodes (gid : Nat) (g : Group) : (setGroup s gid g).nodes = s.nodes := rfl
@[simp] theorem setGroup_entries (gid : Nat) (g : Group) : (setGroup s gid g).entries = s.entries := rfl
@[simp] theorem setGroup_jobs (gid : Nat) (g : Group) : (setGroup s gid g).jobs = s.jobs := rfl
@[simp] theorem setGroup_ops (gid : Nat) (g : Group) : (setGroup s gid g).ops = s.ops := rfl
@[simp] theorem setGroup_tiles (gid : Nat) (g : Group) : (setGroup s gid g).tiles = s.tiles := rfl
@[simp] theorem setGroup_parts (gid : Nat) (g : Group) : (setGroup s gid g).parts = s.parts := rfl
@[simp] theorem setGroup_clusters (gid : Nat) (g : Group) : (setGroup s gid g).clusters = s.clusters := rfl
@[simp] theorem setGroup_cores (gid : Nat) (g : Group) : (setGroup s gid g).cores = s.cores := rfl
@[simp] theorem setGroup_adapters (gid : Nat) (g : Group) : (setGroup s gid g).adapters = s.adapters := rfl
@[simp] theorem setGroup_ports (gid : Nat) (g : Group) : (setGroup s gid g).ports = s.ports := rfl
@[simp] theorem setGroup_partCfg (gid : Nat) (g : Group) : (setGroup s gid g).partCfg = s.partCfg := rfl
@[simp] theorem setGroup_portMap (gid : Nat) (g : Group) : (setGroup s gid g).portMap = s.portMap := rfl
@[simp] theorem setGroup_partErr (gid : Nat) (g : Group) : (setGroup s gid g).partErr = s.partErr := rfl
@[simp] theorem setGroup_busy (gid : Nat) (g : Group) : (setGroup s gid g).busy = s.busy := rfl
@[simp] theorem setGroup_heldWrites (gid : Nat) (g : Group) : (setGroup s gid g).heldWrites = s.heldWrites := rfl
@[simp] theorem setGroup_boot (gid : Nat) (g : Group) : (setGroup s gid g).boot = s.boot := rfl
@[simp] theorem setGroup_fwHash (gid : Nat) (g : Group) : (setGroup s gid g).fwHash = s.fwHash := rfl
@[simp] theorem setGroup_fwImage (gid : Nat) (g : Group) : (setGroup s gid g).fwImage = s.fwImage := rfl
@[simp] theorem setGroup_pwrLimit (gid : Nat) (g : Group) : (setGroup s gid g).pwrLimit = s.pwrLimit := rfl
@[simp] theorem setGroup_minClk (gid : Nat) (g : Group) : (setGroup s gid g).minClk = s.minClk := rfl
@[simp] theorem setGroup_watts (gid : Nat) (g : Group) : (setGroup s gid g).watts = s.watts := rfl
@[simp] theorem setGroup_stepping (gid : Nat) (g : Group) : (setGroup s gid g).stepping = s.stepping := rfl
@[simp] theorem setGroup_hostMsgs (gid : Nat) (g : Group) : (setGroup s gid g).hostMsgs = s.hostMsgs := rfl
@[simp] theorem setGroup_mcOps (gid : Nat) (g : Group) : (setGroup s gid g).mcOps = s.mcOps := rfl
@[simp] theorem setGroup_agenda (gid : Nat) (g : Group) : (setGroup s gid g).agenda = s.agenda := rfl
@[simp] theorem setGroup_cur (gid : Nat) (g : Group) : (setGroup s gid g).cur = s.cur := rfl
@[simp] theorem setGroup_clk (gid : Nat) (g : Group) : (setGroup s gid g).clk = s.clk := rfl
@[simp] theorem setGroup_hist (gid : Nat) (g : Group) : (setGroup s gid g).hist = s.hist := rfl
@[simp] theorem setGroup_know (gid : Nat) (g : Group) : (setGroup s gid g).know = s.know := rfl
@[simp] theorem setGroup_scOrder (gid : Nat) (g : Group) : (setGroup s gid g).scOrder = s.scOrder := rfl
@[simp] theorem setGroup_privOrder (gid : Nat) (g : Group) : (setGroup s gid g).privOrder = s.privOrder := rfl
@[simp] theorem setGroup_stores (gid : Nat) (g : Group) : (setGroup s gid g).stores = s.stores := rfl
@[simp] theorem setGroup_icinvs (gid : Nat) (g : Group) : (setGroup s gid g).icinvs = s.icinvs := rfl
@[simp] theorem setGroup_ends (gid : Nat) (g : Group) : (setGroup s gid g).ends = s.ends := rfl
@[simp] theorem setGroup_shares (gid : Nat) (g : Group) : (setGroup s gid g).shares = s.shares := rfl
@[simp] theorem setGroup_fresh (gid : Nat) (g : Group) : (setGroup s gid g).fresh = s.fresh := rfl
@[simp] theorem setGroup_order (gid : Nat) (g : Group) : (setGroup s gid g).order = s.order := rfl

/-! ## modGroup -/

@[simp] theorem modGroup_mem (gid : Nat) (f : Group → Group) : (modGroup s gid f).mem = s.mem := rfl
@[simp] theorem modGroup_poison (gid : Nat) (f : Group → Group) : (modGroup s gid f).poison = s.poison := rfl
@[simp] theorem modGroup_nibbles (gid : Nat) (f : Group → Group) : (modGroup s gid f).nibbles = s.nibbles := rfl
@[simp] theorem modGroup_inband (gid : Nat) (f : Group → Group) : (modGroup s gid f).inband = s.inband := rfl
@[simp] theorem modGroup_teams (gid : Nat) (f : Group → Group) : (modGroup s gid f).teams = s.teams := rfl
@[simp] theorem modGroup_nodes (gid : Nat) (f : Group → Group) : (modGroup s gid f).nodes = s.nodes := rfl
@[simp] theorem modGroup_entries (gid : Nat) (f : Group → Group) : (modGroup s gid f).entries = s.entries := rfl
@[simp] theorem modGroup_jobs (gid : Nat) (f : Group → Group) : (modGroup s gid f).jobs = s.jobs := rfl
@[simp] theorem modGroup_ops (gid : Nat) (f : Group → Group) : (modGroup s gid f).ops = s.ops := rfl
@[simp] theorem modGroup_tiles (gid : Nat) (f : Group → Group) : (modGroup s gid f).tiles = s.tiles := rfl
@[simp] theorem modGroup_parts (gid : Nat) (f : Group → Group) : (modGroup s gid f).parts = s.parts := rfl
@[simp] theorem modGroup_clusters (gid : Nat) (f : Group → Group) : (modGroup s gid f).clusters = s.clusters := rfl
@[simp] theorem modGroup_cores (gid : Nat) (f : Group → Group) : (modGroup s gid f).cores = s.cores := rfl
@[simp] theorem modGroup_adapters (gid : Nat) (f : Group → Group) : (modGroup s gid f).adapters = s.adapters := rfl
@[simp] theorem modGroup_ports (gid : Nat) (f : Group → Group) : (modGroup s gid f).ports = s.ports := rfl
@[simp] theorem modGroup_partCfg (gid : Nat) (f : Group → Group) : (modGroup s gid f).partCfg = s.partCfg := rfl
@[simp] theorem modGroup_portMap (gid : Nat) (f : Group → Group) : (modGroup s gid f).portMap = s.portMap := rfl
@[simp] theorem modGroup_partErr (gid : Nat) (f : Group → Group) : (modGroup s gid f).partErr = s.partErr := rfl
@[simp] theorem modGroup_busy (gid : Nat) (f : Group → Group) : (modGroup s gid f).busy = s.busy := rfl
@[simp] theorem modGroup_heldWrites (gid : Nat) (f : Group → Group) : (modGroup s gid f).heldWrites = s.heldWrites := rfl
@[simp] theorem modGroup_boot (gid : Nat) (f : Group → Group) : (modGroup s gid f).boot = s.boot := rfl
@[simp] theorem modGroup_fwHash (gid : Nat) (f : Group → Group) : (modGroup s gid f).fwHash = s.fwHash := rfl
@[simp] theorem modGroup_fwImage (gid : Nat) (f : Group → Group) : (modGroup s gid f).fwImage = s.fwImage := rfl
@[simp] theorem modGroup_pwrLimit (gid : Nat) (f : Group → Group) : (modGroup s gid f).pwrLimit = s.pwrLimit := rfl
@[simp] theorem modGroup_minClk (gid : Nat) (f : Group → Group) : (modGroup s gid f).minClk = s.minClk := rfl
@[simp] theorem modGroup_watts (gid : Nat) (f : Group → Group) : (modGroup s gid f).watts = s.watts := rfl
@[simp] theorem modGroup_stepping (gid : Nat) (f : Group → Group) : (modGroup s gid f).stepping = s.stepping := rfl
@[simp] theorem modGroup_hostMsgs (gid : Nat) (f : Group → Group) : (modGroup s gid f).hostMsgs = s.hostMsgs := rfl
@[simp] theorem modGroup_mcOps (gid : Nat) (f : Group → Group) : (modGroup s gid f).mcOps = s.mcOps := rfl
@[simp] theorem modGroup_agenda (gid : Nat) (f : Group → Group) : (modGroup s gid f).agenda = s.agenda := rfl
@[simp] theorem modGroup_cur (gid : Nat) (f : Group → Group) : (modGroup s gid f).cur = s.cur := rfl
@[simp] theorem modGroup_clk (gid : Nat) (f : Group → Group) : (modGroup s gid f).clk = s.clk := rfl
@[simp] theorem modGroup_hist (gid : Nat) (f : Group → Group) : (modGroup s gid f).hist = s.hist := rfl
@[simp] theorem modGroup_know (gid : Nat) (f : Group → Group) : (modGroup s gid f).know = s.know := rfl
@[simp] theorem modGroup_scOrder (gid : Nat) (f : Group → Group) : (modGroup s gid f).scOrder = s.scOrder := rfl
@[simp] theorem modGroup_privOrder (gid : Nat) (f : Group → Group) : (modGroup s gid f).privOrder = s.privOrder := rfl
@[simp] theorem modGroup_stores (gid : Nat) (f : Group → Group) : (modGroup s gid f).stores = s.stores := rfl
@[simp] theorem modGroup_icinvs (gid : Nat) (f : Group → Group) : (modGroup s gid f).icinvs = s.icinvs := rfl
@[simp] theorem modGroup_ends (gid : Nat) (f : Group → Group) : (modGroup s gid f).ends = s.ends := rfl
@[simp] theorem modGroup_shares (gid : Nat) (f : Group → Group) : (modGroup s gid f).shares = s.shares := rfl
@[simp] theorem modGroup_fresh (gid : Nat) (f : Group → Group) : (modGroup s gid f).fresh = s.fresh := rfl
@[simp] theorem modGroup_order (gid : Nat) (f : Group → Group) : (modGroup s gid f).order = s.order := rfl

/-! ## setPath -/

@[simp] theorem setPath_mem (gid live : Nat) (p : Option Path) : (setPath s gid live p).mem = s.mem := rfl
@[simp] theorem setPath_poison (gid live : Nat) (p : Option Path) : (setPath s gid live p).poison = s.poison := rfl
@[simp] theorem setPath_nibbles (gid live : Nat) (p : Option Path) : (setPath s gid live p).nibbles = s.nibbles := rfl
@[simp] theorem setPath_inband (gid live : Nat) (p : Option Path) : (setPath s gid live p).inband = s.inband := rfl
@[simp] theorem setPath_teams (gid live : Nat) (p : Option Path) : (setPath s gid live p).teams = s.teams := rfl
@[simp] theorem setPath_nodes (gid live : Nat) (p : Option Path) : (setPath s gid live p).nodes = s.nodes := rfl
@[simp] theorem setPath_entries (gid live : Nat) (p : Option Path) : (setPath s gid live p).entries = s.entries := rfl
@[simp] theorem setPath_jobs (gid live : Nat) (p : Option Path) : (setPath s gid live p).jobs = s.jobs := rfl
@[simp] theorem setPath_ops (gid live : Nat) (p : Option Path) : (setPath s gid live p).ops = s.ops := rfl
@[simp] theorem setPath_tiles (gid live : Nat) (p : Option Path) : (setPath s gid live p).tiles = s.tiles := rfl
@[simp] theorem setPath_parts (gid live : Nat) (p : Option Path) : (setPath s gid live p).parts = s.parts := rfl
@[simp] theorem setPath_clusters (gid live : Nat) (p : Option Path) : (setPath s gid live p).clusters = s.clusters := rfl
@[simp] theorem setPath_cores (gid live : Nat) (p : Option Path) : (setPath s gid live p).cores = s.cores := rfl
@[simp] theorem setPath_adapters (gid live : Nat) (p : Option Path) : (setPath s gid live p).adapters = s.adapters := rfl
@[simp] theorem setPath_ports (gid live : Nat) (p : Option Path) : (setPath s gid live p).ports = s.ports := rfl
@[simp] theorem setPath_partCfg (gid live : Nat) (p : Option Path) : (setPath s gid live p).partCfg = s.partCfg := rfl
@[simp] theorem setPath_portMap (gid live : Nat) (p : Option Path) : (setPath s gid live p).portMap = s.portMap := rfl
@[simp] theorem setPath_partErr (gid live : Nat) (p : Option Path) : (setPath s gid live p).partErr = s.partErr := rfl
@[simp] theorem setPath_busy (gid live : Nat) (p : Option Path) : (setPath s gid live p).busy = s.busy := rfl
@[simp] theorem setPath_heldWrites (gid live : Nat) (p : Option Path) : (setPath s gid live p).heldWrites = s.heldWrites := rfl
@[simp] theorem setPath_boot (gid live : Nat) (p : Option Path) : (setPath s gid live p).boot = s.boot := rfl
@[simp] theorem setPath_fwHash (gid live : Nat) (p : Option Path) : (setPath s gid live p).fwHash = s.fwHash := rfl
@[simp] theorem setPath_fwImage (gid live : Nat) (p : Option Path) : (setPath s gid live p).fwImage = s.fwImage := rfl
@[simp] theorem setPath_pwrLimit (gid live : Nat) (p : Option Path) : (setPath s gid live p).pwrLimit = s.pwrLimit := rfl
@[simp] theorem setPath_minClk (gid live : Nat) (p : Option Path) : (setPath s gid live p).minClk = s.minClk := rfl
@[simp] theorem setPath_watts (gid live : Nat) (p : Option Path) : (setPath s gid live p).watts = s.watts := rfl
@[simp] theorem setPath_stepping (gid live : Nat) (p : Option Path) : (setPath s gid live p).stepping = s.stepping := rfl
@[simp] theorem setPath_hostMsgs (gid live : Nat) (p : Option Path) : (setPath s gid live p).hostMsgs = s.hostMsgs := rfl
@[simp] theorem setPath_mcOps (gid live : Nat) (p : Option Path) : (setPath s gid live p).mcOps = s.mcOps := rfl
@[simp] theorem setPath_agenda (gid live : Nat) (p : Option Path) : (setPath s gid live p).agenda = s.agenda := rfl
@[simp] theorem setPath_cur (gid live : Nat) (p : Option Path) : (setPath s gid live p).cur = s.cur := rfl
@[simp] theorem setPath_clk (gid live : Nat) (p : Option Path) : (setPath s gid live p).clk = s.clk := rfl
@[simp] theorem setPath_hist (gid live : Nat) (p : Option Path) : (setPath s gid live p).hist = s.hist := rfl
@[simp] theorem setPath_know (gid live : Nat) (p : Option Path) : (setPath s gid live p).know = s.know := rfl
@[simp] theorem setPath_scOrder (gid live : Nat) (p : Option Path) : (setPath s gid live p).scOrder = s.scOrder := rfl
@[simp] theorem setPath_privOrder (gid live : Nat) (p : Option Path) : (setPath s gid live p).privOrder = s.privOrder := rfl
@[simp] theorem setPath_stores (gid live : Nat) (p : Option Path) : (setPath s gid live p).stores = s.stores := rfl
@[simp] theorem setPath_icinvs (gid live : Nat) (p : Option Path) : (setPath s gid live p).icinvs = s.icinvs := rfl
@[simp] theorem setPath_ends (gid live : Nat) (p : Option Path) : (setPath s gid live p).ends = s.ends := rfl
@[simp] theorem setPath_shares (gid live : Nat) (p : Option Path) : (setPath s gid live p).shares = s.shares := rfl
@[simp] theorem setPath_fresh (gid live : Nat) (p : Option Path) : (setPath s gid live p).fresh = s.fresh := rfl
@[simp] theorem setPath_order (gid live : Nat) (p : Option Path) : (setPath s gid live p).order = s.order := rfl

/-! ## modPath -/

@[simp] theorem modPath_mem (gid live : Nat) (f : Path → Path) : (modPath s gid live f).mem = s.mem := rfl
@[simp] theorem modPath_poison (gid live : Nat) (f : Path → Path) : (modPath s gid live f).poison = s.poison := rfl
@[simp] theorem modPath_nibbles (gid live : Nat) (f : Path → Path) : (modPath s gid live f).nibbles = s.nibbles := rfl
@[simp] theorem modPath_inband (gid live : Nat) (f : Path → Path) : (modPath s gid live f).inband = s.inband := rfl
@[simp] theorem modPath_teams (gid live : Nat) (f : Path → Path) : (modPath s gid live f).teams = s.teams := rfl
@[simp] theorem modPath_nodes (gid live : Nat) (f : Path → Path) : (modPath s gid live f).nodes = s.nodes := rfl
@[simp] theorem modPath_entries (gid live : Nat) (f : Path → Path) : (modPath s gid live f).entries = s.entries := rfl
@[simp] theorem modPath_jobs (gid live : Nat) (f : Path → Path) : (modPath s gid live f).jobs = s.jobs := rfl
@[simp] theorem modPath_ops (gid live : Nat) (f : Path → Path) : (modPath s gid live f).ops = s.ops := rfl
@[simp] theorem modPath_tiles (gid live : Nat) (f : Path → Path) : (modPath s gid live f).tiles = s.tiles := rfl
@[simp] theorem modPath_parts (gid live : Nat) (f : Path → Path) : (modPath s gid live f).parts = s.parts := rfl
@[simp] theorem modPath_clusters (gid live : Nat) (f : Path → Path) : (modPath s gid live f).clusters = s.clusters := rfl
@[simp] theorem modPath_cores (gid live : Nat) (f : Path → Path) : (modPath s gid live f).cores = s.cores := rfl
@[simp] theorem modPath_adapters (gid live : Nat) (f : Path → Path) : (modPath s gid live f).adapters = s.adapters := rfl
@[simp] theorem modPath_ports (gid live : Nat) (f : Path → Path) : (modPath s gid live f).ports = s.ports := rfl
@[simp] theorem modPath_partCfg (gid live : Nat) (f : Path → Path) : (modPath s gid live f).partCfg = s.partCfg := rfl
@[simp] theorem modPath_portMap (gid live : Nat) (f : Path → Path) : (modPath s gid live f).portMap = s.portMap := rfl
@[simp] theorem modPath_partErr (gid live : Nat) (f : Path → Path) : (modPath s gid live f).partErr = s.partErr := rfl
@[simp] theorem modPath_busy (gid live : Nat) (f : Path → Path) : (modPath s gid live f).busy = s.busy := rfl
@[simp] theorem modPath_heldWrites (gid live : Nat) (f : Path → Path) : (modPath s gid live f).heldWrites = s.heldWrites := rfl
@[simp] theorem modPath_boot (gid live : Nat) (f : Path → Path) : (modPath s gid live f).boot = s.boot := rfl
@[simp] theorem modPath_fwHash (gid live : Nat) (f : Path → Path) : (modPath s gid live f).fwHash = s.fwHash := rfl
@[simp] theorem modPath_fwImage (gid live : Nat) (f : Path → Path) : (modPath s gid live f).fwImage = s.fwImage := rfl
@[simp] theorem modPath_pwrLimit (gid live : Nat) (f : Path → Path) : (modPath s gid live f).pwrLimit = s.pwrLimit := rfl
@[simp] theorem modPath_minClk (gid live : Nat) (f : Path → Path) : (modPath s gid live f).minClk = s.minClk := rfl
@[simp] theorem modPath_watts (gid live : Nat) (f : Path → Path) : (modPath s gid live f).watts = s.watts := rfl
@[simp] theorem modPath_stepping (gid live : Nat) (f : Path → Path) : (modPath s gid live f).stepping = s.stepping := rfl
@[simp] theorem modPath_hostMsgs (gid live : Nat) (f : Path → Path) : (modPath s gid live f).hostMsgs = s.hostMsgs := rfl
@[simp] theorem modPath_mcOps (gid live : Nat) (f : Path → Path) : (modPath s gid live f).mcOps = s.mcOps := rfl
@[simp] theorem modPath_agenda (gid live : Nat) (f : Path → Path) : (modPath s gid live f).agenda = s.agenda := rfl
@[simp] theorem modPath_cur (gid live : Nat) (f : Path → Path) : (modPath s gid live f).cur = s.cur := rfl
@[simp] theorem modPath_clk (gid live : Nat) (f : Path → Path) : (modPath s gid live f).clk = s.clk := rfl
@[simp] theorem modPath_hist (gid live : Nat) (f : Path → Path) : (modPath s gid live f).hist = s.hist := rfl
@[simp] theorem modPath_know (gid live : Nat) (f : Path → Path) : (modPath s gid live f).know = s.know := rfl
@[simp] theorem modPath_scOrder (gid live : Nat) (f : Path → Path) : (modPath s gid live f).scOrder = s.scOrder := rfl
@[simp] theorem modPath_privOrder (gid live : Nat) (f : Path → Path) : (modPath s gid live f).privOrder = s.privOrder := rfl
@[simp] theorem modPath_stores (gid live : Nat) (f : Path → Path) : (modPath s gid live f).stores = s.stores := rfl
@[simp] theorem modPath_icinvs (gid live : Nat) (f : Path → Path) : (modPath s gid live f).icinvs = s.icinvs := rfl
@[simp] theorem modPath_ends (gid live : Nat) (f : Path → Path) : (modPath s gid live f).ends = s.ends := rfl
@[simp] theorem modPath_shares (gid live : Nat) (f : Path → Path) : (modPath s gid live f).shares = s.shares := rfl
@[simp] theorem modPath_fresh (gid live : Nat) (f : Path → Path) : (modPath s gid live f).fresh = s.fresh := rfl
@[simp] theorem modPath_order (gid live : Nat) (f : Path → Path) : (modPath s gid live f).order = s.order := rfl

/-! ## retire -/

@[simp] theorem retire_mem (c : Iss) : (retire s c).mem = s.mem := rfl
@[simp] theorem retire_poison (c : Iss) : (retire s c).poison = s.poison := rfl
@[simp] theorem retire_nibbles (c : Iss) : (retire s c).nibbles = s.nibbles := rfl
@[simp] theorem retire_inband (c : Iss) : (retire s c).inband = s.inband := rfl
@[simp] theorem retire_teams (c : Iss) : (retire s c).teams = s.teams := rfl
@[simp] theorem retire_nodes (c : Iss) : (retire s c).nodes = s.nodes := rfl
@[simp] theorem retire_entries (c : Iss) : (retire s c).entries = s.entries := rfl
@[simp] theorem retire_jobs (c : Iss) : (retire s c).jobs = s.jobs := rfl
@[simp] theorem retire_ops (c : Iss) : (retire s c).ops = s.ops := rfl
@[simp] theorem retire_tiles (c : Iss) : (retire s c).tiles = s.tiles := rfl
@[simp] theorem retire_parts (c : Iss) : (retire s c).parts = s.parts := rfl
@[simp] theorem retire_clusters (c : Iss) : (retire s c).clusters = s.clusters := rfl
@[simp] theorem retire_cores (c : Iss) : (retire s c).cores = s.cores := rfl
@[simp] theorem retire_adapters (c : Iss) : (retire s c).adapters = s.adapters := rfl
@[simp] theorem retire_ports (c : Iss) : (retire s c).ports = s.ports := rfl
@[simp] theorem retire_partCfg (c : Iss) : (retire s c).partCfg = s.partCfg := rfl
@[simp] theorem retire_portMap (c : Iss) : (retire s c).portMap = s.portMap := rfl
@[simp] theorem retire_partErr (c : Iss) : (retire s c).partErr = s.partErr := rfl
@[simp] theorem retire_busy (c : Iss) : (retire s c).busy = s.busy := rfl
@[simp] theorem retire_heldWrites (c : Iss) : (retire s c).heldWrites = s.heldWrites := rfl
@[simp] theorem retire_boot (c : Iss) : (retire s c).boot = s.boot := rfl
@[simp] theorem retire_fwHash (c : Iss) : (retire s c).fwHash = s.fwHash := rfl
@[simp] theorem retire_fwImage (c : Iss) : (retire s c).fwImage = s.fwImage := rfl
@[simp] theorem retire_pwrLimit (c : Iss) : (retire s c).pwrLimit = s.pwrLimit := rfl
@[simp] theorem retire_minClk (c : Iss) : (retire s c).minClk = s.minClk := rfl
@[simp] theorem retire_watts (c : Iss) : (retire s c).watts = s.watts := rfl
@[simp] theorem retire_stepping (c : Iss) : (retire s c).stepping = s.stepping := rfl
@[simp] theorem retire_hostMsgs (c : Iss) : (retire s c).hostMsgs = s.hostMsgs := rfl
@[simp] theorem retire_mcOps (c : Iss) : (retire s c).mcOps = s.mcOps := rfl
@[simp] theorem retire_agenda (c : Iss) : (retire s c).agenda = s.agenda := rfl
@[simp] theorem retire_cur (c : Iss) : (retire s c).cur = s.cur := rfl
@[simp] theorem retire_clk (c : Iss) : (retire s c).clk = s.clk := rfl
@[simp] theorem retire_hist (c : Iss) : (retire s c).hist = s.hist := rfl
@[simp] theorem retire_know (c : Iss) : (retire s c).know = s.know := rfl
@[simp] theorem retire_scOrder (c : Iss) : (retire s c).scOrder = s.scOrder := rfl
@[simp] theorem retire_privOrder (c : Iss) : (retire s c).privOrder = s.privOrder := rfl
@[simp] theorem retire_stores (c : Iss) : (retire s c).stores = s.stores := rfl
@[simp] theorem retire_icinvs (c : Iss) : (retire s c).icinvs = s.icinvs := rfl
@[simp] theorem retire_ends (c : Iss) : (retire s c).ends = s.ends := rfl
@[simp] theorem retire_shares (c : Iss) : (retire s c).shares = s.shares := rfl
@[simp] theorem retire_fresh (c : Iss) : (retire s c).fresh = s.fresh := rfl
@[simp] theorem retire_order (c : Iss) : (retire s c).order = s.order := rfl

/-! ## branchTo -/

@[simp] theorem branchTo_mem (c : Iss) (target : Nat) : (branchTo s c target).mem = s.mem := rfl
@[simp] theorem branchTo_poison (c : Iss) (target : Nat) : (branchTo s c target).poison = s.poison := rfl
@[simp] theorem branchTo_nibbles (c : Iss) (target : Nat) : (branchTo s c target).nibbles = s.nibbles := rfl
@[simp] theorem branchTo_inband (c : Iss) (target : Nat) : (branchTo s c target).inband = s.inband := rfl
@[simp] theorem branchTo_teams (c : Iss) (target : Nat) : (branchTo s c target).teams = s.teams := rfl
@[simp] theorem branchTo_nodes (c : Iss) (target : Nat) : (branchTo s c target).nodes = s.nodes := rfl
@[simp] theorem branchTo_entries (c : Iss) (target : Nat) : (branchTo s c target).entries = s.entries := rfl
@[simp] theorem branchTo_jobs (c : Iss) (target : Nat) : (branchTo s c target).jobs = s.jobs := rfl
@[simp] theorem branchTo_ops (c : Iss) (target : Nat) : (branchTo s c target).ops = s.ops := rfl
@[simp] theorem branchTo_tiles (c : Iss) (target : Nat) : (branchTo s c target).tiles = s.tiles := rfl
@[simp] theorem branchTo_parts (c : Iss) (target : Nat) : (branchTo s c target).parts = s.parts := rfl
@[simp] theorem branchTo_clusters (c : Iss) (target : Nat) : (branchTo s c target).clusters = s.clusters := rfl
@[simp] theorem branchTo_cores (c : Iss) (target : Nat) : (branchTo s c target).cores = s.cores := rfl
@[simp] theorem branchTo_adapters (c : Iss) (target : Nat) : (branchTo s c target).adapters = s.adapters := rfl
@[simp] theorem branchTo_ports (c : Iss) (target : Nat) : (branchTo s c target).ports = s.ports := rfl
@[simp] theorem branchTo_partCfg (c : Iss) (target : Nat) : (branchTo s c target).partCfg = s.partCfg := rfl
@[simp] theorem branchTo_portMap (c : Iss) (target : Nat) : (branchTo s c target).portMap = s.portMap := rfl
@[simp] theorem branchTo_partErr (c : Iss) (target : Nat) : (branchTo s c target).partErr = s.partErr := rfl
@[simp] theorem branchTo_busy (c : Iss) (target : Nat) : (branchTo s c target).busy = s.busy := rfl
@[simp] theorem branchTo_heldWrites (c : Iss) (target : Nat) : (branchTo s c target).heldWrites = s.heldWrites := rfl
@[simp] theorem branchTo_boot (c : Iss) (target : Nat) : (branchTo s c target).boot = s.boot := rfl
@[simp] theorem branchTo_fwHash (c : Iss) (target : Nat) : (branchTo s c target).fwHash = s.fwHash := rfl
@[simp] theorem branchTo_fwImage (c : Iss) (target : Nat) : (branchTo s c target).fwImage = s.fwImage := rfl
@[simp] theorem branchTo_pwrLimit (c : Iss) (target : Nat) : (branchTo s c target).pwrLimit = s.pwrLimit := rfl
@[simp] theorem branchTo_minClk (c : Iss) (target : Nat) : (branchTo s c target).minClk = s.minClk := rfl
@[simp] theorem branchTo_watts (c : Iss) (target : Nat) : (branchTo s c target).watts = s.watts := rfl
@[simp] theorem branchTo_stepping (c : Iss) (target : Nat) : (branchTo s c target).stepping = s.stepping := rfl
@[simp] theorem branchTo_hostMsgs (c : Iss) (target : Nat) : (branchTo s c target).hostMsgs = s.hostMsgs := rfl
@[simp] theorem branchTo_mcOps (c : Iss) (target : Nat) : (branchTo s c target).mcOps = s.mcOps := rfl
@[simp] theorem branchTo_agenda (c : Iss) (target : Nat) : (branchTo s c target).agenda = s.agenda := rfl
@[simp] theorem branchTo_cur (c : Iss) (target : Nat) : (branchTo s c target).cur = s.cur := rfl
@[simp] theorem branchTo_clk (c : Iss) (target : Nat) : (branchTo s c target).clk = s.clk := rfl
@[simp] theorem branchTo_hist (c : Iss) (target : Nat) : (branchTo s c target).hist = s.hist := rfl
@[simp] theorem branchTo_know (c : Iss) (target : Nat) : (branchTo s c target).know = s.know := rfl
@[simp] theorem branchTo_scOrder (c : Iss) (target : Nat) : (branchTo s c target).scOrder = s.scOrder := rfl
@[simp] theorem branchTo_privOrder (c : Iss) (target : Nat) : (branchTo s c target).privOrder = s.privOrder := rfl
@[simp] theorem branchTo_stores (c : Iss) (target : Nat) : (branchTo s c target).stores = s.stores := rfl
@[simp] theorem branchTo_icinvs (c : Iss) (target : Nat) : (branchTo s c target).icinvs = s.icinvs := rfl
@[simp] theorem branchTo_ends (c : Iss) (target : Nat) : (branchTo s c target).ends = s.ends := rfl
@[simp] theorem branchTo_shares (c : Iss) (target : Nat) : (branchTo s c target).shares = s.shares := rfl
@[simp] theorem branchTo_fresh (c : Iss) (target : Nat) : (branchTo s c target).fresh = s.fresh := rfl
@[simp] theorem branchTo_order (c : Iss) (target : Nat) : (branchTo s c target).order = s.order := rfl

/-! ## waitOn -/

@[simp] theorem waitOn_mem (c : Iss) (w : Wait) : (waitOn s c w).mem = s.mem := rfl
@[simp] theorem waitOn_poison (c : Iss) (w : Wait) : (waitOn s c w).poison = s.poison := rfl
@[simp] theorem waitOn_nibbles (c : Iss) (w : Wait) : (waitOn s c w).nibbles = s.nibbles := rfl
@[simp] theorem waitOn_inband (c : Iss) (w : Wait) : (waitOn s c w).inband = s.inband := rfl
@[simp] theorem waitOn_teams (c : Iss) (w : Wait) : (waitOn s c w).teams = s.teams := rfl
@[simp] theorem waitOn_nodes (c : Iss) (w : Wait) : (waitOn s c w).nodes = s.nodes := rfl
@[simp] theorem waitOn_entries (c : Iss) (w : Wait) : (waitOn s c w).entries = s.entries := rfl
@[simp] theorem waitOn_jobs (c : Iss) (w : Wait) : (waitOn s c w).jobs = s.jobs := rfl
@[simp] theorem waitOn_ops (c : Iss) (w : Wait) : (waitOn s c w).ops = s.ops := rfl
@[simp] theorem waitOn_tiles (c : Iss) (w : Wait) : (waitOn s c w).tiles = s.tiles := rfl
@[simp] theorem waitOn_parts (c : Iss) (w : Wait) : (waitOn s c w).parts = s.parts := rfl
@[simp] theorem waitOn_clusters (c : Iss) (w : Wait) : (waitOn s c w).clusters = s.clusters := rfl
@[simp] theorem waitOn_cores (c : Iss) (w : Wait) : (waitOn s c w).cores = s.cores := rfl
@[simp] theorem waitOn_adapters (c : Iss) (w : Wait) : (waitOn s c w).adapters = s.adapters := rfl
@[simp] theorem waitOn_ports (c : Iss) (w : Wait) : (waitOn s c w).ports = s.ports := rfl
@[simp] theorem waitOn_partCfg (c : Iss) (w : Wait) : (waitOn s c w).partCfg = s.partCfg := rfl
@[simp] theorem waitOn_portMap (c : Iss) (w : Wait) : (waitOn s c w).portMap = s.portMap := rfl
@[simp] theorem waitOn_partErr (c : Iss) (w : Wait) : (waitOn s c w).partErr = s.partErr := rfl
@[simp] theorem waitOn_busy (c : Iss) (w : Wait) : (waitOn s c w).busy = s.busy := rfl
@[simp] theorem waitOn_heldWrites (c : Iss) (w : Wait) : (waitOn s c w).heldWrites = s.heldWrites := rfl
@[simp] theorem waitOn_boot (c : Iss) (w : Wait) : (waitOn s c w).boot = s.boot := rfl
@[simp] theorem waitOn_fwHash (c : Iss) (w : Wait) : (waitOn s c w).fwHash = s.fwHash := rfl
@[simp] theorem waitOn_fwImage (c : Iss) (w : Wait) : (waitOn s c w).fwImage = s.fwImage := rfl
@[simp] theorem waitOn_pwrLimit (c : Iss) (w : Wait) : (waitOn s c w).pwrLimit = s.pwrLimit := rfl
@[simp] theorem waitOn_minClk (c : Iss) (w : Wait) : (waitOn s c w).minClk = s.minClk := rfl
@[simp] theorem waitOn_watts (c : Iss) (w : Wait) : (waitOn s c w).watts = s.watts := rfl
@[simp] theorem waitOn_stepping (c : Iss) (w : Wait) : (waitOn s c w).stepping = s.stepping := rfl
@[simp] theorem waitOn_hostMsgs (c : Iss) (w : Wait) : (waitOn s c w).hostMsgs = s.hostMsgs := rfl
@[simp] theorem waitOn_mcOps (c : Iss) (w : Wait) : (waitOn s c w).mcOps = s.mcOps := rfl
@[simp] theorem waitOn_agenda (c : Iss) (w : Wait) : (waitOn s c w).agenda = s.agenda := rfl
@[simp] theorem waitOn_cur (c : Iss) (w : Wait) : (waitOn s c w).cur = s.cur := rfl
@[simp] theorem waitOn_clk (c : Iss) (w : Wait) : (waitOn s c w).clk = s.clk := rfl
@[simp] theorem waitOn_hist (c : Iss) (w : Wait) : (waitOn s c w).hist = s.hist := rfl
@[simp] theorem waitOn_know (c : Iss) (w : Wait) : (waitOn s c w).know = s.know := rfl
@[simp] theorem waitOn_scOrder (c : Iss) (w : Wait) : (waitOn s c w).scOrder = s.scOrder := rfl
@[simp] theorem waitOn_privOrder (c : Iss) (w : Wait) : (waitOn s c w).privOrder = s.privOrder := rfl
@[simp] theorem waitOn_stores (c : Iss) (w : Wait) : (waitOn s c w).stores = s.stores := rfl
@[simp] theorem waitOn_icinvs (c : Iss) (w : Wait) : (waitOn s c w).icinvs = s.icinvs := rfl
@[simp] theorem waitOn_ends (c : Iss) (w : Wait) : (waitOn s c w).ends = s.ends := rfl
@[simp] theorem waitOn_shares (c : Iss) (w : Wait) : (waitOn s c w).shares = s.shares := rfl
@[simp] theorem waitOn_fresh (c : Iss) (w : Wait) : (waitOn s c w).fresh = s.fresh := rfl
@[simp] theorem waitOn_order (c : Iss) (w : Wait) : (waitOn s c w).order = s.order := rfl

/-! ## modTeam -/

@[simp] theorem modTeam_mem (t : Nat) (f : Team → Team) : (modTeam s t f).mem = s.mem := rfl
@[simp] theorem modTeam_poison (t : Nat) (f : Team → Team) : (modTeam s t f).poison = s.poison := rfl
@[simp] theorem modTeam_nibbles (t : Nat) (f : Team → Team) : (modTeam s t f).nibbles = s.nibbles := rfl
@[simp] theorem modTeam_inband (t : Nat) (f : Team → Team) : (modTeam s t f).inband = s.inband := rfl
@[simp] theorem modTeam_groups (t : Nat) (f : Team → Team) : (modTeam s t f).groups = s.groups := rfl
@[simp] theorem modTeam_nodes (t : Nat) (f : Team → Team) : (modTeam s t f).nodes = s.nodes := rfl
@[simp] theorem modTeam_entries (t : Nat) (f : Team → Team) : (modTeam s t f).entries = s.entries := rfl
@[simp] theorem modTeam_jobs (t : Nat) (f : Team → Team) : (modTeam s t f).jobs = s.jobs := rfl
@[simp] theorem modTeam_ops (t : Nat) (f : Team → Team) : (modTeam s t f).ops = s.ops := rfl
@[simp] theorem modTeam_tiles (t : Nat) (f : Team → Team) : (modTeam s t f).tiles = s.tiles := rfl
@[simp] theorem modTeam_parts (t : Nat) (f : Team → Team) : (modTeam s t f).parts = s.parts := rfl
@[simp] theorem modTeam_clusters (t : Nat) (f : Team → Team) : (modTeam s t f).clusters = s.clusters := rfl
@[simp] theorem modTeam_cores (t : Nat) (f : Team → Team) : (modTeam s t f).cores = s.cores := rfl
@[simp] theorem modTeam_adapters (t : Nat) (f : Team → Team) : (modTeam s t f).adapters = s.adapters := rfl
@[simp] theorem modTeam_ports (t : Nat) (f : Team → Team) : (modTeam s t f).ports = s.ports := rfl
@[simp] theorem modTeam_partCfg (t : Nat) (f : Team → Team) : (modTeam s t f).partCfg = s.partCfg := rfl
@[simp] theorem modTeam_portMap (t : Nat) (f : Team → Team) : (modTeam s t f).portMap = s.portMap := rfl
@[simp] theorem modTeam_partErr (t : Nat) (f : Team → Team) : (modTeam s t f).partErr = s.partErr := rfl
@[simp] theorem modTeam_busy (t : Nat) (f : Team → Team) : (modTeam s t f).busy = s.busy := rfl
@[simp] theorem modTeam_heldWrites (t : Nat) (f : Team → Team) : (modTeam s t f).heldWrites = s.heldWrites := rfl
@[simp] theorem modTeam_boot (t : Nat) (f : Team → Team) : (modTeam s t f).boot = s.boot := rfl
@[simp] theorem modTeam_fwHash (t : Nat) (f : Team → Team) : (modTeam s t f).fwHash = s.fwHash := rfl
@[simp] theorem modTeam_fwImage (t : Nat) (f : Team → Team) : (modTeam s t f).fwImage = s.fwImage := rfl
@[simp] theorem modTeam_pwrLimit (t : Nat) (f : Team → Team) : (modTeam s t f).pwrLimit = s.pwrLimit := rfl
@[simp] theorem modTeam_minClk (t : Nat) (f : Team → Team) : (modTeam s t f).minClk = s.minClk := rfl
@[simp] theorem modTeam_watts (t : Nat) (f : Team → Team) : (modTeam s t f).watts = s.watts := rfl
@[simp] theorem modTeam_stepping (t : Nat) (f : Team → Team) : (modTeam s t f).stepping = s.stepping := rfl
@[simp] theorem modTeam_hostMsgs (t : Nat) (f : Team → Team) : (modTeam s t f).hostMsgs = s.hostMsgs := rfl
@[simp] theorem modTeam_mcOps (t : Nat) (f : Team → Team) : (modTeam s t f).mcOps = s.mcOps := rfl
@[simp] theorem modTeam_agenda (t : Nat) (f : Team → Team) : (modTeam s t f).agenda = s.agenda := rfl
@[simp] theorem modTeam_cur (t : Nat) (f : Team → Team) : (modTeam s t f).cur = s.cur := rfl
@[simp] theorem modTeam_clk (t : Nat) (f : Team → Team) : (modTeam s t f).clk = s.clk := rfl
@[simp] theorem modTeam_hist (t : Nat) (f : Team → Team) : (modTeam s t f).hist = s.hist := rfl
@[simp] theorem modTeam_know (t : Nat) (f : Team → Team) : (modTeam s t f).know = s.know := rfl
@[simp] theorem modTeam_scOrder (t : Nat) (f : Team → Team) : (modTeam s t f).scOrder = s.scOrder := rfl
@[simp] theorem modTeam_privOrder (t : Nat) (f : Team → Team) : (modTeam s t f).privOrder = s.privOrder := rfl
@[simp] theorem modTeam_stores (t : Nat) (f : Team → Team) : (modTeam s t f).stores = s.stores := rfl
@[simp] theorem modTeam_icinvs (t : Nat) (f : Team → Team) : (modTeam s t f).icinvs = s.icinvs := rfl
@[simp] theorem modTeam_ends (t : Nat) (f : Team → Team) : (modTeam s t f).ends = s.ends := rfl
@[simp] theorem modTeam_shares (t : Nat) (f : Team → Team) : (modTeam s t f).shares = s.shares := rfl
@[simp] theorem modTeam_fresh (t : Nat) (f : Team → Team) : (modTeam s t f).fresh = s.fresh := rfl
@[simp] theorem modTeam_order (t : Nat) (f : Team → Team) : (modTeam s t f).order = s.order := rfl

/-! ## modNode -/

@[simp] theorem modNode_mem (n : Nat) (f : Node → Node) : (modNode s n f).mem = s.mem := rfl
@[simp] theorem modNode_poison (n : Nat) (f : Node → Node) : (modNode s n f).poison = s.poison := rfl
@[simp] theorem modNode_nibbles (n : Nat) (f : Node → Node) : (modNode s n f).nibbles = s.nibbles := rfl
@[simp] theorem modNode_inband (n : Nat) (f : Node → Node) : (modNode s n f).inband = s.inband := rfl
@[simp] theorem modNode_groups (n : Nat) (f : Node → Node) : (modNode s n f).groups = s.groups := rfl
@[simp] theorem modNode_teams (n : Nat) (f : Node → Node) : (modNode s n f).teams = s.teams := rfl
@[simp] theorem modNode_entries (n : Nat) (f : Node → Node) : (modNode s n f).entries = s.entries := rfl
@[simp] theorem modNode_jobs (n : Nat) (f : Node → Node) : (modNode s n f).jobs = s.jobs := rfl
@[simp] theorem modNode_ops (n : Nat) (f : Node → Node) : (modNode s n f).ops = s.ops := rfl
@[simp] theorem modNode_tiles (n : Nat) (f : Node → Node) : (modNode s n f).tiles = s.tiles := rfl
@[simp] theorem modNode_parts (n : Nat) (f : Node → Node) : (modNode s n f).parts = s.parts := rfl
@[simp] theorem modNode_clusters (n : Nat) (f : Node → Node) : (modNode s n f).clusters = s.clusters := rfl
@[simp] theorem modNode_cores (n : Nat) (f : Node → Node) : (modNode s n f).cores = s.cores := rfl
@[simp] theorem modNode_adapters (n : Nat) (f : Node → Node) : (modNode s n f).adapters = s.adapters := rfl
@[simp] theorem modNode_ports (n : Nat) (f : Node → Node) : (modNode s n f).ports = s.ports := rfl
@[simp] theorem modNode_partCfg (n : Nat) (f : Node → Node) : (modNode s n f).partCfg = s.partCfg := rfl
@[simp] theorem modNode_portMap (n : Nat) (f : Node → Node) : (modNode s n f).portMap = s.portMap := rfl
@[simp] theorem modNode_partErr (n : Nat) (f : Node → Node) : (modNode s n f).partErr = s.partErr := rfl
@[simp] theorem modNode_busy (n : Nat) (f : Node → Node) : (modNode s n f).busy = s.busy := rfl
@[simp] theorem modNode_heldWrites (n : Nat) (f : Node → Node) : (modNode s n f).heldWrites = s.heldWrites := rfl
@[simp] theorem modNode_boot (n : Nat) (f : Node → Node) : (modNode s n f).boot = s.boot := rfl
@[simp] theorem modNode_fwHash (n : Nat) (f : Node → Node) : (modNode s n f).fwHash = s.fwHash := rfl
@[simp] theorem modNode_fwImage (n : Nat) (f : Node → Node) : (modNode s n f).fwImage = s.fwImage := rfl
@[simp] theorem modNode_pwrLimit (n : Nat) (f : Node → Node) : (modNode s n f).pwrLimit = s.pwrLimit := rfl
@[simp] theorem modNode_minClk (n : Nat) (f : Node → Node) : (modNode s n f).minClk = s.minClk := rfl
@[simp] theorem modNode_watts (n : Nat) (f : Node → Node) : (modNode s n f).watts = s.watts := rfl
@[simp] theorem modNode_stepping (n : Nat) (f : Node → Node) : (modNode s n f).stepping = s.stepping := rfl
@[simp] theorem modNode_hostMsgs (n : Nat) (f : Node → Node) : (modNode s n f).hostMsgs = s.hostMsgs := rfl
@[simp] theorem modNode_mcOps (n : Nat) (f : Node → Node) : (modNode s n f).mcOps = s.mcOps := rfl
@[simp] theorem modNode_agenda (n : Nat) (f : Node → Node) : (modNode s n f).agenda = s.agenda := rfl
@[simp] theorem modNode_cur (n : Nat) (f : Node → Node) : (modNode s n f).cur = s.cur := rfl
@[simp] theorem modNode_clk (n : Nat) (f : Node → Node) : (modNode s n f).clk = s.clk := rfl
@[simp] theorem modNode_hist (n : Nat) (f : Node → Node) : (modNode s n f).hist = s.hist := rfl
@[simp] theorem modNode_know (n : Nat) (f : Node → Node) : (modNode s n f).know = s.know := rfl
@[simp] theorem modNode_scOrder (n : Nat) (f : Node → Node) : (modNode s n f).scOrder = s.scOrder := rfl
@[simp] theorem modNode_privOrder (n : Nat) (f : Node → Node) : (modNode s n f).privOrder = s.privOrder := rfl
@[simp] theorem modNode_stores (n : Nat) (f : Node → Node) : (modNode s n f).stores = s.stores := rfl
@[simp] theorem modNode_icinvs (n : Nat) (f : Node → Node) : (modNode s n f).icinvs = s.icinvs := rfl
@[simp] theorem modNode_ends (n : Nat) (f : Node → Node) : (modNode s n f).ends = s.ends := rfl
@[simp] theorem modNode_shares (n : Nat) (f : Node → Node) : (modNode s n f).shares = s.shares := rfl
@[simp] theorem modNode_fresh (n : Nat) (f : Node → Node) : (modNode s n f).fresh = s.fresh := rfl
@[simp] theorem modNode_order (n : Nat) (f : Node → Node) : (modNode s n f).order = s.order := rfl

/-! ## modJob -/

@[simp] theorem modJob_mem (j : Nat) (f : Job → Job) : (modJob s j f).mem = s.mem := rfl
@[simp] theorem modJob_poison (j : Nat) (f : Job → Job) : (modJob s j f).poison = s.poison := rfl
@[simp] theorem modJob_nibbles (j : Nat) (f : Job → Job) : (modJob s j f).nibbles = s.nibbles := rfl
@[simp] theorem modJob_inband (j : Nat) (f : Job → Job) : (modJob s j f).inband = s.inband := rfl
@[simp] theorem modJob_groups (j : Nat) (f : Job → Job) : (modJob s j f).groups = s.groups := rfl
@[simp] theorem modJob_teams (j : Nat) (f : Job → Job) : (modJob s j f).teams = s.teams := rfl
@[simp] theorem modJob_nodes (j : Nat) (f : Job → Job) : (modJob s j f).nodes = s.nodes := rfl
@[simp] theorem modJob_entries (j : Nat) (f : Job → Job) : (modJob s j f).entries = s.entries := rfl
@[simp] theorem modJob_ops (j : Nat) (f : Job → Job) : (modJob s j f).ops = s.ops := rfl
@[simp] theorem modJob_tiles (j : Nat) (f : Job → Job) : (modJob s j f).tiles = s.tiles := rfl
@[simp] theorem modJob_parts (j : Nat) (f : Job → Job) : (modJob s j f).parts = s.parts := rfl
@[simp] theorem modJob_clusters (j : Nat) (f : Job → Job) : (modJob s j f).clusters = s.clusters := rfl
@[simp] theorem modJob_cores (j : Nat) (f : Job → Job) : (modJob s j f).cores = s.cores := rfl
@[simp] theorem modJob_adapters (j : Nat) (f : Job → Job) : (modJob s j f).adapters = s.adapters := rfl
@[simp] theorem modJob_ports (j : Nat) (f : Job → Job) : (modJob s j f).ports = s.ports := rfl
@[simp] theorem modJob_partCfg (j : Nat) (f : Job → Job) : (modJob s j f).partCfg = s.partCfg := rfl
@[simp] theorem modJob_portMap (j : Nat) (f : Job → Job) : (modJob s j f).portMap = s.portMap := rfl
@[simp] theorem modJob_partErr (j : Nat) (f : Job → Job) : (modJob s j f).partErr = s.partErr := rfl
@[simp] theorem modJob_busy (j : Nat) (f : Job → Job) : (modJob s j f).busy = s.busy := rfl
@[simp] theorem modJob_heldWrites (j : Nat) (f : Job → Job) : (modJob s j f).heldWrites = s.heldWrites := rfl
@[simp] theorem modJob_boot (j : Nat) (f : Job → Job) : (modJob s j f).boot = s.boot := rfl
@[simp] theorem modJob_fwHash (j : Nat) (f : Job → Job) : (modJob s j f).fwHash = s.fwHash := rfl
@[simp] theorem modJob_fwImage (j : Nat) (f : Job → Job) : (modJob s j f).fwImage = s.fwImage := rfl
@[simp] theorem modJob_pwrLimit (j : Nat) (f : Job → Job) : (modJob s j f).pwrLimit = s.pwrLimit := rfl
@[simp] theorem modJob_minClk (j : Nat) (f : Job → Job) : (modJob s j f).minClk = s.minClk := rfl
@[simp] theorem modJob_watts (j : Nat) (f : Job → Job) : (modJob s j f).watts = s.watts := rfl
@[simp] theorem modJob_stepping (j : Nat) (f : Job → Job) : (modJob s j f).stepping = s.stepping := rfl
@[simp] theorem modJob_hostMsgs (j : Nat) (f : Job → Job) : (modJob s j f).hostMsgs = s.hostMsgs := rfl
@[simp] theorem modJob_mcOps (j : Nat) (f : Job → Job) : (modJob s j f).mcOps = s.mcOps := rfl
@[simp] theorem modJob_agenda (j : Nat) (f : Job → Job) : (modJob s j f).agenda = s.agenda := rfl
@[simp] theorem modJob_cur (j : Nat) (f : Job → Job) : (modJob s j f).cur = s.cur := rfl
@[simp] theorem modJob_clk (j : Nat) (f : Job → Job) : (modJob s j f).clk = s.clk := rfl
@[simp] theorem modJob_hist (j : Nat) (f : Job → Job) : (modJob s j f).hist = s.hist := rfl
@[simp] theorem modJob_know (j : Nat) (f : Job → Job) : (modJob s j f).know = s.know := rfl
@[simp] theorem modJob_scOrder (j : Nat) (f : Job → Job) : (modJob s j f).scOrder = s.scOrder := rfl
@[simp] theorem modJob_privOrder (j : Nat) (f : Job → Job) : (modJob s j f).privOrder = s.privOrder := rfl
@[simp] theorem modJob_stores (j : Nat) (f : Job → Job) : (modJob s j f).stores = s.stores := rfl
@[simp] theorem modJob_icinvs (j : Nat) (f : Job → Job) : (modJob s j f).icinvs = s.icinvs := rfl
@[simp] theorem modJob_ends (j : Nat) (f : Job → Job) : (modJob s j f).ends = s.ends := rfl
@[simp] theorem modJob_shares (j : Nat) (f : Job → Job) : (modJob s j f).shares = s.shares := rfl
@[simp] theorem modJob_fresh (j : Nat) (f : Job → Job) : (modJob s j f).fresh = s.fresh := rfl
@[simp] theorem modJob_order (j : Nat) (f : Job → Job) : (modJob s j f).order = s.order := rfl

/-! ## setPart -/

@[simp] theorem setPart_mem (p : Nat) (v : Partition) : (setPart s p v).mem = s.mem := rfl
@[simp] theorem setPart_poison (p : Nat) (v : Partition) : (setPart s p v).poison = s.poison := rfl
@[simp] theorem setPart_nibbles (p : Nat) (v : Partition) : (setPart s p v).nibbles = s.nibbles := rfl
@[simp] theorem setPart_inband (p : Nat) (v : Partition) : (setPart s p v).inband = s.inband := rfl
@[simp] theorem setPart_groups (p : Nat) (v : Partition) : (setPart s p v).groups = s.groups := rfl
@[simp] theorem setPart_teams (p : Nat) (v : Partition) : (setPart s p v).teams = s.teams := rfl
@[simp] theorem setPart_nodes (p : Nat) (v : Partition) : (setPart s p v).nodes = s.nodes := rfl
@[simp] theorem setPart_entries (p : Nat) (v : Partition) : (setPart s p v).entries = s.entries := rfl
@[simp] theorem setPart_jobs (p : Nat) (v : Partition) : (setPart s p v).jobs = s.jobs := rfl
@[simp] theorem setPart_ops (p : Nat) (v : Partition) : (setPart s p v).ops = s.ops := rfl
@[simp] theorem setPart_tiles (p : Nat) (v : Partition) : (setPart s p v).tiles = s.tiles := rfl
@[simp] theorem setPart_clusters (p : Nat) (v : Partition) : (setPart s p v).clusters = s.clusters := rfl
@[simp] theorem setPart_cores (p : Nat) (v : Partition) : (setPart s p v).cores = s.cores := rfl
@[simp] theorem setPart_adapters (p : Nat) (v : Partition) : (setPart s p v).adapters = s.adapters := rfl
@[simp] theorem setPart_ports (p : Nat) (v : Partition) : (setPart s p v).ports = s.ports := rfl
@[simp] theorem setPart_partCfg (p : Nat) (v : Partition) : (setPart s p v).partCfg = s.partCfg := rfl
@[simp] theorem setPart_portMap (p : Nat) (v : Partition) : (setPart s p v).portMap = s.portMap := rfl
@[simp] theorem setPart_partErr (p : Nat) (v : Partition) : (setPart s p v).partErr = s.partErr := rfl
@[simp] theorem setPart_busy (p : Nat) (v : Partition) : (setPart s p v).busy = s.busy := rfl
@[simp] theorem setPart_heldWrites (p : Nat) (v : Partition) : (setPart s p v).heldWrites = s.heldWrites := rfl
@[simp] theorem setPart_boot (p : Nat) (v : Partition) : (setPart s p v).boot = s.boot := rfl
@[simp] theorem setPart_fwHash (p : Nat) (v : Partition) : (setPart s p v).fwHash = s.fwHash := rfl
@[simp] theorem setPart_fwImage (p : Nat) (v : Partition) : (setPart s p v).fwImage = s.fwImage := rfl
@[simp] theorem setPart_pwrLimit (p : Nat) (v : Partition) : (setPart s p v).pwrLimit = s.pwrLimit := rfl
@[simp] theorem setPart_minClk (p : Nat) (v : Partition) : (setPart s p v).minClk = s.minClk := rfl
@[simp] theorem setPart_watts (p : Nat) (v : Partition) : (setPart s p v).watts = s.watts := rfl
@[simp] theorem setPart_stepping (p : Nat) (v : Partition) : (setPart s p v).stepping = s.stepping := rfl
@[simp] theorem setPart_hostMsgs (p : Nat) (v : Partition) : (setPart s p v).hostMsgs = s.hostMsgs := rfl
@[simp] theorem setPart_mcOps (p : Nat) (v : Partition) : (setPart s p v).mcOps = s.mcOps := rfl
@[simp] theorem setPart_agenda (p : Nat) (v : Partition) : (setPart s p v).agenda = s.agenda := rfl
@[simp] theorem setPart_cur (p : Nat) (v : Partition) : (setPart s p v).cur = s.cur := rfl
@[simp] theorem setPart_clk (p : Nat) (v : Partition) : (setPart s p v).clk = s.clk := rfl
@[simp] theorem setPart_hist (p : Nat) (v : Partition) : (setPart s p v).hist = s.hist := rfl
@[simp] theorem setPart_know (p : Nat) (v : Partition) : (setPart s p v).know = s.know := rfl
@[simp] theorem setPart_scOrder (p : Nat) (v : Partition) : (setPart s p v).scOrder = s.scOrder := rfl
@[simp] theorem setPart_privOrder (p : Nat) (v : Partition) : (setPart s p v).privOrder = s.privOrder := rfl
@[simp] theorem setPart_stores (p : Nat) (v : Partition) : (setPart s p v).stores = s.stores := rfl
@[simp] theorem setPart_icinvs (p : Nat) (v : Partition) : (setPart s p v).icinvs = s.icinvs := rfl
@[simp] theorem setPart_ends (p : Nat) (v : Partition) : (setPart s p v).ends = s.ends := rfl
@[simp] theorem setPart_shares (p : Nat) (v : Partition) : (setPart s p v).shares = s.shares := rfl
@[simp] theorem setPart_fresh (p : Nat) (v : Partition) : (setPart s p v).fresh = s.fresh := rfl
@[simp] theorem setPart_order (p : Nat) (v : Partition) : (setPart s p v).order = s.order := rfl

/-! ## modPart -/

@[simp] theorem modPart_mem (p : Nat) (f : Partition → Partition) : (modPart s p f).mem = s.mem := rfl
@[simp] theorem modPart_poison (p : Nat) (f : Partition → Partition) : (modPart s p f).poison = s.poison := rfl
@[simp] theorem modPart_nibbles (p : Nat) (f : Partition → Partition) : (modPart s p f).nibbles = s.nibbles := rfl
@[simp] theorem modPart_inband (p : Nat) (f : Partition → Partition) : (modPart s p f).inband = s.inband := rfl
@[simp] theorem modPart_groups (p : Nat) (f : Partition → Partition) : (modPart s p f).groups = s.groups := rfl
@[simp] theorem modPart_teams (p : Nat) (f : Partition → Partition) : (modPart s p f).teams = s.teams := rfl
@[simp] theorem modPart_nodes (p : Nat) (f : Partition → Partition) : (modPart s p f).nodes = s.nodes := rfl
@[simp] theorem modPart_entries (p : Nat) (f : Partition → Partition) : (modPart s p f).entries = s.entries := rfl
@[simp] theorem modPart_jobs (p : Nat) (f : Partition → Partition) : (modPart s p f).jobs = s.jobs := rfl
@[simp] theorem modPart_ops (p : Nat) (f : Partition → Partition) : (modPart s p f).ops = s.ops := rfl
@[simp] theorem modPart_tiles (p : Nat) (f : Partition → Partition) : (modPart s p f).tiles = s.tiles := rfl
@[simp] theorem modPart_clusters (p : Nat) (f : Partition → Partition) : (modPart s p f).clusters = s.clusters := rfl
@[simp] theorem modPart_cores (p : Nat) (f : Partition → Partition) : (modPart s p f).cores = s.cores := rfl
@[simp] theorem modPart_adapters (p : Nat) (f : Partition → Partition) : (modPart s p f).adapters = s.adapters := rfl
@[simp] theorem modPart_ports (p : Nat) (f : Partition → Partition) : (modPart s p f).ports = s.ports := rfl
@[simp] theorem modPart_partCfg (p : Nat) (f : Partition → Partition) : (modPart s p f).partCfg = s.partCfg := rfl
@[simp] theorem modPart_portMap (p : Nat) (f : Partition → Partition) : (modPart s p f).portMap = s.portMap := rfl
@[simp] theorem modPart_partErr (p : Nat) (f : Partition → Partition) : (modPart s p f).partErr = s.partErr := rfl
@[simp] theorem modPart_busy (p : Nat) (f : Partition → Partition) : (modPart s p f).busy = s.busy := rfl
@[simp] theorem modPart_heldWrites (p : Nat) (f : Partition → Partition) : (modPart s p f).heldWrites = s.heldWrites := rfl
@[simp] theorem modPart_boot (p : Nat) (f : Partition → Partition) : (modPart s p f).boot = s.boot := rfl
@[simp] theorem modPart_fwHash (p : Nat) (f : Partition → Partition) : (modPart s p f).fwHash = s.fwHash := rfl
@[simp] theorem modPart_fwImage (p : Nat) (f : Partition → Partition) : (modPart s p f).fwImage = s.fwImage := rfl
@[simp] theorem modPart_pwrLimit (p : Nat) (f : Partition → Partition) : (modPart s p f).pwrLimit = s.pwrLimit := rfl
@[simp] theorem modPart_minClk (p : Nat) (f : Partition → Partition) : (modPart s p f).minClk = s.minClk := rfl
@[simp] theorem modPart_watts (p : Nat) (f : Partition → Partition) : (modPart s p f).watts = s.watts := rfl
@[simp] theorem modPart_stepping (p : Nat) (f : Partition → Partition) : (modPart s p f).stepping = s.stepping := rfl
@[simp] theorem modPart_hostMsgs (p : Nat) (f : Partition → Partition) : (modPart s p f).hostMsgs = s.hostMsgs := rfl
@[simp] theorem modPart_mcOps (p : Nat) (f : Partition → Partition) : (modPart s p f).mcOps = s.mcOps := rfl
@[simp] theorem modPart_agenda (p : Nat) (f : Partition → Partition) : (modPart s p f).agenda = s.agenda := rfl
@[simp] theorem modPart_cur (p : Nat) (f : Partition → Partition) : (modPart s p f).cur = s.cur := rfl
@[simp] theorem modPart_clk (p : Nat) (f : Partition → Partition) : (modPart s p f).clk = s.clk := rfl
@[simp] theorem modPart_hist (p : Nat) (f : Partition → Partition) : (modPart s p f).hist = s.hist := rfl
@[simp] theorem modPart_know (p : Nat) (f : Partition → Partition) : (modPart s p f).know = s.know := rfl
@[simp] theorem modPart_scOrder (p : Nat) (f : Partition → Partition) : (modPart s p f).scOrder = s.scOrder := rfl
@[simp] theorem modPart_privOrder (p : Nat) (f : Partition → Partition) : (modPart s p f).privOrder = s.privOrder := rfl
@[simp] theorem modPart_stores (p : Nat) (f : Partition → Partition) : (modPart s p f).stores = s.stores := rfl
@[simp] theorem modPart_icinvs (p : Nat) (f : Partition → Partition) : (modPart s p f).icinvs = s.icinvs := rfl
@[simp] theorem modPart_ends (p : Nat) (f : Partition → Partition) : (modPart s p f).ends = s.ends := rfl
@[simp] theorem modPart_shares (p : Nat) (f : Partition → Partition) : (modPart s p f).shares = s.shares := rfl
@[simp] theorem modPart_fresh (p : Nat) (f : Partition → Partition) : (modPart s p f).fresh = s.fresh := rfl
@[simp] theorem modPart_order (p : Nat) (f : Partition → Partition) : (modPart s p f).order = s.order := rfl

/-! ## setCore -/

@[simp] theorem setCore_mem (c : Nat) (v : Core) : (setCore s c v).mem = s.mem := rfl
@[simp] theorem setCore_poison (c : Nat) (v : Core) : (setCore s c v).poison = s.poison := rfl
@[simp] theorem setCore_nibbles (c : Nat) (v : Core) : (setCore s c v).nibbles = s.nibbles := rfl
@[simp] theorem setCore_inband (c : Nat) (v : Core) : (setCore s c v).inband = s.inband := rfl
@[simp] theorem setCore_groups (c : Nat) (v : Core) : (setCore s c v).groups = s.groups := rfl
@[simp] theorem setCore_teams (c : Nat) (v : Core) : (setCore s c v).teams = s.teams := rfl
@[simp] theorem setCore_nodes (c : Nat) (v : Core) : (setCore s c v).nodes = s.nodes := rfl
@[simp] theorem setCore_entries (c : Nat) (v : Core) : (setCore s c v).entries = s.entries := rfl
@[simp] theorem setCore_jobs (c : Nat) (v : Core) : (setCore s c v).jobs = s.jobs := rfl
@[simp] theorem setCore_ops (c : Nat) (v : Core) : (setCore s c v).ops = s.ops := rfl
@[simp] theorem setCore_tiles (c : Nat) (v : Core) : (setCore s c v).tiles = s.tiles := rfl
@[simp] theorem setCore_parts (c : Nat) (v : Core) : (setCore s c v).parts = s.parts := rfl
@[simp] theorem setCore_clusters (c : Nat) (v : Core) : (setCore s c v).clusters = s.clusters := rfl
@[simp] theorem setCore_adapters (c : Nat) (v : Core) : (setCore s c v).adapters = s.adapters := rfl
@[simp] theorem setCore_ports (c : Nat) (v : Core) : (setCore s c v).ports = s.ports := rfl
@[simp] theorem setCore_partCfg (c : Nat) (v : Core) : (setCore s c v).partCfg = s.partCfg := rfl
@[simp] theorem setCore_portMap (c : Nat) (v : Core) : (setCore s c v).portMap = s.portMap := rfl
@[simp] theorem setCore_partErr (c : Nat) (v : Core) : (setCore s c v).partErr = s.partErr := rfl
@[simp] theorem setCore_busy (c : Nat) (v : Core) : (setCore s c v).busy = s.busy := rfl
@[simp] theorem setCore_heldWrites (c : Nat) (v : Core) : (setCore s c v).heldWrites = s.heldWrites := rfl
@[simp] theorem setCore_boot (c : Nat) (v : Core) : (setCore s c v).boot = s.boot := rfl
@[simp] theorem setCore_fwHash (c : Nat) (v : Core) : (setCore s c v).fwHash = s.fwHash := rfl
@[simp] theorem setCore_fwImage (c : Nat) (v : Core) : (setCore s c v).fwImage = s.fwImage := rfl
@[simp] theorem setCore_pwrLimit (c : Nat) (v : Core) : (setCore s c v).pwrLimit = s.pwrLimit := rfl
@[simp] theorem setCore_minClk (c : Nat) (v : Core) : (setCore s c v).minClk = s.minClk := rfl
@[simp] theorem setCore_watts (c : Nat) (v : Core) : (setCore s c v).watts = s.watts := rfl
@[simp] theorem setCore_stepping (c : Nat) (v : Core) : (setCore s c v).stepping = s.stepping := rfl
@[simp] theorem setCore_hostMsgs (c : Nat) (v : Core) : (setCore s c v).hostMsgs = s.hostMsgs := rfl
@[simp] theorem setCore_mcOps (c : Nat) (v : Core) : (setCore s c v).mcOps = s.mcOps := rfl
@[simp] theorem setCore_agenda (c : Nat) (v : Core) : (setCore s c v).agenda = s.agenda := rfl
@[simp] theorem setCore_cur (c : Nat) (v : Core) : (setCore s c v).cur = s.cur := rfl
@[simp] theorem setCore_clk (c : Nat) (v : Core) : (setCore s c v).clk = s.clk := rfl
@[simp] theorem setCore_hist (c : Nat) (v : Core) : (setCore s c v).hist = s.hist := rfl
@[simp] theorem setCore_know (c : Nat) (v : Core) : (setCore s c v).know = s.know := rfl
@[simp] theorem setCore_scOrder (c : Nat) (v : Core) : (setCore s c v).scOrder = s.scOrder := rfl
@[simp] theorem setCore_privOrder (c : Nat) (v : Core) : (setCore s c v).privOrder = s.privOrder := rfl
@[simp] theorem setCore_stores (c : Nat) (v : Core) : (setCore s c v).stores = s.stores := rfl
@[simp] theorem setCore_icinvs (c : Nat) (v : Core) : (setCore s c v).icinvs = s.icinvs := rfl
@[simp] theorem setCore_ends (c : Nat) (v : Core) : (setCore s c v).ends = s.ends := rfl
@[simp] theorem setCore_shares (c : Nat) (v : Core) : (setCore s c v).shares = s.shares := rfl
@[simp] theorem setCore_fresh (c : Nat) (v : Core) : (setCore s c v).fresh = s.fresh := rfl
@[simp] theorem setCore_order (c : Nat) (v : Core) : (setCore s c v).order = s.order := rfl

/-! ## modCore -/

@[simp] theorem modCore_mem (c : Nat) (f : Core → Core) : (modCore s c f).mem = s.mem := rfl
@[simp] theorem modCore_poison (c : Nat) (f : Core → Core) : (modCore s c f).poison = s.poison := rfl
@[simp] theorem modCore_nibbles (c : Nat) (f : Core → Core) : (modCore s c f).nibbles = s.nibbles := rfl
@[simp] theorem modCore_inband (c : Nat) (f : Core → Core) : (modCore s c f).inband = s.inband := rfl
@[simp] theorem modCore_groups (c : Nat) (f : Core → Core) : (modCore s c f).groups = s.groups := rfl
@[simp] theorem modCore_teams (c : Nat) (f : Core → Core) : (modCore s c f).teams = s.teams := rfl
@[simp] theorem modCore_nodes (c : Nat) (f : Core → Core) : (modCore s c f).nodes = s.nodes := rfl
@[simp] theorem modCore_entries (c : Nat) (f : Core → Core) : (modCore s c f).entries = s.entries := rfl
@[simp] theorem modCore_jobs (c : Nat) (f : Core → Core) : (modCore s c f).jobs = s.jobs := rfl
@[simp] theorem modCore_ops (c : Nat) (f : Core → Core) : (modCore s c f).ops = s.ops := rfl
@[simp] theorem modCore_tiles (c : Nat) (f : Core → Core) : (modCore s c f).tiles = s.tiles := rfl
@[simp] theorem modCore_parts (c : Nat) (f : Core → Core) : (modCore s c f).parts = s.parts := rfl
@[simp] theorem modCore_clusters (c : Nat) (f : Core → Core) : (modCore s c f).clusters = s.clusters := rfl
@[simp] theorem modCore_adapters (c : Nat) (f : Core → Core) : (modCore s c f).adapters = s.adapters := rfl
@[simp] theorem modCore_ports (c : Nat) (f : Core → Core) : (modCore s c f).ports = s.ports := rfl
@[simp] theorem modCore_partCfg (c : Nat) (f : Core → Core) : (modCore s c f).partCfg = s.partCfg := rfl
@[simp] theorem modCore_portMap (c : Nat) (f : Core → Core) : (modCore s c f).portMap = s.portMap := rfl
@[simp] theorem modCore_partErr (c : Nat) (f : Core → Core) : (modCore s c f).partErr = s.partErr := rfl
@[simp] theorem modCore_busy (c : Nat) (f : Core → Core) : (modCore s c f).busy = s.busy := rfl
@[simp] theorem modCore_heldWrites (c : Nat) (f : Core → Core) : (modCore s c f).heldWrites = s.heldWrites := rfl
@[simp] theorem modCore_boot (c : Nat) (f : Core → Core) : (modCore s c f).boot = s.boot := rfl
@[simp] theorem modCore_fwHash (c : Nat) (f : Core → Core) : (modCore s c f).fwHash = s.fwHash := rfl
@[simp] theorem modCore_fwImage (c : Nat) (f : Core → Core) : (modCore s c f).fwImage = s.fwImage := rfl
@[simp] theorem modCore_pwrLimit (c : Nat) (f : Core → Core) : (modCore s c f).pwrLimit = s.pwrLimit := rfl
@[simp] theorem modCore_minClk (c : Nat) (f : Core → Core) : (modCore s c f).minClk = s.minClk := rfl
@[simp] theorem modCore_watts (c : Nat) (f : Core → Core) : (modCore s c f).watts = s.watts := rfl
@[simp] theorem modCore_stepping (c : Nat) (f : Core → Core) : (modCore s c f).stepping = s.stepping := rfl
@[simp] theorem modCore_hostMsgs (c : Nat) (f : Core → Core) : (modCore s c f).hostMsgs = s.hostMsgs := rfl
@[simp] theorem modCore_mcOps (c : Nat) (f : Core → Core) : (modCore s c f).mcOps = s.mcOps := rfl
@[simp] theorem modCore_agenda (c : Nat) (f : Core → Core) : (modCore s c f).agenda = s.agenda := rfl
@[simp] theorem modCore_cur (c : Nat) (f : Core → Core) : (modCore s c f).cur = s.cur := rfl
@[simp] theorem modCore_clk (c : Nat) (f : Core → Core) : (modCore s c f).clk = s.clk := rfl
@[simp] theorem modCore_hist (c : Nat) (f : Core → Core) : (modCore s c f).hist = s.hist := rfl
@[simp] theorem modCore_know (c : Nat) (f : Core → Core) : (modCore s c f).know = s.know := rfl
@[simp] theorem modCore_scOrder (c : Nat) (f : Core → Core) : (modCore s c f).scOrder = s.scOrder := rfl
@[simp] theorem modCore_privOrder (c : Nat) (f : Core → Core) : (modCore s c f).privOrder = s.privOrder := rfl
@[simp] theorem modCore_stores (c : Nat) (f : Core → Core) : (modCore s c f).stores = s.stores := rfl
@[simp] theorem modCore_icinvs (c : Nat) (f : Core → Core) : (modCore s c f).icinvs = s.icinvs := rfl
@[simp] theorem modCore_ends (c : Nat) (f : Core → Core) : (modCore s c f).ends = s.ends := rfl
@[simp] theorem modCore_shares (c : Nat) (f : Core → Core) : (modCore s c f).shares = s.shares := rfl
@[simp] theorem modCore_fresh (c : Nat) (f : Core → Core) : (modCore s c f).fresh = s.fresh := rfl
@[simp] theorem modCore_order (c : Nat) (f : Core → Core) : (modCore s c f).order = s.order := rfl

/-! ## setCluster -/

@[simp] theorem setCluster_mem (k : Nat) (v : Cluster) : (setCluster s k v).mem = s.mem := rfl
@[simp] theorem setCluster_poison (k : Nat) (v : Cluster) : (setCluster s k v).poison = s.poison := rfl
@[simp] theorem setCluster_nibbles (k : Nat) (v : Cluster) : (setCluster s k v).nibbles = s.nibbles := rfl
@[simp] theorem setCluster_inband (k : Nat) (v : Cluster) : (setCluster s k v).inband = s.inband := rfl
@[simp] theorem setCluster_groups (k : Nat) (v : Cluster) : (setCluster s k v).groups = s.groups := rfl
@[simp] theorem setCluster_teams (k : Nat) (v : Cluster) : (setCluster s k v).teams = s.teams := rfl
@[simp] theorem setCluster_nodes (k : Nat) (v : Cluster) : (setCluster s k v).nodes = s.nodes := rfl
@[simp] theorem setCluster_entries (k : Nat) (v : Cluster) : (setCluster s k v).entries = s.entries := rfl
@[simp] theorem setCluster_jobs (k : Nat) (v : Cluster) : (setCluster s k v).jobs = s.jobs := rfl
@[simp] theorem setCluster_ops (k : Nat) (v : Cluster) : (setCluster s k v).ops = s.ops := rfl
@[simp] theorem setCluster_tiles (k : Nat) (v : Cluster) : (setCluster s k v).tiles = s.tiles := rfl
@[simp] theorem setCluster_parts (k : Nat) (v : Cluster) : (setCluster s k v).parts = s.parts := rfl
@[simp] theorem setCluster_cores (k : Nat) (v : Cluster) : (setCluster s k v).cores = s.cores := rfl
@[simp] theorem setCluster_adapters (k : Nat) (v : Cluster) : (setCluster s k v).adapters = s.adapters := rfl
@[simp] theorem setCluster_ports (k : Nat) (v : Cluster) : (setCluster s k v).ports = s.ports := rfl
@[simp] theorem setCluster_partCfg (k : Nat) (v : Cluster) : (setCluster s k v).partCfg = s.partCfg := rfl
@[simp] theorem setCluster_portMap (k : Nat) (v : Cluster) : (setCluster s k v).portMap = s.portMap := rfl
@[simp] theorem setCluster_partErr (k : Nat) (v : Cluster) : (setCluster s k v).partErr = s.partErr := rfl
@[simp] theorem setCluster_busy (k : Nat) (v : Cluster) : (setCluster s k v).busy = s.busy := rfl
@[simp] theorem setCluster_heldWrites (k : Nat) (v : Cluster) : (setCluster s k v).heldWrites = s.heldWrites := rfl
@[simp] theorem setCluster_boot (k : Nat) (v : Cluster) : (setCluster s k v).boot = s.boot := rfl
@[simp] theorem setCluster_fwHash (k : Nat) (v : Cluster) : (setCluster s k v).fwHash = s.fwHash := rfl
@[simp] theorem setCluster_fwImage (k : Nat) (v : Cluster) : (setCluster s k v).fwImage = s.fwImage := rfl
@[simp] theorem setCluster_pwrLimit (k : Nat) (v : Cluster) : (setCluster s k v).pwrLimit = s.pwrLimit := rfl
@[simp] theorem setCluster_minClk (k : Nat) (v : Cluster) : (setCluster s k v).minClk = s.minClk := rfl
@[simp] theorem setCluster_watts (k : Nat) (v : Cluster) : (setCluster s k v).watts = s.watts := rfl
@[simp] theorem setCluster_stepping (k : Nat) (v : Cluster) : (setCluster s k v).stepping = s.stepping := rfl
@[simp] theorem setCluster_hostMsgs (k : Nat) (v : Cluster) : (setCluster s k v).hostMsgs = s.hostMsgs := rfl
@[simp] theorem setCluster_mcOps (k : Nat) (v : Cluster) : (setCluster s k v).mcOps = s.mcOps := rfl
@[simp] theorem setCluster_agenda (k : Nat) (v : Cluster) : (setCluster s k v).agenda = s.agenda := rfl
@[simp] theorem setCluster_cur (k : Nat) (v : Cluster) : (setCluster s k v).cur = s.cur := rfl
@[simp] theorem setCluster_clk (k : Nat) (v : Cluster) : (setCluster s k v).clk = s.clk := rfl
@[simp] theorem setCluster_hist (k : Nat) (v : Cluster) : (setCluster s k v).hist = s.hist := rfl
@[simp] theorem setCluster_know (k : Nat) (v : Cluster) : (setCluster s k v).know = s.know := rfl
@[simp] theorem setCluster_scOrder (k : Nat) (v : Cluster) : (setCluster s k v).scOrder = s.scOrder := rfl
@[simp] theorem setCluster_privOrder (k : Nat) (v : Cluster) : (setCluster s k v).privOrder = s.privOrder := rfl
@[simp] theorem setCluster_stores (k : Nat) (v : Cluster) : (setCluster s k v).stores = s.stores := rfl
@[simp] theorem setCluster_icinvs (k : Nat) (v : Cluster) : (setCluster s k v).icinvs = s.icinvs := rfl
@[simp] theorem setCluster_ends (k : Nat) (v : Cluster) : (setCluster s k v).ends = s.ends := rfl
@[simp] theorem setCluster_shares (k : Nat) (v : Cluster) : (setCluster s k v).shares = s.shares := rfl
@[simp] theorem setCluster_fresh (k : Nat) (v : Cluster) : (setCluster s k v).fresh = s.fresh := rfl
@[simp] theorem setCluster_order (k : Nat) (v : Cluster) : (setCluster s k v).order = s.order := rfl

/-! ## modCluster -/

@[simp] theorem modCluster_mem (k : Nat) (f : Cluster → Cluster) : (modCluster s k f).mem = s.mem := rfl
@[simp] theorem modCluster_poison (k : Nat) (f : Cluster → Cluster) : (modCluster s k f).poison = s.poison := rfl
@[simp] theorem modCluster_nibbles (k : Nat) (f : Cluster → Cluster) : (modCluster s k f).nibbles = s.nibbles := rfl
@[simp] theorem modCluster_inband (k : Nat) (f : Cluster → Cluster) : (modCluster s k f).inband = s.inband := rfl
@[simp] theorem modCluster_groups (k : Nat) (f : Cluster → Cluster) : (modCluster s k f).groups = s.groups := rfl
@[simp] theorem modCluster_teams (k : Nat) (f : Cluster → Cluster) : (modCluster s k f).teams = s.teams := rfl
@[simp] theorem modCluster_nodes (k : Nat) (f : Cluster → Cluster) : (modCluster s k f).nodes = s.nodes := rfl
@[simp] theorem modCluster_entries (k : Nat) (f : Cluster → Cluster) : (modCluster s k f).entries = s.entries := rfl
@[simp] theorem modCluster_jobs (k : Nat) (f : Cluster → Cluster) : (modCluster s k f).jobs = s.jobs := rfl
@[simp] theorem modCluster_ops (k : Nat) (f : Cluster → Cluster) : (modCluster s k f).ops = s.ops := rfl
@[simp] theorem modCluster_tiles (k : Nat) (f : Cluster → Cluster) : (modCluster s k f).tiles = s.tiles := rfl
@[simp] theorem modCluster_parts (k : Nat) (f : Cluster → Cluster) : (modCluster s k f).parts = s.parts := rfl
@[simp] theorem modCluster_cores (k : Nat) (f : Cluster → Cluster) : (modCluster s k f).cores = s.cores := rfl
@[simp] theorem modCluster_adapters (k : Nat) (f : Cluster → Cluster) : (modCluster s k f).adapters = s.adapters := rfl
@[simp] theorem modCluster_ports (k : Nat) (f : Cluster → Cluster) : (modCluster s k f).ports = s.ports := rfl
@[simp] theorem modCluster_partCfg (k : Nat) (f : Cluster → Cluster) : (modCluster s k f).partCfg = s.partCfg := rfl
@[simp] theorem modCluster_portMap (k : Nat) (f : Cluster → Cluster) : (modCluster s k f).portMap = s.portMap := rfl
@[simp] theorem modCluster_partErr (k : Nat) (f : Cluster → Cluster) : (modCluster s k f).partErr = s.partErr := rfl
@[simp] theorem modCluster_busy (k : Nat) (f : Cluster → Cluster) : (modCluster s k f).busy = s.busy := rfl
@[simp] theorem modCluster_heldWrites (k : Nat) (f : Cluster → Cluster) : (modCluster s k f).heldWrites = s.heldWrites := rfl
@[simp] theorem modCluster_boot (k : Nat) (f : Cluster → Cluster) : (modCluster s k f).boot = s.boot := rfl
@[simp] theorem modCluster_fwHash (k : Nat) (f : Cluster → Cluster) : (modCluster s k f).fwHash = s.fwHash := rfl
@[simp] theorem modCluster_fwImage (k : Nat) (f : Cluster → Cluster) : (modCluster s k f).fwImage = s.fwImage := rfl
@[simp] theorem modCluster_pwrLimit (k : Nat) (f : Cluster → Cluster) : (modCluster s k f).pwrLimit = s.pwrLimit := rfl
@[simp] theorem modCluster_minClk (k : Nat) (f : Cluster → Cluster) : (modCluster s k f).minClk = s.minClk := rfl
@[simp] theorem modCluster_watts (k : Nat) (f : Cluster → Cluster) : (modCluster s k f).watts = s.watts := rfl
@[simp] theorem modCluster_stepping (k : Nat) (f : Cluster → Cluster) : (modCluster s k f).stepping = s.stepping := rfl
@[simp] theorem modCluster_hostMsgs (k : Nat) (f : Cluster → Cluster) : (modCluster s k f).hostMsgs = s.hostMsgs := rfl
@[simp] theorem modCluster_mcOps (k : Nat) (f : Cluster → Cluster) : (modCluster s k f).mcOps = s.mcOps := rfl
@[simp] theorem modCluster_agenda (k : Nat) (f : Cluster → Cluster) : (modCluster s k f).agenda = s.agenda := rfl
@[simp] theorem modCluster_cur (k : Nat) (f : Cluster → Cluster) : (modCluster s k f).cur = s.cur := rfl
@[simp] theorem modCluster_clk (k : Nat) (f : Cluster → Cluster) : (modCluster s k f).clk = s.clk := rfl
@[simp] theorem modCluster_hist (k : Nat) (f : Cluster → Cluster) : (modCluster s k f).hist = s.hist := rfl
@[simp] theorem modCluster_know (k : Nat) (f : Cluster → Cluster) : (modCluster s k f).know = s.know := rfl
@[simp] theorem modCluster_scOrder (k : Nat) (f : Cluster → Cluster) : (modCluster s k f).scOrder = s.scOrder := rfl
@[simp] theorem modCluster_privOrder (k : Nat) (f : Cluster → Cluster) : (modCluster s k f).privOrder = s.privOrder := rfl
@[simp] theorem modCluster_stores (k : Nat) (f : Cluster → Cluster) : (modCluster s k f).stores = s.stores := rfl
@[simp] theorem modCluster_icinvs (k : Nat) (f : Cluster → Cluster) : (modCluster s k f).icinvs = s.icinvs := rfl
@[simp] theorem modCluster_ends (k : Nat) (f : Cluster → Cluster) : (modCluster s k f).ends = s.ends := rfl
@[simp] theorem modCluster_shares (k : Nat) (f : Cluster → Cluster) : (modCluster s k f).shares = s.shares := rfl
@[simp] theorem modCluster_fresh (k : Nat) (f : Cluster → Cluster) : (modCluster s k f).fresh = s.fresh := rfl
@[simp] theorem modCluster_order (k : Nat) (f : Cluster → Cluster) : (modCluster s k f).order = s.order := rfl

/-! ## setPoison -/

@[simp] theorem setPoison_mem (loc : Nat) (on : Bool) : (setPoison s loc on).mem = s.mem := rfl
@[simp] theorem setPoison_nibbles (loc : Nat) (on : Bool) : (setPoison s loc on).nibbles = s.nibbles := rfl
@[simp] theorem setPoison_inband (loc : Nat) (on : Bool) : (setPoison s loc on).inband = s.inband := rfl
@[simp] theorem setPoison_groups (loc : Nat) (on : Bool) : (setPoison s loc on).groups = s.groups := rfl
@[simp] theorem setPoison_teams (loc : Nat) (on : Bool) : (setPoison s loc on).teams = s.teams := rfl
@[simp] theorem setPoison_nodes (loc : Nat) (on : Bool) : (setPoison s loc on).nodes = s.nodes := rfl
@[simp] theorem setPoison_entries (loc : Nat) (on : Bool) : (setPoison s loc on).entries = s.entries := rfl
@[simp] theorem setPoison_jobs (loc : Nat) (on : Bool) : (setPoison s loc on).jobs = s.jobs := rfl
@[simp] theorem setPoison_ops (loc : Nat) (on : Bool) : (setPoison s loc on).ops = s.ops := rfl
@[simp] theorem setPoison_tiles (loc : Nat) (on : Bool) : (setPoison s loc on).tiles = s.tiles := rfl
@[simp] theorem setPoison_parts (loc : Nat) (on : Bool) : (setPoison s loc on).parts = s.parts := rfl
@[simp] theorem setPoison_clusters (loc : Nat) (on : Bool) : (setPoison s loc on).clusters = s.clusters := rfl
@[simp] theorem setPoison_cores (loc : Nat) (on : Bool) : (setPoison s loc on).cores = s.cores := rfl
@[simp] theorem setPoison_adapters (loc : Nat) (on : Bool) : (setPoison s loc on).adapters = s.adapters := rfl
@[simp] theorem setPoison_ports (loc : Nat) (on : Bool) : (setPoison s loc on).ports = s.ports := rfl
@[simp] theorem setPoison_partCfg (loc : Nat) (on : Bool) : (setPoison s loc on).partCfg = s.partCfg := rfl
@[simp] theorem setPoison_portMap (loc : Nat) (on : Bool) : (setPoison s loc on).portMap = s.portMap := rfl
@[simp] theorem setPoison_partErr (loc : Nat) (on : Bool) : (setPoison s loc on).partErr = s.partErr := rfl
@[simp] theorem setPoison_busy (loc : Nat) (on : Bool) : (setPoison s loc on).busy = s.busy := rfl
@[simp] theorem setPoison_heldWrites (loc : Nat) (on : Bool) : (setPoison s loc on).heldWrites = s.heldWrites := rfl
@[simp] theorem setPoison_boot (loc : Nat) (on : Bool) : (setPoison s loc on).boot = s.boot := rfl
@[simp] theorem setPoison_fwHash (loc : Nat) (on : Bool) : (setPoison s loc on).fwHash = s.fwHash := rfl
@[simp] theorem setPoison_fwImage (loc : Nat) (on : Bool) : (setPoison s loc on).fwImage = s.fwImage := rfl
@[simp] theorem setPoison_pwrLimit (loc : Nat) (on : Bool) : (setPoison s loc on).pwrLimit = s.pwrLimit := rfl
@[simp] theorem setPoison_minClk (loc : Nat) (on : Bool) : (setPoison s loc on).minClk = s.minClk := rfl
@[simp] theorem setPoison_watts (loc : Nat) (on : Bool) : (setPoison s loc on).watts = s.watts := rfl
@[simp] theorem setPoison_stepping (loc : Nat) (on : Bool) : (setPoison s loc on).stepping = s.stepping := rfl
@[simp] theorem setPoison_hostMsgs (loc : Nat) (on : Bool) : (setPoison s loc on).hostMsgs = s.hostMsgs := rfl
@[simp] theorem setPoison_mcOps (loc : Nat) (on : Bool) : (setPoison s loc on).mcOps = s.mcOps := rfl
@[simp] theorem setPoison_agenda (loc : Nat) (on : Bool) : (setPoison s loc on).agenda = s.agenda := rfl
@[simp] theorem setPoison_cur (loc : Nat) (on : Bool) : (setPoison s loc on).cur = s.cur := rfl
@[simp] theorem setPoison_clk (loc : Nat) (on : Bool) : (setPoison s loc on).clk = s.clk := rfl
@[simp] theorem setPoison_hist (loc : Nat) (on : Bool) : (setPoison s loc on).hist = s.hist := rfl
@[simp] theorem setPoison_know (loc : Nat) (on : Bool) : (setPoison s loc on).know = s.know := rfl
@[simp] theorem setPoison_scOrder (loc : Nat) (on : Bool) : (setPoison s loc on).scOrder = s.scOrder := rfl
@[simp] theorem setPoison_privOrder (loc : Nat) (on : Bool) : (setPoison s loc on).privOrder = s.privOrder := rfl
@[simp] theorem setPoison_stores (loc : Nat) (on : Bool) : (setPoison s loc on).stores = s.stores := rfl
@[simp] theorem setPoison_icinvs (loc : Nat) (on : Bool) : (setPoison s loc on).icinvs = s.icinvs := rfl
@[simp] theorem setPoison_ends (loc : Nat) (on : Bool) : (setPoison s loc on).ends = s.ends := rfl
@[simp] theorem setPoison_shares (loc : Nat) (on : Bool) : (setPoison s loc on).shares = s.shares := rfl
@[simp] theorem setPoison_fresh (loc : Nat) (on : Bool) : (setPoison s loc on).fresh = s.fresh := rfl
@[simp] theorem setPoison_order (loc : Nat) (on : Bool) : (setPoison s loc on).order = s.order := rfl

/-! ## l2Set -/

@[simp] theorem l2Set_mem (line : Nat) (ln : L2Line) : (l2Set s line ln).mem = s.mem := rfl
@[simp] theorem l2Set_poison (line : Nat) (ln : L2Line) : (l2Set s line ln).poison = s.poison := rfl
@[simp] theorem l2Set_nibbles (line : Nat) (ln : L2Line) : (l2Set s line ln).nibbles = s.nibbles := rfl
@[simp] theorem l2Set_inband (line : Nat) (ln : L2Line) : (l2Set s line ln).inband = s.inband := rfl
@[simp] theorem l2Set_groups (line : Nat) (ln : L2Line) : (l2Set s line ln).groups = s.groups := rfl
@[simp] theorem l2Set_teams (line : Nat) (ln : L2Line) : (l2Set s line ln).teams = s.teams := rfl
@[simp] theorem l2Set_nodes (line : Nat) (ln : L2Line) : (l2Set s line ln).nodes = s.nodes := rfl
@[simp] theorem l2Set_entries (line : Nat) (ln : L2Line) : (l2Set s line ln).entries = s.entries := rfl
@[simp] theorem l2Set_jobs (line : Nat) (ln : L2Line) : (l2Set s line ln).jobs = s.jobs := rfl
@[simp] theorem l2Set_ops (line : Nat) (ln : L2Line) : (l2Set s line ln).ops = s.ops := rfl
@[simp] theorem l2Set_tiles (line : Nat) (ln : L2Line) : (l2Set s line ln).tiles = s.tiles := rfl
@[simp] theorem l2Set_clusters (line : Nat) (ln : L2Line) : (l2Set s line ln).clusters = s.clusters := rfl
@[simp] theorem l2Set_cores (line : Nat) (ln : L2Line) : (l2Set s line ln).cores = s.cores := rfl
@[simp] theorem l2Set_adapters (line : Nat) (ln : L2Line) : (l2Set s line ln).adapters = s.adapters := rfl
@[simp] theorem l2Set_ports (line : Nat) (ln : L2Line) : (l2Set s line ln).ports = s.ports := rfl
@[simp] theorem l2Set_partCfg (line : Nat) (ln : L2Line) : (l2Set s line ln).partCfg = s.partCfg := rfl
@[simp] theorem l2Set_portMap (line : Nat) (ln : L2Line) : (l2Set s line ln).portMap = s.portMap := rfl
@[simp] theorem l2Set_partErr (line : Nat) (ln : L2Line) : (l2Set s line ln).partErr = s.partErr := rfl
@[simp] theorem l2Set_busy (line : Nat) (ln : L2Line) : (l2Set s line ln).busy = s.busy := rfl
@[simp] theorem l2Set_heldWrites (line : Nat) (ln : L2Line) : (l2Set s line ln).heldWrites = s.heldWrites := rfl
@[simp] theorem l2Set_boot (line : Nat) (ln : L2Line) : (l2Set s line ln).boot = s.boot := rfl
@[simp] theorem l2Set_fwHash (line : Nat) (ln : L2Line) : (l2Set s line ln).fwHash = s.fwHash := rfl
@[simp] theorem l2Set_fwImage (line : Nat) (ln : L2Line) : (l2Set s line ln).fwImage = s.fwImage := rfl
@[simp] theorem l2Set_pwrLimit (line : Nat) (ln : L2Line) : (l2Set s line ln).pwrLimit = s.pwrLimit := rfl
@[simp] theorem l2Set_minClk (line : Nat) (ln : L2Line) : (l2Set s line ln).minClk = s.minClk := rfl
@[simp] theorem l2Set_watts (line : Nat) (ln : L2Line) : (l2Set s line ln).watts = s.watts := rfl
@[simp] theorem l2Set_stepping (line : Nat) (ln : L2Line) : (l2Set s line ln).stepping = s.stepping := rfl
@[simp] theorem l2Set_hostMsgs (line : Nat) (ln : L2Line) : (l2Set s line ln).hostMsgs = s.hostMsgs := rfl
@[simp] theorem l2Set_mcOps (line : Nat) (ln : L2Line) : (l2Set s line ln).mcOps = s.mcOps := rfl
@[simp] theorem l2Set_agenda (line : Nat) (ln : L2Line) : (l2Set s line ln).agenda = s.agenda := rfl
@[simp] theorem l2Set_cur (line : Nat) (ln : L2Line) : (l2Set s line ln).cur = s.cur := rfl
@[simp] theorem l2Set_clk (line : Nat) (ln : L2Line) : (l2Set s line ln).clk = s.clk := rfl
@[simp] theorem l2Set_hist (line : Nat) (ln : L2Line) : (l2Set s line ln).hist = s.hist := rfl
@[simp] theorem l2Set_know (line : Nat) (ln : L2Line) : (l2Set s line ln).know = s.know := rfl
@[simp] theorem l2Set_scOrder (line : Nat) (ln : L2Line) : (l2Set s line ln).scOrder = s.scOrder := rfl
@[simp] theorem l2Set_privOrder (line : Nat) (ln : L2Line) : (l2Set s line ln).privOrder = s.privOrder := rfl
@[simp] theorem l2Set_stores (line : Nat) (ln : L2Line) : (l2Set s line ln).stores = s.stores := rfl
@[simp] theorem l2Set_icinvs (line : Nat) (ln : L2Line) : (l2Set s line ln).icinvs = s.icinvs := rfl
@[simp] theorem l2Set_ends (line : Nat) (ln : L2Line) : (l2Set s line ln).ends = s.ends := rfl
@[simp] theorem l2Set_shares (line : Nat) (ln : L2Line) : (l2Set s line ln).shares = s.shares := rfl
@[simp] theorem l2Set_fresh (line : Nat) (ln : L2Line) : (l2Set s line ln).fresh = s.fresh := rfl
@[simp] theorem l2Set_order (line : Nat) (ln : L2Line) : (l2Set s line ln).order = s.order := rfl

/-! ## modKnow -/

@[simp] theorem modKnow_mem (ag : Agent) (f : Know → Know) : (modKnow s ag f).mem = s.mem := rfl
@[simp] theorem modKnow_poison (ag : Agent) (f : Know → Know) : (modKnow s ag f).poison = s.poison := rfl
@[simp] theorem modKnow_nibbles (ag : Agent) (f : Know → Know) : (modKnow s ag f).nibbles = s.nibbles := rfl
@[simp] theorem modKnow_inband (ag : Agent) (f : Know → Know) : (modKnow s ag f).inband = s.inband := rfl
@[simp] theorem modKnow_groups (ag : Agent) (f : Know → Know) : (modKnow s ag f).groups = s.groups := rfl
@[simp] theorem modKnow_teams (ag : Agent) (f : Know → Know) : (modKnow s ag f).teams = s.teams := rfl
@[simp] theorem modKnow_nodes (ag : Agent) (f : Know → Know) : (modKnow s ag f).nodes = s.nodes := rfl
@[simp] theorem modKnow_entries (ag : Agent) (f : Know → Know) : (modKnow s ag f).entries = s.entries := rfl
@[simp] theorem modKnow_jobs (ag : Agent) (f : Know → Know) : (modKnow s ag f).jobs = s.jobs := rfl
@[simp] theorem modKnow_ops (ag : Agent) (f : Know → Know) : (modKnow s ag f).ops = s.ops := rfl
@[simp] theorem modKnow_tiles (ag : Agent) (f : Know → Know) : (modKnow s ag f).tiles = s.tiles := rfl
@[simp] theorem modKnow_parts (ag : Agent) (f : Know → Know) : (modKnow s ag f).parts = s.parts := rfl
@[simp] theorem modKnow_clusters (ag : Agent) (f : Know → Know) : (modKnow s ag f).clusters = s.clusters := rfl
@[simp] theorem modKnow_cores (ag : Agent) (f : Know → Know) : (modKnow s ag f).cores = s.cores := rfl
@[simp] theorem modKnow_adapters (ag : Agent) (f : Know → Know) : (modKnow s ag f).adapters = s.adapters := rfl
@[simp] theorem modKnow_ports (ag : Agent) (f : Know → Know) : (modKnow s ag f).ports = s.ports := rfl
@[simp] theorem modKnow_partCfg (ag : Agent) (f : Know → Know) : (modKnow s ag f).partCfg = s.partCfg := rfl
@[simp] theorem modKnow_portMap (ag : Agent) (f : Know → Know) : (modKnow s ag f).portMap = s.portMap := rfl
@[simp] theorem modKnow_partErr (ag : Agent) (f : Know → Know) : (modKnow s ag f).partErr = s.partErr := rfl
@[simp] theorem modKnow_busy (ag : Agent) (f : Know → Know) : (modKnow s ag f).busy = s.busy := rfl
@[simp] theorem modKnow_heldWrites (ag : Agent) (f : Know → Know) : (modKnow s ag f).heldWrites = s.heldWrites := rfl
@[simp] theorem modKnow_boot (ag : Agent) (f : Know → Know) : (modKnow s ag f).boot = s.boot := rfl
@[simp] theorem modKnow_fwHash (ag : Agent) (f : Know → Know) : (modKnow s ag f).fwHash = s.fwHash := rfl
@[simp] theorem modKnow_fwImage (ag : Agent) (f : Know → Know) : (modKnow s ag f).fwImage = s.fwImage := rfl
@[simp] theorem modKnow_pwrLimit (ag : Agent) (f : Know → Know) : (modKnow s ag f).pwrLimit = s.pwrLimit := rfl
@[simp] theorem modKnow_minClk (ag : Agent) (f : Know → Know) : (modKnow s ag f).minClk = s.minClk := rfl
@[simp] theorem modKnow_watts (ag : Agent) (f : Know → Know) : (modKnow s ag f).watts = s.watts := rfl
@[simp] theorem modKnow_stepping (ag : Agent) (f : Know → Know) : (modKnow s ag f).stepping = s.stepping := rfl
@[simp] theorem modKnow_hostMsgs (ag : Agent) (f : Know → Know) : (modKnow s ag f).hostMsgs = s.hostMsgs := rfl
@[simp] theorem modKnow_mcOps (ag : Agent) (f : Know → Know) : (modKnow s ag f).mcOps = s.mcOps := rfl
@[simp] theorem modKnow_agenda (ag : Agent) (f : Know → Know) : (modKnow s ag f).agenda = s.agenda := rfl
@[simp] theorem modKnow_cur (ag : Agent) (f : Know → Know) : (modKnow s ag f).cur = s.cur := rfl
@[simp] theorem modKnow_clk (ag : Agent) (f : Know → Know) : (modKnow s ag f).clk = s.clk := rfl
@[simp] theorem modKnow_hist (ag : Agent) (f : Know → Know) : (modKnow s ag f).hist = s.hist := rfl
@[simp] theorem modKnow_scOrder (ag : Agent) (f : Know → Know) : (modKnow s ag f).scOrder = s.scOrder := rfl
@[simp] theorem modKnow_privOrder (ag : Agent) (f : Know → Know) : (modKnow s ag f).privOrder = s.privOrder := rfl
@[simp] theorem modKnow_stores (ag : Agent) (f : Know → Know) : (modKnow s ag f).stores = s.stores := rfl
@[simp] theorem modKnow_icinvs (ag : Agent) (f : Know → Know) : (modKnow s ag f).icinvs = s.icinvs := rfl
@[simp] theorem modKnow_ends (ag : Agent) (f : Know → Know) : (modKnow s ag f).ends = s.ends := rfl
@[simp] theorem modKnow_shares (ag : Agent) (f : Know → Know) : (modKnow s ag f).shares = s.shares := rfl
@[simp] theorem modKnow_fresh (ag : Agent) (f : Know → Know) : (modKnow s ag f).fresh = s.fresh := rfl
@[simp] theorem modKnow_order (ag : Agent) (f : Know → Know) : (modKnow s ag f).order = s.order := rfl

/-! ## noteStore -/

@[simp] theorem noteStore_mem (ag : Agent) (m : Msg) : (noteStore s ag m).mem = s.mem := rfl
@[simp] theorem noteStore_poison (ag : Agent) (m : Msg) : (noteStore s ag m).poison = s.poison := rfl
@[simp] theorem noteStore_nibbles (ag : Agent) (m : Msg) : (noteStore s ag m).nibbles = s.nibbles := rfl
@[simp] theorem noteStore_inband (ag : Agent) (m : Msg) : (noteStore s ag m).inband = s.inband := rfl
@[simp] theorem noteStore_groups (ag : Agent) (m : Msg) : (noteStore s ag m).groups = s.groups := rfl
@[simp] theorem noteStore_teams (ag : Agent) (m : Msg) : (noteStore s ag m).teams = s.teams := rfl
@[simp] theorem noteStore_nodes (ag : Agent) (m : Msg) : (noteStore s ag m).nodes = s.nodes := rfl
@[simp] theorem noteStore_entries (ag : Agent) (m : Msg) : (noteStore s ag m).entries = s.entries := rfl
@[simp] theorem noteStore_jobs (ag : Agent) (m : Msg) : (noteStore s ag m).jobs = s.jobs := rfl
@[simp] theorem noteStore_ops (ag : Agent) (m : Msg) : (noteStore s ag m).ops = s.ops := rfl
@[simp] theorem noteStore_tiles (ag : Agent) (m : Msg) : (noteStore s ag m).tiles = s.tiles := rfl
@[simp] theorem noteStore_parts (ag : Agent) (m : Msg) : (noteStore s ag m).parts = s.parts := rfl
@[simp] theorem noteStore_clusters (ag : Agent) (m : Msg) : (noteStore s ag m).clusters = s.clusters := rfl
@[simp] theorem noteStore_cores (ag : Agent) (m : Msg) : (noteStore s ag m).cores = s.cores := rfl
@[simp] theorem noteStore_adapters (ag : Agent) (m : Msg) : (noteStore s ag m).adapters = s.adapters := rfl
@[simp] theorem noteStore_ports (ag : Agent) (m : Msg) : (noteStore s ag m).ports = s.ports := rfl
@[simp] theorem noteStore_partCfg (ag : Agent) (m : Msg) : (noteStore s ag m).partCfg = s.partCfg := rfl
@[simp] theorem noteStore_portMap (ag : Agent) (m : Msg) : (noteStore s ag m).portMap = s.portMap := rfl
@[simp] theorem noteStore_partErr (ag : Agent) (m : Msg) : (noteStore s ag m).partErr = s.partErr := rfl
@[simp] theorem noteStore_busy (ag : Agent) (m : Msg) : (noteStore s ag m).busy = s.busy := rfl
@[simp] theorem noteStore_heldWrites (ag : Agent) (m : Msg) : (noteStore s ag m).heldWrites = s.heldWrites := rfl
@[simp] theorem noteStore_boot (ag : Agent) (m : Msg) : (noteStore s ag m).boot = s.boot := rfl
@[simp] theorem noteStore_fwHash (ag : Agent) (m : Msg) : (noteStore s ag m).fwHash = s.fwHash := rfl
@[simp] theorem noteStore_fwImage (ag : Agent) (m : Msg) : (noteStore s ag m).fwImage = s.fwImage := rfl
@[simp] theorem noteStore_pwrLimit (ag : Agent) (m : Msg) : (noteStore s ag m).pwrLimit = s.pwrLimit := rfl
@[simp] theorem noteStore_minClk (ag : Agent) (m : Msg) : (noteStore s ag m).minClk = s.minClk := rfl
@[simp] theorem noteStore_watts (ag : Agent) (m : Msg) : (noteStore s ag m).watts = s.watts := rfl
@[simp] theorem noteStore_stepping (ag : Agent) (m : Msg) : (noteStore s ag m).stepping = s.stepping := rfl
@[simp] theorem noteStore_hostMsgs (ag : Agent) (m : Msg) : (noteStore s ag m).hostMsgs = s.hostMsgs := rfl
@[simp] theorem noteStore_mcOps (ag : Agent) (m : Msg) : (noteStore s ag m).mcOps = s.mcOps := rfl
@[simp] theorem noteStore_agenda (ag : Agent) (m : Msg) : (noteStore s ag m).agenda = s.agenda := rfl
@[simp] theorem noteStore_cur (ag : Agent) (m : Msg) : (noteStore s ag m).cur = s.cur := rfl
@[simp] theorem noteStore_clk (ag : Agent) (m : Msg) : (noteStore s ag m).clk = s.clk := rfl
@[simp] theorem noteStore_hist (ag : Agent) (m : Msg) : (noteStore s ag m).hist = s.hist := rfl
@[simp] theorem noteStore_scOrder (ag : Agent) (m : Msg) : (noteStore s ag m).scOrder = s.scOrder := rfl
@[simp] theorem noteStore_privOrder (ag : Agent) (m : Msg) : (noteStore s ag m).privOrder = s.privOrder := rfl
@[simp] theorem noteStore_icinvs (ag : Agent) (m : Msg) : (noteStore s ag m).icinvs = s.icinvs := rfl
@[simp] theorem noteStore_ends (ag : Agent) (m : Msg) : (noteStore s ag m).ends = s.ends := rfl
@[simp] theorem noteStore_shares (ag : Agent) (m : Msg) : (noteStore s ag m).shares = s.shares := rfl
@[simp] theorem noteStore_fresh (ag : Agent) (m : Msg) : (noteStore s ag m).fresh = s.fresh := rfl
@[simp] theorem noteStore_order (ag : Agent) (m : Msg) : (noteStore s ag m).order = s.order := rfl

/-! ## countCorrupt -/

@[simp] theorem countCorrupt_mem (cmp line : Nat) : (countCorrupt s cmp line).mem = s.mem := by
  unfold countCorrupt; split <;> rfl
@[simp] theorem countCorrupt_poison (cmp line : Nat) : (countCorrupt s cmp line).poison = s.poison := by
  unfold countCorrupt; split <;> rfl
@[simp] theorem countCorrupt_nibbles (cmp line : Nat) : (countCorrupt s cmp line).nibbles = s.nibbles := by
  unfold countCorrupt; split <;> rfl
@[simp] theorem countCorrupt_inband (cmp line : Nat) : (countCorrupt s cmp line).inband = s.inband := by
  unfold countCorrupt; split <;> rfl
@[simp] theorem countCorrupt_groups (cmp line : Nat) : (countCorrupt s cmp line).groups = s.groups := by
  unfold countCorrupt; split <;> rfl
@[simp] theorem countCorrupt_teams (cmp line : Nat) : (countCorrupt s cmp line).teams = s.teams := by
  unfold countCorrupt; split <;> rfl
@[simp] theorem countCorrupt_nodes (cmp line : Nat) : (countCorrupt s cmp line).nodes = s.nodes := by
  unfold countCorrupt; split <;> rfl
@[simp] theorem countCorrupt_entries (cmp line : Nat) : (countCorrupt s cmp line).entries = s.entries := by
  unfold countCorrupt; split <;> rfl
@[simp] theorem countCorrupt_jobs (cmp line : Nat) : (countCorrupt s cmp line).jobs = s.jobs := by
  unfold countCorrupt; split <;> rfl
@[simp] theorem countCorrupt_ops (cmp line : Nat) : (countCorrupt s cmp line).ops = s.ops := by
  unfold countCorrupt; split <;> rfl
@[simp] theorem countCorrupt_tiles (cmp line : Nat) : (countCorrupt s cmp line).tiles = s.tiles := by
  unfold countCorrupt; split <;> rfl
@[simp] theorem countCorrupt_clusters (cmp line : Nat) : (countCorrupt s cmp line).clusters = s.clusters := by
  unfold countCorrupt; split <;> rfl
@[simp] theorem countCorrupt_cores (cmp line : Nat) : (countCorrupt s cmp line).cores = s.cores := by
  unfold countCorrupt; split <;> rfl
@[simp] theorem countCorrupt_adapters (cmp line : Nat) : (countCorrupt s cmp line).adapters = s.adapters := by
  unfold countCorrupt; split <;> rfl
@[simp] theorem countCorrupt_ports (cmp line : Nat) : (countCorrupt s cmp line).ports = s.ports := by
  unfold countCorrupt; split <;> rfl
@[simp] theorem countCorrupt_partCfg (cmp line : Nat) : (countCorrupt s cmp line).partCfg = s.partCfg := by
  unfold countCorrupt; split <;> rfl
@[simp] theorem countCorrupt_portMap (cmp line : Nat) : (countCorrupt s cmp line).portMap = s.portMap := by
  unfold countCorrupt; split <;> rfl
@[simp] theorem countCorrupt_partErr (cmp line : Nat) : (countCorrupt s cmp line).partErr = s.partErr := by
  unfold countCorrupt; split <;> rfl
@[simp] theorem countCorrupt_busy (cmp line : Nat) : (countCorrupt s cmp line).busy = s.busy := by
  unfold countCorrupt; split <;> rfl
@[simp] theorem countCorrupt_heldWrites (cmp line : Nat) : (countCorrupt s cmp line).heldWrites = s.heldWrites := by
  unfold countCorrupt; split <;> rfl
@[simp] theorem countCorrupt_boot (cmp line : Nat) : (countCorrupt s cmp line).boot = s.boot := by
  unfold countCorrupt; split <;> rfl
@[simp] theorem countCorrupt_fwHash (cmp line : Nat) : (countCorrupt s cmp line).fwHash = s.fwHash := by
  unfold countCorrupt; split <;> rfl
@[simp] theorem countCorrupt_fwImage (cmp line : Nat) : (countCorrupt s cmp line).fwImage = s.fwImage := by
  unfold countCorrupt; split <;> rfl
@[simp] theorem countCorrupt_pwrLimit (cmp line : Nat) : (countCorrupt s cmp line).pwrLimit = s.pwrLimit := by
  unfold countCorrupt; split <;> rfl
@[simp] theorem countCorrupt_minClk (cmp line : Nat) : (countCorrupt s cmp line).minClk = s.minClk := by
  unfold countCorrupt; split <;> rfl
@[simp] theorem countCorrupt_watts (cmp line : Nat) : (countCorrupt s cmp line).watts = s.watts := by
  unfold countCorrupt; split <;> rfl
@[simp] theorem countCorrupt_stepping (cmp line : Nat) : (countCorrupt s cmp line).stepping = s.stepping := by
  unfold countCorrupt; split <;> rfl
@[simp] theorem countCorrupt_hostMsgs (cmp line : Nat) : (countCorrupt s cmp line).hostMsgs = s.hostMsgs := by
  unfold countCorrupt; split <;> rfl
@[simp] theorem countCorrupt_mcOps (cmp line : Nat) : (countCorrupt s cmp line).mcOps = s.mcOps := by
  unfold countCorrupt; split <;> rfl
@[simp] theorem countCorrupt_agenda (cmp line : Nat) : (countCorrupt s cmp line).agenda = s.agenda := by
  unfold countCorrupt; split <;> rfl
@[simp] theorem countCorrupt_cur (cmp line : Nat) : (countCorrupt s cmp line).cur = s.cur := by
  unfold countCorrupt; split <;> rfl
@[simp] theorem countCorrupt_clk (cmp line : Nat) : (countCorrupt s cmp line).clk = s.clk := by
  unfold countCorrupt; split <;> rfl
@[simp] theorem countCorrupt_hist (cmp line : Nat) : (countCorrupt s cmp line).hist = s.hist := by
  unfold countCorrupt; split <;> rfl
@[simp] theorem countCorrupt_know (cmp line : Nat) : (countCorrupt s cmp line).know = s.know := by
  unfold countCorrupt; split <;> rfl
@[simp] theorem countCorrupt_scOrder (cmp line : Nat) : (countCorrupt s cmp line).scOrder = s.scOrder := by
  unfold countCorrupt; split <;> rfl
@[simp] theorem countCorrupt_privOrder (cmp line : Nat) : (countCorrupt s cmp line).privOrder = s.privOrder := by
  unfold countCorrupt; split <;> rfl
@[simp] theorem countCorrupt_stores (cmp line : Nat) : (countCorrupt s cmp line).stores = s.stores := by
  unfold countCorrupt; split <;> rfl
@[simp] theorem countCorrupt_icinvs (cmp line : Nat) : (countCorrupt s cmp line).icinvs = s.icinvs := by
  unfold countCorrupt; split <;> rfl
@[simp] theorem countCorrupt_ends (cmp line : Nat) : (countCorrupt s cmp line).ends = s.ends := by
  unfold countCorrupt; split <;> rfl
@[simp] theorem countCorrupt_shares (cmp line : Nat) : (countCorrupt s cmp line).shares = s.shares := by
  unfold countCorrupt; split <;> rfl
@[simp] theorem countCorrupt_fresh (cmp line : Nat) : (countCorrupt s cmp line).fresh = s.fresh := by
  unfold countCorrupt; split <;> rfl
@[simp] theorem countCorrupt_order (cmp line : Nat) : (countCorrupt s cmp line).order = s.order := by
  unfold countCorrupt; split <;> rfl

/-! ## l2SetWord -/

@[simp] theorem l2SetWord_nibbles (cmp w : Nat) (v : List Byte × Bool) : (l2SetWord s cmp w v).nibbles = s.nibbles := by
  simp only [l2SetWord]; split
  · rfl
  · rw [l2Set_nibbles]; split <;> simp
@[simp] theorem l2SetWord_inband (cmp w : Nat) (v : List Byte × Bool) : (l2SetWord s cmp w v).inband = s.inband := by
  simp only [l2SetWord]; split
  · rfl
  · rw [l2Set_inband]; split <;> simp
@[simp] theorem l2SetWord_groups (cmp w : Nat) (v : List Byte × Bool) : (l2SetWord s cmp w v).groups = s.groups := by
  simp only [l2SetWord]; split
  · rfl
  · rw [l2Set_groups]; split <;> simp
@[simp] theorem l2SetWord_teams (cmp w : Nat) (v : List Byte × Bool) : (l2SetWord s cmp w v).teams = s.teams := by
  simp only [l2SetWord]; split
  · rfl
  · rw [l2Set_teams]; split <;> simp
@[simp] theorem l2SetWord_nodes (cmp w : Nat) (v : List Byte × Bool) : (l2SetWord s cmp w v).nodes = s.nodes := by
  simp only [l2SetWord]; split
  · rfl
  · rw [l2Set_nodes]; split <;> simp
@[simp] theorem l2SetWord_entries (cmp w : Nat) (v : List Byte × Bool) : (l2SetWord s cmp w v).entries = s.entries := by
  simp only [l2SetWord]; split
  · rfl
  · rw [l2Set_entries]; split <;> simp
@[simp] theorem l2SetWord_jobs (cmp w : Nat) (v : List Byte × Bool) : (l2SetWord s cmp w v).jobs = s.jobs := by
  simp only [l2SetWord]; split
  · rfl
  · rw [l2Set_jobs]; split <;> simp
@[simp] theorem l2SetWord_ops (cmp w : Nat) (v : List Byte × Bool) : (l2SetWord s cmp w v).ops = s.ops := by
  simp only [l2SetWord]; split
  · rfl
  · rw [l2Set_ops]; split <;> simp
@[simp] theorem l2SetWord_tiles (cmp w : Nat) (v : List Byte × Bool) : (l2SetWord s cmp w v).tiles = s.tiles := by
  simp only [l2SetWord]; split
  · rfl
  · rw [l2Set_tiles]; split <;> simp
@[simp] theorem l2SetWord_clusters (cmp w : Nat) (v : List Byte × Bool) : (l2SetWord s cmp w v).clusters = s.clusters := by
  simp only [l2SetWord]; split
  · rfl
  · rw [l2Set_clusters]; split <;> simp
@[simp] theorem l2SetWord_cores (cmp w : Nat) (v : List Byte × Bool) : (l2SetWord s cmp w v).cores = s.cores := by
  simp only [l2SetWord]; split
  · rfl
  · rw [l2Set_cores]; split <;> simp
@[simp] theorem l2SetWord_adapters (cmp w : Nat) (v : List Byte × Bool) : (l2SetWord s cmp w v).adapters = s.adapters := by
  simp only [l2SetWord]; split
  · rfl
  · rw [l2Set_adapters]; split <;> simp
@[simp] theorem l2SetWord_ports (cmp w : Nat) (v : List Byte × Bool) : (l2SetWord s cmp w v).ports = s.ports := by
  simp only [l2SetWord]; split
  · rfl
  · rw [l2Set_ports]; split <;> simp
@[simp] theorem l2SetWord_partCfg (cmp w : Nat) (v : List Byte × Bool) : (l2SetWord s cmp w v).partCfg = s.partCfg := by
  simp only [l2SetWord]; split
  · rfl
  · rw [l2Set_partCfg]; split <;> simp
@[simp] theorem l2SetWord_portMap (cmp w : Nat) (v : List Byte × Bool) : (l2SetWord s cmp w v).portMap = s.portMap := by
  simp only [l2SetWord]; split
  · rfl
  · rw [l2Set_portMap]; split <;> simp
@[simp] theorem l2SetWord_partErr (cmp w : Nat) (v : List Byte × Bool) : (l2SetWord s cmp w v).partErr = s.partErr := by
  simp only [l2SetWord]; split
  · rfl
  · rw [l2Set_partErr]; split <;> simp
@[simp] theorem l2SetWord_busy (cmp w : Nat) (v : List Byte × Bool) : (l2SetWord s cmp w v).busy = s.busy := by
  simp only [l2SetWord]; split
  · rfl
  · rw [l2Set_busy]; split <;> simp
@[simp] theorem l2SetWord_heldWrites (cmp w : Nat) (v : List Byte × Bool) : (l2SetWord s cmp w v).heldWrites = s.heldWrites := by
  simp only [l2SetWord]; split
  · rfl
  · rw [l2Set_heldWrites]; split <;> simp
@[simp] theorem l2SetWord_boot (cmp w : Nat) (v : List Byte × Bool) : (l2SetWord s cmp w v).boot = s.boot := by
  simp only [l2SetWord]; split
  · rfl
  · rw [l2Set_boot]; split <;> simp
@[simp] theorem l2SetWord_fwHash (cmp w : Nat) (v : List Byte × Bool) : (l2SetWord s cmp w v).fwHash = s.fwHash := by
  simp only [l2SetWord]; split
  · rfl
  · rw [l2Set_fwHash]; split <;> simp
@[simp] theorem l2SetWord_fwImage (cmp w : Nat) (v : List Byte × Bool) : (l2SetWord s cmp w v).fwImage = s.fwImage := by
  simp only [l2SetWord]; split
  · rfl
  · rw [l2Set_fwImage]; split <;> simp
@[simp] theorem l2SetWord_pwrLimit (cmp w : Nat) (v : List Byte × Bool) : (l2SetWord s cmp w v).pwrLimit = s.pwrLimit := by
  simp only [l2SetWord]; split
  · rfl
  · rw [l2Set_pwrLimit]; split <;> simp
@[simp] theorem l2SetWord_minClk (cmp w : Nat) (v : List Byte × Bool) : (l2SetWord s cmp w v).minClk = s.minClk := by
  simp only [l2SetWord]; split
  · rfl
  · rw [l2Set_minClk]; split <;> simp
@[simp] theorem l2SetWord_watts (cmp w : Nat) (v : List Byte × Bool) : (l2SetWord s cmp w v).watts = s.watts := by
  simp only [l2SetWord]; split
  · rfl
  · rw [l2Set_watts]; split <;> simp
@[simp] theorem l2SetWord_stepping (cmp w : Nat) (v : List Byte × Bool) : (l2SetWord s cmp w v).stepping = s.stepping := by
  simp only [l2SetWord]; split
  · rfl
  · rw [l2Set_stepping]; split <;> simp
@[simp] theorem l2SetWord_hostMsgs (cmp w : Nat) (v : List Byte × Bool) : (l2SetWord s cmp w v).hostMsgs = s.hostMsgs := by
  simp only [l2SetWord]; split
  · rfl
  · rw [l2Set_hostMsgs]; split <;> simp
@[simp] theorem l2SetWord_mcOps (cmp w : Nat) (v : List Byte × Bool) : (l2SetWord s cmp w v).mcOps = s.mcOps := by
  simp only [l2SetWord]; split
  · rfl
  · rw [l2Set_mcOps]; split <;> simp
@[simp] theorem l2SetWord_agenda (cmp w : Nat) (v : List Byte × Bool) : (l2SetWord s cmp w v).agenda = s.agenda := by
  simp only [l2SetWord]; split
  · rfl
  · rw [l2Set_agenda]; split <;> simp
@[simp] theorem l2SetWord_cur (cmp w : Nat) (v : List Byte × Bool) : (l2SetWord s cmp w v).cur = s.cur := by
  simp only [l2SetWord]; split
  · rfl
  · rw [l2Set_cur]; split <;> simp
@[simp] theorem l2SetWord_clk (cmp w : Nat) (v : List Byte × Bool) : (l2SetWord s cmp w v).clk = s.clk := by
  simp only [l2SetWord]; split
  · rfl
  · rw [l2Set_clk]; split <;> simp
@[simp] theorem l2SetWord_hist (cmp w : Nat) (v : List Byte × Bool) : (l2SetWord s cmp w v).hist = s.hist := by
  simp only [l2SetWord]; split
  · rfl
  · rw [l2Set_hist]; split <;> simp
@[simp] theorem l2SetWord_know (cmp w : Nat) (v : List Byte × Bool) : (l2SetWord s cmp w v).know = s.know := by
  simp only [l2SetWord]; split
  · rfl
  · rw [l2Set_know]; split <;> simp
@[simp] theorem l2SetWord_scOrder (cmp w : Nat) (v : List Byte × Bool) : (l2SetWord s cmp w v).scOrder = s.scOrder := by
  simp only [l2SetWord]; split
  · rfl
  · rw [l2Set_scOrder]; split <;> simp
@[simp] theorem l2SetWord_privOrder (cmp w : Nat) (v : List Byte × Bool) : (l2SetWord s cmp w v).privOrder = s.privOrder := by
  simp only [l2SetWord]; split
  · rfl
  · rw [l2Set_privOrder]; split <;> simp
@[simp] theorem l2SetWord_stores (cmp w : Nat) (v : List Byte × Bool) : (l2SetWord s cmp w v).stores = s.stores := by
  simp only [l2SetWord]; split
  · rfl
  · rw [l2Set_stores]; split <;> simp
@[simp] theorem l2SetWord_icinvs (cmp w : Nat) (v : List Byte × Bool) : (l2SetWord s cmp w v).icinvs = s.icinvs := by
  simp only [l2SetWord]; split
  · rfl
  · rw [l2Set_icinvs]; split <;> simp
@[simp] theorem l2SetWord_ends (cmp w : Nat) (v : List Byte × Bool) : (l2SetWord s cmp w v).ends = s.ends := by
  simp only [l2SetWord]; split
  · rfl
  · rw [l2Set_ends]; split <;> simp
@[simp] theorem l2SetWord_shares (cmp w : Nat) (v : List Byte × Bool) : (l2SetWord s cmp w v).shares = s.shares := by
  simp only [l2SetWord]; split
  · rfl
  · rw [l2Set_shares]; split <;> simp
@[simp] theorem l2SetWord_fresh (cmp w : Nat) (v : List Byte × Bool) : (l2SetWord s cmp w v).fresh = s.fresh := by
  simp only [l2SetWord]; split
  · rfl
  · rw [l2Set_fresh]; split <;> simp
@[simp] theorem l2SetWord_order (cmp w : Nat) (v : List Byte × Bool) : (l2SetWord s cmp w v).order = s.order := by
  simp only [l2SetWord]; split
  · rfl
  · rw [l2Set_order]; split <;> simp

/-! ## publish -/

@[simp] theorem publish_nibbles (w : Nat) (m : Msg) : (publish s w m).nibbles = s.nibbles := l2SetWord_nibbles s ..
@[simp] theorem publish_inband (w : Nat) (m : Msg) : (publish s w m).inband = s.inband := l2SetWord_inband s ..
@[simp] theorem publish_groups (w : Nat) (m : Msg) : (publish s w m).groups = s.groups := l2SetWord_groups s ..
@[simp] theorem publish_teams (w : Nat) (m : Msg) : (publish s w m).teams = s.teams := l2SetWord_teams s ..
@[simp] theorem publish_nodes (w : Nat) (m : Msg) : (publish s w m).nodes = s.nodes := l2SetWord_nodes s ..
@[simp] theorem publish_entries (w : Nat) (m : Msg) : (publish s w m).entries = s.entries := l2SetWord_entries s ..
@[simp] theorem publish_jobs (w : Nat) (m : Msg) : (publish s w m).jobs = s.jobs := l2SetWord_jobs s ..
@[simp] theorem publish_ops (w : Nat) (m : Msg) : (publish s w m).ops = s.ops := l2SetWord_ops s ..
@[simp] theorem publish_tiles (w : Nat) (m : Msg) : (publish s w m).tiles = s.tiles := l2SetWord_tiles s ..
@[simp] theorem publish_clusters (w : Nat) (m : Msg) : (publish s w m).clusters = s.clusters := l2SetWord_clusters s ..
@[simp] theorem publish_cores (w : Nat) (m : Msg) : (publish s w m).cores = s.cores := l2SetWord_cores s ..
@[simp] theorem publish_adapters (w : Nat) (m : Msg) : (publish s w m).adapters = s.adapters := l2SetWord_adapters s ..
@[simp] theorem publish_ports (w : Nat) (m : Msg) : (publish s w m).ports = s.ports := l2SetWord_ports s ..
@[simp] theorem publish_partCfg (w : Nat) (m : Msg) : (publish s w m).partCfg = s.partCfg := l2SetWord_partCfg s ..
@[simp] theorem publish_portMap (w : Nat) (m : Msg) : (publish s w m).portMap = s.portMap := l2SetWord_portMap s ..
@[simp] theorem publish_partErr (w : Nat) (m : Msg) : (publish s w m).partErr = s.partErr := l2SetWord_partErr s ..
@[simp] theorem publish_busy (w : Nat) (m : Msg) : (publish s w m).busy = s.busy := l2SetWord_busy s ..
@[simp] theorem publish_heldWrites (w : Nat) (m : Msg) : (publish s w m).heldWrites = s.heldWrites := l2SetWord_heldWrites s ..
@[simp] theorem publish_boot (w : Nat) (m : Msg) : (publish s w m).boot = s.boot := l2SetWord_boot s ..
@[simp] theorem publish_fwHash (w : Nat) (m : Msg) : (publish s w m).fwHash = s.fwHash := l2SetWord_fwHash s ..
@[simp] theorem publish_fwImage (w : Nat) (m : Msg) : (publish s w m).fwImage = s.fwImage := l2SetWord_fwImage s ..
@[simp] theorem publish_pwrLimit (w : Nat) (m : Msg) : (publish s w m).pwrLimit = s.pwrLimit := l2SetWord_pwrLimit s ..
@[simp] theorem publish_minClk (w : Nat) (m : Msg) : (publish s w m).minClk = s.minClk := l2SetWord_minClk s ..
@[simp] theorem publish_watts (w : Nat) (m : Msg) : (publish s w m).watts = s.watts := l2SetWord_watts s ..
@[simp] theorem publish_stepping (w : Nat) (m : Msg) : (publish s w m).stepping = s.stepping := l2SetWord_stepping s ..
@[simp] theorem publish_hostMsgs (w : Nat) (m : Msg) : (publish s w m).hostMsgs = s.hostMsgs := l2SetWord_hostMsgs s ..
@[simp] theorem publish_mcOps (w : Nat) (m : Msg) : (publish s w m).mcOps = s.mcOps := l2SetWord_mcOps s ..
@[simp] theorem publish_agenda (w : Nat) (m : Msg) : (publish s w m).agenda = s.agenda := l2SetWord_agenda s ..
@[simp] theorem publish_cur (w : Nat) (m : Msg) : (publish s w m).cur = s.cur := l2SetWord_cur s ..
@[simp] theorem publish_clk (w : Nat) (m : Msg) : (publish s w m).clk = s.clk := l2SetWord_clk s ..
@[simp] theorem publish_know (w : Nat) (m : Msg) : (publish s w m).know = s.know := l2SetWord_know s ..
@[simp] theorem publish_scOrder (w : Nat) (m : Msg) : (publish s w m).scOrder = s.scOrder := l2SetWord_scOrder s ..
@[simp] theorem publish_privOrder (w : Nat) (m : Msg) : (publish s w m).privOrder = s.privOrder := l2SetWord_privOrder s ..
@[simp] theorem publish_icinvs (w : Nat) (m : Msg) : (publish s w m).icinvs = s.icinvs := l2SetWord_icinvs s ..
@[simp] theorem publish_ends (w : Nat) (m : Msg) : (publish s w m).ends = s.ends := l2SetWord_ends s ..
@[simp] theorem publish_shares (w : Nat) (m : Msg) : (publish s w m).shares = s.shares := l2SetWord_shares s ..
@[simp] theorem publish_fresh (w : Nat) (m : Msg) : (publish s w m).fresh = s.fresh := l2SetWord_fresh s ..
@[simp] theorem publish_order (w : Nat) (m : Msg) : (publish s w m).order = s.order := l2SetWord_order s ..

/-! ## coreWriteBack -/

/-- A fold of steps that leave a part of the state alone leaves it alone. -/
theorem foldl_same {α β : Type} (g : State → β) {f : State → α → State} (hf : ∀ s a, g (f s a) = g s) (l : List α)
    (s : State) : g (l.foldl f s) = g s := by
  induction l generalizing s with
  | nil => rfl
  | cons a r ih => rw [List.foldl_cons, ih, hf]

@[simp] theorem coreWriteBack_nibbles (core : Nat) (sel : Nat → Bool) : (coreWriteBack s core sel).nibbles = s.nibbles := by
  simp only [coreWriteBack]; split
  · rfl
  · exact foldl_same (·.nibbles) (fun _ _ => foldl_same (·.nibbles) (fun _ _ => publish_nibbles ..) _ _) _ _
@[simp] theorem coreWriteBack_inband (core : Nat) (sel : Nat → Bool) : (coreWriteBack s core sel).inband = s.inband := by
  simp only [coreWriteBack]; split
  · rfl
  · exact foldl_same (·.inband) (fun _ _ => foldl_same (·.inband) (fun _ _ => publish_inband ..) _ _) _ _
@[simp] theorem coreWriteBack_groups (core : Nat) (sel : Nat → Bool) : (coreWriteBack s core sel).groups = s.groups := by
  simp only [coreWriteBack]; split
  · rfl
  · exact foldl_same (·.groups) (fun _ _ => foldl_same (·.groups) (fun _ _ => publish_groups ..) _ _) _ _
@[simp] theorem coreWriteBack_teams (core : Nat) (sel : Nat → Bool) : (coreWriteBack s core sel).teams = s.teams := by
  simp only [coreWriteBack]; split
  · rfl
  · exact foldl_same (·.teams) (fun _ _ => foldl_same (·.teams) (fun _ _ => publish_teams ..) _ _) _ _
@[simp] theorem coreWriteBack_nodes (core : Nat) (sel : Nat → Bool) : (coreWriteBack s core sel).nodes = s.nodes := by
  simp only [coreWriteBack]; split
  · rfl
  · exact foldl_same (·.nodes) (fun _ _ => foldl_same (·.nodes) (fun _ _ => publish_nodes ..) _ _) _ _
@[simp] theorem coreWriteBack_entries (core : Nat) (sel : Nat → Bool) : (coreWriteBack s core sel).entries = s.entries := by
  simp only [coreWriteBack]; split
  · rfl
  · exact foldl_same (·.entries) (fun _ _ => foldl_same (·.entries) (fun _ _ => publish_entries ..) _ _) _ _
@[simp] theorem coreWriteBack_jobs (core : Nat) (sel : Nat → Bool) : (coreWriteBack s core sel).jobs = s.jobs := by
  simp only [coreWriteBack]; split
  · rfl
  · exact foldl_same (·.jobs) (fun _ _ => foldl_same (·.jobs) (fun _ _ => publish_jobs ..) _ _) _ _
@[simp] theorem coreWriteBack_ops (core : Nat) (sel : Nat → Bool) : (coreWriteBack s core sel).ops = s.ops := by
  simp only [coreWriteBack]; split
  · rfl
  · exact foldl_same (·.ops) (fun _ _ => foldl_same (·.ops) (fun _ _ => publish_ops ..) _ _) _ _
@[simp] theorem coreWriteBack_tiles (core : Nat) (sel : Nat → Bool) : (coreWriteBack s core sel).tiles = s.tiles := by
  simp only [coreWriteBack]; split
  · rfl
  · exact foldl_same (·.tiles) (fun _ _ => foldl_same (·.tiles) (fun _ _ => publish_tiles ..) _ _) _ _
@[simp] theorem coreWriteBack_clusters (core : Nat) (sel : Nat → Bool) : (coreWriteBack s core sel).clusters = s.clusters := by
  simp only [coreWriteBack]; split
  · rfl
  · exact foldl_same (·.clusters) (fun _ _ => foldl_same (·.clusters) (fun _ _ => publish_clusters ..) _ _) _ _
@[simp] theorem coreWriteBack_adapters (core : Nat) (sel : Nat → Bool) : (coreWriteBack s core sel).adapters = s.adapters := by
  simp only [coreWriteBack]; split
  · rfl
  · exact foldl_same (·.adapters) (fun _ _ => foldl_same (·.adapters) (fun _ _ => publish_adapters ..) _ _) _ _
@[simp] theorem coreWriteBack_ports (core : Nat) (sel : Nat → Bool) : (coreWriteBack s core sel).ports = s.ports := by
  simp only [coreWriteBack]; split
  · rfl
  · exact foldl_same (·.ports) (fun _ _ => foldl_same (·.ports) (fun _ _ => publish_ports ..) _ _) _ _
@[simp] theorem coreWriteBack_partCfg (core : Nat) (sel : Nat → Bool) : (coreWriteBack s core sel).partCfg = s.partCfg := by
  simp only [coreWriteBack]; split
  · rfl
  · exact foldl_same (·.partCfg) (fun _ _ => foldl_same (·.partCfg) (fun _ _ => publish_partCfg ..) _ _) _ _
@[simp] theorem coreWriteBack_portMap (core : Nat) (sel : Nat → Bool) : (coreWriteBack s core sel).portMap = s.portMap := by
  simp only [coreWriteBack]; split
  · rfl
  · exact foldl_same (·.portMap) (fun _ _ => foldl_same (·.portMap) (fun _ _ => publish_portMap ..) _ _) _ _
@[simp] theorem coreWriteBack_partErr (core : Nat) (sel : Nat → Bool) : (coreWriteBack s core sel).partErr = s.partErr := by
  simp only [coreWriteBack]; split
  · rfl
  · exact foldl_same (·.partErr) (fun _ _ => foldl_same (·.partErr) (fun _ _ => publish_partErr ..) _ _) _ _
@[simp] theorem coreWriteBack_busy (core : Nat) (sel : Nat → Bool) : (coreWriteBack s core sel).busy = s.busy := by
  simp only [coreWriteBack]; split
  · rfl
  · exact foldl_same (·.busy) (fun _ _ => foldl_same (·.busy) (fun _ _ => publish_busy ..) _ _) _ _
@[simp] theorem coreWriteBack_heldWrites (core : Nat) (sel : Nat → Bool) : (coreWriteBack s core sel).heldWrites = s.heldWrites := by
  simp only [coreWriteBack]; split
  · rfl
  · exact foldl_same (·.heldWrites) (fun _ _ => foldl_same (·.heldWrites) (fun _ _ => publish_heldWrites ..) _ _) _ _
@[simp] theorem coreWriteBack_boot (core : Nat) (sel : Nat → Bool) : (coreWriteBack s core sel).boot = s.boot := by
  simp only [coreWriteBack]; split
  · rfl
  · exact foldl_same (·.boot) (fun _ _ => foldl_same (·.boot) (fun _ _ => publish_boot ..) _ _) _ _
@[simp] theorem coreWriteBack_fwHash (core : Nat) (sel : Nat → Bool) : (coreWriteBack s core sel).fwHash = s.fwHash := by
  simp only [coreWriteBack]; split
  · rfl
  · exact foldl_same (·.fwHash) (fun _ _ => foldl_same (·.fwHash) (fun _ _ => publish_fwHash ..) _ _) _ _
@[simp] theorem coreWriteBack_fwImage (core : Nat) (sel : Nat → Bool) : (coreWriteBack s core sel).fwImage = s.fwImage := by
  simp only [coreWriteBack]; split
  · rfl
  · exact foldl_same (·.fwImage) (fun _ _ => foldl_same (·.fwImage) (fun _ _ => publish_fwImage ..) _ _) _ _
@[simp] theorem coreWriteBack_pwrLimit (core : Nat) (sel : Nat → Bool) : (coreWriteBack s core sel).pwrLimit = s.pwrLimit := by
  simp only [coreWriteBack]; split
  · rfl
  · exact foldl_same (·.pwrLimit) (fun _ _ => foldl_same (·.pwrLimit) (fun _ _ => publish_pwrLimit ..) _ _) _ _
@[simp] theorem coreWriteBack_minClk (core : Nat) (sel : Nat → Bool) : (coreWriteBack s core sel).minClk = s.minClk := by
  simp only [coreWriteBack]; split
  · rfl
  · exact foldl_same (·.minClk) (fun _ _ => foldl_same (·.minClk) (fun _ _ => publish_minClk ..) _ _) _ _
@[simp] theorem coreWriteBack_watts (core : Nat) (sel : Nat → Bool) : (coreWriteBack s core sel).watts = s.watts := by
  simp only [coreWriteBack]; split
  · rfl
  · exact foldl_same (·.watts) (fun _ _ => foldl_same (·.watts) (fun _ _ => publish_watts ..) _ _) _ _
@[simp] theorem coreWriteBack_stepping (core : Nat) (sel : Nat → Bool) : (coreWriteBack s core sel).stepping = s.stepping := by
  simp only [coreWriteBack]; split
  · rfl
  · exact foldl_same (·.stepping) (fun _ _ => foldl_same (·.stepping) (fun _ _ => publish_stepping ..) _ _) _ _
@[simp] theorem coreWriteBack_hostMsgs (core : Nat) (sel : Nat → Bool) : (coreWriteBack s core sel).hostMsgs = s.hostMsgs := by
  simp only [coreWriteBack]; split
  · rfl
  · exact foldl_same (·.hostMsgs) (fun _ _ => foldl_same (·.hostMsgs) (fun _ _ => publish_hostMsgs ..) _ _) _ _
@[simp] theorem coreWriteBack_mcOps (core : Nat) (sel : Nat → Bool) : (coreWriteBack s core sel).mcOps = s.mcOps := by
  simp only [coreWriteBack]; split
  · rfl
  · exact foldl_same (·.mcOps) (fun _ _ => foldl_same (·.mcOps) (fun _ _ => publish_mcOps ..) _ _) _ _
@[simp] theorem coreWriteBack_agenda (core : Nat) (sel : Nat → Bool) : (coreWriteBack s core sel).agenda = s.agenda := by
  simp only [coreWriteBack]; split
  · rfl
  · exact foldl_same (·.agenda) (fun _ _ => foldl_same (·.agenda) (fun _ _ => publish_agenda ..) _ _) _ _
@[simp] theorem coreWriteBack_cur (core : Nat) (sel : Nat → Bool) : (coreWriteBack s core sel).cur = s.cur := by
  simp only [coreWriteBack]; split
  · rfl
  · exact foldl_same (·.cur) (fun _ _ => foldl_same (·.cur) (fun _ _ => publish_cur ..) _ _) _ _
@[simp] theorem coreWriteBack_clk (core : Nat) (sel : Nat → Bool) : (coreWriteBack s core sel).clk = s.clk := by
  simp only [coreWriteBack]; split
  · rfl
  · exact foldl_same (·.clk) (fun _ _ => foldl_same (·.clk) (fun _ _ => publish_clk ..) _ _) _ _
@[simp] theorem coreWriteBack_know (core : Nat) (sel : Nat → Bool) : (coreWriteBack s core sel).know = s.know := by
  simp only [coreWriteBack]; split
  · rfl
  · exact foldl_same (·.know) (fun _ _ => foldl_same (·.know) (fun _ _ => publish_know ..) _ _) _ _
@[simp] theorem coreWriteBack_scOrder (core : Nat) (sel : Nat → Bool) : (coreWriteBack s core sel).scOrder = s.scOrder := by
  simp only [coreWriteBack]; split
  · rfl
  · exact foldl_same (·.scOrder) (fun _ _ => foldl_same (·.scOrder) (fun _ _ => publish_scOrder ..) _ _) _ _
@[simp] theorem coreWriteBack_privOrder (core : Nat) (sel : Nat → Bool) : (coreWriteBack s core sel).privOrder = s.privOrder := by
  simp only [coreWriteBack]; split
  · rfl
  · exact foldl_same (·.privOrder) (fun _ _ => foldl_same (·.privOrder) (fun _ _ => publish_privOrder ..) _ _) _ _
@[simp] theorem coreWriteBack_icinvs (core : Nat) (sel : Nat → Bool) : (coreWriteBack s core sel).icinvs = s.icinvs := by
  simp only [coreWriteBack]; split
  · rfl
  · exact foldl_same (·.icinvs) (fun _ _ => foldl_same (·.icinvs) (fun _ _ => publish_icinvs ..) _ _) _ _
@[simp] theorem coreWriteBack_ends (core : Nat) (sel : Nat → Bool) : (coreWriteBack s core sel).ends = s.ends := by
  simp only [coreWriteBack]; split
  · rfl
  · exact foldl_same (·.ends) (fun _ _ => foldl_same (·.ends) (fun _ _ => publish_ends ..) _ _) _ _
@[simp] theorem coreWriteBack_shares (core : Nat) (sel : Nat → Bool) : (coreWriteBack s core sel).shares = s.shares := by
  simp only [coreWriteBack]; split
  · rfl
  · exact foldl_same (·.shares) (fun _ _ => foldl_same (·.shares) (fun _ _ => publish_shares ..) _ _) _ _
@[simp] theorem coreWriteBack_fresh (core : Nat) (sel : Nat → Bool) : (coreWriteBack s core sel).fresh = s.fresh := by
  simp only [coreWriteBack]; split
  · rfl
  · exact foldl_same (·.fresh) (fun _ _ => foldl_same (·.fresh) (fun _ _ => publish_fresh ..) _ _) _ _
@[simp] theorem coreWriteBack_order (core : Nat) (sel : Nat → Bool) : (coreWriteBack s core sel).order = s.order := by
  simp only [coreWriteBack]; split
  · rfl
  · exact foldl_same (·.order) (fun _ _ => foldl_same (·.order) (fun _ _ => publish_order ..) _ _) _ _

/-! ## tellHost -/

@[simp] theorem tellHost_mem (m : HostMsg) : (tellHost s m).mem = s.mem := rfl
@[simp] theorem tellHost_poison (m : HostMsg) : (tellHost s m).poison = s.poison := rfl
@[simp] theorem tellHost_nibbles (m : HostMsg) : (tellHost s m).nibbles = s.nibbles := rfl
@[simp] theorem tellHost_inband (m : HostMsg) : (tellHost s m).inband = s.inband := rfl
@[simp] theorem tellHost_groups (m : HostMsg) : (tellHost s m).groups = s.groups := rfl
@[simp] theorem tellHost_teams (m : HostMsg) : (tellHost s m).teams = s.teams := rfl
@[simp] theorem tellHost_nodes (m : HostMsg) : (tellHost s m).nodes = s.nodes := rfl
@[simp] theorem tellHost_entries (m : HostMsg) : (tellHost s m).entries = s.entries := rfl
@[simp] theorem tellHost_jobs (m : HostMsg) : (tellHost s m).jobs = s.jobs := rfl
@[simp] theorem tellHost_ops (m : HostMsg) : (tellHost s m).ops = s.ops := rfl
@[simp] theorem tellHost_tiles (m : HostMsg) : (tellHost s m).tiles = s.tiles := rfl
@[simp] theorem tellHost_parts (m : HostMsg) : (tellHost s m).parts = s.parts := rfl
@[simp] theorem tellHost_clusters (m : HostMsg) : (tellHost s m).clusters = s.clusters := rfl
@[simp] theorem tellHost_cores (m : HostMsg) : (tellHost s m).cores = s.cores := rfl
@[simp] theorem tellHost_adapters (m : HostMsg) : (tellHost s m).adapters = s.adapters := rfl
@[simp] theorem tellHost_ports (m : HostMsg) : (tellHost s m).ports = s.ports := rfl
@[simp] theorem tellHost_partCfg (m : HostMsg) : (tellHost s m).partCfg = s.partCfg := rfl
@[simp] theorem tellHost_portMap (m : HostMsg) : (tellHost s m).portMap = s.portMap := rfl
@[simp] theorem tellHost_partErr (m : HostMsg) : (tellHost s m).partErr = s.partErr := rfl
@[simp] theorem tellHost_busy (m : HostMsg) : (tellHost s m).busy = s.busy := rfl
@[simp] theorem tellHost_heldWrites (m : HostMsg) : (tellHost s m).heldWrites = s.heldWrites := rfl
@[simp] theorem tellHost_boot (m : HostMsg) : (tellHost s m).boot = s.boot := rfl
@[simp] theorem tellHost_fwHash (m : HostMsg) : (tellHost s m).fwHash = s.fwHash := rfl
@[simp] theorem tellHost_fwImage (m : HostMsg) : (tellHost s m).fwImage = s.fwImage := rfl
@[simp] theorem tellHost_pwrLimit (m : HostMsg) : (tellHost s m).pwrLimit = s.pwrLimit := rfl
@[simp] theorem tellHost_minClk (m : HostMsg) : (tellHost s m).minClk = s.minClk := rfl
@[simp] theorem tellHost_watts (m : HostMsg) : (tellHost s m).watts = s.watts := rfl
@[simp] theorem tellHost_stepping (m : HostMsg) : (tellHost s m).stepping = s.stepping := rfl
@[simp] theorem tellHost_mcOps (m : HostMsg) : (tellHost s m).mcOps = s.mcOps := rfl
@[simp] theorem tellHost_agenda (m : HostMsg) : (tellHost s m).agenda = s.agenda := rfl
@[simp] theorem tellHost_cur (m : HostMsg) : (tellHost s m).cur = s.cur := rfl
@[simp] theorem tellHost_clk (m : HostMsg) : (tellHost s m).clk = s.clk := rfl
@[simp] theorem tellHost_hist (m : HostMsg) : (tellHost s m).hist = s.hist := rfl
@[simp] theorem tellHost_know (m : HostMsg) : (tellHost s m).know = s.know := rfl
@[simp] theorem tellHost_scOrder (m : HostMsg) : (tellHost s m).scOrder = s.scOrder := rfl
@[simp] theorem tellHost_privOrder (m : HostMsg) : (tellHost s m).privOrder = s.privOrder := rfl
@[simp] theorem tellHost_stores (m : HostMsg) : (tellHost s m).stores = s.stores := rfl
@[simp] theorem tellHost_icinvs (m : HostMsg) : (tellHost s m).icinvs = s.icinvs := rfl
@[simp] theorem tellHost_ends (m : HostMsg) : (tellHost s m).ends = s.ends := rfl
@[simp] theorem tellHost_shares (m : HostMsg) : (tellHost s m).shares = s.shares := rfl
@[simp] theorem tellHost_fresh (m : HostMsg) : (tellHost s m).fresh = s.fresh := rfl
@[simp] theorem tellHost_order (m : HostMsg) : (tellHost s m).order = s.order := rfl

/-! ## startOp -/

@[simp] theorem startOp_mem (o : OpRec) : (startOp s o).mem = s.mem := rfl
@[simp] theorem startOp_poison (o : OpRec) : (startOp s o).poison = s.poison := rfl
@[simp] theorem startOp_nibbles (o : OpRec) : (startOp s o).nibbles = s.nibbles := rfl
@[simp] theorem startOp_inband (o : OpRec) : (startOp s o).inband = s.inband := rfl
@[simp] theorem startOp_teams (o : OpRec) : (startOp s o).teams = s.teams := rfl
@[simp] theorem startOp_nodes (o : OpRec) : (startOp s o).nodes = s.nodes := rfl
@[simp] theorem startOp_entries (o : OpRec) : (startOp s o).entries = s.entries := rfl
@[simp] theorem startOp_jobs (o : OpRec) : (startOp s o).jobs = s.jobs := rfl
@[simp] theorem startOp_tiles (o : OpRec) : (startOp s o).tiles = s.tiles := rfl
@[simp] theorem startOp_parts (o : OpRec) : (startOp s o).parts = s.parts := rfl
@[simp] theorem startOp_clusters (o : OpRec) : (startOp s o).clusters = s.clusters := rfl
@[simp] theorem startOp_cores (o : OpRec) : (startOp s o).cores = s.cores := rfl
@[simp] theorem startOp_adapters (o : OpRec) : (startOp s o).adapters = s.adapters := rfl
@[simp] theorem startOp_ports (o : OpRec) : (startOp s o).ports = s.ports := rfl
@[simp] theorem startOp_partCfg (o : OpRec) : (startOp s o).partCfg = s.partCfg := rfl
@[simp] theorem startOp_portMap (o : OpRec) : (startOp s o).portMap = s.portMap := rfl
@[simp] theorem startOp_partErr (o : OpRec) : (startOp s o).partErr = s.partErr := rfl
@[simp] theorem startOp_busy (o : OpRec) : (startOp s o).busy = s.busy := rfl
@[simp] theorem startOp_heldWrites (o : OpRec) : (startOp s o).heldWrites = s.heldWrites := rfl
@[simp] theorem startOp_boot (o : OpRec) : (startOp s o).boot = s.boot := rfl
@[simp] theorem startOp_fwHash (o : OpRec) : (startOp s o).fwHash = s.fwHash := rfl
@[simp] theorem startOp_fwImage (o : OpRec) : (startOp s o).fwImage = s.fwImage := rfl
@[simp] theorem startOp_pwrLimit (o : OpRec) : (startOp s o).pwrLimit = s.pwrLimit := rfl
@[simp] theorem startOp_minClk (o : OpRec) : (startOp s o).minClk = s.minClk := rfl
@[simp] theorem startOp_watts (o : OpRec) : (startOp s o).watts = s.watts := rfl
@[simp] theorem startOp_stepping (o : OpRec) : (startOp s o).stepping = s.stepping := rfl
@[simp] theorem startOp_hostMsgs (o : OpRec) : (startOp s o).hostMsgs = s.hostMsgs := rfl
@[simp] theorem startOp_mcOps (o : OpRec) : (startOp s o).mcOps = s.mcOps := rfl
@[simp] theorem startOp_agenda (o : OpRec) : (startOp s o).agenda = s.agenda := rfl
@[simp] theorem startOp_cur (o : OpRec) : (startOp s o).cur = s.cur := rfl
@[simp] theorem startOp_clk (o : OpRec) : (startOp s o).clk = s.clk := rfl
@[simp] theorem startOp_hist (o : OpRec) : (startOp s o).hist = s.hist := rfl
@[simp] theorem startOp_know (o : OpRec) : (startOp s o).know = s.know := rfl
@[simp] theorem startOp_scOrder (o : OpRec) : (startOp s o).scOrder = s.scOrder := rfl
@[simp] theorem startOp_privOrder (o : OpRec) : (startOp s o).privOrder = s.privOrder := rfl
@[simp] theorem startOp_stores (o : OpRec) : (startOp s o).stores = s.stores := rfl
@[simp] theorem startOp_icinvs (o : OpRec) : (startOp s o).icinvs = s.icinvs := rfl
@[simp] theorem startOp_ends (o : OpRec) : (startOp s o).ends = s.ends := rfl
@[simp] theorem startOp_shares (o : OpRec) : (startOp s o).shares = s.shares := rfl
@[simp] theorem startOp_fresh (o : OpRec) : (startOp s o).fresh = s.fresh := rfl

/-! ## completeOp -/

@[simp] theorem completeOp_mem (id : Nat) : (completeOp s id).mem = s.mem := by
  unfold completeOp; split <;> rfl
@[simp] theorem completeOp_poison (id : Nat) : (completeOp s id).poison = s.poison := by
  unfold completeOp; split <;> rfl
@[simp] theorem completeOp_nibbles (id : Nat) : (completeOp s id).nibbles = s.nibbles := by
  unfold completeOp; split <;> rfl
@[simp] theorem completeOp_inband (id : Nat) : (completeOp s id).inband = s.inband := by
  unfold completeOp; split <;> rfl
@[simp] theorem completeOp_teams (id : Nat) : (completeOp s id).teams = s.teams := by
  unfold completeOp; split <;> rfl
@[simp] theorem completeOp_nodes (id : Nat) : (completeOp s id).nodes = s.nodes := by
  unfold completeOp; split <;> rfl
@[simp] theorem completeOp_entries (id : Nat) : (completeOp s id).entries = s.entries := by
  unfold completeOp; split <;> rfl
@[simp] theorem completeOp_jobs (id : Nat) : (completeOp s id).jobs = s.jobs := by
  unfold completeOp; split <;> rfl
@[simp] theorem completeOp_tiles (id : Nat) : (completeOp s id).tiles = s.tiles := by
  unfold completeOp; split <;> rfl
@[simp] theorem completeOp_parts (id : Nat) : (completeOp s id).parts = s.parts := by
  unfold completeOp; split <;> rfl
@[simp] theorem completeOp_clusters (id : Nat) : (completeOp s id).clusters = s.clusters := by
  unfold completeOp; split <;> rfl
@[simp] theorem completeOp_cores (id : Nat) : (completeOp s id).cores = s.cores := by
  unfold completeOp; split <;> rfl
@[simp] theorem completeOp_adapters (id : Nat) : (completeOp s id).adapters = s.adapters := by
  unfold completeOp; split <;> rfl
@[simp] theorem completeOp_ports (id : Nat) : (completeOp s id).ports = s.ports := by
  unfold completeOp; split <;> rfl
@[simp] theorem completeOp_partCfg (id : Nat) : (completeOp s id).partCfg = s.partCfg := by
  unfold completeOp; split <;> rfl
@[simp] theorem completeOp_portMap (id : Nat) : (completeOp s id).portMap = s.portMap := by
  unfold completeOp; split <;> rfl
@[simp] theorem completeOp_partErr (id : Nat) : (completeOp s id).partErr = s.partErr := by
  unfold completeOp; split <;> rfl
@[simp] theorem completeOp_busy (id : Nat) : (completeOp s id).busy = s.busy := by
  unfold completeOp; split <;> rfl
@[simp] theorem completeOp_heldWrites (id : Nat) : (completeOp s id).heldWrites = s.heldWrites := by
  unfold completeOp; split <;> rfl
@[simp] theorem completeOp_boot (id : Nat) : (completeOp s id).boot = s.boot := by
  unfold completeOp; split <;> rfl
@[simp] theorem completeOp_fwHash (id : Nat) : (completeOp s id).fwHash = s.fwHash := by
  unfold completeOp; split <;> rfl
@[simp] theorem completeOp_fwImage (id : Nat) : (completeOp s id).fwImage = s.fwImage := by
  unfold completeOp; split <;> rfl
@[simp] theorem completeOp_pwrLimit (id : Nat) : (completeOp s id).pwrLimit = s.pwrLimit := by
  unfold completeOp; split <;> rfl
@[simp] theorem completeOp_minClk (id : Nat) : (completeOp s id).minClk = s.minClk := by
  unfold completeOp; split <;> rfl
@[simp] theorem completeOp_watts (id : Nat) : (completeOp s id).watts = s.watts := by
  unfold completeOp; split <;> rfl
@[simp] theorem completeOp_stepping (id : Nat) : (completeOp s id).stepping = s.stepping := by
  unfold completeOp; split <;> rfl
@[simp] theorem completeOp_hostMsgs (id : Nat) : (completeOp s id).hostMsgs = s.hostMsgs := by
  unfold completeOp; split <;> rfl
@[simp] theorem completeOp_mcOps (id : Nat) : (completeOp s id).mcOps = s.mcOps := by
  unfold completeOp; split <;> rfl
@[simp] theorem completeOp_agenda (id : Nat) : (completeOp s id).agenda = s.agenda := by
  unfold completeOp; split <;> rfl
@[simp] theorem completeOp_cur (id : Nat) : (completeOp s id).cur = s.cur := by
  unfold completeOp; split <;> rfl
@[simp] theorem completeOp_clk (id : Nat) : (completeOp s id).clk = s.clk := by
  unfold completeOp; split <;> rfl
@[simp] theorem completeOp_hist (id : Nat) : (completeOp s id).hist = s.hist := by
  unfold completeOp; split <;> rfl
@[simp] theorem completeOp_know (id : Nat) : (completeOp s id).know = s.know := by
  unfold completeOp; split <;> rfl
@[simp] theorem completeOp_scOrder (id : Nat) : (completeOp s id).scOrder = s.scOrder := by
  unfold completeOp; split <;> rfl
@[simp] theorem completeOp_privOrder (id : Nat) : (completeOp s id).privOrder = s.privOrder := by
  unfold completeOp; split <;> rfl
@[simp] theorem completeOp_stores (id : Nat) : (completeOp s id).stores = s.stores := by
  unfold completeOp; split <;> rfl
@[simp] theorem completeOp_icinvs (id : Nat) : (completeOp s id).icinvs = s.icinvs := by
  unfold completeOp; split <;> rfl
@[simp] theorem completeOp_ends (id : Nat) : (completeOp s id).ends = s.ends := by
  unfold completeOp; split <;> rfl
@[simp] theorem completeOp_shares (id : Nat) : (completeOp s id).shares = s.shares := by
  unfold completeOp; split <;> rfl
@[simp] theorem completeOp_fresh (id : Nat) : (completeOp s id).fresh = s.fresh := by
  unfold completeOp; split <;> rfl
@[simp] theorem completeOp_order (id : Nat) : (completeOp s id).order = s.order := by
  unfold completeOp; split <;> rfl

/-! ## l1Take -/

@[simp] theorem l1Take_mem (core sec : Nat) : (l1Take s core sec).mem = s.mem := by
  simp only [l1Take]; split <;> rfl
@[simp] theorem l1Take_poison (core sec : Nat) : (l1Take s core sec).poison = s.poison := by
  simp only [l1Take]; split <;> rfl
@[simp] theorem l1Take_nibbles (core sec : Nat) : (l1Take s core sec).nibbles = s.nibbles := by
  simp only [l1Take]; split <;> rfl
@[simp] theorem l1Take_inband (core sec : Nat) : (l1Take s core sec).inband = s.inband := by
  simp only [l1Take]; split <;> rfl
@[simp] theorem l1Take_groups (core sec : Nat) : (l1Take s core sec).groups = s.groups := by
  simp only [l1Take]; split <;> rfl
@[simp] theorem l1Take_teams (core sec : Nat) : (l1Take s core sec).teams = s.teams := by
  simp only [l1Take]; split <;> rfl
@[simp] theorem l1Take_nodes (core sec : Nat) : (l1Take s core sec).nodes = s.nodes := by
  simp only [l1Take]; split <;> rfl
@[simp] theorem l1Take_entries (core sec : Nat) : (l1Take s core sec).entries = s.entries := by
  simp only [l1Take]; split <;> rfl
@[simp] theorem l1Take_jobs (core sec : Nat) : (l1Take s core sec).jobs = s.jobs := by
  simp only [l1Take]; split <;> rfl
@[simp] theorem l1Take_ops (core sec : Nat) : (l1Take s core sec).ops = s.ops := by
  simp only [l1Take]; split <;> rfl
@[simp] theorem l1Take_tiles (core sec : Nat) : (l1Take s core sec).tiles = s.tiles := by
  simp only [l1Take]; split <;> rfl
@[simp] theorem l1Take_parts (core sec : Nat) : (l1Take s core sec).parts = s.parts := by
  simp only [l1Take]; split <;> rfl
@[simp] theorem l1Take_clusters (core sec : Nat) : (l1Take s core sec).clusters = s.clusters := by
  simp only [l1Take]; split <;> rfl
@[simp] theorem l1Take_adapters (core sec : Nat) : (l1Take s core sec).adapters = s.adapters := by
  simp only [l1Take]; split <;> rfl
@[simp] theorem l1Take_ports (core sec : Nat) : (l1Take s core sec).ports = s.ports := by
  simp only [l1Take]; split <;> rfl
@[simp] theorem l1Take_partCfg (core sec : Nat) : (l1Take s core sec).partCfg = s.partCfg := by
  simp only [l1Take]; split <;> rfl
@[simp] theorem l1Take_portMap (core sec : Nat) : (l1Take s core sec).portMap = s.portMap := by
  simp only [l1Take]; split <;> rfl
@[simp] theorem l1Take_partErr (core sec : Nat) : (l1Take s core sec).partErr = s.partErr := by
  simp only [l1Take]; split <;> rfl
@[simp] theorem l1Take_busy (core sec : Nat) : (l1Take s core sec).busy = s.busy := by
  simp only [l1Take]; split <;> rfl
@[simp] theorem l1Take_heldWrites (core sec : Nat) : (l1Take s core sec).heldWrites = s.heldWrites := by
  simp only [l1Take]; split <;> rfl
@[simp] theorem l1Take_boot (core sec : Nat) : (l1Take s core sec).boot = s.boot := by
  simp only [l1Take]; split <;> rfl
@[simp] theorem l1Take_fwHash (core sec : Nat) : (l1Take s core sec).fwHash = s.fwHash := by
  simp only [l1Take]; split <;> rfl
@[simp] theorem l1Take_fwImage (core sec : Nat) : (l1Take s core sec).fwImage = s.fwImage := by
  simp only [l1Take]; split <;> rfl
@[simp] theorem l1Take_pwrLimit (core sec : Nat) : (l1Take s core sec).pwrLimit = s.pwrLimit := by
  simp only [l1Take]; split <;> rfl
@[simp] theorem l1Take_minClk (core sec : Nat) : (l1Take s core sec).minClk = s.minClk := by
  simp only [l1Take]; split <;> rfl
@[simp] theorem l1Take_watts (core sec : Nat) : (l1Take s core sec).watts = s.watts := by
  simp only [l1Take]; split <;> rfl
@[simp] theorem l1Take_stepping (core sec : Nat) : (l1Take s core sec).stepping = s.stepping := by
  simp only [l1Take]; split <;> rfl
@[simp] theorem l1Take_hostMsgs (core sec : Nat) : (l1Take s core sec).hostMsgs = s.hostMsgs := by
  simp only [l1Take]; split <;> rfl
@[simp] theorem l1Take_mcOps (core sec : Nat) : (l1Take s core sec).mcOps = s.mcOps := by
  simp only [l1Take]; split <;> rfl
@[simp] theorem l1Take_agenda (core sec : Nat) : (l1Take s core sec).agenda = s.agenda := by
  simp only [l1Take]; split <;> rfl
@[simp] theorem l1Take_cur (core sec : Nat) : (l1Take s core sec).cur = s.cur := by
  simp only [l1Take]; split <;> rfl
@[simp] theorem l1Take_clk (core sec : Nat) : (l1Take s core sec).clk = s.clk := by
  simp only [l1Take]; split <;> rfl
@[simp] theorem l1Take_hist (core sec : Nat) : (l1Take s core sec).hist = s.hist := by
  simp only [l1Take]; split <;> rfl
@[simp] theorem l1Take_know (core sec : Nat) : (l1Take s core sec).know = s.know := by
  simp only [l1Take]; split <;> rfl
@[simp] theorem l1Take_scOrder (core sec : Nat) : (l1Take s core sec).scOrder = s.scOrder := by
  simp only [l1Take]; split <;> rfl
@[simp] theorem l1Take_privOrder (core sec : Nat) : (l1Take s core sec).privOrder = s.privOrder := by
  simp only [l1Take]; split <;> rfl
@[simp] theorem l1Take_stores (core sec : Nat) : (l1Take s core sec).stores = s.stores := by
  simp only [l1Take]; split <;> rfl
@[simp] theorem l1Take_icinvs (core sec : Nat) : (l1Take s core sec).icinvs = s.icinvs := by
  simp only [l1Take]; split <;> rfl
@[simp] theorem l1Take_ends (core sec : Nat) : (l1Take s core sec).ends = s.ends := by
  simp only [l1Take]; split <;> rfl
@[simp] theorem l1Take_shares (core sec : Nat) : (l1Take s core sec).shares = s.shares := by
  simp only [l1Take]; split <;> rfl
@[simp] theorem l1Take_fresh (core sec : Nat) : (l1Take s core sec).fresh = s.fresh := by
  simp only [l1Take]; split <;> rfl
@[simp] theorem l1Take_order (core sec : Nat) : (l1Take s core sec).order = s.order := by
  simp only [l1Take]; split <;> rfl

/-! ## noteRead -/

@[simp] theorem noteRead_mem (ag : Agent) (ms : List (Msg × Nat)) : (noteRead s ag ms).mem = s.mem := by
  simp only [noteRead]; split <;> rfl
@[simp] theorem noteRead_poison (ag : Agent) (ms : List (Msg × Nat)) : (noteRead s ag ms).poison = s.poison := by
  simp only [noteRead]; split <;> rfl
@[simp] theorem noteRead_nibbles (ag : Agent) (ms : List (Msg × Nat)) : (noteRead s ag ms).nibbles = s.nibbles := by
  simp only [noteRead]; split <;> rfl
@[simp] theorem noteRead_inband (ag : Agent) (ms : List (Msg × Nat)) : (noteRead s ag ms).inband = s.inband := by
  simp only [noteRead]; split <;> rfl
@[simp] theorem noteRead_groups (ag : Agent) (ms : List (Msg × Nat)) : (noteRead s ag ms).groups = s.groups := by
  simp only [noteRead]; split <;> rfl
@[simp] theorem noteRead_teams (ag : Agent) (ms : List (Msg × Nat)) : (noteRead s ag ms).teams = s.teams := by
  simp only [noteRead]; split <;> rfl
@[simp] theorem noteRead_nodes (ag : Agent) (ms : List (Msg × Nat)) : (noteRead s ag ms).nodes = s.nodes := by
  simp only [noteRead]; split <;> rfl
@[simp] theorem noteRead_entries (ag : Agent) (ms : List (Msg × Nat)) : (noteRead s ag ms).entries = s.entries := by
  simp only [noteRead]; split <;> rfl
@[simp] theorem noteRead_jobs (ag : Agent) (ms : List (Msg × Nat)) : (noteRead s ag ms).jobs = s.jobs := by
  simp only [noteRead]; split <;> rfl
@[simp] theorem noteRead_ops (ag : Agent) (ms : List (Msg × Nat)) : (noteRead s ag ms).ops = s.ops := by
  simp only [noteRead]; split <;> rfl
@[simp] theorem noteRead_tiles (ag : Agent) (ms : List (Msg × Nat)) : (noteRead s ag ms).tiles = s.tiles := by
  simp only [noteRead]; split <;> rfl
@[simp] theorem noteRead_parts (ag : Agent) (ms : List (Msg × Nat)) : (noteRead s ag ms).parts = s.parts := by
  simp only [noteRead]; split <;> rfl
@[simp] theorem noteRead_clusters (ag : Agent) (ms : List (Msg × Nat)) : (noteRead s ag ms).clusters = s.clusters := by
  simp only [noteRead]; split <;> rfl
@[simp] theorem noteRead_cores (ag : Agent) (ms : List (Msg × Nat)) : (noteRead s ag ms).cores = s.cores := by
  simp only [noteRead]; split <;> rfl
@[simp] theorem noteRead_adapters (ag : Agent) (ms : List (Msg × Nat)) : (noteRead s ag ms).adapters = s.adapters := by
  simp only [noteRead]; split <;> rfl
@[simp] theorem noteRead_ports (ag : Agent) (ms : List (Msg × Nat)) : (noteRead s ag ms).ports = s.ports := by
  simp only [noteRead]; split <;> rfl
@[simp] theorem noteRead_partCfg (ag : Agent) (ms : List (Msg × Nat)) : (noteRead s ag ms).partCfg = s.partCfg := by
  simp only [noteRead]; split <;> rfl
@[simp] theorem noteRead_portMap (ag : Agent) (ms : List (Msg × Nat)) : (noteRead s ag ms).portMap = s.portMap := by
  simp only [noteRead]; split <;> rfl
@[simp] theorem noteRead_partErr (ag : Agent) (ms : List (Msg × Nat)) : (noteRead s ag ms).partErr = s.partErr := by
  simp only [noteRead]; split <;> rfl
@[simp] theorem noteRead_busy (ag : Agent) (ms : List (Msg × Nat)) : (noteRead s ag ms).busy = s.busy := by
  simp only [noteRead]; split <;> rfl
@[simp] theorem noteRead_heldWrites (ag : Agent) (ms : List (Msg × Nat)) : (noteRead s ag ms).heldWrites = s.heldWrites := by
  simp only [noteRead]; split <;> rfl
@[simp] theorem noteRead_boot (ag : Agent) (ms : List (Msg × Nat)) : (noteRead s ag ms).boot = s.boot := by
  simp only [noteRead]; split <;> rfl
@[simp] theorem noteRead_fwHash (ag : Agent) (ms : List (Msg × Nat)) : (noteRead s ag ms).fwHash = s.fwHash := by
  simp only [noteRead]; split <;> rfl
@[simp] theorem noteRead_fwImage (ag : Agent) (ms : List (Msg × Nat)) : (noteRead s ag ms).fwImage = s.fwImage := by
  simp only [noteRead]; split <;> rfl
@[simp] theorem noteRead_pwrLimit (ag : Agent) (ms : List (Msg × Nat)) : (noteRead s ag ms).pwrLimit = s.pwrLimit := by
  simp only [noteRead]; split <;> rfl
@[simp] theorem noteRead_minClk (ag : Agent) (ms : List (Msg × Nat)) : (noteRead s ag ms).minClk = s.minClk := by
  simp only [noteRead]; split <;> rfl
@[simp] theorem noteRead_watts (ag : Agent) (ms : List (Msg × Nat)) : (noteRead s ag ms).watts = s.watts := by
  simp only [noteRead]; split <;> rfl
@[simp] theorem noteRead_stepping (ag : Agent) (ms : List (Msg × Nat)) : (noteRead s ag ms).stepping = s.stepping := by
  simp only [noteRead]; split <;> rfl
@[simp] theorem noteRead_hostMsgs (ag : Agent) (ms : List (Msg × Nat)) : (noteRead s ag ms).hostMsgs = s.hostMsgs := by
  simp only [noteRead]; split <;> rfl
@[simp] theorem noteRead_mcOps (ag : Agent) (ms : List (Msg × Nat)) : (noteRead s ag ms).mcOps = s.mcOps := by
  simp only [noteRead]; split <;> rfl
@[simp] theorem noteRead_agenda (ag : Agent) (ms : List (Msg × Nat)) : (noteRead s ag ms).agenda = s.agenda := by
  simp only [noteRead]; split <;> rfl
@[simp] theorem noteRead_cur (ag : Agent) (ms : List (Msg × Nat)) : (noteRead s ag ms).cur = s.cur := by
  simp only [noteRead]; split <;> rfl
@[simp] theorem noteRead_clk (ag : Agent) (ms : List (Msg × Nat)) : (noteRead s ag ms).clk = s.clk := by
  simp only [noteRead]; split <;> rfl
@[simp] theorem noteRead_hist (ag : Agent) (ms : List (Msg × Nat)) : (noteRead s ag ms).hist = s.hist := by
  simp only [noteRead]; split <;> rfl
@[simp] theorem noteRead_scOrder (ag : Agent) (ms : List (Msg × Nat)) : (noteRead s ag ms).scOrder = s.scOrder := by
  simp only [noteRead]; split <;> rfl
@[simp] theorem noteRead_privOrder (ag : Agent) (ms : List (Msg × Nat)) : (noteRead s ag ms).privOrder = s.privOrder := by
  simp only [noteRead]; split <;> rfl
@[simp] theorem noteRead_stores (ag : Agent) (ms : List (Msg × Nat)) : (noteRead s ag ms).stores = s.stores := by
  simp only [noteRead]; split <;> rfl
@[simp] theorem noteRead_icinvs (ag : Agent) (ms : List (Msg × Nat)) : (noteRead s ag ms).icinvs = s.icinvs := by
  simp only [noteRead]; split <;> rfl
@[simp] theorem noteRead_ends (ag : Agent) (ms : List (Msg × Nat)) : (noteRead s ag ms).ends = s.ends := by
  simp only [noteRead]; split <;> rfl
@[simp] theorem noteRead_shares (ag : Agent) (ms : List (Msg × Nat)) : (noteRead s ag ms).shares = s.shares := by
  simp only [noteRead]; split <;> rfl
@[simp] theorem noteRead_fresh (ag : Agent) (ms : List (Msg × Nat)) : (noteRead s ag ms).fresh = s.fresh := by
  simp only [noteRead]; split <;> rfl
@[simp] theorem noteRead_order (ag : Agent) (ms : List (Msg × Nat)) : (noteRead s ag ms).order = s.order := by
  simp only [noteRead]; split <;> rfl

/-! ## learn -/

@[simp] theorem learn_mem (ag : Agent) (ids : List Nat) : (learn s ag ids).mem = s.mem := by
  simp only [learn]; split <;> rfl
@[simp] theorem learn_poison (ag : Agent) (ids : List Nat) : (learn s ag ids).poison = s.poison := by
  simp only [learn]; split <;> rfl
@[simp] theorem learn_nibbles (ag : Agent) (ids : List Nat) : (learn s ag ids).nibbles = s.nibbles := by
  simp only [learn]; split <;> rfl
@[simp] theorem learn_inband (ag : Agent) (ids : List Nat) : (learn s ag ids).inband = s.inband := by
  simp only [learn]; split <;> rfl
@[simp] theorem learn_groups (ag : Agent) (ids : List Nat) : (learn s ag ids).groups = s.groups := by
  simp only [learn]; split <;> rfl
@[simp] theorem learn_teams (ag : Agent) (ids : List Nat) : (learn s ag ids).teams = s.teams := by
  simp only [learn]; split <;> rfl
@[simp] theorem learn_nodes (ag : Agent) (ids : List Nat) : (learn s ag ids).nodes = s.nodes := by
  simp only [learn]; split <;> rfl
@[simp] theorem learn_entries (ag : Agent) (ids : List Nat) : (learn s ag ids).entries = s.entries := by
  simp only [learn]; split <;> rfl
@[simp] theorem learn_jobs (ag : Agent) (ids : List Nat) : (learn s ag ids).jobs = s.jobs := by
  simp only [learn]; split <;> rfl
@[simp] theorem learn_ops (ag : Agent) (ids : List Nat) : (learn s ag ids).ops = s.ops := by
  simp only [learn]; split <;> rfl
@[simp] theorem learn_tiles (ag : Agent) (ids : List Nat) : (learn s ag ids).tiles = s.tiles := by
  simp only [learn]; split <;> rfl
@[simp] theorem learn_parts (ag : Agent) (ids : List Nat) : (learn s ag ids).parts = s.parts := by
  simp only [learn]; split <;> rfl
@[simp] theorem learn_clusters (ag : Agent) (ids : List Nat) : (learn s ag ids).clusters = s.clusters := by
  simp only [learn]; split <;> rfl
@[simp] theorem learn_cores (ag : Agent) (ids : List Nat) : (learn s ag ids).cores = s.cores := by
  simp only [learn]; split <;> rfl
@[simp] theorem learn_adapters (ag : Agent) (ids : List Nat) : (learn s ag ids).adapters = s.adapters := by
  simp only [learn]; split <;> rfl
@[simp] theorem learn_ports (ag : Agent) (ids : List Nat) : (learn s ag ids).ports = s.ports := by
  simp only [learn]; split <;> rfl
@[simp] theorem learn_partCfg (ag : Agent) (ids : List Nat) : (learn s ag ids).partCfg = s.partCfg := by
  simp only [learn]; split <;> rfl
@[simp] theorem learn_portMap (ag : Agent) (ids : List Nat) : (learn s ag ids).portMap = s.portMap := by
  simp only [learn]; split <;> rfl
@[simp] theorem learn_partErr (ag : Agent) (ids : List Nat) : (learn s ag ids).partErr = s.partErr := by
  simp only [learn]; split <;> rfl
@[simp] theorem learn_busy (ag : Agent) (ids : List Nat) : (learn s ag ids).busy = s.busy := by
  simp only [learn]; split <;> rfl
@[simp] theorem learn_heldWrites (ag : Agent) (ids : List Nat) : (learn s ag ids).heldWrites = s.heldWrites := by
  simp only [learn]; split <;> rfl
@[simp] theorem learn_boot (ag : Agent) (ids : List Nat) : (learn s ag ids).boot = s.boot := by
  simp only [learn]; split <;> rfl
@[simp] theorem learn_fwHash (ag : Agent) (ids : List Nat) : (learn s ag ids).fwHash = s.fwHash := by
  simp only [learn]; split <;> rfl
@[simp] theorem learn_fwImage (ag : Agent) (ids : List Nat) : (learn s ag ids).fwImage = s.fwImage := by
  simp only [learn]; split <;> rfl
@[simp] theorem learn_pwrLimit (ag : Agent) (ids : List Nat) : (learn s ag ids).pwrLimit = s.pwrLimit := by
  simp only [learn]; split <;> rfl
@[simp] theorem learn_minClk (ag : Agent) (ids : List Nat) : (learn s ag ids).minClk = s.minClk := by
  simp only [learn]; split <;> rfl
@[simp] theorem learn_watts (ag : Agent) (ids : List Nat) : (learn s ag ids).watts = s.watts := by
  simp only [learn]; split <;> rfl
@[simp] theorem learn_stepping (ag : Agent) (ids : List Nat) : (learn s ag ids).stepping = s.stepping := by
  simp only [learn]; split <;> rfl
@[simp] theorem learn_hostMsgs (ag : Agent) (ids : List Nat) : (learn s ag ids).hostMsgs = s.hostMsgs := by
  simp only [learn]; split <;> rfl
@[simp] theorem learn_mcOps (ag : Agent) (ids : List Nat) : (learn s ag ids).mcOps = s.mcOps := by
  simp only [learn]; split <;> rfl
@[simp] theorem learn_agenda (ag : Agent) (ids : List Nat) : (learn s ag ids).agenda = s.agenda := by
  simp only [learn]; split <;> rfl
@[simp] theorem learn_cur (ag : Agent) (ids : List Nat) : (learn s ag ids).cur = s.cur := by
  simp only [learn]; split <;> rfl
@[simp] theorem learn_clk (ag : Agent) (ids : List Nat) : (learn s ag ids).clk = s.clk := by
  simp only [learn]; split <;> rfl
@[simp] theorem learn_hist (ag : Agent) (ids : List Nat) : (learn s ag ids).hist = s.hist := by
  simp only [learn]; split <;> rfl
@[simp] theorem learn_scOrder (ag : Agent) (ids : List Nat) : (learn s ag ids).scOrder = s.scOrder := by
  simp only [learn]; split <;> rfl
@[simp] theorem learn_privOrder (ag : Agent) (ids : List Nat) : (learn s ag ids).privOrder = s.privOrder := by
  simp only [learn]; split <;> rfl
@[simp] theorem learn_stores (ag : Agent) (ids : List Nat) : (learn s ag ids).stores = s.stores := by
  simp only [learn]; split <;> rfl
@[simp] theorem learn_icinvs (ag : Agent) (ids : List Nat) : (learn s ag ids).icinvs = s.icinvs := by
  simp only [learn]; split <;> rfl
@[simp] theorem learn_ends (ag : Agent) (ids : List Nat) : (learn s ag ids).ends = s.ends := by
  simp only [learn]; split <;> rfl
@[simp] theorem learn_shares (ag : Agent) (ids : List Nat) : (learn s ag ids).shares = s.shares := by
  simp only [learn]; split <;> rfl
@[simp] theorem learn_fresh (ag : Agent) (ids : List Nat) : (learn s ag ids).fresh = s.fresh := by
  simp only [learn]; split <;> rfl
@[simp] theorem learn_order (ag : Agent) (ids : List Nat) : (learn s ag ids).order = s.order := by
  simp only [learn]; split <;> rfl

/-! ## acquire -/

@[simp] theorem acquire_mem (ag : Agent) (scope : Nat) (rels : List RelInfo) : (acquire s ag scope rels).mem = s.mem := learn_mem s ag _
@[simp] theorem acquire_poison (ag : Agent) (scope : Nat) (rels : List RelInfo) : (acquire s ag scope rels).poison = s.poison := learn_poison s ag _
@[simp] theorem acquire_nibbles (ag : Agent) (scope : Nat) (rels : List RelInfo) : (acquire s ag scope rels).nibbles = s.nibbles := learn_nibbles s ag _
@[simp] theorem acquire_inband (ag : Agent) (scope : Nat) (rels : List RelInfo) : (acquire s ag scope rels).inband = s.inband := learn_inband s ag _
@[simp] theorem acquire_groups (ag : Agent) (scope : Nat) (rels : List RelInfo) : (acquire s ag scope rels).groups = s.groups := learn_groups s ag _
@[simp] theorem acquire_teams (ag : Agent) (scope : Nat) (rels : List RelInfo) : (acquire s ag scope rels).teams = s.teams := learn_teams s ag _
@[simp] theorem acquire_nodes (ag : Agent) (scope : Nat) (rels : List RelInfo) : (acquire s ag scope rels).nodes = s.nodes := learn_nodes s ag _
@[simp] theorem acquire_entries (ag : Agent) (scope : Nat) (rels : List RelInfo) : (acquire s ag scope rels).entries = s.entries := learn_entries s ag _
@[simp] theorem acquire_jobs (ag : Agent) (scope : Nat) (rels : List RelInfo) : (acquire s ag scope rels).jobs = s.jobs := learn_jobs s ag _
@[simp] theorem acquire_ops (ag : Agent) (scope : Nat) (rels : List RelInfo) : (acquire s ag scope rels).ops = s.ops := learn_ops s ag _
@[simp] theorem acquire_tiles (ag : Agent) (scope : Nat) (rels : List RelInfo) : (acquire s ag scope rels).tiles = s.tiles := learn_tiles s ag _
@[simp] theorem acquire_parts (ag : Agent) (scope : Nat) (rels : List RelInfo) : (acquire s ag scope rels).parts = s.parts := learn_parts s ag _
@[simp] theorem acquire_clusters (ag : Agent) (scope : Nat) (rels : List RelInfo) : (acquire s ag scope rels).clusters = s.clusters := learn_clusters s ag _
@[simp] theorem acquire_cores (ag : Agent) (scope : Nat) (rels : List RelInfo) : (acquire s ag scope rels).cores = s.cores := learn_cores s ag _
@[simp] theorem acquire_adapters (ag : Agent) (scope : Nat) (rels : List RelInfo) : (acquire s ag scope rels).adapters = s.adapters := learn_adapters s ag _
@[simp] theorem acquire_ports (ag : Agent) (scope : Nat) (rels : List RelInfo) : (acquire s ag scope rels).ports = s.ports := learn_ports s ag _
@[simp] theorem acquire_partCfg (ag : Agent) (scope : Nat) (rels : List RelInfo) : (acquire s ag scope rels).partCfg = s.partCfg := learn_partCfg s ag _
@[simp] theorem acquire_portMap (ag : Agent) (scope : Nat) (rels : List RelInfo) : (acquire s ag scope rels).portMap = s.portMap := learn_portMap s ag _
@[simp] theorem acquire_partErr (ag : Agent) (scope : Nat) (rels : List RelInfo) : (acquire s ag scope rels).partErr = s.partErr := learn_partErr s ag _
@[simp] theorem acquire_busy (ag : Agent) (scope : Nat) (rels : List RelInfo) : (acquire s ag scope rels).busy = s.busy := learn_busy s ag _
@[simp] theorem acquire_heldWrites (ag : Agent) (scope : Nat) (rels : List RelInfo) : (acquire s ag scope rels).heldWrites = s.heldWrites := learn_heldWrites s ag _
@[simp] theorem acquire_boot (ag : Agent) (scope : Nat) (rels : List RelInfo) : (acquire s ag scope rels).boot = s.boot := learn_boot s ag _
@[simp] theorem acquire_fwHash (ag : Agent) (scope : Nat) (rels : List RelInfo) : (acquire s ag scope rels).fwHash = s.fwHash := learn_fwHash s ag _
@[simp] theorem acquire_fwImage (ag : Agent) (scope : Nat) (rels : List RelInfo) : (acquire s ag scope rels).fwImage = s.fwImage := learn_fwImage s ag _
@[simp] theorem acquire_pwrLimit (ag : Agent) (scope : Nat) (rels : List RelInfo) : (acquire s ag scope rels).pwrLimit = s.pwrLimit := learn_pwrLimit s ag _
@[simp] theorem acquire_minClk (ag : Agent) (scope : Nat) (rels : List RelInfo) : (acquire s ag scope rels).minClk = s.minClk := learn_minClk s ag _
@[simp] theorem acquire_watts (ag : Agent) (scope : Nat) (rels : List RelInfo) : (acquire s ag scope rels).watts = s.watts := learn_watts s ag _
@[simp] theorem acquire_stepping (ag : Agent) (scope : Nat) (rels : List RelInfo) : (acquire s ag scope rels).stepping = s.stepping := learn_stepping s ag _
@[simp] theorem acquire_hostMsgs (ag : Agent) (scope : Nat) (rels : List RelInfo) : (acquire s ag scope rels).hostMsgs = s.hostMsgs := learn_hostMsgs s ag _
@[simp] theorem acquire_mcOps (ag : Agent) (scope : Nat) (rels : List RelInfo) : (acquire s ag scope rels).mcOps = s.mcOps := learn_mcOps s ag _
@[simp] theorem acquire_agenda (ag : Agent) (scope : Nat) (rels : List RelInfo) : (acquire s ag scope rels).agenda = s.agenda := learn_agenda s ag _
@[simp] theorem acquire_cur (ag : Agent) (scope : Nat) (rels : List RelInfo) : (acquire s ag scope rels).cur = s.cur := learn_cur s ag _
@[simp] theorem acquire_clk (ag : Agent) (scope : Nat) (rels : List RelInfo) : (acquire s ag scope rels).clk = s.clk := learn_clk s ag _
@[simp] theorem acquire_hist (ag : Agent) (scope : Nat) (rels : List RelInfo) : (acquire s ag scope rels).hist = s.hist := learn_hist s ag _
@[simp] theorem acquire_scOrder (ag : Agent) (scope : Nat) (rels : List RelInfo) : (acquire s ag scope rels).scOrder = s.scOrder := learn_scOrder s ag _
@[simp] theorem acquire_privOrder (ag : Agent) (scope : Nat) (rels : List RelInfo) : (acquire s ag scope rels).privOrder = s.privOrder := learn_privOrder s ag _
@[simp] theorem acquire_stores (ag : Agent) (scope : Nat) (rels : List RelInfo) : (acquire s ag scope rels).stores = s.stores := learn_stores s ag _
@[simp] theorem acquire_icinvs (ag : Agent) (scope : Nat) (rels : List RelInfo) : (acquire s ag scope rels).icinvs = s.icinvs := learn_icinvs s ag _
@[simp] theorem acquire_ends (ag : Agent) (scope : Nat) (rels : List RelInfo) : (acquire s ag scope rels).ends = s.ends := learn_ends s ag _
@[simp] theorem acquire_shares (ag : Agent) (scope : Nat) (rels : List RelInfo) : (acquire s ag scope rels).shares = s.shares := learn_shares s ag _
@[simp] theorem acquire_fresh (ag : Agent) (scope : Nat) (rels : List RelInfo) : (acquire s ag scope rels).fresh = s.fresh := learn_fresh s ag _
@[simp] theorem acquire_order (ag : Agent) (scope : Nat) (rels : List RelInfo) : (acquire s ag scope rels).order = s.order := learn_order s ag _

end Sys2Proof.Machine
end

