-- ==== Sys2Proof/Laws/Paths.lean ====
section
/-!
SUPPORT. The issuing path: what the parts of its issue are in the state, and what retiring makes of its group.
-/
namespace Sys2Proof.Machine
open Sys2Proof.Claims

theorem issOf_spec {s : State} {q : PathId} {c : Iss} (h : issOf s q = some c) :
    c.gid = q.gid ∧ c.live = q.live ∧ getGroup s c.gid = some c.g ∧ c.g.live c.live = some c.p
      ∧ getTeam s c.g.team = some c.t ∧ c.core = c.t.core.getD 0 ∧ c.part = c.t.part ∧ c.ctx = c.t.ctx := by
  unfold issOf at h
  split at h
  · cases h
  · split at h
    · cases h; simp_all
    · cases h

theorem issuer_spec {s : State} {c : Iss} (h : issuer s = some c) :
    s.cur = some ⟨c.gid, c.live⟩ ∧ getGroup s c.gid = some c.g ∧ c.g.live c.live = some c.p
      ∧ getTeam s c.g.team = some c.t ∧ c.core = c.t.core.getD 0 ∧ c.part = c.t.part ∧ c.ctx = c.t.ctx := by
  unfold issuer at h
  split at h
  · cases h
  · rename_i q hq
    obtain ⟨hg, hl, h⟩ := issOf_spec h
    refine ⟨?_, h⟩
    rw [hq, hg, hl]

theorem onPath_issuer {s : State} {c : Iss} (h : issuer s = some c) (f : Iss → State) : onPath s f = .next (f c) := by
  simp [onPath, h]

/-! ## Changes of the group -/

theorem getGroup_modGroup (s : State) (k j : Nat) (f : Group → Group) :
    getGroup (modGroup s k f) j = if j = k then (getGroup s k).map f else getGroup s j := by
  simp [getGroup, modGroup, spFind_spMod]

theorem modGroup_modGroup (s : State) (k : Nat) (f g : Group → Group) :
    modGroup (modGroup s k f) k g = modGroup s k fun x => g (f x) := by
  simp [modGroup, spMod_spMod]

theorem modGroup_const {s : State} {k : Nat} {g : Group} (f : Group → Group) (h : getGroup s k = some g) :
    modGroup s k f = modGroup s k fun _ => f g := by
  simp only [modGroup, getGroup] at *; rw [spMod_const _ _ _ h]

@[simp] theorem setLive_live_self (g : Group) (n : Nat) (p : Option Path) : (g.setLive n p).live n = p := by
  simp only [Group.live, Group.setLive]; split <;> simp_all

theorem retire_eq {s : State} {c : Iss} (h : issuer s = some c) : retire s c = modGroup s c.gid fun _ => behind c := by
  obtain ⟨-, hg, hp, -⟩ := issuer_spec h
  rw [retire, modGroup_const _ hg, hp]; rfl

/-- A change of the group that keeps its paths, and then the retirement. -/
theorem retire_modGroup {s : State} {c : Iss} {F : Group → Group} (h : issuer s = some c)
    (hl : (F c.g).live c.live = c.g.live c.live) :
    retire (modGroup s c.gid F) c
      = modGroup s c.gid fun _ => countRetired ((F c.g).setLive c.live (some (advance c.p))) (atClauseEnd c.p) := by
  obtain ⟨-, hg, hp, -⟩ := issuer_spec h
  rw [retire, modGroup_modGroup, modGroup_const _ hg, hl, hp]; rfl

theorem branchTo_eq {s : State} {c : Iss} (h : issuer s = some c) (t : Nat) :
    branchTo s c t = modGroup s c.gid fun _ => atClause c t := by
  obtain ⟨-, hg, hp, -⟩ := issuer_spec h
  rw [branchTo, modGroup_const _ hg, hp]; rfl

end Sys2Proof.Machine
end

