-- ==== Sys2Proof/Laws/Values.lean ====
section
/-!
SUPPORT. What the shared shape of the value instructions does: the registers it writes, and that it leaves the rest of the
machine alone.
-/
namespace Sys2Proof.Claims
open Sys2Proof.Machine

/-! ## Lanes -/

theorem mem_lanesOf {m : Mask} {l : Nat} : l ∈ lanesOf m ↔ l < 64 ∧ m.getLsbD l = true := by
  simp [lanesOf]

/-! ## One register write -/

theorem key_inj {r r' l l' : Nat} (h : l < 64) (h' : l' < 64) : r * 64 + l = r' * 64 + l' ↔ r = r' ∧ l = l' := by omega

theorem toNat_ofNat32 (x : Nat) : (BitVec.ofNat 32 x).toNat = x % 2 ^ 32 := by simp

theorem getV_setV (g : Group) (r r' l l' x : Nat) (b : Bool) (h : l < 64) (h' : l' < 64) :
    (g.setV r l x b).getV r' l' = if r' = r ∧ l' = l then x % 2 ^ 32 else g.getV r' l' := by
  simp only [Group.getV, Group.setV, spGet_spSet, key_inj h' h]; split <;> simp

theorem badV_setV (g : Group) (r r' l l' x : Nat) (b : Bool) (h : l < 64) (h' : l' < 64) :
    (g.setV r l x b).badV r' l' = if r' = r ∧ l' = l then b else g.badV r' l' := by
  simp only [Group.badV, Group.setV, spGet_spSet, key_inj h' h]

theorem getS_setS (g : Group) (r r' x : Nat) (b : Bool) :
    (g.setS r x b).getS r' = if r' = r then x % 2 ^ 32 else g.getS r' := by
  simp only [Group.getS, Group.setS, spGet_spSet]; split <;> simp

theorem badS_setS (g : Group) (r r' x : Nat) (b : Bool) :
    (g.setS r x b).badS r' = if r' = r then b else g.badS r' := by
  simp only [Group.badS, Group.setS, spGet_spSet]

@[simp] theorem getS_setV (g : Group) (r l x r' : Nat) (b : Bool) : (g.setV r l x b).getS r' = g.getS r' := rfl
@[simp] theorem badS_setV (g : Group) (r l x r' : Nat) (b : Bool) : (g.setV r l x b).badS r' = g.badS r' := rfl
@[simp] theorem predMask_setV (g : Group) (r l x p : Nat) (b : Bool) : (g.setV r l x b).predMask p = g.predMask p := rfl
@[simp] theorem getV_setS (g : Group) (r x r' l : Nat) (b : Bool) : (g.setS r x b).getV r' l = g.getV r' l := rfl
@[simp] theorem badV_setS (g : Group) (r x r' l : Nat) (b : Bool) : (g.setS r x b).badV r' l = g.badV r' l := rfl
@[simp] theorem predMask_setS (g : Group) (r x p : Nat) (b : Bool) : (g.setS r x b).predMask p = g.predMask p := rfl

/-! ## Writes one after another -/

theorem Wrote.refl (g : Group) : Wrote g g noVec noSca noPred := ⟨rfl, by simp [noVec], by simp [noVec], by simp [noSca], by simp [noSca], by simp [noPred]⟩

/-- Later writes lie over earlier ones. -/
theorem Wrote.trans {g g' g'' : Group} {V V' : VecWrites} {S S' : ScaWrites} {P P' : PredWrites}
    (h : Wrote g g' V S P) (h' : Wrote g' g'' V' S' P') :
    Wrote g g'' (fun r l => (V' r l).orElse fun _ => V r l) (fun r => (S' r).orElse fun _ => S r)
      (fun p l => (P' p l).orElse fun _ => P p l) where
  rest := by
    have h1 := h.rest; have h2 := h'.rest
    rw [← h2] at h1; simpa using h1
  vec r l hl := by rw [h'.vec r l hl, h.vec r l hl]; cases V' r l <;> simp
  vbad r l hl := by rw [h'.vbad r l hl, h.vbad r l hl]; cases V' r l <;> simp
  sca r := by rw [h'.sca r, h.sca r]; cases S' r <;> simp
  sbad r := by rw [h'.sbad r, h.sbad r]; cases S' r <;> simp
  pre p l hp hl := by rw [h'.pre p l hp hl, h.pre p l hp hl]; cases P' p l <;> simp

/-- Writes that are the same in every lane of the machine are the same. -/
theorem Wrote.congr {g g' : Group} {V V' : VecWrites} {S S' : ScaWrites} {P P' : PredWrites} (h : Wrote g g' V S P)
    (hV : ∀ r l, l < 64 → V' r l = V r l) (hS : ∀ r, S' r = S r) (hP : ∀ p l, p < 48 → l < 64 → P' p l = P p l) :
    Wrote g g' V' S' P' where
  rest := h.rest
  vec r l hl := by rw [hV r l hl]; exact h.vec r l hl
  vbad r l hl := by rw [hV r l hl]; exact h.vbad r l hl
  sca r := by rw [hS r]; exact h.sca r
  sbad r := by rw [hS r]; exact h.sbad r
  pre p l hp hl := by rw [hP p l hp hl]; exact h.pre p l hp hl

/-- The paths and counts of a group do not matter to the writes. -/
theorem Wrote.behind {c : Iss} {g' : Group} {V : VecWrites} {S : ScaWrites} {P : PredWrites} (h : Wrote c.g g' V S P) :
    Wrote (behind c) (countRetired (g'.setLive c.live (some (advance c.p))) (atClauseEnd c.p)) V S P where
  rest := by
    have h1 := h.rest
    simp only [Claims.behind, Group.setLive, countRetired] at *
    rw [← h1]
    by_cases hn : c.live = 0 <;> simp [hn]
  vec r l hl := by
    have := h.vec r l hl
    simp only [Claims.behind, Group.setLive, countRetired, Group.getV] at *
    by_cases hn : c.live = 0 <;> simpa [hn] using this
  vbad r l hl := by
    have := h.vbad r l hl
    simp only [Claims.behind, Group.setLive, countRetired, Group.badV] at *
    by_cases hn : c.live = 0 <;> simpa [hn] using this
  sca r := by
    have := h.sca r
    simp only [Claims.behind, Group.setLive, countRetired, Group.getS] at *
    by_cases hn : c.live = 0 <;> simpa [hn] using this
  sbad r := by
    have := h.sbad r
    simp only [Claims.behind, Group.setLive, countRetired, Group.badS] at *
    by_cases hn : c.live = 0 <;> simpa [hn] using this
  pre p l hp hl := by
    have := h.pre p l hp hl
    simp only [Claims.behind, Group.setLive, countRetired, Group.predMask] at *
    by_cases hn : c.live = 0 <;> simpa [hn] using this

theorem Wrote.setV (g : Group) (r l x : Nat) (hl : l < 64) :
    Wrote g (g.setV r l x) (fun r' l' => if r' = r ∧ l' = l then some (x % 2 ^ 32) else none) noSca noPred where
  rest := rfl
  vec r' l' h' := by rw [getV_setV _ _ _ _ _ _ _ hl h']; split <;> simp
  vbad r' l' h' := by rw [badV_setV _ _ _ _ _ _ _ hl h']; split <;> simp
  sca _ := by simp [noSca]
  sbad _ := by simp [noSca]
  pre _ _ _ _ := by simp [noPred]

theorem Wrote.setS (g : Group) (r x : Nat) :
    Wrote g (g.setS r x) noVec (fun r' => if r' = r then some (x % 2 ^ 32) else none) noPred where
  rest := rfl
  vec _ _ _ := by simp [noVec]
  vbad _ _ _ := by simp [noVec]
  sca r' := by rw [getS_setS]; split <;> simp
  sbad r' := by rw [badS_setS]; split <;> simp
  pre _ _ _ _ := by simp [noPred]

theorem Wrote.setPred (g : Group) (p : Nat) (lanes ones : Mask) :
    Wrote g (g.setPred p lanes ones) noVec noSca
      (fun p' l => if p ≠ 63 ∧ p' = p ∧ lanes.getLsbD l = true then some (ones.getLsbD l) else none) where
  rest := by unfold Group.setPred; split <;> rfl
  vec _ _ _ := by unfold Group.setPred; split <;> simp [noVec, Group.getV]
  vbad _ _ _ := by unfold Group.setPred; split <;> simp [noVec, Group.badV]
  sca _ := by unfold Group.setPred; split <;> simp [noSca, Group.getS]
  sbad _ := by unfold Group.setPred; split <;> simp [noSca, Group.badS]
  pre p' l hp hl := by
    unfold Group.setPred
    by_cases h : p = 63
    · simp [h]
    · have hp' : p' ≠ 63 := by omega
      simp only [h, if_false, Group.predMask, hp', spGet_spSet]
      by_cases hq : p' = p
      · subst hq
        simp only [if_true, ne_eq, h, not_false_eq_true, true_and]
        cases hb : lanes.getLsbD l <;> simp [hb]; omega
      · simp [hq]

/-! ## Destinations -/

theorem opnd_v {code : BitVec 9} (h : code.toNat < 0x100) : opnd code = .v code.toNat := by simp [opnd, h]

theorem opnd_s {code : BitVec 9} (h : 0x100 ≤ code.toNat) (h' : code.toNat < 0x140) : opnd code = .s (code.toNat - 0x100) := by
  have : ¬code.toNat < 0x100 := by omega
  simp [opnd, this, h']

theorem opnd_not_v {code : BitVec 9} {n : Nat} (h : ¬code.toNat < 0x100) : opnd code ≠ .v n := by
  unfold opnd; simp only [h, if_false]; repeat' split
  all_goals simp

theorem opnd_not_s {code : BitVec 9} {n : Nat} (h : ¬(0x100 ≤ code.toNat ∧ code.toNat < 0x140)) : opnd code ≠ .s n := by
  unfold opnd; simp only []; repeat' split
  all_goals first | omega | simp

theorem Wrote.writeLane (g : Group) (wide : Bool) (code : BitVec 9) (l x : Nat) (hl : l < 64) :
    Wrote g (Machine.writeLane g wide (opnd code) l x)
      (fun r l' => if l' = l then regWrite code wide x r else none) noSca noPred := by
  by_cases hv : code.toNat < 0x100
  · rw [opnd_v hv]
    cases wide
    · refine (Wrote.setV g code.toNat l x hl).congr ?_ (fun _ => rfl) (fun _ _ _ _ => rfl)
      intro r l' hl'
      by_cases h1 : l' = l <;> by_cases h2 : r = code.toNat <;> simp [regWrite, hv, h1, h2]
    · refine ((Wrote.setV g code.toNat l (x % 2 ^ 32) hl).trans (Wrote.setV _ (code.toNat + 1) l (x / 2 ^ 32) hl)).congr ?_ ?_ ?_
      · intro r l' hl'
        simp only [regWrite, hv, if_true, true_and]
        by_cases h1 : l' = l
        · by_cases h2 : r = code.toNat + 1
          · subst h2; simp [h1]
          · simp [h1, h2]
        · simp [h1]
      · intro r; simp [noSca]
      · intro p l' _ _; simp [noPred]
  · have hne : Machine.writeLane g wide (opnd code) l x = g := by
      unfold Machine.writeLane; split
      · rename_i n hn; exact absurd hn (opnd_not_v hv)
      · rfl
    rw [hne]
    refine (Wrote.refl g).congr ?_ (fun _ => rfl) (fun _ _ _ _ => rfl)
    intro r l' _; simp [regWrite, hv, noVec]

theorem Wrote.writeScal (g : Group) (wide : Bool) (code : BitVec 9) (x : Nat) :
    Wrote g (Machine.writeScal g wide (opnd code) x) noVec (toSca code wide x) noPred := by
  by_cases hv : 0x100 ≤ code.toNat ∧ code.toNat < 0x140
  · rw [opnd_s hv.1 hv.2]
    cases wide
    · refine (Wrote.setS g (code.toNat - 0x100) x).congr (fun _ _ _ => rfl) ?_ (fun _ _ _ _ => rfl)
      intro r; by_cases h2 : r = code.toNat - 0x100 <;> simp [toSca, hv, h2]
    · refine ((Wrote.setS g (code.toNat - 0x100) (x % 2 ^ 32)).trans (Wrote.setS _ (code.toNat - 0x100 + 1) (x / 2 ^ 32))).congr ?_ ?_ ?_
      · intro r l' _; simp [noVec]
      · intro r
        by_cases h2 : r = code.toNat - 0x100 <;> by_cases h3 : r = code.toNat - 0x100 + 1 <;> simp [toSca, hv, h2, h3]
      · intro p l' _ _; simp [noPred]
  · have hne : Machine.writeScal g wide (opnd code) x = g := by
      unfold Machine.writeScal; split
      · rename_i n hn; exact absurd hn (opnd_not_s hv)
      · rfl
    rw [hne]
    refine (Wrote.refl g).congr (fun _ _ _ => rfl) ?_ (fun _ _ _ _ => rfl)
    intro r; simp [toSca, hv, noSca]

/-- Lanes written one after another, each with its own value. -/
theorem Wrote.lanes (g : Group) (wide : Bool) (code : BitVec 9) (val : Nat → Nat) :
    ∀ ls : List Nat, (∀ l ∈ ls, l < 64) →
      Wrote g (ls.foldl (fun g l => Machine.writeLane g wide (opnd code) l (val l)) g)
        (fun r l => if l ∈ ls then regWrite code wide (val l) r else none) noSca noPred := by
  intro ls
  induction ls generalizing g with
  | nil => intro _; exact (Wrote.refl g).congr (by intro r l _; simp [noVec]) (fun _ => rfl) (fun _ _ _ _ => rfl)
  | cons a r ih =>
    intro h
    have ha : a < 64 := h a (by simp)
    refine ((Wrote.writeLane g wide code a (val a) ha).trans (ih _ (fun l hl => h l (by simp [hl])))).congr ?_ ?_ ?_
    · intro q l hl
      by_cases h1 : l ∈ r
      · simp only [h1, List.mem_cons, or_true, if_true]
        cases hw : regWrite code wide (val l) q with
        | some x => simp
        | none =>
          have : regWrite code wide (val a) q = none := by
            simp only [regWrite] at hw ⊢
            split at hw
            · rename_i hc
              rw [if_pos hc]
              split at hw
              · cases hw
              · rename_i h2
                rw [if_neg h2]; split at hw
                · cases hw
                · rename_i h3; rw [if_neg h3]
            · rename_i hc; rw [if_neg hc]
          simp [this]
      · by_cases h2 : l = a
        · subst h2; simp [h1]
        · simp [h1, h2]
    · intro q; simp [noSca]
    · intro p l _ _; simp [noPred]

/-- The lanes of a mask written, each with its own value. -/
theorem Wrote.mask (g : Group) (wide : Bool) (code : BitVec 9) (act : Mask) (val : Nat → Nat) :
    Wrote g ((lanesOf act).foldl (fun g l => Machine.writeLane g wide (opnd code) l (val l)) g)
      (toVec code wide act val) noSca noPred := by
  refine (Wrote.lanes g wide code val (lanesOf act) (fun l h => (mem_lanesOf.1 h).1)).congr ?_ (fun _ => rfl) (fun _ _ _ _ => rfl)
  intro r l hl
  by_cases h : act.getLsbD l = true
  · simp [mem_lanesOf, h, hl, toVec]
  · simp [mem_lanesOf, h, toVec]

/-! ## Masks of lanes -/

theorem getLsbD_laneBit {l k : Nat} (hk : k < 64) : (laneBit l).getLsbD k = decide (k = l) := by
  simp only [laneBit, BitVec.getLsbD_ofNat, hk, decide_true, Bool.true_and, Nat.testBit_two_pow]
  exact decide_eq_decide.2 eq_comm

theorem getLsbD_foldl_or (ls : List Nat) (k : Nat) (hk : k < 64) (m : Mask) :
    (ls.foldl (fun m l => m ||| laneBit l) m).getLsbD k = (m.getLsbD k || decide (k ∈ ls)) := by
  induction ls generalizing m with
  | nil => simp
  | cons a r ih =>
    rw [List.foldl_cons, ih]
    simp [getLsbD_laneBit hk, Bool.or_assoc, Bool.decide_or]

theorem getLsbD_maskWhere (act : Mask) (t : Nat → Bool) (k : Nat) (hk : k < 64) :
    (maskWhere (lanesOf act) t).getLsbD k = (act.getLsbD k && t k) := by
  unfold maskWhere maskOf
  rw [getLsbD_foldl_or _ k hk]
  simp only [List.mem_filter, mem_lanesOf, hk]
  cases act.getLsbD k <;> cases t k <;> simp

/-! ## Value instructions -/

theorem live_of_rest {g g' : Group} (h : { g' with vregs := g.vregs, vpoison := g.vpoison, sregs := g.sregs, spoison := g.spoison, preds := g.preds } = g)
    (n : Nat) : g'.live n = g.live n := by
  rw [← h]; rfl

/-- A group whose registers took some writes, and then the retirement of its path. -/
theorem retire_wrote {s : State} {c : Iss} {F : Group → Group} {V : VecWrites} {S : ScaWrites} {P : PredWrites}
    (h : issuer s = some c) (hw : Wrote c.g (F c.g) V S P) :
    ∃ g', retire (modGroup s c.gid F) c = modGroup s c.gid (fun _ => g') ∧ Wrote (behind c) g' V S P :=
  ⟨_, retire_modGroup h (live_of_rest hw.rest _), hw.behind⟩

theorem result_wrote (v : ValueOp) (s : State) (c : Iss) (act : Mask) (g : Group) (u : Bool)
    (hu : u = true → v.dst.isVecReg = false) (hs : u = false → v.dst.isScalar = false) :
    Wrote g (v.result u s c act g) (vecOf v s c act) (scaOf v s c act) (predOf v u s c act) := by
  obtain ⟨dst, srcs, preds, legal, fn⟩ := v
  cases dst with
  | reg code wide =>
    cases u
    · have hns : ∀ n, opnd code ≠ .s n := by
        intro n hn; have := hs rfl; simp [Dst.isScalar, hn, Opnd.isScalarReg] at this
      have hS : toSca code wide (ValueOp.value ⟨.reg code wide, srcs, preds, legal, fn⟩ s c (lowLane act)) = noSca := by
        funext r; simp only [toSca, noSca]; split
        · rename_i h; exact absurd (opnd_s h.1 h.2) (hns _)
        · rfl
      simp only [ValueOp.result, Bool.false_eq_true, if_false, ValueOp.writeVec, vecOf, scaOf, predOf, hS]
      exact Wrote.mask g wide code act _
    · have hnv : ∀ n, opnd code ≠ .v n := by
        intro n hn; have := hu rfl; simp [Dst.isVecReg, hn, Opnd.isVec] at this
      have hV : toVec code wide act (ValueOp.value ⟨.reg code wide, srcs, preds, legal, fn⟩ s c) = noVec := by
        funext r l; simp only [toVec, regWrite, noVec]; split
        · split
          · rename_i h; exact absurd (opnd_v h) (hnv _)
          · rfl
        · rfl
      simp only [ValueOp.result, if_true, ValueOp.writeOnce, vecOf, scaOf, predOf, hV]
      exact Wrote.writeScal g wide code _
  | pred code =>
    cases u
    · simp only [ValueOp.result, Bool.false_eq_true, if_false, ValueOp.writeVec, vecOf, scaOf, predOf]
      refine (Wrote.setPred g code.toNat act _).congr (fun _ _ _ => rfl) (fun _ => rfl) ?_
      intro p l _ hl
      simp only [toPred, getLsbD_maskWhere _ _ _ hl]
      by_cases h : act.getLsbD l = true <;> simp [h]
    · simp only [ValueOp.result, if_true, ValueOp.writeOnce, vecOf, scaOf, predOf]
      refine (Wrote.setPred g code.toNat act _).congr (fun _ _ _ => rfl) (fun _ => rfl) ?_
      intro p l _ _
      simp only [toPred]
      by_cases h : act.getLsbD l = true
      · cases hx : (ValueOp.value ⟨.pred code, srcs, preds, legal, fn⟩ s c (lowLane act) != 0) <;> simp [h]
      · simp [h]

/-- A value instruction whose checks pass writes its results and goes on. -/
theorem runValue_done {s : State} {c : Iss} {f : Fields} {vo : Bool} {v : ValueOp} (h : issuer s = some c)
    (hok : v.ok c f = true) (hact : active c f ≠ 0) (hcl : clean v c (active c f))
    (hd : vo = true → v.dst.isScalar = false) :
    ∃ g', runValue s c f vo v = modGroup s c.gid (fun _ => g') ∧
      Wrote (behind c) g' (vecOf v s c (active c f)) (scaOf v s c (active c f))
        (predOf v (!vo && v.onScalar) s c (active c f)) := by
  have hf : (lanesOf (active c f)).find? (v.badIn c) = none := by
    rw [List.find?_eq_none]; intro l hl; simp [hcl l hl]
  simp only [runValue, hok, Bool.not_true, Bool.false_eq_true, if_false, hact, hf]
  refine retire_wrote h (result_wrote v s c _ _ _ ?_ ?_)
  · intro hu; simp [ValueOp.onScalar] at hu; exact hu.2.2
  · intro hu
    cases vo
    · simp [ValueOp.onScalar] at hu
      simp only [ValueOp.ok, Bool.and_eq_true, Bool.not_eq_true', Bool.and_eq_false_iff] at hok
      rcases hok.2 with h | h
      · exact h
      · have := hu h
        cases hdst : v.dst with
        | reg code w =>
          simp [hdst, Dst.isVecReg] at this
          simp [Dst.isScalar]; cases ho : opnd code <;> simp_all [Opnd.isVec, Opnd.isScalarReg]
        | pred _ => rfl
    · exact hd rfl

end Sys2Proof.Claims
end

