-- ==== Sys2Proof/Laws/Computes.lean ====
section
/-!
SUPPORT. Sources of value instructions are words of their width, and two value instructions that agree on words of those
widths compute the same.
-/
namespace Sys2Proof.Claims
open Sys2Proof.Machine

/-- Width in bits of an operand type. -/
def tyBits (ty : Ty) : Nat := if ty.wide then 64 else 32

theorem getV_lt (g : Group) (r l : Nat) : g.getV r l < 2 ^ 32 := (spGet 0 g.vregs (r * 64 + l)).isLt
theorem getS_lt (g : Group) (r : Nat) : g.getS r < 2 ^ 32 := (spGet 0 g.sregs r).isLt

theorem specVal_narrow_lt (s : State) (c : Iss) (code l : Nat) : specVal s c false code l < 2 ^ 32 := by
  simp only [specVal, Bool.false_eq_true, if_false]
  split <;> first
    | exact Nat.mod_lt _ (by decide)
    | (have := c.p.mask.isLt; omega)

theorem specVal_wide_lt (s : State) (c : Iss) (code l : Nat) : specVal s c true code l < 2 ^ 64 := by
  simp only [specVal, if_true]
  split <;> first
    | exact Nat.mod_lt _ (by decide)
    | exact lt_trans (Nat.mod_lt _ (by decide)) (by decide : 2 ^ 32 < 2 ^ 64)
    | (have := c.p.mask.isLt; omega)

theorem tyInt_all (ty : Ty) : ((List.range 64).all fun n => Nat.blt (tyInt ty n) (2 ^ tyBits ty)) = true := by
  cases ty <;> decide +kernel

theorem fltConst_all (ty : Ty) : ((List.range 16).all fun n => Nat.blt (tyConst ty (fltConst n)) (2 ^ tyBits ty)) = true := by
  cases ty <;> decide +kernel

theorem tyInt_lt (ty : Ty) (n : Nat) (h : n < 64) : tyInt ty n < 2 ^ tyBits ty := by
  exact Nat.le_of_ble_eq_true (List.all_eq_true.1 (tyInt_all ty) n (List.mem_range.2 h))

theorem fltConst_lt (ty : Ty) (n : Nat) (h : n < 16) : tyConst ty (fltConst n) < 2 ^ tyBits ty := by
  exact Nat.le_of_ble_eq_true (List.all_eq_true.1 (fltConst_all ty) n (List.mem_range.2 h))

/-- The number of a constant that a code names. -/
def constBound : Opnd → Bool
  | .int n => decide (n < 64)
  | .flt n => decide (n < 16)
  | _ => true

theorem opnd_bound (code : BitVec 9) : constBound (opnd code) = true := by
  unfold opnd
  dsimp only
  generalize code.toNat = n
  unfold constBound
  split_ifs <;> first | exact decide_eq_true (by omega) | rfl

/-- A source is a word of the width of its type. -/
theorem srcVal_lt (s : State) (c : Iss) (ty : Ty) (code : BitVec 9) (l : Nat) :
    srcVal s c ty (opnd code) l < 2 ^ tyBits ty := by
  unfold srcVal
  split
  · have h1 := getV_lt c.g; unfold tyBits; split
    · rename_i n _ _; have := h1 n l; have := h1 (n + 1) l; omega
    · exact h1 _ _
  · have h1 := getS_lt c.g; unfold tyBits; split
    · rename_i n _ _; have := h1 n; have := h1 (n + 1); omega
    · exact h1 _
  · unfold tyBits; split
    · exact specVal_wide_lt _ _ _ _
    · exact specVal_wide_lt _ _ _ _
    · cases ty <;> first | exact specVal_narrow_lt _ _ _ _ | simp_all
  · rename_i h; have := opnd_bound code; rw [h] at this; exact tyInt_lt ty _ (of_decide_eq_true this)
  · rename_i h; have := opnd_bound code; rw [h] at this; exact fltConst_lt ty _ (of_decide_eq_true this)
  · exact Nat.two_pow_pos _

/-- Values that fit the sources of a value instruction. -/
def Fits (srcs : List (BitVec 9 × Ty)) (xs : List Nat) : Prop := List.Forall₂ (fun e x => x < 2 ^ tyBits e.2) srcs xs

theorem fits_srcs (s : State) (c : Iss) (l : Nat) (srcs : List (BitVec 9 × Ty)) :
    Fits srcs (srcs.map fun e => srcVal s c e.2 (opnd e.1) l) := by
  unfold Fits
  induction srcs with
  | nil => exact .nil
  | cons e r ih => exact .cons (srcVal_lt _ _ _ _ _) ih

/-- Two value instructions with the same operands and checks that compute the same from values that fit. -/
structure Alike (v w : ValueOp) : Prop where
  dst : v.dst = w.dst
  srcs : v.srcs = w.srcs
  preds : v.preds = w.preds
  legal : v.legal = w.legal
  fn : ∀ xs ps, Fits v.srcs xs → v.fn xs ps = w.fn xs ps

theorem Alike.value {v w : ValueOp} (h : Alike v w) (s : State) (c : Iss) (l : Nat) : v.value s c l = w.value s c l := by
  unfold ValueOp.value
  rw [h.fn _ _ (fits_srcs s c l v.srcs), h.srcs, h.preds]

/-- The lowest lane of a mask at which a test holds. -/
theorem find_lowest {m : Mask} {t : Nat → Bool} {l : Nat} (hl : l ∈ lanesOf m) (ht : t l = true)
    (hk : ∀ k ∈ lanesOf m, k < l → t k = false) : (lanesOf m).find? t = some l := by
  have hs : (lanesOf m).Pairwise (· < ·) := List.Pairwise.filter _ List.pairwise_lt_range
  revert hl hk hs
  generalize lanesOf m = ls
  intro hl hk hs
  induction ls with
  | nil => cases hl
  | cons a r ih =>
    rw [List.pairwise_cons] at hs
    rcases List.mem_cons.mp hl with rfl | h
    · simp [ht]
    · rw [List.find?_cons, hk a (List.mem_cons_self ..) (hs.1 l h)]
      exact ih h (fun k hk' => hk k (List.mem_cons_of_mem _ hk')) hs.2

section
variable {i : Instr} {f : Fields} {vo : Bool} {v w : Iss → ValueOp} (hi : ∀ s, exec i s = onPath s fun c => runValue s c f vo (w c))
include hi

/-- The instruction i runs the value instruction w, and v is alike: then v says what i computes. -/
theorem runs_of (hd : vo = true → ∀ c, (w c).ok c f = true → (w c).dst.isScalar = false)
    (h : ∀ c, Alike (v c) (w c)) : Runs i f vo v := by
  intro s c hc hok hact hcl
  have hal := h c
  have hok' : (w c).ok c f = true := by
    simpa only [ValueOp.ok, ValueOp.anyVec, hal.dst, hal.srcs, hal.preds, hal.legal] using hok
  have hcl' : clean (w c) c (active c f) := by
    simpa only [clean, ValueOp.badIn, hal.srcs] using hcl
  obtain ⟨g', hg, hw⟩ := runValue_done hc hok' hact hcl' (fun hvo => hd hvo c hok')
  refine ⟨g', ?_, ?_⟩
  · rw [hi, onPath, hc]; exact congrArg _ hg
  · have hv : (v c).value s c = (w c).value s c := funext fun l => hal.value s c l
    have hu : (v c).onScalar = (w c).onScalar := by
      simp only [ValueOp.onScalar, ValueOp.anyVec, hal.dst, hal.srcs]
    simpa only [vecOf, scaOf, predOf, hal.dst, hv, hu] using hw

theorem refuses_of (h : ∀ c, Alike (v c) (w c)) : Refuses i f vo v := by
  intro s c hc
  have hal := h c
  have hok : (v c).ok c f = (w c).ok c f := by
    simp only [ValueOp.ok, ValueOp.anyVec, hal.dst, hal.srcs, hal.preds, hal.legal]
  have hb : (v c).badIn c = (w c).badIn c := by funext l; simp only [ValueOp.badIn, hal.srcs]
  have hu : (v c).onScalar = (w c).onScalar := by simp only [ValueOp.onScalar, ValueOp.anyVec, hal.dst, hal.srcs]
  rw [hok, hb, hu]
  refine ⟨fun h1 => ?_, fun h1 h2 => ?_, fun h1 l hl hbl hk => ?_⟩
  · rw [hi, onPath_issuer hc]; simp [runValue, h1]
  · rw [Goes, hi, onPath_issuer hc, ← retire_eq hc]; simp [runValue, h1, h2]
  · have ha : active c f ≠ 0 := by rintro h0; rw [h0] at hl; simp [lanesOf] at hl
    rw [hi, onPath_issuer hc]; simp [runValue, h1, find_lowest hl hbl hk]; exact fun h0 => absurd h0 ha

theorem computes_of (hd : vo = true → ∀ c, (w c).ok c f = true → (w c).dst.isScalar = false)
    (h : ∀ c, Alike (v c) (w c)) : Computes i f vo v := ⟨runs_of hi hd h, refuses_of hi h⟩

end

end Sys2Proof.Claims
end

