-- ==== Sys2Proof/Laws/Control.lean ====
section
/-!
SUPPORT. Laws of branches: the target of a relative one, and the list of targets of an indirect one.
-/
namespace Sys2Proof.Machine
open Sys2Proof.Claims

/-- The target of a relative branch, in words and in plain arithmetic. -/
theorem relTarget_eq {w : Nat} (p : Path) (off : BitVec w) : relTarget p off.toInt = wordTarget p off := by
  unfold relTarget wordTarget
  apply Int.ofNat_inj.1
  rw [Int.toNat_of_nonneg (Int.emod_nonneg _ (by decide))]
  have : ((BitVec.ofNat 64 p.addr + 4 * BitVec.signExtend 64 off).toNat : Int) = ((BitVec.ofNat 64 p.addr + 4 * BitVec.signExtend 64 off).toNat : Int) % (2^64 : Nat) := by
    have := (BitVec.ofNat 64 p.addr + 4 * BitVec.signExtend 64 off).isLt
    omega
  rw [this]
  have e : (BitVec.signExtend 64 off) = BitVec.ofInt 64 off.toInt := by
    rfl
  rw [e, BitVec.toNat_add, BitVec.toNat_mul, BitVec.toNat_ofNat, BitVec.toNat_ofInt]
  push_cast
  rw [Int.toNat_of_nonneg (Int.emod_nonneg _ (by decide))]
  simp [Int.add_emod, Int.mul_emod]

/-! ## The targets of an indirect branch, ascending and without repeats (08 R184) -/

theorem mem_insertNat (x y : Nat) (l : List Nat) : y ∈ insertNat x l ↔ y = x ∨ y ∈ l := by
  induction l with
  | nil => simp [insertNat]
  | cons a r ih =>
    simp only [insertNat]; split
    · simp
    · split
      · subst_vars; simp
      · simp [ih]; tauto

theorem pairwise_insertNat (x : Nat) (l : List Nat) (h : l.Pairwise (· < ·)) : (insertNat x l).Pairwise (· < ·) := by
  induction l with
  | nil => simp [insertNat]
  | cons a r ih =>
    rw [List.pairwise_cons] at h
    simp only [insertNat]; split
    · refine List.pairwise_cons.2 ⟨?_, List.pairwise_cons.2 h⟩
      intro b hb; rcases List.mem_cons.1 hb with rfl | hb
      · assumption
      · exact lt_trans ‹_› (h.1 b hb)
    · split
      · exact List.pairwise_cons.2 h
      · refine List.pairwise_cons.2 ⟨?_, ih h.2⟩
        intro b hb; rcases (mem_insertNat ..).1 hb with rfl | hb
        · omega
        · exact h.1 b hb

theorem targets_spec (ls : List Nat) (t : Nat → Nat) : (targets ls t).Pairwise (· < ·) ∧ ∀ x, x ∈ targets ls t ↔ ∃ l ∈ ls, t l = x := by
  unfold targets
  have : ∀ a : List Nat, a.Pairwise (· < ·) → (ls.foldl (fun a l => insertNat (t l) a) a).Pairwise (· < ·) ∧ ∀ x, x ∈ ls.foldl (fun a l => insertNat (t l) a) a ↔ x ∈ a ∨ ∃ l ∈ ls, t l = x := by
    induction ls with
    | nil => intro a h; simp [h]
    | cons k r ih =>
      intro a h
      obtain ⟨h1, h2⟩ := ih _ (pairwise_insertNat (t k) a h)
      refine ⟨h1, fun x => ?_⟩
      simp only [List.foldl_cons]
      rw [h2, mem_insertNat]
      simp; tauto
  simpa using this [] .nil

theorem targets_eq {ls : List Nat} {t : Nat → Nat} {ts : List Nat} (h1 : ∀ l ∈ ls, t l ∈ ts) (h2 : ∀ x ∈ ts, ∃ l ∈ ls, t l = x) (h3 : ts.Pairwise (· < ·)) : targets ls t = ts := by
  obtain ⟨a, b⟩ := targets_spec ls t
  apply List.Perm.eq_of_pairwise (le := (· < ·)) _ a h3
  · rw [List.perm_ext_iff_of_nodup]
    · intro x; rw [b]; exact ⟨fun ⟨l, hl, e⟩ => e ▸ h1 l hl, h2 x⟩
    · exact a.imp (fun h => ne_of_lt h)
    · exact h3.imp (fun h => ne_of_lt h)
  · intro x y _ _ h h'; omega

theorem indirect_eq {s c f ts} {body : (Nat → Nat) → List Nat → State} (hg : f.guardPathWide = true) (hl : indirectLegal c f = true)
  (hb : ∀ l ∈ lanesOf c.p.mask, srcBad c true (opnd f.a) l = false)
  (ht : ∀ l ∈ lanesOf c.p.mask, srcVal s c .q64 (opnd f.a) l % 4 = 0 ∧ srcVal s c .q64 (opnd f.a) l ∈ ts)
  (hx : ∀ x ∈ ts, ∃ l ∈ lanesOf c.p.mask, srcVal s c .q64 (opnd f.a) l = x) (hp : ts.Pairwise (· < ·)) :
  indirect s c f body = body (fun l => srcVal s c .q64 (opnd f.a) l) ts := by
  unfold indirect
  simp only [runPathWide, hg, hl, Bool.and_self, Bool.not_true, Bool.false_eq_true, if_false]
  rw [List.find?_eq_none.2 (by simpa using hb), List.find?_eq_none.2 (by simpa using fun l h => (ht l h).1)]
  simp only
  rw [targets_eq (fun l h => (ht l h).2) hx hp]

end Sys2Proof.Machine
end

