-- ==== Sys2Proof/Laws/Decode.lean ====
section
/-!
SUPPORT. Laws of the encoding: the fields of a long form and its bits determine each other (11 R251, R260).
-/
namespace Sys2Proof

/-- Fields are read back from the bits they are written to. -/
theorem fieldsOf_bits (f : Fields) (op : BitVec 8) : fieldsOf (op ++ f.bits) = f := by
  obtain ⟨mod, d, a, b, c, g, gn, reuse, x⟩ := f
  unfold fieldsOf Fields.bits
  simp only [Fields.mk.injEq]
  refine ⟨?_, ?_, ?_, ?_, ?_, ?_, ?_, ?_, ?_⟩ <;>
  · apply BitVec.eq_of_getLsbD_eq; intro i hi
    simp only [BitVec.getLsbD_extractLsb', BitVec.getLsbD_append, hi, decide_true, Bool.true_and]
    interval_cases i <;> simp

/-- No bit of a long form is dropped. -/
theorem bits_fieldsOf (w : BitVec 64) : w.extractLsb' 56 8 ++ (fieldsOf w).bits = w := by
  unfold fieldsOf Fields.bits
  apply BitVec.eq_of_getLsbD_eq; intro i hi
  simp only [BitVec.getLsbD_extractLsb', BitVec.getLsbD_append]
  interval_cases i <;> simp

/-- The opcode is read back from the bits it is written to. -/
theorem opOf_bits (f : Fields) (op : BitVec 8) : opOf (op ++ f.bits) = op.toNat := by
  unfold opOf
  congr 1
  apply BitVec.eq_of_getLsbD_eq; intro i hi
  simp only [BitVec.getLsbD_extractLsb', BitVec.getLsbD_append, hi, decide_true, Bool.true_and]
  simp

end Sys2Proof
end

