-- ==== Sys2Proof/Laws/Memory.lean ====
section
/-!
SUPPORT. Laws of memory: reading a byte after a write, and that every operation which writes memory, its poison or its
compression metadata keeps their canonical form, which reset has.
-/
namespace Sys2Proof.Machine

/-! ## Read after write -/

theorem memByte_memPut (m : List Host.Cell) (k j : Nat) (b : Byte) :
    memByte (memPut m k b) j = if j = k then b else memByte m j := spGet_spSet 0 m k j b

@[simp] theorem memByte_memPut_self (m : List Host.Cell) (k : Nat) (b : Byte) : memByte (memPut m k b) k = b := by
  simp [memByte_memPut]

/-- A write of bytes is read back, and leaves every other byte. -/
theorem memByte_memPutAll (m : List Host.Cell) (k j : Nat) (bs : List Byte) :
    memByte (memPutAll m k bs) j = if k ≤ j ∧ j < k + bs.length then bs.getD (j - k) 0 else memByte m j := by
  induction bs generalizing m k with
  | nil =>
    simp [memPutAll]
  | cons b r ih =>
    rw [memPutAll, ih, memByte_memPut, List.length_cons]
    by_cases h : j = k
    · subst h
      simp
    · by_cases h1 : k + 1 ≤ j ∧ j < k + 1 + r.length
      · have h2 : k ≤ j ∧ j < k + (r.length + 1) := by omega
        obtain ⟨n, hn⟩ : ∃ n, j - k = n + 1 := ⟨j - k - 1, by omega⟩
        rw [if_pos h1, if_pos h2, hn, List.getD_cons_succ]
        congr 1; omega
      · have h2 : ¬(k ≤ j ∧ j < k + (r.length + 1)) := by omega
        rw [if_neg h1, if_neg h2, if_neg h]

/-! ## The canonical form -/

theorem memPut_wf {m : List Host.Cell} (k : Nat) (b : Byte) (h : Memory.wf m = true) : Memory.wf (memPut m k b) = true :=
  spWf_spSet k b h

theorem memPutAll_wf {m : List Host.Cell} (k : Nat) (bs : List Byte) (h : Memory.wf m = true) :
    Memory.wf (memPutAll m k bs) = true := by
  induction bs generalizing m k with
  | nil => exact h
  | cons b r ih => exact ih _ (memPut_wf k b h)

end Sys2Proof.Machine

namespace Sys2Proof.Claims
open Sys2Proof.Machine

theorem canonical_reset : Canonical State.reset := ⟨by decide, by decide, by decide⟩

/-- What leaves memory, poison and nibbles leaves the canonical form. -/
theorem Canonical.same {s t : State} (h : Canonical s) (hm : t.mem = s.mem) (hp : t.poison = s.poison)
    (hn : t.nibbles = s.nibbles) : Canonical t := by
  simp only [Canonical, hm, hp, hn]; exact h

theorem Canonical.mem {s : State} (h : Canonical s) {m : List Host.Cell} (hm : Memory.wf m = true) :
    Canonical { s with mem := m } := ⟨hm, h.2.1, h.2.2⟩

theorem Canonical.modPart {s : State} (h : Canonical s) (p : Nat) (f : Partition → Partition) : Canonical (modPart s p f) := h

theorem Canonical.setPoison {s : State} (h : Canonical s) (loc : Nat) (on : Bool) : Canonical (setPoison s loc on) :=
  ⟨h.1, spWf_spSet _ _ h.2.1, h.2.2⟩

/-- A fold of steps that keep the canonical form keeps it. -/
theorem Canonical.foldl {α : Type} {f : State → α → State} (hf : ∀ s a, Canonical s → Canonical (f s a)) (l : List α)
    {s : State} (h : Canonical s) : Canonical (l.foldl f s) := by
  induction l generalizing s with
  | nil => exact h
  | cons a r ih => exact ih (hf s a h)

theorem Canonical.setNibble {s : State} (h : Canonical s) (cmp pa n : Nat) : Canonical (setNibble s cmp pa n) := by
  simp only [Machine.setNibble]
  split
  · exact ⟨h.1, h.2.1, spWf_spSet _ _ h.2.2⟩
  · exact h.mem (memPut_wf _ _ h.1)

theorem Canonical.ctlStore {s : State} (h : Canonical s) (cmp line : Nat) (bytes : List Byte) (bad : Nat) :
    Canonical (ctlStore s cmp line bytes bad) := by
  have mark : ∀ (t : State), Canonical t →
      Canonical ((List.range 16).foldl (fun s i => Machine.setPoison s (line * 128 + 8 * i) (bitOf bad i)) t) :=
    fun t ht => Canonical.foldl (fun _ _ hs => hs.setPoison _ _) _ ht
  unfold Machine.ctlStore
  simp only []
  generalize (if cmp / 2 = 1 then zbPack (wordsOf bytes) else dpPack (wordsOf bytes)) = pk
  split
  · exact mark _ (h.mem (memPutAll_wf _ _ h.1))
  · split
    · exact h.setNibble ..
    · split <;> exact (mark _ (h.mem (memPutAll_wf _ _ h.1))).setNibble ..

theorem Canonical.l2Drop {s : State} (h : Canonical s) (line : Nat) : Canonical (l2Drop s line) := by
  unfold Machine.l2Drop
  split
  · exact h.modPart _ _
  · exact Canonical.foldl (fun _ _ ht => ht.modPart _ _) _ h

theorem Canonical.l2WriteBack {s : State} (h : Canonical s) (line : Nat) : Canonical (l2WriteBack s line) := by
  have hd := h.l2Drop line
  unfold Machine.l2WriteBack
  split
  · exact h
  · generalize Machine.l2Drop s line = d at hd
    simp only []
    split
    · exact hd
    · split
      · refine Canonical.foldl (fun t k ht => ?_) _ hd
        split
        · exact (ht.mem (memPutAll_wf _ _ ht.1)).setPoison _ _
        · exact ht
      · split
        · exact hd.ctlStore ..
        · split
          · exact (hd.modPart _ _).ctlStore ..
          · split
            · exact (hd.modPart _ _).ctlStore ..
            · exact hd.ctlStore ..

theorem Canonical.l2Flush {s : State} (h : Canonical s) (part : Nat) : Canonical (l2Flush s part) :=
  (Canonical.foldl (fun _ _ hs => hs.l2WriteBack _) _ h).modPart _ _

theorem Canonical.ctlWrite {s : State} (h : Canonical s) (cmp : Nat) (bs : List (Nat × Byte)) (bad : Bool) :
    Canonical (ctlWrite s cmp bs bad) := by
  refine Canonical.foldl (fun t e ht => ?_) _ h
  simp only []
  split
  · exact (ht.mem (memPutAll_wf _ _ ht.1)).setPoison _ _
  · exact ht.ctlStore ..

theorem Canonical.countCorrupt {s : State} (h : Canonical s) (cmp line : Nat) : Canonical (countCorrupt s cmp line) := by
  unfold Machine.countCorrupt; split <;> exact h

/-- Lines in an L2 are its own data, not memory's. -/
theorem Canonical.l2SetWord {s : State} (h : Canonical s) (cmp w : Nat) (v : List Byte × Bool) :
    Canonical (l2SetWord s cmp w v) := by
  simp only [Machine.l2SetWord]
  split
  · exact h.mem (memPutAll_wf _ _ h.1)
  · refine Canonical.modPart (s := if l2Has s (8 * w) = true then s else Machine.countCorrupt s cmp (8 * w / 128)) ?_ _ _
    split
    · exact h
    · exact h.countCorrupt ..

theorem Canonical.l2Write {s : State} (h : Canonical s) (cmp : Nat) (bs : List (Nat × Byte)) (bad : Bool) :
    Canonical (l2Write s cmp bs bad) :=
  Canonical.foldl (fun _ _ ht => ht.l2SetWord ..) _ h

/-- A store that takes its place in coherence order. -/
theorem Canonical.publish {s : State} (h : Canonical s) (w : Nat) (m : Msg) : Canonical (publish s w m) :=
  (h.l2SetWord m.cmp w (m.onto (l2Word s m.cmp w))).same rfl rfl rfl

/-- The write-back of what a core holds dirty. -/
theorem Canonical.coreWriteBack {s : State} (h : Canonical s) (core : Nat) (sel : Nat → Bool) :
    Canonical (coreWriteBack s core sel) := by
  simp only [Machine.coreWriteBack]
  split
  · exact h
  · exact Canonical.foldl (fun _ e ht => Canonical.foldl (fun _ _ ht => ht.publish ..) _ ht) _ h

theorem Canonical.coreDrop {s : State} (h : Canonical s) (core : Nat) (sel : Nat → Bool) :
    Canonical (coreDrop s core sel) := (h.coreWriteBack core sel).same rfl rfl rfl

theorem Canonical.noteStore {s : State} (h : Canonical s) (ag : Agent) (m : Msg) : Canonical (noteStore s ag m) := h

/-- A store of an agent to bytes of one word. -/
theorem Canonical.storeUnit {s : State} (h : Canonical s) (ag : Agent) (cmp va loc : Nat) (bs : List Byte) (bad : Bool)
    (rels : List RelInfo) : Canonical (storeUnit s ag cmp va loc bs bad rels) := by
  simp only [Machine.storeUnit]
  split
  · exact h.same (by simp) (by simp) (by simp)
  · exact (h.noteStore ag _).publish ..

/-- A store of KIND 3. -/
theorem Canonical.ctlStoreUnit {s : State} (h : Canonical s) (ag : Agent) (cmp va loc : Nat) (bs : List Byte) (bad : Bool)
    (rels : List RelInfo) : Canonical (ctlStoreUnit s ag cmp va loc bs bad rels) :=
  ((h.noteStore ag _).ctlWrite _ _ _).same rfl rfl rfl

theorem Canonical.storeBytes {s : State} (h : Canonical s) (ag : Agent) (cmp kind va loc : Nat) (bs : List Byte)
    (bad : Bool) (rels : List RelInfo) : Canonical (storeBytes s ag cmp kind va loc bs bad rels) := by
  refine Canonical.foldl (fun t u ht => ?_) _ h
  split
  · exact ht.ctlStoreUnit ..
  · exact ht.storeUnit ..

/-! ### Bulk writes -/

theorem cellsAt_ge {pa : Nat} {bs : List Byte} : ∀ e ∈ cellsAt pa bs, pa ≤ e.1 ∧ e.1 < pa + bs.length := by
  induction bs generalizing pa with
  | nil => simp [cellsAt]
  | cons b r ih =>
    intro e he
    rw [cellsAt, List.mem_cons] at he
    rw [List.length_cons]
    rcases he with rfl | he
    · simp
    · have := ih e he; omega

theorem cellsAt_wf {lo pa : Nat} {bs : List Byte} (h : lo ≤ pa) :
    spWfFrom (0 : Byte) lo ((cellsAt pa bs).filter fun e => e.2 != 0) = true := by
  induction bs generalizing lo pa with
  | nil => rfl
  | cons b r ih =>
    rw [cellsAt, List.filter_cons]
    split
    · rw [spWfFrom_cons]; rename_i hb; exact ⟨h, by simpa using hb, ih (by omega)⟩
    · exact ih (by omega)

/-- A piece that replaces the keys of [a, b) of a canonical map. -/
theorem spWf_splice {α : Type} [DecidableEq α] {d : α} {m n : SMap α} {a b : Nat} (h : spWf d m = true)
    (hn : spWfFrom d a n = true) (hb : ∀ e ∈ n, e.1 < b) (hab : a ≤ b) :
    spWf d (m.filter (fun e => decide (e.1 < a)) ++ n ++ m.filter (fun e => decide (b ≤ e.1))) = true := by
  rw [List.append_assoc]
  exact spWfFrom_append (mid := a) (spWfFrom_filter _ h) (by simp) (by omega)
    (spWfFrom_append hn hb hab (spWfFrom_filter_ge h))

theorem marks_wf {lo a : Nat} {l : List Nat} (hl : l.Pairwise (· < ·)) (h : ∀ i ∈ l, lo ≤ a + i) :
    spWfFrom false lo (l.map fun i => (a + i, true)) = true := by
  induction l generalizing lo with
  | nil => rfl
  | cons i r ih =>
    rw [List.map_cons, spWfFrom_cons]
    rw [List.pairwise_cons] at hl
    exact ⟨h i (by simp), by decide, ih hl.2 fun j hj => by have := hl.1 j hj; omega⟩

theorem Canonical.bulkWrite {s : State} (h : Canonical s) (pa : Nat) (bytes : List Byte) (bad : Nat → Bool) :
    Canonical (bulkWrite s pa bytes bad) := by
  refine ⟨?_, ?_, h.2.2⟩
  · exact spWf_splice h.1 (cellsAt_wf (Nat.le_refl _)) (fun e he => (cellsAt_ge e (List.mem_filter.1 he).1).2) (by omega)
  · refine spWf_splice h.2.1 (marks_wf (List.Pairwise.filter _ List.pairwise_lt_range) (by intros; omega)) ?_ (by omega)
    intro e he
    obtain ⟨i, hi, rfl⟩ := List.mem_map.1 he
    have := List.mem_range.1 (List.mem_filter.1 hi).1
    simp only; omega

end Sys2Proof.Claims
end

