-- ==== Sys2Proof/Tests/Slice0.lean ====
section
/-!
SUPPORT. Tests: an ill-formed term for every check, words written out from the spec's encodings, and for every statement a
small state that meets its hypotheses. Expected results come from the spec's encoding tables and worked examples.
-/
namespace Sys2Proof.Tests
open Sys2Proof.Machine Sys2Proof.Claims

-- one theorem after another: many kernel evaluations at once exceed the memory of the check
set_option Elab.async false

/-! ## Helpers -/

/-- Fields with the guard pt. -/
def fl (mod d a b c x : Nat) : Fields :=
  { mod := BitVec.ofNat 6 mod, d := BitVec.ofNat 9 d, a := BitVec.ofNat 9 a, b := BitVec.ofNat 9 b, c := BitVec.ofNat 9 c
    g := 63, gn := 0, reuse := 0, x := BitVec.ofNat 4 x }

/-- The three words of an escaped long form, as the opcode table numbers their bits. -/
def escaped (hi lo : Nat) : Nat := 0xFF000000 + hi * 2 ^ 32 + lo * 2 ^ 64

/-- One group of one team on core 0, whose path of all lanes issues. -/
def st0 : State := { State.reset.withFetchWord 96 0 with cur := some ⟨0, 0⟩ }

def inGroup (f : Group → Group) (s : State) : State := modGroup s 0 f
def inTeam (f : Team → Team) (s : State) : State := modTeam s 0 f
def inPath (f : Path → Path) (s : State) : State := modPath s 0 0 f
def inNode (f : Node → Node) (s : State) : State := modNode s 0 f
def inPart (f : Partition → Partition) (s : State) : State := modPart s 0 f

/-- The issuing path of a state that has one. -/
def it (s : State) : Iss :=
  (issuer s).getD ⟨0, 0, newGroup s 0 0 0 256, freshPath 0 0 0 0 1, lonelyTeam, 0, 0, 0⟩

/-- Memory with the record of context 0 (running, valid, a supervisor) and a page table that maps every address below
512 GiB to itself with all rights (03 R43 to R45; 10 R227). -/
def paged (s : State) : State :=
  { modPart s 0 (fun p => { p with frameSize := 1 }) with
    mem := [(1, 4), (8, 0x38), (0x400, 0x01), (0x401, 0x10), (0x1000, 0x01), (0x1001, 0x20), (0x2000, 0x0F)] }

/-! ## Ill-formed terms -/

theorem smoke_notProgram : (Instr.clockDroop 0).illFormed = some .notProgram := by decide
theorem smoke_badGuard : (Instr.nop { fl 0 0 0 0 0 0 with g := 48 }).illFormed = some .badGuard := by decide
theorem smoke_guardNotPathWide : (Instr.bra { fl 0 0 0 0 0 0 with gn := 1 }).illFormed = some .guardNotPathWide := by decide
theorem smoke_badMemSize : (Instr.ld (fl 0 1 2 0x100 0 5)).illFormed = some .badMemSize := by decide
theorem smoke_unusedBranchField : (Instr.bany (fl 0 1 0 0 0 0)).illFormed = some .unusedBranchField := by decide
theorem smoke_wellFormed : (Instr.iadd (fl 0 5 1 2 0 0)).illFormed = none := by decide

/-! ## Words written out from the encodings (11 R251, R252, R260) -/

-- BRA +8 words: OP 0x02, IMM27 = 8 in [40:14], G = 63
theorem test_decode_control : decodeTableWord 96 (escaped 0x02000000 0x00023F00) = some (.bra (fl 0 0 0 0 8 0)) := by decide
-- IADD.n64 v4, v6, v8: OP 0x20, MOD = 3, D = 4, A = 6, B = 8
theorem test_decode_integer : decodeTableWord 96 (escaped 0x200C0806 0x04003F00) = some (.iadd (fl 3 4 6 8 0 0)) := by decide
-- FFMA v7, v1, v2, v3: 0x4200_0E01_0100_FF00 (11, an encoding worked through)
theorem test_decode_float : decodeTableWord 96 (escaped 0x42000E01 0x0100FF00) = some (.ffma (fl 0 7 1 2 3 0)) := by decide
-- FMUL v2, v1, 2.0: 0x4100_0401_E158_3F00 (the same section)
theorem test_decode_constant : decodeTableWord 96 (escaped 0x41000401 0xE1583F00) = some (.fmul (fl 0 2 1 0x1C2 0x160 0)) := by
  decide
-- LXCH: OP 0x56, MOD = 0x18, D = 1, A = 2, B = 0x181, X = 3
theorem test_decode_crossLane : decodeTableWord 96 (escaped 0x56600202 0xC0803F03) = some (.lxch (fl 0x18 1 2 0x181 0 3)) := by
  decide
-- LD v2, s4[v1 - 3], 4 bytes: OP 0x60, D = 2, A = 1, B = 0x104, C = -3, X = 2
theorem test_decode_memory : decodeTableWord 96 (escaped 0x60000401 0x827F7F02) = some (.ld (fl 0 2 1 0x104 0x1FD 2)) := by
  decide
theorem test_decode_memory_offset : (fl 0 2 1 0x104 0x1FD 2).imm9 = -3 := by decide
-- BAR b5 at .cluster: OP 0x6D, MOD = 3, A = 0x185
theorem test_decode_sync : decodeTableWord 96 (escaped 0x6D0C0185 0x00003F00) = some (.bar (fl 3 0 0x185 0 0 0)) := by decide
-- MMA: 0x8048_4000_2444_3F03
theorem test_decode_matrix : decodeTableWord 96 (escaped 0x80484000 0x24443F03) = some (.mma (fl 0x12 0x20 0 0x48 0x110 3)) := by
  decide
-- NCALL t3: OP 0x88, MOD = 7, D = 0x1E3, A = 0x102, B = 8, C = 32
theorem test_decode_neural : decodeTableWord 96 (escaped 0x881FC702 0x04083F00) = some (.ncall (fl 7 0x1E3 0x102 8 32 0)) := by
  decide
-- TOPK: OP 0x93, MOD = 1, D = 2, A = 4, X = 0
theorem test_decode_percolator : decodeTableWord 96 (escaped 0x93040404 0x00003F00) = some (.topk (fl 1 2 4 0 0 0)) := by decide
-- TRACE t1: OP 0xA0, D = 0x1E1, A = 0x110, B = 16, C = 24, X = 5
theorem test_decode_rays : decodeTableWord 96 (escaped 0xA003C310 0x08063F05) = some (.trace (fl 0 0x1E1 0x110 16 24 5)) := by
  decide
-- VISR: OP 0xAC, D = 3, A = 6, B = 0x120
theorem test_decode_visible : decodeTableWord 96 (escaped 0xAC000606 0x90003F00) = some (.visr (fl 0 3 6 0x120 0 0)) := by decide
-- SRD s2, register 0x105: OP 0xC0, D = 0x102, A = 0x160, IMM18 = 0x105 in [31:14]
theorem test_decode_system : decodeTableWord 96 (escaped 0xC0020560 0x00417F00)
    = some (.srd { fl 0 0x102 0x160 0 0x105 0 with reuse := 0 }) := by decide
theorem test_decode_system_number : (fl 0 0x102 0x160 0 0x105 0).imm18 = 0x105 := by decide
-- an unassigned opcode, an escape with a payload, and a slot word of a dictionary
theorem test_decode_unassigned : decodeTableWord 96 (escaped 0x18000000 0x00003F00) = none := by decide
theorem test_decode_badEscape : decodeTableWord 96 (escaped 0x20000000 0x00003F00 + 1) = none := by decide
theorem test_decode_dictionary : decodeTableWord 32 0x11020107 = none := by decide
-- entry 17 of the worked example: template, holes D, A and B, and the slot word 0x1102_0107
theorem test_expand : expand (0x420000000000FF00 + 0x80000000D7781E97 * 2 ^ 64) 0x020107 = 0x42000E010100FF00 := by decide
-- the first step after reset runs an instruction placed for it: MOVI v3, 77 counts as retired
theorem test_step : (match step (State.reset.withFetchWord 96 (escaped 0x35000600 0x00137F00)) with
    | .next t => (getGroup t 0).map fun g => (g.retired, g.getV 3 63)
    | _ => none) = some (1, 77) := by decide +kernel

/-! ## Witnesses: value instructions

`computes` meets the hypotheses of every clause of `Claims.Computes`: the checks pass in every lane of st0; with the guard
`!pt` no lane is active; with guard 48 the checks fail; and where the instruction reads a register, it does so with lane 0
poisoned. -/

/-- st0 with v1 to v4 poisoned in lane 0, and s0 to s3. -/
def bad0 : State := inGroup (fun g =>
  { g with vpoison := [(64, true), (128, true), (192, true), (256, true)], spoison := [(0, true), (1, true)] }) st0

def runs (f : Fields) (v : Iss → ValueOp) : Bool :=
  (v (it st0)).ok (it st0) f && active (it st0) f != 0
    && (lanesOf (active (it st0) f)).all fun l => !(v (it st0)).badIn (it st0) l

def computes (f : Fields) (v : Fields → Iss → ValueOp) : Bool :=
  decide (issuer st0 = some (it st0)) && runs f (v f) && (v { f with gn := 1 } (it st0)).ok (it st0) { f with gn := 1 }
    && active (it st0) { f with gn := 1 } == 0 && !(v { f with g := 48 } (it st0)).ok (it st0) { f with g := 48 }
    && decide (issuer bad0 = some (it bad0)) && (v f (it bad0)).ok (it bad0) f
    && ((v f (it bad0)).srcs.isEmpty || (v f (it bad0)).badIn (it bad0) 0)

/-- The hypotheses of `Claims.Writes`. -/
def writes (f : Fields) (legal : Iss → Bool) (bad : State → Iss → Nat → Bool) : Bool :=
  decide (issuer st0 = some (it st0)) && f.guardLegal && legal (it st0) && active (it st0) f != 0
    && (lanesOf (active (it st0) f)).all fun l => !bad st0 (it st0) l

def z1 : List Nat → Nat := fun _ => 0
def z2 : Nat → Nat → Nat := fun _ _ => 0

theorem witness_IntegerArithmetic :
    (computes (fl 0 5 1 2 0 0) (fun f _ => binOp f false true z2) = true
      ∧ computes (fl 3 6 2 4 0 0) (fun f _ => binOp f false true z2) = true)
    ∧ computes (fl 0x20 5 1 0x1FF 0x1FF 0) (fun f _ => binOp f false true z2) = true
    ∧ computes (fl 0 0x105 0x100 0x180 0 0) (fun f _ => binOp f false true z2) = true
    ∧ computes (fl 1 5 1 2 0 0) (fun f _ => rrOp f [(f.a, ity (ityp f)), (f.b, ity (ityp f))] (mod53zero f && f.c == 0)
        (iwide (ityp f)) z1) = true
    ∧ computes (fl 2 6 2 4 2 0) (fun f _ => rrOp f [(f.a, ity (ityp f)), (f.b, ity (ityp f)), (f.c, ity (ityp f))]
        (mod53zero f) (iwide (ityp f)) z1) = true
    ∧ computes (fl 8 5 1 0x160 0 0) (fun f _ => rrOp f [(f.a, ity (ityp f)), (f.b, ity (ityp f))]
        (decide (f.mod.toNat < 16) && f.c == 0) (iwide (ityp f)) z1) = true := by decide +kernel

theorem witness_BitOperations :
    computes (fl 0x30 5 1 2 3 12) (fun f _ =>
      { dst := .reg f.d false, srcs := [(f.a, .w32), (f.b, .w32), (f.c, .w32)], legal := !f.mod.getLsbD 2, fn := fun _ _ => 0 })
      = true
    ∧ computes (fl 5 6 2 0x1BF 0 0) (fun f _ => binOp f true true z2) = true
    ∧ computes (fl 9 5 1 2 3 0) (fun f _ => rrOp f [(f.a, ity (ityp f)), (f.b, ity (ityp f)), (f.c, .w32)]
        (decide (f.mod.toNat < 16)) (iwide (ityp f)) z1) = true
    ∧ computes (fl 0 5 1 0 2 0) (fun f _ => rrOp f [(f.a, ity (ityp f)), (f.c, .w32)] (mod53zero f && f.b == 0)
        (iwide (ityp f)) z1) = true
    ∧ computes (fl 0 5 1 2 3 0) (fun f _ => rrOp f [(f.a, ity (ityp f)), (f.b, ity (ityp f)), (f.c, .w32)]
        (mod53zero f) (iwide (ityp f)) z1) = true
    ∧ computes (fl 3 5 2 0 0 0) (fun f _ => rrOp f [(f.a, ity (ityp f))] (mod53zero f && allZero [f.b, f.c]) false z1)
      = true := by decide +kernel

theorem witness_CompareSelectConstants :
    computes (fl 0 63 1 2 0 5) (fun f _ =>
      { dst := .pred f.d, srcs := (f.a, ity (ityp f)) :: secondSrc f (ity (ityp f))
        legal := itypOk f && mod43 f == 0 && decide (f.x.toNat ≤ 5) && cUnused f, fn := fun _ _ => 0 }) = true
    ∧ computes (fl 8 5 1 2 47 0) (fun f _ =>
      { dst := .reg f.d (iwide (ityp f)), srcs := [(f.a, ity (ityp f)), (f.b, ity (ityp f))], preds := [f.c]
        legal := itypOk f && decide (f.mod.toNat < 16) && f.x == 0, fn := fun _ _ => 0 }) = true
    ∧ computes (fl 2 6 0x1FF 0x1FF 0x1FF 0) (fun f _ =>
      { dst := .reg f.d (iwide (ityp f)), srcs := [], legal := itypOk f && mod53zero f && f.x == 0, fn := fun _ _ => 0 }) = true
    ∧ computes (fl 3 6 2 0x1F 0x1FF 2) (fun f _ =>
      { dst := .reg f.d (iwide (ityp f)), srcs := [(f.a, ity (ityp f))]
        legal := itypOk f && mod53zero f && decide (f.x.toNat < 3) && (decide (f.x.toNat = 0) || iwide (ityp f))
          && !(decide (f.x.toNat = 2) && decide (2 ^ 14 ≤ f.imm18.toNat)), fn := fun _ _ => 0 }) = true
    ∧ computes (fl 0x39 0 1 47 63 15) (fun f _ =>
      { dst := .pred f.d, srcs := [], preds := [f.a, f.b, f.c], legal := !f.mod.getLsbD 1 && !f.mod.getLsbD 2
        fn := fun _ _ => 0 }) = true
    ∧ computes (fl 3 6 2 4 0 0) (fun f _ => rrOp f [(f.a, ity (ityp f)), (f.b, ity (ityp f))] (mod53zero f && f.c == 0)
        (iwide (ityp f)) z1) = true := by decide +kernel

theorem witness_PredicatesAndLanes :
    writes (fl 4 5 47 0 0 0) (fun c => pmovLegal c (fl 4 5 47 0 0 0)) (fun _ _ _ => false) = true
    ∧ writes (fl 4 0 5 0 0 1) (fun c => pmovLegal c (fl 4 0 5 0 0 1)) (fun _ c l => srcBad c false (opnd 5) l) = true
    ∧ writes (fl 5 0x102 3 0 0 2) (fun c => pmovLegal c (fl 5 0x102 3 0 0 2)) (fun _ _ _ => false) = true
    ∧ writes (fl 5 3 0x102 0 0 3) (fun c => pmovLegal c (fl 5 3 0x102 0 0 3)) (fun _ c l => srcBad c true (opnd 0x102) l) = true
    ∧ writes (fl 4 0x102 1 0x1BF 0 0) (fun c => lanePick c (fl 4 0x102 1 0x1BF 0 0) && dstLegal c false (opnd 0x102)
        && srcLegal c false (opnd 1)) (fun s c _ => srcBad c false (opnd 1) (srcVal s c .w32 (opnd 0x1BF) 0 % 64)) = true
    ∧ writes (fl 4 5 0x102 0x1BF 0 0) (fun c => lanePick c (fl 4 5 0x102 0x1BF 0 0) && dstLegal c false (opnd 5)
        && (opnd 0x102).isUniform && srcLegal c false (opnd 0x102)) (fun _ c _ => srcBad c false (opnd 0x102) 0) = true
    ∧ writes (fl 0 0x102 47 0 0 0) (fun _ => pcollLegal (fl 0 0x102 47 0 0 0)) (fun _ _ _ => false) = true
    ∧ writes (fl 0 0x103 63 0 0 4) (fun _ => pcollLegal (fl 0 0x103 63 0 0 4)) (fun _ _ _ => false) = true
    ∧ writes (fl 0 46 0 0 0 3) (fun _ => pcollLegal (fl 0 46 0 0 0 3)) (fun _ _ _ => false) = true := by decide +kernel

theorem witness_CrossLane :
    writes (fl 0x30 5 1 2 0x160 3) (fun c => lxchLegal c (fl 0x30 5 1 2 0x160 3)) (fun _ c l => srcBad c false (opnd 2) l) = true
    ∧ writes (fl 0 5 1 0x160 0x160 8) (fun c => redLegal c (fl 0 5 1 0x160 0x160 8) && vdstLegal c (redOperand (fl 0 5 1 0x160 0x160 8)).wide (opnd 5))
        (fun _ c l => srcBad c false (opnd 1) l) = true
    ∧ writes (fl 0 0x102 1 0x160 0x160 0) (fun c => redLegal c (fl 0 0x102 1 0x160 0x160 0)
        && dstLegal c (redOperand (fl 0 0x102 1 0x160 0x160 0)).wide (opnd 0x102)) (fun _ c l => srcBad c false (opnd 1) l) = true
    ∧ writes (fl 0 6 2 0x160 0x160 0) (fun c => eqlnLegal c (fl 0 6 2 0x160 0x160 0)) (fun _ c l => srcBad c false (opnd 2) l) = true
    ∧ writes (fl 0 5 2 0x160 0x160 1) (fun c => eqlnLegal c (fl 0 5 2 0x160 0x160 1)) (fun _ c l => srcBad c false (opnd 2) l) = true
    ∧ writes (fl 0 47 2 0x160 0x160 2) (fun c => eqlnLegal c (fl 0 47 2 0x160 0x160 2)) (fun _ c l => srcBad c false (opnd 2) l) = true
    ∧ writes (fl 0 5 1 0 0 3) (fun c => derivLegal c (fl 0 5 1 0 0 3)) (fun _ c l => srcBad c false (opnd 1) l) = true := by
  decide +kernel

theorem witness_FloatArithmetic :
    computes (fl 0 5 1 2 0x160 0) (fun f c => exactOp c f 2 (!fnegC f) fun _ => .zero) = true
    ∧ computes (fl 0 5 1 2 3 0) (fun f c => exactOp c f 3 true fun _ => .zero) = true
    ∧ computes (fl 0 5 1 2 0x160 0) (fun f c => fltOp c f 2 (!fnegC f && frm f == 0) fun _ _ _ => 0) = true
    ∧ computes (fl 0 5 1 0x160 0x160 0) (fun f c => exactOp c f 1 (typ3 f && oneOperand f) fun _ => .zero) = true
    ∧ computes (fl 0 5 1 2 0x160 0) (fun f c => exactOp c f 2 (typ3 f && !fnegC f) fun _ => .zero) = true
    ∧ computes (fl 0 5 1 0x160 0x160 0) (fun f c => exactOp c f 1 (typ2 f && oneOperand f) fun _ => .zero) = true
    ∧ computes (fl 1 5 1 0x160 0x160 0) (fun f c => exactOp c f 1 (typ2 f && !fabs f 1 && !fnegC f) fun _ => .zero) = true
    ∧ computes (fl 0 5 1 0x160 0x160 0) (fun f c => exactOp c f 1 (oneOperand f) fun _ => .zero) = true := by decide +kernel

theorem witness_FloatCompareClassify :
    computes (fl 0 0 1 2 14 0) (fun f _ =>
      { dst := .pred f.d, srcs := [(f.a, fty (ftyp f)), (f.b, fty (ftyp f))]
        legal := decide (ftyp f < 2) && frm f == 0 && decide (f.x.toNat % 4 = 0) && decide (f.c.toNat < 15) && f.c != 7
        fn := fun _ _ => 0 }) = true
    ∧ computes (fl 0 0 1 0x160 0x1FF 0) (fun f _ =>
      { dst := .pred f.d, srcs := [(f.a, fty (ftyp f))]
        legal := decide (ftyp f < 2) && decide (f.mod.toNat % 16 = 0) && f.x == 0 && f.b == zeroCode
        fn := fun _ _ => 0 }) = true := by decide +kernel

theorem witness_DotProductsAndUnpacking :
    computes (fl 3 5 1 2 3 0) (fun f c =>
      { dst := .reg f.d false, srcs := [(f.a, .w32), (f.b, .w32), (f.c, .w32)]
        legal := decide (f.mod.toNat < 4) && f.x == 0 && vdstLegal c false (opnd f.d), fn := fun _ _ => 0 }) = true
    ∧ computes (fl 32 5 1 2 3 0) (fun f c =>
      { dst := .reg f.d false, srcs := [(f.a, fty (ftyp f)), (f.b, fty (ftyp f)), (f.c, .f32)]
        legal := decide (2 ≤ ftyp f) && vdstLegal c false (opnd f.d), fn := fun _ _ => 0 }) = true
    ∧ computes (fl 3 5 1 2 0x160 0) (fun f c =>
      { dst := .reg f.d false, srcs := [(f.a, .f32), (f.b, .w32)]
        legal := (f.mod == 3 || f.mod == 4 || fmtNarrowFloat f.mod.toNat) && f.c == zeroCode && f.x == 0
          && vdstLegal c false (opnd f.d), fn := fun _ _ => 0 }) = true
    ∧ computes (fl 0xD 5 1 0x160 0x160 7) (fun f c =>
      { dst := .reg f.d false, srcs := [(f.a, .w32)]
        legal := packWidth f.mod.toNat != 0 && decide (f.x.toNat < 8) && decide (f.x.toNat * packWidth f.mod.toNat < 32)
          && f.b == zeroCode && f.c == zeroCode && vdstLegal c false (opnd f.d), fn := fun _ _ => 0 }) = true := by
  decide +kernel

theorem witness_Conversions :
    (let f := fl 0x0F 6 2 0x160 1 0xF
     writes f (fun c => cvtLegal c f && srcLegal c (cvtTy f.c.toNat (f.x.getLsbD 1)).wide (opnd f.a))
       (fun _ c l => srcBad c (cvtTy f.c.toNat (f.x.getLsbD 1)).wide (opnd f.a) l) = true)
    ∧ (let f := fl 1 5 8 2 3 0
       let s := inPath (fun p => { p with fmt := 0x0D }) st0
       decide (issuer s = some (it s)) = true ∧ (decide (f.mod.toNat ≤ 1) && f.x == 0 && quantFmt (afmt (it s))
         && blockLegal (it s) 8 (quantCount (afmt (it s))) && srcLegal (it s) false (opnd f.b)
         && srcLegal (it s) false (opnd f.c) && vdstLegal (it s) false (opnd f.d)) = true)
    ∧ (let f := fl 0 8 1 2 0 0
       let s := inPath (fun p => { p with fmt := 0x0D }) st0
       decide (issuer s = some (it s)) = true ∧ (quantFmt (afmt (it s)) && blockLegal (it s) 8 (quantCount (afmt (it s)))
         && srcLegal (it s) false (opnd f.a) && srcLegal (it s) false (opnd f.b)) = true)
    ∧ (let f := fl 0x0B 5 1 2 0x160 1
       writes f (fun c => packLegal f && srcLegal c false (opnd f.a) && srcLegal c false (opnd f.b)
           && vdstLegal c false (opnd f.d))
         (fun _ c l => srcBad c false (opnd f.a) l || srcBad c false (opnd f.b) l || srcBad c false (opnd f.d) l) = true) := by
  decide +kernel

/-! ## Witnesses: control -/

/-- A path of lanes 0 and 1 in a one-slot clause. -/
def two : State := inPath (fun p => { p with mask := 3 }) st0

theorem witness_Branches :
    issuer st0 = some (it st0) ∧ branchFields (fl 0 0 0 0 8 0) = true ∧ (fl 0 0 0 0 8 0).guardPathWide = true
      ∧ { fl 0 0 0 0 8 0 with gn := 1 }.guardPathWide = false ∧ { fl 0 0 0 0 8 0 with gn := 1 }.guardLegal = true := by
  decide +kernel

theorem witness_DivergeAndJoin :
    (issuer st0 = some (it st0) ∧ (fl 0 0 0 0x40 4 0).guardLegal = true ∧ branchFields (fl 0 0 0 0x40 4 0) = true
      ∧ (it st0).g.stack.length + 2 ≤ 504)
    ∧ (let r : Rec := { kind := .join, addr := 0, mask := 3, aux := 2, fmt := 0xC3, handle := 1 }
       let s := inGroup (fun g => { g with stack := [r] }) (inPath (fun p => { p with mask := 1 }) st0)
       issuer s = some (it s) ∧ (fl 0 0 0 0 0 0).guardPathWide = true ∧ noFields (fl 0 0 0 0 0 0) = true
         ∧ topRec (it s).g .join (it s).p.mask = some r ∧ (it s).p.slot = 0 ∧ r.addr = (it s).p.addr) := by decide +kernel

/-- Lane 1 holds the target 64 in v2 and v3, lane 0 the target 0. -/
def twoTargets : State := inGroup (fun g => g.setV 2 1 64) two

theorem witness_IndirectJump :
    (issuer two = some (it two) ∧ (fl 0 0 2 0 0 0).guardPathWide = true ∧ indirectLegal (it two) (fl 0 0 2 0 0 0) = true
      ∧ (∀ l ∈ lanesOf (it two).p.mask, srcBad (it two) true (opnd 2) l = false ∧ srcVal two (it two) .q64 (opnd 2) l = 0))
    ∧ issuer twoTargets = some (it twoTargets)
      ∧ (∀ l ∈ lanesOf (it twoTargets).p.mask, srcBad (it twoTargets) true (opnd 2) l = false
        ∧ srcVal twoTargets (it twoTargets) .q64 (opnd 2) l % 4 = 0 ∧ srcVal twoTargets (it twoTargets) .q64 (opnd 2) l ∈ [0, 64])
      ∧ ([0, 64].all fun x => (lanesOf (it twoTargets).p.mask).any fun l => srcVal twoTargets (it twoTargets) .q64 (opnd 2) l == x) = true
      ∧ [0, 64].Pairwise (· < ·) ∧ (it twoTargets).g.stack.length + 1 ≤ 504 := by decide +kernel

/-- The state of a CALLI that has called target 0 for lane 0 and is issued again for lane 1. -/
def serial1 : State := inGroup (fun g =>
  { g with stack := [{ kind := .serial, addr := 0, mask := 3, aux := 1, fmt := 0xC3, handle := 1, next := 8 }] })
  (inPath (fun p => { p with mask := 2 }) twoTargets)

/-- A path whose topmost return entry holds it. -/
def called (ser : Bool) : State := inGroup (fun g => { g with rets := [{ ser := ser, addr := 64, handle := 7, mask := 7 }] }) two

/-- Memory with a linkage entry at 0x3000: clause 0x4000, handle 2; its record in s4 to s7. -/
def linked : State :=
  let s := paged two
  inGroup (fun g => { g with sregs := [(4, 0x3000), (6, 0x100), (7, 0x9FB00000)] })
    { s with mem := s.mem ++ [(0x3001, 0x40), (0x3006, 0x02)] }

theorem witness_CallsAndReturns :
    (issuer two = some (it two) ∧ branchFields (fl 0 0 0 0 8 0) = true ∧ (it two).g.rets.length < 256
      ∧ serialOf (it two) = none ∧ serialOf (it twoTargets) = none ∧ (it twoTargets).g.rets.length < 256)
    ∧ (issuer serial1 = some (it serial1) ∧ serialOf (it serial1) = (it serial1).g.stack.head?
      ∧ (∀ l ∈ lanesOf (it serial1).p.mask, srcBad (it serial1) true (opnd 2) l = false
        ∧ srcVal serial1 (it serial1) .q64 (opnd 2) l = 64))
    ∧ (∀ ser : Bool, issuer (called ser) = some (it (called ser)) ∧ noFields (fl 0 0 0 0 0 0) = true
      ∧ (it (called ser)).g.rets.find? (fun e => e.mask &&& (it (called ser)).p.mask == (it (called ser)).p.mask)
        = some { ser := ser, addr := 64, handle := 7, mask := 7 }) := by decide +kernel

theorem witness_CallThroughLinkage :
    let f := fl 2 0 0x160 0x104 0 3
    let c := it linked
    let r := recAt c.g 4
    let ps := lanePlaces linked c r 8 (opnd f.a) f.imm9 [lowLane c.p.mask]
    issuer linked = some c ∧ calldLegal c f = true ∧ memBad c f (lowLane c.p.mask) = false
      ∧ (recScalar f.b = some 4 ∧ recInvalid r false = false ∧ (r.typed || recForbids r 3) = false)
      ∧ (ps.all fun p => p.2 == .at 0x3000 false) = true
      ∧ (∀ a ∈ placedAccs 8 ps, a.va % 8 = 0) ∧ xlCore linked c .read (placedAccs 8 ps) = .ok [⟨0, 0x3000, 8, 0x3000, 0, 0, false⟩]
      ∧ wpMatch linked c.part c.ctx false .rd 0x3000 8 = false
      ∧ atomAhead linked (threadsOf c.gid c.p.mask) ⟨0, 0x3000, 8, 0x3000, 0, 0, false⟩ = false ∧ c.g.rets.length < 256
      ∧ (readBytes linked (threadsOf c.gid c.p.mask) 0 0 0x3000 8).1.bad = false
      ∧ leNat (readBytes linked (threadsOf c.gid c.p.mask) 0 0 0x3000 8).1.bytes = 2 * 2 ^ 48 + 0x4000 := by decide +kernel

theorem witness_PathSettingsAndExit :
    (issuer st0 = some (it st0) ∧ noFields (fl 0 0 0 0 0 0) = true ∧ (fl 0 0 0 0 0 2).x.toNat ≤ 2
      ∧ setfmtLegal (fl 0 0 0x1BF 0 0 0) = true ∧ srcBad (it st0) false (opnd 0x1BF) 0 = false
      ∧ fmtRejected (srcVal st0 (it st0) .w32 (opnd 0x186) 0 ||| ((fl 0 0 0x186 0 0 0).imm18.toNat <<< 0)) = false
      ∧ setfmtLegal (fl 0 0 0x186 0 0 0) = true)
    ∧ writes (fl 0 5 0 0 0 0) (fun c => dstLegal c false (opnd 5)) (fun _ _ _ => false) = true
    ∧ ((opnd 0x1BF).isUniform = true ∧ srcLegal (it st0) false (opnd 0x1BF) = true
      ∧ srcVal st0 (it st0) .w32 (opnd 0x1BF) 0 < 2 ^ 16)
    ∧ (active (it st0) { fl 0 0 0 0 0 0 with gn := 1 } = 0 ∧ active (it st0) (fl 0 0 0 0 0 0) ≠ 0) := by decide +kernel

/-! ## Witnesses: channels, memory and synchronisation -/

/-- The team pushes to queue 5 and pops from it as channel 2; the queue holds one buffer and may hold `cap`. -/
def chans (cap : Nat) : State :=
  modCluster (inTeam (fun t => { t with channel := [(2, ⟨5, 1, 1⟩)] }) two) 0 fun k =>
    { k with queues := [(5, { cap := cap, bufs := [{ bytes := List.replicate 64 7 }] })] }

theorem witness_MoveAndChannels :
    computes (fl 0 5 1 0 0 0) (fun f _ =>
      { dst := .reg f.d (iwide (ityp f)), srcs := [(f.a, ity (ityp f))], legal := movLegal f, fn := fun _ _ => 0 }) = true
    ∧ (issuer (chans 2) = some (it (chans 2)) ∧ opnd 0x142 = .ch 2 false ∧ opnd 0x152 = .ch 2 true
      ∧ movLegal (fl 0 0x142 1 0 0 0) = true ∧ srcLegal (it (chans 2)) false (opnd 1) = true
      ∧ active (it (chans 2)) (fl 0 0x142 1 0 0 0) ≠ 0 ∧ boundQueue (it (chans 2)).t 2 true = some 5
      ∧ (∀ l ∈ [0, 1], srcBad (it (chans 2)) false (opnd 1) l = false) ∧ pushFits (chans 2) 0 5 1 = true)
    ∧ (issuer (chans 1) = some (it (chans 1)) ∧ boundQueue (it (chans 1)).t 2 true = some 5 ∧ pushFits (chans 1) 0 5 1 = false)
    ∧ (dstLegal (it (chans 2)) false (opnd 1) = true ∧ movLegal (fl 0 1 0x142 0 0 0) = true
      ∧ boundQueue (it (chans 2)).t 2 false = some 5 ∧ (poolQueue (chans 2) 0 5).bufs.length = 1)
    ∧ (let s := inPath (fun p => { p with mask := 0xFFFFFFFF }) (chans 2)
       issuer s = some (it s) ∧ boundQueue (it s).t 2 false = some 5 ∧ (poolQueue s 0 5).bufs.length < 2)
    ∧ ((cutBufs 2 [1, 2, 3]).all (fun b => b.bytes.length == 64) = true
      ∧ ((getCluster (popBufs (chans 2) (it (chans 2)) 3 5 1).2 0).freed.map (·.bytes.length)) = [64])
    ∧ (let f := fl 0 0x103 0x182 0 0 3
       let c := it (chans 2)
       qmapLegal c f = true ∧ srcBad c false (opnd f.a) 0 = false ∧ srcVal (chans 2) c .w32 (opnd f.a) 0 = 2) := by
  decide +kernel

/-- Lanes 0 and 1 with indices 0 and 1 in v1; a record of 256 elements of 2^k bytes at 0x3000 in s4 to s7. -/
def records (k : Nat) : State :=
  inGroup (fun g => { g.setV 1 1 1 with
    sregs := [(4, 0x3000), (6, 0x100), (7, BitVec.ofNat 32 (0x9F800000 + k * 2 ^ 20))] }) (paged two)

/-- A pending add of 5 to the word at 64, for operation 9. -/
def request : AtomReq :=
  { op := 9, gid := 0, core := 0, loc := 64, kind := 0, cmp := 0, size := 4, code := 0, scale := 0, operand := 5, compare := 0
    cas := false, lane := 0, dst := some 3, acquire := none, release := none, slice := 0, va := 64, know := {} }

/-- The hypotheses `Counts`, `Names` and `Reaches` of an access by the lanes `ls`. -/
def accesses (s : State) (f : Fields) (setB legal atomic : Bool) (acc : Acc) (wp : WpKind) (x : Nat) (ls : List Nat) : Bool :=
  let c := it s
  let r := recAt c.g 4
  let sz := r.size x
  let ps := lanePlaces s c r sz (opnd f.a) f.imm9 ls
  let as := placedAccs sz ps
  decide (issuer s = some c) && f.guardLegal && legal && !flagFull c.g (setFlag c.p setB) && active c f != 0
    && (recScalar f.b == some 4) && !recInvalid r atomic && !recForbids r x
    && (ps.all fun p => match p.2 with
      | .bounds _ => false
      | _ => true)
    && (as.all fun a => a.va % sz == 0)
    && (match xlCore s c acc as with
      | .ok ys => ys.length == ls.length && ys.all fun l =>
        !wpMatch s c.part c.ctx false wp l.va l.size && !atomAhead s [.thread c.gid l.lane] l
      | _ => false)
    && ls.all fun l => !memBad c f l

theorem witness_LoadsAndStores :
    accesses (records 2) (fl 0 5 1 0x104 0x1FF 2) false
      (memLegal (it (records 2)) (fl 0 5 1 0x104 0 2) && loadDst (it (records 2)) 2 (opnd 5) (opnd 1)) false .read .rd 2 [1] = true
    ∧ accesses (records 3) (fl 3 6 1 0x104 0 3) false
      (memLegal (it (records 3)) (fl 3 6 1 0x104 0 3) && loadDst (it (records 3)) 3 (opnd 6) (opnd 1)) false .read .rd 3 [0, 1]
      = true
    ∧ accesses (records 2) (fl 0 5 1 0x104 0xFE 2) true
      (memLegal (it (records 2)) (fl 0 5 1 0x104 0xFE 2) && storeSrc (it (records 2)) 2 (opnd 5)) false .write .wr 2 [0, 1] = true
    ∧ accesses (records 4) (fl 6 4 1 0x104 0 4) true
      (memLegal (it (records 4)) (fl 6 4 1 0x104 0 4) && storeSrc (it (records 4)) 4 (opnd 4)) false .write .wr 4 [0, 1] = true
    ∧ atomAhead (inPart (fun p => { p with atoms := [request] }) two) [.thread 0 0] ⟨0, 64, 4, 64, 0, 0, false⟩ = true := by
  decide +kernel

/-- A release edge at .dev of lane 1 that orders store 9. -/
def release1 : RelInfo := ⟨(Agent.thread 0 1).place two, 4, [9]⟩
/-- Lane 0 has an acquire edge behind store 9, of lane 1, to the byte at 0x3000, which its release edge orders. -/
def stored9 : State :=
  modKnow { two with
    mem := [(0x3000, 7)]
    hist := [(0x600, { base := List.replicate 8 0, bad := false, msgs := [{ id := 9, who := 1, bytes := [(0, 7)], rels := [release1] }] })] }
    (.thread 0 0) fun k => { k with hb := [9] }

theorem witness_StoresReadsAndEdges :
    ((0 : Nat) ≠ 3 ∧ 0 / 2 = 0 ∧ (Agent.thread 0 0).core two = some 0)
    ∧ release1.observed two ((Agent.thread 0 0).place two) 4 = true
    ∧ (match spFind stored9.hist 0x600 with
      | some h => h.base.length == 8 && h.msgs.length == 1 && h.msgs.all (fun m => m.bytes == unitCells 0 [7]
          && (getKnow stored9 (.thread 0 0)).hb.contains m.id) && h.after h.msgs == l2Word stored9 0 0x600
      | none => false) = true
    ∧ pendOf stored9 (.thread 0 0) 0x600 = []
    ∧ (⟨(Agent.thread 0 0).place two, 6, []⟩ : RelInfo).observed (scStep two (.thread 0 0) 6)
        ((Agent.thread 0 1).place (scStep two (.thread 0 0) 6)) 6 = true := by decide +kernel

/-- The hypotheses of a scratchpad access of the lanes at index v1 from byte 65504 on. -/
def inSpad (s : State) (f : Fields) (setB legal : Bool) (wp : WpKind) (x : Nat) (off : Int) : Bool :=
  let c := it s
  let as := spadAccs s c f off (2 ^ x) (lanesOf (active c f))
  decide (issuer s = some c) && f.guardLegal && legal && !flagFull c.g (setFlag c.p setB) && active c f != 0
    && as.length == 2 && as.all fun a => decide (0 ≤ a.off) && decide (a.off + 2 ^ x ≤ c.t.size)
      && a.off.toNat % 2 ^ x == 0 && !wpMatch s c.part c.ctx true wp a.off.toNat (2 ^ x) && !spadSrcBad c f a.lane

/-- s8 holds the last bytes of the scratchpad that two 16-byte elements fill. -/
def spad (full : Bool) : State :=
  inTeam (fun t => { t with full := if full then [(4094, true), (4095, true)] else [] })
    (inGroup (fun g => { g.setV 1 1 1 with sregs := [(8, 65504)] }) two)

theorem witness_Scratchpad :
    inSpad (spad true) (fl 2 8 1 0x108 0 4) false
      (spadLegal (it (spad true)) (fl 2 8 1 0x108 0 4) && loadDst (it (spad true)) 4 (opnd 8) (opnd 1)) .rd 4 0 = true
    ∧ ((accGranules 16 (spadAccs (spad true) (it (spad true)) (fl 2 8 1 0x108 0 4) 0 16 [0, 1])).all (spadFull (it (spad true)).t)
      = true
    ∧ (accGranules 16 (spadAccs (spad false) (it (spad false)) (fl 2 8 1 0x108 0 4) 0 16 [0, 1])).all (spadFull (it (spad false)).t)
      = false)
    ∧ inSpad (spad false) (fl 2 8 1 0x108 0 4) false (spadLegal (it (spad false)) (fl 2 8 1 0x108 0 4)) .rd 4 0 = true
    ∧ inSpad (spad true) (fl 1 8 1 0x108 0 3) true
      (spadLegal (it (spad true)) (fl 1 8 1 0x108 0 3) && storeSrc (it (spad true)) 3 (opnd 8)) .wr 3 0 = true
    ∧ (inSpad (spad true) (fl 0 8 1 0x108 0x100 3) false
      (spadLegal (it (spad true)) (fl 0 8 1 0x108 0x100 3) && atomFields (fl 0 8 1 0x108 0x100 3)
        && atomDst (it (spad true)) (fl 0 8 1 0x108 0x100 3)) .at 3 0 = true
      ∧ atomOrder (fl 0 8 1 0x108 0x100 3) = 0) := by decide +kernel

theorem witness_Atomics :
    (accesses (records 3) (fl 0 6 1 0x104 0x1C 3) false
      (memLegal (it (records 3)) (fl 0 6 1 0x104 0x1C 3) && atomDst (it (records 3)) (fl 0 6 1 0x104 0x1C 3)) true .atomic .at 3 [0, 1]
      = true
      ∧ atomFields (fl 0 6 1 0x104 0x1C 3) = true ∧ atomOrder (fl 0 6 1 0x104 0x1C 3) = 3)
    ∧ (accesses (records 2) (fl 0 6 1 0x104 0 2) false
      (memLegal (it (records 2)) (fl 0 6 1 0x104 0 2) && acasDst (it (records 2)) (fl 0 6 1 0x104 0 2)) true .atomic .at 2 [0, 1]
      = true
      ∧ atomFields (fl 0 6 1 0x104 0 2) = true ∧ atomOp (fl 0 6 1 0x104 0 2) = 0) := by decide +kernel

theorem witness_AtomicValues : (32 = 32 ∨ 32 = 64) ∧ (64 = 32 ∨ 64 = 64) ∧ 2 ^ 32 - 1 < 2 ^ 32 ∧ 2 ^ 64 - 1 < 2 ^ 64 := by decide

theorem witness_FencesAndCaches :
    (issuer st0 = some (it st0) ∧ (fl 6 0x160 0x160 0x160 0x160 2).x.toNat < 4
      ∧ [BitVec.ofNat 9 0x160, 0x160].all (· == zeroCode) = true ∧ active (it st0) (fl 6 0x160 0x160 0x160 0x160 2) ≠ 0)
    ∧ (let c := it (records 2)
       issuer (records 2) = some c ∧ memLegal c (fl 1 0x160 1 0x104 0 2) = true
         ∧ recScalar (fl 1 0x160 1 0x104 0 2).b = some 4 ∧ recInvalid (recAt c.g 4) false = false
         ∧ recForbids (recAt c.g 4) 2 = false)
    ∧ (let c := it (records 2)
       rangeLegal (fl 0x14 0 0x160 0x104 0 0) = true ∧ rangeLegal (fl 6 0 0x160 0x104 0 0) = true
         ∧ flagFull c.g (setFlag c.p true) = false ∧ active c (fl 0x14 0 0x160 0x104 0 0) ≠ 0
         ∧ memBad c (fl 0x14 0 0x160 0x104 0 0) 0 = false ∧ (recAt c.g 4).swizzle = 0)
    ∧ (getKnow stored9 (.thread 0 0)).released = [9]
    ∧ (getKnow (modKnow two (.thread 0 0) fun k => { k with met := [release1] }) (.thread 0 0)).met = [release1] := by decide +kernel

/-- A group that has arrived at slot 3, whose phase is still open. -/
def arrived3 : State :=
  inTeam (fun t => { t with barrier := [(3, { arrived := [0] })] }) (inGroup (fun g => { g with arrived := [(3, 1)] }) st0)

theorem witness_Barriers :
    (issuer st0 = some (it st0) ∧ barLegal (fl 3 0 0x18F 0x160 0 0) = true ∧ active (it st0) (fl 3 0 0x18F 0x160 0 0) ≠ 0
      ∧ srcBad (it st0) false (opnd 0x18F) 0 = false ∧ srcVal st0 (it st0) .w32 (opnd 0x18F) 0 < (it st0).t.bars
      ∧ arrivedNow (it st0) 15 = false ∧ (it st0).p.wait = .none)
    ∧ (issuer arrived3 = some (it arrived3) ∧ barLegal (fl 6 0 0x183 0x160 0 0) = true ∧ arrivedNow (it arrived3) 3 = true
      ∧ srcVal arrived3 (it arrived3) .w32 (opnd 0x183) 0 = 3 ∧ 3 < (it arrived3).t.bars)
    ∧ ((it arrived3).p.wait = .none
      ∧ (let s := inGroup (fun g => { g with sregs := [(6, 64)] }) st0
         issuer s = some (it s) ∧ (it s).t.bars ≤ srcVal s (it s) .w32 (opnd 0x106) 0 ∧ srcBad (it s) false (opnd 0x106) 0 = false
           ∧ barLegal (fl 6 0 0x106 0x160 0 0) = true ∧ active (it s) (fl 6 0 0x106 0x160 0 0) ≠ 0))
    ∧ ([((2 ^ 31 - 1 : Int), 0x181), (-(2 ^ 31) - 1, 0x160)].all fun e =>
      let s := inTeam (fun t => { t with barrier := [(3, { pending := e.1 })] }) st0
      let v := (getBar (it s).t 3).pending + (srcVal s (it s) .w32 (opnd e.2) 0 : Int)
      decide (issuer s = some (it s)) && uniformData (opnd e.2) && !srcBad (it s) false (opnd e.2) 0
        && (decide (2 ^ 31 ≤ v) || decide (v < -(2 ^ 31)))) = true
    ∧ (let s := inPath (fun p => { p with wait := .barrier 3 0 }) st0
       issuer s = some (it s) ∧ (it s).p.wait = .barrier 3 0 ∧ (getBar (it s).t 3).done = 0
         ∧ (getBar (it (inTeam (fun t => { t with barrier := [(3, { done := 1 })] }) s)).t 3).done ≠ 0)
    ∧ (let s := inTeam (fun t => { t with barrier := [(3, { done := 1, passed := [(0, [release1])] })] }) two
       (spFind (getBar (it s).t 3).passed 0).getD [] = [release1] ∧ release1.observed s ((Agent.thread 0 0).place s) 4 = true)
    ∧ (uniformData (opnd 0x1BF) = true ∧ barSlotLegal (opnd 0x183) = true
      ∧ (getBar (it st0).t 3).pending + (srcVal st0 (it st0) .w32 (opnd 0x1BF) 0 : Int) < 2 ^ 31
      ∧ -(2 ^ 31) ≤ (getBar (it st0).t 3).pending + (srcVal st0 (it st0) .w32 (opnd 0x1BF) 0 : Int))
    ∧ (uniformData (opnd 0x1B0) = true ∧ srcBad (it st0) false (opnd 0x1B0) 0 = false
      ∧ srcVal st0 (it st0) .w32 (opnd 0x1B0) 0 = 48 ∧ 48 + 48 ≤ (it st0).t.size) := by decide +kernel

/-! ## Witnesses: percolator, matrix array, neural calls -/

/-- The hypotheses `Counts`, for an instruction of the state. -/
def counts (s : State) (f : Fields) (setB legal : Bool) : Bool :=
  decide (issuer s = some (it s)) && f.guardLegal && legal && !flagFull (it s).g (setFlag (it s).p setB) && active (it s) f != 0

/-- FMT of the path. -/
def fmtOf (n : Nat) (s : State) : State := inPath (fun p => { p with fmt := BitVec.ofNat 32 n }) s

/-- Two lanes with different values in v2; the scratchpad starts with a RAW frame of four bytes; s8 = 8. -/
def packs : State :=
  inTeam (fun t => { t with spad := [(0, 0x03), (2, 1), (3, 2), (4, 3), (5, 4)] })
    (inGroup (fun g => { (g.setV 2 0 5).setV 2 1 7 with sregs := [(8, 6), (9, 4)] }) two)

theorem witness_PercolatorForms :
    ([(fl 0 5 2 0x160 0 0), (fl 0 5 2 0x160 0 1), (fl 0 5 2 0 0 2), (fl 0 6 2 0 0 6), (fl 0 0x104 2 0x160 0 7),
        (fl 2 6 2 0 0 10)].all fun f =>
      counts packs f false (xfLegal (it packs) f) && (vecBlock (it packs) f.a (xfRegs f.x.toNat)).isSome
        && (poisonedLane (it packs).g 2 (xfRegs f.x.toNat)).isNone && !srcBad (it packs) false (opnd f.b) 0) = true
    ∧ ([(fl 0 32 64 0x108 0 8), (fl 0 64 32 0x108 0 9)].all fun f =>
      let s := fmtOf 0x4186 packs
      counts s f false (xfLegal (it s) f) && (vecBlock (it s) f.a (xfRegs f.x.toNat)).isSome
        && !srcBad (it s) (f.x == 9) (opnd f.b) 0) = true
    ∧ (counts packs (fl 1 4 2 0 0 0) false ((fl 1 4 2 0 0 0).b == 0 && vdstLegal (it packs) true (opnd 4)
        && blockLegal (it packs) 2 1) = true
      ∧ (lanesOf (active (it packs) (fl 1 4 2 0 0 0))).all (fun l => !(it packs).g.badV 2 l) = true)
    ∧ (let f := fl 0 5 0x160 0x109 0x108 3
       counts packs f false (decLegal (it packs) f) = true ∧ vecBlock (it packs) f.d 1 = some 5
         ∧ [f.a, f.b, f.c].any (fun x => srcBad (it packs) false (opnd x) 0) = false
         ∧ srcVal packs (it packs) .w32 (opnd f.b) 0 ≤ 256 ∧ 0 + srcVal packs (it packs) .w32 (opnd f.c) 0 ≤ (it packs).t.size)
    ∧ (let f := fl 0 0x10A 2 0x160 0x1BF 3
       counts packs f true (encLegal (it packs) f) = true ∧ vecBlock (it packs) f.a 1 = some 2
         ∧ poisonedLane (it packs).g 2 1 = none ∧ 0 + srcVal packs (it packs) .w32 (opnd f.c) 0 ≤ (it packs).t.size) := by
  decide +kernel

theorem witness_PackedBlocksExpand :
    (List.replicate 32 5).length = 32 ∧ (List.replicate 32 5).all (fun w => decide (w < 2 ^ 32)) = true := by decide +kernel

/-- s8 = 0 and s9 = 128; weight slot 1 is free, slot 2 is another team's. -/
def loads : State :=
  let s := inGroup (fun g => { g with sregs := [(9, 128)] }) st0
  setWeight s 0 2 { holder := some 9 }

theorem witness_WeightBuffer :
    ([1, 2].all fun r => counts loads (fl r 0 0 0 0 2) true (mldwLegal (fl r 0 0 0 0 2)) && bindingFree loads 0 0 r == (r == 1)) = true
    ∧ ([(fl 1 0 0x108 0x109 0 0), (fl 2 0 0x108 0x109 0 1)].all fun f =>
      counts loads f true (mldwLegal f) && !f.x.getLsbD 1 && srcVal loads (it loads) .w32 (opnd f.b) 0 == 128
        && srcVal loads (it loads) .w32 (opnd f.a) 0 % 4 == 0 && (zbSpan (it loads).t 1 0).isSome
        && bindingFree loads 0 0 f.mod.toNat == (f.mod == 1)) = true
    ∧ (let f := fl 1 0 0x108 0x109 0 0
       counts loads f true (uniformData (opnd f.a) && uniformData (opnd f.b)) = true
         ∧ srcVal loads (it loads) .w32 (opnd f.b) 0 ≤ 4096)
    ∧ (let s := fmtOf 0x186 loads
       mtrnLegal (it s) (fl 0 64 0 0 0 0) = true ∧ mtrnLegal (it s) (fl 0 64 0 0 0 1) = true
         ∧ vecBlock (it s) 64 8 = some 64 ∧ vecBlock (it s) 64 32 = some 64 ∧ vecBlock (it s) 0 32 = some 0
         ∧ poisonedLane (it s).g 0 32 = none) := by decide +kernel

/-- The path's clause holds an instruction. -/
def holding (i : Instr) (s : State) : State := inPath (fun p => { p with
  clause := match encode i with
    | some [a, b, c] => some (lonelyClause a.toNat b.toNat c.toNat)
    | _ => none }) s

/-- A team of one group that holds weight slot 0, with the latch 1 of this group alone; FMT is f16 by f16 into f32. -/
def multiplies : State :=
  inTeam (fun t => { t with latch := [(1, { members := [0] })], tsize := 2 })
    (setWeight (inGroup (fun g => { g with sregs := [(8, 2), (9, 3)] }) (fmtOf 0xC3 st0)) 0 0 { holder := some 0 })

/-- All members of the latch wait at their MMA. -/
def joined : State :=
  inPath (fun p => { p with wait := .latch 1 }) (holding (.mma (fl 0x11 32 0 0 0x160 2))
    (inTeam (fun t => { t with latch := [(1, { members := [0], arrived := [⟨0, 0⟩] })] }) multiplies))

/-- A gang of two groups whose MMAs differ in their fragment of B. -/
def mixed : State :=
  let s := inTeam (fun t => { t with
    groups := [0, 1], latch := [(1, { members := [0, 1], arrived := [⟨0, 0⟩, ⟨1, 0⟩] })] }) joined
  { s with groups := s.groups ++ (holding (.mma (fl 0x11 32 0 64 0x160 2)) joined).groups.map fun e =>
      (1, { e.2 with index := 1, place := some 1 }) }

theorem witness_MatrixMultiply :
    (let f := fl 0 32 0 0 0x160 2
     let c := it multiplies
     issuer multiplies = some c ∧ mmaCheck multiplies c f = none ∧ flagFull c.g (setFlag c.p false) = false
       ∧ mmaGanged f = false ∧ groupAtoms multiplies c.gid = false ∧ (match mmaSlab multiplies c f (threadsOf c.gid c.p.mask) with
         | .ok _ false _ => true
         | _ => false) = true ∧ mmaScaleBad multiplies c f = false)
    ∧ (let f := fl 0x11 32 0 0 0x160 2
       let c := it multiplies
       f.guardPathWide = true ∧ mmaGid f < c.t.latchN ∧ mmaGanged f = true ∧ (getLatch c.t (mmaGid f)).broken = false
         ∧ (getLatch c.t (mmaGid f)).members.contains c.g.index = true ∧ c.p.failed = false)
    ∧ (let f := fl 0 0 0x108 0x109 0 0
       let c := it multiplies
       gangLegal f = true ∧ active c f ≠ 0 ∧ srcBad c false (opnd f.a) 0 = false ∧ srcBad c false (opnd f.b) 0 = false
         ∧ srcVal multiplies c .w32 (opnd f.a) 0 < c.t.latchN ∧ f.b ≠ zeroCode
         ∧ gangMaskOk c (srcVal multiplies c .w32 (opnd f.b) 0) = true ∧ (getLatch c.t 2).members = []
         ∧ gangLegal (fl 0 0 0x108 0x160 0 0) = true)
    ∧ (getTeam joined 0 = some (it joined).t ∧ (match joinedMembers joined (it joined).t 1 with
        | some [(c, f)] => c.gid == 0 && f == fl 0x11 32 0 0 0x160 2 && (mmaCheck joined c f).isNone && !mmaScaleBad joined c f
          && match mmaSlab (modLatch joined 0 1 fun l => l.joined [(c, f)]) c f (threadsOf c.gid c.p.mask) with
            | .ok _ false _ => true
            | _ => false
        | _ => false) = true)
    ∧ (match joinedMembers mixed (it mixed).t 1 with
        | some [a, b] => gangKey a.1 a.2 != gangKey b.1 b.2
        | _ => false) = true
    ∧ (List.replicate 32 (((1 : Nat), (none : Option XReal)), ((1 : Nat), (none : Option XReal)))).length = 32 := by
  decide +kernel

/-- Token 3 is pending for an NCALL, token 4 done with ERR; s8 = 5; the path waits for token 3. -/
def calls : State :=
  inGroup (fun g => { g with sregs := [(8, 5)], tokens := [(3, { st := .pending, neural := true, left := 3 }), (4, { st := .done true })] })
    two

theorem witness_NeuralCalls :
    (issuer calls = some (it calls) ∧ tokenOf 0x1E3 = some 3 ∧ tokenOf 0x1E4 = some 4 ∧ (it calls).g.tokPending 3 = true
      ∧ (it calls).g.tokPending 4 = false ∧ allZero [(0 : BitVec 9), 0, 0] = true ∧ active (it calls) (fl 0 0 0x1E3 0 0 0) ≠ 0)
    ∧ writes (fl 0 5 0x1E4 0 0 1) (fun _ => decide (tokenOf 0x1E4 = some 4) && allZero [(0 : BitVec 9), 0] && predLegal 5)
        (fun _ _ _ => false) = true
    ∧ (let f := fl 7 0x1E4 0x108 8 32 0
       let c := it calls
       handleLegal c f.a = true ∧ blockLegal c f.b.toNat (f.mod.toNat + 1) = true ∧ blockLegal c f.c.toNat 32 = true
         ∧ srcBad c false (opnd f.a) 0 = false
         ∧ ((lanesOf (active c f)).all fun l => (List.range 8).all fun i => !c.g.badV (f.b.toNat + i) l) = true
         ∧ srcVal calls c .w32 (opnd f.a) (lowLane (active c f)) < 2 ^ 16)
    ∧ (hintLegal (it calls) (fl 0 0 0x108 0 0 1) true = true ∧ hintLegal (it calls) (fl 0 0 0x108 0 0 0) true = true)
    ∧ (hintLegal (it calls) (fl 0 0 0x108 0 0 0) false = true ∧ srcBad (it calls) false (opnd 0x108) 0 = false
      ∧ active (it calls) (fl 0 0 0x108 0 0 0) ≠ 0) := by decide +kernel

/-- A row of lane 0 for token 3. -/
def row0 : NRow := { gid := 0, tok := 3, lane := 0, first := 32, input := [0], at_ := 0 }

/-- A bin whose caller waits for its token, and a tile of handle 5. -/
def bins : State :=
  let s := inGroup (fun g => { g with tokens := [(3, { st := .pending, neural := true, first := 32, count := 32, left := 1 })] })
    (inPath (fun p => { p with wait := .token 3 }) (paged two))
  modCluster { s with tiles := [(7, { cluster := 0, part := 0, ctx := 0, handle := 5, rows := [row0] })], order := 8 } 0 fun k =>
    { k with bins := [{ ctx := 0, part := 0, handle := 5, rows := [row0] }] }

/-- A tile whose handle's table page is not mapped: the walk finds no entry. -/
def unmapped : State := { bins with mem := [(1, 4), (8, 0x38), (0x400, 0x01), (0x401, 0x10)] }

theorem witness_NeuralTiles :
    (findBin bins 0 0 5 = some { ctx := 0, part := 0, handle := 5, rows := [row0] } ∧ (getCluster bins 0).fenced = false
      ∧ allCallersWait bins 0 0 = true)
    ∧ (let s := { bins with clk := 64 }
       findBin s 0 0 5 = some { ctx := 0, part := 0, handle := 5, rows := [row0] } ∧ row0.at_ + 64 ≤ s.clk)
    ∧ (spFind bins.tiles 7 = some { cluster := 0, part := 0, ctx := 0, handle := 5, rows := [row0] }
      ∧ (match fetchSet bins 0 0 0 5 with
        | .err => true
        | _ => false) = true
      ∧ (match fetchSet unmapped 0 0 0 5 with
        | .fault _ _ _ => canReport unmapped 0
        | _ => false) = true
      ∧ (let t : Tile := { cluster := 0, part := 0, ctx := 0, handle := 5, rows := [row0], failed := true }
         spFind { unmapped with tiles := [(7, t)] }.tiles 7 = some t ∧ t.failed = true ∧ t.batch = none))
    ∧ ((match xlateSet bins (.barista 0) 0 0 .read (ctxSup bins 0 0) [⟨0, 0x3000, 128, false⟩] with
        | .ok [_] => true
        | _ => false) = true
      ∧ (bins.tiles.any fun e => e.2.cluster == 0 && e.2.part == 0 && e.2.ctx == 0 && e.2.batch.isNone) = true) := by
  decide +kernel

/-! ## Witnesses: traps, waiting, jobs, system registers -/

/-- Memory with a trap table at 0x3000 whose entries for SYSTEM, BREAKPOINT and SOFTWARE name clause 0 with handle 1. -/
def trapTable (s : State) : State :=
  let p := paged s
  { p with mem := [(1, 4), (8, 0x38), (49, 0x30), (0x400, 0x01), (0x401, 0x10), (0x1000, 0x01), (0x1001, 0x20), (0x2000, 0x0F),
    (0x3006, 1), (0x3096, 1), (0x309E, 1)] }

/-- The hypotheses of a trap into the handler of a cause. -/
def handled (s : State) (cause : Nat) : Bool :=
  let c := it s
  decide (issuer s = some c) && c.g.stack.length < 512
    && match readRange s (.core c.core) c.part c.ctx .table true ((ctxBase s c.part c.ctx 384 + 8 * cause) % 2 ^ 64) 8 with
      | .ok bytes false => leNat bytes / 2 ^ 48 % 2 ^ 16 != 0 && leNat bytes % 4 == 0
      | _ => false

/-- A path of lane 0 inside a handler, whose record holds lanes 0 and 1. -/
def inHandler : State :=
  inGroup (fun g => { g with stack := [{ kind := .trap, addr := 64, mask := 3, aux := 0, fmt := 0xC3, handle := 1, cause := 0x13 }] })
    (inPath (fun p => { p with mask := 1 }) st0)

theorem witness_TrapsAndHandlers :
    ((fl 0 0x105 0 0 7 0).guardLegal = true ∧ trapLegal (fl 0 0x105 0 0 7 0) = true ∧ active (it (trapTable two)) (fl 0 0x105 0 0 7 0) ≠ 0
      ∧ handled (trapTable two) 0x13 = true ∧ handled (trapTable two) 0x12 = true ∧ handled (trapTable two) 0 = true
      ∧ spGet false (getPart (trapTable two) 0).dbgCtx 0 = false)
    ∧ spGet false (getPart (inPart (fun p => { p with dbgCtx := [(0, true)] }) two) 0).dbgCtx 0 = true
    ∧ (issuer inHandler = some (it inHandler) ∧ (fl 0 0 0 0 0 0).guardPathWide = true
      ∧ (topRec (it inHandler).g .trap (it inHandler).p.mask).isSome = true)
    ∧ (it (trapTable two)).p.handler = none
    ∧ (match readRange (trapTable two) (.core 0) 0 0 .table true ((ctxBase (trapTable two) 0 0 384 + 8 * 0x11) % 2 ^ 64) 8 with
      | .ok bytes _ => leNat bytes == 0
      | _ => false) = true
    ∧ (it (inGroup (fun g => { g with
        stack := List.replicate 512 { kind := .trap, addr := 0, mask := 0, fmt := 0, handle := 1 } }) two)).g.stack.length = 512 := by
  decide +kernel

theorem witness_IllFormedTraps :
    (Instr.bany (fl 0 1 0 0 0 0)).isProgram = true ∧ ¬(Instr.bany (fl 0 1 0 0 0 0)).WellFormed ∧ issuer st0 = some (it st0) := by
  unfold Instr.WellFormed
  decide +kernel

/-- The path waits at an instruction. -/
def waitingAt (w : Wait) (i : Instr) (s : State) : State := inPath (fun p => { p with wait := w }) (holding i s)

theorem witness_WakesAndCompletions :
    (let s := waitingAt .channel (.mov (fl 0 0x142 1 0 0 0)) (chans 2)
     issOf s ⟨0, 0⟩ = some (it s) ∧ (it s).p.wait = .channel ∧ slotInstr (it s).p = some (.mov (fl 0 0x142 1 0 0 0))
       ∧ mayRetry s (it s) = true
       ∧ (let t := inGroup (fun g => { g with halt := some .halted }) s
          issOf t ⟨0, 0⟩ = some (it t) ∧ mayRetry t (it t) = false))
    ∧ ([true, false].all fun b =>
      let f := fl 2 8 1 0x108 0 4
      let s := waitingAt .fullEmpty (.lds f) (spad b)
      issOf s ⟨0, 0⟩ == some (it s) && mayRetry s (it s) && (it s).p.wait == .fullEmpty && slotInstr (it s).p == some (.lds f)
        && (accGranules 16 (spadAccs s (it s) f f.imm9 16 (accessLanes (it s) f))).all (spadFull (it s).t) == b) = true
    ∧ ([1, 2].all fun r =>
      let f := fl r 0 0x108 0x109 0 0
      let s := waitingAt (.binding r) (.mldw f) loads
      issOf s ⟨0, 0⟩ == some (it s) && mayRetry s (it s) && (it s).p.wait == .binding r && slotInstr (it s).p == some (.mldw f) && bindingFree s 0 0 r == (r == 1)) = true
    ∧ (let s := { st0 with ops := [(5, { gid := 0, flag := some 2, left := 0, writes := [.vec 3 0 7 false] })] }
       (spFind s.ops 5).map (fun o => (o.left, o.batch, o.heldByFence s, o.reads)) = some (0, none, false, []))
    ∧ (getTeam arrived3 0 = some (it arrived3).t ∧ (it arrived3).t.groups = [0] ∧ (it arrived3).g.saved = false
      ∧ (it arrived3).g.ended = false ∧ (spGet {} (it arrived3).t.barrier 3).arrived = [0]
      ∧ (spGet {} (it arrived3).t.barrier 3).pending = 0 ∧ (spGet {} (it arrived3).t.barrier 4).arrived = []) := by decide +kernel

theorem witness_HomeSliceAtomics :
    ((getPart (inPart (fun p => { p with atoms := [request] }) st0) 0).atoms = [request] ∧ request.kind ≠ 3
      ∧ request.kind ≠ 1 ∧ request.size = 4 ∧ request.loc % request.size = 0 ∧ request.loc < 2 ^ 39)
    ∧ (getPart st0 0).atoms = [] ∧ (getPart st0 0).l2 = [] ∧ (getPart two 0).l2 = []
    ∧ (let a := { request with loc := 0x3000, va := 0x3000, acquire := some 4 }
       release1 ∈ (rmwUnit { stored9 with know := spSet {} stored9.know (Agent.thread a.gid a.lane).key a.know } (.thread a.gid a.lane)
         a.cmp a.kind a.va a.loc a.size a.over []).1.rels
       ∧ a.acquire = some 4 ∧ a.release = none ∧ release1.observed stored9 ((Agent.thread a.gid a.lane).place stored9) 4 = true) := by
  decide +kernel

/-- The object at 0x3000, of zeros but for bytes 0 and 1; s4 points at it. -/
def object (a b : Byte) (s : State) : State :=
  let p := paged s
  inGroup (fun g => { g with sregs := [(4, 0x3000)] }) { p with mem := p.mem ++ [(0x3000, a), (0x3001, b)] }

/-- The hypothesis `ReadsObject`, for some bytes. -/
def readsObject (s : State) (n : Nat) : Bool :=
  let c := it s
  match xlCore s c .read ((rangeAccs 0x3000 n).map fun a => { a with lane := 0 }) with
  | .ok ls => ls.all (fun l => !atomAhead s [.thread c.gid 0] l) && !(readSet s [.thread c.gid 0] ls).1.bad
  | _ => false

theorem witness_JobInstructions :
    (let s := object 5 3 two
     let c := it s
     let f := fl 0 0x106 0x104 0 0 0
     counts s f true (jobLegal c f) = true ∧ srcBad c true (opnd f.a) 0 = false ∧ srcVal s c .q64 (opnd f.a) 0 = 0x3000
       ∧ readsObject s 64 = true ∧ (cardOf 0x305).fpcount = 0 ∧ (cardOf 0x305).ok (some c.t.bars) = true
       ∧ cardCount s c.part < 16384)
    ∧ (let s := object 5 0xB two
       readsObject s 96 = true ∧ (cardOf 0xB05).fpcount = 1 ∧ (cardOf 0xB05).ok (some 1) = true)
    ∧ writes (fl 0 0x106 0x104 0 0 0) (fun c => dstLegal c true (opnd 0x106)) (fun _ _ _ => false) = true
    ∧ spFind (it st0).t.tickets 0 = none := by decide +kernel

/-- A job of a kind on one row of 16 bytes at 0x3000, inside its footprint; its index list, if any, is there as well. -/
def jobOf (kind cword : Nat) (ph : JobPhase) : Job :=
  { part := 0, cluster := 0, ctx := 0, stream := .team 0, order := 9, team := some 0, op := some 5, phase := ph
    card := { kind := kind, scope := 3, fpcount := 1, bar := 1, bvalid := true, spsrc := false, spdst := false, jobid := 7
              src := 0x3000, dst := 0x3000, spitch := 16, dpitch := 16, rowBytes := 16, rows := 1, p0 := 0x3000, p1 := 0
              cword := cword, regions := [{ base := 0x3000, pitch := 4096, rowBytes := 4096, rows := 1, rd := true, wr := true, spad := false }] } }

/-- A state with one job, number 4, whose operation is number 5. -/
def withJob (j : Job) : State :=
  { paged two with jobs := [(4, j)], ops := [(5, { gid := 0, flag := some 2, left := 1 })] }

/-- The job's rows lie in a page that is not mapped. -/
def jobUnmapped (j : Job) : State := { withJob j with mem := [(1, 4), (8, 0x38), (0x400, 0x01), (0x401, 0x10)] }

/-- What the unit's data is, without its bytes. -/
def hasData (s : State) (j : Job) : Bool :=
  match unitData s 4 j with
  | .data _ _ _ _ _ _ => true
  | _ => false

def translates (x : XlSet) : Bool :=
  match x with
  | .ok _ => true
  | _ => false

theorem witness_JobEvents :
    (jobMayStart (withJob (jobOf 1 0 .entered)) (jobOf 1 0 .entered) = true
      ∧ footprintOk (jobOf 1 0 .entered).card 65536 [] = true ∧ footprintOk { (jobOf 1 0 .entered).card with dst := 0 } 65536 [] = false)
    ∧ (let j := jobOf 2 0 .entered
       let s := withJob j
       jobMayStart s j = true ∧ extentOk j.card 0 false false j.card.p0 (4 * j.card.rows) = true
         ∧ translates (jobXlate (learn s (.job 4) (streamIds s j.stream j.order j.card.regions)) j .read j.card.p0 (4 * j.card.rows)) = true
         ∧ j.team.isSome = true ∧ { j with team := none }.team.isSome = false)
    ∧ (let j := jobOf 1 0 .running
       let s := withJob j
       spFind s.jobs 4 = some j ∧ j.unit < j.unitCount ∧ hasData s j = true ∧ j.card.spdst = false
         ∧ translates (xlateSet s (.job j.cluster) j.part j.ctx .write (ctxSup s j.part j.ctx)
             ((j.unitDst j.unit).flatMap fun p => rangeAccs p.1 p.2)) = true
         ∧ translates (xlateSet s (.job j.cluster) j.part j.ctx .read (ctxSup s j.part j.ctx) (rangeAccs 0x3000 16)) = true)
    ∧ (jobOf 5 0 .running).card.kind = 5
    ∧ (let s := jobUnmapped (jobOf 1 0 .running)
       (jobFault s 4 (jobOf 1 0 .running)).isSome = true ∧ canReport s 0 = true)
    ∧ (jobOf 1 0 .suspended).batch = none
    ∧ (let j := jobOf 1 0x3008 .finishing
       wordWanted (jobOf 1 0 .finishing) 1 = false ∧ wordWanted j 1 = true
         ∧ translates (jobXlate (withJob j) j .write j.card.cword 8) = true)
    ∧ (let j := { jobOf 1 0 .finishing with team := none, op := none, src := some (1, 2) }
       j.team = none ∧ j.op = none ∧ j.src = some (1, 2))
    ∧ (let s := withJob (jobOf 1 0 .finishing)
       (spFind s.ops 5).isSome = true ∧ getTeam s 0 = some (it s).t ∧ (it s).t.phase ≠ .ended ∧ (it s).t.frame = none) := by
  decide +kernel

theorem witness_LaunchAndSpawn :
    (let s := object 1 0 two
     let c := it s
     let f := fl 0 0x106 0x104 0 0 0
     issuer s = some c ∧ f.guardLegal = true ∧ launchLegal c f = true ∧ active c f ≠ 0 ∧ srcBad c true (opnd f.a) 0 = false
       ∧ srcVal s c .q64 (opnd f.a) 0 % 64 = 0 ∧ readsObject (publishAt s c.core 4) 64 = true ∧ nodeCount s c.part < 4096)
    ∧ (let s := { object 1 0 two with nodes := (List.range 4096).map fun i => (i, lonelyNode) }
       4096 ≤ nodeCount s 0)
    ∧ (let s := inPath (fun p => { p with wait := .verdict 9 }) two
       issOf s ⟨0, 0⟩ = some (it s) ∧ (it s).p.wait = .verdict 9 ∧ (it s).p.clause.isSome = true ∧ (it s).g.frame = none) := by
  decide +kernel

/-- The fields of SRD, SWR and PERF for a register. -/
def sys (d a n : Nat) : Fields := fl 0 d a (n / 512) (n % 512) 0

theorem witness_SystemRegisters :
    ([0, 1, 2, 3, 4, 0x10, 0x15, 0x20, 0x21, 0x100, 0x13F].all fun n =>
      writes (sys 0x106 0x160 n) (fun c => dstLegal c true (opnd 0x106) && (sys 0x106 0x160 n).imm18.toNat == n)
        (fun _ _ _ => false)) = true
    ∧ ([0, 1, 2, 3, 4, 0x10, 0x15, 0x20, 0x21, 0x100, 0x13F, 0x140].all fun n =>
      let f := sys 0x160 0x104 n
      f.guardLegal && f.mod == 0 && f.x == 0 && f.d == zeroCode && active (it two) f != 0
        && swrSource (it two) true (opnd f.a) && swrSource (it two) false (opnd f.a) && !srcBad (it two) true (opnd f.a) 0) = true
    ∧ (∃ r ∈ (it inHandler).g.stack, r.kind = .trap) ∧ (it two).g.stack = []
    ∧ (it (paged two)).sup (paged two) = true ∧ (it two).sup two = false
    ∧ ([0, 1, 2, 3].all fun n => writes (sys 0x106 0 n) (fun c => dstLegal c true (opnd 0x106)) (fun _ _ _ => false)) = true := by
  decide +kernel

/-! ## Witnesses: populations, rays, textures, visibility -/

/-- The node's launch is a population, or persistent. -/
def kernel (f : KDesc → KDesc) (s : State) : State := inNode (fun n => { n with descs := n.descs.map f }) s

/-- A population of two threads, both in the path; v1 holds the weight 1. -/
def popul : State :=
  inNode (fun n => { n with popSize := 2 }) (kernel (fun d => { d with population := true })
    (inGroup (fun g => (g.setV 1 0 0x3F800000).setV 1 1 0x3F800000) two))

/-- An arrival of the group with a target of four threads. -/
def arrival (target : Nat) : ResampArrival :=
  { path := ⟨0, 0⟩, weights := [(0, 0x3F800000), (1, 0x3F800000)], target := target, explicit := false, seed := 0, dst := none, next := 0
    behind := (it popul).p }

def arrivedPop (as : List ResampArrival) : State :=
  inPath (fun p => { p with wait := .resamp }) (inNode (fun n => { n with arrivals := as }) popul)

def spawnRec : SpawnRec := { pidx := 1, lin := 0, vregs := [], preds := [], addr := 0, slot := 0 }

theorem witness_Populations :
    (let f := fl 0 0x105 1 0x184 0x160 0
     let c := it popul
     issuer popul = some c ∧ resampFields c f = true ∧ ((lanesOf c.p.mask).all fun l => !srcBad c false (opnd f.a) l) = true
       ∧ srcBad c false (opnd f.b) 0 = false ∧ srcBad c true (opnd f.c) 0 = false ∧ srcVal popul c .w32 (opnd f.b) 0 = 4
       ∧ isPopulation popul c.t = true ∧ resampAlone c.g c.p = true ∧ isPopulation two (it two).t = false)
    ∧ (resampCounts [XReal.ofNat 1, XReal.ofNat 1] 4 .zero).isSome = true
    ∧ (let s := arrivedPop [arrival 4]
       match getNode s 0 with
       | some n => popArrived s 0 n && n.arrivals == [arrival 4] && (resampFinish s 0 n (arrival 4)).isSome
       | none => false) = true
    ∧ (let s := arrivedPop [arrival 4, arrival 5]
       match getNode s 0 with
       | some n => popArrived s 0 n && n.arrivals == [arrival 4, arrival 5]
       | none => false) = true
    ∧ (let s := inNode (fun n => { n with spawns := [spawnRec] }) (paged popul)
       match getNode s 0 with
       | some n => !n.spawns.isEmpty && ctxPlaces s n.part n.ctx
           && (findCore s n.part n.k0.need (if n.k0.spread then n.avoid s else none)).isSome
       | none => false) = true
    ∧ (let f := fl 0 0x105 0 0 0 0
       let s := kernel (fun d => { d with persistent := true }) two
       let t := inNode (fun n => { n with workn := 2 }) s
       issuer s = some (it s) ∧ f.guardPathWide = true ∧ refillLegal (it s) f = true ∧ spFind (it s).g.refill (it s).live = none
         ∧ ((getNode two 0).map fun n => n.k0.persistent) = some false
         ∧ ((getNode s 0).map fun n => (n.k0.persistent, n.workn, n.dispensed)) = some (true, 0, 0)
         ∧ ((getNode t 0).map fun n => (n.k0.persistent, n.workn, n.dispensed)) = some (true, 2, 0)
         ∧ (it t).g.held ≠ BitVec.allOnes 64) := by decide +kernel

/-- The traversal state of a ray from the origin along x, with the root at 0x3000. -/
def ray0 (mode tok : Nat) : RayState :=
  { ray := [0, 0, 0, 0, 0x3F800000, 0, 0, 0x7F800000], root := 0x3000, mode := mode, coh := false, km1 := 0, first := 32, tok := tok
    pend := [(255, 0x3000)] }

/-- Token 3 is done; lane 0 has a finished round of mode 2 with more hits, lane 1 one without. -/
def rays : State :=
  inGroup (fun g => { g with
    sregs := [(4, 0x3000)], tokens := [(3, { st := .done false })]
    rays := [(0, { ray0 2 3 with active := false, more := true }), (1, { ray0 2 3 with active := false })] }) (paged two)

/-- Lane 0 is being traversed. -/
def active0 (r : RayState) (mem : List (Nat × Byte)) : State :=
  let s := inGroup (fun g => { g with tokens := [(3, { st := .pending, first := 32, count := 6, left := 1 })], rays := [(0, r)] })
    (paged two)
  { s with mem := s.mem ++ mem }

theorem witness_Rays :
    (let f := fl 0 0x1E3 0x104 8 32 0
     let c := it rays
     issuer rays = some c ∧ f.guardLegal = true ∧ traceLegal c f = true ∧ active c f ≠ 0 ∧ tokenOf f.d = some 3
       ∧ c.g.tokPending 3 = false ∧ busyToken c.g (lanesOf (active c f)) = none ∧ srcBad c true (opnd f.a) 0 = false
       ∧ ((lanesOf (active c f)).all fun l => (List.range 8).all fun i => !c.g.badV (f.b.toNat + i) l) = true
       ∧ (it calls).g.tokPending 3 = true)
    ∧ (tokenOf 0x1E3 = some 3 ∧ ((it rays).g.tok 3).neural = false ∧ allZero [(0 : BitVec 9), 0, 0] = true)
    ∧ (vdstLegal (it rays) false (opnd 5) = true ∧ (fl 0 5 0x1E3 0 0 2).x.toNat < 3)
    ∧ (let s := active0 (ray0 0 3) []
       getGroup s 0 = some (it s).g ∧ spFind (it s).g.rays 0 = some (ray0 0 3) ∧ (it s).g.saved = false ∧ groupAtoms s 0 = false
         ∧ (match rayForm ((ray0 0 3).ray.map (·.toNat)) with
           | .walk ray => (match walkPending ⟨0, 0, 0, 0, 0, {}⟩ ray 0 0x7F800000 (fun k => k != 3) (ray0 0 3).pend.zipIdx.reverse s (ray0 0 3).cand with
             | .ok (hs, _) => hs.isEmpty
             | _ => false)
           | _ => false) = true
         ∧ (match rayForm ([0, 0, 0, 0, 0, 0, 0, 0] : List Nat) with
           | .empty => true
           | _ => false) = true)
    ∧ ({ ray0 0 3 with failed := true }).failed = true ∧ ({ ray0 0 3 with root := 64 }).root % 128 ≠ 0
    ∧ (ray0 0 3).mode ≠ 2 ∧ (ray0 2 3).mode = 2 := by decide +kernel

/-- A 2 by 2 image of f32 at 0x3000 in s4 to s7, whose first texel is 1; coordinates 1/2 in v1 and v2, and 1 and 0 in v3
and v4. -/
def image0 : State :=
  let s := inGroup (fun g => { (([0, 1].foldl (fun g l => (g.setV 1 l 0x3F000000).setV 2 l 0x3F000000) g).setV 3 1 1) with
    sregs := [(4, 0x3000), (6, 0x20002), (7, BitVec.ofNat 32 (2 ^ 31 + 2 ^ 23 + 2 * 2 ^ 20 + 3 * 2 ^ 16))] }) (paged two)
  { s with mem := s.mem ++ [(0x3002, 0x80), (0x3003, 0x3F)] }

/-- The hypotheses of TEX and TEXG. -/
def sampled (f : Fields) (mode : Nat) (linear : Bool) : Bool :=
  let s := image0
  let c := it s
  let r := recAt c.g 4
  (recScalar f.b == some 4) && !recInvalid r false && r.tiled && r.typed && typedSize r.format ≤ 4
    && ((lanesOf (active c f)).all fun l => !imageBad c f 2 l)
    && match xlCore s c .read ((lanesOf (active c f)).flatMap fun l =>
        texAccs r mode l (texLane r mode linear (ftz32 (ftzOn c) (c.g.getV f.a.toNat l)) (ftz32 (ftzOn c) (c.g.getV (f.a.toNat + 1) l)))) with
      | .ok ls => ls.all fun l => !wpMatch s c.part c.ctx false .rd l.va l.size
      | _ => false

/-- The hypotheses of IMLD and IMST. -/
def imaged (f : Fields) (acc : Acc) (wp : WpKind) : Bool :=
  let s := image0
  let c := it s
  let r := recAt c.g 4
  let ps := imagePlaces c f r (lanesOf (active c f))
  let as := placedAccs (r.size f.x.toNat) ps
  !recForbids r f.x.toNat && ((lanesOf (active c f)).all fun l => !imageBad c f 2 l && !blockBad c.g (opnd f.d) 1 l)
    && (ps.all fun p => match p.2 with
      | .bounds _ => false
      | _ => true)
    && (as.all fun a => a.va % r.size f.x.toNat == 0)
    && match xlCore s c acc as with
      | .ok ys => ys.length == 2 && ys.all fun l => !wpMatch s c.part c.ctx false wp l.va l.size
      | _ => false

theorem witness_TexturesAndImages :
    (let f := fl 5 5 1 0x104 0x160 0
     counts image0 f false (vecRange (it image0) 2 f.a && vecDst (it image0) 1 f.d) = true ∧ sampled f 1 true = true)
    ∧ (let f := fl 2 8 1 0x104 0x160 0
       counts image0 f false (vecRange (it image0) 2 f.a && vecDst (it image0) 4 f.d) = true ∧ sampled f 2 true = true)
    ∧ (let f := fl 0 6 0x160 0x104 0x160 0
       counts image0 f false (dstLegal (it image0) true (opnd f.d)) = true ∧ imageBad (it image0) f 0 0 = false)
    ∧ (let f := fl 0 5 3 0x104 0x160 2
       counts image0 f false (imageLegal (it image0) f && loadDst (it image0) 2 (opnd f.d) (opnd f.a)) = true
         ∧ imaged f .read .rd = true
         ∧ counts image0 f true (imageLegal (it image0) f && storeSrc (it image0) 2 (opnd f.d)) = true
         ∧ imaged f .write .wr = true)
    ∧ (0 : Int) ≤ 1 ∧ (1 : Int) < 2 ∧ 0 < 2 := by decide +kernel

/-- A 64 by 64 target at 0x3000 in s4 to s7; v0 to v2 name pixel (0, 0) sample 0 in lane 0 and a pixel outside in lane 1; the
ids of v4 and v5 name primitive 0 of draw 0 in lane 0 and nothing in lane 1. -/
def target0 : State :=
  inGroup (fun g => { ((((g.setV 0 1 64).setV 4 1 0xFFFFFFFF).setV 5 1 0xFFFFFFFF)) with
    sregs := [(4, 0x3000), (6, 0x400040), (7, 0x80000000)] }) (paged two)

/-- An operation whose one read is still to be made. -/
def lateOp : OpRec := { gid := 0, flag := some 2, reads := [.entry 0 0x3000], first := 8, count := 3 }

def noMore (x : List RegWrite × List LaneRead × List Granule × State) : Bool := x.2.1.isEmpty

theorem witness_VisibleSurface :
    (let f := fl 0 8 0 0x104 0 0
     let c := it target0
     counts target0 f false (vecRange c 3 f.a && vecDst c 3 f.d) = true ∧ recScalar f.b = some 4
       ∧ (targetOf (recWord c.g 4)).isSome = true ∧ ((lanesOf (active c f)).all fun l => !imageBad c f 3 l) = true)
    ∧ (let f := fl 0 8 4 0 0 0
       let c := it target0
       counts target0 f false (vecRange c 2 f.a && f.a.toNat % 2 == 0 && vecDst c 3 f.d) = true
         ∧ ((lanesOf (active c f)).all fun l => !srcBad c true (opnd f.a) l) = true)
    ∧ (let s := { target0 with ops := [(5, lateOp)] }
       spFind s.ops 5 = some lateOp ∧ getGroup s 0 = some (it s).g ∧ getTeam s 0 = some (it s).t
         ∧ noMore (laneReads ⟨0, 0, 0, 0, []⟩ (some 8) s lateOp.reads) = true
         ∧ (match lateRead s ⟨0, 0, 0, 0, []⟩ 0 0x3000 12 with
           | .ok _ _ _ => true
           | _ => false) = true)
    ∧ (let f := fl 0 0 8 0x104 20 0
       let c := it target0
       counts target0 f true (vecRange c 9 f.a && vecRange c 2 f.c && f.c.toNat % 2 == 0) = true
         ∧ ((lanesOf (active c f)).all fun l => !imageBad c f 9 l && !srcBad c true (opnd f.c) l) = true)
    ∧ (0 < 1 ∧ 1 < 2 ^ 16 ∧ 0 < 2 ^ 0) := by decide +kernel

/-- v1 holds the keys 0 and 1 of two counters in the ordering table at 0x3000; v2 the values 0. -/
def ordered : State :=
  let s := paged two
  inGroup (fun g => g.setV 1 1 1) { s with mem := [(1, 4), (8, 0x38), (81, 0x30)] ++ s.mem.drop 2 }

theorem witness_OrderedSections :
    (let f := fl 0 0 1 2 0 0
     let c := it ordered
     let rest := (lanesOf (active c f)).filter fun l => !c.p.found.getLsbD l
     issuer ordered = some c ∧ f.guardLegal = true ∧ orderLegal c f = true ∧ active c f ≠ 0
       ∧ ((lanesOf (active c f)).all fun l => !srcBad c false (opnd f.a) l && !srcBad c false (opnd f.b) l
         && srcVal ordered c .w32 (opnd f.a) l < 2 ^ 16) = true
       ∧ ((lanesOf (active c f)).map fun l => srcVal ordered c .w32 (opnd f.a) l).Nodup ∧ c.p.failed = false
       ∧ (match xlateSet ordered (.core c.core) c.part c.ctx .table true
            (rest.map fun l => ⟨l, (ctxBase ordered c.part c.ctx 640 + 4 * srcVal ordered c .w32 (opnd f.a) l) % 2 ^ 64, 4, false⟩) with
         | .ok ls =>
           let reads := (counterReads c.gid ordered ls).1
           let hits (f : Fields) : Nat := (reads.filter fun e => leNat e.2.bytes == srcVal ordered c .w32 (opnd f.b) e.1).length
           reads.all (fun e => !e.2.bad) && hits f == rest.length && hits (fl 0 0 1 1 0 0) != rest.length
         | _ => false) = true)
    ∧ (let f := fl 0 0 1 2 0 0
       let s := waitingAt .ordering (.ordb f) ordered
       issOf s ⟨0, 0⟩ = some (it s) ∧ (it s).p.wait = .ordering ∧ (it s).p.hold = none ∧ slotInstr (it s).p = some (.ordb f)
         ∧ mayRetry s (it s) = true ∧ (it s).p.dropped = 0)
    ∧ (let f := fl 0 0 1 2 0 0
       let c := it ordered
       match xlateSet ordered (.core c.core) c.part c.ctx .write true ((lanesOf (active c f)).map fun l =>
            ⟨l, (ctxBase ordered c.part c.ctx 640 + 4 * srcVal ordered c .w32 (opnd f.a) l) % 2 ^ 64, 4, false⟩) with
         | .ok _ => true
         | _ => false) = true
    ∧ (let s := inGroup (fun g => g.setV 1 1 65536) ordered
       2 ^ 16 ≤ srcVal s (it s) .w32 (opnd 1) 1) := by decide +kernel

/-- A triangle on the first pixels of a 64 by 64 target, and a sample of it. -/
def tri0 : Tri :=
  { node := 0, ctx := 0, op := 9, base := 0x3000, width := 64, height := 64, log2s := 0
    verts := [0, 0, 0x3F000000, 0x40000000, 0, 0x3F000000, 0, 0x40000000, 0x3F000000], id := 5 }
def sample0 : Sample := { node := 0, ctx := 0, va := 0x3000, z := 0x3F000000, id := 5, ras := 0 }

theorem witness_Rasterisation :
    (let s := inPart (fun p => { p with tris := [tri0] }) { two with ops := [(9, { gid := 0, flag := none, left := 1 })] }
     (getPart s 0).tris = [tri0] ∧ (spFind s.ops tri0.op).isSome = true ∧ (getNode s tri0.node).isSome = true
       ∧ triSamples s 0 tri0 ≠ [])
    ∧ (let s := inPart (fun p => { p with samples := [sample0] }) (paged two)
       (getPart s 0).samples = [sample0] ∧ sample0.batch = none
         ∧ translates (xlateSet s (.raster sample0.ras) 0 sample0.ctx .write (ctxSup s 0 sample0.ctx) (rangeAccs sample0.va 12)) = true
         ∧ ({ sample0 with failed := true }).failed = true ∧ sample0.failed = false)
    -- the entry at 0x3000 is at depth 1, behind the sample
    ∧ (let s := { two with mem := [(0x300A, 0x80), (0x300B, 0x3F)] }
       match getNode s 0 with
       | some n =>
         let e := entryBefore s n ⟨0, 0x3000, 4, 0x3000, 0, 0, false⟩
         replaces sample0.z sample0.id e.1 e.2
       | none => false) = true
    ∧ ((0 : Int), (0 : Int)) ≠ (1, 0) := by decide +kernel

/-! ## Witnesses: fetch, faults, host registers, the task graph unit -/

/-- Memory with a clause at 0x3000 of three words, one escaped long form. -/
def withCode (s : State) : State :=
  let p := paged s
  { p with mem := p.mem ++ [(0x3000, 0xE3), (0x3002, 0xF0), (0x3003, 0xAF), (0x3007, 0xFF)] }

/-- The path is to fetch a clause. -/
def toFetch (addr : Nat) (s : State) : State := inPath (fun p => { p with addr := addr, clause := none }) s

/-- A dictionary directory at 0x3000 whose entry 1 names an image of zeros at 0x4000, and at 0x8000 a clause of one slot that
is coded by entry 2 of the dictionary. -/
def withDict (s : State) : State :=
  let p := paged (toFetch 0x8000 s)
  { p with mem := [(1, 4), (8, 0x38), (33, 0x30)] ++ p.mem.drop 2 ++ [(0x3010, 1), (0x3011, 0x40), (0x8000, 0xE1), (0x8002, 0xF0),
      (0x8003, 0xAF), (0x8007, 0x02)] }

def parked0 : Rec := { kind := .parked, addr := 128, mask := 4, fmt := 0xC3, handle := 1 }

/-- The group has no lanes left; a second group of the team has. -/
def ending : State :=
  let s := inTeam (fun t => { t with groups := [0, 1] }) two
  inGroup (fun g => { g with live0 := none }) { s with groups := s.groups ++ [(1, { (it two).g with index := 1, place := some 1 })] }

theorem witness_ClausesAndGroups :
    (let s := toFetch 0x3000 (withCode two)
     let c := it s
     issOf s ⟨0, 0⟩ = some c ∧ canRun c = true ∧ c.p.clause = none ∧ c.p.wait = .none ∧ c.p.rotate = false ∧ c.p.fetchFail = false
       ∧ c.p.resumed = false
       ∧ (match fetchWords s c 0x3000 1 with
         | .words [h] s1 => headerOk (BitVec.ofNat 32 h) && match fetchWords s1 c 0x3004 (h % 16) with
           | .words ws _ => !needsDict 15 ws
           | _ => false
         | _ => false) = true)
    ∧ (0x02000000 < 2 ^ 32 ∧ 0x02000000 / 2 ^ 24 ≠ 0xFF)
    ∧ (let s := withDict two
       match wantsDict s 0 0 1 with
       | some c => (dictSlot s c).isNone && ((dictSlot (openDict s c) c).map (·.failed)) == some false
           && (match readRange (openDict s c) (.core c.core) c.part c.ctx .table true
               ((ctxBase s c.part c.ctx 256 + 16 * 1) % 2 ^ 64) 16 with
             | .ok bs false => leNat bs == 1 + 4 * 4096
             | _ => false)
           && translates (xlateSet (openDict s c) (.core c.core) c.part c.ctx .fetch (c.sup s) (rangeAccs 0x4000 4096))
       | none => false) = true
    ∧ (let s := { withDict two with poison := [(0x602, true)] }
       match wantsDict s 0 0 1 with
       | some c => match readRange (openDict s c) (.core c.core) c.part c.ctx .table true
           ((ctxBase s c.part c.ctx 256 + 16 * 1) % 2 ^ 64) 16 with
         | .ok _ bad => bad
         | _ => false
       | none => false) = true := by
  decide +kernel

theorem witness_ClausesAndGroups_groups :
    (let s := inGroup (fun g => { g with stack := [parked0] }) (inPath (fun p => { p with rotate := true, clause := none }) two);
       issOf s ⟨0, 0⟩ = some (it s) ∧ (it s).p.rotate = true ∧ (it s).g.stack = [] ++ parked0 :: [] ∧ parked0.kind = .parked)
    ∧ (let s := inPath (fun p => { p with readyFor := 1024 }) two
       getGroup s 0 = some (it s).g ∧ (it s).p.boosted = false ∧ (it s).g.live 0 = some (it s).p ∧ readyNow s ⟨0, 0⟩ = true) := by
  decide +kernel

theorem witness_ClausesAndGroups_ends :
    (match getGroup ending 0, getTeam ending 0, getGroup ending 1 with
      | some g, some t, some k => !g.ended && !g.saved && g.live0.isNone && g.live1.isNone && g.stack.isEmpty && t.phase == .running
          && t.groups == [0, 1] && t.latch.isEmpty && !spawnDuty ending 0 t && groupQuiet ending 0 g
          && !groupQuiet { ending with ops := [(5, lateOp)] } 0 g && !k.ended
      | _, _, _ => false) = true
    ∧ (let s := inGroup (fun g => { g with ended := true }) ending
       match getGroup s 0 with
       | some g => g.ended && g.place == some 0 && groupQuiet s 0 g
       | none => false) = true := by
  decide +kernel

/-- A frame area of 16 MiB and one unit more, and a batch of the group's path. -/
def faulted (saved : Bool) : State :=
  inPart (fun p => { p with frameSize := 0x104, batches := [{ seq := 3, records := [0], client := .group 0 0 }] })
    (inGroup (fun g => { g with batch := some 3, saved := saved, frame := if saved then some (2 ^ 24) else none })
      (inPath (fun p => { p with wait := .faulted 3 }) two))

theorem witness_FaultQueue :
    ((getPart (faulted false) 0).batches = [] ++ { seq := 3, records := [0], client := .group 0 0 } :: []
      ∧ 1 ≤ ringRoom (getPart (faulted false) 0)
      ∧ faultRing (getPart (faulted false) 0) + 32 * ringSize (getPart (faulted false) 0) ≤ hbmSize
      ∧ (getPart (faulted false) 0).faultHead < ringSize (getPart (faulted false) 0))
    ∧ ((two.busy = false ∧ 0 < partCount two) ∧ (getPart two 0).batches = []
      ∧ (getPart two 0).faultHead = (getPart two 0).faultTail % ringSize (getPart two 0) ∧ (getPart (faulted false) 0).batches ≠ [])
    ∧ ((faulted false).busy = false ∧ 0 < partCount (faulted false)
      ∧ ((getPart (faulted false) 0).batches.find? fun b => b.seq == 3) = some { seq := 3, records := [0], client := .group 0 0 }
      ∧ getGroup (faulted false) 0 = some (it (faulted false)).g ∧ (it (faulted false)).g.live 0 = some (it (faulted false)).p)
    ∧ (let s := inPart (fun p => { p with batches := [{ seq := 3, records := [0], client := .job 4 }] }) two
       ((getPart s 0).batches.find? fun b => b.seq == 3) = some { seq := 3, records := [0], client := .job 4 })
    ∧ (let s := faulted false
       getTeam s 0 = some (it s).t ∧ (it s).g.batch ≠ none ∧ (it s).g.saved = false ∧ (it s).t.phase = .running
         ∧ (it s).g.halt = none ∧ opsSettled s 0 = true ∧ findUnits s 0 1 = some 0)
    ∧ (let s := inGroup (fun g => { g with batch := none, place := none }) (faulted true)
       (it s).t.core = some 0 ∧ (it s).g.saved = true ∧ (it s).g.batch = none ∧ (it s).g.frame = some (2 ^ 24)
         ∧ (assignSlots (coreSlots s 0) (it s).g.nregs 1) = some [0]) := by decide +kernel

/-- The oldest command of the queue, with or without FLUSH. -/
def inval (flush : Bool) : State :=
  inPart (fun p => { p with invQueue := [{ op := 2, flush := flush, ctx := 0, addr := 0, count := 0 }] }) two

-- what the caches take of an address: the entries of levels 5 and 4 and the 512 GiB leaf (03 R43, R46, R53)
theorem test_cache_takes_entries :
    ((getPart (cacheWalk (paged st0) 0 0 0x3000) 0).tlb.map fun x => (x.lvl, x.bits)) = [(3, 0xF), (4, 0x2001), (5, 0x1001)] := by
  decide +kernel
-- a completed command of one granule drops the leaf and the tables above it (03 R56)
theorem test_invalidation_drops :
    (match exec (.invCommandComplete 0) (inPart (fun p => { p with invQueue := [⟨0, false, 0, 3, 1⟩] })
        (cacheWalk (paged st0) 0 0 0x3000)) with
      | .next t => (getPart t 0).tlb == []
      | _ => false) = true := by decide +kernel

theorem witness_Invalidation :
    ((two.busy = false ∧ 0 < partCount two) ∧ (getPart two 0).invQueue.length < 16)
    ∧ ((getPart (inval true) 0).invQueue = [{ op := 2, flush := true, ctx := 0, addr := 0, count := 0 }]
      ∧ (getPart (inval false) 0).invQueue = [{ op := 2, flush := false, ctx := 0, addr := 0, count := 0 }]
      ∧ accessesOver (inval false) 0 = true ∧ accessesOver (inPart (fun p => { p with atoms := [request] }) (inval false)) 0 = false)
    ∧ partOfCore two 383 = 0 := by decide +kernel

theorem witness_HostRegisters :
    ((two.busy = false ∧ 0 < partCount two) ∧ 63 < 64 ∧ 95 < 96 ∧ windowOpen two (partOfCluster two 95))
    ∧ mayRepartition two = true ∧ mayRepartition (paged two) = false
    ∧ (let s := { two with busy := true }
       s.busy = true ∧ s.heldWrites = [] ∧ 7 < 8 ∧ 2 ^ 24 - 1 < 2 ^ 24) := by
  unfold windowOpen
  decide +kernel

/-- Queue 1 of partition 0 has one record, at 0x3000. -/
def submits (type : Byte) : State :=
  let s := inPart (fun p => { p with queues := [(1, { enable := true, loc := true, base := 0x3000, tail := 1 })] }) (paged two)
  { s with mem := s.mem ++ [(0x3000, type)] }

/-- The record 0 of queue 1 names a card at 0x3000. -/
def cards (scope : Byte) : State :=
  modSq (object 5 scope two) 0 1 fun k => { k with recs := [(0, .card 0x3000 none false)] }

/-- An entry whose record names a kernel descriptor at 0x3000: handle 1, 8 registers, one group. -/
def entry0 (type : Nat) : Entry :=
  { part := 0, ctx := 0, record := type + 2 ^ 32 + 2 ^ 64 * 0x3000, src := .launch ⟨0, 0⟩ (some 6) false 0 }
def enters (type : Nat) : State :=
  let s := inPath (fun p => { p with wait := .verdict 7 }) (paged two)
  { s with entries := [(7, entry0 type)], order := 8, mem := s.mem ++ [(0x3006, 1), (0x300C, 8), (0x300D, 2)] }

/-- A second node, which has one more team to place. -/
def pooled (f : Node → Node) : State := { paged two with nodes := [(0, lonelyNode), (3, f { lonelyNode with teams := 2 })], order := 9 }

theorem witness_SubmissionAndEntry :
    ([1, 2, 3, 4].all fun k =>
      let s := submits k
      let q := getSq s 0 1
      mayFetch s 0 q && (spFind q.recs q.fetched).isNone && match recordLoc s 0 q q.fetched with
        | some loc => !l2AnyBad s 0 loc 64 && leNat (l2Bytes s 0 loc 64) == k.toNat
        | none => false) = true
    ∧ (let s := modSq (submits 1) 0 1 fun k => { k with base := 2 ^ 39 }
       let q := getSq s 0 1
       mayFetch s 0 q = true ∧ spFind q.recs q.fetched = none ∧ recordLoc s 0 q q.fetched = none)
    ∧ ([3, 2].all fun k =>
      let s := cards k
      spFind (getSq s 0 1).recs 0 == some (.card 0x3000 none false) && cardCount s 0 < 16384
        && (match readRange s (.tgu 0) 0 0 .read (ctxSup s 0 0) 0x3000 64 with
          | .ok hd false => leNat hd / 2 ^ 11 % 2 ^ 4 == 0 && (cardOf (leNat (hd.take 64))).ok none == (k == 3)
          | _ => false)) = true
    ∧ (let s := modSq two 0 1 fun k => { k with recs := [(0, .wait 2 0), (1, .wait 2 5)] }
       spFind (getSq s 0 1).recs 0 = some (.wait 2 0) ∧ spFind (getSq s 0 1).recs 1 = some (.wait 2 5)
         ∧ ((getSq s 0 2).progress + 2 ^ 32 - 0) % 2 ^ 32 < 2 ^ 31 ∧ 2 ^ 31 ≤ ((getSq s 0 2).progress + 2 ^ 32 - 5) % 2 ^ 32)
    ∧ (spFind (enters 2).entries 7 = some (entry0 2)
      ∧ (match (verdictOf (enters 2) (entry0 2)).1, (verdictOf (enters 1) (entry0 1)).1 with
        | .refuse 1, .accept [_] [] => true
        | _, _ => false) = true)
    ∧ (nodeRec (entry0 2).record).type ≠ 1 ∧ (nodeRec (1 + 2 ^ 32 + 2 ^ 64)).kdesc % 64 ≠ 0
    ∧ (let s := pooled fun n => { n with phase := .entered }
       ((getNode s 3).map fun n => (n.phase, edgesClear s n.stream n.order n.regions)) = some (.entered, true))
    ∧ (let s := pooled fun n => { n with phase := .entered, order := 5, regions := [⟨0, 0, 16, 1, true, true, false⟩] }
       let t := { s with nodes := (1, { lonelyNode with regions := [⟨0, 0, 16, 1, true, true, false⟩] }) :: s.nodes }
       ((getNode t 3).map fun n => (n.phase, edgesClear t n.stream n.order n.regions)) = some (.entered, false))
    ∧ (let s := pooled fun n => { n with descs := [{ emptyDesc with bars := 65, tsize := 1, regs := 8 }] }
       let t := modNode { s with clk := 32768 } 3 fun n => { n with waitFrom := some 0 }
       ((getNode t 3).map fun n => (n.aged, n.waitsRoom t 3, n.waitFrom)) = some (false, true, some 0))
    := by decide +kernel

/-- A team placed on core 0 that has not started. -/
def unstarted (args : Nat) : State :=
  inNode (fun n => { n with args := args }) (inTeam (fun t => { t with phase := .placed, laned := false, begun := false }) (paged two))

theorem witness_TeamsAndNodes :
    (let s := pooled id
     match getNode s 3 with
     | some n => n.wants s && n.batch.isNone && !heldBack s 3 n && decide (n.stages ≤ 1)
         && (findCore s n.part (n.desc 0).need (if (n.desc 0).spread then n.avoid s else none)).isSome
     | none => false) = true
    ∧ (fitsOn two 0 ⟨2, 8, 0, 0, 0⟩).isSome = true
    ∧ (assignSlots (coreSlots two 0) 256 3).isSome = true ∧ bytesInQuarter (coreSlots two 0) 0 ≤ 262144
    ∧ (let s := unstarted 0x3000
       getTeam s 0 = some (it s).t ∧ (it s).t.core = some 0 ∧ (it s).t.phase = .placed ∧ (it s).t.batch = none
         ∧ (it s).t.laned = false ∧ (it s).t.argFail = false ∧ ((getNode s 0).map (·.args)) = some 0x3000
         ∧ ((getNode (unstarted 0) 0).map (·.args)) = some 0
         ∧ (match readRange (modTeam s 0 fun t => { t with known := [] }) (.tgu 0) 0 0 .table true 0x3000 64 with
           | .ok _ _ => overdue s == []
           | _ => false) = true
         ∧ (let u := { s with mem := [(1, 4), (8, 0x38), (0x400, 0x01), (0x401, 0x10)] }
            match readRange u (.tgu 0) 0 0 .table true 0x3000 64 with
            | .fault _ => canReport u 0 && overdue u == []
            | _ => false) = true)
    ∧ (let s := unstarted 0
       ((getNode s 0).map fun n => (n.desc (it s).t.stage).persistent) = some false ∧ (it s).t.spawned = []
         ∧ (it s).t.groups = [0] ∧ (it s).g.team = 0 ∧ (it s).g.refill = [] ∧ (it s).g.live1 = none
         ∧ ([7] : List Nat).length ≤ 64 ∧ (7 : Nat) < 2 ^ 32)
    ∧ ([.launch ⟨0, 0⟩ none false 0, .launch ⟨0, 0⟩ none true 0, .queue 0 1 0].all fun src =>
       let s := { paged two with nodes := [(3, { lonelyNode with src := src })] }
       match getNode s 3 with
       | some n => nodeDrained s 3 n && (n.owed.getD (statAdds s n)).isEmpty && n.queues.isEmpty
       | none => false) = true := by decide +kernel

/-! ## Witnesses: pre-emption, the debugger, reset, memory controllers, links, encoding, the step -/

/-- The record of context 0 with a STATE, a BUDGET, and a DRAIN_WIN and DEADLINE of 4 and 6 clocks. -/
def ctxRec (st : Nat) (s : State) : State :=
  { paged s with mem := [(1, 4), (8, BitVec.ofNat 8 (0x18 + 32 * st)), (12, 3), (16, 4), (20, 6)] ++ (paged s).mem.drop 2 }
def halted0 (s : State) : State := inGroup (fun g => { g with halt := some .halted }) s

theorem witness_Preemption :
    (let s := ctxRec 1 two
     coreHolds s 0 (partOfCore s 0) 0 = true ∧ ctxBits s 0 0 96 32 = 3 ∧ (getPart s 0).expired.contains 0 = false
       ∧ ctxState s 0 0 = 1 ∧ ctxHalted s 0 0 = false ∧ ctxResident s 0 0 = true ∧ spGet 0 (getCore s 0).slice 0 < 3
       ∧ 3 ≤ spGet 0 (getCore (modCore s 0 fun k => { k with slice := [(0, 3)] }) 0).slice 0)
    ∧ (let s := { modCore (inPart (fun p => { p with frameSize := 2, expired := [0] }) (ctxRec 1 two)) 0
           fun k => { k with slice := [(0, 3)] } with
         nodes := two.nodes ++ [(3, { lonelyNode with ctx := 1, teams := 2, descs := [{ emptyDesc with bars := 65, tsize := 1, regs := 8 }] })] }
       sliceOver s 0 0 = true)
    ∧ (let s := inPart (fun p => { p with preempt := [{ ctx := 0, start := 0 }] }) (ctxRec 2 two)
       (getPart s 0).preempt.find? (fun x => x.ctx == 0) = some { ctx := 0, start := 0 }
         ∧ 4 ≤ 2 * ({ s with clk := 2 }.clk - 0) ∧ 2 * (s.clk - 0) < 6 ∧ ctxBits s 0 0 128 32 = 4 ∧ ctxBits s 0 0 160 32 = 6)
    ∧ ctxHalted (halted0 (ctxRec 1 two)) 0 0 = true
    ∧ (0 < partCount two ∧ ctxInArea (paged two) 0 0 = true ∧ ctxAddr (paged two) 0 0 + 256 ≤ hbmSize) := by decide +kernel

/-- A frame area with two units, and a context that is being saved. -/
def saves : State := inPart (fun p => { p with frameSize := 0x104 }) (ctxRec 3 two)

def savedTeam (st : Nat) : State :=
  let s := inPart (fun p => { p with frameSize := 0x104, units := [(0, 0), (1, 0)] }) (ctxRec st two)
  inTeam (fun t => { t with core := none, phase := .saved, frame := some (2 ^ 24 + 2 ^ 17) })
    (inGroup (fun g => { g with saved := true, place := none, frame := some (2 ^ 24) }) s)

theorem witness_TeamSaveAndRestore :
    (match getTeam saves 0, getNode saves 0 with
      | some t, some n => t.core == some 0 && t.phase == .running && !ctxHalted saves t.part t.ctx && ctxState saves t.part t.ctx == 3
          && n.stages == 1 && t.channel.isEmpty && saveReady saves (0, t) && !saveReady { saves with ops := [(5, lateOp)] } (0, t)
          && decide t.groups.Nodup && (getPart saves t.part).units.isEmpty
          && decide ((residentGroups saves t).length + teamUnits t ≤ unitCount saves t.part)
          && decide ((getPart saves t.part).redirect.length < 1024)
      | _, _ => false) = true
    ∧ (findUnits saves 0 1 = some 0 ∧ findUnits (inPart (fun p => { p with units := [(0, 0)] }) saves) 0 1 = some 1
      ∧ (saveGroups 0 0 [(0, (it saves).g)] saves).isSome = true)
    ∧ (let s := savedTeam 4
       match getTeam s 0 with
       | some t => t.phase == .saved && mayRestore s 0 t && restoreTurn s t && restoreSet s 0 t == [(0, t)]
           && restoreFits s t.part [(0, t)] && (restorePlaces s 0 t).map (·.length) == some 1
           && ([0, 1, 2, 3].all fun r => !(getBinding (readTeamFrame s t (t.frame.getD 0)) r).valid) && restoreGroups s t == [0]
           && (((getGroup s 0).map fun g => g.frame.isSome) == some true)
       | none => false) = true
    ∧ (let s := savedTeam 4
       let t : State := { s with cores := (List.range 384).map fun k => (k, { (getCore s k) with fenced := true }) }
       match getTeam t 0 with
       | some x => mayRestore t 0 x && restoreTurn t x && !restoreFits t x.part (restoreSet t 0 x)
       | none => false) = true := by decide +kernel

theorem witness_Debugger :
    windowOpen two 0 ∧ selectedGroup two 0 = some 0 ∧ getGroup two 0 = some (it two).g ∧ (it two).g.ended = false
      ∧ (it two).g.isHalted = false ∧ getGroup (halted0 two) 0 = some (it (halted0 two)).g ∧ (it (halted0 two)).g.isHalted = true
      ∧ selectedGroup (inPart (fun p => { p with dbgSel := 5 }) two) 0 = none
      ∧ issOf (halted0 two) ⟨0, 0⟩ = some (it (halted0 two))
      ∧ (let s := inGroup (fun g => { g with halt := some (.oneClause 1 0) }) two
         issOf s ⟨0, 0⟩ = some (it s) ∧ (it s).g.halt = some (.oneClause (1 - (it s).live) 0) ∧ (it s).live ≤ 1) := by
  unfold windowOpen
  decide +kernel

theorem witness_ResetBootPower :
    (let s := { two with boot := 4 }
     s.agenda = [] ∧ s.boot = 4) ∧ two.boot ≠ 3 ∧ two.boot ≠ 4
    ∧ (let s := { two with boot := 2 }
       s.boot = 2 ∧ (List.replicate 32 (7 : Byte)).length = 32)
    ∧ ((List.replicate 96 700).length = 96 ∧ ((List.replicate 96 700).all fun c => decide (c ≤ 700)) = true ∧ 2000 ≤ two.pwrLimit) := by
  decide +kernel

/-- A line of the L2, with some of its sectors valid and dirty. -/
def l2Line (valid dirty : Nat) : State :=
  inPart (fun p => { p with
    l2 := [(3, { cmp := 0, valid := valid, dirty := dirty, bytes := (List.range 128).map fun k => (k, (1 : Byte)) })] }) two

/-- The core holds stores to the words 0x30 and 0x600 dirty. -/
def dirty0 : State := modCore two 0 fun k =>
  { k with pend := [(0x30, [{ id := 1, who := 0, bytes := [(1, 5)] }]), (0x600, [{ id := 2, who := 0, bytes := [(0, 6)] }])] }

theorem witness_MemoryControllers :
    (((getCore dirty0 0).pend.map (·.1)).Nodup ∧ ((getCore dirty0 0).pend.any fun e => e.1 / 16 == 3) = true
      ∧ (([(1, 5)] : List (Nat × Byte)).map (·.1)).Nodup)
    ∧ ([(15, 1), (15, 15), (3, 2)].all fun d => match l2Find (l2Line d.1 d.2) 3 with
        | some ln => ln.cmp / 2 == 0 && ln.valid == d.1 && ln.dirty == d.2 && lineHolder (l2Line d.1 d.2) 3 ln == 0
        | none => false) = true
    ∧ ([.hbm (hbmSize - 1), .l2 0 384, .vreg 0 255 63, .sreg 0 63, .nibble 0 1, .scratch 0 0, .matrix 383, .barista 95].all
        (eccExists (l2Line 1 0))) = true
    ∧ (eccExists { two with inband := [0] } (.inband 64) = true ∧ (l2Find (l2Line 1 0) ((hbmSize - 1) / 128)).isNone = true)
    ∧ eccExists (modCore two 383 fun k => { k with l1 := [(3, { unit := 0, valid := 1 })] }) (.l1 383 384) = true
    ∧ (383 < 384 ∧ (getCore two 383).fenced = false ∧ 95 < 96 ∧ (getCluster two 95).fenced = false) := by decide +kernel

/-- An open aperture on context 0 of partition 0. -/
def opened : State := modAdapter (paged two) 5 fun d => { d with ctx := BitVec.ofNat 64 (2 ^ 63), wbase := 0x3000 }

theorem witness_LinksAndApertures :
    (portWorks two 11 = true ∧ portWorks two 12 = false ∧ (getPort two 11).retrain = false ∧ (List.replicate 256 (0 : Byte)).length = 256
      ∧ (0 : Nat) = (getPort two 11).nextSeq ∧ (1 : Nat) ≠ (getPort two 11).nextSeq
      ∧ (getPort (modPort two 11 fun v => { v with retrain := true }) 11).retrain = true
      ∧ portWorks (modPort two 11 fun v => { v with retrain := true }) 11 = true
      ∧ (let p := getPort (modPort two 11 fun v => { v with out := [[1], [2]], sent := [(0, [3])] }) 11
         p.asked = none ∧ p.out = [1] :: [[2]] ∧ p.sent.length ≤ 64)
      ∧ (getPort (modPort two 11 fun v => { v with asked := some 3 }) 11).asked = some 3)
    ∧ (5 < 6 ∧ 0 < 8 ∧ (getAdapter two 5).ctx.getLsbD 63 = false)
    ∧ ((getAdapter opened 5).ctx.getLsbD 63 = true ∧ (getAdapter opened 5).waits = [] ∧ (getAdapter opened 5).held = []
      ∧ 0 < partCount opened ∧ ctxInArea opened 0 0 = true ∧ ctxValid opened 0 0 = true
      ∧ translates (xlateSet opened (.link 0) 0 0 .write (ctxSup opened 0 0) (rangeAccs 0x3000 8)) = true
      ∧ translates (xlateSet opened (.link 0) 0 0 .read (ctxSup opened 0 0) (rangeAccs 0x3000 8)) = true) := by decide +kernel

theorem witness_LinksAndApertures_offset : 0x3000 + 8 ≤ 2 ^ aperLog 5 :=
  le_trans (by decide) (Nat.pow_le_pow_right (by decide) (show 20 ≤ aperLog 5 by unfold aperLog; omega))

theorem witness_DecodeEncode :
    (Instr.ffma (fl 0 7 1 2 3 0)).WellFormed ∧ decodeLong 0x42000E010100FF00 = some (.ffma (fl 0 7 1 2 3 0))
      ∧ (Instr.clockDroop 0).isProgram = false := by
  unfold Instr.WellFormed
  decide +kernel

/-- The state in which a placed MOVI is the next thing to run, and one with an event in the agenda. -/
def steps : State := State.reset.withFetchWord 96 (escaped 0x35000600 0x00137F00)

theorem witness_StepRunsDecoded :
    (let s := steps
     let c := { (it st0) with g := (getGroup s 0).getD (it st0).g, p := ((getGroup s 0).bind (·.live0)).getD (it st0).p }
     let lf : Quad := 0x3500060000137F00
     s.agenda = [] ∧ s.boot ≠ 3 ∧ s.boot ≠ 4 ∧ ((turns s).map fun x => match x with
         | .path q => some q
         | .event _ => none) = [some ⟨0, 0⟩]
       ∧ (issOf s ⟨0, 0⟩).map (fun d => (d.g == c.g && d.p == c.p && canRun d)) = some true ∧ c.p.wait = .none ∧ c.p.slot = 0
       ∧ (c.p.clause.map fun cl => (waitFlags cl, cl.slots.head?)) = some ([], some (.long lf true))
       ∧ decodeLong lf = some (.movi { fl 0 3 0 0 0 0 with b := 0, c := 77 }))
    ∧ (let s := { steps with agenda := [.clockDroop 95] }
       s.agenda = .clockDroop 95 :: [] ∧ (Instr.clockDroop 95).isProgram = false) := by decide +kernel
theorem witness_StepRunsDecoded_placed :
    (match issOf steps ⟨0, 0⟩ with
     | some c => match c.p.clause with
       | some cl =>
         let lf : Quad := 0x3500060000137F00
         let uses := regUses c (opOf lf) (fieldsOf lf)
         opAllowed steps.stepping (opOf lf) && slotPlaced c.p cl (opOf lf) (fieldsOf lf) && (blockedBy c.g uses).isNone
           && !opBlocks steps c.gid uses && !atomsHold steps c (opOf lf) (.movi (fieldsOf lf)) && !releases (.movi (fieldsOf lf))
           && releases (.fence (fieldsOf lf)) && !readsHold steps c
       | none => false
     | none => false) = true
    ∧ (let s := { modGroup ending 1 (fun g => { g with live0 := none }) with
         groups := (modGroup ending 1 (fun g => { g with live0 := none })).groups.take 1 }
       match turns s with
       | [x] => (x.run s).isSome
       | _ => false) = true := by decide +kernel

theorem witness_StepKeepsMemory : Canonical steps ∧ (match step steps with
    | .next _ => true
    | _ => false) = true := by
  unfold Canonical Memory.wf
  decide +kernel

end Sys2Proof.Tests
end

section
/-!
SUPPORT. Integer operands (12 R287): sources fit the width of their type, and the model's reading of a word as a number,
and of a number as a word, are those of the claims.
-/
namespace Sys2Proof.Claims
open Sys2Proof.Machine

/-! ## Sources -/

@[simp] theorem tyBits_ity (t : Nat) : tyBits (ity t) = iwid t := by
  unfold tyBits ity iwid iwide
  by_cases h : t = 2 ∨ t = 3 ∨ t = 5
  · rw [if_pos h]; rcases h with rfl | rfl | rfl <;> rfl
  · rw [if_neg h]; simp_all [Ty.wide]

theorem iwid_cases (t : Nat) : iwid t = 32 ∨ iwid t = 64 := by
  unfold iwid; split <;> simp

/-- Source k of values that fit is a word of the width of its type. -/
theorem Fits.src_lt {srcs : List (BitVec 9 × Ty)} {xs : List Nat} (h : Fits srcs xs) {k : Nat} {e : BitVec 9 × Ty}
    (he : srcs[k]? = some e) : src xs k < 2 ^ tyBits e.2 := by
  induction h generalizing k with
  | nil => simp at he
  | cons hx _ ih =>
    cases k with
    | zero => simp only [List.getElem?_cons_zero, Option.some.injEq] at he; subst he; exact hx
    | succ k => exact ih he

/-- Source k, of an integer type, is a word of the width of that type. -/
theorem Fits.int_lt {srcs : List (BitVec 9 × Ty)} {xs : List Nat} (h : Fits srcs xs) {k t : Nat} {code : BitVec 9}
    (he : srcs[k]? = some (code, ity t)) : src xs k < 2 ^ iwid t := tyBits_ity t ▸ h.src_lt he

/-- An opcode that is RR or RI computes any function that agrees with its own on first operands of its width. -/
theorem computes_binOp {i : Instr} {f : Fields} {amount legal : Bool} {fn fn' : Nat → Nat → Nat}
    (hi : ∀ s, exec i s = onPath s fun c => runValue s c f false (binOp f amount legal fn'))
    (h : ∀ a b, a < 2 ^ iwid (ityp f) → fn a b = fn' a b) : Computes i f false fun _ => binOp f amount legal fn := by
  refine computes_of hi (by simp) fun _ => ⟨rfl, rfl, rfl, rfl, fun xs _ hx => h _ _ ?_⟩
  exact hx.int_lt (k := 0) rfl

/-- An opcode that is RR only computes any function that agrees with its own on sources of their widths. -/
theorem computes_rrOp {i : Instr} {f : Fields} {srcs : List (BitVec 9 × Ty)} {legal wide : Bool} {fn fn' : List Nat → Nat}
    (hi : ∀ s, exec i s = onPath s fun c => runValue s c f false (rrOp f srcs legal wide fn'))
    (h : ∀ xs, Fits srcs xs → fn xs = fn' xs) : Computes i f false fun _ => rrOp f srcs legal wide fn :=
  computes_of hi (by simp) fun _ => ⟨rfl, rfl, rfl, rfl, fun xs _ hx => h xs hx⟩

/-! ## Words as numbers and numbers as words -/

theorem wrapBits_eq_ofInt (w : Nat) (v : Int) : wrapBits w v = (BitVec.ofInt w v).toNat := by
  rw [BitVec.toNat_ofInt]; rfl

theorem sext_eq_toInt (w x : Nat) : sext w x = (BitVec.ofNat w x).toInt := by
  rcases w with _ | w
  · simp [sext, BitVec.toInt_zero_length]
  · have hp : 2 ^ (w + 1) = 2 * 2 ^ w := by omega
    rw [BitVec.toInt_eq_toNat_cond, BitVec.toNat_ofNat]
    simp only [sext, Nat.succ_ne_zero, if_false, Nat.add_sub_cancel]
    split <;> split <;> omega

theorem isigned_iff (t : Nat) : isigned t = true ↔ t = 0 ∨ t = 2 := by simp [isigned]

theorem inum_eq_asInt (t x : Nat) : inum t x = asInt t x := by
  simp only [inum, asInt, isigned_iff, sext_eq_toInt, BitVec.toNat_ofNat]

/-- The two's-complement reading of a word of a signed type. -/
theorem asInt_signed {t : Nat} (h : t = 0 ∨ t = 2) (x : Nat) : asInt t x = (BitVec.ofNat (iwid t) x).toInt := if_pos h

/-- A word of an unsigned type is the number it stands for. -/
theorem asInt_unsigned {t x : Nat} (h : ¬(t = 0 ∨ t = 2)) (hx : x < 2 ^ iwid t) : asInt t x = x := by
  rw [asInt, if_neg h, BitVec.toNat_ofNat, Nat.mod_eq_of_lt hx]

theorem iwrap_eq_asBits (t : Nat) (v : Int) : iwrap t v = asBits t v := wrapBits_eq_ofInt _ v

theorem asBits_neg_one (t : Nat) : asBits t (-1) = 2 ^ iwid t - 1 := by
  rw [asBits, show (-1 : Int) = -((1 : Nat) : Int) from rfl, BitVec.ofInt_neg]
  rcases iwid_cases t with h | h <;> rw [h] <;> rfl

theorem ilo_eq_least (t : Nat) : ilo t = least t := by
  simp [ilo, least, isigned_iff]

theorem ihi_eq_most (t : Nat) : ihi t = most t := by
  simp [ihi, most, isigned_iff]

theorem least_le_most (t : Nat) : least t ≤ most t := by
  unfold least most
  rcases iwid_cases t with h | h <;> rw [h] <;> split <;> decide

theorem clampInt_eq_max_min {v lo hi : Int} (h : lo ≤ hi) : clampInt v lo hi = max lo (min hi v) := by
  unfold clampInt; split_ifs <;> omega

theorem isatr_eq_asBits (t : Nat) (v : Int) : isatr t v = asBits t (max (least t) (min (most t) v)) := by
  rw [isatr, iwrap_eq_asBits, ilo_eq_least, ihi_eq_most, clampInt_eq_max_min (least_le_most t)]

/-! ## Results of arithmetic (12 R288, R289) -/

theorem sum_eq (f : Fields) (op : Int → Int → Int) (a b : Nat) :
    (if mod43 f = 1 then asBits (ityp f) (max (least (ityp f)) (min (most (ityp f)) (op (asInt (ityp f) a) (asInt (ityp f) b))))
      else asBits (ityp f) (op (asInt (ityp f) a) (asInt (ityp f) b)))
    = if (mod43 f == 1) = true then isatr (ityp f) (op (inum (ityp f) a) (inum (ityp f) b))
      else iwrap (ityp f) (op (inum (ityp f) a) (inum (ityp f) b)) := by
  simp only [isatr_eq_asBits, iwrap_eq_asBits, inum_eq_asInt, beq_iff_eq]

theorem wrapped_eq (t : Nat) (op : Int → Int → Int) (a b : Nat) :
    asBits t (op (asInt t a) (asInt t b)) = iwrap t (op (inum t a) (inum t b)) := by
  rw [iwrap_eq_asBits, inum_eq_asInt, inum_eq_asInt]

theorem imulhVal_eq (t x y : Nat) :
    iwrap t (Int.fdiv (inum t x * inum t y) ((2 ^ iwid t : Nat) : Int)) = asBits t (asInt t x * asInt t y / 2 ^ iwid t) := by
  rw [iwrap_eq_asBits, inum_eq_asInt, inum_eq_asInt, Int.fdiv_eq_ediv_of_nonneg _ (Int.natCast_nonneg _), Nat.cast_pow]
  rfl

theorem idivVal_eq (t : Nat) (rem : Prop) [Decidable rem] (a b : Int) :
    idivVal t (decide rem) a b = if b = 0 then (if rem then asBits t a else asBits t (-1))
      else if rem then asBits t (a - a.tdiv b * b) else asBits t (a.tdiv b) := by
  simp only [idivVal, iwrap_eq_asBits, asBits_neg_one, Int.tmod_def, mul_comm, decide_eq_true_eq]

/-- Settles O1: the model's exact numbers, wrapped or clamped, are the claim's. -/
theorem integerArithmetic : Obligations.IntegerArithmetic := by
  refine ⟨fun f => ?iadd, fun f => ?isub, fun f => ?imul, fun f => ?imin, fun f => ?imax, fun f => ?imulh, fun f => ?imad,
    fun f => ?idiv⟩
  case iadd => exact computes_binOp (fun _ => rfl) fun a b _ => sum_eq f (· + ·) a b
  case isub => exact computes_binOp (fun _ => rfl) fun a b _ => sum_eq f (· - ·) a b
  case imul => exact computes_binOp (fun _ => rfl) fun a b _ => wrapped_eq _ (· * ·) a b
  case imin => exact computes_binOp (fun _ => rfl) fun a b _ => wrapped_eq _ min a b
  case imax => exact computes_binOp (fun _ => rfl) fun a b _ => wrapped_eq _ max a b
  case imulh => exact computes_rrOp (fun _ => rfl) fun xs _ => (imulhVal_eq _ _ _).symm
  case imad => exact computes_rrOp (fun _ => rfl) fun xs _ => by simp only [iwrap_eq_asBits, inum_eq_asInt, src]
  case idiv =>
    refine computes_rrOp (fun _ => rfl) fun xs _ => ?_
    rw [inum_eq_asInt, inum_eq_asInt]
    exact (idivVal_eq _ (mod43 f = 1) _ _).symm

end Sys2Proof.Claims
end

section
/-!
SUPPORT. Bit operations (12 R290 to R294): a number is its bits, and the arithmetic by which the model shifts, cuts, counts and
permutes them gives the bits of the claims.
-/
namespace Sys2Proof.Claims
open Sys2Proof.Machine

/-! ## Numbers given bit by bit or byte by byte -/

theorem ofBits_lt (w : Nat) (p : Nat → Bool) : ofBits w p < 2 ^ w := by
  induction w with
  | zero => simp [ofBits]
  | succ w ih => rw [ofBits, Nat.pow_succ]; split <;> omega

theorem testBit_ofBits (w : Nat) (p : Nat → Bool) (k : Nat) : (ofBits w p).testBit k = (decide (k < w) && p k) := by
  induction w with
  | zero => simp [ofBits]
  | succ w ih =>
    have hs : ofBits (w + 1) p = 2 ^ w * (p w).toNat + ofBits w p := by rw [ofBits]; cases p w <;> simp [Nat.add_comm]
    rw [hs, Nat.testBit_two_pow_mul_add _ (ofBits_lt w p), ih]
    rcases lt_trichotomy k w with h | rfl | h
    · simp [h, Nat.lt_succ_of_lt h]
    · cases p k <;> simp
    · have h1 : (p w).toNat.testBit (k - w) = false :=
        Nat.testBit_lt_two_pow (lt_of_lt_of_le (Bool.toNat_lt _) (Nat.le_self_pow (by omega) 2))
      simp [h1, Nat.not_lt.2 h.le, Nat.not_lt.2 (Nat.succ_le_of_lt h)]

/-- A number below 2^w is the one of its w bits. -/
theorem eq_ofBits {w x : Nat} {p : Nat → Bool} (hx : x < 2 ^ w) (h : ∀ k < w, x.testBit k = p k) : x = ofBits w p := by
  refine Nat.eq_of_testBit_eq fun k => ?_
  rw [testBit_ofBits]
  by_cases hk : k < w
  · simp [hk, h k hk]
  · simp [hk, Nat.testBit_lt_two_pow (lt_of_lt_of_le hx (Nat.pow_le_pow_right (by decide) (Nat.not_lt.1 hk)))]

theorem bitOf_eq_testBit (x k : Nat) : bitOf x k = x.testBit k := by
  rw [Nat.testBit_eq_decide_div_mod_eq]; rfl

theorem ofBytes_eq_foldl (n : Nat) (b : Nat → Nat) : (List.range n).foldl (fun r j => r + b j * 256 ^ j) 0 = ofBytes n b := by
  induction n with
  | zero => rfl
  | succ n ih => rw [List.range_succ, List.foldl_append, ih]; rfl

theorem ofBytes_congr {n : Nat} {b b' : Nat → Nat} (h : ∀ k < n, b k = b' k) : ofBytes n b = ofBytes n b' := by
  induction n with
  | zero => rfl
  | succ n ih => rw [ofBytes, ofBytes, ih fun k hk => h k (Nat.lt_succ_of_lt hk), h n (Nat.lt_succ_self n)]

/-! ## Logic tables (R290) -/

theorem testBit_zero_eq_toNat (x : Nat) : x % 2 = (x.testBit 0).toNat := by
  rw [Nat.testBit_zero]; rcases Nat.mod_two_eq_zero_or_one x with h | h <;> simp [h]

theorem logicBits_lt (tt w a b c : Nat) : logicBits tt w a b c < 2 ^ w := by
  induction w generalizing a b c with
  | zero => simp [logicBits]
  | succ w ih =>
    have := ih (a / 2) (b / 2) (c / 2)
    rw [logicBits, Nat.pow_succ]; split <;> omega

theorem testBit_logicBits (tt w a b c k : Nat) (hk : k < w) : (logicBits tt w a b c).testBit k
    = tt.testBit ((a.testBit k).toNat + 2 * (b.testBit k).toNat + 4 * (c.testBit k).toNat) := by
  induction w generalizing a b c k with
  | zero => omega
  | succ w ih =>
    cases k with
    | zero =>
      rw [logicBits, Nat.testBit_zero, bitOf_eq_testBit, ← testBit_zero_eq_toNat, ← testBit_zero_eq_toNat,
        ← testBit_zero_eq_toNat]
      split <;> simp_all
    | succ k =>
      have hd : logicBits tt (w + 1) a b c / 2 = logicBits tt w (a / 2) (b / 2) (c / 2) := by
        rw [logicBits]; split <;> omega
      rw [Nat.testBit_succ, hd, ih _ _ _ _ (Nat.lt_of_succ_lt_succ hk), Nat.testBit_succ, Nat.testBit_succ, Nat.testBit_succ]

/-- TT as the eight bits it is put together from. -/
theorem logicTable_eq (f : Fields) :
    logicTable f = (f.mod.extractLsb' 3 3 ++ f.x ++ f.mod.extractLsb' 0 1 : BitVec 8).toNat := by
  have hx := f.x.isLt
  simp only [logicTable, bitsOf, BitVec.toNat_append, BitVec.extractLsb'_toNat, Nat.shiftRight_eq_div_pow]
  rw [← Nat.shiftLeft_add_eq_or_of_lt hx, ← Nat.shiftLeft_add_eq_or_of_lt (by omega), Nat.shiftLeft_eq, Nat.shiftLeft_eq]
  omega

/-- MOD[2:1] names a width of LOGT when MOD[2] is 0. -/
theorem logtWidth_legal (m : BitVec 6) : (!m.getLsbD 2) = decide (bitsOf m.toNat 1 2 ≤ 1) := by
  revert m; decide

theorem logtWidth_zero (m : BitVec 6) : (!m.getLsbD 1 && !m.getLsbD 2) = (bitsOf m.toNat 1 2 == 0) := by
  revert m; decide

/-! ## Shifts (R291, R292) -/

theorem shlVal_eq (t a n : Nat) :
    shlVal t a n = if iwid t ≤ n then 0 else (BitVec.ofNat (iwid t) a <<< n).toNat := by
  rw [shlVal, BitVec.toNat_shiftLeft, BitVec.toNat_ofNat, Nat.shiftLeft_eq, Nat.mod_mul_mod]

/-- Shifting a number by more than its magnitude leaves its sign, whatever the amount. -/
theorem ediv_two_pow_min {x : Int} {m : Nat} (hlo : -2 ^ m ≤ x) (hhi : x < 2 ^ m) (n : Nat) :
    x / 2 ^ min n m = x / 2 ^ n := by
  rcases le_total n m with h | h
  · rw [Nat.min_eq_left h]
  · have hp : (2 : Int) ^ m ≤ 2 ^ n := pow_le_pow_right₀ (by decide) h
    rw [Nat.min_eq_right h]
    rcases lt_or_ge x 0 with hx | hx
    · rw [Int.ediv_eq_neg_one_of_neg_of_le hx (by omega), Int.ediv_eq_neg_one_of_neg_of_le hx (by omega)]
    · rw [Int.ediv_eq_zero_of_lt hx hhi, Int.ediv_eq_zero_of_lt hx (by omega)]

theorem fdiv_two_pow (x : Int) (n : Nat) : Int.fdiv x ((2 ^ n : Nat) : Int) = x / 2 ^ n := by
  rw [Int.fdiv_eq_ediv_of_nonneg _ (Int.natCast_nonneg _), Nat.cast_pow]; rfl

theorem sshiftRight_eq_ofInt {w : Nat} (x : BitVec w) (n : Nat) :
    x.sshiftRight n = BitVec.ofInt w (x.toInt / 2 ^ n) := by
  rw [BitVec.sshiftRight, Int.shiftRight_eq_div_pow, Nat.cast_pow]; rfl

theorem shrVal_eq (t a n : Nat) (ha : a < 2 ^ iwid t) :
    shrVal t a n = if t = 0 ∨ t = 2 then ((BitVec.ofNat (iwid t) a).sshiftRight n).toNat
      else (BitVec.ofNat (iwid t) a >>> n).toNat := by
  simp only [shrVal, isigned_iff]
  split
  · rename_i h
    rw [iwrap_eq_asBits, inum_eq_asInt, asInt_signed h, fdiv_two_pow, sshiftRight_eq_ofInt,
      ediv_two_pow_min (BitVec.le_toInt _) BitVec.toInt_lt]
    rfl
  · rw [BitVec.toNat_ushiftRight, BitVec.toNat_ofNat, Nat.mod_eq_of_lt ha, Nat.shiftRight_eq_div_pow]
    split
    · rename_i h
      exact (Nat.div_eq_of_lt (lt_of_lt_of_le ha (Nat.pow_le_pow_right (by decide) h))).symm
    · rfl

theorem toNat_join {w a b : Nat} (ha : a < 2 ^ w) (hb : b < 2 ^ w) :
    (BitVec.ofNat w a ++ BitVec.ofNat w b).toNat = a * 2 ^ w + b := by
  rw [BitVec.toNat_append, BitVec.toNat_ofNat, BitVec.toNat_ofNat, Nat.mod_eq_of_lt ha, Nat.mod_eq_of_lt hb,
    ← Nat.shiftLeft_add_eq_or_of_lt hb, Nat.shiftLeft_eq]

theorem fshfVal_eq (w : Nat) (right : Prop) [Decidable right] (a b n : Nat) (ha : a < 2 ^ w) (hb : b < 2 ^ w) :
    fshfVal w (decide right) a b n =
      if right then (((BitVec.ofNat w a ++ BitVec.ofNat w b) >>> (n % w)).extractLsb' 0 w).toNat
      else (((BitVec.ofNat w a ++ BitVec.ofNat w b) <<< (n % w)).extractLsb' w w).toNat := by
  simp only [fshfVal, decide_eq_true_eq, BitVec.extractLsb'_toNat, BitVec.toNat_ushiftRight, BitVec.toNat_shiftLeft,
    toNat_join ha hb, Nat.shiftRight_eq_div_pow, Nat.shiftLeft_eq, pow_zero, Nat.div_one]
  split
  · rfl
  · rw [pow_add, Nat.mod_mul_right_div_self, Nat.mod_mod]

/-! ## Bit fields (R293) -/

theorem byteAt_zero (x : Nat) : byteAt x 0 = x % 256 := by simp [byteAt]
theorem byteAt_one (x : Nat) : byteAt x 1 = x / 256 % 256 := by simp [byteAt]

/-- The low bits of a number are those of its low bits. -/
theorem extractLsb'_zero_ofInt {n w : Nat} (h : n ≤ w) (v : Int) : (BitVec.ofInt w v).extractLsb' 0 n = BitVec.ofInt n v := by
  apply BitVec.eq_of_toNat_eq
  have hd : ((2 ^ n : Nat) : Int) ∣ ((2 ^ w : Nat) : Int) := Int.natCast_dvd_natCast.2 (Nat.pow_dvd_pow 2 h)
  apply Int.natCast_inj.1
  rw [BitVec.extractLsb'_toNat, Nat.shiftRight_zero, BitVec.toNat_ofInt, BitVec.toNat_ofInt, Int.natCast_emod,
    Int.toNat_of_nonneg (Int.emod_nonneg _ (by positivity)), Int.toNat_of_nonneg (Int.emod_nonneg _ (by positivity)),
    Int.emod_emod_of_dvd _ hd]

/-- BFX of a signed type, for a field of n bits, none of them included. -/
theorem signedField_eq {n w : Nat} (h : n ≤ w) (x : BitVec w) (pos : Nat) :
    (if n = 0 then 0 else wrapBits w (sext n (wrapBits n (x.toInt / 2 ^ pos))))
      = (((x.sshiftRight pos).extractLsb' 0 n).signExtend w).toNat := by
  rw [sshiftRight_eq_ofInt, extractLsb'_zero_ofInt h, sext_eq_toInt, wrapBits_eq_ofInt, wrapBits_eq_ofInt,
    BitVec.ofNat_toNat, BitVec.setWidth_eq]
  split
  · subst n; simp [BitVec.signExtend, BitVec.toInt_zero_length]
  · rfl

/-- BFX of an unsigned type. -/
theorem unsignedField_eq {w a : Nat} (ha : a < 2 ^ w) (n pos : Nat) :
    (if n = 0 then 0 else wrapBits n ((a : Int) / 2 ^ pos)) = ((BitVec.ofNat w a >>> pos).extractLsb' 0 n).toNat := by
  have hw : wrapBits n ((a : Int) / 2 ^ pos) = a / 2 ^ pos % 2 ^ n := by
    rw [wrapBits, ← Nat.cast_ofNat, ← Nat.cast_pow, ← Int.natCast_ediv, ← Int.natCast_emod]; rfl
  rw [hw, BitVec.extractLsb'_toNat, BitVec.toNat_ushiftRight, BitVec.toNat_ofNat, Nat.mod_eq_of_lt ha, Nat.shiftRight_zero,
    Nat.shiftRight_eq_div_pow]
  split
  · subst n; simp [Nat.mod_one]
  · rfl

theorem bfxVal_eq (t a ctl : Nat) (ha : a < 2 ^ iwid t) :
    bfxVal t a ctl = if t = 0 ∨ t = 2 then
        ((((BitVec.ofNat (iwid t) a).sshiftRight (byteAt ctl 0)).extractLsb' 0 (min (byteAt ctl 1) (iwid t))).signExtend
          (iwid t)).toNat
      else ((BitVec.ofNat (iwid t) a >>> byteAt ctl 0).extractLsb' 0 (min (byteAt ctl 1) (iwid t))).toNat := by
  simp only [bfxVal, isigned_iff, inum_eq_asInt, fdiv_two_pow, ← byteAt_zero ctl, ← byteAt_one ctl]
  by_cases h : t = 0 ∨ t = 2
  · simp only [h, if_true, asInt_signed h, signedField_eq (Nat.min_le_right _ _)]
  · simp only [h, if_false, asInt_unsigned h ha, unsignedField_eq ha]

/-- A number with n bits from pos on replaced, as its high part, the new field and its low part. -/
theorem replaceField_eq (b pos n x : Nat) :
    b - bitsOf b pos n * 2 ^ pos + x * 2 ^ pos = 2 ^ pos * (2 ^ n * (b / 2 ^ pos / 2 ^ n) + x) + b % 2 ^ pos := by
  have h : 2 ^ pos * (2 ^ n * (b / 2 ^ pos / 2 ^ n)) + b % 2 ^ pos + bitsOf b pos n * 2 ^ pos = b := by
    calc _ = 2 ^ pos * (2 ^ n * (b / 2 ^ pos / 2 ^ n) + b / 2 ^ pos % 2 ^ n) + b % 2 ^ pos := by rw [bitsOf]; ring
      _ = b := by rw [Nat.div_add_mod, Nat.div_add_mod]
  have hout : b - bitsOf b pos n * 2 ^ pos = 2 ^ pos * (2 ^ n * (b / 2 ^ pos / 2 ^ n)) + b % 2 ^ pos := by omega
  rw [hout]; ring

theorem testBit_replaceField (b pos n x k : Nat) (hx : x < 2 ^ n) :
    (b - bitsOf b pos n * 2 ^ pos + x * 2 ^ pos).testBit k
      = if pos ≤ k ∧ k < pos + n then x.testBit (k - pos) else b.testBit k := by
  rw [replaceField_eq, Nat.testBit_two_pow_mul_add _ (Nat.mod_lt _ (Nat.two_pow_pos _)), Nat.testBit_two_pow_mul_add _ hx,
    Nat.testBit_mod_two_pow, Nat.testBit_div_two_pow, Nat.testBit_div_two_pow]
  rcases lt_or_ge k pos with h | h
  · simp [h, Nat.not_le.2 h]
  · rcases lt_or_ge k (pos + n) with h' | h'
    · rw [if_neg (by omega), if_pos (by omega), if_pos ⟨h, h'⟩]
    · rw [if_neg (by omega), if_neg (by omega), if_neg (by omega), show k - pos - n + n + pos = k by omega]

theorem bfiVal_eq (w a b ctl : Nat) (hb : b < 2 ^ w) :
    bfiVal w a b ctl = ofBits w fun k =>
      if byteAt ctl 0 ≤ k ∧ k < byteAt ctl 0 + byteAt ctl 1 then a.testBit (k - byteAt ctl 0) else b.testBit k := by
  have hout : ∀ k, w ≤ k → b.testBit k = false := fun k hk =>
    Nat.testBit_lt_two_pow (lt_of_lt_of_le hb (Nat.pow_le_pow_right (by decide) hk))
  simp only [bfiVal, byteAt_zero, byteAt_one]
  generalize ctl % 256 = pos
  generalize ctl / 256 % 256 = len
  split
  · exact eq_ofBits hb fun k hk => (if_neg (by omega)).symm
  · refine Nat.eq_of_testBit_eq fun k => ?_
    rw [testBit_replaceField _ _ _ _ _ (Nat.mod_lt _ (Nat.two_pow_pos _)), testBit_ofBits, Nat.testBit_mod_two_pow]
    by_cases hk : k < w
    · by_cases hf : pos ≤ k ∧ k < pos + len
      · rw [if_pos (by omega), if_pos hf]
        simp [hk, show k - pos < min len (w - pos) by omega]
      · rw [if_neg (by omega), if_neg hf]; simp [hk]
    · rw [if_neg (by omega), hout k (Nat.not_lt.1 hk)]; simp [hk]

/-! ## Counts, reversal and byte permutation (R291, R294) -/

theorem popBits_eq (n x : Nat) : popBits n x = ((List.range n).filter x.testBit).length := by
  simp only [popBits, bitOf_eq_testBit]

/-- The leading zeros of a word are the bits from the top down to its first one. -/
theorem clzVal_eq (w a : Nat) (ha : a < 2 ^ w) :
    clzVal w a = ((List.range w).reverse.takeWhile fun k => !a.testBit k).length := by
  induction w with
  | zero => simp [clzVal]
  | succ w ih =>
    rw [List.range_succ, List.reverse_append, List.reverse_singleton, List.singleton_append, List.takeWhile_cons]
    by_cases h : a < 2 ^ w
    · rw [Nat.testBit_lt_two_pow h, Bool.not_false, if_pos rfl, List.length_cons, ← ih h]
      unfold clzVal
      split
      · rfl
      · rename_i h0
        have := (Nat.log2_lt h0).2 h
        omega
    · have h0 : a ≠ 0 := by rintro rfl; exact h (Nat.two_pow_pos w)
      have hl : Nat.log2 a = w := (Nat.log2_eq_iff h0).2 ⟨Nat.not_lt.1 h, ha⟩
      have ht : a.testBit w = true := hl ▸ Nat.testBit_log2 h0
      simp [clzVal, h0, hl, ht]

theorem brevVal_lt (w a : Nat) : brevVal w a < 2 ^ w := by
  induction w generalizing a with
  | zero => simp [brevVal]
  | succ w ih =>
    have := ih (a / 2)
    rw [brevVal, Nat.pow_succ]
    rcases Nat.mod_two_eq_zero_or_one a with h | h <;> rw [h] <;> omega

theorem testBit_brevVal (w a k : Nat) (hk : k < w) : (brevVal w a).testBit k = a.testBit (w - 1 - k) := by
  induction w generalizing a with
  | zero => omega
  | succ w ih =>
    rw [brevVal, Nat.mul_comm, Nat.testBit_two_pow_mul_add _ (brevVal_lt w _)]
    rcases Nat.lt_or_ge k w with h | h
    · rw [if_pos h, ih _ h, ← Nat.testBit_succ]; congr 1; omega
    · rw [if_neg (by omega), show k = w by omega, Nat.sub_self, Nat.testBit_zero, Nat.mod_mod]
      simp [Nat.testBit_zero]

theorem brevVal_eq (w a : Nat) : brevVal w a = ofBits w fun k => a.testBit (w - 1 - k) :=
  eq_ofBits (brevVal_lt w a) fun k hk => testBit_brevVal w a k hk

theorem testBit_seven_byteAt (x k : Nat) : (byteAt x k).testBit 7 = decide (128 ≤ byteAt x k) := by
  have : byteAt x k < 256 := Nat.mod_lt _ (by decide)
  rw [Nat.testBit_eq_decide_div_mod_eq, decide_eq_decide]; omega

/-- Byte k of the bytes of a, and behind them of b, of which there are `half` each. -/
def permSource (half a b k : Nat) : Nat := if k < half then byteAt a k else byteAt b (k - half)

theorem testBit_seven_permSource (half a b k : Nat) : (permSource half a b k).testBit 7 = decide (128 ≤ permSource half a b k) := by
  unfold permSource; split <;> exact testBit_seven_byteAt _ _

theorem permByte_eq (wide : Bool) (a b ctl j : Nat) :
    permByte wide a b ctl j =
      if wide = true then permSource (if wide then 8 else 4) a b (ctl / 2 ^ (4 * j) % 16)
      else if ctl / 2 ^ (4 * j) % 16 < 8 then permSource (if wide then 8 else 4) a b (ctl / 2 ^ (4 * j) % 16)
      else if (permSource (if wide then 8 else 4) a b (ctl / 2 ^ (4 * j) % 16 - 8)).testBit 7 then 0xFF else 0 := by
  have hp : 16 ^ j = 2 ^ (4 * j) := by rw [Nat.pow_mul]
  have hn : ctl / 2 ^ (4 * j) % 16 < 16 := Nat.mod_lt _ (by decide)
  simp only [testBit_seven_permSource, decide_eq_true_eq, permByte, hp]
  cases wide
  · by_cases h : ctl / 2 ^ (4 * j) % 16 < 8
    · simp only [Bool.false_eq_true, if_false, Nat.not_le.2 h, h, if_true]; rfl
    · simp only [Bool.false_eq_true, if_false, Nat.not_lt.1 h, h, if_true,
        show ctl / 2 ^ (4 * j) % 16 % 8 = ctl / 2 ^ (4 * j) % 16 - 8 by omega]; rfl
  · rfl

/-- Settles O2: each instruction's arithmetic gives the claim's bits, for sources of their widths. -/
theorem bitOperations : Obligations.BitOperations := by
  refine ⟨fun f => ?logt, fun f => ?shl, fun f => ?shr, fun f => ?fshf, fun f => ?bfx, fun f => ?bfi, fun f => ?popc,
    fun f => ?clz, fun f => ?brev, fun f => ?permb⟩
  case logt =>
    refine computes_of (fun _ => rfl) (by simp) fun _ => ⟨rfl, ?_, rfl, logtWidth_legal _, fun xs _ _ => ?_⟩
    · simp only [beq_iff_eq]
    · simp only [beq_iff_eq]
      refine (eq_ofBits (logicBits_lt _ _ _ _ _) fun k hk => ?_).symm
      rw [testBit_logicBits _ _ _ _ _ _ hk, logicTable_eq]; rfl
  case shl => exact computes_binOp (fun _ => rfl) fun a n _ => (shlVal_eq _ a n).symm
  case shr => exact computes_binOp (fun _ => rfl) fun a n ha => (shrVal_eq _ a n ha).symm
  case fshf =>
    exact computes_rrOp (fun _ => rfl) fun xs hx =>
      (fshfVal_eq _ (mod43 f = 1) _ _ _ (hx.int_lt (k := 0) rfl) (hx.int_lt (k := 1) rfl)).symm
  case bfx =>
    exact computes_rrOp (fun _ => rfl) fun xs hx => (bfxVal_eq _ _ _ (hx.int_lt (k := 0) rfl)).symm
  case bfi =>
    exact computes_rrOp (fun _ => rfl) fun xs hx => (bfiVal_eq _ _ _ _ (hx.int_lt (k := 1) rfl)).symm
  case popc => exact computes_rrOp (fun _ => rfl) fun xs _ => (popBits_eq _ _).symm
  case clz =>
    exact computes_rrOp (fun _ => rfl) fun xs hx => (clzVal_eq _ _ (hx.int_lt (k := 0) rfl)).symm
  case brev => exact computes_rrOp (fun _ => rfl) fun xs _ => (brevVal_eq _ _).symm
  case permb =>
    exact computes_rrOp (fun _ => rfl) fun xs _ =>
      (ofBytes_congr fun j _ => (permByte_eq _ _ _ _ j).symm).trans (ofBytes_eq_foldl _ _).symm

end Sys2Proof.Claims
end

section
/-!
SUPPORT. Compare, constants, predicate logic and random numbers (12 R290, R295 to R297, R300; 07 R173): the model's arithmetic
gives the truth values, the bits and the words of the claims.
-/
namespace Sys2Proof.Claims
open Sys2Proof.Machine

theorem bitNat_eq_toNat (b : Bool) : bitNat b = b.toNat := by cases b <;> rfl

theorem moviVal_eq (t : Nat) (f : Fields) :
    moviVal t f = if t = 1 ∨ t = 3 then (f.imm27.setWidth (iwid t)).toNat else (f.imm27.signExtend (iwid t)).toNat := by
  have hw : f.imm27.toNat < 2 ^ iwid t := by
    have := f.imm27.isLt
    rcases iwid_cases t with h | h <;> rw [h] <;> omega
  rw [moviVal, BitVec.toNat_setWidth, Nat.mod_eq_of_lt hw, wrapBits_eq_ofInt]
  rfl

/-- The bits of a multiple of 2^pos that stand below bit w. -/
theorem mul_two_pow_mod (x pos w : Nat) : x * 2 ^ pos % 2 ^ w = 2 ^ pos * (x % 2 ^ (w - pos)) := by
  rcases Nat.le_total pos w with h | h
  · rw [← Nat.mul_mod_mul_left, Nat.mul_comm x, ← pow_add, Nat.add_sub_of_le h]
  · rw [Nat.sub_eq_zero_of_le h, pow_zero, Nat.mod_one, Nat.mul_zero]
    exact Nat.mod_eq_zero_of_dvd (Dvd.dvd.mul_left (Nat.pow_dvd_pow 2 h) x)

theorem movhiVal_eq (w a q : Nat) (imm : BitVec 18) (ha : a < 2 ^ w) :
    movhiVal w a imm.toNat q = ofBits w fun k =>
      if k < 14 + 18 * q then a.testBit k else imm.getLsbD (k - (14 + 18 * q)) := by
  simp only [movhiVal, mul_two_pow_mod]
  generalize 14 + 18 * q = pos
  refine Nat.eq_of_testBit_eq fun k => ?_
  rw [Nat.add_comm, Nat.testBit_two_pow_mul_add _ (Nat.mod_lt _ (Nat.two_pow_pos _)), testBit_ofBits, Nat.testBit_mod_two_pow,
    Nat.testBit_mod_two_pow, BitVec.testBit_toNat]
  by_cases hp : k < pos
  · by_cases hk : k < w
    · simp [hp, hk]
    · simp [hp, hk, Nat.testBit_lt_two_pow (lt_of_lt_of_le ha (Nat.pow_le_pow_right (by decide) (Nat.not_lt.1 hk)))]
  · have hk : k - pos < w - pos ↔ k < w := by omega
    simp only [hp, if_false, hk]

theorem movhiLegal_eq (f : Fields) :
    (itypOk f && mod53zero f && decide (f.x.toNat < 3) && (decide (f.x.toNat = 0) || iwide (ityp f))
      && !(decide (f.x.toNat = 2) && decide (2 ^ 14 ≤ f.imm18.toNat))) = movhiLegal f := by
  have hq : decide (f.x.toNat < 3) = decide (f.x.toNat ≤ 2) := decide_eq_decide.2 Nat.lt_succ_iff
  have hi : decide (2 ^ 14 ≤ f.imm18.toNat) = (f.imm18.toNat / 2 ^ 14 != 0) := by
    rw [Bool.eq_iff_iff, decide_eq_true_iff, bne_iff_ne, Nat.div_ne_zero_iff]
    simp
  rw [hq, hi]
  rfl

/-- A word mixed with itself shifted, as the model's arithmetic has it. -/
theorem toNat_xor_ushiftRight (z : BitVec 64) (k : Nat) : (z ^^^ (z >>> k)).toNat = Nat.xor z.toNat (z.toNat / 2 ^ k) := by
  rw [BitVec.toNat_xor, BitVec.toNat_ushiftRight, Nat.shiftRight_eq_div_pow]
  rfl

theorem toNat_mixStep (z m : BitVec 64) (k : Nat) :
    ((z ^^^ (z >>> k)) * m).toNat = Nat.xor z.toNat (z.toNat / 2 ^ k) * m.toNat % 2 ^ 64 := by
  rw [BitVec.toNat_mul, toNat_xor_ushiftRight]

theorem mix64_toNat {z z1 z2 : BitVec 64} (h1 : z1 = (z ^^^ (z >>> 30)) * 0xBF58476D1CE4E5B9)
    (h2 : z2 = (z1 ^^^ (z1 >>> 27)) * 0x94D049BB133111EB) : mix64 z.toNat = (z2 ^^^ (z2 >>> 31)).toNat := by
  have hm1 : (0xBF58476D1CE4E5B9 : BitVec 64).toNat = 0xBF58476D1CE4E5B9 := rfl
  have hm2 : (0x94D049BB133111EB : BitVec 64).toNat = 0x94D049BB133111EB := rfl
  rw [mix64, Nat.mod_eq_of_lt z.isLt, toNat_xor_ushiftRight, h2, toNat_mixStep, h1, toNat_mixStep, hm1, hm2]

theorem rng64_eq (key counter : Nat) : rng64 key counter =
    mix64 (BitVec.ofNat 64 key + (BitVec.ofNat 64 counter + 1) * 0x9E3779B97F4A7C15).toNat := by
  have h1 : (BitVec.ofNat 64 counter + 1) * 0x9E3779B97F4A7C15 = BitVec.ofNat 64 ((counter + 1) * gammaConst) := by
    rw [BitVec.ofNat_mul, BitVec.ofNat_add]; rfl
  rw [h1, ← BitVec.ofNat_add, BitVec.toNat_ofNat, rng64]

/-- Settles O3: truth values, bits and words of the model's arithmetic are those of the claim. -/
theorem compareSelectConstants : Obligations.CompareSelectConstants := by
  refine ⟨fun f => ?icmp, fun f => ?isel, fun f => ?movi, fun f => ?movhi, fun f => ?plogt, fun f => ?rng⟩
  case icmp =>
    refine computes_of (fun _ => rfl) (by simp) fun _ => ⟨rfl, rfl, rfl, rfl, fun xs _ _ => ?_⟩
    simp only [bitNat_eq_toNat, inum_eq_asInt]
    rfl
  case isel => exact computes_of (fun _ => rfl) (by simp) fun _ => ⟨rfl, rfl, rfl, rfl, fun xs ps _ => rfl⟩
  case movi => exact computes_of (fun _ => rfl) (by simp) fun _ => ⟨rfl, rfl, rfl, rfl, fun _ _ _ => (moviVal_eq _ f).symm⟩
  case movhi =>
    exact computes_of (fun _ => rfl) (by simp) fun _ => ⟨rfl, rfl, rfl, movhiLegal_eq f, fun xs _ hx =>
      (movhiVal_eq _ _ _ _ (hx.int_lt (k := 0) rfl)).symm⟩
  case plogt =>
    refine computes_of (fun _ => rfl) (fun _ _ _ => rfl) fun _ => ⟨rfl, rfl, rfl, logtWidth_zero _, fun _ ps _ => ?_⟩
    simp only [bitNat_eq_toNat, bitOf_eq_testBit, logicTable_eq]
    rfl
  case rng =>
    refine computes_rrOp (fun _ => rfl) fun xs _ => ?_
    rw [rng64_eq, mix64_toNat rfl rfl, src, src]

end Sys2Proof.Claims
end

section
/-!
SUPPORT. Predicates and lanes (12 R279, R298, R299), and the path-wide branches (12 R272): what the body of each instruction
writes, for the shared shape of instructions under a mask guard.
-/
namespace Sys2Proof.Claims
open Sys2Proof.Machine

/-! ## Instructions under a mask guard -/

theorem runMasked_body {s : State} {c : Iss} {f : Fields} {legal : Bool} (body : Mask → State) (hg : f.guardLegal = true)
    (hl : legal = true) (ha : active c f ≠ 0) : runMasked s c f legal body = body (active c f) := by
  rw [runMasked, hg, hl, Bool.and_self, Bool.not_true, if_neg (by decide), if_neg ha]

/-- An instruction under a mask guard makes the register writes that its body makes when its checks pass. -/
theorem writes_of {i : Instr} {f : Fields} {legal legal' : Iss → Bool} {bad : State → Iss → Nat → Bool}
    {V : State → Iss → VecWrites} {S : State → Iss → ScaWrites} {P : State → Iss → PredWrites} {body : State → Iss → Mask → State}
    (hi : ∀ s, exec i s = onPath s fun c => runMasked s c f (legal' c) (body s c))
    (hl : ∀ c, legal c = true → legal' c = true)
    (h : ∀ s c, issuer s = some c → legal c = true → active c f ≠ 0 → (∀ l ∈ lanesOf (active c f), bad s c l = false) →
      ∃ g', body s c (active c f) = modGroup s c.gid (fun _ => g') ∧ Wrote (behind c) g' (V s c) (S s c) (P s c)) :
    Writes i f legal bad V S P := by
  intro s c hc hg hlc ha hb
  obtain ⟨g', hbody, hw⟩ := h s c hc hlc ha hb
  refine ⟨g', ?_, hw⟩
  rw [hi, onPath_issuer hc, runMasked_body _ hg (hl c hlc) ha, hbody]

theorem exists_mem_lanesOf {m : Mask} (h : m ≠ 0) : ∃ l, l ∈ lanesOf m := by
  by_contra hn
  push Not at hn
  refine h (BitVec.eq_of_getLsbD_eq fun l hl => ?_)
  have := hn l
  rw [mem_lanesOf] at this
  simpa [hl] using this

/-- A predicate written in the lanes of a mask. -/
theorem Wrote.toPred (g : Group) (code : BitVec 9) (act ones : Mask) (val : Nat → Bool)
    (h : ∀ l < 64, act.getLsbD l = true → ones.getLsbD l = val l) :
    Wrote g (g.setPred code.toNat act ones) noVec noSca (toPred code act val) := by
  refine (Wrote.setPred g code.toNat act ones).congr (fun _ _ _ => rfl) (fun _ => rfl) fun p l _ hl => ?_
  unfold Claims.toPred
  by_cases ha : code.toNat ≠ 63 ∧ p = code.toNat ∧ act.getLsbD l = true
  · rw [if_pos ha, if_pos ha, h l hl ha.2.2]
  · rw [if_neg ha, if_neg ha]

/-! ## PMOV (R298) -/

theorem find_pmovBad {c : Iss} {f : Fields} {act : Mask} (h : ∀ l ∈ lanesOf act, pmovBad c f l = false) :
    (lanesOf act).find? (pmovBad c f) = none := List.find?_eq_none.2 fun l hl => by simp [h l hl]

/-- The form k of PMOV makes the writes that its change of the group makes. -/
theorem writes_pmov {f : Fields} (k : BitVec 4) {bad : State → Iss → Nat → Bool} {V : State → Iss → VecWrites}
    {S : State → Iss → ScaWrites} {P : State → Iss → PredWrites}
    (hb : f.x = k → ∀ s c l, bad s c l = pmovBad c f l)
    (hw : f.x = k → ∀ s c, Wrote c.g (pmovGroup s c f (active c f) c.g) (V s c) (S s c) (P s c)) :
    Writes (.pmov f) f (fun c => pmovLegal c f && decide (f.x = k)) bad V S P := by
  refine writes_of (legal' := fun c => pmovLegal c f) (fun _ => rfl) (fun c h => (Bool.and_eq_true_iff.1 h).1)
    fun s c hc hl _ hbad => ?_
  have hx : f.x = k := of_decide_eq_true (Bool.and_eq_true_iff.1 hl).2
  simp only [find_pmovBad fun l hm => (hb hx s c l).symm.trans (hbad l hm)]
  exact retire_wrote hc (hw hx s c)

/-! ## READLANE and WRITELANE (R299) -/

/-- A vector register written in one lane, when it is active. -/
theorem Wrote.toLane (g : Group) (wide : Bool) (code : BitVec 9) (act : Mask) (val : Nat → Nat) {n : Nat} (hn : n < 64)
    (ha : act.getLsbD n = true) :
    Wrote g (Machine.writeLane g wide (opnd code) n (val n)) (toVec code wide (act &&& laneBit n) val) noSca noPred := by
  refine (Wrote.writeLane g wide code n (val n) hn).congr (fun r l hl => ?_) (fun _ => rfl) (fun _ _ _ _ => rfl)
  rw [toVec, BitVec.getLsbD_and, getLsbD_laneBit hl]
  by_cases h : l = n
  · subst h; simp [ha]
  · simp [h]

/-- No lane of a mask is written when the one lane that would be is not in it. -/
theorem Wrote.toNoLane (g : Group) (wide : Bool) (code : BitVec 9) (act : Mask) (val : Nat → Nat) {n : Nat}
    (ha : act.getLsbD n = false) : Wrote g g (toVec code wide (act &&& laneBit n) val) noSca noPred := by
  refine (Wrote.refl g).congr (fun r l hl => ?_) (fun _ => rfl) (fun _ _ _ _ => rfl)
  rw [toVec, BitVec.getLsbD_and, getLsbD_laneBit hl]
  by_cases h : l = n
  · subst h; simp [ha, noVec]
  · simp [h, noVec]

theorem readlane_writes (f : Fields) : Writes (.readlane f) f
    (fun c => lanePick c f && (opnd f.d).isScalarReg && dstLegal c (iwide (ityp f)) (opnd f.d)
      && decide (f.a.toNat < 0x100) && srcLegal c (iwide (ityp f)) (opnd f.a))
    (fun s c _ => srcBad c (iwide (ityp f)) (opnd f.b) 0
      || srcBad c (iwide (ityp f)) (opnd f.a) (srcVal s c (ity (ityp f)) (opnd f.b) 0 % 64))
    noV (fun s c => toSca f.d (iwide (ityp f))
      (srcVal s c (ity (ityp f)) (opnd f.a) (srcVal s c (ity (ityp f)) (opnd f.b) 0 % 64))) noP := by
  refine writes_of (fun _ => rfl) (fun c h => ?_) fun s c hc _ ha hbad => ?_
  · simp only [Bool.and_eq_true, decide_eq_true_eq] at h ⊢
    obtain ⟨⟨hp, hv⟩, hs⟩ := h
    rw [opnd_v hv] at hs ⊢
    exact ⟨⟨hp, rfl⟩, hs⟩
  · obtain ⟨l, hl⟩ := exists_mem_lanesOf ha
    obtain ⟨hb, ha⟩ := Bool.or_eq_false_iff.1 (hbad l hl)
    simp only [hb, ha, Bool.false_eq_true, if_false]
    exact retire_wrote hc (Wrote.writeScal _ _ _ _)

theorem writelane_writes (f : Fields) : Writes (.writelane f) f
    (fun c => lanePick c f && decide (f.d.toNat < 0x100) && dstLegal c (iwide (ityp f)) (opnd f.d)
      && (opnd f.a).isUniform && srcLegal c (iwide (ityp f)) (opnd f.a))
    (fun _ c _ => srcBad c (iwide (ityp f)) (opnd f.b) 0 || srcBad c (iwide (ityp f)) (opnd f.a) 0)
    (fun s c => toVec f.d (iwide (ityp f)) (active c f &&& laneBit (srcVal s c (ity (ityp f)) (opnd f.b) 0 % 64)) fun l =>
      srcVal s c (ity (ityp f)) (opnd f.a) l) noS noP := by
  refine writes_of (fun _ => rfl) (fun c h => ?_) fun s c hc _ ha hbad => ?_
  · simp only [Bool.and_eq_true, decide_eq_true_eq] at h ⊢
    obtain ⟨⟨⟨⟨hp, hv⟩, hd⟩, hu⟩, hs⟩ := h
    rw [opnd_v hv] at hd ⊢
    exact ⟨⟨⟨⟨hp, rfl⟩, hd⟩, hu⟩, hs⟩
  · obtain ⟨l, hl⟩ := exists_mem_lanesOf ha
    simp only [hbad l hl, Bool.false_eq_true, if_false]
    split
    · rename_i hn; exact retire_wrote hc (Wrote.toLane _ _ _ _ _ (Nat.mod_lt _ (by decide)) hn)
    · rename_i hn
      exact ⟨_, retire_eq hc, Wrote.toNoLane _ _ _ _ _ (eq_false_of_ne_true hn)⟩

/-! ## PCOLL (R279) -/

theorem getLsbD_votes {act pred : Mask} {l : Nat} (h : act.getLsbD l = true) : (act &&& pred).getLsbD l = pred.getLsbD l := by
  rw [BitVec.getLsbD_and, h, Bool.true_and]

/-- The votes that are 1 are the active lanes in which the predicate is. -/
theorem lanesOf_and (act pred : Mask) : lanesOf (act &&& pred) = (lanesOf act).filter pred.getLsbD := by
  simp only [lanesOf, List.filter_filter, BitVec.getLsbD_and, Bool.and_comm]

theorem votes_eq_zero_iff (act pred : Mask) : act &&& pred = 0#64 ↔ ∀ l ∈ lanesOf act, pred.getLsbD l = false := by
  refine ⟨fun h l hl => ?_, fun h => BitVec.eq_of_getLsbD_eq fun l hl => ?_⟩
  · rw [← getLsbD_votes (mem_lanesOf.1 hl).2, h]; simp
  · cases ha : act.getLsbD l
    · simp [ha]
    · rw [getLsbD_votes ha, h l (mem_lanesOf.2 ⟨hl, ha⟩)]; simp

theorem votes_eq_active_iff (act pred : Mask) : act &&& pred = act ↔ ∀ l ∈ lanesOf act, pred.getLsbD l = true := by
  refine ⟨fun h l hl => ?_, fun h => BitVec.eq_of_getLsbD_eq fun l hl => ?_⟩
  · rw [← getLsbD_votes (mem_lanesOf.1 hl).2, h]; exact (mem_lanesOf.1 hl).2
  · cases ha : act.getLsbD l
    · simp [ha]
    · rw [getLsbD_votes ha, h l (mem_lanesOf.2 ⟨hl, ha⟩)]

/-- What the votes of the active lanes come to: any, all, or all alike. -/
def verdict (x : BitVec 4) (ones : List Bool) : Bool :=
  if x = 1 then ones.any id else if x = 2 then ones.all id else ones.all id || ones.all not

theorem collect_eq_zero_iff {x : BitVec 4} (hx : x = 1 ∨ x = 2 ∨ x = 3) (act pred : Mask) :
    collect x.toNat act (act &&& pred) = 0 ↔ verdict x ((lanesOf act).map pred.getLsbD) = false := by
  rcases hx with rfl | rfl | rfl
  · simp [collect, verdict, votes_eq_zero_iff]
  · simp [collect, verdict, votes_eq_active_iff]
  · simp [collect, verdict, votes_eq_zero_iff, votes_eq_active_iff, and_comm]

/-- What PCOLL does to the group, by the form that X names. -/
def pcollGroup (c : Iss) (f : Fields) (act : Mask) (g : Group) : Group :=
  let r := collect f.x.toNat act (act &&& c.g.predMask f.a.toNat)
  if f.x = 0 then writeScal g true (opnd f.d) r
  else if f.x = 4 then writeScal g false (opnd f.d) r
  else g.setPred f.d.toNat act (if r = 0 then 0 else act)

theorem exec_pcoll (f : Fields) (s : State) : exec (.pcoll f) s = onPath s fun c => runMasked s c f (pcollLegal f) fun act =>
    retire (modGroup s c.gid (pcollGroup c f act)) c := rfl

/-- A form of PCOLL makes the writes that its change of the group makes. -/
theorem writes_pcoll {f : Fields} {form : Bool} {S : State → Iss → ScaWrites} {P : State → Iss → PredWrites}
    (hw : pcollLegal f = true → form = true → ∀ s c, Wrote c.g (pcollGroup c f (active c f) c.g) noVec (S s c) (P s c)) :
    Writes (.pcoll f) f (fun _ => pcollLegal f && form) (fun _ _ _ => false) noV S P :=
  writes_of (legal' := fun _ => pcollLegal f) (exec_pcoll f) (fun _ h => (Bool.and_eq_true_iff.1 h).1) fun s c hc hl _ _ =>
    have ⟨hp, hform⟩ := Bool.and_eq_true_iff.1 hl
    retire_wrote hc (hw hp hform s c)

/-- The predicate forms of PCOLL give the verdict on the votes to every active lane. -/
theorem pcollGroup_verdict {c : Iss} {f : Fields} (hx : f.x = 1 ∨ f.x = 2 ∨ f.x = 3) (act : Mask) :
    Wrote c.g (pcollGroup c f act c.g) noVec noSca
      (toPred f.d act fun _ => verdict f.x ((lanesOf act).map (c.g.predMask f.a.toNat).getLsbD)) := by
  have h0 : f.x ≠ 0 := by rcases hx with h | h | h <;> rw [h] <;> decide
  have h4 : f.x ≠ 4 := by rcases hx with h | h | h <;> rw [h] <;> decide
  simp only [pcollGroup, h0, h4, if_false]
  refine Wrote.toPred _ _ _ _ _ fun l _ ha => ?_
  cases hv : verdict f.x ((lanesOf act).map (c.g.predMask f.a.toNat).getLsbD)
  · rw [if_pos ((collect_eq_zero_iff hx _ _).2 hv)]; simp
  · rw [if_neg (by rw [collect_eq_zero_iff hx, hv]; decide), ha]

theorem pcollLegal_form {f : Fields} (h : pcollLegal f = true) : f.x = 0 ∨ f.x = 4 ∨ f.x = 1 ∨ f.x = 2 ∨ f.x = 3 := by
  simp only [pcollLegal, Bool.and_eq_true] at h
  obtain ⟨-, h⟩ := h
  split at h
  · rename_i hx; exact .inl (BitVec.eq_of_toNat_eq hx)
  · rename_i hx; exact .inr (.inl (BitVec.eq_of_toNat_eq hx))
  · rename_i hx; exact .inr (.inr (.inl (BitVec.eq_of_toNat_eq hx)))
  · rename_i hx; exact .inr (.inr (.inr (.inl (BitVec.eq_of_toNat_eq hx))))
  · rename_i hx; exact .inr (.inr (.inr (.inr (BitVec.eq_of_toNat_eq hx))))
  · cases h

/-- Settles O4: each form is one change of the group, and its writes are the claim's. -/
theorem predicatesAndLanes : Obligations.PredicatesAndLanes := by
  refine ⟨fun f => ?pmov0, fun f => ?pmov1, fun f => ?pmov2, fun f => ?pmov3, fun f => readlane_writes f,
    fun f => writelane_writes f, fun f => ?pcoll0, fun f => ?pcoll4, fun f => ?pcollPred⟩
  case pmov0 =>
    refine writes_pmov 0 (fun hx _ _ _ => by simp [pmovBad, hx]) fun hx s c => ?_
    simp only [pmovGroup, hx, bitNat_eq_toNat]
    exact Wrote.mask _ _ _ _ _
  case pmov1 =>
    refine writes_pmov 1 (fun hx _ _ _ => by simp [pmovBad, hx]) fun hx s c => ?_
    simp only [pmovGroup, hx]
    refine Wrote.toPred _ _ _ _ _ fun l hl ha => ?_
    rw [getLsbD_maskWhere _ _ _ hl, ha, Bool.true_and]
  case pmov2 =>
    refine writes_pmov 2 (fun hx _ _ _ => by simp [pmovBad, hx]) fun hx s c => ?_
    simp only [pmovGroup, hx]
    exact Wrote.writeScal _ _ _ _
  case pmov3 =>
    refine writes_pmov 3 (fun hx _ _ _ => by simp [pmovBad, hx]) fun hx s c => ?_
    simp only [pmovGroup, hx]
    refine Wrote.toPred _ _ _ _ _ fun l hl _ => ?_
    rw [BitVec.getLsbD_ofNat, decide_eq_true hl, Bool.true_and]
  case pcoll0 =>
    refine writes_pcoll fun _ hx s c => ?_
    simp only [pcollGroup, of_decide_eq_true hx, if_true]
    exact Wrote.writeScal _ _ _ _
  case pcoll4 =>
    refine writes_pcoll fun _ hx s c => ?_
    simp only [pcollGroup, of_decide_eq_true hx]
    rw [← lanesOf_and]
    exact Wrote.writeScal _ _ _ _
  case pcollPred =>
    simp only [Bool.and_assoc]
    refine writes_pcoll fun hl hx s c => pcollGroup_verdict ?_ _
    simp only [Bool.and_eq_true, decide_eq_true_eq] at hx
    exact ((pcollLegal_form hl).resolve_left hx.1).resolve_left hx.2

/-! ## Branches (R272) -/

theorem branchIf_goes {s : State} {c : Iss} (h : issuer s = some c) (f : Fields) (taken : Bool) :
    branchIf s c f taken = modGroup s c.gid fun _ => atClause c (if taken then wordTarget c.p f.imm27 else nextClause c.p) := by
  rw [branchIf, branchTo_eq h, relTarget_eq]

theorem condBranch_goes {s : State} {c : Iss} (h : issuer s = some c) {f : Fields} (hg : f.guardLegal = true)
    (hf : branchFields f = true) (taken : Mask → Mask → Bool) :
    condBranch f s taken = .next (modGroup s c.gid fun _ =>
      atClause c (if taken (active c f) c.p.mask then wordTarget c.p f.imm27 else nextClause c.p)) := by
  rw [condBranch, onPath_issuer h, hg, hf, Bool.and_self, Bool.not_true, if_neg (by decide), branchIf_goes h]

theorem exec_bra (f : Fields) (s : State) : exec (.bra f) s = execBra f s := rfl

theorem bra_goes {s : State} {c : Iss} (h : issuer s = some c) {f : Fields} (hf : branchFields f = true)
    (hg : f.guardPathWide = true) : Goes (.bra f) s c (atClause c (wordTarget c.p f.imm27)) := by
  rw [Goes, exec_bra, execBra, onPath_issuer h, runPathWide, hg, hf, Bool.and_self, Bool.not_true, if_neg (by decide), branchIf_goes h]
  rfl

theorem bra_illegal {s : State} {c : Iss} (h : issuer s = some c) {f : Fields} (hg : f.guardPathWide = false) :
    exec (.bra f) s = .next (illegalOperand s c) := by
  rw [exec_bra, execBra, onPath_issuer h, runPathWide, hg, Bool.false_and, Bool.not_false, if_pos rfl]

/-- Settles O10: the guard's lanes decide, and a branch is the retirement at its target or the next clause. -/
theorem branches : Obligations.Branches :=
  ⟨fun _ _ _ h hf => ⟨bra_goes h hf, bra_illegal h⟩, fun _ _ _ h hg hf => condBranch_goes h hg hf fun t _ => t != 0,
    fun _ _ _ h hg hf => condBranch_goes h hg hf fun t l => t == l,
    fun _ _ _ h hg hf => condBranch_goes h hg hf fun t _ => t == 0⟩

end Sys2Proof.Claims
end

section
/-!
SUPPORT. Cross-lane instructions (13 R318 to R323; 07 R171): the source lane of an exchange, the running results of a scan,
the levels of a reduction, the classes of equal lanes and the lanes of a quad are those of the claim.
-/
namespace Sys2Proof.Claims
open Sys2Proof.Machine

/-! ## Instructions that read the lanes and write the group -/

/-- The shared body of the cross-lane instructions: a poisoned lane traps, and without one the group changes and the
instruction retires. -/
def overLanes (s : State) (c : Iss) (bad : Nat → Bool) (F : Group → Group) (act : Mask) : State :=
  match (lanesOf act).find? bad with
  | some l => trapPoison s c l
  | none => retire (modGroup s c.gid F) c

theorem overLanes_clean {s : State} {c : Iss} {bad : Nat → Bool} {act : Mask} (h : ∀ l ∈ lanesOf act, bad l = false)
    (F : Group → Group) : overLanes s c bad F act = retire (modGroup s c.gid F) c := by
  have hn : (lanesOf act).find? bad = none := List.find?_eq_none.2 fun l hl => by simp [h l hl]
  rw [overLanes, hn]

/-- A cross-lane instruction makes the register writes that its change of the group makes. -/
theorem writes_overLanes {i : Instr} {f : Fields} {legal : Iss → Bool} {bad bad' : State → Iss → Nat → Bool}
    {V : State → Iss → VecWrites} {S : State → Iss → ScaWrites} {P : State → Iss → PredWrites}
    {F : State → Iss → Mask → Group → Group}
    (hi : ∀ s, exec i s = onPath s fun c => runMasked s c f (legal c) fun act => overLanes s c (bad' s c) (F s c act) act)
    (hb : ∀ s c, legal c = true → ∀ l, bad s c l = bad' s c l)
    (hw : ∀ s c, legal c = true → active c f ≠ 0 → Wrote c.g (F s c (active c f) c.g) (V s c) (S s c) (P s c)) :
    Writes i f legal bad V S P :=
  writes_of hi (fun _ h => h) fun s c hc hl ha hclean => by
    rw [overLanes_clean fun l hm => (hb s c hl l).symm.trans (hclean l hm)]
    exact retire_wrote hc (hw s c hl ha)

theorem getLsbD_eq_bitOf {n : Nat} (x : BitVec n) (k : Nat) : x.getLsbD k = bitOf x.toNat k :=
  (bitOf_eq_testBit x.toNat k).symm

/-! ## LXCH (R319) -/

/-- MOD[5:3] is what stands above the low three bits of MOD. -/
theorem lxchWidth_eq (m : BitVec 6) : bitsOf m.toNat 3 3 = m.toNat / 8 := by
  have := m.isLt
  unfold bitsOf
  omega

/-- The lane that an exchange reads: the source lane of the mode, or the lane itself where that is out of range. -/
def exchangeLane (mode w l b : Nat) : Nat :=
  let base := l - l % w
  let r := l - base
  match mode with
  | 0 => base + b % w
  | 1 => if b ≤ r then l - b else l
  | 2 => if r + b < w then l + b else l
  | 3 => base + (r ^^^ (b % w))
  | _ => base + (r + b) % w

theorem lxchLane_getD (mode w l b : Nat) : (lxchLane mode w l b).getD l = exchangeLane mode w l b := by
  unfold lxchLane exchangeLane
  match mode with
  | 0 | 3 | n + 4 => rfl
  | 1 | 2 => simp only; split_ifs <;> rfl

/-! ## SCAN (R321) -/

theorem lanesOf_ascending (m : Mask) : (lanesOf m).Pairwise (· < ·) := List.pairwise_lt_range.filter _

theorem getLsbD_three (x : BitVec 4) : x.getLsbD 3 = decide (8 ≤ x.toNat) := by revert x; decide

/-- The lanes that the scan has taken in for the result of lane l. -/
def scanned (excl : Bool) (ls : List Nat) (l : Nat) : List Nat := ls.filter fun k => if excl then k < l else k ≤ l

theorem scanned_head (excl : Bool) {a : Nat} {r : List Nat} (h : ∀ k ∈ r, a < k) :
    scanned excl (a :: r) a = if excl then [] else [a] := by
  have hr : scanned excl r a = [] := List.filter_eq_nil_iff.2 fun k hk => by
    have := h k hk
    cases excl <;> simp <;> omega
  rw [scanned, List.filter_cons, ← scanned, hr]
  cases excl <;> simp

theorem scanned_tail (excl : Bool) {a l : Nat} (r : List Nat) (h : a < l) :
    scanned excl (a :: r) l = a :: scanned excl r l := by
  cases excl <;> simp [scanned, h, h.le]

/-- In ascending lanes, the result of each is the operation over the lanes the scan has taken in. -/
theorem scanLanes_eq (f : Fields) (excl : Bool) (v : Nat → Nat) {ls : List Nat} (hs : ls.Pairwise (· < ·)) (acc : Nat) :
    scanLanes f excl v ls acc = ls.map fun l => (l, (scanned excl ls l).foldl (fun a k => redStep f a (v k)) acc) := by
  induction ls generalizing acc with
  | nil => rfl
  | cons a r ih =>
    obtain ⟨ha, hr⟩ := List.pairwise_cons.1 hs
    rw [scanLanes, ih hr, List.map_cons, scanned_head excl ha]
    congr 1
    · cases excl <;> rfl
    · exact List.map_congr_left fun l hl => by rw [scanned_tail excl r (ha l hl), List.foldl_cons]

/-! ## REDUX (R171, R321) -/

theorem treeLevel_range (op : Nat → Nat → Nat) (u : Nat → Nat) (n : Nat) :
    treeLevel op ((List.range (2 * n)).map u) = (List.range n).map fun k => op (u (2 * k)) (u (2 * k + 1)) := by
  induction n generalizing u with
  | zero => rfl
  | succ n ih =>
    simp only [Nat.mul_succ, List.range_succ_eq_map, List.map_cons, List.map_map, treeLevel, ih]
    rfl

/-- tree64 combines the neighbours of a sequence, six levels deep. -/
theorem tree64_range (op : Nat → Nat → Nat) (v : Nat → Nat) : tree64 op ((List.range 64).map v) =
    (let level (u : Nat → Nat) (k : Nat) : Nat := op (u (2 * k)) (u (2 * k + 1))
     level (level (level (level (level (level v))))) 0) := by
  have h := treeLevel_range op
  rw [tree64, h _ 32, h _ 16, h _ 8, h _ 4, h _ 2, h _ 1]
  rfl

/-- What a lane brings to a reduction: its value, or the identity when it is inactive. -/
def reduxInput (s : State) (c : Iss) (f : Fields) (l : Nat) : Nat :=
  if (active c f).getLsbD l then srcVal s c (redOperand f) (opnd f.a) l else redIdentity f

/-- A register written in the lanes of a mask and, where the code names a scalar register, once. -/
theorem Wrote.everywhere (g : Group) (wide : Bool) (code : BitVec 9) (act : Mask) (x : Nat) :
    Wrote g ((lanesOf act).foldl (fun g l => Machine.writeLane g wide (opnd code) l x) (Machine.writeScal g wide (opnd code) x))
      (toVec code wide act fun _ => x) (toSca code wide x) noPred :=
  ((Wrote.writeScal g wide code x).trans (Wrote.mask _ wide code act fun _ => x)).congr
    (fun _ _ _ => by simp [noVec]) (fun _ => rfl) (fun _ _ _ _ => rfl)

/-! ## EQLN (R322) -/

theorem toNat_maskWhere (act : Mask) (t : Nat → Bool) :
    (maskWhere (lanesOf act) t).toNat = ofBits 64 fun k => act.getLsbD k && t k :=
  eq_ofBits (BitVec.isLt _) fun k hk => by rw [BitVec.testBit_toNat, getLsbD_maskWhere _ _ _ hk]

theorem lowLane_maskWhere (act : Mask) (t : Nat → Bool) :
    lowLane (maskWhere (lanesOf act) t) = ((List.range 64).find? fun k => act.getLsbD k && t k).getD 0 := by
  rw [lowLane, lanesOf, List.headD_eq_head?_getD, List.head?_filter]
  refine congrArg (Option.getD · 0) (List.find?_congr fun k hk => ?_)
  exact getLsbD_maskWhere act t k (List.mem_range.1 hk)

theorem maskWhere_eq_self_iff (act : Mask) (t : Nat → Bool) :
    maskWhere (lanesOf act) t = act ↔ ∀ l ∈ lanesOf act, t l = true := by
  refine ⟨fun h l hl => ?_, fun h => BitVec.eq_of_getLsbD_eq fun l hl => ?_⟩
  · obtain ⟨hlt, ha⟩ := mem_lanesOf.1 hl
    rw [← h, getLsbD_maskWhere _ _ _ hlt] at ha
    exact (Bool.and_eq_true_iff.1 ha).2
  · rw [getLsbD_maskWhere _ _ _ hl]
    cases ha : act.getLsbD l
    · rfl
    · rw [h l (mem_lanesOf.2 ⟨hl, ha⟩)]; rfl

theorem lowLane_mem {m : Mask} (h : m ≠ 0) : lowLane m ∈ lanesOf m := by
  obtain ⟨l, hl⟩ := exists_mem_lanesOf h
  rw [lowLane]
  generalize lanesOf m = ls at *
  cases ls with
  | nil => cases hl
  | cons a r => exact List.mem_cons_self ..

/-- Every active lane is in the class of the lowest exactly when all active values are equal. -/
theorem peers_of_lowest_iff {act : Mask} (h : act ≠ 0) (v : Nat → Nat) :
    (maskWhere (lanesOf act) fun k => v k == v (lowLane act)) = act ↔
      ((lanesOf act).all fun k => (lanesOf act).all fun l => v k == v l) = true := by
  simp only [maskWhere_eq_self_iff, List.all_eq_true, beq_iff_eq]
  exact ⟨fun h k hk l hl => (h k hk).trans (h l hl).symm, fun hv k hk => hv k hk _ (lowLane_mem h)⟩

/-- A predicate that takes one truth value in the lanes of a mask. -/
theorem Wrote.toPred_const (g : Group) (code : BitVec 9) (act : Mask) {p : Prop} [Decidable p] {b : Bool} (h : p ↔ b = true) :
    Wrote g (g.setPred code.toNat act (if p then act else 0)) noVec noSca (Claims.toPred code act fun _ => b) :=
  Wrote.toPred g code act _ _ fun l _ ha => by
    cases b <;> simp [h, ha]

theorem eqlnLegal_x {c : Iss} {f : Fields} (h : eqlnLegal c f = true) :
    f.x.toNat = 0 ∨ f.x.toNat = 1 ∨ f.x.toNat = 2 := by
  obtain ⟨-, hx⟩ := Bool.and_eq_true_iff.1 h
  revert hx
  split <;> simp_all

/-! ## DERIV (R323) -/

theorem or_in_quad (l : Nat) {m : Nat} (h : m < 4) : l ||| m = l - l % 4 + (l % 4 ||| m) := by
  have hd : (l ||| m) / 4 = l / 4 ||| m / 4 := Nat.or_div_two_pow (n := 2)
  have hm : (l ||| m) % 4 = l % 4 ||| m % 4 := Nat.or_mod_two_pow (n := 2)
  rw [Nat.div_eq_of_lt h, Nat.or_zero] at hd
  rw [Nat.mod_eq_of_lt h] at hm
  omega

theorem or_one_eq (l : Nat) : l ||| 1 = l - l % 4 + l % 4 / 2 * 2 + 1 := by
  have hr : l % 4 < 4 := Nat.mod_lt _ (by decide)
  rw [or_in_quad l (by decide)]
  generalize l % 4 = r at hr
  interval_cases r <;> rfl

theorem or_two_eq (l : Nat) : l ||| 2 = l - l % 4 + l % 2 + 2 := by
  have hr : l % 4 < 4 := Nat.mod_lt _ (by decide)
  rw [or_in_quad l (by decide), show l % 2 = l % 4 % 2 by omega]
  generalize l % 4 = r at hr
  interval_cases r <;> rfl

/-- The lanes of a quad whose difference a lane takes, by the form that X names. -/
def quadLanes (x l : Nat) : Nat × Nat :=
  match x with
  | 0 => (l ||| 1, l - l % 2)
  | 1 => (l ||| 2, (l ||| 2) - 2)
  | 2 => (l - l % 4 + 1, l - l % 4)
  | _ => (l - l % 4 + 2, l - l % 4)

theorem derivLanes_eq_quadLanes {x : Nat} (hx : x < 4) (l : Nat) :
    derivLanes (bitOf x 0) (bitOf x 1) l = quadLanes x l := by
  match x, hx with
  | 0, _ => exact Prod.ext (or_one_eq l).symm (show l - l % 4 + l % 4 / 2 * 2 = l - l % 2 by omega)
  | 1, _ => exact Prod.ext (or_two_eq l).symm (by rw [quadLanes, or_two_eq]; rfl)
  | 2, _ => rfl
  | 3, _ => rfl

theorem derivLegal_x_lt {c : Iss} {f : Fields} (h : derivLegal c f = true) : f.x.toNat < 4 := by
  simp only [derivLegal, Bool.and_eq_true, decide_eq_true_eq] at h
  obtain ⟨⟨⟨⟨-, hx⟩, -⟩, -⟩, -⟩ := h
  exact hx

/-- Settles O5: each instruction is one change of the group, over lanes that the claim names in the same way. -/
theorem crossLane : Obligations.CrossLane := by
  refine ⟨fun f => ?lxch, fun f => ?scan, fun f => ?redux, fun f => ?eqln, fun f => ?deriv⟩
  case lxch =>
    refine writes_overLanes (fun _ => rfl) (fun s c _ l => ?_) fun s c _ _ => ?_
    · simp only [getLsbD_eq_bitOf, lxchWidth_eq, lxchLane_getD]; rfl
    · simp only [getLsbD_eq_bitOf, lxchWidth_eq, lxchLane_getD]
      exact Wrote.mask _ _ _ _ _
  case scan =>
    refine writes_overLanes (fun _ => rfl) (fun _ _ _ _ => rfl) fun s c _ _ => ?_
    simp only [scanLanes_eq f _ _ (lanesOf_ascending _), List.foldl_map, ← getLsbD_three]
    exact Wrote.mask _ _ _ _ _
  case redux =>
    intro total
    refine writes_overLanes (fun _ => rfl) (fun _ _ _ _ => rfl) fun s c _ _ => ?_
    have ht : total s c = tree64 (redStep f) ((List.range 64).map (reduxInput s c f)) :=
      (tree64_range (redStep f) (reduxInput s c f)).symm
    rw [ht]
    exact Wrote.everywhere _ _ _ _ _
  case eqln =>
    refine writes_overLanes (fun _ => rfl) (fun _ _ _ _ => ?_) fun s c hl ha => ?_
    · simp only [getLsbD_eq_bitOf]
    · simp only [getLsbD_eq_bitOf f.mod 2]
      rcases eqlnLegal_x hl with hx | hx | hx <;> simp only [hx]
      · simp only [toNat_maskWhere]
        exact Wrote.mask _ _ _ _ _
      · simp only [lowLane_maskWhere]
        exact Wrote.mask _ _ _ _ _
      · exact Wrote.toPred_const _ _ _ (peers_of_lowest_iff ha _)
  case deriv =>
    refine writes_overLanes (fun _ => rfl) (fun s c hl l => ?_) fun s c hl ha => ?_
    · simp only [derivLanes_eq_quadLanes (derivLegal_x_lt hl)]; rfl
    · simp only [derivLanes_eq_quadLanes (derivLegal_x_lt hl)]
      exact Wrote.mask _ _ _ _ _

end Sys2Proof.Claims
end

section
/-!
SUPPORT. Decoding and encoding (11 R241, R251, R252, R260): the opcode map and its inverse, the long form and the escape.
-/
namespace Sys2Proof.Claims

/-- The opcode map read backwards: an opcode's instruction has that opcode, and these fields. -/
theorem opcodeOf_instrOf {op : Nat} {f : Fields} {i : Instr} (h : instrOf op f = some i) :
    opcodeOf i = some op ∧ i.fields = some f ∧ op < 256 := by
  unfold instrOf at h
  split at h <;> cases h <;> exact ⟨rfl, rfl, by decide⟩

/-- The opcode map read forwards: an instruction with fields has an opcode, whose instruction it is. -/
theorem instrOf_opcodeOf {i : Instr} {f : Fields} (h : i.fields = some f) :
    ∃ op, opcodeOf i = some op ∧ instrOf op f = some i := by
  cases i <;> cases h <;> exact ⟨_, rfl, rfl⟩

theorem fields_eq_some_of_wellFormed {i : Instr} (h : i.WellFormed) : ∃ f, i.fields = some f := by
  cases hf : i.fields with
  | some f => exact ⟨f, rfl⟩
  | none => simp [Instr.WellFormed, Instr.illFormed, hf] at h

theorem encodeLong_eq {i : Instr} {f : Fields} {op : Nat} (hop : opcodeOf i = some op) (hf : i.fields = some f) :
    encodeLong i = some (BitVec.ofNat 8 op ++ f.bits) := by
  simp [encodeLong, hop, hf]

theorem decodeLong_encodeLong {i : Instr} {lf : BitVec 64} (h : encodeLong i = some lf) : decodeLong lf = some i := by
  cases hf : i.fields with
  | none => simp [encodeLong, hf] at h
  | some f =>
    obtain ⟨op, hop, hi⟩ := instrOf_opcodeOf hf
    obtain ⟨-, -, hlt⟩ := opcodeOf_instrOf hi
    rw [encodeLong_eq hop hf] at h
    cases h
    rw [decodeLong, opOf_bits, fieldsOf_bits, BitVec.toNat_ofNat, Nat.mod_eq_of_lt hlt, hi]

theorem encodeLong_decodeLong {lf : BitVec 64} {i : Instr} (h : decodeLong lf = some i) : encodeLong i = some lf := by
  obtain ⟨hop, hf, -⟩ := opcodeOf_instrOf h
  rw [encodeLong_eq hop hf, opOf, BitVec.ofNat_toNat, BitVec.setWidth_eq, bits_fieldsOf]

/-- The words of a long form are read back as the long form. -/
theorem halves_append (w : BitVec 64) : w.extractLsb' 32 32 ++ w.extractLsb' 0 32 = w := by
  rw [BitVec.extractLsb'_append_extractLsb'_eq_extractLsb' (by decide)]
  exact BitVec.extractLsb'_eq_self

/-- An escape and a long form that decodes give its instruction, and leave what follows (R241). -/
theorem decode_escape {lf : BitVec 64} {i : Instr} (h : decodeLong lf = some i) (rest : List Word) :
    decode (escapeWord :: lf.extractLsb' 32 32 :: lf.extractLsb' 0 32 :: rest) = .ok (i, rest) := by
  simp only [decode, halves_append, h]
  rfl

/-- Settles O55: the opcode map and its inverse, and the fields of a long form and its bits, determine each other. -/
theorem decodeEncode : Obligations.DecodeEncode := by
  refine ⟨fun i hi => ?_, fun _ _ => encodeLong_decodeLong, fun i hi => ?_⟩
  · obtain ⟨f, hf⟩ := fields_eq_some_of_wellFormed hi
    obtain ⟨op, hop, -⟩ := instrOf_opcodeOf hf
    have henc := encodeLong_eq hop hf
    exact ⟨_, by rw [encode, henc]; rfl, rfl, decode_escape (decodeLong_encodeLong henc)⟩
  · have hf : i.fields = none := by simpa [Instr.isProgram] using hi
    simp [encode, encodeLong, hf]

end Sys2Proof.Claims
end

section
/-!
SUPPORT. The spec's worked encodings, the reset values and the memory at reset.
-/
namespace Sys2Proof.Claims
open Sys2Proof.Machine

/-- Settles O56: each word is decoded as R241 and R260 say. -/
theorem decodeSamples : Obligations.DecodeSamples := by
  refine ⟨?_, ?_, ?_, ?_, ?_, ?_, ?_, ?_, ?_, ?_⟩ <;> rfl

/-- Settles O60: memory is empty at reset, and an instruction is placed in a clause buffer, not in memory. -/
theorem resetMemory : Obligations.ResetMemory :=
  ⟨canonical_reset, fun _ _ => canonical_reset.same rfl rfl rfl⟩

/-- Every submission queue reads as one without a base, disabled and stopped. -/
theorem windowRead_reset_queue : ∀ q < 64, windowRead State.reset 0 (64 * q) = 0 ∧
    windowRead State.reset 0 (64 * q + 0x08) = 4 ∧ windowRead State.reset 0 (64 * q + 0x0C) = 0 ∧
    windowRead State.reset 0 (64 * q + 0x10) = 0 ∧ windowRead State.reset 0 (64 * q + 0x14) = 16 := by
  decide +kernel

theorem windowRead_reset_routes : ∀ n < 16, windowRead State.reset 0 (0x090000 + 8 * n) = 0 ∧
    windowRead State.reset 0 (0x090100 + 8 * n) = 0 := by
  decide +kernel

theorem windowRead_reset_watchpoints : ∀ n < 8, windowRead State.reset 0 (0x0A0100 + 8 * n) = 0 := by
  decide +kernel

theorem windowRead_reset_fences : ∀ n < 12, windowRead State.reset 0 (0x080020 + 8 * n) = 0 := by
  decide +kernel

theorem aperLog_bounds (a : Nat) : 20 ≤ aperLog a ∧ aperLog a ≤ 40 := by
  unfold aperLog; omega

theorem deviceRead_aperLog (s : State) (a : Nat) : deviceRead s a 0x40 = aperLog a := rfl

/-- Settles O58: every register is read at its offset; LOG2SIZE alone is the MC's. -/
theorem resetValues : Obligations.ResetValues := by
  refine ⟨windowRead_reset_queue, rfl, rfl, rfl, rfl, rfl, rfl, rfl, rfl, rfl, rfl, rfl, rfl, windowRead_reset_routes,
    windowRead_reset_watchpoints, windowRead_reset_fences, fun a _ => ?_, rfl, rfl, rfl, rfl, rfl⟩
  obtain ⟨hlo, hhi⟩ := aperLog_bounds a
  exact ⟨rfl, rfl, rfl, rfl, rfl, rfl, rfl, rfl, hlo, hhi, rfl⟩

end Sys2Proof.Claims
end

section
/-!
SUPPORT. Every operation of the machine keeps the canonical form of memory: one lemma per operation,
  in the order of the
definitions. Memory, its poison and its nibbles are written by the few operations of Laws/Memory alone; the others
  are made
of them.
-/
namespace Sys2Proof.Claims
open Sys2Proof.Machine

/-! ## Shapes of the operations -/

/-- An outcome whose next state, if it has one, is canonical. -/
def Kept {φ ρ : Type} (o : Host.Outcome State φ ρ) : Prop := ∀ t, o = .next t → Canonical t

section
variable {φ ρ : Type}

@[simp] theorem kept_next {t : State} : Kept (.next t : Host.Outcome State φ ρ) ↔ Canonical t := by simp [Kept]
@[simp] theorem kept_fault {r : φ} : Kept (.fault r : Host.Outcome State φ ρ) := by simp [Kept]
@[simp] theorem kept_refused {r : ρ} : Kept (.refused r : Host.Outcome State φ ρ) := by simp [Kept]

@[simp] theorem kept_ite {p : Prop} [Decidable p] {a b : Host.Outcome State φ ρ} (ha : p → Kept a) (hb : ¬p → Kept b) :
    Kept (if p then a else b) := by
  split
  · exact ha ‹_›
  · exact hb ‹_›

end

@[simp] theorem canonical_ite {p : Prop} [Decidable p] {a b : State} (ha : p → Canonical a) (hb : ¬p → Canonical b) :
    Canonical (if p then a else b) := by
  split
  · exact ha ‹_›
  · exact hb ‹_›

/-- Other parts of the state do not matter. -/
@[simp] theorem canonical_mk {s : State} (a0 a1 a2 a3 a4 a5 a6 a7 a8 a9 a10 a11 a12 a13 a14 a15 a16 a17 a18 a19 a20
      a21 a22 a23 a24 a25 a26 a27 a28 a29 a30 a31 a32 a33 a34 a35 a36 a37 a38 a39) :
        Canonical (State.mk s.mem s.poison s.nibbles a0 a1 a2 a3 a4 a5 a6 a7 a8 a9 a10 a11 a12 a13 a14 a15 a16 a17 a18
      a19 a20 a21 a22 a23 a24 a25 a26 a27 a28 a29 a30 a31 a32 a33 a34 a35 a36 a37 a38 a39) ↔ Canonical s := Iff.rfl

@[simp] theorem canonical_foldl {α : Type} {f : State → α → State} {l : List α} {s : State} (h : Canonical s)
    (hf : ∀ s a, Canonical s → Canonical (f s a)) : Canonical (l.foldl f s) := Canonical.foldl hf l h

/-- A fold that carries a value beside the state. -/
@[simp] theorem canonical_foldl_snd {α β : Type} {f : β × State → α → β × State} {l : List α} {s : β × State}
    (h : Canonical s.2) (hf : ∀ s a, Canonical s.2 → Canonical (f s a).2) : Canonical (l.foldl f s).2 := by
  induction l generalizing s with
  | nil => exact h
  | cons a r ih => exact ih (hf s a h)

/-- What every step of a fold keeps, the fold keeps. -/
theorem foldl_keeps {α β : Type} {P : β → Prop} {f : β → α → β} {l : List α} {b : β} (h : P b)
    (hf : ∀ b a, P b → P (f b a)) : P (l.foldl f b) := by
  induction l generalizing b with
  | nil => exact h
  | cons a r ih => exact ih (hf b a h)

theorem Kept.onPath {s : State} {f : Iss → State} (h : ∀ c, Canonical (f c)) : Kept (onPath s f) := by
  unfold Machine.onPath
  split
  · exact kept_refused
  · exact kept_next.2 (h _)

@[simp] theorem Canonical.noteWaits {s : State} (h : Canonical s) : Canonical (noteWaits s) := h

@[simp] theorem Canonical.runClocks {s : State} (h : Canonical s) : Canonical (runClocks s) := h

@[simp] theorem Canonical.setPart {s : State} (h : Canonical s) p v : Canonical (setPart s p v) := h

@[simp] theorem Canonical.rasLasting {s : State} (h : Canonical s) part : Canonical (rasLasting s part) := h

@[simp] theorem Canonical.l2Asked {s : State} (h : Canonical s) (cmp loc n : Nat) :
    Canonical (l2Asked s cmp loc n) := by
  have hc (ls : List Nat) : Canonical (ls.foldl (fun s l => Machine.countCorrupt s cmp l) s) :=
    Canonical.foldl (fun _ _ ht => ht.countCorrupt ..) _ h
  unfold Machine.l2Asked
  exact canonical_ite (fun _ => hc _) fun _ => (hc _).modPart _ _

@[simp] theorem Canonical.askSet {s : State} (h : Canonical s) (ls : List LaneLoc) : Canonical (askSet s ls) :=
  Canonical.foldl (fun _ _ ht => canonical_ite (fun _ => ht) fun _ => ht.l2Asked ..) _ h

@[simp] theorem Canonical.rangeAsked {s : State} (h : Canonical s) who part ctx acc sup va n :
    Canonical (rangeAsked s who part ctx acc sup va n) := by
  unfold Machine.rangeAsked
  split <;> simp [h]

@[simp] theorem Canonical.setCore {s : State} (h : Canonical s) c v : Canonical (setCore s c v) := h

@[simp] theorem Canonical.modCore {s : State} (h : Canonical s) c f : Canonical (modCore s c f) := h

@[simp] theorem Canonical.freeWeights {s : State} (h : Canonical s) core team :
    Canonical (freeWeights s core team) :=
  h

@[simp] theorem Canonical.setCluster {s : State} (h : Canonical s) k v : Canonical (setCluster s k v) := h

@[simp] theorem Canonical.modCluster {s : State} (h : Canonical s) k f : Canonical (modCluster s k f) := h

@[simp] theorem Canonical.emptyQueues {s : State} (h : Canonical s) part ctx cluster qs :
    Canonical (emptyQueues s part ctx cluster qs) := by
  simp [Machine.emptyQueues, h]

@[simp] theorem Canonical.dropTeam {s : State} (h : Canonical s) tid : Canonical (dropTeam s tid) := by
  unfold Machine.dropTeam
  (repeat' split) <;> simp [h]

@[simp] theorem Canonical.stopQueues {s : State} (h : Canonical s) part ctx : Canonical (stopQueues s part ctx) := h

@[simp] theorem Canonical.l2Set {s : State} (h : Canonical s) line ln : Canonical (l2Set s line ln) := h

@[simp] theorem Canonical.physWrite {s : State} (h : Canonical s) pa n v :
    Canonical (physWrite s pa n v) := by
  simp [Machine.physWrite, h, Canonical.l2Write]

@[simp] theorem Canonical.setCtxBits {s : State} (h : Canonical s) part ctx lo w v :
    Canonical (setCtxBits s part ctx lo w v) := by
  simp [Machine.setCtxBits, h]

@[simp] theorem Canonical.tellHost {s : State} (h : Canonical s) m : Canonical (tellHost s m) := h

@[simp] theorem Canonical.msix {s : State} (h : Canonical s) part i : Canonical (msix s part i) := h

@[simp] theorem Canonical.contextReset {s : State} (h : Canonical s) (part ctx reason rcause : Nat) :
    Canonical (contextReset s part ctx reason rcause) := by
  have hd : Canonical ((teamsOf s part ctx).foldl Machine.dropTeam s) := Canonical.foldl (fun _ _ ht => ht.dropTeam
    _) _ h
  simp only [Machine.contextReset]
  refine Canonical.msix ?_ _ _
  refine Canonical.setCtxBits (Canonical.setCtxBits (Canonical.setCtxBits ?_ _ _ _ _ _) _ _ _ _ _) _ _ _ _ _
  refine Canonical.modPart (Canonical.stopQueues ?_ _ _) _ _
  exact (canonical_mk ..).2 hd

@[simp] theorem Canonical.modGroup {s : State} (h : Canonical s) gid f : Canonical (modGroup s gid f) := h

@[simp] theorem Canonical.modPath {s : State} (h : Canonical s) gid live f : Canonical (modPath s gid live f) := h

@[simp] theorem Canonical.waitOn {s : State} (h : Canonical s) c w : Canonical (waitOn s c w) := h

@[simp] theorem Canonical.reportBatch {s : State} (h : Canonical s) part w gs c :
    Canonical (reportBatch s part w gs c).2 :=
  h

@[simp] theorem Canonical.setPath {s : State} (h : Canonical s) gid live p : Canonical (setPath s gid live p) := h

@[simp] theorem Canonical.trapEntry {s : State} (h : Canonical s) gid live cause :
    Canonical (trapEntry s gid live cause) := by
  grind [Machine.trapEntry, Canonical.rangeAsked, Canonical.contextReset, Canonical.waitOn, Canonical.reportBatch,
    Canonical.modPath, Canonical.setPath]

@[simp] theorem Canonical.retire {s : State} (h : Canonical s) c : Canonical (retire s c) := h

@[simp] theorem Canonical.takeTrapAt {s : State} (h : Canonical s) c cause lane addr rAddr rSlot :
    Canonical (takeTrapAt s c cause lane addr rAddr rSlot) := by
  unfold Machine.takeTrapAt
  (repeat' split) <;> simp [h]

@[simp] theorem Canonical.takeTrap {s : State} (h : Canonical s) c cause lane addr :
    Canonical (takeTrap s c cause lane addr) := by
  simp [Machine.takeTrap, h]

@[simp] theorem Canonical.modKnow {s : State} (h : Canonical s) ag f : Canonical (modKnow s ag f) := h

@[simp] theorem Canonical.learn {s : State} (h : Canonical s) ag ids :
    Canonical (learn s ag ids) := by
  simp [Machine.learn, h]

@[simp] theorem Canonical.acquire {s : State} (h : Canonical s) ag scope rels :
    Canonical (acquire s ag scope rels) := by
  simp [Machine.acquire, h]

@[simp] theorem Canonical.acquireAll {s : State} (h : Canonical s) ags scope rels :
    Canonical (acquireAll s ags scope rels) := by
  simp +contextual [Machine.acquireAll, h]

@[simp] theorem Canonical.waitEdges {s : State} (h : Canonical s) c fl :
    Canonical (waitEdges s c fl) := by
  simp +contextual [Machine.waitEdges, h]

@[simp] theorem Canonical.countReady {s : State} (h : Canonical s) : Canonical (countReady s) := h

@[simp] theorem Canonical.deferPreempts {s : State} (h : Canonical s) : Canonical (deferPreempts s) := h

@[simp] theorem Canonical.countSlice {s : State} (h : Canonical s) e : Canonical (countSlice s e) := h

@[simp] theorem Canonical.countSlices {s : State} (h : Canonical s) :
    Canonical (countSlices s) := by
  simp +contextual [Machine.countSlices, h]

@[simp] theorem Canonical.choose {s : State} (h : Canonical s) : Canonical (choose s).2 := h

@[simp] theorem Canonical.readUnder {α : Type} {f : State → α × State} (hf : ∀ s, Canonical s → Canonical (f s).2) {s : State}
    (h : Canonical s) (ag : Agent) (k : Know) : Canonical (readUnder s ag k f).2 := by
  simp only [Machine.readUnder]
  exact (canonical_mk ..).2 (hf _ ((canonical_mk ..).2 h))

@[simp] theorem Canonical.readUnderAll {α : Type} {f : State → α × State} (hf : ∀ s, Canonical s → Canonical (f s).2)
    (ks : List (Agent × Know)) {s : State} (h : Canonical s) : Canonical (readUnderAll ks f s).2 := by
  induction ks generalizing s with
  | nil => exact hf _ h
  | cons k r ih => exact h.readUnder (fun _ ht => ih ht) ..

@[simp] theorem Canonical.readUnits {one : State → Nat → Nat → Got × State}
    (hone : ∀ s a k, Canonical s → Canonical (one s a k).2) {s : State} (h : Canonical s) (us : List (Nat × Nat)) :
    Canonical (readUnits one s us).2 := by
  induction us generalizing s with
  | nil => exact h
  | cons u r ih => exact ih (hone _ _ _ h)

@[simp] theorem Canonical.noteRead {s : State} (h : Canonical s) ag ms :
    Canonical (noteRead s ag ms) := by
  simp [Machine.noteRead, h]

@[simp] theorem Canonical.ctlReadUnit {s : State} (h : Canonical s) ags cmp loc n :
    Canonical (ctlReadUnit s ags cmp loc n).2 := by
  simp +contextual [Machine.ctlReadUnit, h]

@[simp] theorem Canonical.pickSeen {s : State} (h : Canonical s) (must : Msg → Bool) (ms : List Msg) :
    Canonical (pickSeen must s ms).2 := by
  induction ms generalizing s with
  | nil => exact h
  | cons m r ih =>
    unfold Machine.pickSeen
    split
    · exact ih h
    · exact ih h.choose

@[simp] theorem Canonical.seenBy {s : State} (h : Canonical s) ags h pend mask :
    Canonical (seenBy s ags h pend mask).2 := by
  grind [Machine.seenBy, Canonical.pickSeen]

@[simp] theorem Canonical.readWord {s : State} (h : Canonical s) ags h pend now x1 n :
    Canonical (readWord s ags h pend now x1 n).2 := by
  unfold Machine.readWord
  (repeat' split) <;> simp +contextual [h]

@[simp] theorem Canonical.readUnit {s : State} (h : Canonical s) ags cmp loc n :
    Canonical (readUnit s ags cmp loc n).2 := by
  simp [Machine.readUnit, h]

@[simp] theorem Canonical.l1Take {s : State} (h : Canonical s) core sec :
    Canonical (l1Take s core sec) := by
  simp [Machine.l1Take, h]

@[simp] theorem Canonical.askCaches {s : State} (h : Canonical s) (ag : Agent) (cmp loc n : Nat) :
    Canonical (askCaches s ag cmp loc n) := by
  unfold Machine.askCaches
  split
  · exact h.l2Asked ..
  · exact Canonical.foldl (fun _ _ ht => (ht.l2Asked ..).l1Take ..) _ h

@[simp] theorem Canonical.readBytes {s : State} (h : Canonical s) (ags : List Agent) (cmp kind loc n : Nat) :
    Canonical (readBytes s ags cmp kind loc n).2 := by
  unfold Machine.readBytes
  split
  · exact Canonical.readUnits (fun _ _ _ ht => ht.ctlReadUnit ..) h _
  · have hr := Canonical.readUnits (one := fun s a k => Machine.readUnit s ags cmp a k) (fun _ _ _ ht => ht.readUnit
    ..) h
      (unitsOf loc n)
    cases ags with
    | nil => exact hr
    | cons a _ => exact hr.askCaches ..

@[simp] theorem Canonical.loadAgain {s : State} (h : Canonical s) (id : Nat) (l : LateLoad) :
    Canonical (loadAgain s id l) := by
  unfold Machine.loadAgain
  split
  · exact h
  · exact (Canonical.readUnderAll (fun _ ht => ht.readBytes ..) _ h).same rfl rfl rfl

@[simp] theorem Canonical.lateLoads {s : State} (h : Canonical s) : Canonical (lateLoads s) :=
  Canonical.foldl (fun _ _ ht => Canonical.foldl (fun _ _ ht => canonical_ite (fun _ => ht.choose.loadAgain ..) fun _
    => ht.choose) _ ht) _ h

@[simp] theorem Canonical.modTeam {s : State} (h : Canonical s) t f : Canonical (modTeam s t f) := h

@[simp] theorem Canonical.modBar {s : State} (h : Canonical s) tid n f : Canonical (modBar s tid n f) := h

@[simp] theorem Canonical.tryBarrierPhaseComplete team slot {s : State} (h : Canonical s) :
    Kept (tryBarrierPhaseComplete team slot s) := by
  unfold Machine.tryBarrierPhaseComplete
  split <;> simp [h]

@[simp] theorem Canonical.settlePhases {s : State} (h : Canonical s) : Canonical (settlePhases s) := by
  refine Canonical.foldl (fun _ _ ht => Canonical.foldl (fun _ _ ht => ?_) _ ht) _ h
  split
  · exact ht.tryBarrierPhaseComplete _ _ _ ‹_›
  · exact ht

@[simp] theorem Canonical.cacheWalk {s : State} (h : Canonical s) part ctx va :
    Canonical (cacheWalk s part ctx va) := by
  simp +contextual [Machine.cacheWalk, h, Canonical.modPart]

@[simp] theorem Canonical.fillCaches {s : State} (h : Canonical s) : Canonical (fillCaches s) := by
  unfold Machine.fillCaches
  refine canonical_ite (fun _ => h) fun _ => Canonical.foldl (fun _ _ ht => ?_) _ h
  exact canonical_ite (fun _ => ht) fun _ => ht.cacheWalk ..

@[simp] theorem Canonical.l2Fill {s : State} (h : Canonical s) cmp loc :
    Canonical (l2Fill s cmp loc) := by
  simp [Machine.l2Fill, h]

@[simp] theorem Canonical.takeFills {s : State} (h : Canonical s) part :
    Canonical (takeFills s part) := by
  simp +contextual [Machine.takeFills, h, Canonical.modPart]

@[simp] theorem Canonical.chooseBelow {s : State} (h : Canonical s) n : Canonical (chooseBelow s n).2 := by
  unfold Machine.chooseBelow
  split <;> simp [h]

@[simp] theorem Canonical.evictL2 part k {s : State} (h : Canonical s) : Canonical (evictL2 part k s) := by
  simp only [Machine.evictL2]
  split <;> simp [h, Canonical.l2WriteBack]

@[simp] theorem Canonical.repeat {f : State → State} (hf : ∀ s, Canonical s → Canonical (f s)) {s : State} (h : Canonical s) (n : Nat) :
    Canonical (Nat.repeat f n s) := by
  induction n with
  | zero => exact h
  | succ n ih => exact hf _ ih

@[simp] theorem Canonical.trimL2 {s : State} (h : Canonical s) (part : Nat) : Canonical (trimL2 s part) :=
  Canonical.foldl (fun _ _ ht => Canonical.repeat (fun _ hu => hu.evictL2 ..) ht _) _ h

@[simp] theorem Canonical.evictL1 core u {s : State} (h : Canonical s) : Canonical (evictL1 core u s) := by
  simp only [Machine.evictL1]
  split <;> simp [h, Canonical.coreDrop]

@[simp] theorem Canonical.trimL1 {s : State} (h : Canonical s) (core : Nat) : Canonical (trimL1 s core) :=
  Canonical.foldl (fun _ _ ht => Canonical.repeat (fun _ hu => hu.evictL1 ..) ht _) _ h

@[simp] theorem Canonical.settleCaches {s : State} (h : Canonical s) : Canonical (settleCaches s) :=
  Canonical.foldl (fun _ _ ht => canonical_ite (fun _ => ht) fun _ => ht.trimL1 _) _
    (Canonical.foldl (fun _ _ ht => canonical_ite (fun _ => ht) fun _ => ht.trimL2 _) _
      (Canonical.foldl (fun _ _ ht => canonical_ite (fun _ => ht) fun _ => ht.takeFills _) _ h))

@[simp] theorem Canonical.publishSome {s : State} (h : Canonical s) e : Canonical (publishSome s e) := by
  simp only [Machine.publishSome]
  (repeat' split) <;> simp +contextual [h, Canonical.publish]

@[simp] theorem Canonical.spillStores {s : State} (h : Canonical s) : Canonical (spillStores s) := by
  unfold Machine.spillStores
  (repeat' split) <;> simp +contextual [h]

@[simp] theorem Canonical.fenceRelease {s : State} (h : Canonical s) ag scope :
    Canonical (fenceRelease s ag scope) :=
  h

@[simp] theorem Canonical.fenceAcquire {s : State} (h : Canonical s) ag scope :
    Canonical (fenceAcquire s ag scope) := by
  simp [Machine.fenceAcquire, h]

@[simp] theorem Canonical.privStep {s : State} (h : Canonical s) ag scope :
    Canonical (privStep s ag scope) := by
  simp [Machine.privStep, h]

@[simp] theorem Canonical.scStep {s : State} (h : Canonical s) ag scope :
    Canonical (scStep s ag scope) := by
  simp [Machine.scStep, h]

@[simp] theorem Canonical.fenceOf {s : State} (h : Canonical s) ag kind scope :
    Canonical (fenceOf s ag kind scope) := by
  simp only [Machine.fenceOf]
  (repeat' split) <;> grind [Canonical.fenceRelease, Canonical.fenceAcquire, Canonical.privStep, Canonical.scStep]

@[simp] theorem Canonical.modSq {s : State} (h : Canonical s) part q f : Canonical (modSq s part q f) := h

@[simp] theorem Canonical.sqBase {s : State} (h : Canonical s) part q v : Canonical (sqBase s part q v) := h

@[simp] theorem Canonical.sqCtl {s : State} (h : Canonical s) part q v : Canonical (sqCtl s part q v) := h

@[simp] theorem Canonical.doorbell {s : State} (h : Canonical s) part q tail who :
    Canonical (doorbell s part q tail who) :=
  h

@[simp] theorem Canonical.sqStatus {s : State} (h : Canonical s) part q v : Canonical (sqStatus s part q v) := h

@[simp] theorem Canonical.queueRegister {s : State} (h : Canonical s) who part q r v :
    Canonical (queueRegister s who part q r v) := by
  unfold Machine.queueRegister
  split <;> simp [h]

@[simp] theorem Canonical.modQueue {s : State} (h : Canonical s) k q f : Canonical (modQueue s k q f) := h

@[simp] theorem Canonical.writeLimit {s : State} (h : Canonical s) k q v :
    Canonical (writeLimit s k q v) := by
  simp [Machine.writeLimit, h]

@[simp] theorem Canonical.poolRegister {s : State} (h : Canonical s) part o v :
    Canonical (poolRegister s part o v) := by
  simp only [Machine.poolRegister]
  (repeat' split) <;> simp [h]

@[simp] theorem Canonical.invDrop {s : State} (h : Canonical s) part : Canonical (invDrop s part) := h

@[simp] theorem Canonical.invIssue {s : State} (h : Canonical s) part cmd op : Canonical (invIssue s part cmd op) := h

@[simp] theorem Canonical.invCommand {s : State} (h : Canonical s) part v :
    Canonical (invCommand s part v) := by
  simp [Machine.invCommand, h]

@[simp] theorem Canonical.faultqConfig {s : State} (h : Canonical s) part size value :
    Canonical (faultqConfig s part size value) := by
  simp [Machine.faultqConfig, h]

@[simp] theorem Canonical.faultTail {s : State} (h : Canonical s) part v : Canonical (faultTail s part v) := h

@[simp] theorem Canonical.releasePath {s : State} (h : Canonical s) gid live fail mark :
    Canonical (releasePath s gid live fail mark) :=
  h

@[simp] theorem Canonical.releaseDict {s : State} (h : Canonical s) part seq fail :
    Canonical (releaseDict s part seq fail) :=
  h

@[simp] theorem Canonical.modJob {s : State} (h : Canonical s) j f : Canonical (modJob s j f) := h

@[simp] theorem Canonical.modNode {s : State} (h : Canonical s) n f : Canonical (modNode s n f) := h

@[simp] theorem Canonical.modAdapter {s : State} (h : Canonical s) a f : Canonical (modAdapter s a f) := h

@[simp] theorem Canonical.apFailed {s : State} (h : Canonical s) adapter w :
    Canonical (apFailed s adapter w) := by
  simp [Machine.apFailed, h]

@[simp] theorem Canonical.releaseAperture {s : State} (h : Canonical s) adapter seq fail :
    Canonical (releaseAperture s adapter seq fail) := by
  simp only [Machine.releaseAperture]
  (repeat' split) <;> simp [h]

@[simp] theorem Canonical.releaseClient {s : State} (h : Canonical s) part b fail :
    Canonical (releaseClient s part b fail) := by
  unfold Machine.releaseClient
  (repeat' split) <;> simp [h, Canonical.modPart]

@[simp] theorem Canonical.releaseBatch {s : State} (h : Canonical s) part seq fail :
    Canonical (releaseBatch s part seq fail) := by
  unfold Machine.releaseBatch
  split <;> simp [h, Canonical.modPart]

@[simp] theorem Canonical.frameArea {s : State} (h : Canonical s) part size v :
    Canonical (frameArea s part size v) := by
  simp [Machine.frameArea, h, Canonical.modPart]

@[simp] theorem Canonical.haltGroup {s : State} (h : Canonical s) part gid : Canonical (haltGroup s part gid) := h

@[simp] theorem Canonical.dbgHalt {s : State} (h : Canonical s) part : Canonical (dbgHalt s part) := by
  unfold Machine.dbgHalt
  (repeat' split) <;> simp [h]

@[simp] theorem Canonical.dbgResume {s : State} (h : Canonical s) part : Canonical (dbgResume s part) := by
  unfold Machine.dbgResume
  split <;> simp [h]

@[simp] theorem Canonical.dbgSingle {s : State} (h : Canonical s) part : Canonical (dbgSingle s part) := by
  unfold Machine.dbgSingle
  split <;> simp [h]

@[simp] theorem Canonical.dbgCommand {s : State} (h : Canonical s) part v : Canonical (dbgCommand s part v) := by
  unfold Machine.dbgCommand
  split <;> simp [h]

@[simp] theorem Canonical.blockRegister {s : State} (h : Canonical s) part o v :
    Canonical (blockRegister s part o v) := by
  unfold Machine.blockRegister
  split <;> simp [h, Canonical.modPart]

@[simp] theorem Canonical.windowWrite {s : State} (h : Canonical s) who part o v :
    Canonical (windowWrite s who part o v) := by
  unfold Machine.windowWrite
  (repeat' split) <;> simp [h, Canonical.modPart]

@[simp] theorem Canonical.ctlPublish {s : State} (h : Canonical s) w m :
    Canonical (ctlPublish s w m) := by
  simp [Machine.ctlPublish, h, Canonical.ctlWrite]

@[simp] theorem Canonical.storeSet {s : State} (h : Canonical s) (ag : Agent) (bad : Bool) (rels : List RelInfo)
    (ls : List LaneLoc) (bs : List Byte) : Canonical (storeSet s ag bad rels ls bs) := by
  induction ls generalizing s bs with
  | nil => exact h
  | cons l r ih => exact ih (h.storeBytes ..) _

@[simp] theorem Canonical.rmwMsg {s : State} (h : Canonical s) ag prior cmp va v x1 n f rels :
    Canonical (rmwMsg s ag prior cmp va v x1 n f rels).2.1 := by
  simp [Machine.rmwMsg, h, Canonical.noteStore]

@[simp] theorem Canonical.rmwUnit {s : State} (h : Canonical s) ag cmp kind va loc n f rels :
    Canonical (rmwUnit s ag cmp kind va loc n f rels).2 := by
  grind [Machine.rmwUnit, Canonical.rmwMsg, Canonical.ctlPublish, Canonical.choose, Canonical.publish,
    Canonical.l2WriteBack, Canonical.publish, Canonical.l2WriteBack]

@[simp] theorem Canonical.mcAcquire {s : State} (h : Canonical s) scope rels : Canonical (mcAcquire s scope rels) := by
  unfold Machine.mcAcquire
  split <;> simp [h]

@[simp] theorem Canonical.readSet {s : State} (h : Canonical s) (ags : List Agent) (ls : List LaneLoc) :
    Canonical (readSet s ags ls).2 := by
  induction ls generalizing s with
  | nil => exact h
  | cons l r ih => exact ih (h.readBytes ..)

@[simp] theorem Canonical.mcAccess {s : State} (h : Canonical s) o ls : Canonical (mcAccess s o ls) := by
  simp only [Machine.mcAccess]
  (repeat' split) <;> grind [Canonical.tellHost, Canonical.storeSet, Canonical.rmwUnit, Canonical.mcAcquire,
    Canonical.readSet]

@[simp] theorem Canonical.mcPerform {s : State} (h : Canonical s) o : Canonical (mcPerform s o) := by
  simp only [Machine.mcPerform]
  (repeat' split) <;> simp [h]

@[simp] theorem Canonical.mcStep {s : State} (h : Canonical s) : Canonical (mcStep s) := by
  simp only [Machine.mcStep]
  (repeat' split) <;> simp [h]

@[simp] theorem Canonical.modPort {s : State} (h : Canonical s) p f : Canonical (modPort s p f) := h

@[simp] theorem Canonical.portSend {s : State} (h : Canonical s) p : Canonical (portSend s p) := by
  simp only [Machine.portSend]
  (repeat' split) <;> simp +contextual [h]

@[simp] theorem Canonical.sendFlits {s : State} (h : Canonical s) : Canonical (sendFlits s) :=
  Canonical.foldl (fun _ _ ht => canonical_ite (fun _ => ht) fun _ => ht.portSend _) _ h

@[simp] theorem Canonical.apError {s : State} (h : Canonical s) a w :
    Canonical (apError s a w) := by
  simp [Machine.apError, h]

@[simp] theorem Canonical.apPerform {s : State} (h : Canonical s) (a : Nat) (w : ApWait) (ls : List LaneLoc) :
    Canonical (apPerform s a w ls) := by
  have h1 : Canonical (if w.strong then Machine.acquire s (.link a) 6 (s.privOrder.filter fun r => r.scope == 6) else
    s) :=
    canonical_ite (fun _ => h.acquire ..) fun _ => h
  simp only [Machine.apPerform]
  generalize (if w.strong then Machine.acquire s (.link a) 6 (s.privOrder.filter fun r => r.scope == 6) else s) = t
    at h1
  have h2 : Canonical (if w.write then Machine.storeSet t (.link a) false [releaseOf t (.link a) 6] ls (leBytes
    w.size w.data)
      else Machine.tellHost (Machine.acquire (Machine.readSet t [.link a] ls).2 (.link a) 6 (Machine.readSet t [.link
        a] ls).1.rels)
        (.readData a (leNat (Machine.readSet t [.link a] ls).1.bytes) (Machine.readSet t [.link a] ls).1.bad)) :=
    canonical_ite (fun _ => h1.storeSet ..) fun _ => ((h1.readSet ..).acquire ..).tellHost _
  exact canonical_ite (fun _ => h2.same rfl rfl rfl) fun _ => h2

@[simp] theorem Canonical.apMake {s : State} (h : Canonical s) (a : Nat) (w : ApWait) : ∀ t, apMake s a w = some t → Canonical t := by
  intro t ht
  simp only [Machine.apMake] at ht
  split at ht
  · cases ht; exact h.apError ..
  · split at ht
    · cases ht; exact h.apError ..
    · split at ht
      · cases ht
      · cases ht; exact (h.reportBatch ..).modAdapter ..
    · cases ht; exact h.apPerform ..

@[simp] theorem Canonical.apArrive {s : State} (h : Canonical s) a w :
    Canonical (apArrive s a w) := by
  grind [Machine.apArrive, Canonical.modAdapter, Canonical.apMake]

@[simp] theorem Canonical.apPumpList (a : Nat) (ws : List ApWait) {s : State} (h : Canonical s) :
    Canonical (apPumpList a ws s) := by
  induction ws generalizing s with
  | nil => exact h
  | cons w r ih => exact ih (h.apArrive ..)

@[simp] theorem Canonical.apPump {s : State} (h : Canonical s) : Canonical (apPump s) :=
  Canonical.foldl (fun _ _ ht => canonical_ite (fun _ => ht) fun _ => Canonical.apPumpList _ _ (ht.modAdapter _ _)) _ h

@[simp] theorem Canonical.tick {s : State} (h : Canonical s) : Canonical (tick s) := by
  have h1 := h.settlePhases.lateLoads.countSlices.deferPreempts.countReady.noteWaits
  exact h1.apPump.sendFlits.mcStep.spillStores.settleCaches.fillCaches.runClocks

@[simp] theorem Kept.ticked {o : Out} (h : Kept o) : Kept (ticked o) := by
  cases o with
  | next s => exact kept_next.2 (kept_next.1 h).tick
  | fault _ => exact kept_fault
  | refused _ => exact kept_refused

@[simp] theorem Canonical.trapClauseAddr {s : State} (h : Canonical s) c cause :
    Canonical (trapClauseAddr s c cause) := by
  simp [Machine.trapClauseAddr, h]

@[simp] theorem Canonical.illegalOperand {s : State} (h : Canonical s) c :
    Canonical (illegalOperand s c) := by
  simp [Machine.illegalOperand, h]

@[simp] theorem Canonical.runMasked {s : State}
    (h : Canonical s) c f legal {body : Mask → State} (hbody : ∀ a0, Canonical (body a0)) :
    Canonical (runMasked s c f legal body) := by
  unfold Machine.runMasked
  split <;> simp [h, hbody]

@[simp] theorem Canonical.execNop f {s : State} (h : Canonical s) : Kept (execNop f s) := by
  refine .onPath fun c => ?_
  simp [h]

@[simp] theorem Canonical.execExit f {s : State} (h : Canonical s) : Kept (execExit f s) := by
  refine .onPath fun c => ?_
  grind [Canonical.runMasked, Canonical.modGroup, Canonical.retire]

@[simp] theorem Canonical.runPathWide {s : State} (h : Canonical s) c f legal {body : State} (hbody : Canonical body) :
    Canonical (runPathWide s c f legal body) := by
  simp [Machine.runPathWide, h, hbody]

@[simp] theorem Canonical.branchTo {s : State} (h : Canonical s) c target : Canonical (branchTo s c target) := h

@[simp] theorem Canonical.branchIf {s : State} (h : Canonical s) c f taken : Canonical (branchIf s c f taken) := h

@[simp] theorem Canonical.execBra f {s : State} (h : Canonical s) : Kept (execBra f s) := by
  refine .onPath fun c => ?_
  simp [h]

@[simp] theorem Canonical.condBranch f {s : State} (h : Canonical s) taken : Kept (condBranch f s taken) := by
  refine .onPath fun c => ?_
  simp [h]

@[simp] theorem Canonical.execBany f {s : State} (h : Canonical s) :
    Kept (execBany f s) := by
  simp [Machine.execBany, h]

@[simp] theorem Canonical.execBall f {s : State} (h : Canonical s) :
    Kept (execBall f s) := by
  simp [Machine.execBall, h]

@[simp] theorem Canonical.execBnone f {s : State} (h : Canonical s) :
    Kept (execBnone f s) := by
  simp [Machine.execBnone, h]

@[simp] theorem Canonical.countEnd {s : State} (h : Canonical s) c : Canonical (countEnd s c) := h

@[simp] theorem Canonical.execBdiv f {s : State} (h : Canonical s) : Kept (execBdiv f s) := by
  refine .onPath fun c => ?_
  (repeat' split) <;> simp +contextual [h]

@[simp] theorem Canonical.execJoin f {s : State} (h : Canonical s) : Kept (execJoin f s) := by
  refine .onPath fun c => ?_
  (repeat' split) <;> simp +contextual [h]

@[simp] theorem Canonical.trapPoison {s : State} (h : Canonical s) c lane :
    Canonical (trapPoison s c lane) := by
  simp [Machine.trapPoison, h]

@[simp] theorem Canonical.indirect {s : State} (h : Canonical s) (c : Iss) (f : Fields) {body : (Nat → Nat) → List Nat → State}
    (hb : ∀ t ts, Canonical (body t ts)) : Canonical (indirect s c f body) := by
  refine Canonical.runPathWide h _ _ _ ?_
  simp only []
  repeat' split
  · exact h.trapPoison ..
  · exact h.takeTrap ..
  · exact hb _ _

@[simp] theorem Canonical.execJmpi f {s : State} (h : Canonical s) : Kept (execJmpi f s) := by
  refine .onPath fun c => ?_
  grind [Canonical.indirect, Canonical.branchTo, Canonical.takeTrap, Canonical.modGroup, Canonical.countEnd]

@[simp] theorem Canonical.callTo {s : State} (h : Canonical s) c target : Canonical (callTo s c target) := h

@[simp] theorem Canonical.execCall f {s : State} (h : Canonical s) : Kept (execCall f s) := by
  refine .onPath fun c => ?_
  (repeat' split) <;> simp +contextual [h]

@[simp] theorem Canonical.execCalli f {s : State} (h : Canonical s) : Kept (execCalli f s) := by
  refine .onPath fun c => ?_
  grind [Canonical.indirect, Canonical.takeTrap, Canonical.callTo, Canonical.modGroup, Canonical.countEnd]

@[simp] theorem Canonical.withRecord {s : State} (h : Canonical s) (c : Iss) (f : Fields) (atomic : Bool) (forbidden : BufRec → Bool)
    {body : BufRec → State} (hb : ∀ r, Canonical (body r)) : Canonical (withRecord s c f atomic forbidden body) := by
  unfold Machine.withRecord
  split
  · exact h.illegalOperand _
  · exact canonical_ite (fun _ => h.takeTrap ..) fun _ => canonical_ite (fun _ => h.illegalOperand _) fun _ => hb _

@[simp] theorem Canonical.coreFaultBy {s : State} (h : Canonical s) c w gs k :
    Canonical (coreFaultBy s c w gs k) := by
  grind [Machine.coreFaultBy, Canonical.reportBatch, Canonical.modGroup, Canonical.modPath]

@[simp] theorem Canonical.coreFault {s : State} (h : Canonical s) c w gs :
    Canonical (coreFault s c w gs) := by
  simp [Machine.coreFault, h]

/-- Accesses that stop an instruction leave a canonical state. -/
def Prep.Kept : Prep → Prop
  | .stop t => Canonical t
  | .go _ => True

@[simp] theorem Canonical.prepXlate {s : State} (h : Canonical s) (c : Iss) (acc : Acc) (wp : Option WpKind) (as : List LaneAcc) :
    Prep.Kept (prepXlate s c acc wp as) := by
  unfold Machine.prepXlate
  repeat' split
  · exact h.takeTrap ..
  · exact h.coreFault ..
  · trivial
  · exact h.takeTrap ..
  · trivial

@[simp] theorem Canonical.prepAccess {s : State} (h : Canonical s) (c : Iss) (acc : Acc) (wp : Option WpKind) (sz : Nat)
    (ps : List (Nat × Placed)) : Prep.Kept (prepAccess s c acc wp sz ps) := by
  simp only [Machine.prepAccess]
  repeat' split
  · exact h.takeTrap ..
  · exact h.takeTrap ..
  · exact h.prepXlate ..

@[simp] theorem Canonical.calldThrough {s : State} (h : Canonical s) c scope lane e rels :
    Canonical (calldThrough s c scope lane e rels) := by
  grind [Machine.calldThrough, Canonical.trapClauseAddr, Canonical.takeTrap, Canonical.callTo, Canonical.acquireAll,
    Canonical.modPath]

@[simp] theorem Canonical.execCalld {s : State} (h : Canonical s) (f : Fields) : Kept (execCalld f s) := by
  refine .onPath fun c => Canonical.runPathWide h _ _ _ ?_
  refine canonical_ite (fun _ => h.trapPoison ..) fun _ => h.withRecord _ _ _ _ fun r => ?_
  split
  · rename_i t ht; exact (ht ▸ h.prepAccess .. : Prep.Kept (.stop t))
  · exact h.calldThrough ..
  · exact canonical_ite (fun _ => h) fun _ =>
      canonical_ite (fun _ => (h.readBytes ..).trapPoison ..) fun _ => (h.readBytes ..).calldThrough ..

@[simp] theorem Canonical.execRet f {s : State} (h : Canonical s) : Kept (execRet f s) := by
  refine .onPath fun c => ?_
  grind [Canonical.runPathWide, Canonical.takeTrap, Canonical.modGroup, Canonical.countEnd]

@[simp] theorem Canonical.execYield f {s : State} (h : Canonical s) : Kept (execYield f s) := by
  refine .onPath fun c => ?_
  grind [Canonical.runPathWide, Canonical.modPath, Canonical.retire]

@[simp] theorem Canonical.frameWrite.elem addr {s : State} (h : Canonical s) reg lane value bad :
    Canonical (frameWrite.elem addr s reg lane value bad) := by
  simp [Machine.frameWrite.elem, h]

@[simp] theorem Canonical.frameWrite {s : State} (h : Canonical s) addr held a :
    Canonical (frameWrite s addr held a) := by
  unfold Machine.frameWrite
  split <;> simp [h]

@[simp] theorem Canonical.writeRegs {s : State} (h : Canonical s) (gid : Nat) (ws : List RegWrite) :
    Canonical (writeRegs s gid ws) := by
  unfold Machine.writeRegs
  split
  · exact h
  · split
    · exact (Canonical.foldl (fun _ _ ht => ht.frameWrite ..) _ h).modGroup _ _
    · exact h.modGroup _ _

def PayRead.Kept : PayRead → Prop
  | .done _ s => Canonical s
  | .fault _ => True

@[simp] theorem Canonical.payloadRead {s : State} (h : Canonical s) (gid core part ctx workq lane idx : Nat) (failed : Bool) :
    PayRead.Kept (payloadRead s gid core part ctx workq lane idx failed) := by
  simp only [Machine.payloadRead]
  repeat' split
  · exact h
  · exact h
  · trivial
  · exact h
  · exact (h.readBytes ..).readBytes ..
  · exact h

@[simp] theorem Canonical.payloadStep {s : State} (h : Canonical s) (gid live key : Nat) :
    Canonical (payloadStep s gid live key) := by
  unfold Machine.payloadStep
  split
  · exact h
  · split
    · exact h
    · simp only []
      generalize hr : List.foldl _ (s, _) _ = r
      have hc : Canonical r.1 := by
        rw [← hr]
        refine foldl_keeps (P := fun a : State × SMap Nat × List Granule => Canonical a.1) h fun a e ha => ?_
        split
        · rename_i hp; exact ((hp ▸ ha.payloadRead .. : PayRead.Kept (.done _ _)) : Canonical _).writeRegs ..
        · exact ha
      exact canonical_ite (fun _ => hc.modGroup _ _) fun _ => (hc.reportBatch ..).modGroup _ _

@[simp] theorem Canonical.finishRefill {s : State} (h : Canonical s) c f count :
    Canonical (finishRefill s c f count) :=
  h

@[simp] theorem Canonical.continueRefill {s : State} (h : Canonical s) c f count :
    Canonical (continueRefill s c f count) := by
  simp only [Machine.continueRefill]
  (repeat' split) <;> simp [h]

@[simp] theorem Canonical.forget {s : State} (h : Canonical s) ag : Canonical (forget s ag) := h

@[simp] theorem Canonical.newThreads {s : State} (h : Canonical s) gid lanes :
    Canonical (newThreads s gid lanes) := by
  simp +contextual [Machine.newThreads, h]

@[simp] theorem Canonical.dropLaneWrites {s : State} (h : Canonical s) gid m : Canonical (dropLaneWrites s gid m) := h

@[simp] theorem Canonical.execRefill f {s : State} (h : Canonical s) : Kept (execRefill f s) := by
  refine .onPath fun c => ?_
  grind [Canonical.runPathWide, Canonical.illegalOperand, Canonical.continueRefill, Canonical.finishRefill,
    Canonical.modNode, Canonical.modGroup, Canonical.newThreads, Canonical.dropLaneWrites]

@[simp] theorem Canonical.execPcoll f {s : State} (h : Canonical s) : Kept (execPcoll f s) := by
  refine .onPath fun c => ?_
  grind [Canonical.runMasked, Canonical.retire, Canonical.modGroup]

@[simp] theorem Canonical.execSetfmt f {s : State} (h : Canonical s) : Kept (execSetfmt f s) := by
  refine .onPath fun c => ?_
  grind [Canonical.runPathWide, Canonical.trapPoison, Canonical.illegalOperand, Canonical.modPath, Canonical.retire]

@[simp] theorem Canonical.execGetfmt f {s : State} (h : Canonical s) : Kept (execGetfmt f s) := by
  refine .onPath fun c => ?_
  grind [Canonical.runMasked, Canonical.retire, Canonical.modGroup]

@[simp] theorem Canonical.execDict f {s : State} (h : Canonical s) : Kept (execDict f s) := by
  refine .onPath fun c => ?_
  grind [Canonical.runPathWide, Canonical.trapPoison, Canonical.illegalOperand, Canonical.retire, Canonical.modPath]

@[simp] theorem Canonical.fenceCode {s : State} (h : Canonical s) core gid ags :
    Canonical (fenceCode s core gid ags) :=
  h

@[simp] theorem Canonical.execFfence f {s : State} (h : Canonical s) : Kept (execFfence f s) := by
  refine .onPath fun c => ?_
  grind [Canonical.runPathWide, Canonical.retire, Canonical.fenceCode]

@[simp] theorem Canonical.runCounted {s : State}
    (h : Canonical s) c f setB legal {body : Mask → State} (hbody : ∀ a0,
      Canonical (body a0)) :
    Canonical (runCounted s c f setB legal body) := by
  unfold Machine.runCounted
  (repeat' split) <;> simp [h, hbody]

@[simp] theorem Canonical.rangeRecord {s : State}
    (h : Canonical s) c f {body : Sys2Proof.Machine.BufRec → Sys2Proof.Machine.State} (hbody : ∀ a0,
      Canonical (body a0)) :
    Canonical (rangeRecord s c f body) := by
  grind [Machine.rangeRecord, Canonical.trapPoison, Canonical.withRecord, Canonical.takeTrap]

@[simp] theorem Canonical.startOp {s : State} (h : Canonical s) o : Canonical (startOp s o) := h

@[simp] theorem Canonical.retireOp {s : State} (h : Canonical s) c setB ws : Canonical (retireOp s c setB ws) := h

@[simp] theorem Canonical.icinvRange {s : State} (h : Canonical s) (c : Iss) (ags : List Agent) (scope base n : Nat) :
    Canonical (icinvRange s c ags scope base n) :=
  canonical_ite (fun _ => h) fun _ =>
    Canonical.foldl (fun _ _ ht => ht.modCore _ _) _ (Canonical.foldl (fun _ _ ht => ht.modKnow _ _) _ (h.same rfl
      rfl rfl))

@[simp] theorem Canonical.execIcinv f {s : State} (h : Canonical s) : Kept (execIcinv f s) := by
  refine .onPath fun c => ?_
  grind [Canonical.runCounted, Canonical.rangeRecord, Canonical.retireOp, Canonical.icinvRange]

@[simp] theorem Canonical.takeTrapAfter {s : State} (h : Canonical s) c cause addr :
    Canonical (takeTrapAfter s c cause addr) := by
  simp [Machine.takeTrapAfter, h]

@[simp] theorem Canonical.softTrap {s : State} (h : Canonical s) c f cause :
    Canonical (softTrap s c f cause) := by
  simp [Machine.softTrap, h]

@[simp] theorem Canonical.execTrap f {s : State} (h : Canonical s) : Kept (execTrap f s) := by
  refine .onPath fun c => ?_
  simp [h]

@[simp] theorem Canonical.execRtt f {s : State} (h : Canonical s) : Kept (execRtt f s) := by
  refine .onPath fun c => ?_
  (repeat' split) <;> simp +contextual [h]

@[simp] theorem Canonical.execBkpt f {s : State} (h : Canonical s) : Kept (execBkpt f s) := by
  refine .onPath fun c => ?_
  grind [Canonical.runMasked, Canonical.modGroup, Canonical.retire, Canonical.msix, Canonical.softTrap]

@[simp] theorem Canonical.runValue {s : State} (h : Canonical s) c f vectorOnly v :
    Canonical (runValue s c f vectorOnly v) := by
  simp only [Machine.runValue]
  (repeat' split) <;> simp [h]

@[simp] theorem Canonical.execIadd f {s : State} (h : Canonical s) : Kept (execIadd f s) := by
  refine .onPath fun c => ?_
  simp [h]

@[simp] theorem Canonical.execIsub f {s : State} (h : Canonical s) : Kept (execIsub f s) := by
  refine .onPath fun c => ?_
  simp [h]

@[simp] theorem Canonical.execImul f {s : State} (h : Canonical s) : Kept (execImul f s) := by
  refine .onPath fun c => ?_
  simp [h]

@[simp] theorem Canonical.execImulh f {s : State} (h : Canonical s) : Kept (execImulh f s) := by
  refine .onPath fun c => ?_
  simp [h]

@[simp] theorem Canonical.execImad f {s : State} (h : Canonical s) : Kept (execImad f s) := by
  refine .onPath fun c => ?_
  simp [h]

@[simp] theorem Canonical.execIdiv f {s : State} (h : Canonical s) : Kept (execIdiv f s) := by
  refine .onPath fun c => ?_
  simp [h]

@[simp] theorem Canonical.execImin f {s : State} (h : Canonical s) : Kept (execImin f s) := by
  refine .onPath fun c => ?_
  simp [h]

@[simp] theorem Canonical.execImax f {s : State} (h : Canonical s) : Kept (execImax f s) := by
  refine .onPath fun c => ?_
  simp [h]

@[simp] theorem Canonical.execLogt f {s : State} (h : Canonical s) : Kept (execLogt f s) := by
  refine .onPath fun c => ?_
  simp [h]

@[simp] theorem Canonical.execShl f {s : State} (h : Canonical s) : Kept (execShl f s) := by
  refine .onPath fun c => ?_
  simp [h]

@[simp] theorem Canonical.execShr f {s : State} (h : Canonical s) : Kept (execShr f s) := by
  refine .onPath fun c => ?_
  simp [h]

@[simp] theorem Canonical.execFshf f {s : State} (h : Canonical s) : Kept (execFshf f s) := by
  refine .onPath fun c => ?_
  simp [h]

@[simp] theorem Canonical.execBfx f {s : State} (h : Canonical s) : Kept (execBfx f s) := by
  refine .onPath fun c => ?_
  simp [h]

@[simp] theorem Canonical.execBfi f {s : State} (h : Canonical s) : Kept (execBfi f s) := by
  refine .onPath fun c => ?_
  simp [h]

@[simp] theorem Canonical.execPopc f {s : State} (h : Canonical s) : Kept (execPopc f s) := by
  refine .onPath fun c => ?_
  simp [h]

@[simp] theorem Canonical.execClz f {s : State} (h : Canonical s) : Kept (execClz f s) := by
  refine .onPath fun c => ?_
  simp [h]

@[simp] theorem Canonical.execBrev f {s : State} (h : Canonical s) : Kept (execBrev f s) := by
  refine .onPath fun c => ?_
  simp [h]

@[simp] theorem Canonical.execPermb f {s : State} (h : Canonical s) : Kept (execPermb f s) := by
  refine .onPath fun c => ?_
  simp [h]

@[simp] theorem Canonical.execIcmp f {s : State} (h : Canonical s) : Kept (execIcmp f s) := by
  refine .onPath fun c => ?_
  simp [h]

@[simp] theorem Canonical.execIsel f {s : State} (h : Canonical s) : Kept (execIsel f s) := by
  refine .onPath fun c => ?_
  simp [h]

@[simp] theorem Canonical.setPq {s : State} (h : Canonical s) c act on : Canonical (setPq s c act on) := h

@[simp] theorem Canonical.channelDone {s : State} (h : Canonical s) c act nb : Canonical (channelDone s c act nb) := by
  unfold Machine.channelDone
  split <;> simp [h]

@[simp] theorem Canonical.takeFree {s : State} (h : Canonical s) k part ctx bufs :
    Canonical (takeFree s k part ctx bufs).2 :=
  h

@[simp] theorem Canonical.publishAt {s : State} (h : Canonical s) core scope :
    Canonical (publishAt s core scope) := by
  simp [Machine.publishAt, h, Canonical.coreWriteBack]

@[simp] theorem Canonical.pushBufs {s : State} (h : Canonical s) c act q bufs :
    Canonical (pushBufs s c act q bufs) := by
  grind [Machine.pushBufs, Canonical.takeFree, Canonical.publishAt, Canonical.modQueue]

@[simp] theorem Canonical.channelBlocked {s : State} (h : Canonical s) c act nb :
    Canonical (channelBlocked s c act nb) := by
  unfold Machine.channelBlocked
  split <;> simp [h]

@[simp] theorem Canonical.movPush {s : State} (h : Canonical s) c f n nb act : Canonical (movPush s c f n nb act) := by
  simp only [Machine.movPush]
  (repeat' split) <;> simp [h]

@[simp] theorem Canonical.popBufs {s : State} (h : Canonical s) c act q n :
    Canonical (popBufs s c act q n).2 := by
  grind [Machine.popBufs, Canonical.modCluster, Canonical.modQueue, Canonical.acquireAll]

@[simp] theorem Canonical.movPop {s : State} (h : Canonical s) c f n nb act :
    Canonical (movPop s c f n nb act) := by
  grind [Machine.movPop, Canonical.takeTrap, Canonical.popBufs, Canonical.channelDone, Canonical.modGroup,
    Canonical.channelBlocked]

@[simp] theorem Canonical.execMov f {s : State} (h : Canonical s) : Kept (execMov f s) := by
  refine .onPath fun c => ?_
  (repeat' split) <;> simp +contextual [h]

@[simp] theorem Canonical.execMovi f {s : State} (h : Canonical s) : Kept (execMovi f s) := by
  refine .onPath fun c => ?_
  simp [h]

@[simp] theorem Canonical.execMovhi f {s : State} (h : Canonical s) : Kept (execMovhi f s) := by
  refine .onPath fun c => ?_
  simp [h]

@[simp] theorem Canonical.execPlogt f {s : State} (h : Canonical s) : Kept (execPlogt f s) := by
  refine .onPath fun c => ?_
  simp [h]

@[simp] theorem Canonical.execPmov f {s : State} (h : Canonical s) : Kept (execPmov f s) := by
  refine .onPath fun c => ?_
  grind [Canonical.runMasked, Canonical.trapPoison, Canonical.retire, Canonical.modGroup]

@[simp] theorem Canonical.execReadlane f {s : State} (h : Canonical s) : Kept (execReadlane f s) := by
  refine .onPath fun c => ?_
  grind [Canonical.runMasked, Canonical.trapPoison, Canonical.retire, Canonical.modGroup]

@[simp] theorem Canonical.execWritelane f {s : State} (h : Canonical s) : Kept (execWritelane f s) := by
  refine .onPath fun c => ?_
  grind [Canonical.runMasked, Canonical.trapPoison, Canonical.retire, Canonical.modGroup]

@[simp] theorem Canonical.execRng f {s : State} (h : Canonical s) : Kept (execRng f s) := by
  refine .onPath fun c => ?_
  simp [h]

@[simp] theorem Canonical.execFadd f {s : State} (h : Canonical s) : Kept (execFadd f s) := by
  refine .onPath fun c => ?_
  simp [h]

@[simp] theorem Canonical.execFmul f {s : State} (h : Canonical s) : Kept (execFmul f s) := by
  refine .onPath fun c => ?_
  simp [h]

@[simp] theorem Canonical.execFfma f {s : State} (h : Canonical s) : Kept (execFfma f s) := by
  refine .onPath fun c => ?_
  simp [h]

@[simp] theorem Canonical.execFmin f {s : State} (h : Canonical s) : Kept (execFmin f s) := by
  refine .onPath fun c => ?_
  simp [h]

@[simp] theorem Canonical.execFmax f {s : State} (h : Canonical s) : Kept (execFmax f s) := by
  refine .onPath fun c => ?_
  simp [h]

@[simp] theorem Canonical.execFcmp f {s : State} (h : Canonical s) : Kept (execFcmp f s) := by
  refine .onPath fun c => ?_
  simp [h]

@[simp] theorem Canonical.execFclass f {s : State} (h : Canonical s) : Kept (execFclass f s) := by
  refine .onPath fun c => ?_
  simp [h]

@[simp] theorem Canonical.execFrcp f {s : State} (h : Canonical s) : Kept (execFrcp f s) := by
  refine .onPath fun c => ?_
  simp [h]

@[simp] theorem Canonical.execFrsq f {s : State} (h : Canonical s) : Kept (execFrsq f s) := by
  refine .onPath fun c => ?_
  simp [h]

@[simp] theorem Canonical.execFsqrt f {s : State} (h : Canonical s) : Kept (execFsqrt f s) := by
  refine .onPath fun c => ?_
  simp [h]

@[simp] theorem Canonical.execFdiv f {s : State} (h : Canonical s) : Kept (execFdiv f s) := by
  refine .onPath fun c => ?_
  simp [h]

@[simp] theorem Canonical.execFexp2 f {s : State} (h : Canonical s) : Kept (execFexp2 f s) := by
  refine .onPath fun c => ?_
  simp [h]

@[simp] theorem Canonical.execFlog2 f {s : State} (h : Canonical s) : Kept (execFlog2 f s) := by
  refine .onPath fun c => ?_
  simp [h]

@[simp] theorem Canonical.execFsin f {s : State} (h : Canonical s) : Kept (execFsin f s) := by
  refine .onPath fun c => ?_
  simp [h]

@[simp] theorem Canonical.execFtanh f {s : State} (h : Canonical s) : Kept (execFtanh f s) := by
  refine .onPath fun c => ?_
  simp [h]

@[simp] theorem Canonical.execFrnd f {s : State} (h : Canonical s) : Kept (execFrnd f s) := by
  refine .onPath fun c => ?_
  simp [h]

@[simp] theorem Canonical.execCvt f {s : State} (h : Canonical s) : Kept (execCvt f s) := by
  refine .onPath fun c => ?_
  grind [Canonical.runMasked, Canonical.trapPoison, Canonical.retire, Canonical.modGroup]

@[simp] theorem Canonical.execCvtsr f {s : State} (h : Canonical s) : Kept (execCvtsr f s) := by
  refine .onPath fun c => ?_
  simp [h]

@[simp] theorem Canonical.execQnt f {s : State} (h : Canonical s) : Kept (execQnt f s) := by
  refine .onPath fun c => ?_
  grind [Canonical.runMasked, Canonical.trapPoison, Canonical.retire, Canonical.modGroup]

@[simp] theorem Canonical.execDqnt f {s : State} (h : Canonical s) : Kept (execDqnt f s) := by
  refine .onPath fun c => ?_
  grind [Canonical.runMasked, Canonical.trapPoison, Canonical.retire, Canonical.modGroup]

@[simp] theorem Canonical.execPack f {s : State} (h : Canonical s) : Kept (execPack f s) := by
  refine .onPath fun c => ?_
  grind [Canonical.runMasked, Canonical.trapPoison, Canonical.retire, Canonical.modGroup]

@[simp] theorem Canonical.execUnpk f {s : State} (h : Canonical s) : Kept (execUnpk f s) := by
  refine .onPath fun c => ?_
  simp [h]

@[simp] theorem Canonical.execLxch f {s : State} (h : Canonical s) : Kept (execLxch f s) := by
  refine .onPath fun c => ?_
  grind [Canonical.runMasked, Canonical.trapPoison, Canonical.retire, Canonical.modGroup]

@[simp] theorem Canonical.execScan f {s : State} (h : Canonical s) : Kept (execScan f s) := by
  refine .onPath fun c => ?_
  grind [Canonical.runMasked, Canonical.trapPoison, Canonical.retire, Canonical.modGroup]

@[simp] theorem Canonical.execRedux f {s : State} (h : Canonical s) : Kept (execRedux f s) := by
  refine .onPath fun c => ?_
  grind [Canonical.runMasked, Canonical.trapPoison, Canonical.retire, Canonical.modGroup]

@[simp] theorem Canonical.execEqln f {s : State} (h : Canonical s) : Kept (execEqln f s) := by
  refine .onPath fun c => ?_
  grind [Canonical.runMasked, Canonical.trapPoison, Canonical.retire, Canonical.modGroup]

@[simp] theorem Canonical.execDeriv f {s : State} (h : Canonical s) : Kept (execDeriv f s) := by
  refine .onPath fun c => ?_
  grind [Canonical.runMasked, Canonical.trapPoison, Canonical.retire, Canonical.modGroup]

@[simp] theorem Canonical.execIdp4 f {s : State} (h : Canonical s) : Kept (execIdp4 f s) := by
  refine .onPath fun c => ?_
  simp [h]

@[simp] theorem Canonical.execFdp2 f {s : State} (h : Canonical s) : Kept (execFdp2 f s) := by
  refine .onPath fun c => ?_
  simp [h]

@[simp] theorem Canonical.loadLanes (one : LaneLoc → Nat → Nat) (who : Nat → List Agent) (acq : Option Nat) {s : State}
    (h : Canonical s) (ls : List LaneLoc) : Canonical (loadLanes one who acq s ls).2 := by
  induction ls generalizing s with
  | nil => exact h
  | cons l r ih =>
    unfold Machine.loadLanes
    cases acq with
    | none => exact ih (h.readBytes ..)
    | some k => exact ih ((h.readBytes ..).acquireAll ..)

@[simp] theorem Canonical.globalLoad {s : State} (h : Canonical s) (c : Iss) (f : Fields) (sx : Bool) (acq : Option Nat) (act : Mask) :
    Canonical (globalLoad s c f sx acq act) := by
  unfold Machine.globalLoad
  simp only []
  split
  · exact h.trapPoison ..
  · refine h.withRecord _ _ _ _ fun r => ?_
    split
    · rename_i t ht; exact (ht ▸ h.prepAccess .. : Prep.Kept (.stop t))
    · exact canonical_ite (fun _ => h) fun _ => (Canonical.loadLanes _ _ _ h _).retireOp ..

@[simp] theorem Canonical.execLd f {s : State} (h : Canonical s) : Kept (execLd f s) := by
  refine .onPath fun c => ?_
  simp [h]

@[simp] theorem Canonical.shareStores {s : State} (h : Canonical s) ag id others :
    Canonical (shareStores s ag id others) := by
  simp +contextual [Machine.shareStores, h]

@[simp] theorem Canonical.storeHere gid nibble val rel {s : State} (h : Canonical s) here :
    Canonical (storeHere gid nibble val rel s here) := by
  grind [Machine.storeHere, Canonical.readBytes, Canonical.storeBytes, Canonical.shareStores, Canonical.storeBytes]

@[simp] theorem Canonical.storeLanes gid nibble val rel {s : State} (h : Canonical s) ls :
    Canonical (storeLanes gid nibble val rel s ls) := by
  simp +contextual [Machine.storeLanes, h]

@[simp] theorem Canonical.globalStore {s : State} (h : Canonical s) (c : Iss) (f : Fields) (rel : Option Nat) (act : Mask) :
    Canonical (globalStore s c f rel act) := by
  unfold Machine.globalStore
  simp only []
  split
  · exact h.trapPoison ..
  · refine h.withRecord _ _ _ _ fun r => ?_
    split
    · rename_i t ht; exact (ht ▸ h.prepAccess .. : Prep.Kept (.stop t))
    · refine canonical_ite (fun _ => h) fun _ => Canonical.retireOp (Canonical.storeLanes _ _ _ _ ?_ _) ..
      split
      · exact canonical_ite (fun _ => h) fun _ => h.publishAt ..
      · exact h

@[simp] theorem Canonical.execSt f {s : State} (h : Canonical s) : Kept (execSt f s) := by
  refine .onPath fun c => ?_
  simp [h]

@[simp] theorem Canonical.prepSpad {s : State} (h : Canonical s) c k sz as {body : State} (hbody : Canonical body) :
    Canonical (prepSpad s c k sz as body) := by
  unfold Machine.prepSpad
  (repeat' split) <;> simp [h, hbody]

@[simp] theorem Canonical.spadUnit {s : State} (h : Canonical s) ags tid o n :
    Canonical (spadUnit s ags tid o n).2 := by
  unfold Machine.spadUnit
  split <;> simp [h]

@[simp] theorem Canonical.spadGet {s : State} (h : Canonical s) ags tid o n :
    Canonical (spadGet s ags tid o n).2 := by
  simp +contextual [Machine.spadGet, h]

@[simp] theorem Canonical.spadLane {s : State} (h : Canonical s) (ags : List Agent) (tid : Nat) (fe : Bool) (o n : Nat) :
    Canonical (spadLane s ags tid fe o n).2 := by
  have hl (ids : List Nat) : Canonical (ags.foldl (fun s a => Machine.learn s a ids) s) :=
    Canonical.foldl (fun _ _ ht => ht.learn ..) _ h
  exact canonical_ite (fun _ => ((hl _).spadGet ..).acquireAll ..) fun _ => (hl _).spadGet ..

@[simp] theorem Canonical.spadLanes (tid : Nat) (who : Nat → List Agent) (fe : Bool) (n : Nat) {s : State} (h : Canonical s)
    (as : List SpadAcc) : Canonical (spadLanes tid who fe n s as).2 := by
  induction as generalizing s with
  | nil => exact h
  | cons a r ih => exact ih (h.spadLane ..)

@[simp] theorem Canonical.spadLoad {s : State} (h : Canonical s) c f act as :
    Canonical (spadLoad s c f act as) := by
  grind [Machine.spadLoad, Canonical.waitOn, Canonical.spadLanes, Canonical.modTeam, Canonical.retireOp]

@[simp] theorem Canonical.execLds f {s : State} (h : Canonical s) : Kept (execLds f s) := by
  refine .onPath fun c => ?_
  grind [Canonical.runCounted, Canonical.trapPoison, Canonical.prepSpad, Canonical.spadLoad]

@[simp] theorem Canonical.spadPutUnit {s : State} (h : Canonical s) ag tid o bs bad :
    Canonical (spadPutUnit s ag tid o bs bad) := by
  unfold Machine.spadPutUnit
  split <;> simp [h, Canonical.noteStore]

@[simp] theorem Canonical.spadPut {s : State} (h : Canonical s) ag tid o bs bad :
    Canonical (spadPut s ag tid o bs bad) := by
  simp +contextual [Machine.spadPut, h]

@[simp] theorem Canonical.spadHere gid tid n val {s : State} (h : Canonical s) here o :
    Canonical (spadHere gid tid n val s here o) := by
  unfold Machine.spadHere
  split <;> simp [h]

@[simp] theorem Canonical.spadStore {s : State} (h : Canonical s) c f as : Canonical (spadStore s c f as) := by
  unfold Machine.spadStore
  exact Canonical.foldl (fun _ _ ht => by grind [Canonical.spadHere, Canonical.modTeam, Canonical.retireOp]) _ h

@[simp] theorem Canonical.execSts f {s : State} (h : Canonical s) : Kept (execSts f s) := by
  refine .onPath fun c => ?_
  grind [Canonical.runCounted, Canonical.trapPoison, Canonical.prepSpad, Canonical.spadStore]

@[simp] theorem Canonical.execPft {s : State} (h : Canonical s) (f : Fields) : Kept (execPft f s) :=
  .onPath fun _ => h.runMasked _ _ _ fun _ => h.withRecord _ _ _ _ fun _ =>
    (Canonical.foldl (fun _ _ ht => canonical_ite (fun _ => ht) fun _ =>
      canonical_ite (fun _ => ht.askCaches ..) fun _ => ht.l2Asked ..) _ h).retire _

@[simp] theorem Canonical.sendAtoms {s : State} (h : Canonical s) (c : Iss) (f : Fields) (cas : Bool) (act : Mask) (ls : List LaneLoc) :
    Canonical (sendAtoms s c f cas act ls) := by
  simp only [Machine.sendAtoms]
  refine Canonical.startOp (Canonical.retire (Canonical.foldl (fun _ _ ht => ht.modPart _ _) _ ?_) _) _
  refine Canonical.foldl (fun _ _ ht => canonical_ite (fun _ => ht) fun _ => ht.coreDrop _ _) _ ?_
  exact canonical_ite (fun _ => h.publishAt ..) fun _ => h

@[simp] theorem Canonical.globalAtom {s : State} (h : Canonical s) (c : Iss) (f : Fields) (cas : Bool) (n : Nat) (act : Mask) :
    Canonical (globalAtom s c f cas n act) := by
  unfold Machine.globalAtom
  simp only []
  split
  · exact h.trapPoison ..
  · refine h.withRecord _ _ _ _ fun r => ?_
    split
    · rename_i t ht; exact (ht ▸ h.prepAccess .. : Prep.Kept (.stop t))
    · exact h.sendAtoms ..

@[simp] theorem Canonical.execAtom f {s : State} (h : Canonical s) : Kept (execAtom f s) := by
  refine .onPath fun c => ?_
  simp [h]

@[simp] theorem Canonical.execAcas f {s : State} (h : Canonical s) : Kept (execAcas f s) := by
  refine .onPath fun c => ?_
  simp [h]

@[simp] theorem Canonical.spadRmw {s : State} (h : Canonical s) ag tid o n f :
    Canonical (spadRmw s ag tid o n f).2 := by
  unfold Machine.spadRmw
  split <;> simp [h]

@[simp] theorem Canonical.spadAtomics (c : Iss) (f : Fields) {s : State} (h : Canonical s) (as : List SpadAcc) :
    Canonical (spadAtomics c f s as).2 := by
  induction as generalizing s with
  | nil => exact h
  | cons a r ih => exact ih (h.spadRmw ..)

@[simp] theorem Canonical.execAtoms f {s : State} (h : Canonical s) : Kept (execAtoms f s) := by
  refine .onPath fun c => ?_
  grind [Canonical.runCounted, Canonical.trapPoison, Canonical.prepSpad, Canonical.spadAtomics, Canonical.retireOp]

@[simp] theorem Canonical.fenceThreads {s : State} (h : Canonical s) core ags kind scope :
    Canonical (fenceThreads s core ags kind scope) := by
  unfold Machine.fenceThreads
  (repeat' split) <;> simp +contextual [h]

@[simp] theorem Canonical.execFence f {s : State} (h : Canonical s) : Kept (execFence f s) := by
  refine .onPath fun c => ?_
  grind [Canonical.runMasked, Canonical.retire, Canonical.fenceThreads]

@[simp] theorem Canonical.execLda f {s : State} (h : Canonical s) : Kept (execLda f s) := by
  refine .onPath fun c => ?_
  simp [h]

@[simp] theorem Canonical.execStl f {s : State} (h : Canonical s) : Kept (execStl f s) := by
  refine .onPath fun c => ?_
  simp [h]

@[simp] theorem Canonical.withSlot {s : State} (h : Canonical s) c f {body : ℕ → Sys2Proof.Machine.State}
    (hbody : ∀ a0, Canonical (body a0)) :
    Canonical (withSlot s c f body) := by
  unfold Machine.withSlot
  split <;> simp [h, hbody]

@[simp] theorem Canonical.arrive {s : State} (h : Canonical s) c act n scope :
    Canonical (arrive s c act n scope) := by
  grind [Machine.arrive, Canonical.modBar, Canonical.publishAt, Canonical.modGroup]

@[simp] theorem Canonical.execBara f {s : State} (h : Canonical s) : Kept (execBara f s) := by
  refine .onPath fun c => ?_
  grind [Canonical.runMasked, Canonical.withSlot, Canonical.takeTrap, Canonical.retire, Canonical.arrive]

@[simp] theorem Canonical.phaseAcquire {s : State} (h : Canonical s) c act n phase scope :
    Canonical (phaseAcquire s c act n phase scope) := by
  simp +contextual [Machine.phaseAcquire, h]

@[simp] theorem Canonical.awaitPhase {s : State} (h : Canonical s) c act n phase scope :
    Canonical (awaitPhase s c act n phase scope) := by
  unfold Machine.awaitPhase
  split <;> simp [h]

@[simp] theorem Canonical.execBarw f {s : State} (h : Canonical s) : Kept (execBarw f s) := by
  refine .onPath fun c => ?_
  grind [Canonical.runMasked, Canonical.withSlot, Canonical.awaitPhase, Canonical.retire, Canonical.phaseAcquire]

@[simp] theorem Canonical.execBar f {s : State} (h : Canonical s) : Kept (execBar f s) := by
  refine .onPath fun c => ?_
  grind [Canonical.runMasked, Canonical.withSlot, Canonical.awaitPhase, Canonical.takeTrap, Canonical.waitOn,
    Canonical.arrive]

@[simp] theorem Canonical.execBarx f {s : State} (h : Canonical s) : Kept (execBarx f s) := by
  refine .onPath fun c => ?_
  grind [Canonical.runMasked, Canonical.trapPoison, Canonical.withSlot, Canonical.takeTrap, Canonical.retire,
    Canonical.modBar]

@[simp] theorem Canonical.execQmap f {s : State} (h : Canonical s) : Kept (execQmap f s) := by
  refine .onPath fun c => ?_
  grind [Canonical.runMasked, Canonical.retire, Canonical.modGroup, Canonical.trapPoison, Canonical.illegalOperand,
    Canonical.takeTrap]

@[simp] theorem Canonical.execFeset f {s : State} (h : Canonical s) : Kept (execFeset f s) := by
  refine .onPath fun c => ?_
  grind [Canonical.runMasked, Canonical.trapPoison, Canonical.takeTrap, Canonical.retire, Canonical.modTeam]

@[simp] theorem Canonical.withObject {s : State} (h : Canonical s) (c : Iss) (lane va n : Nat) {body : List Byte → State → State}
    (hb : ∀ bs t, Canonical t → Canonical (body bs t)) : Canonical (withObject s c lane va n body) := by
  unfold Machine.withObject
  split
  · rename_i t ht; exact (ht ▸ h.prepXlate .. : Prep.Kept (.stop t))
  · exact canonical_ite (fun _ => h) fun _ => canonical_ite (fun _ => (h.readSet ..).trapPoison ..) fun _ =>
      hb _ _ (h.readSet ..)

@[simp] theorem Canonical.reduceSeq {s : State} (h : Canonical s) part card : Canonical (reduceSeq s part card).2 := by
  unfold Machine.reduceSeq
  split <;> simp [h]

@[simp] theorem Canonical.writeBackStores {s : State} (h : Canonical s) core ids :
    Canonical (writeBackStores s core ids) := by
  simp [Machine.writeBackStores, h, Canonical.coreWriteBack]

@[simp] theorem Canonical.releaseToJob {s : State} (h : Canonical s) c id ms :
    Canonical (releaseToJob s c id ms) := by
  simp [Machine.releaseToJob, h]

@[simp] theorem Canonical.enterJob {s : State} (h : Canonical s) (c : Iss) (act : Mask) (card : Card) :
    Canonical (enterJob s c act card) := by
  simp only [Machine.enterJob]
  refine Canonical.modTeam (Canonical.releaseToJob ?_ _ _ _) _ _
  exact (canonical_mk ..).2 ((h.startOp _).reduceSeq _ _)

@[simp] theorem Canonical.issueJob {s : State} (h : Canonical s) c act f bs :
    Canonical (issueJob s c act f bs) := by
  grind [Machine.issueJob, Canonical.illegalOperand, Canonical.waitOn, Canonical.enterJob, Canonical.retire,
    Canonical.modGroup]

@[simp] theorem Canonical.execJob f {s : State} (h : Canonical s) : Kept (execJob f s) := by
  refine .onPath fun c => ?_
  grind [Canonical.runCounted, Canonical.trapPoison, Canonical.takeTrap, Canonical.withObject,
    Canonical.illegalOperand, Canonical.issueJob]

@[simp] theorem Canonical.execJstat f {s : State} (h : Canonical s) : Kept (execJstat f s) := by
  refine .onPath fun c => ?_
  grind [Canonical.runMasked, Canonical.trapPoison, Canonical.retire, Canonical.modGroup]

@[simp] theorem Canonical.enterNode {s : State} (h : Canonical s) c ids f spawn record :
    Canonical (enterNode s c ids f spawn record) := by
  simp [Machine.enterNode, h]

@[simp] theorem Canonical.runLaunch {s : State} (h : Canonical s) c f spawn :
    Canonical (runLaunch s c f spawn) := by
  grind [Machine.runLaunch, Canonical.runMasked, Canonical.trapPoison, Canonical.takeTrap, Canonical.withObject,
    Canonical.publishAt, Canonical.enterNode]

@[simp] theorem Canonical.execSpawn f {s : State} (h : Canonical s) : Kept (execSpawn f s) := by
  refine .onPath fun c => ?_
  simp [h]

@[simp] theorem Canonical.cinvData {s : State} (h : Canonical s) (c : Iss) (scope : Nat) (lines : List Nat) :
    Canonical (cinvData s c scope lines) := by
  have hd (ks : List Nat) : Canonical (ks.foldl (fun t k => Machine.coreDrop t k lines.contains) s) :=
    Canonical.foldl (fun _ _ ht => ht.coreDrop ..) _ h
  simp only [Machine.cinvData]
  exact canonical_ite (fun _ => hd _) fun _ => Canonical.foldl (fun _ _ ht => ht.l2WriteBack _) _ (hd _)

@[simp] theorem Canonical.cinvCanister {s : State} (h : Canonical s) c scope lines :
    Canonical (cinvCanister s c scope lines) :=
  h

@[simp] theorem Canonical.execCinv f {s : State} (h : Canonical s) : Kept (execCinv f s) := by
  refine .onPath fun c => ?_
  grind [Canonical.runCounted, Canonical.rangeRecord, Canonical.cinvData, Canonical.retireOp, Canonical.cinvCanister]

@[simp] theorem Canonical.execLaunch f {s : State} (h : Canonical s) : Kept (execLaunch f s) := by
  refine .onPath fun c => ?_
  simp [h]

@[simp] theorem Canonical.mmaCheck {s : State} (h : Canonical s) c f : ∀ t, mmaCheck s c f = some t → Canonical t := by
  simp only [Machine.mmaCheck]
  (repeat' split) <;> simp [h]

@[simp] theorem Canonical.modLatch {s : State} (h : Canonical s) team n f : Canonical (modLatch s team n f) := h

@[simp] theorem Canonical.mmaArrive {s : State} (h : Canonical s) c f :
    Canonical (mmaArrive s c f) := by
  grind [Machine.mmaArrive, Canonical.takeTrap, Canonical.mmaCheck, Canonical.waitOn, Canonical.modLatch]

@[simp] theorem Canonical.retireMma {s : State} (h : Canonical s) c ws : Canonical (retireMma s c ws) := h

def Slab.Kept : Slab → Prop
  | .ok _ _ s => Canonical s
  | _ => True

@[simp] theorem Canonical.mmaSlab {s : State} (h : Canonical s) (c : Iss) (f : Fields) (ags : List Agent) :
    Slab.Kept (mmaSlab s c f ags) := by
  simp only [Machine.mmaSlab]
  repeat' split
  · trivial
  · trivial
  · exact h.readSet ..
  · exact h

@[simp] theorem Canonical.mmaAlone {s : State} (h : Canonical s) (c : Iss) (f : Fields) :
    Canonical (mmaAlone s c f) := by
  unfold Machine.mmaAlone
  refine canonical_ite (fun _ => h) fun _ => ?_
  split
  · exact h.takeTrap ..
  · exact h.coreFault ..
  · rename_i bytes bad s1 ht
    have h1 : Canonical s1 := (ht ▸ h.mmaSlab .. : Slab.Kept (.ok bytes bad s1))
    exact canonical_ite (fun _ => h1.trapPoison ..) fun _ => h1.retireMma ..

@[simp] theorem Canonical.execMma f {s : State} (h : Canonical s) : Kept (execMma f s) := by
  refine .onPath fun c => ?_
  grind [Canonical.illegalOperand, Canonical.mmaArrive, Canonical.mmaCheck, Canonical.mmaAlone]

@[simp] theorem Canonical.spadSeen {s : State} (h : Canonical s) ags tid o n t :
    Canonical (spadSeen s ags tid o n t).2 := by
  simp +contextual [Machine.spadSeen, h]

@[simp] theorem Canonical.weightSeen {s : State} (h : Canonical s) c act zb a len :
    Canonical (weightSeen s c act zb a len).2 := by
  simp [Machine.weightSeen, h]

@[simp] theorem Canonical.setWeight {s : State} (h : Canonical s) core r w : Canonical (setWeight s core r w) := h

@[simp] theorem Canonical.fillSlot4 {s : State} (h : Canonical s) core team r src :
    Canonical (fillSlot4 s core team r src) :=
  h

@[simp] theorem Canonical.modBinding {s : State} (h : Canonical s) team r f : Canonical (modBinding s team r f) := h

@[simp] theorem Canonical.mldwLoad {s : State} (h : Canonical s) c f act :
    Canonical (mldwLoad s c f act) := by
  grind [Machine.mldwLoad, Canonical.weightSeen, Canonical.trapPoison, Canonical.illegalOperand, Canonical.takeTrap,
    Canonical.waitOn, Canonical.fillSlot4, Canonical.retireOp, Canonical.modBinding]

@[simp] theorem Canonical.releaseBinding {s : State} (h : Canonical s) core team r :
    Canonical (releaseBinding s core team r) := by
  unfold Machine.releaseBinding
  split <;> simp [h]

@[simp] theorem Canonical.execMldw f {s : State} (h : Canonical s) : Kept (execMldw f s) := by
  refine .onPath fun c => ?_
  grind [Canonical.runCounted, Canonical.mldwLoad, Canonical.waitOn, Canonical.retireOp, Canonical.releaseBinding]

@[simp] theorem Canonical.fillScale {s : State} (h : Canonical s) core team r src :
    Canonical (fillScale s core team r src) :=
  h

@[simp] theorem Canonical.mldsLoad {s : State} (h : Canonical s) c f act :
    Canonical (mldsLoad s c f act) := by
  grind [Machine.mldsLoad, Canonical.trapPoison, Canonical.illegalOperand, Canonical.takeTrap, Canonical.waitOn,
    Canonical.spadSeen, Canonical.fillScale, Canonical.retireOp, Canonical.modBinding]

@[simp] theorem Canonical.execMlds f {s : State} (h : Canonical s) : Kept (execMlds f s) := by
  refine .onPath fun c => ?_
  simp [h]

@[simp] theorem Canonical.execGang f {s : State} (h : Canonical s) : Kept (execGang f s) := by
  refine .onPath fun c => ?_
  grind [Canonical.runMasked, Canonical.trapPoison, Canonical.illegalOperand, Canonical.retire, Canonical.modLatch,
    Canonical.takeTrap]

@[simp] theorem Canonical.execMtrn f {s : State} (h : Canonical s) : Kept (execMtrn f s) := by
  refine .onPath fun c => ?_
  simp only []
  (repeat' split) <;> simp +contextual [h]

@[simp] theorem Canonical.whenTokenFree {s : State} (h : Canonical s) c n {body : State} (hbody : Canonical body) :
    Canonical (whenTokenFree s c n body) := by
  simp [Machine.whenTokenFree, h, hbody]

@[simp] theorem Canonical.addRows {s : State} (h : Canonical s) cluster part ctx handle rows :
    Canonical (addRows s cluster part ctx handle rows) :=
  h

@[simp] theorem Canonical.execNcall f {s : State} (h : Canonical s) : Kept (execNcall f s) := by
  refine .onPath fun c => ?_
  grind [Canonical.runMasked, Canonical.whenTokenFree, Canonical.trapPoison, Canonical.illegalOperand,
    Canonical.modGroup, Canonical.retire, Canonical.addRows]

@[simp] theorem Canonical.execTwait f {s : State} (h : Canonical s) : Kept (execTwait f s) := by
  refine .onPath fun c => ?_
  grind [Canonical.runMasked, Canonical.whenTokenFree, Canonical.retire]

@[simp] theorem Canonical.execTtest f {s : State} (h : Canonical s) : Kept (execTtest f s) := by
  refine .onPath fun c => ?_
  grind [Canonical.runMasked, Canonical.retire, Canonical.modGroup]

@[simp] theorem Canonical.runHint {s : State} (h : Canonical s) c f rel {body : ℕ → Sys2Proof.Machine.State}
    (hbody : ∀ a0, Canonical (body a0)) :
    Canonical (runHint s c f rel body) := by
  unfold Machine.runHint
  split <;> simp [h, hbody]

@[simp] theorem Canonical.unpin {s : State} (h : Canonical s) c h :
    Canonical (unpin s c h) := by
  grind [Machine.unpin, Canonical.modCluster]

@[simp] theorem Canonical.newTile {s : State} (h : Canonical s) t : Canonical (newTile s t) := h

@[simp] theorem Canonical.hintTile {s : State} (h : Canonical s) c pin h :
    Canonical (hintTile s c pin h) := by
  grind [Machine.hintTile, Canonical.newTile]

@[simp] theorem Canonical.execNpin f {s : State} (h : Canonical s) : Kept (execNpin f s) := by
  refine .onPath fun c => ?_
  (repeat' split) <;> simp +contextual [h]

@[simp] theorem Canonical.execNpref f {s : State} (h : Canonical s) : Kept (execNpref f s) := by
  refine .onPath fun c => ?_
  simp [h]

@[simp] theorem Canonical.execNflush f {s : State} (h : Canonical s) : Kept (execNflush f s) := by
  refine .onPath fun c => ?_
  simp [h]

@[simp] theorem Canonical.execXf f {s : State} (h : Canonical s) : Kept (execXf f s) := by
  refine .onPath fun c => ?_
  simp only []
  (repeat' split) <;> simp +contextual [h]

@[simp] theorem Canonical.execDec f {s : State} (h : Canonical s) : Kept (execDec f s) := by
  refine .onPath fun c => ?_
  grind [Canonical.runCounted, Canonical.trapPoison, Canonical.illegalOperand, Canonical.takeTrap,
    Canonical.spadSeen, Canonical.retireOp]

@[simp] theorem Canonical.execEnc f {s : State} (h : Canonical s) : Kept (execEnc f s) := by
  refine .onPath fun c => ?_
  grind [Canonical.runCounted, Canonical.trapPoison, Canonical.takeTrap, Canonical.shareStores, Canonical.spadPut,
    Canonical.retireOp]

@[simp] theorem Canonical.execTopk f {s : State} (h : Canonical s) : Kept (execTopk f s) := by
  refine .onPath fun c => ?_
  grind [Canonical.runCounted, Canonical.trapPoison, Canonical.retireOp]

@[simp] theorem Canonical.execResamp f {s : State} (h : Canonical s) : Kept (execResamp f s) := by
  refine .onPath fun c => ?_
  simp only []
  (repeat' split) <;> simp +contextual [h]

@[simp] theorem Canonical.startTrace {s : State} (h : Canonical s) c f n act : Canonical (startTrace s c f n act) := h

@[simp] theorem Canonical.execTrace f {s : State} (h : Canonical s) : Kept (execTrace f s) := by
  refine .onPath fun c => ?_
  grind [Canonical.runMasked, Canonical.whenTokenFree, Canonical.waitOn, Canonical.trapPoison, Canonical.retire,
    Canonical.startTrace]

@[simp] theorem Canonical.execTrget {s : State} (h : Canonical s) (f : Fields) : Kept (execTrget f s) :=
  .onPath fun _ => h.runMasked _ _ _ fun _ => canonical_ite (fun _ => h.takeTrap ..) fun _ =>
    h.whenTokenFree _ _ (Canonical.retire ((canonical_mk ..).2 (h.modGroup _ _)) _)

@[simp] theorem Canonical.nextRound {s : State} (h : Canonical s) c n act : Canonical (nextRound s c n act) := h

@[simp] theorem Canonical.execTrcont f {s : State} (h : Canonical s) : Kept (execTrcont f s) := by
  refine .onPath fun c => ?_
  grind [Canonical.runMasked, Canonical.takeTrap, Canonical.whenTokenFree, Canonical.waitOn, Canonical.retire,
    Canonical.nextRound]

@[simp] theorem Canonical.withImage {s : State}
    (h : Canonical s) c f sampled forbidden {body : Sys2Proof.Machine.BufRec → Sys2Proof.Machine.State} (hbody : ∀
      a0, Canonical (body a0)) :
    Canonical (withImage s c f sampled forbidden body) := by
  simp only [Machine.withImage]
  (repeat' split) <;> simp [h, hbody]

@[simp] theorem Canonical.sampleImage {s : State} (h : Canonical s) (c : Iss) (f : Fields) (mode : Nat) (linear gather : Bool)
    (act : Mask) : Canonical (sampleImage s c f mode linear gather act) := by
  unfold Machine.sampleImage
  simp only []
  split
  · exact h.trapPoison ..
  · refine h.withImage _ _ _ _ fun r => ?_
    split
    · rename_i t ht; exact (ht ▸ h.prepXlate .. : Prep.Kept (.stop t))
    · exact canonical_ite (fun _ => h) fun _ => (Canonical.loadLanes _ _ _ h _).retireOp ..

@[simp] theorem Canonical.execTex f {s : State} (h : Canonical s) : Kept (execTex f s) := by
  refine .onPath fun c => ?_
  simp [h]

@[simp] theorem Canonical.execTexg f {s : State} (h : Canonical s) : Kept (execTexg f s) := by
  refine .onPath fun c => ?_
  simp [h]

@[simp] theorem Canonical.execTexq f {s : State} (h : Canonical s) : Kept (execTexq f s) := by
  refine .onPath fun c => ?_
  grind [Canonical.runCounted, Canonical.trapPoison, Canonical.withImage, Canonical.retireOp]

@[simp] theorem Canonical.execImld (f : Fields) {s : State} (h : Canonical s) : Kept (execImld f s) := by
  refine .onPath fun c => h.runCounted _ _ _ _ fun act => ?_
  split
  · exact h.trapPoison ..
  · refine h.withImage _ _ _ _ fun r => ?_
    split
    · rename_i t ht; exact (ht ▸ h.prepAccess .. : Prep.Kept (.stop t))
    · exact canonical_ite (fun _ => h) fun _ => (Canonical.loadLanes _ _ _ h _).retireOp ..

@[simp] theorem Canonical.execImst (f : Fields) {s : State} (h : Canonical s) : Kept (execImst f s) := by
  refine .onPath fun c => h.runCounted _ _ _ _ fun act => ?_
  split
  · exact h.trapPoison ..
  · refine h.withImage _ _ _ _ fun r => ?_
    split
    · rename_i t ht; exact (ht ▸ h.prepAccess .. : Prep.Kept (.stop t))
    · exact canonical_ite (fun _ => h) fun _ => (Canonical.storeLanes _ _ _ _ h _).retireOp ..

@[simp] theorem Canonical.withTarget {s : State}
    (h : Canonical s) c f {body : Sys2Proof.Machine.Target → Sys2Proof.Machine.State} (hbody : ∀ a0,
      Canonical (body a0)) :
    Canonical (withTarget s c f body) := by
  unfold Machine.withTarget
  (repeat' split) <;> simp [h, hbody]

@[simp] theorem Canonical.readLater {s : State} (h : Canonical s) c f ws rs : Canonical (readLater s c f ws rs) := h

@[simp] theorem Canonical.execVisr f {s : State} (h : Canonical s) : Kept (execVisr f s) := by
  refine .onPath fun c => ?_
  grind [Canonical.runCounted, Canonical.trapPoison, Canonical.withTarget, Canonical.readLater]

@[simp] theorem Canonical.execPrimf f {s : State} (h : Canonical s) : Kept (execPrimf f s) := by
  refine .onPath fun c => ?_
  grind [Canonical.runCounted, Canonical.trapPoison, Canonical.readLater]

@[simp] theorem Canonical.execEmit f {s : State} (h : Canonical s) : Kept (execEmit f s) := by
  refine .onPath fun c => ?_
  grind [Canonical.runCounted, Canonical.trapPoison, Canonical.withTarget, Canonical.publishAt, Canonical.startOp,
    Canonical.retire, Canonical.modPart, Canonical.modNode, Canonical.modPart]

@[simp] theorem Canonical.withKeys {s : State}
    (h : Canonical s) c f unique act {body : List ℕ → Sys2Proof.Machine.State} (hbody : ∀ a0, Canonical (body a0)) :
    Canonical (withKeys s c f unique act body) := by
  simp only [Machine.withKeys]
  split <;> simp [h, hbody]

@[simp] theorem Canonical.holdFor {s : State} (h : Canonical s) c gs :
    Canonical (holdFor s c gs) := by
  grind [Machine.holdFor, Canonical.reportBatch, Canonical.modPath, Canonical.waitOn]

@[simp] theorem Canonical.counterRead {s : State} (h : Canonical s) ag e : Canonical (counterRead s ag e).2 := by
  unfold Machine.counterRead
  split <;> simp [h]

@[simp] theorem Canonical.counterReads (gid : Nat) {s : State} (h : Canonical s) (ls : List LaneLoc) :
    Canonical (counterReads gid s ls).2 := by
  induction ls generalizing s with
  | nil => exact h
  | cons l r ih => exact ih (h.counterRead ..)

@[simp] theorem Canonical.pollOrder {s : State} (h : Canonical s) c f lanes :
    Canonical (pollOrder s c f lanes) := by
  grind [Machine.pollOrder, Canonical.takeTrap, Canonical.holdFor, Canonical.counterReads, Canonical.trapPoison,
    Canonical.retire, Canonical.acquireAll, Canonical.modPath, Canonical.waitOn]

@[simp] theorem Canonical.execOrdb f {s : State} (h : Canonical s) : Kept (execOrdb f s) := by
  refine .onPath fun c => ?_
  grind [Canonical.runMasked, Canonical.withKeys, Canonical.pollOrder]

@[simp] theorem Canonical.counterStore {s : State} (h : Canonical s) ag rels e v :
    Canonical (counterStore s ag rels e v) := by
  unfold Machine.counterStore
  split <;> simp [h, Canonical.ctlStoreUnit, Canonical.publish, Canonical.noteStore]

@[simp] theorem Canonical.storeOrder {s : State} (h : Canonical s) c f act ls :
    Canonical (storeOrder s c f act ls) := by
  simp +contextual [Machine.storeOrder, h]

@[simp] theorem Canonical.execOrde f {s : State} (h : Canonical s) : Kept (execOrde f s) := by
  refine .onPath fun c => ?_
  grind [Canonical.runMasked, Canonical.withKeys, Canonical.takeTrap, Canonical.modPath, Canonical.holdFor,
    Canonical.retire, Canonical.storeOrder]

@[simp] theorem Canonical.execSrd f {s : State} (h : Canonical s) : Kept (execSrd f s) := by
  refine .onPath fun c => ?_
  grind [Canonical.runMasked, Canonical.illegalOperand, Canonical.retire, Canonical.modGroup]

@[simp] theorem Canonical.sysWrite {s : State} (h : Canonical s) c r v : ∀ t, sysWrite s c r v = some t → Canonical t := by
  unfold Machine.sysWrite
  split <;> simp [h]

@[simp] theorem Canonical.execSwr f {s : State} (h : Canonical s) : Kept (execSwr f s) := by
  refine .onPath fun c => ?_
  grind [Canonical.runMasked, Canonical.illegalOperand, Canonical.trapPoison, Canonical.takeTrap, Canonical.sysWrite,
    Canonical.retire]

@[simp] theorem Canonical.execPerf f {s : State} (h : Canonical s) : Kept (execPerf f s) := by
  refine .onPath fun c => ?_
  grind [Canonical.runMasked, Canonical.retire, Canonical.modGroup]

@[simp] theorem Canonical.execSysc f {s : State} (h : Canonical s) : Kept (execSysc f s) := by
  refine .onPath fun c => ?_
  simp [h]

@[simp] theorem Canonical.settle {s : State} (h : Canonical s) {e : Event} (he : Kept e) : Kept (settle s e) := by
  cases e with
  | next t => exact kept_next.2 (kept_next.1 he)
  | fault _ => exact kept_fault
  | refused _ => exact kept_next.2 h

@[simp] theorem Canonical.clauseTrap {s : State} (h : Canonical s) c cause addr :
    Canonical (clauseTrap s c cause addr) := by
  simp [Machine.clauseTrap, h]

@[simp] theorem Canonical.codeUnit {s : State} (h : Canonical s) core must cmp loc n :
    Canonical (codeUnit s core must cmp loc n).2 := by
  simp [Machine.codeUnit, h]

@[simp] theorem Canonical.codeSet (core : Nat) (must : Nat → Nat → Msg → Bool) {s : State} (h : Canonical s) (ls : List LaneLoc) :
    Canonical (codeSet core must s ls).2 := by
  induction ls generalizing s with
  | nil => exact h
  | cons l r ih =>
    refine ih ?_
    split
    · exact h
    · exact (Canonical.readUnits (fun _ _ _ ht => ht.codeUnit ..) h _).l2Asked ..

@[simp] theorem Canonical.noteFetched {s : State} (h : Canonical s) c ls :
    Canonical (noteFetched s c ls) := by
  simp [Machine.noteFetched, h]

@[simp] theorem Canonical.useDict {s : State} (h : Canonical s) c : Canonical (useDict s c) := h

@[simp] theorem Canonical.fetchedClause {s : State} (h : Canonical s) (c : Iss) (w : Nat) (ws : List Nat) :
    Kept (fetchedClause s c w ws) := by
  unfold Machine.fetchedClause
  simp only []
  split
  · exact kept_refused
  · have h1 : Canonical (if needsDict 15 ws then Machine.useDict s c else s) :=
      canonical_ite (fun _ => h.useDict _) fun _ => h
    exact kept_ite (fun _ => kept_next.2 (h1.takeTrap ..)) fun _ => kept_next.2 (h1.modPath ..)

def FetchOut.Kept : FetchOut → Prop
  | .words _ s => Canonical s
  | .stop s => Canonical s

@[simp] theorem Canonical.fetchWords {s : State} (h : Canonical s) (c : Iss) (va n : Nat) :
    FetchOut.Kept (fetchWords s c va n) := by
  simp only [Machine.fetchWords]
  repeat' split
  · exact h.clauseTrap ..
  · exact h.clauseTrap ..
  · exact h.coreFaultBy ..
  · exact ((Canonical.codeSet _ _ h _).noteFetched ..).clauseTrap ..
  · exact (Canonical.codeSet _ _ h _).noteFetched ..

@[simp] theorem Canonical.tryClauseFetch {s : State} (h : Canonical s) (q : PathId) : Kept (tryClauseFetch q s) := by
  unfold Machine.tryClauseFetch
  split
  · exact kept_refused
  · refine kept_ite (fun _ => kept_refused) fun _ => kept_ite (fun _ => kept_next.2 (h.clauseTrap ..)) fun _ => ?_
    split
    · rename_i t ht; exact kept_next.2 (ht ▸ h.fetchWords .. : FetchOut.Kept (.stop t))
    · rename_i hw s1 ht
      have h1 : Canonical s1 := (ht ▸ h.fetchWords .. : FetchOut.Kept (.words hw s1))
      refine kept_ite (fun _ => kept_next.2 (h1.clauseTrap ..)) fun _ => ?_
      split
      · rename_i t ht; exact kept_next.2 (ht ▸ h1.fetchWords .. : FetchOut.Kept (.stop t))
      · rename_i ws s2 ht; exact Canonical.fetchedClause (ht ▸ h1.fetchWords .. : FetchOut.Kept (.words ws s2)) _ _ _

@[simp] theorem Canonical.execClauseFetch q {s : State} (h : Canonical s) :
    Kept (execClauseFetch q s) := by
  simp [Machine.execClauseFetch, h]

@[simp] theorem Canonical.openDict {s : State} (h : Canonical s) c :
    Canonical (openDict s c) := by
  simp [Machine.openDict, h]

@[simp] theorem Canonical.modDict {s : State} (h : Canonical s) c f : Canonical (modDict s c f) := h

@[simp] theorem Canonical.closeDict {s : State} (h : Canonical s) c st es : Canonical (closeDict s c st es) := h

@[simp] theorem Canonical.dictFault {s : State} (h : Canonical s) c acc gs : Kept (dictFault s c acc gs) := by
  unfold Machine.dictFault
  split <;> simp [h]

@[simp] theorem Canonical.loadImage {s : State} (h : Canonical s) (c : Iss) (e : Nat) : Kept (loadImage s c e) := by
  simp only [Machine.loadImage]
  refine kept_ite (fun _ => kept_next.2 (h.closeDict ..)) fun _ => ?_
  split
  · exact kept_next.2 ((h.modDict ..).closeDict ..)
  · exact (h.modDict ..).dictFault _ _ _
  · exact kept_next.2 (((Canonical.codeSet _ _ (h.modDict ..) _).noteFetched ..).closeDict ..)

@[simp] theorem Canonical.tryDictionarySlotLoad {s : State} (h : Canonical s) (core ctx handle : Nat) :
    Kept (tryDictionarySlotLoad core ctx handle s) := by
  unfold Machine.tryDictionarySlotLoad
  split
  · exact kept_refused
  · rename_i c _
    have h1 := h.openDict c
    refine kept_ite (fun _ => kept_next.2 (h1.closeDict ..)) fun _ => ?_
    simp only []
    split
    · exact kept_next.2 (h1.closeDict ..)
    · exact h1.dictFault _ _ _
    · exact kept_ite (fun _ => kept_next.2 ((h1.rangeAsked ..).closeDict ..)) fun _ => (h1.rangeAsked ..).loadImage _ _

@[simp] theorem Canonical.execDictionarySlotLoad core ctx handle {s : State} (h : Canonical s) :
    Kept (execDictionarySlotLoad core ctx handle s) := by
  simp [Machine.execDictionarySlotLoad, h]

@[simp] theorem Canonical.tryPathRotation q {s : State} (h : Canonical s) : Kept (tryPathRotation q s) := by
  unfold Machine.tryPathRotation
  (repeat' split) <;> simp [h]

@[simp] theorem Canonical.execPathRotation q {s : State} (h : Canonical s) :
    Kept (execPathRotation q s) := by
  simp [Machine.execPathRotation, h]

@[simp] theorem Canonical.tryGroupBoost gid {s : State} (h : Canonical s) : Kept (tryGroupBoost gid s) := by
  simp only [Machine.tryGroupBoost]
  (repeat' split) <;> simp [h]

@[simp] theorem Canonical.execGroupBoost gid {s : State} (h : Canonical s) :
    Kept (execGroupBoost gid s) := by
  simp [Machine.execGroupBoost, h]

@[simp] theorem Canonical.completeOp {s : State} (h : Canonical s) id : Canonical (completeOp s id) := by
  unfold Machine.completeOp
  split <;> simp [h]

@[simp] theorem Canonical.readMarks {s : State} (h : Canonical s) (ag : Agent) (l : LaneLoc) :
    Canonical (readMarks s ag l).2 := by
  have hr (us : List (Nat × Nat)) : Canonical (us.foldl (fun (a : (List Byte × List Bool) × State) u =>
      let r := (if l.kind = 3 then Machine.ctlReadUnit else Machine.readUnit) a.2 [ag] l.cmp u.1 u.2
      ((a.1.1 ++ r.1.bytes, a.1.2 ++ List.replicate u.2 r.1.bad), r.2)) (([], []), s)).2 := by
    refine canonical_foldl_snd h fun a u ha => ?_
    by_cases hk : l.kind = 3
    · simp only [hk, if_true]; exact ha.ctlReadUnit ..
    · simp only [hk, if_false]; exact ha.readUnit ..
  exact canonical_ite (fun _ => hr _) fun _ => (hr _).askCaches ..

@[simp] theorem Canonical.readAllMarks {s : State} (h : Canonical s) (ag : Agent) (ls : List LaneLoc) :
    Canonical (readAllMarks s ag ls).2 := by
  induction ls generalizing s with
  | nil => exact h
  | cons l r ih => exact ih (h.readMarks ..)

def LateRead.Kept : LateRead → Prop
  | .ok _ _ s => Canonical s
  | _ => True

@[simp] theorem Canonical.lateRead {s : State} (h : Canonical s) (o : OpThread) (lane va n : Nat) :
    LateRead.Kept (lateRead s o lane va n) := by
  unfold Machine.lateRead
  split
  · trivial
  · trivial
  · exact Canonical.readUnder (fun _ ht => ht.readAllMarks ..) h ..

def LateWords.Kept : LateWords → Prop
  | .words _ s => Canonical s
  | .fault _ => True

@[simp] theorem Canonical.indexReads {s : State} (h : Canonical s) (o : OpThread) (lane ibase vbase size p : Nat) (js : List Nat)
    (ws : List (Nat × Bool)) : LateWords.Kept (indexReads s o lane ibase vbase size p js ws) := by
  induction js generalizing s ws with
  | nil => exact h
  | cons j r ih =>
    unfold Machine.indexReads
    split
    · exact h
    · trivial
    · rename_i bs bad s1 ht; exact ih (ht ▸ h.lateRead .. : LateRead.Kept (.ok bs bad s1)) _

@[simp] theorem Canonical.laneRead {s : State} (h : Canonical s) (o : OpThread) (r : LaneRead) : LateWords.Kept (laneRead s o r) := by
  cases r with
  | entry lane va =>
    unfold Machine.laneRead
    simp only []
    split
    · exact h
    · trivial
    · rename_i bs bad s1 ht; exact (ht ▸ h.lateRead .. : LateRead.Kept (.ok bs bad s1))
  | prim lane id =>
    unfold Machine.laneRead
    simp only []
    split
    · exact h
    · trivial
    · rename_i bs bad s1 ht
      have h1 : Canonical s1 := (ht ▸ h.lateRead .. : LateRead.Kept (.ok bs bad s1))
      split
      · exact h1
      · split
        · exact h1
        · exact h1.indexReads ..

@[simp] theorem Canonical.laneReads (o : OpThread) (k : Option Nat) {s : State} (h : Canonical s) (rs : List LaneRead) :
    Canonical (laneReads o k s rs).2.2.2 := by
  induction rs generalizing s with
  | nil => exact h
  | cons r rest ih =>
    unfold Machine.laneReads
    split
    · rename_i ws s1 ht; exact ih (ht ▸ h.laneRead .. : LateWords.Kept (.words ws s1))
    · exact ih h

@[simp] theorem Canonical.performReads {s : State} (h : Canonical s) (id : Nat) (o : OpRec) (g : Group) (t : Team) :
    Kept (performReads s id o g t) := by
  have hq := Canonical.laneReads ⟨o.gid, t.core.getD 0, t.part, t.ctx, o.known⟩
    (if o.count = 0 then none else some o.first) h o.reads
  simp only [Machine.performReads]
  refine kept_ite (fun _ => kept_next.2 (Canonical.completeOp ((canonical_mk ..).2 h) _)) fun _ => ?_
  refine kept_ite (fun _ => kept_next.2 (Canonical.completeOp ((canonical_mk ..).2 hq) _)) fun _ => ?_
  exact kept_ite (fun _ => kept_refused) fun _ => kept_next.2 ((canonical_mk ..).2 (hq.reportBatch ..))

@[simp] theorem Canonical.tryOperationComplete op {s : State} (h : Canonical s) :
    Kept (tryOperationComplete op s) := by
  unfold Machine.tryOperationComplete
  (repeat' split) <;> simp [h]

@[simp] theorem Canonical.execOperationComplete op {s : State} (h : Canonical s) :
    Kept (execOperationComplete op s) := by
  simp [Machine.execOperationComplete, h]

@[simp] theorem Kept.eventOf {o : Out} (h : Kept o) : Kept (eventOf o) := by
  cases o with
  | next s => exact kept_next.2 (kept_next.1 h)
  | fault _ => exact kept_fault
  | refused _ => exact kept_refused

@[simp] theorem Canonical.wakeAs {s : State} (h : Canonical s) q : Canonical (wakeAs s q) := h

@[simp] theorem Canonical.tryLdsFeWake (q : PathId) {s : State} (h : Canonical s) : Kept (tryLdsFeWake q s) := by
  unfold Machine.tryLdsFeWake
  split
  · exact kept_refused
  · refine kept_ite (fun _ => kept_refused) fun _ => ?_
    split
    · exact kept_ite (fun _ => (Canonical.execLds _ (h.wakeAs q)).eventOf) fun _ => kept_refused
    · exact kept_refused

@[simp] theorem Canonical.execLdsFeWake q {s : State} (h : Canonical s) :
    Kept (execLdsFeWake q s) := by
  simp [Machine.execLdsFeWake, h]

@[simp] theorem Canonical.endLoads {s : State} (h : Canonical s) gid sel :
    Canonical (endLoads s gid sel) := by
  simp [Machine.endLoads, h]

@[simp] theorem Canonical.passLoads (s : State) {t : State} (h : Canonical t) (c : Iss) (i : Instr) :
    Canonical (passLoads s t c i) := by
  simp only [Machine.passLoads]
  refine canonical_ite (fun _ => (h.endLoads ..).endLoads ..) fun _ => ?_
  split
  · exact (h.endLoads ..).endLoads ..
  · exact (h.endLoads ..).endLoads ..
  · exact canonical_ite (fun _ => h.endLoads ..) fun _ => (h.endLoads ..).endLoads ..

@[simp] theorem Canonical.noteReleased {t : State} (ht : Canonical t) (s : State) (c : Iss) (i : Instr) :
    Canonical (noteReleased s t c i) := by
  unfold Machine.noteReleased
  split
  · exact ht
  · exact ht
  · exact canonical_ite (fun _ => ht) fun _ =>
      Canonical.foldl (fun _ _ hu => canonical_ite (fun _ => hu) fun _ => hu.modKnow ..) _ ht

@[simp] theorem Canonical.edgesBehind {t : State} (h : Canonical t) (s : State) (c : Iss) (i : Instr) :
    Canonical (edgesBehind s t c i) := Canonical.passLoads _ (h.noteReleased ..) ..

@[simp] theorem Canonical.tryChannelOperandRetry {s : State} (h : Canonical s) (q : PathId) :
    Kept (tryChannelOperandRetry q s) := by
  unfold Machine.tryChannelOperandRetry
  split
  · exact kept_refused
  · split
    · rename_i f _ _
      have hm : Kept (Machine.execMov f (Machine.wakeAs s q)) := Canonical.execMov f (h.wakeAs q)
      refine kept_ite (fun _ => kept_refused) fun _ => ?_
      split
      · rename_i t ht
        have h1 : Canonical t := hm _ ht
        exact kept_ite (fun _ => kept_refused) fun _ => kept_next.2 (h1.edgesBehind ..)
      · exact hm.eventOf
    · exact kept_refused

@[simp] theorem Canonical.execChannelOperandRetry q {s : State} (h : Canonical s) :
    Kept (execChannelOperandRetry q s) := by
  simp [Machine.execChannelOperandRetry, h]

@[simp] theorem Canonical.execBarrierPhaseComplete team slot {s : State} (h : Canonical s) :
    Kept (execBarrierPhaseComplete team slot s) := by
  simp [Machine.execBarrierPhaseComplete, h]

@[simp] theorem Canonical.trapMembers {s : State} (h : Canonical s) ms cause va :
    Canonical (trapMembers s ms cause va) := by
  simp +contextual [Machine.trapMembers, h]

@[simp] theorem Canonical.leaveLatch {s : State} (h : Canonical s) ms :
    Canonical (leaveLatch s ms) := by
  simp +contextual [Machine.leaveLatch, h]

@[simp] theorem Canonical.failMembers {s : State} (h : Canonical s) (ms : List (Iss × Fields)) :
    Canonical (failMembers s ms) := by
  refine Canonical.foldl (fun t e ht => ?_) _ (h.leaveLatch _)
  cases hc : Machine.mmaCheck t e.1 e.2 with
  | none => exact ht
  | some u => exact ht.mmaCheck _ _ _ hc

@[simp] theorem Canonical.faultMembers {s : State} (h : Canonical s) team n ms gs :
    Canonical (faultMembers s team n ms gs) := by
  unfold Machine.faultMembers
  refine Canonical.foldl (fun _ _ ht => ?_) _ ?_ <;> grind [Canonical.coreFault, Canonical.leaveLatch,
    Canonical.modLatch]

@[simp] theorem Canonical.joinedIssue {s : State} (h : Canonical s) (team n : Nat) (ms : List (Iss × Fields)) :
    Kept (joinedIssue s team n ms) := by
  unfold Machine.joinedIssue
  have h0 := h.modLatch team n fun l => l.joined ms
  simp only []
  split
  · exact kept_refused
  · refine kept_ite (fun _ => kept_next.2 (h0.trapMembers ..)) fun _ => kept_ite (fun _ => kept_next.2
    (h0.failMembers _)) fun _ =>
      kept_ite (fun _ => kept_refused) fun _ => ?_
    split
    · exact kept_next.2 (h0.trapMembers ..)
    · exact kept_ite (fun _ => kept_refused) fun _ => kept_next.2 (h0.faultMembers ..)
    · rename_i bytes bad s1 ht
      have h1 : Canonical s1 := (ht ▸ h0.mmaSlab .. : Slab.Kept (.ok bytes bad s1))
      exact kept_ite (fun _ => kept_next.2 (h1.trapMembers ..)) fun _ =>
        kept_next.2 (Canonical.foldl (fun _ _ hu => hu.retireMma ..) _ h1)

@[simp] theorem Canonical.tryGangJoinedIssue team latch {s : State} (h : Canonical s) :
    Kept (tryGangJoinedIssue team latch s) := by
  unfold Machine.tryGangJoinedIssue
  (repeat' split) <;> simp [h]

@[simp] theorem Canonical.execGangJoinedIssue team latch {s : State} (h : Canonical s) :
    Kept (execGangJoinedIssue team latch s) := by
  simp [Machine.execGangJoinedIssue, h]

@[simp] theorem Canonical.setGroup {s : State} (h : Canonical s) gid g : Canonical (setGroup s gid g) := h

@[simp] theorem Canonical.writeGroupFrame {s : State} (h : Canonical s) (addr : Nat) (g : Group) :
    Canonical (writeGroupFrame s addr g) :=
  (canonical_mk ..).2 (((h.bulkWrite ..).bulkWrite ..).bulkWrite ..)

@[simp] theorem Canonical.trapAnywhere {s : State} (h : Canonical s) q cause :
    Canonical (trapAnywhere s q cause) := by
  grind [Machine.trapAnywhere, Canonical.takeTrap, Canonical.setGroup, Canonical.writeGroupFrame]

@[simp] theorem Canonical.resampMismatch {s : State} (h : Canonical s) nid as :
    Canonical (resampMismatch s nid as) := by
  simp +contextual [Machine.resampMismatch, h]

@[simp] theorem Canonical.takeUnits {s : State} (h : Canonical s) part ctx u n :
    Canonical (takeUnits s part ctx u n) :=
  h

@[simp] theorem Canonical.storeSpawns {s : State} (h : Canonical s) (nid : Nat) (n : Node) (left : List Clone) :
    ∀ t, storeSpawns s nid n left = some t → Canonical t := by
  intro t ht
  rw [Machine.storeSpawns] at ht
  split at ht
  · cases ht; exact h
  · extract_lets bytes k at ht
    clear_value k
    split at ht
    · cases ht
    · extract_lets a s1 at ht
      rw [Option.some.injEq] at ht
      rw [← ht]
      have h1 : Canonical s1 := (h.takeUnits ..).bulkWrite ..
      clear_value s1
      exact Canonical.modNode ((canonical_mk ..).2 h1) _ _

@[simp] theorem Canonical.resampRelease {s : State} (h : Canonical s) as :
    Canonical (resampRelease s as).2 := by
  simp +contextual [Machine.resampRelease, h]

@[simp] theorem Canonical.withRegisters {s : State} (h : Canonical s) gid f : Canonical (withRegisters s gid f) := by
  unfold Machine.withRegisters
  (repeat' split) <;> simp [h]

@[simp] theorem Canonical.resampAcquire {s : State} (h : Canonical s) nid as rels :
    Canonical (resampAcquire s nid as rels) := by
  simp [Machine.resampAcquire, h]

/-- A placement under way leaves a canonical state. -/
theorem Placing.put_s (p : Placing) (gid : Nat) (c : Clone) : (p.put gid c).s = p.s := by
  unfold Machine.Placing.put
  split <;> rfl

@[simp] theorem Canonical.placing_elsewhere {p : Placing} (h : Canonical p.s) (c : Clone) :
    Canonical (p.elsewhere c).s := by
  unfold Machine.Placing.elsewhere
  simp only []
  split
  · exact h
  · rw [Placing.put_s]; exact h.chooseBelow _

@[simp] theorem Canonical.resampFinish {s : State} (h : Canonical s) (nid : Nat) (n : Node) (a0 : ResampArrival) :
    ∀ t, resampFinish s nid n a0 = some t → Canonical t := by
  intro t ht
  simp only [Machine.resampFinish] at ht
  generalize hp : List.foldl (fun (p : Placing) c => p.elsewhere c) _ _ = p2 at ht
  have h2 : Canonical p2.s := by
    rw [← hp]
    refine foldl_keeps (P := fun p : Placing => Canonical p.s) ?_ fun _ _ hb => hb.placing_elsewhere _
    exact foldl_keeps (P := fun p : Placing => Canonical p.s) h fun b _ hb => by rw [Placing.put_s]; exact hb
  split at ht
  · cases ht
  · rename_i s1 hs
    have h1 : Canonical s1 := h2.storeSpawns _ _ _ _ hs
    cases ht
    refine Canonical.modNode (Canonical.resampAcquire ?_ _ _ _) _ _
    exact Canonical.foldl (fun _ _ hu => ((hu.dropLaneWrites ..).newThreads ..).withRegisters ..) _ (h1.resampRelease
      _)

@[simp] theorem Canonical.tryResampComplete (node : Nat) {s : State} (h : Canonical s) :
    Kept (tryResampComplete node s) := by
  unfold Machine.tryResampComplete
  split
  · exact kept_refused
  · refine kept_ite (fun _ => kept_refused) fun _ => ?_
    split
    · exact kept_refused
    · refine kept_ite (fun _ => kept_next.2 (h.resampMismatch ..)) fun _ => ?_
      split
      · exact kept_next.2 (h.resampFinish _ _ _ _ ‹_›)
      · exact kept_refused

@[simp] theorem Canonical.execResampComplete node {s : State} (h : Canonical s) :
    Kept (execResampComplete node s) := by
  simp [Machine.execResampComplete, h]

@[simp] theorem Canonical.freshDicts {s : State} (h : Canonical s) part ctx :
    Canonical (freshDicts s part ctx) := by
  simp [Machine.freshDicts, h]

@[simp] theorem Canonical.ctxWakes {s : State} (h : Canonical s) part ctx : Canonical (ctxWakes s part ctx) := by
  unfold Machine.ctxWakes
  split <;> simp [h, Canonical.modPart]

@[simp] theorem Canonical.ctxRuns {s : State} (h : Canonical s) part ctx : Canonical (ctxRuns s part ctx) := by
  simp only [Machine.ctxRuns]
  split <;> simp [h]

@[simp] theorem Canonical.notePlaced {s : State} (h : Canonical s) tid t core :
    Canonical (notePlaced s tid t core) := by
  grind [Machine.notePlaced, Canonical.modPart, Canonical.ctxRuns, Canonical.modNode, Canonical.modPart]

@[simp] theorem Canonical.allocGroups (team core nregs : Nat) {s : State} (h : Canonical s) (i : Nat) (sls : List Nat) :
    Canonical (allocGroups team core nregs i sls s) := by
  induction sls generalizing s i with
  | nil => exact h
  | cons sl r ih => exact ih (Canonical.modTeam ((canonical_mk ..).2 h) _ _) _

@[simp] theorem Canonical.takeSram {s : State} (h : Canonical s) tid core size :
    Canonical (takeSram s tid core size) := by
  simp [Machine.takeSram, h, Canonical.coreDrop]

@[simp] theorem Canonical.settleTeam {s : State} (h : Canonical s) tid t core slots :
    Canonical (settleTeam s tid t core slots) := by
  grind [Machine.settleTeam, Canonical.notePlaced, Canonical.allocGroups, Canonical.takeSram]

@[simp] theorem Canonical.placeTeam {s0 : State} (hs0 : Canonical s0) t core slots :
    Canonical (placeTeam s0 t core slots) := by
  simp [Machine.placeTeam, hs0]

@[simp] theorem Canonical.freeUnits {s : State} (h : Canonical s) part addr n :
    Canonical (freeUnits s part addr n) :=
  h

@[simp] theorem Canonical.trySpawnRecordDispatch (node : Nat) {s : State} (h : Canonical s) :
    Kept (trySpawnRecordDispatch node s) := by
  unfold Machine.trySpawnRecordDispatch
  split
  · exact kept_refused
  · refine kept_ite (fun _ => kept_refused) fun _ => ?_
    split
    · exact kept_refused
    · have hp (t core slots f) : Canonical (Machine.modNode (Machine.placeTeam s t core slots) node f) :=
      (h.placeTeam ..).modNode ..
      exact kept_next.2 (canonical_ite (fun _ => (hp ..).freeUnits ..) fun _ => hp ..)

@[simp] theorem Canonical.execSpawnRecordDispatch node {s : State} (h : Canonical s) :
    Kept (execSpawnRecordDispatch node s) := by
  simp [Machine.execSpawnRecordDispatch, h]

@[simp] theorem Kept.triedAgain (s : State) (c : Iss) (i : Instr) {e : Event} (h : Kept e) :
    Kept (triedAgain s c i e) := by
  cases e with
  | next t => exact kept_next.2 ((kept_next.1 h).edgesBehind ..)
  | fault _ => exact kept_fault
  | refused _ => exact kept_refused

@[simp] theorem Canonical.tryOrdbWake (q : PathId) {s : State} (h : Canonical s) : Kept (tryOrdbWake q s) := by
  have hc : Canonical { s with cur := some q } := (canonical_mk ..).2 h
  unfold Machine.tryOrdbWake
  split
  · exact kept_refused
  · refine kept_ite (fun _ => kept_refused) fun _ => ?_
    have again {o : Out} (ho : Kept o) (same : State → Bool) : Kept (match Machine.eventOf o with
        | .next t => if same t then .refused .idle else .next t
        | o => o : Event) := by
      have he := ho.eventOf
      split
      · rename_i t ht; exact kept_ite (fun _ => kept_refused) fun _ => kept_next.2 (he _ ht)
      · exact he
    simp only []
    split
    · exact Kept.triedAgain _ _ _ (again (Canonical.execOrdb _ hc) _)
    · exact Kept.triedAgain _ _ _ (again (Canonical.execOrde _ hc) _)
    · exact kept_refused

@[simp] theorem Canonical.execOrdbWake q {s : State} (h : Canonical s) :
    Kept (execOrdbWake q s) := by
  simp [Machine.execOrdbWake, h]

@[simp] theorem Canonical.tryBindingReleaseWake (q : PathId) {s : State} (h : Canonical s) :
    Kept (tryBindingReleaseWake q s) := by
  unfold Machine.tryBindingReleaseWake
  split
  · exact kept_refused
  · split
    · refine kept_ite (fun _ => kept_refused) fun _ => ?_
      split
      · exact Kept.triedAgain _ _ _ (Canonical.execMldw _ (h.wakeAs q)).eventOf
      · exact Kept.triedAgain _ _ _ (Canonical.execMlds _ (h.wakeAs q)).eventOf
      · exact kept_refused
    · exact kept_refused

@[simp] theorem Canonical.execBindingReleaseWake q {s : State} (h : Canonical s) :
    Kept (execBindingReleaseWake q s) := by
  simp [Machine.execBindingReleaseWake, h]

@[simp] theorem Canonical.forgetGroup {s : State} (h : Canonical s) gid : Canonical (forgetGroup s gid) := h

@[simp] theorem Canonical.settleContext.saved {s : State} (h : Canonical s) part ctx :
    Canonical (settleContext.saved s part ctx) := by
  simp [Machine.settleContext.saved, h, Canonical.modPart]

@[simp] theorem Canonical.settleContext {s : State} (h : Canonical s) part ctx :
    Canonical (settleContext s part ctx) := by
  unfold Machine.settleContext
  (repeat' split) <;> simp [h]

@[simp] theorem Canonical.reapTeam {s : State} (h : Canonical s) tid : Canonical (reapTeam s tid) := by
  unfold Machine.reapTeam
  split <;> simp [h]

@[simp] theorem Canonical.returnUnits {s : State} (h : Canonical s) tid : Canonical (returnUnits s tid) := by
  unfold Machine.returnUnits
  split <;> simp [h]

@[simp] theorem Canonical.endTeam {s : State} (h : Canonical s) tid t :
    Canonical (endTeam s tid t) := by
  grind [Machine.endTeam, Canonical.modTeam, Canonical.freeWeights, Canonical.publishAt, Canonical.settleContext,
    Canonical.reapTeam, Canonical.returnUnits]

@[simp] theorem Canonical.freeGroup {s : State} (h : Canonical s) gid g :
    Canonical (freeGroup s gid g) := by
  grind [Machine.freeGroup, Canonical.modTeam, Canonical.forgetGroup, Canonical.modGroup, Canonical.endTeam]

@[simp] theorem Canonical.breakLatches {s : State} (h : Canonical s) (gid : Nat) (g : Group) :
    Canonical (breakLatches s gid g) := by
  unfold Machine.breakLatches
  simp only []
  split
  · exact h
  · refine Canonical.foldl (fun _ _ ht => Canonical.foldl (fun _ _ hu => ?_) _ (ht.modLatch ..)) _ h
    split
    · exact canonical_ite (fun _ => hu.takeTrap ..) fun _ => hu
    · exact hu

@[simp] theorem Canonical.tryGroupEnd (gid : Nat) {s : State} (h : Canonical s) : Kept (tryGroupEnd gid s) := by
  unfold Machine.tryGroupEnd
  split
  · exact kept_refused
  · split
    · exact kept_refused
    · refine kept_ite (fun _ => kept_ite (fun _ => kept_refused) fun _ => kept_next.2 (h.freeGroup ..)) fun _ => ?_
      exact kept_ite (fun _ => kept_refused) fun _ => kept_next.2 (((h.setGroup ..).breakLatches ..).freeGroup ..)

@[simp] theorem Canonical.execGroupEnd gid {s : State} (h : Canonical s) :
    Kept (execGroupEnd gid s) := by
  simp [Machine.execGroupEnd, h]

@[simp] theorem Canonical.physPublish {s : State} (h : Canonical s) pa n v :
    Canonical (physPublish s pa n v).2 := by
  simp +contextual [Machine.physPublish, h, Canonical.publish]

@[simp] theorem Canonical.ringWrite {s : State} (h : Canonical s) (part : Nat) (rs : List Nat) :
    Canonical (ringWrite s part rs) := by
  induction rs generalizing s with
  | nil => exact h
  | cons r rest ih => exact ih (Canonical.modPart (h.physPublish ..) _ _)

@[simp] theorem Canonical.signalServicer {s : State} (h : Canonical s) part :
    Canonical (signalServicer s part) := by
  simp [Machine.signalServicer, h]

@[simp] theorem Canonical.tryFaultBatchEnterRing (part : Nat) {s : State} (h : Canonical s) :
    Kept (tryFaultBatchEnterRing part s) := by
  unfold Machine.tryFaultBatchEnterRing
  simp only []
  split
  · exact kept_refused
  · exact kept_ite (fun _ => kept_refused) fun _ => kept_next.2 (Canonical.signalServicer (Canonical.modPart
    (h.ringWrite ..) _ _) _)

@[simp] theorem Canonical.execFaultBatchEnterRing part {s : State} (h : Canonical s) :
    Kept (execFaultBatchEnterRing part s) := by
  simp [Machine.execFaultBatchEnterRing, h]

@[simp] theorem Canonical.leaveLatches {s : State} (h : Canonical s) tid gid : Canonical (leaveLatches s tid gid) := h

@[simp] theorem Canonical.saveGroup {s : State} (h : Canonical s) part ctx gid u g :
    Canonical (saveGroup s part ctx gid u g) := by
  grind [Machine.saveGroup, Canonical.writeGroupFrame, Canonical.takeUnits, Canonical.leaveLatches, Canonical.setGroup]

@[simp] theorem Canonical.tryGroupFaultSave gid {s : State} (h : Canonical s) : Kept (tryGroupFaultSave gid s) := by
  unfold Machine.tryGroupFaultSave
  (repeat' split) <;> simp [h]

@[simp] theorem Canonical.execGroupFaultSave gid {s : State} (h : Canonical s) :
    Kept (execGroupFaultSave gid s) := by
  simp [Machine.execGroupFaultSave, h]

@[simp] theorem Canonical.loadGroup {s : State} (h : Canonical s) part gid place g :
    Canonical (loadGroup s part gid place g) := by
  unfold Machine.loadGroup
  split <;> simp [h]

@[simp] theorem Canonical.tryGroupRestore gid {s : State} (h : Canonical s) : Kept (tryGroupRestore gid s) := by
  unfold Machine.tryGroupRestore
  (repeat' split) <;> simp [h]

@[simp] theorem Canonical.execGroupRestore gid {s : State} (h : Canonical s) :
    Kept (execGroupRestore gid s) := by
  simp [Machine.execGroupRestore, h]

@[simp] theorem Canonical.windowOr {s : State} (h : Canonical s) part off value {body : State}
    (hbody : Canonical body) adapter :
    Canonical (windowOr s part off value body adapter) := by
  simp [Machine.windowOr, h, hbody]

@[simp] theorem Canonical.execFaultReleaseReplay part seq {s : State} (h : Canonical s) :
    Kept (execFaultReleaseReplay part seq s) := by
  simp [Machine.execFaultReleaseReplay, h]

@[simp] theorem Canonical.execFaultReleaseFail part seq {s : State} (h : Canonical s) :
    Kept (execFaultReleaseFail part seq s) := by
  simp [Machine.execFaultReleaseFail, h]

@[simp] theorem Canonical.execFaultqConfigWrite part size value {s : State} (h : Canonical s) :
    Kept (execFaultqConfigWrite part size value s) := by
  simp [Machine.execFaultqConfigWrite, h]

@[simp] theorem Canonical.invWrite {s : State} (h : Canonical s) part cmd op {body : State} (hbody : Canonical body) :
    Canonical (invWrite s part cmd op body) := by
  simp [Machine.invWrite, h, hbody]

@[simp] theorem Canonical.execInvRange part cmd {s : State} (h : Canonical s) :
    Kept (execInvRange part cmd s) := by
  simp [Machine.execInvRange, h]

@[simp] theorem Canonical.execInvContext part cmd {s : State} (h : Canonical s) :
    Kept (execInvContext part cmd s) := by
  simp [Machine.execInvContext, h]

@[simp] theorem Canonical.execInvAll part cmd {s : State} (h : Canonical s) :
    Kept (execInvAll part cmd s) := by
  simp [Machine.execInvAll, h]

@[simp] theorem Canonical.execInvReserved part cmd {s : State} (h : Canonical s) :
    Kept (execInvReserved part cmd s) := by
  simp [Machine.execInvReserved, h]

@[simp] theorem Canonical.flushCaches {s : State} (h : Canonical s) (part : Nat) : Canonical (flushCaches s part) :=
  Canonical.l2Flush (Canonical.foldl (fun _ _ ht => ht.coreDrop ..) _ h) _

@[simp] theorem Canonical.invFlushHead {s : State} (h : Canonical s) part : Canonical (invFlushHead s part) := by
  unfold Machine.invFlushHead
  (repeat' split) <;> simp [h, Canonical.modPart]

@[simp] theorem Canonical.tryInvFlush part {s : State} (h : Canonical s) : Kept (tryInvFlush part s) := by
  unfold Machine.tryInvFlush
  split <;> simp [h]

@[simp] theorem Canonical.execInvFlush part {s : State} (h : Canonical s) :
    Kept (execInvFlush part s) := by
  simp [Machine.execInvFlush, h]

@[simp] theorem Canonical.invPopHead {s : State} (h : Canonical s) part : Canonical (invPopHead s part) := h

@[simp] theorem Canonical.tryInvCommandComplete part {s : State} (h : Canonical s) :
    Kept (tryInvCommandComplete part s) := by
  unfold Machine.tryInvCommandComplete
  split <;> simp [h]

@[simp] theorem Canonical.execInvCommandComplete part {s : State} (h : Canonical s) :
    Kept (execInvCommandComplete part s) := by
  simp [Machine.execInvCommandComplete, h]

@[simp] theorem Canonical.tryQpLimitWrite cluster queue value {s : State} (h : Canonical s) :
    Kept (tryQpLimitWrite cluster queue value s) := by
  unfold Machine.tryQpLimitWrite
  split <;> simp [h]

@[simp] theorem Canonical.execQpLimitWrite cluster queue value {s : State} (h : Canonical s) :
    Kept (execQpLimitWrite cluster queue value s) := by
  simp [Machine.execQpLimitWrite, h]

@[simp] theorem Canonical.trySqDoorbell part queue tail {s : State} (h : Canonical s) :
    Kept (trySqDoorbell part queue tail s) := by
  unfold Machine.trySqDoorbell
  split <;> simp [h]

@[simp] theorem Canonical.execSqDoorbell part queue tail {s : State} (h : Canonical s) :
    Kept (execSqDoorbell part queue tail s) := by
  simp [Machine.execSqDoorbell, h]

@[simp] theorem Canonical.trySqCtlWrite part queue value {s : State} (h : Canonical s) :
    Kept (trySqCtlWrite part queue value s) := by
  unfold Machine.trySqCtlWrite
  split <;> simp [h]

@[simp] theorem Canonical.execSqCtlWrite part queue value {s : State} (h : Canonical s) :
    Kept (execSqCtlWrite part queue value s) := by
  simp [Machine.execSqCtlWrite, h]

@[simp] theorem Canonical.trySqBaseWrite part queue value {s : State} (h : Canonical s) :
    Kept (trySqBaseWrite part queue value s) := by
  unfold Machine.trySqBaseWrite
  split <;> simp [h]

@[simp] theorem Canonical.execSqBaseWrite part queue value {s : State} (h : Canonical s) :
    Kept (execSqBaseWrite part queue value s) := by
  simp [Machine.execSqBaseWrite, h]

@[simp] theorem Canonical.recordDone {s : State} (h : Canonical s) part q index ids :
    Canonical (recordDone s part q index ids) :=
  h

@[simp] theorem Canonical.recordRefused {s : State} (h : Canonical s) part q index reason :
    Canonical (recordRefused s part q index reason) :=
  h

@[simp] theorem Canonical.setRecord {s : State} (h : Canonical s) part q index r :
    Canonical (setRecord s part q index r) :=
  h

@[simp] theorem Canonical.takeRecord {s : State} (h : Canonical s) part q i ctx rec :
    Canonical (takeRecord s part q i ctx rec) := by
  unfold Machine.takeRecord
  split <;> simp [h]

@[simp] theorem Canonical.tryHostRecordFetch (part queue : Nat) {s : State} (h : Canonical s) :
    Kept (tryHostRecordFetch part queue s) := by
  unfold Machine.tryHostRecordFetch
  simp only []
  generalize hs : Machine.modSq _ part queue _ = s1
  have h1 : Canonical s1 := hs ▸ (h.ctxWakes ..).modSq ..
  refine kept_ite (fun _ => kept_refused) fun _ => kept_ite (fun _ => kept_next.2 h1) fun _ => ?_
  split
  · exact kept_next.2 (h1.recordRefused ..)
  · exact kept_ite (fun _ => kept_next.2 ((h1.l2Asked ..).recordRefused ..)) fun _ => kept_next.2 ((h1.l2Asked
    ..).takeRecord ..)

@[simp] theorem Canonical.execHostRecordFetch part queue {s : State} (h : Canonical s) :
    Kept (execHostRecordFetch part queue s) := by
  simp [Machine.execHostRecordFetch, h]

@[simp] theorem Canonical.cardFault {s : State} (h : Canonical s) part q i ctx addr gs :
    Kept (cardFault s part q i ctx addr gs) := by
  unfold Machine.cardFault
  split <;> simp [h]

@[simp] theorem Canonical.pickCluster {s : State} (h : Canonical s) part :
    Canonical (pickCluster s part).2 := by
  simp [Machine.pickCluster, h]

@[simp] theorem Canonical.enterCard {s : State} (h : Canonical s) (part q i ctx : Nat) (bs : List Byte) :
    Canonical (enterCard s part q i ctx bs) := by
  simp only [Machine.enterCard]
  exact canonical_ite (fun _ => h.recordRefused ..) fun _ =>
    Canonical.setRecord (Canonical.learn ((canonical_mk ..).2 (h.pickCluster _)) ..) ..

@[simp] theorem Canonical.tryHostJobCardRecord part queue index {s : State} (h : Canonical s) :
    Kept (tryHostJobCardRecord part queue index s) := by
  simp only [Machine.tryHostJobCardRecord]
  (repeat' split) <;> simp [h]

@[simp] theorem Canonical.execHostJobCardRecord part queue index {s : State} (h : Canonical s) :
    Kept (execHostJobCardRecord part queue index s) := by
  simp [Machine.execHostJobCardRecord, h]

@[simp] theorem Canonical.tryWaitRecordComplete part queue index {s : State} (h : Canonical s) :
    Kept (tryWaitRecordComplete part queue index s) := by
  unfold Machine.tryWaitRecordComplete
  (repeat' split) <;> simp [h]

@[simp] theorem Canonical.execWaitRecordComplete part queue index {s : State} (h : Canonical s) :
    Kept (execWaitRecordComplete part queue index s) := by
  simp [Machine.execWaitRecordComplete, h]

@[simp] theorem Canonical.nodeReads {s : State} (h : Canonical s) e r : Canonical (nodeReads s e r).2 := by
  simp only [Machine.nodeReads]
  split <;> simp [h]

@[simp] theorem Canonical.verdictOf {s : State} (h : Canonical s) e :
    Canonical (verdictOf s e).2 := by
  grind [Machine.verdictOf, Canonical.nodeReads]

@[simp] theorem Canonical.deliverVerdict {s : State} (h : Canonical s) pend q dst reason :
    Canonical (deliverVerdict s pend q dst reason) := by
  unfold Machine.deliverVerdict
  (repeat' split) <;> simp [h]

@[simp] theorem Canonical.tellSource {s : State} (h : Canonical s) pend src reason node :
    Canonical (tellSource s pend src reason node) := by
  unfold Machine.tellSource
  split <;> simp [h]

@[simp] theorem Canonical.tryNodeEntry (pend : Nat) {s : State} (h : Canonical s) : Kept (tryNodeEntry pend s) := by
  unfold Machine.tryNodeEntry
  split
  · exact kept_refused
  · rename_i e _
    have hv : Canonical { (Machine.verdictOf s e).2 with entries := spDel s.entries pend } := (canonical_mk ..).2
      (h.verdictOf e)
    refine kept_ite (fun _ => kept_refused) fun _ => ?_
    simp only []
    split
    · exact kept_ite (fun _ => kept_refused) fun _ => kept_next.2 ((canonical_mk ..).2 (h.reportBatch ..))
    · exact kept_next.2 ((hv.modPart ..).tellSource ..)
    · exact kept_next.2 (Canonical.tellSource ((canonical_mk ..).2 (hv.modPart ..)) ..)

@[simp] theorem Canonical.execNodeEntry pend {s : State} (h : Canonical s) :
    Kept (execNodeEntry pend s) := by
  simp [Machine.execNodeEntry, h]

@[simp] theorem Canonical.tryNodeReady node {s : State} (h : Canonical s) : Kept (tryNodeReady node s) := by
  unfold Machine.tryNodeReady
  split <;> simp [h]

@[simp] theorem Canonical.execNodeReady node {s : State} (h : Canonical s) :
    Kept (execNodeReady node s) := by
  simp [Machine.execNodeReady, h]

@[simp] theorem Canonical.tryDispatchAgeExpiry node {s : State} (h : Canonical s) :
    Kept (tryDispatchAgeExpiry node s) := by
  unfold Machine.tryDispatchAgeExpiry
  split <;> simp [h]

@[simp] theorem Canonical.execDispatchAgeExpiry node {s : State} (h : Canonical s) :
    Kept (execDispatchAgeExpiry node s) := by
  simp [Machine.execDispatchAgeExpiry, h]

@[simp] theorem Canonical.queueObjects {s : State} (h : Canonical s) n : Canonical (queueObjects s n).2 := by
  simp only [Machine.queueObjects]
  (repeat' split) <;> simp [h]

@[simp] theorem Canonical.placeTeams (nid : Nat) (n : Node) (ch : SMap Channel) {s : State} (h : Canonical s) (i : Nat)
    (ps : List (Nat × List Nat)) : Canonical (placeTeams nid n ch i ps s) := by
  induction ps generalizing s i with
  | nil => exact h
  | cons p r ih => exact ih (h.placeTeam ..) _

@[simp] theorem Canonical.tryTeamPlacement (node : Nat) {s : State} (h : Canonical s) :
    Kept (tryTeamPlacement node s) := by
  unfold Machine.tryTeamPlacement
  split
  · exact kept_refused
  · rename_i n _
    refine kept_ite (fun _ => kept_refused) fun _ => ?_
    split
    · exact kept_refused
    · have hq := h.queueObjects n
      split
      · exact kept_ite (fun _ => kept_refused) fun _ => kept_next.2 ((h.reportBatch ..).modNode ..)
      · rename_i ch s1 hs
        rw [hs] at hq
        exact kept_next.2 ((Canonical.placeTeams _ _ _ hq _ _).modNode ..)

@[simp] theorem Canonical.execTeamPlacement node {s : State} (h : Canonical s) :
    Kept (execTeamPlacement node s) := by
  simp [Machine.execTeamPlacement, h]

@[simp] theorem Canonical.reloadBindings {s : State} (h : Canonical s) (core tid : Nat) (t : Team) :
    Canonical (reloadBindings s core tid t) :=
  Canonical.foldl (fun _ _ hu => canonical_ite (fun _ => (hu.fillSlot4 ..).fillScale ..) fun _ => hu) _ h

@[simp] theorem Canonical.takeBindings {s : State} (h : Canonical s) tid t core :
    Kept (takeBindings s tid t core) := by
  unfold Machine.takeBindings
  split <;> simp [h]

@[simp] theorem Canonical.startReads {s : State} (h : Canonical s) (tid : Nat) (t : Team) :
    Canonical (startReads s tid t) := by
  have h1 : Canonical (t.groups.foldl (fun s g => match getGroup s g with
      | some x => if refillDone x 2 || refillWaits x then s else Machine.payloadStep s g 0 2
      | none => s) s) := by
    refine Canonical.foldl (fun _ _ hu => ?_) _ h
    split
    · exact canonical_ite (fun _ => hu) fun _ => hu.payloadStep ..
    · exact hu
  simp only [Machine.startReads]
  exact canonical_ite (fun _ => Canonical.foldl (fun _ _ hu => hu.modGroup ..) _ (h1.modTeam ..)) fun _ => h1

@[simp] theorem Canonical.startFilled {s : State} (h : Canonical s) n nid gid d :
    Canonical (startFilled s n nid gid d) := by
  simp only [Machine.startFilled]
  split <;> simp [h]

@[simp] theorem Canonical.startGroup tid {s : State} (h : Canonical s) gid : Canonical (startGroup tid s gid) := by
  simp only [Machine.startGroup]
  (repeat' split) <;> simp [h]

@[simp] theorem Canonical.startLanes {s : State} (h : Canonical s) (tid : Nat) (t : Team) (ws : List Nat) (bad : Bool) :
    Canonical (startLanes s tid t ws bad) :=
  Canonical.startReads (Canonical.modTeam (Canonical.foldl (fun _ _ hu => hu.startGroup ..) _
    (Canonical.foldl (fun _ _ hu => hu.modGroup ..) _ h)) _ _) _ _

@[simp] theorem Canonical.unplaceTeam {s : State} (h : Canonical s) tid t batch :
    Canonical (unplaceTeam s tid t batch) := by
  simp [Machine.unplaceTeam, h]

@[simp] theorem Canonical.returnTeam {s : State} (h : Canonical s) (tid : Nat) (t : Team) (n : Node) :
    Kept (returnTeam s tid t n) := by
  unfold Machine.returnTeam
  refine kept_ite (fun _ => kept_refused) fun _ => ?_
  split
  · exact kept_refused
  · refine kept_next.2 (Canonical.modNode (Canonical.foldl (fun _ _ hu => ?_) _ h) _ _)
    split
    · exact hu.settleTeam ..
    · exact hu

@[simp] theorem Canonical.tryTeamStart (team : Nat) {s : State} (h : Canonical s) : Kept (tryTeamStart team s) := by
  unfold Machine.tryTeamStart
  split
  · exact kept_refused
  · rename_i t _
    split
    · refine kept_ite (fun _ => kept_refused) fun _ => kept_ite (fun _ => h.takeBindings _ _ _) fun _ =>
        kept_ite (fun _ => kept_ite (fun _ => kept_refused) fun _ => kept_next.2 (h.startReads ..)) fun _ => ?_
      simp only []
      generalize hs : Machine.modTeam s team _ = s1
      have h1 : Canonical s1 := hs ▸ h.modTeam ..
      refine kept_ite (fun _ => kept_next.2 (h1.startLanes ..)) fun _ => kept_ite (fun _ => kept_next.2
        (h1.startLanes ..)) fun _ => ?_
      split
      · exact kept_next.2 (h1.startLanes ..)
      · exact kept_ite (fun _ => kept_refused) fun _ => kept_next.2 ((h.reportBatch ..).unplaceTeam ..)
      · exact kept_next.2 ((h1.rangeAsked ..).startLanes ..)
    · exact kept_ite (fun _ => kept_refused) fun _ => h.returnTeam _ _ _
    · exact kept_refused

@[simp] theorem Canonical.execTeamStart team {s : State} (h : Canonical s) :
    Kept (execTeamStart team s) := by
  simp [Machine.execTeamStart, h]

@[simp] theorem Canonical.statAdd n {s : State} (h : Canonical s) x : Canonical (statAdd n s x) := by
  unfold Machine.statAdd
  split <;> simp [h]

@[simp] theorem Canonical.emptyBound {s : State} (h : Canonical s) n :
    Canonical (emptyBound s n) := by
  simp +contextual [Machine.emptyBound, h]

@[simp] theorem Canonical.endMember {s : State} (h : Canonical s) st order rs ids :
    Canonical (endMember s st order rs ids) :=
  h

@[simp] theorem Canonical.finishNode {s : State} (h : Canonical s) (nid : Nat) (n : Node) :
    Canonical (finishNode s nid n) := by
  simp only [Machine.finishNode]
  generalize hs : State.mk _ _ _ _ _ _ _ _ _ _ _ _ _ _ _ _ _ _ _ _ _ _ _ _ _ _ _ _ _ _ _ _ _ _ _ _ _ _ _ _ _ _ _ = s2
  have h2 : Canonical s2 := hs ▸ (canonical_mk ..).2 (h.emptyBound _)
  split
  · exact (h2.endMember ..).recordDone ..
  · exact h2
  · exact (h2.endMember ..).modNode ..

@[simp] theorem Canonical.tryNodeComplete (node : Nat) {s : State} (h : Canonical s) :
    Kept (tryNodeComplete node s) := by
  unfold Machine.tryNodeComplete
  split
  · exact kept_refused
  · refine kept_ite (fun _ => kept_refused) fun _ => kept_ite (fun _ => kept_refused) fun _ => ?_
    simp only []
    generalize hs : List.foldl (Machine.statAdd _) s _ = s1
    have h1 : Canonical s1 := hs ▸ Canonical.foldl (fun _ _ hu => hu.statAdd ..) _ h
    exact kept_ite (fun _ => kept_next.2 (h1.finishNode ..)) fun _ => kept_next.2 ((h1.reportBatch ..).modNode ..)

@[simp] theorem Canonical.execNodeComplete node {s : State} (h : Canonical s) :
    Kept (execNodeComplete node s) := by
  simp [Machine.execNodeComplete, h]

@[simp] theorem Canonical.jobSees {s : State} (h : Canonical s) id ls : Canonical (jobSees s id ls) := by
  simp only [Machine.jobSees]
  (repeat' split) <;> simp [h]

@[simp] theorem Canonical.putJob {s : State} (h : Canonical s) id j : Canonical (putJob s id j) := h

def JobStep.Kept : JobStep → Prop
  | .go s _ => Canonical s
  | _ => True

@[simp] theorem Canonical.checkExtents {s : State} (h : Canonical s) (j : Job) : JobStep.Kept (checkExtents s j) := by
  simp only [Machine.checkExtents]
  split
  · exact h
  · split <;> exact h

@[simp] theorem Canonical.jobStart {s : State} (h : Canonical s) (id : Nat) (j : Job) : JobStep.Kept (jobStart s id j) := by
  simp only [Machine.jobStart]
  split
  · split
    · exact h
    · split
      · exact h
      · trivial
      · exact ((h.jobSees ..).readSet ..).checkExtents _
  · exact h.checkExtents _

@[simp] theorem Canonical.tryJobStart (job : Nat) {s : State} (h : Canonical s) : Kept (tryJobStart job s) := by
  unfold Machine.tryJobStart
  split
  · exact kept_refused
  · rename_i j _
    refine kept_ite (fun _ => ?_) fun _ => kept_refused
    have ha : Canonical (if j.team.isSome then s else Machine.ctxWakes s j.part j.ctx) :=
      canonical_ite (fun _ => h) fun _ => h.ctxWakes ..
    simp only []
    split
    · rename_i s1 j1 ht
      exact kept_next.2 (Canonical.putJob (ht ▸ (ha.learn ..).jobStart .. : JobStep.Kept (.go s1 j1)) ..)
    · exact kept_refused

@[simp] theorem Canonical.execJobStart job {s : State} (h : Canonical s) :
    Kept (execJobStart job s) := by
  simp [Machine.execJobStart, h]

@[simp] theorem Canonical.chunkFrames (id : Nat) (j : Job) (fmt total : Nat) {s : State} (h : Canonical s) (k off want : Nat)
    (lost : Bool) : ∀ c, chunkFrames id j fmt total s k off want lost = .inr c → Canonical c.2 := by
  induction k generalizing s off want lost with
  | zero => rintro _ ⟨⟩; exact h
  | succ k ih =>
    intro c hc
    simp only [Machine.chunkFrames] at hc
    split at hc
    · cases hc; exact h
    split at hc
    · cases hc; exact h
    split at hc
    · rename_i ls _
      have hd := (h.jobSees id ls).readAllMarks (.job id) ls
      split at hc
      · cases hc; exact hd
      split at hc
      · cases hc; exact hd
      split at hc
      · rename_i fs _
        have hq := (h.jobSees id fs).readAllMarks (.job id) fs
        split at hc
        · cases hc; exact hq
        split at hc
        · cases hc
        · rename_i c1 hc1; rw [Sum.inr.injEq] at hc; subst hc; exact ih hq _ _ _ c1 hc1
      · cases hc
    · cases hc

@[simp] theorem Canonical.modShare {s : State} (h : Canonical s) part n seq f :
    Canonical (modShare s part n seq f) :=
  h

@[simp] theorem Canonical.subPending {s : State} (h : Canonical s) id j n : Canonical (subPending s id j n) := by
  simp only [Machine.subPending]
  (repeat' split) <;> simp [h]

@[simp] theorem Canonical.spadRow {s : State} (h : Canonical s) (tid id : Nat) (j : Job) (a : Nat) (bs : List Byte)
    (bad : List Bool) : Canonical (spadRow s tid id j a bs bad) :=
  Canonical.modTeam (Canonical.foldl (fun _ _ hu => hu.spadPut ..) _ h) _ _

@[simp] theorem Canonical.engineWrite {s : State} (h : Canonical s) (ag : Agent) (rels : List RelInfo) (ls : List LaneLoc)
    (bs : List Byte) (bad : List Bool) : Canonical (engineWrite s ag rels ls bs bad) := by
  induction ls generalizing s bs bad with
  | nil => exact h
  | cons l r ih => exact ih (Canonical.foldl (fun _ _ hu => hu.storeBytes ..) _ h) _ _

def UnitData.Kept : UnitData → Prop
  | .data _ _ _ _ _ s => Canonical s
  | _ => True

@[simp] theorem Canonical.readPieces {s : State} (h : Canonical s) (id : Nat) (j : Job) (ps : List (Nat × Nat)) :
    UnitData.Kept (readPieces s id j ps) := by
  unfold Machine.readPieces
  split
  · trivial
  · trivial
  · exact (h.jobSees ..).readAllMarks ..

@[simp] theorem Canonical.readSpad {s : State} (h : Canonical s) (id : Nat) (j : Job) (a n : Nat) :
    UnitData.Kept (readSpad s id j a n) := by
  unfold Machine.readSpad
  split
  · split
    · exact h.spadSeen ..
    · trivial
  · trivial

@[simp] theorem Canonical.decompressUnit {s : State} (h : Canonical s) (id : Nat) (j : Job) :
    UnitData.Kept (decompressUnit s id j) := by
  simp only [Machine.decompressUnit]
  split
  · trivial
  · split
    · trivial
    · trivial
    · trivial
    · rename_i c t ht
      have h1 : Canonical t := Canonical.chunkFrames _ _ _ _ h _ _ _ _ _ ht
      split
      · trivial
      · exact h1

@[simp] theorem Canonical.unitData {s : State} (h : Canonical s) (id : Nat) (j : Job) : UnitData.Kept (unitData s id j) := by
  simp only [Machine.unitData]
  split
  · exact h.decompressUnit ..
  · split
    · exact h
    · split
      · exact h.readPieces ..
      · split
        · exact h.readSpad ..
        · exact h.readPieces ..

@[simp] theorem Canonical.writeUnit (s : State) {t : State} (h : Canonical t) (id : Nat) (j : Job) (bs : List Byte)
    (bad : List Bool) (off n st : Nat) : JobStep.Kept (writeUnit s t id j bs bad off n st) := by
  simp only [Machine.writeUnit]
  split
  · exact (h.spadRow ..).subPending ..
  · split
    · exact h
    · trivial
    · exact ((h.jobSees ..).engineWrite ..).subPending ..

@[simp] theorem Canonical.reduceUnit {s : State} (h : Canonical s) (id : Nat) (j : Job) : JobStep.Kept (reduceUnit s id j) := by
  simp only [Machine.reduceUnit]
  split
  · split
    · trivial
    · exact h
    · rename_i bs bad o n st t ht
      exact Canonical.modShare (ht ▸ h.unitData .. : UnitData.Kept (.data bs bad o n st t)) ..
  · split
    · trivial
    · exact h.writeUnit ..

@[simp] theorem Canonical.jobUnit {s : State} (h : Canonical s) (id : Nat) (j : Job) : JobStep.Kept (jobUnit s id j) := by
  unfold Machine.jobUnit
  split
  · exact h
  · split
    · trivial
    · split
      · exact h
      · split
        · exact h.reduceUnit ..
        · split
          · trivial
          · exact h
          · rename_i bs bad o n st t ht
            exact Canonical.writeUnit _ (ht ▸ h.unitData .. : UnitData.Kept (.data bs bad o n st t)) ..

@[simp] theorem Canonical.tryJobCommitUnit (job : Nat) {s : State} (h : Canonical s) :
    Kept (tryJobCommitUnit job s) := by
  unfold Machine.tryJobCommitUnit
  split
  · exact kept_refused
  · refine kept_ite (fun _ => ?_) fun _ => kept_refused
    split
    · rename_i s1 j1 ht; exact kept_next.2 (Canonical.putJob (ht ▸ h.jobUnit .. : JobStep.Kept (.go s1 j1)) ..)
    · exact kept_refused

@[simp] theorem Canonical.execJobCommitUnit job {s : State} (h : Canonical s) :
    Kept (execJobCommitUnit job s) := by
  simp [Machine.execJobCommitUnit, h]

@[simp] theorem Canonical.jobFlag {s : State} (h : Canonical s) id j : Canonical (jobFlag s id j) := by
  unfold Machine.jobFlag
  (repeat' split) <;> simp [h]

@[simp] theorem Canonical.endTeamJob {s : State} (h : Canonical s) (tid id : Nat) (j : Job) (status : Nat) (ids : List Nat) :
    Canonical (endTeamJob s tid id j status ids) := by
  simp only [Machine.endTeamJob]
  refine Canonical.reapTeam (Canonical.returnUnits (canonical_ite (fun _ => Canonical.modPart ?_ _ _) fun _ => ?_) _)
    _ <;>
    exact (canonical_mk ..).2 (Canonical.modTeam ((canonical_mk ..).2 h) _ _)

@[simp] theorem Canonical.completeJob {s : State} (h : Canonical s) (id : Nat) (j : Job) (status : Nat) :
    Canonical (completeJob s id j status) := by
  have h2 := ((h.subPending id j (j.card.declared - j.counted)).jobFlag id j).endMember j.stream j.order j.card.regions
    (getKnow s (.job id)).released
  simp only [Machine.completeJob]
  generalize hs : Machine.forget _ (.job id) = s4
  have h4 : Canonical s4 := hs ▸ Canonical.forget (canonical_ite (fun _ => h2.modShare ..) fun _ => h2) _
  split
  · exact h4.endTeamJob ..
  · split
    · exact Canonical.recordDone ((canonical_mk ..).2 h4) ..
    · exact (canonical_mk ..).2 h4

@[simp] theorem Canonical.jobFinish {s : State} (h : Canonical s) (id : Nat) (j : Job) :
    ∀ t, jobFinish s id j = .inr t → Canonical t := by
  intro t ht
  unfold Machine.jobFinish at ht
  generalize (if j.status = 0 then 1 else j.status) = status at ht
  simp only [] at ht
  split at ht
  · cases ht; exact h.completeJob ..
  · split at ht
    · cases ht; exact h.completeJob ..
    · cases ht
    · cases ht; exact (h.engineWrite ..).completeJob ..

@[simp] theorem Canonical.tryJobFaultSuspend job {s : State} (h : Canonical s) : Kept (tryJobFaultSuspend job s) := by
  unfold Machine.tryJobFaultSuspend
  (repeat' split) <;> simp [h]

@[simp] theorem Canonical.execJobFaultSuspend job {s : State} (h : Canonical s) :
    Kept (execJobFaultSuspend job s) := by
  simp [Machine.execJobFaultSuspend, h]

@[simp] theorem Canonical.tryJobResume job {s : State} (h : Canonical s) : Kept (tryJobResume job s) := by
  unfold Machine.tryJobResume
  (repeat' split) <;> simp [h]

@[simp] theorem Canonical.execJobResume job {s : State} (h : Canonical s) :
    Kept (execJobResume job s) := by
  simp [Machine.execJobResume, h]

@[simp] theorem Canonical.tryJobComplete (job : Nat) {s : State} (h : Canonical s) : Kept (tryJobComplete job s) := by
  unfold Machine.tryJobComplete
  split
  · exact kept_refused
  · refine kept_ite (fun _ => ?_) fun _ => kept_refused
    split
    · exact kept_next.2 (h.jobFinish _ _ _ ‹_›)
    · exact kept_refused

@[simp] theorem Canonical.execJobComplete job {s : State} (h : Canonical s) :
    Kept (execJobComplete job s) := by
  simp [Machine.execJobComplete, h]

@[simp] theorem Canonical.tryContextPreempt part ctx {s : State} (h : Canonical s) :
    Kept (tryContextPreempt part ctx s) := by
  unfold Machine.tryContextPreempt
  split <;> simp [h, Canonical.modPart]

@[simp] theorem Canonical.execContextPreempt part ctx {s : State} (h : Canonical s) :
    Kept (execContextPreempt part ctx s) := by
  simp [Machine.execContextPreempt, h]

@[simp] theorem Canonical.tryBudgetExpiry core ctx {s : State} (h : Canonical s) :
    Kept (tryBudgetExpiry core ctx s) := by
  simp [Machine.tryBudgetExpiry, h, Canonical.modPart]

@[simp] theorem Canonical.execBudgetExpiry core ctx {s : State} (h : Canonical s) :
    Kept (execBudgetExpiry core ctx s) := by
  simp [Machine.execBudgetExpiry, h]

@[simp] theorem Canonical.tryDrainWindowExpiry part ctx {s : State} (h : Canonical s) :
    Kept (tryDrainWindowExpiry part ctx s) := by
  unfold Machine.tryDrainWindowExpiry
  (repeat' split) <;> simp [h, Canonical.modPart]

@[simp] theorem Canonical.execDrainWindowExpiry part ctx {s : State} (h : Canonical s) :
    Kept (execDrainWindowExpiry part ctx s) := by
  simp [Machine.execDrainWindowExpiry, h]

@[simp] theorem Canonical.tryDeadlineExpiry part ctx {s : State} (h : Canonical s) :
    Kept (tryDeadlineExpiry part ctx s) := by
  unfold Machine.tryDeadlineExpiry
  split <;> simp [h]

@[simp] theorem Canonical.execDeadlineExpiry part ctx {s : State} (h : Canonical s) :
    Kept (execDeadlineExpiry part ctx s) := by
  simp [Machine.execDeadlineExpiry, h]

@[simp] theorem Canonical.addRedirect {s : State} (h : Canonical s) (tid : Nat) (t : Team) :
    ∀ u, addRedirect s tid t = some u → Canonical u := by
  intro u hu
  simp only [Machine.addRedirect] at hu
  split at hu
  · cases hu; exact h
  · split at hu
    · cases hu
    · cases hu; exact h.modPart ..

@[simp] theorem Canonical.saveGroups (part ctx : Nat) {s : State} (h : Canonical s) (gs : List (Nat × Group)) :
    ∀ u, saveGroups part ctx gs s = some u → Canonical u := by
  delta Machine.saveGroups Machine.saveGroups._f
  -- The search is made opaque: the kernel would compute with its division by 2 ^ 17.
  obtain ⟨find, hf⟩ : ∃ f, f = Machine.findUnits := ⟨_, rfl⟩
  rw [← hf]
  induction gs generalizing s with
  | nil => rintro _ ⟨⟩; exact h
  | cons x r ih =>
    intro u hu
    dsimp only at hu
    split at hu
    · cases hu
    · exact ih (h.saveGroup ..) u hu

@[simp] theorem Canonical.writeTeamFrame {s : State} (h : Canonical s) t addr frames :
    Canonical (writeTeamFrame s t addr frames) := by
  simp [Machine.writeTeamFrame, h, Canonical.bulkWrite]

@[simp] theorem Canonical.noteSaved {s : State} (h : Canonical s) tid t addr bufs :
    Canonical (noteSaved s tid t addr bufs) := by
  grind [Machine.noteSaved, Canonical.setCtxBits, Canonical.modTeam]

@[simp] theorem Canonical.saveTeam {s : State} (h : Canonical s) (tid : Nat) (t : Team) (bufs : List (Nat × List QBuf)) :
    ∀ u, saveTeam s tid t bufs = some u → Canonical u := by
  unfold Machine.saveTeam
  obtain ⟨find, hf⟩ : ∃ f, f = Machine.findUnits := ⟨_, rfl⟩
  obtain ⟨save, hgs⟩ : ∃ f, f = Machine.saveGroups := ⟨_, rfl⟩
  rw [← hf, ← hgs]
  intro u hu
  dsimp only at hu
  split at hu
  · cases hu
  · rename_i s1 h1
    have hs1 : Canonical s1 := (h.publishAt ..).addRedirect _ _ _ h1
    split at hu
    · cases hu
    · rename_i s2 h2
      have hs2 : Canonical s2 := hs1.saveGroups _ _ _ _ (hgs ▸ h2)
      split at hu
      · rw [Option.some.injEq] at hu
        rw [← hu]
        refine Canonical.noteSaved (Canonical.freeWeights (canonical_ite (fun _ => ?_) fun _ => ?_) _ _) ..
        · exact (hs2.takeUnits ..).writeTeamFrame ..
        · exact ((hs2.takeUnits ..).writeTeamFrame ..).bulkWrite ..
      · cases hu

@[simp] theorem Canonical.saveTeams {s : State} (h : Canonical s) (ts : List (Nat × Team)) (bufs : List (Nat × List QBuf)) :
    ∀ u, saveTeams ts bufs s = some u → Canonical u := by
  induction ts generalizing s bufs with
  | nil => rintro _ ⟨⟩; exact h
  | cons t r ih =>
    intro u hu
    unfold Machine.saveTeams at hu
    split at hu
    · cases hu
    · rename_i s1 h1; exact ih (h.saveTeam _ _ _ _ h1) _ _ hu

@[simp] theorem Canonical.saveWhole {s : State} (h : Canonical s) (set : List (Nat × Team)) (byWait : Bool) :
    ∀ u, saveWhole s set byWait = some u → Canonical u := by
  intro u hu
  unfold Machine.saveWhole at hu
  split at hu
  · cases hu
  · simp only [] at hu
    split at hu
    · cases hu
    · rename_i s1 h1
      have hs1 : Canonical s1 := h.saveTeams _ _ _ h1
      cases hu
      refine Canonical.settleContext (Canonical.foldl (fun _ _ ht => ht.modTeam ..) _ ?_) ..
      split
      · exact hs1.emptyQueues ..
      · exact hs1

@[simp] theorem Canonical.tryTeamSave (team : Nat) {s : State} (h : Canonical s) : Kept (tryTeamSave team s) := by
  unfold Machine.tryTeamSave
  split
  · exact kept_refused
  · simp only []
    refine kept_ite (fun _ => kept_refused) fun _ => ?_
    split
    · rename_i s1 hs
      split at hs
      · exact kept_next.2 (h.saveWhole _ _ _ hs)
      · cases hs
    · exact kept_ite (fun _ => kept_refused) fun _ => kept_next.2 (Canonical.foldl (fun _ _ ht => ht.modTeam ..) _ h)

@[simp] theorem Canonical.execTeamSave team {s : State} (h : Canonical s) :
    Kept (execTeamSave team s) := by
  simp [Machine.execTeamSave, h]

@[simp] theorem Canonical.tryContextReset part ctx reason rcause {s : State} (h : Canonical s) :
    Kept (tryContextReset part ctx reason rcause s) := by
  simp [Machine.tryContextReset, h]

@[simp] theorem Canonical.execContextReset part ctx reason rcause {s : State} (h : Canonical s) :
    Kept (execContextReset part ctx reason rcause s) := by
  simp [Machine.execContextReset, h]

@[simp] theorem Canonical.loadGroups (part core : Nat) {s : State} (h : Canonical s) (gs sls : List Nat) :
    Canonical (loadGroups part core gs sls s) := by
  induction gs generalizing s sls with
  | nil => unfold Machine.loadGroups; exact h
  | cons g r ih =>
    cases sls with
    | nil => unfold Machine.loadGroups; exact h
    | cons sl q =>
      unfold Machine.loadGroups
      refine ih ?_ _
      split
      · exact h.loadGroup ..
      · exact h

@[simp] theorem Canonical.pushBack {s : State} (h : Canonical s) cluster bufs :
    Canonical (pushBack s cluster bufs) := by
  simp +contextual [Machine.pushBack, h]

@[simp] theorem Canonical.moveRows {s : State} (h : Canonical s) gids cluster part ctx :
    Canonical (moveRows s gids cluster part ctx) := by
  simp +contextual [Machine.moveRows, h]

@[simp] theorem Canonical.freshCode {s : State} (h : Canonical s) part ctx gids ids :
    Canonical (freshCode s part ctx gids ids) := by
  simp +contextual [Machine.freshCode, h]

@[simp] theorem Canonical.dropDicts {s : State} (h : Canonical s) core part ctx :
    Canonical (dropDicts s core part ctx) :=
  h

@[simp] theorem Canonical.unlistSaved {s : State} (h : Canonical s) part ctx :
    Canonical (unlistSaved s part ctx) := by
  simp [Machine.unlistSaved, h]

@[simp] theorem Canonical.restoreTeam {s : State} (h : Canonical s) (tid : Nat) (t : Team) (core : Nat) (slots : List Nat) :
    Canonical (restoreTeam s tid t core slots) := by
  simp only [Machine.restoreTeam]
  generalize hs2 : Machine.loadGroups t.part core _ slots _ = s2
  have h2 : Canonical s2 := hs2 ▸ Canonical.loadGroups _ _ (((h.freeUnits ..).modTeam ..).takeSram ..) _ _
  refine Canonical.modPart (Canonical.ctxRuns (Canonical.unlistSaved (Canonical.modNode (Canonical.moveRows
    (Canonical.freshCode (Canonical.dropDicts (Canonical.pushBack ?_ _ _) _ _ _) _ _ _ _) _ _ _ _) _ _) _ _) _ _) _ _
  refine canonical_ite (fun _ => ?_) fun _ => h2
  split
  · rename_i u hu; exact h2.takeBindings _ _ _ _ hu
  · exact h2

@[simp] theorem Canonical.restoreTeams {s : State} (h : Canonical s) (ts : List (Nat × Team)) (ps : List (Nat × List Nat)) :
    Canonical (restoreTeams ts ps s) := by
  induction ts generalizing s ps with
  | nil => unfold Machine.restoreTeams; exact h
  | cons t r ih =>
    cases ps with
    | nil => unfold Machine.restoreTeams; exact h
    | cons p q => exact ih (h.restoreTeam ..) _

@[simp] theorem Canonical.tryTeamRestore team {s : State} (h : Canonical s) : Kept (tryTeamRestore team s) := by
  unfold Machine.tryTeamRestore
  (repeat' split) <;> simp [h]

@[simp] theorem Canonical.execTeamRestore team {s : State} (h : Canonical s) :
    Kept (execTeamRestore team s) := by
  simp [Machine.execTeamRestore, h]

@[simp] theorem Canonical.execDbgHalt part {s : State} (h : Canonical s) :
    Kept (execDbgHalt part s) := by
  simp [Machine.execDbgHalt, h]

@[simp] theorem Canonical.execDbgResume part {s : State} (h : Canonical s) :
    Kept (execDbgResume part s) := by
  simp [Machine.execDbgResume, h]

@[simp] theorem Canonical.execDbgSingleClause part {s : State} (h : Canonical s) :
    Kept (execDbgSingleClause part s) := by
  simp [Machine.execDbgSingleClause, h]

@[simp] theorem Canonical.tryNcallTileDispatch cluster ctx handle {s : State} (h : Canonical s) :
    Kept (tryNcallTileDispatch cluster ctx handle s) := by
  unfold Machine.tryNcallTileDispatch
  (repeat' split) <;> simp [h]

@[simp] theorem Canonical.execNcallTileDispatch cluster ctx handle {s : State} (h : Canonical s) :
    Kept (execNcallTileDispatch cluster ctx handle s) := by
  simp [Machine.execNcallTileDispatch, h]

@[simp] theorem Canonical.tryFlushWindowExpiry cluster ctx handle {s : State} (h : Canonical s) :
    Kept (tryFlushWindowExpiry cluster ctx handle s) := by
  unfold Machine.tryFlushWindowExpiry
  (repeat' split) <;> simp [h]

@[simp] theorem Canonical.execFlushWindowExpiry cluster ctx handle {s : State} (h : Canonical s) :
    Kept (execFlushWindowExpiry cluster ctx handle s) := by
  simp [Machine.execFlushWindowExpiry, h]

@[simp] theorem Canonical.rowDone {s : State} (h : Canonical s) r vals bad err :
    Canonical (rowDone s r vals bad err) := by
  simp [Machine.rowDone, h]

@[simp] theorem Canonical.tileFailed {s : State} (h : Canonical s) o rows :
    Canonical (tileFailed s o rows) := by
  simp +contextual [Machine.tileFailed, h]

@[simp] theorem Canonical.fillWord {s : State} (h : Canonical s) kind cmp w : Canonical (fillWord s kind cmp w).2 := by
  unfold Machine.fillWord
  (repeat' split) <;> simp [h]

@[simp] theorem Canonical.lineNow {s : State} (h : Canonical s) l :
    Canonical (lineNow s l).2 := by
  simp +contextual [Machine.lineNow, h]

@[simp] theorem Canonical.canisterFill {s : State} (h : Canonical s) cluster part ctx l :
    Canonical (canisterFill s cluster part ctx l) := by
  grind [Machine.canisterFill, Canonical.lineNow, Canonical.modCluster, Canonical.askSet]

@[simp] theorem Canonical.mixLine {s : State} (h : Canonical s) (old now : CanLine) (o n : Nat) :
    Canonical (mixLine s old now o n).2 := by
  refine canonical_foldl_snd h fun a i ha => ?_
  simp only [apply_ite Prod.snd, ite_self]
  exact canonical_ite (fun _ => ha) fun _ => ha.choose

@[simp] theorem Canonical.canisterTouch {s : State} (h : Canonical s) cluster part ctx l :
    Canonical (canisterTouch s cluster part ctx l) := by
  grind [Machine.canisterTouch, Canonical.canisterFill, Canonical.lineNow, Canonical.mixLine, Canonical.modCluster]

@[simp] theorem Canonical.tileNaN {s : State} (h : Canonical s) rows bad err :
    Canonical (tileNaN s rows bad err) := by
  simp +contextual [Machine.tileNaN, h]

@[simp] theorem Canonical.tileRow w ds bad {s : State} (h : Canonical s) r : Canonical (tileRow w ds bad s r) := by
  unfold Machine.tileRow
  split <;> simp [h]

@[simp] theorem Canonical.finishTile {s : State} (h : Canonical s) id t w desc data :
    Canonical (finishTile s id t w desc data) := by
  unfold Machine.finishTile
  (repeat' split) <;> simp +contextual [h]

def SetOut.Kept : SetOut → Prop
  | .badDesc s => Canonical s
  | .ok _ _ _ s => Canonical s
  | _ => True

@[simp] theorem Canonical.fetchLayers {s : State} (h : Canonical s) (cluster part ctx : Nat) (desc : List LaneLoc) (w : WeightSet) :
    SetOut.Kept (fetchLayers s cluster part ctx desc w) := by
  unfold Machine.fetchLayers
  split
  · trivial
  · trivial
  · exact Canonical.foldl (fun _ _ ht => ht.canisterTouch ..) _ h

@[simp] theorem Canonical.fetchSet {s : State} (h : Canonical s) (cluster part ctx handle : Nat) :
    SetOut.Kept (fetchSet s cluster part ctx handle) := by
  simp only [Machine.fetchSet]
  split
  · trivial
  · split
    · trivial
    · trivial
    · have h1 (ls : List LaneLoc) : Canonical (ls.foldl (fun s l => Machine.canisterTouch s cluster part ctx l) s) :=
        Canonical.foldl (fun _ _ ht => ht.canisterTouch ..) _ h
      split
      · exact h1 _
      · split
        · trivial
        · exact (h1 _).fetchLayers ..

@[simp] theorem Canonical.tryNcallTileComplete (tile : Nat) {s : State} (h : Canonical s) :
    Kept (tryNcallTileComplete tile s) := by
  unfold Machine.tryNcallTileComplete
  split
  · exact kept_refused
  · rename_i t _
    have gone {u : State} (hu : Canonical u) : Canonical { u with tiles := spDel u.tiles tile } := (canonical_mk
      ..).2 hu
    have hf := h.fetchSet t.cluster t.part t.ctx t.handle
    simp only []
    refine kept_ite (fun _ => kept_refused) fun _ => kept_ite (fun _ => kept_next.2 ((gone h).tileFailed ..)) fun _
      => ?_
    split
    · exact kept_next.2 ((gone h).tileNaN ..)
    · rename_i s1 hs; exact kept_next.2 ((gone (hs ▸ hf : SetOut.Kept (.badDesc s1))).tileNaN ..)
    · rename_i w desc data s1 hs
      exact kept_next.2 (Canonical.finishTile (hs ▸ hf : SetOut.Kept (.ok w desc data s1)) ..)
    · exact kept_ite (fun _ => kept_refused) fun _ => kept_next.2 ((canonical_mk ..).2 (h.reportBatch ..))

@[simp] theorem Canonical.execNcallTileComplete tile {s : State} (h : Canonical s) :
    Kept (execNcallTileComplete tile s) := by
  simp [Machine.execNcallTileComplete, h]

@[simp] theorem Canonical.tryCanisterFill cluster part ctx line {s : State} (h : Canonical s) :
    Kept (tryCanisterFill cluster part ctx line s) := by
  unfold Machine.tryCanisterFill
  split <;> simp [h]

@[simp] theorem Canonical.execCanisterFill cluster part ctx line {s : State} (h : Canonical s) :
    Kept (execCanisterFill cluster part ctx line s) := by
  simp [Machine.execCanisterFill, h]

@[simp] theorem Canonical.endRay {s : State} (h : Canonical s) gid lane r words bad err :
    Canonical (endRay s gid lane r words bad err) := by
  simp [Machine.endRay, h]

@[simp] theorem Canonical.missRay {s : State} (h : Canonical s) gid lane r bad err :
    Canonical (missRay s gid lane r bad err) := by
  simp [Machine.missRay, h]

@[simp] theorem Canonical.freeWords {s : State} (h : Canonical s) n : Canonical (freeWords s n).2 := h

/-- What a traversal comes to leaves a canonical state. -/
def TravKept {α : Type} : Except TravErr (α × State) → Prop
  | .ok q => Canonical q.2
  | .error (.err s) => Canonical s
  | .error (.poisoned s) => Canonical s
  | .error (.fault _) => True

theorem travKept_error {α β : Type} {e : TravErr} (h : TravKept (.error e : Except TravErr (α × State))) :
    TravKept (.error e : Except TravErr (β × State)) := by
  cases e <;> exact h

@[simp] theorem Canonical.rayRead {s : State} (h : Canonical s) (r : RayThread) (va n : Nat) : TravKept (rayRead s r va n) := by
  unfold Machine.rayRead
  split
  · exact h
  · trivial
  · rename_i ls _
    have hr := Canonical.readUnder (f := fun t => Machine.readSet t [.thread r.gid r.lane] ls) (fun _ ht =>
      ht.readSet ..) h
      (.thread r.gid r.lane) r.known
    simp only []
    split
    · exact hr
    · exact hr

@[simp] theorem Canonical.enters {s : State} (h : Canonical s) r k : Canonical (enters s r k).2 := by
  unfold Machine.enters
  (repeat' split) <;> simp [h]

@[simp] theorem Canonical.reported {s : State} (h : Canonical s) (boxes : List (Option Box)) (p : PrimHit) :
    Canonical (reported s boxes p).2 := by
  unfold Machine.reported
  split <;> exact h

@[simp] theorem Canonical.walkLeaf (h : RayThread) (r : Ray) (lo hi kind : Nat) (boxes : List (Option Box)) {s : State}
    (hs : Canonical s) (k va : Nat) (acc : List RayHit) : TravKept (walkLeaf h r lo hi kind boxes k va s acc) := by
  induction k generalizing s va acc with
  | zero => exact hs
  | succ k ih =>
    have hr := hs.rayRead h va 64
    unfold Machine.walkLeaf
    split
    · rename_i e he; rw [he] at hr; exact travKept_error hr
    · rename_i bs s1 he
      rw [he] at hr
      have h1 : Canonical s1 := hr
      refine ih ?_ _ _
      split
      · exact h1
      · exact h1.reported ..

@[simp] theorem Canonical.walkChildren {visit : Nat → List (Option Box) → State → List RayHit → Except TravErr (List RayHit × State)}
    (hv : ∀ a b s acc, Canonical s → TravKept (visit a b s acc)) (h : RayThread) (r : Ray) (lo hi : Nat)
    (want : Nat → Bool) (boxes : List (Option Box)) {s : State} (hs : Canonical s) (ks : List BoxChild) (acc : List
      RayHit) :
    TravKept (walkChildren visit h r lo hi want boxes ks s acc) := by
  induction ks generalizing s acc with
  | nil => exact hs
  | cons k rest ih =>
    have he := hs.enters r k
    unfold Machine.walkChildren
    simp only []
    generalize hres : (if !(Machine.enters s r k).1 then _ else _ : Except TravErr (List RayHit × State)) = res
    have hk : TravKept res := by
      rw [← hres]
      split
      · exact he
      · split
        · exact hv _ _ _ _ he
        · split
          · exact Canonical.walkLeaf _ _ _ _ _ _ he ..
          · exact he
    split
    · exact hk
    · exact ih hk _

@[simp] theorem Canonical.walkNode (h : RayThread) (r : Ray) (lo hi : Nat) (want : Nat → Bool) {s : State} (hs : Canonical s)
    (n mask va : Nat) (boxes : List (Option Box)) (acc : List RayHit) :
    TravKept (walkNode h r lo hi want n mask va boxes s acc) := by
  induction n generalizing s mask va boxes acc with
  | zero => exact hs
  | succ n ih =>
    have hr := hs.rayRead h va 128
    unfold Machine.walkNode
    split
    · rename_i e he; rw [he] at hr; exact travKept_error hr
    · rename_i bs s1 he
      rw [he] at hr
      have h1 : Canonical s1 := hr
      simp only []
      split
      · exact h1
      · exact Canonical.walkChildren (fun _ _ _ _ ht => ih ht ..) _ _ _ _ _ _ h1 ..

@[simp] theorem Canonical.walkPending (h : RayThread) (r : Ray) (lo hi : Nat) (want : Nat → Bool) {s : State} (hs : Canonical s)
    (ps : List ((Nat × Nat) × Nat)) (acc : List RayHit) : TravKept (walkPending h r lo hi want ps s acc) := by
  induction ps generalizing s acc with
  | nil => exact hs
  | cons e rest ih =>
    have hn := Canonical.walkNode h r lo hi want hs (32 - e.2) e.1.1 e.1.2 [] acc
    unfold Machine.walkPending
    split
    · rename_i x hx; rw [hx] at hn; exact hn
    · rename_i acc1 s1 hx; rw [hx] at hn; exact ih hn _

@[simp] theorem Canonical.traceRay {s : State} (h : Canonical s) (t : RayThread) (r : RayState) (ray : Ray) :
    Kept (traceRay s t r ray) := by
  have hw := Canonical.walkPending t ray (r.ray.getD 3 0).toNat (r.ray.getD 7 0).toNat
    (fun k => if r.mode = 2 then k == 3 else k != 3) h r.pend.zipIdx.reverse r.cand
  unfold Machine.traceRay
  simp only []
  refine kept_ite (fun _ => kept_next.2 (h.missRay ..)) fun _ => ?_
  split
  · rename_i hs s1 he; rw [he] at hw; exact kept_next.2 (Canonical.endRay hw ..)
  · rename_i s1 he; rw [he] at hw; exact kept_next.2 (Canonical.missRay hw ..)
  · rename_i s1 he; rw [he] at hw; exact kept_next.2 (Canonical.missRay hw ..)
  · exact kept_ite (fun _ => kept_refused) fun _ => kept_next.2 ((h.reportBatch ..).modGroup ..)

@[simp] theorem Canonical.tryTraversalComplete gid lane {s : State} (h : Canonical s) :
    Kept (tryTraversalComplete gid lane s) := by
  unfold Machine.tryTraversalComplete
  (repeat' split) <;> simp [h]

@[simp] theorem Canonical.execTraversalComplete gid lane {s : State} (h : Canonical s) :
    Kept (execTraversalComplete gid lane s) := by
  simp [Machine.execTraversalComplete, h]

@[simp] theorem Canonical.feedOp {s : State} (h : Canonical s) id ws : Canonical (feedOp s id ws) := h

@[simp] theorem Canonical.tryRasterTriangle (part : Nat) {s : State} (h : Canonical s) :
    Kept (tryRasterTriangle part s) := by
  unfold Machine.tryRasterTriangle
  split
  · exact kept_refused
  · exact kept_next.2 (((h.modPart ..).feedOp ..).modNode ..)

@[simp] theorem Canonical.execRasterTriangle part {s : State} (h : Canonical s) :
    Kept (execRasterTriangle part s) := by
  simp [Machine.execRasterTriangle, h]

@[simp] theorem Canonical.countSample {s : State} (h : Canonical s) x ls : Canonical (countSample s x ls) := by
  unfold Machine.countSample
  split <;> simp [h]

@[simp] theorem Canonical.trySampleWrite (part : Nat) {s : State} (h : Canonical s) :
    Kept (trySampleWrite part s) := by
  unfold Machine.trySampleWrite
  split
  · exact kept_refused
  · simp only []
    refine kept_ite (fun _ => kept_next.2 (h.modPart ..)) fun _ => ?_
    split
    · exact kept_next.2 (h.modPart ..)
    · exact kept_ite (fun _ => kept_refused) fun _ => kept_next.2 ((h.reportBatch ..).modPart ..)
    · have hq (f x ls ag known ags) : Canonical (Machine.readSet (Machine.learn (Machine.countSample (Machine.modPart
      s part f) x ls) ag known) ags ls).2 :=
        (((h.modPart ..).countSample ..).learn ..).readSet ..
      exact kept_next.2 (canonical_ite (fun _ => (hq ..).storeSet ..) fun _ => hq ..)

@[simp] theorem Canonical.execSampleWrite part {s : State} (h : Canonical s) :
    Kept (execSampleWrite part s) := by
  simp [Machine.execSampleWrite, h]

@[simp] theorem Canonical.homeAtomic {s : State} (h : Canonical s) (a : AtomReq) : Canonical (homeAtomic s a).2 := by
  have hq (rels : State → List RelInfo) : Canonical (Machine.readUnder s (.thread a.gid a.lane) a.know fun t =>
      Machine.rmwUnit t (.thread a.gid a.lane) a.cmp a.kind a.va a.loc a.size a.over (rels t)).2 :=
    Canonical.readUnder (fun _ ht => ht.rmwUnit ..) h ..
  unfold Machine.homeAtomic
  simp only []
  split
  · exact (hq _).acquire ..
  · exact hq _

@[simp] theorem Canonical.tryHomeSliceAtomic (part : Nat) {s : State} (h : Canonical s) :
    Kept (tryHomeSliceAtomic part s) := by
  simp only [Machine.tryHomeSliceAtomic]
  split
  · exact kept_refused
  · exact kept_next.2 ((((h.chooseBelow _).modPart ..).homeAtomic _).feedOp ..)

@[simp] theorem Canonical.execHomeSliceAtomic part {s : State} (h : Canonical s) :
    Kept (execHomeSliceAtomic part s) := by
  simp [Machine.execHomeSliceAtomic, h]

@[simp] theorem Canonical.tryL1OverflowWriteback core line {s : State} (h : Canonical s) :
    Kept (tryL1OverflowWriteback core line s) := by
  simp [Machine.tryL1OverflowWriteback, h, Canonical.coreWriteBack]

@[simp] theorem Canonical.execL1OverflowWriteback core line {s : State} (h : Canonical s) :
    Kept (execL1OverflowWriteback core line s) := by
  simp [Machine.execL1OverflowWriteback, h]

@[simp] theorem Canonical.tryFullBlockWrite part line {s : State} (h : Canonical s) :
    Kept (tryFullBlockWrite part line s) := by
  unfold Machine.tryFullBlockWrite
  split <;> simp [h, Canonical.l2WriteBack]

@[simp] theorem Canonical.execFullBlockWrite part line {s : State} (h : Canonical s) :
    Kept (execFullBlockWrite part line s) := by
  simp [Machine.execFullBlockWrite, h]

@[simp] theorem Canonical.tryPartialWrite part line {s : State} (h : Canonical s) :
    Kept (tryPartialWrite part line s) := by
  unfold Machine.tryPartialWrite
  split <;> simp [h, Canonical.l2WriteBack]

@[simp] theorem Canonical.execPartialWrite part line {s : State} (h : Canonical s) :
    Kept (execPartialWrite part line s) := by
  simp [Machine.execPartialWrite, h]

@[simp] theorem Canonical.rasTransient {s : State} (h : Canonical s) part : Canonical (rasTransient s part) := h

@[simp] theorem Canonical.replayOp {s : State} (h : Canonical s) id o : Canonical (replayOp s id o) := by
  unfold Machine.replayOp
  (repeat' split) <;> simp [h]

@[simp] theorem Canonical.discardMatrix {s : State} (h : Canonical s) (core : Nat) :
    Canonical (discardMatrix s core) :=
  Canonical.foldl (fun _ _ ht => ht.replayOp ..) _ h

@[simp] theorem Canonical.fenceCore {s : State} (h : Canonical s) core :
    Canonical (fenceCore s core) := by
  grind [Machine.fenceCore, Canonical.modCore, Canonical.discardMatrix, Canonical.msix, Canonical.rasLasting]

@[simp] theorem Canonical.fenceCluster {s : State} (h : Canonical s) k : Canonical (fenceCluster s k) := h

@[simp] theorem Canonical.hbmError {s : State} (h : Canonical s) (loc : Nat) : Canonical (hbmError s loc) := by
  unfold Machine.hbmError
  simp only []
  split
  · exact h.setPoison ..
  · exact canonical_ite (fun _ => (h.choose.l2Drop _).ctlStore ..) fun _ => h.setPoison ..

@[simp] theorem Canonical.l2Mark {s : State} (h : Canonical s) w on : Canonical (l2Mark s w on) := by
  unfold Machine.l2Mark
  split <;> simp [h, Canonical.setPoison]

@[simp] theorem Canonical.poisonL1 {s : State} (h : Canonical s) core loc : Canonical (poisonL1 s core loc) := h

@[simp] theorem Canonical.poisonPlace {s : State} (h : Canonical s) (p : EccPlace) : Canonical (poisonPlace s p) := by
  cases p with
  | hbm loc => exact h.hbmError loc
  | nibble _ word => exact h.setPoison ..
  | inband loc =>
    obtain ⟨hm, hp, hn⟩ := h
    exact ⟨hm, hp, spWf_spSet (loc / 128) (spGet 0 s.nibbles (loc / 128) % 16 + 16) hn⟩
  | l2 _ loc => exact h.l2Mark ..
  | l1 core loc => exact h.poisonL1 ..
  | _ => exact h

@[simp] theorem Canonical.retryFailed {s : State} (h : Canonical s) p : Canonical (retryFailed s p) := by
  simp only [Machine.retryFailed]
  (repeat' split) <;> grind [Canonical.fenceCore, Canonical.fenceCluster, Canonical.msix, Canonical.rasLasting,
    Canonical.poisonPlace]

@[simp] theorem Canonical.tryEccRetry place ok {s : State} (h : Canonical s) : Kept (tryEccRetry place ok s) := by
  unfold Machine.tryEccRetry
  split <;> simp [h]

@[simp] theorem Canonical.execEccRetry place ok {s : State} (h : Canonical s) :
    Kept (execEccRetry place ok s) := by
  simp [Machine.execEccRetry, h]

@[simp] theorem Canonical.tryArrayFence barista unit {s : State} (h : Canonical s) :
    Kept (tryArrayFence barista unit s) := by
  unfold Machine.tryArrayFence
  split <;> simp [h]

@[simp] theorem Canonical.execArrayFence barista unit {s : State} (h : Canonical s) :
    Kept (execArrayFence barista unit s) := by
  simp [Machine.execArrayFence, h]

@[simp] theorem Canonical.flitGood {s : State} (h : Canonical s) p seq flit : Canonical (flitGood s p seq flit) := by
  unfold Machine.flitGood
  split <;> simp [h]

@[simp] theorem Canonical.flitBad {s : State} (h : Canonical s) p seq :
    Canonical (flitBad s p seq) := by
  grind [Machine.flitBad, Canonical.rasTransient, Canonical.modPort, Canonical.tellHost]

@[simp] theorem Canonical.tryFlitReceive port seq flit {s : State} (h : Canonical s) :
    Kept (tryFlitReceive port seq flit s) := by
  simp only [Machine.tryFlitReceive]
  (repeat' split) <;> simp [h]

@[simp] theorem Canonical.execFlitReceive port seq flit {s : State} (h : Canonical s) :
    Kept (execFlitReceive port seq flit s) := by
  simp [Machine.execFlitReceive, h]

@[simp] theorem Canonical.dropAtom {s : State} (h : Canonical s) a : Canonical (dropAtom s a) := by
  unfold Machine.dropAtom
  split <;> simp [h]

@[simp] theorem Canonical.dropAtoms {s : State} (h : Canonical s) (port : Nat) : Canonical (dropAtoms s port) :=
  Canonical.foldl (fun _ _ ht => Canonical.dropAtom (ht.modPart ..) _) _ h

@[simp] theorem Canonical.dropAccesses {s : State} (h : Canonical s) (a : Nat) : Canonical (dropAccesses s a) :=
  Canonical.foldl (fun _ _ ht => ht.apFailed ..) _ (h.modAdapter ..)

@[simp] theorem Canonical.tryPortRetrain (port : Nat) (ok : Bool) {s : State} (h : Canonical s) :
    Kept (tryPortRetrain port ok s) := by
  simp only [Machine.tryPortRetrain]
  refine kept_ite (fun _ => kept_refused) fun _ => kept_ite (fun _ => kept_next.2 ((h.modPort ..).tellHost ..)) fun _
    => ?_
  have h1 := (h.dropAtoms port).modPort port fun v => { v with up := false, retrain := false }
  exact kept_next.2 (Canonical.rasLasting (canonical_ite (fun _ => h1.dropAccesses _) fun _ => h1) _)

@[simp] theorem Canonical.execPortRetrain port ok {s : State} (h : Canonical s) :
    Kept (execPortRetrain port ok s) := by
  simp [Machine.execPortRetrain, h]

@[simp] theorem Canonical.aperture {s : State} (h : Canonical s) a strong write off size data :
    Canonical (aperture s a strong write off size data) := by
  simp [Machine.aperture, h]

@[simp] theorem Canonical.tryApertureAccess adapter write off size data {s : State} (h : Canonical s) :
    Kept (tryApertureAccess adapter write off size data s) := by
  simp [Machine.tryApertureAccess, h]

@[simp] theorem Canonical.execApertureAccess adapter write off size data {s : State} (h : Canonical s) :
    Kept (execApertureAccess adapter write off size data s) := by
  simp [Machine.execApertureAccess, h]

@[simp] theorem Canonical.tryApertureStrongAccess adapter write off size data {s : State} (h : Canonical s) :
    Kept (tryApertureStrongAccess adapter write off size data s) := by
  simp [Machine.tryApertureStrongAccess, h]

@[simp] theorem Canonical.execApertureStrongAccess adapter write off size data {s : State} (h : Canonical s) :
    Kept (execApertureStrongAccess adapter write off size data s) := by
  simp [Machine.execApertureStrongAccess, h]

@[simp] theorem Canonical.repartition {s : State} (h : Canonical s) : Canonical (repartition s) :=
  (canonical_mk ..).2 (Canonical.foldl (fun _ _ ht => ht.modPart ..) _ (Canonical.foldl (fun _ _ ht => ht.flushCaches
    _) _ h))

@[simp] theorem Canonical.partCfgSet {s : State} (h : Canonical s) v : Canonical (partCfgSet s v) := by
  unfold Machine.partCfgSet
  (repeat' split) <;> simp +contextual [h, Canonical.modPart]

@[simp] theorem Canonical.execPartCfgWrite value {s : State} (h : Canonical s) :
    Kept (execPartCfgWrite value s) := by
  simp [Machine.execPartCfgWrite, h]

@[simp] theorem Canonical.portMapSet {s : State} (h : Canonical s) v :
    Canonical (portMapSet s v) := by
  simp [Machine.portMapSet, h]

@[simp] theorem Canonical.execPortMapWrite value {s : State} (h : Canonical s) :
    Kept (execPortMapWrite value s) := by
  simp [Machine.execPortMapWrite, h]

@[simp] theorem Canonical.execFrameAreaWrite part size value {s : State} (h : Canonical s) :
    Kept (execFrameAreaWrite part size value s) := by
  simp [Machine.execFrameAreaWrite, h]

@[simp] theorem Canonical.pwrLimitSet {s : State} (h : Canonical s) v : Canonical (pwrLimitSet s v) := h

@[simp] theorem Canonical.execPwrLimitWrite value {s : State} (h : Canonical s) :
    Kept (execPwrLimitWrite value s) := by
  simp [Machine.execPwrLimitWrite, h]

@[simp] theorem Canonical.deviceWrite {s : State} (h : Canonical s) a o v : Canonical (deviceWrite s a o v) := by
  unfold Machine.deviceWrite
  split <;> simp [h]

@[simp] theorem Canonical.bar0Write {s : State} (h : Canonical s) a off v : Canonical (bar0Write s a off v) := by
  unfold Machine.bar0Write
  split <;> simp [h]

@[simp] theorem Canonical.tryRegisterWrite adapter off value {s : State} (h : Canonical s) :
    Kept (tryRegisterWrite adapter off value s) := by
  simp [Machine.tryRegisterWrite, h]

@[simp] theorem Canonical.execRegisterWrite adapter off value {s : State} (h : Canonical s) :
    Kept (execRegisterWrite adapter off value s) := by
  simp [Machine.execRegisterWrite, h]

@[simp] theorem Canonical.setClocks {s : State} (h : Canonical s) (k : Nat) (cs : List Nat) :
    Canonical (setClocks k cs s) := by
  induction cs generalizing s k with
  | nil => exact h
  | cons c r ih => exact ih (h.modCluster ..) _

@[simp] theorem Canonical.tryPowerInterval clocks watts {s : State} (h : Canonical s) :
    Kept (tryPowerInterval clocks watts s) := by
  simp [Machine.tryPowerInterval, h]

@[simp] theorem Canonical.execPowerInterval clocks watts {s : State} (h : Canonical s) :
    Kept (execPowerInterval clocks watts s) := by
  simp [Machine.execPowerInterval, h]

@[simp] theorem Canonical.tryClockDroop cluster {s : State} (h : Canonical s) :
    Kept (tryClockDroop cluster s) := by
  simp [Machine.tryClockDroop, h]

@[simp] theorem Canonical.execClockDroop cluster {s : State} (h : Canonical s) :
    Kept (execClockDroop cluster s) := by
  simp [Machine.execClockDroop, h]

@[simp] theorem Canonical.bootImage {s : State} (h : Canonical s) image :
    Canonical (bootImage s image) := by
  simp [Machine.bootImage, h]

@[simp] theorem Canonical.resetDevice {s : State} (h : Canonical s) : Canonical (resetDevice s) := h

@[simp] theorem Canonical.execDeviceReset image {s : State} (h : Canonical s) :
    Kept (execDeviceReset image s) := by
  simp [Machine.execDeviceReset, h]

@[simp] theorem Canonical.tryAttestationReport nonce {s : State} (h : Canonical s) :
    Kept (tryAttestationReport nonce s) := by
  simp [Machine.tryAttestationReport, h]

@[simp] theorem Canonical.execAttestationReport nonce {s : State} (h : Canonical s) :
    Kept (execAttestationReport nonce s) := by
  simp [Machine.execAttestationReport, h]

@[simp] theorem Canonical.tryRepartitionComplete {s : State} (h : Canonical s) : Kept (tryRepartitionComplete s) := by
  unfold Machine.tryRepartitionComplete
  (repeat' split) <;> simp +contextual [h]

@[simp] theorem Canonical.execRepartitionComplete {s : State} (h : Canonical s) :
    Kept (execRepartitionComplete s) := by
  simp [Machine.execRepartitionComplete, h]

@[simp] theorem Canonical.tryBootNewImage image {s : State} (h : Canonical s) :
    Kept (tryBootNewImage image s) := by
  simp [Machine.tryBootNewImage, h]

@[simp] theorem Canonical.execBootNewImage image {s : State} (h : Canonical s) :
    Kept (execBootNewImage image s) := by
  simp [Machine.execBootNewImage, h]

@[simp] theorem Canonical.exec i {s : State} (h : Canonical s) : Kept (exec i s) := by
  unfold Machine.exec
  split <;> simp [h]

@[simp] theorem Canonical.takeEvent {s : State} (h : Canonical s) i : Kept (takeEvent s i) := by
  unfold Machine.takeEvent
  (repeat' split) <;> simp [h]

@[simp] theorem Canonical.tryOf i {s : State} (h : Canonical s) : Kept (tryOf i s) := by
  unfold Machine.tryOf
  split <;> simp [h]

@[simp] theorem Canonical.beginLoads (s : State) {t : State} (h : Canonical t) (c : Iss) (i : Instr) :
    Canonical (beginLoads s t c i) := by
  unfold Machine.beginLoads
  split
  · refine canonical_ite (fun _ => h) fun _ => ?_
    simp only []
    split
    · exact canonical_ite (fun _ => h) fun _ => (canonical_mk ..).2 h
    · exact h
  · exact h

@[simp] theorem Canonical.rehalt {s : State} (h : Canonical s) gid : Canonical (rehalt s gid) := by
  unfold Machine.rehalt
  (repeat' split) <;> simp [h]

@[simp] theorem Canonical.issued {t : State} (h : Canonical t) (s : State) (q : PathId) (i : Instr) :
    Canonical (issued s q i t) := by
  unfold Machine.issued
  split
  · exact h
  · exact ((Canonical.beginLoads _ (h.edgesBehind ..) ..).modPath ..).rehalt _

@[simp] theorem Canonical.nextTurn {s : State} (h : Canonical s) n : Canonical (nextTurn s n).2 := by
  unfold Machine.nextTurn
  split <;> simp [h]

def Ready.Kept : Ready → Prop
  | .become s => Canonical s
  | .issue _ s => Canonical s
  | _ => True

@[simp] theorem Canonical.slotReady {s : State} (h : Canonical s) (c : Iss) (cl : Clause) : Ready.Kept (slotReady s c cl) := by
  unfold Machine.slotReady
  split
  · exact h.takeTrap ..
  · exact h.takeTrap ..
  · exact h.takeTrap ..
  · split
    · exact h.takeTrap ..
    · simp only []
      split
      · exact h.takeTrap ..
      split
      · exact h.takeTrap ..
      split
      · exact h.waitOn ..
      · split
        · split
          · exact h
          · split <;> trivial
        · split
          · trivial
          · exact h

@[simp] theorem Canonical.pathReady {s : State} (h : Canonical s) (q : PathId) : Ready.Kept (pathReady s q) := by
  unfold Machine.pathReady
  split
  · trivial
  · split
    · trivial
    · split
      · split
        · trivial
        · exact h.trapEntry ..
      · trivial
      · split
        · exact h.retire ..
        · trivial
      · split
        · trivial
        · split
          · exact h.slotReady ..
          · split
            · trivial
            · exact (h.waitEdges ..).slotReady ..

@[simp] theorem Canonical.issueOf {s : State} (h : Canonical s) (q : PathId) : ∀ o ∈ issueOf s q, Kept o := by
  intro o ho
  have hp := h.pathReady q
  unfold Machine.issueOf at ho
  split at ho
  · cases ho
  · cases ho
  · rename_i t ht
    rw [ht] at hp
    split at ho
    · cases ho
    · cases ho; exact kept_next.2 hp
  · rename_i i t ht
    rw [ht] at hp
    split at ho
    · rename_i u hu
      split at ho
      · cases ho
      · cases ho; exact kept_next.2 (Canonical.issued ((Canonical.exec i hp) _ hu) ..)
    · cases ho; exact kept_fault
    · cases ho; exact kept_refused

@[simp] theorem Canonical.attempt {s : State} (h : Canonical s) (i : Instr) : ∀ o ∈ attempt i s, Kept o := by
  intro o ho
  have ht := Canonical.tryOf i h
  unfold Machine.attempt at ho
  split at ho
  · rename_i t htt
    split at ho
    · cases ho
    · cases ho; exact kept_next.2 (ht _ htt)
  · cases ho; exact kept_fault
  · cases ho

@[simp] theorem Canonical.turn {s : State} (h : Canonical s) (t : Turn) : ∀ o ∈ t.run s, Kept o := by
  cases t with
  | event i => exact h.attempt i
  | path q => exact h.issueOf q

@[simp] theorem Canonical.runSelf {s : State} (h : Canonical s) : Kept (runSelf s) := by
  unfold Machine.runSelf
  refine kept_ite (fun _ => kept_next.2 h) fun _ => ?_
  split
  · cases hf : (idleEvents s).findSome? fun i => Machine.attempt i s with
    | none => exact kept_next.2 h
    | some o =>
      obtain ⟨i, _, hi⟩ := List.exists_of_findSome?_eq_some hf
      exact h.attempt i o hi
  · rename_i t r _
    have hk := h.nextTurn (r.length + 1)
    cases hd : ((t :: r).drop (Machine.nextTurn s (r.length + 1)).1).head? with
    | none => simp only [hd, Option.bind_none]; exact kept_next.2 hk
    | some x =>
      cases ho : x.run (Machine.nextTurn s (r.length + 1)).2 with
      | none => simp only [hd, Option.bind_some, ho]; exact kept_next.2 hk
      | some o => simp only [hd, Option.bind_some, ho]; exact hk.turn x o ho

@[simp] theorem Canonical.stepOnce {s : State} (h : Canonical s) : Kept (stepOnce s) := by
  unfold Machine.stepOnce
  split <;> simp [h]

@[simp] theorem Canonical.step {s : State} (h : Canonical s) : Kept (step s) := by simp [Machine.step, h]

/-! ## The obligation -/

/-- Settles O59: a step is one of the operations above, and each keeps the canonical form. -/
theorem stepKeepsMemory : Obligations.StepKeepsMemory := fun _ t h hs => Canonical.step h t hs

end Sys2Proof.Claims
end

section
/-! SUPPORT. The new value of an atomic (14 R335, R336) in two's complement. -/
namespace Sys2Proof.Claims
open Sys2Proof.Machine

/-- Settles O20: each operation code, on words that fit the width. -/
theorem atomicValues : Obligations.AtomicValues := by
  intro w e old x _ ho hx a b
  have ha : a.toNat = old := by rw [BitVec.toNat_ofNat, Nat.mod_eq_of_lt ho]
  have hb : b.toNat = x := by rw [BitVec.toNat_ofNat, Nat.mod_eq_of_lt hx]
  have pick (p q : Prop) [Decidable p] [Decidable q] (h : p ↔ q) : (if p then x else old) = (if q then b else a).toNat := by
    simp only [h, apply_ite BitVec.toNat, ha, hb]
  refine ⟨?_, ?_, ?_, ?_, ?_, ?_, ?_, ?_, rfl, ?_⟩
  · rw [BitVec.toNat_add, ha, hb]; rfl
  · exact pick _ _ (by rw [sext_eq_toInt, sext_eq_toInt, BitVec.slt_iff_toInt_lt])
  · rw [← pick (x < old) _ (by rw [BitVec.ult_iff_toNat_lt, ha, hb])]
    simp only [atomNew]; split <;> omega
  · exact pick _ _ (by rw [sext_eq_toInt, sext_eq_toInt, BitVec.slt_iff_toInt_lt])
  · rw [← pick (old < x) _ (by rw [BitVec.ult_iff_toNat_lt, ha, hb])]
    simp only [atomNew]; split <;> omega
  · rw [BitVec.toNat_and, ha, hb]; rfl
  · rw [BitVec.toNat_or, ha, hb]; rfl
  · rw [BitVec.toNat_xor, ha, hb]; rfl
  · rw [show a = BitVec.ofInt w old from (BitVec.ofInt_natCast w old).symm, ← BitVec.ofInt_add, ← wrapBits_eq_ofInt]; rfl

end Sys2Proof.Claims
end

section
/-!
SUPPORT. Ill-formed instructions (11 R251 to R254; 12 R267): each form of issue refuses a guard, a size or a branch field that
the description forbids before it looks at the state.
-/
namespace Sys2Proof.Claims
open Sys2Proof.Machine

/-! ## The forms of issue -/

section
variable {s : State} {c : Iss} {f : Fields} {legal setB : Bool}

theorem exec_illegal {o : Out} {F : Iss → State} (ho : o = onPath s F) (h : issuer s = some c)
    (hF : F c = illegalOperand s c) : o = .next (illegalOperand s c) := by rw [ho, onPath_issuer h, hF]

theorem runMasked_illegal {body : Mask → State} (h : (f.guardLegal && legal) = false) :
    runMasked s c f legal body = illegalOperand s c := by simp [runMasked, h]

theorem runCounted_illegal {body : Mask → State} (h : (f.guardLegal && legal) = false) :
    runCounted s c f setB legal body = illegalOperand s c := by simp [runCounted, h]

theorem runPathWide_illegal {body : State} (h : (f.guardPathWide && legal) = false) :
    runPathWide s c f legal body = illegalOperand s c := by simp [runPathWide, h]

theorem runValue_illegal {vo : Bool} {v : ValueOp} (h : f.guardLegal = false) :
    runValue s c f vo v = illegalOperand s c := by simp [runValue, ValueOp.ok, h]

theorem condBranch_illegal {taken : Mask → Mask → Bool} (hi : issuer s = some c)
    (h : (f.guardLegal && branchFields f) = false) : condBranch f s taken = .next (illegalOperand s c) :=
  exec_illegal rfl hi (by rw [h]; rfl)

theorem bany_illegal (hi : issuer s = some c) (h : (f.guardLegal && branchFields f) = false) :
    exec (.bany f) s = .next (illegalOperand s c) :=
  condBranch_illegal (taken := fun t _ => t != 0) hi h

theorem ball_illegal (hi : issuer s = some c) (h : (f.guardLegal && branchFields f) = false) :
    exec (.ball f) s = .next (illegalOperand s c) :=
  condBranch_illegal (taken := fun t l => t == l) hi h

theorem bnone_illegal (hi : issuer s = some c) (h : (f.guardLegal && branchFields f) = false) :
    exec (.bnone f) s = .next (illegalOperand s c) :=
  condBranch_illegal (taken := fun t _ => t == 0) hi h

theorem bdiv_illegal (hi : issuer s = some c) (h : (f.guardLegal && branchFields f) = false) :
    exec (.bdiv f) s = .next (illegalOperand s c) := exec_illegal rfl hi (by simp [h])

theorem resamp_illegal (hi : issuer s = some c) (h : resampFields c f = false) :
    exec (.resamp f) s = .next (illegalOperand s c) := exec_illegal rfl hi (by simp [h])

theorem mtrn_illegal (hi : issuer s = some c) (h : mtrnLegal c f = false) :
    exec (.mtrn f) s = .next (illegalOperand s c) := exec_illegal rfl hi (by simp [h])

theorem mmaLegal_pathWide (h : f.guardPathWide = false) : mmaLegal c f = false := by
  unfold mmaLegal; split <;> simp [h]

theorem mtrnLegal_pathWide (h : f.guardPathWide = false) : mtrnLegal c f = false := by
  unfold mtrnLegal; split <;> simp [h]

/-- An MMA without the path-wide guard is illegal, alone and in a gang. -/
theorem mma_illegal (hi : issuer s = some c) (h : f.guardPathWide = false) :
    exec (.mma f) s = .next (illegalOperand s c) := by
  refine exec_illegal rfl hi ?_
  cases hg : mmaGanged f <;> simp [gangArrives, mmaCheck, mmaLegal_pathWide h, h]

/-- A MOV of each of its four forms refuses a guard it may not have. -/
theorem mov_illegal (hi : issuer s = some c) (h : f.guardLegal = false) :
    exec (.mov f) s = .next (illegalOperand s c) := by
  refine exec_illegal rfl hi ?_
  split
  · rfl
  · exact runMasked_illegal (by rw [h]; rfl)
  · exact runMasked_illegal (by rw [h]; rfl)
  · exact runValue_illegal h

end

/-! ## The checks -/

theorem guardPathWide_legal {f : Fields} (h : f.guardLegal = false) : f.guardPathWide = false := by
  rw [Fields.guardLegal, Bool.or_eq_false_iff] at h
  rw [Fields.guardPathWide, h.2, Bool.false_and]

/-- A guard that G does not name. -/
theorem exec_badGuard {i : Instr} {f : Fields} {s : State} {c : Iss} (hf : i.fields = some f) (hg : f.guardLegal = false)
    (h : issuer s = some c) : exec i s = .next (illegalOperand s c) := by
  have hp := guardPathWide_legal hg
  cases i <;> cases hf
  case mma => exact mma_illegal h hp
  case mov => exact mov_illegal h hg
  case bdiv => exact bdiv_illegal h (by rw [hg]; rfl)
  case mtrn => exact mtrn_illegal h (mtrnLegal_pathWide hp)
  case resamp => exact resamp_illegal h (by simp [resampFields, hp])
  case bany => exact bany_illegal h (by rw [hg]; rfl)
  case ball => exact ball_illegal h (by rw [hg]; rfl)
  case bnone => exact bnone_illegal h (by rw [hg]; rfl)
  case iadd | isub | imul | imulh | imad | idiv | imin | imax | logt | shl | shr | fshf | bfx | bfi | popc | clz
      | brev | permb | icmp | isel | movi | movhi | plogt | rng | fadd | fmul | ffma | fmin | fmax | fcmp | fclass
      | frcp | frsq | fsqrt | fdiv | fexp2 | flog2 | fsin | ftanh | frnd | cvtsr | unpk | idp4 | fdp2 =>
    exact exec_illegal rfl h (runValue_illegal hg)
  case nop | exit | pcoll | getfmt | trap | bkpt | pmov | readlane | writelane | cvt | qnt | dqnt | pack | lxch
      | scan | redux | eqln | deriv | pft | fence | bara | barw | bar | barx | qmap | feset | jstat | gang | ncall
      | twait | ttest | trace | trget | trcont | ordb | orde | srd | swr | perf | sysc | spawn | launch | npin
      | npref | nflush =>
    exact exec_illegal rfl h (runMasked_illegal (by rw [hg]; rfl))
  case icinv | ld | st | lds | sts | atom | acas | atoms | lda | stl | job | cinv | mldw | mlds | xf | dec | enc
      | topk | tex | texg | texq | imld | imst | visr | primf | emit =>
    exact exec_illegal rfl h (runCounted_illegal (by rw [hg]; rfl))
  case bra | join | call | calld | ret | yield | refill | setfmt | dict | ffence | rtt | jmpi | calli =>
    exact exec_illegal rfl h (runPathWide_illegal (by rw [hp]; rfl))

/-- A guard other than the path-wide one where the description asks for that. -/
theorem exec_notPathWide {i : Instr} {f : Fields} {s : State} {c : Iss} (hf : i.fields = some f) (hi : i.pathWide = true)
    (hp : f.guardPathWide = false) (h : issuer s = some c) : exec i s = .next (illegalOperand s c) := by
  cases i <;> cases hi <;> cases hf <;> exact exec_illegal rfl h (runPathWide_illegal (by rw [hp]; rfl))

/-- A size that no register block has. -/
theorem exec_badSize {i : Instr} {f : Fields} {s : State} {c : Iss} (hf : i.fields = some f) (hi : i.memFormat = true)
    (hx : 4 < f.x.toNat) (h : issuer s = some c) : exec i s = .next (illegalOperand s c) := by
  have hm : memLegal c f = false := by simp [memLegal, hx]
  have hs : spadLegal c f = false := by simp [spadLegal, hx]
  have h0 : (f.x == 0) = false := by rw [beq_eq_false_iff_ne]; rintro h0; simp [h0] at hx
  have hr : rangeLegal f = false := by simp only [rangeLegal, h0, Bool.and_false, Bool.false_and]
  have h3 : (f.x == 3) = false := by rw [beq_eq_false_iff_ne]; rintro h3; simp [h3] at hx
  cases i <;> cases hi <;> cases hf
  case calld => exact exec_illegal rfl h (runPathWide_illegal (by simp only [calldLegal, h3, Bool.and_false, Bool.false_and]))
  case pft => exact exec_illegal rfl h (runMasked_illegal (by simp only [hm, Bool.and_false, Bool.false_and]))
  case ld | st | atom | acas | lda | stl => exact exec_illegal rfl h (runCounted_illegal (by simp only [hm, Bool.and_false, Bool.false_and]))
  case lds | sts | atoms => exact exec_illegal rfl h (runCounted_illegal (by simp only [hs, Bool.and_false, Bool.false_and]))
  case icinv | cinv => exact exec_illegal rfl h (runCounted_illegal (by simp only [hr, Bool.and_false, Bool.false_and]))

/-- A field that the branch formats do not use. -/
theorem exec_badBranch {i : Instr} {f : Fields} {s : State} {c : Iss} (hf : i.fields = some f) (hi : i.branchFormat = true)
    (hb : branchFields f = false) (h : issuer s = some c) : exec i s = .next (illegalOperand s c) := by
  cases i <;> cases hi <;> cases hf
  case bdiv => exact bdiv_illegal h (by rw [hb, Bool.and_false])
  case bra | call => exact exec_illegal rfl h (runPathWide_illegal (by rw [hb, Bool.and_false]))
  case bany => exact bany_illegal h (by rw [hb, Bool.and_false])
  case ball => exact ball_illegal h (by rw [hb, Bool.and_false])
  case bnone => exact bnone_illegal h (by rw [hb, Bool.and_false])

/-- Settles O30, by the check that the instruction breaks. -/
theorem illFormedTraps : Obligations.IllFormedTraps := by
  intro i s c hp hw h
  obtain ⟨f, hf⟩ := Option.isSome_iff_exists.mp hp
  simp only [Instr.WellFormed, Instr.illFormed, hf] at hw
  split at hw
  · exact exec_badGuard hf (by simpa using ‹(!f.guardLegal) = true›) h
  · split at hw
    · rename_i hq
      rw [Bool.and_eq_true, Bool.not_eq_true'] at hq
      exact exec_notPathWide hf hq.1 hq.2 h
    · split at hw
      · rename_i hq
        rw [Bool.and_eq_true, decide_eq_true_eq] at hq
        exact exec_badSize hf hq.1 hq.2 h
      · split at hw
        · rename_i hq
          rw [Bool.and_eq_true] at hq
          refine exec_badBranch hf hq.1 ?_ h
          revert hq; simp only [branchFields, bne]; generalize (f.mod == 0) = a; generalize (f.x == 0) = b
          generalize (f.d == 0) = d; cases a <;> cases b <;> cases d <;> simp
        · exact absurd rfl hw

end Sys2Proof.Claims
end

section
/-!
SUPPORT. The forms of issue once their checks pass: the body of the instruction at the issuing path; the records, objects and
accesses a body asks for; and changes of the issuing group.
-/
namespace Sys2Proof.Claims
open Sys2Proof.Machine

section
variable {s : State} {c : Iss} {f : Fields}

/-! ## Issue -/

theorem exec_onPath {o : Out} {F : Iss → State} (ho : o = onPath s F) (h : issuer s = some c) : o = .next (F c) := by
  rw [ho, onPath_issuer h]

theorem exec_masked {o : Out} {L : Iss → Bool} {B : Iss → Mask → State} (ho : o = onPath s fun c => runMasked s c f (L c) (B c))
    (h : issuer s = some c) (hg : f.guardLegal = true) (hl : L c = true) (ha : active c f ≠ 0) :
    o = .next (B c (active c f)) := by
  rw [ho, onPath_issuer h, runMasked, hg, hl, Bool.and_self, Bool.not_true, if_neg (by decide), if_neg ha]

theorem exec_masked_empty {o : Out} {L : Iss → Bool} {B : Iss → Mask → State}
    (ho : o = onPath s fun c => runMasked s c f (L c) (B c)) (h : issuer s = some c) (hg : f.guardLegal = true)
    (hl : L c = true) (ha : active c f = 0) : o = .next (modGroup s c.gid fun _ => behind c) := by
  rw [ho, onPath_issuer h, runMasked, hg, hl, Bool.and_self, Bool.not_true, if_neg (by decide), if_pos ha, retire_eq h]

theorem exec_counted {o : Out} {setB : Bool} {L : Iss → Bool} {B : Iss → Mask → State}
    (ho : o = onPath s fun c => runCounted s c f setB (L c) (B c)) (h : issuer s = some c) (hc : Counts c f setB (L c)) :
    o = .next (B c (active c f)) := by
  obtain ⟨hg, hl, hr, ha⟩ := hc
  rw [ho, onPath_issuer h, runCounted, hg, hl, Bool.and_self, Bool.not_true, if_neg (by decide), hr, if_neg (by decide),
    if_neg ha]

theorem exec_pathWide {o : Out} {L : Iss → Bool} {B : Iss → State} (ho : o = onPath s fun c => runPathWide s c f (L c) (B c))
    (h : issuer s = some c) (hg : f.guardPathWide = true) (hl : L c = true) : o = .next (B c) := by
  rw [ho, onPath_issuer h, runPathWide, hg, hl, Bool.and_self, Bool.not_true, if_neg (by decide)]

/-! ## The issuing group -/

theorem modGroup_issuer (h : issuer s = some c) (F : Group → Group) :
    modGroup s c.gid F = modGroup s c.gid fun _ => F c.g := modGroup_const F (issuer_spec h).2.1

theorem modPath_issuer (h : issuer s = some c) (F : Path → Path) :
    modPath s c.gid c.live F = modGroup s c.gid fun _ => c.g.setLive c.live (some (F c.p)) := by
  rw [modPath, modGroup_issuer h, (issuer_spec h).2.2.1]; rfl

theorem waitOn_eq (h : issuer s = some c) (w : Wait) :
    waitOn s c w = modGroup s c.gid fun _ => c.g.setLive c.live (some { c.p with wait := w, since := s.clk }) :=
  modPath_issuer h _

theorem countEnd_eq (h : issuer s = some c) (F : Group → Group) :
    modGroup (countEnd s c) c.gid F = modGroup s c.gid fun _ => F (countRetired c.g true) := by
  rw [countEnd, modGroup_modGroup, modGroup_issuer h]

/-! ## Records, objects and accesses -/

theorem withRecord_eq {atomic : Bool} {forbidden : BufRec → Bool} {r : BufRec} {body : BufRec → State}
    (hn : Names c f atomic (forbidden r) r) : withRecord s c f atomic forbidden body = body r := by
  obtain ⟨⟨n, hs, rfl⟩, hv, hf⟩ := hn
  simp [withRecord, hs, hv, hf]

theorem firstBounds_inside {ps : List (Nat × Placed)} (h : ∀ p ∈ ps, ∀ a, p.2 ≠ .bounds a) : firstBounds ps = none := by
  induction ps with
  | nil => rfl
  | cons p r ih =>
    obtain ⟨l, p⟩ := p
    have hr := ih fun q hq => h q (List.mem_cons_of_mem _ hq)
    cases p with
    | bounds a => exact absurd rfl (h _ List.mem_cons_self a)
    | _ => exact hr

theorem prepXlate_ok {acc : Acc} {wp : Option WpKind} {as : List LaneAcc} {ls : List LaneLoc} (hx : xlCore s c acc as = .ok ls)
    (hw : ∀ k, wp = some k → c.p.exempt = true ∨ ∀ l ∈ ls, wpMatch s c.part c.ctx false k l.va l.size = false) :
    prepXlate s c acc wp as = .go ls := by
  rw [prepXlate, hx]
  cases wp with
  | none => rfl
  | some k =>
    have hn : ls.find? (fun l => !c.p.exempt && wpMatch s c.part c.ctx false k l.va l.size) = none := by
      rw [List.find?_eq_none]
      intro l hl
      rcases hw k rfl with he | he
      · simp [he]
      · simp [he l hl]
    simp [hn]

theorem prepAccess_ok {acc : Acc} {wp : Option WpKind} {sz : Nat} {ps : List (Nat × Placed)} {ls : List LaneLoc}
    (hr : Reaches s c acc wp sz ps ls) : prepAccess s c acc wp sz ps = .go ls := by
  obtain ⟨hi, ha, hx, hw⟩ := hr
  have hn : (placedAccs sz ps).find? (fun a => a.va % sz != 0) = none := by
    rw [List.find?_eq_none]; intro a h; simp [ha a h]
  rw [prepAccess, firstBounds_inside hi]
  simp only [hn, prepXlate_ok hx hw]

theorem withObject_eq {lane va n : Nat} {bytes : List Byte} {after : State} {body : List Byte → State → State}
    (hr : ReadsObject s c lane va n bytes after) : withObject s c lane va n body = body bytes after := by
  obtain ⟨ls, hx, ha, hb, rfl, rfl⟩ := hr
  have hn : ls.any (atomAhead s [.thread c.gid lane]) = false := by rw [List.any_eq_false]; simpa using ha
  rw [withObject, prepXlate_ok hx (fun _ hk => by cases hk)]
  simp only [hn, hb, Bool.false_eq_true, if_false]

/-- An operation in flight is the retirement and the operation. -/
theorem retireOp_eq (h : issuer s = some c) (setB : Bool) (ws : List RegWrite) : retireOp s c setB ws = inFlight s c setB ws := by
  rw [retireOp, retire_eq h]; rfl

end

/-- No lane is poisoned. -/
theorem find_clean {ls : List Nat} {t : Nat → Bool} (h : ∀ l ∈ ls, t l = false) : ls.find? t = none := by
  rw [List.find?_eq_none]; simpa using h

end Sys2Proof.Claims
end

section
/-!
SUPPORT. What reads and stores leave alone. A read moves only the caches, what agents know and the free choices; a store also
memory's words and their histories. Groups, teams, operations and every other part of the state are as before.
-/
namespace Sys2Proof.Claims
open Sys2Proof.Machine

/-- The state without what reads and stores move. -/
def work (s : State) : State :=
  { s with mem := [], poison := [], nibbles := [], parts := [], cores := [], hist := [], know := [], stores := 0, fresh := 0 }

/-- Memory's words and their histories, which a read leaves alone. -/
def words (s : State) : List Host.Cell × SMap Bool × SMap Nat × SMap Hist × Nat := (s.mem, s.poison, s.nibbles, s.hist, s.stores)

/-- Reads and stores alone lead from s to t. -/
def Quiet (s t : State) : Prop := work t = work s

/-- Reads alone lead from s to t. -/
structure Calm (s t : State) : Prop where
  quiet : Quiet s t
  words : words t = words s

section
variable {s t u : State}

@[refl] theorem Quiet.refl (s : State) : Quiet s s := rfl
theorem Quiet.trans (h : Quiet s t) (h' : Quiet t u) : Quiet s u := Eq.trans h' h
@[refl] theorem Calm.refl (s : State) : Calm s s := ⟨rfl, rfl⟩
theorem Calm.trans (h : Calm s t) (h' : Calm t u) : Calm s u := ⟨h.1.trans h'.1, h'.2.trans h.2⟩

theorem Quiet.groups (h : Quiet s t) : t.groups = s.groups := congrArg (·.groups) h
theorem Quiet.teams (h : Quiet s t) : t.teams = s.teams := congrArg (·.teams) h
theorem Quiet.nodes (h : Quiet s t) : t.nodes = s.nodes := congrArg (·.nodes) h
theorem Quiet.entries (h : Quiet s t) : t.entries = s.entries := congrArg (·.entries) h
theorem Quiet.jobs (h : Quiet s t) : t.jobs = s.jobs := congrArg (·.jobs) h
theorem Quiet.ops (h : Quiet s t) : t.ops = s.ops := congrArg (·.ops) h
theorem Quiet.tiles (h : Quiet s t) : t.tiles = s.tiles := congrArg (·.tiles) h
theorem Quiet.clusters (h : Quiet s t) : t.clusters = s.clusters := congrArg (·.clusters) h
theorem Quiet.cur (h : Quiet s t) : t.cur = s.cur := congrArg (·.cur) h
theorem Quiet.clk (h : Quiet s t) : t.clk = s.clk := congrArg (·.clk) h
theorem Quiet.order (h : Quiet s t) : t.order = s.order := congrArg (·.order) h
theorem Quiet.partCfg (h : Quiet s t) : t.partCfg = s.partCfg := congrArg (·.partCfg) h
theorem Quiet.hostMsgs (h : Quiet s t) : t.hostMsgs = s.hostMsgs := congrArg (·.hostMsgs) h
theorem Calm.mem (h : Calm s t) : t.mem = s.mem := congrArg (·.1) h.2
theorem Calm.hist (h : Calm s t) : t.hist = s.hist := congrArg (·.2.2.2.1) h.2

theorem Quiet.getGroup (h : Quiet s t) (gid : Nat) : Machine.getGroup t gid = Machine.getGroup s gid := by
  rw [Machine.getGroup, h.groups]; rfl

theorem Quiet.getTeam (h : Quiet s t) (tid : Nat) : Machine.getTeam t tid = Machine.getTeam s tid := by
  rw [Machine.getTeam, h.teams]; rfl

theorem Quiet.issOf (h : Quiet s t) (q : PathId) : Machine.issOf t q = Machine.issOf s q := by
  simp only [Machine.issOf, h.getGroup, h.getTeam]

theorem Quiet.issuer (h : Quiet s t) : Machine.issuer t = Machine.issuer s := by
  simp only [Machine.issuer, h.cur, h.issOf]

/-- A fold of quiet steps is quiet. -/
theorem Quiet.foldl {α : Type} {f : State → α → State} (hf : ∀ s a, Quiet s (f s a)) (l : List α) (s : State) :
    Quiet s (l.foldl f s) := foldl_same work hf l s

theorem Calm.foldl {α : Type} {f : State → α → State} (hf : ∀ s a, Calm s (f s a)) (l : List α) (s : State) :
    Calm s (l.foldl f s) :=
  ⟨Quiet.foldl (fun s a => (hf s a).1) l s, foldl_same Claims.words (fun s a => (hf s a).2) l s⟩

theorem Quiet.ite {p : Prop} [Decidable p] {a b : State} (ha : Quiet s a) (hb : Quiet s b) : Quiet s (if p then a else b) := by
  split
  · exact ha
  · exact hb

theorem Calm.ite {p : Prop} [Decidable p] {a b : State} (ha : Calm s a) (hb : Calm s b) : Calm s (if p then a else b) := by
  split
  · exact ha
  · exact hb

end

/-! ## Reads -/

theorem calm_modPart (s : State) (p : Nat) (f : Partition → Partition) : Calm s (modPart s p f) := ⟨rfl, rfl⟩
theorem calm_modCore (s : State) (c : Nat) (f : Core → Core) : Calm s (modCore s c f) := ⟨rfl, rfl⟩
theorem calm_modKnow (s : State) (ag : Agent) (f : Know → Know) : Calm s (modKnow s ag f) := ⟨rfl, rfl⟩
theorem calm_choose (s : State) : Calm s (choose s).2 := ⟨rfl, rfl⟩

theorem calm_countCorrupt (s : State) (cmp line : Nat) : Calm s (countCorrupt s cmp line) := by
  unfold countCorrupt; exact .ite ⟨rfl, rfl⟩ (.refl s)

theorem calm_l2Asked (s : State) (cmp loc n : Nat) : Calm s (l2Asked s cmp loc n) := by
  unfold l2Asked
  have hc (l : List Nat) : Calm s (l.foldl (fun s l => countCorrupt s cmp l) s) :=
    Calm.foldl (fun s a => calm_countCorrupt s cmp a) l s
  exact .ite (hc _) ((hc _).trans (calm_modPart ..))

theorem calm_l1Take (s : State) (core sec : Nat) : Calm s (l1Take s core sec) := by
  unfold l1Take; exact .ite (.refl s) ⟨rfl, rfl⟩

theorem calm_askCaches (s : State) (ag : Agent) (cmp loc n : Nat) : Calm s (askCaches s ag cmp loc n) := by
  unfold askCaches
  split
  · exact calm_l2Asked ..
  · exact Calm.foldl (fun s k => (calm_l2Asked s ..).trans (calm_l1Take ..)) _ _

theorem calm_learn (s : State) (ag : Agent) (ids : List Nat) : Calm s (learn s ag ids) := by
  unfold learn; exact .ite (.refl s) (calm_modKnow ..)

theorem calm_acquire (s : State) (ag : Agent) (scope : Nat) (rels : List RelInfo) : Calm s (acquire s ag scope rels) :=
  calm_learn ..

theorem calm_acquireAll (s : State) (ags : List Agent) (scope : Nat) (rels : List RelInfo) :
    Calm s (acquireAll s ags scope rels) := Calm.foldl (fun s a => calm_acquire s a scope rels) ags s

theorem calm_noteRead (s : State) (ag : Agent) (ms : List (Msg × Nat)) : Calm s (noteRead s ag ms) := by
  unfold noteRead; exact .ite (.refl s) (calm_modKnow ..)

theorem calm_pickSeen (must : Msg → Bool) (s : State) (ms : List Msg) : Calm s (pickSeen must s ms).2 := by
  induction ms generalizing s with
  | nil => exact .refl s
  | cons m r ih =>
    unfold pickSeen
    split
    · exact ih s
    · exact (calm_choose s).trans (ih _)

theorem calm_seenBy (s : State) (ags : List Agent) (h : Option Hist) (pend : List Msg) (mask : Nat) :
    Calm s (seenBy s ags h pend mask).2 := (calm_pickSeen ..).trans (calm_pickSeen ..)

theorem calm_readWord (s : State) (ags : List Agent) (h : Option Hist) (pend : List Msg) (now : List Byte × Bool) (a n : Nat) :
    Calm s (readWord s ags h pend now a n).2 :=
  (calm_seenBy ..).trans (Calm.foldl (fun s a => calm_noteRead s a _) ags _)

theorem calm_readUnit (s : State) (ags : List Agent) (cmp loc n : Nat) : Calm s (readUnit s ags cmp loc n).2 :=
  calm_readWord s ags _ _ (l2Word s cmp (loc / 8)) ..

theorem calm_ctlReadUnit (s : State) (ags : List Agent) (cmp loc n : Nat) : Calm s (ctlReadUnit s ags cmp loc n).2 :=
  Calm.foldl (fun s a => calm_noteRead s a _) ags s

theorem calm_readUnits {one : State → Nat → Nat → Got × State} (ho : ∀ s a k, Calm s (one s a k).2) (s : State)
    (us : List (Nat × Nat)) : Calm s (readUnits one s us).2 := by
  induction us generalizing s with
  | nil => exact .refl s
  | cons u r ih => exact (ho s _ _).trans (ih _)

theorem calm_readBytes (s : State) (ags : List Agent) (cmp kind loc n : Nat) : Calm s (readBytes s ags cmp kind loc n).2 := by
  unfold readBytes
  split
  · exact calm_readUnits (fun s a k => calm_ctlReadUnit s ags cmp a k) ..
  · have hr : Calm s (readUnits (fun s a k => readUnit s ags cmp a k) s (unitsOf loc n)).2 :=
      calm_readUnits (fun s a k => calm_readUnit s ags cmp a k) ..
    cases ags with
    | nil => exact hr
    | cons a _ => exact hr.trans (calm_askCaches ..)

theorem calm_readSet (s : State) (ags : List Agent) (ls : List LaneLoc) : Calm s (readSet s ags ls).2 := by
  induction ls generalizing s with
  | nil => exact .refl s
  | cons l r ih => exact (calm_readBytes ..).trans (ih _)

theorem calm_loadLanes (one : LaneLoc → Nat → Nat) (who : Nat → List Agent) (acq : Option Nat) (s : State) (ls : List LaneLoc) :
    Calm s (loadLanes one who acq s ls).2 := by
  induction ls generalizing s with
  | nil => exact .refl s
  | cons l r ih =>
    refine (calm_readBytes s (who l.lane) l.cmp l.kind l.loc l.size).trans (Calm.trans ?_ (ih _))
    cases acq with
    | none => exact .refl _
    | some k => exact calm_acquireAll ..

theorem calm_readMarks (s : State) (ag : Agent) (l : LaneLoc) : Calm s (readMarks s ag l).2 := by
  have hu (us : List (Nat × Nat)) (a : (List Byte × List Bool) × State) : Calm a.2 (us.foldl (fun a u =>
      let r := (if l.kind = 3 then ctlReadUnit else readUnit) a.2 [ag] l.cmp u.1 u.2
      ((a.1.1 ++ r.1.bytes, a.1.2 ++ List.replicate u.2 r.1.bad), r.2)) a).2 := by
    induction us generalizing a with
    | nil => exact .refl _
    | cons u r ih =>
      refine Calm.trans ?_ (ih _)
      dsimp only
      split
      · exact calm_ctlReadUnit ..
      · exact calm_readUnit ..
  have h := hu (unitsOf l.loc l.size) (([], []), s)
  exact .ite h (h.trans (calm_askCaches ..))

theorem calm_readAllMarks (s : State) (ag : Agent) (ls : List LaneLoc) : Calm s (readAllMarks s ag ls).2 := by
  induction ls generalizing s with
  | nil => exact .refl s
  | cons l r ih => exact (calm_readMarks ..).trans (ih _)

theorem calm_shareStores (s : State) (ag : Agent) (id : Nat) (others : List Agent) : Calm s (shareStores s ag id others) :=
  Calm.foldl (fun s a => calm_modKnow s a _) others s

theorem calm_askSet (s : State) (ls : List LaneLoc) : Calm s (askSet s ls) :=
  Calm.foldl (fun s _ => .ite (.refl s) (calm_l2Asked ..)) ls s

theorem calm_rangeAsked (s : State) (who : Walker) (part ctx : Nat) (acc : Acc) (sup : Bool) (va n : Nat) :
    Calm s (rangeAsked s who part ctx acc sup va n) := by
  unfold rangeAsked
  split
  · exact calm_askSet ..
  · exact .refl s

theorem calm_reportBatch (s : State) (part : Nat) (w : Faulter) (gs : List Granule) (c : Client) :
    Calm s (reportBatch s part w gs c).2 := ⟨rfl, rfl⟩

/-! ## Stores -/

theorem quiet_noteStore (s : State) (ag : Agent) (m : Msg) : Quiet s (noteStore s ag m) := rfl
theorem quiet_setPoison (s : State) (a : Nat) (b : Bool) : Quiet s (setPoison s a b) := rfl

theorem quiet_l2SetWord (s : State) (cmp w : Nat) (v : List Byte × Bool) : Quiet s (l2SetWord s cmp w v) := by
  unfold l2SetWord
  refine .ite rfl (Quiet.trans (t := if l2Has s (8 * w) = true then s else countCorrupt s cmp (8 * w / 128)) ?_ rfl)
  exact .ite rfl (calm_countCorrupt ..).1

theorem quiet_publish (s : State) (w : Nat) (m : Msg) : Quiet s (publish s w m) := quiet_l2SetWord s m.cmp w _

theorem quiet_coreWriteBack (s : State) (core : Nat) (sel : Nat → Bool) : Quiet s (coreWriteBack s core sel) := by
  unfold coreWriteBack
  exact .ite rfl (Quiet.trans (t := setCore s core _) rfl
    (Quiet.foldl (fun s (e : Nat × List Msg) => Quiet.foldl (fun s m => quiet_publish s e.1 m) e.2 s) _ _))

theorem quiet_publishAt (s : State) (core scope : Nat) : Quiet s (publishAt s core scope) := by
  unfold publishAt; exact .ite rfl (quiet_coreWriteBack ..)

theorem quiet_coreDrop (s : State) (core : Nat) (sel : Nat → Bool) : Quiet s (coreDrop s core sel) :=
  (quiet_coreWriteBack s core sel).trans rfl

theorem quiet_storeUnit (s : State) (ag : Agent) (cmp va loc : Nat) (bs : List Byte) (bad : Bool) (rels : List RelInfo) :
    Quiet s (storeUnit s ag cmp va loc bs bad rels) := by
  unfold storeUnit
  cases ag.core s with
  | some c => exact (quiet_noteStore s ag _).trans (calm_modCore ..).1
  | none => exact (quiet_noteStore s ag _).trans (quiet_publish ..)

end Sys2Proof.Claims
end

section
/-!
SUPPORT. Divergence, joins, indirect jumps, calls and returns (08 R181, R182, R187 to R189): what the group's paths and records
are behind them.
-/
namespace Sys2Proof.Claims
open Sys2Proof.Machine

@[simp] theorem setLive_stack (g : Group) (n : Nat) (p : Option Path) : (g.setLive n p).stack = g.stack := by
  unfold Group.setLive; split <;> rfl

@[simp] theorem setLive_rets (g : Group) (n : Nat) (p : Option Path) : (g.setLive n p).rets = g.rets := by
  unfold Group.setLive; split <;> rfl

@[simp] theorem setLive_setLive (g : Group) (n : Nat) (p q : Option Path) : (g.setLive n p).setLive n q = g.setLive n q := by
  simp only [Group.setLive]; split <;> rfl

theorem setLive_live_other (g : Group) {n m : Nat} (p : Option Path) (h : (m = 0) ≠ (n = 0)) :
    (g.setLive n p).live m = g.live m := by
  simp only [Group.live, Group.setLive]
  by_cases hn : n = 0 <;> by_cases hm : m = 0 <;> simp_all

theorem other_slot (n : Nat) : (1 - n = 0) ≠ (n = 0) := by
  intro h; simp only [eq_iff_iff] at h; omega

/-! ## BDIV and JOIN (R181, R182, R273) -/

theorem divide_eq (g : Group) (n : Nat) (p : Path) (taken : Mask) (target join next : Nat) :
    divide g n p taken target join next =
      let rest := p.mask &&& ~~~taken
      let g1 := pushRec g { kind := .join, addr := join, mask := p.mask, aux := 0, fmt := p.fmt, handle := p.handle }
      let stay := splitPath p rest next
      let go := splitPath p taken target
      fillSlots
        (if taken = 0 then g1.setLive n (if rest = 0 then none else some stay)
          else if rest = 0 then g1.setLive n (some go)
          else if (g.live (1 - n)).isNone then
            (g1.setLive n (some stay)).setLive (1 - n) (some { go with count := 0, rotate := false })
          else pushRec (g1.setLive n (some stay)) (parkedRec go)) := by
  have hl (p : Option Path) (r : Rec) : ((pushRec g r).setLive n p).live (1 - n) = g.live (1 - n) := by
    rw [setLive_live_other _ _ (other_slot n)]; rfl
  simp only [divide, splitPath]
  by_cases ht : taken = 0
  · rw [if_pos ht, if_pos ht]
  · by_cases hr : p.mask &&& ~~~taken = 0
    · rw [if_neg ht, if_neg ht, if_pos hr, if_pos hr, setLive_live_self, if_pos Option.isNone_none, setLive_setLive]
    · rw [if_neg ht, if_neg ht, if_neg hr, if_neg hr, setLive_live_self, Option.isNone_some, if_neg Bool.false_ne_true, hl]

theorem bdiv_goes {f : Fields} {s : State} {c : Iss} (h : issuer s = some c) (hg : f.guardLegal = true)
    (hf : branchFields f = true) (hr : c.g.stack.length + 2 ≤ 504) :
    exec (.bdiv f) s = .next (modGroup s c.gid fun _ => divide (countRetired c.g true) c.live c.p (active c f)
      (wordTarget c.p f.target13) (wordTarget c.p f.join14) (nextClause c.p)) := by
  refine (exec_onPath rfl h).trans ?_
  rw [hg, hf, ordinaryRoom, decide_eq_true hr, Bool.and_self, Bool.not_true, if_neg (by decide), if_neg (by decide), countEnd_eq h,
    relTarget_eq, relTarget_eq]

theorem joinArrive_eq (g : Group) (n : Nat) (p : Path) (r : Rec) (hs : p.slot = 0) :
    joinArrive g n p r =
      let come := r.aux ||| p.mask
      let merged := if atClauseEnd p then freshPath (nextClause p) 0 r.mask r.fmt r.handle
        else freshPath p.addr (slotWidth p) r.mask r.fmt r.handle
      fillSlots (if come = r.mask then
          { (g.setLive n none).setLive n (some merged) with stack := replaceTop .join p.mask none g.stack }
        else { g.setLive n none with stack := replaceTop .join p.mask (some { r with aux := come }) g.stack }) := by
  simp only [joinArrive, hs, Nat.zero_add, setLive_stack]

theorem join_goes {f : Fields} {s : State} {c : Iss} {r : Rec} (h : issuer s = some c) (hg : f.guardPathWide = true)
    (hf : noFields f = true) (ht : topRec c.g .join c.p.mask = some r) (hs : c.p.slot = 0) (ha : r.addr = c.p.addr) :
    exec (.join f) s = .next (modGroup s c.gid fun _ => joinArrive (countRetired c.g (atClauseEnd c.p)) c.live c.p r) := by
  refine (exec_pathWide rfl h hg hf).trans ?_
  rw [ht]
  dsimp only
  rw [if_neg (by simp [hs, ha]), modGroup_issuer h]

/-- Settles O11: the division and the arrival, each by its cases. -/
theorem divergeAndJoin : Obligations.DivergeAndJoin := by
  refine ⟨fun f s c h hg hf hr => ?_, fun f s c r h hg hf ht hs ha => ?_⟩
  · rw [Goes, bdiv_goes h hg hf hr, divide_eq]; rfl
  · rw [Goes, join_goes h hg hf ht hs ha, joinArrive_eq _ _ _ _ hs]; rfl

/-! ## JMPI (R189, R274) -/

theorem foldl_pushRec (F : Nat → Rec) (ts : List Nat) (g : Group) :
    ts.foldl (fun g x => pushRec g (F x)) g = { g with stack := (ts.map F).reverse ++ g.stack } := by
  induction ts generalizing g with
  | nil => rfl
  | cons t r ih =>
    rw [List.foldl_cons, ih, List.map_cons, List.reverse_cons, List.append_assoc]
    rfl

/-- Settles O12: one target is a branch; with several the higher ones are parked, one record each. -/
theorem indirectJump : Obligations.IndirectJump := by
  intro f s c ts h hg hl hb t lanes ht hx hp
  have hi (body : (Nat → Nat) → List Nat → State) : indirect s c f body = body t ts := indirect_eq hg hl hb ht hx hp
  have he := exec_onPath (o := exec (.jmpi f) s) rfl h
  rw [hi] at he
  refine ⟨?_, ?_⟩
  · rintro x rfl
    rw [Goes, he, ← branchTo_eq h]; rfl
  · rintro lo y more rfl hr
    rw [Goes, he]
    have hn : ¬(lo :: y :: more).length ≤ 1 := by simp
    rw [if_neg hn, ordinaryRoom, List.length_cons, List.length_cons, Nat.add_sub_cancel, decide_eq_true hr, Bool.not_true,
      if_neg (by decide), countEnd_eq h]
    dsimp only [splitJump]
    rw [foldl_pushRec, setLive_stack]
    rfl

end Sys2Proof.Claims
end

section
/-! SUPPORT. Calls and returns (08 R187, R188; 12 R275, R277): the return entries and the SERIAL record behind each. -/
namespace Sys2Proof.Claims
open Sys2Proof.Machine

theorem setLive_with_records (g : Group) (n : Nat) (p : Option Path) (stack : List Rec) (rets : List RetEntry) :
    ({ g with stack := stack, rets := rets } : Group).setLive n p = { g.setLive n p with stack := stack, rets := rets } := by
  unfold Group.setLive; split <;> rfl

theorem setLive_with_rets (g : Group) (n : Nat) (p : Option Path) (rets : List RetEntry) :
    ({ g with rets := rets } : Group).setLive n p = { g.setLive n p with rets := rets } := by
  unfold Group.setLive; split <;> rfl

section
variable {s : State} {c : Iss} {f : Fields}

/-! ## CALL and CALLI (R187, R188, R275) -/

theorem callTo_eq (h : issuer s = some c) (target : Nat) :
    callTo s c target = modGroup s c.gid fun _ => { atClause c target with rets := callEntry c.p false c.p.mask :: c.g.rets } := by
  obtain ⟨-, hg, hp, -⟩ := issuer_spec h
  have hl : (pushRet c.g (retEntry c.p false c.p.mask)).live c.live = some c.p := hp
  rw [callTo, branchTo, modGroup_modGroup, modGroup_const _ hg, hl]
  dsimp only [Option.map_some, pushRet]
  rw [setLive_with_rets]
  rfl

theorem retRoom_true (h : c.g.rets.length < 256) : retRoom c.g = true := decide_eq_true h

theorem call_goes (h : issuer s = some c) (hg : f.guardPathWide = true) (hf : branchFields f = true)
    (hr : c.g.rets.length < 256) : Goes (.call f) s c
      { atClause c (wordTarget c.p f.imm27) with rets := callEntry c.p false c.p.mask :: c.g.rets } := by
  refine (exec_pathWide rfl h hg hf).trans ?_
  rw [retRoom_true hr, Bool.not_true, if_neg (by decide), callTo_eq h, relTarget_eq]

/-- A call to one of several targets that opens a SERIAL record. -/
theorem serialCall_opens (g : Group) (n : Nat) (p : Path) (sub : Mask) (target : Nat) :
    serialCall g n p sub target none =
      { g.setLive n (some (splitPath p sub target)) with
        stack := { kind := .serial, addr := p.addr, slot := p.slot, mask := p.mask, aux := sub, fmt := p.fmt
                   handle := p.handle, run := sub, next := nextClause p } :: g.stack
        rets := callEntry p true sub :: g.rets } := setLive_with_records g n _ _ _

/-- A call to the next of several targets, at the SERIAL record that is there. -/
theorem serialCall_continues (g : Group) (n : Nat) (p : Path) (sub : Mask) (target : Nat) (r : Rec) :
    serialCall g n p sub target (some r) =
      { g.setLive n (some (splitPath p sub target)) with
        stack := replaceTop .serial p.mask (some { r with aux := r.aux ||| sub, run := sub }) g.stack
        rets := callEntry p true sub :: g.rets } := setLive_with_records g n _ _ _

theorem exec_calli {ts : List Nat} (h : issuer s = some c) (hr : c.g.rets.length < 256)
    (hi : ∀ body : (Nat → Nat) → List Nat → State,
      indirect s c f body = body (fun l => srcVal s c .q64 (opnd f.a) l) ts) :
    exec (.calli f) s = .next
      (if ts.length ≤ 1 ∧ (serialOf c).isNone then callTo s c (ts.headD 0)
      else if (serialOf c).isNone && !ordinaryRoom c.g 1 then takeTrap s c causeStack 0 0
      else modGroup s c.gid fun _ => serialCall (countRetired c.g true) c.live c.p
        (c.p.mask &&& maskOf ((lanesOf c.p.mask).filter fun l => srcVal s c .q64 (opnd f.a) l == ts.headD 0))
        (ts.headD 0) (serialOf c)) := by
  refine (exec_onPath rfl h).trans ?_
  rw [hi, retRoom_true hr, Bool.not_true, if_neg (by decide), countEnd_eq h]
  rfl

/-! ## RET (R188, R277) -/

theorem exec_ret {e : RetEntry} (h : issuer s = some c) (hg : f.guardPathWide = true) (hf : noFields f = true)
    (he : c.g.rets.find? (fun e => e.mask &&& c.p.mask == c.p.mask) = some e) :
    exec (.ret f) s = .next (modGroup s c.gid fun _ => returnVia (countRetired c.g true) c.live c.p e) := by
  refine (exec_pathWide rfl h hg hf).trans ?_
  rw [he]
  dsimp only
  rw [countEnd_eq h]

theorem returnVia_plain (g : Group) (n : Nat) (p : Path) {e : RetEntry} (he : e.ser = false) :
    returnVia g n p e =
      let left := e.mask &&& ~~~p.mask
      { g.setLive n (some { endClause p e.addr with handle := e.handle }) with
        rets := replaceRet p.mask (if left = 0 then none else some { e with mask := left }) g.rets } := by
  rw [returnVia, he]
  exact setLive_with_rets ..

/-! ## CALLD (R275) -/

theorem modPath_modGroup (s : State) (gid n : Nat) (g : Group) (p : Path) (hl : g.live n = some p) (F : Path → Path) :
    modPath (modGroup s gid fun _ => g) gid n F = modGroup s gid fun _ => g.setLive n (some (F p)) := by
  rw [modPath, modGroup_modGroup, hl]; rfl

/-- The entry of memory names a clause and a handle, and the call goes there. -/
theorem calldThrough_eq (h : issuer s = some c) (scope lane e : Nat) (rels : List RelInfo) (hh : e / 2 ^ 48 % 2 ^ 16 ≠ 0)
    (he : e % 4 = 0) (hr : c.g.rets.length < 256) :
    calldThrough s c scope lane e rels =
      modGroup (acquireAll s (threadsOf c.gid c.p.mask) scope rels) c.gid fun _ =>
        { (countRetired c.g true).setLive c.live
            (some { endClause c.p (e % 2 ^ 48) with handle := e / 2 ^ 48 % 2 ^ 16 }) with
          rets := callEntry c.p false c.p.mask :: c.g.rets } := by
  have ht : issuer (acquireAll s (threadsOf c.gid c.p.mask) scope rels) = some c := (calm_acquireAll ..).1.issuer.trans h
  have hb : bitsOf e 0 48 = e % 2 ^ 48 := by simp [bitsOf]
  have hl (r : List RetEntry) : ({ atClause c (e % 2 ^ 48) with rets := r } : Group).live c.live
      = some (endClause c.p (e % 2 ^ 48)) := setLive_live_self ..
  rw [calldThrough, bitsOf, if_neg hh, if_neg (by omega), retRoom_true hr, Bool.not_true, if_neg (by decide), hb]
  dsimp only
  rw [callTo_eq ht, modPath_modGroup _ _ _ _ _ (hl _), setLive_with_rets]
  congr 1; funext _
  simp only [atClause, countRetired]
  unfold Group.setLive
  split <;> rfl

theorem calld_goes {r : BufRec} {l : LaneLoc} (h : issuer s = some c) (hg : f.guardPathWide = true) (hl : calldLegal c f = true)
    (hb : memBad c f (lowLane c.p.mask) = false) (hn : Names c f false (r.typed || recForbids r 3) r)
    (hx : Reaches s c .read (some .rd) 8 (lanePlaces s c r 8 (opnd f.a) f.imm9 [lowLane c.p.mask]) [l])
    (ha : atomAhead s (threadsOf c.gid c.p.mask) l = false)
    (hbad : (readBytes s (threadsOf c.gid c.p.mask) l.cmp l.kind l.loc 8).1.bad = false) :
    exec (.calld f) s = .next (calldThrough (readBytes s (threadsOf c.gid c.p.mask) l.cmp l.kind l.loc 8).2 c f.mod.toNat
      (lowLane c.p.mask) (leNat (readBytes s (threadsOf c.gid c.p.mask) l.cmp l.kind l.loc 8).1.bytes)
      (readBytes s (threadsOf c.gid c.p.mask) l.cmp l.kind l.loc 8).1.rels) := by
  refine (exec_pathWide rfl h hg hl).trans ?_
  dsimp only
  rw [hb, if_neg (by decide), withRecord_eq (forbidden := fun r => r.typed || recForbids r 3) hn, prepAccess_ok hx]
  dsimp only
  rw [ha, if_neg (by decide), hbad, if_neg (by decide)]

end

/-- Settles O13: each call pushes its entry, and a return goes through the topmost one. -/
theorem callsAndReturns : Obligations.CallsAndReturns := by
  refine ⟨fun f s c h hg hf hr => call_goes h hg hf hr, ?_, ?_, ?_⟩
  case _ =>
    intro f s c ts h hg hl hb hr t lanes ht hx hp
    have he := exec_calli h hr (ts := ts) fun body => indirect_eq (body := body) hg hl hb ht hx hp
    refine ⟨?_, ?_, ?_⟩
    · rintro x rfl hn
      rw [Goes, he, hn, if_pos ⟨le_rfl, rfl⟩, callTo_eq h]; rfl
    · rintro lo y more rfl hn hs
      rw [Goes, he, hn, if_neg (by simp), ordinaryRoom, decide_eq_true hs, serialCall_opens]; rfl
    · rintro lo more r rfl hn
      rw [Goes, he, hn, if_neg (by simp), serialCall_continues]; rfl
  case _ =>
    intro f s c e h hg hf he left rets
    have hx := exec_ret h hg hf he
    refine ⟨fun hs => ?_, fun hs => ?_⟩
    · rw [Goes, hx, returnVia_plain _ _ _ hs]; rfl
    · rw [Goes, hx, returnVia, if_pos hs]; rfl
  case _ =>
    intro f s c r l h hg hl hm hn hx ags ha hr b e hbad hh he
    rw [calld_goes h hg hl hm hn hx ha hbad, calldThrough_eq ((calm_readBytes ..).1.issuer.trans h) _ _ _ _ hh he hr]

end Sys2Proof.Claims
end

section
/-! SUPPORT. Settings of a path, and EXIT (08 R184; 06 R144; 12 R270, R271, R278, R280 to R283). -/
namespace Sys2Proof.Claims
open Sys2Proof.Machine

section
variable {s : State} {c : Iss} {f : Fields}

/-- The issuing path changed and then retired. -/
theorem retire_modPath (h : issuer s = some c) (F : Path → Path) :
    retire (modPath s c.gid c.live F) c =
      modGroup s c.gid fun _ => countRetired (c.g.setLive c.live (some (advance (F c.p)))) (atClauseEnd c.p) := by
  rw [retire, modPath_issuer h, modGroup_modGroup, setLive_live_self, setLive_setLive]; rfl

theorem advance_handle (p : Path) (v : Nat) : advance { p with handle := v } = { advance p with handle := v } := by
  have h : atClauseEnd { p with handle := v } = atClauseEnd p := rfl
  unfold advance
  rw [h]
  cases atClauseEnd p <;> rfl

theorem setLive_countRetired (g : Group) (n : Nat) (p : Option Path) (e : Bool) :
    (countRetired g e).setLive n p = countRetired (g.setLive n p) e := by
  unfold Group.setLive; split <;> rfl

theorem setLive_behind (c : Iss) (p : Path) :
    (behind c).setLive c.live (some p) = countRetired (c.g.setLive c.live (some p)) (atClauseEnd c.p) := by
  rw [behind, setLive_countRetired, setLive_setLive]

/-! ## FFENCE, YIELD, SETFMT and DICT -/

theorem ffence_goes (h : issuer s = some c) (hg : f.guardPathWide = true) (hm : f.mod = 0) (hx : f.x.toNat ≤ 2)
    (hz : allZero [f.d, f.a, f.b, f.c] = true) :
    exec (.ffence f) s = .next (retire (if f.x = 2 then s else fenceCode s c.core c.gid (threadsOf c.gid c.p.mask)) c) :=
  (exec_pathWide (o := exec (.ffence f) s) rfl h hg (by simp [hm, hx, hz])).trans rfl

theorem fenceCode_retire (h : issuer s = some c) (ags : List Agent) :
    retire (fenceCode s c.core c.gid ags) c = modGroup s c.gid fun _ => past c { c.g with
      code := c.g.code ++ ((icinvsAt s c.core).filter fun v => (releasedBy s ags).contains v.id).filter fun v =>
        !c.g.code.contains v } := retire_modGroup h rfl

theorem setfmtValue_eq (s : State) (c : Iss) (f : Fields) :
    setfmtValue s c f = srcVal s c .w32 (opnd f.a) 0 ||| (f.imm18.toNat <<< if f.x = 0 then 0 else 14) := by
  rw [Nat.shiftLeft_eq, setfmtValue]
  split <;> rfl

theorem setfmt_goes (h : issuer s = some c) (hg : f.guardPathWide = true) (hl : setfmtLegal f = true)
    (hb : srcBad c false (opnd f.a) 0 = false) (hr : fmtRejected (setfmtValue s c f) = false) :
    exec (.setfmt f) s = .next (modGroup s c.gid fun _ => countRetired (c.g.setLive c.live
      (some (advance { c.p with fmt := BitVec.ofNat 32 (setfmtValue s c f) }))) (atClauseEnd c.p)) := by
  refine (exec_pathWide rfl h hg hl).trans ?_
  rw [hb, if_neg (by decide), hr, if_neg (by decide)]
  exact congrArg _ (retire_modPath h _)

theorem dict_goes (h : issuer s = some c) (hg : f.guardPathWide = true) (hm : f.mod = 0) (hx : f.x = 0)
    (hz : allZero [f.d, f.b, f.c] = true) (hu : (opnd f.a).isUniform = true) (hl : srcLegal c false (opnd f.a) = true)
    (hb : srcBad c false (opnd f.a) 0 = false) (hv : srcVal s c .w32 (opnd f.a) 0 < 2 ^ 16) :
    exec (.dict f) s = .next (modGroup s c.gid fun _ => countRetired (c.g.setLive c.live
      (some (advance { c.p with handle := srcVal s c .w32 (opnd f.a) 0 }))) (atClauseEnd c.p)) := by
  refine (exec_pathWide rfl h hg (by simp [hm, hx, hz, hu, hl])).trans ?_
  dsimp only
  rw [hb, if_neg (by decide), if_neg (Nat.not_le.2 hv), retire_eq h,
    modPath_modGroup _ _ _ (behind c) (advance c.p) (setLive_live_self ..),
    advance_handle c.p (srcVal s c .w32 (opnd f.a) 0), setLive_behind]

end

/-! ## GETFMT -/

theorem getfmt_writes (f : Fields) : Writes (.getfmt f) f
    (fun c => f.mod == 0 && f.x == 0 && allZero [f.a, f.b, f.c] && dstLegal c false (opnd f.d)) (fun _ _ _ => false)
    (fun _ c => toVec f.d false (active c f) fun _ => c.p.fmt.toNat) (fun _ c => toSca f.d false c.p.fmt.toNat) noP :=
  writes_of (fun _ => rfl) (fun _ h => h) fun s c hc _ _ _ => retire_wrote hc <| by
    refine ((Wrote.writeScal c.g false f.d c.p.fmt.toNat).trans (Wrote.mask _ false f.d (active c f) fun _ => c.p.fmt.toNat)).congr
      (fun r l _ => ?_) (fun _ => rfl) fun _ _ _ _ => rfl
    cases toVec f.d false (active c f) (fun _ => c.p.fmt.toNat) r l <;> rfl

/-! ## EXIT (R271) -/

/-- The registers of a group, which its paths and records do not move. -/
def registers (g : Group) : SMap Word × SMap Word × SMap Mask × SMap Nat := (g.vregs, g.sregs, g.preds, g.flags)

theorem registers_setLive (g : Group) (n : Nat) (p : Option Path) : registers (g.setLive n p) = registers g := by
  unfold Group.setLive; split <;> rfl

theorem registers_fillSlot (g : Group) (n : Nat) : registers (fillSlot g n) = registers g := by
  unfold fillSlot
  split
  · rfl
  · split
    · rfl
    · exact registers_setLive ..

theorem registers_placePath (g : Group) (n : Nat) (p : Path) : registers (placePath g n p) = registers g := by
  unfold placePath
  split_ifs
  · exact registers_setLive ..
  · exact registers_setLive ..
  · rfl

theorem registers_removeLanes (g : Group) (l : Mask) : registers (removeLanes g l) = registers g := by
  have hp (ps : List Path) (g : Group) : registers (ps.foldl (fun g p => placePath g 0 p) g) = registers g := by
    induction ps generalizing g with
    | nil => rfl
    | cons p r ih => exact (ih _).trans (registers_placePath ..)
  exact (registers_fillSlot ..).trans ((registers_fillSlot ..).trans (hp ..))

theorem exit_goes {f : Fields} {s : State} {c : Iss} (h : issuer s = some c) (hg : f.guardLegal = true) (hf : noFields f = true)
    (ha : active c f ≠ 0) : Goes (.exit f) s c (removeLanes (behind c) (active c f)) := by
  refine (exec_masked rfl h hg hf ha).trans ?_
  rw [retire_eq h, modGroup_modGroup]

/-- Settles O14, one setting after the other. -/
theorem pathSettingsAndExit : Obligations.PathSettingsAndExit := by
  refine ⟨?nop, ?ffence, ?yield, ?setfmt, getfmt_writes, ?dict, ?exit⟩
  case nop =>
    intro f s c h hg hf
    refine (exec_onPath rfl h).trans ?_
    simp only [runMasked, hg, hf, retire_eq h, Bool.and_self, Bool.not_true, Bool.false_eq_true, if_false, ite_self]
  case ffence =>
    intro f s c h hg hm hx hz named
    rw [Goes, ffence_goes h hg hm hx hz]
    by_cases h2 : f.x = 2
    · rw [if_pos h2, if_pos h2, retire_eq h]; rfl
    · rw [if_neg h2, if_neg h2, fenceCode_retire h]
  case yield =>
    intro f s c h hg hf
    exact (exec_pathWide rfl h hg hf).trans (congrArg _ (retire_modPath h _))
  case setfmt =>
    intro f s c h hg hl hb v hr
    rw [Goes, setfmt_goes h hg hl hb (setfmtValue_eq s c f ▸ hr), setfmtValue_eq]
  case dict => exact fun f s c h hg hm hx hz hu hl hb hv => dict_goes h hg hm hx hz hu hl hb hv
  case exit =>
    intro f s c h hg hf
    refine ⟨fun ha => exec_masked_empty rfl h hg hf ha, fun ha => ⟨_, exit_goes h hg hf ha, rfl, ?_⟩⟩
    have hr : registers (removeLanes (behind c) (active c f)) = registers c.g :=
      (registers_removeLanes ..).trans (registers_setLive ..)
    exact ⟨congrArg (·.1) hr, congrArg (·.2.1) hr, congrArg (·.2.2.1) hr, congrArg (·.2.2.2) hr⟩

end Sys2Proof.Claims
end

section
/-! SUPPORT. The step (09 R212, R213; 11 R233 to R238): the oldest event, or a turn, of which a ready path is one. -/
namespace Sys2Proof.Claims
open Sys2Proof.Machine

/-! ## A ready path -/

theorem mem_issueFronts {s : State} {q : PathId} (qs : List PathId) (taken : List Nat) (h : q ∈ issueFronts s qs taken) :
    (issueOf s q).isSome = true := by
  induction qs generalizing taken with
  | nil => cases h
  | cons p r ih =>
    simp only [issueFronts] at h
    split_ifs at h with _ hp
    · exact ih _ h
    · rcases List.mem_cons.1 h with rfl | h
      · exact hp
      · exact ih _ h
    · exact ih _ h

/-- A path among the turns can issue. -/
theorem turn_path_isSome {s : State} {q : PathId} (h : Turn.path q ∈ turns s) : (issueOf s q).isSome = true := by
  rw [turns, List.mem_append] at h
  rcases h with h | h
  · obtain ⟨i, -, hi⟩ := List.mem_map.1 h; cases hi
  · obtain ⟨p, hp, hq⟩ := List.mem_map.1 h
    cases hq
    exact mem_issueFronts _ _ hp

section
variable {s : State} {c : Iss}

theorem waitEdges_same {β : Type} (g : State → β) (hg : ∀ s ag scope rels, g (acquire s ag scope rels) = g s) (s : State) (c : Iss)
    (fl : List Nat) : g (waitEdges s c fl) = g s :=
  foldl_same g (fun _ _ => foldl_same g (fun _ _ => hg ..) _ _) _ _

/-- A path whose slot passes every check issues the instruction that the slot holds. -/
theorem slotReady_issues {cl : Clause} {lf : BitVec 64} {e : Bool} {rest : List SlotCode} {i : Instr}
    (hs : cl.slots.drop c.p.slot = .long lf e :: rest) (hd : decodeLong lf = some i)
    (ha : opAllowed s.stepping (opOf lf) = true) (hp : slotPlaced c.p cl (opOf lf) (fieldsOf lf) = true)
    (hb : blockedBy c.g (regUses c (opOf lf) (fieldsOf lf)) = none)
    (ho : opBlocks s c.gid (regUses c (opOf lf) (fieldsOf lf)) = false) (hh : atomsHold s c (opOf lf) i = false)
    (hr : releases i = true → readsHold s c = false) :
    slotReady s c cl = .issue i { s with cur := some ⟨c.gid, c.live⟩ } := by
  have hr' : (releases i && readsHold s c) = false := by
    cases h : releases i
    · rfl
    · rw [Bool.true_and, hr h]
  simp only [slotReady, hs, hd, ha, hp, hb, ho, hh, hr', Bool.not_true, Bool.false_eq_true, if_false, Bool.or_self]

/-- The same of a state that differs in what agents know alone. -/
theorem slotReady_behind {cl : Clause} {lf : BitVec 64} {e : Bool} {rest : List SlotCode} {i : Instr} (s' : State)
    (h1 : s'.stepping = s.stepping) (h2 : s'.ops = s.ops) (h3 : s'.parts = s.parts)
    (hs : cl.slots.drop c.p.slot = .long lf e :: rest) (hd : decodeLong lf = some i)
    (ha : opAllowed s.stepping (opOf lf) = true) (hp : slotPlaced c.p cl (opOf lf) (fieldsOf lf) = true)
    (hb : blockedBy c.g (regUses c (opOf lf) (fieldsOf lf)) = none)
    (ho : opBlocks s c.gid (regUses c (opOf lf) (fieldsOf lf)) = false) (hh : atomsHold s c (opOf lf) i = false)
    (hr : releases i = true → readsHold s c = false) :
    slotReady s' c cl = .issue i { s' with cur := some ⟨c.gid, c.live⟩ } := by
  refine slotReady_issues hs hd (h1 ▸ ha) hp hb (Eq.trans ?_ ho) (Eq.trans ?_ hh) fun h => Eq.trans ?_ (hr h)
  · simp only [opBlocks, atomsMeet, h2, h3]
  · rw [atomsHold, h3]; rfl
  · rw [readsHold, h2]; rfl

/-- A path in a clause that waits for nothing is as ready as its slot, behind the waits of the header at the first slot. -/
theorem pathReady_slot {q : PathId} {cl : Clause} (hc : issOf s q = some c) (hr : canRun c = true) (hw : c.p.wait = .none)
    (hcl : c.p.clause = some cl)
    (hf : c.p.slot = 0 ∧ c.p.noWait = false → ∀ k ∈ waitFlags cl, flagCount c.g (some k) = 0) :
    pathReady s q = slotReady (if c.p.slot ≠ 0 ∨ c.p.noWait = true then s else waitEdges s c (waitFlags cl)) c cl := by
  have ho : waitOver s c = true := by rw [waitOver, hw]
  simp only [pathReady, hc, hr, hw, hcl, ho, Bool.not_true, Bool.false_eq_true, if_false]
  by_cases hn : c.p.slot ≠ 0 ∨ c.p.noWait = true
  · rw [if_pos hn, if_pos hn]
  · have hz : ((waitFlags cl).any fun k => flagCount c.g (some k) != 0) = false := by
      rw [List.any_eq_false]
      intro k hk
      simp [hf (by simpa using hn) k hk]
    rw [if_neg hn, if_neg hn, hz, if_neg (by decide)]

end

/-! ## A step -/

theorem takeEvent_next {s : State} {i : Instr} {u : State} (hi : i.isProgram = false) (h3 : s.boot ≠ 3) (h4 : s.boot ≠ 4)
    (h : exec i s = .next u) : takeEvent s i = .next u := by
  have hf : i.fields.isSome = false := hi
  have ha : admits s i = true := by
    simp only [admits, hf, h3, h4, ne_eq, not_false_eq_true, and_self, decide_true, Bool.true_or, Bool.not_false, Bool.and_self]
  rw [takeEvent, ha, if_pos rfl, h]

theorem takeEvent_refused {s : State} {i : Instr} {k : Refusal} (h : exec i s = .refused k) : takeEvent s i = .next s := by
  rw [takeEvent, h]; split <;> rfl

theorem runSelf_turns {s : State} {x : Turn} {r : List Turn} (h3 : s.boot ≠ 3) (h4 : s.boot ≠ 4) (ht : turns s = x :: r) :
    runSelf s = ((((x :: r).drop (nextTurn s (r.length + 1)).1).head?).bind (Turn.run (nextTurn s (r.length + 1)).2)).getD
      (.next (nextTurn s (r.length + 1)).2) := by
  rw [runSelf, if_neg (by simp [h3, h4]), ht]

theorem nextTurn_one (s : State) : nextTurn s 1 = (0, s) := by
  simp [nextTurn, chooseBelow, Nat.mod_one]

theorem nextTurn_spec (s : State) (n : Nat) :
    (nextTurn s (n + 1)).1 < n + 1 ∧ ((nextTurn s (n + 1)).2 = s ∨ (nextTurn s (n + 1)).2 = { s with fresh := s.fresh + 1 }) := by
  unfold nextTurn
  split
  · exact ⟨Nat.mod_lt _ n.succ_pos, .inl rfl⟩
  · unfold chooseBelow
    split
    · exact ⟨n.succ_pos, .inl rfl⟩
    · exact ⟨Nat.mod_lt _ n.succ_pos, .inr rfl⟩

theorem step_of_turn {s : State} {x : Turn} (ha : s.agenda = []) (h3 : s.boot ≠ 3) (h4 : s.boot ≠ 4) (ht : turns s = [x]) :
    step s = ticked ((x.run s).getD (.next s)) := by
  rw [step, stepOnce, ha]
  dsimp only
  rw [runSelf_turns h3 h4 ht, List.length_nil, Nat.zero_add, nextTurn_one]
  rfl

/-- Settles O57: the oldest event of the agenda comes first; with none, one of the candidates, noted by the scheduler as its
clock passes. -/
theorem stepRunsDecoded : Obligations.StepRunsDecoded := by
  refine ⟨?issue, ?event, ?turn, ?turns⟩
  case issue =>
    intro s q c cl lf e rest i ha hb ht hc hr hw hcl first hf hs hd hal hpl uses hbl hop hat hre t
    obtain ⟨hg, hl, -⟩ := issOf_spec hc
    have hq : (⟨c.gid, c.live⟩ : PathId) = q := by rw [hg, hl]
    have hready : pathReady s q = .issue i t := by
      rw [pathReady_slot hc hr hw hcl hf]
      exact (slotReady_behind (if c.p.slot ≠ 0 ∨ c.p.noWait = true then s else waitEdges s c (waitFlags cl))
        (by split; exacts [rfl, waitEdges_same (·.stepping) (fun _ => acquire_stepping _) ..])
        (by split; exacts [rfl, waitEdges_same (·.ops) (fun _ => acquire_ops _) ..])
        (by split; exacts [rfl, waitEdges_same (·.parts) (fun _ => acquire_parts _) ..])
        hs hd hal hpl hbl hop hat hre).trans (by rw [hq])
    have hsome : (issueOf s q).isSome = true := turn_path_isSome (by rw [ht]; exact List.mem_cons_self)
    rw [step_of_turn ha hb.1 hb.2 ht]
    refine ⟨fun u hu => ?_, fun k hk => ?_⟩
    · have ho : issueOf s q = if stalled t u q.gid then none else some (.next (issued t q i u)) := by
        rw [issueOf, hready]; dsimp only; rw [hu]
      have hn : stalled t u q.gid = false := by
        by_contra hst
        rw [ho, if_pos (by simpa using hst)] at hsome
        cases hsome
      rw [Turn.run, ho, hn]; rfl
    · rw [Turn.run, issueOf, hready]; dsimp only; rw [hk]; rfl
  case event =>
    intro s i r ha hi hb
    have hs : step s = ticked (takeEvent { s with agenda := r } i) := by rw [step, stepOnce, ha]
    exact ⟨fun u hu => by rw [hs, takeEvent_next (s := { s with agenda := r }) hi hb.1 hb.2 hu]; rfl,
      fun k hk => by rw [hs, takeEvent_refused (s := { s with agenda := r }) hk]; rfl⟩
  case turn =>
    intro s x o ha hb ht ho
    rw [step_of_turn ha hb.1 hb.2 ht, ho]; rfl
  case turns =>
    intro s ha hb ht
    obtain ⟨x, r, hx⟩ := List.exists_cons_of_ne_nil ht
    obtain ⟨hlt, hfresh⟩ := nextTurn_spec s r.length
    have hi : (nextTurn s (r.length + 1)).1 < (x :: r).length := hlt
    have hh : ((x :: r).drop (nextTurn s (r.length + 1)).1).head? = some (x :: r)[(nextTurn s (r.length + 1)).1] := by
      rw [List.head?_drop, List.getElem?_eq_getElem hi]
    refine ⟨(x :: r)[(nextTurn s (r.length + 1)).1], by rw [hx]; exact List.getElem_mem hi, _, hfresh, ?_⟩
    rw [step, stepOnce, ha]
    dsimp only
    rw [runSelf_turns hb.1 hb.2 hx, hh]; rfl

end Sys2Proof.Claims
end

section
/-! SUPPORT. Register writes of the host at a window that is open, the debugger (10 R231; 18 R430), and boot and power (18 R429,
R432; 01 R19). -/
namespace Sys2Proof.Claims
open Sys2Proof.Machine

theorem windowOr_open {s : State} {part : Nat} (h : windowOpen s part) (off v : Nat) (body : State) (a : Nat) :
    windowOr s part off v body a = body := by
  rw [windowOr, h.1, if_neg (by decide), if_neg (Nat.not_le.2 h.2)]

/-! ## The debugger -/

section
variable {s : State} {part gid : Nat} {g : Group} (hw : windowOpen s part)
include hw

theorem exec_dbgHalt : exec (.dbgHalt part) s = .next (dbgHalt s part) := congrArg _ (windowOr_open hw ..)
theorem exec_dbgResume : exec (.dbgResume part) s = .next (dbgResume s part) := congrArg _ (windowOr_open hw ..)
theorem exec_dbgSingleClause : exec (.dbgSingleClause part) s = .next (dbgSingle s part) := congrArg _ (windowOr_open hw ..)

end

theorem dbgHalt_eq {s : State} {part gid : Nat} {g : Group} (hs : selectedGroup s part = some gid) (hg : getGroup s gid = some g) :
    dbgHalt s part = if g.ended || g.isHalted then s else haltGroup s part gid := by
  simp only [dbgHalt, hs, hg]

theorem dbgSingle_eq {s : State} {part gid : Nat} {g : Group} (hs : selectedGroup s part = some gid)
    (hg : getGroup s gid = some g) :
    dbgSingle s part = modGroup s gid fun _ =>
      if g.isHalted then { g with halt := some (.oneClause (nextLive g) g.clauses) } else g := by
  rw [dbgSingle, hs]; exact modGroup_const _ hg

/-- A group that the debugger holds runs nothing. -/
theorem canRun_halted {c : Iss} (h : c.g.isHalted = true) : canRun c = false := by
  unfold Group.isHalted at h
  cases hh : c.g.halt with
  | none => rw [hh] at h; exact absurd h Bool.false_ne_true
  | some d =>
    rw [hh] at h
    cases d with
    | halted =>
      unfold canRun
      rw [hh]
      exact Bool.and_false _
    | oneClause l n =>
      have hn : (c.g.clauses == n) = false := beq_eq_false_iff_ne.2 (bne_iff_ne.1 h)
      unfold canRun
      rw [hh]
      dsimp only
      rw [hn, Bool.and_false, Bool.and_false]

/-- A group that runs one clause of the other path runs nothing of this one. -/
theorem canRun_otherClause {c : Iss} {n : Nat} (h : c.g.halt = some (.oneClause (1 - c.live) n)) (hl : c.live ≤ 1) :
    canRun c = false := by
  have hn : (c.live == 1 - c.live) = false := by rw [beq_eq_false_iff_ne]; omega
  unfold canRun
  rw [h]
  dsimp only
  rw [hn, Bool.false_and, Bool.and_false]

theorem pathReady_blocked {s : State} {q : PathId} {c : Iss} (hc : issOf s q = some c) (h : canRun c = false) :
    pathReady s q = .blocked := by
  simp only [pathReady, hc, h, Bool.not_false, if_true]

/-- Settles O51: the debugger marks the selected group, and a marked group issues nothing until it is let go. -/
theorem debugger : Obligations.Debugger := by
  refine ⟨?selected, ?unselected, ?held, ?other⟩
  case selected =>
    intro s part gid g hw hs hg
    rw [exec_dbgHalt hw, exec_dbgResume hw, exec_dbgSingleClause hw, dbgHalt_eq hs hg, dbgSingle_eq hs hg]
    refine ⟨fun he hh => ?_, fun hh => ?_, ?_, fun hh => ?_, fun hh => ?_⟩
    · rw [he, hh]; rfl
    · rw [hh, Bool.or_true, if_pos rfl]
    · rw [dbgResume, hs]
    · rw [hh, if_pos rfl, modGroup_const (fun g => { g with halt := some (.oneClause (nextLive g) g.clauses) }) hg]
    · rw [hh, if_neg (by decide), modGroup_const (fun g => g) hg]
  case unselected =>
    intro s part hw hs
    rw [exec_dbgHalt hw, exec_dbgResume hw, exec_dbgSingleClause hw, dbgHalt, dbgResume, dbgSingle, hs]
    exact ⟨rfl, rfl, rfl⟩
  case held =>
    intro s q c hc hh
    have hp := pathReady_blocked hc (canRun_halted hh)
    exact ⟨by rw [readyNow, hp], by rw [issueOf, hp]⟩
  case other =>
    intro s q c n hc hh hl
    rw [readyNow, pathReady_blocked hc (canRun_otherClause hh hl)]

/-! ## Boot -/

/-- What the boot of an image leaves: a transfer that failed, a signature that does not hold, or the device running. -/
theorem bootImage_cases (s : State) (image : BootImage) :
    let hash := shake256 image.bytes 64
    let ok := Config.fusedKey image.key && ed448Verify image.signature hash image.key
    (image.transferred = false → bootImage s image = { s with boot := 4 }) ∧
    (image.transferred = true → ok = false → bootImage s image = { s with boot := 3 }) ∧
    (image.transferred = true → ok = true → (bootImage s image).boot = 2 ∧ (bootImage s image).fwHash = hash ∧
      (bootImage s image).fwImage = image.bytes ∧ (bootImage s image).groups = s.groups ∧ (bootImage s image).mem = s.mem ∧
      (bootImage s image).parts = s.parts) := by
  intro hash ok
  unfold bootImage
  refine ⟨fun ht => ?_, fun ht hk => ?_, fun ht hk => ?_⟩
  · rw [ht]; rfl
  · rw [ht, if_neg (by decide), if_neg (by simpa [ok] using hk)]
  · rw [ht, if_neg (by decide), if_pos hk]
    exact ⟨rfl, rfl, rfl, rfl, rfl, rfl⟩

theorem exec_bootNewImage (s : State) (image : BootImage) :
    exec (.bootNewImage image) s = .next (if s.boot = 3 ∨ s.boot = 4 then bootImage { s with boot := 1 } image else s) := by
  show settle s (tryBootNewImage image s) = _
  unfold tryBootNewImage
  split <;> rfl

theorem step_stopped {s : State} (ha : s.agenda = []) (hb : s.boot = 3 ∨ s.boot = 4) : step s = .next (tick s) := by
  rw [step, stepOnce, ha]
  dsimp only
  rw [runSelf, if_pos hb]
  rfl

/-! ## Power -/

section
variable {β : Type} (g : State → β)

/-- What the clocks' setting leaves alone. -/
theorem setClocks_same (hg : ∀ s k f, g (modCluster s k f) = g s) (k : Nat) (cs : List Nat) (s : State) :
    g (setClocks k cs s) = g s := by
  induction cs generalizing k s with
  | nil => rfl
  | cons c r ih => exact (ih ..).trans (hg ..)

end

theorem setClocks_clock (k : Nat) (cs : List Nat) (s : State) (j : Nat) :
    (getCluster (setClocks k cs s) j).clock =
      if k ≤ j ∧ j < k + cs.length then cs.getD (j - k) 0 else (getCluster s j).clock := by
  induction cs generalizing k s with
  | nil => simp [setClocks]
  | cons c r ih =>
    rw [setClocks, ih]
    have hm : getCluster (modCluster s k fun v => { v with clock := c }) j =
        if j = k then { getCluster s k with clock := c } else getCluster s j := spGet_spSet ..
    rw [hm, List.length_cons]
    by_cases hj : j = k
    · subst hj
      rw [if_neg (by omega), if_pos rfl, if_pos (by omega), Nat.sub_self]; rfl
    · rw [if_neg hj]
      by_cases hk : k + 1 ≤ j ∧ j < k + 1 + r.length
      · rw [if_pos hk, if_pos (by omega), show j - k = (j - (k + 1)) + 1 by omega, List.getD_cons_succ]
      · rw [if_neg hk, if_neg (by omega)]

theorem foldl_min_le (cs : List Nat) (a : Nat) : cs.foldl min a ≤ a ∧ ∀ c ∈ cs, cs.foldl min a ≤ c := by
  induction cs generalizing a with
  | nil => simp
  | cons c r ih =>
    obtain ⟨h, hr⟩ := ih (min a c)
    refine ⟨h.trans (min_le_left ..), fun x hx => ?_⟩
    rcases List.mem_cons.1 hx with rfl | hx
    · exact h.trans (min_le_right ..)
    · exact hr x hx

theorem powerInterval_next {s : State} {clocks : List Nat} {watts : Nat} (hl : clocks.length = 96) (hc : ∀ c ∈ clocks, c ≤ 700)
    (hw : watts ≤ s.pwrLimit) :
    exec (.powerInterval clocks watts) s
      = .next { setClocks 0 clocks s with minClk := clocks.foldl min 700, watts := watts } := by
  have hn : ¬(clocks.length ≠ 96 ∨ (clocks.any fun c => decide (700 < c)) = true ∨ s.pwrLimit < watts) := by
    rw [not_or, not_or]
    refine ⟨not_not.2 hl, ?_, by omega⟩
    simpa using hc
  show settle s (tryPowerInterval clocks watts s) = _
  rw [tryPowerInterval, if_neg hn]
  rfl

/-- Settles O52: a reset keeps memory, messages and agenda, and an image boots when its key is fused and its signature holds. -/
theorem resetBootPower : Obligations.ResetBootPower := by
  refine ⟨?reset, ?image, fun s ha hb => step_stopped ha hb, ?report, ?power, ?droop⟩
  case reset => exact fun s image => ⟨_, rfl, bootImage_cases (resetDevice s) image⟩
  case image =>
    intro s image
    rw [exec_bootNewImage]
    refine ⟨fun hb => ⟨_, congrArg _ (if_pos hb), bootImage_cases { s with boot := 1 } image⟩, fun h3 h4 => ?_⟩
    rw [if_neg (by simp [h3, h4])]
  case report =>
    intro s nonce hb hn r
    refine ⟨?_, ?_, ?_⟩
    · show settle s (tryAttestationReport nonce s) = _
      rw [tryAttestationReport, if_neg (by simp [hb, hn])]
      rfl
    · simp only [r, reportBytes, List.append_assoc]
      exact List.prefix_append ..
    · exact List.suffix_append ..
  case power =>
    intro s clocks watts hl hc hw
    obtain ⟨h7, hm⟩ := foldl_min_le clocks 700
    refine ⟨_, powerInterval_next hl hc hw, rfl, hm, h7, fun k hk => ?_, setClocks_same (·.groups) (fun _ _ _ => rfl) ..,
      setClocks_same (·.mem) (fun _ _ _ => rfl) .., setClocks_same (·.parts) (fun _ _ _ => rfl) ..,
      setClocks_same (·.cores) (fun _ _ _ => rfl) ..⟩
    exact (setClocks_clock 0 clocks s k).trans (by rw [if_pos (by omega), Nat.sub_zero])
  case droop =>
    intro s cluster hc
    show settle s (tryClockDroop cluster s) = _
    rw [tryClockDroop, if_neg (Nat.not_le.2 hc)]
    rfl

end Sys2Proof.Claims
end

section
/-!
SUPPORT. The host's register writes: the doorbell of a queue whose context is being restored.
-/
namespace Sys2Proof.Claims
open Sys2Proof.Machine

/-- Partition 0 with a frame area of one unit, in which context 0 has state 4 and no team is saved. -/
def restoring : State :=
  { modPart State.reset 0 (fun p => { p with frameSize := 1 }) with mem := [(8, 0x80)] }

theorem ctxState_restoring : ctxState restoring 0 0 = 4 := by decide

/-- A context in state 4 with no saved team runs: its doorbell sets the tail at once. -/
theorem sqDoorbell_restoring : ∃ t, exec (.sqDoorbell 0 0 7) restoring = .next t ∧ (getSq t 0 0).stored = none :=
  ⟨_, rfl, by decide⟩

/-- Refutes O46: the claim stores the tail of every context in a state above 1, but the model stores it only while the
context is away, and one in state 4 whose teams are all restored is not. -/
theorem not_hostRegisters : ¬ Obligations.HostRegisters := by
  intro h
  have hopen : windowOpen restoring 0 := ⟨rfl, by decide⟩
  obtain ⟨t, ht, hstored⟩ := sqDoorbell_restoring
  obtain ⟨hbell, -, -⟩ := h.1 restoring 0 0 7 hopen (by decide)
  rw [ht] at hbell
  injection hbell with hbell
  rw [hbell] at hstored
  exact absurd hstored (by decide)

end Sys2Proof.Claims
end

section
/-!
SUPPORT. Invalidation commands (03 R54 to R57): what a write-back of an L2 line leaves alone, and what a flush empties.
-/
namespace Sys2Proof.Claims
open Sys2Proof.Machine

/-- The state without memory's words and the partitions, which a write-back of a line changes. -/
def offLines (s : State) : State := { s with mem := [], poison := [], nibbles := [], parts := [] }

theorem l2Drop_offLines (s : State) (line : Nat) : offLines (l2Drop s line) = offLines s := by
  unfold l2Drop
  split
  · rfl
  · refine foldl_same offLines (fun t k => ?_) _ _
    rfl

theorem offLines_mem (s : State) (m : List Host.Cell) : offLines { s with mem := m } = offLines s := rfl

theorem setNibble_offLines (s : State) (cmp loc n : Nat) : offLines (setNibble s cmp loc n) = offLines s := by
  unfold setNibble
  split
  · rfl
  · exact offLines_mem ..

theorem ctlStore_offLines (s : State) (cmp line : Nat) (bytes : List Byte) (bad : Nat) :
    offLines (ctlStore s cmp line bytes bad) = offLines s := by
  have mark (t : State) : offLines ((List.range 16).foldl (fun s i => setPoison s (line * 128 + 8 * i) (bitOf bad i)) t) =
      offLines t := by
    refine foldl_same offLines (fun s i => ?_) _ _
    rfl
  unfold ctlStore
  extract_lets base markAll ws pk n packs
  split
  · exact mark _
  split
  · exact setNibble_offLines ..
  split
  · exact (setNibble_offLines ..).trans ((mark _).trans (offLines_mem ..))
  · exact (setNibble_offLines ..).trans ((mark _).trans (offLines_mem ..))

theorem l2WriteBack_offLines (s : State) (line : Nat) : offLines (l2WriteBack s line) = offLines s := by
  have hd := l2Drop_offLines s line
  unfold l2WriteBack
  split
  · rfl
  dsimp only
  split
  · exact hd
  split
  · refine (foldl_same offLines (fun t k => ?_) _ _).trans hd
    split <;> rfl
  split
  · exact (ctlStore_offLines ..).trans hd
  split
  · exact (ctlStore_offLines ..).trans hd
  split
  · exact (ctlStore_offLines ..).trans hd
  · exact (ctlStore_offLines ..).trans hd

theorem l2Flush_offLines (s : State) (part : Nat) : offLines (l2Flush s part) = offLines s :=
  foldl_same offLines l2WriteBack_offLines _ s

theorem l2Flush_cores (s : State) (part : Nat) : (l2Flush s part).cores = s.cores :=
  congrArg (·.cores) (l2Flush_offLines s part)

theorem getCore_publishAll (s : State) (l : List (Nat × List Msg)) (c : Nat) :
    getCore (l.foldl (fun s e => e.2.foldl (fun s m => publish s e.1 m) s) s) c = getCore s c :=
  foldl_same (getCore · c) (fun _ e => foldl_same (getCore · c) (fun s m => by
    show spGet {} (publish s e.1 m).cores c = _
    rw [publish_cores]
    rfl) _ _) _ _

/-- A core's write-back of everything leaves it no pending store, and other cores as they were. -/
theorem getCore_coreWriteBack_all (s : State) (core c : Nat) : getCore (coreWriteBack s core fun _ => true) c =
    if c = core then { getCore s core with pend := [] } else getCore s c := by
  unfold coreWriteBack
  dsimp only
  split
  · next h =>
    have hp : (getCore s core).pend = [] := by simpa using h
    split
    · next hc => rw [hc, ← hp]
    · rfl
  · rw [getCore_publishAll]
    have hf : (getCore s core).pend.filter (fun _ => !true) = [] := List.filter_eq_nil_iff.2 fun _ _ => by decide
    exact (spGet_spSet ..).trans (by rw [hf]; rfl)

theorem getCore_coreDrop_all (s : State) (core c : Nat) : getCore (coreDrop s core fun _ => true) c =
    if c = core then { getCore s core with pend := [], l1 := [] } else getCore s c := by
  have hf : (getCore s core).l1.filter (fun _ => !true) = [] := List.filter_eq_nil_iff.2 fun _ _ => by decide
  refine (spGet_spSet ..).trans ?_
  split
  · rw [getCore_coreWriteBack_all, if_pos rfl]
    exact congrArg (fun l => { getCore s core with pend := [], l1 := l }) hf
  · next hc => exact (getCore_coreWriteBack_all ..).trans (if_neg hc)

/-- A core holds neither a pending store nor a line. -/
def Emptied (c : Core) : Prop := c.pend = [] ∧ c.l1 = []

theorem emptied_coreDrops {c : Nat} (l : List Nat) (s : State) (h : c ∈ l ∨ Emptied (getCore s c)) :
    Emptied (getCore (l.foldl (fun s k => coreDrop s k fun _ => true) s) c) := by
  induction l generalizing s with
  | nil => exact h.resolve_left List.not_mem_nil
  | cons k r ih =>
    refine ih _ ?_
    rw [getCore_coreDrop_all]
    by_cases hc : c = k
    · exact .inr (by rw [if_pos hc]; exact ⟨rfl, rfl⟩)
    · rw [if_neg hc]
      exact h.imp_left fun hm => (List.mem_cons.1 hm).resolve_left hc

theorem spFind_not_listed {α : Type} {m : SMap α} {k : Nat} (h : k ∉ m.map (·.1)) : spFind m k = none := by
  induction m with
  | nil => rfl
  | cons e r ih =>
    obtain ⟨hk, hr⟩ := not_or.1 (mt List.mem_cons.2 h)
    exact (spFind_cons ..).trans ((if_neg hk).trans (ih hr))

/-- A core that the state does not list is empty. -/
theorem emptied_of_not_listed {s : State} {c : Nat} (h : c ∉ s.cores.map (·.1)) : Emptied (getCore s c) := by
  have hn : spFind s.cores c = none := spFind_not_listed h
  unfold getCore spGet
  rw [hn]
  exact ⟨rfl, rfl⟩

theorem flushCaches_core (s : State) (part core : Nat) (h : partOfCore s core = part) :
    Emptied (getCore (flushCaches s part) core) := by
  unfold flushCaches getCore
  rw [l2Flush_cores]
  refine emptied_coreDrops _ s ?_
  by_cases hm : core ∈ s.cores.map (·.1)
  · exact .inl (List.mem_filter.2 ⟨hm, beq_iff_eq.2 h⟩)
  · exact .inr (emptied_of_not_listed hm)

theorem flushCaches_l2 (s : State) (part : Nat) : (getPart (flushCaches s part) part).l2 = [] := by
  unfold flushCaches l2Flush
  rw [modPart, setPart, getPart, spGet_spSet_self]

theorem exec_invCommandComplete {s : State} {part : Nat} {q : InvCmd} {r : List InvCmd}
    (hq : (getPart s part).invQueue = q :: r) :
    exec (.invCommandComplete part) s = if q.flush ∨ !accessesOver s part then .next s else .next (invPopHead s part) := by
  show settle s (tryInvCommandComplete part s) = _
  unfold tryInvCommandComplete
  rw [hq]
  dsimp only
  split <;> rfl

theorem next_windowOr {s : State} {part : Nat} (ho : windowOpen s part) (off v : Nat) (body : State) (a : Nat) :
    (.next (windowOr s part off v body a) : Out) = .next body := congrArg Host.Outcome.next (windowOr_open ho ..)

/-- An entry spans its page, or all that the table it names translates. -/
theorem entryBits_eq (e lvl : Nat) : entryBits e lvl =
    if lvl = 0 ∧ e.testBit 1 then 12 + 2 * (e / 2 ^ 10 % 4) else 12 + 9 * lvl := by
  unfold entryBits
  rw [bitOf_eq_testBit]
  rfl

/-- The command as the write gives it. -/
theorem invCmdOf_eq (p : Partition) (v : Quad) (op : Nat) : invCmdOf p v op =
    { op := op, flush := v.getLsbD 2, ctx := v.toNat / 2 ^ 16 % 2 ^ 16, addr := p.invAddr.toNat / 4096, count := p.invCount.toNat } := by
  unfold invCmdOf
  rw [bitOf_eq_testBit]
  rfl

/-- A command of an open window enters the queue. -/
theorem enters {s : State} {part : Nat} (ho : windowOpen s part) (v : Quad) (op : Nat) :
    (.next (invWrite s part v op (invIssue s part v op)) : Out) = .next (modPart s part fun p => { p with
      invQueue := p.invQueue ++ [
        { op := op, flush := v.getLsbD 2, ctx := v.toNat / 2 ^ 16 % 2 ^ 16, addr := (getPart s part).invAddr.toNat / 4096
          count := (getPart s part).invCount.toNat }] }) := by
  refine (next_windowOr ho ..).trans (congrArg Host.Outcome.next ?_)
  unfold invIssue modPart
  beta_reduce
  rw [invCmdOf_eq]

/-- Settles O45: a write enters the queue of its partition; the head of the queue is flushed, then completed. -/
theorem invalidation : Obligations.Invalidation := by
  refine ⟨fun s part v ho _ => enters ho v 0, fun s part v ho _ => enters ho v 1, fun s part v ho _ => enters ho v 2,
    fun s part v ho => (next_windowOr ho ..).trans rfl,
    fun s part q r hq => ⟨fun hf => ?_, fun hf ha => ?_, fun h => ?_⟩,
    fun s part => ⟨flushCaches_l2 s part, fun core => flushCaches_core s part core⟩⟩
  · show settle s (tryInvFlush part s) = _
    unfold tryInvFlush invFlushHead
    rw [hq]
    dsimp only
    rw [if_pos hf, if_pos hf]
    rfl
  · rw [exec_invCommandComplete hq, hf, ha, if_neg (by decide)]
    refine congrArg Host.Outcome.next ?_
    unfold invPopHead modPart
    beta_reduce
    rw [hq]
    simp only [List.drop_one, List.tail_cons, List.head?_cons, Option.all_some, InvCmd.takes, CachedEntry.inRange, entryBits_eq]
    rfl
  · rw [exec_invCommandComplete hq, if_pos (h.imp id fun ha => by rw [ha]; rfl)]

end Sys2Proof.Claims
end

section
/-!
SUPPORT. Floating arithmetic (13 R304 to R311, R314, R317, R324): the model's functions give the values that the spec writes
out, wherever the fields of the instruction are legal.
-/
namespace Sys2Proof.Claims
open Sys2Proof.Machine

/-- Two value instructions with the same operands and checks that compute the same from values that fit, when they are legal. -/
structure AlikeIfLegal (v w : ValueOp) : Prop where
  dst : v.dst = w.dst
  srcs : v.srcs = w.srcs
  preds : v.preds = w.preds
  legal : v.legal = w.legal
  fn : w.legal = true → ∀ xs ps, Fits v.srcs xs → v.fn xs ps = w.fn xs ps

/-- A value instruction that is not legal may compute anything. -/
theorem runValue_patch (s : State) (c : Iss) (f : Fields) (vo : Bool) (w : ValueOp) (g : List Nat → List Bool → Nat) :
    runValue s c f vo { w with fn := if w.legal then w.fn else g } = runValue s c f vo w := by
  cases hl : w.legal with
  | true => rw [if_pos rfl, ← hl]
  | false =>
    have hok (fn : List Nat → List Bool → Nat) : ValueOp.ok { w with legal := false, fn := fn } c f = false := by
      simp [ValueOp.ok]
    have hw : w.ok c f = false := by simp [ValueOp.ok, hl]
    unfold runValue
    simp only [hok, hw, Bool.not_false, if_true]

theorem computes_of_legal {i : Instr} {f : Fields} {vo : Bool} {v w : Iss → ValueOp}
    (hi : ∀ s, exec i s = onPath s fun c => runValue s c f vo (w c))
    (hd : vo = true → ∀ c, (w c).ok c f = true → (w c).dst.isScalar = false)
    (h : ∀ c, AlikeIfLegal (v c) (w c)) : Computes i f vo v := by
  refine computes_of (w := fun c => { w c with fn := if (w c).legal then (w c).fn else (v c).fn }) (fun s => (hi s).trans ?_)
    hd fun c => ⟨(h c).dst, (h c).srcs, (h c).preds, (h c).legal, fun xs ps hx => ?_⟩
  · simp only [runValue_patch]
  · cases hl : (w c).legal with
    | true => exact (h c).fn hl xs ps hx
    | false => rfl

theorem not_scalar_of_vdstLegal {c : Iss} {wide : Bool} {o : Opnd} (h : vdstLegal c wide o = true) : o.isScalarReg = false := by
  simpa using (Bool.and_eq_true_iff.1 h).2

/-- A floating opcode writes a vector register. -/
theorem fltOp_not_scalar {c : Iss} {f : Fields} {n : Nat} {legal : Bool} {el : Nat → Bool → List Nat → Nat}
    (h : (fltOp c f n legal el).ok c f = true) : (fltOp c f n legal el).dst.isScalar = false := by
  simp only [ValueOp.ok, fltOp, Bool.and_eq_true] at h
  exact not_scalar_of_vdstLegal h.1.1.1.1.2.2

theorem computes_fltOp {i : Instr} {f : Fields} {n : Nat} {legal : Iss → Bool} {el : Iss → Nat → Bool → List Nat → Nat}
    (hi : ∀ s, exec i s = onPath s fun c => runValue s c f true (fltOp c f n (legal c) (el c))) :
    Computes i f true fun c => fltOp c f n (legal c) (el c) :=
  computes_of hi (fun _ _ => fltOp_not_scalar) fun _ => ⟨rfl, rfl, rfl, rfl, fun _ _ _ => rfl⟩

/-- Settles O6: every opcode evaluates its exact value and rounds it. -/
theorem floatArithmetic : Obligations.FloatArithmetic := by
  refine ⟨fun _ => computes_fltOp fun _ => rfl, fun _ => computes_fltOp fun _ => rfl, fun _ => computes_fltOp fun _ => rfl,
    fun _ => computes_fltOp fun _ => rfl, fun _ => computes_fltOp fun _ => rfl, fun _ => computes_fltOp fun _ => rfl,
    fun _ => computes_fltOp fun _ => rfl, fun _ => computes_fltOp fun _ => rfl, fun _ => computes_fltOp fun _ => rfl,
    fun _ => computes_fltOp fun _ => rfl, fun _ => computes_fltOp fun _ => rfl, fun f => ?_,
    fun _ => computes_fltOp fun _ => rfl, fun _ => computes_fltOp fun _ => rfl⟩
  rw [getLsbD_eq_bitOf]
  exact computes_fltOp fun _ => rfl

end Sys2Proof.Claims
end

section
/-!
SUPPORT. Floating compare and class, dot products, stochastic conversion and unpacking (13 R307, R308, R314, R317, R324).
-/
namespace Sys2Proof.Claims
open Sys2Proof.Machine

/-- The relation that the low bits of a condition code name. -/
def relation (cc : Nat) (r : Int) : Bool := match cc % 8 with
  | 0 => r == 0
  | 1 => r != 0
  | 2 => decide (r < 0)
  | 3 => decide (r ≤ 0)
  | 4 => decide (r > 0)
  | 5 => decide (r ≥ 0)
  | _ => cc < 8

/-- A condition of code below 8 asks for ordered values, one above takes unordered ones as well. -/
theorem fltCond_eq {cc : Nat} (h : cc < 15) (h7 : cc ≠ 7) (x y : XReal) : fltCond cc x y =
    if cc < 8 then !(x.isNaN || y.isNaN) && relation cc (x.cmp y) else (x.isNaN || y.isNaN) || relation cc (x.cmp y) := by
  unfold fltCond
  generalize (x.isNaN || y.isNaN) = un
  generalize x.cmp y = r
  rcases (by omega : cc < 7 ∨ 8 ≤ cc) with hlow | hhigh
  · interval_cases cc <;> simp [relation, beq_eq_decide, bne]
  · interval_cases cc <;> simp [relation, beq_eq_decide, bne]

theorem dyadic_fin (neg : Bool) (n : Nat) (e : Int) : ∃ m d, XReal.dyadic neg n e = .fin neg m d ∧ (m = 0 ↔ n = 0) := by
  unfold XReal.dyadic
  split
  · exact ⟨_, _, rfl, by simp⟩
  · exact ⟨_, _, rfl, Iff.rfl⟩

/-- The class of the bits of a format of the IEEE kind. -/
def classOf (e t x : Nat) : Nat :=
  let neg := x.testBit (e + t)
  let ex := x / 2 ^ t % 2 ^ e
  if ex = 2 ^ e - 1 then (if x % 2 ^ t ≠ 0 then 8 else if neg then 0 else 7)
  else if ex ≠ 0 then (if neg then 1 else 6)
  else if x % 2 ^ t ≠ 0 then (if neg then 2 else 5)
  else if neg then 3 else 4

theorem fltClass_eq {code e t bias : Nat} (x : Nat) (hf : floatFmt code = some ⟨e, t, bias, true, .ieee⟩)
    (hd : decodeFmt code x = decodeFloat ⟨e, t, bias, true, .ieee⟩ x) : fltClass code x = classOf e t x := by
  have hneg : (x / 2 ^ (e + t) % 2 == 1) = x.testBit (e + t) := bitOf_eq_testBit x (e + t)
  have hex : x % 2 ^ (e + t) / 2 ^ t = x / 2 ^ t % 2 ^ e := by
    rw [Nat.add_comm, Nat.pow_add, Nat.mod_mul_right_div_self]
  have hm : x % 2 ^ (e + t) % 2 ^ t = x % 2 ^ t := Nat.mod_mod_of_dvd x ⟨2 ^ e, by rw [Nat.add_comm, Nat.pow_add]⟩
  have hsub : (x % 2 ^ (e + t) < 2 ^ t) ↔ x / 2 ^ t % 2 ^ e = 0 := by
    rw [← hex, Nat.div_eq_zero_iff]
    exact (or_iff_right (Nat.two_pow_pos t).ne').symm
  unfold fltClass classOf
  rw [hd, hf]
  simp only [decodeFloat, FloatFmt.magBits, FloatFmt.gridVal, hneg, hex, hm, hsub, Bool.true_and]
  generalize x / 2 ^ t % 2 ^ e = ex
  generalize x % 2 ^ t = m
  generalize x.testBit (e + t) = neg
  by_cases h1 : ex = 2 ^ e - 1
  · by_cases h2 : m = 0 <;> simp [h1, h2]
  by_cases h3 : ex = 0
  · obtain ⟨a, b, hab, h0⟩ := dyadic_fin neg m (1 - (bias : Int) - t)
    subst h3
    simp [h1, hab, h0]
  · obtain ⟨a, b, hab, h0⟩ := dyadic_fin neg (2 ^ t + m) ((ex : Int) - bias - t)
    have : ¬ (a = 0) := fun h => absurd (h0.1 h) (by have := Nat.two_pow_pos t; omega)
    simp [h1, h3, hab, this]

/-- Settles O7: a compare by the relation its code names, a class by exponent and fraction. -/
theorem floatCompareClassify : Obligations.FloatCompareClassify := by
  refine ⟨fun f => computes_of_legal (fun _ => rfl) (fun _ _ _ => rfl) fun c => ⟨rfl, rfl, rfl, ?_, fun hl xs _ _ => ?_⟩,
    fun f => computes_of_legal (fun _ => rfl) (fun _ _ _ => rfl) fun c => ⟨rfl, rfl, rfl, ?_, fun hl xs _ _ => ?_⟩⟩
  · have h7 : (f.c != 7) = (f.c.toNat != 7) := congrArg (!·) (decide_eq_decide.2 BitVec.toNat_inj.symm)
    simp only [bitsOf, Nat.pow_zero, Nat.div_one, beq_eq_decide, h7]
    rfl
  · simp only [Bool.and_eq_true, decide_eq_true_eq, bne_iff_ne] at hl
    obtain ⟨⟨-, hlt⟩, h7⟩ := hl
    exact ((bitNat_eq_toNat _).trans (congrArg Bool.toNat (fltCond_eq hlt h7 _ _))).symm
  · simp only [beq_eq_decide]
  · simp only [Bool.and_eq_true, decide_eq_true_eq] at hl
    obtain ⟨⟨⟨ht, -⟩, -⟩, -⟩ := hl
    show (f.c.getLsbD (classOf (if ftyp f = 0 then 8 else 11) (if ftyp f = 0 then 23 else 52) (src xs 0))).toNat =
      bitNat (bitOf f.c.toNat (fltClass (fcode (ftyp f)) (src xs 0)))
    rw [bitNat_eq_toNat, getLsbD_eq_bitOf]
    generalize ftyp f = t at ht
    interval_cases t
    · rw [fltClass_eq (code := fcode 0) _ rfl rfl]
      rfl
    · rw [fltClass_eq (code := fcode 1) _ rfl rfl]
      rfl

end Sys2Proof.Claims
end

section
/-!
SUPPORT. A conversion to E8M0 under SAT: the rounding of R313 does not read the SAT bit of FMT.
-/
namespace Sys2Proof.Claims
open Sys2Proof.Machine

/-- One group whose path issues with the SAT bit of FMT set. -/
def saturating : State :=
  modPath { State.reset.withFetchWord 96 0 with cur := some ⟨0, 0⟩ } 0 0 fun p => { p with fmt := 0x100000 }

/-- CVT of the constant 0 from f32 to E8M0 into v0. -/
def zeroToScale : Fields :=
  { mod := 0x0A, d := 0, a := zeroCode, b := zeroCode, c := 1, g := 63, gn := 0, reuse := 0, x := 0 }

theorem issuer_saturating : (issuer saturating).isSome = true := by decide

/-- The model gives E8M0's NaN. -/
theorem cvt_zeroToScale : ∃ t, exec (.cvt zeroToScale) saturating = .next t ∧ (getGroup t 0).map (·.getV 0 0) = some 0xFF :=
  ⟨_, rfl, by decide⟩

/-- Refutes O9: the claim rounds to E8M0 under the SAT bit of FMT, where 0 becomes 0; the model's rounding to E8M0 never
saturates, and gives NaN. -/
theorem not_conversions : ¬ Obligations.Conversions := by
  intro h
  obtain ⟨hcvt, -⟩ := h
  obtain ⟨t, ht, hv⟩ := cvt_zeroToScale
  obtain ⟨g', hg, hw⟩ := hcvt zeroToScale saturating ((issuer saturating).get issuer_saturating) (Option.some_get _).symm
    (by decide) (by decide) (by decide) (by decide)
  have hval : g'.getV 0 0 = 0 := (hw.vec 0 0 (by decide)).trans (by decide)
  rw [ht] at hg
  injection hg with hg
  have hgroup : getGroup t 0 = (getGroup saturating 0).map fun _ => g' := by
    rw [hg]
    exact spFind_spMod_self _ _ _
  obtain ⟨g, hread, h255⟩ := Option.map_eq_some_iff.1 hv
  obtain ⟨_, -, rfl⟩ := Option.map_eq_some_iff.1 (hgroup.symm.trans hread)
  exact absurd (hval.symm.trans h255) (by decide)

end Sys2Proof.Claims
end

section
/-!
SUPPORT. Dot products, stochastic conversion and unpacking (13 R314, R317, R324).
-/
namespace Sys2Proof.Claims
open Sys2Proof.Machine

theorem byteVal_eq (sg : Bool) (x j : Nat) : byteVal sg x j =
    if sg then (BitVec.ofNat 8 (byteAt x j)).toInt else (byteAt x j : Int) := by
  simp only [byteVal, byteAt, sext_eq_toInt]

theorem beq_bitVec {w : Nat} (x : BitVec w) (n : Nat) (h : n < 2 ^ w) : (x.toNat == n) = (x == BitVec.ofNat w n) := by
  rw [Bool.eq_iff_iff, beq_iff_eq, beq_iff_eq, ← BitVec.toNat_inj, BitVec.toNat_ofNat, Nat.mod_eq_of_lt h]

theorem wrapBits_sext (w x : Nat) : wrapBits 32 (sext w x) = ((BitVec.ofNat w x).signExtend 32).toNat := by
  rw [wrapBits_eq_ofInt, sext_eq_toInt]
  rfl

theorem wrapBits_small {n : Nat} (h : n < 2 ^ 8) : wrapBits 32 (n : Int) = n := by
  unfold wrapBits
  omega

/-- The element that UNPK takes, as a word. -/
theorem unpkVal_eq (ftz : Bool) (code : BitVec 6) (a k e : Nat)
    (he : e = a / 2 ^ (packWidth code.toNat * k) % 2 ^ packWidth code.toNat) : unpkVal ftz code.toNat a k =
    if code = 0x0B then ((BitVec.ofNat 8 e).signExtend 32).toNat
    else if code = 0x0D then ((BitVec.ofNat 4 e).signExtend 32).toNat
    else if code = 0x0C ∨ code = 0x0E then e
    else flushIf ftz 1 (roundFmt 1 (decodeFmt code.toNat (if fmt6bit code.toNat then e % 64 else e)) .rne) := by
  have hcode (n : Nat) (h : n < 2 ^ 6) : code = BitVec.ofNat 6 n ↔ code.toNat = n := by
    rw [← BitVec.toNat_inj, BitVec.toNat_ofNat, Nat.mod_eq_of_lt h]
  have hB : code = 0x0B ↔ code.toNat = 11 := hcode 11 (by decide)
  have hC : code = 0x0C ↔ code.toNat = 12 := hcode 12 (by decide)
  have hD : code = 0x0D ↔ code.toNat = 13 := hcode 13 (by decide)
  have hE : code = 0x0E ↔ code.toNat = 14 := hcode 14 (by decide)
  have hint : fmtNarrowInt code.toNat = true ↔ code = 0x0B ∨ code = 0x0C ∨ code = 0x0D ∨ code = 0x0E := by
    rw [hB, hC, hD, hE]
    simp only [fmtNarrowInt, Bool.and_eq_true, decide_eq_true_eq]
    omega
  simp only [unpkVal, ← he]
  by_cases h : fmtNarrowInt code.toNat = true
  · rw [if_pos h]
    rcases hint.1 h with rfl | rfl | rfl | rfl
    · exact wrapBits_sext 8 e
    · exact wrapBits_small (he ▸ Nat.mod_lt _ (by decide))
    · exact wrapBits_sext 4 e
    · exact wrapBits_small (he ▸ (Nat.mod_lt _ (by decide)).trans (by decide))
  · obtain ⟨h1, h2, h3, h4⟩ : ¬ code = 0x0B ∧ ¬ code = 0x0C ∧ ¬ code = 0x0D ∧ ¬ code = 0x0E := by
      simpa only [hint, not_or] using h
    rw [if_neg h, if_neg h1, if_neg h3, if_neg (not_or.2 ⟨h2, h4⟩)]

/-- The register forms of a value instruction whose checks take a vector destination write no scalar register. -/
theorem ok_not_scalar {c : Iss} {f : Fields} {v : ValueOp} {b : Bool} {wide : Bool} (hdst : v.dst = .reg f.d wide)
    (hlegal : v.legal = (b && vdstLegal c wide (opnd f.d))) (h : v.ok c f = true) : v.dst.isScalar = false := by
  simp only [ValueOp.ok, hlegal, Bool.and_eq_true] at h
  obtain ⟨⟨⟨⟨⟨-, -, hd⟩, -⟩, -⟩, -⟩, -⟩ := h
  rw [hdst]
  exact not_scalar_of_vdstLegal hd

/-- Settles O8: every product of bytes is a product of two's complement numbers, every sum is rounded once. -/
theorem dotProductsAndUnpacking : Obligations.DotProductsAndUnpacking := by
  refine ⟨fun f => computes_of_legal (fun _ => rfl) (fun _ _ => ok_not_scalar rfl rfl) fun c => ⟨rfl, rfl, rfl, rfl, fun _ xs _ _ => ?_⟩,
    fun f => computes_of_legal (fun _ => rfl) (fun _ _ => ok_not_scalar rfl rfl) fun c => ⟨rfl, rfl, rfl, rfl, fun hl xs _ _ => ?_⟩,
    fun f => computes_of_legal (fun _ => rfl) (fun _ _ => ok_not_scalar rfl rfl) fun c => ⟨rfl, rfl, rfl, ?_, fun _ xs _ _ => rfl⟩,
    fun f => computes_of_legal (fun _ => rfl) (fun _ _ => ok_not_scalar rfl rfl) fun c => ⟨rfl, rfl, rfl, rfl, fun _ xs _ _ => ?_⟩⟩
  · show (BitVec.ofInt 32 _).toNat = wrapBits 32 _
    rw [wrapBits_eq_ofInt]
    simp only [List.range, List.range.loop, List.foldl, byteVal_eq, ← getLsbD_eq_bitOf]
    rfl
  · have hc : fcode (ftyp f) ≠ 1 := by
      have ht : 2 ≤ ftyp f := of_decide_eq_true (Bool.and_eq_true_iff.1 hl).1
      unfold fcode
      split <;> omega
    have hflush (ftz ftz' : Bool) (k x : Nat) : fltIn f (fcode (ftyp f)) ftz k x = fltIn f (fcode (ftyp f)) ftz' k x := by
      simp only [fltIn, flushIf, if_neg hc]
    show _ = fdp2Val f (ftzOn c) (src xs 0) (src xs 1) (src xs 2)
    unfold fdp2Val
    simp only [hflush (ftzOn c) false]
  · show _ = cvtsrLegal c f
    unfold cvtsrLegal
    simp only [beq_bitVec f.mod 3 (by decide), beq_bitVec f.mod 4 (by decide)]
    rfl
  · exact (unpkVal_eq _ _ _ _ _ rfl).symm

end Sys2Proof.Claims
end

section
/-!
SUPPORT. The packed forms of a block (03 R62, R63): a mask of the nonzero elements, and those elements in order.
-/
namespace Sys2Proof.Claims
open Sys2Proof.Machine

/-! ## Masks of nonzero elements -/

/-- The mask of the elements of a list that are not 0. -/
def maskOf (l : List Nat) : Nat := (List.range 32).foldl (fun m i => if l.getD i 0 = 0 then m else m + 2 ^ i) 0

theorem maskFold_eq (p : Nat → Nat) (n : Nat) :
    (List.range n).foldl (fun m i => if p i = 0 then m else m + 2 ^ i) 0 = ofBits n fun i => decide (p i ≠ 0) := by
  induction n with
  | zero => rfl
  | succ n ih =>
    rw [List.range_succ, List.foldl_append, ih]
    by_cases h : p n = 0 <;> simp [ofBits, h]

theorem maskOf_eq (l : List Nat) : maskOf l = ofBits 32 fun i => decide (l.getD i 0 ≠ 0) := maskFold_eq (fun i => l.getD i 0) 32

theorem bitOf_maskOf {l : List Nat} {i : Nat} (hi : i < 32) : bitOf (maskOf l) i = decide (l.getD i 0 ≠ 0) := by
  rw [bitOf_eq_testBit, maskOf_eq, testBit_ofBits]
  simp [hi]

theorem maskOf_lt (l : List Nat) : maskOf l < 2 ^ 32 := by
  rw [maskOf_eq]; exact ofBits_lt ..

/-- The mask counts the elements that are not 0. -/
theorem popBits_maskOf {l : List Nat} (hl : l.length = 32) : popBits 32 (maskOf l) = (l.filter (· ≠ 0)).length := by
  have hl' : l = (List.range 32).map (l.getD · 0) := by
    refine List.ext_getElem (by simp [hl]) fun i h1 _ => ?_
    simp [List.getElem?_eq_getElem h1]
  have hbits : (List.range 32).filter (bitOf (maskOf l)) = (List.range 32).filter fun i => decide (l.getD i 0 ≠ 0) :=
    List.filter_congr fun i hi => bitOf_maskOf (List.mem_range.1 hi)
  calc popBits 32 (maskOf l) = ((List.range 32).filter (bitOf (maskOf l))).length := rfl
    _ = (((List.range 32).map (l.getD · 0)).filter (· ≠ 0)).length := by
      rw [hbits, List.filter_map, List.length_map]
      rfl
    _ = (l.filter (· ≠ 0)).length := by rw [← hl']

/-! ## Bytes and words -/

theorem length_leBytes (n x : Nat) : (leBytes n x).length = n := by
  induction n generalizing x with
  | zero => rfl
  | succ n ih => rw [leBytes, List.length_cons, ih]

theorem leNat_leBytes (n x : Nat) : leNat (leBytes n x) = x % 256 ^ n := by
  induction n generalizing x with
  | zero => simp [leBytes, leNat, Nat.mod_one]
  | succ n ih => 
    rw [leBytes, leNat, ih, BitVec.toNat_ofNat]
    show x % 256 + 256 * (x / 256 % 256 ^ n) = _
    rw [Nat.pow_succ', Nat.mod_mul]

theorem wordsOf_bytesOfWords {ws : List Nat} (h : ∀ w ∈ ws, w < 2 ^ 32) (more : List Byte) :
    wordsOf (bytesOfWords ws ++ more) = ws ++ wordsOf more := by
  induction ws with
  | nil => rfl
  | cons w r ih =>
    have hw : leNat (leBytes 4 w) = w := (leNat_leBytes 4 w).trans (Nat.mod_eq_of_lt (h w List.mem_cons_self))
    have hstep : wordsOf (leBytes 4 w ++ (bytesOfWords r ++ more)) =
        leNat (leBytes 4 w) :: wordsOf (bytesOfWords r ++ more) := rfl
    rw [bytesOfWords, List.append_assoc, hstep, hw, ih fun v hv => h v (List.mem_cons_of_mem _ hv)]
    rfl

theorem length_bytesOfWords (ws : List Nat) : (bytesOfWords ws).length = 4 * ws.length := by
  induction ws with
  | nil => rfl
  | cons w r ih =>
    rw [bytesOfWords, List.length_append, length_leBytes, ih, List.length_cons]
    omega

theorem take_mask (x : Nat) (r : List Byte) (hx : x < 2 ^ 32) : leNat ((leBytes 4 x ++ r).take 4) = x := by
  have h : (leBytes 4 x ++ r).take 4 = leBytes 4 x := List.take_left' (length_leBytes 4 x)
  rw [h, leNat_leBytes, Nat.mod_eq_of_lt (hx.trans_eq (by decide))]

/-! ## ZB -/

/-- Words behind a mask that marks the nonzero ones from i on. -/
theorem zbWords_eq {mask : Nat} (l : List Nat) (rest : List Nat) (i : Nat) (js : List Nat) (hj : js.length = l.length)
    (hm : ∀ k < l.length, bitOf mask (i + k) = decide (l.getD k 0 ≠ 0)) :
    zbWords mask (l.filter (· ≠ 0) ++ rest) i js = l := by
  induction l generalizing i js with
  | nil => rw [List.length_eq_zero_iff.1 hj]; rfl
  | cons w r ih =>
    obtain ⟨j, js, rfl⟩ := List.exists_cons_of_length_eq_add_one hj
    have h0 := hm 0 (Nat.succ_pos _)
    have hr := ih (i + 1) js (Nat.succ.inj hj) fun k hk => by
      rw [Nat.add_assoc, Nat.add_comm 1 k, hm (k + 1) (Nat.succ_lt_succ hk)]; rfl
    by_cases hw : w = 0 <;> simp_all [zbWords]

/-! ## DP -/

theorem dpUndo_dpDeltas (prev : Nat) (ws : List Nat) : dpUndo prev (dpDeltas prev ws) = ws := by
  induction ws generalizing prev with
  | nil => rfl
  | cons w r ih =>
    have hx : Nat.xor (Nat.xor w prev) prev = w := Nat.xor_xor_cancel_right w prev
    rw [dpDeltas, dpUndo, hx, ih]

theorem length_dpDeltas (prev : Nat) (ws : List Nat) : (dpDeltas prev ws).length = ws.length := by
  induction ws generalizing prev with
  | nil => rfl
  | cons w r ih => rw [dpDeltas, List.length_cons, ih, List.length_cons]

theorem dpDeltas_lt {prev : Nat} {ws : List Nat} (hp : prev < 2 ^ 32) (h : ∀ w ∈ ws, w < 2 ^ 32) :
    ∀ d ∈ dpDeltas prev ws, d < 2 ^ 32 := by
  induction ws generalizing prev with
  | nil => intro d hd; cases hd
  | cons w r ih =>
    have hw := h w List.mem_cons_self
    intro d hd
    rcases List.mem_cons.1 hd with rfl | hd
    · exact Nat.xor_lt_two_pow hw hp
    · exact ih hw (fun v hv => h v (List.mem_cons_of_mem _ hv)) d hd

/-- A plane comes back from its mask and its bytes, and the bytes behind them are left. -/
theorem dpTake_eq {mask : Nat} (l : List Nat) (rest : List Byte) (js : List Nat) (hj : js.length = l.length)
    (hb : ∀ x ∈ l, x < 256) (hm : ∀ k < l.length, bitOf mask (js.getD k 0) = decide (l.getD k 0 ≠ 0)) :
    dpTake mask ((l.filter (· ≠ 0)).map (BitVec.ofNat 8) ++ rest) js = (l, rest) := by
  induction l generalizing js with
  | nil => rw [List.length_eq_zero_iff.1 hj]; rfl
  | cons x r ih =>
    obtain ⟨j, js, rfl⟩ := List.exists_cons_of_length_eq_add_one hj
    have h0 := hm 0 (Nat.succ_pos _)
    have hx : x % 256 = x := Nat.mod_eq_of_lt (hb x List.mem_cons_self)
    have hr := ih js (Nat.succ.inj hj) (fun y hy => hb y (List.mem_cons_of_mem _ hy)) fun k hk => hm (k + 1) (Nat.succ_lt_succ hk)
    by_cases hw : x = 0 <;> simp_all [dpTake]

theorem zbUnpack_zbPack {ws : List Nat} (hl : ws.length = 32) (h : ∀ w ∈ ws, w < 2 ^ 32) (more : List Byte) :
    zbUnpack (zbPack ws ++ more) = ws := by
  have hw : ∀ w ∈ ws.filter (· ≠ 0), w < 2 ^ 32 := fun w hm => h w (List.mem_filter.1 hm).1
  have hz : zbPack ws ++ more = leBytes 4 (maskOf ws) ++ (bytesOfWords (ws.filter (· ≠ 0)) ++ more) := List.append_assoc ..
  rw [hz, zbUnpack, take_mask _ _ (maskOf_lt ws), List.drop_left' (length_leBytes 4 _), wordsOf_bytesOfWords hw]
  refine zbWords_eq ws _ 0 _ (by rw [hl, List.length_range]) fun k hk => ?_
  rw [Nat.zero_add]
  exact bitOf_maskOf (hl ▸ hk)

theorem packedSize_zbPack {ws : List Nat} (hl : ws.length = 32) (more : List Byte) :
    packedSize 1 (zbPack ws ++ more) = (zbPack ws).length := by
  have hz : zbPack ws ++ more = leBytes 4 (maskOf ws) ++ (bytesOfWords (ws.filter (· ≠ 0)) ++ more) := List.append_assoc ..
  have hlen : (zbPack ws).length = 4 + 4 * (ws.filter (· ≠ 0)).length := by
    rw [zbPack, List.length_append, length_leBytes, length_bytesOfWords]
  rw [hlen, packedSize, if_pos rfl, hz, take_mask _ _ (maskOf_lt ws), popBits_maskOf hl]

/-- The bytes of a plane that are not 0. -/
def planeBytes (pl : List Nat) : List Byte := (pl.filter (· ≠ 0)).map (BitVec.ofNat 8)

/-- The four masks, then the bytes of the four planes. -/
theorem dpPack_eq (ws : List Nat) (more : List Byte) : ∀ p : Nat → List Nat, p = dpPlane (dpDeltas 0 ws) →
    dpPack ws ++ more = leBytes 4 (maskOf (p 0)) ++ (leBytes 4 (maskOf (p 1)) ++ (leBytes 4 (maskOf (p 2)) ++
      (leBytes 4 (maskOf (p 3)) ++ (planeBytes (p 0) ++ (planeBytes (p 1) ++ (planeBytes (p 2) ++ (planeBytes (p 3) ++ more))))))) := by
  rintro p rfl
  simp only [dpPack, List.range, List.range.loop, List.map_cons, List.map_nil, List.flatMap_cons, List.flatMap_nil,
    List.append_assoc, List.append_nil, planeBytes]
  rfl

theorem drop_leBytes (n x : Nat) (r : List Byte) (k : Nat) : (leBytes n x ++ r).drop (n + k) = r.drop k := by
  rw [← List.drop_drop, List.drop_left' (length_leBytes n x)]

theorem dpTake_planeBytes {pl : List Nat} (hl : pl.length = 32) (hb : ∀ x ∈ pl, x < 256) (rest : List Byte) :
    dpTake (maskOf pl) (planeBytes pl ++ rest) (List.range 32) = (pl, rest) := by
  refine dpTake_eq pl rest _ (by rw [hl, List.length_range]) hb fun k hk => ?_
  have hk' : k < 32 := hl ▸ hk
  have hg : (List.range 32).getD k 0 = k := by simp [hk']
  rw [hg, bitOf_maskOf hk']

/-- A word is the sum of its bytes. -/
theorem word_of_bytes {d : Nat} (h : d < 2 ^ 32) :
    d / 256 ^ 0 % 256 + 256 * (d / 256 ^ 1 % 256) + 65536 * (d / 256 ^ 2 % 256) + 16777216 * (d / 256 ^ 3 % 256) = d := by
  omega

theorem dpPlane_lt (ds : List Nat) (j : Nat) : ∀ x ∈ dpPlane ds j, x < 256 := by
  intro x hx
  obtain ⟨d, -, rfl⟩ := List.mem_map.1 hx
  exact Nat.mod_lt _ (by decide)

theorem dpUnpack_dpPack {ws : List Nat} (hl : ws.length = 32) (h : ∀ w ∈ ws, w < 2 ^ 32) (more : List Byte) :
    dpUnpack (dpPack ws ++ more) = ws := by
  have hds : (dpDeltas 0 ws).length = 32 := (length_dpDeltas 0 ws).trans hl
  have hpl (j : Nat) : (dpPlane (dpDeltas 0 ws) j).length = 32 := (List.length_map _).trans hds
  have hlt := dpPlane_lt (dpDeltas 0 ws)
  have hsum : (List.range 32).map (fun i => (dpPlane (dpDeltas 0 ws) 0).getD i 0 + 256 * (dpPlane (dpDeltas 0 ws) 1).getD i 0 +
      65536 * (dpPlane (dpDeltas 0 ws) 2).getD i 0 + 16777216 * (dpPlane (dpDeltas 0 ws) 3).getD i 0) = dpDeltas 0 ws := by
    refine List.ext_getElem (by simp [hds]) fun i _ h2 => ?_
    have hd := word_of_bytes (dpDeltas_lt (by decide) h _ (List.getElem_mem h2))
    simpa [dpPlane, List.getElem?_eq_getElem h2] using hd
  obtain ⟨p, hp⟩ : ∃ p, p = dpPlane (dpDeltas 0 ws) := ⟨_, rfl⟩
  rw [dpPack_eq ws more p hp]
  rw [← hp] at hpl hlt hsum
  unfold dpUnpack
  simp only [Nat.mul_zero, Nat.mul_one, List.drop_zero, drop_leBytes 4 _ _ 0, drop_leBytes 4 _ _ 4, drop_leBytes 4 _ _ 8,
    drop_leBytes 4 _ _ 12, take_mask _ _ (maskOf_lt _), dpTake_planeBytes (hpl _) (hlt _), hsum, dpUndo_dpDeltas]

theorem packedSize_dpPack {ws : List Nat} (hl : ws.length = 32) (more : List Byte) :
    packedSize 2 (dpPack ws ++ more) = (dpPack ws).length := by
  have hpl (j : Nat) : (dpPlane (dpDeltas 0 ws) j).length = 32 :=
    (List.length_map _).trans ((length_dpDeltas 0 ws).trans hl)
  obtain ⟨p, hp⟩ : ∃ p, p = dpPlane (dpDeltas 0 ws) := ⟨_, rfl⟩
  have hlen := congrArg List.length (dpPack_eq ws [] p hp)
  rw [List.append_nil] at hlen
  rw [dpPack_eq ws more p hp, hlen]
  rw [← hp] at hpl
  simp only [packedSize, OfNat.ofNat_ne_one, if_false, List.range, List.range.loop, List.map_cons, List.map_nil, List.foldl_cons,
    List.foldl_nil, Nat.mul_zero, Nat.mul_one, List.drop_zero, drop_leBytes 4 _ _ 0, drop_leBytes 4 _ _ 4,
    drop_leBytes 4 _ _ 8, take_mask _ _ (maskOf_lt _), popBits_maskOf (hpl _), List.length_append, length_leBytes, planeBytes,
    List.length_map, List.length_nil]
  omega

/-- Settles O24: a mask marks the elements that follow it. -/
theorem packedBlocksExpand : Obligations.PackedBlocksExpand := fun _ hl hw more =>
  ⟨zbUnpack_zbPack hl hw more, dpUnpack_dpPack hl hw more, packedSize_zbPack hl more, packedSize_dpPack hl more⟩

end Sys2Proof.Claims
end

section
/-!
SUPPORT. The counter of resident clocks (16 R398) of a group that no core holds.
-/
namespace Sys2Proof.Claims
open Sys2Proof.Machine

/-- Ten clocks in, the issuing path's group has no place on a core. -/
def unplaced : State :=
  modGroup { State.reset.withFetchWord 96 0 with cur := some ⟨0, 0⟩, clk := 10 } 0 fun g => { g with place := none }

/-- PERF of counter 2 into s0 and s1. -/
def residentClocks : Fields :=
  { mod := 0, d := 0x100, a := 0, b := 0, c := 2, g := 63, gn := 0, reuse := 0, x := 0 }

theorem issuer_unplaced : (issuer unplaced).isSome = true := by decide

/-- The model counts the clocks of cluster 0. -/
theorem perf_residentClocks : ∃ t, exec (.perf residentClocks) unplaced = .next t ∧ (getGroup t 0).map (·.getS 0) = some 10 :=
  ⟨_, rfl, by decide⟩

/-- Refutes O36: the claim adds no clocks for a group without a place; the model's PERF adds those of cluster 0. -/
theorem not_systemRegisters : ¬ Obligations.SystemRegisters := by
  intro h
  obtain ⟨-, -, hperf⟩ := h
  obtain ⟨t, ht, hv⟩ := perf_residentClocks
  obtain ⟨g', hg, hw⟩ := hperf residentClocks unplaced ((issuer unplaced).get issuer_unplaced) (Option.some_get _).symm
    (by decide) (by decide) (by decide) (fun _ _ => rfl)
  have hval : g'.getS 0 = 0 := (hw.sca 0).trans (by decide)
  rw [ht] at hg
  injection hg with hg
  have hgroup : getGroup t 0 = (getGroup unplaced 0).map fun _ => g' := by
    rw [hg]
    exact spFind_spMod_self _ _ _
  obtain ⟨g, hread, h10⟩ := Option.map_eq_some_iff.1 hv
  obtain ⟨_, -, rfl⟩ := Option.map_eq_some_iff.1 (hgroup.symm.trans hread)
  exact absurd (hval.symm.trans h10) (by decide)

end Sys2Proof.Claims
end

section
/-!
SUPPORT. The issuing path in a state whose groups are those of the state it issues in; and what an agent has learnt.
-/
namespace Sys2Proof.Claims
open Sys2Proof.Machine

section
variable {s t : State} {c : Iss}

/-! ## Issue in a later state -/

theorem getGroup_here (h : issuer s = some c) (ht : t.groups = s.groups) : getGroup t c.gid = some c.g := by
  rw [Machine.getGroup, ht]
  exact (issuer_spec h).2.1

theorem modGroup_here (h : issuer s = some c) (ht : t.groups = s.groups) (F : Group → Group) :
    modGroup t c.gid F = modGroup t c.gid fun _ => F c.g := modGroup_const F (getGroup_here h ht)

theorem retire_here (h : issuer s = some c) (ht : t.groups = s.groups) : retire t c = modGroup t c.gid fun _ => behind c := by
  rw [retire, modGroup_here h ht, (issuer_spec h).2.2.1]
  rfl

/-- A change of the issuing group that keeps its paths, and the retirement. -/
theorem retire_modGroup_here (h : issuer s = some c) (ht : t.groups = s.groups) (F : Group → Group)
    (hF : (F c.g).live c.live = c.g.live c.live) : retire (modGroup t c.gid F) c = modGroup t c.gid fun _ => past c (F c.g) := by
  rw [retire, modGroup_modGroup, modGroup_here h ht, hF, (issuer_spec h).2.2.1]
  rfl

theorem waitOn_here (h : issuer s = some c) (ht : t.groups = s.groups) (w : Wait) :
    waitOn t c w = modGroup t c.gid fun _ => c.g.setLive c.live (some { c.p with wait := w, since := t.clk }) := by
  rw [waitOn, modPath, modGroup_here h ht, (issuer_spec h).2.2.1]
  rfl

theorem modGroup_teams_comm (s : State) (gid tid : Nat) (F : Group → Group) (T : Team → Team) :
    modGroup (modTeam s tid T) gid F = modTeam (modGroup s gid F) tid T := rfl

end

/-! ## What agents know -/

theorem mem_addIds_left {id : Nat} {a b : List Nat} (h : id ∈ a) : id ∈ addIds a b := List.mem_append_left _ h

theorem mem_addIds_right {id : Nat} {a b : List Nat} (h : id ∈ b) : id ∈ addIds a b := by
  by_cases ha : id ∈ a
  · exact mem_addIds_left ha
  · exact List.mem_append_right _ (List.mem_eraseDups.2 (List.mem_filter.2 ⟨h, by simpa using ha⟩))

theorem getKnow_hb_of_raw {s : State} {ag : Agent} {id : Nat} (h : id ∈ (spGet {} s.know ag.key).hb) :
    id ∈ (getKnow s ag).hb := by
  unfold getKnow
  dsimp only
  split
  · split
    · split
      · exact h
      · exact mem_addIds_right h
    · exact h
  · exact h

theorem learn_learns (s : State) (ag : Agent) {ids : List Nat} {id : Nat} (h : id ∈ ids) :
    id ∈ (getKnow (learn s ag ids) ag).hb := by
  unfold learn
  split
  · next ha => simpa using List.all_eq_true.1 ha id h
  · refine getKnow_hb_of_raw ?_
    rw [modKnow, spGet_spSet_self]
    exact mem_addIds_right h

/-- The stores that an agent has seen are the team's and its own. -/
theorem getKnow_know (s : State) (k : SMap Know) (ag : Agent) {id : Nat}
    (hraw : ∀ id ∈ (spGet {} s.know ag.key).hb, id ∈ (spGet {} k ag.key).hb)
    (hat : (spGet {} k ag.key).atIssue = (spGet {} s.know ag.key).atIssue) (h : id ∈ (getKnow s ag).hb) :
    id ∈ (getKnow { s with know := k } ag).hb := by
  cases ag with
  | thread gid lane =>
    simp only [getKnow] at h ⊢
    have hteam : teamOfGroup { s with know := k } gid = teamOfGroup s gid := rfl
    rw [hteam]
    cases ht : teamOfGroup s gid with
    | none => rw [ht] at h; exact hraw id h
    | some t =>
      rw [ht] at h
      dsimp only at h ⊢
      rw [hat]
      by_cases hi : (spGet {} s.know (Agent.thread gid lane).key).atIssue.isSome
      · rw [if_pos hi] at h ⊢; exact hraw id h
      · rw [if_neg hi] at h ⊢
        rcases List.mem_append.1 h with h | h
        · exact mem_addIds_left h
        · exact mem_addIds_right (hraw id (List.mem_filter.1 (List.mem_eraseDups.1 h)).1)
  | _ => exact hraw id h

theorem learn_keeps (s : State) (a b : Agent) (ids : List Nat) {id : Nat} (h : id ∈ (getKnow s a).hb) :
    id ∈ (getKnow (learn s b ids) a).hb := by
  unfold learn
  split
  · exact h
  · have hk (k : Know) : spGet {} (spSet {} s.know b.key k) a.key = if a.key = b.key then k else spGet {} s.know a.key :=
      spGet_spSet ..
    refine getKnow_know s _ a (fun id hid => ?_) ?_ h
    · rw [hk]
      split
      · next he => exact mem_addIds_left (he ▸ hid)
      · exact hid
    · rw [hk]
      split
      · next he => rw [he]
      · rfl

theorem learn_know (s : State) (ag : Agent) (ids : List Nat) : ∃ k, learn s ag ids = { s with know := k } := by
  unfold learn
  split
  · exact ⟨_, rfl⟩
  · exact ⟨_, rfl⟩

theorem acquireAll_know (s : State) (ags : List Agent) (scope : Nat) (rels : List RelInfo) :
    ∃ k, acquireAll s ags scope rels = { s with know := k } := by
  induction ags generalizing s with
  | nil => exact ⟨_, rfl⟩
  | cons a r ih =>
    obtain ⟨k, hk⟩ := learn_know s a _
    obtain ⟨k', hk'⟩ := ih (acquire s a scope rels)
    refine ⟨k', hk'.trans ?_⟩
    rw [acquire, hk]

theorem acquireAll_keeps (s : State) (ags : List Agent) (scope : Nat) (rels : List RelInfo) {a : Agent} {id : Nat}
    (h : id ∈ (getKnow s a).hb) : id ∈ (getKnow (acquireAll s ags scope rels) a).hb := by
  induction ags generalizing s with
  | nil => exact h
  | cons b r ih => exact ih (acquire s b scope rels) (learn_keeps s a b _ h)

/-- An acquire edge learns the stores of every release edge that it observes. -/
theorem acquireAll_learns (s : State) (ags : List Agent) (scope : Nat) {rels : List RelInfo} {r : RelInfo} {a : Agent}
    (ha : a ∈ ags) (hr : r ∈ rels) (ho : r.observed s (a.place s) scope = true) :
    ∀ id ∈ r.ids, id ∈ (getKnow (acquireAll s ags scope rels) a).hb := by
  intro id hid
  induction ags generalizing s with
  | nil => cases ha
  | cons b l ih =>
    rcases List.mem_cons.1 ha with rfl | ha
    · refine acquireAll_keeps (acquire s a scope rels) l scope rels (learn_learns s a ?_)
      exact List.mem_append_left _ (List.mem_append_left _ (List.mem_flatMap.2 ⟨r, List.mem_filter.2 ⟨hr, ho⟩, hid⟩))
    · obtain ⟨k, hk⟩ : ∃ k, acquire s b scope rels = { s with know := k } := learn_know s b _
      refine ih (acquire s b scope rels) ha ?_
      rw [hk]
      exact ho

end Sys2Proof.Claims
end

section
/-!
SUPPORT. Barriers (14 R339 to R341, R343): an arrival, a wait for a phase, and what misuse traps.
-/
namespace Sys2Proof.Claims
open Sys2Proof.Machine

section
variable {s : State} {c : Iss} {f : Fields}

theorem withSlot_ok {body : Nat → State} (hb : srcBad c false (opnd f.a) 0 = false)
    (hs : srcVal s c .w32 (opnd f.a) 0 < c.t.bars) : withSlot s c f body = body (srcVal s c .w32 (opnd f.a) 0) := by
  unfold withSlot
  rw [hb, if_neg (by decide), if_neg (Nat.not_le.2 hs)]

theorem withSlot_none {body : Nat → State} (hb : srcBad c false (opnd f.a) 0 = false)
    (hs : c.t.bars ≤ srcVal s c .w32 (opnd f.a) 0) : withSlot s c f body = takeTrap s c causeBarrier 0 0 := by
  unfold withSlot
  rw [hb, if_neg (by decide), if_pos hs]

/-- The barrier's part of an arrival: behind the release edge, the group and the edge enter the slot. -/
def slotArrival (s : State) (c : Iss) (act : Mask) (n scope : Nat) : State :=
  modBar (publishAt s c.core scope) c.g.team n fun b =>
    { b with arrived := b.arrived ++ [c.gid], rels := addRels b.rels (releaseOfAll s (threadsOf c.gid act) scope) }

/-- The group's part of an arrival: it notes the phase. -/
def noteArrival (c : Iss) (n : Nat) (g : Group) : Group :=
  { g with arrived := spSet 0 g.arrived n ((getBar c.t n).done + 1) }

theorem arrive_eq (s : State) (c : Iss) (act : Mask) (n scope : Nat) :
    arrive s c act n scope = modGroup (slotArrival s c act n scope) c.gid (noteArrival c n) := rfl

theorem slotArrival_groups (s : State) (c : Iss) (act : Mask) (n scope : Nat) :
    (slotArrival s c act n scope).groups = s.groups := (quiet_publishAt s c.core scope).groups

theorem slotArrival_clk (s : State) (c : Iss) (act : Mask) (n scope : Nat) : (slotArrival s c act n scope).clk = s.clk :=
  (quiet_publishAt s c.core scope).clk

/-- A second group change after one of the issuing group. -/
theorem waitOn_arrive (h : issuer s = some c) (act : Mask) (n scope : Nat) (w : Wait) :
    waitOn (arrive s c act n scope) c w = modGroup (slotArrival s c act n scope) c.gid fun _ =>
      (noteArrival c n c.g).setLive c.live (some { c.p with wait := w, since := s.clk }) := by
  rw [arrive_eq, waitOn, modPath, modGroup_modGroup, modGroup_here h (slotArrival_groups ..)]
  have hl : (noteArrival c n c.g).live c.live = some c.p := (issuer_spec h).2.2.1
  have hclk : (modGroup (slotArrival s c act n scope) c.gid (noteArrival c n)).clk = s.clk := slotArrival_clk s c act n scope
  rw [hl, hclk]
  rfl

theorem phaseAcquire_groups (act : Mask) (n phase scope : Nat) : (phaseAcquire s c act n phase scope).groups = s.groups := by
  unfold phaseAcquire
  dsimp only
  exact (Quiet.foldl (fun s r => (calm_acquireAll s _ _ _).1) _ _).groups.trans (calm_acquireAll ..).1.groups

/-- The phase's release edges are observed. -/
theorem phaseAcquire_learns {act : Mask} {n phase scope l : Nat} {r : RelInfo}
    (hr : r ∈ (spFind (getBar c.t n).passed phase).getD []) (hl : l ∈ lanesOf act)
    (ho : r.observed s ((Agent.thread c.gid l).place s) scope = true) :
    ∀ id ∈ r.ids, id ∈ (getKnow (phaseAcquire s c act n phase scope) (.thread c.gid l)).hb := by
  intro id hid
  unfold phaseAcquire
  dsimp only
  generalize (spFind (getBar c.t n).passed phase).getD [] = rels at hr
  have h1 := acquireAll_learns s (threadsOf c.gid act) scope (List.mem_map.2 ⟨l, hl, rfl⟩) hr ho id hid
  generalize acquireAll s (threadsOf c.gid act) scope rels = s1 at h1
  induction rels.filter (fun r => r.place.gid.isNone) generalizing s1 with
  | nil => exact h1
  | cons q qs ih => exact ih _ (acquireAll_keeps s1 _ _ _ h1)

theorem awaitPhase_open {act : Mask} {n phase scope : Nat} (h : issuer s = some c) (hd : (getBar c.t n).done = phase) :
    awaitPhase s c act n phase scope = modGroup s c.gid fun _ =>
      c.g.setLive c.live (some { c.p with wait := .barrier n phase, since := s.clk }) := by
  rw [awaitPhase, if_pos hd, waitOn_eq h]

theorem awaitPhase_passed {act : Mask} {n phase scope : Nat} (h : issuer s = some c) (hd : (getBar c.t n).done ≠ phase) :
    awaitPhase s c act n phase scope = modGroup (phaseAcquire s c act n phase scope) c.gid fun _ => behind c := by
  rw [awaitPhase, if_neg hd, retire_here h (phaseAcquire_groups ..)]

end

/-- The granules of an aligned range. -/
theorem granules_aligned {a n : Nat} (ha : a % 16 = 0) (hn : n % 16 = 0) :
    granules a n = (List.range (n / 16)).map (a / 16 + ·) := by
  unfold granules
  split
  · next h => rw [h]; rfl
  · have hk : (a + n - 1) / 16 - a / 16 + 1 = n / 16 := by omega
    rw [hk]
    exact List.map_congr_left fun k _ => Nat.add_comm k _

/-- Full-empty bits of an aligned range, and the stores that filled it. -/
theorem setFull_aligned {a n : Nat} (t : Team) (x : BitVec 4) (ha : a % 16 = 0) (hn : n % 16 = 0) :
    setFull t (x == 1) (granules a n) =
      { t with
        full := (List.range (n / 16)).foldl (fun m k => spSet false m (a / 16 + k) (x == 1)) t.full
        filled := if x = 1 then t.filled else (List.range (n / 16)).foldl (fun m k => spDel m (a / 16 + k)) t.filled } := by
  unfold setFull
  rw [granules_aligned ha hn, List.foldl_map, List.foldl_map]
  by_cases hx : x = 1
  · rw [if_pos hx, if_pos (beq_iff_eq.2 hx)]
  · rw [if_neg hx, if_neg (mt beq_iff_eq.1 hx)]

/-- BARW and BAR of a path that waits for no phase yet. -/
theorem awaits_of_wait {w : Wait} {A B : State} {F : Nat → Nat → State} : (∀ n d, w ≠ .barrier n d) → A = B →
    (match w with | .barrier n k => F n k | _ => A) = B := by
  intro hw hAB
  split
  · next n k => exact absurd rfl (hw n k)
  · exact hAB

/-- Settles O22: every form reads its slot, and then arrives, waits, observes or traps. -/
theorem barriers : Obligations.Barriers := by
  refine ⟨?bara, ?barw, ?bar, ?again, ?misuse, ?learns, ?barx, ?feset⟩
  case bara =>
    rintro f s c ⟨h, hg, ha, hb, hs⟩ hl hn
    refine (exec_masked rfl h hg hl ha).trans ?_
    rw [withSlot_ok hb hs, hn, if_neg (by decide), arrive_eq]
    exact congrArg Host.Outcome.next (retire_modGroup_here h (slotArrival_groups ..) _ rfl)
  case barw =>
    rintro f s c ⟨h, hg, ha, hb, hs⟩ hl hw
    have he (t : State) (ht : _ = t) : exec (.barw f) s = .next t :=
      (exec_masked rfl h hg hl ha).trans (congrArg _ ((withSlot_ok hb hs).trans (awaits_of_wait hw ht)))
    refine ⟨fun hn => he _ ?_, fun hn => he _ ?_⟩
    · rw [hn, if_pos rfl]
      exact awaitPhase_open h rfl
    · rw [hn, if_neg (by decide)]
      exact retire_here h (phaseAcquire_groups ..)
  case bar =>
    rintro f s c ⟨h, hg, ha, hb, hs⟩ hl hw hn
    refine (exec_masked rfl h hg hl ha).trans (congrArg _ ((withSlot_ok hb hs).trans (awaits_of_wait hw ?_)))
    rw [hn, if_neg (by decide)]
    exact waitOn_arrive h ..
  case again =>
    rintro f s c n phase ⟨h, hg, ha, hb, hs⟩ hl hw
    have hbarw : exec (.barw f) s = .next (awaitPhase s c (active c f) (srcVal s c .w32 (opnd f.a) 0) phase f.mod.toNat) := by
      refine (exec_masked rfl h hg hl ha).trans (congrArg _ ((withSlot_ok hb hs).trans ?_))
      rw [hw]
    have hbar : exec (.bar f) s = .next (awaitPhase s c (active c f) (srcVal s c .w32 (opnd f.a) 0) phase f.mod.toNat) := by
      refine (exec_masked rfl h hg hl ha).trans (congrArg _ ((withSlot_ok hb hs).trans ?_))
      rw [hw]
    refine ⟨fun hd => ?_, fun hd => ?_⟩
    · rw [Goes, Goes, hbarw, hbar, awaitPhase_open h hd]
      exact ⟨rfl, rfl⟩
    · rw [hbarw, hbar, awaitPhase_passed h hd]
      exact ⟨rfl, rfl⟩
  case misuse =>
    intro f s c h hg ha hb
    refine ⟨fun hs hl => ?_, fun hs hl hn => ?_, fun hm hx hd hc hbar hu hv hor => ?_⟩
    · have he {i : Instr} {body : Iss → Mask → Nat → State}
          (hi : exec i s = onPath s fun c => runMasked s c f (barLegal f) fun act => withSlot s c f (body c act)) :
          exec i s = .next (takeTrap s c causeBarrier 0 0) :=
        (exec_masked hi h hg hl ha).trans (congrArg _ (withSlot_none hb hs))
      exact ⟨he rfl, he rfl, he rfl⟩
    · refine ⟨(exec_masked rfl h hg hl ha).trans (congrArg _ ((withSlot_ok hb hs).trans ?_)), fun hw =>
        (exec_masked rfl h hg hl ha).trans (congrArg _ ((withSlot_ok hb hs).trans (awaits_of_wait hw ?_)))⟩
      · rw [hn, if_pos rfl]
      · rw [hn, if_pos rfl]
    · refine (exec_masked rfl h hg (by simp [hm, hx, hd, hc, hbar, hu]) ha).trans (congrArg _ ?_)
      rw [hv, if_neg (by decide)]
      rcases Nat.lt_or_ge (srcVal s c .w32 (opnd f.a) 0) c.t.bars with hs | hs
      · rw [withSlot_ok hb hs]
        exact if_pos (hor.resolve_left (Nat.not_le.2 hs))
      · exact withSlot_none hb hs
  case learns => exact fun s c act n phase scope r hr l hl ho => phaseAcquire_learns hr hl ho
  case barx =>
    rintro f s c ⟨h, hg, ha, hb, hs⟩ hm hx hd hc hbar hu hv v hlt hge
    refine (exec_masked rfl h hg (by simp [hm, hx, hd, hc, hbar, hu]) ha).trans (congrArg _ ?_)
    rw [hv, if_neg (by decide), withSlot_ok hb hs]
    exact (if_neg (not_or.2 ⟨not_le.2 hlt, not_lt.2 hge⟩)).trans (retire_here h (modTeam_groups ..))
  case feset =>
    intro f s c h hg ha hm hx hd hc hua hub hba hbb a n hsz ha16 hn16
    refine (exec_masked rfl h hg (by simp [hm, hx, hd, hc, hua, hub]) ha).trans (congrArg _ ?_)
    dsimp only
    rw [hba, hbb, Bool.or_self, if_neg (by decide), if_neg (Nat.not_lt.2 hsz), if_neg (by omega)]
    refine (retire_here h (modTeam_groups ..)).trans ?_
    refine congrArg (fun T => modGroup (modTeam s c.g.team T) c.gid fun _ => behind c) (funext fun t => ?_)
    exact setFull_aligned t f.x ha16 hn16

end Sys2Proof.Claims
end

section
/-!
SUPPORT. Neural calls (15 R352, R353, R367, R371): waits for a token, the rows of a call, hints and the flush of bins.
-/
namespace Sys2Proof.Claims
open Sys2Proof.Machine

section
variable {s : State} {c : Iss} {f : Fields}

theorem whenTokenFree_pending (h : issuer s = some c) {n : Nat} (hp : c.g.tokPending n = true) (body : State) :
    whenTokenFree s c n body = modGroup s c.gid fun _ =>
      c.g.setLive c.live (some { c.p with wait := .token n, since := s.clk }) := by
  rw [whenTokenFree, if_pos hp, waitOn_eq h]

theorem whenTokenFree_free {n : Nat} (hp : c.g.tokPending n = false) (body : State) : whenTokenFree s c n body = body := by
  rw [whenTokenFree, hp, if_neg (by decide)]

theorem twait_goes {n : Nat} (h : issuer s = some c) (hg : f.guardLegal = true) (hm : f.mod = 0) (hx : f.x = 0)
    (hz : allZero [f.d, f.b, f.c] = true) (hn : tokenOf f.a = some n) (ha : active c f ≠ 0) :
    exec (.twait f) s = .next (whenTokenFree s c n (retire s c)) := by
  refine (exec_masked rfl h hg (by simp [hm, hx, hz, hn]) ha).trans ?_
  rw [hn, Option.getD_some]

theorem ttest_writes (f : Fields) (n : Nat) : Writes (.ttest f) f (fun _ => decide (f.mod = 0) && decide (f.x.toNat ≤ 1) &&
    allZero [f.b, f.c] && decide (tokenOf f.a = some n) && predLegal f.d) (fun _ _ _ => false) noV noS
    (fun _ c => toPred f.d (active c f) fun _ => if f.x = 1 then (c.g.tok n).st == .done true else (c.g.tok n).st != .pending) := by
  refine writes_of (fun _ => rfl) (fun c hl => ?_) fun s c hc hl _ _ => ?_
  · simp only [Bool.and_eq_true, decide_eq_true_eq] at hl
    simp [hl]
  · simp only [Bool.and_eq_true, decide_eq_true_eq] at hl
    obtain ⟨⟨-, htok⟩, -⟩ := hl
    have htest : tokenTest (c.g.tok n) (f.x == 1) = if f.x = 1 then (c.g.tok n).st == .done true else (c.g.tok n).st != .pending := by
      simp only [tokenTest, beq_iff_eq]
    rw [htok, Option.getD_some, htest]
    refine retire_wrote hc (Wrote.toPred _ _ _ _ _ fun l _ hl => ?_)
    cases (if f.x = 1 then (c.g.tok n).st == .done true else (c.g.tok n).st != .pending) with
    | true => exact hl
    | false => exact BitVec.getLsbD_zero

/-- A hint with a good handle. -/
theorem exec_hint {i : Instr} {rel : Bool} {B : Iss → Nat → State} (hi : exec i s = onPath s fun c => runHint s c f rel (B c))
    (h : issuer s = some c) (hg : f.guardLegal = true) (hl : hintLegal c f rel = true) (ha : active c f ≠ 0)
    (hb : srcBad c false (opnd f.a) 0 = false) (ht : (B c (srcVal s c .w32 (opnd f.a) 0)).groups = s.groups) :
    exec i s = .next (modGroup (B c (srcVal s c .w32 (opnd f.a) 0)) c.gid fun _ => behind c) := by
  refine (exec_masked hi h hg hl ha).trans (congrArg _ ?_)
  rw [hb, if_neg (by decide)]
  exact retire_here h ht

theorem hintTile_groups (s : State) (c : Iss) (pin : Bool) (h : Nat) : (hintTile s c pin h).groups = s.groups := by
  unfold hintTile
  split <;> rfl

/-- The registers of a call's lanes hold no poison. -/
theorem find_badRows {lanes : List Nat} {b n : Nat} (hbad : ∀ l ∈ lanes, ∀ i < n, c.g.badV (b + i) l = false) :
    (lanes.find? fun l => (List.range n).any fun i => c.g.badV (b + i) l) = none := by
  refine find_clean fun l hl => ?_
  simpa [List.any_eq_false] using hbad l hl

/-- A call's rows enter a bin of the cluster, and its token the group. -/
theorem retire_addRows (h : issuer s = some c) (F : Group → Group) (hF : (F c.g).live c.live = c.g.live c.live)
    (cluster part ctx handle : Nat) (rows : List NRow) :
    retire (addRows (modGroup s c.gid F) cluster part ctx handle rows) c =
      addRows (modGroup s c.gid fun _ => past c (F c.g)) cluster part ctx handle rows :=
  retire_modGroup_here (t := addRows s cluster part ctx handle rows) h rfl F hF

/-- NFLUSH marks the bins of its handle, or all of its context. -/
def flushBins (s : State) (f : Fields) (c : Iss) (h : Nat) : State :=
  modCluster s (clusterOf c.core) fun k =>
    { k with bins := k.bins.map fun b =>
        if b.ctx == c.ctx && (f.a == zeroCode || b.handle == h) then { b with flush := true } else b }

end

/-- Settles O27: a pending token holds its path; a free one lets the call enter its rows. -/
theorem neuralCalls : Obligations.NeuralCalls := by
  refine ⟨?twait, ttest_writes, ?ncall, ?npin, ?npref⟩
  case twait =>
    intro f s c n h hg hm hx hz hn ha
    rw [Goes, Goes, twait_goes h hg hm hx hz hn ha]
    exact ⟨fun hp => congrArg _ (whenTokenFree_pending h hp _),
      fun hp => congrArg _ ((whenTokenFree_free hp _).trans (retire_eq h))⟩
  case ncall =>
    intro f s c t h hg hx ht hh hb hc hblk hblk' ha
    have hvb : opnd f.b = .v f.b.toNat := opnd_v hb
    have hvc : opnd f.c = .v f.c.toNat := opnd_v hc
    have he := exec_masked (o := exec (.ncall f) s) rfl h hg (by simp [hx, ht, hh, hvb, hvc, hblk, hblk']) ha
    rw [Goes, he, ht, Option.getD_some]
    refine ⟨fun hp => congrArg _ (whenTokenFree_pending h hp _), fun hp hbad hrows hsmall => congrArg Host.Outcome.next ?_⟩
    rw [whenTokenFree_free hp, hbad, if_neg (by decide), find_badRows hrows]
    dsimp only
    rw [if_neg (Nat.not_le.2 hsmall)]
    exact retire_addRows h (fun g => g.setTok t
      { st := .pending, neural := true, first := f.c.toNat, count := 32, left := active c f }) rfl ..
  case npin =>
    intro f s c h hg hl ha hb
    refine exec_hint (B := fun c n => if f.x = 1 then unpin s c n else hintTile s c true n) rfl h hg hl ha hb ?_
    by_cases hx : f.x = 1
    · rw [if_pos hx]
      rfl
    · rw [if_neg hx]
      exact hintTile_groups ..
  case npref =>
    intro f s c h hg hl ha hb
    refine ⟨exec_hint (B := fun c n => hintTile s c false n) rfl h hg hl ha hb (hintTile_groups ..),
      (exec_hint (i := .nflush f) (B := flushBins s f) rfl h hg hl ha hb rfl).trans ?_⟩
    simp only [flushBins, Bool.and_eq_true, Bool.or_eq_true, beq_iff_eq]

end Sys2Proof.Claims
end

section
/-!
SUPPORT. Fences and cache maintenance (12 R284; 14 R331, R338, R349): what a fence's edges note and observe, and that none of
these instructions touches a group before it retires.
-/
namespace Sys2Proof.Claims
open Sys2Proof.Machine

section
variable {s t : State} {c : Iss} {f : Fields}

theorem retireOp_here (h : issuer s = some c) (ht : t.groups = s.groups) (setB : Bool) (ws : List RegWrite) :
    retireOp t c setB ws = inFlight t c setB ws := by
  rw [retireOp, retire_here h ht]
  rfl

/-! ## What leaves the groups alone -/

theorem acquire_groups (s : State) (ag : Agent) (scope : Nat) (rels : List RelInfo) :
    (acquire s ag scope rels).groups = s.groups := (calm_acquire s ag scope rels).1.groups

theorem fenceOf_groups (s : State) (ag : Agent) (kind scope : Nat) : (fenceOf s ag kind scope).groups = s.groups := by
  have h1 : (if kind = 1 then s else fenceRelease s ag scope).groups = s.groups := by split <;> rfl
  unfold fenceOf
  extract_lets s1 s2
  have h2 : s2.groups = s.groups := by
    unfold s2
    split
    · exact h1
    · exact (acquire_groups s1 ag scope (getKnow s1 ag).met).trans h1
  split
  · split
    · exact (acquire_groups s2 _ scope (s2.privOrder.filter fun r => r.scope == scope)).trans h2
    · exact (acquire_groups s2 _ scope s2.scOrder).trans h2
  · exact h2

theorem l2WriteBack_groups (s : State) (line : Nat) : (l2WriteBack s line).groups = s.groups :=
  congrArg (·.groups) (l2WriteBack_offLines s line)

theorem cinvData_groups (s : State) (c : Iss) (scope : Nat) (lines : List Nat) : (cinvData s c scope lines).groups = s.groups := by
  have h1 (l : List Nat) : (l.foldl (fun t k => coreDrop t k lines.contains) s).groups = s.groups :=
    (Quiet.foldl (fun t k => quiet_coreDrop t k _) l s).groups
  unfold cinvData
  extract_lets s1
  split
  · exact h1 _
  · exact (foldl_same (·.groups) l2WriteBack_groups _ _).trans (h1 _)

theorem icinvRange_groups (s : State) (c : Iss) (ags : List Agent) (scope base n : Nat) :
    (icinvRange s c ags scope base n).groups = s.groups := by
  unfold icinvRange
  split
  · rfl
  · extract_lets v s1
    have h1 : s1.groups = s.groups := (Quiet.foldl (fun t a => (calm_modKnow t a _).1) ags _).groups
    exact (Quiet.foldl (fun t k => (calm_modCore t k _).1) _ s1).groups.trans h1

/-! ## The instructions -/

/-- A fence with a release edge at .cluster or above publishes its core's stores. -/
theorem publishedBy_eq (s : State) (c : Iss) (x : BitVec 4) (scope : Nat) :
    (if x.toNat = 1 then s else publishAt s c.core scope) = if x = 1 ∨ scope < 3 then s else coreWriteBack s c.core fun _ => true := by
  have hx : x = 1 ↔ x.toNat = 1 := BitVec.toNat_inj.symm
  unfold publishAt
  by_cases h1 : x.toNat = 1
  · rw [if_pos h1, if_pos (.inl (hx.2 h1))]
  · by_cases h2 : scope < 3
    · rw [if_neg h1, if_pos h2, if_pos (.inr h2)]
    · rw [if_neg h1, if_neg h2, if_neg (not_or.2 ⟨mt hx.1 h1, h2⟩)]

theorem fence_goes (h : issuer s = some c) (hg : f.guardLegal = true) (hx : f.x.toNat < 4) (hm : f.mod.toNat < 7)
    (hz : [f.d, f.a, f.b, f.c].all (· == zeroCode) = true) (ha : active c f ≠ 0) :
    exec (.fence f) s = .next (modGroup (fenceThreads s c.core (threadsOf c.gid (active c f)) f.x.toNat f.mod.toNat) c.gid
      fun _ => behind c) := by
  refine (exec_masked rfl h hg (by simp only [hx, hm, hz, decide_true, Bool.and_self]) ha).trans (congrArg _ ?_)
  refine retire_here h ((foldl_same (·.groups) (fun t a => fenceOf_groups t a _ _) _ _).trans ?_)
  split
  · rfl
  · exact (quiet_publishAt ..).groups

/-- A range form with a good record. -/
theorem rangeRecord_eq {r : BufRec} (hb : memBad c f (lowLane (active c f)) = false) (hn : Names c f false false r)
    (hs : r.swizzle = 0) (body : BufRec → State) : rangeRecord s c f body = body r := by
  rw [rangeRecord, hb, if_neg (by decide), withRecord_eq (forbidden := fun _ => false) hn, if_neg (not_not.2 hs)]

/-! ## Edges -/

theorem mem_addRel (r : RelInfo) (l : List RelInfo) : ∃ q ∈ addRel r l, q.scope = r.scope ∧ ∀ id ∈ r.ids, id ∈ q.ids := by
  induction l with
  | nil => exact ⟨r, List.mem_singleton.2 rfl, rfl, fun _ h => h⟩
  | cons x q ih =>
    unfold addRel
    split
    · next hx => exact ⟨_, List.mem_cons_self, hx.2, fun id hid => mem_addIds_right hid⟩
    · obtain ⟨y, hy, h⟩ := ih
      exact ⟨y, List.mem_cons_of_mem _ hy, h⟩

theorem getKnow_rels (s : State) (ag : Agent) : (getKnow s ag).rels = (spGet {} s.know ag.key).rels := by
  unfold getKnow
  dsimp only
  repeat' split
  all_goals rfl

theorem getKnow_met (s : State) (ag : Agent) : (getKnow s ag).met = (spGet {} s.know ag.key).met := by
  unfold getKnow
  dsimp only
  repeat' split
  all_goals rfl

theorem learn_rels (s : State) (ag : Agent) (ids : List Nat) : (getKnow (learn s ag ids) ag).rels = (getKnow s ag).rels := by
  unfold learn
  split
  · rfl
  · rw [getKnow_rels, getKnow_rels, modKnow, spGet_spSet_self]

theorem acquire_rels (s : State) (ag : Agent) (scope : Nat) (rels : List RelInfo) :
    (getKnow (acquire s ag scope rels) ag).rels = (getKnow s ag).rels := learn_rels s ag _

theorem fenceAcquire_rels (s : State) (ag : Agent) (scope : Nat) :
    (getKnow (fenceAcquire s ag scope) ag).rels = (getKnow s ag).rels := acquire_rels s ag scope (getKnow s ag).met

theorem scStep_rels (s : State) (ag : Agent) (scope : Nat) : (getKnow (scStep s ag scope) ag).rels = (getKnow s ag).rels :=
  acquire_rels s ag scope s.scOrder

theorem privStep_rels (s : State) (ag : Agent) (scope : Nat) : (getKnow (privStep s ag scope) ag).rels = (getKnow s ag).rels :=
  acquire_rels s ag scope (s.privOrder.filter fun r => r.scope == scope)

theorem scStep_keeps (s : State) (ag : Agent) (scope : Nat) {id : Nat} (h : id ∈ (getKnow s ag).hb) :
    id ∈ (getKnow (scStep s ag scope) ag).hb := acquireAll_keeps s [ag] scope s.scOrder h

theorem privStep_keeps (s : State) (ag : Agent) (scope : Nat) {id : Nat} (h : id ∈ (getKnow s ag).hb) :
    id ∈ (getKnow (privStep s ag scope) ag).hb :=
  acquireAll_keeps s [ag] scope (s.privOrder.filter fun r => r.scope == scope) h

/-- A release fence notes an edge with all that its agent has released. -/
theorem fenceRelease_notes (s : State) (ag : Agent) (scope : Nat) :
    ∀ id ∈ (getKnow s ag).released, ∃ r ∈ (getKnow (fenceRelease s ag scope) ag).rels, r.scope = scope ∧ id ∈ r.ids := by
  intro id hid
  obtain ⟨q, hq, hscope, hids⟩ := mem_addRel (releaseOf s ag scope) (spGet {} s.know ag.key).rels
  refine ⟨q, ?_, hscope, hids id hid⟩
  rw [fenceRelease, getKnow_rels, modKnow, spGet_spSet_self]
  exact hq

/-- A fence of kind 3 is one of kind 2 and a step in the order of its agents. -/
theorem fenceOf_ordered (s : State) (ag : Agent) (scope : Nat) :
    fenceOf s ag 3 scope = privStep (fenceAcquire (fenceRelease s ag scope) ag scope) ag scope ∨
      fenceOf s ag 3 scope = scStep (fenceAcquire (fenceRelease s ag scope) ag scope) ag scope := by
  cases ag with
  | mc => exact .inl rfl
  | _ => exact .inr rfl

theorem fenceOf_notes (s : State) (ag : Agent) {kind : Nat} (scope : Nat) (hk : kind = 0 ∨ kind = 2 ∨ kind = 3) :
    (getKnow (fenceOf s ag kind scope) ag).rels = (getKnow (fenceRelease s ag scope) ag).rels := by
  rcases hk with rfl | rfl | rfl
  · rfl
  · exact fenceAcquire_rels ..
  · rcases fenceOf_ordered s ag scope with he | he
    · rw [he]
      exact (privStep_rels ..).trans (fenceAcquire_rels ..)
    · rw [he]
      exact (scStep_rels ..).trans (fenceAcquire_rels ..)

/-- An acquire fence learns the edges that its agent has met. -/
theorem fenceAcquire_learns {s : State} {ag : Agent} {scope : Nat} {r : RelInfo} (hr : r ∈ (getKnow s ag).met)
    (ho : r.observed s (ag.place s) scope = true) : ∀ id ∈ r.ids, id ∈ (getKnow (fenceAcquire s ag scope) ag).hb :=
  fun _ hid => acquireAll_learns s [ag] scope List.mem_cons_self hr ho _ hid

theorem fenceRelease_met (s : State) (ag : Agent) (scope : Nat) :
    (getKnow (fenceRelease s ag scope) ag).met = (getKnow s ag).met := by
  rw [getKnow_met, getKnow_met, fenceRelease, modKnow, spGet_spSet_self]

theorem fenceOf_learns {s : State} {ag : Agent} {kind scope : Nat} {r : RelInfo} (hk : kind = 1 ∨ kind = 2 ∨ kind = 3)
    (hr : r ∈ (getKnow s ag).met) (ho : r.observed s (ag.place s) scope = true) :
    ∀ id ∈ r.ids, id ∈ (getKnow (fenceOf s ag kind scope) ag).hb := by
  intro id hid
  have h2 : id ∈ (getKnow (fenceAcquire (fenceRelease s ag scope) ag scope) ag).hb :=
    fenceAcquire_learns (s := fenceRelease s ag scope) ((fenceRelease_met s ag scope).symm ▸ hr) ho id hid
  rcases hk with rfl | rfl | rfl
  · exact fenceAcquire_learns hr ho id hid
  · exact h2
  · rcases fenceOf_ordered s ag scope with he | he
    · exact he ▸ privStep_keeps _ _ _ h2
    · exact he ▸ scStep_keeps _ _ _ h2

end

/-- Settles O21: the instructions change memory, caches and knowledge, and then their group retires. -/
theorem fencesAndCaches : Obligations.FencesAndCaches := by
  refine ⟨?fence, ?pft, ?cinv, ?icinv, ?notes, fun s ag kind scope r hk hr ho => fenceOf_learns hk hr ho⟩
  case fence =>
    intro f s c h hg hx hm hz ha
    refine (fence_goes h hg hx hm hz ha).trans (congrArg (fun t => Host.Outcome.next (modGroup t c.gid fun _ => behind c)) ?_)
    rw [fenceThreads, threadsOf, List.foldl_map]
    exact congrArg (List.foldl _ · _) (publishedBy_eq ..)
  case pft =>
    intro f s c r h hg hl hm hd ha hn
    refine (exec_masked rfl h hg (by simp [hl, hm, hd]) ha).trans (congrArg _ ?_)
    rw [withRecord_eq (forbidden := fun r => recForbids r f.x.toNat) hn]
    exact retire_here h (Calm.foldl (fun t l =>
      .ite (.refl t) (.ite (calm_askCaches ..) (calm_l2Asked ..))) _ _).1.groups
  case cinv =>
    intro f s c r h hc hb hn hs
    refine (exec_counted rfl h hc).trans (congrArg _ ?_)
    rw [rangeRecord_eq hb hn hs]
    refine retireOp_here h ?_ _ _
    have hd (t : State) (p : Prop) [Decidable p] (lines : List Nat) (ht : t.groups = s.groups) :
        (if p then t else cinvData t c (f.mod.toNat % 8) lines).groups = s.groups := by
      split
      · exact ht
      · exact (cinvData_groups ..).trans ht
    split
    · exact hd s _ _ rfl
    · exact hd s _ _ rfl
  case icinv =>
    intro f s c r h hc hb hn hs
    refine (exec_counted rfl h hc).trans (congrArg _ ?_)
    rw [rangeRecord_eq hb hn hs]
    exact retireOp_here h (icinvRange_groups ..) _ _
  case notes =>
    intro s ag kind scope hk id hid
    rw [fenceOf_notes s ag scope hk]
    exact fenceRelease_notes s ag scope id hid

end Sys2Proof.Claims
end

section
/-!
SUPPORT. Memory instructions of the lanes (14 R327 to R330, R334 to R337): an access whose places translate goes to memory, and an
operation of it is in flight.
-/
namespace Sys2Proof.Claims
open Sys2Proof.Machine

section
variable {s : State} {c : Iss} {f : Fields}

/-- No lane's address, record or operand block is poisoned. -/
theorem find_badLane {ls : List Nat} {p q : Nat → Bool} (h : ∀ l ∈ ls, p l = false ∧ q l = false) :
    ls.find? (fun l => p l || q l) = none :=
  find_clean fun l hl => by rw [(h l hl).1, (h l hl).2]; rfl

theorem quiet_of_offLines {t : State} (h : offLines t = offLines s) : Quiet s t := by
  have hw : work (offLines t) = work (offLines s) := congrArg work h
  exact hw

theorem quiet_ctlWrite (s : State) (cmp : Nat) (bs : List (Nat × Byte)) (bad : Bool) : Quiet s (ctlWrite s cmp bs bad) := by
  refine Quiet.foldl (fun s e => ?_) _ s
  dsimp only
  split
  · exact rfl
  · exact quiet_of_offLines (ctlStore_offLines ..)

theorem quiet_ctlPublish (s : State) (w : Nat) (m : Msg) : Quiet s (ctlPublish s w m) := quiet_ctlWrite s m.cmp _ m.bad

theorem quiet_storeBytes (s : State) (ag : Agent) (cmp kind va loc : Nat) (bs : List Byte) (bad : Bool) (rels : List RelInfo) :
    Quiet s (storeBytes s ag cmp kind va loc bs bad rels) := by
  refine Quiet.foldl (fun s u => ?_) _ s
  by_cases hk : kind = 3
  · rw [if_pos hk]
    exact (quiet_noteStore ..).trans (quiet_ctlPublish ..)
  · rw [if_neg hk]
    exact quiet_storeUnit ..

theorem quiet_storeHere (gid : Nat) (nibble : Bool) (val : Nat → Nat) (rel : Option Nat) (s : State) (ls : List LaneLoc) :
    Quiet s (storeHere gid nibble val rel s ls) := by
  unfold storeHere
  split
  · exact .refl s
  · extract_lets ag tops rels old bs t
    have hold : Quiet s old.2 := by
      unfold old
      split
      · exact (calm_readBytes ..).1
      · exact .refl s
    exact (hold.trans (quiet_storeBytes ..)).trans (calm_shareStores ..).1

theorem quiet_storeLanes (gid : Nat) (nibble : Bool) (val : Nat → Nat) (rel : Option Nat) (s : State) (ls : List LaneLoc) :
    Quiet s (storeLanes gid nibble val rel s ls) := Quiet.foldl (fun t _ => quiet_storeHere gid nibble val rel t _) _ s

theorem globalLoad_eq {sx : Bool} {acq : Option Nat} {r : BufRec} {ls : List LaneLoc} (h : issuer s = some c)
    (hb : ∀ l ∈ accessLanes c f, memBad c f l = false) (hn : Names c f false (recForbids r f.x.toNat) r)
    (hr : Reaches s c .read (some .rd) (r.size f.x.toNat)
      (lanePlaces s c r (r.size f.x.toNat) (opnd f.a) f.imm9 (accessLanes c f)) ls) :
    globalLoad s c f sx acq (active c f) =
      if ls.any fun l => atomAhead s (loaders c (opnd f.d) (active c f) l.lane) l then s
      else
        let q := loadLanes (fun l raw => loadValue (ftzOn c) sx r f.x.toNat l.hi raw) (loaders c (opnd f.d) (active c f)) acq s ls
        inFlight q.2 c false ((accessLanes c f).flatMap fun l =>
          blockWrites (opnd f.d) (blockRegs f.x.toNat) l (loadedOf q.1 l).1 (loadedOf q.1 l).2) := by
  unfold globalLoad
  have hlanes : (if (opnd f.d).isScalarReg then [lowLane (active c f)] else lanesOf (active c f)) = accessLanes c f := rfl
  simp only [hlanes, find_clean hb, withRecord_eq (forbidden := fun r => recForbids r f.x.toNat) hn, prepAccess_ok hr,
    retireOp_here h (calm_loadLanes ..).1.groups]

/-- The release edge of a store that makes an access. -/
def releaseEdge (s : State) (c : Iss) (rel : Option Nat) (ls : List LaneLoc) : State :=
  match rel with
  | some k => if ls = [] then s else publishAt s c.core k
  | none => s

theorem quiet_releaseEdge (s : State) (c : Iss) (rel : Option Nat) (ls : List LaneLoc) : Quiet s (releaseEdge s c rel ls) := by
  cases rel with
  | none => exact .refl s
  | some k => exact .ite (.refl s) (quiet_publishAt ..)

theorem globalStore_eq {rel : Option Nat} {r : BufRec} {ls : List LaneLoc} (h : issuer s = some c)
    (hb : ∀ l ∈ lanesOf (active c f), memBad c f l = false ∧ blockBad c.g (opnd f.d) (blockRegs f.x.toNat) l = false)
    (hn : Names c f false (recForbids r f.x.toNat) r)
    (hr : Reaches s c .write (some .wr) (r.size f.x.toNat)
      (lanePlaces s c r (r.size f.x.toNat) (opnd f.a) f.imm9 (lanesOf (active c f))) ls) :
    globalStore s c f rel (active c f) =
      if ls.any fun l => atomAhead s [.thread c.gid l.lane] l then s
      else inFlight (storeLanes c.gid r.nibble (storedBits s c f r) rel (releaseEdge s c rel ls) ls) c true [] := by
  unfold globalStore
  simp only [find_badLane hb, withRecord_eq (forbidden := fun r => recForbids r f.x.toNat) hn, prepAccess_ok hr,
    List.isEmpty_iff]
  exact if_congr Iff.rfl rfl (retireOp_here h ((quiet_releaseEdge s c rel ls).trans (quiet_storeLanes ..)).groups _ _)

/-- A request for every lane goes to its home, behind the release edge and without the lane's own lines. -/
theorem globalAtom_eq {cas : Bool} {n : Nat} {r : BufRec} {ls : List LaneLoc} (h : issuer s = some c)
    (hb : ∀ l ∈ lanesOf (active c f), memBad c f l = false ∧ blockBad c.g (opnd f.d) n l = false)
    (hn : Names c f true (recForbids r f.x.toNat) r)
    (hr : Reaches s c .atomic (some .at) (2 ^ f.x.toNat)
      (lanePlaces s c r (2 ^ f.x.toNat) (opnd f.a) 0 (lanesOf (active c f))) ls) :
    globalAtom s c f cas n (active c f) =
      let s1 := if 2 ≤ atomOrder f ∧ ls ≠ [] then publishAt s c.core (atomScope f) else s
      let s2 := ls.foldl (fun t l => if l.kind = 3 then t else coreDrop t c.core fun k => k == l.loc / 128) s1
      let s3 := ls.foldl (fun t l => modPart t (atomPart s c l) fun p => { p with atoms := p.atoms ++ [atomReq s2 c f cas l] }) s2
      startOp (modGroup s3 c.gid fun _ => behind c)
        { gid := c.gid, flag := setFlag c.p false, writes := atomDropped f cas (active c f) ls, left := ls.length } := by
  have h1 : Quiet s (if 2 ≤ atomOrder f ∧ ls ≠ [] then publishAt s c.core (atomScope f) else s) :=
    .ite (quiet_publishAt ..) (.refl s)
  have h2 (t : State) : Quiet t (ls.foldl (fun t l => if l.kind = 3 then t else coreDrop t c.core fun k => k == l.loc / 128) t) :=
    Quiet.foldl (fun t _ => .ite (.refl t) (quiet_coreDrop ..)) _ _
  have h3 (t u : State) : Quiet t (ls.foldl (fun t l => modPart t (atomPart s c l) fun p =>
      { p with atoms := p.atoms ++ [atomReq u c f cas l] }) t) := Quiet.foldl (fun t _ => (calm_modPart t _ _).1) _ _
  have hne : (!ls.isEmpty) = true ↔ ls ≠ [] := by simp
  unfold globalAtom
  simp only [find_badLane hb, withRecord_eq (forbidden := fun r => recForbids r f.x.toNat) hn, prepAccess_ok hr, sendAtoms, hne]
  rw [retire_here h (h1.trans ((h2 _).trans (h3 _ _))).groups]

end

/-- Settles O19: both atomics queue their requests alike. -/
theorem atomics : Obligations.Atomics := by
  constructor
  · intro f s c r ls h hc hb hn hr
    exact (exec_counted rfl h hc).trans (congrArg _ (globalAtom_eq h hb hn hr))
  · intro f s c r ls h hc hb hn hr
    refine (exec_counted rfl h ?_).trans (congrArg _ (globalAtom_eq h hb hn hr))
    obtain ⟨hg, hl, hroom, ha⟩ := hc
    refine ⟨hg, ?_, hroom, ha⟩
    simpa [Bool.and_assoc, beq_eq_decide] using hl

section
variable {s : State}

/-- What an atomic of the thread ahead of an access decides. -/
theorem ahead_cases {who : LaneLoc → List Agent} {ls : List LaneLoc} {A : State} :
    ((∀ l ∈ ls, atomAhead s (who l) l = false) →
      (.next (if ls.any fun l => atomAhead s (who l) l then s else A) : Out) = .next A) ∧
    ((∃ l ∈ ls, atomAhead s (who l) l = true) →
      (.next (if ls.any fun l => atomAhead s (who l) l then s else A) : Out) = .next s) := by
  refine ⟨fun hno => ?_, fun hyes => ?_⟩
  · rw [List.any_eq_false.2 (by simpa using hno), if_neg (by decide)]
  · rw [List.any_eq_true.2 hyes, if_pos rfl]

end

/-- Settles O16: a load and a store reach memory unless an atomic of their thread is ahead. -/
theorem loadsAndStores : Obligations.LoadsAndStores := by
  refine ⟨?ld, ?lda, ?st, ?stl⟩
  case ld =>
    intro f s c r ls h hc hb hn hr
    have he : exec (.ld f) s = .next (globalLoad s c f (bitOf f.mod.toNat 2) none (active c f)) := by
      obtain ⟨hg, hl, hroom, ha⟩ := hc
      refine exec_counted rfl h ⟨hg, ?_, hroom, ha⟩
      simpa only [Bool.and_assoc, getLsbD_eq_bitOf, bne, beq_eq_decide, decide_not] using hl
    rw [he, globalLoad_eq h hb hn hr, ← getLsbD_eq_bitOf]
    exact ahead_cases
  case lda =>
    intro f s c r ls h hc hb hn hr
    have he : exec (.lda f) s = .next (globalLoad s c f false (some f.mod.toNat) (active c f)) := exec_counted rfl h hc
    rw [he, globalLoad_eq h hb hn hr]
    exact ahead_cases
  case st =>
    intro f s c r ls h hc hb hn hr
    have he : exec (.st f) s = .next (globalStore s c f none (active c f)) := exec_counted rfl h hc
    rw [he, globalStore_eq h hb hn hr]
    exact ahead_cases
  case stl =>
    intro f s c r ls h hc hb hn hr
    have he : exec (.stl f) s = .next (globalStore s c f (some f.mod.toNat) (active c f)) := exec_counted rfl h hc
    rw [he, globalStore_eq h hb hn hr]
    exact ahead_cases

end Sys2Proof.Claims
end

section
/-!
SUPPORT. The weight buffer and MTRN (15 R354 to R358, R365): a region that is free or the team's own is filled; one that another
team holds makes its path wait.
-/
namespace Sys2Proof.Claims
open Sys2Proof.Machine

section
variable {s : State} {c : Iss} {f : Fields}

theorem calm_spadUnit (s : State) (ags : List Agent) (tid o n : Nat) : Calm s (spadUnit s ags tid o n).2 := by
  unfold spadUnit
  split
  · exact .refl s
  · exact calm_readWord ..

theorem calm_spadSeen (s : State) (ags : List Agent) (tid o n : Nat) (t : Team) : Calm s (spadSeen s ags tid o n t).2 := by
  have h (us : List (Nat × Nat)) (a : Team × State) (ha : Calm s a.2) : Calm s (us.foldl (fun a u =>
      let q := spadUnit a.2 ags tid u.1 u.2
      ({ a.1 with
         spad := (cellsAt u.1 q.1.bytes).foldl (fun x e => spSet 0 x e.1 e.2) a.1.spad
         spoison := spSet false a.1.spoison (u.1 / 8) q.1.bad }, q.2)) a).2 := by
    induction us generalizing a with
    | nil => exact ha
    | cons u r ih => exact ih _ (ha.trans (calm_spadUnit ..))
  exact h _ (t, s) (.refl s)

theorem calm_weightSeen (s : State) (c : Iss) (act : Mask) (zb : Bool) (a len : Nat) : Calm s (weightSeen s c act zb a len).2 :=
  calm_spadSeen ..

theorem waitOn_binding (h : issuer s = some c) (r : Nat) : waitOn s c (.binding r) = modGroup s c.gid fun _ =>
    c.g.setLive c.live (some { c.p with wait := .binding r, since := s.clk }) := waitOn_eq h _

theorem releaseBinding_groups (s : State) (core team r : Nat) : (releaseBinding s core team r).groups = s.groups := by
  unfold releaseBinding
  split <;> rfl

/-- A region that is free takes what it is given; one that is held makes the path wait. -/
theorem bindingCases (h : issuer s = some c) (r : Nat) {t : State} (ht : t.groups = s.groups) :
    let o : Out := .next (if !bindingFree s c.core c.g.team r then waitOn s c (.binding r) else retireOp t c true [])
    (bindingFree s c.core c.g.team r = true → o = .next (inFlight t c true [])) ∧
    (bindingFree s c.core c.g.team r = false → o = .next (modGroup s c.gid fun _ =>
      c.g.setLive c.live (some { c.p with wait := .binding r, since := s.clk }))) := by
  refine ⟨fun hf => ?_, fun hf => ?_⟩
  · rw [hf, if_neg (by decide), retireOp_here h ht]
  · rw [hf, if_pos (by decide), waitOn_binding h]

/-- MLDW of a source that passes its checks. -/
theorem mldwLoad_eq {zb : Bool} {a len : Nat} {q : Team × State} (hz : bitOf f.x.toNat 0 = zb)
    (hav : srcVal s c .w32 (opnd f.a) 0 = a) (hlv : srcVal s c .w32 (opnd f.b) 0 = len)
    (hq : weightSeen s c (active c f) zb a len = q) (ha : srcBad c false (opnd f.a) 0 = false)
    (hb : srcBad c false (opnd f.b) 0 = false) (hlen : len ≤ 65536) (hmod : len % 128 = 0) (ha4 : a % 4 = 0)
    (hin : if zb then (zbSpan q.1 (len / 128) a).isSome = true else len = 0 ∨ a + len ≤ c.t.size) :
    mldwLoad s c f (active c f) =
      if !bindingFree s c.core c.g.team f.mod.toNat then waitOn s c (.binding f.mod.toNat)
      else retireOp (modBinding (fillSlot4 q.2 c.core c.g.team f.mod.toNat (weightSource q.1 zb a len)) c.g.team f.mod.toNat
        fun b => { b with wsrc := a, wlen := len, wzb := zb, valid := true }) c true [] := by
  have hinside : (if zb then (zbSpan q.1 (len / 128) a).isSome else decide (len = 0) || decide (a + len ≤ c.t.size)) = true := by
    cases zb with
    | true => exact hin
    | false => simpa using hin
  unfold mldwLoad
  simp only [hz, hav, hlv, hq]
  rw [ha, hb, Bool.or_self, if_neg (by decide), if_neg (by omega), hinside, if_neg (by decide), if_neg (by omega)]

theorem getWeight_fillSlot4 (s : State) (core team r : Nat) (src : List Byte × List Bool) :
    getWeight (fillSlot4 s core team r src) core r =
      { getWeight s core r with holder := some team, bytes := sparseBytes src.1, poison := sparseBits src.2 } := by
  rw [getWeight, getCore, fillSlot4, setWeight, modCore, setCore, spGet_spSet_self, spGet_spSet_self]

/-- A word of MTRN's fragment. -/
theorem mtrnWord_eq (s : State) (c : Iss) (f : Fields) (a l i : Nat) : mtrnWord s c f a l i =
    if f.x = 0 then ofBytes 4 fun j => mtrnElem s c a l (4 * i + j) else c.g.getV (a + l % 32) (l / 32 * 32 + i) := by
  unfold mtrnWord
  rw [← ofBytes_eq_foldl]
  simp only [Nat.mul_comm (256 ^ _)]

end

/-- Settles O25: every form asks for its binding, and then loads, frees or waits for it. -/
theorem weightBuffer : Obligations.WeightBuffer := by
  refine ⟨?release, ?mldw, ?mlds, ?fill, ?mtrn⟩
  case release =>
    intro f s c h hc hx
    rw [getLsbD_eq_bitOf] at hx
    have he : exec (.mldw f) s = .next (if !bindingFree s c.core c.g.team f.mod.toNat then waitOn s c (.binding f.mod.toNat)
        else retireOp (releaseBinding s c.core c.g.team f.mod.toNat) c true []) := by
      refine (exec_counted rfl h hc).trans (congrArg _ ?_)
      rw [hx, if_neg (by decide)]
    rw [Goes, he]
    exact bindingCases h _ (releaseBinding_groups ..)
  case mldw =>
    intro f s c h hc hx ha hb a len zb q hlen hmod ha4 hin
    rw [getLsbD_eq_bitOf] at hx
    have he : exec (.mldw f) s = .next (mldwLoad s c f (active c f)) := by
      refine (exec_counted rfl h hc).trans (congrArg _ ?_)
      rw [hx, if_pos (by decide)]
    rw [Goes, he, mldwLoad_eq (getLsbD_eq_bitOf f.x 0).symm rfl rfl rfl ha hb hlen hmod ha4 hin]
    exact bindingCases h _ (calm_weightSeen ..).1.groups
  case mlds =>
    intro f s c h hc ha hb a len q hlen hmod hin
    have he : exec (.mlds f) s = .next (mldsLoad s c f (active c f)) := exec_counted rfl h hc
    rw [Goes, he]
    have hl : mldsLoad s c f (active c f) = if !bindingFree s c.core c.g.team f.mod.toNat then waitOn s c (.binding f.mod.toNat)
        else retireOp (modBinding (fillScale q.2 c.core c.g.team f.mod.toNat (spadBytes q.1 a len, spadBads q.1 a len))
          c.g.team f.mod.toNat fun b => { b with ssrc := a, slen := len, valid := true }) c true [] := by
      unfold mldsLoad
      dsimp only
      rw [ha, hb, Bool.or_self, if_neg (by decide), if_neg (not_or.2 ⟨Nat.not_lt.2 hlen, not_not.2 hmod⟩),
        if_neg fun hout => hin.elim hout.1 (Nat.not_le.2 hout.2)]
    rw [hl]
    exact bindingCases h _ (calm_spadSeen ..).1.groups
  case fill =>
    intro s core team r src
    have hw := getWeight_fillSlot4 s core team r src
    refine ⟨hw, ?_, rfl⟩
    rw [bindingHeld, hw]
    exact beq_self_eq_true _
  case mtrn =>
    intro f s c d a h hl hd ha hroom hp
    refine (exec_onPath rfl h).trans (congrArg _ ?_)
    rw [hl, hd, ha, Bool.not_true, if_neg (by decide), hroom, if_neg (by decide), Option.getD_some, Option.getD_some, hp]
    simp only [mtrnWord_eq, mtrnDst, retireOp_eq h]

end Sys2Proof.Claims
end

section
/-!
SUPPORT. What a read of memory depends on. Two states with the same memory, partitions and clock translate and read alike,
whatever their groups, teams, cores and clusters are.
-/
namespace Sys2Proof.Claims
open Sys2Proof.Machine

/-- The two states agree on what the memory controllers hold: words, poison, and the nibbles of compressed blocks. -/
structure SameBlocks (s t : State) : Prop where
  mem : t.mem = s.mem
  poison : t.poison = s.poison
  nibbles : t.nibbles = s.nibbles
  partCfg : t.partCfg = s.partCfg
  metaBase : Machine.metaBase t = Machine.metaBase s

namespace SameBlocks

section
variable {s t : State} (h : SameBlocks s t)
include h

theorem partCount : Machine.partCount t = Machine.partCount s := by simp only [Machine.partCount, h.partCfg]
theorem ownerOf : Machine.ownerOf t = Machine.ownerOf s := by
  funext loc; simp only [Machine.ownerOf, h.partCount]
theorem partBase : Machine.partBase t = Machine.partBase s := by
  funext p; simp only [Machine.partBase, h.partCount]
theorem poisonedWord : Machine.poisonedWord t = Machine.poisonedWord s := by
  funext loc; simp only [Machine.poisonedWord, h.poison]
theorem rawBad : Machine.rawBad t = Machine.rawBad s := by
  funext line; simp only [Machine.rawBad, h.poisonedWord]
theorem nibbleOf : Machine.nibbleOf t = Machine.nibbleOf s := by
  funext cmp pa
  simp only [Machine.nibbleOf, h.nibbles, h.partBase, h.ownerOf, h.metaBase, h.poisonedWord, h.mem]
theorem ctlBlock : Machine.ctlBlock t = Machine.ctlBlock s := by
  funext cmp line; simp only [Machine.ctlBlock, h.mem, h.rawBad, h.nibbleOf]
theorem ctlBad : Machine.ctlBad t = Machine.ctlBad s := by
  funext cmp loc; simp only [Machine.ctlBad, h.poisonedWord, h.ctlBlock]
theorem ctlByte : Machine.ctlByte t = Machine.ctlByte s := by
  funext cmp loc; simp only [Machine.ctlByte, h.mem, h.ctlBlock]

end

end SameBlocks

/-- The two states agree on all that translation and a read of memory look at. -/
structure SameStore (s t : State) : Prop where
  mem : t.mem = s.mem
  poison : t.poison = s.poison
  nibbles : t.nibbles = s.nibbles
  inband : t.inband = s.inband
  parts : t.parts = s.parts
  partCfg : t.partCfg = s.partCfg
  portMap : t.portMap = s.portMap
  clk : t.clk = s.clk
  fresh : t.fresh = s.fresh

namespace SameStore

theorem modGroup (s : State) (gid : Nat) (F : Group → Group) : SameStore s (modGroup s gid F) :=
  ⟨rfl, rfl, rfl, rfl, rfl, rfl, rfl, rfl, rfl⟩

theorem modTeam (s : State) (tid : Nat) (F : Team → Team) : SameStore s (modTeam s tid F) :=
  ⟨rfl, rfl, rfl, rfl, rfl, rfl, rfl, rfl, rfl⟩

section
variable {s t : State} (h : SameStore s t)
include h

/-! ## Blocks and words -/

theorem getPart : Machine.getPart t = Machine.getPart s := by
  funext p; simp only [Machine.getPart, h.parts]

theorem blocks : SameBlocks s t :=
  ⟨h.mem, h.poison, h.nibbles, h.partCfg, by funext p; simp only [Machine.metaBase, h.getPart]⟩

theorem l2Find : Machine.l2Find t = Machine.l2Find s := by
  funext line; simp only [Machine.l2Find, h.getPart, h.blocks.ownerOf]
theorem l2Bad : Machine.l2Bad t = Machine.l2Bad s := by
  funext cmp loc; simp only [Machine.l2Bad, h.l2Find, h.blocks.ctlBad]
theorem l2AnyBad : Machine.l2AnyBad t = Machine.l2AnyBad s := by
  funext cmp loc n; simp only [Machine.l2AnyBad, h.l2Bad]
theorem l2Byte : Machine.l2Byte t = Machine.l2Byte s := by
  funext cmp loc; simp only [Machine.l2Byte, h.l2Find, h.blocks.ctlByte]

theorem l2Bytes : Machine.l2Bytes t = Machine.l2Bytes s := by
  funext cmp loc n
  induction n generalizing loc with
  | zero => rfl
  | succ n ih => simp only [Machine.l2Bytes, h.l2Byte, ih]

/-! ## Context records -/

theorem physBad : Machine.physBad t = Machine.physBad s := by
  funext pa n; simp only [Machine.physBad, h.l2AnyBad]
theorem physRead : Machine.physRead t = Machine.physRead s := by
  funext pa n; simp only [Machine.physRead, h.l2Bytes]
theorem ctxAddr : Machine.ctxAddr t = Machine.ctxAddr s := by
  funext part ctx; simp only [Machine.ctxAddr, frameBase, h.getPart]
theorem ctxBits : Machine.ctxBits t = Machine.ctxBits s := by
  funext part ctx lo w; simp only [Machine.ctxBits, h.physRead, h.ctxAddr]
theorem ctxBase : Machine.ctxBase t = Machine.ctxBase s := by
  funext part ctx lo; simp only [Machine.ctxBase, h.ctxBits]

/-! ## Translation -/

theorem storedEntry : Machine.storedEntry t = Machine.storedEntry s := by
  funext a lvl va; simp only [Machine.storedEntry, h.physBad, h.physRead]
theorem readEntry : Machine.readEntry t = Machine.readEntry s := by
  funext part ctx a lvl va; simp only [Machine.readEntry, h.storedEntry, h.fresh, h.clk]
theorem cachedEntry : Machine.cachedEntry t = Machine.cachedEntry s := by
  funext who part ctx lvl va; simp only [Machine.cachedEntry, h.getPart, h.clk]

theorem walkFrom : Machine.walkFrom t = Machine.walkFrom s := by
  funext who part ctx va lvl a
  induction lvl generalizing a with
  | zero =>
    unfold Machine.walkFrom
    rw [h.cachedEntry, h.readEntry]
  | succ n ih =>
    unfold Machine.walkFrom
    simp only [h.cachedEntry, h.readEntry, ih]

theorem walk : Machine.walk t = Machine.walk s := by
  funext who part ctx va; simp only [Machine.walk, ctxRoot, h.walkFrom, h.ctxBits]
theorem routeOf : Machine.routeOf t = Machine.routeOf s := by
  funext part r; simp only [Machine.routeOf, h.getPart]
theorem inStacks : Machine.inStacks t = Machine.inStacks s := by
  funext part pa; simp only [Machine.inStacks, h.blocks.partBase, h.blocks.partCount]
theorem routeOk : Machine.routeOk t = Machine.routeOk s := by
  funext part r; simp only [Machine.routeOk, ownsPort, h.routeOf, h.portMap]
theorem routeDevice : Machine.routeDevice t = Machine.routeDevice s := by
  funext part r; simp only [Machine.routeDevice, h.routeOf]
theorem locOf : Machine.locOf t = Machine.locOf s := by
  funext part kind pa
  unfold Machine.locOf
  rw [h.routeDevice]
theorem leafCheck : Machine.leafCheck t = Machine.leafCheck s := by
  funext part acc sup e lvl va
  unfold Machine.leafCheck
  rw [h.inband, h.inStacks, h.routeOk, h.locOf]
theorem translate : Machine.translate t = Machine.translate s := by
  funext who part ctx acc sup va; simp only [Machine.translate, h.walk, h.leafCheck]

theorem xlFaults : Machine.xlFaults t = Machine.xlFaults s := by
  funext who part ctx acc sup as gs
  induction as generalizing gs with
  | nil => rfl
  | cons a r ih => simp only [Machine.xlFaults, h.translate, ih]

theorem xlOks : Machine.xlOks t = Machine.xlOks s := by
  funext who part ctx acc sup as
  induction as with
  | nil => rfl
  | cons a r ih => simp only [Machine.xlOks, h.translate, ih]

theorem xlateSet : Machine.xlateSet t = Machine.xlateSet s := by
  funext who part ctx acc sup as
  simp only [Machine.xlateSet, h.translate, h.xlFaults, h.xlOks]

/-! ## Reads of a range -/

theorem l2ReadSet : Machine.l2ReadSet t = Machine.l2ReadSet s := by
  funext ls
  induction ls with
  | nil => rfl
  | cons l r ih => simp only [Machine.l2ReadSet, h.blocks.ctlByte, h.l2Bytes, ih]

theorem l2BadSet : Machine.l2BadSet t = Machine.l2BadSet s := by
  funext ls; simp only [Machine.l2BadSet, h.blocks.ctlBad, h.l2AnyBad]

theorem readRange : Machine.readRange t = Machine.readRange s := by
  funext who part ctx acc sup va n
  simp only [Machine.readRange, h.xlateSet, h.l2ReadSet, h.l2BadSet]

end

end SameStore

end Sys2Proof.Claims
end

section
/-!
SUPPORT. Traps (08 R186; 10 R216 to R218; 16 R399): the record a trap pushes, the handler it reads, and the return.
-/
namespace Sys2Proof.Claims
open Sys2Proof.Machine

section
variable {s : State} {c : Iss} {f : Fields}

/-- The issuing path of a state in which its group is another with the same path and team. -/
theorem issOf_modGroup (h : issuer s = some c) {g : Group} (hl : g.live c.live = some c.p) (ht : g.team = c.g.team) :
    issOf (modGroup s c.gid fun _ => g) ⟨c.gid, c.live⟩ = some { c with g := g } := by
  obtain ⟨-, hgrp, -, hteam, hcore, hpart, hctx⟩ := issuer_spec h
  have hg : getGroup (modGroup s c.gid fun _ => g) c.gid = some g := by
    rw [getGroup_modGroup, if_pos rfl, hgrp]
    rfl
  have ht' : getTeam (modGroup s c.gid fun _ => g) g.team = some c.t := by
    rw [ht]
    exact hteam
  unfold issOf
  simp only [hg, hl, ht', ← hcore, ← hpart, ← hctx]

/-- The record of a trap and what TRAPINFO holds (R216, R217). -/
def trapRecord (c : Iss) (g : Group) (cause lane addr : Nat) (at_ : Nat × Nat) : Group :=
  { g with
    stack := { kind := .trap, addr := at_.1, slot := at_.2, cause := cause, mask := c.p.mask, aux := 0, fmt := c.p.fmt
               handle := c.p.handle, handler := if at_.1 = c.p.addr then c.p.handler else none
               orig := if cause = 0x14 then some at_ else none } :: g.stack
    trapinfo := { cause := cause, lane := lane, slot := c.p.slot, pslot := c.live, addr := BitVec.ofNat 64 addr } }

/-- The word of the handler of a cause. -/
def handlerAt (s : State) (c : Iss) (cause : Nat) : Nat := (ctxBase s c.part c.ctx 384 + 8 * cause) % 2 ^ 64

/-- The state in which a trap has been taken and its handler read. -/
def handlerAsked (s : State) (c : Iss) (g : Group) (cause : Nat) : State :=
  rangeAsked (modGroup s c.gid fun _ => g) (.core c.core) c.part c.ctx .table true (handlerAt s c cause) 8

/-- The path that enters the handler of a cause, whose word is e. -/
def handlerPath (c : Iss) (cause e : Nat) : Path :=
  { freshPath (e % 2 ^ 48) 0 c.p.mask c.p.fmt (e / 2 ^ 48 % 2 ^ 16) with handler := some cause }

/-- Entry to a handler from the group that holds the trap's record. -/
theorem trapEntry_eq (h : issuer s = some c) {g : Group} (hl : g.live c.live = some c.p) (ht : g.team = c.g.team) {cause : Nat}
    {bytes : List Byte} {bad : Bool}
    (hr : readRange s (.core c.core) c.part c.ctx .table true (handlerAt s c cause) 8 = .ok bytes bad) :
    trapEntry (modGroup s c.gid fun _ => g) c.gid c.live cause =
      if bad ∨ leNat bytes / 2 ^ 48 % 2 ^ 16 = 0 ∨ leNat bytes % 4 ≠ 0 then
        contextReset (handlerAsked s c g cause) c.part c.ctx 4 cause
      else modGroup (handlerAsked s c g cause) c.gid fun _ => g.setLive c.live (some (handlerPath c cause (leNat bytes))) := by
  have hs : SameStore s (modGroup s c.gid fun _ => g) := .modGroup ..
  have hat : (ctxBase (modGroup s c.gid fun _ => g) c.part c.ctx 384 + 8 * cause) % 2 ^ 64 = handlerAt s c cause := by
    rw [hs.ctxBase]
    rfl
  have hgrp : getGroup (handlerAsked s c g cause) c.gid = some g := by
    have hq : Quiet (modGroup s c.gid fun _ => g) (handlerAsked s c g cause) := (calm_rangeAsked ..).1
    rw [hq.getGroup, getGroup_modGroup, if_pos rfl, (issuer_spec h).2.1]
    rfl
  unfold trapEntry
  simp only [issOf_modGroup h hl ht, hat, hs.readRange, hr]
  refine if_congr Iff.rfl rfl ((modGroup_const (fun g => g.setLive c.live _) hgrp).trans ?_)
  unfold handlerPath bitsOf
  rw [Nat.pow_zero, Nat.div_one]

/-- A trap of a path that is in no handler of its dictionary's causes, with room for its record. -/
theorem takeTrapAt_eq {t : State} {g : Group} (ht : t = modGroup s c.gid fun _ => g) {cause lane addr : Nat} {at_ : Nat × Nat}
    (hc : ¬((cause = 0x04 ∨ cause = 0x05) ∧ c.p.handler = some cause)) (hs : c.g.stack.length < 512) :
    takeTrapAt t c cause lane addr at_.1 at_.2 =
      trapEntry (modGroup s c.gid fun _ => trapRecord c g cause lane addr at_) c.gid c.live cause := by
  have hc' : ¬((cause = causeDictUndefined ∨ cause = causeDictHandle) ∧ c.p.handler = some cause) := hc
  unfold takeTrapAt
  rw [if_neg hc', if_neg (Nat.not_le.2 hs), ht]
  exact congrArg (trapEntry · c.gid c.live cause) (modGroup_modGroup ..)

theorem trapRecord_live (c : Iss) (g : Group) (cause lane addr n : Nat) (at_ : Nat × Nat) :
    (trapRecord c g cause lane addr at_).live n = g.live n := rfl

/-- The group after a software trap's write of D keeps its paths and its team. -/
theorem writeScal_paths (g : Group) (wide : Bool) (code : BitVec 9) (x : Nat) :
    (writeScal g wide (opnd code) x).live = g.live ∧ (writeScal g wide (opnd code) x).team = g.team := by
  have hr := (Wrote.writeScal g wide code x).rest
  have hl : (writeScal g wide (opnd code) x).live = g.live := by
    have h0 := congrArg Group.live hr
    exact h0
  have ht := congrArg Group.team hr
  exact ⟨hl, ht⟩

/-- The handler of a cause is the word e. -/
def Handles (s : State) (c : Iss) (cause e : Nat) : Prop :=
  (∃ bytes, readRange s (.core c.core) c.part c.ctx .table true (handlerAt s c cause) 8 = .ok bytes false ∧ leNat bytes = e) ∧
    e / 2 ^ 48 % 2 ^ 16 ≠ 0 ∧ e % 4 = 0

/-- A trap with a handler enters it. -/
theorem takeTrapAt_enters (h : issuer s = some c) {t : State} {g : Group} (ht : t = modGroup s c.gid fun _ => g)
    (hl : g.live c.live = some c.p) (hteam : g.team = c.g.team) {cause lane addr e : Nat} {at_ : Nat × Nat}
    (hc : ¬((cause = 0x04 ∨ cause = 0x05) ∧ c.p.handler = some cause)) (hs : c.g.stack.length < 512)
    (he : Handles s c cause e) :
    takeTrapAt t c cause lane addr at_.1 at_.2 =
      modGroup (handlerAsked s c (trapRecord c g cause lane addr at_) cause) c.gid fun _ =>
        (trapRecord c g cause lane addr at_).setLive c.live (some (handlerPath c cause e)) := by
  obtain ⟨⟨bytes, hread, rfl⟩, hhandle, hal⟩ := he
  rw [takeTrapAt_eq ht hc hs, trapEntry_eq h ((trapRecord_live ..).trans hl) hteam hread, if_neg]
  rintro (hb | hz | hm)
  · cases hb
  · exact hhandle hz
  · exact hm hal

/-- A software trap counts its instruction and enters its handler behind it. -/
theorem takeTrapAfter_enters (h : issuer s = some c) {t : State} {g : Group} (ht : t = modGroup s c.gid fun _ => g)
    (hl : g.live c.live = some c.p) (hteam : g.team = c.g.team) {cause addr e : Nat}
    (hc : ¬((cause = 0x04 ∨ cause = 0x05) ∧ c.p.handler = some cause)) (hs : c.g.stack.length < 512)
    (he : Handles s c cause e) :
    let r := trapRecord c (countRetired g (atClauseEnd c.p)) cause 0 addr (following c.p)
    takeTrapAfter t c cause addr = modGroup (handlerAsked s c r cause) c.gid fun _ => r.setLive c.live
      (some (handlerPath c cause e)) := by
  refine takeTrapAt_enters (g := countRetired g (atClauseEnd c.p)) (at_ := following c.p) h ?_ hl hteam hc hs he
  rw [ht, modGroup_modGroup]

end

theorem spMod_id {α : Type} (m : SMap α) (k : Nat) : spMod m k (fun v => v) = m := by
  induction m with
  | nil => rfl
  | cons e r ih =>
    unfold spMod
    split
    · rfl
    · rw [ih]

/-- The issuing group as it is. -/
theorem modGroup_self {s : State} {c : Iss} (h : issuer s = some c) : (modGroup s c.gid fun _ => c.g) = s := by
  rw [← modGroup_issuer h (fun g => g), modGroup, spMod_id]

theorem modGroup_scal {s : State} {c : Iss} (h : issuer s = some c) (code : BitVec 9) (x : Nat) :
    (modGroup s c.gid fun g => writeScal g false (opnd code) x) = modGroup s c.gid fun _ => writeScal c.g false (opnd code) x :=
  modGroup_issuer h _

/-- Settles O29: every trap pushes its record, reads the word of its handler, and enters it or resets the context. -/
theorem trapsAndHandlers : Obligations.TrapsAndHandlers := by
  have hsoft (cause : Nat) (hne : ¬(cause = 0x04 ∨ cause = 0x05)) (f : Fields) (s : State) (c : Iss) (e : Nat)
      (h : issuer s = some c) (hs : c.g.stack.length < 512) (he : Handles s c cause e) :=
    takeTrapAfter_enters (addr := f.imm27.toNat) h (modGroup_scal h f.d f.imm27.toNat)
      ((congrFun (writeScal_paths c.g false f.d f.imm27.toNat).1 c.live).trans (issuer_spec h).2.2.1)
      (writeScal_paths c.g false f.d f.imm27.toNat).2 (fun hc => hne hc.1) hs he
  refine ⟨?trap, ?bkpt, ?sysc, ?debugged, ?rtt, ?enters, ?resets, ?full⟩
  case trap =>
    intro f s c e h hg hl ha _ hs he
    exact (exec_masked rfl h hg hl ha).trans (congrArg _ (hsoft 0x13 (by decide) f s c e h hs he))
  case bkpt =>
    intro f s c e h hg hl ha hdbg hs he
    refine (exec_masked rfl h hg hl ha).trans (congrArg _ ?_)
    rw [hdbg, if_neg (by decide)]
    exact hsoft 0x12 (by decide) f s c e h hs he
  case sysc =>
    intro f s c e h hg hl ha _ hs he
    refine (exec_masked rfl h hg hl ha).trans (congrArg _ ?_)
    have hself : s = modGroup s c.gid fun _ => c.g := (modGroup_self h).symm
    exact takeTrapAfter_enters h hself (issuer_spec h).2.2.1 rfl (fun hc => absurd hc.1 (by decide)) hs he
  case debugged =>
    intro f s c h hg hl ha hdbg
    refine (exec_masked rfl h hg hl ha).trans (congrArg _ ?_)
    rw [hdbg, if_pos rfl]
    dsimp only
    rw [retire_modGroup h (congrFun (writeScal_paths c.g false f.d f.imm27.toNat).1 c.live), modGroup_modGroup]
    rfl
  case rtt =>
    intro f s c r h hg hf hr left
    refine (exec_pathWide rfl h hg hf).trans (congrArg _ ?_)
    have htop : topRec (countRetired c.g true) .trap c.p.mask = some r := hr
    unfold returnFromTrap
    rw [htop]
    rfl
  case enters =>
    intro s c cause lane addr e h hs he hc
    exact takeTrapAt_enters (at_ := (c.p.addr, c.p.slot)) h (modGroup_self h).symm (issuer_spec h).2.2.1 rfl hc hs he
  case resets =>
    intro s c cause lane addr bytes bad h hs hc hr hbad
    refine (takeTrapAt_eq (at_ := (c.p.addr, c.p.slot)) (modGroup_self h).symm hc hs).trans ?_
    exact (trapEntry_eq h (g := trapRecord c c.g cause lane addr (c.p.addr, c.p.slot)) (issuer_spec h).2.2.1 rfl hr).trans
      (if_pos hbad)
  case full =>
    intro s c cause lane addr hs hc
    have hc' : ¬((cause = causeDictUndefined ∨ cause = causeDictHandle) ∧ c.p.handler = some cause) := hc
    unfold takeTrap takeTrapAt
    rw [if_neg hc', if_pos hs.ge]
    rfl

end Sys2Proof.Claims
end

section
/-!
SUPPORT. Wakes of waiting paths and completions (04 R81, R94; 11 R239; 14 R339; 15 R354).
-/
namespace Sys2Proof.Claims
open Sys2Proof.Machine

section
variable {s : State} {q : PathId} {c : Iss}

theorem setLive_team (g : Group) (n : Nat) (p : Option Path) : (g.setLive n p).team = g.team := by
  unfold Group.setLive
  split <;> rfl

/-- A path that is woken to issue its instruction again issues. -/
theorem issuer_wakeAs (h : issOf s q = some c) : ∃ d, issuer (wakeAs s q) = some d := by
  obtain ⟨hgid, hlive, hg, hp, ht, -⟩ := issOf_spec h
  rw [hgid] at hg
  rw [hlive] at hp
  obtain ⟨p, hgroup⟩ : ∃ p, getGroup (wakeAs s q) q.gid = some (c.g.setLive q.live (some p)) := by
    refine ⟨{ c.p with wait := .none }, ?_⟩
    show spFind (spMod s.groups q.gid _) q.gid = _
    rw [spFind_spMod_self]
    show Option.map _ (getGroup s q.gid) = _
    rw [hg, Option.map_some, hp]
    rfl
  have hteam : getTeam (wakeAs s q) (c.g.setLive q.live (some p)).team = some c.t := by
    rw [setLive_team]
    exact ht
  have hi : issuer (wakeAs s q) = issOf (wakeAs s q) q := rfl
  rw [hi, issOf]
  simp only [hgroup, setLive_live_self, hteam]
  exact ⟨_, rfl⟩

/-- An instruction of a woken path has a next state. -/
theorem onPath_wakeAs (h : issOf s q = some c) (F : Iss → State) : ∃ u, onPath (wakeAs s q) F = .next u := by
  obtain ⟨d, hd⟩ := issuer_wakeAs h
  exact ⟨F d, onPath_issuer hd F⟩

theorem exec_mov_wakeAs (h : issOf s q = some c) (f : Fields) : ∃ u, exec (.mov f) (wakeAs s q) = .next u := onPath_wakeAs h _

/-! ## Wakes -/

theorem channelRetry_wakes {f : Fields} (h : issOf s q = some c) (hw : c.p.wait = .channel) (hi : slotInstr c.p = some (.mov f))
    (hr : mayRetry s c = true) : ∃ t, exec (.mov f) (wakeAs s q) = .next t ∧
      exec (.channelOperandRetry q) s = .next (if stillBlocked t q then s else edgesBehind s t c (.mov f)) := by
  obtain ⟨t, ht⟩ : ∃ t, execMov f (wakeAs s q) = .next t := onPath_wakeAs h _
  refine ⟨t, ht, ?_⟩
  show settle s (tryChannelOperandRetry q s) = _
  unfold tryChannelOperandRetry
  simp only [h, hw, hi, hr, Bool.not_true, Bool.false_eq_true, if_false, ht]
  split <;> rfl

theorem ldsWake_full {f : Fields} (h : issOf s q = some c) (hw : c.p.wait = .fullEmpty) (hi : slotInstr c.p = some (.lds f))
    (hr : mayRetry s c = true) {b : Bool} (hb : (accGranules (2 ^ f.x.toNat)
      (spadAccs s c f f.imm9 (2 ^ f.x.toNat) (accessLanes c f))).all (spadFull c.t) = b) :
    exec (.ldsFeWake q) s = settle s (if b then eventOf (execLds f (wakeAs s q)) else .refused .idle) := by
  show settle s (tryLdsFeWake q s) = _
  have hlanes : (if (opnd f.d).isScalarReg then [lowLane (active c f)] else lanesOf (active c f)) = accessLanes c f := rfl
  unfold tryLdsFeWake
  simp only [h, hw, hi, hr, Bool.not_true, Bool.false_eq_true, if_false, hlanes, hb]

theorem bindingWake_free {f : Fields} {r : Nat} {i : Instr} (h : issOf s q = some c) (hw : c.p.wait = .binding r)
    (hi : slotInstr c.p = some i) (hf : i = .mldw f ∨ i = .mlds f) (hr : mayRetry s c = true)
    (hb : bindingFree s c.core c.g.team r = true) : ∃ t, exec i (wakeAs s q) = .next t ∧
      exec (.bindingReleaseWake q) s = .next (edgesBehind s t c i) := by
  have hn : (!mayRetry s c || !bindingFree s c.core c.g.team r) = false := by rw [hr, hb]; rfl
  rcases hf with rfl | rfl
  · obtain ⟨t, ht⟩ : ∃ t, execMldw f (wakeAs s q) = .next t := onPath_wakeAs h _
    refine ⟨t, ht, ?_⟩
    show settle s (tryBindingReleaseWake q s) = _
    unfold tryBindingReleaseWake
    simp only [h, hw, hi, hn, Bool.false_eq_true, if_false, ht]
    rfl
  · obtain ⟨t, ht⟩ : ∃ t, execMlds f (wakeAs s q) = .next t := onPath_wakeAs h _
    refine ⟨t, ht, ?_⟩
    show settle s (tryBindingReleaseWake q s) = _
    unfold tryBindingReleaseWake
    simp only [h, hw, hi, hn, Bool.false_eq_true, if_false, ht]
    rfl

theorem bindingWake_held {r : Nat} {i : Instr} (h : issOf s q = some c) (hw : c.p.wait = .binding r)
    (hi : slotInstr c.p = some i) (hb : bindingFree s c.core c.g.team r = false) : exec (.bindingReleaseWake q) s = .next s := by
  show settle s (tryBindingReleaseWake q s) = _
  unfold tryBindingReleaseWake
  simp only [h, hw, hi, hb, Bool.not_false, Bool.or_true, if_true]
  rfl

theorem settle_idle (s : State) : settle s (.refused .idle) = .next s := rfl

/-- A path that may not issue is not woken. -/
theorem wakes_blocked (h : issOf s q = some c) (hr : mayRetry s c = false) : exec (.channelOperandRetry q) s = .next s ∧
    exec (.ldsFeWake q) s = .next s ∧ exec (.bindingReleaseWake q) s = .next s := by
  refine ⟨?_, ?_, ?_⟩
  · show settle s (tryChannelOperandRetry q s) = _
    unfold tryChannelOperandRetry
    simp only [h, hr, Bool.not_false, if_true]
    split <;> rfl
  · show settle s (tryLdsFeWake q s) = _
    unfold tryLdsFeWake
    simp only [h, hr, Bool.not_false, if_true]
    rfl
  · show settle s (tryBindingReleaseWake q s) = _
    unfold tryBindingReleaseWake
    simp only [h, hr, Bool.not_false, Bool.true_or, if_true]
    split <;> rfl

/-! ## Completions -/

theorem operation_stays {op : Nat} {o : OpRec} (ho : spFind s.ops op = some o)
    (hb : o.left ≠ 0 ∨ o.batch.isSome = true ∨ o.heldByFence s = true) : exec (.operationComplete op) s = .next s := by
  show settle s (tryOperationComplete op s) = _
  unfold tryOperationComplete
  simp only [ho]
  rw [if_pos (hb.imp_right (Or.imp_right .inl))]
  rfl

theorem operation_completes {op : Nat} {o : OpRec} (ho : spFind s.ops op = some o) (hl : o.left = 0) (hb : o.batch = none)
    (hf : o.heldByFence s = false) (hr : o.reads = []) : exec (.operationComplete op) s = .next
      { modGroup s o.gid (fun g => subFlag (o.writes.foldl applyWrite g) o.flag) with ops := spDel s.ops op } := by
  have hgo : ¬(o.left ≠ 0 ∨ o.batch.isSome ∨ o.heldByFence s = true ∨ o.reads ≠ [] ∧ groupAtoms s o.gid = true) := by
    simp [hl, hb, hf, hr]
  show settle s (tryOperationComplete op s) = _
  unfold tryOperationComplete completeOp
  simp only [ho]
  rw [if_neg hgo, if_pos hr]
  rfl

theorem flagCount_subFlag (g : Group) (k j : Nat) :
    flagCount (subFlag g (some k)) (some j) = if j = k then flagCount g (some k) - 1 else flagCount g (some j) := by
  refine (spGet_spSet ..).trans ?_
  split
  · next hj => rfl
  · rfl

/-- A phase ends when every group that counts has arrived. -/
theorem phaseDone_iff {t : Team} {slot : Nat} : phaseDone s t slot = true ↔ barTarget s t (getBar t slot) ≠ 0 ∧
    barArrived s (getBar t slot) = barTarget s t (getBar t slot) ∧ (getBar t slot).pending = 0 := by
  simp [phaseDone, and_assoc]

theorem barrierPhase_eq {team slot : Nat} {t : Team} (ht : getTeam s team = some t) : exec (.barrierPhaseComplete team slot) s =
    .next (if phaseDone s t slot then modBar s team slot fun b =>
      { b with
        arrived := [], done := (b.done + 1) % 2 ^ 32, rels := []
        passed := spPut (b.passed.filter fun e => phaseAwaited s t slot e.1) b.done b.rels } else s) := by
  show settle s (tryBarrierPhaseComplete team slot s) = _
  unfold tryBarrierPhaseComplete
  simp only [ht]
  split <;> rfl

/-- Two changes that agree on a team change it alike. -/
theorem modTeam_congr {team : Nat} {t : Team} {F G : Team → Team} (ht : getTeam s team = some t) (h : F t = G t) :
    modTeam s team F = modTeam s team G := by
  unfold modTeam
  rw [spMod_const _ _ F ht, spMod_const _ _ G ht, h]

end

/-- Settles O31: a woken path issues again, an operation in flight writes its registers, and a phase ends when all have come. -/
theorem wakesAndCompletions : Obligations.WakesAndCompletions := by
  refine ⟨fun s q c f => channelRetry_wakes, ?lds, ?binding, fun s q c => wakes_blocked, fun s op o => operation_stays,
    fun s op o => operation_completes, fun g r l x b => ?vec, fun g r x b => ?scal, fun g => rfl, fun g k => ?flags, ?phase⟩
  case lds =>
    intro s q c f h hw hi hr full
    refine ⟨fun hfull => ?_, fun hfull => ldsWake_full h hw hi hr hfull⟩
    obtain ⟨t, ht⟩ : ∃ t, execLds f (wakeAs s q) = .next t := onPath_wakeAs h _
    refine ⟨t, ht, (ldsWake_full h hw hi hr hfull).trans ?_⟩
    rw [if_pos rfl, ht]
    rfl
  case binding =>
    intro s q c f r i h hw hi hf
    exact ⟨bindingWake_free h hw hi hf, bindingWake_held h hw hi⟩
  case flags =>
    refine ⟨?_, fun j hj => ?_⟩
    · rw [flagCount_subFlag, if_pos rfl]
    · rw [flagCount_subFlag, if_neg hj]
  case vec => rfl
  case scal => rfl
  case phase =>
    intro s team slot t ht b counts here next
    have hcounts : barTarget s t (getBar t slot) ≠ 0 ↔ counts ≠ [] := not_congr List.length_eq_zero_iff
    have hiff : phaseDone s t slot = true ↔ counts ≠ [] ∧ here.length = counts.length ∧ b.pending = 0 := by
      rw [phaseDone_iff, hcounts]
      exact Iff.rfl
    rw [barrierPhase_eq ht]
    refine ⟨fun h1 h2 h3 => ?_, fun hor => ?_⟩
    · rw [if_pos (hiff.2 ⟨h1, h2, h3⟩)]
      exact congrArg Host.Outcome.next (modTeam_congr ht rfl)
    · rw [if_neg]
      intro hd
      obtain ⟨h1, h2, h3⟩ := hiff.1 hd
      rcases hor with h | h | h
      · exact h1 h
      · exact h h2
      · exact h h3

end Sys2Proof.Claims
end

section
/-!
SUPPORT. Lines of the L2 (04 R83 to R86): the bits and bytes of a line, the line that a location finds after one has been
put, and the word that a store leaves there.
-/
namespace Sys2Proof.Claims
open Sys2Proof.Machine

/-! ## Bits and bytes of a line -/

/-- Setting a bit that is clear carries nowhere. -/
theorem bitOf_add_two_pow {x n : Nat} (h : bitOf x n = false) (m : Nat) :
    bitOf (x + 2 ^ n) m = if m = n then true else bitOf x m := by
  have hq : x / 2 ^ n % 2 = 0 := by
    have : ¬x / 2 ^ n % 2 = 1 := by simpa [bitOf] using h
    omega
  have hdiv : (x + 2 ^ n) / 2 ^ n = x / 2 ^ n + 1 := Nat.add_div_right x (Nat.two_pow_pos n)
  rcases Nat.lt_trichotomy m n with hm | rfl | hm
  · rw [if_neg hm.ne, bitOf_eq_testBit, bitOf_eq_testBit, Nat.add_comm, Nat.testBit_two_pow_add_gt hm]
  · rw [if_pos rfl, bitOf, hdiv]
    exact beq_iff_eq.2 (by omega)
  · obtain ⟨d, rfl⟩ := Nat.exists_eq_add_of_lt hm
    have hpow : 2 ^ (n + d + 1) = 2 ^ n * (2 * 2 ^ d) := by ring
    rw [if_neg hm.ne', bitOf, bitOf, hpow, ← Nat.div_div_eq_div_mul, ← Nat.div_div_eq_div_mul, ← Nat.div_div_eq_div_mul,
      ← Nat.div_div_eq_div_mul, hdiv]
    have hhalf : (x / 2 ^ n + 1) / 2 = x / 2 ^ n / 2 := by omega
    rw [hhalf]

theorem bitOf_putBit (x n m : Nat) (b : Bool) : bitOf (putBit x n b) m = if m = n then b else bitOf x m := by
  unfold putBit
  cases hx : bitOf x n with
  | false =>
    cases b with
    | true => exact bitOf_add_two_pow hx m
    | false =>
      by_cases hm : m = n
      · rw [if_pos hm, hm]; exact hx
      · rw [if_neg hm]; rfl
  | true =>
    cases b with
    | true =>
      by_cases hm : m = n
      · rw [if_pos hm, hm]; exact hx
      · rw [if_neg hm]; rfl
    | false =>
      have hq : x / 2 ^ n % 2 = 1 := by simpa [bitOf] using hx
      have hle : 2 ^ n ≤ x := by
        by_contra hlt
        rw [Nat.div_eq_of_lt (Nat.not_le.1 hlt)] at hq
        cases hq
      have hclear : bitOf (x - 2 ^ n) n = false := by
        have hdiv : (x - 2 ^ n) / 2 ^ n = x / 2 ^ n - 1 := Nat.sub_mul_div x (2 ^ n) 1 ▸ by rw [Nat.mul_one]
        rw [bitOf, hdiv]
        exact beq_eq_false_iff_ne.2 (by omega)
      have hback := bitOf_add_two_pow hclear m
      rw [Nat.sub_add_cancel hle] at hback
      show bitOf (x - 2 ^ n) m = _
      by_cases hm : m = n
      · rw [if_pos hm, hm, hclear]
      · rw [if_neg hm] at hback ⊢
        exact hback.symm

theorem spFind_putRange {α : Type} (f : Nat → α) (a n : Nat) (m : SMap α) (k : Nat) :
    spFind ((List.range n).foldl (fun m i => spPut m (a + i) (f i)) m) k =
      if a ≤ k ∧ k < a + n then some (f (k - a)) else spFind m k := by
  induction n with
  | zero => rw [if_neg (by omega)]; rfl
  | succ n ih =>
    rw [List.range_succ, List.foldl_append, List.foldl_cons, List.foldl_nil, spFind_spPut, ih]
    by_cases h : k = a + n
    · rw [if_pos h, if_pos (by omega), h, Nat.add_sub_cancel_left]
    · by_cases h' : a ≤ k ∧ k < a + n
      · rw [if_neg h, if_pos h', if_pos (by omega)]
      · rw [if_neg h, if_neg h', if_neg (by omega)]

theorem spFind_putZip (bs : List Byte) (a j : Nat) (m : SMap Byte) (k : Nat) :
    spFind ((bs.zipIdx j).foldl (fun m e => spPut m (a + e.2) e.1) m) k =
      if a + j ≤ k ∧ k < a + j + bs.length then some (bs.getD (k - (a + j)) 0) else spFind m k := by
  induction bs generalizing j m with
  | nil => rw [if_neg (by simp)]; rfl
  | cons b r ih =>
    rw [List.zipIdx_cons, List.foldl_cons, ih, spFind_spPut, List.length_cons]
    by_cases h : k = a + j
    · rw [if_neg (by omega), if_pos h, if_pos (by omega), h, Nat.sub_self]
      rfl
    · by_cases h' : a + (j + 1) ≤ k ∧ k < a + (j + 1) + r.length
      · obtain ⟨n, hn⟩ : ∃ n, k - (a + j) = n + 1 := ⟨k - (a + j) - 1, by omega⟩
        have hn' : k - (a + (j + 1)) = n := by omega
        rw [if_pos h', if_pos (by omega), hn, hn', List.getD_cons_succ]
      · rw [if_neg h', if_neg h, if_neg (by omega)]

/-! ## The bytes that a line shows -/

/-- Byte o of a line, from the line where its sector is valid and from memory elsewhere. -/
def lineByte (s : State) (cmp line : Nat) (ln : L2Line) (o : Nat) : Byte :=
  if bitOf ln.valid (o / 32) then (spFind ln.bytes o).getD 0 else ctlByte s cmp (128 * line + o)

theorem l2Byte_found {s : State} {line : Nat} {ln : L2Line} (h : l2Find s line = some ln) (cmp : Nat) {o : Nat} (ho : o < 128) :
    l2Byte s cmp (128 * line + o) = lineByte s cmp line ln o := by
  have h1 : (128 * line + o) / 128 = line := by omega
  have h2 : (128 * line + o) % 128 = o := by omega
  unfold l2Byte lineByte
  rw [h1, h2, h]

theorem l2Byte_missed {s : State} {line : Nat} (h : l2Find s line = none) (cmp : Nat) {o : Nat} (ho : o < 128) :
    l2Byte s cmp (128 * line + o) = ctlByte s cmp (128 * line + o) := by
  have h1 : (128 * line + o) / 128 = line := by omega
  unfold l2Byte
  rw [h1, h]

/-- Filling a sector makes it valid and shows the bytes of memory there. -/
theorem l2Filled_valid (s : State) (line sec : Nat) (ln : L2Line) (j : Nat) :
    bitOf (l2Filled s line sec ln).valid j = (decide (j = sec) || bitOf ln.valid j) := by
  unfold l2Filled
  by_cases h : bitOf ln.valid sec
  · rw [if_pos h]
    by_cases hj : j = sec
    · simp [hj, h]
    · simp [hj]
  · rw [if_neg h]
    show bitOf (putBit ln.valid sec true) j = _
    rw [bitOf_putBit]
    by_cases hj : j = sec
    · simp [hj]
    · simp [hj]

theorem l2Filled_cmp (s : State) (line sec : Nat) (ln : L2Line) : (l2Filled s line sec ln).cmp = ln.cmp := by
  unfold l2Filled
  split <;> rfl

theorem l2Filled_dirty (s : State) (line sec : Nat) (ln : L2Line) : (l2Filled s line sec ln).dirty = ln.dirty := by
  unfold l2Filled
  split <;> rfl

/-- A line with a sector filled shows what it showed before. -/
theorem lineByte_l2Filled (s : State) {cmp line sec : Nat} {ln : L2Line} {o : Nat}
    (h : bitOf ln.valid (o / 32) = true ∨ ctlByte s ln.cmp (128 * line + o) = ctlByte s cmp (128 * line + o)) :
    lineByte s cmp line (l2Filled s line sec ln) o = lineByte s cmp line ln o := by
  unfold lineByte
  rw [l2Filled_valid]
  by_cases hv : bitOf ln.valid sec
  · have hf : l2Filled s line sec ln = ln := if_pos hv
    rw [hf]
    by_cases ho : o / 32 = sec
    · simp [ho, hv]
    · simp [ho]
  · have hb : (l2Filled s line sec ln).bytes = (List.range 32).foldl (fun m i =>
        spPut m (32 * sec + i) (ctlByte s ln.cmp (128 * line + 32 * sec + i))) ln.bytes := by
      unfold l2Filled
      rw [if_neg hv]
    rw [hb, spFind_putRange (fun i => ctlByte s ln.cmp (128 * line + 32 * sec + i))]
    by_cases ho : o / 32 = sec
    · have hr : 32 * sec ≤ o ∧ o < 32 * sec + 32 := by omega
      have hadd : 128 * line + 32 * sec + (o - 32 * sec) = 128 * line + o := by omega
      rw [ho] at h
      rw [if_pos (by simp [ho]), if_pos hr, ho, if_neg hv, Option.getD_some, hadd]
      exact h.resolve_left hv
    · have hr : ¬(32 * sec ≤ o ∧ o < 32 * sec + 32) := by omega
      rw [if_neg hr]
      simp [ho]

/-! ## Where a line is found -/

/-- A line that is put where l2Find looks for it first. -/
def Placed (s : State) (line : Nat) (ln : L2Line) : Prop :=
  line * 128 < hbmSize ∨
    offHbm (line * 128) = true ∧ ln.cmp < 8 ∧ ∀ p < ln.cmp, spFind (getPart s p).l2 line = none

/-- The first part that holds a line is the one that is found. -/
theorem findSome_range {β : Type} {f : Nat → Option β} {p : Nat} {b : β} (hp : p < 8) (hb : f p = some b)
    (hn : ∀ k < p, f k = none) : (List.range 8).findSome? f = some b := by
  rw [List.findSome?_eq_some_iff]
  refine ⟨List.range p, p, List.range' (p + 1) (7 - p), ?_, hb, fun x hx => hn x (List.mem_range.1 hx)⟩
  interval_cases p <;> rfl

theorem getPart_l2Set (s : State) (line : Nat) (ln : L2Line) (p : Nat) : getPart (l2Set s line ln) p =
    if p = lineHolder s line ln then { getPart s p with l2 := spPut (getPart s p).l2 line ln } else getPart s p := by
  refine (spGet_spSet ..).trans ?_
  split
  · next hp => rw [hp]
  · rfl

theorem l2Find_l2Set {s : State} {line : Nat} {ln : L2Line} (h : Placed s line ln) :
    l2Find (l2Set s line ln) line = some ln := by
  unfold l2Find
  rcases h with h | ⟨hoff, hc, hfirst⟩
  · have ho : ownerOf (l2Set s line ln) = ownerOf s := rfl
    rw [if_pos h, ho, getPart_l2Set, lineHolder, if_pos h, if_pos rfl]
    exact spFind_spPut_self ..
  · have hn : ¬line * 128 < hbmSize := by
      have : 2 ^ 52 ≤ line * 128 := of_decide_eq_true hoff
      show ¬line * 128 < 2 ^ 39
      omega
    rw [if_neg hn, if_pos hoff]
    refine findSome_range hc ?_ fun k hk => ?_
    · rw [getPart_l2Set, lineHolder, if_neg hn, if_pos rfl]
      exact congrArg (Option.map _) (spFind_spPut_self ..)
    · rw [getPart_l2Set, lineHolder, if_neg hn, if_neg hk.ne, hfirst k hk]
      rfl

/-- Other lines are found as before. -/
theorem l2Find_l2Set_ne (s : State) {line line' : Nat} (ln : L2Line) (h : line' ≠ line) :
    l2Find (l2Set s line ln) line' = l2Find s line' := by
  have hf (p : Nat) : spFind (getPart (l2Set s line ln) p).l2 line' = spFind (getPart s p).l2 line' := by
    rw [getPart_l2Set]
    split
    · exact spFind_spPut_ne _ _ h
    · rfl
  have ho : ownerOf (l2Set s line ln) = ownerOf s := rfl
  unfold l2Find
  simp only [hf, ho]

theorem metaBase_modPart_l2 (s : State) (q : Nat) (F : Partition → Partition) (hF : ∀ p, (F p).metaBase = p.metaBase) :
    metaBase (modPart s q F) = metaBase s := by
  funext p
  unfold metaBase
  have hp : getPart (modPart s q F) p = if p = q then F (getPart s q) else getPart s p := spGet_spSet ..
  rw [hp]
  split
  · next h => rw [hF, h]
  · rfl

theorem sameBlocks_modPart (s : State) (q : Nat) (F : Partition → Partition) (hF : ∀ p, (F p).metaBase = p.metaBase) :
    SameBlocks s (modPart s q F) := ⟨rfl, rfl, rfl, rfl, metaBase_modPart_l2 s q F hF⟩

theorem sameBlocks_l2Set (s : State) (line : Nat) (ln : L2Line) : SameBlocks s (l2Set s line ln) :=
  sameBlocks_modPart s _ _ fun _ => rfl

theorem sameBlocks_countCorrupt (s : State) (cmp line : Nat) : SameBlocks s (countCorrupt s cmp line) := by
  unfold countCorrupt
  split
  · exact sameBlocks_modPart s _ _ fun _ => rfl
  · exact ⟨rfl, rfl, rfl, rfl, rfl⟩

theorem SameBlocks.trans {s t u : State} (h : SameBlocks s t) (h' : SameBlocks t u) : SameBlocks s u :=
  ⟨h'.mem.trans h.mem, h'.poison.trans h.poison, h'.nibbles.trans h.nibbles, h'.partCfg.trans h.partCfg,
    h'.metaBase.trans h.metaBase⟩

theorem getPart_modPart (s : State) (q p : Nat) (F : Partition → Partition) :
    getPart (modPart s q F) p = if p = q then F (getPart s p) else getPart s p := by
  refine (spGet_spSet ..).trans ?_
  split
  · next h => rw [h]
  · rfl

/-- A change of a part that keeps its lines keeps the lines that are found. -/
theorem l2_modPart (s : State) (q p : Nat) (F : Partition → Partition) (hF : ∀ p, (F p).l2 = p.l2) :
    (getPart (modPart s q F) p).l2 = (getPart s p).l2 := by
  rw [getPart_modPart]
  split
  · exact hF _
  · rfl

theorem l2Find_modPart (s : State) (q : Nat) (F : Partition → Partition) (hF : ∀ p, (F p).l2 = p.l2) :
    l2Find (modPart s q F) = l2Find s := by
  funext line
  have ho : ownerOf (modPart s q F) = ownerOf s := rfl
  unfold l2Find
  rw [ho]
  simp only [l2_modPart s q _ F hF]

theorem l2_countCorrupt (s : State) (cmp line p : Nat) : (getPart (countCorrupt s cmp line) p).l2 = (getPart s p).l2 := by
  unfold countCorrupt
  split
  · exact l2_modPart _ _ _ _ fun _ => rfl
  · rfl

theorem l2Find_countCorrupt (s : State) (cmp line : Nat) : l2Find (countCorrupt s cmp line) = l2Find s := by
  unfold countCorrupt
  split
  · exact l2Find_modPart _ _ _ fun _ => rfl
  · rfl

theorem locExists_iff {loc : Nat} : locExists loc = true ↔ loc < hbmSize ∨ 2 ^ 52 ≤ loc := by
  rw [locExists, Bool.or_eq_true, decide_eq_true_eq, decide_eq_true_eq]

/-- The line that is found is placed where l2Find looks for it first. -/
theorem placed_of_l2Find {s : State} {line : Nat} {ln : L2Line} (h : l2Find s line = some ln) : Placed s line ln := by
  unfold l2Find at h
  by_cases hb : line * 128 < hbmSize
  · exact .inl hb
  rw [if_neg hb] at h
  by_cases hoff : offHbm (line * 128) = true
  · rw [if_pos hoff, List.findSome?_eq_some_iff] at h
    obtain ⟨l₁, p, l₂, hr, hp, hn⟩ := h
    have hcmp : ln.cmp = p := by
      obtain ⟨ln', hl, rfl⟩ := Option.map_eq_some_iff.1 hp
      rfl
    have hlen : p = l₁.length := by
      have h0 : (l₁ ++ p :: l₂)[l₁.length]? = some p := by
        rw [List.getElem?_append_right (Nat.le_refl _), Nat.sub_self, List.getElem?_cons_zero]
      rw [← hr] at h0
      obtain ⟨hlt, he⟩ := List.getElem?_eq_some_iff.1 h0
      rw [List.getElem_range] at he
      exact he.symm
    refine .inr ⟨hoff, ?_, fun q hq => ?_⟩
    · rw [hcmp]
      exact List.mem_range.1 (hr ▸ List.mem_append_right _ (List.mem_cons_self ..))
    · have hmem : q ∈ l₁ := by
        have hq' : q < l₁.length := by omega
        have h0 : (l₁ ++ p :: l₂)[q]? = some l₁[q] := by
          rw [List.getElem?_append_left hq', List.getElem?_eq_getElem hq']
        rw [← hr] at h0
        obtain ⟨hlt, he⟩ := List.getElem?_eq_some_iff.1 h0
        rw [List.getElem_range] at he
        rw [he]
        exact List.getElem_mem hq'
      exact Option.map_eq_none_iff.1 (hn q hmem)
  · rw [if_neg hoff] at h
    cases h

theorem l2Find_gap {s : State} {loc : Nat} (h : locExists loc = false) : l2Find s (loc / 128) = none := by
  have h' : ¬(loc < 2 ^ 39 ∨ 2 ^ 52 ≤ loc) := fun hc => Bool.false_ne_true (h.symm.trans (locExists_iff.2 hc))
  have hb : ¬loc / 128 * 128 < hbmSize := by
    show ¬loc / 128 * 128 < 2 ^ 39
    omega
  have hoff : ¬offHbm (loc / 128 * 128) = true := fun hc => by
    have : 2 ^ 52 ≤ loc / 128 * 128 := of_decide_eq_true hc
    omega
  unfold l2Find
  rw [if_neg hb, if_neg hoff]

/-! ## Bytes beyond the HBM -/

theorem memBytes_getD (m : List Host.Cell) (a n k : Nat) (hk : k < n) : (memBytes m a n).getD k 0 = memByte m (a + k) := by
  induction n generalizing a k with
  | zero => exact absurd hk (Nat.not_lt_zero k)
  | succ n ih =>
    cases k with
    | zero => rfl
    | succ k =>
      have hadd : a + 1 + k = a + (k + 1) := by omega
      rw [memBytes, List.getD_cons_succ, ih _ _ (Nat.lt_of_succ_lt_succ hk), hadd]

/-- Only blocks in the HBM are compressed. -/
theorem ctlByte_beyond (s : State) (cmp : Nat) {loc : Nat} (h : hbmSize ≤ loc) : ctlByte s cmp loc = memByte s.mem loc := by
  unfold ctlByte
  split
  · rfl
  · have hbase : hbmSize ≤ loc / 128 * 128 := by
      have h' : 2 ^ 39 ≤ loc := h
      show 2 ^ 39 ≤ loc / 128 * 128
      omega
    have hb : (ctlBlock s cmp (loc / 128)).1 = memBytes s.mem (loc / 128 * 128) 128 := by
      unfold ctlBlock
      rw [if_pos (.inr hbase)]
    rw [hb, memBytes_getD _ _ _ _ (Nat.mod_lt _ (by decide)), Nat.div_add_mod' loc 128]

/-! ## The word that a store leaves -/

/-- The line that takes a word at a location. -/
def lineOf (s : State) (cmp loc : Nat) : L2Line :=
  (l2Find s (loc / 128)).getD { cmp := if hbmSize ≤ loc / 128 * 128 then cmp % 8 else cmp }

theorem l2LineAt_eq (s : State) (cmp loc : Nat) :
    l2LineAt s cmp loc = l2Filled s (loc / 128) (loc % 128 / 32) (lineOf s cmp loc) := rfl

theorem lineOf_found {s : State} {cmp loc : Nat} {ln : L2Line} (h : l2Find s (loc / 128) = some ln) : lineOf s cmp loc = ln := by
  unfold lineOf
  rw [h, Option.getD_some]

theorem lineOf_missed {s : State} {cmp loc : Nat} (h : l2Find s (loc / 128) = none) :
    lineOf s cmp loc = { cmp := if hbmSize ≤ loc / 128 * 128 then cmp % 8 else cmp } := by
  unfold lineOf
  rw [h, Option.getD_none]

theorem placed_lineOf {s : State} {loc : Nat} (cmp : Nat) (h : locExists loc = true) :
    Placed s (loc / 128) (lineOf s cmp loc) := by
  cases hl : l2Find s (loc / 128) with
  | some ln =>
    rw [lineOf_found hl]
    exact placed_of_l2Find hl
  | none =>
    by_cases hb : loc / 128 * 128 < hbmSize
    · exact .inl hb
    have hoff : offHbm (loc / 128 * 128) = true := by
      have hb' : ¬loc / 128 * 128 < 2 ^ 39 := hb
      have h' : loc < 2 ^ 39 ∨ 2 ^ 52 ≤ loc := locExists_iff.1 h
      exact decide_eq_true (by omega)
    rw [lineOf_missed hl, if_pos (Nat.not_lt.1 hb)]
    have h8 : cmp % 8 < 8 := Nat.mod_lt _ (by decide)
    unfold l2Find at hl
    rw [if_neg hb, if_pos hoff, List.findSome?_eq_none_iff] at hl
    exact .inr ⟨hoff, h8, fun p hp => Option.map_eq_none_iff.1 (hl p (List.mem_range.2 (hp.trans h8)))⟩

/-- A byte as its line shows it, whether the L2 has the line or not. -/
theorem l2Byte_lineOf (s : State) (cmp c : Nat) {loc o : Nat} (ho : o < 128) :
    l2Byte s c (128 * (loc / 128) + o) = lineByte s c (loc / 128) (lineOf s cmp loc) o := by
  cases hl : l2Find s (loc / 128) with
  | some ln => rw [l2Byte_found hl c ho, lineOf_found hl]
  | none =>
    rw [l2Byte_missed hl c ho, lineOf_missed hl, lineByte]
    have h0 : bitOf 0 (o / 32) = false := by simp [bitOf]
    rw [h0]
    rfl

/-- The line after a word has been put. -/
def withWord (s : State) (cmp w : Nat) (v : List Byte × Bool) : L2Line :=
  let ln := l2LineAt s cmp (8 * w)
  { ln with
    bytes := v.1.zipIdx.foldl (fun m e => spPut m (8 * w % 128 + e.2) e.1) ln.bytes
    dirty := putBit ln.dirty (8 * w % 128 / 32) true
    bad := putBit ln.bad (8 * w % 128 / 8) v.2 }

theorem withWord_valid (s : State) (cmp w : Nat) (v : List Byte × Bool) (j : Nat) : bitOf (withWord s cmp w v).valid j =
    (decide (j = 8 * w % 128 / 32) || bitOf (lineOf s cmp (8 * w)).valid j) :=
  l2Filled_valid s (8 * w / 128) (8 * w % 128 / 32) (lineOf s cmp (8 * w)) j

theorem withWord_byte (s : State) (cmp w : Nat) {v : List Byte × Bool} (hv : v.1.length = 8) (o : Nat) :
    spFind (withWord s cmp w v).bytes o = if o / 8 = 8 * w % 128 / 8 then some (v.1.getD (o % 8) 0)
      else spFind (l2LineAt s cmp (8 * w)).bytes o := by
  refine (spFind_putZip v.1 (8 * w % 128) 0 _ o).trans ?_
  rw [hv, Nat.add_zero]
  by_cases h : o / 8 = 8 * w % 128 / 8
  · have ho : o - 8 * w % 128 = o % 8 := by omega
    rw [if_pos h, if_pos (by omega), ho]
  · rw [if_neg h, if_neg (by omega)]

theorem l2SetWord_gap {s : State} {cmp w : Nat} (v : List Byte × Bool) (h : locExists (8 * w) = false) :
    l2SetWord s cmp w v = { s with mem := memPutAll s.mem (8 * w) v.1 } := by
  unfold l2SetWord
  exact if_pos (by rw [h]; rfl)

theorem l2SetWord_eq {s : State} {cmp w : Nat} (v : List Byte × Bool) (h : locExists (8 * w) = true) :
    l2SetWord s cmp w v =
      l2Set (if l2Has s (8 * w) then s else countCorrupt s cmp (8 * w / 128)) (8 * w / 128) (withWord s cmp w v) := by
  unfold l2SetWord
  exact if_neg (by rw [h]; exact Bool.false_ne_true)

theorem l2Find_l2SetWord {s : State} {cmp w : Nat} (v : List Byte × Bool) (h : locExists (8 * w) = true) :
    l2Find (l2SetWord s cmp w v) (8 * w / 128) = some (withWord s cmp w v) := by
  rw [l2SetWord_eq v h]
  refine l2Find_l2Set ?_
  have hp : Placed s (8 * w / 128) (withWord s cmp w v) := by
    have := placed_lineOf (s := s) cmp h
    unfold Placed withWord at *
    rw [l2LineAt_eq, l2Filled_cmp]
    exact this
  split
  · exact hp
  · exact hp.imp_right fun ⟨h1, h2, h3⟩ => ⟨h1, h2, fun p hpc => by rw [l2_countCorrupt]; exact h3 p hpc⟩

theorem l2Find_l2SetWord_ne {s : State} {cmp w line : Nat} (v : List Byte × Bool) (h : line ≠ 8 * w / 128) :
    l2Find (l2SetWord s cmp w v) line = l2Find s line := by
  cases he : locExists (8 * w) with
  | false => rw [l2SetWord_gap v he]; rfl
  | true =>
    rw [l2SetWord_eq v he, l2Find_l2Set_ne _ _ h]
    split
    · rfl
    · rw [l2Find_countCorrupt]

theorem sameBlocks_l2SetWord {s : State} {cmp w : Nat} (v : List Byte × Bool) (h : locExists (8 * w) = true) :
    SameBlocks s (l2SetWord s cmp w v) := by
  rw [l2SetWord_eq v h]
  refine SameBlocks.trans ?_ (sameBlocks_l2Set ..)
  split
  · exact ⟨rfl, rfl, rfl, rfl, rfl⟩
  · exact sameBlocks_countCorrupt ..

/-- A byte of the word is the word's. -/
theorem l2Byte_l2SetWord_self (s : State) (cmp w : Nat) {v : List Byte × Bool} (hv : v.1.length = 8) (c : Nat) {a : Nat}
    (ha : a / 8 = w) : l2Byte (l2SetWord s cmp w v) c a = v.1.getD (a % 8) 0 := by
  have hline : a / 128 = 8 * w / 128 := by omega
  cases he : locExists (8 * w) with
  | false =>
    have hmiss : l2Find (l2SetWord s cmp w v) (8 * w / 128) = none := by
      rw [l2SetWord_gap v he]
      exact l2Find_gap he
    have hbeyond : hbmSize ≤ a := by
      have h' : ¬(8 * w < 2 ^ 39 ∨ 2 ^ 52 ≤ 8 * w) := fun hc => Bool.false_ne_true (he.symm.trans (locExists_iff.2 hc))
      show 2 ^ 39 ≤ a
      omega
    have hsplit : a = 128 * (8 * w / 128) + a % 128 := by omega
    rw [hsplit, l2Byte_missed hmiss c (Nat.mod_lt _ (by decide)), ← hsplit, ctlByte_beyond _ _ hbeyond, l2SetWord_gap v he]
    refine (memByte_memPutAll ..).trans ?_
    have hk : a - 8 * w = a % 8 := by omega
    rw [hv, if_pos (by omega), hk]
  | true =>
    have hsplit : a = 128 * (8 * w / 128) + a % 128 := by omega
    have hvalid : bitOf (withWord s cmp w v).valid (a % 128 / 32) = true := by
      rw [withWord_valid, decide_eq_true (by omega), Bool.true_or]
    have hmod : a % 128 % 8 = a % 8 := by omega
    rw [hsplit, l2Byte_found (l2Find_l2SetWord v he) c (Nat.mod_lt _ (by decide)), ← hsplit, lineByte, hvalid, if_pos rfl,
      withWord_byte _ _ _ hv, if_pos (by omega), Option.getD_some, hmod]

theorem l2Has_spec {s : State} {a : Nat} (h : l2Has s a = true) :
    ∃ ln, l2Find s (a / 128) = some ln ∧ bitOf ln.valid (a % 128 / 32) = true := by
  unfold l2Has at h
  cases hl : l2Find s (a / 128) with
  | none =>
    rw [hl] at h
    cases h
  | some ln =>
    rw [hl] at h
    exact ⟨ln, rfl, h⟩

/-- Every other byte is as before, unless it is read under another compression than its line is filled under. -/
theorem l2Byte_l2SetWord_ne (s : State) (cmp w : Nat) {v : List Byte × Bool} (hv : v.1.length = 8) (c : Nat) {a : Nat}
    (ha : a / 8 ≠ w)
    (h : l2Has s a = true ∨ hbmSize ≤ a ∨ locExists (8 * w) = true ∧ (lineOf s cmp (8 * w)).cmp = c) :
    l2Byte (l2SetWord s cmp w v) c a = l2Byte s c a := by
  cases he : locExists (8 * w) with
  | false =>
    rw [l2SetWord_gap v he]
    rcases h with h | h | ⟨h, -⟩
    · obtain ⟨ln, hl, hbit⟩ := l2Has_spec h
      have hl' : l2Find { s with mem := memPutAll s.mem (8 * w) v.1 } (a / 128) = some ln := hl
      unfold l2Byte
      rw [hl', hl]
      dsimp only
      rw [if_pos hbit, if_pos hbit]
    · have hm : memByte (memPutAll s.mem (8 * w) v.1) a = memByte s.mem a := by
        rw [memByte_memPutAll, hv, if_neg (by omega)]
      have hc : ctlByte { s with mem := memPutAll s.mem (8 * w) v.1 } c a = ctlByte s c a := by
        rw [ctlByte_beyond _ _ h, ctlByte_beyond _ _ h]
        exact hm
      unfold l2Byte
      rw [hc]
      rfl
    · exact absurd (he.symm.trans h) Bool.false_ne_true
  | true =>
    have hb := sameBlocks_l2SetWord (s := s) (cmp := cmp) v he
    have hsplit : a = 128 * (a / 128) + a % 128 := by omega
    have ho : a % 128 < 128 := Nat.mod_lt _ (by decide)
    by_cases hline : a / 128 = 8 * w / 128
    · have hfill : lineByte s c (8 * w / 128) (withWord s cmp w v) (a % 128) =
          lineByte s c (8 * w / 128) (l2LineAt s cmp (8 * w)) (a % 128) := by
        have hbyte := (withWord_byte s cmp w hv (a % 128)).trans (if_neg (by omega))
        unfold lineByte
        rw [hbyte]
        rfl
      have hsame : lineByte (l2SetWord s cmp w v) c (8 * w / 128) (withWord s cmp w v) (a % 128) =
          lineByte s c (8 * w / 128) (withWord s cmp w v) (a % 128) := by
        unfold lineByte
        rw [hb.ctlByte]
      rw [hsplit, hline, l2Byte_found (l2Find_l2SetWord v he) c ho, hsame, hfill, l2LineAt_eq, l2Byte_lineOf s cmp c ho]
      refine lineByte_l2Filled s ?_
      rw [← hline, ← hsplit]
      rcases h with h | h | ⟨-, h⟩
      · left
        unfold l2Has at h
        rw [hline] at h
        split at h
        · next ln hl => rwa [lineOf_found hl]
        · cases h
      · right
        rw [ctlByte_beyond _ _ h, ctlByte_beyond _ _ h]
      · right
        rw [h]
    · unfold l2Byte
      rw [l2Find_l2SetWord_ne v hline, hb.ctlByte]

theorem l2Has_l2SetWord_self (s : State) (cmp w : Nat) (v : List Byte × Bool) (h : locExists (8 * w) = true) {a : Nat}
    (ha : a / 8 = w) : l2Has (l2SetWord s cmp w v) a = true := by
  have hline : a / 128 = 8 * w / 128 := by omega
  unfold l2Has
  rw [hline, l2Find_l2SetWord v h]
  show bitOf (withWord s cmp w v).valid (a % 128 / 32) = true
  rw [withWord_valid, decide_eq_true (by omega), Bool.true_or]

theorem l2Has_l2SetWord {s : State} (cmp w : Nat) (v : List Byte × Bool) {a : Nat} (ha : l2Has s a = true) :
    l2Has (l2SetWord s cmp w v) a = true := by
  cases he : locExists (8 * w) with
  | false => rw [l2SetWord_gap v he]; exact ha
  | true =>
    by_cases hline : a / 128 = 8 * w / 128
    · unfold l2Has at ha ⊢
      rw [hline] at ha ⊢
      rw [l2Find_l2SetWord v he]
      show bitOf (withWord s cmp w v).valid (a % 128 / 32) = true
      split at ha
      · next ln hl => rw [withWord_valid, lineOf_found hl, ha, Bool.or_true]
      · cases ha
    · unfold l2Has
      rw [l2Find_l2SetWord_ne v hline]
      exact ha

theorem l2Bad_l2SetWord_self (s : State) (cmp w : Nat) (v : List Byte × Bool) (c : Nat) (h : locExists (8 * w) = true) :
    l2Bad (l2SetWord s cmp w v) c (8 * w) = v.2 := by
  unfold l2Bad
  rw [l2Find_l2SetWord v h]
  have hvalid : bitOf (withWord s cmp w v).valid (8 * w % 128 / 32) = true := by
    rw [withWord_valid, decide_eq_true rfl, Bool.true_or]
  refine (if_pos hvalid).trans ?_
  exact (bitOf_putBit ..).trans (if_pos rfl)

theorem l2SetWord_mem {s : State} {w : Nat} (cmp : Nat) (v : List Byte × Bool) (h : locExists (8 * w) = true) :
    (l2SetWord s cmp w v).mem = s.mem := (sameBlocks_l2SetWord v h).mem

/-! ## Runs of bytes -/

theorem l2Bytes_eq_map (s : State) (c loc n : Nat) : l2Bytes s c loc n = (List.range n).map fun i => l2Byte s c (loc + i) := by
  induction n generalizing loc with
  | zero => rfl
  | succ n ih =>
    rw [l2Bytes, ih, List.range_succ_eq_map, List.map_cons, List.map_map]
    refine congrArg _ (List.map_congr_left fun i _ => ?_)
    exact congrArg (l2Byte s c) (by show loc + 1 + i = loc + (i + 1); omega)

theorem length_l2Bytes (s : State) (c loc n : Nat) : (l2Bytes s c loc n).length = n := by
  rw [l2Bytes_eq_map, List.length_map, List.length_range]

theorem getD_l2Bytes (s : State) (c loc : Nat) {n i : Nat} (hi : i < n) : (l2Bytes s c loc n).getD i 0 = l2Byte s c (loc + i) := by
  rw [l2Bytes_eq_map, List.getD_eq_getElem?_getD, List.getElem?_map, List.getElem?_range hi]
  rfl

/-- A run of bytes is the list that shows each of them. -/
theorem l2Bytes_eq_of {s : State} {c loc : Nat} {bs : List Byte} (h : ∀ i < bs.length, l2Byte s c (loc + i) = bs.getD i 0) :
    l2Bytes s c loc bs.length = bs := by
  refine List.ext_getElem (length_l2Bytes ..) fun i hi hi' => ?_
  have hg := getD_l2Bytes s c loc hi'
  rw [h i hi'] at hg
  rw [List.getD_eq_getElem _ _ hi, List.getD_eq_getElem _ _ hi'] at hg
  exact hg

/-! ## Words that a message patches -/

theorem length_patch (l : List Byte) (cells : List (Nat × Byte)) : (cells.foldl (fun l e => l.set e.1 e.2) l).length = l.length := by
  induction cells generalizing l with
  | nil => rfl
  | cons e r ih => rw [List.foldl_cons, ih, List.length_set]

theorem length_onto (m : Msg) {v : List Byte × Bool} (hv : v.1.length = 8) : (m.onto v).1.length = 8 :=
  (length_patch v.1 m.bytes).trans hv

theorem getD_patch_of_not_mem (l : List Byte) {cells : List (Nat × Byte)} {k : Nat} (h : k ∉ cells.map (·.1)) :
    (cells.foldl (fun l e => l.set e.1 e.2) l).getD k 0 = l.getD k 0 := by
  induction cells generalizing l with
  | nil => rfl
  | cons e r ih =>
    rw [List.map_cons, List.mem_cons, not_or] at h
    rw [List.foldl_cons, ih _ h.2, List.getD_eq_getElem?_getD, List.getD_eq_getElem?_getD, List.getElem?_set_ne (Ne.symm h.1)]

/-- A cell that no other cell overlies is in the word. -/
theorem getD_patch {l : List Byte} {cells : List (Nat × Byte)} (hn : (cells.map (·.1)).Nodup) {e : Nat × Byte} (he : e ∈ cells)
    (hk : e.1 < l.length) : (cells.foldl (fun l e => l.set e.1 e.2) l).getD e.1 0 = e.2 := by
  induction cells generalizing l with
  | nil => cases he
  | cons d r ih =>
    rw [List.map_cons, List.nodup_cons] at hn
    rw [List.foldl_cons]
    rcases List.mem_cons.1 he with rfl | he
    · rw [getD_patch_of_not_mem _ hn.1, List.getD_eq_getElem?_getD, List.getElem?_set_self hk]
      rfl
    · exact ih hn.2 he (by rwa [List.length_set])

/-! ## Stores made visible -/

theorem l2Word_length (s : State) (cmp w : Nat) : (l2Word s cmp w).1.length = 8 := length_l2Bytes ..

theorem l2Byte_publish (s : State) (w : Nat) (m : Msg) :
    l2Byte (publish s w m) = l2Byte (l2SetWord s m.cmp w (m.onto (l2Word s m.cmp w))) := rfl

theorem l2Has_publish (s : State) (w : Nat) (m : Msg) :
    l2Has (publish s w m) = l2Has (l2SetWord s m.cmp w (m.onto (l2Word s m.cmp w))) := rfl

theorem unitCells_keys (k : Nat) (bs : List Byte) : (unitCells k bs).map (·.1) = (List.range bs.length).map (k + ·) := by
  rw [unitCells, List.map_map, List.range_eq_range', ← List.zipIdx_map_snd 0 bs, List.map_map]
  rfl

theorem nodup_unitCells (k : Nat) (bs : List Byte) : ((unitCells k bs).map (·.1)).Nodup := by
  rw [unitCells_keys]
  exact List.nodup_range.map fun _ _ h => Nat.add_left_cancel h

theorem mem_unitCells (k : Nat) {bs : List Byte} {i : Nat} (hi : i < bs.length) : (k + i, bs.getD i 0) ∈ unitCells k bs := by
  refine List.mem_map.2 ⟨(bs[i], i), ?_, ?_⟩
  · rw [List.mem_zipIdx_iff_getElem?, List.getElem?_eq_getElem hi]
  · rw [List.getD_eq_getElem _ _ hi]

/-- The bytes of a unit are read once it has been made visible. -/
theorem l2Byte_publish_unit (s : State) (w : Nat) {m : Msg} {k : Nat} {bs : List Byte} (hm : m.bytes = unitCells k bs)
    (hk : k + bs.length ≤ 8) (c : Nat) {i : Nat} (hi : i < bs.length) :
    l2Byte (publish s w m) c (8 * w + (k + i)) = bs.getD i 0 := by
  have hmod : (8 * w + (k + i)) % 8 = k + i := by omega
  have hv := length_onto m (l2Word_length s m.cmp w)
  rw [l2Byte_publish, l2Byte_l2SetWord_self s m.cmp w hv c (by omega), hmod]
  show ((m.bytes.foldl (fun l e => l.set e.1 e.2) (l2Word s m.cmp w).1).getD (k + i) 0) = _
  rw [hm]
  exact getD_patch (nodup_unitCells k bs) (mem_unitCells k hi) (by rw [l2Word_length]; omega)

/-- Every other byte is as before. -/
theorem l2Byte_publish_ne (s : State) (w : Nat) {m : Msg} {k : Nat} {bs : List Byte} (hm : m.bytes = unitCells k bs)
    (hw : locExists (8 * w) = true) (hc : (lineOf s m.cmp (8 * w)).cmp = m.cmp) {a : Nat}
    (ha : ¬(8 * w + k ≤ a ∧ a < 8 * w + k + bs.length)) : l2Byte (publish s w m) m.cmp a = l2Byte s m.cmp a := by
  have hv := length_onto m (l2Word_length s m.cmp w)
  rw [l2Byte_publish]
  by_cases haw : a / 8 = w
  · have hadd : 8 * w + a % 8 = a := by omega
    rw [l2Byte_l2SetWord_self s m.cmp w hv m.cmp haw]
    show ((m.bytes.foldl (fun l e => l.set e.1 e.2) (l2Word s m.cmp w).1).getD (a % 8) 0) = _
    rw [hm, getD_patch_of_not_mem]
    · exact (getD_l2Bytes s m.cmp (8 * w) (Nat.mod_lt _ (by decide))).trans (by rw [hadd])
    · rw [unitCells_keys, List.mem_map]
      rintro ⟨i, hi, he⟩
      have := List.mem_range.1 hi
      omega
  · exact l2Byte_l2SetWord_ne s m.cmp w hv m.cmp haw (.inr (.inr ⟨hw, hc⟩))

theorem lineOf_cmp {s : State} {cmp loc : Nat} (hb : loc < hbmSize) (h : ∀ ln, l2Find s (loc / 128) = some ln → ln.cmp = cmp) :
    (lineOf s cmp loc).cmp = cmp := by
  cases hl : l2Find s (loc / 128) with
  | some ln => rw [lineOf_found hl, h ln hl]
  | none =>
    have hb' : loc < 2 ^ 39 := hb
    rw [lineOf_missed hl]
    refine if_neg ?_
    show ¬2 ^ 39 ≤ loc / 128 * 128
    omega

/-! ## Bytes that have been stored -/

/-- Byte a reads as b whatever the compression it is read under, now and after stores to other words. -/
def Stored (s : State) (a : Nat) (b : Byte) : Prop := (∀ c, l2Byte s c a = b) ∧ (l2Has s a = true ∨ hbmSize ≤ a)

theorem hbmSize_le_of_gap {w a : Nat} (h : locExists (8 * w) = false) (ha : a / 8 = w) : hbmSize ≤ a := by
  have h' : ¬(8 * w < 2 ^ 39 ∨ 2 ^ 52 ≤ 8 * w) := fun hc => Bool.false_ne_true (h.symm.trans (locExists_iff.2 hc))
  show 2 ^ 39 ≤ a
  omega

theorem stored_l2SetWord (s : State) (cmp w : Nat) {v : List Byte × Bool} (hv : v.1.length = 8) {a : Nat} (ha : a / 8 = w) :
    Stored (l2SetWord s cmp w v) a (v.1.getD (a % 8) 0) := by
  refine ⟨fun c => l2Byte_l2SetWord_self s cmp w hv c ha, ?_⟩
  cases he : locExists (8 * w) with
  | true => exact .inl (l2Has_l2SetWord_self s cmp w _ he ha)
  | false => exact .inr (hbmSize_le_of_gap he ha)

theorem Stored.l2SetWord_ne {s : State} {a : Nat} {b : Byte} (h : Stored s a b) (cmp : Nat) {w : Nat} {v : List Byte × Bool}
    (hv : v.1.length = 8) (ha : a / 8 ≠ w) : Stored (l2SetWord s cmp w v) a b := by
  obtain ⟨hbyte, hhas⟩ := h
  refine ⟨fun c => ?_, hhas.imp_left fun h => l2Has_l2SetWord cmp w v h⟩
  rw [l2Byte_l2SetWord_ne s cmp w hv c ha (hhas.imp_right .inl), hbyte]

theorem stored_publish (s : State) (w : Nat) {m : Msg} (hn : (m.bytes.map (·.1)).Nodup) {b : Nat × Byte} (hb : b ∈ m.bytes)
    (hk : b.1 < 8) : Stored (publish s w m) (8 * w + b.1) b.2 := by
  have hmod : (8 * w + b.1) % 8 = b.1 := by omega
  have h := stored_l2SetWord s m.cmp w (length_onto m (l2Word_length s m.cmp w)) (a := 8 * w + b.1) (by omega)
  rw [hmod] at h
  have hb' : (m.onto (l2Word s m.cmp w)).1.getD b.1 0 = b.2 := getD_patch hn hb (by rw [l2Word_length]; exact hk)
  rw [hb'] at h
  exact h

theorem Stored.publish_ne {s : State} {a : Nat} {b : Byte} (h : Stored s a b) {w : Nat} (m : Msg) (ha : a / 8 ≠ w) :
    Stored (publish s w m) a b := h.l2SetWord_ne m.cmp (length_onto m (l2Word_length s m.cmp w)) ha

/-! ## The write-back of a line -/

theorem apply_ite_eq {α β : Type} (f : α → β) {p : Prop} [Decidable p] {a b : α} {y : β} (ha : f a = y) (hb : f b = y) :
    f (if p then a else b) = y := by
  split
  · exact ha
  · exact hb

theorem parts_mem (s : State) (m : List Host.Cell) : State.parts { s with mem := m } = s.parts := rfl

theorem parts_setPoison (s : State) (loc : Nat) (on : Bool) : (setPoison s loc on).parts = s.parts := rfl

theorem setNibble_parts (s : State) (cmp pa n : Nat) : (setNibble s cmp pa n).parts = s.parts := by
  unfold setNibble
  split
  · rfl
  · exact parts_mem s _

theorem ctlStore_parts (s : State) (cmp line : Nat) (bytes : List Byte) (bad : Nat) :
    (ctlStore s cmp line bytes bad).parts = s.parts := by
  have mark (m : List Host.Cell) : ((List.range 16).foldl (fun s i => setPoison s (line * 128 + 8 * i) (bitOf bad i))
      { s with mem := m }).parts = s.parts :=
    (foldl_same State.parts (fun s i => parts_setPoison s _ _) _ _).trans (parts_mem s m)
  unfold ctlStore
  dsimp only
  refine apply_ite_eq State.parts (mark _) (apply_ite_eq State.parts (setNibble_parts ..) (apply_ite_eq State.parts ?_ ?_))
  · exact (setNibble_parts ..).trans (mark _)
  · exact (setNibble_parts ..).trans (mark _)

theorem mem_l2Drop (s : State) (line : Nat) : (l2Drop s line).mem = s.mem := by
  unfold l2Drop
  split
  · rfl
  · refine foldl_same State.mem (fun t k => ?_) _ _
    rfl

/-- A line dropped from every part is in none. -/
theorem spFind_dropAll (line p : Nat) (ks : List Nat) (s : State) (h : p ∈ ks ∨ spFind (getPart s p).l2 line = none) :
    spFind (getPart (ks.foldl (fun s k => modPart s k fun p => { p with l2 := spDel p.l2 line }) s) p).l2 line = none := by
  induction ks generalizing s with
  | nil => exact h.resolve_left (List.not_mem_nil)
  | cons k r ih =>
    refine ih _ ?_
    rw [getPart_modPart]
    rcases h with h | h
    · rcases List.mem_cons.1 h with rfl | h
      · right
        rw [if_pos rfl]
        rw [spFind_spDel, if_pos rfl]
      · exact .inl h
    · right
      split
      · rw [spFind_spDel, if_pos rfl]
      · exact h

theorem l2Find_l2Drop (s : State) (line : Nat) : l2Find (l2Drop s line) line = none := by
  unfold l2Find
  by_cases hb : line * 128 < hbmSize
  · rw [if_pos hb]
    have hd : l2Drop s line = modPart s (ownerOf s (line * 128)) fun p => { p with l2 := spDel p.l2 line } := if_pos hb
    have ho : ownerOf (l2Drop s line) = ownerOf s := by rw [hd]; rfl
    rw [ho, hd, getPart_modPart, if_pos rfl]
    rw [spFind_spDel, if_pos rfl]
  · rw [if_neg hb]
    split
    · rw [List.findSome?_eq_none_iff]
      intro p hp
      have hd : l2Drop s line = (List.range 8).foldl (fun s k => modPart s k fun p => { p with l2 := spDel p.l2 line }) s :=
        if_neg hb
      rw [hd, spFind_dropAll line p _ s (.inl hp)]
      rfl
    · rfl

/-- One word of a line to memory, when its sector is dirty. -/
def wordOut (line : Nat) (ln : L2Line) (s : State) (k : Nat) : State :=
  if bitOf ln.dirty (k / 4) then
    setPoison { s with mem := memPutAll s.mem (line * 128 + 8 * k)
                          ((List.range 8).map fun i => (spFind ln.bytes (8 * k + i)).getD 0) }
      (line * 128 + 8 * k) (bitOf ln.bad k)
  else s

theorem memByte_wordOut (line : Nat) (ln : L2Line) (s : State) {k : Nat} (hk : k < 16) (a : Nat) : memByte (wordOut line ln s k).mem a =
    if a / 128 = line ∧ a % 128 / 8 = k ∧ bitOf ln.dirty (k / 4) = true then (spFind ln.bytes (a % 128)).getD 0
    else memByte s.mem a := by
  unfold wordOut
  by_cases hd : bitOf ln.dirty (k / 4) = true
  · rw [if_pos hd]
    refine (memByte_memPutAll ..).trans ?_
    rw [List.length_map, List.length_range]
    by_cases h : line * 128 + 8 * k ≤ a ∧ a < line * 128 + 8 * k + 8
    · have ho : 8 * k + (a - (line * 128 + 8 * k)) = a % 128 := by omega
      rw [if_pos h, if_pos ⟨by omega, by omega, hd⟩, List.getD_eq_getElem?_getD, List.getElem?_map,
        List.getElem?_range (by omega), Option.map_some, Option.getD_some, ho]
    · rw [if_neg h, if_neg fun ⟨h1, h2, _⟩ => h (by omega)]
  · rw [if_neg hd, if_neg fun ⟨_, _, h⟩ => hd h]

theorem memByte_wordsOut (line : Nat) (ln : L2Line) (s : State) {n : Nat} (hn : n ≤ 16) (a : Nat) :
    memByte ((List.range n).foldl (wordOut line ln) s).mem a =
      if a / 128 = line ∧ a % 128 / 8 < n ∧ bitOf ln.dirty (a % 128 / 32) = true then (spFind ln.bytes (a % 128)).getD 0
      else memByte s.mem a := by
  induction n with
  | zero => rw [if_neg fun ⟨_, h, _⟩ => Nat.not_lt_zero _ h]; rfl
  | succ n ih =>
    rw [List.range_succ, List.foldl_append, List.foldl_cons, List.foldl_nil, memByte_wordOut line ln _ hn, ih (by omega)]
    by_cases hk : a % 128 / 8 = n
    · have hq : a % 128 / 32 = n / 4 := by omega
      rw [hq]
      rw [if_neg (c := a / 128 = line ∧ a % 128 / 8 < n ∧ _) fun ⟨_, h, _⟩ => absurd h (by omega)]
      exact if_congr (and_congr_right fun _ => and_congr_left fun _ => by omega) rfl rfl
    · rw [if_neg fun ⟨_, h, _⟩ => hk h]
      exact if_congr (and_congr_right fun _ => and_congr_left fun _ => by omega) rfl rfl

theorem l2WriteBack_plain {s : State} {line : Nat} {ln : L2Line} (h : l2Find s line = some ln)
    (hp : ln.cmp / 2 = 0 ∨ hbmSize ≤ line * 128) (hd : ln.dirty ≠ 0) :
    l2WriteBack s line = (List.range 16).foldl (wordOut line ln) (l2Drop s line) := by
  unfold l2WriteBack
  rw [h]
  exact (if_neg hd).trans (if_pos hp)

theorem wordOut_parts (line : Nat) (ln : L2Line) (s : State) (k : Nat) : (wordOut line ln s k).parts = s.parts := by
  unfold wordOut
  split <;> rfl

theorem wordOut_partCfg (line : Nat) (ln : L2Line) (s : State) (k : Nat) : (wordOut line ln s k).partCfg = s.partCfg := by
  unfold wordOut
  split <;> rfl

theorem l2Find_congr {s t : State} (hp : t.parts = s.parts) (hc : t.partCfg = s.partCfg) : l2Find t = l2Find s := by
  funext line
  unfold l2Find
  simp only [getPart, ownerOf, partCount, hp, hc]

/-- What a write-back of a line that memory keeps as it is leaves: no line, and its dirty sectors in memory. -/
theorem memByte_l2WriteBack {s : State} {line : Nat} {ln : L2Line} (h : l2Find s line = some ln)
    (hp : ln.cmp / 2 = 0 ∨ hbmSize ≤ line * 128) (hd : ln.dirty ≠ 0) (a : Nat) :
    memByte (l2WriteBack s line).mem a =
      if a / 128 = line ∧ bitOf ln.dirty (a % 128 / 32) = true then (spFind ln.bytes (a % 128)).getD 0
      else memByte s.mem a := by
  rw [l2WriteBack_plain h hp hd, memByte_wordsOut line ln _ (Nat.le_refl 16), mem_l2Drop]
  have hlt : a % 128 / 8 < 16 := by omega
  exact if_congr (by simp only [hlt, true_and]) rfl rfl

theorem l2Find_l2WriteBack {s : State} {line : Nat} {ln : L2Line} (h : l2Find s line = some ln)
    (hp : ln.cmp / 2 = 0 ∨ hbmSize ≤ line * 128) (hd : ln.dirty ≠ 0) : l2Find (l2WriteBack s line) line = none := by
  rw [l2WriteBack_plain h hp hd, l2Find_congr (foldl_same State.parts (wordOut_parts line ln) _ _)
    (foldl_same State.partCfg (wordOut_partCfg line ln) _ _)]
  exact l2Find_l2Drop s line

end Sys2Proof.Claims
end

section
/-!
SUPPORT. Write-backs of the L1 and the L2, retries and fences of arrays (03 R64; 04 R83, R86, R96 to R100; 05 R117).
-/
namespace Sys2Proof.Claims
open Sys2Proof.Machine

/-! ## The stores of a line go to the L2 -/

/-- The stores that a core holds for one word, made visible in their order. -/
def publishWord (s : State) (e : Nat × List Msg) : State := e.2.foldl (fun s m => publish s e.1 m) s

theorem Stored.publishWord_ne {s : State} {a : Nat} {b : Byte} (h : Stored s a b) {e : Nat × List Msg} (ha : a / 8 ≠ e.1) :
    Stored (publishWord s e) a b := by
  unfold publishWord
  generalize e.2 = ms
  induction ms generalizing s with
  | nil => exact h
  | cons m r ih => exact ih (h.publish_ne m ha)

theorem stored_publishWord (s : State) {e : Nat × List Msg} {m : Msg} (hm : e.2.getLast? = some m)
    (hn : (m.bytes.map (·.1)).Nodup) {b : Nat × Byte} (hb : b ∈ m.bytes) (hk : b.1 < 8) :
    Stored (publishWord s e) (8 * e.1 + b.1) b.2 := by
  obtain ⟨ms, hms⟩ := List.getLast?_eq_some_iff.1 hm
  unfold publishWord
  rw [hms, List.foldl_append, List.foldl_cons, List.foldl_nil]
  exact stored_publish _ _ hn hb hk

/-- The last store of each word of a line is read once all of them have been made visible. -/
theorem stored_publishLine (s : State) {es : List (Nat × List Msg)} (hd : (es.map (·.1)).Nodup) {e : Nat × List Msg} (he : e ∈ es) {m : Msg} (hm : e.2.getLast? = some m)
    (hn : (m.bytes.map (·.1)).Nodup) {b : Nat × Byte} (hb : b ∈ m.bytes) (hk : b.1 < 8) :
    Stored (es.foldl publishWord s) (8 * e.1 + b.1) b.2 := by
  have ha : (8 * e.1 + b.1) / 8 = e.1 := by omega
  have hkeep (r : List (Nat × List Msg)) (hr : ∀ d ∈ r, d.1 ≠ e.1) {t : State}
      (ht : Stored t (8 * e.1 + b.1) b.2) : Stored (r.foldl publishWord t) (8 * e.1 + b.1) b.2 := by
    induction r generalizing t with
    | nil => exact ht
    | cons d r ih =>
      exact ih (fun x hx => hr x (List.mem_cons_of_mem _ hx))
        (ht.publishWord_ne (by rw [ha]; exact (hr d (List.mem_cons_self ..)).symm))
  obtain ⟨l₁, l₂, rfl⟩ := List.append_of_mem he
  rw [List.foldl_append, List.foldl_cons]
  refine hkeep l₂ (fun d hmem heq => ?_) (stored_publishWord _ hm hn hb hk)
  rw [List.map_append, List.map_cons] at hd
  exact (List.nodup_cons.1 (List.nodup_append.1 hd).2.1).1 (heq ▸ List.mem_map_of_mem hmem)

theorem mem_publish {s : State} {w : Nat} (m : Msg) (h : locExists (8 * w) = true) : (publish s w m).mem = s.mem :=
  l2SetWord_mem m.cmp _ h

theorem mem_publishWord {s : State} {e : Nat × List Msg} (h : locExists (8 * e.1) = true) : (publishWord s e).mem = s.mem :=
  foldl_same State.mem (fun _ m => mem_publish m h) _ _

theorem coreWriteBack_eq (s : State) (core line : Nat) (h : ∃ e ∈ (getCore s core).pend, e.1 / 16 = line) :
    coreWriteBack s core (fun l => l == line) =
      ((getCore s core).pend.filter fun e => e.1 / 16 == line).foldl publishWord
        (setCore s core { getCore s core with pend := (getCore s core).pend.filter fun e => !(e.1 / 16 == line) }) := by
  unfold coreWriteBack
  refine if_neg fun h0 => ?_
  obtain ⟨e, he, hl⟩ := h
  exact List.filter_eq_nil_iff.1 h0 e he (beq_iff_eq.2 hl)

theorem l1Overflow_writes (s : State) (core line : Nat) : let pend := (getCore s core).pend
    (∃ e ∈ pend, e.1 / 16 = line) → ∃ t, exec (.l1OverflowWriteback core line) s = .next t ∧
      (128 * line < hbmSize → t.mem = s.mem) ∧
      (getCore t core).pend = pend.filter (fun e => decide (e.1 / 16 ≠ line)) ∧
      ((pend.map (·.1)).Nodup → ∀ e ∈ pend, e.1 / 16 = line → ∀ m, e.2.getLast? = some m → (m.bytes.map (·.1)).Nodup →
        ∀ b ∈ m.bytes, b.1 < 8 → ∀ cmp, l2Byte t cmp (8 * e.1 + b.1) = b.2) := by
  intro pend h
  refine ⟨coreWriteBack s core fun l => l == line, ?_, ?_, ?_, ?_⟩
  · show settle s (tryL1OverflowWriteback core line s) = _
    unfold tryL1OverflowWriteback
    obtain ⟨e, he, hl⟩ := h
    have hany : ((getCore s core).pend.any fun e => e.1 / 16 == line) = true :=
      List.any_eq_true.2 ⟨e, he, beq_iff_eq.2 hl⟩
    rw [if_pos hany]
    rfl
  · intro hb
    rw [coreWriteBack_eq s core line h]
    suffices hall : ∀ (es : List (Nat × List Msg)) (t : State), (∀ e ∈ es, e.1 / 16 = line) →
        (es.foldl publishWord t).mem = t.mem from
      hall _ _ fun e he => beq_iff_eq.1 (List.mem_filter.1 he).2
    intro es
    induction es with
    | nil => exact fun _ _ => rfl
    | cons e r ih =>
      intro t hes
      have hb' : 128 * line < 2 ^ 39 := hb
      have hl := hes e (List.mem_cons_self ..)
      have hloc : locExists (8 * e.1) = true := locExists_iff.2 (.inl (by show 8 * e.1 < 2 ^ 39; omega))
      exact (ih _ fun x hx => hes x (List.mem_cons_of_mem _ hx)).trans (mem_publishWord hloc)
  · rw [coreWriteBack_eq s core line h]
    refine (congrArg Core.pend (getCore_publishAll _ _ core)).trans ?_
    refine (congrArg Core.pend (spGet_spSet_self ..)).trans ?_
    exact List.filter_congr fun e _ => (decide_not (p := e.1 / 16 = line)).symm
  · intro hd e he hl m hm hn b hb hk cmp
    rw [coreWriteBack_eq s core line h]
    have hmem : e ∈ (getCore s core).pend.filter fun e => e.1 / 16 == line := List.mem_filter.2 ⟨he, beq_iff_eq.2 hl⟩
    have hkeys : (((getCore s core).pend.filter fun e => e.1 / 16 == line).map (·.1)).Nodup :=
      hd.sublist (List.filter_sublist.map _)
    exact (stored_publishLine _ hkeys hmem hm hn hb hk).1 cmp

/-! ## A line goes to memory -/

theorem dirtyLine_eq {s : State} {part line : Nat} {ln : L2Line} (h : l2Find s line = some ln)
    (hp : lineHolder s line ln = part) (hd : ln.dirty ≠ 0) : dirtyLine s part line = some ln := by
  unfold dirtyLine
  rw [h]
  refine Option.filter_some_pos ?_
  rw [Bool.and_eq_true, bne_iff_ne, beq_iff_eq]
  exact ⟨hd, hp⟩

theorem written_l2WriteBack {s : State} {line : Nat} {ln : L2Line} (h : l2Find s line = some ln)
    (hp : ln.cmp / 2 = 0 ∨ hbmSize ≤ line * 128) (hd : ln.dirty ≠ 0) :
    l2Find (l2WriteBack s line) line = none ∧
      (∀ a, a / 128 ≠ line → memByte (l2WriteBack s line).mem a = memByte s.mem a) ∧
      ∀ k < 128, memByte (l2WriteBack s line).mem (128 * line + k) =
        if ln.dirty.testBit (k / 32) then (spFind ln.bytes k).getD 0 else memByte s.mem (128 * line + k) := by
  refine ⟨l2Find_l2WriteBack h hp hd, fun a ha => ?_, fun k hk => ?_⟩
  · rw [memByte_l2WriteBack h hp hd, if_neg fun hc => ha hc.1]
  · have hline : (128 * line + k) / 128 = line := by omega
    have hmod : (128 * line + k) % 128 = k := by omega
    rw [memByte_l2WriteBack h hp hd, hline, hmod, bitOf_eq_testBit]
    exact if_congr (by rw [eq_self, true_and]) rfl rfl

theorem lineBack_writes (s : State) (part line : Nat) (ln : L2Line) (h : l2Find s line = some ln)
    (hp : lineHolder s line ln = part) (hc : ln.cmp / 2 = 0 ∨ hbmSize ≤ line * 128) :
    let written (t : State) : Prop := l2Find t line = none ∧ (∀ a, a / 128 ≠ line → memByte t.mem a = memByte s.mem a) ∧
      ∀ k < 128, memByte t.mem (128 * line + k) =
        if ln.dirty.testBit (k / 32) then (spFind ln.bytes k).getD 0 else memByte s.mem (128 * line + k)
    (ln.valid = 15 → ln.dirty ≠ 0 → ∃ t, exec (.fullBlockWrite part line) s = .next t ∧ written t) ∧
    (ln.valid ≠ 15 → ln.dirty ≠ 0 → ∃ t, exec (.partialWrite part line) s = .next t ∧ written t) := by
  refine ⟨fun hv hd => ⟨l2WriteBack s line, ?_, written_l2WriteBack h hc hd⟩,
    fun hv hd => ⟨l2WriteBack s line, ?_, written_l2WriteBack h hc hd⟩⟩
  · show settle s (tryFullBlockWrite part line s) = _
    unfold tryFullBlockWrite
    simp only [dirtyLine_eq h hp hd, hv, if_true]
    rfl
  · show settle s (tryPartialWrite part line s) = _
    unfold tryPartialWrite
    simp only [dirtyLine_eq h hp hd, hv, if_false]
    rfl

/-! ## Errors and retries -/

/-- What a poisoned place leaves: the messages, and the counts of errors. -/
def counts (s : State) : List HostMsg × (Nat → Nat) := (s.hostMsgs, fun p => (getPart s p).rasLasting)

theorem counts_modPart (s : State) (q : Nat) (F : Partition → Partition) (hF : ∀ p, (F p).rasLasting = p.rasLasting) :
    counts (modPart s q F) = counts s := by
  refine congrArg (Prod.mk s.hostMsgs) (funext fun p => ?_)
  rw [getPart_modPart]
  split
  · exact hF _
  · rfl

theorem counts_l2Drop (s : State) (line : Nat) : counts (l2Drop s line) = counts s := by
  unfold l2Drop
  split
  · exact counts_modPart _ _ _ fun _ => rfl
  · exact foldl_same counts (fun t k => counts_modPart t k (fun p => { p with l2 := spDel p.l2 line }) fun _ => rfl) _ _

theorem counts_setPoison (s : State) (loc : Nat) (on : Bool) : counts (setPoison s loc on) = counts s := rfl

theorem counts_ctlStore (s : State) (cmp line : Nat) (bytes : List Byte) (bad : Nat) :
    counts (ctlStore s cmp line bytes bad) = counts s := by
  unfold counts getPart
  have hm := congrArg State.hostMsgs (ctlStore_offLines s cmp line bytes bad)
  have hh : (ctlStore s cmp line bytes bad).hostMsgs = s.hostMsgs := hm
  rw [hh, ctlStore_parts]

theorem counts_hbmError (s : State) (loc : Nat) : counts (hbmError s loc) = counts s := by
  unfold hbmError
  dsimp only
  split
  · exact counts_setPoison ..
  · next ln _ =>
    generalize (match nibbleOf s ln.cmp (loc / 128 * 128) with
      | some n => decide (loc % 128 < 32 * n)
      | none => true) = read
    exact apply_ite_eq counts ((counts_ctlStore ..).trans (counts_l2Drop ..)) (counts_setPoison ..)

theorem counts_l2Mark (s : State) (w : Nat) (on : Bool) : counts (l2Mark s w on) = counts s := by
  unfold l2Mark
  split
  · split
    · exact counts_modPart _ _ _ fun _ => rfl
    · rfl
  · rfl

theorem counts_poisonPlace (s : State) (p : EccPlace) : counts (poisonPlace s p) = counts s := by
  cases p with
  | hbm loc => exact counts_hbmError s loc
  | l2 part loc => exact counts_l2Mark s (loc / 8) true
  | nibble _ _ | inband _ | l1 _ _ | scratch _ _ | canister _ _ | queueBuf _ _ _ _ | vreg _ _ _ | sreg _ _ | matrix _
    | barista _ => rfl

/-- The message and the count of a lasting error. -/
theorem error_reported {s t : State} (h : counts t = counts s) (part : Nat) :
    (msix (rasLasting t part) part 2).hostMsgs = s.hostMsgs ++ [.msix (4 * part + 2)] ∧
      (getPart (msix (rasLasting t part) part 2) part).rasLasting = min ((getPart s part).rasLasting + 1) (2 ^ 32 - 1) := by
  refine ⟨congrArg (· ++ [HostMsg.msix (4 * part + 2)]) (congrArg Prod.fst h), ?_⟩
  have hc : (getPart t part).rasLasting = (getPart s part).rasLasting := congrFun (congrArg Prod.snd h) part
  show (getPart (rasLasting t part) part).rasLasting = _
  unfold rasLasting
  rw [getPart_modPart, if_pos rfl, ← hc]

/-- A replayed operation changes groups and operations alone. -/
def offGroups (s : State) : State := { s with groups := [], ops := [] }

theorem offGroups_discardMatrix (s : State) (core : Nat) : offGroups (discardMatrix s core) = offGroups s := by
  unfold discardMatrix
  refine foldl_same offGroups (fun t e => ?_) _ _
  unfold replayOp
  split
  · split
    · split <;> rfl
    · rfl
  · rfl

theorem discardMatrix_none {s : State} (h : ∀ e ∈ s.ops, e.2.replay = none) (core : Nat) : discardMatrix s core = s := by
  unfold discardMatrix
  dsimp only
  rw [List.filter_eq_nil_iff.2 fun e he => by rw [h e he]; exact Bool.false_ne_true]
  rfl

/-! ## The clauses -/

theorem eccRetry_eq {s : State} {p : EccPlace} (h : eccExists s p = true) (ok : Bool) : exec (.eccRetry p ok) s =
    .next (if ok then rasTransient s (eccPart s p) else retryFailed s p) := by
  show settle s (tryEccRetry p ok s) = _
  unfold tryEccRetry
  rw [h]
  rfl

/-- A failed retry is reported for the partition of the place. -/
theorem retryFailed_reported (s : State) (p : EccPlace) :
    (retryFailed s p).hostMsgs = s.hostMsgs ++ [.msix (4 * eccPart s p + 2)] ∧
      (getPart (retryFailed s p) (eccPart s p)).rasLasting = min ((getPart s (eccPart s p)).rasLasting + 1) (2 ^ 32 - 1) := by
  cases p with
  | matrix core =>
    refine error_reported (t := modCore (discardMatrix s core) core fun k => { k with fenced := true }) ?_ _
    show counts (offGroups (discardMatrix s core)) = counts (offGroups s)
    exact congrArg counts (offGroups_discardMatrix s core)
  | barista k =>
    have h : counts (modCluster s k fun x => { x with fenced := true }) = counts s := rfl
    exact error_reported h (partOfCluster s k)
  | hbm _ | l2 _ _ | nibble _ _ | inband _ | l1 _ _ | scratch _ _ | canister _ _ | queueBuf _ _ _ _ | vreg _ _ _ | sreg _ _ =>
    exact error_reported (counts_poisonPlace s _) (eccPart s _)

theorem hbmError_poisons {s : State} {loc : Nat}
    (h : ∀ ln, l2Find s (loc / 128) = some ln → ln.dirty = 0 ∨ ln.valid = 15 ∨ ln.cmp / 2 = 0) :
    poisonedWord (hbmError s loc) loc = true := by
  have hset (t : State) : poisonedWord (setPoison t loc true) loc = true := by
    unfold poisonedWord setPoison
    rw [spGet_spSet_self, Bool.or_true]
  unfold hbmError
  dsimp only
  split
  · exact hset s
  · next ln hl =>
    rw [if_neg ?_]
    · exact hset s
    · rcases h ln hl with h | h | h <;> simp [h]

theorem l2Mark_bad {s : State} {loc : Nat} (h : l2Has s loc = true) (c : Nat) : l2Bad (l2Mark s (loc / 8) true) c loc = true := by
  have hline : loc / 8 / 16 = loc / 128 := by omega
  have hsec : loc / 8 % 16 / 4 = loc % 128 / 32 := by omega
  have hword : loc / 8 % 16 = loc % 128 / 8 := by omega
  unfold l2Has at h
  split at h
  · next ln hl =>
    unfold l2Mark
    rw [hline, hl, hsec, hword]
    dsimp only
    rw [if_pos h]
    unfold l2Bad
    have hp : Placed s (loc / 128) { ln with bad := putBit ln.bad (loc % 128 / 8) true } := placed_of_l2Find (ln := ln) hl
    rw [l2Find_l2Set hp]
    refine (if_pos h).trans ?_
    show bitOf (putBit ln.bad (loc % 128 / 8) true) (loc % 128 / 8) = true
    rw [bitOf_putBit, if_pos rfl]
  · cases h

theorem l2Bad_rasLasting (s : State) (part : Nat) : l2Bad (rasLasting s part) = l2Bad s := by
  have hfind : l2Find (rasLasting s part) = l2Find s :=
    l2Find_modPart s part (fun p => { p with rasLasting := min (p.rasLasting + 1) (2 ^ 32 - 1) }) fun _ => rfl
  have hbad : ctlBad (rasLasting s part) = ctlBad s :=
    (sameBlocks_modPart s part (fun p => { p with rasLasting := min (p.rasLasting + 1) (2 ^ 32 - 1) }) fun _ => rfl).ctlBad
  funext c loc
  unfold l2Bad
  rw [hfind, hbad]

theorem vreg_poisoned {s : State} {gid reg lane : Nat} (h : eccExists s (.vreg gid reg lane) = true) :
    ∃ g, getGroup (retryFailed s (.vreg gid reg lane)) gid = some g ∧ g.badV reg lane = true := by
  unfold eccExists at h
  dsimp only at h
  split at h
  · next g hg =>
    refine ⟨{ g with vpoison := spSet false g.vpoison (64 * reg + lane) true }, ?_, ?_⟩
    · show getGroup (modGroup s gid _) gid = _
      rw [getGroup_modGroup, if_pos rfl, hg]
      rfl
    · unfold Group.badV
      rw [Nat.mul_comm reg 64, spGet_spSet_self]
  · cases h

theorem sreg_poisoned {s : State} {gid reg : Nat} (h : eccExists s (.sreg gid reg) = true) :
    ∃ g, getGroup (retryFailed s (.sreg gid reg)) gid = some g ∧ g.badS reg = true := by
  unfold eccExists at h
  dsimp only at h
  split at h
  · next g hg =>
    refine ⟨{ g with spoison := spSet false g.spoison reg true }, ?_, ?_⟩
    · show getGroup (modGroup s gid _) gid = _
      rw [getGroup_modGroup, if_pos rfl, hg]
      rfl
    · unfold Group.badS
      rw [spGet_spSet_self]
  · cases h

theorem inband_poisoned (s : State) (loc : Nat) : nibbleOf (retryFailed s (.inband loc)) 1 loc = none := by
  unfold nibbleOf
  rw [if_pos rfl, if_neg ?_]
  show ¬spGet 0 (spSet 0 s.nibbles (loc / 128) (spGet 0 s.nibbles (loc / 128) % 16 + 16)) (loc / 128) < 16
  rw [spGet_spSet_self]
  omega

theorem coreFenced_fenceCore (s : State) (core : Nat) : coreFenced (fenceCore s core) core = true := by
  unfold coreFenced
  have h : (getCore (fenceCore s core) core).fenced = true := congrArg Core.fenced (spGet_spSet_self ..)
  rw [h, Bool.true_or]

theorem fenced_fenceCluster (s : State) (k : Nat) : (getCluster (fenceCluster s k) k).fenced = true :=
  congrArg Cluster.fenced (spGet_spSet_self ..)

/-- Settles O53: a line's stores reach the L2 in order, its dirty sectors reach memory, and a failed retry poisons its place. -/
theorem memoryControllers : Obligations.MemoryControllers := by
  unfold Obligations.MemoryControllers
  refine ⟨l1Overflow_writes, lineBack_writes, ?_, ?_, ?_⟩
  · intro s p h
    obtain ⟨hmsg, hcount⟩ := retryFailed_reported s p
    refine ⟨eccRetry_eq h true, retryFailed s p, eccRetry_eq h false, hmsg, hcount, ?_, ?_, ?_, ?_, ?_, ?_, ?_⟩
    · rintro gid reg lane rfl; exact vreg_poisoned h
    · rintro gid reg rfl; exact sreg_poisoned h
    · rintro loc rfl hl; exact hbmError_poisons hl
    · rintro loc rfl; exact inband_poisoned s loc
    · rintro part loc rfl c
      have hhas : l2Has s loc = true := by
        unfold eccExists at h
        rw [Bool.and_eq_true, Bool.and_eq_true] at h
        exact h.1.2
      have hret : l2Bad (retryFailed s (.l2 part loc)) = l2Bad (rasLasting (l2Mark s (loc / 8) true) part) := rfl
      rw [hret, l2Bad_rasLasting]
      exact l2Mark_bad hhas c
    · rintro core rfl; exact coreFenced_fenceCore s core
    · rintro k rfl; exact fenced_fenceCluster s k
  · intro s core hlt hf
    obtain ⟨hmsg, -⟩ := retryFailed_reported s (.matrix core)
    refine ⟨fenceCore s core, ?_, coreFenced_fenceCore s core, fun hops => ?_, ?_, hmsg⟩
    · show settle s (tryArrayFence false core s) = _
      unfold tryArrayFence
      rw [if_neg Bool.false_ne_true, if_neg (not_or.2 ⟨Nat.not_le.2 hlt, by rw [hf]; exact Bool.false_ne_true⟩)]
      rfl
    · unfold fenceCore
      rw [discardMatrix_none hops]
      rfl
    · have h := congrArg State.mem (offGroups_discardMatrix s core)
      exact h
  · intro s k hlt hf
    refine ⟨fenceCluster s k, ?_, fun core _ hk => ?_, rfl, rfl⟩
    · show settle s (tryArrayFence true k s) = _
      unfold tryArrayFence
      rw [if_pos rfl, if_neg (not_or.2 ⟨Nat.not_le.2 hlt, by rw [hf]; exact Bool.false_ne_true⟩)]
      rfl
    · unfold coreFenced
      rw [hk, fenced_fenceCluster, Bool.or_true]

end Sys2Proof.Claims
end

section
/-!
SUPPORT. Atomics at their home slice (04 R84 to R86, R98; 05 R107, R113; 14 R334 to R337).
-/
namespace Sys2Proof.Claims
open Sys2Proof.Machine

/-! ## What a read and write of one unit leaves -/

/-- What an atomic hands on, and the message that it leaves. -/
theorem rmwMsg_got (s : State) (ag : Agent) (prior : List Msg) (cmp va : Nat) (v : List Byte × Bool) (k n : Nat)
    (f : List Byte → List Byte) (rels : List RelInfo) :
    let q := rmwMsg s ag prior cmp va v k n f rels
    q.1.bytes = (v.1.drop k).take n ∧ q.1.bad = v.2 ∧ q.2.2.bytes = unitCells k (f ((v.1.drop k).take n)) ∧
      q.2.2.bad = v.2 ∧ q.2.2.cmp = cmp := ⟨rfl, rfl, rfl, rfl, rfl⟩

/-- A state that differs in what agents know and in the number of stores made. -/
def Knows (s t : State) : Prop := ∃ k n, t = { s with know := k, stores := n }

theorem Knows.trans {s t u : State} (h : Knows s t) (h' : Knows t u) : Knows s u := by
  obtain ⟨k, n, rfl⟩ := h
  obtain ⟨k', n', rfl⟩ := h'
  exact ⟨k', n', rfl⟩

theorem Knows.refl (s : State) : Knows s s := ⟨_, _, rfl⟩

theorem Knows.store {s t : State} (h : Knows s t) : SameStore s t := by
  obtain ⟨k, n, rfl⟩ := h
  exact ⟨rfl, rfl, rfl, rfl, rfl, rfl, rfl, rfl, rfl⟩

theorem knows_noteRead (s : State) (ag : Agent) (ms : List (Msg × Nat)) : Knows s (noteRead s ag ms) := by
  unfold noteRead
  dsimp only
  split
  · exact Knows.refl s
  · exact ⟨_, _, rfl⟩

theorem knows_acquire (s : State) (ag : Agent) (k : Nat) (rels : List RelInfo) : Knows s (acquire s ag k rels) := by
  obtain ⟨n, hn⟩ := learn_know s ag _
  exact ⟨n, s.stores, hn⟩

theorem knows_rmwMsg (s : State) (ag : Agent) (prior : List Msg) (cmp va : Nat) (v : List Byte × Bool) (k n : Nat)
    (f : List Byte → List Byte) (rels : List RelInfo) : Knows s (rmwMsg s ag prior cmp va v k n f rels).2.1 :=
  (knows_noteRead ..).trans ⟨_, _, rfl⟩

theorem knows_noteStore (s : State) (ag : Agent) (m : Msg) : Knows s (noteStore s ag m) := ⟨_, _, rfl⟩

/-- A unit that is neither a message of the memory controllers nor of a link is performed at the L2. -/
theorem rmwUnit_eq (s : State) (ag : Agent) {cmp kind va loc n : Nat} (f : List Byte → List Byte) (rels : List RelInfo)
    (h1 : kind ≠ 1) (h3 : kind ≠ 3) (hloc : loc < 2 ^ 66) : rmwUnit s ag cmp kind va loc n f rels =
    let q := rmwMsg s ag (histOf s cmp (loc / 8)).msgs cmp va (l2Word s cmp (loc / 8)) (loc % 8) n f rels
    (q.1, publish q.2.1 (loc / 8) q.2.2) := by
  unfold rmwUnit
  dsimp only
  rw [if_neg h3, if_neg h1, if_pos rfl]
  simp only [if_true, if_pos hloc]

/-- The bytes of a word from one of its places on. -/
theorem word_drop_take (s : State) (cmp : Nat) {loc n : Nat} (h : loc % 8 + n ≤ 8) :
    ((l2Word s cmp (loc / 8)).1.drop (loc % 8)).take n = l2Bytes s cmp loc n := by
  refine List.ext_getElem ?_ fun i hi hi' => ?_
  · rw [List.length_take, List.length_drop, l2Word_length, length_l2Bytes]
    omega
  · rw [length_l2Bytes] at hi'
    have hadd : 8 * (loc / 8) + (loc % 8 + i) = loc + i := by omega
    have hl : (l2Bytes s cmp loc n).getD i 0 = l2Byte s cmp (loc + i) := getD_l2Bytes s cmp loc hi'
    have hr : (l2Word s cmp (loc / 8)).1.getD (loc % 8 + i) 0 = l2Byte s cmp (8 * (loc / 8) + (loc % 8 + i)) :=
      getD_l2Bytes s cmp (8 * (loc / 8)) (by omega)
    rw [hadd] at hr
    rw [List.getElem_take, List.getElem_drop]
    rw [List.getD_eq_getElem _ _ (by rw [length_l2Bytes]; exact hi')] at hl
    rw [List.getD_eq_getElem _ _ (by rw [l2Word_length]; omega)] at hr
    exact hr.trans hl.symm

/-- What a unit's read and write returns and leaves. -/
theorem rmwUnit_leaves (s : State) (ag : Agent) {cmp kind va loc n : Nat} (f : List Byte → List Byte) (rels : List RelInfo)
    (h1 : kind ≠ 1) (h3 : kind ≠ 3) (hloc : loc + n ≤ 2 ^ 39) (hn : 0 < n) (hw : loc % 8 + n ≤ 8)
    (hf : (f (l2Bytes s cmp loc n)).length = n) (hc : ∀ ln, l2Find s (loc / 128) = some ln → ln.cmp = cmp) :
    let q := rmwUnit s ag cmp kind va loc n f rels
    q.1.bytes = l2Bytes s cmp loc n ∧ q.1.bad = l2Bad s cmp (loc / 8 * 8) ∧
      l2Bytes q.2 cmp loc n = f (l2Bytes s cmp loc n) ∧ q.2.mem = s.mem ∧ q.2.cores = s.cores ∧ q.2.groups = s.groups ∧
      ∀ k, ¬(loc ≤ k ∧ k < loc + n) → l2Byte q.2 cmp k = l2Byte s cmp k := by
  intro q
  have heq : q = _ := rmwUnit_eq s ag f rels h1 h3 (by omega)
  have hk := knows_rmwMsg s ag (histOf s cmp (loc / 8)).msgs cmp va (l2Word s cmp (loc / 8)) (loc % 8) n f rels
  obtain ⟨hb, hbad, hm, -, hcmp⟩ := rmwMsg_got s ag (histOf s cmp (loc / 8)).msgs cmp va (l2Word s cmp (loc / 8)) (loc % 8) n f rels
  generalize rmwMsg s ag (histOf s cmp (loc / 8)).msgs cmp va (l2Word s cmp (loc / 8)) (loc % 8) n f rels = r at heq hk hb hbad hm hcmp
  have hs := hk.store
  rw [word_drop_take s cmp hw] at hb hm
  have hlocEx : locExists (8 * (loc / 8)) = true := locExists_iff.2 (.inl (by show 8 * (loc / 8) < 2 ^ 39; omega))
  have hline : 8 * (loc / 8) / 128 = loc / 128 := by omega
  have hlc : (lineOf r.2.1 r.2.2.cmp (8 * (loc / 8))).cmp = r.2.2.cmp := by
    refine lineOf_cmp (by show 8 * (loc / 8) < 2 ^ 39; omega) fun ln hl => ?_
    rw [hline, hs.l2Find] at hl
    rw [hcmp, hc ln hl]
  rw [heq]
  have hcores : r.2.1.cores = s.cores ∧ r.2.1.groups = s.groups := by
    obtain ⟨k, m, hk⟩ := hk
    rw [hk]
    exact ⟨rfl, rfl⟩
  refine ⟨hb, ?_, ?_, ?_, (publish_cores _ ..).trans hcores.1, (publish_groups _ ..).trans hcores.2, fun k hout => ?_⟩
  · rw [hbad, Nat.mul_comm]
    rfl
  · conv_lhs => rw [← hf]
    refine l2Bytes_eq_of fun i hi => ?_
    have hadd : 8 * (loc / 8) + (loc % 8 + i) = loc + i := by omega
    rw [← hadd]
    exact l2Byte_publish_unit r.2.1 (loc / 8) hm (by omega) cmp hi
  · refine (l2SetWord_mem r.2.2.cmp _ hlocEx).trans hs.mem
  · have h := l2Byte_publish_ne r.2.1 (loc / 8) hm hlocEx hlc (a := k) (by omega)
    rw [hcmp, hs.l2Byte] at h
    exact h

/-! ## One atomic at its slice -/

/-- The release edge that an atomic makes. -/
def atomRels (t : State) (a : AtomReq) : List RelInfo :=
  match a.release with
  | some k => [releaseOf t (.thread a.gid a.lane) k]
  | none => []

/-- The state in which an atomic is performed: its thread knows what it knew at the issue. -/
def atIssue (s : State) (a : AtomReq) : State :=
  let key := (Agent.thread a.gid a.lane).key
  { s with know := spSet {} s.know key { a.know with later := madeSince (spGet {} s.know key) a.know.atIssue } }

theorem homeAtomic_eq (s : State) (a : AtomReq) : ∃ know, homeAtomic s a =
    let u := rmwUnit (atIssue s a) (.thread a.gid a.lane) a.cmp a.kind a.va a.loc a.size a.over (atomRels (atIssue s a) a)
    (u.1, match a.acquire with
      | some k => acquire { u.2 with know := know } (.thread a.gid a.lane) k u.1.rels
      | none => { u.2 with know := know }) := ⟨_, rfl⟩

theorem length_over (a : AtomReq) (bytes : List Byte) : (a.over bytes).length = a.size := length_leBytes ..

/-- The new value of an atomic. -/
theorem over_eq (a : AtomReq) (bytes : List Byte) : a.over bytes = leBytes a.size
    (if a.cas then (if leNat bytes = a.compare then a.operand else leNat bytes)
      else atomNew a.code (8 * a.size) a.scale (leNat bytes) a.operand) := by
  unfold AtomReq.over
  simp only [beq_iff_eq]

theorem homeAtomic_leaves (s : State) (a : AtomReq) (h1 : a.kind ≠ 1) (h3 : a.kind ≠ 3) (hsize : a.size = 4 ∨ a.size = 8)
    (hal : a.loc % a.size = 0) (hloc : a.loc < 2 ^ 39) (hc : ∀ ln, l2Find s (a.loc / 128) = some ln → ln.cmp = a.cmp) :
    let t := (homeAtomic s a).2
    let old := leNat (l2Bytes s a.cmp a.loc a.size)
    let new := if a.cas then (if old = a.compare then a.operand else old)
      else atomNew a.code (8 * a.size) a.scale old a.operand
    (homeAtomic s a).1.bytes = l2Bytes s a.cmp a.loc a.size ∧
    (homeAtomic s a).1.bad = l2Bad s a.cmp (a.loc / 8 * 8) ∧
    l2Bytes t a.cmp a.loc a.size = leBytes a.size new ∧ t.mem = s.mem ∧ t.cores = s.cores ∧ t.groups = s.groups ∧
    ∀ k, ¬(a.loc ≤ k ∧ k < a.loc + a.size) → l2Byte t a.cmp k = l2Byte s a.cmp k := by
  intro t old new
  have hfit : a.loc + a.size ≤ 2 ^ 39 ∧ a.loc % 8 + a.size ≤ 8 ∧ 0 < a.size := by
    rcases hsize with h | h <;> rw [h] at hal ⊢ <;> omega
  obtain ⟨hend, hword, hpos⟩ := hfit
  have hs : SameStore s (atIssue s a) := ⟨rfl, rfl, rfl, rfl, rfl, rfl, rfl, rfl, rfl⟩
  obtain ⟨know, heq⟩ := homeAtomic_eq s a
  have hu := rmwUnit_leaves (atIssue s a) (.thread a.gid a.lane) (va := a.va) a.over (atomRels (atIssue s a) a) h1 h3 hend hpos
    hword (length_over a _) (by rw [hs.l2Find]; exact hc)
  generalize rmwUnit (atIssue s a) (.thread a.gid a.lane) a.cmp a.kind a.va a.loc a.size a.over (atomRels (atIssue s a) a) = u
    at heq hu
  rw [hs.l2Bytes, hs.l2Bad, hs.l2Byte] at hu
  obtain ⟨hbytes, hbad, hnew, hmem, hcores, hgroups, hrest⟩ := hu
  have hk : Knows u.2 t := by
    show Knows u.2 (homeAtomic s a).2
    rw [heq]
    dsimp only
    cases a.acquire with
    | none => exact ⟨_, _, rfl⟩
    | some k => exact Knows.trans ⟨know, _, rfl⟩ (knows_acquire ..)
  have hgot : (homeAtomic s a).1 = u.1 := by rw [heq]
  have hsame : t.cores = u.2.cores ∧ t.groups = u.2.groups := by
    obtain ⟨k, n, hk⟩ := hk
    rw [hk]
    exact ⟨rfl, rfl⟩
  rw [hgot, hk.store.l2Bytes, hk.store.l2Byte, hk.store.mem, hsame.1, hsame.2]
  exact ⟨hbytes, hbad, hnew.trans (over_eq a _), hmem, hcores, hgroups, hrest⟩

/-! ## The edges of an atomic -/

/-- What a message at the home slice returns does not depend on what its thread knows. -/
theorem rmwUnit_got_congr (s : State) (k : SMap Know) (ag : Agent) {cmp kind va loc n : Nat} (f : List Byte → List Byte)
    (h3 : kind ≠ 3) (rels : List RelInfo) :
    (rmwUnit { s with know := k } ag cmp kind va loc n f rels).1 = (rmwUnit s ag cmp kind va loc n f rels).1 := by
  have hs : SameStore s { s with know := k } := ⟨rfl, rfl, rfl, rfl, rfl, rfl, rfl, rfl, rfl⟩
  have hw : l2Word { s with know := k } = l2Word s := by
    funext cmp w
    unfold l2Word
    rw [hs.l2Bytes, hs.l2Bad]
  have hh : histOf { s with know := k } cmp (loc / 8) = histOf s cmp (loc / 8) := by
    unfold histOf
    rw [hw]
  unfold rmwUnit
  dsimp only
  rw [if_neg h3, if_neg h3, hh, hw]
  generalize histOf s cmp (loc / 8) = h
  generalize (if kind = 1 then beforeLinks h.msgs else h.msgs) = old
  by_cases hl : old.length = h.msgs.length
  · rw [if_pos hl, if_pos hl]
    rfl
  · rw [if_neg hl, if_neg hl]
    rfl

/-! The domain of a partition, and what an edge observes there, depend on the places of agents and on the routes alone. -/

def routes (s : State) (p : Nat) : SMap Quad := (getPart s p).route

section
variable {s t : State} (h : Quiet s t) (hr : routes t = routes s)
include h hr

theorem fabricDomain_congr : fabricDomain t = fabricDomain s := by
  have hmap : t.portMap = s.portMap := congrArg (·.portMap) h
  have hof : routeOf t = routeOf s := by
    funext p r
    exact congrArg (fun m => (spGet 0 m r).toNat) (congrFun hr p)
  funext p
  unfold fabricDomain routeParts routeOk ownsPort routeDevice partCount
  rw [hof, hmap, h.partCfg]

theorem observed_congr (r : RelInfo) (q : Place) (scope : Nat) : r.observed t q scope = r.observed s q scope := by
  unfold RelInfo.observed Place.holds
  rw [fabricDomain_congr h hr]

end

theorem place_congr {s t : State} (h : Quiet s t) (gid lane : Nat) :
    (Agent.thread gid lane).place t = (Agent.thread gid lane).place s := by
  unfold Agent.place
  rw [h.groups, h.teams]

theorem routes_modPart (s : State) (q : Nat) (F : Partition → Partition) (hF : ∀ p, (F p).route = p.route) :
    routes (modPart s q F) = routes s := by
  funext p
  unfold routes
  rw [getPart_modPart]
  split
  · exact hF _
  · rfl

theorem routes_l2Set (s : State) (line : Nat) (ln : L2Line) : routes (l2Set s line ln) = routes s :=
  routes_modPart s (lineHolder s line ln) (fun p => { p with l2 := spPut p.l2 line ln }) fun _ => rfl

theorem routes_l2SetWord (s : State) (cmp w : Nat) (v : List Byte × Bool) : routes (l2SetWord s cmp w v) = routes s := by
  cases he : locExists (8 * w) with
  | false => rw [l2SetWord_gap v he]; rfl
  | true =>
    rw [l2SetWord_eq v he]
    refine (routes_l2Set ..).trans ?_
    split
    · rfl
    · unfold countCorrupt
      split
      · exact routes_modPart _ _ (fun p => { p with rasLasting := min (p.rasLasting + 1) (2 ^ 32 - 1) }) fun _ => rfl
      · rfl

theorem routes_l2Drop (s : State) (line : Nat) : routes (l2Drop s line) = routes s := by
  unfold l2Drop
  split
  · exact routes_modPart s _ (fun p => { p with l2 := spDel p.l2 line }) fun _ => rfl
  · exact foldl_same routes (fun t k => routes_modPart t k (fun p => { p with l2 := spDel p.l2 line }) fun _ => rfl) _ _

theorem routes_of_parts {s t : State} (h : t.parts = s.parts) : routes t = routes s := by
  funext p
  unfold routes getPart
  rw [h]

theorem routes_rasLasting (s : State) (p : Nat) : routes (rasLasting s p) = routes s :=
  routes_modPart s p (fun p => { p with rasLasting := min (p.rasLasting + 1) (2 ^ 32 - 1) }) fun _ => rfl

theorem routes_ctlStore (s : State) (cmp line : Nat) (bytes : List Byte) (bad : Nat) :
    routes (ctlStore s cmp line bytes bad) = routes s := routes_of_parts (ctlStore_parts ..)

theorem routes_l2WriteBack (s : State) (line : Nat) : routes (l2WriteBack s line) = routes s := by
  unfold l2WriteBack
  split
  · rfl
  · next ln _ =>
    have hd := routes_l2Drop s line
    have hwords : routes ((List.range 16).foldl (wordOut line ln) (l2Drop s line)) = routes s :=
      (routes_of_parts (foldl_same State.parts (wordOut_parts line ln) _ _)).trans hd
    have hras (bytes : List Byte) (bad p : Nat) :
        routes (ctlStore (rasLasting (l2Drop s line) p) ln.cmp line bytes bad) = routes s :=
      (routes_ctlStore ..).trans ((routes_rasLasting ..).trans hd)
    have hplain (bytes : List Byte) (bad : Nat) : routes (ctlStore (l2Drop s line) ln.cmp line bytes bad) = routes s :=
      (routes_ctlStore ..).trans hd
    exact apply_ite_eq routes hd (apply_ite_eq routes hwords (apply_ite_eq routes (hplain ..)
      (apply_ite_eq routes (hras ..) (apply_ite_eq routes (hras ..) (hplain ..)))))

theorem Knows.quiet {s t : State} (h : Knows s t) : Quiet s t := by
  obtain ⟨k, n, rfl⟩ := h
  rfl

theorem Knows.routes {s t : State} (h : Knows s t) : routes t = Claims.routes s := by
  obtain ⟨k, n, rfl⟩ := h
  rfl

/-- An atomic at its slice moves what reads and stores move, and no route. -/
theorem rmwUnit_quiet (s : State) (ag : Agent) {cmp kind va loc n : Nat} (f : List Byte → List Byte) (h3 : kind ≠ 3)
    (rels : List RelInfo) : Quiet s (rmwUnit s ag cmp kind va loc n f rels).2 ∧
      routes (rmwUnit s ag cmp kind va loc n f rels).2 = routes s := by
  unfold rmwUnit
  dsimp only
  rw [if_neg h3]
  generalize histOf s cmp (loc / 8) = h
  generalize (if kind = 1 then beforeLinks h.msgs else h.msgs) = old
  have hc : Quiet s (if old.length = h.msgs.length then (true, s) else choose s).2 ∧
      routes (if old.length = h.msgs.length then (true, s) else choose s).2 = routes s := by
    split <;> exact ⟨rfl, rfl⟩
  generalize (if old.length = h.msgs.length then (true, s) else choose s) = c at hc
  have hk := knows_rmwMsg c.2 ag (if c.1 then h.msgs else old) cmp va
    (if c.1 then l2Word s cmp (loc / 8) else h.after old) (loc % 8) n f rels
  generalize rmwMsg c.2 ag (if c.1 then h.msgs else old) cmp va
    (if c.1 then l2Word s cmp (loc / 8) else h.after old) (loc % 8) n f rels = q at hk
  have hq : Quiet s (publish q.2.1 (loc / 8) q.2.2) := hc.1.trans (hk.quiet.trans (quiet_publish ..))
  have hr : routes (publish q.2.1 (loc / 8) q.2.2) = routes s := (routes_l2SetWord ..).trans (hk.routes.trans hc.2)
  split
  · exact ⟨hq, hr⟩
  · exact ⟨hq.trans (quiet_of_offLines (l2WriteBack_offLines ..)), (routes_l2WriteBack ..).trans hr⟩

theorem homeAtomic_learns (s : State) (a : AtomReq) (k : Nat) (r : RelInfo) (hacq : a.acquire = some k) (hrel : a.release = none)
    (h3 : a.kind ≠ 3)
    (hr : r ∈ (rmwUnit { s with know := spSet {} s.know (Agent.thread a.gid a.lane).key a.know } (.thread a.gid a.lane) a.cmp
      a.kind a.va a.loc a.size a.over []).1.rels)
    (ho : r.observed s ((Agent.thread a.gid a.lane).place s) k = true) :
    ∀ id ∈ r.ids, id ∈ (getKnow (homeAtomic s a).2 (.thread a.gid a.lane)).hb := by
  intro id hid
  obtain ⟨know, heq⟩ := homeAtomic_eq s a
  have hnone : atomRels (atIssue s a) a = [] := by
    unfold atomRels
    rw [hrel]
  rw [rmwUnit_got_congr s _ _ _ h3] at hr
  have hgot := rmwUnit_got_congr s (atIssue s a).know (.thread a.gid a.lane) (cmp := a.cmp) (va := a.va) (loc := a.loc)
    (n := a.size) a.over h3 []
  have hq : Quiet s (rmwUnit (atIssue s a) (.thread a.gid a.lane) a.cmp a.kind a.va a.loc a.size a.over []).2 ∧
      routes (rmwUnit (atIssue s a) (.thread a.gid a.lane) a.cmp a.kind a.va a.loc a.size a.over []).2 = routes s :=
    rmwUnit_quiet (atIssue s a) (.thread a.gid a.lane) a.over h3 []
  rw [heq, hnone, hacq]
  have hgot' : (rmwUnit (atIssue s a) (.thread a.gid a.lane) a.cmp a.kind a.va a.loc a.size a.over []).1 = _ := hgot
  generalize rmwUnit (atIssue s a) (.thread a.gid a.lane) a.cmp a.kind a.va a.loc a.size a.over [] = u at hq hgot'
  have hquiet : Quiet s { u.2 with know := know } := hq.1.trans rfl
  have hroutes : routes { u.2 with know := know } = routes s := hq.2
  refine learn_learns _ _ (List.mem_append_left _ (List.mem_append_left _ (List.mem_flatMap.2 ⟨r, List.mem_filter.2 ⟨?_, ?_⟩, hid⟩)))
  · show r ∈ u.1.rels
    rw [hgot']
    exact hr
  · rw [place_congr hquiet, observed_congr hquiet hroutes]
    exact ho

/-! ## The clauses -/

/-- A slice's oldest request hands what it has read to its operation. -/
theorem homeSlice_performs (s : State) (part : Nat) (a : AtomReq) (rest : List AtomReq)
    (h : (getPart s part).atoms = a :: rest) (hslice : ∀ b ∈ rest, b.slice = a.slice) :
    let q := homeAtomic (modPart s part fun p => { p with atoms := rest }) a
    let old := leNat q.1.bytes
    let ws := (match a.dst with
        | some k => blockWrites (.v k) (if a.size = 8 then 2 else 1) a.lane old q.1.bad
        | none => []) ++ (if a.cas && a.dst.isSome then [.pred 47 a.lane (decide (old = a.compare))] else [])
    exec (.homeSliceAtomic part) s = .next (feedOp q.2 a.op ws) := by
  have hskip : ∀ l : List AtomReq, (∀ b ∈ l, b.slice = a.slice) → sliceHeads [a.slice] l = [] := by
    intro l
    induction l with
    | nil => exact fun _ => rfl
    | cons b r ih =>
      intro hl
      unfold sliceHeads
      rw [hl b (List.mem_cons_self ..), if_pos (by simp)]
      exact ih fun x hx => hl x (List.mem_cons_of_mem _ hx)
  have hheads : sliceHeads [] (a :: rest) = [a] := congrArg (a :: ·) (hskip rest hslice)
  have hmod : (modPart s part fun p => { p with atoms := p.atoms.erase a }) = modPart s part fun p => { p with atoms := rest } := by
    have herase : (getPart s part).atoms.erase a = rest := by rw [h, List.erase_cons_head]
    exact congrArg (fun l => setPart s part { getPart s part with atoms := l }) herase
  have hregs : blockRegs (if a.size = 8 then 3 else 2) = if a.size = 8 then 2 else 1 := by
    by_cases hs : a.size = 8
    · rw [if_pos hs, if_pos hs]; rfl
    · rw [if_neg hs, if_neg hs]; rfl
  show settle s (tryHomeSliceAtomic part s) = _
  unfold tryHomeSliceAtomic
  rw [h, hheads]
  show Host.Outcome.next _ = _
  rw [← hmod, ← hregs]
  rfl

/-- Settles O32: the oldest request of a slice is performed at once, and changes its own bytes alone. -/
theorem homeSliceAtomics : Obligations.HomeSliceAtomics := by
  unfold Obligations.HomeSliceAtomics
  refine ⟨homeSlice_performs, fun s part h => ?_, fun s a h1 h3 hs hal hloc hc => homeAtomic_leaves s a h1 h3 hs hal hloc hc,
    fun s a k r hacq hrel h3 hr ho => homeAtomic_learns s a k r hacq hrel h3 hr ho, fun s cmp w v hv hb hc => ?_⟩
  · show settle s (tryHomeSliceAtomic part s) = _
    unfold tryHomeSliceAtomic
    rw [h]
    rfl
  · have hloc : locExists (8 * w) = true := locExists_iff.2 (.inl (by show 8 * w < 2 ^ 39; omega))
    have hline : 8 * w / 128 = w / 16 := by omega
    have hcmp : (lineOf s cmp (8 * w)).cmp = cmp :=
      lineOf_cmp (by show 8 * w < 2 ^ 39; omega) fun ln hl => hc ln (hline ▸ hl)
    refine ⟨?_, l2SetWord_mem cmp v hloc, l2SetWord_cores s cmp w v,
      fun a ha => l2Byte_l2SetWord_ne s cmp w hv cmp ha (.inr (.inr ⟨hloc, hcmp⟩))⟩
    refine Prod.ext ?_ (l2Bad_l2SetWord_self s cmp w v cmp hloc)
    show l2Bytes (l2SetWord s cmp w v) cmp (8 * w) 8 = v.1
    refine (congrArg (l2Bytes _ cmp (8 * w)) hv.symm).trans (l2Bytes_eq_of fun i hi => ?_)
    have hmod : (8 * w + i) % 8 = i := by omega
    rw [l2Byte_l2SetWord_self s cmp w hv cmp (by omega), hmod]

end Sys2Proof.Claims
end

section
/-!
SUPPORT. Ordered sections and their counters (02 R27; 16 R396).
-/
namespace Sys2Proof.Claims
open Sys2Proof.Machine

/-! ## Lanes and masks -/

theorem getLsbD_foldl_laneBit (ls : List Nat) (m : Mask) {i : Nat} (hi : i < 64) :
    (ls.foldl (fun m l => m ||| laneBit l) m).getLsbD i = (m.getLsbD i || decide (i ∈ ls)) := by
  induction ls generalizing m with
  | nil => simp
  | cons l r ih =>
    rw [List.foldl_cons, ih, BitVec.getLsbD_or, getLsbD_laneBit hi, Bool.or_assoc, ← Bool.decide_or]
    simp only [List.mem_cons]

theorem maskOf_lanesOf (m : Mask) : Machine.maskOf (lanesOf m) = m := by
  refine BitVec.eq_of_getLsbD_eq fun i hi => ?_
  rw [Machine.maskOf, getLsbD_foldl_laneBit _ _ hi]
  simp [mem_lanesOf, hi]

theorem eraseDups_of_nodup {l : List Nat} (h : l.Nodup) : l.eraseDups = l := by
  induction l with
  | nil => rfl
  | cons a r ih =>
    obtain ⟨ha, hr⟩ := List.nodup_cons.1 h
    have hf : (r.filter fun b => !b == a) = r := List.filter_eq_self.2 fun b hb => by
      have : b ≠ a := fun he => ha (he ▸ hb)
      simp [this]
    rw [List.eraseDups_cons, hf, ih hr]

/-! ## The counters -/

theorem calm_counterRead (s : State) (ag : Agent) (e : LaneLoc) : Calm s (counterRead s ag e).2 := by
  unfold counterRead
  split
  · exact calm_ctlReadUnit ..
  · exact (calm_l2Asked ..).trans (calm_noteRead ..)

theorem calm_counterReads (gid : Nat) (s : State) (ls : List LaneLoc) : Calm s (counterReads gid s ls).2 := by
  induction ls generalizing s with
  | nil => exact .refl s
  | cons e r ih => exact (calm_counterRead s _ e).trans (ih _)

theorem quiet_counterStore (s : State) (ag : Agent) (rels : List RelInfo) (e : LaneLoc) (v : Nat) :
    Quiet s (counterStore s ag rels e v) := by
  unfold counterStore
  refine .ite ?_ ?_
  · exact (quiet_noteStore s ag _).trans (quiet_ctlPublish ..)
  · exact (quiet_noteStore s ag _).trans (quiet_publish ..)

/-- A counter that has been stored is read back. -/
theorem counterStore_read (s : State) (ag : Agent) (rels : List RelInfo) (e : LaneLoc) (v : Nat) (h3 : e.kind ≠ 3)
    (hw : e.loc % 8 + 4 ≤ 8) : l2ReadSet (counterStore s ag rels e v) [{ e with size := 4 }] = leBytes 4 v := by
  have hadd (i : Nat) : e.loc + i = 8 * (e.loc / 8) + (e.loc % 8 + i) := by omega
  unfold counterStore
  rw [if_neg h3]
  unfold l2ReadSet
  rw [if_neg h3, l2ReadSet, List.append_nil]
  refine (l2Bytes_eq_of (bs := leBytes 4 v) fun i hi => ?_ : l2Bytes _ e.cmp e.loc (leBytes 4 v).length = _)
  rw [hadd]
  exact l2Byte_publish_unit _ (e.loc / 8) rfl (by rw [length_leBytes]; exact hw) e.cmp hi

/-! ## The instructions -/

section
variable {s : State} {c : Iss} {f : Fields}

theorem withKeys_sound {unique : Bool} {body : List Nat → State}
    (hl : ∀ l ∈ lanesOf (active c f), srcBad c false (opnd f.a) l = false ∧ srcBad c false (opnd f.b) l = false ∧
      orderKey s c f l < 2 ^ 16)
    (hu : unique = true → ((lanesOf (active c f)).map (orderKey s c f)).Nodup) :
    withKeys s c f unique (active c f) body = body (lanesOf (active c f)) := by
  have hfind : ((lanesOf (active c f)).find? fun l => srcBad c false (opnd f.a) l || srcBad c false (opnd f.b) l) = none :=
    find_clean fun l h => by rw [(hl l h).1, (hl l h).2.1]; rfl
  have hany : (((lanesOf (active c f)).map (orderKey s c f)).any fun k => decide (2 ^ 16 ≤ k)) = false := by
    rw [List.any_eq_false]
    intro k hk
    obtain ⟨l, hmem, rfl⟩ := List.mem_map.1 hk
    rw [decide_eq_true_eq, Nat.not_le]
    exact (hl l hmem).2.2
  have hdup : (unique && ((lanesOf (active c f)).map (orderKey s c f)).eraseDups.length !=
      ((lanesOf (active c f)).map (orderKey s c f)).length) = false := by
    cases unique with
    | false => rfl
    | true => rw [eraseDups_of_nodup (hu rfl), bne_self_eq_false, Bool.and_false]
  unfold withKeys
  simp only [hfind, hany, hdup, Bool.or_false, Bool.false_eq_true, if_false]

theorem withKeys_illegal {unique : Bool} {body : List Nat → State}
    (hl : ∀ l ∈ lanesOf (active c f), srcBad c false (opnd f.a) l = false ∧ srcBad c false (opnd f.b) l = false)
    (hk : ∃ l ∈ lanesOf (active c f), 2 ^ 16 ≤ orderKey s c f l) :
    withKeys s c f unique (active c f) body = illegalOperand s c := by
  have hfind : ((lanesOf (active c f)).find? fun l => srcBad c false (opnd f.a) l || srcBad c false (opnd f.b) l) = none :=
    find_clean fun l h => by rw [(hl l h).1, (hl l h).2]; rfl
  obtain ⟨l, hmem, hle⟩ := hk
  have hany : (((lanesOf (active c f)).map (orderKey s c f)).any fun k => decide (2 ^ 16 ≤ k)) = true :=
    List.any_eq_true.2 ⟨_, List.mem_map_of_mem hmem, decide_eq_true hle⟩
  unfold withKeys
  simp only [hfind, hany, Bool.true_or, if_true]

/-- The state that a poll with some counters still to come leaves. -/
def waitsOrder (s : State) (c : Iss) (f : Fields) (reads : List (Nat × Got) × State) : State :=
  let hit := reads.1.filter fun e => leNat e.2.bytes == orderVal s c f e.1
  modGroup (if hit = [] then s else reads.2) c.gid fun _ => c.g.setLive c.live (some { c.p with
    wait := .ordering, since := s.clk, found := c.p.found ||| Machine.maskOf (hit.map (·.1))
    saw := addRels c.p.saw (hit.flatMap fun e => e.2.rels) })

/-- The state that a poll leaves once every counter has held its value. -/
def passesOrder (s : State) (c : Iss) (f : Fields) (reads : List (Nat × Got) × State) : State :=
  modGroup (acquireAll reads.2 (threadsOf c.gid (active c f)) 4 (addRels c.p.saw
    ((reads.1.filter fun e => leNat e.2.bytes == orderVal s c f e.1).flatMap fun e => e.2.rels))) c.gid fun _ => behind c

/-- The lanes whose counters have yet to hold their values. -/
def restOrder (c : Iss) (f : Fields) : List Nat := (lanesOf (active c f)).filter fun l => !c.p.found.getLsbD l

theorem pollOrder_reads {lanes : List Nat} {ls : List LaneLoc} (hf : c.p.failed = false)
    (hx : xlateSet s (.core c.core) c.part c.ctx .table true ((lanes.filter fun l => !c.p.found.getLsbD l).map fun l =>
      (⟨l, counterAddr s c (orderKey s c f l), 4, false⟩ : LaneAcc)) = .ok ls)
    (hclean : ∀ e ∈ (counterReads c.gid s ls).1, e.2.bad = false) :
    pollOrder s c f lanes =
      let q := counterReads c.gid s ls
      let hit := q.1.filter fun e => leNat e.2.bytes == orderVal s c f e.1
      let saw := addRels c.p.saw (hit.flatMap fun e => e.2.rels)
      if hit.length = (lanes.filter fun l => !c.p.found.getLsbD l).length then
        retire (acquireAll q.2 (threadsOf c.gid (Machine.maskOf lanes)) 4 saw) c
      else modPath (waitOn (if hit = [] then s else q.2) c .ordering) c.gid c.live fun p =>
        { p with found := p.found ||| Machine.maskOf (hit.map (·.1)), saw := saw } := by
  have hbad : ((counterReads c.gid s ls).1.find? fun e => e.2.bad) = none :=
    List.find?_eq_none.2 fun e he => by rw [hclean e he]; exact Bool.false_ne_true
  unfold pollOrder
  simp only [hf, hx]
  generalize ((lanes.filter fun l => !c.p.found.getLsbD l).map fun l =>
      (⟨l, counterAddr s c (orderKey s c f l), 4, false⟩ : LaneAcc)) = as
  cases as with
  | nil => simp only [hbad]
  | cons a r => simp only [hbad]

/-- What the poll of the counters leads to when they could be read. -/
theorem pollOrder_eq (h : issuer s = some c) {ls : List LaneLoc} {reads : List (Nat × Got) × State} (hf : c.p.failed = false)
    (hx : xlateSet s (.core c.core) c.part c.ctx .table true ((restOrder c f).map fun l =>
      (⟨l, counterAddr s c (orderKey s c f l), 4, false⟩ : LaneAcc)) = .ok ls)
    (hr : reads = counterReads c.gid s ls) (hclean : ∀ e ∈ reads.1, e.2.bad = false) :
    pollOrder s c f (lanesOf (active c f)) =
      if (reads.1.filter fun e => leNat e.2.bytes == orderVal s c f e.1).length = (restOrder c f).length then
        passesOrder s c f reads
      else waitsOrder s c f reads := by
  subst hr
  have hq := calm_counterReads c.gid s ls
  rw [pollOrder_reads hf hx hclean, maskOf_lanesOf]
  refine if_congr Iff.rfl ?_ ?_
  · obtain ⟨k, hk⟩ := acquireAll_know (counterReads c.gid s ls).2 (threadsOf c.gid (active c f)) 4 (addRels c.p.saw
      (((counterReads c.gid s ls).1.filter fun e => leNat e.2.bytes == orderVal s c f e.1).flatMap fun e => e.2.rels))
    refine retire_here h ?_
    rw [hk]
    exact hq.1.groups
  · unfold waitsOrder
    dsimp only
    generalize ((counterReads c.gid s ls).1.filter fun e => leNat e.2.bytes == orderVal s c f e.1) = hit
    have hg : (if hit = [] then s else (counterReads c.gid s ls).2).groups = s.groups ∧
        (if hit = [] then s else (counterReads c.gid s ls).2).clk = s.clk := by
      split
      · exact ⟨rfl, rfl⟩
      · exact ⟨hq.1.groups, hq.1.clk⟩
    rw [waitOn_here h hg.1, hg.2, modPath, modGroup_modGroup]
    refine congrArg (modGroup _ c.gid) (funext fun _ => ?_)
    rw [setLive_live_self, Option.map_some]
    exact setLive_setLive ..

/-! ## A wake polls again -/

theorem advance_wait (p : Path) : (advance p).wait = .none := by
  unfold advance
  split <;> rfl

/-- A path behind its instruction does not wait. -/
theorem wait_behind {t : State} {c d : Iss} {q : PathId} (hq : issOf s q = some c) (hd : issOf (modGroup t c.gid fun _ => behind c) q = some d) :
    d.p.wait = .none := by
  obtain ⟨hgid, hlive, -⟩ := issOf_spec hq
  obtain ⟨hdgid, hdlive, hg, hp, -⟩ := issOf_spec hd
  rw [getGroup_modGroup, if_pos (by rw [hdgid, hgid])] at hg
  obtain ⟨g, -, he⟩ := Option.map_eq_some_iff.1 hg
  have hl : (behind c).live d.live = some (advance c.p) := by
    rw [hdlive, ← hlive]
    exact setLive_live_self ..
  rw [← he, hl] at hp
  rw [← Option.some.inj hp]
  exact advance_wait c.p

theorem quiet_storeOrder (s : State) (c : Iss) (f : Fields) (act : Mask) (ls : List LaneLoc) :
    Quiet s (storeOrder s c f act ls) :=
  (quiet_publishAt ..).trans (Quiet.foldl (fun t e => quiet_counterStore t _ _ e _) ls _)

/-- A wake whose poll lets the path go on is not refused. -/
theorem ordbWake_passes {t : State} {q : PathId} (hq : issOf s q = some c) (hw : c.p.wait = .ordering) (hh : c.p.hold = none)
    (hi : slotInstr c.p = some (.ordb f)) (hm : mayRetry s c = true)
    (hgo : exec (.ordb f) { s with cur := some q } = .next (modGroup t c.gid fun _ => behind c)) :
    exec (.ordbWake q) s = .next (edgesBehind s (modGroup t c.gid fun _ => behind c) c (.ordb f)) := by
  have hexec : execOrdb f { s with cur := some q } = .next (modGroup t c.gid fun _ => behind c) := hgo
  show settle s (tryOrdbWake q s) = _
  unfold tryOrdbWake
  simp only [hq, hw, hh, hm, hi, hexec, eventOf]
  rw [if_neg (by decide)]
  obtain hd | ⟨d, hd⟩ := Option.eq_none_or_eq_some (issOf (modGroup t c.gid fun _ => behind c) q)
  · simp only [hd, Bool.false_eq_true, if_false]
    rfl
  · have hno : ¬d.p.wait = .ordering := by
      rw [wait_behind hq hd]
      exact Wait.noConfusion
    simp only [hd, hno, decide_false, Bool.false_and, Bool.false_eq_true, if_false]
    rfl

theorem polls_reads {lanes : List Nat} (h : issuer s = some c) (hg : f.guardLegal = true) (ho : orderLegal c f = true)
    (ha : active c f ≠ 0)
    (hl : ∀ l ∈ lanesOf (active c f), srcBad c false (opnd f.a) l = false ∧ srcBad c false (opnd f.b) l = false ∧
      orderKey s c f l < 2 ^ 16)
    (hu : ((lanesOf (active c f)).map (orderKey s c f)).Nodup) (hlanes : lanes = lanesOf (active c f)) :
    exec (.ordb f) s = .next (pollOrder s c f lanes) := by
  subst hlanes
  refine (exec_masked (L := (orderLegal · f)) (B := fun c act => withKeys s c f true act (pollOrder s c f)) rfl h hg ho ha).trans ?_
  exact congrArg Host.Outcome.next (withKeys_sound hl fun _ => hu)

/-- Settles O41: the poll waits until each lane's counter has held its value; the end advances the counters. -/
theorem orderedSections : Obligations.OrderedSections := by
  unfold Obligations.OrderedSections
  intro key val counters ready rest polls hits goesOn
  have polled {f s c reads} (h : issuer s = some c) (hp : polls s c f reads) :
      exec (.ordb f) s = .next (if (hits s c f reads).length = (rest c f).length then goesOn s c f reads
        else waitsOrder s c f reads) := by
    obtain ⟨⟨hg, ho, ha, hl⟩, hu, hf, ⟨ls, hx, hr⟩, hclean⟩ := hp
    rw [polls_reads h hg ho ha hl hu rfl]
    exact congrArg Host.Outcome.next (pollOrder_eq h hf hx hr hclean)
  refine ⟨fun f s c reads h hp => ⟨fun hall => ?_, fun hsome => ?_⟩, fun f s q c reads hq hw hh hi hm hp hall => ?_,
    fun f s c ls h hr hf hd hx => ?_, fun s ag rels e v h3 hw => counterStore_read s ag rels e v h3 hw,
    fun f s c h hg ho ha hl hk => ?_⟩
  · rw [polled h hp, if_pos hall]
  · rw [polled h hp, if_neg hsome]
    rfl
  · have hissue : issuer { s with cur := some q } = some c := hq
    have hgo := polled hissue hp
    have hall' : (hits { s with cur := some q } c f reads).length = (rest c f).length := hall
    rw [if_pos hall'] at hgo
    exact ordbWake_passes hq hw hh hi hm hgo
  · obtain ⟨hg, ho, ha, hl⟩ := hr
    refine (exec_masked rfl h hg ho ha).trans (congrArg Host.Outcome.next ?_)
    refine (withKeys_sound hl fun hc => absurd hc Bool.false_ne_true).trans ?_
    have hgone : ((lanesOf (active c f)).filter fun l => !BitVec.getLsbD (0 : Mask) l) = lanesOf (active c f) :=
      List.filter_eq_self.2 fun l _ => by simp
    simp only [hf, hd, Bool.false_eq_true, if_false]
    rw [hgone]
    have hx' : xlateSet s (.core c.core) c.part c.ctx .write true ((lanesOf (active c f)).map fun l =>
      (⟨l, counterAddr s c (orderKey s c f l), 4, false⟩ : LaneAcc)) = .ok ls := hx
    rw [hx']
    exact retire_here h (quiet_storeOrder ..).groups
  · refine ⟨(exec_masked rfl h hg ho ha).trans (congrArg Host.Outcome.next (withKeys_illegal hl hk)),
      (exec_masked rfl h hg ho ha).trans (congrArg Host.Outcome.next (withKeys_illegal hl hk))⟩

end

end Sys2Proof.Claims
end

section
/-!
SUPPORT. Launches and the verdict on them (09 R201; 16 R387).
-/
namespace Sys2Proof.Claims
open Sys2Proof.Machine

section
variable {s : State} {c : Iss}

theorem calm_of_readsObject {lane va n : Nat} {bs : List Byte} {s1 : State} (h : ReadsObject s c lane va n bs s1) : Calm s s1 := by
  obtain ⟨ls, -, -, -, -, rfl⟩ := h
  exact calm_readSet ..

/-- The task graph unit with one more pending node. -/
def withEntry (s : State) (e : Entry) : State := { s with entries := spPut s.entries s.order e, order := s.order + 1 }

/-- The pending node of a launch. -/
def launchEntry (c : Iss) (ids : List Nat) (f : Fields) (spawn : Bool) (record : Nat) : Entry :=
  { part := c.part, ctx := c.ctx, record := record, known := ids, src := .launch ⟨c.gid, c.live⟩ (scalReg (opnd f.d)) spawn c.t.node }

theorem enterNode_eq {t : State} (h : issuer s = some c) (hq : Quiet s t) (ids : List Nat) (f : Fields) (spawn : Bool)
    (record : Nat) (hn : nodeCount t c.part < 4096) : enterNode t c ids f spawn record =
      modGroup (withEntry t (launchEntry c ids f spawn record)) c.gid fun _ => waitsFor s c c.g (.verdict s.order) := by
  have hw : enterNode t c ids f spawn record = waitOn (withEntry t (launchEntry c ids f spawn record)) c (.verdict t.order) :=
    if_neg (Nat.not_le.2 hn)
  have hclk : (withEntry t (launchEntry c ids f spawn record)).clk = s.clk := hq.clk
  rw [hw, waitOn_here h (t := withEntry t _) hq.groups, hq.order, hclk]
  rfl

/-- A launch whose record can be read enters its node. -/
theorem runLaunch_enters {f : Fields} {bs : List Byte} {s1 : State} {spawn : Bool} (hg : f.guardLegal = true)
    (hl : launchLegal c f = true) (ha : active c f ≠ 0) (hb : srcBad c true (opnd f.a) (lowLane (active c f)) = false)
    (hal : srcVal s c .q64 (opnd f.a) (lowLane (active c f)) % 64 = 0)
    (hr : ReadsObject (publishAt s c.core 4) c (lowLane (active c f)) (srcVal s c .q64 (opnd f.a) (lowLane (active c f))) 64 bs s1) :
    runLaunch s c f spawn = enterNode s1 c (releasedBy s (threadsOf c.gid (active c f))) f spawn (leNat bs) := by
  have hal' : ¬srcVal s c .q64 (opnd f.a) (lowLane (active c f)) % 64 ≠ 0 := not_not.2 hal
  unfold runLaunch runMasked
  rw [hg, hl, if_neg (by decide), if_neg ha]
  dsimp only
  rw [hb, if_neg Bool.false_ne_true, if_neg hal']
  exact withObject_eq hr

theorem launch_enters {i : Fields → Instr} {spawn : Bool} (hi : ∀ f s, exec (i f) s = onPath s fun c => runLaunch s c f spawn)
    (f : Fields) (s : State) (c : Iss) (bs : List Byte) (s1 : State) (h : issuer s = some c) (hg : f.guardLegal = true)
    (hl : launchLegal c f = true) (ha : active c f ≠ 0) :
    let lane := lowLane (active c f)
    let va := srcVal s c .q64 (opnd f.a) lane
    srcBad c true (opnd f.a) lane = false → va % 64 = 0 → ReadsObject (publishAt s c.core 4) c lane va 64 bs s1 →
    (nodeCount s1 c.part < 4096 → ∃ t, exec (i f) s = .next t ∧
      spFind t.entries s.order = some
        { part := c.part, ctx := c.ctx, record := leNat bs
          src := .launch ⟨c.gid, c.live⟩ (match opnd f.d with
            | .s n => some n
            | _ => none) spawn c.t.node
          known := releasedBy s (threadsOf c.gid (active c f)) } ∧
      t.order = s.order + 1 ∧ t.cores = s1.cores ∧
      getGroup t c.gid = some (waitsFor s c c.g (.verdict s.order))) ∧
    (4096 ≤ nodeCount s1 c.part → exec (i f) s = .next (modGroup s1 c.gid fun _ => waitsFor s c c.g .tguFull)) := by
  intro lane va hb hal hr
  have hq : Quiet s s1 := (quiet_publishAt ..).trans (calm_of_readsObject hr).1
  have hx : exec (i f) s = .next (enterNode s1 c (releasedBy s (threadsOf c.gid (active c f))) f spawn (leNat bs)) :=
    ((hi f s).trans (onPath_issuer h _)).trans (congrArg _ (runLaunch_enters hg hl ha hb hal hr))
  refine ⟨fun hn => ?_, fun hn => ?_⟩
  · rw [hx]
    refine ⟨_, congrArg _ (enterNode_eq h hq _ f spawn _ hn), ?_, congrArg (· + 1) hq.order, rfl, ?_⟩
    · rw [← hq.order]
      exact spFind_spPut_self ..
    · have hgrp : getGroup (withEntry s1 (launchEntry c (releasedBy s (threadsOf c.gid (active c f))) f spawn (leNat bs))) c.gid =
          some c.g := getGroup_here h hq.groups
      rw [getGroup_modGroup, if_pos rfl, hgrp]
      rfl
  · rw [hx]
    unfold enterNode
    rw [if_pos hn, waitOn_here h hq.groups, hq.clk]
    rfl

theorem verdict_delivered (s : State) (pend : Nat) (q : PathId) (c : Iss) (dst : Option Nat) (reason : Nat)
    (h : issOf s q = some c) (hw : c.p.wait = .verdict pend) (hc : c.p.clause.isSome = true) (hf : c.g.frame = none) :
    deliverVerdict s pend q dst reason = modGroup s c.gid fun _ => past c (match dst with
      | some k => c.g.setS k (reason % 2 ^ 32)
      | none => c.g) := by
  obtain ⟨hgid, -, hg, hp, -⟩ := issOf_spec h
  have hretire (F : Group → Group) (hF : (F c.g).live c.live = some c.p) :
      retire (modGroup s c.gid F) c = modGroup s c.gid fun _ => past c (F c.g) := by
    rw [retire, modGroup_modGroup, modGroup_const _ hg, hF]
    rfl
  unfold deliverVerdict
  rw [h]
  dsimp only
  rw [if_neg (not_not.2 hw), if_pos hc]
  cases dst with
  | none =>
    have hs : s = modGroup s c.gid fun g => g := by rw [modGroup, spMod_id]
    conv_lhs => rw [hs]
    exact hretire (fun g => g) hp
  | some k =>
    have hwrite : writeRegs s q.gid [.scal k (BitVec.ofNat 32 reason) false] =
        modGroup s c.gid fun g => applyWrite g (.scal k (BitVec.ofNat 32 reason) false) := by
      unfold writeRegs
      rw [← hgid, hg]
      dsimp only
      rw [hf]
      rfl
    dsimp only
    rw [hwrite]
    refine (hretire (applyWrite · (.scal k (BitVec.ofNat 32 reason) false)) hp).trans ?_
    have hset : applyWrite c.g (.scal k (BitVec.ofNat 32 reason) false) = c.g.setS k (reason % 2 ^ 32) := by
      show c.g.setS k (BitVec.ofNat 32 reason).toNat false = _
      rw [BitVec.toNat_ofNat]
    rw [hset]

/-- Settles O35: a launch enters its node behind a release edge and waits; the verdict lets the path go on. -/
theorem launchAndSpawn : Obligations.LaunchAndSpawn := by
  unfold Obligations.LaunchAndSpawn
  exact ⟨launch_enters fun _ _ => rfl, launch_enters fun _ _ => rfl,
    fun s pend q c dst reason h hw hc hf => verdict_delivered s pend q c dst reason h hw hc hf⟩

end

end Sys2Proof.Claims
end

section
/-!
SUPPORT. Jobs as they are issued, and the status of a ticket (06 R129, R134; 14 R344 to R348).
-/
namespace Sys2Proof.Claims
open Sys2Proof.Machine

/-! ## The stores that a job comes behind -/

theorem mem_of_spFind {α : Type} {m : SMap α} {k : Nat} {v : α} (h : spFind m k = some v) : (k, v) ∈ m := by
  induction m with
  | nil => cases h
  | cons e r ih =>
    obtain ⟨j, w⟩ := e
    unfold spFind at h
    split at h
    · next hj =>
      rw [hj, Option.some.inj h]
      exact List.mem_cons_self ..
    · exact List.mem_cons_of_mem _ (ih h)

theorem mem_of_spGet_nil {α : Type} {m : SMap (List α)} {k : Nat} {x : α} (h : x ∈ spGet [] m k) : ∃ e ∈ m, x ∈ e.2 := by
  cases hf : spFind m k with
  | none =>
    rw [spGet, hf] at h
    cases h
  | some l =>
    rw [spGet, hf] at h
    exact ⟨_, mem_of_spFind hf, h⟩

/-- A write-back of some lines leaves their words no pending store. -/
theorem pend_coreWriteBack (s : State) (core : Nat) (sel : Nat → Bool) :
    (getCore (coreWriteBack s core sel) core).pend = (getCore s core).pend.filter fun e => !sel (e.1 / 16) := by
  unfold coreWriteBack
  dsimp only
  split
  · next h =>
    symm
    exact List.filter_eq_self.2 fun e he => by
      have := List.filter_eq_nil_iff.1 h e he
      simpa using this
  · exact (congrArg Core.pend (getCore_publishAll _ _ core)).trans (congrArg Core.pend (spGet_spSet_self ..))

/-- After the write-back of some stores their core holds none of them. -/
theorem writeBackStores_gone (s : State) (core : Nat) (ids : List Nat) {e : Nat × List Msg}
    (he : e ∈ (getCore (writeBackStores s core ids) core).pend) {m : Msg} (hm : m ∈ e.2) : m.id ∉ ids := by
  intro hid
  unfold writeBackStores at he
  rw [pend_coreWriteBack] at he
  obtain ⟨hmem, hsel⟩ := List.mem_filter.1 he
  have hline : e.1 / 16 ∈ ((getCore s core).pend.filter fun e => e.2.any fun m => ids.contains m.id).map fun e => e.1 / 16 :=
    List.mem_map_of_mem (List.mem_filter.2 ⟨hmem, List.any_eq_true.2 ⟨m, hm, List.contains_iff_mem.2 hid⟩⟩)
  rw [Bool.not_eq_true', ← Bool.not_eq_true, List.contains_iff_mem] at hsel
  exact hsel hline

theorem mem_footprintMsgs {s : State} {c : Iss} {rs : List Region} {ids : List Nat} {w : Nat} {m : Msg}
    (h : (∃ h, spFind s.hist w = some h ∧ m ∈ h.msgs) ∨ m ∈ spGet [] (getCore s c.core).pend w) (hid : m.id ∈ ids)
    (hr : ∃ r ∈ rs, Msg.inRegion s c w m r = true) : m ∈ footprintMsgs s c rs ids := by
  unfold footprintMsgs
  refine List.mem_append_left _ (List.mem_map.2 ⟨(w, m), List.mem_filter.2 ⟨?_, ?_⟩, rfl⟩)
  · rcases h with ⟨h, hf, hm⟩ | hm
    · exact List.mem_append_left _ (List.mem_flatMap.2 ⟨(w, h), mem_of_spFind hf, List.mem_map_of_mem hm⟩)
    · cases hf : spFind (getCore s c.core).pend w with
      | none =>
        rw [spGet, hf] at hm
        cases hm
      | some l =>
        rw [spGet, hf] at hm
        exact List.mem_append_right _ (List.mem_flatMap.2 ⟨(w, l), mem_of_spFind hf, List.mem_map_of_mem hm⟩)
  · rw [Bool.and_eq_true, List.contains_iff_mem, List.any_eq_true]
    exact ⟨hid, hr⟩

/-! ## A job is entered -/

section
variable {s : State} {c : Iss}

/-- The job that an issue enters. -/
def jobOf (s : State) (c : Iss) (act : Mask) (card : Card) : Job :=
  { part := c.part, cluster := clusterOf c.core, ctx := c.ctx, card := card
    redSeq := if card.kind = 6 then spGet 0 (getPart s c.part).reduces (card.p0 % 2 ^ 16) else 0
    stream := .team c.g.team, order := s.order + 1, team := some c.g.team, ticket := c.t.ticket, op := some s.order
    issued := releasedBy s (threadsOf c.gid act) }

/-- The state with a job among those entered, before its release edge. -/
def withJob (s : State) (c : Iss) (act : Mask) (card : Card) : State :=
  let q := (reduceSeq (startOp s { gid := c.gid, flag := setFlag c.p true, left := 1 }) c.part card).2
  { q with jobs := spPut q.jobs (s.order + 1) (jobOf s c act card), order := s.order + 2 }

theorem reduceSeq_seq (s : State) (part : Nat) (card : Card) : (reduceSeq s part card).1 =
    if card.kind = 6 then spGet 0 (getPart s part).reduces (card.p0 % 2 ^ 16) else 0 := by
  unfold reduceSeq
  dsimp only
  split <;> rfl

/-- What numbering a reduce leaves alone. -/
theorem reduceSeq_keeps (s : State) (part : Nat) (card : Card) : let t := (reduceSeq s part card).2
    t.groups = s.groups ∧ t.ops = s.ops ∧ t.jobs = s.jobs ∧ t.teams = s.teams ∧ t.cores = s.cores ∧ t.know = s.know := by
  unfold reduceSeq
  dsimp only
  split <;> exact ⟨rfl, rfl, rfl, rfl, rfl, rfl⟩

theorem enterJob_eq (s : State) (c : Iss) (act : Mask) (card : Card) : enterJob s c act card =
    modTeam (releaseToJob (withJob s c act card) c (s.order + 1)
      ((footprintMsgs s c card.regions (releasedBy s (threadsOf c.gid act))).map (·.id))) c.g.team fun t =>
        { t with ticket := (t.ticket + 1) % 2 ^ 32, tickets := spPut t.tickets t.ticket (s.order + 1) } := by
  unfold enterJob
  dsimp only
  rw [reduceSeq_seq]
  rfl

theorem quiet_releaseToJob (s : State) (c : Iss) (id : Nat) (ms : List Nat) : Quiet s (releaseToJob s c id ms) := by
  obtain ⟨k, hk⟩ := learn_know (writeBackStores s c.core ms) (.job id) ms
  unfold releaseToJob
  rw [hk]
  exact (quiet_coreWriteBack ..).trans rfl

/-- What the entry of a job leaves in the state. -/
theorem enterJob_leaves (h : issuer s = some c) (act : Mask) (card : Card) :
    let t := enterJob s c act card
    spFind t.ops s.order = some { gid := c.gid, flag := setFlag c.p true, left := 1 } ∧
    spFind t.jobs (s.order + 1) = some (jobOf s c act card) ∧ t.order = s.order + 2 ∧
    getTeam t c.g.team = some { c.t with
      ticket := (c.t.ticket + 1) % 2 ^ 32, tickets := spPut c.t.tickets c.t.ticket (s.order + 1) } ∧
    getGroup t c.gid = some (addFlag c.g (setFlag c.p true)) := by
  obtain ⟨-, hgrp, -, hteam, -⟩ := issuer_spec h
  obtain ⟨hg, ho, hj, ht, -, -⟩ := reduceSeq_keeps (startOp s { gid := c.gid, flag := setFlag c.p true, left := 1 }) c.part card
  have hq := quiet_releaseToJob (withJob s c act card) c (s.order + 1)
    ((footprintMsgs s c card.regions (releasedBy s (threadsOf c.gid act))).map (·.id))
  rw [enterJob_eq]
  intro t
  refine ⟨?_, ?_, hq.order, ?_, ?_⟩
  · show spFind (releaseToJob _ _ _ _).ops s.order = _
    rw [hq.ops]
    show spFind (reduceSeq _ _ _).2.ops s.order = _
    rw [ho]
    exact spFind_spPut_self ..
  · show spFind (releaseToJob _ _ _ _).jobs (s.order + 1) = _
    rw [hq.jobs]
    exact spFind_spPut_self ..
  · have hteams : getTeam (releaseToJob (withJob s c act card) c (s.order + 1)
        ((footprintMsgs s c card.regions (releasedBy s (threadsOf c.gid act))).map (·.id))) c.g.team = some c.t := by
      rw [hq.getTeam, ← hteam]
      exact congrArg (spFind · c.g.team) ht
    show spFind (spMod _ c.g.team _) c.g.team = _
    rw [spFind_spMod_self]
    exact congrArg (Option.map _) hteams
  · show getGroup (releaseToJob _ _ _ _) c.gid = _
    rw [hq.getGroup]
    refine (congrArg (spFind · c.gid) hg).trans ?_
    show getGroup (modGroup s c.gid fun g => addFlag g (setFlag c.p true)) c.gid = _
    rw [getGroup_modGroup, if_pos rfl, hgrp]
    rfl

/-- A job knows the stores that its issue releases to it, and their core holds none of them any more. -/
theorem enterJob_releases (s : State) (c : Iss) (act : Mask) (card : Card) {w : Nat} {m : Msg}
    (hm : (∃ h, spFind s.hist w = some h ∧ m ∈ h.msgs) ∨ m ∈ spGet [] (getCore s c.core).pend w)
    (hid : m.id ∈ releasedBy s (threadsOf c.gid act)) (hr : ∃ r ∈ card.regions, Msg.inRegion s c w m r = true) :
    m.id ∈ (getKnow (enterJob s c act card) (.job (s.order + 1))).hb ∧
      ∀ v, ∀ k ∈ spGet [] (getCore (enterJob s c act card) c.core).pend v, k.id ≠ m.id := by
  have hms : m.id ∈ (footprintMsgs s c card.regions (releasedBy s (threadsOf c.gid act))).map (·.id) :=
    List.mem_map_of_mem (mem_footprintMsgs hm hid hr)
  rw [enterJob_eq]
  refine ⟨learn_learns _ (.job (s.order + 1)) hms, fun v k hk he => ?_⟩
  obtain ⟨n, hn⟩ := learn_know (writeBackStores (withJob s c act card) c.core
    ((footprintMsgs s c card.regions (releasedBy s (threadsOf c.gid act))).map (·.id))) (.job (s.order + 1))
      ((footprintMsgs s c card.regions (releasedBy s (threadsOf c.gid act))).map (·.id))
  have hcore : getCore (releaseToJob (withJob s c act card) c (s.order + 1)
      ((footprintMsgs s c card.regions (releasedBy s (threadsOf c.gid act))).map (·.id))) c.core =
      getCore (writeBackStores (withJob s c act card) c.core
        ((footprintMsgs s c card.regions (releasedBy s (threadsOf c.gid act))).map (·.id))) c.core := by
    unfold releaseToJob
    rw [hn]
    rfl
  have hk' : k ∈ spGet [] (getCore (releaseToJob (withJob s c act card) c (s.order + 1)
      ((footprintMsgs s c card.regions (releasedBy s (threadsOf c.gid act))).map (·.id))) c.core).pend v := hk
  rw [hcore] at hk'
  obtain ⟨e, hmem, hke⟩ := mem_of_spGet_nil hk'
  exact writeBackStores_gone _ _ _ hmem hke (he ▸ hms)

theorem addFlag_live (g : Group) (fl : Option Nat) (n : Nat) : (addFlag g fl).live n = g.live n := by
  cases fl <;> rfl

/-- An issue whose card is sound enters its job. -/
theorem issueJob_eq {act : Mask} {f : Fields} {bs : List Byte} (hok : (cardOf (leNat (bs.take 64))).ok (some c.t.bars) = true)
    (hn : cardCount s c.part < 16384) : issueJob s c act f bs =
      retire (modGroup (enterJob s c act { cardOf (leNat (bs.take 64)) with
        regions := regionsOf true (cardOf (leNat (bs.take 64))).fpcount (bs.drop 64) }) c.gid
          fun g => writeScal g false (opnd f.d) c.t.ticket) c := by
  unfold issueJob
  dsimp only
  rw [hok, if_neg (by decide), if_neg (Nat.not_le.2 hn)]

/-- The group of a job's issue has the ticket and goes on. -/
theorem getGroup_issued {t : State} (h : issuer s = some c) (f : Fields)
    (ht : getGroup t c.gid = some (addFlag c.g (setFlag c.p true))) :
    getGroup (retire (modGroup t c.gid fun g => writeScal g false (opnd f.d) c.t.ticket) c) c.gid =
      some (past c (writeScal (addFlag c.g (setFlag c.p true)) false (opnd f.d) c.t.ticket)) := by
  have hl : (writeScal (addFlag c.g (setFlag c.p true)) false (opnd f.d) c.t.ticket).live c.live = some c.p := by
    rw [(writeScal_paths _ _ _ _).1, addFlag_live]
    exact (issuer_spec h).2.2.1
  rw [retire, getGroup_modGroup, if_pos rfl, getGroup_modGroup, if_pos rfl, ht, Option.map_some, Option.map_some, hl]
  rfl

/-- A job whose card and footprint can be read is issued. -/
theorem job_issues {f : Fields} {hd bs : List Byte} {s1 s2 : State} (h : issuer s = some c)
    (hc : Counts c f true (jobLegal c f)) (hb : srcBad c true (opnd f.a) (lowLane (active c f)) = false)
    (hal : srcVal s c .q64 (opnd f.a) (lowLane (active c f)) % 64 = 0)
    (hr : ReadsObject s c (lowLane (active c f)) (srcVal s c .q64 (opnd f.a) (lowLane (active c f))) 64 hd s1)
    (hn : (cardOf (leNat hd)).fpcount ≤ 8)
    (hrest : if (cardOf (leNat hd)).fpcount = 0 then bs = hd ∧ s2 = s1 else ReadsObject s c (lowLane (active c f))
      (srcVal s c .q64 (opnd f.a) (lowLane (active c f))) (64 + 32 * (cardOf (leNat hd)).fpcount) bs s2) :
    exec (.job f) s = .next (issueJob s2 c (active c f) f bs) := by
  refine (exec_counted rfl h hc).trans (congrArg _ ?_)
  dsimp only
  rw [hb, if_neg Bool.false_ne_true, if_neg (not_not.2 hal), withObject_eq hr, if_neg (Nat.not_lt.2 hn)]
  by_cases h0 : (cardOf (leNat hd)).fpcount = 0
  · rw [if_pos h0] at hrest ⊢
    rw [hrest.1, hrest.2]
  · rw [if_neg h0] at hrest ⊢
    exact withObject_eq hrest

end

/-- Settles O33: a job enters its stream behind the stores that it reads, and its status is read by its ticket. -/
theorem jobInstructions : Obligations.JobInstructions := by
  unfold Obligations.JobInstructions
  refine ⟨?_, fun f => ?_, fun s t k hk => by rw [jobStatus, hk]; rfl⟩
  · intro f s c hd s1 bs s2 h hc lane va hb hal hr n hn hrest card hok hcount rs ids read
    have hcalm : Calm s s2 := by
      by_cases h0 : n = 0
      · rw [if_pos h0] at hrest
        rw [hrest.2]
        exact calm_of_readsObject hr
      · rw [if_neg h0] at hrest
        exact calm_of_readsObject hrest
    have h2 : issuer s2 = some c := hcalm.1.issuer.trans h
    have hleaves := enterJob_leaves h2 (active c f) { card with regions := rs }
    have hrel (w : Nat) (m : Msg) := enterJob_releases s2 c (active c f) { card with regions := rs } (w := w) (m := m)
    have hx : exec (.job f) s = .next (retire (modGroup (enterJob s2 c (active c f) { card with regions := rs }) c.gid
        fun g => writeScal g false (opnd f.d) c.t.ticket) c) :=
      (job_issues h hc hb hal hr hn hrest).trans (congrArg _ (issueJob_eq hok hcount))
    have hjob : jobOf s2 c (active c f) { card with regions := rs } = { jobOf s2 c (active c f) { card with regions := rs } with
        order := s.order + 1, op := some s.order } := by
      unfold jobOf
      rw [hcalm.1.order]
    rw [hjob] at hleaves
    rw [hcalm.1.order] at hrel hleaves
    generalize enterJob s2 c (active c f) { card with regions := rs } = e at hrel hx hleaves
    obtain ⟨hops, hjobs, horder, hteam, hgroup⟩ := hleaves
    exact ⟨_, hx, fun w hh m hm hread => hrel w m (hm.imp_left fun hm => ⟨hh, hm⟩) hread.1 hread.2, hops, hjobs, horder, hteam,
      getGroup_issued h f hgroup⟩
  · refine writes_of (fun _ => rfl) (fun _ hl => hl) fun s c h _ ha hb => ?_
    obtain ⟨l, hl⟩ := exists_mem_lanesOf ha
    have hbad : srcBad c false (opnd f.a) 0 = false := hb l hl
    obtain ⟨g', hg', hw⟩ := retire_wrote (F := fun g => writeScal g true (opnd f.d)
      ((jobStatus s c.t (srcVal s c .w32 (opnd f.a) 0)).1 + 2 ^ 32 * (jobStatus s c.t (srcVal s c .w32 (opnd f.a) 0)).2)) h
      (Wrote.writeScal c.g true f.d _)
    refine ⟨g', ?_, hw⟩
    rw [← hg', hbad, if_neg Bool.false_ne_true]

end Sys2Proof.Claims
end

section
/-!
SUPPORT. Ports, and accesses through an aperture (05 R125, R126; 18 R418, R424, R425).
-/
namespace Sys2Proof.Claims
open Sys2Proof.Machine

section
variable {s : State} {p : Nat}

theorem getPort_modPort (s : State) (p : Nat) (F : Port → Port) : getPort (modPort s p F) p = F (getPort s p) :=
  spGet_spSet_self ..

/-! ## Flits received -/

/-- A flit that arrives at a port at work is taken in its turn. -/
theorem flitReceive_eq {seq : Nat} {flit : List Byte} (hw : portWorks s p = true) (hr : (getPort s p).retrain = false)
    (hl : flit.length = 256) : exec (.flitReceive p seq flit) s =
      .next (if seq ≠ (getPort s p).nextSeq then s else if flitOk flit then flitGood s p seq flit else flitBad s p seq) := by
  have hno : ¬((!portWorks s p) = true ∨ (getPort s p).retrain = true ∨ flit.length ≠ 256) := by
    rw [hw, hr, hl]
    simp
  show settle s (tryFlitReceive p seq flit s) = _
  unfold tryFlitReceive
  dsimp only
  rw [if_neg hno]
  split
  · rfl
  · split <;> rfl

/-- What a flit that fails its check leaves. -/
theorem flitBad_leaves (s : State) (p seq : Nat) :
    let n := if (getPort s p).replay = some seq then (getPort s p).failures + 1 else 0
    (getPort (flitBad s p seq) p).nextSeq = (getPort s p).nextSeq ∧ ((getPort (flitBad s p seq) p).retrain = true ↔ 8 ≤ n) ∧
      (flitBad s p seq).hostMsgs = s.hostMsgs ++ (if 8 ≤ n then [] else [.replayReq p seq]) := by
  intro n
  have hport : getPort (flitBad s p seq) p = { getPort s p with replay := some seq, failures := n, retrain := decide (8 ≤ n) } := by
    refine Eq.trans ?_ (getPort_modPort s p fun v => { v with replay := some seq, failures := n, retrain := decide (8 ≤ n) })
    exact apply_ite_eq (getPort · p) rfl rfl
  refine ⟨?_, ?_, ?_⟩
  · rw [hport]
  · rw [hport]
    exact decide_eq_true_iff
  · unfold flitBad
    dsimp only
    by_cases h : 8 ≤ n
    · rw [if_pos h, if_pos h, List.append_nil]
      rfl
    · rw [if_neg h, if_neg h]
      rfl

/-! ## A port that does not work -/

theorem port_idle (hw : portWorks s p = false) (seq : Nat) (flit : List Byte) (ok : Bool) :
    exec (.flitReceive p seq flit) s = .next s ∧ exec (.portRetrain p ok) s = .next s ∧ portSend s p = s := by
  refine ⟨?_, ?_, ?_⟩
  · show settle s (tryFlitReceive p seq flit s) = _
    unfold tryFlitReceive
    dsimp only
    rw [hw, if_pos (.inl rfl)]
    rfl
  · show settle s (tryPortRetrain p ok s) = _
    unfold tryPortRetrain
    rw [hw, if_pos (.inl rfl)]
    rfl
  · unfold portSend
    dsimp only
    rw [hw]
    rfl

/-! ## Retraining -/

/-- Atoms dropped at a port change neither memory nor the ports. -/
theorem dropAtoms_keeps (s : State) (p : Nat) : (dropAtoms s p).mem = s.mem := by
  unfold dropAtoms
  refine foldl_same State.mem (fun t e => ?_) _ _
  unfold dropAtom
  dsimp only
  have hacq (u : State) (k : Nat) (rels : List RelInfo) (ag : Agent) : (acquire u ag k rels).mem = u.mem := by
    obtain ⟨n, m, h⟩ := knows_acquire u ag k rels
    rw [h]
  show State.mem _ = _
  cases e.2.acquire with
  | none => rfl
  | some k => exact hacq ..

theorem retrain_eq {ok : Bool} (hw : portWorks s p = true) (hr : (getPort s p).retrain = true) : exec (.portRetrain p ok) s =
    .next (if ok then
      tellHost (modPort s p fun v => { v with retrain := false, failures := 0, replay := some (getPort s p).nextSeq })
        (.replayReq p (getPort s p).nextSeq)
    else
      let s1 := modPort (dropAtoms s p) p fun v => { v with up := false, retrain := false }
      rasLasting (if carries s p then dropAccesses s1 (p / 2) else s1) (portPart s p)) := by
  have hno : ¬((!portWorks s p) = true ∨ (!(getPort s p).retrain) = true) := by
    rw [hw, hr]
    simp
  show settle s (tryPortRetrain p ok s) = _
  unfold tryPortRetrain
  rw [if_neg hno]
  split <;> rfl

theorem dropAccesses_keeps (s : State) (a : Nat) : (dropAccesses s a).mem = s.mem ∧ (dropAccesses s a).ports = s.ports := by
  unfold dropAccesses
  constructor
  · refine (foldl_same State.mem (fun t w => ?_) _ _).trans rfl
    unfold apFailed
    split <;> rfl
  · refine (foldl_same State.ports (fun t w => ?_) _ _).trans rfl
    unfold apFailed
    split <;> rfl

/-- A port whose retraining fails goes down. -/
theorem retrain_fails (hw : portWorks s p = true) (hr : (getPort s p).retrain = true) :
    ∃ t, exec (.portRetrain p false) s = .next t ∧ (getPort t p).up = false ∧ t.mem = s.mem := by
  refine ⟨_, retrain_eq hw hr, ?_, ?_⟩
  · rw [if_neg Bool.false_ne_true]
    have hp : (getPort (modPort (dropAtoms s p) p fun v => { v with up := false, retrain := false }) p).up = false :=
      congrArg Port.up (getPort_modPort ..)
    show (spGet {} (State.ports (if carries s p then _ else _)) p).up = false
    split
    · rw [(dropAccesses_keeps ..).2]
      exact hp
    · exact hp
  · rw [if_neg Bool.false_ne_true]
    show State.mem (if carries s p then _ else _) = _
    split
    · rw [(dropAccesses_keeps ..).1]
      exact dropAtoms_keeps s p
    · exact dropAtoms_keeps s p

/-! ## Flits sent -/

theorem portSend_next (hw : portWorks s p = true) (hr : (getPort s p).retrain = false) {x : List Byte} {r : List (List Byte)}
    (ha : (getPort s p).asked = none) (ho : (getPort s p).out = x :: r) : portSend s p = tellHost (modPort s p fun v =>
      { v with out := r, sendSeq := v.sendSeq + 1
               sent := ((getPort s p).sent ++ [((getPort s p).sendSeq, x)]).drop ((getPort s p).sent.length - 63) })
        (.flit p (getPort s p).sendSeq x) := by
  unfold portSend
  simp only [hw, hr, ha, ho, Bool.not_true, Bool.or_false, Bool.false_eq_true, if_false]
  rfl

theorem portSend_replay (hw : portWorks s p = true) (hr : (getPort s p).retrain = false) {k : Nat}
    (ha : (getPort s p).asked = some k) : (portSend s p).hostMsgs = s.hostMsgs ++
      ((getPort s p).sent.filter fun e => decide (k ≤ e.1)).map fun e => .flit p e.1 e.2 := by
  have hfold (l : List (Nat × List Byte)) (t : State) :
      (l.foldl (fun s e => tellHost s (.flit p e.1 e.2)) t).hostMsgs = t.hostMsgs ++ l.map fun e => .flit p e.1 e.2 := by
    induction l generalizing t with
    | nil => exact (List.append_nil _).symm
    | cons e r ih =>
      rw [List.foldl_cons, ih, List.map_cons, List.append_cons]
      rfl
  unfold portSend
  simp only [hw, hr, ha, Bool.not_true, Bool.or_false, Bool.false_eq_true, if_false]
  exact hfold _ _

end

/-! ## Accesses through an aperture -/

section
variable {s : State} {a : Nat}

/-- An access within the aperture reaches it. -/
theorem aperture_reached {off size : Nat} (ha : a < 6) (hs : 0 < size) (ho : off + size ≤ 2 ^ aperLog a) (write : Bool)
    (data : Nat) : exec (.apertureAccess a write off size data) s = .next (aperture s a false write off size data) ∧
      exec (.apertureStrongAccess a write off size data) s = .next (aperture s a true write off size data) := by
  have hl : apLegal a off size = true := by
    unfold apLegal
    rw [decide_eq_true hs, decide_eq_true ho, decide_eq_true (show a < adapterCount from ha)]
    rfl
  refine ⟨?_, ?_⟩
  · show settle s (tryApertureAccess a write off size data s) = _
    unfold tryApertureAccess
    rw [hl]
    rfl
  · show settle s (tryApertureStrongAccess a write off size data s) = _
    unfold tryApertureStrongAccess
    rw [hl]
    rfl

/-- The access that an aperture makes. -/
def apAccess (s : State) (a : Nat) (strong write : Bool) (off size data : Nat) : ApWait :=
  { part := (getAdapter s a).ctx.toNat % 8, ctx := (getAdapter s a).ctx.toNat / 2 ^ 16 % 2 ^ 16
    va := ((getAdapter s a).wbase.toNat / 2 ^ aperLog a * 2 ^ aperLog a + off) % 2 ^ 64
    size := size, write := write, data := data, strong := strong, seq := 0 }

theorem aperture_eq (strong write : Bool) (off size data : Nat) : aperture s a strong write off size data =
    if (getAdapter s a).ctx.getLsbD 63 then apArrive s a (apAccess s a strong write off size data)
    else apError s a (apAccess s a strong write off size data) := by
  have hpart : bitsOf (getAdapter s a).ctx.toNat 0 3 = (getAdapter s a).ctx.toNat % 8 := by
    rw [bitsOf, Nat.pow_zero, Nat.div_one]
    rfl
  unfold aperture
  dsimp only
  rw [hpart, ← getLsbD_eq_bitOf]
  rfl

/-- With nothing waiting at the adapter, an access that translates is performed. -/
theorem apArrive_performs {w : ApWait} {ls : List LaneLoc} (hw : (getAdapter s a).waits = []) (hh : (getAdapter s a).held = [])
    (hp : w.part < partCount s) (hc : ctxInArea s w.part w.ctx = true) (hv : ctxValid s w.part w.ctx = true)
    (hx : xlateSet s (.link a) w.part w.ctx (if w.write then .write else .read) (ctxSup s w.part w.ctx)
      (rangeAccs w.va w.size) = .ok ls) : apArrive s a w = apPerform s a w ls := by
  have hok : ¬(partCount s ≤ w.part ∨ (!ctxInArea s w.part w.ctx) = true ∨ (!ctxValid s w.part w.ctx) = true) := by
    rw [hc, hv]
    simp [Nat.not_le.2 hp]
  have hm : apMake s a w = some (apPerform s a w ls) := by
    unfold apMake
    rw [if_neg hok, hx]
  unfold apArrive
  simp only [hw, hh, hm, List.append_nil, List.any_nil, Bool.false_eq_true, if_false]

end

/-- Settles O54: flits are taken in their turn, a failed retraining takes the port down, and an aperture makes its access. -/
theorem linksAndApertures : Obligations.LinksAndApertures := by
  unfold Obligations.LinksAndApertures
  refine ⟨?receive, fun s p seq flit ok hw => port_idle hw seq flit ok, fun s p hw hr => ⟨?_, retrain_fails hw hr⟩, ?send, ?access⟩
  case receive =>
    intro s p seq flit hw hr hl good s1
    have hx := flitReceive_eq (seq := seq) hw hr hl
    refine ⟨fun hne => ?_, fun heq hg => ?_, fun heq hb => ?_⟩
    · rw [hx, if_pos hne]
    · have hg' : flitOk flit = true := hg
      rw [hx, if_neg (not_not.2 heq), if_pos hg']
      rfl
    · have hb' : ¬flitOk flit = true := by rw [show flitOk flit = false from hb]; exact Bool.false_ne_true
      rw [if_neg (not_not.2 heq), if_neg hb'] at hx
      obtain ⟨hseq, hre, hmsg⟩ := flitBad_leaves s p seq
      exact ⟨_, hx, hseq.trans heq.symm, hre, hmsg⟩
  case send =>
    intro s p hw hr
    refine ⟨fun x r ha ho hlen => ?_, fun k ha => portSend_replay hw hr ha⟩
    rw [portSend_next hw hr ha ho]
    have hport := getPort_modPort s p fun v => { v with
      out := r, sendSeq := v.sendSeq + 1
      sent := ((getPort s p).sent ++ [((getPort s p).sendSeq, x)]).drop ((getPort s p).sent.length - 63) }
    refine ⟨rfl, congrArg Port.out hport, congrArg Port.sendSeq hport, ?_, ?_⟩
    · refine (congrArg Port.sent hport).symm ▸ ?_
      rw [List.drop_append_of_le_length (Nat.sub_le ..)]
      exact List.mem_append_right _ (List.mem_singleton.2 rfl)
    · refine (congrArg (fun v => v.sent.length) hport).le.trans ?_
      rw [List.length_drop, List.length_append, List.length_singleton]
      omega
  case access =>
    intro s a write off size data d ha hs ho part ctx va plain strong err ag
    obtain ⟨hp, hst⟩ := aperture_reached (s := s) ha hs ho write data
    rw [aperture_eq] at hp hst
    refine ⟨fun hclosed => ?_, fun ls hopen hw hh hpart hc hv hx => ?_⟩
    · rw [if_neg (by rw [hclosed]; exact Bool.false_ne_true)] at hp hst
      exact ⟨hp, hst⟩
    · rw [if_pos hopen] at hp hst
      have hmade (strong : Bool) := apArrive_performs (w := apAccess s a strong write off size data) hw hh hpart hc hv hx
      rw [hmade] at hp hst
      refine ⟨hp.trans ?_, hst.trans ?_⟩
      · cases write <;> rfl
      · cases write <;> rfl
  · rw [retrain_eq hw hr]
    rfl

end Sys2Proof.Claims
end

section
/-!
SUPPORT. Clause fetch, dictionary loads, path rotation, boosts and the end of groups (08 R183, R184; 09 R213; 11 R233 to R246).
-/
namespace Sys2Proof.Claims
open Sys2Proof.Machine

/-! ## The slots of a clause -/

/-- Slots that name no dictionary entry decode alike under every dictionary. -/
theorem decodeSlots_congr (v v' : DictView) {k : Nat} {ws : List Nat} (h : needsDict k ws = false) :
    decodeSlots v k ws = decodeSlots v' k ws := by
  induction k using Nat.strongRecOn generalizing ws with
  | _ k ih =>
    match k, ws with
    | 0, _ => unfold decodeSlots; rfl
    | k + 1, [] => unfold decodeSlots; rfl
    | k + 1, w :: r =>
      unfold needsDict at h
      unfold decodeSlots
      by_cases h1 : w / 2 ^ 24 ≠ 255
      · rw [if_pos h1] at h
        cases h
      · rw [if_neg h1] at h
        rw [if_neg h1, if_neg h1]
        by_cases h2 : w % 2 ^ 24 ≠ 0
        · rw [if_pos h2] at h
          rw [if_pos h2, if_pos h2, ih k (Nat.lt_succ_self k) h]
        · rw [if_neg h2] at h
          rw [if_neg h2, if_neg h2]
          match r with
          | [] => dsimp only at h ⊢; rw [ih k (Nat.lt_succ_self k) h]
          | [x] => dsimp only at h ⊢; rw [ih k (Nat.lt_succ_self k) h]
          | x :: y :: r' => dsimp only at h ⊢; rw [ih k (Nat.lt_succ_self k) h]

theorem decodeSlots_long (v : DictView) (k hi lo : Nat) (r : List Nat) : decodeSlots v (k + 1) (0xFF000000 :: hi :: lo :: r) =
    .long (BitVec.ofNat 64 (hi * 2 ^ 32 + lo)) true :: .cont :: .cont :: decodeSlots v k r := by
  conv_lhs => unfold decodeSlots
  rw [if_neg (by decide), if_neg (by decide)]

theorem decodeSlots_entry (es : List (Nat × Nat)) (k w : Nat) (r : List Nat) (h : w / 2 ^ 24 ≠ 0xFF) :
    decodeSlots (.image es) (k + 1) (w :: r) = slotOfImage (.image es) w :: decodeSlots (.image es) k r := by
  conv_lhs => unfold decodeSlots
  rw [if_pos h]

section
variable {s : State} {c : Iss} {q : PathId}

theorem fetchable_of (hr : canRun c = true) (hc : c.p.clause = none) (hw : c.p.wait = .none)
    (hrot : c.p.rotate = false ∨ hasParked c.g = false) : fetchable c = true := by
  unfold fetchable
  rw [hr, hc, hw]
  rcases hrot with h | h <;> simp [h]

theorem clauseFetch_fetches {h : Nat} {ws : List Nat} {s1 s2 : State} (hi : issOf s q = some c) (hr : canRun c = true)
    (hc : c.p.clause = none) (hw : c.p.wait = .none) (hrot : c.p.rotate = false ∨ hasParked c.g = false)
    (hf : c.p.fetchFail = false) (ha : c.p.addr < 2 ^ 48) (hres : c.p.resumed = false)
    (hh : fetchWords s c c.p.addr 1 = .words [h] s1) (hok : headerOk (BitVec.ofNat 32 h) = true)
    (hb : fetchWords s1 c (c.p.addr + 4) (h % 16) = .words ws s2) (hn : needsDict 15 ws = false) :
    exec (.clauseFetch q) s = .next (modPath s2 c.gid c.live fun p => withClause p
      { addr := c.p.addr, header := BitVec.ofNat 32 h, slots := decodeSlots .rejected 15 ws }) := by
  have hfc : fetchedClause s2 c h ws = .next (modPath s2 c.gid c.live fun p => withClause p
      { addr := c.p.addr, header := BitVec.ofNat 32 h, slots := decodeSlots .rejected 15 ws }) := by
    unfold fetchedClause
    rw [decodeSlots_congr .rejected (dictView s2 c) hn]
    simp only [hn, hres, Bool.false_and, Bool.false_eq_true, if_false]
    cases dictView s2 c <;> rfl
  have hgo : ¬(c.p.fetchFail = true ∨ 2 ^ 48 ≤ c.p.addr) := by
    rw [hf]
    exact not_or.2 ⟨Bool.false_ne_true, Nat.not_le.2 ha⟩
  show settle s (tryClauseFetch q s) = _
  unfold tryClauseFetch
  rw [hi]
  simp only [fetchable_of hr hc hw hrot, hgo, hh, List.headD_cons, hok, Bool.not_true, Bool.false_eq_true, if_false, hb]
  exact congrArg (settle s) hfc

/-! ## The dictionary slot -/

/-- Whether a slot of the cache is that of the path's image. -/
theorem dictSlot_eq (s : State) (c : Iss) : dictSlot s c = (getCore s c.core).dicts.find? (·.isOf c) := rfl

theorem getCore_modCore (s : State) (k : Nat) (F : Core → Core) : getCore (modCore s k F) k = F (getCore s k) := spGet_spSet_self ..

/-- A slot of the cache that waits for its image. -/
def newSlot (s : State) (c : Iss) : DictSlot :=
  { part := c.part, ctx := c.ctx, handle := c.p.handle, addr := 0, state := .loading, entries := [], used := s.clk }

/-- A slot that has been opened stands in the cache, waiting for its image. -/
theorem dictSlot_openDict (h : dictSlot s c = none) : dictSlot (openDict s c) c = some (newSlot s c) := by
  rw [dictSlot_eq, List.find?_eq_none] at h
  have hold : ∀ l : List DictSlot, (∀ d ∈ l, d ∈ (getCore s c.core).dicts) → l.find? (·.isOf c) = none :=
    fun l hl => List.find?_eq_none.2 fun d hd => h d (hl d hd)
  have hn : ¬(dictSlot s c).isSome = true := by
    rw [dictSlot_eq, List.find?_eq_none.2 h]
    exact Bool.false_ne_true
  unfold openDict
  rw [if_neg hn, dictSlot_eq, getCore_modCore, List.find?_append, hold]
  · rw [Option.none_or, List.find?_cons_of_pos]
    · rfl
    · simp [DictSlot.isOf]
  · intro d hd
    split at hd
    · exact hd
    · split at hd
      · exact List.mem_of_mem_eraseIdx hd
      · exact hd

theorem quiet_openDict (s : State) (c : Iss) : Quiet s (openDict s c) := by
  unfold openDict
  exact .ite rfl rfl

theorem openDict_open {d : DictSlot} (h : dictSlot s c = some d) : openDict s c = s := if_pos (by rw [h]; rfl)

/-- A change of the path's slot that keeps what names it is made there. -/
theorem dictSlot_modDict {d : DictSlot} {F : DictSlot → DictSlot} (hF : ∀ x, (F x).isOf c = x.isOf c)
    (h : dictSlot s c = some d) : dictSlot (modDict s c F) c = some (F d) := by
  rw [dictSlot_eq] at h
  unfold modDict
  rw [dictSlot_eq, getCore_modCore]
  generalize (getCore s c.core).dicts = l at h
  show (l.map fun d => if d.isOf c then F d else d).find? (·.isOf c) = _
  have hcomp : ((fun x : DictSlot => x.isOf c) ∘ fun d => if d.isOf c then F d else d) = fun x => x.isOf c := by
    funext x
    show (if x.isOf c then F x else x).isOf c = _
    split
    · exact hF x
    · rfl
  have hd : d.isOf c = true := List.find?_some (p := fun x : DictSlot => x.isOf c) h
  rw [List.find?_map, hcomp, h, Option.map_some, if_pos hd]

theorem dictSlot_opened (s : State) (c : Iss) : ∃ d, dictSlot (openDict s c) c = some d := by
  cases h : dictSlot s c with
  | none => exact ⟨_, dictSlot_openDict h⟩
  | some d => exact ⟨d, by rw [openDict_open h, h]⟩

theorem closeDict_closes {d : DictSlot} (st : DictState) (es : List (Nat × Nat)) (h : dictSlot s c = some d) :
    openDict s c = s ∧ dictSlot (closeDict s c st es) c = some { d with state := st, entries := es, used := s.clk, failed := false } :=
  ⟨openDict_open h, dictSlot_modDict (fun _ => rfl) h⟩

/-- The words of a dictionary record. -/
theorem record_fields {e : Nat} (hlow : e % 2 ^ 12 = 1) (hmid : e / 2 ^ 48 % 2 ^ 16 = 0) (hhigh : e / 2 ^ 96 % 2 ^ 32 = 0) :
    ¬((!bitOf e 0 || bitsOf e 1 11 != 0 || bitsOf e 48 16 != 0 || bitsOf e 96 32 != 0) = true) := by
  have h0 : bitOf e 0 = true := by
    rw [bitOf, Nat.pow_zero, Nat.div_one]
    exact beq_iff_eq.2 (by omega)
  have h1 : bitsOf e 1 11 = 0 := by
    show e / 2 ^ 1 % 2 ^ 11 = 0
    omega
  rw [h0, h1, show bitsOf e 48 16 = 0 from hmid, show bitsOf e 96 32 = 0 from hhigh]
  decide

theorem dictLoad_loads {core ctx handle : Nat} {bs : List Byte} {bad : Bool} (hw : wantsDict s core ctx handle = some c)
    (hfail : ∀ d, dictSlot s c = some d → d.failed = false)
    (hr : readRange (openDict s c) (.core c.core) c.part c.ctx .table true ((ctxBase s c.part c.ctx 256 + 16 * handle) % 2 ^ 64)
      16 = .ok bs bad) :
    exec (.dictionarySlotLoad core ctx handle) s =
      let s2 := rangeAsked (openDict s c) (.core c.core) c.part c.ctx .table true
        ((ctxBase s c.part c.ctx 256 + 16 * handle) % 2 ^ 64) 16
      settle s (if bad then .next (closeDict s2 c .rejected []) else loadImage s2 c (leNat bs)) := by
  have hnot : ((dictSlot (openDict s c) c).map (·.failed)).getD false = false := by
    cases hd : dictSlot s c with
    | none => rw [dictSlot_openDict hd]; rfl
    | some d => rw [openDict_open hd, hd]; exact hfail d hd
  show settle s (tryDictionarySlotLoad core ctx handle s) = _
  unfold tryDictionarySlotLoad
  rw [hw]
  dsimp only
  rw [hnot, if_neg Bool.false_ne_true, hr]

/-- A record that is sound brings its image. -/
theorem loadImage_loads {e : Nat} {ls : List LaneLoc} (hlow : e % 2 ^ 12 = 1) (hmid : e / 2 ^ 48 % 2 ^ 16 = 0)
    (hhigh : e / 2 ^ 96 % 2 ^ 32 = 0) :
    let s3 := modDict s c fun d => { d with addr := e / 2 ^ 12 % 2 ^ 36 * 4096 }
    xlateSet s3 (.core c.core) c.part c.ctx .fetch (c.sup s3) (rangeAccs (e / 2 ^ 12 % 2 ^ 36 * 4096) 4096) = .ok ls →
    let q := codeSet c.core (imageMust s3 c) s3 ls
    let es := imageEntries q.1.bytes
    loadImage s c e = .next (closeDict (noteFetched q.2 c ls) c
      (if q.1.bad = false ∧ imageOk s.stepping (es.map fun e => e.1 + 2 ^ 64 * e.2) = true then .loaded else .rejected) es) := by
  intro s3 hls q es
  have hls' : xlateSet (modDict s c fun d => { d with addr := bitsOf e 12 36 * 4096 }) (.core c.core) c.part c.ctx .fetch
      (c.sup (modDict s c fun d => { d with addr := bitsOf e 12 36 * 4096 })) (rangeAccs (bitsOf e 12 36 * 4096) 4096) =
        .ok ls := hls
  have hstate : (if (q.1.bad || !imageOk s.stepping (es.map fun e => e.1 + 2 ^ 64 * e.2)) = true then DictState.rejected
      else .loaded) =
      if q.1.bad = false ∧ imageOk s.stepping (es.map fun e => e.1 + 2 ^ 64 * e.2) = true then .loaded else .rejected := by
    cases q.1.bad <;> cases imageOk s.stepping (es.map fun e => e.1 + 2 ^ 64 * e.2) <;> rfl
  unfold loadImage
  rw [if_neg (record_fields hlow hmid hhigh)]
  dsimp only
  rw [hls', ← hstate]
  rfl

/-! ## Rotation -/

theorem takeOldestParked_none {l : List Rec} (h : ∀ x ∈ l, x.kind ≠ .parked) : takeOldestParked l = none := by
  induction l with
  | nil => rfl
  | cons x r ih =>
    unfold takeOldestParked
    rw [ih fun y hy => h y (List.mem_cons_of_mem _ hy)]
    exact if_neg (h x (List.mem_cons_self ..))

/-- The oldest parked record is the last of the stack. -/
theorem takeOldestParked_eq {pre post : List Rec} {r : Rec} (hr : r.kind = .parked) (hp : ∀ x ∈ post, x.kind ≠ .parked) :
    takeOldestParked (pre ++ r :: post) = some (r, pre ++ post) := by
  induction pre with
  | nil =>
    show takeOldestParked (r :: post) = _
    unfold takeOldestParked
    rw [takeOldestParked_none hp]
    exact if_pos hr
  | cons x l ih =>
    show takeOldestParked (x :: (l ++ r :: post)) = _
    unfold takeOldestParked
    rw [ih]
    rfl

theorem rotation_rotates {pre post : List Rec} {r : Rec} (h : issOf s q = some c) (hrot : c.p.rotate = true)
    (hc : c.p.clause = none) (hs : c.g.stack = pre ++ r :: post) (hr : r.kind = .parked)
    (hp : ∀ x ∈ post, x.kind ≠ .parked) : exec (.pathRotation q) s = .next (modGroup s c.gid fun g =>
      { g.setLive c.live (some (freshPath r.addr r.slot r.mask r.fmt r.handle)) with stack := parkedRec c.p :: pre ++ post }) := by
  show settle s (tryPathRotation q s) = _
  unfold tryPathRotation
  rw [h]
  dsimp only
  rw [hs, takeOldestParked_eq hr hp]
  simp only [hrot, hc, Bool.not_true, Option.isSome_none, Bool.or_false, Bool.false_eq_true, if_false]
  rfl

end

/-! ## Boosts and ends of groups -/

/-- A path of the group that has waited 1,024 clocks ready. -/
def lateFor (s : State) (gid : Nat) (g : Group) (n : Nat) : Bool :=
  match g.live n with
  | some p => !p.boosted && decide (1024 ≤ p.readyFor) && readyNow s ⟨gid, n⟩
  | none => false

/-- The boost of a late path. -/
def boostLate (gid : Nat) (late : Bool) (n : Nat) (s : State) : State :=
  if late then modPath s gid n fun p => { p with boosted := true } else s

theorem boostLate_groups (gid : Nat) (late : Bool) (n : Nat) (s : State) :
    { boostLate gid late n s with groups := s.groups } = s := by
  unfold boostLate
  split <;> rfl

theorem getGroup_boostLate {s : State} {gid : Nat} {g : Group} (h : getGroup s gid = some g) (late : Bool) (n : Nat) :
    getGroup (boostLate gid late n s) gid =
      some (if late then g.setLive n ((g.live n).map fun p => { p with boosted := true }) else g) := by
  unfold boostLate
  split
  · rw [modPath, getGroup_modGroup, if_pos rfl, h]
    rfl
  · exact h

theorem setLive_live_ne (g : Group) {n m : Nat} (h : (n = 0 ∧ m = 1) ∨ (n = 1 ∧ m = 0)) (p : Option Path) :
    (g.setLive n p).live m = g.live m := by
  rcases h with ⟨rfl, rfl⟩ | ⟨rfl, rfl⟩ <;> rfl

/-- A path that has been ready for 1,024 clocks is boosted. -/
theorem groupBoost_boosts {s : State} {gid : Nat} {g : Group} {n : Nat} {p : Path} (hg : getGroup s gid = some g)
    (hb : p.boosted = false) (hn : n = 0 ∨ n = 1) (hp : g.live n = some p) (hr : 1024 ≤ p.readyFor)
    (hready : readyNow s ⟨gid, n⟩ = true) : ∃ t k, exec (.groupBoost gid) s = .next t ∧ getGroup t gid = some k ∧
      k.live n = some { p with boosted := true } ∧ { t with groups := s.groups } = s := by
  have hlate : lateFor s gid g n = true := by
    unfold lateFor
    rw [hp]
    dsimp only
    rw [hb, decide_eq_true hr, hready]
    rfl
  have hexec : exec (.groupBoost gid) s =
      .next (boostLate gid (lateFor s gid g 1) 1 (boostLate gid (lateFor s gid g 0) 0 s)) := by
    have hany : (lateFor s gid g 0 || lateFor s gid g 1) = true := by
      rcases hn with rfl | rfl
      · rw [hlate, Bool.true_or]
      · rw [hlate, Bool.or_true]
    show settle s (tryGroupBoost gid s) = _
    unfold tryGroupBoost
    rw [hg]
    exact congrArg (settle s) (if_pos hany)
  have h0 := getGroup_boostLate hg (lateFor s gid g 0) 0
  refine ⟨_, _, hexec, getGroup_boostLate h0 (lateFor s gid g 1) 1, ?_, ?_⟩
  · rcases hn with rfl | rfl
    · rw [hlate, if_pos rfl]
      split
      · rw [setLive_live_ne _ (.inr ⟨rfl, rfl⟩), setLive_live_self, hp]
        rfl
      · rw [setLive_live_self, hp]
        rfl
    · rw [hlate, if_pos rfl, setLive_live_self]
      split
      · rw [setLive_live_ne _ (.inl ⟨rfl, rfl⟩), hp]
        rfl
      · rw [hp]
        rfl
  · have h1 := boostLate_groups gid (lateFor s gid g 1) 1 (boostLate gid (lateFor s gid g 0) 0 s)
    have h2 := boostLate_groups gid (lateFor s gid g 0) 0 s
    rw [← h1] at h2
    exact h2

/-- A quiet group leaves its place while another of its team goes on. -/
theorem freeGroup_frees {s : State} {gid : Nat} {g : Group} {t : Team} (ht : getTeam s g.team = some t)
    (hq : groupQuiet s gid g = true) (ho : ∃ k ∈ t.groups, k ≠ gid ∧ ∃ x, getGroup s k = some x ∧ x.ended = false) :
    freeGroup s gid g = modTeam (forgetGroup (modGroup s gid fun g => { g with place := none }) gid) g.team fun t =>
      { t with left := addIds t.left (groupReleased s gid) } := by
  unfold freeGroup
  rw [hq, if_neg (by decide)]
  dsimp only
  have hteam : getTeam (modTeam (forgetGroup (modGroup s gid fun g => { g with place := none }) gid) g.team fun t =>
      { t with left := addIds t.left (groupReleased s gid) }) g.team =
      some { t with left := addIds t.left (groupReleased s gid) } := by
    show spFind (spMod s.teams g.team _) g.team = _
    rw [spFind_spMod_self]
    exact congrArg (Option.map _) ht
  rw [hteam]
  dsimp only
  rw [if_neg]
  obtain ⟨k, hk, hne, x, hx, hend⟩ := ho
  intro hall
  have h := List.all_eq_true.1 hall k hk
  have hgrp : getGroup (modTeam (forgetGroup (modGroup s gid fun g => { g with place := none }) gid) g.team fun t =>
      { t with left := addIds t.left (groupReleased s gid) }) k = some x := by
    show getGroup (modGroup s gid fun g => { g with place := none }) k = _
    rw [getGroup_modGroup, if_neg hne, hx]
  rw [hgrp] at h
  simp only [hend, Bool.false_and, Bool.false_eq_true] at h

/-- A group whose last path has left ends, and leaves its place when nothing of it is under way. -/
theorem groupEnd_ends {s : State} {gid : Nat} {g : Group} {t : Team} (hg : getGroup s gid = some g)
    (ht : getTeam s g.team = some t) (hend : g.ended = false) (hph : t.phase = .running) (hsv : g.saved = false)
    (h0 : g.live0 = none) (h1 : g.live1 = none) (hst : g.stack = []) (hsp : spawnDuty s gid t = false)
    (hl : ∀ e ∈ t.latch, e.2.members.contains g.index = false) : exec (.groupEnd gid) s =
      .next (freeGroup (setGroup s gid { g with ended := true, rets := [], halt := none }) gid
        { g with ended := true, rets := [], halt := none }) := by
  have hno : ¬(t.phase ≠ .running ∨ g.saved = true ∨ g.live0.isSome = true ∨ g.live1.isSome = true ∨ g.stack ≠ [] ∨
      spawnDuty s gid t = true) := by
    rw [hph, hsv, h0, h1, hst, hsp]
    simp
  have hbreak : breakLatches (setGroup s gid { g with ended := true, rets := [], halt := none }) gid
      { g with ended := true, rets := [], halt := none } = setGroup s gid { g with ended := true, rets := [], halt := none } := by
    have ht' : getTeam (setGroup s gid { g with ended := true, rets := [], halt := none }) g.team = some t := ht
    unfold breakLatches
    simp only [ht']
    rw [List.filter_eq_nil_iff.2 fun e he => by rw [hl e he]; exact Bool.false_ne_true]
    rfl
  show settle s (tryGroupEnd gid s) = _
  unfold tryGroupEnd
  rw [hg]
  dsimp only
  rw [ht]
  dsimp only
  rw [hend, if_neg Bool.false_ne_true, if_neg hno, hbreak]
  rfl

/-- Settles O43: clauses decode as their images say, a dictionary slot takes its image, and groups rotate, boost and end. -/
theorem clausesAndGroups : Obligations.ClausesAndGroups := by
  unfold Obligations.ClausesAndGroups
  intro freed
  refine ⟨?fetch, decodeSlots_long, ?entry, ?dict, fun s c st es => ⟨dictSlot_opened s c, fun d hd => closeDict_closes st es hd⟩,
    ?rotate, ?boost, ?ends, ?leaves⟩
  case fetch =>
    intro s q c h s1 ws s2 hi hr hc hw hrot hf ha hres hh hok hb hn
    exact clauseFetch_fetches hi hr hc hw hrot hf ha hres hh hok hb hn
  case entry =>
    intro es k w r _ hw
    exact decodeSlots_entry es k w r hw
  case dict =>
    intro s core ctx handle c bs bad hw hfail s1 at_ hr s2 e addr
    have hx := dictLoad_loads hw hfail hr
    refine ⟨fun hbad => ?_, fun hbad hlow hmid hhigh => ?_⟩
    · refine hx.trans ?_
      rw [hbad]
      rfl
    · intro s3 ls hls q es
      refine hx.trans ?_
      rw [hbad]
      have hstep : s2.stepping = s.stepping := by
        have hq : Quiet s s2 := (quiet_openDict s c).trans (calm_rangeAsked ..).1
        exact congrArg (·.stepping) hq
      have hload := congrArg (settle s) (loadImage_loads hlow hmid hhigh hls)
      rw [hstep] at hload
      exact hload
  case rotate =>
    intro s q c pre r post h hrot hc hs hr hp mine
    exact rotation_rotates h hrot hc hs hr hp
  case boost =>
    intro s gid g n p hg hb hn hp hr hready
    exact groupBoost_boosts hg hb hn hp hr hready
  case ends =>
    intro s gid g t hg ht hend hph hsv h0 h1 hst hsp hl s1
    have hx := groupEnd_ends hg ht hend hph hsv h0 h1 hst hsp hl
    have hquiet : groupQuiet s1 gid { g with ended := true, rets := [], halt := none } = groupQuiet s gid g := rfl
    refine ⟨fun hq => ?_, fun hq ho => ?_⟩
    · rw [hx]
      unfold freeGroup
      rw [hquiet, hq]
      rfl
    · have ht' : getTeam s1 g.team = some t := ht
      have ho' : ∃ k ∈ t.groups, k ≠ gid ∧ ∃ x, getGroup s1 k = some x ∧ x.ended = false := by
        obtain ⟨k, hk, hne, x, hx, he⟩ := ho
        exact ⟨k, hk, hne, x, (spFind_spPut_ne _ _ hne).trans hx, he⟩
      exact hx.trans (congrArg _ (freeGroup_frees ht' (hquiet.trans hq) ho'))
  case leaves =>
    intro s gid g t hg ht hend hpl hq ho
    have hno : ¬(g.place.isNone = true ∨ (!groupQuiet s gid g) = true) := by
      rw [hq]
      simp [Option.isNone_iff_eq_none, hpl]
    show settle s (tryGroupEnd gid s) = _
    unfold tryGroupEnd
    rw [hg]
    dsimp only
    rw [ht]
    dsimp only
    rw [hend, if_pos rfl, if_neg hno, freeGroup_frees ht hq ho]
    rfl

end Sys2Proof.Claims
end

section
/-!
SUPPORT. The machine's own reads and writes of memory (03 R62; 10 R222): what a write of bytes leaves, and the fields of a
context's record.
-/
namespace Sys2Proof.Claims
open Sys2Proof.Machine

/-! ## Writes of bytes -/

theorem patchWord_length {v : List Byte × Bool} (hv : v.1.length = 8) (cells : List (Nat × Byte)) (bad : Bool) :
    (patchWord v cells bad).1.length = 8 := (length_patch v.1 cells).trans hv

/-- The words that some bytes touch. -/
theorem mem_cellWords {bs : List (Nat × Byte)} {e : Nat × List (Nat × Byte)} (h : e ∈ cellWords bs) :
    (∃ b ∈ bs, b.1 / 8 = e.1) ∧ e.2 = (bs.filter fun b => b.1 / 8 == e.1).map fun b => (b.1 % 8, b.2) := by
  obtain ⟨w, hw, rfl⟩ := List.mem_map.1 h
  obtain ⟨b, hb, rfl⟩ := List.mem_map.1 (List.mem_eraseDups.1 hw)
  exact ⟨⟨b, hb, rfl⟩, rfl⟩

theorem nodup_eraseDups (l : List Nat) : l.eraseDups.Nodup := by
  induction h : l.length using Nat.strongRecOn generalizing l with
  | _ n ih =>
    cases l with
    | nil => exact List.nodup_nil
    | cons a r =>
      rw [List.eraseDups_cons, List.nodup_cons]
      have hlt : (r.filter fun b => !b == a).length < n := by
        rw [← h, List.length_cons]
        exact Nat.lt_succ_of_le (List.length_filter_le ..)
      refine ⟨fun hm => ?_, ih _ hlt _ rfl⟩
      have := (List.mem_filter.1 (List.mem_eraseDups.1 hm)).2
      simp at this

theorem nodup_cellWords (bs : List (Nat × Byte)) : ((cellWords bs).map (·.1)).Nodup := by
  unfold cellWords
  rw [List.map_map]
  have hid : ((·.1) ∘ fun w => (w, (bs.filter fun e => e.1 / 8 == w).map fun e => (e.1 % 8, e.2))) = (id : Nat → Nat) := rfl
  rw [hid, List.map_id]
  exact nodup_eraseDups _

/-- One word of a write. -/
def putWord (cmp : Nat) (bad : Bool) (s : State) (e : Nat × List (Nat × Byte)) : State :=
  l2SetWord s cmp e.1 (patchWord (l2Word s cmp e.1) e.2 bad)

theorem l2Write_eq (s : State) (cmp : Nat) (bs : List (Nat × Byte)) (bad : Bool) :
    l2Write s cmp bs bad = (cellWords bs).foldl (putWord cmp bad) s := rfl

theorem Stored.putWord {s : State} {a : Nat} {b : Byte} (h : Stored s a b) {cmp : Nat} {bad : Bool} {e : Nat × List (Nat × Byte)}
    (ha : a / 8 ≠ e.1) : Stored (putWord cmp bad s e) a b :=
  h.l2SetWord_ne cmp (patchWord_length (l2Word_length ..) ..) ha

theorem Stored.putWords {s : State} {a : Nat} {b : Byte} (h : Stored s a b) {cmp : Nat} {bad : Bool}
    {es : List (Nat × List (Nat × Byte))} (ha : ∀ e ∈ es, a / 8 ≠ e.1) : Stored (es.foldl (Claims.putWord cmp bad) s) a b := by
  induction es generalizing s with
  | nil => exact h
  | cons e r ih => exact ih (h.putWord (ha e (List.mem_cons_self ..))) fun x hx => ha x (List.mem_cons_of_mem _ hx)

/-- A byte of the word that is put, or of that word as it was. -/
theorem stored_putWord (s : State) (cmp : Nat) (bad : Bool) (e : Nat × List (Nat × Byte)) {a : Nat} (ha : a / 8 = e.1) :
    Stored (putWord cmp bad s e) a ((patchWord (l2Word s cmp e.1) e.2 bad).1.getD (a % 8) 0) :=
  stored_l2SetWord s cmp e.1 (patchWord_length (l2Word_length ..) ..) ha

/-- A stored byte stays when a word is put that does not name it. -/
theorem Stored.putWord_other {s : State} {a : Nat} {b : Byte} (h : Stored s a b) {cmp : Nat} {bad : Bool}
    {e : Nat × List (Nat × Byte)} (ha : a / 8 = e.1 → ∀ c ∈ e.2, c.1 ≠ a % 8) : Stored (Claims.putWord cmp bad s e) a b := by
  by_cases hw : a / 8 = e.1
  · have hput := stored_putWord s cmp bad e hw
    have hadd : 8 * e.1 + a % 8 = a := by omega
    have hbyte : (patchWord (l2Word s cmp e.1) e.2 bad).1.getD (a % 8) 0 = b := by
      refine (getD_patch_of_not_mem _ fun hm => ?_).trans ?_
      · obtain ⟨c, hc, heq⟩ := List.mem_map.1 hm
        exact ha hw c hc heq
      · refine (getD_l2Bytes s cmp (8 * e.1) (Nat.mod_lt _ (by decide))).trans ?_
        rw [hadd]
        exact h.1 cmp
    rw [hbyte] at hput
    exact hput
  · exact h.putWord hw

/-- A byte that a write of distinct bytes names is stored. -/
theorem stored_l2Write (s : State) (cmp : Nat) {bs : List (Nat × Byte)} (bad : Bool) (hn : (bs.map (·.1)).Nodup) {b : Nat × Byte}
    (hb : b ∈ bs) : Stored (l2Write s cmp bs bad) b.1 b.2 := by
  rw [l2Write_eq]
  have hmem : (b.1 / 8, (bs.filter fun e => e.1 / 8 == b.1 / 8).map fun e => (e.1 % 8, e.2)) ∈ cellWords bs :=
    List.mem_map.2 ⟨b.1 / 8, List.mem_eraseDups.2 (List.mem_map_of_mem hb), rfl⟩
  have hkeys := nodup_cellWords bs
  obtain ⟨l₁, l₂, hl⟩ := List.append_of_mem hmem
  rw [hl] at hkeys ⊢
  rw [List.map_append, List.map_cons] at hkeys
  rw [List.foldl_append, List.foldl_cons]
  have hnot := (List.nodup_cons.1 (List.nodup_append.1 hkeys).2.1).1
  refine Stored.putWords ?_ fun e he heq => hnot (List.mem_map.2 ⟨e, he, heq.symm⟩)
  generalize l₁.foldl (putWord cmp bad) s = t
  have h := stored_putWord t cmp bad (b.1 / 8, (bs.filter fun e => e.1 / 8 == b.1 / 8).map fun e => (e.1 % 8, e.2)) (a := b.1) rfl
  have hcells : (((bs.filter fun e => e.1 / 8 == b.1 / 8).map fun e => (e.1 % 8, e.2)).map (·.1)).Nodup := by
    rw [List.map_map]
    have hsub : ((bs.filter fun e => e.1 / 8 == b.1 / 8).map (·.1)).Nodup := hn.sublist (List.filter_sublist.map _)
    have hmod : (bs.filter fun e => e.1 / 8 == b.1 / 8).map ((·.1) ∘ fun e => (e.1 % 8, e.2)) =
        ((bs.filter fun e => e.1 / 8 == b.1 / 8).map (·.1)).map (· % 8) := by
      rw [List.map_map]
      rfl
    rw [hmod]
    refine List.Nodup.map_on (fun x hx y hy hxy => ?_) hsub
    obtain ⟨x', hx', rfl⟩ := List.mem_map.1 hx
    obtain ⟨y', hy', rfl⟩ := List.mem_map.1 hy
    have hx8 := beq_iff_eq.1 (List.mem_filter.1 hx').2
    have hy8 := beq_iff_eq.1 (List.mem_filter.1 hy').2
    omega
  have hcell : (b.1 % 8, b.2) ∈ (bs.filter fun e => e.1 / 8 == b.1 / 8).map fun e => (e.1 % 8, e.2) :=
    List.mem_map.2 ⟨b, List.mem_filter.2 ⟨hb, beq_self_eq_true _⟩, rfl⟩
  have hpatch : (patchWord (l2Word t cmp (b.1 / 8)) ((bs.filter fun e => e.1 / 8 == b.1 / 8).map fun e => (e.1 % 8, e.2)) bad).1.getD
      (b.1 % 8) 0 = b.2 := getD_patch hcells hcell (by rw [l2Word_length]; exact Nat.mod_lt _ (by decide))
  rw [hpatch] at h
  exact h

/-- Stored bytes that a write does not name stay. -/
theorem Stored.l2Write {s : State} {a : Nat} {b : Byte} (h : Stored s a b) (cmp : Nat) {bs : List (Nat × Byte)} (bad : Bool)
    (ha : ∀ e ∈ bs, e.1 ≠ a) : Stored (l2Write s cmp bs bad) a b := by
  have hkeep (es : List (Nat × List (Nat × Byte))) (hes : ∀ e ∈ es, e ∈ cellWords bs) {t : State} (ht : Stored t a b) :
      Stored (es.foldl (Claims.putWord cmp bad) t) a b := by
    induction es generalizing t with
    | nil => exact ht
    | cons e r ih =>
      refine ih (fun x hx => hes x (List.mem_cons_of_mem _ hx)) (ht.putWord_other fun hw c hc heq => ?_)
      obtain ⟨-, hcells⟩ := mem_cellWords (hes e (List.mem_cons_self ..))
      rw [hcells] at hc
      obtain ⟨d, hd, rfl⟩ := List.mem_map.1 hc
      obtain ⟨hdb, hd8⟩ := List.mem_filter.1 hd
      have hd8' := beq_iff_eq.1 hd8
      have heq' : d.1 % 8 = a % 8 := heq
      exact ha d hdb (by omega)
  exact hkeep _ (fun _ h => h) h

theorem mem_l2Write {s : State} (cmp : Nat) {bs : List (Nat × Byte)} (bad : Bool) (h : ∀ b ∈ bs, locExists (8 * (b.1 / 8)) = true) :
    (l2Write s cmp bs bad).mem = s.mem := by
  rw [l2Write_eq]
  have hkeep (es : List (Nat × List (Nat × Byte))) (hes : ∀ e ∈ es, e ∈ cellWords bs) (t : State) :
      (es.foldl (putWord cmp bad) t).mem = t.mem := by
    induction es generalizing t with
    | nil => rfl
    | cons e r ih =>
      obtain ⟨⟨b, hb, hw⟩, -⟩ := mem_cellWords (hes e (List.mem_cons_self ..))
      refine (ih (fun x hx => hes x (List.mem_cons_of_mem _ hx)) _).trans (l2SetWord_mem cmp _ ?_)
      rw [← hw]
      exact h b hb
  exact hkeep _ (fun _ h => h) s

/-! ## Numbers in memory -/

theorem mem_cellsAt {loc : Nat} {bs : List Byte} {e : Nat × Byte} (h : e ∈ cellsAt loc bs) :
    ∃ i < bs.length, e = (loc + i, bs.getD i 0) := by
  induction bs generalizing loc with
  | nil => cases h
  | cons b r ih =>
    rcases List.mem_cons.1 h with rfl | h
    · exact ⟨0, Nat.succ_pos _, rfl⟩
    · obtain ⟨i, hi, rfl⟩ := ih h
      exact ⟨i + 1, Nat.succ_lt_succ hi, by rw [List.getD_cons_succ, Nat.add_right_comm, Nat.add_assoc]⟩

theorem cellsAt_mem (loc : Nat) {bs : List Byte} {i : Nat} (hi : i < bs.length) : (loc + i, bs.getD i 0) ∈ cellsAt loc bs := by
  induction bs generalizing loc i with
  | nil => exact absurd hi (Nat.not_lt_zero i)
  | cons b r ih =>
    cases i with
    | zero => exact List.mem_cons_self ..
    | succ i =>
      have h := ih (loc + 1) (Nat.lt_of_succ_lt_succ hi)
      rw [Nat.add_right_comm, Nat.add_assoc] at h
      exact List.mem_cons_of_mem _ h

theorem nodup_cellsAt (loc : Nat) (bs : List Byte) : ((cellsAt loc bs).map (·.1)).Nodup := by
  induction bs generalizing loc with
  | nil => exact List.nodup_nil
  | cons b r ih =>
    refine List.nodup_cons.2 ⟨fun h => ?_, ih (loc + 1)⟩
    obtain ⟨e, he, heq⟩ := List.mem_map.1 h
    obtain ⟨i, -, rfl⟩ := mem_cellsAt he
    have heq' : loc + 1 + i = loc := heq
    omega

/-- The n bytes at a location are those of a number, whatever the compression they are read under. -/
structure Holds (s : State) (pa n v : Nat) : Prop where
  byte : ∀ i < n, Stored s (pa + i) ((leBytes n v).getD i 0)

theorem holds_physWrite (s : State) (pa n v : Nat) : Holds (physWrite s pa n v) pa n v := by
  refine ⟨fun i hi => ?_⟩
  have hmem := cellsAt_mem pa (bs := leBytes n v) (i := i) (by rw [length_leBytes]; exact hi)
  have h := stored_l2Write s 0 false (nodup_cellsAt pa (leBytes n v)) hmem
  exact h

/-- A write elsewhere leaves a number. -/
theorem Holds.physWrite {s : State} {pa n v : Nat} (h : Holds s pa n v) {pa' n' : Nat} (v' : Nat)
    (hd : pa + n ≤ pa' ∨ pa' + n' ≤ pa) : Holds (physWrite s pa' n' v') pa n v := by
  refine ⟨fun i hi => ?_⟩
  refine (h.byte i hi).l2Write 0 false fun e he heq => ?_
  obtain ⟨j, hj, rfl⟩ := mem_cellsAt he
  rw [length_leBytes] at hj
  have heq' : pa' + j = pa + i := heq
  omega

theorem Holds.read {s : State} {pa n v : Nat} (h : Holds s pa n v) : physRead s pa n = v % 256 ^ n := by
  have hb : l2Bytes s 0 pa (leBytes n v).length = leBytes n v :=
    l2Bytes_eq_of fun i hi => (h.byte i (by rwa [length_leBytes] at hi)).1 0
  rw [length_leBytes] at hb
  unfold physRead
  rw [hb, leNat_leBytes]

theorem physRead_lt (s : State) (pa n : Nat) : physRead s pa n < 256 ^ n := by
  have h : ∀ bs : List Byte, leNat bs < 256 ^ bs.length := by
    intro bs
    induction bs with
    | nil => exact Nat.one_pos
    | cons b r ih =>
      have hb : b.toNat < 256 := b.isLt
      rw [leNat, List.length_cons, Nat.pow_succ]
      omega
  have := h (l2Bytes s 0 pa n)
  rwa [length_l2Bytes] at this

theorem mem_physWrite {s : State} {pa n : Nat} (v : Nat) (h : pa + n ≤ hbmSize) : (physWrite s pa n v).mem = s.mem := by
  refine mem_l2Write 0 false fun b hb => ?_
  obtain ⟨i, hi, rfl⟩ := mem_cellsAt hb
  rw [length_leBytes] at hi
  refine locExists_iff.2 (.inl ?_)
  show 8 * ((pa + i) / 8) < 2 ^ 39
  have h' : pa + n ≤ 2 ^ 39 := h
  omega

/-! ## The fields of a context's record -/

/-- The word of a record with one of its fields replaced. -/
def fieldPut (x lo w v : Nat) : Nat := x - bitsOf x lo w * 2 ^ lo + v % 2 ^ w * 2 ^ lo

theorem fieldPut_eq (x lo w v : Nat) :
    fieldPut x lo w v = 2 ^ (lo + w) * (x / 2 ^ (lo + w)) + (2 ^ lo * (v % 2 ^ w) + x % 2 ^ lo) := by
  have h1 : x = 2 ^ lo * (x / 2 ^ lo) + x % 2 ^ lo := (Nat.div_add_mod x (2 ^ lo)).symm
  have h2 : x / 2 ^ lo = 2 ^ w * (x / 2 ^ lo / 2 ^ w) + x / 2 ^ lo % 2 ^ w := (Nat.div_add_mod (x / 2 ^ lo) (2 ^ w)).symm
  have h3 : x / 2 ^ lo / 2 ^ w = x / 2 ^ (lo + w) := by rw [Nat.div_div_eq_div_mul, Nat.pow_add]
  rw [h3] at h2
  have h4 : x = 2 ^ (lo + w) * (x / 2 ^ (lo + w)) + x % 2 ^ lo + x / 2 ^ lo % 2 ^ w * 2 ^ lo := by
    conv_lhs => rw [h1, h2]
    ring
  unfold fieldPut bitsOf
  have h5 : x - x / 2 ^ lo % 2 ^ w * 2 ^ lo = 2 ^ (lo + w) * (x / 2 ^ (lo + w)) + x % 2 ^ lo := by
    exact Nat.sub_eq_of_eq_add h4
  rw [h5]
  ring

theorem testBit_bitsOf (x lo w i : Nat) : (bitsOf x lo w).testBit i = (decide (i < w) && x.testBit (lo + i)) := by
  rw [bitsOf, Nat.testBit_mod_two_pow, Nat.testBit_div_two_pow, Nat.add_comm i lo]

theorem testBit_fieldPut (x lo w v i : Nat) : (fieldPut x lo w v).testBit i =
    if lo ≤ i ∧ i < lo + w then v.testBit (i - lo) else x.testBit i := by
  have hlow : x % 2 ^ lo < 2 ^ lo := Nat.mod_lt _ (Nat.two_pow_pos lo)
  have hmid : 2 ^ lo * (v % 2 ^ w) + x % 2 ^ lo < 2 ^ (lo + w) := by
    have hv : v % 2 ^ w + 1 ≤ 2 ^ w := Nat.mod_lt _ (Nat.two_pow_pos w)
    calc 2 ^ lo * (v % 2 ^ w) + x % 2 ^ lo < 2 ^ lo * (v % 2 ^ w) + 2 ^ lo := Nat.add_lt_add_left hlow _
      _ = 2 ^ lo * (v % 2 ^ w + 1) := by ring
      _ ≤ 2 ^ lo * 2 ^ w := Nat.mul_le_mul_left _ hv
      _ = 2 ^ (lo + w) := (Nat.pow_add ..).symm
  rw [fieldPut_eq, Nat.testBit_two_pow_mul_add _ hmid, Nat.testBit_two_pow_mul_add _ hlow]
  by_cases h1 : i < lo
  · rw [if_pos (by omega), if_pos h1, if_neg (by omega), Nat.testBit_mod_two_pow, decide_eq_true h1, Bool.true_and]
  · by_cases h2 : i < lo + w
    · rw [if_pos h2, if_neg h1, if_pos ⟨by omega, h2⟩, Nat.testBit_mod_two_pow, decide_eq_true (by omega), Bool.true_and]
    · have hadd : i - (lo + w) + (lo + w) = i := by omega
      rw [if_neg h2, if_neg fun h => h2 h.2, Nat.testBit_div_two_pow, hadd]

theorem bitsOf_fieldPut (x lo w v : Nat) : bitsOf (fieldPut x lo w v) lo w = v % 2 ^ w := by
  refine Nat.eq_of_testBit_eq fun i => ?_
  rw [testBit_bitsOf, testBit_fieldPut, Nat.testBit_mod_two_pow]
  by_cases h : i < w
  · rw [if_pos (by omega), Nat.add_sub_cancel_left]
  · rw [decide_eq_false h, Bool.false_and, Bool.false_and]

theorem bitsOf_fieldPut_ne (x v : Nat) {lo w lo' w' : Nat} (h : lo + w ≤ lo' ∨ lo' + w' ≤ lo) :
    bitsOf (fieldPut x lo w v) lo' w' = bitsOf x lo' w' := by
  refine Nat.eq_of_testBit_eq fun i => ?_
  rw [testBit_bitsOf, testBit_fieldPut, testBit_bitsOf]
  by_cases hi : i < w'
  · rw [if_neg (by omega)]
  · rw [decide_eq_false hi, Bool.false_and, Bool.false_and]

theorem fieldPut_lt {x lo w n : Nat} (v : Nat) (hx : x < 2 ^ n) (hn : lo + w ≤ n) : fieldPut x lo w v < 2 ^ n := by
  refine Nat.lt_pow_two_of_testBit _ fun i hi => ?_
  rw [testBit_fieldPut, if_neg (by omega)]
  exact Nat.testBit_lt_two_pow (hx.trans_le (Nat.pow_le_pow_right (by decide) hi))

/-! ## What a write of the machine's own tables leaves alone -/

/-- A part without its lines and its count of lasting errors, which a write of memory moves. -/
def steady (s : State) (p : Nat) : Partition := { getPart s p with l2 := [], rasLasting := 0 }

theorem steady_modPart (s : State) (q : Nat) (F : Partition → Partition)
    (hF : ∀ p, { F p with l2 := [], rasLasting := 0 } = { p with l2 := [], rasLasting := 0 }) : steady (modPart s q F) = steady s := by
  funext p
  unfold steady
  rw [getPart_modPart]
  split
  · exact hF _
  · rfl

theorem steady_l2SetWord (s : State) (cmp w : Nat) (v : List Byte × Bool) : steady (l2SetWord s cmp w v) = steady s := by
  cases he : locExists (8 * w) with
  | false => rw [l2SetWord_gap v he]; rfl
  | true =>
    rw [l2SetWord_eq v he]
    refine (steady_modPart _ _ (fun p => { p with l2 := spPut p.l2 (8 * w / 128) (withWord s cmp w v) }) fun _ => rfl).trans ?_
    split
    · rfl
    · unfold countCorrupt
      split
      · exact steady_modPart _ _ (fun p => { p with rasLasting := min (p.rasLasting + 1) (2 ^ 32 - 1) }) fun _ => rfl
      · rfl

theorem steady_physWrite (s : State) (pa n v : Nat) : steady (physWrite s pa n v) = steady s :=
  foldl_same steady (fun t (e : Nat × List (Nat × Byte)) => steady_l2SetWord t 0 e.1 (patchWord (l2Word t 0 e.1) e.2 false))
    (cellWords (cellsAt pa (leBytes n v))) s

theorem quiet_physWrite (s : State) (pa n v : Nat) : Quiet s (physWrite s pa n v) :=
  Quiet.foldl (fun t (e : Nat × List (Nat × Byte)) => quiet_l2SetWord t 0 e.1 _) _ s

theorem ctxAddr_of_steady {s t : State} (h : steady t = steady s) (part ctx : Nat) : ctxAddr t part ctx = ctxAddr s part ctx := by
  unfold ctxAddr frameBase
  have hs := congrArg Partition.frameBase (congrFun h part)
  have hb : (getPart t part).frameBase = (getPart s part).frameBase := hs
  rw [hb]

/-- The field of a context's record is written in its word. -/
theorem setCtxBits_eq (s : State) (part ctx lo w v : Nat) : setCtxBits s part ctx lo w v =
    physWrite s (ctxAddr s part ctx + lo / 64 * 8) 8
      (fieldPut (physRead s (ctxAddr s part ctx + lo / 64 * 8) 8) (lo % 64) w v) := rfl

theorem quiet_setCtxBits (s : State) (part ctx lo w v : Nat) : Quiet s (setCtxBits s part ctx lo w v) := quiet_physWrite ..

theorem steady_setCtxBits (s : State) (part ctx lo w v : Nat) : steady (setCtxBits s part ctx lo w v) = steady s :=
  steady_physWrite ..

theorem mem_setCtxBits {s : State} {part ctx lo : Nat} (w v : Nat) (hlo : lo < 2048) (h : ctxAddr s part ctx + 256 ≤ hbmSize) :
    (setCtxBits s part ctx lo w v).mem = s.mem := mem_physWrite _ (by omega)

/-- A word of a context's record holds a number. -/
def RecordHolds (s : State) (part ctx k v : Nat) : Prop := Holds s (ctxAddr s part ctx + k * 8) 8 v

theorem RecordHolds.bits {s : State} {part ctx k v : Nat} (h : RecordHolds s part ctx k v) (hv : v < 2 ^ 64) {lo : Nat}
    (hk : lo / 64 = k) (w : Nat) : ctxBits s part ctx lo w = bitsOf v (lo % 64) w := by
  unfold ctxBits
  rw [hk, Holds.read h]
  exact congrArg (bitsOf · (lo % 64) w) (Nat.mod_eq_of_lt hv)

/-- The word that a write of a field leaves. -/
def fieldWord (s : State) (part ctx lo w v : Nat) : Nat :=
  fieldPut (physRead s (ctxAddr s part ctx + lo / 64 * 8) 8) (lo % 64) w v

theorem fieldWord_lt (s : State) (part ctx v : Nat) {lo w : Nat} (h : lo % 64 + w ≤ 64) : fieldWord s part ctx lo w v < 2 ^ 64 :=
  fieldPut_lt v (physRead_lt s _ 8) h

theorem holds_setCtxBits (s : State) (part ctx lo w v : Nat) :
    RecordHolds (setCtxBits s part ctx lo w v) part ctx (lo / 64) (fieldWord s part ctx lo w v) := by
  unfold RecordHolds
  rw [ctxAddr_of_steady (steady_setCtxBits ..)]
  exact holds_physWrite ..

theorem RecordHolds.setCtxBits {s : State} {part ctx k x : Nat} (h : RecordHolds s part ctx k x) {lo : Nat} (w v : Nat)
    (hk : lo / 64 ≠ k) : RecordHolds (setCtxBits s part ctx lo w v) part ctx k x := by
  unfold RecordHolds
  rw [ctxAddr_of_steady (steady_setCtxBits ..)]
  exact Holds.physWrite h _ (by omega)

/-- A field that has been written reads as written. -/
theorem ctxBits_setCtxBits (s : State) (part ctx v : Nat) {lo w : Nat} (h : lo % 64 + w ≤ 64) :
    ctxBits (setCtxBits s part ctx lo w v) part ctx lo w = v % 2 ^ w := by
  rw [(holds_setCtxBits ..).bits (fieldWord_lt s part ctx v h) rfl]
  exact bitsOf_fieldPut ..

/-- Another field of the same word stays. -/
theorem ctxBits_setCtxBits_ne (s : State) (part ctx v : Nat) {lo w lo' w' : Nat} (h : lo % 64 + w ≤ 64) (hk : lo' / 64 = lo / 64)
    (hd : lo % 64 + w ≤ lo' % 64 ∨ lo' % 64 + w' ≤ lo % 64) :
    ctxBits (setCtxBits s part ctx lo w v) part ctx lo' w' = ctxBits s part ctx lo' w' := by
  rw [(holds_setCtxBits ..).bits (fieldWord_lt s part ctx v h) hk]
  refine (bitsOf_fieldPut_ne _ v hd).trans ?_
  unfold ctxBits
  rw [hk]

end Sys2Proof.Claims
end

section
/-!
SUPPORT. Budgets, drains, deadlines and the context reset (09 R211; 10 R223, R225, R227, R231).
-/
namespace Sys2Proof.Claims
open Sys2Proof.Machine

/-! ## What a context reset drops -/

/-- The state without what dropped teams take along. -/
def offTeams (s : State) : State := { s with teams := [], clusters := [], cores := [] }

theorem offTeams_dropTeam (s : State) (tid : Nat) : offTeams (dropTeam s tid) = offTeams s := by
  unfold dropTeam
  cases getTeam s tid with
  | none => rfl
  | some t =>
    dsimp only
    cases t.core with
    | none => rfl
    | some k =>
      show offTeams (emptyQueues s t.part t.ctx (clusterOf k) (teamQueues t)) = _
      unfold emptyQueues
      split <;> rfl

theorem offTeams_dropTeams (s : State) (ts : List Nat) : offTeams (ts.foldl dropTeam s) = offTeams s :=
  foldl_same offTeams offTeams_dropTeam ts s

theorem mem_spDel {α : Type} {m : SMap α} {k : Nat} {e : Nat × α} : e ∈ spDel m k ↔ e ∈ m ∧ e.1 ≠ k := by
  induction m with
  | nil => exact ⟨fun h => (List.not_mem_nil h).elim, fun h => (List.not_mem_nil h.1).elim⟩
  | cons d r ih =>
    obtain ⟨j, w⟩ := d
    unfold spDel
    split
    · next hj =>
      rw [ih, List.mem_cons]
      refine ⟨fun h => ⟨.inr h.1, h.2⟩, fun h => ⟨h.1.resolve_left fun he => h.2 ?_, h.2⟩⟩
      rw [he]
      exact hj
    · next hj =>
      rw [List.mem_cons, List.mem_cons, ih]
      constructor
      · rintro (rfl | ⟨h1, h2⟩)
        · exact ⟨.inl rfl, hj⟩
        · exact ⟨.inr h1, h2⟩
      · rintro ⟨rfl | h1, h2⟩
        · exact .inl rfl
        · exact .inr ⟨h1, h2⟩

theorem key_of_spFind_none {α : Type} {m : SMap α} {k : Nat} (h : spFind m k = none) {e : Nat × α} (he : e ∈ m) : e.1 ≠ k := by
  induction m with
  | nil => cases he
  | cons d r ih =>
    obtain ⟨j, w⟩ := d
    unfold spFind at h
    split at h
    · cases h
    · next hj =>
      rcases List.mem_cons.1 he with rfl | he
      · exact hj
      · exact ih h he

theorem mem_dropTeam {s : State} {tid : Nat} {e : Nat × Team} : e ∈ (dropTeam s tid).teams ↔ e ∈ s.teams ∧ e.1 ≠ tid := by
  unfold dropTeam
  cases ht : getTeam s tid with
  | none => exact ⟨fun h => ⟨h, key_of_spFind_none ht h⟩, fun h => h.1⟩
  | some t =>
    dsimp only
    have hteams : (match t.core with
        | some k => freeWeights (emptyQueues s t.part t.ctx (clusterOf k) (teamQueues t)) k tid
        | none => s).teams = s.teams := by
      cases t.core with
      | none => rfl
      | some k =>
        show (emptyQueues s t.part t.ctx (clusterOf k) (teamQueues t)).teams = _
        unfold emptyQueues
        split <;> rfl
    rw [← hteams]
    exact mem_spDel

theorem mem_dropTeams {s : State} {ts : List Nat} {e : Nat × Team} :
    e ∈ (ts.foldl dropTeam s).teams ↔ e ∈ s.teams ∧ e.1 ∉ ts := by
  induction ts generalizing s with
  | nil => simp
  | cons k r ih =>
    rw [List.foldl_cons, ih, mem_dropTeam, List.mem_cons, not_or, and_assoc]

theorem mem_teamsOf {s : State} {part ctx : Nat} {e : Nat × Team} (he : e ∈ s.teams) (hp : e.2.part = part) (hc : e.2.ctx = ctx) :
    e.1 ∈ teamsOf s part ctx := by
  refine List.mem_map_of_mem (List.mem_filter.2 ⟨he, ?_⟩)
  rw [hp, hc, beq_self_eq_true, beq_self_eq_true]
  rfl

/-- The state with a context's work dropped, before its record is written. -/
def workDropped (s : State) (part ctx : Nat) : State :=
  let ts := teamsOf s part ctx
  let gs := groupsOf s ts
  let s1 := ts.foldl dropTeam s
  let mine (p c : Nat) : Bool := p == part && c == ctx
  let s2 := { s1 with
    groups := s1.groups.filter fun e => !gs.contains e.1
    ops := s1.ops.filter fun e => !gs.contains e.2.gid
    nodes := s1.nodes.filter fun e => !mine e.2.part e.2.ctx
    entries := s1.entries.filter fun e => !mine e.2.part e.2.ctx
    jobs := s1.jobs.filter fun e => !mine e.2.part e.2.ctx
    tiles := s1.tiles.filter fun e => !mine e.2.part e.2.ctx
    know := s1.know.filter fun e =>
      !(e.1 % 8 == 0 && gs.contains (e.1 / 512)) && !(e.1 % 8 == 1 && match spFind s1.jobs (e.1 / 8) with
        | some j => mine j.part j.ctx
        | none => false)
    clusters := s1.clusters.map fun e => (e.1, { e.2 with bins := e.2.bins.filter fun b => !mine b.part b.ctx })
    cores := s1.cores.map fun e =>
      if partOfCore s e.1 = part then (e.1, { e.2 with slice := spDel e.2.slice ctx, reached := spDel e.2.reached ctx }) else e }
  modPart (stopQueues s2 part ctx) part fun p => { p with
    tris := p.tris.filter fun t => t.ctx != ctx
    samples := p.samples.filter fun t => t.ctx != ctx
    atoms := p.atoms.filter fun a => !gs.contains a.gid
    preempt := p.preempt.filter fun x => x.ctx != ctx
    expired := p.expired.filter fun x => x != ctx
    redirect := p.redirect.filter fun t => !ts.contains t
    units := p.units.map fun e => if e.2 = 2 * ctx then (e.1, 2 * ctx + 1) else e }

/-- The record of a context that has been reset. -/
def resetRecord (s : State) (part ctx reason rcause : Nat) : State :=
  setCtxBits (setCtxBits (setCtxBits s part ctx 69 3 5) part ctx 544 8 reason) part ctx 552 8
    (if reason = 2 ∨ reason = 4 then rcause else 0)

theorem contextReset_eq (s : State) (part ctx reason rcause : Nat) :
    contextReset s part ctx reason rcause = msix (resetRecord (workDropped s part ctx) part ctx reason rcause) part 1 := rfl

theorem resetRecord_fields (s : State) (part ctx reason rcause : Nat) : let t := resetRecord s part ctx reason rcause
    ctxState t part ctx = 5 ∧ ctxBits t part ctx 544 8 = reason % 256 ∧
      ctxBits t part ctx 552 8 = if reason = 2 ∨ reason = 4 then rcause % 256 else 0 := by
  refine ⟨?_, ?_, ?_⟩
  · have h := ((holds_setCtxBits s part ctx 69 3 5).setCtxBits (lo := 544) 8 reason (by decide)).setCtxBits (lo := 552) 8
      (if reason = 2 ∨ reason = 4 then rcause else 0) (by decide)
    exact (h.bits (fieldWord_lt s part ctx 5 (by decide)) rfl 3).trans (bitsOf_fieldPut ..)
  · refine (ctxBits_setCtxBits_ne _ part ctx _ (by decide) (by decide) (by decide)).trans ?_
    exact ctxBits_setCtxBits _ part ctx reason (by decide)
  · refine (ctxBits_setCtxBits _ part ctx _ (by decide)).trans ?_
    split <;> rfl

theorem quiet_resetRecord (s : State) (part ctx reason rcause : Nat) : Quiet s (resetRecord s part ctx reason rcause) :=
  (quiet_setCtxBits ..).trans ((quiet_setCtxBits ..).trans (quiet_setCtxBits ..))

theorem steady_resetRecord (s : State) (part ctx reason rcause : Nat) : steady (resetRecord s part ctx reason rcause) = steady s := by
  unfold resetRecord
  rw [steady_setCtxBits, steady_setCtxBits, steady_setCtxBits]

theorem ctxBits_msix (s : State) (p i part ctx lo w : Nat) : ctxBits (msix s p i) part ctx lo w = ctxBits s part ctx lo w := by
  have hl (c a : Nat) : l2Byte (msix s p i) c a = l2Byte s c a := by
    unfold l2Byte
    rfl
  have hbs (n a : Nat) : l2Bytes (msix s p i) 0 a n = l2Bytes s 0 a n := by
    induction n generalizing a with
    | zero => rfl
    | succ n ih => exact congrArg₂ List.cons (hl 0 a) (ih (a + 1))
  unfold ctxBits physRead
  rw [hbs]
  rfl

theorem ctxState_msix (s : State) (p i part ctx : Nat) : ctxState (msix s p i) part ctx = ctxState s part ctx := by
  unfold ctxState
  rw [ctxBits_msix]

theorem mem_resetRecord {s : State} {part ctx : Nat} (reason rcause : Nat) (h : ctxAddr s part ctx + 256 ≤ hbmSize) :
    (resetRecord s part ctx reason rcause).mem = s.mem := by
  unfold resetRecord
  have h1 : ctxAddr (setCtxBits s part ctx 69 3 5) part ctx = ctxAddr s part ctx := ctxAddr_of_steady (steady_setCtxBits ..) ..
  have h2 : ctxAddr (setCtxBits (setCtxBits s part ctx 69 3 5) part ctx 544 8 reason) part ctx = ctxAddr s part ctx :=
    (ctxAddr_of_steady (steady_setCtxBits ..) ..).trans h1
  rw [mem_setCtxBits _ _ (by decide) (by rw [h2]; exact h), mem_setCtxBits _ _ (by decide) (by rw [h1]; exact h),
    mem_setCtxBits _ _ (by decide) h]

theorem workDropped_keeps (s : State) (part ctx : Nat) :
    (workDropped s part ctx).mem = s.mem ∧ (workDropped s part ctx).hostMsgs = s.hostMsgs ∧
      ctxAddr (workDropped s part ctx) part ctx = ctxAddr s part ctx := by
  have h := offTeams_dropTeams s (teamsOf s part ctx)
  have hmem := congrArg State.mem h
  have hmsg := congrArg State.hostMsgs h
  have hparts := congrArg State.parts h
  refine ⟨hmem, hmsg, ?_⟩
  have hpart : getPart (workDropped s part ctx) part = _ := (getPart_modPart ..).trans (if_pos rfl)
  have hstop (t : State) : (getPart (stopQueues t part ctx) part).frameBase = (getPart t part).frameBase := by
    unfold stopQueues
    rw [getPart_modPart, if_pos rfl]
  unfold ctxAddr frameBase
  rw [hpart]
  dsimp only
  rw [hstop]
  have hp : ((teamsOf s part ctx).foldl dropTeam s).parts = s.parts := hparts
  unfold getPart
  dsimp only
  rw [hp]

theorem workDropped_work (s : State) (part ctx : Nat) : let t := workDropped s part ctx
    let mine (p c : Nat) : Prop := p = part ∧ c = ctx
    (∀ e ∈ t.teams, ¬mine e.2.part e.2.ctx) ∧ (∀ e ∈ s.teams, e.1 ∉ teamsOf s part ctx → e ∈ t.teams) ∧
    (∀ e ∈ t.groups, e ∈ s.groups ∧ e.2.team ∉ teamsOf s part ctx) ∧
    (∀ e, e ∈ t.nodes ↔ e ∈ s.nodes ∧ ¬mine e.2.part e.2.ctx) ∧
    (∀ e, e ∈ t.jobs ↔ e ∈ s.jobs ∧ ¬mine e.2.part e.2.ctx) ∧
    (∀ e, e ∈ t.entries ↔ e ∈ s.entries ∧ ¬mine e.2.part e.2.ctx) := by
  intro t mine
  have h := offTeams_dropTeams s (teamsOf s part ctx)
  have hnot (p c : Nat) : (!(p == part && c == ctx)) = true ↔ ¬mine p c := by
    rw [Bool.not_eq_true', ← Bool.not_eq_true, Bool.and_eq_true, beq_iff_eq, beq_iff_eq]
  have hgroups : ((teamsOf s part ctx).foldl dropTeam s).groups = s.groups := by
    have := congrArg State.groups h
    exact this
  have hnodes : ((teamsOf s part ctx).foldl dropTeam s).nodes = s.nodes := by
    have := congrArg State.nodes h
    exact this
  have hjobs : ((teamsOf s part ctx).foldl dropTeam s).jobs = s.jobs := by
    have := congrArg State.jobs h
    exact this
  have hentries : ((teamsOf s part ctx).foldl dropTeam s).entries = s.entries := by
    have := congrArg State.entries h
    exact this
  refine ⟨fun e he hm => ?_, fun e he hn => mem_dropTeams.2 ⟨he, hn⟩, fun e he => ?_, fun e => ?_, fun e => ?_, fun e => ?_⟩
  · obtain ⟨hs, hk⟩ := mem_dropTeams.1 he
    exact hk (mem_teamsOf hs hm.1 hm.2)
  · obtain ⟨hmem, hk⟩ := List.mem_filter.1 he
    have hmem' : e ∈ s.groups := hgroups ▸ hmem
    refine ⟨hmem', fun hteam => ?_⟩
    have hin : e.1 ∈ groupsOf s (teamsOf s part ctx) :=
      List.mem_map_of_mem (List.mem_filter.2 ⟨hmem', List.contains_iff_mem.2 hteam⟩)
    rw [Bool.not_eq_true', ← Bool.not_eq_true, List.contains_iff_mem] at hk
    exact hk hin
  · refine (List.mem_filter (p := fun e : Nat × Node => !(e.2.part == part && e.2.ctx == ctx))).trans ?_
    rw [hnodes, hnot]
  · refine (List.mem_filter (p := fun e : Nat × Job => !(e.2.part == part && e.2.ctx == ctx))).trans ?_
    rw [hjobs, hnot]
  · refine (List.mem_filter (p := fun e : Nat × Entry => !(e.2.part == part && e.2.ctx == ctx))).trans ?_
    rw [hentries, hnot]

/-- The queues that own the context stop where they are. -/
theorem workDropped_queues (s : State) (part ctx : Nat) : ∀ e ∈ (getPart (workDropped s part ctx) part).queues, e.2.ctx = ctx →
    e.2.stopped = true ∧ e.2.fetched = e.2.progress := by
  have hq : (getPart (workDropped s part ctx) part).queues = _ :=
    congrArg Partition.queues ((getPart_modPart ..).trans (if_pos rfl))
  have hstop (t : State) : (getPart (stopQueues t part ctx) part).queues = _ :=
    congrArg Partition.queues ((getPart_modPart ..).trans (if_pos rfl))
  rw [hq]
  dsimp only
  rw [hstop]
  intro e he hc
  obtain ⟨d, -, rfl⟩ := List.mem_map.1 he
  split
  · exact ⟨rfl, rfl⟩
  · next hne =>
    rw [if_neg hne] at hc
    exact absurd hc hne

theorem queues_of_steady {s t : State} (h : steady t = steady s) (p : Nat) : (getPart t p).queues = (getPart s p).queues := by
  have := congrArg Partition.queues (congrFun h p)
  exact this

theorem contextReset_leaves (s : State) (part ctx reason rcause : Nat) : let t := contextReset s part ctx reason rcause
    let mine (p c : Nat) : Prop := p = part ∧ c = ctx
    ctxState t part ctx = 5 ∧ ctxBits t part ctx 544 8 = reason % 256 ∧
    ctxBits t part ctx 552 8 = (if reason = 2 ∨ reason = 4 then rcause % 256 else 0) ∧
    t.hostMsgs = s.hostMsgs ++ [.msix (4 * part + 1)] ∧ (ctxAddr s part ctx + 256 ≤ hbmSize → t.mem = s.mem) ∧
    (∀ e ∈ t.teams, ¬mine e.2.part e.2.ctx) ∧ (∀ e ∈ s.teams, e.1 ∉ teamsOf s part ctx → e ∈ t.teams) ∧
    (∀ e ∈ t.groups, e ∈ s.groups ∧ e.2.team ∉ teamsOf s part ctx) ∧
    (∀ e, e ∈ t.nodes ↔ e ∈ s.nodes ∧ ¬mine e.2.part e.2.ctx) ∧
    (∀ e, e ∈ t.jobs ↔ e ∈ s.jobs ∧ ¬mine e.2.part e.2.ctx) ∧
    (∀ e, e ∈ t.entries ↔ e ∈ s.entries ∧ ¬mine e.2.part e.2.ctx) ∧
    (∀ e ∈ (getPart t part).queues, e.2.ctx = ctx → e.2.stopped = true ∧ e.2.fetched = e.2.progress) := by
  intro t mine
  obtain ⟨hstate, hreason, hcause⟩ := resetRecord_fields (workDropped s part ctx) part ctx reason rcause
  obtain ⟨hmem, hmsg, haddr⟩ := workDropped_keeps s part ctx
  obtain ⟨h1, h2, h3, h4, h5, h6⟩ := workDropped_work s part ctx
  have hq := quiet_resetRecord (workDropped s part ctx) part ctx reason rcause
  have hst := steady_resetRecord (workDropped s part ctx) part ctx reason rcause
  have hmem' : ctxAddr s part ctx + 256 ≤ hbmSize →
      (resetRecord (workDropped s part ctx) part ctx reason rcause).mem = s.mem := fun hb =>
    (mem_resetRecord reason rcause (by rw [haddr]; exact hb)).trans hmem
  have hqueues : (getPart (resetRecord (workDropped s part ctx) part ctx reason rcause) part).queues =
      (getPart (workDropped s part ctx) part).queues := queues_of_steady hst part
  have h7 := workDropped_queues s part ctx
  have ht : t = msix (resetRecord (workDropped s part ctx) part ctx reason rcause) part 1 := contextReset_eq ..
  clear_value t
  generalize resetRecord (workDropped s part ctx) part ctx reason rcause = u at *
  generalize workDropped s part ctx = d at *
  subst ht
  rw [← hqueues] at h7
  dsimp only at h1 h2 h3 h4 h5 h6
  rw [← hq.teams] at h1 h2
  rw [← hq.groups] at h3
  rw [← hq.nodes] at h4
  rw [← hq.jobs] at h5
  rw [← hq.entries] at h6
  rw [ctxState_msix, ctxBits_msix, ctxBits_msix]
  exact ⟨hstate, hreason, hcause, congrArg (· ++ [HostMsg.msix (4 * part + 1)]) (hq.hostMsgs.trans hmsg), hmem',
    h1, h2, h3, h4, h5, h6, h7⟩

/-! ## The events -/

theorem budgetExpiry_event (s : State) (core ctx : Nat) : let part := partOfCore s core
    coreHolds s core part ctx = true → ctxBits s part ctx 96 32 ≠ 0 → (getPart s part).expired.contains ctx = false →
    ctxState s part ctx = 1 → ctxHalted s part ctx = false →
    (ctxBits s part ctx 96 32 ≤ spGet 0 (getCore s core).slice ctx → exec (.budgetExpiry core ctx) s = .next
      (modPart s part fun p => { p with expired := p.expired ++ [ctx] })) ∧
    (spGet 0 (getCore s core).slice ctx < ctxBits s part ctx 96 32 →
      exec (.budgetExpiry core ctx) s = .next s) := by
  intro part hold hb hexp hst hh
  have hexec : exec (.budgetExpiry core ctx) s = settle s (tryBudgetExpiry core ctx s) := rfl
  rw [hexec]
  unfold tryBudgetExpiry ctxBudget
  dsimp only
  have hb' : (ctxBits s (partOfCore s core) ctx 96 32 == 0) = false := beq_false_of_ne hb
  rw [show coreHolds s core (partOfCore s core) ctx = true from hold, hb', hexp, hst, hh]
  constructor
  · intro hle
    rw [decide_eq_false (Nat.not_lt.2 hle)]
    rfl
  · intro hlt
    rw [decide_eq_true hlt]
    rfl

/-- What the device notes of a context whose state changes. -/
def noted (s : State) (part ctx st : Nat) (f : Partition → Partition) : State :=
  setCtxBits (modPart s part f) part ctx 69 3 st

theorem contextPreempt_begins {s : State} {part ctx : Nat} (hst : ctxState s part ctx = 1) (hres : ctxResident s part ctx = true)
    (hh : ctxHalted s part ctx = false) (hw : sliceOver s part ctx = true ∨ lowestWanted s part ctx = true) :
    exec (.contextPreempt part ctx) s = .next (noted s part ctx 2 fun p =>
      { p with preempt := p.preempt ++ [{ ctx := ctx, start := s.clk }], expired := p.expired.filter fun x => x != ctx }) := by
  have hor : (sliceOver s part ctx || lowestWanted s part ctx) = true := Bool.or_eq_true_iff.2 hw
  show settle s (tryContextPreempt part ctx s) = _
  unfold tryContextPreempt
  rw [hst, hres, hh, hor]
  rfl

theorem drainWindowExpiry_saves {s : State} {part ctx : Nat} {p : Preempt} (hp : findPreempt s part ctx = some p)
    (hh : ctxHalted s part ctx = false) (hs : p.saving = false) (hw : ctxDrainWin s part ctx ≤ preemptAge s p) :
    exec (.drainWindowExpiry part ctx) s = .next (noted s part ctx 3 fun v =>
      { v with preempt := v.preempt.map fun x => if x.ctx = ctx then { x with saving := true } else x }) := by
  show settle s (tryDrainWindowExpiry part ctx s) = _
  unfold tryDrainWindowExpiry
  rw [hp]
  dsimp only
  rw [hs, hh, decide_eq_false (Nat.not_lt.2 hw)]
  rfl

theorem deadlineExpiry_resets {s : State} {part ctx : Nat} {p : Preempt} (hp : findPreempt s part ctx = some p)
    (hh : ctxHalted s part ctx = false) (hw : ctxDeadline s part ctx ≤ preemptAge s p) :
    exec (.deadlineExpiry part ctx) s = .next (contextReset s part ctx 1 0) := by
  show settle s (tryDeadlineExpiry part ctx s) = _
  unfold tryDeadlineExpiry
  rw [hp]
  dsimp only
  rw [hh, decide_eq_false (Nat.not_lt.2 hw)]
  rfl

theorem deadlineExpiry_early {s : State} {part ctx : Nat} {p : Preempt} (hp : findPreempt s part ctx = some p)
    (hw : preemptAge s p < ctxDeadline s part ctx) : exec (.deadlineExpiry part ctx) s = .next s := by
  show settle s (tryDeadlineExpiry part ctx s) = _
  unfold tryDeadlineExpiry
  rw [hp]
  dsimp only
  rw [decide_eq_true hw]
  rfl

theorem halted_context_stays {s : State} {part ctx : Nat} (hh : ctxHalted s part ctx = true) :
    exec (.contextPreempt part ctx) s = .next s ∧ exec (.drainWindowExpiry part ctx) s = .next s ∧
      exec (.deadlineExpiry part ctx) s = .next s := by
  refine ⟨?_, ?_, ?_⟩
  · show settle s (tryContextPreempt part ctx s) = _
    unfold tryContextPreempt
    rw [hh, Bool.or_true, Bool.true_or]
    rfl
  · show settle s (tryDrainWindowExpiry part ctx s) = _
    unfold tryDrainWindowExpiry
    cases findPreempt s part ctx with
    | none => rfl
    | some p =>
      dsimp only
      rw [hh, Bool.or_true]
      rfl
  · show settle s (tryDeadlineExpiry part ctx s) = _
    unfold tryDeadlineExpiry
    cases findPreempt s part ctx with
    | none => rfl
    | some p =>
      dsimp only
      rw [hh, Bool.or_true]
      rfl

theorem contextReset_event {s : State} {part ctx reason : Nat} (rcause : Nat) (hp : part < partCount s)
    (ha : ctxInArea s part ctx = true) (h1 : 1 ≤ reason) (h4 : reason ≤ 4) :
    exec (.contextReset part ctx reason rcause) s = .next (contextReset s part ctx reason rcause) := by
  show settle s (tryContextReset part ctx reason rcause s) = _
  unfold tryContextReset
  have hno : ¬(partCount s ≤ part ∨ (!ctxInArea s part ctx) = true ∨ reason = 0 ∨ 4 < reason) := by
    rw [ha]
    rintro (h | h | h | h)
    · omega
    · cases h
    · omega
    · omega
  rw [if_neg hno]
  rfl

/-- Settles O49: each expiry is due at its clock and sets one mark; a reset takes all that the context has. -/
theorem preemption : Obligations.Preemption := by
  unfold Obligations.Preemption
  refine ⟨budgetExpiry_event, fun s part ctx hst hres hh hw => contextPreempt_begins hst hres hh hw, ?_,
    fun s part ctx hh => halted_context_stays hh, fun s part ctx reason rcause hp ha h1 h4 => contextReset_event rcause hp ha h1 h4,
    contextReset_leaves⟩
  intro s part ctx p hp hh age
  exact ⟨fun hs hw => drainWindowExpiry_saves hp hh hs hw, fun hw => deadlineExpiry_resets hp hh hw, fun hw => deadlineExpiry_early hp hw⟩

end Sys2Proof.Claims
end

section
/-!
SUPPORT. Fault records, their releases, and the save and restore of a faulted group (03 R67 to R72; 10 R220, R221).
-/
namespace Sys2Proof.Claims
open Sys2Proof.Machine

/-! ## The ring -/

theorem steady_publish (s : State) (w : Nat) (m : Msg) : steady (publish s w m) = steady s := steady_l2SetWord s m.cmp w _

/-- One word of a record that the device publishes. -/
def putMsg (a : List Nat × State) (e : Nat × List (Nat × Byte)) : List Nat × State :=
  let m : Msg := { id := a.2.stores, who := 7, bytes := e.2, clk := a.2.clk }
  (a.1 ++ [m.id], publish { a.2 with stores := a.2.stores + 1 } e.1 m)

theorem physPublish_eq (s : State) (pa n v : Nat) :
    physPublish s pa n v = (cellWords (cellsAt pa (leBytes n v))).foldl putMsg ([], s) := rfl

theorem steady_physPublish (s : State) (pa n v : Nat) : steady (physPublish s pa n v).2 = steady s := by
  rw [physPublish_eq]
  generalize cellWords (cellsAt pa (leBytes n v)) = es
  suffices h : ∀ a : List Nat × State, steady (es.foldl putMsg a).2 = steady a.2 from h ([], s)
  induction es with
  | nil => exact fun _ => rfl
  | cons e r ih => exact fun a => (ih _).trans (steady_publish { a.2 with stores := a.2.stores + 1 } e.1 _)

theorem quiet_physPublish (s : State) (pa n v : Nat) : Quiet s (physPublish s pa n v).2 := by
  rw [physPublish_eq]
  generalize cellWords (cellsAt pa (leBytes n v)) = es
  suffices h : ∀ a : List Nat × State, Quiet a.2 (es.foldl putMsg a).2 from h ([], s)
  induction es with
  | nil => exact fun a => .refl a.2
  | cons e r ih =>
    intro a
    have h : Quiet a.2 (putMsg a e).2 := quiet_publish { a.2 with stores := a.2.stores + 1 } e.1 _
    exact h.trans (ih _)

theorem mem_physPublish {s : State} {pa n : Nat} (v : Nat) (h : pa + n ≤ hbmSize) : (physPublish s pa n v).2.mem = s.mem := by
  have hin : ∀ e ∈ cellWords (cellsAt pa (leBytes n v)), locExists (8 * e.1) = true := by
    intro e he
    obtain ⟨⟨b, hb, hw⟩, -⟩ := mem_cellWords he
    obtain ⟨i, hi, rfl⟩ := mem_cellsAt hb
    rw [length_leBytes] at hi
    refine locExists_iff.2 (.inl ?_)
    show 8 * e.1 < 2 ^ 39
    rw [← hw]
    have h' : pa + n ≤ 2 ^ 39 := h
    show 8 * ((pa + i) / 8) < 2 ^ 39
    omega
  rw [physPublish_eq]
  generalize cellWords (cellsAt pa (leBytes n v)) = es at hin
  suffices h : ∀ a : List Nat × State, (es.foldl putMsg a).2.mem = a.2.mem from h ([], s)
  induction es with
  | nil => exact fun _ => rfl
  | cons e r ih =>
    exact fun a => (ih (fun x hx => hin x (List.mem_cons_of_mem _ hx)) _).trans
      (l2SetWord_mem (s := { a.2 with stores := a.2.stores + 1 }) _ _ (hin e (List.mem_cons_self ..)))

/-- The part behind one record of the ring. -/
def ringStep (ids : List Nat) (h : Nat) (p : Partition) : Partition :=
  { p with faultHead := h, phase := if h = 0 then !p.phase else p.phase, faultEnds := addIds p.faultEnds ids }

theorem ringWrite_leaves (part : Nat) (rs : List Nat) : ∀ s : State, (getPart s part).faultHead < ringSize (getPart s part) →
    faultRing (getPart s part) + 32 * ringSize (getPart s part) ≤ hbmSize →
    let p := getPart s part
    let q := getPart (ringWrite s part rs) part
    q.faultHead = (p.faultHead + rs.length) % ringSize p ∧ q.faultTail = p.faultTail ∧ q.batches = p.batches ∧
      (ringWrite s part rs).mem = s.mem ∧ (ringWrite s part rs).groups = s.groups := by
  induction rs with
  | nil => exact fun s hh _ => ⟨(Nat.mod_eq_of_lt hh).symm, rfl, rfl, rfl, rfl⟩
  | cons r rest ih =>
    intro s hh hfit p q
    let v := r + if p.phase then 2 ^ 63 else 0
    let w := physPublish s (faultRing p + 32 * p.faultHead) 32 v
    let h := (p.faultHead + 1) % ringSize p
    let t := modPart w.2 part (ringStep w.1 h)
    have hq : q = getPart (ringWrite t part rest) part := rfl
    have hst : { getPart w.2 part with l2 := [], rasLasting := 0 } = ({ p with l2 := [], rasLasting := 0 } : Partition) :=
      congrFun (steady_physPublish ..) part
    have hpart : getPart t part = ringStep w.1 h (getPart w.2 part) := (getPart_modPart ..).trans (if_pos rfl)
    have hk := congrArg Partition.faultK hst
    have htl := congrArg Partition.faultTail hst
    have hbs := congrArg Partition.batches hst
    have hba := congrArg Partition.faultBase hst
    dsimp only at hk htl hbs hba
    have hsize : ringSize (getPart t part) = ringSize p := by
      rw [hpart]
      show 2 ^ (getPart w.2 part).faultK = 2 ^ p.faultK
      rw [hk]
    have hring : faultRing (getPart t part) = faultRing p := by
      rw [hpart]
      unfold faultRing ringStep
      dsimp only
      rw [hba]
    have hpos : 0 < ringSize p := Nat.two_pow_pos _
    have hhead : (getPart t part).faultHead = h := by rw [hpart]; rfl
    obtain ⟨h1, h2, h3, h4, h5⟩ := ih t (by rw [hhead, hsize]; exact Nat.mod_lt _ hpos) (by rw [hring, hsize]; exact hfit)
    rw [← hq] at h1 h2 h3
    refine ⟨?_, h2.trans ?_, h3.trans ?_, h4.trans ?_, h5.trans ?_⟩
    · rw [h1, hhead, hsize, Nat.mod_add_mod, List.length_cons, Nat.add_assoc, Nat.add_comm 1]
    · rw [hpart]
      exact htl
    · rw [hpart]
      exact hbs
    · exact mem_physPublish v (by
        have : faultRing p + 32 * ringSize p ≤ hbmSize := hfit
        have : p.faultHead < ringSize p := hh
        omega)
    · exact (quiet_physPublish ..).groups

theorem faultBatch_enters {s : State} {part : Nat} {pre post : List Batch} {b : Batch}
    (hb : (getPart s part).batches = pre ++ b :: post) (hpre : ∀ x ∈ pre, x.inRing = true) (hin : b.inRing = false)
    (hroom : b.records.length ≤ ringRoom (getPart s part)) :
    exec (.faultBatchEnterRing part) s = .next (signalServicer (modPart (ringWrite s part b.records) part fun p =>
      { p with batches := p.batches.map fun x => if x.seq = b.seq then { x with inRing := true } else x }) part) := by
  have hfind : ((getPart s part).batches.find? fun b => !b.inRing) = some b := by
    rw [hb, List.find?_append, List.find?_eq_none.2 fun x hx => by simp [hpre x hx], Option.none_or,
      List.find?_cons_of_pos (by rw [hin]; rfl)]
  show settle s (tryFaultBatchEnterRing part s) = _
  unfold tryFaultBatchEnterRing
  dsimp only
  rw [hfind]
  dsimp only
  rw [if_neg (Nat.not_lt.2 hroom)]
  rfl

/-! ## The ring's registers -/

theorem faultqConfig_writes {s : State} {part : Nat} (ho : windowOpen s part) (size : Bool) (value : Quad)
    (hh : (getPart s part).faultHead = (getPart s part).faultTail % ringSize (getPart s part))
    (hb : (getPart s part).batches = []) :
    exec (.faultqConfigWrite part size value) s = .next (setPart s part
      { getPart s part with
        faultHead := 0, faultTail := 0, phase := true
        faultK := if size then max 7 (min 20 (value.toNat % 32)) else (getPart s part).faultK
        faultBase := if size then (getPart s part).faultBase
          else BitVec.ofNat 64 (value.toNat / 2 ^ 12 % 2 ^ 40 * 2 ^ 12) }) := by
  refine (next_windowOr ho ..).trans ?_
  unfold faultqConfig
  dsimp only
  rw [if_neg (by rintro (h | h); exacts [h hh, h hb])]
  cases size <;> rfl

theorem faultqConfig_ignored {s : State} {part : Nat} (ho : windowOpen s part) (size : Bool) (value : Quad)
    (h : (getPart s part).faultHead ≠ (getPart s part).faultTail % ringSize (getPart s part) ∨ (getPart s part).batches ≠ []) :
    exec (.faultqConfigWrite part size value) s = .next s := by
  refine (next_windowOr ho ..).trans ?_
  unfold faultqConfig
  dsimp only
  rw [if_pos h]

/-! ## Releases -/

section Releases
variable {s : State} {part seq : Nat} (ho : windowOpen s part)
include ho

theorem faultRelease_replay : exec (.faultReleaseReplay part seq) s = .next (releaseBatch s part seq false) := next_windowOr ho ..

theorem faultRelease_fail : exec (.faultReleaseFail part seq) s = .next (releaseBatch s part seq true) := next_windowOr ho ..

end Releases

theorem releaseBatch_unknown {s : State} {part seq : Nat} (h : ∀ b ∈ (getPart s part).batches, b.seq ≠ seq) (fail : Bool) :
    releaseBatch s part seq fail = modPart s part fun p => { p with badRelease := true } := by
  unfold releaseBatch
  rw [List.find?_eq_none.2 fun b hb => by simp [h b hb]]

/-- The state without a batch. -/
def batchGone (s : State) (part seq : Nat) : State :=
  modPart s part fun p => { p with batches := p.batches.filter fun x => x.seq != seq }

theorem releaseBatch_known {s : State} {part seq : Nat} {b : Batch}
    (hb : (getPart s part).batches.find? (fun b => b.seq == seq) = some b) (fail : Bool) :
    releaseBatch s part seq fail = releaseClient (batchGone s part seq) part b fail := by
  unfold releaseBatch
  rw [hb]
  rfl

/-- A group whose path's fault has been released. -/
def freed (g : Group) (live : Nat) (p : Path) (fail : Bool) : Group :=
  { g.setLive live (some { p with wait := p.under, under := .none, failed := p.failed || fail }) with
    batch := none, release := if g.saved then some fail else none }

theorem releasePath_group {s : State} {gid live : Nat} {g : Group} {p : Path} (hg : getGroup s gid = some g)
    (hp : g.live live = some p) (fail : Bool) :
    releasePath s gid live fail (fun p => { p with failed := true }) = modGroup s gid fun _ => freed g live p fail := by
  have hsaved : (g.setLive live (some { p with wait := p.under, under := .none, failed := p.failed || fail })).saved = g.saved := by
    unfold Group.setLive
    split <;> rfl
  unfold releasePath modPath
  rw [modGroup_modGroup, modGroup_const _ hg, hp]
  dsimp only [Option.map_some]
  cases fail with
  | true =>
    rw [Bool.or_true] at hsaved
    unfold freed
    rw [Bool.or_true, ← hsaved]
    rfl
  | false =>
    rw [Bool.or_false] at hsaved
    unfold freed
    rw [Bool.or_false, ← hsaved]
    rfl

/-! ## The faulted group -/

theorem getGroup_setGroup (s : State) (gid : Nat) (g : Group) : getGroup (setGroup s gid g) gid = some g := spFind_spPut_self ..

theorem saveGroup_leaves (s : State) (part ctx gid u : Nat) (g : Group) : ∃ n,
    getGroup (saveGroup s part ctx gid u g) gid = some { g.emptied (unitAddr s part u) with resident := n } :=
  ⟨_, getGroup_setGroup _ gid _⟩

theorem groupFaultSave_saves {s : State} {gid u : Nat} {g : Group} {t : Team} (hg : getGroup s gid = some g)
    (ht : getTeam s g.team = some t) (hb : g.batch ≠ none) (hs : g.saved = false) (hr : t.phase = .running)
    (hh : g.halt ≠ some .halted) (ho : opsSettled s gid = true) (hu : findUnits s t.part 1 = some u) :
    exec (.groupFaultSave gid) s = .next (saveGroup s t.part t.ctx gid u { g with faultSaves := g.faultSaves + 1 }) := by
  have hbn : g.batch.isNone = false := Option.isNone_eq_false_iff.2 (Option.isSome_iff_ne_none.2 hb)
  show settle s (tryGroupFaultSave gid s) = _
  unfold tryGroupFaultSave
  rw [hg]
  dsimp only
  rw [ht]
  dsimp only
  rw [hbn, hs, hr, ho, beq_false_of_ne hh, hu]
  rfl

theorem groupRestore_loads {s : State} {gid core sl : Nat} {g : Group} {t : Team} {more : List Nat} (hg : getGroup s gid = some g)
    (ht : getTeam s g.team = some t) (hc : t.core = some core) (hr : t.phase = .running) (hs : g.saved = true)
    (hb : g.batch = none) (ha : assignSlots (coreSlots s core) g.nregs 1 = some (sl :: more)) :
    exec (.groupRestore gid) s = .next (loadGroup s t.part gid (64 * core + sl) g) := by
  show settle s (tryGroupRestore gid s) = _
  unfold tryGroupRestore
  rw [hg]
  dsimp only
  rw [ht]
  dsimp only
  rw [hc, hr, hs, hb]
  dsimp only
  rw [ha]
  rfl

theorem loadGroup_leaves {s : State} {part gid place a : Nat} {g : Group} (ha : g.frame = some a) : ∃ k,
    getGroup (loadGroup s part gid place g) gid = some k ∧ k.place = some place ∧ k.release = none ∧
      k.age = clkOf s (place / 256) ∧ (loadGroup s part gid place g).mem = s.mem := by
  unfold loadGroup
  rw [ha]
  exact ⟨_, getGroup_setGroup s gid _, rfl, rfl, rfl, rfl⟩

/-- Settles O44: records enter the ring in order, and a released client goes on or fails. -/
theorem faultQueue : Obligations.FaultQueue := by
  unfold Obligations.FaultQueue
  refine ⟨fun s part pre b post hb hpre hin hroom => faultBatch_enters hb hpre hin hroom,
    fun s part rs => ringWrite_leaves part rs s, ?_, ?_, ?_, ?_, ?_, ?_⟩
  · intro s part size value ho p
    exact ⟨fun h => faultqConfig_writes ho size value h.1 h.2, faultqConfig_ignored ho size value⟩
  · intro s part seq ho hno bad
    exact ⟨(faultRelease_replay ho).trans (congrArg Host.Outcome.next (releaseBatch_unknown hno false)),
      (faultRelease_fail ho).trans (congrArg Host.Outcome.next (releaseBatch_unknown hno true))⟩
  · intro s part seq b gid live g p ho hb hc hg hp hl gone free
    have hrel (fail : Bool) : releaseBatch s part seq fail = modGroup gone gid fun _ => free fail := by
      rw [releaseBatch_known hb]
      unfold releaseClient
      rw [hc]
      exact releasePath_group (s := batchGone s part seq) hg hp fail
    exact ⟨(faultRelease_replay ho).trans (congrArg Host.Outcome.next (hrel false)),
      (faultRelease_fail ho).trans (congrArg Host.Outcome.next (hrel true))⟩
  · intro s part seq b j ho hb hc gone
    have hrel (fail : Bool) : releaseBatch s part seq fail = modJob gone j fun x => { x with batch := none, failed := fail } := by
      rw [releaseBatch_known hb]
      unfold releaseClient
      rw [hc]
      rfl
    exact ⟨(faultRelease_replay ho).trans (congrArg Host.Outcome.next (hrel false)),
      (faultRelease_fail ho).trans (congrArg Host.Outcome.next (hrel true))⟩
  · intro s gid g t u hg ht hb hs hr hh ho hu
    obtain ⟨n, hn⟩ := saveGroup_leaves s t.part t.ctx gid u { g with faultSaves := g.faultSaves + 1 }
    exact ⟨_, _, groupFaultSave_saves hg ht hb hs hr hh ho hu, hn, rfl, rfl, rfl, rfl, rfl⟩
  · intro s gid g t core a sl more hg ht hc hr hs hb hf ha
    obtain ⟨k, hk⟩ := loadGroup_leaves (s := s) (part := t.part) (gid := gid) (place := 64 * core + sl) hf
    exact ⟨_, k, groupRestore_loads hg ht hc hr hs hb ha, hk⟩

end Sys2Proof.Claims
end

section
/-!
SUPPORT. Teams are saved to the frame area and restored to a core (10 R222, R224, R226, R228, R229).
-/
namespace Sys2Proof.Claims
open Sys2Proof.Machine

theorem getTeam_modTeam (s : State) (k j : Nat) (f : Team → Team) :
    getTeam (modTeam s k f) j = if j = k then (getTeam s k).map f else getTeam s j := spFind_spMod ..

theorem getTeam_modTeam_self {s : State} {k : Nat} {t : Team} (h : getTeam s k = some t) (f : Team → Team) :
    getTeam (modTeam s k f) k = some (f t) := by
  rw [getTeam_modTeam, if_pos rfl, h]
  rfl

/-! ## The units of the frame area -/

theorem findUnits_spec {s : State} {part n u : Nat} (h : findUnits s part n = some u) : u + n ≤ unitCount s part ∧
    (∀ i < n, unitFree s part (u + i) = true) ∧ ∀ v < u, ∃ i < n, unitFree s part (v + i) = false := by
  unfold findUnits at h
  obtain ⟨hall, hmem, hlow⟩ := List.find?_range_eq_some.1 h
  have hu := List.mem_range.1 hmem
  refine ⟨by omega, fun i hi => List.all_eq_true.1 hall i (List.mem_range.2 hi), fun v hv => ?_⟩
  have hno := hlow v hv
  rw [Bool.not_eq_true', List.all_eq_false] at hno
  obtain ⟨i, hi, hf⟩ := hno
  exact ⟨i, List.mem_range.1 hi, Bool.not_eq_true _ ▸ hf⟩

/-- The first units are a context's and the others are free. -/
def UnitsTaken (s : State) (part ctx n : Nat) : Prop :=
  ∀ u, spFind (getPart s part).units u = if u < n then some (2 * ctx) else none

theorem unitFree_taken {s : State} {part ctx n : Nat} (h : UnitsTaken s part ctx n) (u : Nat) :
    unitFree s part u = decide (n ≤ u) := by
  unfold unitFree
  rw [h u]
  by_cases hlt : u < n
  · rw [if_pos hlt, decide_eq_false (Nat.not_le.2 hlt)]
    dsimp only
    rw [Nat.mul_mod_right]
    rfl
  · rw [if_neg hlt, decide_eq_true (Nat.not_lt.1 hlt)]

theorem findUnits_taken {s : State} {part ctx k n : Nat} (h : UnitsTaken s part ctx k) (hn : 0 < n)
    (hfit : k + n ≤ unitCount s part) : findUnits s part n = some k := by
  unfold findUnits
  refine List.find?_range_eq_some.2 ⟨List.all_eq_true.2 fun i _ => ?_, List.mem_range.2 (by omega), fun v hv => ?_⟩
  · rw [unitFree_taken h]
    exact decide_eq_true (Nat.le_add_right k i)
  · rw [Bool.not_eq_true', List.all_eq_false]
    refine ⟨0, List.mem_range.2 hn, ?_⟩
    rw [unitFree_taken h, Nat.add_zero, decide_eq_false (Nat.not_le.2 hv)]
    exact Bool.false_ne_true

theorem getPart_takeUnits (s : State) (part ctx u : Nat) :
    getPart (takeUnits s part ctx u 1) part = { getPart s part with units := spPut (getPart s part).units u (2 * ctx) } :=
  (getPart_modPart ..).trans (if_pos rfl)

theorem UnitsTaken.next {s : State} {part ctx n : Nat} (h : UnitsTaken s part ctx n) :
    UnitsTaken (takeUnits s part ctx n 1) part ctx (n + 1) := by
  intro u
  rw [getPart_takeUnits]
  dsimp only
  rw [spFind_spPut, h u]
  by_cases hu : u = n
  · rw [if_pos hu, if_pos (by omega)]
  · rw [if_neg hu]
    exact if_congr (by omega) rfl rfl

theorem UnitsTaken.of_steady {s t : State} {part ctx n : Nat} (h : UnitsTaken s part ctx n) (ht : steady t = steady s) :
    UnitsTaken t part ctx n := by
  have hu : (getPart t part).units = (getPart s part).units := by
    have := congrArg Partition.units (congrFun ht part)
    exact this
  intro u
  rw [hu]
  exact h u

/-! ## The size and place of the frame area -/

/-- The frame area of a part. -/
def area (s : State) (part : Nat) : Quad × Word := ((getPart s part).frameBase, (getPart s part).frameSize)

theorem area_of_steady {s t : State} (h : steady t = steady s) (part : Nat) : area t part = area s part := by
  have := congrArg (fun p : Partition => (p.frameBase, p.frameSize)) (congrFun h part)
  exact this

theorem area_takeUnits (s : State) (part ctx u : Nat) : area (takeUnits s part ctx u 1) part = area s part := by
  unfold area
  rw [getPart_takeUnits]

theorem unitAddr_of_area {s t : State} {part : Nat} (h : area t part = area s part) (u : Nat) :
    unitAddr t part u = unitAddr s part u := by
  have hb : (getPart t part).frameBase = (getPart s part).frameBase := congrArg Prod.fst h
  unfold unitAddr poolBase frameBase
  rw [hb]

theorem unitCount_of_area {s t : State} {part : Nat} (h : area t part = area s part) : unitCount t part = unitCount s part := by
  have hb : (getPart t part).frameSize = (getPart s part).frameSize := congrArg Prod.snd h
  unfold unitCount frameSize
  rw [hb]

theorem steady_bulkWrite (s : State) (pa : Nat) (bytes : List Byte) (bad : Nat → Bool) : steady (bulkWrite s pa bytes bad) = steady s :=
  steady_modPart _ _ (fun p => { p with l2 := p.l2.filter fun e => decide (e.1 < pa / 128) || decide (pa / 128 + bytes.length / 128 ≤ e.1) })
    fun _ => rfl

theorem quiet_bulkWrite (s : State) (pa : Nat) (bytes : List Byte) (bad : Nat → Bool) : Quiet s (bulkWrite s pa bytes bad) := rfl

/-! ## The frame of a group -/

theorem writeGroupFrame_eq (s : State) (addr : Nat) (g : Group) : ∃ head regs rays, writeGroupFrame s addr g =
    { bulkWrite (bulkWrite (bulkWrite s addr head fun _ => false) (addr + 0x8000) regs fun _ => false)
        (addr + 0x18000) rays fun _ => false with fresh := s.fresh + 1 } := by
  unfold writeGroupFrame
  exact ⟨_, _, _, rfl⟩

theorem steady_fresh (s : State) (n : Nat) : steady { s with fresh := n } = steady s := rfl

theorem steady_writeGroupFrame (s : State) (addr : Nat) (g : Group) : steady (writeGroupFrame s addr g) = steady s := by
  obtain ⟨head, regs, rays, h⟩ := writeGroupFrame_eq s addr g
  rw [h, steady_fresh, steady_bulkWrite, steady_bulkWrite, steady_bulkWrite]

theorem quiet_writeGroupFrame (s : State) (addr : Nat) (g : Group) : Quiet s (writeGroupFrame s addr g) := by
  obtain ⟨head, regs, rays, h⟩ := writeGroupFrame_eq s addr g
  rw [h]
  rfl

/-- A group is saved to the first free unit, and the others behind it. The search for the unit is kept from unfolding. -/
theorem saveGroups_step (part ctx gid : Nat) (g : Group) (r : List (Nat × Group)) (s : State) :
    saveGroups part ctx ((gid, g) :: r) s =
      (findUnits s part 1).bind fun u => saveGroups part ctx r (saveGroup s part ctx gid u g) := by
  suffices h : ∀ f, f = saveGroups → ∀ save, save = saveGroup → ∀ find, find = findUnits → f part ctx ((gid, g) :: r) s =
      (find s part 1).bind fun u => f part ctx r (save s part ctx gid u g) from h _ rfl _ rfl _ rfl
  intro f hf save hs find hfi
  delta saveGroups saveGroups._f at hf
  rw [← hs, ← hfi] at hf
  clear hs hfi
  subst hf
  dsimp only [List.brecOn, List.brecOn.go]
  generalize find s part 1 = o
  cases o with
  | none => rfl
  | some u => rfl

theorem steady_saveGroup (s : State) (part ctx gid u : Nat) (g : Group) :
    steady (saveGroup s part ctx gid u g) = steady (takeUnits s part ctx u 1) := by
  have hl (v : State) (tid : Nat) : steady (leaveLatches v tid gid) = steady v := rfl
  have hg (v : State) (x : Group) : steady (setGroup v gid x) = steady v := rfl
  unfold saveGroup
  dsimp only
  rw [hl, hg, steady_writeGroupFrame]

theorem saveGroup_others (s : State) (part ctx gid u : Nat) (g : Group) {k : Nat} (hk : k ≠ gid) :
    getGroup (saveGroup s part ctx gid u g) k = getGroup s k := spFind_spPut_ne _ _ hk

/-- A team but for its latches. -/
def SameTeam (t v : Team) : Prop := v = { t with latch := v.latch }

theorem SameTeam.refl (t : Team) : SameTeam t t := rfl

theorem SameTeam.groups {t v : Team} (h : SameTeam t v) : v.groups = t.groups := by
  unfold SameTeam at h
  rw [h]

theorem SameTeam.trans {t v w : Team} (h : SameTeam t v) (h' : SameTeam v w) : SameTeam t w := by
  unfold SameTeam at *
  rw [h'] 
  rw [h]

theorem saveGroup_teams {s : State} {part ctx gid u : Nat} {g : Group} {tid : Nat} {t : Team} (h : getTeam s tid = some t) :
    ∃ v, getTeam (saveGroup s part ctx gid u g) tid = some v ∧ SameTeam t v := by
  have hq : getTeam (saveGroup s part ctx gid u g) tid = _ := getTeam_modTeam _ g.team tid _
  have hs : ∀ x, getTeam (setGroup (writeGroupFrame (takeUnits s part ctx u 1) (unitAddr s part u) g) gid x) tid = some t :=
    fun _ => h
  rw [hq]
  split
  · next heq =>
    subst heq
    rw [hs]
    exact ⟨_, rfl, rfl⟩
  · rw [hs]
    exact ⟨t, rfl, .refl t⟩

/-- Every group of a team goes to the next of the units. -/
theorem saveGroups_saves (part ctx : Nat) : ∀ (gs : List (Nat × Group)) (s : State) (n : Nat), (gs.map (·.1)).Nodup →
    UnitsTaken s part ctx n → n + gs.length ≤ unitCount s part →
    ∃ t, saveGroups part ctx gs s = some t ∧ UnitsTaken t part ctx (n + gs.length) ∧ area t part = area s part ∧
      (∀ k, k ∉ gs.map (·.1) → getGroup t k = getGroup s k) ∧
      (∀ i k g, gs[i]? = some (k, (g : Group)) → ∃ m, getGroup t k = some { g.emptied (unitAddr s part (n + i)) with resident := m }) ∧
      ∀ tid v, getTeam s tid = some v → ∃ w, getTeam t tid = some w ∧ SameTeam v w := by
  intro gs
  induction gs with
  | nil =>
    intro s n _ hu _
    exact ⟨s, rfl, hu, rfl, fun _ _ => rfl, fun i k g h => by simp at h, fun tid v h => ⟨v, h, .refl v⟩⟩
  | cons e r ih =>
    intro s n hnd hu hfit
    obtain ⟨gid, g⟩ := e
    rw [List.map_cons, List.nodup_cons] at hnd
    rw [List.length_cons] at hfit
    have hst := steady_saveGroup s part ctx gid n g
    have harea : area (saveGroup s part ctx gid n g) part = area s part := (area_of_steady hst part).trans (area_takeUnits ..)
    obtain ⟨t, ht, hut, hat, hothers, hsaved, hteams⟩ := ih (saveGroup s part ctx gid n g) (n + 1) hnd.2
      (hu.next.of_steady hst) (by rw [unitCount_of_area harea]; omega)
    refine ⟨t, ?_, ?_, hat.trans harea, fun k hk => ?_, fun i k x hi => ?_, fun tid v hv => ?_⟩
    · rw [saveGroups_step, findUnits_taken hu Nat.one_pos (by omega)]
      exact ht
    · rw [List.length_cons, Nat.add_comm r.length, ← Nat.add_assoc]
      exact hut
    · rw [List.map_cons, List.mem_cons, not_or] at hk
      exact (hothers k hk.2).trans (saveGroup_others s part ctx gid n g hk.1)
    · cases i with
      | zero =>
        rw [List.getElem?_cons_zero, Option.some_inj, Prod.mk.injEq] at hi
        obtain ⟨rfl, rfl⟩ := hi
        rw [hothers gid hnd.1]
        exact saveGroup_leaves s part ctx gid n g
      | succ i =>
        rw [List.getElem?_cons_succ] at hi
        obtain ⟨m, hm⟩ := hsaved i k x hi
        refine ⟨m, ?_⟩
        rw [hm, unitAddr_of_area harea, Nat.add_assoc, Nat.add_comm 1]
    · obtain ⟨w, hw, hvw⟩ := saveGroup_teams (part := part) (ctx := ctx) (gid := gid) (u := n) (g := g) hv
      obtain ⟨x, hx, hwx⟩ := hteams tid w hw
      exact ⟨x, hx, hvw.trans hwx⟩

theorem saveGroups_cons {part ctx gid u : Nat} {g : Group} {r : List (Nat × Group)} {s t : State}
    (hu : findUnits s part 1 = some u) (h : saveGroups part ctx ((gid, g) :: r) s = some t) :
    saveGroups part ctx r (saveGroup s part ctx gid u g) = some t := by
  rw [saveGroups_step, hu] at h
  exact h

/-! ## The frame of a team -/

theorem quiet_noteSaved_record (s : State) (t : Team) (addr : Nat) :
    Quiet s (if ctxBits s t.part t.ctx 512 32 = 0
      then setCtxBits (setCtxBits s t.part t.ctx 512 32 (ctxBits s t.part t.ctx 512 32 + 1)) t.part t.ctx 576 64 addr
      else setCtxBits s t.part t.ctx 512 32 (ctxBits s t.part t.ctx 512 32 + 1)) :=
  .ite ((quiet_setCtxBits ..).trans (quiet_setCtxBits ..)) (quiet_setCtxBits ..)

theorem quiet_settleContext (s : State) (part ctx : Nat) : Quiet s (settleContext s part ctx) := by
  have hsaved : Quiet s (settleContext.saved s part ctx) :=
    (calm_modPart s part _).quiet.trans (quiet_setCtxBits ..)
  unfold settleContext
  refine .ite (.refl s) ?_
  split
  · exact .ite (quiet_setCtxBits ..) (.refl s)
  · exact hsaved
  · exact hsaved
  · exact .refl s


theorem noteSaved_leaves {s : State} {tid : Nat} {v : Team} (t : Team) (addr : Nat) (h : getTeam s tid = some v) :
    (noteSaved s tid t addr []).groups = s.groups ∧
    ∃ n, getTeam (noteSaved s tid t addr []) tid = some { v with
      core := none, units := [], phase := .saved, frame := some addr, queueBufs := [], savedAt := n
      spad := [], full := [], spoison := [] } := by
  have hq := quiet_noteSaved_record s t addr
  exact ⟨hq.groups, _, getTeam_modTeam_self ((hq.getTeam tid).trans h) _⟩

theorem writeTeamFrame_eq (s : State) (t : Team) (addr : Nat) (frames : List Nat) : ∃ head spad bad,
    writeTeamFrame s t addr frames =
      { bulkWrite (bulkWrite s addr head fun _ => false) (addr + 0x4000) spad bad with fresh := s.fresh + 2 } := by
  unfold writeTeamFrame
  exact ⟨_, _, _, rfl⟩

theorem quiet_writeTeamFrame (s : State) (t : Team) (addr : Nat) (frames : List Nat) : Quiet s (writeTeamFrame s t addr frames) := by
  obtain ⟨head, spad, bad, h⟩ := writeTeamFrame_eq s t addr frames
  rw [h]
  rfl

theorem quiet_takeUnits (s : State) (part ctx u n : Nat) : Quiet s (takeUnits s part ctx u n) := (calm_modPart ..).quiet

theorem quiet_freeWeights (s : State) (core tid : Nat) : Quiet s (freeWeights s core tid) := (calm_modCore ..).quiet

theorem addRedirect_adds {s : State} {tid : Nat} {t : Team} (h : (getPart s t.part).redirect.length < 1024) :
    ∃ u, addRedirect s tid t = some u ∧ Quiet s u ∧ area u t.part = area s t.part ∧
      ∀ p, (getPart u p).units = (getPart s p).units := by
  unfold addRedirect
  dsimp only
  split
  · exact ⟨s, rfl, .refl s, rfl, fun _ => rfl⟩
  · rw [if_neg (Nat.not_le.2 h)]
    refine ⟨_, rfl, (calm_modPart ..).quiet, ?_, fun p => ?_⟩
    · unfold area
      rw [getPart_modPart, if_pos rfl]
    · rw [getPart_modPart]
      split <;> rfl

theorem residentGroups_keys (s : State) (t : Team) : ((residentGroups s t).map (·.1)).Sublist t.groups := by
  unfold residentGroups
  induction t.groups with
  | nil => exact List.Sublist.slnil
  | cons k r ih =>
    rw [List.filterMap_cons]
    cases getGroup s k with
    | none => exact ih.cons k
    | some g =>
      dsimp only
      split
      · next h =>
        split at h
        · exact ih.cons k
        · cases h
      · next e h =>
        split at h
        · cases h
        · cases h
          exact ih.cons_cons k

theorem residentGroups_mem {s : State} {t : Team} {k : Nat} {g : Group} (hk : k ∈ t.groups) (hg : getGroup s k = some g)
    (he : g.ended = false) (hs : g.saved = false) : (k, g) ∈ residentGroups s t := by
  refine List.mem_filterMap.2 ⟨k, hk, ?_⟩
  rw [hg]
  dsimp only
  rw [he, hs]
  rfl

theorem residentGroups_of_quiet {s u : State} (h : Quiet s u) (t : Team) : residentGroups u t = residentGroups s t := by
  unfold residentGroups
  simp only [h.getGroup]

theorem steady_coreWriteBack (s : State) (core : Nat) (sel : Nat → Bool) : steady (coreWriteBack s core sel) = steady s := by
  have hone (e : Nat × List Msg) (v : State) : steady (e.2.foldl (fun s m => publish s e.1 m) v) = steady v :=
    foldl_same steady (fun v m => steady_publish v e.1 m) e.2 v
  have hall (l : List (Nat × List Msg)) (v : State) :
      steady (l.foldl (fun s e => e.2.foldl (fun s m => publish s e.1 m) s) v) = steady v :=
    foldl_same steady (fun v e => hone e v) l v
  unfold coreWriteBack
  dsimp only
  split
  · rfl
  · rw [hall]
    rfl

theorem steady_publishAt (s : State) (core scope : Nat) : steady (publishAt s core scope) = steady s := by
  unfold publishAt
  split
  · rfl
  · exact steady_coreWriteBack ..

/-- A team with its groups in the frame area. -/
structure TeamSaved (s u : State) (tid : Nat) (t : Team) : Prop where
  team : ∃ v, getTeam u tid = some v ∧ v.phase = .saved ∧ v.core = none ∧ v.units = [] ∧
    v.frame = some (unitAddr s t.part (residentGroups s t).length) ∧ v.groups = t.groups ∧ v.spad = []
  groups : ∀ i k g, (residentGroups s t)[i]? = some (k, (g : Group)) →
    ∃ m, getGroup u k = some { g.emptied (unitAddr s t.part i) with resident := m }

theorem saveTeam_last {s s1 s2 : State} {tid u : Nat} {t t2 : Team}
    (h1 : addRedirect (publishAt s (t.core.getD 0) 6) tid t = some s1)
    (h2 : saveGroups t.part t.ctx (residentGroups s1 t) s1 = some s2)
    (hu : findUnits s2 t.part (teamUnits t + bufferUnits []) = some u) (ht : getTeam s2 tid = some t2) :
    saveTeam s tid t [] = some (noteSaved (freeWeights (writeTeamFrame (takeUnits s2 t.part t.ctx u
      (teamUnits t + bufferUnits [])) t2 (unitAddr s2 t.part u) (groupFrames s2 t2)) (t.core.getD 0) tid) tid t
      (unitAddr s2 t.part u) []) := by
  suffices h : ∀ f, f = saveTeam → ∀ find, find = findUnits → find s2 t.part (teamUnits t + bufferUnits []) = some u →
      ∀ save, save = saveGroups → save t.part t.ctx (residentGroups s1 t) s1 = some s2 →
      f s tid t [] = some (noteSaved (freeWeights (writeTeamFrame (takeUnits s2 t.part t.ctx u
        (teamUnits t + bufferUnits [])) t2 (unitAddr s2 t.part u) (groupFrames s2 t2)) (t.core.getD 0) tid) tid t
        (unitAddr s2 t.part u) []) from h _ rfl _ rfl hu _ rfl h2
  intro f hf find hfi hu save hs h2
  delta saveTeam at hf
  rw [← hfi, ← hs] at hf
  clear hs hfi
  subst hf
  dsimp only
  rw [h1]
  dsimp only
  rw [h2]
  dsimp only
  rw [hu, ht]
  dsimp only
  rw [if_pos rfl]

theorem saveTeam_saves {s : State} {tid : Nat} {t : Team} (ht : getTeam s tid = some t) (hu : (getPart s t.part).units = [])
    (hnd : t.groups.Nodup) (hfit : (residentGroups s t).length + teamUnits t ≤ unitCount s t.part)
    (hred : (getPart s t.part).redirect.length < 1024) : ∃ u, saveTeam s tid t [] = some u ∧ TeamSaved s u tid t := by
  have hst := steady_publishAt s (t.core.getD 0) 6
  have hred' : (getPart (publishAt s (t.core.getD 0) 6) t.part).redirect = (getPart s t.part).redirect := by
    have := congrArg Partition.redirect (congrFun hst t.part)
    exact this
  have hunits' : (getPart (publishAt s (t.core.getD 0) 6) t.part).units = (getPart s t.part).units := by
    have := congrArg Partition.units (congrFun hst t.part)
    exact this
  obtain ⟨s1, h1, hq1, ha1, hu1⟩ := addRedirect_adds (s := publishAt s (t.core.getD 0) 6) (tid := tid) (t := t) (by rw [hred']; exact hred)
  have hq : Quiet s s1 := (quiet_publishAt ..).trans hq1
  have harea : area s1 t.part = area s t.part := ha1.trans (area_of_steady hst t.part)
  have hres := residentGroups_of_quiet hq t
  have htaken : UnitsTaken s1 t.part t.ctx 0 := by
    intro u
    rw [hu1, hunits', hu]
    rfl
  have hunits : 0 < teamUnits t := by
    unfold teamUnits
    omega
  have hcount := unitCount_of_area harea
  obtain ⟨s2, h2, htaken2, ha2, -, hsaved, hteams⟩ := saveGroups_saves t.part t.ctx (residentGroups s t) s1 0
    (hnd.sublist (residentGroups_keys s t)) htaken (by omega)
  rw [Nat.zero_add] at htaken2
  obtain ⟨t2, hteam2, hsame⟩ := hteams tid t ((hq.getTeam tid).trans ht)
  have hbufs : bufferUnits [] = 0 := by decide
  have hfind : findUnits s2 t.part (teamUnits t + bufferUnits []) = some (residentGroups s t).length := by
    rw [hbufs]
    exact findUnits_taken htaken2 hunits (by rw [unitCount_of_area ha2, hcount]; exact hfit)
  have haddr (i : Nat) : unitAddr s2 t.part i = unitAddr s t.part i :=
    (unitAddr_of_area ha2 i).trans (unitAddr_of_area harea i)
  have hlast := saveTeam_last (tid := tid) h1 (hres.symm ▸ h2) hfind hteam2
  have haddr' := haddr (residentGroups s t).length
  generalize unitAddr s2 t.part (residentGroups s t).length = addr at hlast haddr'
  have hq4 : Quiet s2 (freeWeights (writeTeamFrame (takeUnits s2 t.part t.ctx (residentGroups s t).length
      (teamUnits t + bufferUnits [])) t2 addr (groupFrames s2 t2)) (t.core.getD 0) tid) :=
    (quiet_takeUnits ..).trans ((quiet_writeTeamFrame ..).trans (quiet_freeWeights ..))
  generalize freeWeights (writeTeamFrame (takeUnits s2 t.part t.ctx (residentGroups s t).length
      (teamUnits t + bufferUnits [])) t2 addr (groupFrames s2 t2)) (t.core.getD 0) tid = s4 at hlast hq4
  obtain ⟨hgroups, n, hteam⟩ := noteSaved_leaves t addr ((hq4.getTeam tid).trans hteam2)
  generalize noteSaved s4 tid t addr [] = u at hlast hgroups hteam
  refine ⟨u, hlast, ⟨_, hteam, rfl, rfl, rfl, congrArg some haddr', hsame.groups, rfl⟩, fun i k g hi => ?_⟩
  obtain ⟨m, hm⟩ := hsaved i k g hi
  refine ⟨m, ?_⟩
  rw [Nat.zero_add, unitAddr_of_area harea] at hm
  have hk : getGroup u k = getGroup s2 k := by
    unfold getGroup
    rw [hgroups, hq4.groups]
  exact hk.trans hm

theorem saveTeams_one (tid : Nat) (t : Team) (bufs : List (Nat × List QBuf)) (s : State) :
    saveTeams [(tid, t)] bufs s = saveTeam s tid t bufs := by
  suffices h : ∀ f, f = saveTeams → ∀ save, save = saveTeam → f [(tid, t)] bufs s = save s tid t bufs from h _ rfl _ rfl
  intro f hf save hs
  delta saveTeams saveTeams._f at hf
  rw [← hs] at hf
  clear hs
  subst hf
  dsimp only [List.brecOn, List.brecOn.go]
  generalize save s tid t bufs = o
  cases o with
  | none => rfl
  | some u => rfl

theorem emptyQueues_keeps (s : State) (part ctx cluster : Nat) (qs : List Nat) :
    (emptyQueues s part ctx cluster qs).groups = s.groups ∧ (emptyQueues s part ctx cluster qs).teams = s.teams := by
  unfold emptyQueues
  split <;> exact ⟨rfl, rfl⟩

theorem saveWhole_one {s u : State} {tid : Nat} {t : Team} {core : Nat} (hc : t.core = some core) (hch : t.channel = [])
    (h : saveTeam s tid t [] = some u) (byWait : Bool) : ∃ v, saveWhole s [(tid, t)] byWait = some v ∧ v.groups = u.groups ∧
      v.teams = (modTeam u tid fun t => { t with byWait := byWait }).teams := by
  suffices hall : ∀ f, f = saveWhole → ∀ save, save = saveTeams → save [(tid, t)] [] s = some u →
      ∃ v, f s [(tid, t)] byWait = some v ∧ v.groups = u.groups ∧
        v.teams = (modTeam u tid fun t => { t with byWait := byWait }).teams from hall _ rfl _ rfl ((saveTeams_one ..).trans h)
  intro f hf save hs h
  delta saveWhole at hf
  rw [← hs] at hf
  clear hs
  subst hf
  dsimp only
  rw [hch]
  dsimp only [List.isEmpty_nil]
  rw [if_pos rfl, h, hc]
  dsimp only [List.foldl]
  obtain ⟨hg, ht⟩ := emptyQueues_keeps u t.part t.ctx (clusterOf core) (teamQueues t)
  generalize emptyQueues u t.part t.ctx (clusterOf core) (teamQueues t) = w at hg ht ⊢
  have hq := quiet_settleContext (modTeam w tid fun t => { t with byWait := byWait }) t.part t.ctx
  refine ⟨_, rfl, ?_, ?_⟩
  · exact hq.groups.trans hg
  · refine hq.teams.trans ?_
    unfold modTeam
    rw [ht]

section
variable {s : State} {team core : Nat} {t : Team} (ht : getTeam s team = some t) (hc : t.core = some core)
  (hp : t.phase = .placed ∨ t.phase = .running) (hh : ctxHalted s t.part t.ctx = false)
  (hm : ctxState s t.part t.ctx = 3 ∨ coreFenced s core = true) (hn : ∀ n, getNode s t.node = some n → n.stages ≤ 1)
include ht hc hp hh hm hn

omit ht hc hp hh hm in
theorem saveSet_one : saveSet s team t = [(team, t)] := by
  unfold saveSet
  split
  · next n hnode => rw [if_pos (hn n hnode)]
  · rfl

/-- A team that must be saved: what the device does about it turns on its being ready and there being room. -/
theorem teamSave_step : ∃ f, f = saveWhole s [(team, t)] false ∧ exec (.teamSave team) s = .next
    ((if saveReady s (team, t) = true then f else none).getD (modTeam s team fun t => { t with phase := .saving })) := by
  refine ⟨_, rfl, ?_⟩
  have hmust : mustSave s t = true := by
    unfold mustSave
    rw [hc]
    dsimp only
    rcases hm with hm | hm
    · rw [hm]
      rfl
    · rw [hm, Bool.or_true]
  have hlive : (t.phase == .placed || t.phase == .running) = true := by
    rcases hp with hp | hp <;> rw [hp] <;> rfl
  have hsaving : (t.phase == .saving) = false := by
    rcases hp with hp | hp <;> rw [hp] <;> rfl
  have hset := saveSet_one hn (team := team)
  show settle s (tryTeamSave team s) = _
  suffices h : ∀ f, f = tryTeamSave → ∀ save, save = saveWhole → settle s (f team s) = .next
      ((if saveReady s (team, t) = true then save s [(team, t)] false else none).getD
        (modTeam s team fun t => { t with phase := .saving })) from h _ rfl _ rfl
  intro f hf save hs
  delta tryTeamSave at hf
  rw [← hs] at hf
  clear hs
  subst hf
  dsimp only
  rw [ht]
  dsimp only
  simp only [hlive, hsaving, hmust, hc, hh, hset, List.all_cons, List.all_nil, List.foldl, Bool.or_false,
    Bool.and_true, Bool.not_true, Bool.false_or, Option.isNone_some, Bool.and_false, Bool.true_or]
  cases saveReady s (team, t) with
  | false => rfl
  | true =>
    cases save s [(team, t)] false with
    | none => rfl
    | some u => rfl

end

/-! ## The groups of a restored team -/

theorem restoreTeams_one (tid core : Nat) (t : Team) (slots : List Nat) (s : State) :
    restoreTeams [(tid, t)] [(core, slots)] s = restoreTeam s tid t core slots := by
  suffices h : ∀ f, f = restoreTeams → ∀ one, one = restoreTeam →
      f [(tid, t)] [(core, slots)] s = one s tid t core slots from h _ rfl _ rfl
  intro f hf one ho
  delta restoreTeams restoreTeams._f at hf
  rw [← ho] at hf
  clear ho
  subst hf
  rfl

theorem loadGroup_back {s : State} {part gid place a : Nat} {g : Group} (ha : g.frame = some a) :
    (∃ k, getGroup (loadGroup s part gid place g) gid = some k ∧ k.place = some place ∧ k.saved = false ∧ k.frame = none ∧
      k.age = clkOf s (place / 256)) ∧ (∀ j ≠ gid, getGroup (loadGroup s part gid place g) j = getGroup s j) ∧
    (loadGroup s part gid place g).teams = s.teams ∧ (loadGroup s part gid place g).clusters = s.clusters ∧
    (loadGroup s part gid place g).clk = s.clk := by
  unfold loadGroup
  rw [ha]
  exact ⟨⟨_, getGroup_setGroup s gid _, rfl, rfl, rfl, rfl⟩, fun j hj => spFind_spPut_ne _ _ hj, rfl, rfl, rfl⟩

theorem loadGroups_step (part core g sl : Nat) (gs sls : List Nat) (s : State) {x : Group} (hx : getGroup s g = some x) :
    loadGroups part core (g :: gs) (sl :: sls) s = loadGroups part core gs sls (loadGroup s part g (64 * core + sl) x) := by
  suffices h : ∀ f, f = loadGroups → ∀ load, load = loadGroup →
      f part core (g :: gs) (sl :: sls) s = f part core gs sls (load s part g (64 * core + sl) x) from h _ rfl _ rfl
  intro f hf load hl
  delta loadGroups loadGroups._f at hf
  rw [← hl] at hf
  clear hl
  subst hf
  dsimp only [List.brecOn, List.brecOn.go]
  rw [hx]

theorem loadGroups_nil (part core : Nat) (gs : List Nat) (s : State) : loadGroups part core gs [] s = s := by
  cases gs <;> rfl

theorem loadGroups_done (part core : Nat) (sls : List Nat) (s : State) : loadGroups part core [] sls s = s := rfl

/-- A group that is back in its slot. -/
def Back (s : State) (k : Option Group) (place : Nat) : Prop :=
  ∃ g, k = some g ∧ g.place = some place ∧ g.saved = false ∧ g.frame = none ∧ g.age = clkOf s (place / 256)

theorem loadGroups_back (part core : Nat) : ∀ (gs slots : List Nat) (s : State), gs.Nodup →
    (∀ k ∈ gs, ∃ g, getGroup s k = some g ∧ g.frame.isSome = true) →
    let u := loadGroups part core gs slots s
    (∀ e ∈ gs.zip slots, Back s (getGroup u e.1) (64 * core + e.2)) ∧ (∀ j ∉ gs, getGroup u j = getGroup s j) ∧
      u.teams = s.teams ∧ u.clusters = s.clusters ∧ u.clk = s.clk := by
  intro gs
  induction gs with
  | nil => exact fun slots s _ _ => ⟨fun e he => by simp at he, fun _ _ => rfl, rfl, rfl, rfl⟩
  | cons g r ih =>
    intro slots s hnd hfr
    cases slots with
    | nil => exact ⟨fun e he => by simp at he, fun _ _ => rfl, rfl, rfl, rfl⟩
    | cons sl sls =>
      obtain ⟨hg, hr⟩ := List.nodup_cons.1 hnd
      obtain ⟨x, hx, hframe⟩ := hfr g (List.mem_cons_self ..)
      obtain ⟨a, ha⟩ := Option.isSome_iff_exists.1 hframe
      rw [loadGroups_step part core g sl r sls s hx]
      obtain ⟨hback, hothers, hteams, hclusters, hclk⟩ := loadGroup_back (s := s) (part := part) (gid := g) (place := 64 * core + sl) ha
      generalize loadGroup s part g (64 * core + sl) x = v at hback hothers hteams hclusters hclk
      have hcl (k : Nat) : clkOf v k = clkOf s k := by
        unfold clkOf getCluster
        rw [hclusters, hclk]
      obtain ⟨hall, hrest, h1, h2, h3⟩ := ih sls v hr fun k hk => by
        obtain ⟨y, hy, hyf⟩ := hfr k (List.mem_cons_of_mem _ hk)
        exact ⟨y, (hothers k fun h => hg (h ▸ hk)).trans hy, hyf⟩
      refine ⟨fun e he => ?_, fun j hj => ?_, h1.trans hteams, h2.trans hclusters, h3.trans hclk⟩
      · rw [List.zip_cons_cons, List.mem_cons] at he
        rcases he with rfl | he
        · rw [hrest g hg]
          exact hback
        · obtain ⟨k, hk, hp, hs, hf, hage⟩ := hall e he
          exact ⟨k, hk, hp, hs, hf, hage.trans (hcl _)⟩
      · rw [List.mem_cons, not_or] at hj
        exact (hrest j hj.2).trans (hothers j hj.1)

/-! ## The rest of a restore -/

theorem takeSram_team {s : State} {tid core size : Nat} {t : Team} (h : getTeam s tid = some t) :
    (∃ us, getTeam (takeSram s tid core size) tid = some { t with core := some core, units := us }) ∧
      (takeSram s tid core size).groups = s.groups ∧ (takeSram s tid core size).clusters = s.clusters ∧
      (takeSram s tid core size).clk = s.clk := by
  unfold takeSram
  dsimp only
  generalize (l1Units s core).take (spadUnits size / 65536) = us
  generalize hsel : (((getCore s core).l1.filter fun e => us.contains e.2.unit).map (·.1)).contains = sel
  have hq := quiet_coreDrop s core sel
  generalize coreDrop s core sel = v at hq
  exact ⟨⟨us, getTeam_modTeam_self ((hq.getTeam tid).trans h) _⟩, hq.groups, hq.clusters, hq.clk⟩

theorem reloadBindings_none {s : State} {core tid : Nat} {t : Team} (h : ∀ r < 4, (getBinding t r).valid = false) :
    reloadBindings s core tid t = s := by
  unfold reloadBindings
  refine List.foldlRecOn (motive := fun u => u = s) _ _ rfl fun u hu r hr => ?_
  dsimp only
  rw [h r (List.mem_range.1 hr), if_neg Bool.false_ne_true]
  exact hu

theorem takeBindings_none {s : State} {core tid : Nat} {t : Team} (h : ∀ r < 4, (getBinding t r).valid = false) :
    takeBindings s tid t core = .next (modTeam s tid fun t => { t with phase := .running }) := by
  have hfree : bindingsFree s core tid t = true := by
    refine List.all_eq_true.2 fun r hr => ?_
    rw [h r (List.mem_range.1 hr)]
    rfl
  unfold takeBindings
  rw [if_pos hfree, reloadBindings_none h]

theorem pushBack_keeps (s : State) (cluster : Nat) (bufs : List (Nat × List QBuf)) :
    (pushBack s cluster bufs).groups = s.groups ∧ (pushBack s cluster bufs).teams = s.teams :=
  List.foldlRecOn (motive := fun u : State => u.groups = s.groups ∧ u.teams = s.teams) bufs _ ⟨rfl, rfl⟩ fun _ hu _ _ => hu

theorem freshCode_keeps (s : State) (part ctx : Nat) (gids ids : List Nat) :
    (freshCode s part ctx gids ids).teams = s.teams ∧ ∀ k g, getGroup s k = some g →
      ∃ c, getGroup (freshCode s part ctx gids ids) k = some { g with code := c } := by
  unfold freshCode
  refine ⟨List.foldlRecOn (motive := fun u : State => u.teams = s.teams) gids _ rfl fun _ hu _ _ => hu, fun k g hg => ?_⟩
  refine List.foldlRecOn (motive := fun u => ∃ c, getGroup u k = some { g with code := c }) _ _ ⟨g.code, hg⟩ fun u hu j _ => ?_
  obtain ⟨c, hc⟩ := hu
  rw [getGroup_modGroup]
  split
  · next h =>
    rw [← h, hc]
    exact ⟨_, rfl⟩
  · exact ⟨c, hc⟩

theorem moveRows_keeps (s : State) (gids : List Nat) (cluster part ctx : Nat) :
    (moveRows s gids cluster part ctx).groups = s.groups ∧ (moveRows s gids cluster part ctx).teams = s.teams := by
  unfold moveRows
  exact List.foldlRecOn (motive := fun u : State => u.groups = s.groups ∧ u.teams = s.teams) _ _ ⟨rfl, rfl⟩ fun _ hu _ _ => hu

theorem quiet_unlistSaved (s : State) (part ctx : Nat) : Quiet s (unlistSaved s part ctx) :=
  (quiet_setCtxBits ..).trans (quiet_setCtxBits ..)

theorem quiet_ctxRuns (s : State) (part ctx : Nat) : Quiet s (ctxRuns s part ctx) := by
  have hw : Quiet s (ctxWakes s part ctx) := by
    unfold ctxWakes
    refine .ite ?_ (.refl s)
    refine Quiet.trans ?_ (quiet_setCtxBits ..)
    rfl
  unfold ctxRuns
  exact .ite (hw.trans (quiet_setCtxBits ..)) hw


/-- The steps of a restore behind the load of its groups. -/
theorem restore_tail {s3 : State} {tid k core node set : Nat} {v : Team} (bufs : List (Nat × List QBuf)) (part ctx : Nat)
    (gs ids tgs : List Nat) (hv : getTeam s3 tid = some v) : ∃ u,
    u = modPart (ctxRuns (unlistSaved (modNode (moveRows (freshCode (dropDicts (pushBack s3 k bufs) core part ctx) part ctx gs ids)
        tgs k part ctx) node fun n => { n with queues := n.queues.map fun q => if q.1 = set then (q.1, k, q.2.2) else q }) part ctx)
        part ctx) part (fun p => { p with redirect := p.redirect.filter fun x => x != tid, pointer := some k }) ∧
      getTeam u tid = some v ∧ ∀ j g, getGroup s3 j = some g → ∃ c, getGroup u j = some { g with code := c } := by
  refine ⟨_, rfl, ?_⟩
  obtain ⟨hg1, ht1⟩ := pushBack_keeps s3 k bufs
  generalize pushBack s3 k bufs = s4 at hg1 ht1
  obtain ⟨ht2, hg2⟩ := freshCode_keeps (dropDicts s4 core part ctx) part ctx gs ids
  have hd : Quiet s4 (dropDicts s4 core part ctx) := (calm_modCore ..).quiet
  generalize dropDicts s4 core part ctx = s5 at ht2 hg2 hd
  generalize freshCode s5 part ctx gs ids = s6 at ht2 hg2
  obtain ⟨hg3, ht3⟩ := moveRows_keeps s6 tgs k part ctx
  generalize moveRows s6 tgs k part ctx = s7 at hg3 ht3
  generalize hs8 : modNode s7 node _ = s8
  have hg4 : s8.groups = s7.groups := by rw [← hs8]; rfl
  have ht4 : s8.teams = s7.teams := by rw [← hs8]; rfl
  have hq : Quiet s8 (ctxRuns (unlistSaved s8 part ctx) part ctx) := (quiet_unlistSaved ..).trans (quiet_ctxRuns ..)
  generalize ctxRuns (unlistSaved s8 part ctx) part ctx = s9 at hq
  have hq' : Quiet s8 (modPart s9 part fun p => { p with redirect := p.redirect.filter fun x => x != tid, pointer := some k }) :=
    hq.trans (calm_modPart ..).quiet
  have hteams : (modPart s9 part fun p => { p with redirect := p.redirect.filter fun x => x != tid, pointer := some k }).teams =
      s3.teams := hq'.teams.trans (ht4.trans (ht3.trans (ht2.trans (hd.teams.trans ht1))))
  refine ⟨?_, fun j g hg => ?_⟩
  · unfold getTeam
    rw [hteams]
    exact hv
  · have h5 : getGroup s5 j = some g := by
      refine (hd.getGroup j).trans ?_
      unfold getGroup
      rw [hg1]
      exact hg
    obtain ⟨c, hc⟩ := hg2 j g h5
    refine ⟨c, (hq'.getGroup j).trans ?_⟩
    unfold getGroup
    rw [hg4, hg3]
    exact hc

theorem readTeamFrame_keeps (s : State) (t : Team) (addr : Nat) :
    (readTeamFrame s t addr).groups = t.groups ∧ (readTeamFrame s t addr).begun = t.begun := ⟨rfl, rfl⟩

theorem restoreTeam_leaves {s : State} {tid core : Nat} {t : Team} {slots : List Nat} (ht : getTeam s tid = some t)
    (hb : ∀ r < 4, (getBinding (readTeamFrame s t (t.frame.getD 0)) r).valid = false) (hnd : t.groups.Nodup)
    (hfr : ∀ k ∈ restoreGroups s t, ∃ g, getGroup s k = some g ∧ g.frame.isSome = true) :
    let u := restoreTeam s tid t core slots
    (∃ v, getTeam u tid = some v ∧ v.core = some core ∧ v.frame = none ∧
      v.phase = (if t.begun then .running else .placed) ∧ v.groups = t.groups) ∧
    ∀ e ∈ (restoreGroups s t).zip slots, ∃ g, getGroup u e.1 = some g ∧ g.place = some (64 * core + e.2) ∧
      g.saved = false ∧ g.frame = none ∧ g.age = clkOf s ((64 * core + e.2) / 256) := by
  intro u
  obtain ⟨hback, -⟩ := readTeamFrame_keeps s t (t.frame.getD 0)
  have hu : u = restoreTeam s tid t core slots := rfl
  clear_value u
  unfold restoreTeam at hu
  dsimp only at hu
  generalize readTeamFrame s t (t.frame.getD 0) = back at hb hback hu
  have hq1 : Quiet s (freeUnits s t.part (t.frame.getD 0) (teamUnits t + bufferUnits t.queueBufs)) := (calm_modPart ..).quiet
  generalize freeUnits s t.part (t.frame.getD 0) (teamUnits t + bufferUnits t.queueBufs) = s1 at hq1 hu
  generalize readBufs s (t.frame.getD 0 + 2 ^ 17 * teamUnits t) 0 t.queueBufs = bufs at hu
  generalize addIds (teamReleased s t) (overdue s) = ids at hu
  have hplaced : getTeam (modTeam s1 tid fun _ => { back with
      known := ids, frame := none, queueBufs := [], savedAt := 0, byWait := false, phase := .placed }) tid =
      some { back with known := ids, frame := none, queueBufs := [], savedAt := 0, byWait := false, phase := .placed } :=
    getTeam_modTeam_self ((hq1.getTeam tid).trans ht) _
  obtain ⟨⟨us, hteam⟩, hgroups, hclusters, hclk⟩ := takeSram_team (core := core) (size := t.size) hplaced
  have hgr : (takeSram (modTeam s1 tid fun _ => { back with
      known := ids, frame := none, queueBufs := [], savedAt := 0, byWait := false, phase := .placed }) tid core t.size).groups =
      s.groups := hgroups.trans hq1.groups
  have hcl := hclusters.trans hq1.clusters
  have hck := hclk.trans hq1.clk
  clear hgroups hclusters hclk hplaced
  generalize takeSram (modTeam s1 tid fun _ => { back with
      known := ids, frame := none, queueBufs := [], savedAt := 0, byWait := false, phase := .placed }) tid core t.size = s2
    at hteam hgr hcl hck hu
  have hclock (k : Nat) : clkOf s2 k = clkOf s k := by
    unfold clkOf getCluster
    rw [hcl, hck]
  have hget (k : Nat) : getGroup s2 k = getGroup s k := by
    unfold getGroup
    rw [hgr]
  obtain ⟨hloaded, -, hteams, -, -⟩ := loadGroups_back t.part core (restoreGroups s t) slots s2 (hnd.filter _)
    fun k hk => (hget k).symm ▸ hfr k hk
  generalize loadGroups t.part core (restoreGroups s t) slots s2 = s3 at hloaded hteams hu
  have hteam3 : getTeam s3 tid = _ := (congrArg (spFind · tid) hteams).trans hteam
  obtain ⟨s4, hs4, hgroups4, w, hteam4, hcore, hframe, hphase, hgs⟩ : ∃ s4, s4 = (if t.begun = true then
      (match takeBindings s3 tid back core with
        | .next v => v
        | _ => s3) else s3) ∧ s4.groups = s3.groups ∧ ∃ w, getTeam s4 tid = some w ∧ w.core = some core ∧ w.frame = none ∧
      w.phase = (if t.begun = true then .running else .placed) ∧ w.groups = t.groups := by
    rw [takeBindings_none hb]
    cases t.begun with
    | true => exact ⟨_, rfl, rfl, _, getTeam_modTeam_self hteam3 _, rfl, rfl, rfl, hback⟩
    | false => exact ⟨_, rfl, rfl, _, hteam3, rfl, rfl, rfl, hback⟩
  obtain ⟨x, hx, hxteam, hxgroups⟩ := restore_tail (k := clusterOf core) (core := core) (node := t.node) (set := t.set) bufs t.part
    t.ctx (restoreGroups s t) ids t.groups hteam4
  rw [hs4] at hx
  obtain rfl : u = x := hu.trans hx.symm
  refine ⟨⟨w, hxteam, hcore, hframe, hphase, hgs⟩, fun e he => ?_⟩
  obtain ⟨g, hg, hplace, hsaved, hgframe, hage⟩ := hloaded e he
  have hg4 : getGroup s4 e.1 = some g := by
    unfold getGroup
    rw [hgroups4]
    exact hg
  obtain ⟨c, hc⟩ := hxgroups e.1 g hg4
  exact ⟨_, hc, hplace, hsaved, hgframe, hage.trans (hclock _)⟩

section
variable {s : State} {team : Nat} {t : Team} (ht : getTeam s team = some t) (hp : t.phase = .saved)
  (hm : mayRestore s team t = true) (hturn : restoreTurn s t = true)
include ht hp hm hturn

theorem teamRestore_fits {core : Nat} {slots : List Nat} (hset : restoreSet s team t = [(team, t)])
    (hfit : restoreFits s t.part [(team, t)] = true) (hat : restorePlaces s team t = some [(core, slots)]) :
    exec (.teamRestore team) s = .next (restoreTeam s team t core slots) := by
  show settle s (tryTeamRestore team s) = _
  rw [← restoreTeams_one]
  unfold tryTeamRestore
  rw [ht]
  dsimp only
  rw [hp, hm, hturn, hset, hfit, hat]
  rfl

theorem teamRestore_resets (hfit : restoreFits s t.part (restoreSet s team t) = false) :
    exec (.teamRestore team) s = .next (contextReset s t.part t.ctx 3 0) := by
  show settle s (tryTeamRestore team s) = _
  unfold tryTeamRestore
  rw [ht]
  dsimp only
  rw [hp, hm, hturn, hfit]
  rfl

end

/-- Settles O50: the groups and the team take the lowest free units one after another, and return to the slots of a core with
room. -/
theorem teamSaveAndRestore : Obligations.TeamSaveAndRestore := by
  unfold Obligations.TeamSaveAndRestore
  refine ⟨?_, fun s part n u h => findUnits_spec h, fun s part ctx gid g r t u hu h => saveGroups_cons hu h, ?_, ?_⟩
  · intro s team t core ht hc hp hh hm hn hch
    obtain ⟨f, hf, hexec⟩ := teamSave_step ht hc hp hh hm hn
    refine ⟨fun hr => ?_, fun hr hunits hnd hfit hred => ?_⟩
    · rw [hexec, hr, if_neg Bool.false_ne_true]
      rfl
    · obtain ⟨u, hu, ⟨v, hv, hphase, hcore, hus, hframe, hgs, hspad⟩, hgroups⟩ := saveTeam_saves ht hunits hnd hfit hred
      obtain ⟨w, hw, hwg, hwt⟩ := saveWhole_one hc hch hu false
      rw [hexec, hf, hw, hr, if_pos rfl]
      refine ⟨w, { v with byWait := false }, rfl, ?_, hphase, hcore, hus, hframe, hgs, hspad,
        fun k hk g hg he hs => residentGroups_mem hk hg he hs, fun i k g hi => ?_⟩
      · unfold getTeam
        rw [hwt]
        exact getTeam_modTeam_self hv _
      · obtain ⟨m, hm⟩ := hgroups i k g hi
        refine ⟨{ g.emptied (unitAddr s t.part i) with resident := m }, ?_, rfl, rfl, rfl, rfl, rfl, rfl, rfl⟩
        unfold getGroup
        rw [hwg]
        exact hm
  · intro s team t core slots ht hp hm hturn hset hfit hat hb hnd hfr
    obtain ⟨⟨v, hv, hcore, hframe, hphase, hgs⟩, hgroups⟩ := restoreTeam_leaves (core := core) (slots := slots) ht hb hnd hfr
    exact ⟨_, v, teamRestore_fits ht hp hm hturn hset hfit hat, hv, hcore, hframe, hphase, hgs, hgroups⟩
  · intro s team t ht hp hm hturn hfit
    exact teamRestore_resets ht hp hm hturn hfit

end Sys2Proof.Claims
end

section
/-!
SUPPORT. An accepted launch of a group that has been saved (09 R201, R204; 10 R220).
-/
namespace Sys2Proof.Claims
open Sys2Proof.Machine

/-- Register 6 of a group whose frame lies where the device has no memory. -/
def beyondFrame : Nat := 2 ^ 40 + 0x100 + 4 * 6

/-- The launching group: saved to a frame beyond the device's memory, its path waiting for the verdict on entry 7. -/
def awayGroup : Group :=
  { newGroup State.reset 0 0 0 256 with
    live0 := some { freshPath 0 0 (BitVec.allOnes 64) 0xC3 1 with wait := .verdict 7 }
    saved := true, place := none, frame := some (2 ^ 40) }

/-- A launch whose record names a kernel descriptor at 0x3000; the verdict goes to register 6. -/
def awayEntry : Entry :=
  { part := 0, ctx := 0, record := 1 + 2 ^ 32 + 2 ^ 64 * 0x3000, src := .launch ⟨0, 0⟩ (some 6) false 0 }

/-- The entry of that launch. Memory has the record of context 0, a page table that maps every address to itself (03 R43 to
R45), the descriptor with handle 1, 8 registers and one group, and a 1 in the group's saved register 6. -/
def awayLaunch : State :=
  { modPart State.reset 0 (fun p => { p with frameSize := 1 }) with
    mem := [(1, 4), (8, 0x38), (0x400, 0x01), (0x401, 0x10), (0x1000, 0x01), (0x1001, 0x20), (0x2000, 0x0F), (0x3006, 1),
      (0x300C, 8), (0x300D, 2), (beyondFrame, 1)]
    teams := [(0, lonelyTeam)], groups := [(0, awayGroup)], entries := [(7, awayEntry)], order := 8 }

theorem awayLaunch_accepted : ∃ ds rs, (verdictOf awayLaunch awayEntry).1 = .accept ds rs := by
  have h : (match (verdictOf awayLaunch awayEntry).1 with
    | .accept _ _ => true
    | _ => false) = true := by decide +kernel
  split at h
  · next ds rs heq => exact ⟨ds, rs, heq⟩
  · cases h

theorem awayLaunch_writes : (match exec (.nodeEntry 7) awayLaunch with
    | .next t => memByte t.mem beyondFrame == 0
    | _ => false) = true := by decide +kernel

theorem awayLaunch_before : memByte awayLaunch.mem beyondFrame = 1 := by decide +kernel

/-- Refutes O47: the verdict of an accepted launch goes to the destination register of the launching path. When its group has
been saved, that register lies in its frame, and a frame beyond the device's memory is written in the memory's cells at once;
so memory is not as before. -/
theorem not_submissionAndEntry : ¬ Obligations.SubmissionAndEntry := by
  unfold Obligations.SubmissionAndEntry
  rintro ⟨-, -, -, -, haccept, -⟩
  obtain ⟨ds, rs, hv⟩ := awayLaunch_accepted
  obtain ⟨t, n, hexec, -, -, -, -, -, -, -, -, -, -, -, hmem⟩ := haccept awayLaunch 7 awayEntry ds rs rfl rfl hv
  have hwrites := awayLaunch_writes
  rw [hexec] at hwrites
  have hzero : memByte t.mem beyondFrame = 0 := beq_iff_eq.1 hwrites
  rw [hmem, awayLaunch_before] at hzero
  exact absurd hzero (by decide)

end Sys2Proof.Claims
end

section
/-!
SUPPORT. Placement of teams, their start, and the end of nodes (09 R205 to R208; 06 R131; 04 R75 to R79).
-/
namespace Sys2Proof.Claims
open Sys2Proof.Machine

/-! ## Slots of a core -/

theorem pickQuarter_room {u : List (Nat × Nat)} {n q : Nat} (h : pickQuarter u n = some q) :
    q < 4 ∧ slotsInQuarter u q < 16 ∧ bytesInQuarter u q + 256 * n ≤ 262144 := by
  suffices hall : ∀ b, pickQuarter u n = b → ∀ q, b = some q →
      q < 4 ∧ slotsInQuarter u q < 16 ∧ bytesInQuarter u q + 256 * n ≤ 262144 from hall _ h q rfl
  intro b hb
  rw [← hb]
  unfold pickQuarter
  refine List.foldlRecOn (motive := fun b : Option Nat => ∀ q, b = some q →
    q < 4 ∧ slotsInQuarter u q < 16 ∧ bytesInQuarter u q + 256 * n ≤ 262144) _ _ (fun q hq => by cases hq) fun b hb q hq r hr => ?_
  by_cases hroom : slotsInQuarter u q < 16 ∧ bytesInQuarter u q + 256 * n ≤ 262144
  · rw [if_pos hroom] at hr
    cases b with
    | none =>
      cases hr
      exact ⟨List.mem_range.1 hq, hroom⟩
    | some p =>
      dsimp only at hr
      split at hr
      · cases hr
        exact ⟨List.mem_range.1 hq, hroom⟩
      · exact hb r hr
  · rw [if_neg hroom] at hr
    exact hb r hr

/-- A quarter with fewer than 16 groups has a slot for one more. -/
theorem freeSlotIn_free {u : List (Nat × Nat)} {q : Nat} (h : slotsInQuarter u q < 16) :
    freeSlotIn u q / 16 = q ∧ ∀ r, (freeSlotIn u q, r) ∉ u := by
  unfold freeSlotIn
  cases hf : (List.range 16).find? fun i => !u.any fun e => e.1 == 16 * q + i with
  | some i =>
    have hi := List.mem_range.1 (List.mem_of_find?_eq_some hf)
    have hfree := List.find?_some hf
    rw [Option.getD_some]
    refine ⟨by omega, fun r hr => ?_⟩
    rw [Bool.not_eq_true', List.any_eq_false] at hfree
    refine hfree _ hr (beq_iff_eq.2 ?_)
    exact Nat.add_comm i (16 * q)
  | none =>
    exfalso
    have hall (i : Nat) (hi : i < 16) : 16 * q + i ∈ (u.filter fun e => e.1 / 16 == q).map (·.1) := by
      have hno := List.find?_eq_none.1 hf i (List.mem_range.2 hi)
      rw [Bool.not_eq_true', Bool.not_eq_false, List.any_eq_true] at hno
      obtain ⟨e, he, heq⟩ := hno
      have heq' := beq_iff_eq.1 heq
      refine List.mem_map.2 ⟨e, List.mem_filter.2 ⟨he, beq_iff_eq.2 ?_⟩, heq'⟩
      omega
    have hsub : (List.range 16).map (16 * q + ·) ⊆ (u.filter fun e => e.1 / 16 == q).map (·.1) := by
      intro x hx
      obtain ⟨i, hi, rfl⟩ := List.mem_map.1 hx
      exact hall i (List.mem_range.1 hi)
    have hnd : ((List.range 16).map (16 * q + ·)).Nodup :=
      List.Nodup.map (fun a b hab => by omega) List.nodup_range
    have hlen := (List.subperm_of_subset hnd hsub).length_le
    rw [List.length_map, List.length_range, List.length_map] at hlen
    exact absurd h (Nat.not_lt.2 hlen)

theorem assignSlots_cons {u : List (Nat × Nat)} {n k : Nat} {sl : List Nat} (h : assignSlots u n (k + 1) = some sl) :
    ∃ q r, q < 4 ∧ slotsInQuarter u q < 16 ∧ bytesInQuarter u q + 256 * n ≤ 262144 ∧
      assignSlots ((freeSlotIn u q, n) :: u) n k = some r ∧ sl = freeSlotIn u q :: r := by
  unfold assignSlots at h
  cases hq : pickQuarter u n with
  | none =>
    rw [hq] at h
    cases h
  | some q =>
    rw [hq] at h
    obtain ⟨r, hr, rfl⟩ := Option.map_eq_some_iff.1 h
    obtain ⟨hlt, hroom, hbytes⟩ := pickQuarter_room hq
    exact ⟨q, r, hlt, hroom, hbytes, hr, rfl⟩

theorem assignSlots_fresh {n k : Nat} : ∀ {u : List (Nat × Nat)} {sl : List Nat}, assignSlots u n k = some sl →
    sl.length = k ∧ sl.Nodup ∧ ∀ i ∈ sl, i < 64 ∧ ∀ r, (i, r) ∉ u := by
  induction k with
  | zero =>
    intro u sl h
    cases h
    exact ⟨rfl, List.nodup_nil, fun i hi => (List.not_mem_nil hi).elim⟩
  | succ k ih =>
    intro u sl h
    obtain ⟨q, r, hq, hroom, -, hr, rfl⟩ := assignSlots_cons h
    obtain ⟨hdiv, hfree⟩ := freeSlotIn_free hroom
    obtain ⟨hlen, hnd, hall⟩ := ih hr
    refine ⟨by rw [List.length_cons, hlen], List.nodup_cons.2 ⟨fun hm => (hall _ hm).2 n (List.mem_cons_self ..), hnd⟩,
      fun i hi => ?_⟩
    rcases List.mem_cons.1 hi with rfl | hi
    · exact ⟨by omega, hfree⟩
    · exact ⟨(hall i hi).1, fun x hx => (hall i hi).2 x (List.mem_cons_of_mem _ hx)⟩

theorem foldl_add_eq_sum {α : Type} (f : α → Nat) (l : List α) (b : Nat) : l.foldl (fun a e => a + f e) b = b + (l.map f).sum := by
  induction l generalizing b with
  | nil => rfl
  | cons x r ih => rw [List.foldl_cons, ih, List.map_cons, List.sum_cons, Nat.add_assoc]

theorem bytesInQuarter_cons (e : Nat × Nat) (u : List (Nat × Nat)) (q : Nat) :
    bytesInQuarter (e :: u) q = (if e.1 / 16 = q then 256 * e.2 else 0) + bytesInQuarter u q := by
  unfold bytesInQuarter
  rw [foldl_add_eq_sum (fun e : Nat × Nat => 256 * e.2), foldl_add_eq_sum (fun e : Nat × Nat => 256 * e.2), List.filter_cons]
  by_cases h : e.1 / 16 = q
  · rw [if_pos (beq_iff_eq.2 h), if_pos h, List.map_cons, List.sum_cons]
    omega
  · rw [if_neg (fun hb => h (beq_iff_eq.1 hb)), if_neg h]
    omega

theorem bytesInQuarter_append (v u : List (Nat × Nat)) (q : Nat) :
    bytesInQuarter (v ++ u) q = bytesInQuarter v q + bytesInQuarter u q := by
  induction v with
  | nil => exact (Nat.zero_add _).symm
  | cons e r ih => rw [List.cons_append, bytesInQuarter_cons, bytesInQuarter_cons, ih, Nat.add_assoc]

theorem assignSlots_bytes {n k : Nat} : ∀ {u : List (Nat × Nat)} {sl : List Nat}, assignSlots u n k = some sl →
    ∀ q, bytesInQuarter u q ≤ 262144 → bytesInQuarter (sl.map (fun i => (i, n)) ++ u) q ≤ 262144 := by
  induction k with
  | zero =>
    intro u sl h q hb
    cases h
    exact hb
  | succ k ih =>
    intro u sl h q hb
    obtain ⟨p, r, -, hroom, hbytes, hr, rfl⟩ := assignSlots_cons h
    have hdiv := (freeSlotIn_free hroom).1
    have hone : bytesInQuarter ((freeSlotIn u p, n) :: u) q ≤ 262144 := by
      rw [bytesInQuarter_cons]
      dsimp only
      rw [hdiv]
      split
      · next h =>
        subst h
        omega
      · omega
    have h := ih hr q hone
    rw [bytesInQuarter_append, bytesInQuarter_cons] at h
    rw [List.map_cons, List.cons_append, bytesInQuarter_cons, bytesInQuarter_append]
    omega

theorem fitsOn_room {s : State} {core : Nat} {n : Need} {slots : List Nat} (h : fitsOn s core n = some slots) :
    assignSlots (coreSlots s core) n.regs n.tsize = some slots ∧ usedBars s core + n.bars ≤ 64 ∧
      usedLatches s core + n.latches ≤ 16 ∧ usedSpad s core + spadUnits n.size ≤ 983040 ∧ coreFenced s core = false := by
  unfold fitsOn at h
  split at h
  · cases h
  · next hfence =>
    obtain ⟨⟨sl, v⟩, hv, rfl⟩ := Option.map_eq_some_iff.1 h
    unfold fitUse at hv
    split at hv
    · cases hv
    · next hroom =>
      obtain ⟨r, hr, heq⟩ := Option.map_eq_some_iff.1 hv
      cases heq
      obtain ⟨h1, h2⟩ := not_or.1 hroom
      obtain ⟨h2, h3⟩ := not_or.1 h2
      exact ⟨hr, Nat.not_lt.1 h1, Nat.not_lt.1 h2, Nat.not_lt.1 h3, Bool.not_eq_true _ ▸ hfence⟩

/-! ## Placement -/

theorem mem_spPut_of_ne {α : Type} {m : SMap α} {k : Nat} (v : α) {e : Nat × α} (he : e ∈ m) (hk : e.1 ≠ k) : e ∈ spPut m k v := by
  induction m with
  | nil => cases he
  | cons d r ih =>
    obtain ⟨j, w⟩ := d
    unfold spPut
    split
    · exact List.mem_cons_of_mem _ he
    · split
      · next hj =>
        rcases List.mem_cons.1 he with rfl | he
        · exact absurd hj hk
        · exact List.mem_cons_of_mem _ he
      · rcases List.mem_cons.1 he with rfl | he
        · exact List.mem_cons_self ..
        · exact List.mem_cons_of_mem _ (ih he)

theorem getNode_modNode_self {s : State} {k : Nat} {n : Node} (h : getNode s k = some n) (f : Node → Node) :
    getNode (modNode s k f) k = some (f n) := by
  have hm : getNode (modNode s k f) k = (getNode s k).map f := spFind_spMod_self ..
  rw [hm, h]
  rfl

theorem takeSram_units {s : State} {tid : Nat} (core size : Nat) {t : Team} (h : getTeam s tid = some t) :
    ∃ us, us.length ≤ spadUnits size / 65536 ∧ (∀ k ∈ us, k ∈ l1Units s core) ∧
      getTeam (takeSram s tid core size) tid = some { t with core := some core, units := us } ∧
      (takeSram s tid core size).nodes = s.nodes := by
  refine ⟨(l1Units s core).take (spadUnits size / 65536), List.length_take_le .., fun k hk => List.mem_of_mem_take hk, ?_⟩
  unfold takeSram
  dsimp only
  generalize (l1Units s core).take (spadUnits size / 65536) = us
  generalize (((getCore s core).l1.filter fun e => us.contains e.2.unit).map (·.1)).contains = sel
  have hq := quiet_coreDrop s core sel
  generalize coreDrop s core sel = v at hq
  exact ⟨getTeam_modTeam_self ((hq.getTeam tid).trans h) _, hq.nodes⟩

theorem allocGroups_team {tid core nregs : Nat} (slots : List Nat) : ∀ (i : Nat) (s : State) (t : Team), getTeam s tid = some t →
    ∃ ids, ids.length = slots.length ∧
      getTeam (allocGroups tid core nregs i slots s) tid = some { t with groups := t.groups ++ ids } ∧
      (allocGroups tid core nregs i slots s).nodes = s.nodes := by
  induction slots with
  | nil =>
    intro i s t ht
    refine ⟨[], rfl, ?_, rfl⟩
    rw [List.append_nil]
    exact ht
  | cons sl r ih =>
    intro i s t ht
    obtain ⟨ids, hlen, hteam, hnodes⟩ := ih (i + 1) (modTeam { s with
      groups := spPut s.groups s.order (newGroup s tid i (64 * core + sl) nregs), order := s.order + 1 } tid
      fun t => { t with groups := t.groups ++ [s.order] }) { t with groups := t.groups ++ [s.order] }
      (getTeam_modTeam_self (s := { s with
        groups := spPut s.groups s.order (newGroup s tid i (64 * core + sl) nregs), order := s.order + 1 }) ht _)
    refine ⟨s.order :: ids, congrArg (· + 1) hlen, ?_, hnodes⟩
    rw [List.append_assoc] at hteam
    exact hteam

theorem notePlaced_keeps {s : State} {tid : Nat} {t v : Team} {n : Node} (core : Nat) (ht : getTeam s tid = some v)
    (hn : getNode s t.node = some n) : getTeam (notePlaced s tid t core) tid = some v ∧
      getNode (notePlaced s tid t core) t.node = some { n with lastTeam := some tid } := by
  have hq : Quiet s (modPart (ctxRuns s t.part t.ctx) t.part fun p => { p with pointer := some (clusterOf core) }) :=
    (quiet_ctxRuns ..).trans (calm_modPart ..).quiet
  unfold notePlaced
  dsimp only
  generalize modPart (ctxRuns s t.part t.ctx) t.part (fun p => { p with pointer := some (clusterOf core) }) = u at hq
  refine ⟨(hq.getTeam tid).trans ht, getNode_modNode_self ?_ _⟩
  unfold getNode
  rw [hq.nodes]
  exact hn

theorem quiet_freshDicts (s : State) (part ctx : Nat) : Quiet s (freshDicts s part ctx) := by
  unfold freshDicts
  exact .ite (.refl s) rfl

theorem placeTeam_leaves {s : State} {t : Team} {n : Node} {core : Nat} (slots : List Nat) (hg : t.groups = [])
    (hn : getNode s t.node = some n) : ∃ ids, ids.length = slots.length ∧ ∃ us, us.length ≤ spadUnits t.size / 65536 ∧
      (∀ k ∈ us, k ∉ (s.teams.filter fun e => e.2.core == some core && e.1 != s.order).flatMap fun e => e.2.units) ∧
      getTeam (placeTeam s t core slots) s.order = some { t with core := some core, units := us, groups := ids } ∧
      getNode (placeTeam s t core slots) t.node = some { n with lastTeam := some s.order } := by
  have hq := quiet_freshDicts s t.part t.ctx
  have hplace : placeTeam s t core slots = settleTeam { freshDicts s t.part t.ctx with
      teams := spPut (freshDicts s t.part t.ctx).teams (freshDicts s t.part t.ctx).order { t with core := none }
      order := (freshDicts s t.part t.ctx).order + 1 } (freshDicts s t.part t.ctx).order t core slots := rfl
  rw [hplace]
  generalize freshDicts s t.part t.ctx = d at hq
  have hnodes : getNode d t.node = some n := by
    unfold getNode
    rw [hq.nodes]
    exact hn
  have hteams := hq.teams
  rw [← hq.order, ← hteams]
  unfold settleTeam
  have hnew : getTeam { d with teams := spPut d.teams d.order { t with core := none }, order := d.order + 1 } d.order =
      some { t with core := none } := spFind_spPut_self ..
  obtain ⟨us, hlenu, hfreeu, hteam, hn2⟩ := takeSram_units core t.size hnew
  obtain ⟨ids, hlen, hteam3, hn3⟩ := allocGroups_team (core := core) (nregs := t.regs) slots 0 _ _ hteam
  have hnode : getNode (allocGroups d.order core t.regs 0 slots (takeSram
      { d with teams := spPut d.teams d.order { t with core := none }, order := d.order + 1 } d.order core t.size)) t.node = some n := by
    unfold getNode
    rw [hn3, hn2]
    exact hnodes
  generalize allocGroups d.order core t.regs 0 slots (takeSram
      { d with teams := spPut d.teams d.order { t with core := none }, order := d.order + 1 } d.order core t.size) = v at hteam3 hnode
  obtain ⟨hfinal, hfn⟩ := notePlaced_keeps core hteam3 hnode
  refine ⟨ids, hlen, us, hlenu, fun k hk hmem => ?_, hfinal.trans ?_, hfn⟩
  · have hfree := (List.mem_filter.1 (hfreeu k hk)).2
    rw [Bool.not_eq_true', ← Bool.not_eq_true, List.contains_iff_mem] at hfree
    obtain ⟨e, he, hke⟩ := List.mem_flatMap.1 hmem
    obtain ⟨hemem, hecond⟩ := List.mem_filter.1 he
    obtain ⟨hcore, hne⟩ := Bool.and_eq_true_iff.1 hecond
    exact hfree (List.mem_flatMap.2 ⟨e, List.mem_filter.2 ⟨mem_spPut_of_ne _ hemem (bne_iff_ne.1 hne), hcore⟩, hke⟩)
  · rw [hg, List.nil_append]

theorem teamPlacement_places {s : State} {node : Nat} {n : Node} {core : Nat} {slots : List Nat} (hn : getNode s node = some n)
    (hw : n.wants s = true) (hb : n.batch = none) (hh : heldBack s node n = false) (hst : n.stages ≤ 1)
    (hfind : findCore s n.part (n.desc 0).need (if (n.desc 0).spread then n.avoid s else none) = some (core, slots)) :
    exec (.teamPlacement node) s = .next (modNode
      (placeTeam s { teamOfNode node n n.nextTeam core with channel := [], known := n.known } core slots) node
      fun n => n.placed [] [(core, slots)]) := by
  have hplace : n.place s = some [(core, slots)] := by
    unfold Node.place
    rw [if_pos hst]
    dsimp only
    rw [hfind]
    rfl
  have hqueue : queueObjects s n = (.inl [], s) := by
    unfold queueObjects
    exact if_pos (.inl hst)
  show settle s (tryTeamPlacement node s) = _
  unfold tryTeamPlacement
  rw [hn]
  dsimp only
  rw [hw, hb, hh, hplace, hqueue]
  rfl

/-! ## The start of a team -/

theorem getGroup_modGroups {l : List Nat} (hl : l.Nodup) (f : Group → Group) (s : State) (k : Nat) :
    getGroup (l.foldl (fun s g => modGroup s g f) s) k = if k ∈ l then (getGroup s k).map f else getGroup s k := by
  induction l generalizing s with
  | nil => rfl
  | cons g r ih =>
    obtain ⟨hg, hr⟩ := List.nodup_cons.1 hl
    rw [List.foldl_cons, ih hr, getGroup_modGroup]
    by_cases hk : k = g
    · subst hk
      rw [if_neg hg, if_pos rfl, if_pos (List.mem_cons_self ..)]
    · rw [if_neg hk]
      exact if_congr (by rw [List.mem_cons]; exact ⟨.inr, fun h => h.resolve_left hk⟩) rfl rfl

/-- What a change of groups leaves of what the start of a group reads. -/
theorem modGroups_rest (l : List Nat) (f : Group → Group) (s : State) :
    (l.foldl (fun s g => modGroup s g f) s).teams = s.teams ∧ (l.foldl (fun s g => modGroup s g f) s).nodes = s.nodes ∧
      (l.foldl (fun s g => modGroup s g f) s).clusters = s.clusters ∧ (l.foldl (fun s g => modGroup s g f) s).clk = s.clk :=
  List.foldlRecOn (motive := fun u : State => u.teams = s.teams ∧ u.nodes = s.nodes ∧ u.clusters = s.clusters ∧ u.clk = s.clk) l _
    ⟨rfl, rfl, rfl, rfl⟩ fun _ hu _ _ => hu

/-- A group that starts at the entry of its kernel. -/
def started (s : State) (d : KDesc) (g : Group) : Group :=
  { g with age := clkOf s ((g.place.getD 0) / 256), live0 := some (startPath d d.entry 0 (BitVec.allOnes 64)) }

theorem startGroup_plain {s u : State} {tid gid : Nat} {t : Team} {n : Node} {g : Group} (ht : getTeam u tid = some t)
    (hn : getNode u t.node = some n) (hg : getGroup u gid = some g) (hsp : t.spawned = [])
    (hp : (n.desc t.stage).persistent = false) (hc : ∀ k, clkOf u k = clkOf s k) :
    startGroup tid u gid = modGroup u gid (started s (n.desc t.stage)) := by
  unfold startGroup
  rw [ht, hg]
  dsimp only
  rw [hn]
  dsimp only
  rw [hsp, hp]
  simp only [List.isEmpty_nil, Bool.not_true, Bool.false_eq_true, if_false]
  rw [modGroup_modGroup]
  simp only [hc]
  rfl

theorem startGroups_plain {s : State} {tid : Nat} {t : Team} {n : Node} (hsp : t.spawned = [])
    (hp : (n.desc t.stage).persistent = false) (l : List Nat) : ∀ u : State, getTeam u tid = some t → getNode u t.node = some n →
    (∀ k, clkOf u k = clkOf s k) → (∀ k ∈ l, ∃ g, getGroup u k = some g) →
    l.foldl (startGroup tid) u = l.foldl (fun s' k => modGroup s' k (started s (n.desc t.stage))) u := by
  induction l with
  | nil => exact fun _ _ _ _ _ => rfl
  | cons k r ih =>
    intro u ht hn hc hg
    obtain ⟨g, hk⟩ := hg k (List.mem_cons_self ..)
    rw [List.foldl_cons, List.foldl_cons, startGroup_plain ht hn hk hsp hp hc]
    refine ih _ ht hn hc fun j hj => ?_
    obtain ⟨x, hx⟩ := hg j (List.mem_cons_of_mem _ hj)
    rw [getGroup_modGroup]
    split
    · rw [hk]
      exact ⟨_, rfl⟩
    · exact ⟨x, hx⟩

theorem foldl_stays {α : Type} {f : State → α → State} {s : State} {l : List α} (h : ∀ k ∈ l, f s k = s) : l.foldl f s = s :=
  List.foldlRecOn (motive := fun u => u = s) l f rfl fun u hu k hk => by
    rw [hu]
    exact h k hk

theorem startReads_none {s : State} {tid : Nat} {t v : Team} (ht : getTeam s tid = some v) (hnd : t.groups.Nodup)
    (hg : ∀ k ∈ t.groups, ∃ g, getGroup s k = some g ∧ g.refill = []) :
    getTeam (startReads s tid t) tid = some { v with phase := .running, begun := true } ∧
      ∀ k ∈ t.groups, getGroup (startReads s tid t) k = getGroup s k := by
  have hdone {g : Group} (h : g.refill = []) : refillDone g 2 = true := by
    unfold refillDone
    rw [h]
    rfl
  have heq : startReads s tid t = t.groups.foldl (fun s g => modGroup s g fun x => { x with refill := spDel x.refill 2 })
      (modTeam s tid fun t => { t with phase := .running, begun := true }) := by
    unfold startReads
    dsimp only
    rw [foldl_stays (s := s) (l := t.groups)]
    · refine if_pos (List.all_eq_true.2 fun k hk => ?_)
      obtain ⟨g, hk, hr⟩ := hg k hk
      rw [hk]
      exact hdone hr
    · intro k hk
      obtain ⟨g, hk, hr⟩ := hg k hk
      rw [hk]
      dsimp only
      rw [hdone hr, Bool.true_or, if_pos rfl]
  rw [heq]
  obtain ⟨hteams, -⟩ := modGroups_rest t.groups (fun x => { x with refill := spDel x.refill 2 })
    (modTeam s tid fun t => { t with phase := .running, begun := true })
  refine ⟨?_, fun k hk => ?_⟩
  · unfold getTeam
    rw [hteams]
    exact getTeam_modTeam_self ht _
  · rw [getGroup_modGroups hnd, if_pos hk]
    obtain ⟨g, hkg, hr⟩ := hg k hk
    have hkg' : getGroup (modTeam s tid fun t => { t with phase := .running, begun := true }) k = some g := hkg
    rw [hkg', hkg, Option.map_some, hr]
    show some { g with refill := [] } = some g
    rw [← hr]

theorem setArgs_scalars (bad : Bool) (ws : List Nat) : ∀ (k : Nat) (g : Group), (∀ w ∈ ws, w < 2 ^ 32) → ∀ i,
    ((ws.zipIdx k).foldl (fun g e => g.setS e.2 e.1 bad) g).getS i =
        (if k ≤ i ∧ i < k + ws.length then ws.getD (i - k) 0 else g.getS i) ∧
      ((ws.zipIdx k).foldl (fun g e => g.setS e.2 e.1 bad) g).badS i =
        if k ≤ i ∧ i < k + ws.length then bad else g.badS i := by
  induction ws with
  | nil => 
    intro k g _ i
    rw [if_neg (by simp), if_neg (by simp)]
    exact ⟨rfl, rfl⟩
  | cons w r ih =>
    intro k g hw i
    obtain ⟨hs, hb⟩ := ih (k + 1) (g.setS k w bad) (fun x hx => hw x (List.mem_cons_of_mem _ hx)) i
    rw [List.zipIdx_cons, List.foldl_cons, hs, hb, getS_setS, badS_setS, Nat.mod_eq_of_lt (hw w (List.mem_cons_self ..)),
      List.length_cons]
    by_cases hi : i = k
    · subst hi
      rw [if_neg (by omega), if_pos rfl, if_pos (by omega), if_neg (by omega), if_pos rfl, if_pos (by omega), Nat.sub_self]
      exact ⟨rfl, rfl⟩
    · rw [if_neg hi, if_neg hi]
      by_cases hin : k + 1 ≤ i ∧ i < k + 1 + r.length
      · rw [if_pos hin, if_pos (by omega), if_pos hin, if_pos (by omega)]
        obtain ⟨d, rfl⟩ : ∃ d, i = k + 1 + d := ⟨i - (k + 1), by omega⟩
        rw [show k + 1 + d - (k + 1) = d by omega, show k + 1 + d - k = d + 1 by omega]
        exact ⟨rfl, rfl⟩
      · rw [if_neg hin, if_neg (by omega), if_neg hin, if_neg (by omega)]
        exact ⟨rfl, rfl⟩

theorem setArgs_keeps (ws : List Nat) (bad : Bool) (g : Group) : ∃ sr sp, setArgs ws bad g = { g with sregs := sr, spoison := sp } :=
  List.foldlRecOn (motive := fun u : Group => ∃ sr sp, u = { g with sregs := sr, spoison := sp }) _ _ ⟨_, _, rfl⟩ fun u hu e _ => by
    obtain ⟨sr, sp, rfl⟩ := hu
    exact ⟨_, _, rfl⟩

theorem startLanes_starts {s : State} {team : Nat} {t : Team} {n : Node} {ws : List Nat} (bad : Bool) (ht : getTeam s team = some t)
    (hn : getNode s t.node = some n) (hp : (n.desc t.stage).persistent = false) (hsp : t.spawned = [])
    (hg : ∀ k ∈ t.groups, ∃ g, getGroup s k = some g ∧ g.team = team ∧ g.refill = [] ∧ g.live1 = none) (hnd : t.groups.Nodup)
    (hw : ∀ w ∈ ws, w < 2 ^ 32) : let u := startLanes s team t ws bad
    (∃ v, getTeam u team = some v ∧ v.phase = .running ∧ v.begun = true) ∧
    ∀ k ∈ t.groups, ∃ g, getGroup u k = some g ∧ g.live1 = none ∧
      g.live0 = some (freshPath (n.desc t.stage).entry 0 (BitVec.allOnes 64) 0xC3 (n.desc t.stage).handle) ∧
      ∀ i < ws.length, g.getS i = ws.getD i 0 ∧ g.badS i = bad := by
  intro u
  obtain ⟨hteams1, hnodes1, hclusters1, hclk1⟩ := modGroups_rest t.groups (setArgs ws bad) s
  have hgr1 := getGroup_modGroups hnd (setArgs ws bad) s
  have hu : u = startReads (modTeam (t.groups.foldl (startGroup team) (t.groups.foldl (fun s g => modGroup s g (setArgs ws bad)) s)) team
    fun t => { t with laned := true, argFail := false }) team t := rfl
  clear_value u
  generalize t.groups.foldl (fun s g => modGroup s g (setArgs ws bad)) s = s1 at hu hteams1 hnodes1 hclusters1 hclk1 hgr1
  have ht1 : getTeam s1 team = some t := by
    unfold getTeam
    rw [hteams1]
    exact ht
  have hn1 : getNode s1 t.node = some n := by
    unfold getNode
    rw [hnodes1]
    exact hn
  have hc1 (k : Nat) : clkOf s1 k = clkOf s k := by
    unfold clkOf getCluster
    rw [hclusters1, hclk1]
  have hg1 (k : Nat) (hk : k ∈ t.groups) : ∃ g, getGroup s k = some g ∧ g.refill = [] ∧ g.live1 = none ∧
      getGroup s1 k = some (setArgs ws bad g) := by
    obtain ⟨g, hkg, -, hr, hl⟩ := hg k hk
    refine ⟨g, hkg, hr, hl, ?_⟩
    rw [hgr1, if_pos hk, hkg]
    rfl
  rw [startGroups_plain (s := s) hsp hp t.groups s1 ht1 hn1 hc1 fun k hk => (hg1 k hk).imp' _ fun g h => h.2.2.2] at hu
  obtain ⟨hteams2, -⟩ := modGroups_rest t.groups (started s (n.desc t.stage)) s1
  have hgr2 := getGroup_modGroups hnd (started s (n.desc t.stage)) s1
  generalize t.groups.foldl (fun s' k => modGroup s' k (started s (n.desc t.stage))) s1 = s2 at hu hteams2 hgr2
  have ht2 : getTeam s2 team = some t := by
    unfold getTeam
    rw [hteams2]
    exact ht1
  have hg2 (k : Nat) (hk : k ∈ t.groups) : ∃ g, g.refill = [] ∧ g.live1 = none ∧
      getGroup s2 k = some (started s (n.desc t.stage) (setArgs ws bad g)) := by
    obtain ⟨g, -, hr, hl, h1⟩ := hg1 k hk
    refine ⟨g, hr, hl, ?_⟩
    rw [hgr2, if_pos hk, h1]
    rfl
  obtain ⟨hteam, hgroups⟩ := startReads_none (s := modTeam s2 team fun t => { t with laned := true, argFail := false })
    (getTeam_modTeam_self ht2 _) hnd fun k hk => by
      obtain ⟨g, hr, -, h2⟩ := hg2 k hk
      obtain ⟨sr, sp, hset⟩ := setArgs_keeps ws bad g
      refine ⟨_, h2, ?_⟩
      rw [hset]
      exact hr
  rw [← hu] at hteam hgroups
  refine ⟨⟨_, hteam, rfl, rfl⟩, fun k hk => ?_⟩
  obtain ⟨g, -, hl, h2⟩ := hg2 k hk
  refine ⟨_, (hgroups k hk).trans h2, ?_, rfl, fun i hi => ?_⟩
  · obtain ⟨sr, sp, hset⟩ := setArgs_keeps ws bad g
    rw [hset]
    exact hl
  · obtain ⟨hs, hb⟩ := setArgs_scalars bad ws 0 g hw i
    rw [if_pos ⟨Nat.zero_le i, by omega⟩] at hs hb
    exact ⟨hs, hb⟩

section
variable {s : State} {team core : Nat} {t : Team} {n : Node} (ht : getTeam s team = some t) (hc : t.core = some core)
  (hn : getNode s t.node = some n) (hp : t.phase = .placed) (hb : t.batch = none) (hbe : t.begun = false) (hl : t.laned = false)
include ht hc hn hp hb hbe hl

/-- The team with the stores that happen before its start. -/
def toldTeam (s : State) (team : Nat) (n : Node) : State :=
  modTeam s team fun t => { t with known := addIds t.known (addIds n.known (overdue s)) }

theorem teamStart_noArgs (ha : n.args = 0) : exec (.teamStart team) s = .next (startLanes (toldTeam s team n) team t [] false) := by
  show settle s (tryTeamStart team s) = _
  unfold tryTeamStart
  rw [ht]
  dsimp only
  rw [hc, hn]
  dsimp only
  rw [if_neg (by rw [hp, hb]; rintro (h | h); exacts [h rfl, Bool.false_ne_true h]), if_neg (by rw [hbe]; exact Bool.false_ne_true),
    if_neg (by rw [hl]; exact Bool.false_ne_true), if_pos ha]
  rfl

theorem teamStart_args (ha : n.args ≠ 0) (hf : t.argFail = false) {bs : List Byte} {bad : Bool}
    (hr : readRange (toldTeam s team n) (.tgu n.part) n.part n.ctx .table true n.args 64 = .ok bs bad) :
    exec (.teamStart team) s = .next (startLanes
      (rangeAsked (toldTeam s team n) (.tgu n.part) n.part n.ctx .table true n.args 64) team t (wordsOf bs) bad) := by
  unfold toldTeam at *
  show settle s (tryTeamStart team s) = _
  unfold tryTeamStart
  rw [ht]
  dsimp only
  rw [hc, hn]
  dsimp only
  rw [if_neg (by rw [hp, hb]; rintro (h | h); exacts [h rfl, Bool.false_ne_true h]), if_neg (by rw [hbe]; exact Bool.false_ne_true),
    if_neg (by rw [hl]; exact Bool.false_ne_true), if_neg ha, if_neg (by rw [hf]; exact Bool.false_ne_true), hr]
  rfl

theorem teamStart_fault (ha : n.args ≠ 0) (hf : t.argFail = false) {gs : List Granule}
    (hr : readRange (toldTeam s team n) (.tgu n.part) n.part n.ctx .table true n.args 64 = .fault gs)
    (hcan : canReport s n.part = true) : ∃ w : Faulter,
    exec (.teamStart team) s = .next (unplaceTeam (reportBatch s n.part w gs (.args team)).2 team t
      (reportBatch s n.part w gs (.args team)).1) := by
  refine ⟨{ acc := .table, ctx := n.ctx, core := core, client := 6 }, ?_⟩
  unfold toldTeam at *
  show settle s (tryTeamStart team s) = _
  unfold tryTeamStart
  rw [ht]
  dsimp only
  rw [hc, hn]
  dsimp only
  rw [if_neg (by rw [hp, hb]; rintro (h | h); exacts [h rfl, Bool.false_ne_true h]), if_neg (by rw [hbe]; exact Bool.false_ne_true),
    if_neg (by rw [hl]; exact Bool.false_ne_true), if_neg ha, if_neg (by rw [hf]; exact Bool.false_ne_true), hr]
  dsimp only
  rw [hcan]
  rfl

end

theorem unplaceTeam_leaves {s : State} {tid : Nat} {v : Team} (t : Team) (b : Nat) (hv : getTeam s tid = some v) :
    getTeam (unplaceTeam s tid t b) tid = some { v with core := none, units := [], groups := [], batch := some b } ∧
      ∀ e ∈ (unplaceTeam s tid t b).groups, e.2.team ≠ tid := by
  have hun : unplaceTeam s tid t b = settleContext { modTeam s tid (fun t => { t with
      core := none, units := [], groups := [], batch := some b }) with
      groups := s.groups.filter fun e => e.2.team != tid } t.part t.ctx := rfl
  rw [hun]
  have hteam := getTeam_modTeam_self hv fun t => { t with core := none, units := [], groups := [], batch := some b }
  have hq := quiet_settleContext { modTeam s tid (fun t => { t with
      core := none, units := [], groups := [], batch := some b }) with
      groups := s.groups.filter fun e => e.2.team != tid } t.part t.ctx
  refine ⟨(hq.getTeam tid).trans hteam, fun e he => ?_⟩
  rw [hq.groups] at he
  exact bne_iff_ne.1 (List.mem_filter.1 he).2

/-! ## The end of a node -/

theorem nodeComplete_finishes {s : State} {node : Nat} {n : Node} (hn : getNode s node = some n) (hd : nodeDrained s node n = true)
    (hl : ∀ x ∈ n.owed.getD (statAdds s n), statLate s n x = false) :
    exec (.nodeComplete node) s = .next (finishNode ((n.owed.getD (statAdds s n)).foldl (statAdd n) s) node n) := by
  have hnone : (n.owed.getD (statAdds s n)).filter (statLate s n) = [] :=
    List.filter_eq_nil_iff.2 fun x hx => by rw [hl x hx]; exact Bool.false_ne_true
  have hall : ((n.owed.getD (statAdds s n)).filter fun x => !statLate s n x) = n.owed.getD (statAdds s n) :=
    List.filter_eq_self.2 fun x hx => by rw [hl x hx]; rfl
  show settle s (tryNodeComplete node s) = _
  unfold tryNodeComplete
  rw [hn]
  dsimp only
  rw [hd, hnone, hall]
  rfl

theorem emptyBound_keeps (s : State) (n : Node) : (emptyBound s n).groups = s.groups ∧ (emptyBound s n).nodes = s.nodes := by
  refine List.foldlRecOn (motive := fun u : State => u.groups = s.groups ∧ u.nodes = s.nodes) _ _ ⟨rfl, rfl⟩ fun u hu e _ => ?_
  unfold emptyQueues
  split
  · exact hu
  · exact hu

theorem finishNode_leaves (s : State) (nid : Nat) (n : Node) :
    getNode (finishNode s nid n) nid = none ∧ (finishNode s nid n).groups = s.groups := by
  obtain ⟨hg, hn⟩ := emptyBound_keeps s n
  unfold finishNode
  generalize emptyBound s n = u at hg hn
  dsimp only
  have hgone : spFind (spDel u.nodes nid) nid = none := by rw [spFind_spDel, if_pos rfl]
  split
  · exact ⟨hgone, hg⟩
  · exact ⟨hgone, hg⟩
  · refine ⟨?_, hg⟩
    refine (spFind_spMod ..).trans ?_
    split
    · next h =>
      rw [← h]
      exact congrArg (Option.map _) hgone
    · exact hgone

theorem finishNode_unbound {s : State} (node : Nat) {n : Node} (hq : n.queues = []) :
    let s1 : State := { s with nodes := spDel s.nodes node, ends := s.ends.filter fun e => e.stream != .child node }
    (∀ a b d, n.src = .launch a b true d → finishNode s node n = s1) ∧
    (∀ p q i, n.src = .queue p q i → finishNode s node n =
      recordDone (endMember s1 n.stream n.order n.regions (nodeIds s n)) p q i (nodeIds s n)) := by
  have he : emptyBound s n = s := by
    unfold emptyBound
    rw [hq]
    rfl
  intro s1
  refine ⟨fun a b d h => ?_, fun p q i h => ?_⟩
  · unfold finishNode
    rw [he]
    dsimp only
    rw [h]
  · unfold finishNode
    rw [he]
    dsimp only
    rw [h]

/-- Settles O48: a placed team takes units and slots that nothing else had, and starts with its argument block. -/
theorem teamsAndNodes : Obligations.TeamsAndNodes := by
  unfold Obligations.TeamsAndNodes
  refine ⟨?_, ?_, fun u n k sl h q _ => assignSlots_bytes h q, ?_, ?_, ?_, ?_⟩
  · intro s node n core slots hn hw hb hh hst hfind
    obtain ⟨ids, hlen, us, husl, husf, hteam, hnode⟩ := placeTeam_leaves (s := s)
      (t := { teamOfNode node n n.nextTeam core with channel := [], known := n.known }) (core := core) slots rfl hn
    have hexec := teamPlacement_places hn hw hb hh hst hfind
    generalize placeTeam s { teamOfNode node n n.nextTeam core with channel := [], known := n.known } core slots = v
      at hteam hnode hexec
    exact ⟨_, _, _, hexec, getNode_modNode_self hnode _, rfl, rfl, hteam, rfl, rfl, rfl, rfl, rfl, hlen, husl, husf⟩
  · intro s core n slots h
    obtain ⟨hslots, hbars, hlatches, hspad, hfence⟩ := fitsOn_room h
    obtain ⟨hlen, hnd, hfree⟩ := assignSlots_fresh hslots
    exact ⟨hlen, hnd, hfree, hbars, hlatches, hspad, hfence⟩
  · intro s team t core n ht hc hn hp hb hbe hl hf s1
    refine ⟨fun ha => teamStart_noArgs ht hc hn hp hb hbe hl ha, fun bs bad ha hr => teamStart_args ht hc hn hp hb hbe hl ha hf hr,
      fun gs ha hr hcan => ?_⟩
    obtain ⟨w, hexec⟩ := teamStart_fault ht hc hn hp hb hbe hl ha hf hr hcan
    have hteam : getTeam (reportBatch s n.part w gs (.args team)).2 team = some t := ht
    obtain ⟨hv, hgroups⟩ := unplaceTeam_leaves t (reportBatch s n.part w gs (.args team)).1 hteam
    exact ⟨_, _, hexec, hv, rfl, rfl, rfl, rfl, hgroups⟩
  · intro s team t n ws bad ht hn hp hsp hg hnd _ hw
    exact startLanes_starts bad ht hn hp hsp hg hnd hw
  · intro s node n hn hd adds hl
    exact nodeComplete_finishes hn hd hl
  · intro s node n
    obtain ⟨hgone, hgroups⟩ := finishNode_leaves s node n
    exact ⟨hgone, hgroups, fun hq => finishNode_unbound node hq⟩

end Sys2Proof.Claims
end

section
/-!
SUPPORT. Jobs start, commit units, suspend, resume and complete (06 R132 to R139).
-/
namespace Sys2Proof.Claims
open Sys2Proof.Machine

/-! ## What the team of a job is while it reads -/

theorem quiet_jobSees (s : State) (id : Nat) (ls : List LaneLoc) : Quiet s (jobSees s id ls) := by
  unfold jobSees
  split
  · exact .refl s
  · next j hj =>
    dsimp only
    refine .ite (.refl s) (Quiet.trans ?_ (calm_learn ..).quiet)
    split
    · exact quiet_coreWriteBack ..
    · exact .refl s

theorem quiet_ctxWakes (s : State) (part ctx : Nat) : Quiet s (ctxWakes s part ctx) := by
  unfold ctxWakes
  refine .ite ?_ (.refl s)
  refine Quiet.trans ?_ (quiet_setCtxBits ..)
  rfl

theorem spadSize_of_quiet {s t : State} (h : Quiet s t) (j : Job) : j.spadSize t = j.spadSize s := by
  unfold Job.spadSize
  rw [show getTeam t = getTeam s from funext h.getTeam]

/-! ## Start -/

/-- The state in which a job that may start reads its index list: its queue's context is awake and the stores before it known. -/
def startable (s : State) (id : Nat) (j : Job) : State :=
  learn (if j.team.isSome then s else ctxWakes s j.part j.ctx) (.job id) (streamIds s j.stream j.order j.card.regions)

theorem quiet_startable (s : State) (id : Nat) (j : Job) : Quiet s (startable s id j) :=
  (Quiet.ite (.refl s) (quiet_ctxWakes ..)).trans (calm_learn ..).quiet

theorem jobStart_goes {s t : State} {id : Nat} {j k : Job} (hj : spFind s.jobs id = some j) (hp : j.phase = .entered)
    (hm : jobMayStart s j = true) (h : jobStart (startable s id j) id j = .go t k) :
    exec (.jobStart id) s = .next (putJob t id k) := by
  show settle s (tryJobStart id s) = _
  unfold tryJobStart
  rw [hj]
  dsimp only
  rw [if_pos ⟨hp, hm⟩]
  unfold startable at h
  rw [h]
  rfl

theorem checkExtents_copies (s : State) {j : Job} (hk : j.card.kind ≠ 6) : checkExtents s j = .go s
    (if footprintOk j.card (j.spadSize s) (j.index.getD []) then { j with checked := true, phase := .running }
      else { j with checked := true, phase := .finishing, status := 4 }) := by
  unfold checkExtents
  dsimp only
  cases footprintOk j.card (j.spadSize s) (j.index.getD []) with
  | false => rfl
  | true =>
    rw [if_neg hk]
    rfl

theorem jobStart_direct (s : State) (id : Nat) {j : Job} (h : j.card.kind ≠ 2 ∧ j.card.kind ≠ 3 ∨ j.index.isSome = true) :
    jobStart s id j = checkExtents s j := by
  unfold jobStart
  refine if_neg ?_
  rintro ⟨hk, hi⟩
  rcases h with ⟨h2, h3⟩ | h
  · exact hk.elim h2 h3
  · rw [← Option.not_isSome, h] at hi
    cases hi

/-- A job that reads its index list first. -/
theorem jobStart_indexed (s : State) (id : Nat) {j : Job} {ls : List LaneLoc} (hk : j.card.kind = 2 ∨ j.card.kind = 3)
    (hi : j.index = none) (he : extentOk j.card 0 false false j.card.p0 (4 * j.card.rows) = true)
    (hx : jobXlate s j .read j.card.p0 (4 * j.card.rows) = .ok ls) :
    jobStart s id j = checkExtents (readSet (jobSees s id ls) [.job id] ls).2 { j with
      index := some (wordsOf (readSet (jobSees s id ls) [.job id] ls).1.bytes)
      poison := j.poison || (readSet (jobSees s id ls) [.job id] ls).1.bad } := by
  unfold jobStart
  rw [if_pos ⟨hk, by rw [hi]; rfl⟩, he]
  dsimp only
  rw [hx]
  rfl

/-! ## Units -/

theorem jobCommitUnit_goes {s t : State} {id : Nat} {j k : Job} (hj : spFind s.jobs id = some j) (hp : j.phase = .running)
    (h : jobUnit s id j = .go t k) : exec (.jobCommitUnit id) s = .next (putJob t id k) := by
  show settle s (tryJobCommitUnit id s) = _
  unfold tryJobCommitUnit
  rw [hj]
  dsimp only
  rw [if_pos hp, h]
  rfl

theorem jobUnit_writes {s t : State} {id : Nat} {j : Job} {bs : List Byte} {bad : List Bool} {off n st : Nat} {ls : List LaneLoc}
    (hu : j.unit < j.unitCount) (hk : j.card.kind ≠ 6) (hd : unitData s id j = .data bs bad off n st t) (hsp : j.card.spdst = false)
    (hx : xlateSet s (.job j.cluster) j.part j.ctx .write (ctxSup s j.part j.ctx)
      ((j.unitDst j.unit).flatMap fun p => rangeAccs p.1 p.2) = .ok ls) :
    jobUnit s id j = .go (subPending (engineWrite (jobSees t id (j.card.readBytes ls)) (.job id) [] ls bs bad) id j
      (j.unitBytes j.unit)) (j.afterUnit off n st (bad.any fun b => b)) := by
  unfold jobUnit
  rw [if_neg (fun h => hk h.1), if_neg (fun h => hk h.1), if_neg (Nat.not_le.2 hu), if_neg hk, hd]
  unfold writeUnit
  dsimp only
  rw [hsp]
  dsimp only
  rw [hx]

theorem unitData_fill (s : State) (id : Nat) {j : Job} (hk : j.card.kind = 5) : unitData s id j = .data
    ((List.range j.card.rowBytes).map fun i => (leBytes 8 j.card.p0 ++ leBytes 8 j.card.p1).getD (i % 16) 0)
    (List.replicate j.card.rowBytes false) 0 j.card.rowBytes 0 s := by
  unfold unitData
  dsimp only
  rw [hk]
  rfl

theorem unitData_copy {s : State} {id : Nat} {j : Job} {ls : List LaneLoc} (hk : j.card.kind = 1) (hsp : j.card.spsrc = false)
    (hx : xlateSet s (.job j.cluster) j.part j.ctx .read (ctxSup s j.part j.ctx)
      (rangeAccs ((j.card.src + j.unit * j.card.spitch) % 2 ^ 64) j.card.rowBytes) = .ok ls) :
    unitData s id j = .data (readAllMarks (jobSees s id ls) (.job id) ls).1.1 (readAllMarks (jobSees s id ls) (.job id) ls).1.2 0
      (readAllMarks (jobSees s id ls) (.job id) ls).1.1.length 0 (readAllMarks (jobSees s id ls) (.job id) ls).2 := by
  have hsrc : rowSrc j.card (j.index.getD []) j.unit = (j.card.src + j.unit * j.card.spitch) % 2 ^ 64 := by
    unfold rowSrc
    rw [hk]
    rfl
  unfold unitData
  dsimp only
  rw [hk, if_neg (by decide), if_neg (by decide), if_neg (by decide), hsp, if_neg Bool.false_ne_true, hsrc]
  unfold readPieces
  rw [List.flatMap_singleton, hx]

/-! ## Suspension -/

theorem jobFaultSuspend_suspends {s : State} {id : Nat} {j : Job} {acc : Acc} {gs : List Granule}
    (hj : spFind s.jobs id = some j) (hf : jobFault s id j = some (acc, gs)) (hc : canReport s j.part = true) :
    ∃ t b, exec (.jobFaultSuspend id) s = .next t ∧ batched t j.part b (.job id) ∧ t.mem = s.mem ∧
      spFind t.jobs id = some { j with batch := some b, phase := .suspended, wordStep := j.phase == .finishing } := by
  let r := reportBatch s j.part { acc := acc, ctx := j.ctx, client := 1, unit := j.cluster, job := j.card.jobid } gs (.job id)
  refine ⟨putJob r.2 id { j with batch := some r.1, phase := .suspended, wordStep := j.phase == .finishing }, r.1, ?_, ?_, rfl,
    spFind_spPut_self ..⟩
  · show settle s (tryJobFaultSuspend id s) = _
    unfold tryJobFaultSuspend
    rw [hj]
    dsimp only
    rw [hf]
    dsimp only
    rw [hc]
    rfl
  · have hp : getPart (putJob r.2 id { j with batch := some r.1, phase := .suspended, wordStep := j.phase == .finishing }) j.part =
        _ := (spGet_spSet ..).trans (if_pos rfl)
    unfold batched
    rw [hp]
    exact ⟨_, List.mem_append_right _ (List.mem_singleton_self _), rfl, rfl, rfl⟩

theorem jobResume_resumes {s : State} {id : Nat} {j : Job} (hj : spFind s.jobs id = some j) (hp : j.phase = .suspended)
    (hb : j.batch = none) : exec (.jobResume id) s = .next (putJob s id
      (if j.wordStep then { j with failed := false, wordStep := false, phase := .finishing, wordFail := j.failed }
        else if j.failed then { j with failed := false, phase := .finishing, status := 5 }
        else { j with phase := if j.checked then .running else .entered })) := by
  show settle s (tryJobResume id s) = _
  unfold tryJobResume
  rw [hj]
  dsimp only
  rw [if_pos ⟨hp, hb⟩]
  cases hw : j.wordStep with
  | true => rfl
  | false =>
    cases hf : j.failed with
    | true => rfl
    | false => rfl

/-! ## Completion -/

theorem jobComplete_completes {s : State} {id : Nat} {j : Job} (hj : spFind s.jobs id = some j) (hp : j.phase = .finishing) :
    let st := if j.status = 0 then 1 else j.status
    (wordWanted j st = false → exec (.jobComplete id) s = .next (completeJob s id j st)) ∧
    (∀ ls, wordWanted j st = true → jobXlate s j .write j.card.cword 8 = .ok ls →
      exec (.jobComplete id) s = .next (completeJob (engineWrite s (.job id) [releaseOf s (.job id) j.card.scope] ls (leBytes 8
        (st + (if j.poison then 2 ^ 7 else 0) + j.card.jobid * 2 ^ 16 + min j.bytes (2 ^ 32 - 1) * 2 ^ 32)) []) id j st)) := by
  intro st
  have hexec {s1 : State} (hf : jobFinish s id j = .inr s1) : exec (.jobComplete id) s = .next s1 := by
    show settle s (tryJobComplete id s) = _
    unfold tryJobComplete
    rw [hj]
    dsimp only
    rw [if_pos hp, hf]
    rfl
  refine ⟨fun hw => ?_, fun ls hw hx => ?_⟩
  · have hf : jobFinish s id j = .inr (completeJob s id j st) := by
      unfold jobFinish
      dsimp only
      rw [show wordWanted j (if j.status = 0 then 1 else j.status) = false from hw]
      rfl
    exact hexec hf
  · have hf : jobFinish s id j = .inr (completeJob (engineWrite s (.job id) [releaseOf s (.job id) j.card.scope] ls
        (leBytes 8 (cardWord j st)) []) id j st) := by
      unfold jobFinish
      dsimp only
      rw [show wordWanted j (if j.status = 0 then 1 else j.status) = true from hw]
      rw [if_neg (by decide), hx]
    exact hexec hf

theorem completeJob_host {s : State} {id : Nat} {j : Job} {q i : Nat} (st : Nat) (ht : j.team = none) (ho : j.op = none)
    (hs : j.src = some (q, i)) (hk : j.card.kind ≠ 6) : let ids := (getKnow s (.job id)).released
    completeJob s id j st =
      recordDone { forget (endMember s j.stream j.order j.card.regions ids) (.job id) with jobs := spDel s.jobs id } j.part q i ids := by
  intro ids
  have hsub : subPending s id j (j.card.declared - j.counted) = s := by
    unfold subPending
    rw [ht]
  have hflag : jobFlag s id j = s := by
    unfold jobFlag
    rw [ho]
  unfold completeJob
  dsimp only
  rw [hsub, hflag, if_neg (fun h => hk h.1), ht, hs]
  rfl

theorem signed32_eq (x : Int) : signed32 x = (BitVec.ofInt 32 x).toInt := by
  unfold signed32
  rw [wrapBits_eq_ofInt, sext_eq_toInt, BitVec.ofNat_toNat, BitVec.setWidth_eq]

/-- The team whose barrier slot has counted bytes of a job. -/
theorem subPending_team {s : State} {id tid : Nat} {j : Job} {t : Team} (n : Nat) (hj : j.team = some tid)
    (ht : getTeam s tid = some t) (hv : j.card.bvalid = true) (hf : t.frame = none) : ∃ b,
    getTeam (subPending s id j n) tid = some { t with barrier := b } ∧
      (getBar { t with barrier := b } j.card.bar).pending = signed32 ((getBar t j.card.bar).pending - n) ∧
      (subPending s id j n).ops = s.ops ∧ (subPending s id j n).mem = s.mem := by
  let f (b : BarSlot) : BarSlot :=
    { b with pending := signed32 (b.pending - n), rels := addRel (releaseOf s (.job id) j.card.scope) b.rels }
  have hteam : getTeam (modBar s tid j.card.bar f) tid = some { t with
      barrier := spSet {} t.barrier j.card.bar (f (spGet {} t.barrier j.card.bar)) } := getTeam_modTeam_self ht _
  have hsub : subPending s id j n = modBar s tid j.card.bar f := by
    unfold subPending
    rw [hj, hv]
    dsimp only
    rw [show getTeam (modBar s tid j.card.bar fun b => { b with
      pending := signed32 (b.pending - n), rels := addRel (releaseOf s (.job id) j.card.scope) b.rels }) tid = _ from hteam]
    dsimp only
    rw [hf]
  rw [hsub]
  refine ⟨_, hteam, ?_, rfl, rfl⟩
  have hget : spGet {} (spSet {} t.barrier j.card.bar (f (spGet {} t.barrier j.card.bar))) j.card.bar =
      f (spGet {} t.barrier j.card.bar) := (spGet_spSet ..).trans (if_pos rfl)
  exact congrArg BarSlot.pending hget

theorem jobFlag_keeps {s : State} {id op : Nat} {j : Job} {o : OpRec} (hj : j.op = some op) (ho : spFind s.ops op = some o) :
    (jobFlag s id j).teams = s.teams ∧ (jobFlag s id j).mem = s.mem ∧ spFind (jobFlag s id j).ops op = none := by
  have hgone : spFind (spDel s.ops op) op = none := by rw [spFind_spDel, if_pos rfl]
  unfold jobFlag completeOp
  rw [hj]
  dsimp only
  rw [ho]
  dsimp only
  split
  · exact ⟨rfl, rfl, hgone⟩
  · exact ⟨rfl, rfl, hgone⟩

theorem endTeamJob_leaves {s : State} {tid : Nat} {t : Team} (id : Nat) (j : Job) (st : Nat) (ids : List Nat)
    (ht : getTeam s tid = some t) (hp : t.phase ≠ .ended) :
    (∃ l us, getTeam (endTeamJob s tid id j st ids) tid = some { t with jobsDone := t.jobsDone + 1, left := l, units := us }) ∧
      (endTeamJob s tid id j st ids).ops = s.ops ∧ (endTeamJob s tid id j st ids).mem = s.mem := by
  have hn : ((getTeam s tid).map (·.jobsDone)).getD 0 + 1 = t.jobsDone + 1 := by
    rw [ht]
    rfl
  have hret {v : State} {x : Team} (hx : getTeam v tid = some x) (hxp : x.phase ≠ .ended) :
      (∃ us, getTeam (reapTeam (returnUnits v tid) tid) tid = some { x with units := us }) ∧
        (reapTeam (returnUnits v tid) tid).ops = v.ops ∧ (reapTeam (returnUnits v tid) tid).mem = v.mem := by
    have hstay {u : State} {y : Team} (hy : getTeam u tid = some y) (hyp : y.phase ≠ .ended) : reapTeam u tid = u := by
      unfold reapTeam
      rw [hy]
      dsimp only
      rw [if_neg (fun h => hyp h.1)]
    unfold returnUnits
    rw [hx]
    dsimp only
    split
    · rw [hstay hx hxp]
      exact ⟨⟨x.units, hx⟩, rfl, rfl⟩
    · have hu := getTeam_modTeam_self hx fun t => { t with units := [] }
      rw [hstay hu hxp]
      exact ⟨⟨[], hu⟩, rfl, rfl⟩
  have hdone {v : State} (hx : getTeam v tid = some { t with jobsDone := t.jobsDone + 1, left := addIds t.left ids })
      (ho : v.ops = s.ops) (hm : v.mem = s.mem) : (∃ l us, getTeam (reapTeam (returnUnits v tid) tid) tid =
        some { t with jobsDone := t.jobsDone + 1, left := l, units := us }) ∧
      (reapTeam (returnUnits v tid) tid).ops = s.ops ∧ (reapTeam (returnUnits v tid) tid).mem = s.mem := by
    obtain ⟨⟨us, hu⟩, hvo, hvm⟩ := hret hx hp
    exact ⟨⟨_, us, hu⟩, hvo.trans ho, hvm.trans hm⟩
  unfold endTeamJob
  dsimp only
  rw [hn]
  have hteam := getTeam_modTeam_self (s := { s with jobs := spPut s.jobs id { j with phase := .done, status := st, doneAt := t.jobsDone + 1 } })
    ht fun x => { x with jobsDone := t.jobsDone + 1, left := addIds x.left ids }
  split
  · exact hdone hteam rfl rfl
  · exact hdone hteam rfl rfl

theorem completeJob_team {s : State} {id tid op : Nat} {j : Job} {o : OpRec} {t : Team} (st : Nat) (hj : j.team = some tid)
    (hop : j.op = some op) (ho : spFind s.ops op = some o) (ht : getTeam s tid = some t) (hp : t.phase ≠ .ended)
    (hv : j.card.bvalid = true) (hf : t.frame = none) :
    ∃ u, getTeam (completeJob s id j st) tid = some u ∧ u.jobsDone = t.jobsDone + 1 ∧
      (getBar u j.card.bar).pending =
        (BitVec.ofInt 32 ((getBar t j.card.bar).pending - ((j.card.declared - j.counted : Nat) : Int))).toInt ∧
      spFind (completeJob s id j st).ops op = none ∧ (completeJob s id j st).mem = s.mem := by
  obtain ⟨b, hteam, hbar, hops, hmem⟩ := subPending_team (id := id) (j.card.declared - j.counted) hj ht hv hf
  unfold completeJob
  dsimp only
  rw [hj]
  dsimp only
  generalize subPending s id j (j.card.declared - j.counted) = s1 at hteam hops hmem
  obtain ⟨hteams2, hmem2, hops2⟩ := jobFlag_keeps (id := id) hop (hops ▸ ho)
  generalize jobFlag s1 id j = s2 at hteams2 hmem2 hops2
  generalize hs3 : (if j.card.kind = 6 ∧ st ≠ 1 then _ else _ : State) = s3
  have h3 : s3.teams = s2.teams ∧ s3.mem = s2.mem ∧ s3.ops = s2.ops := by
    rw [← hs3]
    split
    · exact ⟨rfl, rfl, rfl⟩
    · exact ⟨rfl, rfl, rfl⟩
  have hteam3 : getTeam (forget s3 (.job id)) tid = some { t with barrier := b } := by
    refine Eq.trans ?_ hteam
    show spFind s3.teams tid = spFind s1.teams tid
    rw [h3.1, hteams2]
  obtain ⟨⟨l, us, hu⟩, hops4, hmem4⟩ := endTeamJob_leaves id j st (getKnow s (.job id)).released hteam3 hp
  refine ⟨_, hu, rfl, hbar.trans (signed32_eq _), ?_, ?_⟩
  · rw [hops4]
    show spFind s3.ops op = none
    rw [h3.2.2]
    exact hops2
  · rw [hmem4]
    exact h3.2.1.trans (hmem2.trans hmem)

/-- Settles O34: a job goes through its phases one event at a time, and a fault suspends it until its batch is released. -/
theorem jobEvents : Obligations.JobEvents := by
  unfold Obligations.JobEvents
  refine ⟨?_, ?_, ?_, fun s id j hk => unitData_fill s id hk, fun s id j ls hk hsp hx => unitData_copy hk hsp hx,
    fun s id j acc gs hj hf hc => jobFaultSuspend_suspends hj hf hc, fun s id j hj hp hb => jobResume_resumes hj hp hb,
    fun s id j hj hp => jobComplete_completes hj hp, fun s id j q i st ht ho hs hk => completeJob_host st ht ho hs hk,
    fun s id j st tid op o t hj hop ho ht hp hv hf => completeJob_team st hj hop ho ht hp hv hf⟩
  · intro s id j hj hp hm hk hi s1
    refine jobStart_goes hj hp hm ((jobStart_direct _ id hi).trans ((checkExtents_copies _ hk).trans ?_))
    rw [spadSize_of_quiet (quiet_startable s id j)]
    rfl
  · intro s id j ls hj hp hm hk hi he s1 hx q k
    have hk6 : j.card.kind ≠ 6 := by
      rcases hk with hk | hk <;> rw [hk] <;> decide
    refine jobStart_goes hj hp hm ((jobStart_indexed (startable s id j) id hk hi he hx).trans
      ((checkExtents_copies _ (j := { j with index := some (wordsOf q.1.bytes), poison := j.poison || q.1.bad }) hk6).trans ?_))
    have hq : Quiet s q.2 := (quiet_startable s id j).trans ((quiet_jobSees ..).trans (calm_readSet ..).quiet)
    rw [show Job.spadSize (readSet (jobSees (startable s id j) id ls) [.job id] ls).2
      { j with index := some (wordsOf q.1.bytes), poison := j.poison || q.1.bad } = j.spadSize s from spadSize_of_quiet hq j]
    rfl
  · intro s id j bs bad off n st ls t hj hp hu hk hd hsp hx
    refine (jobCommitUnit_goes hj hp (jobUnit_writes hu hk hd hsp hx)).trans ?_
    unfold Job.afterUnit
    simp only [decide_eq_true_eq]

end Sys2Proof.Claims
end

section
/-!
SUPPORT. A refill of a group that has a frame (16 R386; 08 R191; 10 R220).
-/
namespace Sys2Proof.Claims
open Sys2Proof.Machine

/-- The issuing group: lane 0 lives and its registers lie in a frame beyond the device's memory. -/
def framedGroup : Group :=
  { newGroup State.reset 0 0 0 256 with live0 := some (freshPath 0 0 1 0xC3 1), frame := some (2 ^ 40) }

/-- A node of a persistent kernel whose dispenser holds one item, with its payload at 0x3000. -/
def dispensing : Node :=
  { lonelyNode with
    descs := [{ emptyDesc with handle := 1, regs := 256, tsize := 1, persistent := true }], workq := 0x3000, workn := 1 }

/-- The fields of a REFILL with its count in register 5. -/
def refillFields : Fields := { mod := 0, d := 0x105, a := 0, b := 0, c := 0, g := 63, gn := 0, reuse := 0, x := 0 }

/-- The group issues. Memory has the record of context 0, a page table that maps every address to itself (03 R43 to R45) and
the payload. -/
def framedRefill : State :=
  { modPart State.reset 0 (fun p => { p with frameSize := 1 }) with
    mem := [(1, 4), (8, 0x38), (0x400, 0x01), (0x401, 0x10), (0x1000, 0x01), (0x1001, 0x20), (0x2000, 0x0F), (0x3000, 5)]
    teams := [(0, lonelyTeam)], groups := [(0, framedGroup)], nodes := [(0, dispensing)], cur := some ⟨0, 0⟩ }

def framedIss : Iss := ⟨0, 0, framedGroup, freshPath 0 0 1 0xC3 1, lonelyTeam, 0, 0, 0⟩

theorem framedRefill_issues : issuer framedRefill = some framedIss := by rfl

theorem framedRefill_legal : refillFields.guardPathWide = true ∧ refillLegal framedIss refillFields = true ∧
    spFind framedIss.g.refill framedIss.live = none ∧ framedIss.g.held ≠ BitVec.allOnes 64 := by decide +kernel

/-- The payload's first word of lane 1 reaches the frame's cell of memory. -/
theorem framedRefill_writes : (match exec (.refill refillFields) framedRefill with
    | .next t => memByte t.mem (2 ^ 40 + 0x8000 + 4) == 5
    | _ => false) = true := by decide +kernel

theorem framedRefill_before : memByte framedRefill.mem (2 ^ 40 + 0x8000 + 4) = 0 := by decide +kernel

/-- Refutes O37: a lane that REFILL fills has its payload written to its registers. When the group has a frame, they lie there,
and a frame beyond the device's memory is written in the memory's cells at once; so memory is not as before. -/
theorem not_populations : ¬ Obligations.Populations := by
  unfold Obligations.Populations
  rintro ⟨-, -, -, -, -, hrefill⟩
  obtain ⟨hguard, hlegal, hnone, hheld⟩ := framedRefill_legal
  obtain ⟨-, -, hitems⟩ := hrefill refillFields framedRefill framedIss dispensing framedRefill_issues hguard hlegal rfl
  obtain ⟨t, m, g', hexec, -, -, -, hmem, -⟩ := hitems rfl hnone (by decide) hheld
  have hwrites := framedRefill_writes
  rw [hexec] at hwrites
  have hfive : memByte t.mem (2 ^ 40 + 0x8000 + 4) = 5 := beq_iff_eq.1 hwrites
  rw [hmem, framedRefill_before] at hfive
  exact absurd hfive (by decide)

end Sys2Proof.Claims
end

section
/-!
SUPPORT. Triangles reach the samples they cover, and a sample replaces a farther entry (17 R402 to R407, R409).
-/
namespace Sys2Proof.Claims
open Sys2Proof.Machine

/-! ## Triangles -/

theorem modStat_stat (n : Node) (k : Nat) (f : DrawStat → DrawStat) :
    spGet {} (modStat n k f).stats k = f (spGet {} n.stats k) := by
  unfold modStat spGet
  rw [spFind_spPut_self]
  rfl

theorem feedOp_none (s : State) (op : Nat) : (feedOp s op []).mem = s.mem ∧ (feedOp s op []).groups = s.groups ∧
    (feedOp s op []).parts = s.parts ∧ (feedOp s op []).nodes = s.nodes ∧
    ∀ o, spFind s.ops op = some o → spFind (feedOp s op []).ops op = some { o with left := o.left - 1 } := by
  refine ⟨rfl, rfl, rfl, rfl, fun o ho => (spFind_spMod_self ..).trans ?_⟩
  rw [ho, Option.map_some, List.append_nil]

theorem rasterTriangle_event {s : State} {part : Nat} {t : Tri} {rest : List Tri} (ht : (getPart s part).tris = t :: rest) :
    ∃ u, exec (.rasterTriangle part) s = .next u ∧ u.mem = s.mem ∧ u.groups = s.groups ∧
      (getPart u part).tris = rest ∧
      (getPart u part).samples = (getPart s part).samples ++ triSamples s part t ∧
      (∀ o, spFind s.ops t.op = some o → spFind u.ops t.op = some { o with left := o.left - 1 }) ∧
      (∀ n, getNode s t.node = some n → ∃ m, getNode u t.node = some m ∧
        (spGet {} m.stats (t.id / 2 ^ 44)).primsIn = (spGet {} n.stats (t.id / 2 ^ 44)).primsIn + 1) := by
  let s0 := modPart s part fun p => { p with tris := rest, samples := p.samples ++ triSamples s part t }
  have hpart : getPart s0 part = { getPart s part with tris := rest, samples := (getPart s part).samples ++ triSamples s part t } :=
    (getPart_modPart ..).trans (if_pos rfl)
  obtain ⟨hmem, hgroups, hparts, hnodes, hops⟩ := feedOp_none s0 t.op
  have hexec : exec (.rasterTriangle part) s = .next (modNode (feedOp s0 t.op []) t.node fun n => modStat n (t.id / 2 ^ 44) fun d =>
      { d with primsIn := d.primsIn + 1, culled := if triSamples s part t = [] then d.culled + 1 else d.culled }) := by
    show settle s (tryRasterTriangle part s) = _
    unfold tryRasterTriangle
    rw [ht]
    rfl
  have hget : getPart (feedOp s0 t.op []) part = getPart s0 part := by
    unfold getPart
    rw [hparts]
  generalize feedOp s0 t.op [] = s1 at hmem hgroups hnodes hops hexec hget
  refine ⟨_, hexec, hmem, hgroups, ?_, ?_, hops, fun n hn => ?_⟩
  · exact (congrArg Partition.tris (hget.trans hpart) : (getPart s1 part).tris = rest)
  · exact (congrArg Partition.samples (hget.trans hpart) : (getPart s1 part).samples = _)
  · have hn1 : getNode s1 t.node = some n := by
      unfold getNode
      rw [hnodes]
      exact hn
    refine ⟨_, getNode_modNode_self hn1 _, ?_⟩
    rw [modStat_stat]

/-! ## Samples -/

section
variable {s : State} {part : Nat} {x : Sample} {rest : List Sample} (hx : (getPart s part).samples = x :: rest) (hb : x.batch = none)
include hx hb

theorem nextSample_head : nextSample (getPart s part).samples [] = some ([], x, rest) := by
  rw [hx]
  unfold nextSample
  rw [hb]
  rfl

theorem sampleWrite_failed (hf : x.failed = true) :
    exec (.sampleWrite part) s = .next (modPart s part fun p => { p with samples := rest }) := by
  show settle s (trySampleWrite part s) = _
  unfold trySampleWrite
  rw [nextSample_head hx hb]
  dsimp only
  rw [if_pos hf]
  rfl

theorem sampleWrite_event {ls : List LaneLoc} (hf : x.failed = false)
    (hl : xlateSet s (.raster x.ras) part x.ctx .write (ctxSup s part x.ctx) (rangeAccs x.va 12) = .ok ls) :
    let q := readSet (learn (countSample (modPart s part fun p => { p with samples := rest }) x ls) (.raster x.ras) x.known)
      [.raster x.ras] ls
    let d := leNat q.1.bytes
    exec (.sampleWrite part) s = .next (if replaces x.z x.id (d / 2 ^ 64 % 2 ^ 32) (d % 2 ^ 64) then
      storeSet q.2 (.raster x.ras) false [] ls (leBytes 8 x.id ++ leBytes 4 x.z) else q.2) := by
  intro q d
  have hid : bitsOf d 0 64 = d % 2 ^ 64 := congrArg (· % 2 ^ 64) (Nat.div_one d)
  show settle s (trySampleWrite part s) = _
  unfold trySampleWrite
  rw [nextSample_head hx hb]
  dsimp only
  rw [hf, if_neg Bool.false_ne_true, hl]
  rw [← hid]
  rfl

end

theorem countSample_counts {s : State} {x : Sample} {n : Node} {l : LaneLoc} (r : List LaneLoc) (hn : getNode s x.node = some n)
    (hr : replaces x.z x.id (entryBefore s n l).1 (entryBefore s n l).2 = true) :
    ∃ m, getNode (countSample s x (l :: r)) x.node = some m ∧ x.va ∈ (spGet {} m.stats (x.id / 2 ^ 44)).samples := by
  unfold countSample
  rw [hn]
  dsimp only
  rw [if_pos hr]
  refine ⟨_, getNode_modNode_self hn _, ?_⟩
  rw [modStat_stat]
  split
  · next h => exact List.contains_iff_mem.1 h
  · exact List.mem_append_right _ (List.mem_singleton_self _)

theorem replaces_iff (z id depth sid : Nat) : replaces z id depth sid = true ↔
    ((decodeFmt 1 depth).isNaN = true ∨ (decodeFmt 1 z).lt (decodeFmt 1 depth) = true ∨
      ((decodeFmt 1 z).cmp (decodeFmt 1 depth) = 0 ∧ id < sid)) := by
  unfold replaces
  rw [Bool.or_eq_true, Bool.or_eq_true, Bool.and_eq_true, decide_eq_true_eq, decide_eq_true_eq, or_assoc]

/-! ## Edges -/

theorem edgeAt_swap (a b : Vertex) (x y : Int) : edgeAt b a x y = -edgeAt a b x y := by
  unfold edgeAt
  ring

theorem edgeAt_sum (a b c : Vertex) (x y : Int) : edgeAt a b x y + edgeAt b c x y + edgeAt c a x y = edgeAt a b c.x c.y := by
  unfold edgeAt
  ring

theorem ownsEdge_swap {a b : Vertex} (h : (a.x, a.y) ≠ (b.x, b.y)) : ownsEdge a b = !ownsEdge b a := by
  unfold ownsEdge
  rw [Ne, Prod.mk.injEq] at h
  rcases Int.lt_trichotomy a.y b.y with hlt | heq | hgt
  · rw [decide_eq_true (p := 0 < b.y - a.y) (by omega), decide_eq_false (p := 0 < a.y - b.y) (by omega),
      decide_eq_false (p := a.y = b.y) (by omega)]
    cases decide (b.y = a.y) && decide (b.x - a.x < 0) <;> rfl
  · rw [decide_eq_false (by omega), decide_eq_true (p := b.y = a.y) heq.symm, decide_eq_false (p := 0 < a.y - b.y) (by omega),
      decide_eq_true (p := a.y = b.y) heq, Bool.false_or, Bool.true_and, Bool.false_or, Bool.true_and, ← decide_not]
    exact decide_eq_decide.2 (by omega)
  · rw [decide_eq_false (by omega), decide_eq_false (p := b.y = a.y) (by omega), decide_eq_true (p := 0 < a.y - b.y) (by omega)]
    rfl

theorem insideEdge_swap {a b : Vertex} (x y : Int) (h : (a.x, a.y) ≠ (b.x, b.y)) : insideEdge a b x y = !insideEdge b a x y := by
  unfold insideEdge
  dsimp only
  rw [edgeAt_swap a b, ownsEdge_swap h]
  rcases Int.lt_trichotomy (edgeAt a b x y) 0 with hlt | heq | hgt
  · rw [decide_eq_false (by omega), decide_eq_false (by omega), decide_eq_true (by omega)]
    rfl
  · rw [decide_eq_false (by omega), decide_eq_true heq, decide_eq_false (by omega), decide_eq_true (by omega)]
    cases ownsEdge b a <;> rfl
  · rw [decide_eq_true hgt, decide_eq_false (by omega), decide_eq_false (by omega), decide_eq_false (by omega)]
    rfl

/-- Settles O42: the samples of the oldest triangle queue up, a nearer one replaces its entry, and an edge has one inside. -/
theorem rasterisation : Obligations.Rasterisation := by
  unfold Obligations.Rasterisation
  refine ⟨fun s part t rest ht => rasterTriangle_event ht, fun s part x rest ls hx hb => ⟨sampleWrite_failed hx hb,
    sampleWrite_event hx hb⟩, fun s x n l r hn hr => countSample_counts r hn hr, replaces_iff,
    fun a b x y h => insideEdge_swap x y h, edgeAt_sum⟩

end Sys2Proof.Claims
end

section
/-!
SUPPORT. Visibility entries and primitives are read, and triangles are emitted (16 R394, R395; 17 R400 to R402, R408).
-/
namespace Sys2Proof.Claims
open Sys2Proof.Machine

/-! ## Entries of a target -/

/-- A position in rows of W. -/
theorem rowColumn_inj {W p q i j : Nat} (hi : i < W) (hj : j < W) (h : p * W + i = q * W + j) : p = q ∧ i = j := by
  have hW : 0 < W := Nat.lt_of_le_of_lt (Nat.zero_le i) hi
  have hp : (p * W + i) / W = p := by
    rw [Nat.mul_comm, Nat.mul_add_div hW, Nat.div_eq_of_lt hi, Nat.add_zero]
  have hq : (q * W + j) / W = q := by
    rw [Nat.mul_comm, Nat.mul_add_div hW, Nat.div_eq_of_lt hj, Nat.add_zero]
  have hpq : p = q := by rw [← hp, h, hq]
  subst hpq
  exact ⟨rfl, Nat.add_left_cancel h⟩

theorem sampleAddr_inj {base width log2s x y k x' y' k' : Nat} (hx : x < width) (hx' : x' < width) (hw : width < 2 ^ 16)
    (hy : y < 2 ^ 16) (hy' : y' < 2 ^ 16) (hl : log2s < 4) (hk : k < 2 ^ log2s) (hk' : k' < 2 ^ log2s)
    (h : sampleAddr base width log2s x y k = sampleAddr base width log2s x' y' k') : x = x' ∧ y = y' ∧ k = k' := by
  unfold sampleAddr at h
  dsimp only at h
  have hW : (width + 63) / 64 ≤ 1024 := by omega
  have htile {a b : Nat} (ha : a < width) (hb : b < 2 ^ 16) : b / 64 * ((width + 63) / 64) + a / 64 < 2 ^ 20 := by
    have h1 : b / 64 * ((width + 63) / 64) ≤ 1023 * 1024 := Nat.mul_le_mul (by omega) hW
    omega
  have hrow : ∀ {a : Nat}, a < width → a / 64 < (width + 63) / 64 := fun ha => by omega
  have ht := htile hx hy
  have ht' := htile hx' hy'
  generalize hT : y / 64 * ((width + 63) / 64) + x / 64 = T at h ht
  generalize hT' : y' / 64 * ((width + 63) / 64) + x' / 64 = T' at h ht'
  have hparts : T = T' ∧ y % 64 * 64 + x % 64 = y' % 64 * 64 + x' % 64 ∧ k = k' := by
    interval_cases log2s <;> omega
  obtain ⟨hTT, hin, hkk⟩ := hparts
  rw [← hT, ← hT'] at hTT
  obtain ⟨hyy, hxx⟩ := rowColumn_inj (hrow hx) (hrow hx') hTT
  exact ⟨by omega, by omega, hkk⟩

/-! ## Reads behind an issue -/

/-- The operation of VISR or PRIMF: writes that need no access, and the reads of the others. -/
def readsBehind (s : State) (c : Iss) (f : Fields) (ws : List RegWrite) (rs : List LaneRead) : State :=
  startOp (modGroup s c.gid fun _ => behind c)
    { gid := c.gid, flag := setFlag c.p false, writes := ws, reads := rs
      known := rs.map fun r => (r.lane, knowAtIssue s (.thread c.gid r.lane)), first := (vecReg (opnd f.d)).getD 256
      count := if (vecReg (opnd f.d)).isSome then 3 else 0, clause := c.p.addr, slot := c.p.slot }

section
variable {s : State} {c : Iss} {f : Fields} (h : issuer s = some c)
include h

theorem readLater_eq (ws : List RegWrite) (rs : List LaneRead) : readLater s c f ws rs = readsBehind s c f ws rs := by
  unfold readLater
  rw [retire_eq h]
  rfl

theorem visr_reads {k : Nat} {t : Target} (hc : Counts c f false (f.mod == 0 && f.x == 0 && f.c == 0 && (recScalar f.b).isSome
      && vecRange c 3 f.a && vecDst c 3 f.d)) (hb : ∀ l ∈ lanesOf (active c f), imageBad c f 3 l = false)
    (hk : recScalar f.b = some k) (ht : targetOf (recWord c.g k) = some t) :
    exec (.visr f) s = .next (readsBehind s c f
      (((lanesOf (active c f)).filter fun l => (visEntry c f t l).isNone).flatMap fun l =>
        laneThree (vecReg (opnd f.d)) l (visibleNone (2 ^ 32 - 1) f32Inf))
      ((lanesOf (active c f)).filterMap fun l => (visEntry c f t l).map fun a => .entry l a)) := by
  have hnone : (lanesOf (active c f)).find? (imageBad c f 3) = none :=
    List.find?_eq_none.2 fun l hl => by rw [hb l hl]; exact Bool.false_ne_true
  refine (exec_counted (f := f) (setB := false) (L := fun c => f.mod == 0 && f.x == 0 && f.c == 0 && (recScalar f.b).isSome
    && vecRange c 3 f.a && vecDst c 3 f.d) rfl h hc).trans ?_
  dsimp only
  rw [hnone]
  dsimp only
  unfold withTarget
  rw [hk]
  dsimp only
  rw [ht]
  dsimp only
  rw [readLater_eq h]

theorem primf_reads (hc : Counts c f false (f.mod == 0 && f.x == 0 && f.c == 0 && f.b == 0 && vecRange c 2 f.a
      && f.a.toNat % 2 == 0 && vecDst c 3 f.d)) (hb : ∀ l ∈ lanesOf (active c f), srcBad c true (opnd f.a) l = false) :
    exec (.primf f) s = .next (readsBehind s c f
      (((lanesOf (active c f)).filter fun l => primId c f l == 2 ^ 64 - 1).flatMap fun l =>
        laneThree (vecReg (opnd f.d)) l (visibleNone (2 ^ 32 - 1) (2 ^ 32 - 1)))
      (((lanesOf (active c f)).filter fun l => primId c f l != 2 ^ 64 - 1).map fun l => .prim l (primId c f l))) := by
  have hnone : (lanesOf (active c f)).find? (fun l => srcBad c true (opnd f.a) l) = none :=
    List.find?_eq_none.2 fun l hl => by rw [hb l hl]; exact Bool.false_ne_true
  refine (exec_counted (f := f) (setB := false) (L := fun c => f.mod == 0 && f.x == 0 && f.c == 0 && f.b == 0 && vecRange c 2 f.a
      && f.a.toNat % 2 == 0 && vecDst c 3 f.d) rfl h hc).trans ?_
  dsimp only
  rw [hnone]
  dsimp only
  rw [readLater_eq h]
  rfl

end

/-! ## Completion -/

theorem performReads_completes {s : State} {op : Nat} {o : OpRec} {g : Group} {t : Team} (hf : o.failed = false)
    {ws : List RegWrite} {gs : List Granule} {u : State}
    (hr : laneReads ⟨o.gid, t.core.getD 0, t.part, t.ctx, o.known⟩ (if o.count = 0 then none else some o.first) s o.reads =
      (ws, [], gs, u)) :
    performReads s op o g t = .next (completeOp { u with
      ops := spPut u.ops op { o with reads := [], batch := none, writes := o.writes ++ ws } } op) := by
  unfold performReads
  dsimp only
  rw [hf, if_neg Bool.false_ne_true, hr]
  rfl

theorem operationComplete_reads {s : State} {op : Nat} {o : OpRec} {g : Group} {t : Team} (ho : spFind s.ops op = some o)
    (hl : o.left = 0) (hb : o.batch = none) (hr : o.reads ≠ []) (hh : o.heldByFence s = false) (ha : groupAtoms s o.gid = false)
    (hg : getGroup s o.gid = some g) (ht : getTeam s g.team = some t) {u : State} (hp : performReads s op o g t = .next u) :
    exec (.operationComplete op) s = .next u := by
  show settle s (tryOperationComplete op s) = _
  unfold tryOperationComplete
  rw [ho]
  dsimp only
  rw [if_neg (by rw [hl, hb, hh, ha]; simp), if_neg hr, hg]
  dsimp only
  rw [ht]
  dsimp only
  rw [hp]
  rfl

theorem laneRead_entry {s u : State} {h : OpThread} {l va : Nat} {bs : List Byte} {bad : List Bool}
    (hr : lateRead s h l va 12 = .ok bs bad u) : laneRead s h (.entry l va) = .words
    [(leNat (bs.take 4), (bad.take 8).any id), (leNat ((bs.drop 4).take 4), (bad.take 8).any id),
     (leNat ((bs.drop 8).take 4), ((bad.drop 8).take 4).any id)] u := by
  unfold laneRead
  dsimp only
  rw [hr]
  rfl

/-! ## Emission -/

/-- What EMIT does behind its release edge: an operation, the triangles at the partition's rasterisers, and counts. -/
def sendTris (s : State) (c : Iss) (o : OpRec) (tris : List Tri) (count : Node → Node) : State :=
  modNode (modPart (startOp (modGroup s c.gid fun _ => behind c) o) c.part fun p => { p with tris := p.tris ++ tris })
    c.t.node count

theorem sendTris_spec {s : State} {c : Iss} (h : issuer s = some c) {o : OpRec} (ho : o.gid = c.gid) (tris : List Tri)
    (count : Node → Node) :
    (sendTris s c o tris count).mem = s.mem ∧ (sendTris s c o tris count).cores = s.cores ∧
      (getPart (sendTris s c o tris count) c.part).tris = (getPart s c.part).tris ++ tris ∧
      spFind (sendTris s c o tris count).ops s.order = some o ∧
      getGroup (sendTris s c o tris count) c.gid = some (addFlag (behind c) o.flag) := by
  have hgroup : getGroup (modGroup s c.gid fun _ => behind c) c.gid = some (behind c) := by
    rw [getGroup_modGroup, if_pos rfl, (issuer_spec h).2.1]
    rfl
  have hput : getGroup (startOp (modGroup s c.gid fun _ => behind c) o) c.gid = some (addFlag (behind c) o.flag) := by
    refine (getGroup_modGroup (modGroup s c.gid fun _ => behind c) o.gid c.gid _).trans ?_
    rw [if_pos ho.symm, ho, hgroup]
    rfl
  refine ⟨rfl, rfl, ?_, spFind_spPut_self .., hput⟩
  exact congrArg Partition.tris ((getPart_modPart (startOp (modGroup s c.gid fun _ => behind c) o) c.part c.part
    fun p => { p with tris := p.tris ++ tris }).trans (if_pos rfl))

theorem emit_eq {s : State} {c : Iss} {f : Fields} {k : Nat} {t : Target} (h : issuer s = some c)
    (hc : Counts c f true (f.mod == 0 && f.x == 0 && f.d == 0 && (recScalar f.b).isSome
      && vecRange c 9 f.a && vecRange c 2 f.c && f.c.toNat % 2 == 0))
    (hb : ∀ l ∈ lanesOf (active c f), imageBad c f 9 l = false ∧ srcBad c true (opnd f.c) l = false)
    (hk : recScalar f.b = some k) (ht : targetOf (recWord c.g k) = some t) :
    exec (.emit f) s = .next (sendTris (publishAt s c.core 4) c
      { gid := c.gid, flag := setFlag c.p true, left := (lanesOf (active c f)).length }
      ((lanesOf (active c f)).map (laneTri s c f t (publishAt s c.core 4).order))
      fun n => (lanesOf (active c f)).foldl (fun n l =>
        modStat n (srcVal s c .q64 (opnd f.c) l / 2 ^ 44) fun d => d.thread (c.gid, l, spGet 0 c.g.births l)) n) := by
  have hnone : (lanesOf (active c f)).find? (fun l => imageBad c f 9 l || srcBad c true (opnd f.c) l) = none :=
    List.find?_eq_none.2 fun l hl => by rw [(hb l hl).1, (hb l hl).2]; exact Bool.false_ne_true
  have h1 : issuer (publishAt s c.core 4) = some c := (quiet_publishAt ..).issuer.trans h
  refine (exec_counted (f := f) (setB := true) (L := fun c => f.mod == 0 && f.x == 0 && f.d == 0 && (recScalar f.b).isSome
    && vecRange c 9 f.a && vecRange c 2 f.c && f.c.toNat % 2 == 0) rfl h hc).trans ?_
  dsimp only
  rw [hnone]
  dsimp only
  unfold withTarget
  rw [hk]
  dsimp only
  rw [ht]
  dsimp only
  generalize publishAt s c.core 4 = s1 at h1 ⊢
  rw [retire_eq h1]
  rfl

theorem emit_sends {s : State} {c : Iss} {f : Fields} {k : Nat} {t : Target} (h : issuer s = some c)
    (hc : Counts c f true (f.mod == 0 && f.x == 0 && f.d == 0 && (recScalar f.b).isSome
      && vecRange c 9 f.a && vecRange c 2 f.c && f.c.toNat % 2 == 0))
    (hb : ∀ l ∈ lanesOf (active c f), imageBad c f 9 l = false ∧ srcBad c true (opnd f.c) l = false)
    (hk : recScalar f.b = some k) (ht : targetOf (recWord c.g k) = some t) :
    ∃ u, exec (.emit f) s = .next u ∧ u.mem = (publishAt s c.core 4).mem ∧ u.cores = (publishAt s c.core 4).cores ∧
      (getPart u c.part).tris =
        (getPart (publishAt s c.core 4) c.part).tris ++ (lanesOf (active c f)).map (laneTri s c f t s.order) ∧
      spFind u.ops s.order = some { gid := c.gid, flag := setFlag c.p true, left := (lanesOf (active c f)).length } ∧
      getGroup u c.gid = some (addFlag (behind c) (setFlag c.p true)) := by
  have hq : Quiet s (publishAt s c.core 4) := quiet_publishAt ..
  have h1 : issuer (publishAt s c.core 4) = some c := hq.issuer.trans h
  have hexec := emit_eq h hc hb hk ht
  rw [hq.order] at hexec
  have hspec := sendTris_spec h1 (o := { gid := c.gid, flag := setFlag c.p true, left := (lanesOf (active c f)).length }) rfl
  rw [hq.order] at hspec
  exact ⟨_, hexec, hspec _ _⟩

/-- Settles O40: lanes with an entry read it in flight, the others take the values of none; triangles follow a release edge. -/
theorem visibleSurface : Obligations.VisibleSurface := by
  unfold Obligations.VisibleSurface
  intro none_ reads
  have hnone (k : Option Nat) (l id depth : Nat) : laneThree k l (visibleNone id depth) = none_ k l id depth := by
    cases k <;> rfl
  refine ⟨fun f s c k t h hc hb hk ht => ?_, fun f s c h hc hb => ?_,
    fun s op o g t ho hl hb hf hr hh ha hg ht ws gs u hu => operationComplete_reads ho hl hb hr hh ha hg ht
      (performReads_completes hf hu),
    fun s h l va bs bad u hr => laneRead_entry hr,
    fun f s c k t h hc hb hk ht => emit_sends h hc hb hk ht,
    fun base width log2s x y k x' y' k' hx hx' hw hy hy' hl hk hk' h => sampleAddr_inj hx hx' hw hy hy' hl hk hk' h⟩
  · refine (visr_reads h hc hb hk ht).trans ?_
    simp only [hnone]
    rfl
  · refine (primf_reads h hc hb).trans ?_
    simp only [hnone]
    rfl

end Sys2Proof.Claims
end

section
/-!
SUPPORT. Tiles form, fault, compute and deliver their rows (15 R368 to R370; 04 R88 to R90).
-/
namespace Sys2Proof.Claims
open Sys2Proof.Machine

theorem getCluster_modCluster (s : State) (k : Nat) (F : Cluster → Cluster) :
    getCluster (modCluster s k F) k = F (getCluster s k) := spGet_spSet_self ..

/-! ## Dispatch -/

/-- A bin whose rows have gone to a tile. -/
def binsBehind (bins : List Bin) (ctx handle : Nat) (rest : List NRow) : List Bin :=
  if rest.isEmpty then bins.filter (fun x => !(x.ctx == ctx && x.handle == handle))
  else bins.map fun x => if x.ctx == ctx && x.handle == handle then { x with rows := rest } else x

theorem mem_binsBehind {bins : List Bin} {ctx handle : Nat} {rest : List NRow} {x : Bin}
    (h : x ∈ binsBehind bins ctx handle rest) (hc : x.ctx = ctx) (hh : x.handle = handle) : x.rows = rest ∧ rest ≠ [] := by
  unfold binsBehind at h
  split at h
  · obtain ⟨-, hx⟩ := List.mem_filter.1 h
    rw [hc, hh, beq_self_eq_true, beq_self_eq_true] at hx
    exact absurd hx (by decide)
  · next hne =>
    obtain ⟨y, -, hy⟩ := List.mem_map.1 h
    refine ⟨?_, fun hrest => hne (by rw [hrest]; rfl)⟩
    split at hy
    · rw [← hy]
    · next hn =>
      subst hy
      rw [hc, hh, beq_self_eq_true, beq_self_eq_true] at hn
      exact absurd rfl hn

theorem tileDispatch_eq {s : State} {cluster ctx handle : Nat} {b : Bin} (hb : findBin s cluster ctx handle = some b)
    (hf : (getCluster s cluster).fenced = false)
    (hd : 32 ≤ b.rows.length ∨ b.flush = true ∨ allCallersWait s cluster ctx = true) :
    exec (.ncallTileDispatch cluster ctx handle) s = .next (modCluster
      (newTile s { cluster := cluster, part := b.part, ctx := ctx, handle := handle, rows := b.rows.take 32 }) cluster fun k =>
        { k with bins := binsBehind k.bins ctx handle (b.rows.drop 32) }) := by
  show settle s (tryNcallTileDispatch cluster ctx handle s) = _
  unfold tryNcallTileDispatch
  rw [hb]
  dsimp only
  rw [if_neg (by rw [hf]; exact Bool.false_ne_true), if_pos hd]
  rfl

/-! ## The window -/

theorem flushWindow_marks {s : State} {cluster ctx handle : Nat} {b : Bin} {r : NRow} {rest : List NRow}
    (hb : findBin s cluster ctx handle = some b) (hr : b.rows = r :: rest) (hf : b.flush = false)
    (ht : r.at_ + 64 ≤ clkOf s cluster) : exec (.flushWindowExpiry cluster ctx handle) s =
      .next (modCluster s cluster fun k => { k with bins := k.bins.map fun x =>
        if x.ctx == ctx && x.handle == handle then { x with flush := true } else x }) := by
  show settle s (tryFlushWindowExpiry cluster ctx handle s) = _
  unfold tryFlushWindowExpiry
  rw [hb]
  dsimp only
  rw [hr]
  dsimp only
  rw [if_neg (by rw [hf]; simp [ht])]
  rfl

/-! ## Completion -/

section
variable {s : State} {tile : Nat} {t : Tile} (ht : spFind s.tiles tile = some t) (hb : t.batch = none)
  (hf : (getCluster s t.cluster).fenced = false)
include ht hb hf

theorem tileComplete_failed (hx : t.failed = true) : exec (.ncallTileComplete tile) s =
    .next (tileFailed { s with tiles := spDel s.tiles tile } (fetchSet s t.cluster t.part t.ctx t.handle) t.rows) := by
  show settle s (tryNcallTileComplete tile s) = _
  unfold tryNcallTileComplete
  rw [ht]
  dsimp only
  rw [if_neg (by rw [hb, hf]; exact Bool.false_ne_true), if_pos hx]
  rfl

variable (hx : t.failed = false)
include hx

theorem tileComplete_err (ho : fetchSet s t.cluster t.part t.ctx t.handle = .err) :
    exec (.ncallTileComplete tile) s = .next (tileNaN { s with tiles := spDel s.tiles tile } t.rows false true) := by
  show settle s (tryNcallTileComplete tile s) = _
  unfold tryNcallTileComplete
  rw [ht]
  dsimp only
  rw [if_neg (by rw [hb, hf]; exact Bool.false_ne_true), if_neg (by rw [hx]; exact Bool.false_ne_true), ho]
  rfl

theorem tileComplete_badDesc {u : State} (ho : fetchSet s t.cluster t.part t.ctx t.handle = .badDesc u) :
    exec (.ncallTileComplete tile) s = .next (tileNaN { u with tiles := spDel u.tiles tile } t.rows true false) := by
  show settle s (tryNcallTileComplete tile s) = _
  unfold tryNcallTileComplete
  rw [ht]
  dsimp only
  rw [if_neg (by rw [hb, hf]; exact Bool.false_ne_true), if_neg (by rw [hx]; exact Bool.false_ne_true), ho]
  rfl

theorem tileComplete_ok {w : WeightSet} {desc data : List LaneLoc} {u : State}
    (ho : fetchSet s t.cluster t.part t.ctx t.handle = .ok w desc data u) :
    exec (.ncallTileComplete tile) s = .next (finishTile u tile t w desc data) := by
  show settle s (tryNcallTileComplete tile s) = _
  unfold tryNcallTileComplete
  rw [ht]
  dsimp only
  rw [if_neg (by rw [hb, hf]; exact Bool.false_ne_true), if_neg (by rw [hx]; exact Bool.false_ne_true), ho]
  rfl

theorem tileComplete_fault {acc : Acc} {gs : List Granule} {w : Option WeightSet}
    (ho : fetchSet s t.cluster t.part t.ctx t.handle = .fault acc gs w) (hr : canReport s t.part = true) :
    ∃ u b, exec (.ncallTileComplete tile) s = .next u ∧ spFind u.tiles tile = some { t with batch := some b } ∧
      u.groups = s.groups := by
  have hexec : exec (.ncallTileComplete tile) s =
      .next { (reportBatch s t.part { acc := acc, ctx := t.ctx, client := 4, unit := t.cluster } gs (.tile tile)).2 with
        tiles := spPut s.tiles tile { t with batch := some (getPart s t.part).nextSeq } } := by
    show settle s (tryNcallTileComplete tile s) = _
    unfold tryNcallTileComplete
    rw [ht]
    dsimp only
    rw [if_neg (by rw [hb, hf]; exact Bool.false_ne_true), if_neg (by rw [hx]; exact Bool.false_ne_true), ho]
    dsimp only
    rw [hr]
    rfl
  exact ⟨_, _, hexec, spFind_spPut_self .., rfl⟩

end

theorem rowErr_eq (o : SetOut) (r : NRow) : rowErr o r = match o with
    | .err => true
    | .fault _ _ w => w.any fun w => r.input.length != w.inw
    | .ok w _ _ _ => r.input.length != w.inw
    | _ => false := by
  cases o with
  | fault acc gs w => cases w <;> rfl
  | _ => rfl

/-! ## The Canister -/

theorem canisterFill_cluster (s : State) (cluster part ctx : Nat) (l : LaneLoc) :
    (∃ x, spFind (getCluster (canisterFill s cluster part ctx l) cluster).lines (l.loc / 128) = some x ∧
      x.bytes = (lineNow s l).1.bytes) ∧ (getCluster (canisterFill s cluster part ctx l) cluster).owner = some (part, ctx) := by
  unfold canisterFill
  dsimp only
  rw [getCluster_modCluster]
  exact ⟨⟨_, spFind_spPut_self .., rfl⟩, rfl⟩

theorem canisterFill_eq {s : State} {cluster part ctx line : Nat} {l : LaneLoc}
    (hl : xlateSet s (.barista cluster) part ctx .read (ctxSup s part ctx) [⟨0, line * 128, 128, false⟩] = .ok [l])
    (hw : (s.tiles.any fun e => e.2.cluster == cluster && e.2.part == part && e.2.ctx == ctx && e.2.batch.isNone) = true) :
    exec (.canisterFill cluster part ctx line) s = .next (canisterFill s cluster part ctx l) := by
  show settle s (tryCanisterFill cluster part ctx line s) = _
  unfold tryCanisterFill
  rw [hl]
  dsimp only
  rw [if_pos hw]
  rfl

/-- Settles O28: a bin loses the rows of its tile, and a tile ends by what the fetch of its set gives. -/
theorem neuralTiles : Obligations.NeuralTiles := by
  unfold Obligations.NeuralTiles
  refine ⟨fun s cluster ctx handle b hb hf hd => ?_, fun s cluster ctx handle b r rest hb hr hf ht => ?_,
    fun s tile t ht hb hf hx => ?_, fun s tile t ht hb hf hx => ?_,
    fun s cluster part ctx line l hl hw => ?_⟩
  · refine ⟨_, tileDispatch_eq hb hf hd, spFind_spPut_self .., rfl, rfl, rfl, fun x hx hc hh => ?_⟩
    rw [getCluster_modCluster] at hx
    exact mem_binsBehind hx hc hh
  · refine (flushWindow_marks hb hr hf ht).trans ?_
    simp only [Bool.and_eq_true, beq_iff_eq]
  · dsimp only
    cases ho : fetchSet s t.cluster t.part t.ctx t.handle with
    | err => exact tileComplete_err ht hb hf hx ho
    | badDesc u => exact tileComplete_badDesc ht hb hf hx ho
    | fault acc gs w => exact tileComplete_fault ht hb hf hx ho
    | ok w desc data u =>
      refine (tileComplete_ok ht hb hf hx ho).trans ?_
      unfold finishTile
      rfl
  · refine (tileComplete_failed ht hb hf hx).trans ?_
    exact congrArg (fun F : NRow → Bool => Host.Outcome.next
      (t.rows.foldl (fun u r => rowDone u r (List.replicate 32 f32NaN) true (F r)) { s with tiles := spDel s.tiles tile }))
      (funext fun r => rowErr_eq (fetchSet s t.cluster t.part t.ctx t.handle) r)
  · obtain ⟨⟨x, hx, hbytes⟩, howner⟩ := canisterFill_cluster s cluster part ctx l
    exact ⟨canisterFill_eq hl hw, x, hx, hbytes, howner⟩

end Sys2Proof.Claims
end

section
/-!
SUPPORT. Moves, and the buffers that channels push and pop (04 R91 to R94; 09 R208 to R210; 12 R296; 14 R342).
-/
namespace Sys2Proof.Claims
open Sys2Proof.Machine

/-! ## Queues of the pool -/

theorem poolQueue_modQueue (s : State) (k q : Nat) (F : PoolQueue → PoolQueue) :
    poolQueue (modQueue s k q F) k q = F (poolQueue s k q) := by
  unfold poolQueue modQueue
  rw [getCluster_modCluster]
  exact spGet_spSet_self ..

theorem poolQueue_freed (s : State) (k q : Nat) {F : Cluster → Cluster} (hF : ∀ v, (F v).queues = v.queues) :
    poolQueue (modCluster s k F) k q = poolQueue s k q := by
  unfold poolQueue
  rw [getCluster_modCluster, hF]

theorem poolQueue_of_clusters {s t : State} (h : t.clusters = s.clusters) (k q : Nat) :
    poolQueue t k q = poolQueue s k q := by
  unfold poolQueue getCluster
  rw [h]

theorem clean_length {b : FreeBuf} (h : b.bytes.length = 64) (part ctx : Nat) : (b.clean part ctx).length = 64 := by
  unfold FreeBuf.clean
  split
  · exact h
  · exact List.length_replicate

theorem over_full {old : List Byte} {b : QBuf} (ho : old.length = 64) (hb : b.bytes.length = 64) : b.over old = b := by
  unfold QBuf.over
  rw [hb, List.drop_of_length_le (Nat.le_of_eq ho), List.append_nil]

/-- A whole buffer leaves nothing of the freed one that it goes over. -/
theorem takeFree_whole {s : State} {k part ctx : Nat} {bufs : List QBuf} (hb : ∀ b ∈ bufs, b.bytes.length = 64)
    (hf : ∀ b ∈ (getCluster s k).freed, b.bytes.length = 64) : (takeFree s k part ctx bufs).1 = bufs := by
  unfold takeFree
  dsimp only
  have hold (i : Nat) : ((((getCluster s k).freed.map (FreeBuf.clean part ctx)).take bufs.length).getD i
      (List.replicate 64 0)).length = 64 := by
    rw [List.getD_eq_getElem?_getD]
    cases h : (((getCluster s k).freed.map (FreeBuf.clean part ctx)).take bufs.length)[i]? with
    | none => exact List.length_replicate
    | some o =>
      obtain ⟨b, hbm, rfl⟩ := List.mem_map.1 (List.mem_of_mem_take (List.mem_of_getElem? h))
      exact clean_length (hf b hbm) part ctx
  calc _ = bufs.zipIdx.map Prod.fst :=
        List.map_congr_left fun e he => over_full (hold e.2) (hb e.1 (List.fst_mem_of_mem_zipIdx he))
    _ = bufs := List.zipIdx_map_fst ..

theorem takeFree_queue (s : State) (k part ctx : Nat) (bufs : List QBuf) (q : Nat) :
    poolQueue (takeFree s k part ctx bufs).2 k q = poolQueue s k q := by
  unfold takeFree
  exact poolQueue_freed s k q fun _ => rfl

theorem pushBufs_queue {s : State} {c : Iss} {bufs : List QBuf} (act : Mask) (q : Nat) (hb : ∀ b ∈ bufs, b.bytes.length = 64)
    (hf : ∀ b ∈ (getCluster s (clusterOf c.core)).freed, b.bytes.length = 64) :
    (poolQueue (pushBufs s c act q bufs) (clusterOf c.core) q).bufs = (poolQueue s (clusterOf c.core) q).bufs ++
      bufs.map fun b => { b with rels := releaseOfAll s (threadsOf c.gid act) 3 } := by
  have hcl : (publishAt s c.core 3).clusters = s.clusters := (quiet_publishAt ..).clusters
  have hf' : ∀ b ∈ (getCluster (publishAt s c.core 3) (clusterOf c.core)).freed, b.bytes.length = 64 := by
    unfold getCluster at hf ⊢
    rw [hcl]
    exact hf
  unfold pushBufs
  dsimp only
  rw [poolQueue_modQueue, takeFree_whole hb hf']
  rw [takeFree_queue, poolQueue_of_clusters hcl]

theorem popBufs_queue (s : State) (c : Iss) (act : Mask) (q n : Nat) :
    (poolQueue (popBufs s c act q n).2 (clusterOf c.core) q).bufs = (poolQueue s (clusterOf c.core) q).bufs.drop n := by
  unfold popBufs
  dsimp only
  rw [poolQueue_of_clusters (calm_acquireAll ..).1.clusters]
  refine congrArg PoolQueue.bufs ((poolQueue_freed _ _ _ fun _ => ?_).trans (poolQueue_modQueue ..))
  rfl

theorem pushBufs_groups (s : State) (c : Iss) (act : Mask) (q : Nat) (bufs : List QBuf) :
    (pushBufs s c act q bufs).groups = s.groups := (quiet_publishAt s c.core 3).groups

theorem popBufs_groups (s : State) (c : Iss) (act : Mask) (q n : Nat) : (popBufs s c act q n).2.groups = s.groups := by
  unfold popBufs
  dsimp only
  exact (calm_acquireAll ..).1.groups

theorem cutBufs_length (k : Nat) (bs : List Byte) : ∀ b ∈ cutBufs k bs, b.bytes.length = 64 := by
  induction k generalizing bs with
  | zero => exact fun b hb => absurd hb List.not_mem_nil
  | succ k ih =>
    intro b hb
    rcases List.mem_cons.1 hb with rfl | hb
    · rw [List.length_append, List.length_replicate]
      exact Nat.add_sub_of_le (List.length_take_le ..)
    · exact ih _ b hb

theorem cutBufs_count (k : Nat) (bs : List Byte) : (cutBufs k bs).length = k := by
  induction k generalizing bs with
  | zero => rfl
  | succ k ih => exact congrArg Nat.succ (ih _)

/-! ## The forms of MOV -/

theorem movPopWrite_live (wide vec : Bool) (d : Opnd) (bufs : List QBuf) (lanes : List Nat) (g : Group) (k : Nat) :
    (movPopWrite wide vec d bufs lanes g).live k = g.live k := by
  have hput (g : Group) (x : Nat × Bool) (l : Nat) : (match d with
      | .v r => let g1 := g.setV r l (x.1 % 2 ^ 32) x.2
        if wide then g1.setV (r + 1) l (x.1 / 2 ^ 32) x.2 else g1
      | .s r => let g1 := g.setS r (x.1 % 2 ^ 32) x.2
        if wide then g1.setS (r + 1) (x.1 / 2 ^ 32) x.2 else g1
      | _ => g).live k = g.live k := by
    cases d <;> cases wide <;> rfl
  unfold movPopWrite
  dsimp only
  split
  · exact List.foldlRecOn (motive := fun u : Group => u.live k = g.live k) _ _ rfl fun u hu e _ => (hput u _ _).trans hu
  · exact hput g _ _

section
variable {s t : State} {c : Iss} {f : Fields} (h : issuer s = some c)
include h

theorem channelDone_write (ht : t.groups = s.groups) (F : Group → Group) (hF : (F c.g).live c.live = c.g.live c.live)
    (act : Mask) (nb : Bool) : channelDone (modGroup t c.gid F) c act nb = modGroup t c.gid fun _ =>
      past c (if nb then (F c.g).setPred pq act 0 else F c.g) := by
  cases nb with
  | false => exact retire_modGroup_here h ht F hF
  | true =>
    unfold channelDone setPq
    rw [if_pos rfl, modGroup_modGroup]
    exact retire_modGroup_here h ht _ hF

theorem channelDone_here (ht : t.groups = s.groups) (act : Mask) (nb : Bool) : channelDone t c act nb =
    modGroup t c.gid fun _ => past c (if nb then c.g.setPred pq act 0 else c.g) := by
  cases nb with
  | false => exact retire_here h ht
  | true => exact retire_modGroup_here h ht _ rfl

theorem channelBlocked_here (act : Mask) : channelBlocked s c act true =
    (modGroup s c.gid fun _ => past c (c.g.setPred pq act act)) ∧ channelBlocked s c act false =
    modGroup s c.gid fun _ => c.g.setLive c.live (some { c.p with wait := .channel, since := s.clk }) :=
  ⟨retire_modGroup_here h rfl _ rfl, waitOn_eq h _⟩

/-- A move without a channel, as a value instruction. -/
def movValue (f : Fields) : ValueOp :=
  { dst := .reg f.d (iwide (ityp f)), srcs := [(f.a, ity (ityp f))], legal := movLegal f, fn := fun xs _ => src xs 0 }

theorem mov_value (hd : ∀ n nb, opnd f.d ≠ .ch n nb) (ha : ∀ n nb, opnd f.a ≠ .ch n nb) : exec (.mov f) s =
    .next (runValue s c f false (movValue f)) := by
  show execMov f s = _
  unfold execMov
  dsimp only
  rw [onPath_issuer h]
  cases hd' : opnd f.d with
  | ch n nb => exact absurd hd' (hd n nb)
  | _ =>
    cases ha' : opnd f.a with
    | ch n nb => exact absurd ha' (ha n nb)
    | _ => rfl

theorem mov_push {n : Nat} {nb : Bool} (hd : opnd f.d = .ch n nb) (hg : f.guardLegal = true) (hl : movLegal f = true)
    (hs : srcLegal c (iwide (ityp f)) (opnd f.a) = true) (ha : active c f ≠ 0) :
    exec (.mov f) s = .next (movPush s c f n nb (active c f)) := by
  have hx : exec (.mov f) s = .next (runMasked s c f (movLegal f && srcLegal c (iwide (ityp f)) (opnd f.a)) (movPush s c f n nb)) := by
    show execMov f s = _
    unfold execMov
    dsimp only
    rw [onPath_issuer h, hd]
    cases ha' : opnd f.a with
    | ch n nb => rw [ha'] at hs; exact absurd hs Bool.false_ne_true
    | _ => rfl
  rw [hx, hl, hs, runMasked, hg]
  exact congrArg Host.Outcome.next (if_neg ha)

theorem mov_pop {n : Nat} {nb : Bool} (ho : opnd f.a = .ch n nb) (hg : f.guardLegal = true) (hl : movLegal f = true)
    (hs : dstLegal c (iwide (ityp f)) (opnd f.d) = true) (ha : active c f ≠ 0) :
    exec (.mov f) s = .next (movPop s c f n nb (active c f)) := by
  have hx : exec (.mov f) s = .next (runMasked s c f (movLegal f && dstLegal c (iwide (ityp f)) (opnd f.d)) (movPop s c f n nb)) := by
    show execMov f s = _
    unfold execMov
    dsimp only
    rw [onPath_issuer h, ho]
    cases hd' : opnd f.d with
    | ch n nb => rw [hd'] at hs; exact absurd hs Bool.false_ne_true
    | _ => rfl
  rw [hx, hl, hs, runMasked, hg]
  exact congrArg Host.Outcome.next (if_neg ha)

end

theorem mov_runs (f : Fields) : Runs (.mov f) f false fun _ => movValue f := by
  intro s c h hok hact hcl
  obtain ⟨g', hg, hw⟩ := runValue_done h hok hact hcl (fun hvo => absurd hvo Bool.false_ne_true)
  have hlegal := hok
  unfold ValueOp.ok movValue at hlegal
  simp only [Bool.and_eq_true, List.all_cons] at hlegal
  obtain ⟨⟨⟨⟨-, hd⟩, hs, -⟩, -⟩, -⟩ := hlegal
  refine ⟨g', (mov_value h (fun n nb hd' => ?_) fun n nb ha' => ?_).trans (congrArg _ hg), hw⟩
  · unfold Dst.legal at hd
    dsimp only at hd
    rw [hd'] at hd
    exact absurd hd Bool.false_ne_true
  · rw [ha'] at hs
    exact absurd hs Bool.false_ne_true

section
variable {s : State} {c : Iss} {f : Fields}

/-- The lanes of a move to or from a channel: the active lanes of a vector operand, else the lowest. -/
def chanLanes (c : Iss) (f : Fields) (o : Opnd) : List Nat := if o.isVec then lanesOf (active c f) else [lowLane (active c f)]

/-- The buffers that a move pushes. -/
def pushed (s : State) (c : Iss) (f : Fields) : List QBuf :=
  let bytes := (chanLanes c f (opnd f.a)).flatMap fun l =>
    leBytes (if iwide (ityp f) then 8 else 4) (srcVal s c (ity (ityp f)) (opnd f.a) l)
  cutBufs ((bytes.length + 63) / 64) bytes

theorem movPush_cases {n q : Nat} {nb : Bool} (hq : boundQueue c.t n true = some q)
    (hb : ∀ l ∈ chanLanes c f (opnd f.a), srcBad c (iwide (ityp f)) (opnd f.a) l = false) :
    movPush s c f n nb (active c f) = if pushFits s (clusterOf c.core) q (pushed s c f).length
      then channelDone (pushBufs s c (active c f) q (pushed s c f)) c (active c f) nb
      else channelBlocked s c (active c f) nb := by
  have hnone : (chanLanes c f (opnd f.a)).find? (srcBad c (iwide (ityp f)) (opnd f.a)) = none := find_clean hb
  unfold movPush
  dsimp only
  rw [hq]
  dsimp only
  unfold chanLanes at hnone
  rw [hnone]
  unfold pushed
  dsimp only
  rw [cutBufs_count]
  rfl

theorem movPop_cases {n q : Nat} {nb : Bool} (hq : boundQueue c.t n false = some q) :
    movPop s c f n nb (active c f) =
      let k := ((chanLanes c f (opnd f.d)).length * (if iwide (ityp f) then 8 else 4) + 63) / 64
      let bufs := (poolQueue s (clusterOf c.core) q).bufs
      if k ≤ bufs.length then channelDone (modGroup (popBufs s c (active c f) q k).2 c.gid
        (movPopWrite (iwide (ityp f)) (opnd f.d).isVec (opnd f.d) (bufs.take k) (chanLanes c f (opnd f.d)))) c (active c f) nb
      else channelBlocked s c (active c f) nb := by
  unfold movPop
  dsimp only
  rw [hq]
  rfl

end

/-! ## QMAP -/

/-- What QMAP reads. -/
def qmapRead (s : State) (c : Iss) (f : Fields) : Nat :=
  match spFind c.t.channel (srcVal s c .w32 (opnd f.a) 0) with
  | none => 0
  | some ch => qmapValue s c f.x.toNat ch

theorem qmap_writes (f : Fields) : Writes (.qmap f) f (fun c => qmapLegal c f)
    (fun s c _ => srcBad c false (opnd f.a) 0 || decide (15 < srcVal s c .w32 (opnd f.a) 0)
      || (decide (f.x ≠ 3) && (spFind c.t.channel (srcVal s c .w32 (opnd f.a) 0)).isNone)) noV
    (fun s c => toSca f.d false (qmapRead s c f)) noP := by
  intro s c h hg hl ha hbad
  obtain ⟨l, hlm⟩ : ∃ l, l ∈ lanesOf (active c f) := ⟨_, lowLane_mem ha⟩
  have hb := hbad l hlm
  simp only [Bool.or_eq_false_iff, Bool.and_eq_false_iff, decide_eq_false_iff_not] at hb
  obtain ⟨⟨hsrc, hn⟩, hch⟩ := hb
  have hx : exec (.qmap f) s = .next (retire (modGroup s c.gid fun g => writeScal g false (opnd f.d)
      (qmapRead s c f)) c) := by
    unfold qmapRead
    refine (exec_masked (f := f) (L := fun c => qmapLegal c f) rfl h hg hl ha).trans ?_
    dsimp only
    rw [hsrc, if_neg Bool.false_ne_true, if_neg hn]
    cases hf : spFind c.t.channel (srcVal s c .w32 (opnd f.a) 0) with
    | some ch => rfl
    | none =>
      rw [hf] at hch
      rcases hch with hch | hch
      · exact congrArg _ (if_pos (not_not.1 hch))
      · exact absurd hch (by decide)
  obtain ⟨g', hg', hw⟩ := retire_wrote (F := fun g => writeScal g false (opnd f.d) (qmapRead s c f)) h
    (Wrote.writeScal c.g false f.d _)
  exact ⟨g', hx.trans (congrArg _ hg'), hw⟩

/-- Settles O15: a move runs as a value instruction, or cuts whole buffers for its queue and takes them from it. -/
theorem moveAndChannels : Obligations.MoveAndChannels := by
  unfold Obligations.MoveAndChannels
  refine ⟨mov_runs, fun f s c n nb q h hd hg hl hs ha hq hb => ⟨fun hfit => ?_, fun hfit => ?_⟩,
    fun f s c n nb q h ho hg hl hs ha hq => ⟨fun hk => ?_, fun hk => ?_⟩,
    fun s c act q n bufs hb hf => ⟨pushBufs_queue act q hb hf, popBufs_queue s c act q n⟩, cutBufs_length, qmap_writes⟩
  · rw [mov_push h hd hg hl hs ha, movPush_cases hq hb]
    exact congrArg _ ((if_pos hfit).trans (channelDone_here h (pushBufs_groups ..) _ nb))
  · have hx : exec (.mov f) s = .next (channelBlocked s c (active c f) nb) := by
      rw [mov_push h hd hg hl hs ha, movPush_cases hq hb]
      exact congrArg _ (if_neg fun e => Bool.false_ne_true (hfit.symm.trans e))
    obtain ⟨hnb, hwait⟩ := channelBlocked_here h (active c f)
    refine ⟨fun e => ?_, fun e => ?_⟩
    · subst e; exact hx.trans (congrArg _ hnb)
    · subst e; exact hx.trans (congrArg _ hwait)
  · rw [mov_pop h ho hg hl hs ha, movPop_cases hq]
    exact congrArg _ ((if_pos hk).trans (channelDone_write h (popBufs_groups ..) _ (movPopWrite_live ..) _ nb))
  · have hx : exec (.mov f) s = .next (channelBlocked s c (active c f) nb) := by
      rw [mov_pop h ho hg hl hs ha, movPop_cases hq]
      exact congrArg _ (if_neg (Nat.not_le.2 hk))
    obtain ⟨hnb, hwait⟩ := channelBlocked_here h (active c f)
    refine ⟨fun e => ?_, fun e => ?_⟩
    · subst e; exact hx.trans (congrArg _ hnb)
    · subst e; exact hx.trans (congrArg _ hwait)

end Sys2Proof.Claims
end

section
/-!
SUPPORT. Transforms, top-k, and the decoding and encoding of streams in scratchpad (15 R372 to R379).
-/
namespace Sys2Proof.Claims
open Sys2Proof.Machine

/-! ## Sorting lanes by descending keys -/

/-- One lane stands ahead of another: its key is greater, or the keys are equal and it is the lower lane. -/
def Ahead (key : Nat → Int) (l m : Nat) : Prop := key m < key l ∨ (key l = key m ∧ l < m)

theorem Ahead.trans {key : Nat → Int} {l m n : Nat} (h : Ahead key l m) (h' : Ahead key m n) : Ahead key l n := by
  unfold Ahead at *
  omega

section
variable {key : Nat → Int} {le : Nat → Nat → Bool} (hle : ∀ m l, le m l = true ↔ key l ≤ key m)

theorem insertKey_perm (le : Nat → Nat → Bool) (l : Nat) (ls : List Nat) : (insertKey le l ls).Perm (l :: ls) := by
  induction ls with
  | nil => exact .refl _
  | cons m r ih =>
    unfold insertKey
    split
    · exact (ih.cons m).trans (.swap ..)
    · exact .refl _

include hle

/-- A lane behind all others in lane order keeps the order of the keys. -/
theorem insertKey_sorted {l : Nat} {ls : List Nat} (hs : ls.Pairwise (Ahead key)) (hl : ∀ m ∈ ls, m < l) :
    (insertKey le l ls).Pairwise (Ahead key) := by
  induction ls with
  | nil => exact List.pairwise_singleton ..
  | cons m r ih =>
    obtain ⟨hm, hr⟩ := List.pairwise_cons.1 hs
    have hml : m < l := hl m List.mem_cons_self
    unfold insertKey
    split
    · next hk =>
      have hk' := (hle m l).1 hk
      refine List.pairwise_cons.2 ⟨fun x hx => ?_, ih hr fun x hx => hl x (List.mem_cons_of_mem _ hx)⟩
      rcases List.mem_cons.1 ((insertKey_perm le l r).mem_iff.1 hx) with rfl | hx
      · unfold Ahead
        omega
      · exact hm x hx
    · next hk =>
      have hk' : ¬ key l ≤ key m := fun e => hk ((hle m l).2 e)
      have hlm : Ahead key l m := Or.inl (by omega)
      exact List.pairwise_cons.2 ⟨fun x hx => (List.mem_cons.1 hx).elim (fun e => e ▸ hlm) fun hx => hlm.trans (hm x hx), hs⟩

theorem sortLanes_spec {ls : List Nat} (hs : ls.Pairwise (· < ·)) :
    (sortLanes le ls).Pairwise (Ahead key) ∧ (sortLanes le ls).Perm ls := by
  have hgen (acc : List Nat) (ha : acc.Pairwise (Ahead key)) (hlt : ∀ m ∈ acc, ∀ l ∈ ls, m < l) :
      (ls.foldl (fun acc l => insertKey le l acc) acc).Pairwise (Ahead key) ∧
        (ls.foldl (fun acc l => insertKey le l acc) acc).Perm (ls ++ acc) := by
    induction ls generalizing acc with
    | nil => exact ⟨ha, .refl _⟩
    | cons l r ih =>
      obtain ⟨hl, hr⟩ := List.pairwise_cons.1 hs
      have hins := insertKey_perm le l acc
      have h := ih hr (insertKey le l acc) (insertKey_sorted hle ha fun m hm => hlt m hm l List.mem_cons_self)
        fun m hm k hk => (List.mem_cons.1 (hins.mem_iff.1 hm)).elim (fun e => e ▸ hl k hk) fun hm =>
          hlt m hm k (List.mem_cons_of_mem _ hk)
      exact ⟨h.1, h.2.trans ((hins.append_left r).trans List.perm_middle)⟩
  have h := hgen [] .nil fun m hm => absurd hm List.not_mem_nil
  rw [List.append_nil] at h
  exact h

end

/-- The k foremost of a sorted list: no other of its elements stands ahead of one of them. -/
theorem take_foremost {key : Nat → Int} {ls : List Nat} (hs : ls.Pairwise (Ahead key)) {k l m : Nat} (hl : l ∈ ls)
    (hn : l ∉ ls.take k) (hm : m ∈ ls.take k) : key l ≤ key m := by
  rw [← List.take_append_drop k ls] at hs hl
  have hd : l ∈ ls.drop k := (List.mem_append.1 hl).resolve_left hn
  have h := (List.pairwise_append.1 hs).2.2 m hm l hd
  unfold Ahead at h
  omega

/-! ## TOPK -/

/-- The key of a lane as TOPK reads it. -/
def topKey (c : Iss) (f : Fields) (l : Nat) : Nat :=
  if f.x = 0 then ftz32 (ftzOn c) (c.g.getV f.a.toNat l) else c.g.getV f.a.toNat l

/-- The lanes that TOPK ranks: those whose key is a number. -/
def ranked (c : Iss) (f : Fields) : List Nat :=
  (lanesOf (active c f)).filter fun l => !(f.x == 0 && (decodeFmt 1 (topKey c f l)).isNaN)

theorem toNat_eq_zero {w : Nat} (x : BitVec w) : x.toNat = 0 ↔ x = 0 := by
  rw [← BitVec.toNat_inj]
  rfl

theorem sortKeys_lane (c : Iss) (f : Fields) {l : Nat} (hl : l < 64) :
    (sortKeys c f.x.toNat (laneWords c.g f.a.toNat)).getD l 0 = topKey c f l := by
  unfold sortKeys topKey laneWords
  simp only [toNat_eq_zero]
  split <;> simp [List.getD_eq_getElem?_getD, hl]

theorem topOrder_spec (c : Iss) (f : Fields) :
    let order := topOrder f.x.toNat (sortKeys c f.x.toNat (laneWords c.g f.a.toNat)) (lanesOf (active c f))
    order.Pairwise (Ahead fun l => sortKey f.x.toNat (topKey c f l)) ∧ order.Perm (ranked c f) := by
  intro order
  have hkey : ∀ l ∈ lanesOf (active c f), (sortKeys c f.x.toNat (laneWords c.g f.a.toNat)).getD l 0 = topKey c f l :=
    fun l hl => sortKeys_lane c f (mem_lanesOf.1 hl).1
  have hzero : (f.x.toNat == 0) = (f.x == 0) := Bool.eq_iff_iff.2 (by simp only [beq_iff_eq, toNat_eq_zero])
  obtain ⟨hsort, hperm⟩ := sortLanes_spec
    (key := fun l => sortKey f.x.toNat ((sortKeys c f.x.toNat (laneWords c.g f.a.toNat)).getD l 0))
    (le := fun m l => decide (sortKey f.x.toNat ((sortKeys c f.x.toNat (laneWords c.g f.a.toNat)).getD l 0) ≤
      sortKey f.x.toNat ((sortKeys c f.x.toNat (laneWords c.g f.a.toNat)).getD m 0)))
    (fun m l => decide_eq_true_iff) ((lanesOf_ascending _).filter fun l =>
      !(f.x.toNat == 0 && (decodeFmt 1 ((sortKeys c f.x.toNat (laneWords c.g f.a.toNat)).getD l 0)).isNaN))
  have hranked : (lanesOf (active c f)).filter (fun l =>
      !(f.x.toNat == 0 && (decodeFmt 1 ((sortKeys c f.x.toNat (laneWords c.g f.a.toNat)).getD l 0)).isNaN)) = ranked c f :=
    List.filter_congr fun l hl => by rw [hkey l hl, hzero]
  have hrank : order.Perm (ranked c f) := Eq.subst (motive := order.Perm) hranked hperm
  have hin {l : Nat} (hl : l ∈ order) : l ∈ lanesOf (active c f) := (List.mem_filter.1 (hrank.mem_iff.1 hl)).1
  refine ⟨hsort.imp_of_mem fun {l m} hl hm h => ?_, hrank⟩
  unfold Ahead at h ⊢
  dsimp only at h
  rw [hkey l (hin hl), hkey m (hin hm)] at h
  exact h

theorem spadPutUnit_groups (s : State) (ag : Agent) (tid o : Nat) (bs : List Byte) (bad : Bool) :
    (spadPutUnit s ag tid o bs bad).groups = s.groups := by
  unfold spadPutUnit
  cases getTeam s tid with
  | none => rfl
  | some t => rfl

theorem spadPut_groups (s : State) (ag : Agent) (tid o : Nat) (bs : List Byte) (bad : Bool) :
    (spadPut s ag tid o bs bad).groups = s.groups :=
  foldl_same (fun s : State => s.groups) (fun s _ => spadPutUnit_groups s ..) _ s

theorem vecBlock_v {c : Iss} {code : BitVec 9} {n : Nat} (hv : code.toNat < 0x100) (hb : blockLegal c code.toNat n = true) :
    vecBlock c code n = some code.toNat := by
  unfold vecBlock
  rw [opnd_v hv]
  exact if_pos hb

section
variable {s t : State} {c : Iss} {f : Fields} {k : Nat} (h : issuer s = some c)
include h

theorem topk_eq (hv : f.a.toNat < 0x100) (hc : Counts c f false (decide (f.x.toNat < 3) && f.b == 0 && f.c == 0
      && vdstLegal c true (opnd f.d) && blockLegal c f.a.toNat 1)) (hb : ∀ l ∈ lanesOf (active c f), c.g.badV f.a.toNat l = false) :
    exec (.topk f) s = .next (inFlight s c false
      (let top := (topOrder f.x.toNat (sortKeys c f.x.toNat (laneWords c.g f.a.toNat)) (lanesOf (active c f))).take (f.mod.toNat + 1)
      laneWrites (opnd f.d) 0 (lanesOf (active c f)) (padLanes (top.map (topKey c f)))
        ++ laneWrites (opnd f.d) 1 (lanesOf (active c f)) (top ++ List.replicate (64 - top.length) (2 ^ 32 - 1)))) := by
  have hblock : vecBlock c f.a 1 = some f.a.toNat := by
    obtain ⟨-, hl, -, -⟩ := hc
    rw [Bool.and_eq_true] at hl
    exact vecBlock_v hv hl.2
  have hlegal : (decide (f.x.toNat < 3) && f.b == 0 && f.c == 0 && vdstLegal c true (opnd f.d) && (vecBlock c f.a 1).isSome) =
      (decide (f.x.toNat < 3) && f.b == 0 && f.c == 0 && vdstLegal c true (opnd f.d) && blockLegal c f.a.toNat 1) := by
    rw [hblock, Option.isSome_some]
    obtain ⟨-, hl, -, -⟩ := hc
    rw [Bool.and_eq_true] at hl
    rw [hl.2]
  refine (exec_counted (f := f) (setB := false) (L := fun c => decide (f.x.toNat < 3) && f.b == 0 && f.c == 0
    && vdstLegal c true (opnd f.d) && (vecBlock c f.a 1).isSome) rfl h (hlegal ▸ hc)).trans ?_
  dsimp only
  rw [hblock]
  dsimp only [Option.getD_some]
  rw [find_clean hb]
  dsimp only
  rw [retireOp_eq h]
  have hmap : ∀ l ∈ (topOrder f.x.toNat (sortKeys c f.x.toNat (laneWords c.g f.a.toNat)) (lanesOf (active c f))).take (f.mod.toNat + 1),
      (sortKeys c f.x.toNat (laneWords c.g f.a.toNat)).getD l 0 = topKey c f l := fun l hl => by
    have hr := (topOrder_spec c f).2.mem_iff.1 (List.mem_of_mem_take hl)
    exact sortKeys_lane c f (mem_lanesOf.1 (List.mem_filter.1 hr).1).1
  rw [List.map_congr_left hmap]

theorem xf_eq (hc : Counts c f false (xfLegal c f)) (hk : vecBlock c f.a (xfRegs f.x.toNat) = some k)
    (hp : poisonedLane c.g k (xfRegs f.x.toNat) = none) (hb : f.x = 8 ∨ srcBad c (f.x == 9) (opnd f.b) 0 = false) :
    exec (.xf f) s = .next (inFlight s c false (if f.x.toNat = 8 then qblkWrites s c f k (lanesOf (active c f))
      else if f.x.toNat = 9 then dqblkWrites c f k (lanesOf (active c f))
      else xfWrites c f k (srcVal s c .w32 (opnd f.b) 0) (lanesOf (active c f)))) := by
  have hclean : ¬ (f.x.toNat ≠ 8 ∧ srcBad c (f.x.toNat == 9) (opnd f.b) 0 = true) := by
    rintro ⟨h8, h9⟩
    rcases hb with h' | hb
    · exact h8 (by rw [h']; rfl)
    · have hx : (f.x.toNat == 9) = (f.x == 9) := Bool.eq_iff_iff.2 (by
        rw [beq_iff_eq, beq_iff_eq, ← BitVec.toNat_inj]
        rfl)
      rw [hx, hb] at h9
      exact Bool.false_ne_true h9
  refine (exec_counted (f := f) (setB := false) (L := fun c => xfLegal c f) rfl h hc).trans ?_
  dsimp only
  rw [hk]
  dsimp only [Option.getD_some]
  rw [hp]
  dsimp only
  rw [if_neg hclean, retireOp_eq h]

theorem dec_eq (hc : Counts c f false (decLegal c f)) (hk : vecBlock c f.d (f.mod.toNat + 1) = some k)
    (hb : [f.a, f.b, f.c].any (fun x => srcBad c false (opnd x) 0) = false)
    (hlen : srcVal s c .w32 (opnd f.b) 0 ≤ 256 * (f.mod.toNat + 1))
    (hin : srcVal s c .w32 (opnd f.c) 0 = 0 ∨ srcVal s c .w32 (opnd f.a) 0 + srcVal s c .w32 (opnd f.c) 0 ≤ c.t.size) :
    exec (.dec f) s = .next
      (let a := srcVal s c .w32 (opnd f.a) 0
      let len := srcVal s c .w32 (opnd f.b) 0
      let cnt := srcVal s c .w32 (opnd f.c) 0
      let q := spadSeen s (threadsOf c.gid (active c f)) c.g.team a cnt c.t
      let out := (decodeStream f.x.toNat len (spadBytes q.1 a cnt)).1
      inFlight q.2 c false (decWrites k (f.mod.toNat + 1) out
          (decodeBad f.x.toNat (len / 128 + 2) len (spadBytes q.1 a cnt) (spadBads q.1 a cnt))
        ++ pqWrites (lanesOf (active c f)) fun _ => decide (out.length < len))) := by
  refine (exec_counted (f := f) (setB := false) (L := fun c => decLegal c f) rfl h hc).trans ?_
  dsimp only
  rw [hb, if_neg Bool.false_ne_true, if_neg (Nat.not_lt.2 hlen), if_neg (by omega), hk]
  dsimp only [Option.getD_some]
  rw [retireOp_here h (calm_spadSeen ..).1.groups]

theorem enc_eq (hc : Counts c f true (encLegal c f)) (hk : vecBlock c f.a (f.mod.toNat + 1) = some k)
    (hp : poisonedLane c.g k (f.mod.toNat + 1) = none) (hb : srcBad c false (opnd f.b) 0 = false)
    (hcap : srcBad c false (opnd f.c) 0 = false)
    (hin : srcVal s c .w32 (opnd f.c) 0 = 0 ∨ srcVal s c .w32 (opnd f.b) 0 + srcVal s c .w32 (opnd f.c) 0 ≤ c.t.size) :
    exec (.enc f) s = .next
      (let b := srcVal s c .w32 (opnd f.b) 0
      let cap := srcVal s c .w32 (opnd f.c) 0
      let bytes := encodeStream f.x.toNat
        (bytesOfWords ((List.range (f.mod.toNat + 1)).flatMap fun i => laneWords c.g (k + i)))
      let who := Agent.thread c.gid (lowLane (active c f))
      inFlight (if bytes.length ≤ cap then
          shareStores (spadPut s who c.g.team b bytes false) who s.stores (threadsOf c.gid (active c f)) else s) c true
        (blockWrites (opnd f.d) 1 0 bytes.length false
          ++ pqWrites (lanesOf (active c f)) fun _ => decide (cap < bytes.length))) := by
  refine (exec_counted (f := f) (setB := true) (L := fun c => encLegal c f) rfl h hc).trans ?_
  dsimp only
  rw [hk]
  dsimp only [Option.getD_some]
  rw [hp]
  dsimp only
  rw [hb, hcap, Bool.or_self, if_neg Bool.false_ne_true, if_neg (by omega)]
  simp only [decide_eq_true_eq, ← decide_not, Nat.not_le]
  split
  · rw [retireOp_here h ((calm_shareStores ..).1.groups.trans (spadPut_groups ..))]
  · rw [retireOp_eq h]

end

/-- Settles O23: each form writes its words in flight; the ranking of TOPK is an insertion sort by descending keys. -/
theorem percolatorForms : Obligations.PercolatorForms := by
  unfold Obligations.PercolatorForms
  refine ⟨fun f s c k h hc hk hp hb => (xf_eq h hc hk hp hb).trans ?_, fun f s c h hv hc hb => ?_,
    fun f s c k h hc hk hb => fun hlen hin => dec_eq h hc hk hb hlen hin,
    fun f s c k h hc hk hp hb hcap hin => enc_eq h hc hk hp hb hcap hin⟩
  · refine congrArg (fun ws => Host.Outcome.next (inFlight s c false ws)) ?_
    generalize f.x.toNat = x
    by_cases h8 : x = 8
    · subst h8; rfl
    by_cases h9 : x = 9
    · subst h9; rfl
    rw [if_neg h8, if_neg h9]
    split
    · exact absurd rfl h8
    · exact absurd rfl h9
    · rfl
  · obtain ⟨hsort, hperm⟩ := topOrder_spec c f
    have hnd : (ranked c f).Nodup := ((lanesOf_ascending (active c f)).imp Nat.ne_of_lt).filter _
    refine ⟨_, topk_eq h hv hc hb, ?_, ?_, fun l hl => hperm.mem_iff.1 (List.mem_of_mem_take hl), ?_, fun l hl hn m hm => ?_⟩
    · rw [List.length_take, hperm.length_eq]
      rfl
    · exact (hperm.nodup_iff.2 hnd).sublist (List.take_sublist ..)
    · exact hsort.sublist (List.take_sublist ..)
    · exact take_foremost hsort (hperm.mem_iff.2 hl) hn hm

end Sys2Proof.Claims
end

section
/-!
SUPPORT. MMA of one group and of a gang, GANG, and the joined issue (15 R359 to R364; 07 R167 to R170).
-/
namespace Sys2Proof.Claims
open Sys2Proof.Machine

/-! ## MMA of one group -/

theorem mmaSlab_calm {s s1 : State} {c : Iss} {f : Fields} {ags : List Agent} {bytes : List Byte} {bad : Bool}
    (h : mmaSlab s c f ags = .ok bytes bad s1) : Calm s s1 := by
  unfold mmaSlab at h
  dsimp only at h
  split at h
  · cases hx : xlCore s c .read (rangeAccs (recAt c.g ((recScalar f.b).getD 0)).base (mmaBytes c f)) with
    | ok ls =>
      rw [hx] at h
      injection h with _ _ h1
      subst h1
      exact calm_readSet ..
    | _ => rw [hx] at h; cases h
  · injection h with _ _ h1
    subst h1
    exact .refl s

/-- An MMA in flight. -/
def mmaIssued (s : State) (c : Iss) (ws : List RegWrite) : State :=
  startOp (modGroup s c.gid fun _ => behind c)
    { gid := c.gid, flag := setFlag c.p false, writes := ws, replay := some (c.live, c.p) }

section
variable {s : State} {c : Iss} {f : Fields} (h : issuer s = some c)
include h

theorem mma_alone {bytes : List Byte} {s1 : State} (hc : mmaCheck s c f = none) (hf : flagFull c.g (setFlag c.p false) = false)
    (hg : mmaGanged f = false) (ha : mmaRec f = true → groupAtoms s c.gid = false)
    (hb : mmaSlab s c f (threadsOf c.gid c.p.mask) = .ok bytes false s1) (hs : mmaScaleBad s c f = false) :
    exec (.mma f) s = .next (mmaIssued s1 c (mmaWrites c f (mmaData s c f bytes))) := by
  have hwait : (mmaRec f && groupAtoms s c.gid) = false := Bool.and_eq_false_imp.2 ha
  show execMma f s = _
  unfold execMma
  rw [onPath_issuer h, hg, if_neg Bool.false_ne_true, hc]
  dsimp only
  rw [hf, if_neg Bool.false_ne_true]
  unfold mmaAlone
  rw [hwait, if_neg Bool.false_ne_true, hb]
  dsimp only
  rw [hs, Bool.or_self, if_neg Bool.false_ne_true]
  unfold retireMma
  rw [retire_here h (mmaSlab_calm hb).1.groups]
  rfl

/-! ## MMA of a gang -/

/-- A latch with one more arrival, behind those that wait. -/
def Latch.arrive (l : Latch) (q : PathId) : Latch := { l with arrived := l.arrived.filter (· != q) ++ [q] }

theorem mma_arrives (hg : f.guardPathWide = true) (hn : mmaGid f < c.t.latchN) (hf : flagFull c.g (setFlag c.p false) = false)
    (hm : mmaGanged f = true) (hb : (getLatch c.t (mmaGid f)).broken = false)
    (hi : (getLatch c.t (mmaGid f)).members.contains c.g.index = true) (hx : c.p.failed = false) :
    exec (.mma f) s = .next (modGroup (modLatch s c.g.team (mmaGid f) fun l => Latch.arrive l ⟨c.gid, c.live⟩) c.gid fun _ =>
      c.g.setLive c.live (some { c.p with wait := .latch (mmaGid f), since := s.clk })) := by
  have harr : gangArrives c f = true := by
    unfold gangArrives
    rw [hg, decide_eq_true hn]
    rfl
  have hwaits : mmaArrive s c f =
      waitOn (modLatch s c.g.team (mmaGid f) fun l => Latch.arrive l ⟨c.gid, c.live⟩) c (.latch (mmaGid f)) := by
    unfold mmaArrive
    dsimp only
    rw [hb, hi, Bool.not_true, Bool.or_self, if_neg Bool.false_ne_true, hx, if_neg Bool.false_ne_true]
    rfl
  show execMma f s = _
  unfold execMma
  rw [onPath_issuer h, hm, if_pos rfl, harr, Bool.not_true, if_neg Bool.false_ne_true, hf, if_neg Bool.false_ne_true, hwaits]
  exact congrArg Host.Outcome.next (waitOn_here
    (t := modLatch s c.g.team (mmaGid f) fun l => Latch.arrive l ⟨c.gid, c.live⟩) h rfl _)

/-! ## GANG -/

section
variable (hg : f.guardLegal = true) (hl : gangLegal f = true) (ha : active c f ≠ 0)
  (hsa : srcBad c false (opnd f.a) 0 = false) (hsb : srcBad c false (opnd f.b) 0 = false)
  (hn : srcVal s c .w32 (opnd f.a) 0 < c.t.latchN)
include hg hl ha hsa hsb hn

theorem gang_leaves (hz : f.b = zeroCode) : exec (.gang f) s = .next (modGroup
    (modLatch s c.g.team (srcVal s c .w32 (opnd f.a) 0) fun l => l.without c.g.index c.gid false) c.gid fun _ => behind c) := by
  refine (exec_masked (f := f) (L := fun _ => gangLegal f) rfl h hg hl ha).trans ?_
  dsimp only
  rw [hsa, hsb, Bool.or_self, if_neg Bool.false_ne_true, if_neg (Nat.not_le.2 hn), if_pos hz]
  exact congrArg Host.Outcome.next (retire_here (t := modLatch s c.g.team _ _) h rfl)

theorem gang_joins (hz : f.b ≠ zeroCode) (hm : gangMaskOk c (srcVal s c .w32 (opnd f.b) 0) = true)
    (hb : (getLatch c.t (srcVal s c .w32 (opnd f.a) 0)).broken = false)
    (hs : (getLatch c.t (srcVal s c .w32 (opnd f.a) 0)).members = [] ∨
      (getLatch c.t (srcVal s c .w32 (opnd f.a) 0)).members = maskMembers (srcVal s c .w32 (opnd f.b) 0)) :
    exec (.gang f) s = .next (modGroup (modLatch s c.g.team (srcVal s c .w32 (opnd f.a) 0) fun l =>
      { l with members := maskMembers (srcVal s c .w32 (opnd f.b) 0) }) c.gid fun _ => behind c) := by
  have hsame : (!(getLatch c.t (srcVal s c .w32 (opnd f.a) 0)).members.isEmpty &&
      (getLatch c.t (srcVal s c .w32 (opnd f.a) 0)).members != maskMembers (srcVal s c .w32 (opnd f.b) 0)) = false := by
    rcases hs with hs | hs
    · rw [hs]; rfl
    · rw [hs, bne_self_eq_false, Bool.and_false]
  refine (exec_masked (f := f) (L := fun _ => gangLegal f) rfl h hg hl ha).trans ?_
  dsimp only
  rw [hsa, hsb, Bool.or_self, if_neg Bool.false_ne_true, if_neg (Nat.not_le.2 hn), if_neg hz, hm, Bool.not_true,
    if_neg Bool.false_ne_true, hb, hsame, Bool.or_self, if_neg Bool.false_ne_true]
  exact congrArg Host.Outcome.next (retire_here (t := modLatch s c.g.team _ _) h rfl)

end

end

/-! ## The joined issue -/

theorem gangJoined_eq {s : State} {team latch : Nat} {t : Team} {ms : List (Iss × Fields)} (ht : getTeam s team = some t)
    (hm : joinedMembers s t latch = some ms) :
    exec (.gangJoinedIssue team latch) s = settle s (joinedIssue s team latch ms) := by
  show settle s (tryGangJoinedIssue team latch s) = _
  unfold tryGangJoinedIssue
  rw [ht]
  dsimp only
  rw [hm]

theorem joinedIssue_keys {s : State} {team latch : Nat} {ms : List (Iss × Fields)} {c0 : Iss} {f0 : Fields}
    (hh : ms.head? = some (c0, f0)) (hk : ∃ e ∈ ms, gangKey e.1 e.2 ≠ gangKey c0 f0) :
    joinedIssue s team latch ms = .next (trapMembers (modLatch s team latch fun l => l.joined ms) ms causeGang 0) := by
  have hany : (ms.any fun e => gangKey e.1 e.2 != gangKey c0 f0) = true := by
    obtain ⟨e, he, hne⟩ := hk
    exact List.any_eq_true.2 ⟨e, he, bne_iff_ne.2 hne⟩
  cases ms with
  | nil => cases hh
  | cons e r =>
    injection hh with hh
    subst hh
    unfold joinedIssue
    exact if_pos hany

theorem joinedIssue_ok {s s1 : State} {team latch : Nat} {ms : List (Iss × Fields)} {c0 : Iss} {f0 : Fields} {bytes : List Byte}
    (hh : ms.head? = some (c0, f0)) (hk : ∀ e ∈ ms, gangKey e.1 e.2 = gangKey c0 f0) (hc : ∀ e ∈ ms, mmaCheck s e.1 e.2 = none)
    (hb : mmaSlab (modLatch s team latch fun l => l.joined ms) c0 f0 (ms.flatMap fun e => threadsOf e.1.gid e.1.p.mask) =
      .ok bytes false s1)
    (hs : ∀ e ∈ ms, mmaScaleBad s e.1 e.2 = false) (ha : mmaRec f0 = true → ∀ e ∈ ms, groupAtoms s e.1.gid = false) :
    joinedIssue s team latch ms =
      .next (ms.foldl (fun t e => retireMma t e.1 (mmaWrites e.1 e.2 (mmaData s e.1 e.2 bytes))) s1) := by
  have hkeys : (ms.any fun e => gangKey e.1 e.2 != gangKey c0 f0) = false :=
    List.any_eq_false.2 fun e he => by rw [hk e he, bne_self_eq_false]; exact Bool.false_ne_true
  have hchecks : (ms.any fun e => (mmaCheck s e.1 e.2).isSome) = false :=
    List.any_eq_false.2 fun e he => by rw [hc e he]; exact Bool.false_ne_true
  have hatoms : (mmaRec f0 && ms.any fun e => groupAtoms s e.1.gid) = false :=
    Bool.and_eq_false_imp.2 fun hr => List.any_eq_false.2 fun e he => by rw [ha hr e he]; exact Bool.false_ne_true
  have hscales : (ms.any fun e => mmaScaleBad s e.1 e.2) = false :=
    List.any_eq_false.2 fun e he => by rw [hs e he]; exact Bool.false_ne_true
  cases ms with
  | nil => cases hh
  | cons e r =>
    injection hh with hh
    subst hh
    unfold joinedIssue
    dsimp only
    rw [hkeys, if_neg Bool.false_ne_true, hchecks, if_neg Bool.false_ne_true, hatoms, if_neg Bool.false_ne_true, hb]
    dsimp only
    rw [hscales, Bool.or_self, if_neg Bool.false_ne_true]

theorem mem_joined (l : Latch) (ms : List (Iss × Fields)) (q : PathId) :
    q ∈ (l.joined ms).arrived ↔ q ∈ l.arrived ∧ ∀ e ∈ ms, q ≠ ⟨e.1.gid, e.1.live⟩ := by
  unfold Machine.Latch.joined
  simp only [List.mem_filter, Bool.not_eq_true', List.any_eq_false, beq_iff_eq]

/-! ## The integer class -/

/-- One chunk of 32 products. -/
theorem mmaIntChunks_one {acc : Int} {ts : List Int} (h : ts.length = 32) :
    mmaIntChunks 32 1 acc ts = max (-2 ^ 31) (min (2 ^ 31 - 1) (acc + ts.sum)) := by
  unfold mmaIntChunks mmaIntChunks
  rw [List.take_of_length_le (Nat.le_of_eq h), ← List.sum_eq_foldl]
  unfold clampInt
  grind

theorem mmaElement_int {d : MmaData} {acc m n : Nat} (hc : d.cls = .int) (hk : d.kk = 32)
    (hl : ((d.rows.getD m []).zip (d.cols.getD n [])).length = 32) : mmaElement d acc m n =
      (BitVec.ofInt 32 (max (-2 ^ 31) (min (2 ^ 31 - 1) ((BitVec.ofNat 32 acc).toInt +
        (((d.rows.getD m []).zip (d.cols.getD n [])).map fun e =>
          intElem (d.fmt % 64) e.1.1 * intElem (d.fmt / 64 % 64) e.2.1).sum)))).toNat := by
  have hlow : bitsOf d.fmt 0 6 = d.fmt % 64 := by
    unfold bitsOf
    rw [Nat.pow_zero, Nat.div_one]
    rfl
  unfold mmaElement
  dsimp only
  rw [hc, hk]
  dsimp only
  rw [mmaIntChunks_one ((List.length_map ..).trans hl), sext_eq_toInt, hlow]
  exact (BitVec.toNat_ofInt ..).symm

/-- Settles O26: an MMA issues alone or waits at its latch, and the joined issue runs its checks for every member. -/
theorem matrixMultiply : Obligations.MatrixMultiply := by
  unfold Obligations.MatrixMultiply
  refine ⟨fun f s c bytes s1 h hc hf hg ha hb hs => mma_alone h hc hf hg ha hb hs,
    fun f s c h hg hn hf hm hb hi hx => mma_arrives h hg hn hf hm hb hi hx,
    fun f s c h hg hl ha hsa hsb => fun hn => ⟨gang_leaves h hg hl ha hsa hsb hn, gang_joins h hg hl ha hsa hsb hn⟩,
    fun s team latch t ms c0 f0 bytes s1 ht hm hh hk hc hb hs ha => ?_,
    fun s team latch t ms c0 f0 ht hm hh hk => ?_, mem_joined, fun d acc m n hc hk => fun hl => mmaElement_int hc hk hl⟩
  · rw [gangJoined_eq ht hm, joinedIssue_ok hh hk hc hb hs ha]
    rfl
  · rw [gangJoined_eq ht hm, joinedIssue_keys hh hk]
    rfl

end Sys2Proof.Claims
end

section
/-!
SUPPORT. Texels are weighed and rounded once; images load and store elements (16 R392, R393).
-/
namespace Sys2Proof.Claims
open Sys2Proof.Machine

/-! ## Address modes -/

theorem texAddr_lt (i : Int) {n : Nat} (hn : 0 < n) (m : Nat) : texAddr m i n < n := by
  unfold texAddr clampCoord
  have h1 := Int.emod_lt_of_pos i (show (0 : Int) < n by omega)
  have h2 := Int.emod_lt_of_pos i (show (0 : Int) < 2 * n by omega)
  dsimp only
  split_ifs <;> omega

theorem texAddr_inside {i : Int} {n : Nat} (h : 0 ≤ i) (hn : i < n) (m : Nat) : texAddr m i n = i.toNat := by
  unfold texAddr clampCoord
  dsimp only
  rw [Int.emod_eq_of_lt h hn, Int.emod_eq_of_lt h (show i < 2 * (n : Int) by omega)]
  split_ifs <;> omega

theorem texAddr_wrap (i : Int) (n : Nat) : texAddr 1 (i + n) n = texAddr 1 i n := by
  unfold texAddr
  rw [if_neg (by decide), if_pos rfl, if_neg (by decide), if_pos rfl, Int.add_emod_right]

/-- The position of a mirrored coordinate in its two periods. -/
theorem texAddr_mirror_eq (i : Int) (n : Nat) : texAddr 2 i n =
    if (i % (2 * n : Int)).toNat < n then (i % (2 * n : Int)).toNat else 2 * n - 1 - (i % (2 * n : Int)).toNat := rfl

theorem texAddr_mirror (i : Int) (n : Nat) : texAddr 2 (i + 2 * n) n = texAddr 2 i n := by
  rw [texAddr_mirror_eq, texAddr_mirror_eq, Int.add_emod_right]

theorem texAddr_reflect (i : Int) {n : Nat} (hn : 0 < n) : texAddr 2 (-1 - i) n = texAddr 2 i n := by
  have h0 := Int.emod_nonneg i (show (2 * n : Int) ≠ 0 by omega)
  have h1 := Int.emod_lt_of_pos i (show (0 : Int) < 2 * n by omega)
  have hrefl : (-1 - i) % (2 * n : Int) = 2 * n - 1 - i % (2 * n : Int) := by
    have hsplit : -1 - i = (2 * n - 1 - i % (2 * n : Int)) + (2 * n : Int) * (-(i / (2 * n : Int)) - 1) := by
      linarith [Int.mul_ediv_add_emod i (2 * n : Int)]
    rw [hsplit, Int.add_mul_emod_self_left, Int.emod_eq_of_lt (by omega) (by omega)]
  rw [texAddr_mirror_eq, texAddr_mirror_eq, hrefl]
  split_ifs <;> omega

/-! ## Images -/

/-- The record of an image that an instruction names. -/
def IsImage (c : Iss) (f : Fields) (r : BufRec) : Prop :=
  (∃ k, recScalar f.b = some k ∧ r = recAt c.g k) ∧ recInvalid r false = false ∧ r.tiled = true

section
variable {s : State} {c : Iss} {f : Fields} {r : BufRec}

theorem withImage_eq {sampled : Bool} {forbidden : BufRec → Bool} {body : BufRec → State} (hi : IsImage c f r)
    (hs : sampled = true → r.typed = true ∧ typedSize r.format ≤ 4) (hf : forbidden r = false) :
    withImage s c f sampled forbidden body = body r := by
  obtain ⟨⟨k, hk, rfl⟩, hv, ht⟩ := hi
  have hsam : (sampled && (!(recAt c.g k).typed || decide (4 < typedSize (recAt c.g k).format))) = false := by
    refine Bool.and_eq_false_imp.2 fun h => ?_
    obtain ⟨hty, hsz⟩ := hs h
    rw [hty, decide_eq_false (Nat.not_lt.2 hsz)]
    rfl
  unfold withImage
  rw [hk]
  dsimp only
  rw [hv, ht, hsam, hf]
  rfl

variable (h : issuer s = some c)
include h

theorem sampleImage_eq {mode : Nat} {linear gather : Bool} {ls : List LaneLoc}
    (hb : ∀ l ∈ lanesOf (active c f), imageBad c f 2 l = false) (hi : IsImage c f r) (hty : r.typed = true)
    (hsz : typedSize r.format ≤ 4)
    (hx : xlCore s c .read ((lanesOf (active c f)).flatMap fun l => texAccs r mode l
      (texLane r mode linear (ftz32 (ftzOn c) (c.g.getV (f.a.toNat + 0) l)) (ftz32 (ftzOn c) (c.g.getV (f.a.toNat + 1) l)))) = .ok ls)
    (hw : c.p.exempt = true ∨ ∀ l ∈ ls, wpMatch s c.part c.ctx false .rd l.va l.size = false)
    (ha : ∀ l ∈ ls, atomAhead s [.thread c.gid l.lane] l = false) :
    sampleImage s c f mode linear gather (active c f) =
      let q := loadLanes (fun l raw => loadValue (ftzOn c) false r 2 l.hi raw) (fun l => [.thread c.gid l]) none s ls
      inFlight q.2 c false ((lanesOf (active c f)).flatMap fun l =>
        let mine := q.1.filter fun e => e.1 == l
        match opnd f.d with
        | .v k => laneBlock k l (texResult (ftzOn c) gather (texLane r mode linear
            (ftz32 (ftzOn c) (c.g.getV (f.a.toNat + 0) l)) (ftz32 (ftzOn c) (c.g.getV (f.a.toNat + 1) l)))
              (mine.map fun e => texelVal r.format e.2.1)) (mine.any fun e => e.2.2)
        | _ => []) := by
  have hnone : ls.any (fun l => atomAhead s [.thread c.gid l.lane] l) = false :=
    List.any_eq_false.2 fun l hl => by rw [ha l hl]; exact Bool.false_ne_true
  unfold sampleImage
  dsimp only
  rw [find_clean hb]
  dsimp only
  rw [withImage_eq hi (fun _ => ⟨hty, hsz⟩) rfl, List.flatMap_map, prepXlate_ok hx (fun k hk => by injection hk with hk; subst hk; exact hw)]
  dsimp only
  rw [hnone, if_neg Bool.false_ne_true, List.flatMap_map]
  exact retireOp_here h (calm_loadLanes ..).1.groups false _

theorem imld_eq {ls : List LaneLoc} (hc : Counts c f false (imageLegal c f && loadDst c f.x.toNat (opnd f.d) (opnd f.a)))
    (hb : ∀ l ∈ lanesOf (active c f), imageBad c f 2 l = false) (hi : IsImage c f r) (hf : recForbids r f.x.toNat = false)
    (hr : Reaches s c .read (some .rd) (r.size f.x.toNat) (imagePlaces c f r (lanesOf (active c f))) ls)
    (ha : ∀ l ∈ ls, atomAhead s (loaders c (opnd f.d) (active c f) l.lane) l = false) :
    exec (.imld f) s = .next
      (let q := loadLanes (fun l raw => loadValue (ftzOn c) false r f.x.toNat l.hi raw) (loaders c (opnd f.d) (active c f)) none s ls
      inFlight q.2 c false ((lanesOf (active c f)).flatMap fun l =>
        blockWrites (opnd f.d) (blockRegs f.x.toNat) l (loadedOf q.1 l).1 (loadedOf q.1 l).2)) := by
  have hnone : ls.any (fun l => atomAhead s (loaders c (opnd f.d) (active c f) l.lane) l) = false :=
    List.any_eq_false.2 fun l hl => by rw [ha l hl]; exact Bool.false_ne_true
  refine (exec_counted (f := f) (setB := false)
    (L := fun c => imageLegal c f && loadDst c f.x.toNat (opnd f.d) (opnd f.a)) rfl h hc).trans ?_
  dsimp only
  rw [find_clean hb]
  dsimp only
  rw [withImage_eq hi (fun e => absurd e Bool.false_ne_true) hf, prepAccess_ok hr]
  dsimp only
  rw [hnone, if_neg Bool.false_ne_true, retireOp_here h (calm_loadLanes ..).1.groups]

theorem imst_eq {ls : List LaneLoc} (hc : Counts c f true (imageLegal c f && storeSrc c f.x.toNat (opnd f.d)))
    (hb : ∀ l ∈ lanesOf (active c f), imageBad c f 2 l = false ∧ blockBad c.g (opnd f.d) (blockRegs f.x.toNat) l = false)
    (hi : IsImage c f r) (hf : recForbids r f.x.toNat = false)
    (hr : Reaches s c .write (some .wr) (r.size f.x.toNat) (imagePlaces c f r (lanesOf (active c f))) ls)
    (ha : ∀ l ∈ ls, atomAhead s [.thread c.gid l.lane] l = false) :
    exec (.imst f) s = .next (inFlight (storeLanes c.gid r.nibble (storedBits s c f r) none s ls) c true []) := by
  have hclean : (lanesOf (active c f)).find? (fun l => imageBad c f 2 l || blockBad c.g (opnd f.d) (blockRegs f.x.toNat) l) = none :=
    find_clean fun l hl => by rw [(hb l hl).1, (hb l hl).2]; rfl
  have hnone : ls.any (fun l => atomAhead s [.thread c.gid l.lane] l) = false :=
    List.any_eq_false.2 fun l hl => by rw [ha l hl]; exact Bool.false_ne_true
  refine (exec_counted (f := f) (setB := true) (L := fun c => imageLegal c f && storeSrc c f.x.toNat (opnd f.d)) rfl h hc).trans ?_
  rw [hclean]
  dsimp only
  rw [withImage_eq hi (fun e => absurd e Bool.false_ne_true) hf, prepAccess_ok hr]
  dsimp only
  rw [hnone, if_neg Bool.false_ne_true, retireOp_here h (quiet_storeLanes ..).groups]

theorem texq_eq (hc : Counts c f false (f.mod == 0 && f.x == 0 && f.c == zeroCode && f.a == zeroCode
      && (recScalar f.b).isSome && dstLegal c true (opnd f.d))) (hb : imageBad c f 0 (lowLane (active c f)) = false)
    (hi : IsImage c f r) : exec (.texq f) s = .next (inFlight s c false
      ((accessLanes c f).flatMap fun l => blockWrites (opnd f.d) 2 l (r.width + 2 ^ 32 * r.height) false)) := by
  refine (exec_counted (f := f) (setB := false) (L := fun c => f.mod == 0 && f.x == 0 && f.c == zeroCode && f.a == zeroCode
    && (recScalar f.b).isSome && dstLegal c true (opnd f.d)) rfl h hc).trans ?_
  dsimp only
  rw [hb, if_neg Bool.false_ne_true, withImage_eq hi (fun e => absurd e Bool.false_ne_true) rfl, retireOp_eq h]
  rfl

end

/-- Settles O39: each access reaches its texels where the address mode puts them, and address modes are remainders. -/
theorem texturesAndImages : Obligations.TexturesAndImages := by
  unfold Obligations.TexturesAndImages
  intro image samples
  refine ⟨fun f s c r ls h hc hb hi hty hsz => ?_, fun f s c r ls h hc hb hi hty hsz => ?_,
    fun f s c r h hc hb hi => texq_eq h hc hb hi,
    fun f s c r ls h hc hb hi hf hr => fun ha => imld_eq h hc hb hi hf hr ha,
    fun f s c r ls h hc hb hi hf hr ha => imst_eq h hc hb hi hf hr ha,
    fun i n hn => ⟨texAddr_lt i hn, fun h0 h1 => texAddr_inside h0 h1, texAddr_wrap i n, texAddr_mirror i n, texAddr_reflect i hn⟩⟩
  · intro uv lane hx hw ha q
    refine (exec_counted (f := f) (setB := false) (L := fun c => decide (f.mod.toNat < 8) && f.mod.toNat % 4 != 3 && f.x == 0
      && f.c == zeroCode && (recScalar f.b).isSome && vecRange c 2 f.a && vecDst c 1 f.d) rfl h hc).trans (congrArg _ ?_)
    dsimp only
    rw [← getLsbD_eq_bitOf]
    exact sampleImage_eq h hb hi hty hsz hx hw ha
  · intro uv lane hx hw ha q
    refine (exec_counted (f := f) (setB := false) (L := fun c => decide (f.mod.toNat < 3) && f.x == 0 && f.c == zeroCode
      && (recScalar f.b).isSome && vecRange c 2 f.a && vecDst c 4 f.d) rfl h hc).trans (congrArg _ ?_)
    exact sampleImage_eq h hb hi hty hsz hx hw ha

end Sys2Proof.Claims
end

section
/-!
SUPPORT. Rays are started, walked over the tree, and their hits read (16 R388 to R391; 17 R414).
-/
namespace Sys2Proof.Claims
open Sys2Proof.Machine

/-! ## Ray states -/

theorem spFind_detach (m : SMap RayState) (n k : Nat) :
    spFind (detach m n) k = (spFind m k).map fun r => if r.tok = n then { r with tok := 16 } else r := by
  induction m with
  | nil => rfl
  | cons e r ih =>
    have hcons : detach (e :: r) n = (e.1, if e.2.tok = n then { e.2 with tok := 16 } else e.2) :: detach r n := by
      unfold detach
      rw [List.map_cons]
      split <;> rfl
    rw [hcons, spFind_cons, spFind_cons, ih]
    split <;> rfl

/-- Every lane of a list has its entry changed, each in its own way. -/
theorem spFind_spMods {α : Type} (F : Nat → α → α) {ls : List Nat} (hn : ls.Nodup) (m : SMap α) (k : Nat) :
    spFind (ls.foldl (fun t l => spMod t l (F l)) m) k = if k ∈ ls then (spFind m k).map (F k) else spFind m k := by
  induction ls generalizing m with
  | nil => exact (if_neg List.not_mem_nil).symm
  | cons l r ih =>
    obtain ⟨hl, hr⟩ := List.nodup_cons.1 hn
    rw [List.foldl_cons, ih hr, spFind_spMod]
    by_cases hk : k = l
    · subst hk
      rw [if_neg hl, if_pos rfl, if_pos List.mem_cons_self]
    · rw [if_neg hk]
      exact if_congr (by rw [List.mem_cons, or_iff_right hk]) rfl rfl

theorem lanesOf_nodup (m : Mask) : (lanesOf m).Nodup := (lanesOf_ascending m).imp Nat.ne_of_lt

theorem traceCount_eq (mode km1 : Nat) : traceCount mode km1 = if mode = 0 then 6 else if mode = 1 then 1 else 4 * (km1 + 1) := rfl

/-! ## TRACE -/

section
variable {s : State} {c : Iss} {f : Fields} {n : Nat} (h : issuer s = some c) (hg : f.guardLegal = true) (ha : active c f ≠ 0)
include h hg ha

section
variable (hl : traceLegal c f = true) (hn : tokenOf f.d = some n)
include hl hn

theorem trace_waits (hp : c.g.tokPending n = true) : Goes (.trace f) s c (waitsFor s c c.g (.token n)) := by
  refine (exec_masked (f := f) (L := fun c => traceLegal c f) rfl h hg hl ha).trans ?_
  dsimp only
  rw [hn]
  exact congrArg _ (whenTokenFree_pending h hp _)

/-- The state of a lane whose ray TRACE starts. -/
def tracedRay (s : State) (c : Iss) (f : Fields) (n l : Nat) : RayState :=
  { ray := (List.range 8).map fun i => BitVec.ofNat 32 (c.g.getV (f.b.toNat + i) l)
    root := srcVal s c .q64 (opnd f.a) 0, mode := f.mod.toNat % 4, coh := f.mod.getLsbD 2, km1 := f.x.toNat, first := f.c.toNat
    tok := n, known := knowAtIssue s (.thread c.gid l), pend := [(255, srcVal s c .q64 (opnd f.a) 0)] }

theorem trace_starts (hp : c.g.tokPending n = false) (hb : busyToken c.g (lanesOf (active c f)) = none)
    (hs : srcBad c true (opnd f.a) 0 = false)
    (hv : ∀ l ∈ lanesOf (active c f), ∀ i < 8, c.g.badV (f.b.toNat + i) l = false) :
    Goes (.trace f) s c (past c
      { c.g.setTok n { st := .pending, first := f.c.toNat, count := traceCount (f.mod.toNat % 4) f.x.toNat, left := active c f } with
        rays := (lanesOf (active c f)).foldl (fun t l => spPut t l (tracedRay s c f n l)) (detach c.g.rays n) }) := by
  have hnone : (lanesOf (active c f)).find? (fun l => (List.range 8).any fun i => c.g.badV (f.b.toNat + i) l) = none :=
    find_clean fun l hl => List.any_eq_false.2 fun i hi => by
      rw [hv l hl i (List.mem_range.1 hi)]
      exact Bool.false_ne_true
  refine (exec_masked (f := f) (L := fun c => traceLegal c f) rfl h hg hl ha).trans (congrArg _ ?_)
  dsimp only
  rw [hn, Option.getD_some, whenTokenFree_free hp, hb]
  dsimp only
  rw [hs, if_neg Bool.false_ne_true, hnone]
  dsimp only
  unfold startTrace tracedRay
  rw [getLsbD_eq_bitOf]
  exact retire_modGroup h rfl

end

/-! ## TRCONT -/

omit h hg ha in
theorem setPred_live (g : Group) (p : Nat) (lanes ones : Mask) (k : Nat) : (g.setPred p lanes ones).live k = g.live k := by
  unfold Group.setPred
  split <;> rfl

omit h hg ha in
theorem applyWrite_live (g : Group) (w : RegWrite) (k : Nat) : (applyWrite g w).live k = g.live k := by
  cases w with
  | vec r l v b =>
    unfold applyWrite
    dsimp only
    split <;> rfl
  | any r l v b => rfl
  | scal r v b => rfl
  | pred p l v =>
    unfold applyWrite
    dsimp only
    split
    · exact setPred_live ..
    · rfl

omit h hg ha in
theorem contMiss_live (n : Nat) (lanes ls : List Nat) (g : Group) (k : Nat) :
    (ls.foldl (contMiss n lanes) g).live k = g.live k :=
  List.foldlRecOn (motive := fun u : Group => u.live k = g.live k) ls _ rfl fun u hu l _ =>
    (List.foldlRecOn (motive := fun v : Group => v.live k = u.live k) _ _ rfl fun v hv w _ => (applyWrite_live v w k).trans hv :
      ((laneBlock _ l _ false).foldl applyWrite u).live k = u.live k).trans hu

omit h hg ha in
theorem contMiss_rays (n : Nat) (lanes ls : List Nat) (g : Group) : (ls.foldl (contMiss n lanes) g).rays =
    ls.foldl (fun t l => spMod t l fun r => { r with hits := [] }) g.rays := by
  induction ls generalizing g with
  | nil => rfl
  | cons l r ih => exact ih _

omit h hg ha in
/-- The issuing group with the next round of its rays. -/
def contGroup (s : State) (c : Iss) (n : Nat) (lanes : List Nat) (g : Group) : Group :=
  let on := lanes.filter (goesOn g)
  let g1 := (lanes.filter fun l => !goesOn g l).foldl (contMiss n lanes) g
  let g2 := { g1 with rays := on.foldl (fun t l => spMod t l fun r =>
    { r with active := true, tok := n, known := floorOf s c.gid l, pend := [(255, r.root)], cand := [] }) (detach g1.rays n) }
  let rs := on.filterMap (spFind g.rays)
  let lo := rs.foldl (fun a r => min a r.first) 256
  let hi := rs.foldl (fun a r => max a (r.first + traceCount 2 r.km1)) 0
  g2.setTok n (if on = [] then { g.tok n with st := .done false, neural := false, left := 0, err := false }
    else { st := .pending, first := lo, count := hi - lo, left := Machine.maskOf on })

omit h hg ha in
theorem contGroup_tok (s : State) (c : Iss) (n : Nat) (lanes : List Nat) (g : Group) :
    (lanes.filter (goesOn g) = [] → ((contGroup s c n lanes g).tok n).st = .done false) ∧
      (lanes.filter (goesOn g) ≠ [] → ((contGroup s c n lanes g).tok n).st = .pending ∧
        ((contGroup s c n lanes g).tok n).left = Machine.maskOf (lanes.filter (goesOn g))) := by
  have htok (u : Group) (t : Token) : (u.setTok n t).tok n = t := spGet_spSet_self ..
  unfold contGroup
  dsimp only
  rw [htok]
  refine ⟨fun hon => ?_, fun hon => ?_⟩
  · rw [if_pos hon]
  · rw [if_neg hon]
    exact ⟨rfl, rfl⟩

omit h hg ha in
theorem contGroup_rays (s : State) (c : Iss) (n : Nat) {lanes : List Nat} (hn : lanes.Nodup) (g : Group) (l : Nat) :
    spFind (contGroup s c n lanes g).rays l =
      if l ∈ lanes.filter (goesOn g) then (spFind g.rays l).map fun r =>
        { r with active := true, tok := n, known := floorOf s c.gid l, pend := [(255, r.root)], cand := [] }
      else (if l ∈ lanes.filter fun l => !goesOn g l then (spFind g.rays l).map fun r => { r with hits := [] }
        else spFind g.rays l).map fun r => if r.tok = n then { r with tok := 16 } else r := by
  unfold contGroup
  dsimp only
  show spFind ((lanes.filter (goesOn g)).foldl _ _) l = _
  rw [spFind_spMods _ (hn.filter _), spFind_detach, contMiss_rays, spFind_spMods _ (hn.filter _)]
  split
  · next hon =>
    have hoff : l ∉ lanes.filter fun l => !goesOn g l := fun hoff => by
      have h1 := (List.mem_filter.1 hon).2
      have h2 := (List.mem_filter.1 hoff).2
      rw [h1] at h2
      exact Bool.false_ne_true h2
    rw [if_neg hoff, Option.map_map]
    cases spFind g.rays l with
    | none => rfl
    | some r =>
      refine congrArg some ?_
      dsimp only [Function.comp_apply]
      split <;> rfl
  · rfl

theorem trcont_goes (hm : f.mod = 0) (hx : f.x = 0) (hz : allZero [f.a, f.b, f.c] = true) (hn : tokenOf f.d = some n)
    (hnn : (c.g.tok n).neural = false) (hp : c.g.tokPending n = false) (hb : busyToken c.g (lanesOf (active c f)) = none) :
    Goes (.trcont f) s c (past c (contGroup s c n (lanesOf (active c f)) c.g)) := by
  refine (exec_masked (f := f) (L := fun _ => f.mod == 0 && f.x == 0 && allZero [f.a, f.b, f.c] && (tokenOf f.d).isSome) rfl h hg
    (by rw [hm, hx, hz, hn]; rfl) ha).trans (congrArg _ ?_)
  dsimp only
  rw [hn, Option.getD_some, hnn, if_neg Bool.false_ne_true, whenTokenFree_free hp, hb]
  exact retire_modGroup (F := contGroup s c n (lanesOf (active c f))) h (contMiss_live ..)

/-! ## TRGET -/

omit h hg ha in
theorem trgetVal_none {g : Group} {q l : Nat} (hr : spFind g.rays l = none) :
    trgetVal s g q l = if q = 2 then f32Inf else 0 := by
  unfold trgetVal
  rw [hr]

omit h hg ha in
theorem trgetVal_some {g : Group} {q l : Nat} {r : RayState} (hr : spFind g.rays l = some r) :
    trgetVal s g q l = if q = 0 then r.hits.length else if q = 1 then (r.mode == 2 && r.more).toNat
      else (r.bound.map (·.1)).getD (Config.freeWord s.fresh).toNat := by
  unfold trgetVal
  rw [hr]
  dsimp only
  match q with
  | 0 => rfl
  | 1 =>
    by_cases h2 : r.mode = 2
    · rw [beq_iff_eq.2 h2]
      cases hm : r.more
      · exact if_neg fun e => Bool.false_ne_true e.2
      · exact if_pos ⟨h2, rfl⟩
    · rw [beq_eq_false_iff_ne.2 h2]
      exact if_neg fun e => h2 e.1
  | q + 2 => cases r.bound <;> rfl

theorem trget_reads (hm : f.mod = 0) (hx : f.x.toNat < 3) (hz : allZero [f.b, f.c] = true) (hn : tokenOf f.a = some n)
    (hd : vdstLegal c false (opnd f.d) = true) (hnn : (c.g.tok n).neural = false) (hp : c.g.tokPending n = false) :
    ∃ g', exec (.trget f) s = .next { modGroup s c.gid (fun _ => g') with fresh := s.fresh + 1 } ∧
      Wrote (behind c) g' (toVec f.d false (active c f) fun l => trgetVal s c.g f.x.toNat l) noSca noPred := by
  obtain ⟨g', hg', hw⟩ := retire_wrote (F := fun g => (lanesOf (active c f)).foldl (fun t l =>
    writeLane t false (opnd f.d) l (trgetVal s g f.x.toNat l)) g) h (Wrote.mask c.g false f.d (active c f) fun l => trgetVal s c.g f.x.toNat l)
  refine ⟨g', ?_, hw⟩
  refine (exec_masked (f := f) (L := fun c => f.mod == 0 && decide (f.x.toNat < 3) && allZero [f.b, f.c] && (tokenOf f.a).isSome
    && vdstLegal c false (opnd f.d)) rfl h hg (by rw [hm, decide_eq_true hx, hz, hn, hd]; rfl) ha).trans (congrArg _ ?_)
  dsimp only
  rw [hn, Option.getD_some, hnn, if_neg Bool.false_ne_true, whenTokenFree_free hp]
  exact congrArg (fun u : State => { u with fresh := s.fresh + 1 }) hg'

end

/-! ## The end of a round -/

section
variable {s : State} {gid lane : Nat} {g : Group} {r : RayState} {t : Team} (hg : getGroup s gid = some g)
  (hr : spFind g.rays lane = some r) (ht : getTeam s g.team = some t) (ha : r.active = true) (hf : r.fault = none)
  (hs : g.saved = false) (hat : groupAtoms s gid = false)
include hg hr ht ha hf hs hat

theorem traversal_fails (hx : r.failed = true ∨ r.err = true) :
    exec (.traversalComplete gid lane) s = .next (missRay s gid lane r false true) := by
  show settle s (tryTraversalComplete gid lane s) = _
  unfold tryTraversalComplete
  rw [hg]
  dsimp only
  rw [hr, ht]
  dsimp only
  rw [if_neg (by rw [ha, hf, hs, hat]; exact Bool.false_ne_true), if_pos (Bool.or_eq_true_iff.2 hx)]
  rfl

variable (hx : r.failed = false) (he : r.err = false)
include hx he

theorem traversal_empty (hform : rayForm (r.ray.map (·.toNat)) = .empty) :
    exec (.traversalComplete gid lane) s = .next (missRay s gid lane r false false) := by
  show settle s (tryTraversalComplete gid lane s) = _
  unfold tryTraversalComplete
  rw [hg]
  dsimp only
  rw [hr, ht]
  dsimp only
  rw [if_neg (by rw [ha, hf, hs, hat]; exact Bool.false_ne_true), if_neg (by rw [hx, he]; exact Bool.false_ne_true), hform]
  rfl

theorem traversal_walks {ray : Ray} (hform : rayForm (r.ray.map (·.toNat)) = .walk ray) :
    exec (.traversalComplete gid lane) s =
      settle s (traceRay s ⟨gid, lane, t.core.getD 0, t.part, t.ctx, r.known⟩ r ray) := by
  show settle s (tryTraversalComplete gid lane s) = _
  unfold tryTraversalComplete
  rw [hg]
  dsimp only
  rw [hr, ht]
  dsimp only
  rw [if_neg (by rw [ha, hf, hs, hat]; exact Bool.false_ne_true), if_neg (by rw [hx, he]; exact Bool.false_ne_true), hform]

end

theorem traceRay_misaligned {s : State} {th : RayThread} {r : RayState} {ray : Ray} (h : r.root % 128 ≠ 0) :
    traceRay s th r ray = .next (missRay s th.gid th.lane r false true) := if_pos h

theorem traceRay_hits {s s1 : State} {th : RayThread} {r : RayState} {ray : Ray} {hs : List RayHit} (h : r.root % 128 = 0)
    (hw : walkPending th ray (r.ray.getD 3 0).toNat (r.ray.getD 7 0).toNat
      (fun k => if r.mode = 2 then k == 3 else k != 3) r.pend.zipIdx.reverse s r.cand = .ok (hs, s1)) :
    traceRay s th r ray = .next (endRay s1 th.gid th.lane (afterRound r hs) (hitWords r.mode r.km1 (afterRound r hs).hits)
      false false) := by
  unfold traceRay
  dsimp only
  rw [if_neg (not_not.2 h), hw]

/-! ## The hits of a round -/

/-- One hit does not come behind another. -/
def HitLe (a b : RayHit) : Prop := keyLt b.key a.key = false

theorem keyLt_iff (a b : Nat × Nat) : keyLt a b = true ↔ f32Index a.1 < f32Index b.1 ∨ f32Index a.1 = f32Index b.1 ∧ a.2 < b.2 := by
  unfold keyLt
  rw [Bool.or_eq_true, Bool.and_eq_true, decide_eq_true_iff, decide_eq_true_iff, decide_eq_true_iff]

theorem keyLt_false (a b : Nat × Nat) :
    keyLt a b = false ↔ f32Index b.1 < f32Index a.1 ∨ f32Index a.1 = f32Index b.1 ∧ b.2 ≤ a.2 := by
  rw [← Bool.not_eq_true, keyLt_iff]
  omega

theorem HitLe.trans {a b d : RayHit} (h : HitLe a b) (h' : HitLe b d) : HitLe a d := by
  unfold HitLe at *
  rw [keyLt_false] at *
  omega

theorem insertHit_perm (h : RayHit) (ls : List RayHit) : (insertHit h ls).Perm (h :: ls) := by
  induction ls with
  | nil => exact .refl _
  | cons k r ih =>
    unfold insertHit
    split
    · exact .refl _
    · exact (ih.cons k).trans (.swap ..)

theorem insertHit_sorted (h : RayHit) {ls : List RayHit} (hs : ls.Pairwise HitLe) : (insertHit h ls).Pairwise HitLe := by
  induction ls with
  | nil => exact List.pairwise_singleton ..
  | cons k r ih =>
    obtain ⟨hk, hr⟩ := List.pairwise_cons.1 hs
    unfold insertHit
    split
    · next hlt =>
      have hle : HitLe h k := by
        unfold HitLe
        rw [keyLt_iff] at hlt
        rw [keyLt_false]
        omega
      exact List.pairwise_cons.2 ⟨fun x hx => (List.mem_cons.1 hx).elim (fun e => e ▸ hle) fun hx => hle.trans (hk x hx), hs⟩
    · next hlt =>
      refine List.pairwise_cons.2 ⟨fun x hx => ?_, ih hr⟩
      rcases List.mem_cons.1 ((insertHit_perm h r).mem_iff.1 hx) with rfl | hx
      · exact Bool.eq_false_iff.2 hlt
      · exact hk x hx

theorem sortHits_spec (hs : List RayHit) : (sortHits hs).Pairwise HitLe ∧ (sortHits hs).Perm hs := by
  have hgen (acc : List RayHit) (ha : acc.Pairwise HitLe) :
      (hs.foldl (fun l h => insertHit h l) acc).Pairwise HitLe ∧ (hs.foldl (fun l h => insertHit h l) acc).Perm (hs ++ acc) := by
    induction hs generalizing acc with
    | nil => exact ⟨ha, .refl _⟩
    | cons h r ih =>
      have hr := ih (insertHit h acc) (insertHit_sorted h ha)
      exact ⟨hr.1, hr.2.trans (((insertHit_perm h acc).append_left r).trans List.perm_middle)⟩
  have h := hgen [] .nil
  rw [List.append_nil] at h
  exact h

theorem roundHits_other {r : RayState} (hm : r.mode ≠ 2) (hs : List RayHit) : roundHits r hs = sortHits hs := by
  unfold roundHits
  refine List.filter_eq_self.2 fun h _ => ?_
  split
  · next hmode _ => exact absurd hmode hm
  · rfl

/-- A hit past the bound of the round before. -/
def pastBound (r : RayState) (h : RayHit) : Bool :=
  match r.bound with
  | some b => keyLt b h.key
  | none => true

theorem roundHits_multi {r : RayState} (hm : r.mode = 2) (hs : List RayHit) :
    roundHits r hs = (sortHits hs).filter (pastBound r) := by
  unfold roundHits pastBound
  rw [hm]
  cases r.bound <;> rfl

theorem afterRound_nearest {r : RayState} (hm : r.mode ≠ 2) (hs : List RayHit) :
    (hs = [] → (afterRound r hs).hits = []) ∧
      (hs ≠ [] → ∃ h ∈ hs, (afterRound r hs).hits = [h] ∧ ∀ k ∈ hs, keyLt k.key h.key = false) := by
  have hhits : (afterRound r hs).hits = (sortHits hs).take 1 := by
    unfold afterRound
    dsimp only
    rw [if_neg hm, roundHits_other hm]
  obtain ⟨hsort, hperm⟩ := sortHits_spec hs
  rw [hhits]
  refine ⟨fun he => by rw [he]; rfl, fun hne => ?_⟩
  cases hl : sortHits hs with
  | nil => exact absurd (List.perm_nil.1 (hl ▸ hperm).symm) hne
  | cons h rest =>
    rw [hl] at hsort hperm
    refine ⟨h, hperm.mem_iff.1 List.mem_cons_self, rfl, fun k hk => ?_⟩
    rcases List.mem_cons.1 (hperm.mem_iff.2 hk) with rfl | hk
    · rw [keyLt_false]
      omega
    · exact (List.pairwise_cons.1 hsort).1 k hk

theorem afterRound_multi {r : RayState} (hm : r.mode = 2) (hs : List RayHit) :
    (afterRound r hs).hits.length = min (r.km1 + 1) (hs.filter (pastBound r)).length ∧
      (∀ h ∈ (afterRound r hs).hits, h ∈ hs ∧ pastBound r h = true) ∧ (afterRound r hs).hits.Pairwise HitLe ∧
      ((afterRound r hs).more = true ↔ r.km1 + 1 < (hs.filter (pastBound r)).length) := by
  obtain ⟨hsort, hperm⟩ := sortHits_spec hs
  have hall : (roundHits r hs).Perm (hs.filter (pastBound r)) := by
    rw [roundHits_multi hm]
    exact hperm.filter _
  have hhits : (afterRound r hs).hits = (roundHits r hs).take (r.km1 + 1) := if_pos hm
  have hmore : (afterRound r hs).more = decide (((roundHits r hs).take (r.km1 + 1)).length < (roundHits r hs).length) := by
    unfold afterRound
    dsimp only
    rw [if_pos hm, decide_eq_true hm, Bool.true_and]
  rw [hhits, hmore, ← hall.length_eq, List.length_take, decide_eq_true_iff]
  refine ⟨rfl, fun h hh => List.mem_filter.1 (hall.mem_iff.1 (List.mem_of_mem_take hh)), ?_, by omega⟩
  rw [roundHits_multi hm]
  exact (hsort.filter _).sublist (List.take_sublist ..)

/-- Settles O38: a ray is started, ended or continued lane by lane; the hits of a round are the first of an insertion sort by
keys. -/
theorem rays : Obligations.Rays := by
  unfold Obligations.Rays
  intro count
  refine ⟨fun f s c n h hg hl ha hn => ⟨trace_waits h hg ha hl hn, trace_starts h hg ha hl hn⟩,
    fun f s c n h hg hm hx hz hn ha hnn hp hb => ?_, fun f s c n h hg hm hx hz hn hd ha hnn hp => ?_,
    fun s gid lane g r t hg hr ht ha hf hs hat => ⟨traversal_fails hg hr ht ha hf hs hat, fun hx he =>
      ⟨traversal_empty hg hr ht ha hf hs hat hx he, fun ray hform hroot => ?_, fun ray hs' s1 hform hroot hw => ?_⟩⟩,
    fun r hs hm => afterRound_nearest hm hs, fun r hs hm => ?_⟩
  · intro on
    have hon : on = (lanesOf (active c f)).filter (goesOn c.g) := rfl
    have hrays := contGroup_rays s c n (lanesOf_nodup (active c f)) c.g
    obtain ⟨hdone, hpend⟩ := contGroup_tok s c n (lanesOf (active c f)) c.g
    refine ⟨_, trcont_goes h hg ha hm hx hz hn hnn hp hb, hdone, hpend, fun l hl r hr => ?_, fun l hl hoff r hr => ?_⟩
    · rw [hrays, if_pos (hon ▸ hl), hr]
      rfl
    · have hmiss : l ∈ (lanesOf (active c f)).filter fun l => !goesOn c.g l := by
        have hstop : goesOn c.g l = false := Bool.eq_false_iff.2 fun e => hoff (hon ▸ List.mem_filter.2 ⟨hl, e⟩)
        exact List.mem_filter.2 ⟨hl, by rw [hstop]; rfl⟩
      rw [hrays, if_neg (hon ▸ hoff), if_pos hmiss, hr]
      refine congrArg some ?_
      dsimp only
      split <;> rfl
  · obtain ⟨g', hx', hw⟩ := trget_reads h hg ha hm hx hz hn hd hnn hp
    refine ⟨g', hx', hw.congr (fun r l _ => ?_) (fun _ => rfl) fun _ _ _ _ => rfl⟩
    have h0 : f.x = 0 ↔ f.x.toNat = 0 := BitVec.toNat_inj.symm
    have h1 : f.x = 1 ↔ f.x.toNat = 1 := BitVec.toNat_inj.symm
    have h2 : f.x = 2 ↔ f.x.toNat = 2 := BitVec.toNat_inj.symm
    refine congrArg (fun x => if (active c f).getLsbD l = true then regWrite f.d false x r else none) ?_
    dsimp only
    cases hr : spFind c.g.rays l with
    | none =>
      rw [trgetVal_none hr]
      exact if_congr h2 rfl rfl
    | some ray =>
      rw [trgetVal_some hr]
      refine if_congr h0 rfl (if_congr h1 rfl ?_)
      cases ray.bound <;> rfl
  · rw [traversal_walks hg hr ht ha hf hs hat hx he hform, traceRay_misaligned hroot]
    rfl
  · rw [traversal_walks hg hr ht ha hf hs hat hx he hform, traceRay_hits hroot hw]
    rfl
  · exact afterRound_multi hm hs

end Sys2Proof.Claims
end
